-- ==== Sys2Proof/Word.lean ====
section
/-! DEFINITION. The 32-bit register word (data are 32 bits wide, R15), the byte, and the plainest reading of
bits [hi:lo] (R13) of a natural number. -/

namespace Sys2Proof

/-- A register or data word. -/
abbrev Word := BitVec 32

/-- A byte of memory. -/
abbrev Byte := BitVec 8

/-- Bits [hi:lo] of `n`, bit 0 the least significant (R13). -/
def bitsOf (n hi lo : Nat) : Nat := (n >>> lo) % 2 ^ (hi + 1 - lo)

/-- `n` with bits [hi:lo] replaced by the low bits of `v`. -/
def setBitsOf (n hi lo v : Nat) : Nat :=
  n - (bitsOf n hi lo <<< lo) + ((v % 2 ^ (hi + 1 - lo)) <<< lo)

/-- The two's-complement value of the low `w` bits of `n` (R10, R11). -/
def toSigned (w n : Nat) : Int :=
  let m := n % 2 ^ w
  if m < 2 ^ (w - 1) then m else (m : Int) - 2 ^ w

/-- The low `w` bits of an integer, two's complement. -/
def ofSigned (w : Nat) (i : Int) : Nat := (i % 2 ^ w).toNat

end Sys2Proof
end

