-- ==== Sys2Proof/Syntax.lean ====
section
/-! DEFINITION. The commands of the hall and their operands.  One constructor of `Instr` for each row of
the table of operations and events; the operands say which instance of a block the step concerns, who
sends it, and what the step finds outside the device (levels, codes, frames, error findings). -/

namespace Sys2Proof

/-- What the error checks of a memory or bus find on an access (R30–R33). -/
inductive EccFinding where
  | clean
  | correctable (syndrome : BitVec 8)
  | uncorrectable
  deriving DecidableEq, Repr

/-- What an access meets on its way: how often the transfer's parity fails at the receiver (R30; two
failures end the access) and what the protection of the target memory finds (R31, R32). -/
structure BusEnv where
  parityFails : Nat := 0
  ecc : EccFinding := .clean
  /-- The finding in the upper word, where a read covers two SECDED words (R29). -/
  high : EccFinding := .clean
  deriving DecidableEq, Repr

/-- A write issued by an initiator (numbers of R48): address, width in bits, data. -/
structure Access where
  init : Fin 16
  addr : Nat
  width : Nat := 32
  data : BitVec 64
  env : BusEnv := {}
  deriving DecidableEq, Repr

/-- What a reset or restore finds outside the digital state: whether the PCIe PLL has locked to
PE_REFCLK (R390), which option copies cannot be read (R371), and which 64-bit words of the cellar store
have an uncorrectable error (R384, R397). -/
structure ResetEnv where
  pcieLocked : Bool := true
  optBad : BitVec 2 := 0
  unreadable : List Nat := []
  deriving DecidableEq, Repr

/-- The voltages at a converter or comparator input, in µV, with the reference of the aisle: the positive
input, the negative input of a pair, VREF (R105, R139). -/
structure Sample where
  pos : Int := 0
  neg : Int := 0
  vref : Nat := 2500000
  deriving DecidableEq, Repr

/-- The voltages of the four AIN balls of a stall, in µV, with the reference of the aisle (R137, R139). -/
structure BallVolts where
  ain : Vector Int 4 := Vector.replicate 4 0
  vref : Nat := 2500000
  deriving DecidableEq, Repr

/-- The level of a ball, and for how long the ball has held it, in 1/6400 ns (R111, R578). -/
structure BallLevel where
  level : Bool
  since : Nat
  deriving DecidableEq, Repr

/-- The level of one of the balls that START_PIN and STOP_PIN choose among (R111). -/
structure PinLevel where
  ball : Fin 8
  line : BallLevel
  deriving DecidableEq, Repr

/-- The level of the Z ball of a quadrature decoder (R533, R534). -/
structure ZLine where
  d : Fin 4
  line : BallLevel
  deriving DecidableEq, Repr

/-- What a comparator's analog output shows: the voltages, how long ago they changed it, and for how long it has kept the
change (R143). -/
structure OutputChange where
  volts : BallVolts := {}
  age : Nat
  held : Nat
  deriving DecidableEq, Repr

/-- A parity mismatch of a core: whether the marked instruction is a shadow read, where a ROM holds it (R311). -/
structure ReplayMark where
  c : Fin 4
  shadowNext : Bool := false
  deriving DecidableEq, Repr

/-- What PROG_LINES meets: the finding in the line that it checks, and its access to the source (R351, R356). -/
structure LineSource where
  ecc : EccFinding := .clean
  bus : BusEnv := {}
  deriving DecidableEq, Repr

/-- How the programming of a line ends: whether its data verified, and what its read finds (R351, R356). -/
structure LineOutcome where
  ok : Bool
  ecc : EccFinding := .clean
  deriving DecidableEq, Repr

/-- The sum of the 256 raw codes a calibration converts (R118); the hardware's sum lies in the range of 256
codes of R105. -/
structure CalCodes where
  sum : Int := 0
  deriving DecidableEq, Repr

/-- The codes of an open-wire diagnostic scan: for each ball input the code with the pull-up and the code
with the pull-down (R124). -/
structure DiagCodes where
  up : Vector (BitVec 16) 4 := Vector.replicate 4 0
  dn : Vector (BitVec 16) 4 := Vector.replicate 4 0
  deriving DecidableEq, Repr

/-- The start of a diagnostic scan of a converter, with the codes of its elements but the last (R124). -/
structure DiagStart where
  k : Fin 12
  codes : DiagCodes := {}
  deriving DecidableEq, Repr

/-- An upset of one lane of a stall engine before an operation: bits of one working register flip (the
single faults that R90 and R232–R234 absorb). -/
structure LaneUpset where
  lane : Bool
  reg : Fin 32
  mask : BitVec 32
  deriving DecidableEq, Repr


/-- What the reads of a flash operation find, line by line counted from the operation's first (R358): lines
with an uncorrectable error, and lines with a correctable one. -/
structure LineFindings where
  uncorrectable : List Nat := []
  correctable : List Nat := []
  deriving DecidableEq, Repr

/-- A mailbox message (R446): DST, SRC, SEQ, SVC, KIND (0 request, 1 response, 2 datagram), CIRC, payload. -/
structure RingMsg where
  dst : Nat
  src : Nat
  seq : Nat
  svc : Nat
  kind : Nat
  circ : Bool := false
  payload : List (BitVec 8) := []
  deriving DecidableEq, Repr

/-- What stands in a mailbox segment (R446): a message, or a free run with its length in blocks. -/
inductive MbxRun where
  | free (blocks : Nat)
  | msg (m : RingMsg)
  deriving DecidableEq, Repr

/-- A process-data segment (R433): its data blocks and trailer, and whether its CRC holds. -/
structure RingSlot where
  node : Nat
  data : List (BitVec 64)
  written : BitVec 24
  valid : Bool
  armed : Bool
  crcOk : Bool := true
  deriving DecidableEq, Repr

/-- A frame (R427, R428): header, schedule, process-data segments in ascending node, mailbox, and whether
the CRC of header, schedule and mailbox hold. -/
structure RingFrame where
  cycle : BitVec 32
  master : Nat
  mktTrip : Bool := false
  mktAcc : Bool := false
  wrapped : Bool := false
  mt : BitVec 64
  accDly : Nat := 0
  period : Nat
  hdrOk : Bool := true
  tnext : BitVec 64
  lens : Vector (BitVec 6) 64 := Vector.replicate 64 0
  mbxLen : Nat := 0
  lag : Fin 4 := 0
  schedOk : Bool := true
  slots : List RingSlot := []
  mbx : List MbxRun := []
  mbxOk : Bool := true
  deriving DecidableEq, Repr

/-- The NVMe status with which the drive completes a command, and with which it completes the repeat of one
that failed (R490); 0 is success. -/
structure NvmeResult where
  first : BitVec 16 := 0
  second : BitVec 16 := 0
  deriving DecidableEq, Repr

/-- A checkpoint copy as the drive returns it (R492): whether its CRC is good, and its payload. -/
structure CkptCopy where
  good : Bool := false
  count : BitVec 32 := 0
  nextSeq : BitVec 64 := 1
  wptr : BitVec 32 := 2
  oldest : BitVec 32 := 2
  start : BitVec 64 := 0
  len : BitVec 32 := 0
  deriving DecidableEq, Repr

/-- What bring-up meets (R490, R492): the link's width and speed, the step that fails (0 none) with opcode and
status, whether the namespace fits, both checkpoint copies, and how many further blocks the scan accepts. -/
structure DriveEnv where
  width : Fin 16 := 2
  speed : Fin 16 := 4
  failStep : Fin 8 := 0
  opc : BitVec 8 := 0
  stat : BitVec 16 := 0
  namespaceOk : Bool := true
  copyA : CkptCopy := {}
  copyB : CkptCopy := {}
  scanned : Nat := 0
  deriving DecidableEq, Repr

/-- A frame that a UART receives (R528). -/
structure UartFrame where
  data : BitVec 8
  parityError : Bool := false
  framingError : Bool := false
  deriving DecidableEq, Repr

/-- A CAN frame as a slot or RX_HEAD holds it (R539): its ID word, its FLAGS word, its data words. -/
structure CanFrame where
  id : BitVec 32
  flags : BitVec 32 := 0
  data : List (BitVec 32) := []
  deriving DecidableEq, Repr

/-- What a USDO frame asks for (R468): an expedited download, the start and segments of a segmented one, an upload and
its further segments, an abort transfer. -/
inductive UsdoOp where
  | download (index : BitVec 16) (sub : BitVec 8) (data : List (BitVec 8))
  | downloadStart (index : BitVec 16) (sub : BitVec 8) (size : Nat)
  | downloadSegment (data : List (BitVec 8)) (last : Bool)
  | upload (index : BitVec 16) (sub : BitVec 8)
  | uploadSegment
  | abort
  deriving DecidableEq, Repr

/-- What an I²C byte operation meets on the bus (R532): the byte read, a NACK to a written byte, a lost
arbitration. -/
structure IicResult where
  byte : BitVec 8 := 0
  nack : Bool := false
  arbLost : Bool := false
  deriving DecidableEq, Repr

/-- The commands of the hall: one constructor for each row of the table of operations and events. -/
inductive Instr where
  /-- REGISTER_WRITE (R52). -/
  | registerWrite (a : Access)
  /-- ECC_WRITE_BACK (R31). -/
  | eccWriteBack (addr : Nat)
  /-- ECC_CLEAR (R47). -/
  | eccClear (init : Fin 16) (value : Word)
  /-- ACCESS_ACKNOWLEDGE (R26). -/
  | accessAcknowledge (c : Fin 4)
  /-- ZERO (R75). -/
  | zero (g : Fin 12)
  /-- PERIOD (R75). -/
  | period (g : Fin 12)
  /-- EVA_UP (R75). -/
  | evaUp (g : Fin 12)
  /-- EVA_DN (R75). -/
  | evaDn (g : Fin 12)
  /-- EVB_UP (R75). -/
  | evbUp (g : Fin 12)
  /-- EVB_DN (R75). -/
  | evbDn (g : Fin 12)
  /-- LOCKED_CARRIER_START (R83). -/
  | lockedCarrierStart (g : Fin 12)
  /-- SG_FIRE (R79). -/
  | sgFire (init : Fin 16) (a : Fin 3) (groups : BitVec 4)
  /-- SG_CLR (R101). -/
  | sgClr (init : Fin 16) (a : Fin 3) (groups : BitVec 4)
  /-- BLK_CLR (R101). -/
  | blkClr (init : Fin 16) (a : Fin 3) (channels : BitVec 8)
  /-- BLANKING_MAXLEN (R93). -/
  | blankingMaxlen (a : Fin 3) (b : Fin 8)
  /-- PHASE_MEASUREMENT (R84). -/
  | phaseMeasurement (a : Fin 3) (lag : Fin 65)
  /-- PHASE_VALID_EXPIRY (R84). -/
  | phaseValidExpiry (a : Fin 3)
  /-- APERTURE (R79). -/
  | aperture (s : Fin 12) (v : Sample)
  /-- RAW_CODE (R80). -/
  | rawCode (s : Fin 12)
  /-- CORRECTED_RESULT (R116). -/
  | correctedResult (s : Fin 12)
  /-- SCAN_COMPLETE (R80). -/
  | scanComplete (s : Fin 12)
  /-- SW_TRIG (R109). -/
  | swTrig (init : Fin 16) (s : Fin 12)
  /-- START_EDGE (R111). -/
  | startEdge (s : Fin 12) (x : PinLevel)
  /-- STOP_EDGE (R111). -/
  | stopEdge (s : Fin 12) (x : PinLevel)
  /-- STOP (R110). -/
  | stop (init : Fin 16) (s : Fin 12)
  /-- BACK_TO_BACK_SCAN (R110). -/
  | backToBackScan (s : Fin 12)
  /-- CAL_ZERO (R119). -/
  | calZero (init : Fin 16) (s : Fin 12) (input : Fin 8)
  /-- CAL_FULL (R120). -/
  | calFull (init : Fin 16) (s : Fin 12) (input : Fin 8)
  /-- CALIBRATION_END (R121). -/
  | calibrationEnd (s : Fin 12) (codes : CalCodes)
  /-- DIAG (R124). -/
  | diag (init : Fin 16) (s : Fin 12)
  /-- DIAG_SCAN_START (R124). -/
  | diagScanStart (x : DiagStart)
  /-- DIAG_SCAN_END (R125). -/
  | diagScanEnd (s : Fin 12) (last : BitVec 16)
  /-- SELFCHK (R128). -/
  | selfchk (init : Fin 16) (s : Fin 12)
  /-- SELF_CHECK_ATTEMPT (R127). -/
  | selfCheckAttempt (s : Fin 12)
  /-- SELF_CHECK_ELEMENT (R127). -/
  | selfCheckElement (s : Fin 12)
  /-- SELF_CHECK_RESULT (R129). -/
  | selfCheckResult (s : Fin 12) (v : Sample)
  /-- BGSTARVED (R130). -/
  | bgstarved (s : Fin 12)
  /-- CNV_CNT_CLR (R133). -/
  | cnvCntClr (init : Fin 16) (s : Fin 12)
  /-- COMPARATOR_OUTPUT_CHANGE (R143). -/
  | comparatorOutputChange (c : Fin 24) (x : OutputChange)
  /-- SETTLING_END (R144). -/
  | settlingEnd (c : Fin 24) (v : BallVolts)
  /-- TICK (R146). -/
  | tick (c : Fin 24)
  /-- SAMPLED_DECISION (R145). -/
  | sampledDecision (c : Fin 24) (v : BallVolts)
  /-- CMP_RELEASE (R150). -/
  | cmpRelease (init : Fin 16) (c : Fin 24)
  /-- FLAG_REL (R149). -/
  | flagRel (init : Fin 16) (c : Fin 24) (flags : BitVec 4)
  /-- CMP_CNT_CLR (R154). -/
  | cmpCntClr (init : Fin 16) (c : Fin 24)
  /-- ARMING_STATE_ARRIVAL (R404). -/
  | armingStateArrival (a : Fin 3)
  /-- CAR_CNT_CLR (R162). -/
  | carCntClr (init : Fin 16) (g : Fin 12)
  /-- SHADOW_WRITE (R169). -/
  | shadowWrite (init : Fin 16) (l : Fin 48) (k : Fin 4) (value : Word)
  /-- COMMIT (R171). -/
  | commit (init : Fin 16) (l : Fin 48)
  /-- GCOMMIT (R172). -/
  | gcommit (init : Fin 16) (l : Fin 48) (mask : Word)
  /-- LEG_CNT_CLR (R183). -/
  | legCntClr (init : Fin 16) (l : Fin 48)
  /-- COMPARE_EDGE (R164). -/
  | compareEdge (l : Fin 48)
  /-- DEAD_TIME_END (R165). -/
  | deadTimeEnd (l : Fin 48)
  /-- TRIPIN_EDGE (R188). -/
  | tripinEdge (i : Fin 8) (x : BallLevel)
  /-- TRIP_SOURCE_ACTIVE (R191). -/
  | tripSourceActive (i : Fin 46)
  /-- GROUP_STATE_ARRIVAL (R199). -/
  | groupStateArrival (q : Fin 16) (a : Fin 3)
  /-- TRP_RELEASE (R202). -/
  | trpRelease (init : Fin 16) (mask : BitVec 16)
  /-- TRP_CNT_CLR (R194). -/
  | trpCntClr (init : Fin 16)
  /-- SWTRIP (R190). -/
  | swtrip (init : Fin 16) (value : Word)
  /-- START (R212). -/
  | start (init : Fin 16) (e : Fin 12)
  /-- ENG_END (R218). -/
  | engEnd (e : Fin 12)
  /-- ENG_LD (R228). -/
  | engLd (e : Fin 12) (u : Option LaneUpset)
  /-- ENG_LDR (R229). -/
  | engLdr (e : Fin 12) (u : Option LaneUpset)
  /-- ENG_LDM (R218). -/
  | engLdm (e : Fin 12) (u : Option LaneUpset)
  /-- ENG_MOV (R218). -/
  | engMov (e : Fin 12) (u : Option LaneUpset)
  /-- ENG_LDI (R220). -/
  | engLdi (e : Fin 12) (u : Option LaneUpset)
  /-- ENG_ADD (R220). -/
  | engAdd (e : Fin 12) (u : Option LaneUpset)
  /-- ENG_SUB (R220). -/
  | engSub (e : Fin 12) (u : Option LaneUpset)
  /-- ENG_MUL (R220). -/
  | engMul (e : Fin 12) (u : Option LaneUpset)
  /-- ENG_MAC (R220). -/
  | engMac (e : Fin 12) (u : Option LaneUpset)
  /-- ENG_SAT (R220). -/
  | engSat (e : Fin 12) (u : Option LaneUpset)
  /-- ENG_CLAMP (R220). -/
  | engClamp (e : Fin 12) (u : Option LaneUpset)
  /-- ENG_ABS (R220). -/
  | engAbs (e : Fin 12) (u : Option LaneUpset)
  /-- ENG_PI (R221). -/
  | engPi (e : Fin 12) (u : Option LaneUpset)
  /-- ENG_CLARKE (R222). -/
  | engClarke (e : Fin 12) (u : Option LaneUpset)
  /-- ENG_PARK (R222). -/
  | engPark (e : Fin 12) (u : Option LaneUpset)
  /-- ENG_IPARK (R222). -/
  | engIpark (e : Fin 12) (u : Option LaneUpset)
  /-- ENG_SINCOS (R223). -/
  | engSincos (e : Fin 12) (u : Option LaneUpset)
  /-- ENG_NCO (R223). -/
  | engNco (e : Fin 12) (u : Option LaneUpset)
  /-- ENG_SVM (R224). -/
  | engSvm (e : Fin 12) (u : Option LaneUpset)
  /-- ENG_ST (R225). -/
  | engSt (e : Fin 12) (u : Option LaneUpset)
  /-- ENG_STI (R225). -/
  | engSti (e : Fin 12) (u : Option LaneUpset)
  /-- ENG_STO (R226). -/
  | engSto (e : Fin 12) (u : Option LaneUpset)
  /-- ENG_TRIP (R226). -/
  | engTrip (e : Fin 12) (u : Option LaneUpset)
  /-- ENG_MARK (R226). -/
  | engMark (e : Fin 12) (u : Option LaneUpset)
  /-- ENG_BRF (R227). -/
  | engBrf (e : Fin 12) (u : Option LaneUpset)
  /-- ILLOP (R235). -/
  | illop (e : Fin 12) (secded : Bool)
  /-- RESULT_RELEASE (R232). -/
  | resultRelease (e : Fin 12)
  /-- VOTE (R234). -/
  | vote (e : Fin 12)
  /-- DEADLINE_MISS (R91). -/
  | deadlineMiss (e : Fin 12)
  /-- FLT_REL (R235). -/
  | fltRel (init : Fin 16) (e : Fin 12) (faults : BitVec 5)
  /-- TRIP_REL (R237). -/
  | tripRel (init : Fin 16) (e : Fin 12)
  /-- PUBLISH (R230). -/
  | publish (init : Fin 16) (e : Fin 12)
  /-- ENG_CNT_CLR (R243). -/
  | engCntClr (init : Fin 16) (e : Fin 12)
  /-- NCO_PHASE (R223). -/
  | ncoPhase (init : Fin 16) (e : Fin 12) (value : Word)
  /-- NCO_FREQ (R223). -/
  | ncoFreq (init : Fin 16) (e : Fin 12) (value : Word)
  /-- FREEZE (R241). -/
  | freeze (init : Fin 16) (e : Fin 12) (value : Word)
  /-- BCC (R287). -/
  | xBcc (c : Fin 4) (cond : Fin 7) (disp : BitVec 8) (ext : Option (BitVec 12))
  /-- BRA (R287). -/
  | xBra (c : Fin 4) (disp : BitVec 8) (ext : Option (BitVec 12))
  /-- JMP (R287). -/
  | xJmp (c : Fin 4) (n : Fin 16)
  /-- CALL (R250). -/
  | xCall (c : Fin 4) (target : BitVec 24)
  /-- CALLR (R250). -/
  | xCallr (c : Fin 4) (n : Fin 16)
  /-- RET (R250). -/
  | xRet (c : Fin 4)
  /-- RETI (R326). -/
  | xReti (c : Fin 4)
  /-- TRAP (R287). -/
  | xTrap (c : Fin 4) (n : Fin 64)
  /-- MOV (R288). -/
  | xMov (c : Fin 4) (d n : Fin 16)
  /-- MOVI (R288). -/
  | xMovi (c : Fin 4) (d : Fin 16) (f : BitVec 4) (ext : Option (BitVec 12))
  /-- MOVHI (R288). -/
  | xMovhi (c : Fin 4) (d : Fin 16) (f : BitVec 4) (ext : Option (BitVec 12))
  /-- ADD (R288). -/
  | xAdd (c : Fin 4) (d n : Fin 16)
  /-- ADDI (R288). -/
  | xAddi (c : Fin 4) (d : Fin 16) (f : BitVec 4) (ext : Option (BitVec 12))
  /-- SUB (R288). -/
  | xSub (c : Fin 4) (d n : Fin 16)
  /-- CMP (R288). -/
  | xCmp (c : Fin 4) (d n : Fin 16)
  /-- AND (R288). -/
  | xAnd (c : Fin 4) (d n : Fin 16)
  /-- OR (R288). -/
  | xOr (c : Fin 4) (d n : Fin 16)
  /-- XOR (R288). -/
  | xXor (c : Fin 4) (d n : Fin 16)
  /-- SHL (R290). -/
  | xShl (c : Fin 4) (d n : Fin 16)
  /-- SHR (R290). -/
  | xShr (c : Fin 4) (d n : Fin 16)
  /-- ASR (R290). -/
  | xAsr (c : Fin 4) (d n : Fin 16)
  /-- SHLI (R290). -/
  | xShli (c : Fin 4) (d : Fin 16) (f : BitVec 4) (ext : Option (BitVec 12))
  /-- SHRI (R290). -/
  | xShri (c : Fin 4) (d : Fin 16) (f : BitVec 4) (ext : Option (BitVec 12))
  /-- ASRI (R290). -/
  | xAsri (c : Fin 4) (d : Fin 16) (f : BitVec 4) (ext : Option (BitVec 12))
  /-- NOT (R288). -/
  | xNot (c : Fin 4) (d : Fin 16)
  /-- NEG (R288). -/
  | xNeg (c : Fin 4) (d : Fin 16)
  /-- ABS (R288). -/
  | xAbs (c : Fin 4) (d : Fin 16)
  /-- SEXTB (R288). -/
  | xSextb (c : Fin 4) (d : Fin 16)
  /-- SEXTH (R288). -/
  | xSexth (c : Fin 4) (d : Fin 16)
  /-- ZEXTB (R288). -/
  | xZextb (c : Fin 4) (d : Fin 16)
  /-- ZEXTH (R288). -/
  | xZexth (c : Fin 4) (d : Fin 16)
  /-- CLZ (R288). -/
  | xClz (c : Fin 4) (d : Fin 16)
  /-- MUL (R291). -/
  | xMul (c : Fin 4) (d n : Fin 16)
  /-- QMUL (R291). -/
  | xQmul (c : Fin 4) (d n : Fin 16)
  /-- QMAC (R291). -/
  | xQmac (c : Fin 4) (d n : Fin 16)
  /-- DIVS (R291). -/
  | xDivs (c : Fin 4) (d n : Fin 16)
  /-- DIVU (R291). -/
  | xDivu (c : Fin 4) (d n : Fin 16)
  /-- DADD (R273). -/
  | xDadd (c : Fin 4) (d n : Fin 16)
  /-- DADD_C (R273). -/
  | xDaddC (c : Fin 4) (d n : Fin 16)
  /-- DSUB (R273). -/
  | xDsub (c : Fin 4) (d n : Fin 16)
  /-- DSUB_C (R273). -/
  | xDsubC (c : Fin 4) (d n : Fin 16)
  /-- DADJ (R273). -/
  | xDadj (c : Fin 4) (d : Fin 16)
  /-- DCMP (R273). -/
  | xDcmp (c : Fin 4) (d n : Fin 16)
  /-- D2B (R273). -/
  | xD2b (c : Fin 4) (d : Fin 16)
  /-- B2D (R273). -/
  | xB2d (c : Fin 4) (d : Fin 16)
  /-- LD (R293). -/
  | xLd (c : Fin 4) (d n : Fin 16) (ext : Option (BitVec 12)) (env : BusEnv)
  /-- ST (R293). -/
  | xSt (c : Fin 4) (d n : Fin 16) (ext : Option (BitVec 12)) (env : BusEnv)
  /-- LOOP (R261). -/
  | xLoop (c : Fin 4) (n : Fin 16) (disp : BitVec 4) (ext : Option (BitVec 12))
  /-- LOOP_IMM (R261). -/
  | xLoopImm (c : Fin 4) (count disp : BitVec 4) (ext : Option (BitVec 12))
  /-- LPOP (R262). -/
  | xLpop (c : Fin 4)
  /-- LOCK (R265). -/
  | xLock (c : Fin 4) (n : Fin 8)
  /-- NOP (R294). -/
  | xNop (c : Fin 4)
  /-- WAIT (R295). -/
  | xWait (c : Fin 4)
  /-- SYNCP (R275). -/
  | xSyncp (c : Fin 4)
  /-- SPILL (R254). -/
  | xSpill (c : Fin 4) (env : List BusEnv)
  /-- FILL (R254). -/
  | xFill (c : Fin 4) (env : List BusEnv)
  /-- MFC (R255). -/
  | xMfc (c : Fin 4) (d n : Fin 16) (ext : Option (BitVec 12))
  /-- MTC (R256). -/
  | xMtc (c : Fin 4) (d n : Fin 16) (ext : Option (BitVec 12))
  /-- BMOV (R268). -/
  | xBmov (c : Fin 4) (n : Fin 16) (rd wr : BusEnv)
  /-- VMAC (R268). -/
  | xVmac (c : Fin 4) (d n : Fin 16) (ra rb : BusEnv)
  /-- BCRC (R270). -/
  | xBcrc (c : Fin 4) (d n : Fin 16) (env : BusEnv)
  /-- LINE_FETCH (R300). -/
  | lineFetch (c : Fin 4) (a : BitVec 24) (ecc : EccFinding) (parityFails : Nat)
  /-- STORE_DRAIN (R309). -/
  | storeDrain (c : Fin 4) (env : BusEnv)
  /-- IMPRECISE_STORE_ERROR (R310). -/
  | impreciseStoreError (c : Fin 4) (shadowNext : Bool)
  /-- PARITY_REPLAY (R311). -/
  | parityReplay (x : ReplayMark)
  /-- INTERRUPT_ENTRY (R315). -/
  | interruptEntry (c : Fin 4) (shadowNext : Bool)
  /-- MASK_OVERRUN (R328). -/
  | maskOverrun (c : Fin 4) (shadowNext : Bool)
  /-- CORE_RESET (R387). -/
  | coreReset (c : Fin 4)
  /-- PULSE_SOURCE (R336). -/
  | pulseSource (n : Fin 256)
  /-- LEVEL_SOURCE (R336). -/
  | levelSource (n : Fin 256)
  /-- PEND_SET (R337). -/
  | pendSet (init : Fin 16) (w : Fin 8) (mask : Word)
  /-- PEND_CLR (R337). -/
  | pendClr (init : Fin 16) (w : Fin 8) (mask : Word)
  /-- EN_SET (R337). -/
  | enSet (init : Fin 16) (w : Fin 8) (mask : Word)
  /-- EN_CLR (R337). -/
  | enClr (init : Fin 16) (w : Fin 8) (mask : Word)
  /-- CLAIM (R338). -/
  | claim (init : Fin 16) (c : Fin 4) (v : Fin 8) (peek : Bool)
  /-- COMPLETE (R339). -/
  | complete (init : Fin 16) (c : Fin 4) (v : Fin 8) (value : Word)
  /-- DOORBELL (R343). -/
  | doorbell (init : Fin 16) (value : Word)
  /-- EXT_CFG (R342). -/
  | extCfg (init : Fin 16) (i : Fin 8) (value : Word)
  /-- EXTINT_EDGE (R342). -/
  | extintEdge (i : Fin 8) (x : BallLevel)
  /-- FQ_HEAD (R354). -/
  | fqHead (init : Fin 16) (value : Word)
  /-- DESCRIPTOR_FETCH (R357). -/
  | descriptorFetch (env : BusEnv)
  /-- PROG_LINES (R356). -/
  | progLines (x : LineSource)
  /-- ERASE_SECTOR (R356). -/
  | eraseSector
  /-- ERASE_BANK (R356). -/
  | eraseBank
  /-- BLANK_CHECK (R356). -/
  | blankCheck (f : LineFindings)
  /-- VERIFY (R356). -/
  | verify (f : LineFindings) (env : BusEnv)
  /-- OPT_WRITE (R372). -/
  | optWrite (env : BusEnv)
  /-- OPT_ERASE (R372). -/
  | optErase
  /-- LINE_PROGRAM_END (R352). -/
  | lineProgramEnd (x : LineOutcome)
  /-- DESCRIPTOR_COMPLETION (R358). -/
  | descriptorCompletion (failing : Option (Fin 262144))
  /-- FLC_RESUME (R359). -/
  | flcResume (init : Fin 16)
  /-- SUSPEND (R362). -/
  | suspend (init : Fin 16)
  /-- RESUME_ERASE (R364). -/
  | resumeErase (init : Fin 16)
  /-- FLC_CNT_CLR (R377). -/
  | flcCntClr (init : Fin 16)
  /-- WP_SET (R353). -/
  | wpSet (init : Fin 16) (w : Fin 8) (mask : Word)
  /-- FLASH_READ (R352). -/
  | flashRead (init : Fin 16) (offset : BitVec 24) (fetch : Bool) (ecc : EccFinding)
  /-- ERASE_SUSPEND (R362). -/
  | eraseSuspend
  /-- ERASE_RESUME (R364). -/
  | eraseResume
  /-- SCRUB_READ (R368). -/
  | scrubRead (ecc : EccFinding)
  /-- SCRUB_REFRESH (R369). -/
  | scrubRefresh (gone : Bool)
  /-- POWER_ON_RESET (R385). -/
  | powerOnReset
  /-- RESET_N (R386). -/
  | resetN (x : BallLevel)
  /-- SUPPLY_MONITOR (R381). -/
  | supplyMonitor (rail : Fin 4) (below : Bool)
  /-- SUP_WARN (R381). -/
  | supWarn (below : Bool)
  /-- RESET_SEQUENCE (R390). -/
  | resetSequence (env : ResetEnv)
  /-- ATTIC_ISLAND_UP (R390). -/
  | atticIslandUp (env : ResetEnv)
  /-- ISLAND_RESET (R388). -/
  | islandReset (island : Fin 16) (env : ResetEnv)
  /-- DEBUG_RESET (R385). -/
  | debugReset
  /-- DBG_POWER_ON (R382). -/
  | dbgPowerOn (trstN : Bool)
  /-- HALL_RESET_CMD (R389). -/
  | hallResetCmd (init : Fin 16)
  /-- CORE_RESET_CMD (R389). -/
  | coreResetCmd (init : Fin 16) (target : Fin 16)
  /-- ISLAND_RESET_CMD (R388). -/
  | islandResetCmd (init : Fin 16) (target : Fin 16)
  /-- SNAPSHOT (R392). -/
  | snapshot (init : Fin 16)
  /-- SHUTDOWN (R395). -/
  | shutdown (init : Fin 16)
  /-- DEF_SAVE (R392). -/
  | defSave (init : Fin 16)
  /-- PFAIL_N_FALL (R580). -/
  | pfailNFall
  /-- PFAIL_N_RISE (R395). -/
  | pfailNRise
  /-- SNAPSHOT_END (R394). -/
  | snapshotEnd
  /-- LEDGER_ENTRY_WRITE (R400). -/
  | ledgerEntryWrite
  /-- LEDGER_CLR (R400). -/
  | ledgerClr (init : Fin 16)
  /-- CEL_CNT_CLR (R400). -/
  | celCntClr (init : Fin 16)
  /-- ARM_KEY_READY (R402). -/
  | armKeyReady (init : Fin 16) (value : Word)
  /-- ARM_KEY_ARM (R402). -/
  | armKeyArm (init : Fin 16) (value : Word)
  /-- ARM_WINDOW_EXPIRY (R402). -/
  | armWindowExpiry
  /-- COND_CHANGE (R581). -/
  | condChange (k : Fin 5)
  /-- DISARM (R404). -/
  | disarm (init : Fin 16)
  /-- ARM_CNT_CLR (R409). -/
  | armCntClr (init : Fin 16)
  /-- SAFE_N_LOW (R404). -/
  | safeNLow
  /-- SAFE_N_HIGH (R404). -/
  | safeNHigh
  /-- WATCHDOG_TICK (R406). -/
  | watchdogTick
  /-- SERVICE (R406). -/
  | service (init : Fin 16) (value : Word)
  /-- WATCHDOG_EXPIRY (R407). -/
  | watchdogExpiry
  /-- PORT_UP (R415). -/
  | portUp (p : Fin 2)
  /-- IDENT (R415). -/
  | ident (p : Fin 2) (node : BitVec 7) (up : Bool)
  /-- DLY_REQ (R416). -/
  | dlyReq (p : Fin 2)
  /-- DLY_RSP (R416). -/
  | dlyRsp (p : Fin 2) (turnaround : Nat)
  /-- LINK_DELAY_MEASUREMENT (R416). -/
  | linkDelayMeasurement (p : Fin 2)
  /-- PORT_DOWN (R418). -/
  | portDown (p : Fin 2)
  /-- LINK_FAULT (R418). -/
  | linkFault (p : Fin 2)
  /-- UNWRAP (R418). -/
  | unwrap (p : Fin 2)
  /-- BEACON (R423). -/
  | beacon (node : BitVec 7) (priority : Bool)
  /-- MASTER_ELECTION (R423). -/
  | masterElection
  /-- CYCLE_START (R426). -/
  | cycleStart
  /-- FRAME (R427). -/
  | frame (f : RingFrame)
  /-- CAPTURE_INSTANT (R432). -/
  | captureInstant
  /-- APPLY_INSTANT (R435). -/
  | applyInstant
  /-- CYCLE_LOST (R431). -/
  | cycleLost
  /-- REFERENCE_SWITCH (R440). -/
  | referenceSwitch
  /-- TRIP (R443). -/
  | trip (p : Fin 2) (origin : BitVec 7) (seq : BitVec 8) (ok : Bool)
  /-- REC (R445). -/
  | record (p : Fin 2) (origin : BitVec 7) (seq : BitVec 8) (time : BitVec 64) (ok : Bool)
  /-- MAILBOX_TIMEOUT (R448). -/
  | mailboxTimeout
  /-- PD_PUBLISH (R432). -/
  | pdPublish (init : Fin 16)
  /-- MBX_SEND (R449). -/
  | mbxSend (init : Fin 16)
  /-- RX_POP (R449). -/
  | rxPop (init : Fin 16)
  /-- KNR_CNT_CLR (R453). -/
  | knrCntClr (init : Fin 16)
  /-- OD_REQUEST (R466). -/
  | odRequest (m : RingMsg)
  /-- OD_READ (R464). -/
  | odRead (env : List BusEnv)
  /-- OD_WRITE (R461). -/
  | odWrite (env : List BusEnv)
  /-- BLOCK_READ (R464). -/
  | blockRead (env : List BusEnv) (drive : List (Option (List Word)))
  /-- BLOCK_WRITE (R464). -/
  | blockWrite (env : List BusEnv)
  /-- BLOCK_WRITE_END (R464). -/
  | blockWriteEnd (env : List BusEnv)
  /-- OD_SAVE (R463). -/
  | odSave (env : List BusEnv)
  /-- RESTORE_DEFAULTS (R463). -/
  | restoreDefaults (env : List BusEnv)
  /-- USDO_REQUEST (R468). -/
  | usdoRequest (client : BitVec 7) (target : Option (BitVec 7)) (op : UsdoOp) (env : List BusEnv) (drive : List (Option (List Word)))
  /-- ODSVC (R469). -/
  | odsvc (c : Fin 4) (node : BitVec 7) (env : List BusEnv) (drive : List (Option (List Word)))
  /-- FEATURES_ACCEPTED (R471). -/
  | featuresAccepted (env : List BusEnv)
  /-- NEGOTIATION_TIMEOUT (R471). -/
  | negotiationTimeout
  /-- ODE_CNT_CLR (R476). -/
  | odeCntClr (init : Fin 16)
  /-- CONTROLWORD (R473). -/
  | controlword (env : List BusEnv)
  /-- TARGET_TORQUE (R472). -/
  | targetTorque (env : List BusEnv)
  /-- AXIS_FAULT (R473). -/
  | axisFault (x : Fin 8)
  /-- RECORDER_ITEM (R477). -/
  | recorderItem
  /-- TRIG (R484). -/
  | trig (init : Fin 16)
  /-- WINDOW_CLOSE (R484). -/
  | windowClose
  /-- DRIVE_WRITE (R489). -/
  | driveWrite (window : Bool) (n : Fin 33) (r : NvmeResult)
  /-- PERST_RELEASE (R488). -/
  | perstRelease
  /-- BRING_UP (R490). -/
  | bringUp (env : DriveEnv)
  /-- BRING_UP_RESTART (R490). -/
  | bringUpRestart
  /-- CHECKPOINT (R492). -/
  | checkpoint (r : NvmeResult)
  /-- CKPT (R492). -/
  | ckpt (init : Fin 16)
  /-- FORMAT (R492). -/
  | format (init : Fin 16)
  /-- ATC_READ (R495). -/
  | atcRead (init : Fin 16)
  /-- READBACK_END (R495). -/
  | readbackEnd (data : List Word) (status : BitVec 16)
  /-- SMART_POLL (R494). -/
  | smartPoll (temp : BitVec 16) (crit pct : BitVec 8) (media : Nat) (r : NvmeResult)
  /-- ATC_CNT_CLR (R499). -/
  | atcCntClr (init : Fin 16)
  /-- MARK_TAG (R478). -/
  | markTag (init : Fin 16) (value : Word)
  /-- ATTIC_SHUTDOWN (R493). -/
  | atticShutdown
  /-- EXTEST (R501). -/
  | extest (balls cells : List Bool)
  /-- SAMPLE_PRELOAD (R500). -/
  | samplePreload (balls cells : List Bool)
  /-- IDCODE (R500). -/
  | idcode
  /-- CLAMP (R501). -/
  | clamp
  /-- HIGHZ (R501). -/
  | highz
  /-- DBGACC (R502). -/
  | dbgacc (write : Bool) (index : Fin 512) (data : Word)
  /-- BYPASS (R500). -/
  | bypass
  /-- SAP_READ (R503). -/
  | sapRead (env : BusEnv)
  /-- SAP_WRITE (R503). -/
  | sapWrite (env : BusEnv)
  /-- MCMD_GO (R511). -/
  | mcmdGo (init : Fin 16)
  /-- MEM_READ (R514). -/
  | memRead (env : List BusEnv)
  /-- MEM_WRITE (R514). -/
  | memWrite (env : List BusEnv)
  /-- MON_HALT (R514). -/
  | monHalt
  /-- MON_RESUME (R514). -/
  | monResume
  /-- MON_STEP (R514). -/
  | monStep
  /-- REG_READ (R515). -/
  | regRead
  /-- REG_WRITE (R515). -/
  | regWrite
  /-- MON_UNLOCK (R521). -/
  | monUnlock
  /-- UNLOCK (R521). -/
  | unlock (init : Fin 16)
  /-- LOCKOUT_END (R521). -/
  | lockoutEnd
  /-- TRACE_CLR (R523). -/
  | traceClr (init : Fin 16)
  /-- DBG_RESET (R523). -/
  | dbgReset (init : Fin 16)
  /-- C_CMD_HALT (R505). -/
  | cCmdHalt (init : Fin 16) (c : Fin 4)
  /-- C_CMD_RESUME (R508). -/
  | cCmdResume (init : Fin 16) (c : Fin 4)
  /-- C_CMD_STEP (R508). -/
  | cCmdStep (init : Fin 16) (c : Fin 4)
  /-- MONITOR_ENTRY (R506). -/
  | monitorEntry (c : Fin 4) (shadowNext : Bool)
  /-- SPI_TXDATA (R527). -/
  | spiTxdata (init : Fin 16) (p : Fin 4) (value : Word)
  /-- SPI_FRAME (R527). -/
  | spiFrame (p : Fin 4) (miso : Word)
  /-- SPI_RXDATA (R539). -/
  | spiRxdata (init : Fin 16) (p : Fin 4) (peek : Bool)
  /-- SPI_CNT_CLR (R539). -/
  | spiCntClr (init : Fin 16) (p : Fin 4)
  /-- UART_TXDATA (R528). -/
  | uartTxdata (init : Fin 16) (u : Fin 2) (value : Word)
  /-- UART_FRAME (R528). -/
  | uartFrame (u : Fin 2) (received : Option UartFrame)
  /-- UART_RXDATA (R539). -/
  | uartRxdata (init : Fin 16) (u : Fin 2) (peek : Bool)
  /-- CAN_FRAME (R530). -/
  | canFrame (k : Fin 2) (f : CanFrame) (error : Bool)
  /-- TX_REQ (R530). -/
  | txReq (init : Fin 16) (k : Fin 2) (slots : BitVec 8)
  /-- CAN_TX_DONE (R530). -/
  | canTxDone (k : Fin 2) (slot : Fin 9) (error : Bool)
  /-- CAN_RX_POP (R539). -/
  | canRxPop (init : Fin 16) (k : Fin 2)
  /-- RECOVER (R529). -/
  | recover (init : Fin 16) (k : Fin 2)
  /-- XFER (R532). -/
  | xfer (init : Fin 16) (i : Fin 2) (value : Word)
  /-- IIC_OPERATION (R532). -/
  | iicOperation (i : Fin 2) (r : IicResult)
  /-- IIC_RXDATA (R539). -/
  | iicRxdata (init : Fin 16) (i : Fin 2) (peek : Bool)
  /-- IIC_RESUME (R532). -/
  | iicResume (init : Fin 16) (i : Fin 2)
  /-- IIC_CNT_CLR (R539). -/
  | iicCntClr (init : Fin 16) (i : Fin 2)
  /-- QEP_COUNT_EDGE (R533). -/
  | qepCountEdge (d : Fin 4) (a b : BallLevel)
  /-- Z_EDGE (R534). -/
  | zEdge (z : ZLine)
  /-- ARM_Z (R534). -/
  | armZ (init : Fin 16) (d : Fin 4)
  /-- QEP_CNT_CLR (R539). -/
  | qepCntClr (init : Fin 16) (d : Fin 4)
  /-- POS (R538). -/
  | pos (init : Fin 16) (d : Fin 4) (value : Word)
  /-- OUT_SET (R525). -/
  | outSet (init : Fin 16) (hi : Bool) (mask : Word)
  /-- OUT_CLR (R525). -/
  | outClr (init : Fin 16) (hi : Bool) (mask : Word)
  /-- GPIO_IRQ_EDGE (R526). -/
  | gpioIrqEdge (line : Fin 64) (x : BallLevel)
  /-- CORE_WATCHDOG_TICK (R535). -/
  | coreWatchdogTick (n : Fin 4)
  /-- CORE_WATCHDOG_SERVICE (R535). -/
  | coreWatchdogService (init : Fin 16) (n : Fin 4) (value : Word)
  /-- CORE_WATCHDOG_EXPIRY (R535). -/
  | coreWatchdogExpiry (n : Fin 4)
  /-- HALL_RESET_START (R389). -/
  | hallResetStart
  /-- VDD_CEL_LOSS (R568). -/
  | vddCelLoss
  /-- XIN_CLOCK_CHANGE (R390). -/
  | xinClockChange (present : Bool)
  /-- PCIE_LINK_DOWN (R490). -/
  | pcieLinkDown
  /-- BUS_OFF_RECOVERY_END (R529). -/
  | busOffRecoveryEnd (k : Fin 2)
  deriving DecidableEq, Repr

end Sys2Proof
end

