-- ==== Sys2Proof/Config.lean ====
section
/-! DEFINITION. What the spec fixes for one die or leaves open: constants without a body.  Nothing in Lean
can prove a value of one of them, so every statement holds whatever they are. -/

namespace Sys2Proof

/-- The value the device holds where the spec calls a data value undefined or states no result (R21,
R255): the n-th such value met.  A free value: DESIGN CHOICE (log entry 1). -/
opaque Config.freeValue : Nat → BitVec 64

/-- The unique die number SYS.UID (R47, "per die"). -/
opaque Config.uid : BitVec 64

/-- By how many steps of 2⁻¹⁶ the engine's sine or cosine of an angle differs from the exactly rounded value:
0 none, 1 one up, 2 one down (R223 allows one).  A free value (log entry 1). -/
opaque Config.sincosStep : BitVec 32 → Bool → Fin 3

/-- Whether the 32 check bits of a flash line whose 256 data bits are ones are themselves all ones, so that
programming ones leaves the line erased (R349 gives no code).  A free value (log entry 1). -/
opaque Config.onesErased : Bool

end Sys2Proof
end

