-- ==== Sys2Proof/Machine/RegMap.lean ====
section
/-! DEFINITION. The register maps of the hall: for every block the registers it implements, with the
fields, access codes (R20), reset values (R19) and Restored column of the tables of spec/, and one
named constant for each field, spelled BLOCK.REG.FIELD as R16 spells it.  Every reset value is the
Reset column's; "option" and "cellar" stand as 0 here and are loaded by the reset sequence. -/

namespace Sys2Proof.Machine

/-- A bit field of a register: the register's byte offset in its block and its top and bottom bit (R13). -/
structure Fld where
  off : Nat
  hi : Nat
  lo : Nat
  deriving DecidableEq, Repr

/-- The field of the register `d` bytes further on (an indexed register). -/
def Fld.at (f : Fld) (d : Nat) : Fld := { f with off := f.off + d }

/-- The access codes of R20; `zero` is a field of a command register that is marked "write as 0" (R60). -/
inductive AccCode where
  | rw | ro | wo | rwd | rs | cmd | sc | zero
  deriving DecidableEq, Repr

/-- One row of a register table. -/
structure FieldRow where
  hi : Nat
  lo : Nat
  acc : AccCode
  reset : Nat
  restored : Bool
  reserved : Bool
  deriving DecidableEq, Repr

/-- One register of a block: its offset, its index dimensions (count, stride), its rows. -/
structure RegRow where
  off : Nat
  dims : List (Nat × Nat)
  rows : List FieldRow
  deriving DecidableEq, Repr

/-! SYS: registers of file 01_hall_architecture.md. -/

def SYS.ID.W : Fld := ⟨0x0, 31, 0⟩
def SYS.ID.PART : Fld := ⟨0x0, 31, 16⟩
def SYS.ID.VENDOR : Fld := ⟨0x0, 15, 8⟩
def SYS.ID.FAMILY : Fld := ⟨0x0, 7, 0⟩
def SYS.STEPPING.W : Fld := ⟨0x4, 31, 0⟩
def SYS.STEPPING.MAJOR : Fld := ⟨0x4, 15, 8⟩
def SYS.STEPPING.MINOR : Fld := ⟨0x4, 7, 0⟩
def SYS.UID_LO.W : Fld := ⟨0x8, 31, 0⟩
def SYS.UID_LO.UID : Fld := ⟨0x8, 31, 0⟩
def SYS.UID_HI.W : Fld := ⟨0xC, 31, 0⟩
def SYS.UID_HI.UID : Fld := ⟨0xC, 31, 0⟩
def SYS.INITIATOR.W : Fld := ⟨0x10, 31, 0⟩
def SYS.INITIATOR.NUM : Fld := ⟨0x10, 3, 0⟩
def SYS.CONFIG.W : Fld := ⟨0x14, 31, 0⟩
def SYS.CONFIG.RING : Fld := ⟨0x14, 17, 17⟩
def SYS.CONFIG.ATTIC : Fld := ⟨0x14, 16, 16⟩
def SYS.CONFIG.CORES : Fld := ⟨0x14, 15, 12⟩
def SYS.CONFIG.STALLS : Fld := ⟨0x14, 11, 0⟩
def SYS.ISL_STATUS.W : Fld := ⟨0x20, 31, 0⟩
def SYS.ISL_STATUS.DEBUG_UP : Fld := ⟨0x20, 11, 11⟩
def SYS.ISL_STATUS.ATTIC_UP : Fld := ⟨0x20, 10, 10⟩
def SYS.ISL_STATUS.RING_UP : Fld := ⟨0x20, 9, 9⟩
def SYS.ISL_STATUS.FABRIC_UP : Fld := ⟨0x20, 8, 8⟩
def SYS.ISL_STATUS.CORE_UP : Fld := ⟨0x20, 7, 4⟩
def SYS.ISL_STATUS.AISLE_UP : Fld := ⟨0x20, 2, 0⟩
def SYS.CLK_STATUS.W : Fld := ⟨0x24, 31, 0⟩
def SYS.CLK_STATUS.XIN_OK : Fld := ⟨0x24, 14, 14⟩
def SYS.CLK_STATUS.PCIE_LOCK : Fld := ⟨0x24, 13, 13⟩
def SYS.CLK_STATUS.SER_LOCK : Fld := ⟨0x24, 12, 12⟩
def SYS.CLK_STATUS.CORE_LOCK : Fld := ⟨0x24, 11, 8⟩
def SYS.CLK_STATUS.FABRIC_LOCK : Fld := ⟨0x24, 7, 7⟩
def SYS.CLK_STATUS.AISLE_LOCK : Fld := ⟨0x24, 6, 4⟩
def SYS.CLK_STATUS.REF_SRC : Fld := ⟨0x24, 1, 1⟩
def SYS.CLK_STATUS.REF_LOCK : Fld := ⟨0x24, 0, 0⟩
def SYS.ECC_CNT.W : Fld := ⟨0x40, 31, 0⟩
def SYS.ECC_CNT.COUNT : Fld := ⟨0x40, 31, 0⟩
def SYS.ECC_CMD.W : Fld := ⟨0x70, 31, 0⟩
def SYS.ECC_CMD.CLEAR : Fld := ⟨0x70, 4, 0⟩
def SYS.ECC_LAST_ADDR.W : Fld := ⟨0x74, 31, 0⟩
def SYS.ECC_LAST_ADDR.ADDR : Fld := ⟨0x74, 31, 0⟩
def SYS.ECC_LAST_SRC.W : Fld := ⟨0x78, 31, 0⟩
def SYS.ECC_LAST_SRC.SYNDROME : Fld := ⟨0x78, 15, 8⟩
def SYS.ECC_LAST_SRC.INITIATOR : Fld := ⟨0x78, 7, 4⟩
def SYS.ECC_LAST_SRC.MEM : Fld := ⟨0x78, 3, 0⟩
def SYS.BUSERR_ADDR.W : Fld := ⟨0x80, 31, 0⟩
def SYS.BUSERR_ADDR.ADDR : Fld := ⟨0x80, 31, 0⟩
def SYS.BUSERR_INFO.W : Fld := ⟨0x84, 31, 0⟩
def SYS.BUSERR_INFO.COUNT : Fld := ⟨0x84, 31, 16⟩
def SYS.BUSERR_INFO.WRITE : Fld := ⟨0x84, 8, 8⟩
def SYS.BUSERR_INFO.KIND : Fld := ⟨0x84, 7, 4⟩
def SYS.BUSERR_INFO.INITIATOR : Fld := ⟨0x84, 3, 0⟩

/-- The register table of SYS (R47, R48, R49, R50). -/
def SYS.map : List RegRow :=
  [⟨0x0, [], [⟨31, 16, .ro, 0x4896, false, false⟩, ⟨15, 8, .ro, 0xB7, false, false⟩, ⟨7, 0, .ro, 0x1A, false, false⟩]⟩,
   ⟨0x4, [], [⟨31, 16, .ro, 0, false, true⟩, ⟨15, 8, .ro, 1, false, false⟩, ⟨7, 0, .ro, 0, false, false⟩]⟩,
   ⟨0x8, [], [⟨31, 0, .ro, 0, false, false⟩]⟩,
   ⟨0xC, [], [⟨31, 0, .ro, 0, false, false⟩]⟩,
   ⟨0x10, [], [⟨31, 4, .ro, 0, false, true⟩, ⟨3, 0, .ro, 0, false, false⟩]⟩,
   ⟨0x14, [], [⟨31, 18, .ro, 0, false, true⟩, ⟨17, 17, .ro, 1, false, false⟩, ⟨16, 16, .ro, 1, false, false⟩, ⟨15, 12, .ro, 0xF, false, false⟩, ⟨11, 0, .ro, 0xFFF, false, false⟩]⟩,
   ⟨0x20, [], [⟨31, 12, .ro, 0, false, true⟩, ⟨11, 11, .sc, 0, false, false⟩, ⟨10, 10, .sc, 0, false, false⟩, ⟨9, 9, .sc, 0, false, false⟩, ⟨8, 8, .sc, 1, false, false⟩, ⟨7, 4, .sc, 0, false, false⟩, ⟨3, 3, .ro, 0, false, true⟩, ⟨2, 0, .sc, 0, false, false⟩]⟩,
   ⟨0x24, [], [⟨31, 15, .ro, 0, false, true⟩, ⟨14, 14, .sc, 0, false, false⟩, ⟨13, 13, .sc, 0, false, false⟩, ⟨12, 12, .sc, 0, false, false⟩, ⟨11, 8, .sc, 0, false, false⟩, ⟨7, 7, .sc, 0, false, false⟩, ⟨6, 4, .sc, 0, false, false⟩, ⟨3, 2, .ro, 0, false, true⟩, ⟨1, 1, .sc, 0, false, false⟩, ⟨0, 0, .sc, 0, false, false⟩]⟩,
   ⟨0x40, [(12, 0x4)], [⟨31, 0, .sc, 0, false, false⟩]⟩,
   ⟨0x70, [], [⟨31, 5, .zero, 0, false, true⟩, ⟨4, 0, .cmd, 0, false, false⟩]⟩,
   ⟨0x74, [], [⟨31, 0, .sc, 0, false, false⟩]⟩,
   ⟨0x78, [], [⟨31, 16, .ro, 0, false, true⟩, ⟨15, 8, .sc, 0, false, false⟩, ⟨7, 4, .sc, 0, false, false⟩, ⟨3, 0, .sc, 0, false, false⟩]⟩,
   ⟨0x80, [], [⟨31, 0, .sc, 0, false, false⟩]⟩,
   ⟨0x84, [], [⟨31, 16, .sc, 0, false, false⟩, ⟨15, 9, .ro, 0, false, true⟩, ⟨8, 8, .sc, 0, false, false⟩, ⟨7, 4, .sc, 0, false, false⟩, ⟨3, 0, .sc, 0, false, false⟩]⟩]

/-! AIS: registers of file 03_aisle_timing.md. -/

def AIS.CTRL.W : Fld := ⟨0x0, 31, 0⟩
def AIS.CTRL.CARMAP : Fld := ⟨0x0, 15, 8⟩
def AIS.CTRL.ENABLE : Fld := ⟨0x0, 0, 0⟩
def AIS.STATUS.W : Fld := ⟨0x4, 31, 0⟩
def AIS.STATUS.SLEW : Fld := ⟨0x4, 19, 16⟩
def AIS.STATUS.SG_BUSY : Fld := ⟨0x4, 7, 4⟩
def AIS.STATUS.FIRE_REFUSED : Fld := ⟨0x4, 3, 3⟩
def AIS.STATUS.SG_CONFLICT : Fld := ⟨0x4, 2, 2⟩
def AIS.STATUS.PHASE_VALID : Fld := ⟨0x4, 1, 1⟩
def AIS.STATUS.WIGN : Fld := ⟨0x4, 0, 0⟩
def AIS.MT_PHASE.W : Fld := ⟨0x8, 31, 0⟩
def AIS.MT_PHASE.PHASE : Fld := ⟨0x8, 5, 0⟩
def AIS.CMD.W : Fld := ⟨0xC, 31, 0⟩
def AIS.CMD.BLK_CLR : Fld := ⟨0xC, 15, 8⟩
def AIS.CMD.SG_CLR : Fld := ⟨0xC, 7, 4⟩
def AIS.CMD.SG_FIRE : Fld := ⟨0xC, 3, 0⟩
def AIS.SG_CFG.W : Fld := ⟨0x10, 31, 0⟩
def AIS.SG_CFG.ACQ : Fld := ⟨0x10, 31, 24⟩
def AIS.SG_CFG.TRIG : Fld := ⟨0x10, 12, 8⟩
def AIS.SG_CFG.MEMBERS : Fld := ⟨0x10, 3, 0⟩
def AIS.SG_DLY.W : Fld := ⟨0x14, 31, 0⟩
def AIS.SG_DLY.APT_DLY : Fld := ⟨0x14, 21, 0⟩
def AIS.SG_CNT.W : Fld := ⟨0x18, 31, 0⟩
def AIS.SG_CNT.OVERRUN : Fld := ⟨0x18, 31, 16⟩
def AIS.SG_CNT.LATE : Fld := ⟨0x18, 15, 0⟩
def AIS.XFER_DIST.W : Fld := ⟨0x60, 31, 0⟩
def AIS.XFER_DIST.DIST : Fld := ⟨0x60, 15, 0⟩
def AIS.BLK_CFG.W : Fld := ⟨0x100, 31, 0⟩
def AIS.BLK_CFG.MAXLEN : Fld := ⟨0x100, 27, 16⟩
def AIS.BLK_CFG.CLOSE : Fld := ⟨0x100, 12, 8⟩
def AIS.BLK_CFG.OPEN : Fld := ⟨0x100, 4, 0⟩
def AIS.BLK_STAT.W : Fld := ⟨0x104, 31, 0⟩
def AIS.BLK_STAT.FORCED : Fld := ⟨0x104, 31, 16⟩
def AIS.BLK_STAT.OPEN : Fld := ⟨0x104, 0, 0⟩

/-- The register table of AIS (R101). -/
def AIS.map : List RegRow :=
  [⟨0x0, [], [⟨31, 16, .rw, 0, false, true⟩, ⟨15, 8, .rwd, 0xE4, true, false⟩, ⟨7, 1, .rw, 0, false, true⟩, ⟨0, 0, .rw, 0, true, false⟩]⟩,
   ⟨0x4, [], [⟨31, 20, .ro, 0, false, true⟩, ⟨19, 16, .sc, 0, false, false⟩, ⟨15, 8, .ro, 0, false, true⟩, ⟨7, 4, .sc, 0, false, false⟩, ⟨3, 3, .sc, 0, false, false⟩, ⟨2, 2, .sc, 0, false, false⟩, ⟨1, 1, .sc, 0, false, false⟩, ⟨0, 0, .sc, 0, false, false⟩]⟩,
   ⟨0x8, [], [⟨31, 6, .ro, 0, false, true⟩, ⟨5, 0, .sc, 0, false, false⟩]⟩,
   ⟨0xC, [], [⟨31, 16, .zero, 0, false, true⟩, ⟨15, 8, .cmd, 0, false, false⟩, ⟨7, 4, .cmd, 0, false, false⟩, ⟨3, 0, .cmd, 0, false, false⟩]⟩,
   ⟨0x10, [(4, 0x10)], [⟨31, 24, .rwd, 0xC, true, false⟩, ⟨23, 13, .rw, 0, false, true⟩, ⟨12, 8, .rwd, 0x1F, true, false⟩, ⟨7, 4, .rw, 0, false, true⟩, ⟨3, 0, .rwd, 0, true, false⟩]⟩,
   ⟨0x14, [(4, 0x10)], [⟨31, 22, .rw, 0, false, true⟩, ⟨21, 0, .rwd, 0, true, false⟩]⟩,
   ⟨0x18, [(4, 0x10)], [⟨31, 16, .sc, 0, false, false⟩, ⟨15, 0, .sc, 0, false, false⟩]⟩,
   ⟨0x60, [(4, 0x4)], [⟨31, 16, .ro, 0, false, true⟩, ⟨15, 0, .sc, 0xFFFF, false, false⟩]⟩,
   ⟨0x100, [(8, 0x8)], [⟨31, 28, .rw, 0, false, true⟩, ⟨27, 16, .rwd, 0, true, false⟩, ⟨15, 13, .rw, 0, false, true⟩, ⟨12, 8, .rwd, 0x1F, true, false⟩, ⟨7, 5, .rw, 0, false, true⟩, ⟨4, 0, .rwd, 0x1F, true, false⟩]⟩,
   ⟨0x104, [(8, 0x8)], [⟨31, 16, .sc, 0, false, false⟩, ⟨15, 1, .ro, 0, false, true⟩, ⟨0, 0, .sc, 0, false, false⟩]⟩]

/-! CNV: registers of file 04_converters.md. -/

def CNV.CTRL.W : Fld := ⟨0x0, 31, 0⟩
def CNV.CTRL.LOOP_SEL : Fld := ⟨0x0, 21, 20⟩
def CNV.CTRL.AVG_N : Fld := ⟨0x0, 18, 16⟩
def CNV.CTRL.SCAN_MASK : Fld := ⟨0x0, 15, 8⟩
def CNV.CTRL.BG_EN : Fld := ⟨0x0, 5, 5⟩
def CNV.CTRL.DIFF23 : Fld := ⟨0x0, 4, 4⟩
def CNV.CTRL.DIFF01 : Fld := ⟨0x0, 3, 3⟩
def CNV.CTRL.TRIG_SRC : Fld := ⟨0x0, 2, 1⟩
def CNV.CTRL.ENABLE : Fld := ⟨0x0, 0, 0⟩
def CNV.STATUS.W : Fld := ⟨0x4, 31, 0⟩
def CNV.STATUS.SAT : Fld := ⟨0x4, 31, 24⟩
def CNV.STATUS.OPEN : Fld := ⟨0x4, 19, 16⟩
def CNV.STATUS.CAL_RESULT : Fld := ⟨0x4, 14, 12⟩
def CNV.STATUS.DIAG_DONE : Fld := ⟨0x4, 11, 11⟩
def CNV.STATUS.SUP_FAIL : Fld := ⟨0x4, 10, 10⟩
def CNV.STATUS.REF_FAIL : Fld := ⟨0x4, 9, 9⟩
def CNV.STATUS.BGSTARVED : Fld := ⟨0x4, 8, 8⟩
def CNV.STATUS.DIAG_BUSY : Fld := ⟨0x4, 7, 7⟩
def CNV.STATUS.CAL_BUSY : Fld := ⟨0x4, 6, 6⟩
def CNV.STATUS.SWT_REFUSED : Fld := ⟨0x4, 5, 5⟩
def CNV.STATUS.RUN : Fld := ⟨0x4, 4, 4⟩
def CNV.STATUS.BUSY : Fld := ⟨0x4, 3, 3⟩
def CNV.STATUS.GROUP : Fld := ⟨0x4, 2, 2⟩
def CNV.STATUS.WIGN : Fld := ⟨0x4, 0, 0⟩
def CNV.TIMING.W : Fld := ⟨0x8, 31, 0⟩
def CNV.TIMING.DIAG_ACQ : Fld := ⟨0x8, 19, 8⟩
def CNV.TIMING.ACQ : Fld := ⟨0x8, 7, 0⟩
def CNV.TRIGPIN.W : Fld := ⟨0xC, 31, 0⟩
def CNV.TRIGPIN.FILT : Fld := ⟨0xC, 23, 16⟩
def CNV.TRIGPIN.STOP_EDGE : Fld := ⟨0xC, 13, 12⟩
def CNV.TRIGPIN.STOP_PIN : Fld := ⟨0xC, 10, 8⟩
def CNV.TRIGPIN.START_EDGE : Fld := ⟨0xC, 5, 4⟩
def CNV.TRIGPIN.START_PIN : Fld := ⟨0xC, 2, 0⟩
def CNV.CMD.W : Fld := ⟨0x10, 31, 0⟩
def CNV.CMD.CAL_INPUT : Fld := ⟨0x10, 10, 8⟩
def CNV.CMD.CNT_CLR : Fld := ⟨0x10, 6, 6⟩
def CNV.CMD.SELFCHK : Fld := ⟨0x10, 5, 5⟩
def CNV.CMD.DIAG : Fld := ⟨0x10, 4, 4⟩
def CNV.CMD.CAL_FULL : Fld := ⟨0x10, 3, 3⟩
def CNV.CMD.CAL_ZERO : Fld := ⟨0x10, 2, 2⟩
def CNV.CMD.STOP : Fld := ⟨0x10, 1, 1⟩
def CNV.CMD.SW_TRIG : Fld := ⟨0x10, 0, 0⟩
def CNV.DIAG_CFG.W : Fld := ⟨0x14, 31, 0⟩
def CNV.DIAG_CFG.DELTA : Fld := ⟨0x14, 31, 16⟩
def CNV.DIAG_CFG.I10 : Fld := ⟨0x14, 8, 8⟩
def CNV.DIAG_CFG.MASK : Fld := ⟨0x14, 3, 0⟩
def CNV.SC_CFG.W : Fld := ⟨0x18, 31, 0⟩
def CNV.SC_CFG.SC_INT : Fld := ⟨0x18, 15, 8⟩
def CNV.SC_CFG.REF_TOL : Fld := ⟨0x18, 7, 0⟩
def CNV.SC_SUP.W : Fld := ⟨0x1C, 31, 0⟩
def CNV.SC_SUP.SUP_HI : Fld := ⟨0x1C, 31, 16⟩
def CNV.SC_SUP.SUP_LO : Fld := ⟨0x1C, 15, 0⟩
def CNV.SC_RES.W : Fld := ⟨0x20, 31, 0⟩
def CNV.SC_RES.SUP_CODE : Fld := ⟨0x20, 31, 16⟩
def CNV.SC_RES.REF_CODE : Fld := ⟨0x20, 15, 0⟩
def CNV.FS_VALUE.W : Fld := ⟨0x24, 31, 0⟩
def CNV.FS_VALUE.FS : Fld := ⟨0x24, 31, 0⟩
def CNV.IRQ_EN.W : Fld := ⟨0x28, 31, 0⟩
def CNV.IRQ_EN.DONE : Fld := ⟨0x28, 4, 4⟩
def CNV.IRQ_EN.STARVE : Fld := ⟨0x28, 3, 3⟩
def CNV.IRQ_EN.SUP : Fld := ⟨0x28, 2, 2⟩
def CNV.IRQ_EN.REF : Fld := ⟨0x28, 1, 1⟩
def CNV.IRQ_EN.OPEN : Fld := ⟨0x28, 0, 0⟩
def CNV.SMP_CNT.W : Fld := ⟨0x30, 31, 0⟩
def CNV.SMP_CNT.COUNT : Fld := ⟨0x30, 31, 0⟩
def CNV.SCAN_CNT.W : Fld := ⟨0x34, 31, 0⟩
def CNV.SCAN_CNT.COUNT : Fld := ⟨0x34, 31, 0⟩
def CNV.CNT.W : Fld := ⟨0x38, 31, 0⟩
def CNV.CNT.OVERRUN : Fld := ⟨0x38, 31, 16⟩
def CNV.CNT.LATE : Fld := ⟨0x38, 15, 0⟩
def CNV.RAW.W : Fld := ⟨0x40, 31, 0⟩
def CNV.RAW.SIGN : Fld := ⟨0x40, 31, 16⟩
def CNV.RAW.CODE : Fld := ⟨0x40, 15, 0⟩
def CNV.RESULT.W : Fld := ⟨0x60, 31, 0⟩
def CNV.RESULT.VALUE : Fld := ⟨0x60, 31, 0⟩
def CNV.AVG.W : Fld := ⟨0x80, 31, 0⟩
def CNV.AVG.VALUE : Fld := ⟨0x80, 31, 0⟩
def CNV.OFFSET.W : Fld := ⟨0xA0, 31, 0⟩
def CNV.OFFSET.OFFSET : Fld := ⟨0xA0, 31, 0⟩
def CNV.GAIN.W : Fld := ⟨0xA4, 31, 0⟩
def CNV.GAIN.GAIN : Fld := ⟨0xA4, 31, 0⟩
def CNV.DIAG_RES.W : Fld := ⟨0xE0, 31, 0⟩
def CNV.DIAG_RES.DN : Fld := ⟨0xE0, 31, 16⟩
def CNV.DIAG_RES.UP : Fld := ⟨0xE0, 15, 0⟩

/-- The register table of CNV (R135). -/
def CNV.map : List RegRow :=
  [⟨0x0, [], [⟨31, 22, .rw, 0, false, true⟩, ⟨21, 20, .rwd, 0, true, false⟩, ⟨19, 19, .rw, 0, false, true⟩, ⟨18, 16, .rwd, 0, true, false⟩, ⟨15, 8, .rwd, 0, true, false⟩, ⟨7, 6, .rw, 0, false, true⟩, ⟨5, 5, .rwd, 0, true, false⟩, ⟨4, 4, .rwd, 0, true, false⟩, ⟨3, 3, .rwd, 0, true, false⟩, ⟨2, 1, .rwd, 0, true, false⟩, ⟨0, 0, .rw, 0, true, false⟩]⟩,
   ⟨0x4, [], [⟨31, 24, .sc, 0, false, false⟩, ⟨23, 20, .ro, 0, false, true⟩, ⟨19, 16, .sc, 0, false, false⟩, ⟨15, 15, .ro, 0, false, true⟩, ⟨14, 12, .sc, 0, false, false⟩, ⟨11, 11, .sc, 0, false, false⟩, ⟨10, 10, .sc, 0, false, false⟩, ⟨9, 9, .sc, 0, false, false⟩, ⟨8, 8, .sc, 0, false, false⟩, ⟨7, 7, .sc, 0, false, false⟩, ⟨6, 6, .sc, 0, false, false⟩, ⟨5, 5, .sc, 0, false, false⟩, ⟨4, 4, .sc, 0, false, false⟩, ⟨3, 3, .sc, 0, false, false⟩, ⟨2, 2, .sc, 0, false, false⟩, ⟨1, 1, .ro, 0, false, true⟩, ⟨0, 0, .sc, 0, false, false⟩]⟩,
   ⟨0x8, [], [⟨31, 20, .rw, 0, false, true⟩, ⟨19, 8, .rwd, 0x190, true, false⟩, ⟨7, 0, .rwd, 0xC, true, false⟩]⟩,
   ⟨0xC, [], [⟨31, 24, .rw, 0, false, true⟩, ⟨23, 16, .rwd, 0, true, false⟩, ⟨15, 14, .rw, 0, false, true⟩, ⟨13, 12, .rwd, 0, true, false⟩, ⟨11, 11, .rw, 0, false, true⟩, ⟨10, 8, .rwd, 0, true, false⟩, ⟨7, 6, .rw, 0, false, true⟩, ⟨5, 4, .rwd, 0, true, false⟩, ⟨3, 3, .rw, 0, false, true⟩, ⟨2, 0, .rwd, 0, true, false⟩]⟩,
   ⟨0x10, [], [⟨31, 11, .zero, 0, false, true⟩, ⟨10, 8, .cmd, 0, false, false⟩, ⟨7, 7, .zero, 0, false, true⟩, ⟨6, 6, .cmd, 0, false, false⟩, ⟨5, 5, .cmd, 0, false, false⟩, ⟨4, 4, .cmd, 0, false, false⟩, ⟨3, 3, .cmd, 0, false, false⟩, ⟨2, 2, .cmd, 0, false, false⟩, ⟨1, 1, .cmd, 0, false, false⟩, ⟨0, 0, .cmd, 0, false, false⟩]⟩,
   ⟨0x14, [], [⟨31, 16, .rwd, 0x2000, true, false⟩, ⟨15, 9, .rw, 0, false, true⟩, ⟨8, 8, .rwd, 1, true, false⟩, ⟨7, 4, .rw, 0, false, true⟩, ⟨3, 0, .rwd, 0xF, true, false⟩]⟩,
   ⟨0x18, [], [⟨31, 16, .rw, 0, false, true⟩, ⟨15, 8, .rwd, 0xA, true, false⟩, ⟨7, 0, .rwd, 0x40, true, false⟩]⟩,
   ⟨0x1C, [], [⟨31, 16, .rwd, 0x61CA, true, false⟩, ⟨15, 0, .rwd, 0x5687, true, false⟩]⟩,
   ⟨0x20, [], [⟨31, 16, .sc, 0, false, false⟩, ⟨15, 0, .sc, 0, false, false⟩]⟩,
   ⟨0x24, [], [⟨31, 0, .rw, 0, false, false⟩]⟩,
   ⟨0x28, [], [⟨31, 5, .rw, 0, false, true⟩, ⟨4, 4, .rw, 0, true, false⟩, ⟨3, 3, .rw, 0, true, false⟩, ⟨2, 2, .rw, 0, true, false⟩, ⟨1, 1, .rw, 0, true, false⟩, ⟨0, 0, .rw, 0, true, false⟩]⟩,
   ⟨0x30, [], [⟨31, 0, .sc, 0, false, false⟩]⟩,
   ⟨0x34, [], [⟨31, 0, .sc, 0, false, false⟩]⟩,
   ⟨0x38, [], [⟨31, 16, .sc, 0, false, false⟩, ⟨15, 0, .sc, 0, false, false⟩]⟩,
   ⟨0x40, [(8, 0x4)], [⟨31, 16, .sc, 0, false, false⟩, ⟨15, 0, .sc, 0, false, false⟩]⟩,
   ⟨0x60, [(8, 0x4)], [⟨31, 0, .sc, 0, false, false⟩]⟩,
   ⟨0x80, [(8, 0x4)], [⟨31, 0, .sc, 0, false, false⟩]⟩,
   ⟨0xA0, [(8, 0x8)], [⟨31, 0, .rwd, 0, true, false⟩]⟩,
   ⟨0xA4, [(8, 0x8)], [⟨31, 0, .rwd, 0x280, true, false⟩]⟩,
   ⟨0xE0, [(4, 0x4)], [⟨31, 16, .sc, 0, false, false⟩, ⟨15, 0, .sc, 0, false, false⟩]⟩]

/-! CMP: registers of file 05_window_comparators.md. -/

def CMP.CTRL.W : Fld := ⟨0x0, 31, 0⟩
def CMP.CTRL.TICK_CEL : Fld := ⟨0x0, 29, 29⟩
def CMP.CTRL.TICK_EVT : Fld := ⟨0x0, 28, 24⟩
def CMP.CTRL.CBC : Fld := ⟨0x0, 16, 16⟩
def CMP.CTRL.VMASK : Fld := ⟨0x0, 14, 12⟩
def CMP.CTRL.INSEL : Fld := ⟨0x0, 9, 8⟩
def CMP.CTRL.HYST : Fld := ⟨0x0, 5, 4⟩
def CMP.CTRL.SAMPLED : Fld := ⟨0x0, 3, 3⟩
def CMP.CTRL.MODE : Fld := ⟨0x0, 2, 1⟩
def CMP.CTRL.ENABLE : Fld := ⟨0x0, 0, 0⟩
def CMP.STATUS.W : Fld := ⟨0x4, 31, 0⟩
def CMP.STATUS.VIOL : Fld := ⟨0x4, 8, 8⟩
def CMP.STATUS.THR_INV : Fld := ⟨0x4, 7, 7⟩
def CMP.STATUS.LATCH_MODE : Fld := ⟨0x4, 6, 6⟩
def CMP.STATUS.REL_REFUSED : Fld := ⟨0x4, 5, 5⟩
def CMP.STATUS.SETTLING : Fld := ⟨0x4, 4, 4⟩
def CMP.STATUS.RESULT : Fld := ⟨0x4, 2, 1⟩
def CMP.STATUS.WIGN : Fld := ⟨0x4, 0, 0⟩
def CMP.LATCH.W : Fld := ⟨0x8, 31, 0⟩
def CMP.LATCH.DN_LO : Fld := ⟨0x8, 7, 7⟩
def CMP.LATCH.UP_LO : Fld := ⟨0x8, 6, 6⟩
def CMP.LATCH.DN_HI : Fld := ⟨0x8, 5, 5⟩
def CMP.LATCH.UP_HI : Fld := ⟨0x8, 4, 4⟩
def CMP.LATCH.LATCH : Fld := ⟨0x8, 0, 0⟩
def CMP.THR.W : Fld := ⟨0xC, 31, 0⟩
def CMP.THR.THR_HI : Fld := ⟨0xC, 27, 16⟩
def CMP.THR.THR_LO : Fld := ⟨0xC, 11, 0⟩
def CMP.CMD.W : Fld := ⟨0x10, 31, 0⟩
def CMP.CMD.CNT_CLR : Fld := ⟨0x10, 8, 8⟩
def CMP.CMD.FLAG_REL : Fld := ⟨0x10, 7, 4⟩
def CMP.CMD.RELEASE : Fld := ⟨0x10, 0, 0⟩
def CMP.TICK.W : Fld := ⟨0x14, 31, 0⟩
def CMP.TICK.TDIV : Fld := ⟨0x14, 15, 0⟩
def CMP.IRQ_EN.W : Fld := ⟨0x18, 31, 0⟩
def CMP.IRQ_EN.FLAGS : Fld := ⟨0x18, 1, 1⟩
def CMP.IRQ_EN.LATCH : Fld := ⟨0x18, 0, 0⟩
def CMP.CNT.W : Fld := ⟨0x1C, 31, 0⟩
def CMP.CNT.TICK_LOST : Fld := ⟨0x1C, 31, 16⟩
def CMP.CNT.VIOL_CNT : Fld := ⟨0x1C, 15, 0⟩

/-- The register table of CMP (R156). -/
def CMP.map : List RegRow :=
  [⟨0x0, [], [⟨31, 30, .rw, 0, false, true⟩, ⟨29, 29, .rwd, 0, true, false⟩, ⟨28, 24, .rwd, 0x1F, true, false⟩, ⟨23, 17, .rw, 0, false, true⟩, ⟨16, 16, .rwd, 0, true, false⟩, ⟨15, 15, .rw, 0, false, true⟩, ⟨14, 12, .rwd, 5, true, false⟩, ⟨11, 10, .rw, 0, false, true⟩, ⟨9, 8, .rwd, 0, true, false⟩, ⟨7, 6, .rw, 0, false, true⟩, ⟨5, 4, .rwd, 0, true, false⟩, ⟨3, 3, .rwd, 0, true, false⟩, ⟨2, 1, .rwd, 0, true, false⟩, ⟨0, 0, .rw, 0, true, false⟩]⟩,
   ⟨0x4, [], [⟨31, 9, .ro, 0, false, true⟩, ⟨8, 8, .sc, 0, false, false⟩, ⟨7, 7, .sc, 0, false, false⟩, ⟨6, 6, .sc, 0, false, false⟩, ⟨5, 5, .sc, 0, false, false⟩, ⟨4, 4, .sc, 0, false, false⟩, ⟨3, 3, .ro, 0, false, true⟩, ⟨2, 1, .sc, 3, false, false⟩, ⟨0, 0, .sc, 0, false, false⟩]⟩,
   ⟨0x8, [], [⟨31, 8, .ro, 0, false, true⟩, ⟨7, 7, .ro, 0, false, false⟩, ⟨6, 6, .ro, 0, false, false⟩, ⟨5, 5, .ro, 0, false, false⟩, ⟨4, 4, .ro, 0, false, false⟩, ⟨3, 1, .ro, 0, false, true⟩, ⟨0, 0, .ro, 0, false, false⟩]⟩,
   ⟨0xC, [], [⟨31, 28, .rw, 0, false, true⟩, ⟨27, 16, .rw, 0xFFF, true, false⟩, ⟨15, 12, .rw, 0, false, true⟩, ⟨11, 0, .rw, 0, true, false⟩]⟩,
   ⟨0x10, [], [⟨31, 9, .zero, 0, false, true⟩, ⟨8, 8, .cmd, 0, false, false⟩, ⟨7, 4, .cmd, 0, false, false⟩, ⟨3, 1, .zero, 0, false, true⟩, ⟨0, 0, .cmd, 0, false, false⟩]⟩,
   ⟨0x14, [], [⟨31, 16, .rw, 0, false, true⟩, ⟨15, 0, .rwd, 0, true, false⟩]⟩,
   ⟨0x18, [], [⟨31, 2, .rw, 0, false, true⟩, ⟨1, 1, .rw, 0, true, false⟩, ⟨0, 0, .rw, 0, true, false⟩]⟩,
   ⟨0x1C, [], [⟨31, 16, .sc, 0, false, false⟩, ⟨15, 0, .sc, 0, false, false⟩]⟩]

/-! CAR: registers of file 06_legs_and_carriers.md. -/

def CAR.CTRL.W : Fld := ⟨0x0, 31, 0⟩
def CAR.CTRL.IRQ_EVT : Fld := ⟨0x0, 6, 4⟩
def CAR.CTRL.MLOCK : Fld := ⟨0x0, 1, 1⟩
def CAR.CTRL.ENABLE : Fld := ⟨0x0, 0, 0⟩
def CAR.STATUS.W : Fld := ⟨0x4, 31, 0⟩
def CAR.STATUS.COUNT : Fld := ⟨0x4, 31, 16⟩
def CAR.STATUS.WAIT : Fld := ⟨0x4, 2, 2⟩
def CAR.STATUS.DIR : Fld := ⟨0x4, 1, 1⟩
def CAR.STATUS.WIGN : Fld := ⟨0x4, 0, 0⟩
def CAR.PRD.W : Fld := ⟨0x8, 31, 0⟩
def CAR.PRD.PRD : Fld := ⟨0x8, 15, 0⟩
def CAR.PHASE.W : Fld := ⟨0xC, 31, 0⟩
def CAR.PHASE.PHASE : Fld := ⟨0xC, 22, 0⟩
def CAR.EVA.W : Fld := ⟨0x10, 31, 0⟩
def CAR.EVA.VALUE : Fld := ⟨0x10, 15, 0⟩
def CAR.EVB.W : Fld := ⟨0x14, 31, 0⟩
def CAR.EVB.VALUE : Fld := ⟨0x14, 15, 0⟩
def CAR.PRD_ACT.W : Fld := ⟨0x18, 31, 0⟩
def CAR.PRD_ACT.PRD : Fld := ⟨0x18, 15, 0⟩
def CAR.PCNT.W : Fld := ⟨0x1C, 31, 0⟩
def CAR.PCNT.COUNT : Fld := ⟨0x1C, 15, 0⟩
def CAR.CMD.W : Fld := ⟨0x20, 31, 0⟩
def CAR.CMD.CNT_CLR : Fld := ⟨0x20, 0, 0⟩
def CAR.EV_ACT.W : Fld := ⟨0x24, 31, 0⟩
def CAR.EV_ACT.EVB : Fld := ⟨0x24, 31, 16⟩
def CAR.EV_ACT.EVA : Fld := ⟨0x24, 15, 0⟩

/-- The register table of CAR (R181). -/
def CAR.map : List RegRow :=
  [⟨0x0, [], [⟨31, 7, .rw, 0, false, true⟩, ⟨6, 4, .rwd, 7, true, false⟩, ⟨3, 2, .rw, 0, false, true⟩, ⟨1, 1, .rwd, 0, true, false⟩, ⟨0, 0, .rw, 0, true, false⟩]⟩,
   ⟨0x4, [], [⟨31, 16, .sc, 0, false, false⟩, ⟨15, 3, .ro, 0, false, true⟩, ⟨2, 2, .sc, 0, false, false⟩, ⟨1, 1, .sc, 0, false, false⟩, ⟨0, 0, .sc, 0, false, false⟩]⟩,
   ⟨0x8, [], [⟨31, 16, .rw, 0, false, true⟩, ⟨15, 0, .rw, 0x3E8, true, false⟩]⟩,
   ⟨0xC, [], [⟨31, 23, .rw, 0, false, true⟩, ⟨22, 0, .rw, 0, true, false⟩]⟩,
   ⟨0x10, [], [⟨31, 16, .rw, 0, false, true⟩, ⟨15, 0, .rw, 0, true, false⟩]⟩,
   ⟨0x14, [], [⟨31, 16, .rw, 0, false, true⟩, ⟨15, 0, .rw, 0, true, false⟩]⟩,
   ⟨0x18, [], [⟨31, 16, .ro, 0, false, true⟩, ⟨15, 0, .sc, 0x3E8, false, false⟩]⟩,
   ⟨0x1C, [], [⟨31, 16, .ro, 0, false, true⟩, ⟨15, 0, .sc, 0, false, false⟩]⟩,
   ⟨0x20, [], [⟨31, 1, .zero, 0, false, true⟩, ⟨0, 0, .cmd, 0, false, false⟩]⟩,
   ⟨0x24, [], [⟨31, 16, .sc, 0, false, false⟩, ⟨15, 0, .sc, 0, false, false⟩]⟩]

/-! LEG: registers of file 06_legs_and_carriers.md. -/

def LEG.CTRL.W : Fld := ⟨0x0, 31, 0⟩
def LEG.CTRL.FORCE_LO : Fld := ⟨0x0, 11, 10⟩
def LEG.CTRL.FORCE_HI : Fld := ⟨0x0, 9, 8⟩
def LEG.CTRL.INV_LO : Fld := ⟨0x0, 6, 6⟩
def LEG.CTRL.INV_HI : Fld := ⟨0x0, 5, 5⟩
def LEG.CTRL.SWAP : Fld := ⟨0x0, 4, 4⟩
def LEG.CTRL.CGATE : Fld := ⟨0x0, 3, 3⟩
def LEG.CTRL.XFER : Fld := ⟨0x0, 2, 1⟩
def LEG.CTRL.ENABLE : Fld := ⟨0x0, 0, 0⟩
def LEG.STATUS.W : Fld := ⟨0x4, 31, 0⟩
def LEG.STATUS.PEND : Fld := ⟨0x4, 7, 7⟩
def LEG.STATUS.INTERLOCK : Fld := ⟨0x4, 6, 6⟩
def LEG.STATUS.LO_BALL : Fld := ⟨0x4, 5, 5⟩
def LEG.STATUS.HI_BALL : Fld := ⟨0x4, 4, 4⟩
def LEG.STATUS.M : Fld := ⟨0x4, 3, 3⟩
def LEG.STATUS.RUN : Fld := ⟨0x4, 2, 2⟩
def LEG.STATUS.WIGN : Fld := ⟨0x4, 0, 0⟩
def LEG.CMP_UP.W : Fld := ⟨0x8, 31, 0⟩
def LEG.CMP_UP.VALUE : Fld := ⟨0x8, 21, 0⟩
def LEG.CMP_DN.W : Fld := ⟨0xC, 31, 0⟩
def LEG.CMP_DN.VALUE : Fld := ⟨0xC, 21, 0⟩
def LEG.DT_RISE.W : Fld := ⟨0x10, 31, 0⟩
def LEG.DT_RISE.VALUE : Fld := ⟨0x10, 21, 0⟩
def LEG.DT_FALL.W : Fld := ⟨0x14, 31, 0⟩
def LEG.DT_FALL.VALUE : Fld := ⟨0x14, 21, 0⟩
def LEG.CMP_UP_ACT.W : Fld := ⟨0x18, 31, 0⟩
def LEG.CMP_UP_ACT.VALUE : Fld := ⟨0x18, 21, 0⟩
def LEG.CMP_DN_ACT.W : Fld := ⟨0x1C, 31, 0⟩
def LEG.CMP_DN_ACT.VALUE : Fld := ⟨0x1C, 21, 0⟩
def LEG.DT_RISE_ACT.W : Fld := ⟨0x20, 31, 0⟩
def LEG.DT_RISE_ACT.VALUE : Fld := ⟨0x20, 21, 0⟩
def LEG.DT_FALL_ACT.W : Fld := ⟨0x24, 31, 0⟩
def LEG.DT_FALL_ACT.VALUE : Fld := ⟨0x24, 21, 0⟩
def LEG.CMD.W : Fld := ⟨0x28, 31, 0⟩
def LEG.CMD.CNT_CLR : Fld := ⟨0x28, 1, 1⟩
def LEG.CMD.COMMIT : Fld := ⟨0x28, 0, 0⟩
def LEG.CNT.W : Fld := ⟨0x2C, 31, 0⟩
def LEG.CNT.DEFER : Fld := ⟨0x2C, 31, 16⟩
def LEG.CNT.IMM : Fld := ⟨0x2C, 15, 0⟩
def LEG.GCOMMIT.W : Fld := ⟨0x40, 31, 0⟩
def LEG.GCOMMIT.MASK : Fld := ⟨0x40, 15, 0⟩

/-- The register table of LEG (R183). -/
def LEG.map : List RegRow :=
  [⟨0x0, [], [⟨31, 12, .rw, 0, false, true⟩, ⟨11, 10, .rw, 0, false, false⟩, ⟨9, 8, .rw, 0, false, false⟩, ⟨7, 7, .rw, 0, false, true⟩, ⟨6, 6, .rwd, 0, true, false⟩, ⟨5, 5, .rwd, 0, true, false⟩, ⟨4, 4, .rwd, 0, true, false⟩, ⟨3, 3, .rwd, 0, true, false⟩, ⟨2, 1, .rwd, 0, true, false⟩, ⟨0, 0, .rw, 0, true, false⟩]⟩,
   ⟨0x4, [], [⟨31, 8, .ro, 0, false, true⟩, ⟨7, 7, .sc, 0, false, false⟩, ⟨6, 6, .sc, 0, false, false⟩, ⟨5, 5, .sc, 0, false, false⟩, ⟨4, 4, .sc, 0, false, false⟩, ⟨3, 3, .sc, 0, false, false⟩, ⟨2, 2, .sc, 0, false, false⟩, ⟨1, 1, .ro, 0, false, true⟩, ⟨0, 0, .sc, 0, false, false⟩]⟩,
   ⟨0x8, [], [⟨31, 22, .rw, 0, false, true⟩, ⟨21, 0, .rw, 0, true, false⟩]⟩,
   ⟨0xC, [], [⟨31, 22, .rw, 0, false, true⟩, ⟨21, 0, .rw, 0, true, false⟩]⟩,
   ⟨0x10, [], [⟨31, 22, .rw, 0, false, true⟩, ⟨21, 0, .rw, 0xC80, true, false⟩]⟩,
   ⟨0x14, [], [⟨31, 22, .rw, 0, false, true⟩, ⟨21, 0, .rw, 0xC80, true, false⟩]⟩,
   ⟨0x18, [], [⟨31, 22, .ro, 0, false, true⟩, ⟨21, 0, .sc, 0, false, false⟩]⟩,
   ⟨0x1C, [], [⟨31, 22, .ro, 0, false, true⟩, ⟨21, 0, .sc, 0, false, false⟩]⟩,
   ⟨0x20, [], [⟨31, 22, .ro, 0, false, true⟩, ⟨21, 0, .sc, 0, false, false⟩]⟩,
   ⟨0x24, [], [⟨31, 22, .ro, 0, false, true⟩, ⟨21, 0, .sc, 0, false, false⟩]⟩,
   ⟨0x28, [], [⟨31, 2, .zero, 0, false, true⟩, ⟨1, 1, .cmd, 0, false, false⟩, ⟨0, 0, .cmd, 0, false, false⟩]⟩,
   ⟨0x2C, [], [⟨31, 16, .sc, 0, false, false⟩, ⟨15, 0, .sc, 0, false, false⟩]⟩,
   ⟨0x40, [], [⟨31, 16, .zero, 0, false, true⟩, ⟨15, 0, .cmd, 0, false, false⟩]⟩]

/-! TRP: registers of file 07_trips.md. -/

def TRP.CTRL.W : Fld := ⟨0x0, 31, 0⟩
def TRP.CTRL.ENABLE : Fld := ⟨0x0, 0, 0⟩
def TRP.STATUS.W : Fld := ⟨0x4, 31, 0⟩
def TRP.STATUS.ANY_HELD : Fld := ⟨0x4, 4, 4⟩
def TRP.STATUS.MKT_IN : Fld := ⟨0x4, 3, 3⟩
def TRP.STATUS.MKT_OUT : Fld := ⟨0x4, 2, 2⟩
def TRP.STATUS.LATCHED : Fld := ⟨0x4, 1, 1⟩
def TRP.STATUS.WIGN : Fld := ⟨0x4, 0, 0⟩
def TRP.CMD.W : Fld := ⟨0x8, 31, 0⟩
def TRP.CMD.CNT_CLR : Fld := ⟨0x8, 16, 16⟩
def TRP.CMD.RELEASE : Fld := ⟨0x8, 15, 0⟩
def TRP.SWTRIP.W : Fld := ⟨0xC, 31, 0⟩
def TRP.SWTRIP.ACTIVE : Fld := ⟨0xC, 0, 0⟩
def TRP.IRQ_EN.W : Fld := ⟨0x10, 31, 0⟩
def TRP.IRQ_EN.GRP : Fld := ⟨0x10, 15, 0⟩
def TRP.SRC_ACT0.W : Fld := ⟨0x18, 31, 0⟩
def TRP.SRC_ACT0.ACT : Fld := ⟨0x18, 31, 0⟩
def TRP.SRC_ACT1.W : Fld := ⟨0x1C, 31, 0⟩
def TRP.SRC_ACT1.ACT : Fld := ⟨0x1C, 31, 0⟩
def TRP.GRP_STATUS.W : Fld := ⟨0x20, 31, 0⟩
def TRP.GRP_STATUS.REL_REFUSED : Fld := ⟨0x20, 31, 16⟩
def TRP.GRP_STATUS.ACTIVE : Fld := ⟨0x20, 15, 0⟩
def TRP.LEG_HELD_LO.W : Fld := ⟨0x28, 31, 0⟩
def TRP.LEG_HELD_LO.HELD : Fld := ⟨0x28, 31, 0⟩
def TRP.LEG_HELD_HI.W : Fld := ⟨0x2C, 31, 0⟩
def TRP.LEG_HELD_HI.HELD : Fld := ⟨0x2C, 31, 0⟩
def TRP.SRC_CFG.W : Fld := ⟨0x100, 31, 0⟩
def TRP.SRC_CFG.FILT : Fld := ⟨0x100, 31, 24⟩
def TRP.SRC_CFG.POL : Fld := ⟨0x100, 23, 23⟩
def TRP.SRC_CFG.PIN_AISLE : Fld := ⟨0x100, 21, 20⟩
def TRP.SRC_CFG.BLK_EN : Fld := ⟨0x100, 19, 19⟩
def TRP.SRC_CFG.BLK_CH : Fld := ⟨0x100, 18, 16⟩
def TRP.SRC_CFG.GROUPS : Fld := ⟨0x100, 15, 0⟩
def TRP.GRP_CFG.W : Fld := ⟨0x200, 31, 0⟩
def TRP.GRP_CFG.MARKET_OUT : Fld := ⟨0x200, 5, 5⟩
def TRP.GRP_CFG.CBC : Fld := ⟨0x200, 4, 4⟩
def TRP.GRP_CFG.ACTION : Fld := ⟨0x200, 1, 0⟩
def TRP.GRP_LEGS_LO.W : Fld := ⟨0x240, 31, 0⟩
def TRP.GRP_LEGS_LO.LEGS : Fld := ⟨0x240, 31, 0⟩
def TRP.GRP_LEGS_HI.W : Fld := ⟨0x244, 31, 0⟩
def TRP.GRP_LEGS_HI.LEGS : Fld := ⟨0x244, 15, 0⟩
def TRP.GRP_FIRST.W : Fld := ⟨0x2C0, 31, 0⟩
def TRP.GRP_FIRST.COUNT : Fld := ⟨0x2C0, 31, 16⟩
def TRP.GRP_FIRST.VALID : Fld := ⟨0x2C0, 15, 15⟩
def TRP.GRP_FIRST.SRC : Fld := ⟨0x2C0, 5, 0⟩

/-- The register table of TRP (R208). -/
def TRP.map : List RegRow :=
  [⟨0x0, [], [⟨31, 1, .rw, 0, false, true⟩, ⟨0, 0, .rw, 0, true, false⟩]⟩,
   ⟨0x4, [], [⟨31, 5, .ro, 0, false, true⟩, ⟨4, 4, .sc, 0, false, false⟩, ⟨3, 3, .sc, 0, false, false⟩, ⟨2, 2, .sc, 0, false, false⟩, ⟨1, 1, .sc, 0, false, false⟩, ⟨0, 0, .sc, 0, false, false⟩]⟩,
   ⟨0x8, [], [⟨31, 17, .zero, 0, false, true⟩, ⟨16, 16, .cmd, 0, false, false⟩, ⟨15, 0, .cmd, 0, false, false⟩]⟩,
   ⟨0xC, [], [⟨31, 1, .rw, 0, false, true⟩, ⟨0, 0, .rw, 0, false, false⟩]⟩,
   ⟨0x10, [], [⟨31, 16, .rw, 0, false, true⟩, ⟨15, 0, .rw, 0, true, false⟩]⟩,
   ⟨0x18, [], [⟨31, 0, .sc, 0, false, false⟩]⟩,
   ⟨0x1C, [], [⟨31, 0, .sc, 0, false, false⟩]⟩,
   ⟨0x20, [], [⟨31, 16, .sc, 0, false, false⟩, ⟨15, 0, .sc, 0, false, false⟩]⟩,
   ⟨0x28, [], [⟨31, 0, .sc, 0, false, false⟩]⟩,
   ⟨0x2C, [], [⟨31, 0, .sc, 0, false, false⟩]⟩,
   ⟨0x100, [(46, 0x4)], [⟨31, 24, .rwd, 0, true, false⟩, ⟨23, 23, .rwd, 0, true, false⟩, ⟨22, 22, .rw, 0, false, true⟩, ⟨21, 20, .rwd, 0, true, false⟩, ⟨19, 19, .rwd, 0, true, false⟩, ⟨18, 16, .rwd, 0, true, false⟩, ⟨15, 0, .rwd, 0, true, false⟩]⟩,
   ⟨0x200, [(16, 0x4)], [⟨31, 6, .rw, 0, false, true⟩, ⟨5, 5, .rwd, 0, true, false⟩, ⟨4, 4, .rwd, 0, true, false⟩, ⟨3, 2, .rw, 0, false, true⟩, ⟨1, 0, .rwd, 0, true, false⟩]⟩,
   ⟨0x240, [(16, 0x8)], [⟨31, 0, .rwd, 0, true, false⟩]⟩,
   ⟨0x244, [(16, 0x8)], [⟨31, 16, .rwd, 0, true, true⟩, ⟨15, 0, .rwd, 0, true, false⟩]⟩,
   ⟨0x2C0, [(16, 0x4)], [⟨31, 16, .sc, 0, false, false⟩, ⟨15, 15, .sc, 0, false, false⟩, ⟨14, 6, .ro, 0, false, true⟩, ⟨5, 0, .sc, 0, false, false⟩]⟩]

/-! STL: registers of file 08_stall_engine.md. -/

def STL.DBG.W : Fld := ⟨0x100, 31, 0⟩
def STL.DBG.FRZ_REFUSED : Fld := ⟨0x100, 1, 1⟩
def STL.DBG.FREEZE : Fld := ⟨0x100, 0, 0⟩
def STL.SUMMARY.W : Fld := ⟨0x104, 31, 0⟩
def STL.SUMMARY.LEG_RUN : Fld := ⟨0x104, 7, 4⟩
def STL.SUMMARY.ENG_HEALTHY : Fld := ⟨0x104, 3, 3⟩
def STL.SUMMARY.ENG_BUSY : Fld := ⟨0x104, 2, 2⟩
def STL.SUMMARY.CNV_BUSY : Fld := ⟨0x104, 1, 1⟩
def STL.SUMMARY.TRIP_REQ : Fld := ⟨0x104, 0, 0⟩

/-- The register table of STL (R241). -/
def STL.map : List RegRow :=
  [⟨0x100, [], [⟨31, 2, .rw, 0, false, true⟩, ⟨1, 1, .sc, 0, false, false⟩, ⟨0, 0, .rw, 0, false, false⟩]⟩,
   ⟨0x104, [], [⟨31, 8, .ro, 0, false, true⟩, ⟨7, 4, .sc, 0, false, false⟩, ⟨3, 3, .sc, 0, false, false⟩, ⟨2, 2, .sc, 0, false, false⟩, ⟨1, 1, .sc, 0, false, false⟩, ⟨0, 0, .sc, 0, false, false⟩]⟩]

/-! ENG: registers of file 08_stall_engine.md. -/

def ENG.CTRL.W : Fld := ⟨0x0, 31, 0⟩
def ENG.CTRL.ENTRY : Fld := ⟨0x0, 14, 8⟩
def ENG.CTRL.SCPRE : Fld := ⟨0x0, 4, 4⟩
def ENG.CTRL.TRIG_K : Fld := ⟨0x0, 3, 2⟩
def ENG.CTRL.TRIG_EN : Fld := ⟨0x0, 1, 1⟩
def ENG.CTRL.ENABLE : Fld := ⟨0x0, 0, 0⟩
def ENG.STATUS.W : Fld := ⟨0x4, 31, 0⟩
def ENG.STATUS.HEALTHY : Fld := ⟨0x4, 4, 4⟩
def ENG.STATUS.FROZEN : Fld := ⟨0x4, 3, 3⟩
def ENG.STATUS.RERUN : Fld := ⟨0x4, 2, 2⟩
def ENG.STATUS.BUSY : Fld := ⟨0x4, 1, 1⟩
def ENG.STATUS.WIGN : Fld := ⟨0x4, 0, 0⟩
def ENG.CMD.W : Fld := ⟨0x8, 31, 0⟩
def ENG.CMD.FLT_REL : Fld := ⟨0x8, 12, 8⟩
def ENG.CMD.CNT_CLR : Fld := ⟨0x8, 3, 3⟩
def ENG.CMD.TRIP_REL : Fld := ⟨0x8, 2, 2⟩
def ENG.CMD.PUBLISH : Fld := ⟨0x8, 1, 1⟩
def ENG.CMD.START : Fld := ⟨0x8, 0, 0⟩
def ENG.POLICY.W : Fld := ⟨0xC, 31, 0⟩
def ENG.POLICY.SAT : Fld := ⟨0xC, 5, 4⟩
def ENG.POLICY.VOTE : Fld := ⟨0xC, 3, 2⟩
def ENG.POLICY.DEADLINE : Fld := ⟨0xC, 1, 0⟩
def ENG.FAULT.W : Fld := ⟨0x10, 31, 0⟩
def ENG.FAULT.TRIP_REQ : Fld := ⟨0x10, 8, 8⟩
def ENG.FAULT.TRIP_OP : Fld := ⟨0x10, 4, 4⟩
def ENG.FAULT.ILLOP : Fld := ⟨0x10, 3, 3⟩
def ENG.FAULT.SAT_EVENT : Fld := ⟨0x10, 2, 2⟩
def ENG.FAULT.VOTE_FAIL : Fld := ⟨0x10, 1, 1⟩
def ENG.FAULT.DEADLINE_MISS : Fld := ⟨0x10, 0, 0⟩
def ENG.IRQ_EN.W : Fld := ⟨0x14, 31, 0⟩
def ENG.IRQ_EN.TRIP_REQ : Fld := ⟨0x14, 8, 8⟩
def ENG.IRQ_EN.DONE : Fld := ⟨0x14, 5, 5⟩
def ENG.IRQ_EN.FAULTS : Fld := ⟨0x14, 4, 0⟩
def ENG.CNT.W : Fld := ⟨0x18, 31, 0⟩
def ENG.CNT.MISMATCH_CNT : Fld := ⟨0x18, 31, 16⟩
def ENG.CNT.START_LOST : Fld := ⟨0x18, 15, 0⟩
def ENG.RUN_CNT.W : Fld := ⟨0x1C, 31, 0⟩
def ENG.RUN_CNT.COUNT : Fld := ⟨0x1C, 31, 0⟩
def ENG.LAST.W : Fld := ⟨0x20, 31, 0⟩
def ENG.LAST.SLACK : Fld := ⟨0x20, 31, 12⟩
def ENG.LAST.LEN : Fld := ⟨0x20, 11, 0⟩
def ENG.MBX_STATUS.W : Fld := ⟨0x24, 31, 0⟩
def ENG.MBX_STATUS.PUB_PEND : Fld := ⟨0x24, 16, 16⟩
def ENG.MBX_STATUS.OUT_SEQ : Fld := ⟨0x24, 15, 0⟩
def ENG.NCO_CFG.W : Fld := ⟨0x30, 31, 0⟩
def ENG.NCO_CFG.QEP_SEL : Fld := ⟨0x30, 3, 2⟩
def ENG.NCO_CFG.SRC : Fld := ⟨0x30, 0, 0⟩
def ENG.NCO_FREQ.W : Fld := ⟨0x34, 31, 0⟩
def ENG.NCO_FREQ.FREQ : Fld := ⟨0x34, 31, 0⟩
def ENG.NCO_PHASE.W : Fld := ⟨0x38, 31, 0⟩
def ENG.NCO_PHASE.PHASE : Fld := ⟨0x38, 31, 0⟩
def ENG.NCO_ANGLE.W : Fld := ⟨0x3C, 31, 0⟩
def ENG.NCO_ANGLE.ANGLE : Fld := ⟨0x3C, 31, 0⟩
def ENG.E.W : Fld := ⟨0x100, 31, 0⟩
def ENG.E.VALUE : Fld := ⟨0x100, 31, 0⟩
def ENG.ACC_LO.W : Fld := ⟨0x180, 31, 0⟩
def ENG.ACC_LO.VALUE : Fld := ⟨0x180, 31, 0⟩
def ENG.ACC_HI.W : Fld := ⟨0x184, 31, 0⟩
def ENG.ACC_HI.VALUE : Fld := ⟨0x184, 31, 0⟩
def ENG.PI_KP.W : Fld := ⟨0x200, 31, 0⟩
def ENG.PI_KP.VALUE : Fld := ⟨0x200, 31, 0⟩
def ENG.PI_KI.W : Fld := ⟨0x204, 31, 0⟩
def ENG.PI_KI.VALUE : Fld := ⟨0x204, 31, 0⟩
def ENG.PI_HI.W : Fld := ⟨0x208, 31, 0⟩
def ENG.PI_HI.VALUE : Fld := ⟨0x208, 31, 0⟩
def ENG.PI_LO.W : Fld := ⟨0x20C, 31, 0⟩
def ENG.PI_LO.VALUE : Fld := ⟨0x20C, 31, 0⟩
def ENG.INT_LO.W : Fld := ⟨0x210, 31, 0⟩
def ENG.INT_LO.VALUE : Fld := ⟨0x210, 31, 0⟩
def ENG.INT_HI.W : Fld := ⟨0x214, 31, 0⟩
def ENG.INT_HI.VALUE : Fld := ⟨0x214, 31, 0⟩
def ENG.MBX_IN.W : Fld := ⟨0x400, 31, 0⟩
def ENG.MBX_IN.VALUE : Fld := ⟨0x400, 31, 0⟩
def ENG.MBX_IN_RD.W : Fld := ⟨0x440, 31, 0⟩
def ENG.MBX_IN_RD.VALUE : Fld := ⟨0x440, 31, 0⟩
def ENG.MBX_OUT.W : Fld := ⟨0x480, 31, 0⟩
def ENG.MBX_OUT.VALUE : Fld := ⟨0x480, 31, 0⟩
def ENG.PROG.W : Fld := ⟨0x4000, 31, 0⟩
def ENG.PROG.WORD : Fld := ⟨0x4000, 31, 0⟩

/-- The register table of ENG (R243). -/
def ENG.mapA : List RegRow :=
  [⟨0x0, [], [⟨31, 15, .rw, 0, false, true⟩, ⟨14, 8, .rwd, 0, true, false⟩, ⟨7, 5, .rw, 0, false, true⟩, ⟨4, 4, .rwd, 0, true, false⟩, ⟨3, 2, .rwd, 0, true, false⟩, ⟨1, 1, .rwd, 0, true, false⟩, ⟨0, 0, .rw, 0, true, false⟩]⟩,
   ⟨0x4, [], [⟨31, 5, .ro, 0, false, true⟩, ⟨4, 4, .sc, 0, false, false⟩, ⟨3, 3, .sc, 0, false, false⟩, ⟨2, 2, .sc, 0, false, false⟩, ⟨1, 1, .sc, 0, false, false⟩, ⟨0, 0, .sc, 0, false, false⟩]⟩,
   ⟨0x8, [], [⟨31, 13, .zero, 0, false, true⟩, ⟨12, 8, .cmd, 0, false, false⟩, ⟨7, 4, .zero, 0, false, true⟩, ⟨3, 3, .cmd, 0, false, false⟩, ⟨2, 2, .cmd, 0, false, false⟩, ⟨1, 1, .cmd, 0, false, false⟩, ⟨0, 0, .cmd, 0, false, false⟩]⟩,
   ⟨0xC, [], [⟨31, 6, .rw, 0, false, true⟩, ⟨5, 4, .rwd, 0, true, false⟩, ⟨3, 2, .rwd, 2, true, false⟩, ⟨1, 0, .rwd, 2, true, false⟩]⟩,
   ⟨0x10, [], [⟨31, 9, .ro, 0, false, true⟩, ⟨8, 8, .ro, 0, false, false⟩, ⟨7, 5, .ro, 0, false, true⟩, ⟨4, 4, .ro, 0, false, false⟩, ⟨3, 3, .ro, 0, false, false⟩, ⟨2, 2, .ro, 0, false, false⟩, ⟨1, 1, .ro, 0, false, false⟩, ⟨0, 0, .ro, 0, false, false⟩]⟩,
   ⟨0x14, [], [⟨31, 9, .rw, 0, false, true⟩, ⟨8, 8, .rw, 0, true, false⟩, ⟨7, 6, .rw, 0, false, true⟩, ⟨5, 5, .rw, 0, true, false⟩, ⟨4, 0, .rw, 0, true, false⟩]⟩,
   ⟨0x18, [], [⟨31, 16, .sc, 0, false, false⟩, ⟨15, 0, .sc, 0, false, false⟩]⟩,
   ⟨0x1C, [], [⟨31, 0, .sc, 0, false, false⟩]⟩,
   ⟨0x20, [], [⟨31, 12, .sc, 0, false, false⟩, ⟨11, 0, .sc, 0, false, false⟩]⟩,
   ⟨0x24, [], [⟨31, 17, .ro, 0, false, true⟩, ⟨16, 16, .sc, 0, false, false⟩, ⟨15, 0, .sc, 0, false, false⟩]⟩,
   ⟨0x30, [], [⟨31, 4, .rw, 0, false, true⟩, ⟨3, 2, .rwd, 0, true, false⟩, ⟨1, 1, .rw, 0, false, true⟩, ⟨0, 0, .rwd, 0, true, false⟩]⟩,
   ⟨0x34, [], [⟨31, 0, .rw, 0, true, false⟩]⟩,
   ⟨0x38, [], [⟨31, 0, .rw, 0, false, false⟩]⟩,
   ⟨0x3C, [], [⟨31, 0, .sc, 0, false, false⟩]⟩,
   ⟨0x100, [(32, 0x4)], [⟨31, 0, .rwd, 0, true, false⟩]⟩,
   ⟨0x180, [(4, 0x8)], [⟨31, 0, .rwd, 0, false, false⟩]⟩,
   ⟨0x184, [(4, 0x8)], [⟨31, 0, .rwd, 0, false, false⟩]⟩,
   ⟨0x200, [(16, 0x20)], [⟨31, 0, .rw, 0, true, false⟩]⟩,
   ⟨0x204, [(16, 0x20)], [⟨31, 0, .rw, 0, true, false⟩]⟩,
   ⟨0x208, [(16, 0x20)], [⟨31, 0, .rw, 0, true, false⟩]⟩]

/-- The register table of ENG (R243). -/
def ENG.mapB : List RegRow :=
  [⟨0x20C, [(16, 0x20)], [⟨31, 0, .rw, 0, true, false⟩]⟩,
   ⟨0x210, [(16, 0x20)], [⟨31, 0, .rwd, 0, false, false⟩]⟩,
   ⟨0x214, [(16, 0x20)], [⟨31, 0, .rwd, 0, false, false⟩]⟩,
   ⟨0x400, [(16, 0x4)], [⟨31, 0, .rw, 0, false, false⟩]⟩,
   ⟨0x440, [(16, 0x4)], [⟨31, 0, .sc, 0, false, false⟩]⟩,
   ⟨0x480, [(16, 0x4)], [⟨31, 0, .sc, 0, false, false⟩]⟩,
   ⟨0x4000, [(128, 0x4)], [⟨31, 0, .rwd, 0, true, false⟩]⟩]

def ENG.map : List RegRow := ENG.mapA ++ ENG.mapB

/-! CRI: registers of file 13_crier.md. -/

def CRI.CTRL.W : Fld := ⟨0x0, 31, 0⟩
def CRI.CTRL.ENABLE : Fld := ⟨0x0, 0, 0⟩
def CRI.STATUS.W : Fld := ⟨0x4, 31, 0⟩
def CRI.STATUS.WIGN : Fld := ⟨0x4, 0, 0⟩
def CRI.CPL_ERR.W : Fld := ⟨0x8, 31, 0⟩
def CRI.CPL_ERR.COUNT : Fld := ⟨0x8, 31, 16⟩
def CRI.CPL_ERR.INITIATOR : Fld := ⟨0x8, 15, 12⟩
def CRI.CPL_ERR.LVL : Fld := ⟨0x8, 10, 8⟩
def CRI.CPL_ERR.SRC : Fld := ⟨0x8, 7, 0⟩
def CRI.DOORBELL.W : Fld := ⟨0x10, 31, 0⟩
def CRI.DOORBELL.RING : Fld := ⟨0x10, 7, 0⟩
def CRI.EXT_CFG.W : Fld := ⟨0x40, 31, 0⟩
def CRI.EXT_CFG.MODE : Fld := ⟨0x40, 18, 16⟩
def CRI.EXT_CFG.PRE : Fld := ⟨0x40, 10, 8⟩
def CRI.EXT_CFG.FILT : Fld := ⟨0x40, 7, 0⟩
def CRI.EN.W : Fld := ⟨0x80, 31, 0⟩
def CRI.EN.EN : Fld := ⟨0x80, 31, 0⟩
def CRI.EN_SET.W : Fld := ⟨0xA0, 31, 0⟩
def CRI.EN_SET.MASK : Fld := ⟨0xA0, 31, 0⟩
def CRI.EN_CLR.W : Fld := ⟨0xC0, 31, 0⟩
def CRI.EN_CLR.MASK : Fld := ⟨0xC0, 31, 0⟩
def CRI.PEND_SET.W : Fld := ⟨0x120, 31, 0⟩
def CRI.PEND_SET.MASK : Fld := ⟨0x120, 31, 0⟩
def CRI.PEND_CLR.W : Fld := ⟨0x140, 31, 0⟩
def CRI.PEND_CLR.MASK : Fld := ⟨0x140, 31, 0⟩
def CRI.PEND.W : Fld := ⟨0x100, 31, 0⟩
def CRI.PEND.BITS : Fld := ⟨0x100, 31, 0⟩
def CRI.ACTIVE.W : Fld := ⟨0x160, 31, 0⟩
def CRI.ACTIVE.BITS : Fld := ⟨0x160, 31, 0⟩
def CRI.LINE.W : Fld := ⟨0x180, 31, 0⟩
def CRI.LINE.BITS : Fld := ⟨0x180, 31, 0⟩
def CRI.ROUTE.W : Fld := ⟨0x400, 31, 0⟩
def CRI.ROUTE.ACT_LVL : Fld := ⟨0x400, 14, 12⟩
def CRI.ROUTE.ACT_CORE : Fld := ⟨0x400, 9, 8⟩
def CRI.ROUTE.LVL : Fld := ⟨0x400, 6, 4⟩
def CRI.ROUTE.CORE : Fld := ⟨0x400, 1, 0⟩
def CRI.CLAIM.W : Fld := ⟨0x1000, 31, 0⟩
def CRI.CLAIM.SRC : Fld := ⟨0x1000, 7, 0⟩
def CRI.COMPLETE.W : Fld := ⟨0x1004, 31, 0⟩
def CRI.COMPLETE.SRC : Fld := ⟨0x1004, 7, 0⟩
def CRI.REQ.W : Fld := ⟨0x1080, 31, 0⟩
def CRI.REQ.LVL : Fld := ⟨0x1080, 7, 1⟩

/-- The register table of CRI (R346). -/
def CRI.map : List RegRow :=
  [⟨0x0, [], [⟨31, 1, .rw, 0, false, true⟩, ⟨0, 0, .rw, 0, true, false⟩]⟩,
   ⟨0x4, [], [⟨31, 1, .ro, 0, false, true⟩, ⟨0, 0, .sc, 0, false, false⟩]⟩,
   ⟨0x8, [], [⟨31, 16, .sc, 0, false, false⟩, ⟨15, 12, .sc, 0, false, false⟩, ⟨11, 11, .ro, 0, false, true⟩, ⟨10, 8, .sc, 0, false, false⟩, ⟨7, 0, .sc, 0, false, false⟩]⟩,
   ⟨0x10, [], [⟨31, 8, .zero, 0, false, true⟩, ⟨7, 0, .cmd, 0, false, false⟩]⟩,
   ⟨0x40, [(8, 0x4)], [⟨31, 19, .rw, 0, false, true⟩, ⟨18, 16, .rw, 7, true, false⟩, ⟨15, 11, .rw, 0, false, true⟩, ⟨10, 8, .rw, 0, true, false⟩, ⟨7, 0, .rw, 0, true, false⟩]⟩,
   ⟨0x80, [(8, 0x4)], [⟨31, 0, .rw, 0, true, false⟩]⟩,
   ⟨0xA0, [(8, 0x4)], [⟨31, 0, .cmd, 0, false, false⟩]⟩,
   ⟨0xC0, [(8, 0x4)], [⟨31, 0, .cmd, 0, false, false⟩]⟩,
   ⟨0x120, [(8, 0x4)], [⟨31, 0, .cmd, 0, false, false⟩]⟩,
   ⟨0x140, [(8, 0x4)], [⟨31, 0, .cmd, 0, false, false⟩]⟩,
   ⟨0x100, [(8, 0x4)], [⟨31, 0, .sc, 0, false, false⟩]⟩,
   ⟨0x160, [(8, 0x4)], [⟨31, 0, .sc, 0, false, false⟩]⟩,
   ⟨0x180, [(8, 0x4)], [⟨31, 0, .sc, 0, false, false⟩]⟩,
   ⟨0x404, [(255, 0x4)], [⟨31, 15, .rw, 0, false, true⟩, ⟨14, 12, .sc, 0, false, false⟩, ⟨11, 10, .rw, 0, false, true⟩, ⟨9, 8, .sc, 0, false, false⟩, ⟨7, 7, .rw, 0, false, true⟩, ⟨6, 4, .rw, 0, true, false⟩, ⟨3, 2, .rw, 0, false, true⟩, ⟨1, 0, .rw, 0, true, false⟩]⟩,
   ⟨0x1010, [(4, 0x100), (7, 0x10)], [⟨31, 8, .ro, 0, false, true⟩, ⟨7, 0, .rs, 0, false, false⟩]⟩,
   ⟨0x1014, [(4, 0x100), (7, 0x10)], [⟨31, 8, .zero, 0, false, true⟩, ⟨7, 0, .cmd, 0, false, false⟩]⟩,
   ⟨0x1080, [(4, 0x100)], [⟨31, 8, .ro, 0, false, true⟩, ⟨7, 1, .sc, 0, false, false⟩, ⟨0, 0, .ro, 0, false, true⟩]⟩]

/-! FLC: registers of file 14_store_room_flash.md. -/

def FLC.CTRL.W : Fld := ⟨0x0, 31, 0⟩
def FLC.CTRL.MINRUN : Fld := ⟨0x0, 13, 8⟩
def FLC.CTRL.SCRUB_EN : Fld := ⟨0x0, 1, 1⟩
def FLC.CTRL.ENABLE : Fld := ⟨0x0, 0, 0⟩
def FLC.STATUS.W : Fld := ⟨0x4, 31, 0⟩
def FLC.STATUS.BANK_BUSY : Fld := ⟨0x4, 7, 6⟩
def FLC.STATUS.DESC_ERR : Fld := ⟨0x4, 5, 5⟩
def FLC.STATUS.SUSP_SW : Fld := ⟨0x4, 4, 4⟩
def FLC.STATUS.SUSP : Fld := ⟨0x4, 3, 3⟩
def FLC.STATUS.HALTED : Fld := ⟨0x4, 2, 2⟩
def FLC.STATUS.BUSY : Fld := ⟨0x4, 1, 1⟩
def FLC.STATUS.WIGN : Fld := ⟨0x4, 0, 0⟩
def FLC.CMD.W : Fld := ⟨0x8, 31, 0⟩
def FLC.CMD.CNT_CLR : Fld := ⟨0x8, 4, 4⟩
def FLC.CMD.RESUME_ERASE : Fld := ⟨0x8, 3, 3⟩
def FLC.CMD.SUSPEND : Fld := ⟨0x8, 2, 2⟩
def FLC.CMD.RESUME : Fld := ⟨0x8, 0, 0⟩
def FLC.IRQ_EN.W : Fld := ⟨0xC, 31, 0⟩
def FLC.IRQ_EN.SRC : Fld := ⟨0xC, 7, 0⟩
def FLC.FQ_BASE.W : Fld := ⟨0x10, 31, 0⟩
def FLC.FQ_BASE.BASE : Fld := ⟨0x10, 31, 0⟩
def FLC.FQ_CFG.W : Fld := ⟨0x14, 31, 0⟩
def FLC.FQ_CFG.SIZE : Fld := ⟨0x14, 3, 0⟩
def FLC.FQ_HEAD.W : Fld := ⟨0x18, 31, 0⟩
def FLC.FQ_HEAD.HEAD : Fld := ⟨0x18, 15, 0⟩
def FLC.FQ_TAIL.W : Fld := ⟨0x1C, 31, 0⟩
def FLC.FQ_TAIL.TAIL : Fld := ⟨0x1C, 15, 0⟩
def FLC.CNT.W : Fld := ⟨0x20, 31, 0⟩
def FLC.CNT.UNC : Fld := ⟨0x20, 31, 16⟩
def FLC.CNT.HEAD_REFUSED : Fld := ⟨0x20, 15, 0⟩
def FLC.ECC_CNT.W : Fld := ⟨0x24, 31, 0⟩
def FLC.ECC_CNT.COUNT : Fld := ⟨0x24, 31, 0⟩
def FLC.ECC_LAST.W : Fld := ⟨0x28, 31, 0⟩
def FLC.ECC_LAST.OFFSET : Fld := ⟨0x28, 23, 0⟩
def FLC.SCRUB_CFG.W : Fld := ⟨0x30, 31, 0⟩
def FLC.SCRUB_CFG.INTERVAL : Fld := ⟨0x30, 15, 0⟩
def FLC.SCRUB_POS.W : Fld := ⟨0x34, 31, 0⟩
def FLC.SCRUB_POS.PASS : Fld := ⟨0x34, 31, 16⟩
def FLC.SCRUB_POS.LINE : Fld := ⟨0x34, 15, 0⟩
def FLC.SCRUB_STAT.W : Fld := ⟨0x38, 31, 0⟩
def FLC.SCRUB_STAT.STUCK : Fld := ⟨0x38, 31, 16⟩
def FLC.SCRUB_STAT.REFRESHED : Fld := ⟨0x38, 15, 0⟩
def FLC.SCRUB_STUCK.W : Fld := ⟨0x3C, 31, 0⟩
def FLC.SCRUB_STUCK.OFFSET : Fld := ⟨0x3C, 23, 0⟩
def FLC.JSEQ.W : Fld := ⟨0x40, 31, 0⟩
def FLC.JSEQ.SEQ : Fld := ⟨0x40, 31, 0⟩
def FLC.OPT_STATUS.W : Fld := ⟨0x44, 31, 0⟩
def FLC.OPT_STATUS.B_VALID : Fld := ⟨0x44, 3, 3⟩
def FLC.OPT_STATUS.A_VALID : Fld := ⟨0x44, 2, 2⟩
def FLC.OPT_STATUS.LOADED : Fld := ⟨0x44, 1, 0⟩
def FLC.OPT_SEQ.W : Fld := ⟨0x48, 31, 0⟩
def FLC.OPT_SEQ.SEQ : Fld := ⟨0x48, 31, 0⟩
def FLC.TORN_MAP.W : Fld := ⟨0x60, 31, 0⟩
def FLC.TORN_MAP.TORN : Fld := ⟨0x60, 31, 0⟩
def FLC.WP.W : Fld := ⟨0x80, 31, 0⟩
def FLC.WP.WP : Fld := ⟨0x80, 31, 0⟩
def FLC.WP_SET.W : Fld := ⟨0xA0, 31, 0⟩
def FLC.WP_SET.MASK : Fld := ⟨0xA0, 31, 0⟩
def FLC.OPT_A.W : Fld := ⟨0x2000, 31, 0⟩
def FLC.OPT_A.DATA : Fld := ⟨0x2000, 31, 0⟩
def FLC.OPT_B.W : Fld := ⟨0x4000, 31, 0⟩
def FLC.OPT_B.DATA : Fld := ⟨0x4000, 31, 0⟩

/-- The register table of FLC (R377). -/
def FLC.mapA : List RegRow :=
  [⟨0x0, [], [⟨31, 14, .rw, 0, false, true⟩, ⟨13, 8, .rwd, 4, true, false⟩, ⟨7, 2, .rw, 0, false, true⟩, ⟨1, 1, .rw, 1, true, false⟩, ⟨0, 0, .rw, 0, true, false⟩]⟩,
   ⟨0x4, [], [⟨31, 8, .ro, 0, false, true⟩, ⟨7, 6, .sc, 0, false, false⟩, ⟨5, 5, .sc, 0, false, false⟩, ⟨4, 4, .sc, 0, false, false⟩, ⟨3, 3, .sc, 0, false, false⟩, ⟨2, 2, .sc, 0, false, false⟩, ⟨1, 1, .sc, 0, false, false⟩, ⟨0, 0, .sc, 0, false, false⟩]⟩,
   ⟨0x8, [], [⟨31, 5, .zero, 0, false, true⟩, ⟨4, 4, .cmd, 0, false, false⟩, ⟨3, 3, .cmd, 0, false, false⟩, ⟨2, 2, .cmd, 0, false, false⟩, ⟨1, 1, .zero, 0, false, true⟩, ⟨0, 0, .cmd, 0, false, false⟩]⟩,
   ⟨0xC, [], [⟨31, 8, .rw, 0, false, true⟩, ⟨7, 0, .rw, 0, true, false⟩]⟩,
   ⟨0x10, [], [⟨31, 0, .rwd, 0, true, false⟩]⟩,
   ⟨0x14, [], [⟨31, 4, .rw, 0, false, true⟩, ⟨3, 0, .rwd, 0, true, false⟩]⟩,
   ⟨0x18, [], [⟨31, 16, .rw, 0, false, true⟩, ⟨15, 0, .rw, 0, false, false⟩]⟩,
   ⟨0x1C, [], [⟨31, 16, .ro, 0, false, true⟩, ⟨15, 0, .sc, 0, false, false⟩]⟩,
   ⟨0x20, [], [⟨31, 16, .sc, 0, false, false⟩, ⟨15, 0, .sc, 0, false, false⟩]⟩,
   ⟨0x24, [], [⟨31, 0, .sc, 0, false, false⟩]⟩,
   ⟨0x28, [], [⟨31, 24, .ro, 0, false, true⟩, ⟨23, 0, .sc, 0, false, false⟩]⟩,
   ⟨0x30, [], [⟨31, 16, .rw, 0, false, true⟩, ⟨15, 0, .rw, 0x3E8, true, false⟩]⟩,
   ⟨0x34, [], [⟨31, 16, .sc, 0, false, false⟩, ⟨15, 0, .sc, 0, false, false⟩]⟩,
   ⟨0x38, [], [⟨31, 16, .sc, 0, false, false⟩, ⟨15, 0, .sc, 0, false, false⟩]⟩,
   ⟨0x3C, [], [⟨31, 24, .ro, 0, false, true⟩, ⟨23, 0, .sc, 0, false, false⟩]⟩,
   ⟨0x40, [], [⟨31, 0, .sc, 0, false, false⟩]⟩,
   ⟨0x44, [], [⟨31, 4, .ro, 0, false, true⟩, ⟨3, 3, .sc, 0, false, false⟩, ⟨2, 2, .sc, 0, false, false⟩, ⟨1, 0, .sc, 0, false, false⟩]⟩,
   ⟨0x48, [], [⟨31, 0, .sc, 0, false, false⟩]⟩,
   ⟨0x60, [(8, 0x4)], [⟨31, 0, .sc, 0, false, false⟩]⟩,
   ⟨0x80, [(8, 0x4)], [⟨31, 0, .sc, 0, false, false⟩]⟩]

/-- The register table of FLC (R377). -/
def FLC.mapB : List RegRow :=
  [⟨0xA0, [(8, 0x4)], [⟨31, 0, .cmd, 0, false, false⟩]⟩,
   ⟨0x2000, [(2048, 0x4)], [⟨31, 0, .ro, 0, false, false⟩]⟩,
   ⟨0x4000, [(2048, 0x4)], [⟨31, 0, .ro, 0, false, false⟩]⟩]

def FLC.map : List RegRow := FLC.mapA ++ FLC.mapB

/-! CEL: registers of file 15_cellar_power_reset_arming.md. -/

def CEL.CTRL.W : Fld := ⟨0x0, 31, 0⟩
def CEL.CTRL.DBG_OFF : Fld := ⟨0x0, 8, 8⟩
def CEL.CTRL.ENABLE : Fld := ⟨0x0, 0, 0⟩
def CEL.STATUS.W : Fld := ⟨0x4, 31, 0⟩
def CEL.STATUS.RST_REFUSED : Fld := ⟨0x4, 10, 10⟩
def CEL.STATUS.SNAP_REFUSED : Fld := ⟨0x4, 9, 9⟩
def CEL.STATUS.DBG_PWR : Fld := ⟨0x4, 8, 8⟩
def CEL.STATUS.PFAIL : Fld := ⟨0x4, 7, 7⟩
def CEL.STATUS.SUP_WARN : Fld := ⟨0x4, 6, 6⟩
def CEL.STATUS.DEF_VALID : Fld := ⟨0x4, 5, 5⟩
def CEL.STATUS.SNAP_VALID : Fld := ⟨0x4, 4, 3⟩
def CEL.STATUS.SNAP_NEWEST : Fld := ⟨0x4, 2, 2⟩
def CEL.STATUS.SNAP_BUSY : Fld := ⟨0x4, 1, 1⟩
def CEL.STATUS.WIGN : Fld := ⟨0x4, 0, 0⟩
def CEL.CMD.W : Fld := ⟨0x8, 31, 0⟩
def CEL.CMD.CNT_CLR : Fld := ⟨0x8, 4, 4⟩
def CEL.CMD.LEDGER_CLR : Fld := ⟨0x8, 3, 3⟩
def CEL.CMD.SHUTDOWN : Fld := ⟨0x8, 2, 2⟩
def CEL.CMD.DEF_SAVE : Fld := ⟨0x8, 1, 1⟩
def CEL.CMD.SNAPSHOT : Fld := ⟨0x8, 0, 0⟩
def CEL.RST_CAUSE.W : Fld := ⟨0xC, 31, 0⟩
def CEL.RST_CAUSE.CORE : Fld := ⟨0xC, 31, 24⟩
def CEL.RST_CAUSE.SUP : Fld := ⟨0xC, 11, 8⟩
def CEL.RST_CAUSE.TYPE : Fld := ⟨0xC, 3, 0⟩
def CEL.RST_CMD.W : Fld := ⟨0x10, 31, 0⟩
def CEL.RST_CMD.KEY : Fld := ⟨0x10, 31, 16⟩
def CEL.RST_CMD.TARGET : Fld := ⟨0x10, 11, 8⟩
def CEL.RST_CMD.ACTION : Fld := ⟨0x10, 1, 0⟩
def CEL.RESTORE_STAT.W : Fld := ⟨0x14, 31, 0⟩
def CEL.RESTORE_STAT.FAILED : Fld := ⟨0x14, 31, 16⟩
def CEL.RESTORE_STAT.RESET_VAL : Fld := ⟨0x14, 4, 4⟩
def CEL.RESTORE_STAT.OLDER : Fld := ⟨0x14, 3, 3⟩
def CEL.RESTORE_STAT.SLOT : Fld := ⟨0x14, 2, 2⟩
def CEL.RESTORE_STAT.POLICY : Fld := ⟨0x14, 1, 0⟩
def CEL.SNAP_SEQ.W : Fld := ⟨0x18, 31, 0⟩
def CEL.SNAP_SEQ.SEQ : Fld := ⟨0x18, 31, 0⟩
def CEL.LEDGER_HEAD.W : Fld := ⟨0x20, 31, 0⟩
def CEL.LEDGER_HEAD.COUNT : Fld := ⟨0x20, 26, 16⟩
def CEL.LEDGER_HEAD.NEXT : Fld := ⟨0x20, 9, 0⟩
def CEL.LEDGER_OVF.W : Fld := ⟨0x24, 31, 0⟩
def CEL.LEDGER_OVF.COUNT : Fld := ⟨0x24, 31, 0⟩
def CEL.LEDGER_LOST.W : Fld := ⟨0x28, 31, 0⟩
def CEL.LEDGER_LOST.COUNT : Fld := ⟨0x28, 15, 0⟩
def CEL.RTC_LO.W : Fld := ⟨0x30, 31, 0⟩
def CEL.RTC_LO.COUNT : Fld := ⟨0x30, 31, 0⟩
def CEL.RTC_HI.W : Fld := ⟨0x34, 31, 0⟩
def CEL.RTC_HI.COUNT : Fld := ⟨0x34, 31, 0⟩
def CEL.IRQ_EN.W : Fld := ⟨0x40, 31, 0⟩
def CEL.IRQ_EN.SRC : Fld := ⟨0x40, 7, 0⟩
def CEL.ARM_KEY.W : Fld := ⟨0x800, 31, 0⟩
def CEL.ARM_KEY.KEY : Fld := ⟨0x800, 15, 0⟩
def CEL.ARM_STATE.W : Fld := ⟨0x804, 31, 0⟩
def CEL.ARM_STATE.LAST_DISARM : Fld := ⟨0x804, 19, 16⟩
def CEL.ARM_STATE.COND : Fld := ⟨0x804, 12, 8⟩
def CEL.ARM_STATE.REFUSED : Fld := ⟨0x804, 4, 4⟩
def CEL.ARM_STATE.STATE : Fld := ⟨0x804, 1, 0⟩
def CEL.ARM_CFG.W : Fld := ⟨0x808, 31, 0⟩
def CEL.ARM_CFG.WIN : Fld := ⟨0x808, 15, 0⟩
def CEL.ARM_CMD.W : Fld := ⟨0x80C, 31, 0⟩
def CEL.ARM_CMD.CNT_CLR : Fld := ⟨0x80C, 1, 1⟩
def CEL.ARM_CMD.DISARM : Fld := ⟨0x80C, 0, 0⟩
def CEL.ARM_CNT.W : Fld := ⟨0x810, 31, 0⟩
def CEL.ARM_CNT.DISARMS : Fld := ⟨0x810, 31, 16⟩
def CEL.ARM_CNT.ARMS : Fld := ⟨0x810, 15, 0⟩

/-- The register table of CEL (R409). -/
def CEL.map : List RegRow :=
  [⟨0x0, [], [⟨31, 9, .rw, 0, false, true⟩, ⟨8, 8, .rw, 0, false, false⟩, ⟨7, 1, .rw, 0, false, true⟩, ⟨0, 0, .rw, 1, true, false⟩]⟩,
   ⟨0x4, [], [⟨31, 11, .ro, 0, false, true⟩, ⟨10, 10, .sc, 0, false, false⟩, ⟨9, 9, .sc, 0, false, false⟩, ⟨8, 8, .sc, 1, false, false⟩, ⟨7, 7, .sc, 0, false, false⟩, ⟨6, 6, .sc, 0, false, false⟩, ⟨5, 5, .sc, 0, false, false⟩, ⟨4, 3, .sc, 0, false, false⟩, ⟨2, 2, .sc, 0, false, false⟩, ⟨1, 1, .sc, 0, false, false⟩, ⟨0, 0, .sc, 0, false, false⟩]⟩,
   ⟨0x8, [], [⟨31, 5, .zero, 0, false, true⟩, ⟨4, 4, .cmd, 0, false, false⟩, ⟨3, 3, .cmd, 0, false, false⟩, ⟨2, 2, .cmd, 0, false, false⟩, ⟨1, 1, .cmd, 0, false, false⟩, ⟨0, 0, .cmd, 0, false, false⟩]⟩,
   ⟨0xC, [], [⟨31, 24, .sc, 0, false, false⟩, ⟨23, 12, .ro, 0, false, true⟩, ⟨11, 8, .sc, 0, false, false⟩, ⟨7, 4, .ro, 0, false, true⟩, ⟨3, 0, .sc, 1, false, false⟩]⟩,
   ⟨0x10, [], [⟨31, 16, .cmd, 0, false, false⟩, ⟨15, 12, .zero, 0, false, true⟩, ⟨11, 8, .cmd, 0, false, false⟩, ⟨7, 2, .zero, 0, false, true⟩, ⟨1, 0, .cmd, 0, false, false⟩]⟩,
   ⟨0x14, [], [⟨31, 16, .sc, 0, false, false⟩, ⟨15, 5, .ro, 0, false, true⟩, ⟨4, 4, .sc, 0, false, false⟩, ⟨3, 3, .sc, 0, false, false⟩, ⟨2, 2, .sc, 0, false, false⟩, ⟨1, 0, .sc, 2, false, false⟩]⟩,
   ⟨0x18, [], [⟨31, 0, .sc, 0, false, false⟩]⟩,
   ⟨0x20, [], [⟨31, 27, .ro, 0, false, true⟩, ⟨26, 16, .sc, 0, false, false⟩, ⟨15, 10, .ro, 0, false, true⟩, ⟨9, 0, .sc, 0, false, false⟩]⟩,
   ⟨0x24, [], [⟨31, 0, .sc, 0, false, false⟩]⟩,
   ⟨0x28, [], [⟨31, 16, .ro, 0, false, true⟩, ⟨15, 0, .sc, 0, false, false⟩]⟩,
   ⟨0x30, [], [⟨31, 0, .sc, 0, false, false⟩]⟩,
   ⟨0x34, [], [⟨31, 0, .sc, 0, false, false⟩]⟩,
   ⟨0x40, [], [⟨31, 8, .rw, 0, false, true⟩, ⟨7, 0, .rw, 0, true, false⟩]⟩,
   ⟨0x800, [], [⟨31, 16, .zero, 0, false, true⟩, ⟨15, 0, .cmd, 0, false, false⟩]⟩,
   ⟨0x804, [], [⟨31, 20, .ro, 0, false, true⟩, ⟨19, 16, .sc, 0, false, false⟩, ⟨15, 13, .ro, 0, false, true⟩, ⟨12, 8, .sc, 0, false, false⟩, ⟨7, 5, .ro, 0, false, true⟩, ⟨4, 4, .sc, 0, false, false⟩, ⟨3, 2, .ro, 0, false, true⟩, ⟨1, 0, .sc, 0, false, false⟩]⟩,
   ⟨0x808, [], [⟨31, 16, .rw, 0, false, true⟩, ⟨15, 0, .rw, 0x3E8, true, false⟩]⟩,
   ⟨0x80C, [], [⟨31, 2, .zero, 0, false, true⟩, ⟨1, 1, .cmd, 0, false, false⟩, ⟨0, 0, .cmd, 0, false, false⟩]⟩,
   ⟨0x810, [], [⟨31, 16, .sc, 0, false, false⟩, ⟨15, 0, .sc, 0, false, false⟩]⟩]

/-! WDT: registers of file 15_cellar_power_reset_arming.md. -/

def WDT.CTRL.W : Fld := ⟨0x0, 31, 0⟩
def WDT.CTRL.LOCK : Fld := ⟨0x0, 2, 2⟩
def WDT.CTRL.DBGFRZ : Fld := ⟨0x0, 1, 1⟩
def WDT.CTRL.ENABLE : Fld := ⟨0x0, 0, 0⟩
def WDT.STATUS.W : Fld := ⟨0x4, 31, 0⟩
def WDT.STATUS.OPEN : Fld := ⟨0x4, 2, 2⟩
def WDT.STATUS.FROZEN : Fld := ⟨0x4, 1, 1⟩
def WDT.STATUS.WIGN : Fld := ⟨0x4, 0, 0⟩
def WDT.TIMEOUT.W : Fld := ⟨0x8, 31, 0⟩
def WDT.TIMEOUT.TIMEOUT : Fld := ⟨0x8, 15, 0⟩
def WDT.WINDOW.W : Fld := ⟨0xC, 31, 0⟩
def WDT.WINDOW.WINDOW : Fld := ⟨0xC, 15, 0⟩
def WDT.SERVICE.W : Fld := ⟨0x10, 31, 0⟩
def WDT.SERVICE.KEY : Fld := ⟨0x10, 31, 0⟩
def WDT.COUNT.W : Fld := ⟨0x14, 31, 0⟩
def WDT.COUNT.COUNT : Fld := ⟨0x14, 15, 0⟩

/-- The register table of WDT (R410). -/
def WDT.map : List RegRow :=
  [⟨0x0, [], [⟨31, 3, .rw, 0, false, true⟩, ⟨2, 2, .rw, 0, false, false⟩, ⟨1, 1, .rwd, 0, false, false⟩, ⟨0, 0, .rw, 0, false, false⟩]⟩,
   ⟨0x4, [], [⟨31, 3, .ro, 0, false, true⟩, ⟨2, 2, .sc, 0, false, false⟩, ⟨1, 1, .sc, 0, false, false⟩, ⟨0, 0, .sc, 0, false, false⟩]⟩,
   ⟨0x8, [], [⟨31, 16, .rw, 0, false, true⟩, ⟨15, 0, .rwd, 0, false, false⟩]⟩,
   ⟨0xC, [], [⟨31, 16, .rw, 0, false, true⟩, ⟨15, 0, .rwd, 0, false, false⟩]⟩,
   ⟨0x10, [], [⟨31, 0, .cmd, 0, false, false⟩]⟩,
   ⟨0x14, [], [⟨31, 16, .ro, 0, false, true⟩, ⟨15, 0, .sc, 0, false, false⟩]⟩]

/-! KNR: registers of file 16_knasa_ring.md. -/

def KNR.CTRL.W : Fld := ⟨0x0, 31, 0⟩
def KNR.CTRL.ABS_CYC : Fld := ⟨0x0, 23, 16⟩
def KNR.CTRL.LOSS_CYC : Fld := ⟨0x0, 15, 8⟩
def KNR.CTRL.ISO_TRIP : Fld := ⟨0x0, 2, 2⟩
def KNR.CTRL.TAKEOVER : Fld := ⟨0x0, 1, 1⟩
def KNR.CTRL.ENABLE : Fld := ⟨0x0, 0, 0⟩
def KNR.STATUS.W : Fld := ⟨0x4, 31, 0⟩
def KNR.STATUS.RX_COUNT : Fld := ⟨0x4, 19, 17⟩
def KNR.STATUS.TX_REFUSED : Fld := ⟨0x4, 16, 16⟩
def KNR.STATUS.TX_BUSY : Fld := ⟨0x4, 15, 15⟩
def KNR.STATUS.HOLDING : Fld := ⟨0x4, 14, 14⟩
def KNR.STATUS.PUB_PEND : Fld := ⟨0x4, 13, 13⟩
def KNR.STATUS.MKT_ASSERT : Fld := ⟨0x4, 12, 12⟩
def KNR.STATUS.MKT_IN : Fld := ⟨0x4, 11, 11⟩
def KNR.STATUS.ABS_TRIP : Fld := ⟨0x4, 10, 10⟩
def KNR.STATUS.LEN_MISMATCH : Fld := ⟨0x4, 9, 9⟩
def KNR.STATUS.ID_DUP : Fld := ⟨0x4, 8, 8⟩
def KNR.STATUS.ID_BAD : Fld := ⟨0x4, 7, 7⟩
def KNR.STATUS.OVERBOOK : Fld := ⟨0x4, 6, 6⟩
def KNR.STATUS.CYCLE_LOST : Fld := ⟨0x4, 5, 5⟩
def KNR.STATUS.WRAPPED : Fld := ⟨0x4, 4, 4⟩
def KNR.STATUS.MT_LOCKED : Fld := ⟨0x4, 3, 3⟩
def KNR.STATUS.MASTER : Fld := ⟨0x4, 2, 2⟩
def KNR.STATUS.MEMBER : Fld := ⟨0x4, 1, 1⟩
def KNR.STATUS.WIGN : Fld := ⟨0x4, 0, 0⟩
def KNR.CMD.W : Fld := ⟨0x8, 31, 0⟩
def KNR.CMD.CNT_CLR : Fld := ⟨0x8, 3, 3⟩
def KNR.CMD.RX_POP : Fld := ⟨0x8, 2, 2⟩
def KNR.CMD.MBX_SEND : Fld := ⟨0x8, 1, 1⟩
def KNR.CMD.PD_PUBLISH : Fld := ⟨0x8, 0, 0⟩
def KNR.IRQ_EN.W : Fld := ⟨0xC, 31, 0⟩
def KNR.IRQ_EN.SRC : Fld := ⟨0xC, 15, 0⟩
def KNR.CYCLE_CFG.W : Fld := ⟨0x10, 31, 0⟩
def KNR.CYCLE_CFG.APPLY_LAG : Fld := ⟨0x10, 17, 16⟩
def KNR.CYCLE_CFG.PERIOD : Fld := ⟨0x10, 12, 0⟩
def KNR.MBX_CFG.W : Fld := ⟨0x14, 31, 0⟩
def KNR.MBX_CFG.MBX_LEN : Fld := ⟨0x14, 24, 16⟩
def KNR.MBX_CFG.TMO : Fld := ⟨0x14, 7, 0⟩
def KNR.PD_CFG.W : Fld := ⟨0x18, 31, 0⟩
def KNR.PD_CFG.TX_LEN : Fld := ⟨0x18, 5, 0⟩
def KNR.MBX_TX_CTRL.W : Fld := ⟨0x1C, 31, 0⟩
def KNR.MBX_TX_CTRL.LEN : Fld := ⟨0x1C, 15, 8⟩
def KNR.MBX_TX_CTRL.DST : Fld := ⟨0x1C, 7, 0⟩
def KNR.MT_LO.W : Fld := ⟨0x20, 31, 0⟩
def KNR.MT_LO.MT : Fld := ⟨0x20, 31, 0⟩
def KNR.MT_HI.W : Fld := ⟨0x24, 31, 0⟩
def KNR.MT_HI.MT : Fld := ⟨0x24, 31, 0⟩
def KNR.MT_OFFSET.W : Fld := ⟨0x28, 31, 0⟩
def KNR.MT_OFFSET.X : Fld := ⟨0x28, 31, 0⟩
def KNR.CYC_NUM.W : Fld := ⟨0x2C, 31, 0⟩
def KNR.CYC_NUM.CYCLE : Fld := ⟨0x2C, 31, 0⟩
def KNR.RX_CYC.W : Fld := ⟨0x30, 31, 0⟩
def KNR.RX_CYC.CYCLE : Fld := ⟨0x30, 31, 0⟩
def KNR.MBX_RX_INFO.W : Fld := ⟨0x34, 31, 0⟩
def KNR.MBX_RX_INFO.SEQ : Fld := ⟨0x34, 31, 16⟩
def KNR.MBX_RX_INFO.LEN : Fld := ⟨0x34, 15, 8⟩
def KNR.MBX_RX_INFO.SRC : Fld := ⟨0x34, 6, 0⟩
def KNR.STALE_LO.W : Fld := ⟨0x38, 31, 0⟩
def KNR.STALE_LO.NODES : Fld := ⟨0x38, 31, 0⟩
def KNR.STALE_HI.W : Fld := ⟨0x3C, 31, 0⟩
def KNR.STALE_HI.NODES : Fld := ⟨0x3C, 31, 0⟩
def KNR.ABSENT_LO.W : Fld := ⟨0x40, 31, 0⟩
def KNR.ABSENT_LO.NODES : Fld := ⟨0x40, 31, 0⟩
def KNR.ABSENT_HI.W : Fld := ⟨0x44, 31, 0⟩
def KNR.ABSENT_HI.NODES : Fld := ⟨0x44, 31, 0⟩
def KNR.MBX_CNT.W : Fld := ⟨0x48, 31, 0⟩
def KNR.MBX_CNT.DROP : Fld := ⟨0x48, 31, 16⟩
def KNR.MBX_CNT.DEFER : Fld := ⟨0x48, 15, 0⟩
def KNR.LINK_CNT.W : Fld := ⟨0x4C, 31, 0⟩
def KNR.LINK_CNT.KB_DOWN : Fld := ⟨0x4C, 31, 16⟩
def KNR.LINK_CNT.KA_DOWN : Fld := ⟨0x4C, 15, 0⟩
def KNR.CRC_CNT.W : Fld := ⟨0x50, 31, 0⟩
def KNR.CRC_CNT.COUNT : Fld := ⟨0x50, 31, 0⟩
def KNR.RING_CNT.W : Fld := ⟨0x54, 31, 0⟩
def KNR.RING_CNT.MASTER_CHG : Fld := ⟨0x54, 31, 16⟩
def KNR.RING_CNT.WRAPS : Fld := ⟨0x54, 15, 0⟩
def KNR.LOOP_DLY.W : Fld := ⟨0x58, 31, 0⟩
def KNR.LOOP_DLY.DLY : Fld := ⟨0x58, 31, 0⟩
def KNR.IDS.W : Fld := ⟨0x5C, 31, 0⟩
def KNR.IDS.MASTER_ID : Fld := ⟨0x5C, 14, 8⟩
def KNR.IDS.NODE_ID : Fld := ⟨0x5C, 6, 0⟩
def KNR.ABS_ACT.W : Fld := ⟨0x60, 31, 0⟩
def KNR.ABS_ACT.ACT : Fld := ⟨0x60, 31, 0⟩
def KNR.PSTATUS.W : Fld := ⟨0x80, 31, 0⟩
def KNR.PSTATUS.NBR_ID : Fld := ⟨0x80, 15, 8⟩
def KNR.PSTATUS.CLK_SRC : Fld := ⟨0x80, 4, 4⟩
def KNR.PSTATUS.LF_RX : Fld := ⟨0x80, 3, 0⟩
def KNR.LINK_DLY.W : Fld := ⟨0x84, 31, 0⟩
def KNR.LINK_DLY.DLY : Fld := ⟨0x84, 31, 0⟩
def KNR.ASYM.W : Fld := ⟨0x88, 31, 0⟩
def KNR.ASYM.ASYM : Fld := ⟨0x88, 31, 0⟩
def KNR.PD_LEN.W : Fld := ⟨0x100, 31, 0⟩
def KNR.PD_LEN.LEN : Fld := ⟨0x100, 31, 0⟩
def KNR.PD_TX.W : Fld := ⟨0x400, 31, 0⟩
def KNR.PD_TX.DATA : Fld := ⟨0x400, 31, 0⟩
def KNR.MBX_TX.W : Fld := ⟨0x500, 31, 0⟩
def KNR.MBX_TX.DATA : Fld := ⟨0x500, 31, 0⟩
def KNR.MBX_RX.W : Fld := ⟨0x600, 31, 0⟩
def KNR.MBX_RX.DATA : Fld := ⟨0x600, 31, 0⟩
def KNR.PD_RX.W : Fld := ⟨0x4000, 31, 0⟩
def KNR.PD_RX.DATA : Fld := ⟨0x4000, 31, 0⟩

/-- The register table of KNR (R453). -/
def KNR.mapA : List RegRow :=
  [⟨0x0, [], [⟨31, 24, .rw, 0, false, true⟩, ⟨23, 16, .rwd, 2, true, false⟩, ⟨15, 8, .rwd, 3, true, false⟩, ⟨7, 3, .rw, 0, false, true⟩, ⟨2, 2, .rwd, 0, true, false⟩, ⟨1, 1, .rwd, 0, true, false⟩, ⟨0, 0, .rw, 0, true, false⟩]⟩,
   ⟨0x4, [], [⟨31, 20, .ro, 0, false, true⟩, ⟨19, 17, .sc, 0, false, false⟩, ⟨16, 16, .sc, 0, false, false⟩, ⟨15, 15, .sc, 0, false, false⟩, ⟨14, 14, .sc, 0, false, false⟩, ⟨13, 13, .sc, 0, false, false⟩, ⟨12, 12, .sc, 0, false, false⟩, ⟨11, 11, .sc, 0, false, false⟩, ⟨10, 10, .sc, 0, false, false⟩, ⟨9, 9, .sc, 0, false, false⟩, ⟨8, 8, .sc, 0, false, false⟩, ⟨7, 7, .sc, 0, false, false⟩, ⟨6, 6, .sc, 0, false, false⟩, ⟨5, 5, .sc, 0, false, false⟩, ⟨4, 4, .sc, 0, false, false⟩, ⟨3, 3, .sc, 0, false, false⟩, ⟨2, 2, .sc, 0, false, false⟩, ⟨1, 1, .sc, 0, false, false⟩, ⟨0, 0, .sc, 0, false, false⟩]⟩,
   ⟨0x8, [], [⟨31, 4, .zero, 0, false, true⟩, ⟨3, 3, .cmd, 0, false, false⟩, ⟨2, 2, .cmd, 0, false, false⟩, ⟨1, 1, .cmd, 0, false, false⟩, ⟨0, 0, .cmd, 0, false, false⟩]⟩,
   ⟨0xC, [], [⟨31, 16, .rw, 0, false, true⟩, ⟨15, 0, .rw, 0, true, false⟩]⟩,
   ⟨0x10, [], [⟨31, 18, .rw, 0, false, true⟩, ⟨17, 16, .rwd, 0, true, false⟩, ⟨15, 13, .rw, 0, false, true⟩, ⟨12, 0, .rwd, 0x50, true, false⟩]⟩,
   ⟨0x14, [], [⟨31, 25, .rw, 0, false, true⟩, ⟨24, 16, .rwd, 0x20, true, false⟩, ⟨15, 8, .rw, 0, false, true⟩, ⟨7, 0, .rwd, 3, true, false⟩]⟩,
   ⟨0x18, [], [⟨31, 6, .rw, 0, false, true⟩, ⟨5, 0, .rwd, 0, true, false⟩]⟩,
   ⟨0x1C, [], [⟨31, 16, .rw, 0, false, true⟩, ⟨15, 8, .rw, 0, false, false⟩, ⟨7, 0, .rw, 0, false, false⟩]⟩,
   ⟨0x20, [], [⟨31, 0, .rwd, 0, false, false⟩]⟩,
   ⟨0x24, [], [⟨31, 0, .rwd, 0, false, false⟩]⟩,
   ⟨0x28, [], [⟨31, 0, .sc, 0, false, false⟩]⟩,
   ⟨0x2C, [], [⟨31, 0, .sc, 0, false, false⟩]⟩,
   ⟨0x30, [], [⟨31, 0, .sc, 0, false, false⟩]⟩,
   ⟨0x34, [], [⟨31, 16, .sc, 0, false, false⟩, ⟨15, 8, .sc, 0, false, false⟩, ⟨7, 7, .ro, 0, false, true⟩, ⟨6, 0, .sc, 0, false, false⟩]⟩,
   ⟨0x38, [], [⟨31, 0, .sc, 0, false, false⟩]⟩,
   ⟨0x3C, [], [⟨31, 0, .sc, 0, false, false⟩]⟩,
   ⟨0x40, [], [⟨31, 0, .sc, 0, false, false⟩]⟩,
   ⟨0x44, [], [⟨31, 0, .sc, 0, false, false⟩]⟩,
   ⟨0x48, [], [⟨31, 16, .sc, 0, false, false⟩, ⟨15, 0, .sc, 0, false, false⟩]⟩,
   ⟨0x4C, [], [⟨31, 16, .sc, 0, false, false⟩, ⟨15, 0, .sc, 0, false, false⟩]⟩]

/-- The register table of KNR (R453). -/
def KNR.mapB : List RegRow :=
  [⟨0x50, [], [⟨31, 0, .sc, 0, false, false⟩]⟩,
   ⟨0x54, [], [⟨31, 16, .sc, 0, false, false⟩, ⟨15, 0, .sc, 0, false, false⟩]⟩,
   ⟨0x58, [], [⟨31, 0, .sc, 0xFFFFFFFF, false, false⟩]⟩,
   ⟨0x5C, [], [⟨31, 15, .ro, 0, false, true⟩, ⟨14, 8, .sc, 0, false, false⟩, ⟨7, 7, .ro, 0, false, true⟩, ⟨6, 0, .sc, 0, false, false⟩]⟩,
   ⟨0x60, [(4, 0x4)], [⟨31, 0, .rwd, 0, true, false⟩]⟩,
   ⟨0x80, [(2, 0x10)], [⟨31, 16, .ro, 0, false, true⟩, ⟨15, 8, .sc, 0, false, false⟩, ⟨7, 5, .ro, 0, false, true⟩, ⟨4, 4, .sc, 0, false, false⟩, ⟨3, 0, .sc, 0, false, false⟩]⟩,
   ⟨0x84, [(2, 0x10)], [⟨31, 0, .sc, 0, false, false⟩]⟩,
   ⟨0x88, [(2, 0x10)], [⟨31, 0, .rw, 0, true, false⟩]⟩,
   ⟨0x100, [(16, 0x4)], [⟨31, 0, .rw, 0, true, false⟩]⟩,
   ⟨0x400, [(64, 0x4)], [⟨31, 0, .rw, 0, false, false⟩]⟩,
   ⟨0x500, [(62, 0x4)], [⟨31, 0, .rw, 0, false, false⟩]⟩,
   ⟨0x600, [(62, 0x4)], [⟨31, 0, .sc, 0, false, false⟩]⟩,
   ⟨0x4000, [(64, 0x100), (64, 0x4)], [⟨31, 0, .sc, 0, false, false⟩]⟩]

def KNR.map : List RegRow := KNR.mapA ++ KNR.mapB

/-! ODE: registers of file 17_object_dictionary.md. -/

def ODE.CTRL.W : Fld := ⟨0x0, 31, 0⟩
def ODE.CTRL.ARM_REMOTE : Fld := ⟨0x0, 4, 4⟩
def ODE.CTRL.CAN_SEL : Fld := ⟨0x0, 3, 3⟩
def ODE.CTRL.CAN_EN : Fld := ⟨0x0, 2, 2⟩
def ODE.CTRL.RING_EN : Fld := ⟨0x0, 1, 1⟩
def ODE.CTRL.ENABLE : Fld := ⟨0x0, 0, 0⟩
def ODE.STATUS.W : Fld := ⟨0x4, 31, 0⟩
def ODE.STATUS.RING_QUEUE : Fld := ⟨0x4, 10, 8⟩
def ODE.STATUS.CAN_BUSY : Fld := ⟨0x4, 4, 4⟩
def ODE.STATUS.RING_BUSY : Fld := ⟨0x4, 3, 3⟩
def ODE.STATUS.BASELINE : Fld := ⟨0x4, 2, 2⟩
def ODE.STATUS.NEG_DONE : Fld := ⟨0x4, 1, 1⟩
def ODE.STATUS.WIGN : Fld := ⟨0x4, 0, 0⟩
def ODE.CAN_CFG.W : Fld := ⟨0x8, 31, 0⟩
def ODE.CAN_CFG.NODE : Fld := ⟨0x8, 6, 0⟩
def ODE.CMD.W : Fld := ⟨0xC, 31, 0⟩
def ODE.CMD.CNT_CLR : Fld := ⟨0xC, 0, 0⟩
def ODE.FEAT_OFFER_LO.W : Fld := ⟨0x10, 31, 0⟩
def ODE.FEAT_OFFER_LO.OFFER : Fld := ⟨0x10, 31, 0⟩
def ODE.FEAT_OFFER_HI.W : Fld := ⟨0x14, 31, 0⟩
def ODE.FEAT_OFFER_HI.OFFER : Fld := ⟨0x14, 31, 0⟩
def ODE.FEAT_ACC_LO.W : Fld := ⟨0x18, 31, 0⟩
def ODE.FEAT_ACC_LO.ACC : Fld := ⟨0x18, 31, 0⟩
def ODE.FEAT_ACC_HI.W : Fld := ⟨0x1C, 31, 0⟩
def ODE.FEAT_ACC_HI.ACC : Fld := ⟨0x1C, 31, 0⟩
def ODE.CNT.W : Fld := ⟨0x20, 31, 0⟩
def ODE.CNT.ABORTS : Fld := ⟨0x20, 31, 16⟩
def ODE.CNT.TXN : Fld := ⟨0x20, 15, 0⟩
def ODE.LAST_ABORT.W : Fld := ⟨0x24, 31, 0⟩
def ODE.LAST_ABORT.CODE : Fld := ⟨0x24, 31, 0⟩
def ODE.LAST_OBJ.W : Fld := ⟨0x28, 31, 0⟩
def ODE.LAST_OBJ.INDEX : Fld := ⟨0x28, 31, 16⟩
def ODE.LAST_OBJ.SUB : Fld := ⟨0x28, 15, 8⟩
def ODE.LAST_OBJ.INITIATOR : Fld := ⟨0x28, 3, 0⟩
def ODE.AXIS_CFG.W : Fld := ⟨0x40, 31, 0⟩
def ODE.AXIS_CFG.QEP : Fld := ⟨0x40, 21, 20⟩
def ODE.AXIS_CFG.ACT_WORD : Fld := ⟨0x40, 19, 16⟩
def ODE.AXIS_CFG.TQ_WORD : Fld := ⟨0x40, 15, 12⟩
def ODE.AXIS_CFG.LEGS : Fld := ⟨0x40, 11, 8⟩
def ODE.AXIS_CFG.STALL : Fld := ⟨0x40, 7, 4⟩
def ODE.AXIS_CFG.EN : Fld := ⟨0x40, 0, 0⟩

/-- The register table of ODE (R476). -/
def ODE.map : List RegRow :=
  [⟨0x0, [], [⟨31, 5, .rw, 0, false, true⟩, ⟨4, 4, .rwd, 0, true, false⟩, ⟨3, 3, .rwd, 0, true, false⟩, ⟨2, 2, .rwd, 0, true, false⟩, ⟨1, 1, .rwd, 1, true, false⟩, ⟨0, 0, .rw, 0, true, false⟩]⟩,
   ⟨0x4, [], [⟨31, 11, .ro, 0, false, true⟩, ⟨10, 8, .sc, 0, false, false⟩, ⟨7, 5, .ro, 0, false, true⟩, ⟨4, 4, .sc, 0, false, false⟩, ⟨3, 3, .sc, 0, false, false⟩, ⟨2, 2, .sc, 0, false, false⟩, ⟨1, 1, .sc, 0, false, false⟩, ⟨0, 0, .sc, 0, false, false⟩]⟩,
   ⟨0x8, [], [⟨31, 7, .rw, 0, false, true⟩, ⟨6, 0, .rwd, 0, true, false⟩]⟩,
   ⟨0xC, [], [⟨31, 1, .zero, 0, false, true⟩, ⟨0, 0, .cmd, 0, false, false⟩]⟩,
   ⟨0x10, [], [⟨31, 0, .ro, 0x7F, false, false⟩]⟩,
   ⟨0x14, [], [⟨31, 0, .ro, 0, false, false⟩]⟩,
   ⟨0x18, [], [⟨31, 0, .sc, 0, false, false⟩]⟩,
   ⟨0x1C, [], [⟨31, 0, .sc, 0, false, false⟩]⟩,
   ⟨0x20, [], [⟨31, 16, .sc, 0, false, false⟩, ⟨15, 0, .sc, 0, false, false⟩]⟩,
   ⟨0x24, [], [⟨31, 0, .sc, 0, false, false⟩]⟩,
   ⟨0x28, [], [⟨31, 16, .sc, 0, false, false⟩, ⟨15, 8, .sc, 0, false, false⟩, ⟨7, 4, .ro, 0, false, true⟩, ⟨3, 0, .sc, 0, false, false⟩]⟩,
   ⟨0x40, [(8, 0x4)], [⟨31, 22, .rw, 0, false, true⟩, ⟨21, 20, .rwd, 0, true, false⟩, ⟨19, 16, .rwd, 0, true, false⟩, ⟨15, 12, .rwd, 0, true, false⟩, ⟨11, 8, .rwd, 0, true, false⟩, ⟨7, 4, .rwd, 0, true, false⟩, ⟨3, 1, .rw, 0, false, true⟩, ⟨0, 0, .rwd, 0, true, false⟩]⟩]

/-! ATC: registers of file 18_attic_recorder.md. -/

def ATC.CTRL.W : Fld := ⟨0x0, 31, 0⟩
def ATC.CTRL.NSID : Fld := ⟨0x0, 15, 8⟩
def ATC.CTRL.MKT_OUT : Fld := ⟨0x0, 4, 4⟩
def ATC.CTRL.MKT_ACCEPT : Fld := ⟨0x0, 3, 3⟩
def ATC.CTRL.WIN_EN : Fld := ⟨0x0, 2, 2⟩
def ATC.CTRL.STREAM_EN : Fld := ⟨0x0, 1, 1⟩
def ATC.CTRL.ENABLE : Fld := ⟨0x0, 0, 0⟩
def ATC.STATUS.W : Fld := ⟨0x4, 31, 0⟩
def ATC.STATUS.CMD_REFUSED : Fld := ⟨0x4, 10, 10⟩
def ATC.STATUS.RB_BUSY : Fld := ⟨0x4, 9, 9⟩
def ATC.STATUS.WEAR : Fld := ⟨0x4, 8, 8⟩
def ATC.STATUS.WIN_OPEN : Fld := ⟨0x4, 7, 7⟩
def ATC.STATUS.WRAPPED : Fld := ⟨0x4, 6, 6⟩
def ATC.STATUS.DROPPING : Fld := ⟨0x4, 5, 5⟩
def ATC.STATUS.REG_BAD : Fld := ⟨0x4, 4, 4⟩
def ATC.STATUS.NO_REGION : Fld := ⟨0x4, 3, 3⟩
def ATC.STATUS.DRV_FAIL : Fld := ⟨0x4, 2, 2⟩
def ATC.STATUS.READY : Fld := ⟨0x4, 1, 1⟩
def ATC.STATUS.WIGN : Fld := ⟨0x4, 0, 0⟩
def ATC.CMD.W : Fld := ⟨0x8, 31, 0⟩
def ATC.CMD.CNT_CLR : Fld := ⟨0x8, 4, 4⟩
def ATC.CMD.FORMAT : Fld := ⟨0x8, 3, 3⟩
def ATC.CMD.CKPT : Fld := ⟨0x8, 2, 2⟩
def ATC.CMD.READ : Fld := ⟨0x8, 1, 1⟩
def ATC.CMD.TRIG : Fld := ⟨0x8, 0, 0⟩
def ATC.IRQ_EN.W : Fld := ⟨0xC, 31, 0⟩
def ATC.IRQ_EN.SRC : Fld := ⟨0xC, 7, 0⟩
def ATC.REG_START_LO.W : Fld := ⟨0x10, 31, 0⟩
def ATC.REG_START_LO.LBA : Fld := ⟨0x10, 31, 0⟩
def ATC.REG_START_HI.W : Fld := ⟨0x14, 31, 0⟩
def ATC.REG_START_HI.LBA : Fld := ⟨0x14, 31, 0⟩
def ATC.REG_LEN.W : Fld := ⟨0x18, 31, 0⟩
def ATC.REG_LEN.LEN : Fld := ⟨0x18, 28, 0⟩
def ATC.DEC.W : Fld := ⟨0x1C, 31, 0⟩
def ATC.DEC.DEC : Fld := ⟨0x1C, 15, 0⟩
def ATC.SEL_CNV.W : Fld := ⟨0x20, 31, 0⟩
def ATC.SEL_CNV.WINDOW : Fld := ⟨0x20, 27, 16⟩
def ATC.SEL_CNV.STREAM : Fld := ⟨0x20, 11, 0⟩
def ATC.SEL_CMP.W : Fld := ⟨0x24, 31, 0⟩
def ATC.SEL_CMP.CMP : Fld := ⟨0x24, 23, 0⟩
def ATC.SEL_LEG_LO.W : Fld := ⟨0x28, 31, 0⟩
def ATC.SEL_LEG_LO.LEGS : Fld := ⟨0x28, 31, 0⟩
def ATC.SEL_LEG_HI.W : Fld := ⟨0x2C, 31, 0⟩
def ATC.SEL_LEG_HI.LEGS : Fld := ⟨0x2C, 31, 0⟩
def ATC.WIN_PRE.W : Fld := ⟨0x30, 31, 0⟩
def ATC.WIN_PRE.PRE : Fld := ⟨0x30, 15, 0⟩
def ATC.WIN_POST.W : Fld := ⟨0x34, 31, 0⟩
def ATC.WIN_POST.POST : Fld := ⟨0x34, 31, 0⟩
def ATC.EVT_BLK.W : Fld := ⟨0x38, 31, 0⟩
def ATC.EVT_BLK.SLOTS : Fld := ⟨0x38, 10, 0⟩
def ATC.TRIG_CFG.W : Fld := ⟨0x3C, 31, 0⟩
def ATC.TRIG_CFG.MKT_IN : Fld := ⟨0x3C, 16, 16⟩
def ATC.TRIG_CFG.GRP : Fld := ⟨0x3C, 15, 0⟩
def ATC.TIMING.W : Fld := ⟨0x40, 31, 0⟩
def ATC.TIMING.SMART_S : Fld := ⟨0x40, 31, 16⟩
def ATC.TIMING.CKPT_MS : Fld := ⟨0x40, 15, 0⟩
def ATC.WEAR_PCT.W : Fld := ⟨0x44, 31, 0⟩
def ATC.WEAR_PCT.PCT : Fld := ⟨0x44, 7, 0⟩
def ATC.SEQ_LO.W : Fld := ⟨0x50, 31, 0⟩
def ATC.SEQ_LO.SEQ : Fld := ⟨0x50, 31, 0⟩
def ATC.SEQ_HI.W : Fld := ⟨0x54, 31, 0⟩
def ATC.SEQ_HI.SEQ : Fld := ⟨0x54, 31, 0⟩
def ATC.WPTR.W : Fld := ⟨0x58, 31, 0⟩
def ATC.WPTR.BLOCK : Fld := ⟨0x58, 31, 0⟩
def ATC.OLDEST.W : Fld := ⟨0x5C, 31, 0⟩
def ATC.OLDEST.BLOCK : Fld := ⟨0x5C, 31, 0⟩
def ATC.TRIG_MT_LO.W : Fld := ⟨0x60, 31, 0⟩
def ATC.TRIG_MT_LO.T : Fld := ⟨0x60, 31, 0⟩
def ATC.TRIG_MT_HI.W : Fld := ⟨0x64, 31, 0⟩
def ATC.TRIG_MT_HI.T : Fld := ⟨0x64, 31, 0⟩
def ATC.TRIG_INFO.W : Fld := ⟨0x68, 31, 0⟩
def ATC.TRIG_INFO.ARG : Fld := ⟨0x68, 15, 8⟩
def ATC.TRIG_INFO.SRC : Fld := ⟨0x68, 7, 0⟩
def ATC.EVENT.W : Fld := ⟨0x6C, 31, 0⟩
def ATC.EVENT.NUM : Fld := ⟨0x6C, 31, 0⟩
def ATC.CNT.W : Fld := ⟨0x70, 31, 0⟩
def ATC.CNT.SHORT : Fld := ⟨0x70, 31, 16⟩
def ATC.CNT.MERGED : Fld := ⟨0x70, 15, 0⟩
def ATC.DROP.W : Fld := ⟨0x74, 31, 0⟩
def ATC.DROP.ITEMS : Fld := ⟨0x74, 31, 0⟩
def ATC.DRV_ERR.W : Fld := ⟨0x78, 31, 0⟩
def ATC.DRV_ERR.STEP : Fld := ⟨0x78, 27, 24⟩
def ATC.DRV_ERR.OPC : Fld := ⟨0x78, 23, 16⟩
def ATC.DRV_ERR.STAT : Fld := ⟨0x78, 15, 0⟩
def ATC.SMART.W : Fld := ⟨0x80, 31, 0⟩
def ATC.SMART.TEMP : Fld := ⟨0x80, 31, 16⟩
def ATC.SMART.CRIT : Fld := ⟨0x80, 15, 8⟩
def ATC.SMART.PCT_USED : Fld := ⟨0x80, 7, 0⟩
def ATC.MEDIA_ERR.W : Fld := ⟨0x84, 31, 0⟩
def ATC.MEDIA_ERR.COUNT : Fld := ⟨0x84, 31, 0⟩
def ATC.LINK.W : Fld := ⟨0x88, 31, 0⟩
def ATC.LINK.WIDTH : Fld := ⟨0x88, 7, 4⟩
def ATC.LINK.SPEED : Fld := ⟨0x88, 3, 0⟩
def ATC.MARK_VAL.W : Fld := ⟨0x90, 31, 0⟩
def ATC.MARK_VAL.VALUE : Fld := ⟨0x90, 31, 0⟩
def ATC.MARK_TAG.W : Fld := ⟨0x94, 31, 0⟩
def ATC.MARK_TAG.TAG : Fld := ⟨0x94, 7, 0⟩
def ATC.RB_LBA.W : Fld := ⟨0xA0, 31, 0⟩
def ATC.RB_LBA.BLOCK : Fld := ⟨0xA0, 31, 0⟩
def ATC.RB_COUNT.W : Fld := ⟨0xA4, 31, 0⟩
def ATC.RB_COUNT.COUNT : Fld := ⟨0xA4, 3, 0⟩
def ATC.RB_BASE.W : Fld := ⟨0xA8, 31, 0⟩
def ATC.RB_BASE.BLOCK : Fld := ⟨0xA8, 31, 0⟩
def ATC.RB_STATUS.W : Fld := ⟨0xAC, 31, 0⟩
def ATC.RB_STATUS.STAT : Fld := ⟨0xAC, 31, 16⟩
def ATC.RB_STATUS.RESULT : Fld := ⟨0xAC, 1, 0⟩
def ATC.RB_BUF.W : Fld := ⟨0x8000, 31, 0⟩
def ATC.RB_BUF.DATA : Fld := ⟨0x8000, 31, 0⟩

/-- The register table of ATC (R499). -/
def ATC.mapA : List RegRow :=
  [⟨0x0, [], [⟨31, 16, .rw, 0, false, true⟩, ⟨15, 8, .rwd, 1, true, false⟩, ⟨7, 5, .rw, 0, false, true⟩, ⟨4, 4, .rwd, 0, true, false⟩, ⟨3, 3, .rwd, 0, true, false⟩, ⟨2, 2, .rwd, 0, true, false⟩, ⟨1, 1, .rwd, 0, true, false⟩, ⟨0, 0, .rw, 0, true, false⟩]⟩,
   ⟨0x4, [], [⟨31, 11, .ro, 0, false, true⟩, ⟨10, 10, .sc, 0, false, false⟩, ⟨9, 9, .sc, 0, false, false⟩, ⟨8, 8, .sc, 0, false, false⟩, ⟨7, 7, .sc, 0, false, false⟩, ⟨6, 6, .sc, 0, false, false⟩, ⟨5, 5, .sc, 0, false, false⟩, ⟨4, 4, .sc, 0, false, false⟩, ⟨3, 3, .sc, 0, false, false⟩, ⟨2, 2, .sc, 0, false, false⟩, ⟨1, 1, .sc, 0, false, false⟩, ⟨0, 0, .sc, 0, false, false⟩]⟩,
   ⟨0x8, [], [⟨31, 5, .zero, 0, false, true⟩, ⟨4, 4, .cmd, 0, false, false⟩, ⟨3, 3, .cmd, 0, false, false⟩, ⟨2, 2, .cmd, 0, false, false⟩, ⟨1, 1, .cmd, 0, false, false⟩, ⟨0, 0, .cmd, 0, false, false⟩]⟩,
   ⟨0xC, [], [⟨31, 8, .rw, 0, false, true⟩, ⟨7, 0, .rw, 0, true, false⟩]⟩,
   ⟨0x10, [], [⟨31, 0, .rwd, 0, true, false⟩]⟩,
   ⟨0x14, [], [⟨31, 0, .rwd, 0, true, false⟩]⟩,
   ⟨0x18, [], [⟨31, 29, .rw, 0, false, true⟩, ⟨28, 0, .rwd, 0x10000000, true, false⟩]⟩,
   ⟨0x1C, [], [⟨31, 16, .rw, 0, false, true⟩, ⟨15, 0, .rwd, 0x40, true, false⟩]⟩,
   ⟨0x20, [], [⟨31, 28, .rw, 0, false, true⟩, ⟨27, 16, .rwd, 0, true, false⟩, ⟨15, 12, .rw, 0, false, true⟩, ⟨11, 0, .rwd, 0, true, false⟩]⟩,
   ⟨0x24, [], [⟨31, 24, .rw, 0, false, true⟩, ⟨23, 0, .rwd, 0, true, false⟩]⟩,
   ⟨0x28, [], [⟨31, 0, .rwd, 0, true, false⟩]⟩,
   ⟨0x2C, [], [⟨31, 0, .rwd, 0, true, false⟩]⟩,
   ⟨0x30, [], [⟨31, 16, .rw, 0, false, true⟩, ⟨15, 0, .rwd, 0x2710, true, false⟩]⟩,
   ⟨0x34, [], [⟨31, 0, .rwd, 0x4E20, true, false⟩]⟩,
   ⟨0x38, [], [⟨31, 11, .rw, 0, false, true⟩, ⟨10, 0, .rwd, 0x7C0, true, false⟩]⟩,
   ⟨0x3C, [], [⟨31, 17, .rw, 0, false, true⟩, ⟨16, 16, .rwd, 0, true, false⟩, ⟨15, 0, .rwd, 0, true, false⟩]⟩,
   ⟨0x40, [], [⟨31, 16, .rwd, 0x3C, true, false⟩, ⟨15, 0, .rwd, 0x3E8, true, false⟩]⟩,
   ⟨0x44, [], [⟨31, 8, .rw, 0, false, true⟩, ⟨7, 0, .rw, 0x5A, true, false⟩]⟩,
   ⟨0x50, [], [⟨31, 0, .sc, 0, false, false⟩]⟩,
   ⟨0x54, [], [⟨31, 0, .sc, 0, false, false⟩]⟩]

/-- The register table of ATC (R499). -/
def ATC.mapB : List RegRow :=
  [⟨0x58, [], [⟨31, 0, .sc, 0, false, false⟩]⟩,
   ⟨0x5C, [], [⟨31, 0, .sc, 0, false, false⟩]⟩,
   ⟨0x60, [], [⟨31, 0, .sc, 0, false, false⟩]⟩,
   ⟨0x64, [], [⟨31, 0, .sc, 0, false, false⟩]⟩,
   ⟨0x68, [], [⟨31, 16, .ro, 0, false, true⟩, ⟨15, 8, .sc, 0, false, false⟩, ⟨7, 0, .sc, 0, false, false⟩]⟩,
   ⟨0x6C, [], [⟨31, 0, .sc, 0, false, false⟩]⟩,
   ⟨0x70, [], [⟨31, 16, .sc, 0, false, false⟩, ⟨15, 0, .sc, 0, false, false⟩]⟩,
   ⟨0x74, [], [⟨31, 0, .sc, 0, false, false⟩]⟩,
   ⟨0x78, [], [⟨31, 28, .ro, 0, false, true⟩, ⟨27, 24, .sc, 0, false, false⟩, ⟨23, 16, .sc, 0, false, false⟩, ⟨15, 0, .sc, 0, false, false⟩]⟩,
   ⟨0x80, [], [⟨31, 16, .sc, 0, false, false⟩, ⟨15, 8, .sc, 0, false, false⟩, ⟨7, 0, .sc, 0, false, false⟩]⟩,
   ⟨0x84, [], [⟨31, 0, .sc, 0, false, false⟩]⟩,
   ⟨0x88, [], [⟨31, 8, .ro, 0, false, true⟩, ⟨7, 4, .sc, 0, false, false⟩, ⟨3, 0, .sc, 0, false, false⟩]⟩,
   ⟨0x90, [], [⟨31, 0, .rw, 0, false, false⟩]⟩,
   ⟨0x94, [], [⟨31, 8, .ro, 0, false, true⟩, ⟨7, 0, .cmd, 0, false, false⟩]⟩,
   ⟨0xA0, [], [⟨31, 0, .rw, 0, false, false⟩]⟩,
   ⟨0xA4, [], [⟨31, 4, .rw, 0, false, true⟩, ⟨3, 0, .rw, 1, false, false⟩]⟩,
   ⟨0xA8, [], [⟨31, 0, .rw, 0, false, false⟩]⟩,
   ⟨0xAC, [], [⟨31, 16, .sc, 0, false, false⟩, ⟨15, 2, .ro, 0, false, true⟩, ⟨1, 0, .sc, 0, false, false⟩]⟩,
   ⟨0x8000, [(8192, 0x4)], [⟨31, 0, .sc, 0, false, false⟩]⟩]

def ATC.map : List RegRow := ATC.mapA ++ ATC.mapB

/-! DBG: registers of file 19_debug_and_monitor.md. -/

def DBG.ID.W : Fld := ⟨0x0, 31, 0⟩
def DBG.ID.IDCODE : Fld := ⟨0x0, 31, 0⟩
def DBG.STATUS.W : Fld := ⟨0x4, 31, 0⟩
def DBG.STATUS.HALTED : Fld := ⟨0x4, 11, 8⟩
def DBG.STATUS.BSCAN_LIVE : Fld := ⟨0x4, 1, 1⟩
def DBG.STATUS.WIGN : Fld := ⟨0x4, 0, 0⟩
def DBG.CMD.W : Fld := ⟨0x8, 31, 0⟩
def DBG.CMD.TRACE_CLR : Fld := ⟨0x8, 3, 3⟩
def DBG.CMD.MCMD_GO : Fld := ⟨0x8, 2, 2⟩
def DBG.CMD.UNLOCK : Fld := ⟨0x8, 1, 1⟩
def DBG.CMD.DBG_RESET : Fld := ⟨0x8, 0, 0⟩
def DBG.LOCK.W : Fld := ⟨0xC, 31, 0⟩
def DBG.LOCK.FAILS : Fld := ⟨0xC, 15, 8⟩
def DBG.LOCK.LOCKOUT : Fld := ⟨0xC, 3, 3⟩
def DBG.LOCK.UNLOCKED : Fld := ⟨0xC, 2, 2⟩
def DBG.LOCK.STATE : Fld := ⟨0xC, 1, 0⟩
def DBG.SAP_ADDR.W : Fld := ⟨0x10, 31, 0⟩
def DBG.SAP_ADDR.ADDR : Fld := ⟨0x10, 31, 0⟩
def DBG.SAP_DATA.W : Fld := ⟨0x14, 31, 0⟩
def DBG.SAP_DATA.DATA : Fld := ⟨0x14, 31, 0⟩
def DBG.SAP_CFG.W : Fld := ⟨0x18, 31, 0⟩
def DBG.SAP_CFG.SIZE : Fld := ⟨0x18, 3, 2⟩
def DBG.SAP_CFG.AUTOINC : Fld := ⟨0x18, 1, 1⟩
def DBG.SAP_CFG.PEEK : Fld := ⟨0x18, 0, 0⟩
def DBG.SAP_CMD.W : Fld := ⟨0x1C, 31, 0⟩
def DBG.SAP_CMD.WRITE : Fld := ⟨0x1C, 1, 1⟩
def DBG.SAP_CMD.READ : Fld := ⟨0x1C, 0, 0⟩
def DBG.SAP_STATUS.W : Fld := ⟨0x20, 31, 0⟩
def DBG.SAP_STATUS.KIND : Fld := ⟨0x20, 7, 4⟩
def DBG.SAP_STATUS.REFUSED : Fld := ⟨0x20, 2, 2⟩
def DBG.SAP_STATUS.ERR : Fld := ⟨0x20, 1, 1⟩
def DBG.SAP_STATUS.BUSY : Fld := ⟨0x20, 0, 0⟩
def DBG.MCMD_CTRL.W : Fld := ⟨0x30, 31, 0⟩
def DBG.MCMD_CTRL.LEN : Fld := ⟨0x30, 15, 8⟩
def DBG.MCMD_CTRL.DST : Fld := ⟨0x30, 7, 0⟩
def DBG.MCMD_STATUS.W : Fld := ⟨0x34, 31, 0⟩
def DBG.MCMD_STATUS.TIMEOUT : Fld := ⟨0x34, 2, 2⟩
def DBG.MCMD_STATUS.DONE : Fld := ⟨0x34, 1, 1⟩
def DBG.MCMD_STATUS.BUSY : Fld := ⟨0x34, 0, 0⟩
def DBG.TRACE_CFG.W : Fld := ⟨0x40, 31, 0⟩
def DBG.TRACE_CFG.EN : Fld := ⟨0x40, 7, 7⟩
def DBG.TRACE_CFG.WATCH : Fld := ⟨0x40, 6, 6⟩
def DBG.TRACE_CFG.ENTRY : Fld := ⟨0x40, 5, 5⟩
def DBG.TRACE_CFG.BRANCH : Fld := ⟨0x40, 4, 4⟩
def DBG.TRACE_CFG.CORES : Fld := ⟨0x40, 3, 0⟩
def DBG.TRACE_LO.W : Fld := ⟨0x44, 31, 0⟩
def DBG.TRACE_LO.ADDR : Fld := ⟨0x44, 23, 0⟩
def DBG.TRACE_HI.W : Fld := ⟨0x48, 31, 0⟩
def DBG.TRACE_HI.ADDR : Fld := ⟨0x48, 23, 0⟩
def DBG.TRACE_LOST.W : Fld := ⟨0x4C, 31, 0⟩
def DBG.TRACE_LOST.COUNT : Fld := ⟨0x4C, 31, 0⟩
def DBG.UNLOCK_KEY.W : Fld := ⟨0x60, 31, 0⟩
def DBG.UNLOCK_KEY.KEY : Fld := ⟨0x60, 31, 0⟩
def DBG.C_CFG.W : Fld := ⟨0x100, 31, 0⟩
def DBG.C_CFG.STEP_INT : Fld := ⟨0x100, 4, 4⟩
def DBG.C_CFG.MON_THRESH : Fld := ⟨0x100, 2, 0⟩
def DBG.C_CMD.W : Fld := ⟨0x104, 31, 0⟩
def DBG.C_CMD.STEP : Fld := ⟨0x104, 2, 2⟩
def DBG.C_CMD.RESUME : Fld := ⟨0x104, 1, 1⟩
def DBG.C_CMD.HALT : Fld := ⟨0x104, 0, 0⟩
def DBG.C_STATUS.W : Fld := ⟨0x108, 31, 0⟩
def DBG.C_STATUS.UNIT : Fld := ⟨0x108, 9, 8⟩
def DBG.C_STATUS.REASON : Fld := ⟨0x108, 7, 4⟩
def DBG.C_STATUS.CMD_REFUSED : Fld := ⟨0x108, 3, 3⟩
def DBG.C_STATUS.STEPPING : Fld := ⟨0x108, 2, 2⟩
def DBG.C_STATUS.REQ : Fld := ⟨0x108, 1, 1⟩
def DBG.C_STATUS.HALTED : Fld := ⟨0x108, 0, 0⟩
def DBG.HIT_PC.W : Fld := ⟨0x10C, 31, 0⟩
def DBG.HIT_PC.ADDR : Fld := ⟨0x10C, 23, 0⟩
def DBG.HIT_DATA.W : Fld := ⟨0x110, 31, 0⟩
def DBG.HIT_DATA.ADDR : Fld := ⟨0x110, 31, 0⟩
def DBG.BP.W : Fld := ⟨0x120, 31, 0⟩
def DBG.BP.EN : Fld := ⟨0x120, 31, 31⟩
def DBG.BP.ADDR : Fld := ⟨0x120, 23, 0⟩
def DBG.WP_ADDR.W : Fld := ⟨0x140, 31, 0⟩
def DBG.WP_ADDR.ADDR : Fld := ⟨0x140, 31, 0⟩
def DBG.WP_MASK.W : Fld := ⟨0x144, 31, 0⟩
def DBG.WP_MASK.MASK : Fld := ⟨0x144, 31, 0⟩
def DBG.WP_CFG.W : Fld := ⟨0x148, 31, 0⟩
def DBG.WP_CFG.TRACE_ONLY : Fld := ⟨0x148, 3, 3⟩
def DBG.WP_CFG.WRITE : Fld := ⟨0x148, 2, 2⟩
def DBG.WP_CFG.READ : Fld := ⟨0x148, 1, 1⟩
def DBG.WP_CFG.EN : Fld := ⟨0x148, 0, 0⟩
def DBG.MCMD_BUF.W : Fld := ⟨0x400, 31, 0⟩
def DBG.MCMD_BUF.DATA : Fld := ⟨0x400, 31, 0⟩

/-- The register table of DBG (R523). -/
def DBG.mapA : List RegRow :=
  [⟨0x0, [], [⟨31, 0, .ro, 0x1489616F, false, false⟩]⟩,
   ⟨0x4, [], [⟨31, 12, .ro, 0, false, true⟩, ⟨11, 8, .sc, 0, false, false⟩, ⟨7, 2, .ro, 0, false, true⟩, ⟨1, 1, .sc, 0, false, false⟩, ⟨0, 0, .sc, 0, false, false⟩]⟩,
   ⟨0x8, [], [⟨31, 4, .zero, 0, false, true⟩, ⟨3, 3, .cmd, 0, false, false⟩, ⟨2, 2, .cmd, 0, false, false⟩, ⟨1, 1, .cmd, 0, false, false⟩, ⟨0, 0, .cmd, 0, false, false⟩]⟩,
   ⟨0xC, [], [⟨31, 16, .ro, 0, false, true⟩, ⟨15, 8, .sc, 0, false, false⟩, ⟨7, 4, .ro, 0, false, true⟩, ⟨3, 3, .sc, 0, false, false⟩, ⟨2, 2, .sc, 0, false, false⟩, ⟨1, 0, .sc, 0, false, false⟩]⟩,
   ⟨0x10, [], [⟨31, 0, .rw, 0, false, false⟩]⟩,
   ⟨0x14, [], [⟨31, 0, .rw, 0, false, false⟩]⟩,
   ⟨0x18, [], [⟨31, 4, .rw, 0, false, true⟩, ⟨3, 2, .rw, 0, false, false⟩, ⟨1, 1, .rw, 0, false, false⟩, ⟨0, 0, .rw, 1, false, false⟩]⟩,
   ⟨0x1C, [], [⟨31, 2, .zero, 0, false, true⟩, ⟨1, 1, .cmd, 0, false, false⟩, ⟨0, 0, .cmd, 0, false, false⟩]⟩,
   ⟨0x20, [], [⟨31, 8, .ro, 0, false, true⟩, ⟨7, 4, .sc, 0, false, false⟩, ⟨3, 3, .ro, 0, false, true⟩, ⟨2, 2, .sc, 0, false, false⟩, ⟨1, 1, .sc, 0, false, false⟩, ⟨0, 0, .sc, 0, false, false⟩]⟩,
   ⟨0x30, [], [⟨31, 16, .rw, 0, false, true⟩, ⟨15, 8, .rw, 0, false, false⟩, ⟨7, 0, .rw, 0, false, false⟩]⟩,
   ⟨0x34, [], [⟨31, 3, .ro, 0, false, true⟩, ⟨2, 2, .sc, 0, false, false⟩, ⟨1, 1, .sc, 0, false, false⟩, ⟨0, 0, .sc, 0, false, false⟩]⟩,
   ⟨0x40, [], [⟨31, 8, .rw, 0, false, true⟩, ⟨7, 7, .rw, 0, false, false⟩, ⟨6, 6, .rw, 0, false, false⟩, ⟨5, 5, .rw, 0, false, false⟩, ⟨4, 4, .rw, 0, false, false⟩, ⟨3, 0, .rw, 0, false, false⟩]⟩,
   ⟨0x44, [], [⟨31, 24, .rw, 0, false, true⟩, ⟨23, 0, .rw, 0, false, false⟩]⟩,
   ⟨0x48, [], [⟨31, 24, .rw, 0, false, true⟩, ⟨23, 0, .rw, 0xFFFFFF, false, false⟩]⟩,
   ⟨0x4C, [], [⟨31, 0, .sc, 0, false, false⟩]⟩,
   ⟨0x60, [(8, 0x4)], [⟨31, 0, .wo, 0, false, false⟩]⟩,
   ⟨0x100, [(4, 0x80)], [⟨31, 5, .rw, 0, false, true⟩, ⟨4, 4, .rw, 0, false, false⟩, ⟨3, 3, .rw, 0, false, true⟩, ⟨2, 0, .rw, 5, false, false⟩]⟩,
   ⟨0x104, [(4, 0x80)], [⟨31, 3, .zero, 0, false, true⟩, ⟨2, 2, .cmd, 0, false, false⟩, ⟨1, 1, .cmd, 0, false, false⟩, ⟨0, 0, .cmd, 0, false, false⟩]⟩,
   ⟨0x108, [(4, 0x80)], [⟨31, 10, .ro, 0, false, true⟩, ⟨9, 8, .sc, 0, false, false⟩, ⟨7, 4, .sc, 0, false, false⟩, ⟨3, 3, .sc, 0, false, false⟩, ⟨2, 2, .sc, 0, false, false⟩, ⟨1, 1, .sc, 0, false, false⟩, ⟨0, 0, .sc, 0, false, false⟩]⟩,
   ⟨0x10C, [(4, 0x80)], [⟨31, 24, .ro, 0, false, true⟩, ⟨23, 0, .sc, 0, false, false⟩]⟩]

/-- The register table of DBG (R523). -/
def DBG.mapB : List RegRow :=
  [⟨0x110, [(4, 0x80)], [⟨31, 0, .sc, 0, false, false⟩]⟩,
   ⟨0x120, [(4, 0x80), (4, 0x4)], [⟨31, 31, .rw, 0, false, false⟩, ⟨30, 24, .rw, 0, false, true⟩, ⟨23, 0, .rw, 0, false, false⟩]⟩,
   ⟨0x140, [(4, 0x80), (2, 0x10)], [⟨31, 0, .rw, 0, false, false⟩]⟩,
   ⟨0x144, [(4, 0x80), (2, 0x10)], [⟨31, 0, .rw, 0, false, false⟩]⟩,
   ⟨0x148, [(4, 0x80), (2, 0x10)], [⟨31, 4, .rw, 0, false, true⟩, ⟨3, 3, .rw, 0, false, false⟩, ⟨2, 2, .rw, 0, false, false⟩, ⟨1, 1, .rw, 0, false, false⟩, ⟨0, 0, .rw, 0, false, false⟩]⟩,
   ⟨0x400, [(64, 0x4)], [⟨31, 0, .rw, 0, false, false⟩]⟩]

def DBG.map : List RegRow := DBG.mapA ++ DBG.mapB

/-! SPI: registers of file 20_peripherals_watchdogs.md. -/

def SPI.CTRL.W : Fld := ⟨0x0, 31, 0⟩
def SPI.CTRL.DIV : Fld := ⟨0x0, 31, 24⟩
def SPI.CTRL.BITS : Fld := ⟨0x0, 20, 16⟩
def SPI.CTRL.CS : Fld := ⟨0x0, 11, 8⟩
def SPI.CTRL.MODE : Fld := ⟨0x0, 5, 4⟩
def SPI.CTRL.LSB : Fld := ⟨0x0, 3, 3⟩
def SPI.CTRL.ENABLE : Fld := ⟨0x0, 0, 0⟩
def SPI.STATUS.W : Fld := ⟨0x4, 31, 0⟩
def SPI.STATUS.TX_LVL : Fld := ⟨0x4, 20, 16⟩
def SPI.STATUS.RX_LVL : Fld := ⟨0x4, 12, 8⟩
def SPI.STATUS.BUSY : Fld := ⟨0x4, 2, 2⟩
def SPI.STATUS.WIGN : Fld := ⟨0x4, 0, 0⟩
def SPI.CMD.W : Fld := ⟨0x8, 31, 0⟩
def SPI.CMD.CNT_CLR : Fld := ⟨0x8, 0, 0⟩
def SPI.TXDATA.W : Fld := ⟨0xC, 31, 0⟩
def SPI.TXDATA.DATA : Fld := ⟨0xC, 31, 0⟩
def SPI.RXDATA.W : Fld := ⟨0x10, 31, 0⟩
def SPI.RXDATA.DATA : Fld := ⟨0x10, 31, 0⟩
def SPI.CNT.W : Fld := ⟨0x14, 31, 0⟩
def SPI.CNT.TX_REFUSED : Fld := ⟨0x14, 31, 16⟩
def SPI.CNT.RX_LOST : Fld := ⟨0x14, 15, 0⟩
def SPI.IRQ_EN.W : Fld := ⟨0x18, 31, 0⟩
def SPI.IRQ_EN.RX_NE : Fld := ⟨0x18, 1, 1⟩
def SPI.IRQ_EN.TX_EMPTY : Fld := ⟨0x18, 0, 0⟩

/-- The register table of SPI (R539). -/
def SPI.map : List RegRow :=
  [⟨0x0, [], [⟨31, 24, .rwd, 3, true, false⟩, ⟨23, 21, .rw, 0, false, true⟩, ⟨20, 16, .rwd, 7, true, false⟩, ⟨15, 12, .rw, 0, false, true⟩, ⟨11, 8, .rw, 0, true, false⟩, ⟨7, 6, .rw, 0, false, true⟩, ⟨5, 4, .rwd, 0, true, false⟩, ⟨3, 3, .rwd, 0, true, false⟩, ⟨2, 1, .rw, 0, false, true⟩, ⟨0, 0, .rw, 0, true, false⟩]⟩,
   ⟨0x4, [], [⟨31, 21, .ro, 0, false, true⟩, ⟨20, 16, .sc, 0, false, false⟩, ⟨15, 13, .ro, 0, false, true⟩, ⟨12, 8, .sc, 0, false, false⟩, ⟨7, 3, .ro, 0, false, true⟩, ⟨2, 2, .sc, 0, false, false⟩, ⟨1, 1, .ro, 0, false, true⟩, ⟨0, 0, .sc, 0, false, false⟩]⟩,
   ⟨0x8, [], [⟨31, 1, .zero, 0, false, true⟩, ⟨0, 0, .cmd, 0, false, false⟩]⟩,
   ⟨0xC, [], [⟨31, 0, .wo, 0, false, false⟩]⟩,
   ⟨0x10, [], [⟨31, 0, .rs, 0, false, false⟩]⟩,
   ⟨0x14, [], [⟨31, 16, .sc, 0, false, false⟩, ⟨15, 0, .sc, 0, false, false⟩]⟩,
   ⟨0x18, [], [⟨31, 2, .rw, 0, false, true⟩, ⟨1, 1, .rw, 0, true, false⟩, ⟨0, 0, .rw, 0, true, false⟩]⟩]

/-! UART: registers of file 20_peripherals_watchdogs.md. -/

def UART.CTRL.W : Fld := ⟨0x0, 31, 0⟩
def UART.CTRL.DIV : Fld := ⟨0x0, 31, 12⟩
def UART.CTRL.STOP2 : Fld := ⟨0x0, 7, 7⟩
def UART.CTRL.PARITY : Fld := ⟨0x0, 6, 5⟩
def UART.CTRL.BITS7 : Fld := ⟨0x0, 4, 4⟩
def UART.CTRL.RTSCTS : Fld := ⟨0x0, 2, 2⟩
def UART.CTRL.ENABLE : Fld := ⟨0x0, 0, 0⟩
def UART.RXDATA.W : Fld := ⟨0x10, 31, 0⟩
def UART.RXDATA.FERR : Fld := ⟨0x10, 9, 9⟩
def UART.RXDATA.PERR : Fld := ⟨0x10, 8, 8⟩
def UART.RXDATA.DATA : Fld := ⟨0x10, 7, 0⟩
def UART.CNT.W : Fld := ⟨0x14, 31, 0⟩
def UART.CNT.FRAME : Fld := ⟨0x14, 31, 24⟩
def UART.CNT.PARITY : Fld := ⟨0x14, 23, 16⟩
def UART.CNT.RX_LOST : Fld := ⟨0x14, 15, 8⟩
def UART.CNT.TX_REFUSED : Fld := ⟨0x14, 7, 0⟩
def UART.STATUS.W : Fld := ⟨0x4, 31, 0⟩
def UART.STATUS.TX_LVL : Fld := ⟨0x4, 20, 16⟩
def UART.STATUS.RX_LVL : Fld := ⟨0x4, 12, 8⟩
def UART.STATUS.BUSY : Fld := ⟨0x4, 2, 2⟩
def UART.STATUS.WIGN : Fld := ⟨0x4, 0, 0⟩
def UART.CMD.W : Fld := ⟨0x8, 31, 0⟩
def UART.CMD.CNT_CLR : Fld := ⟨0x8, 0, 0⟩
def UART.TXDATA.W : Fld := ⟨0xC, 31, 0⟩
def UART.TXDATA.DATA : Fld := ⟨0xC, 31, 0⟩
def UART.IRQ_EN.W : Fld := ⟨0x18, 31, 0⟩
def UART.IRQ_EN.RX_NE : Fld := ⟨0x18, 1, 1⟩
def UART.IRQ_EN.TX_EMPTY : Fld := ⟨0x18, 0, 0⟩

/-- The register table of UART (R539). -/
def UART.map : List RegRow :=
  [⟨0x0, [], [⟨31, 12, .rwd, 0xD904, true, false⟩, ⟨11, 8, .rw, 0, false, true⟩, ⟨7, 7, .rwd, 0, true, false⟩, ⟨6, 5, .rwd, 0, true, false⟩, ⟨4, 4, .rwd, 0, true, false⟩, ⟨3, 3, .rw, 0, false, true⟩, ⟨2, 2, .rwd, 0, true, false⟩, ⟨1, 1, .rw, 0, false, true⟩, ⟨0, 0, .rw, 0, true, false⟩]⟩,
   ⟨0x10, [], [⟨31, 10, .ro, 0, false, true⟩, ⟨9, 9, .rs, 0, false, false⟩, ⟨8, 8, .rs, 0, false, false⟩, ⟨7, 0, .rs, 0, false, false⟩]⟩,
   ⟨0x14, [], [⟨31, 24, .sc, 0, false, false⟩, ⟨23, 16, .sc, 0, false, false⟩, ⟨15, 8, .sc, 0, false, false⟩, ⟨7, 0, .sc, 0, false, false⟩]⟩,
   ⟨0x4, [], [⟨31, 21, .ro, 0, false, true⟩, ⟨20, 16, .sc, 0, false, false⟩, ⟨15, 13, .ro, 0, false, true⟩, ⟨12, 8, .sc, 0, false, false⟩, ⟨7, 3, .ro, 0, false, true⟩, ⟨2, 2, .sc, 0, false, false⟩, ⟨1, 1, .ro, 0, false, true⟩, ⟨0, 0, .sc, 0, false, false⟩]⟩,
   ⟨0x8, [], [⟨31, 1, .zero, 0, false, true⟩, ⟨0, 0, .cmd, 0, false, false⟩]⟩,
   ⟨0xC, [], [⟨31, 0, .wo, 0, false, false⟩]⟩,
   ⟨0x18, [], [⟨31, 2, .rw, 0, false, true⟩, ⟨1, 1, .rw, 0, true, false⟩, ⟨0, 0, .rw, 0, true, false⟩]⟩]

/-! CAN: registers of file 20_peripherals_watchdogs.md. -/

def CAN.CTRL.W : Fld := ⟨0x0, 31, 0⟩
def CAN.CTRL.LISTEN : Fld := ⟨0x0, 4, 4⟩
def CAN.CTRL.LOOP : Fld := ⟨0x0, 3, 3⟩
def CAN.CTRL.TDC_EN : Fld := ⟨0x0, 2, 2⟩
def CAN.CTRL.FD_EN : Fld := ⟨0x0, 1, 1⟩
def CAN.CTRL.ENABLE : Fld := ⟨0x0, 0, 0⟩
def CAN.STATUS.W : Fld := ⟨0x4, 31, 0⟩
def CAN.STATUS.TEC : Fld := ⟨0x4, 24, 16⟩
def CAN.STATUS.REC : Fld := ⟨0x4, 15, 8⟩
def CAN.STATUS.STATE : Fld := ⟨0x4, 5, 4⟩
def CAN.STATUS.RX_NE : Fld := ⟨0x4, 3, 3⟩
def CAN.STATUS.WIGN : Fld := ⟨0x4, 0, 0⟩
def CAN.CMD.W : Fld := ⟨0x8, 31, 0⟩
def CAN.CMD.RECOVER : Fld := ⟨0x8, 16, 16⟩
def CAN.CMD.TX_REQ : Fld := ⟨0x8, 8, 0⟩
def CAN.TX_PEND.W : Fld := ⟨0xC, 31, 0⟩
def CAN.TX_PEND.PEND : Fld := ⟨0xC, 7, 0⟩
def CAN.NBT.W : Fld := ⟨0x10, 31, 0⟩
def CAN.NBT.BRP : Fld := ⟨0x10, 31, 24⟩
def CAN.NBT.TSEG1 : Fld := ⟨0x10, 23, 16⟩
def CAN.NBT.TSEG2 : Fld := ⟨0x10, 14, 8⟩
def CAN.NBT.SJW : Fld := ⟨0x10, 6, 0⟩
def CAN.DBT.W : Fld := ⟨0x14, 31, 0⟩
def CAN.DBT.BRP : Fld := ⟨0x14, 31, 24⟩
def CAN.DBT.TSEG1 : Fld := ⟨0x14, 20, 16⟩
def CAN.DBT.TSEG2 : Fld := ⟨0x14, 11, 8⟩
def CAN.DBT.SJW : Fld := ⟨0x14, 3, 0⟩
def CAN.TDC.W : Fld := ⟨0x18, 31, 0⟩
def CAN.TDC.TDCO : Fld := ⟨0x18, 6, 0⟩
def CAN.IRQ_EN.W : Fld := ⟨0x1C, 31, 0⟩
def CAN.IRQ_EN.ERR : Fld := ⟨0x1C, 2, 2⟩
def CAN.IRQ_EN.TX_DONE : Fld := ⟨0x1C, 1, 1⟩
def CAN.IRQ_EN.RX_NE : Fld := ⟨0x1C, 0, 0⟩
def CAN.TX_SLOT.W : Fld := ⟨0x1000, 31, 0⟩
def CAN.TX_SLOT.DATA : Fld := ⟨0x1000, 31, 0⟩
def CAN.RX_HEAD.W : Fld := ⟨0x1400, 31, 0⟩
def CAN.RX_HEAD.DATA : Fld := ⟨0x1400, 31, 0⟩
def CAN.FILT_ID.W : Fld := ⟨0x1800, 31, 0⟩
def CAN.FILT_ID.EN : Fld := ⟨0x1800, 31, 31⟩
def CAN.FILT_ID.ID : Fld := ⟨0x1800, 28, 0⟩
def CAN.FILT_MASK.W : Fld := ⟨0x1804, 31, 0⟩
def CAN.FILT_MASK.MASK : Fld := ⟨0x1804, 28, 0⟩

/-- The register table of CAN (R539). -/
def CAN.map : List RegRow :=
  [⟨0x0, [], [⟨31, 5, .rw, 0, false, true⟩, ⟨4, 4, .rwd, 0, true, false⟩, ⟨3, 3, .rwd, 0, true, false⟩, ⟨2, 2, .rwd, 0, true, false⟩, ⟨1, 1, .rwd, 0, true, false⟩, ⟨0, 0, .rw, 0, true, false⟩]⟩,
   ⟨0x4, [], [⟨31, 25, .ro, 0, false, true⟩, ⟨24, 16, .sc, 0, false, false⟩, ⟨15, 8, .sc, 0, false, false⟩, ⟨7, 6, .ro, 0, false, true⟩, ⟨5, 4, .sc, 0, false, false⟩, ⟨3, 3, .sc, 0, false, false⟩, ⟨2, 1, .ro, 0, false, true⟩, ⟨0, 0, .sc, 0, false, false⟩]⟩,
   ⟨0x8, [], [⟨31, 17, .ro, 0, false, true⟩, ⟨16, 16, .cmd, 0, false, false⟩, ⟨15, 9, .ro, 0, false, true⟩, ⟨8, 0, .cmd, 0, false, false⟩]⟩,
   ⟨0xC, [], [⟨31, 8, .ro, 0, false, true⟩, ⟨7, 0, .sc, 0, false, false⟩]⟩,
   ⟨0x10, [], [⟨31, 24, .rwd, 4, true, false⟩, ⟨23, 16, .rwd, 0xA, true, false⟩, ⟨15, 15, .rw, 0, false, true⟩, ⟨14, 8, .rwd, 3, true, false⟩, ⟨7, 7, .rw, 0, false, true⟩, ⟨6, 0, .rwd, 3, true, false⟩]⟩,
   ⟨0x14, [], [⟨31, 24, .rwd, 0, true, false⟩, ⟨23, 21, .rw, 0, false, true⟩, ⟨20, 16, .rwd, 6, true, false⟩, ⟨15, 12, .rw, 0, false, true⟩, ⟨11, 8, .rwd, 1, true, false⟩, ⟨7, 4, .rw, 0, false, true⟩, ⟨3, 0, .rwd, 1, true, false⟩]⟩,
   ⟨0x18, [], [⟨31, 7, .rw, 0, false, true⟩, ⟨6, 0, .rwd, 0xA, true, false⟩]⟩,
   ⟨0x1C, [], [⟨31, 3, .rw, 0, false, true⟩, ⟨2, 2, .rw, 0, true, false⟩, ⟨1, 1, .rw, 0, true, false⟩, ⟨0, 0, .rw, 0, true, false⟩]⟩,
   ⟨0x1000, [(8, 0x50), (18, 0x4)], [⟨31, 0, .rw, 0, false, false⟩]⟩,
   ⟨0x1400, [(18, 0x4)], [⟨31, 0, .sc, 0, false, false⟩]⟩,
   ⟨0x1800, [(32, 0x8)], [⟨31, 31, .rwd, 0, true, false⟩, ⟨30, 29, .rw, 0, false, true⟩, ⟨28, 0, .rwd, 0, true, false⟩]⟩,
   ⟨0x1804, [(32, 0x8)], [⟨31, 29, .rw, 0, false, true⟩, ⟨28, 0, .rwd, 0, true, false⟩]⟩]

/-! IIC: registers of file 20_peripherals_watchdogs.md. -/

def IIC.CTRL.W : Fld := ⟨0x0, 31, 0⟩
def IIC.CTRL.DIV : Fld := ⟨0x0, 31, 16⟩
def IIC.CTRL.ENABLE : Fld := ⟨0x0, 0, 0⟩
def IIC.STATUS.W : Fld := ⟨0x4, 31, 0⟩
def IIC.STATUS.XFER_LVL : Fld := ⟨0x4, 12, 8⟩
def IIC.STATUS.ARB_LOST : Fld := ⟨0x4, 3, 3⟩
def IIC.STATUS.NACKED : Fld := ⟨0x4, 2, 2⟩
def IIC.STATUS.HALTED : Fld := ⟨0x4, 1, 1⟩
def IIC.STATUS.WIGN : Fld := ⟨0x4, 0, 0⟩
def IIC.CMD.W : Fld := ⟨0x8, 31, 0⟩
def IIC.CMD.CNT_CLR : Fld := ⟨0x8, 1, 1⟩
def IIC.CMD.RESUME : Fld := ⟨0x8, 0, 0⟩
def IIC.XFER.W : Fld := ⟨0xC, 31, 0⟩
def IIC.XFER.STOP : Fld := ⟨0xC, 11, 11⟩
def IIC.XFER.START : Fld := ⟨0xC, 10, 10⟩
def IIC.XFER.READ : Fld := ⟨0xC, 9, 9⟩
def IIC.XFER.NACK : Fld := ⟨0xC, 8, 8⟩
def IIC.XFER.DATA : Fld := ⟨0xC, 7, 0⟩
def IIC.RXDATA.W : Fld := ⟨0x10, 31, 0⟩
def IIC.RXDATA.DATA : Fld := ⟨0x10, 7, 0⟩
def IIC.CNT.W : Fld := ⟨0x14, 31, 0⟩
def IIC.CNT.NACKS : Fld := ⟨0x14, 15, 0⟩
def IIC.IRQ_EN.W : Fld := ⟨0x18, 31, 0⟩
def IIC.IRQ_EN.HALTED : Fld := ⟨0x18, 1, 1⟩
def IIC.IRQ_EN.RX_NE : Fld := ⟨0x18, 0, 0⟩

/-- The register table of IIC (R539). -/
def IIC.map : List RegRow :=
  [⟨0x0, [], [⟨31, 16, .rwd, 0xF9, true, false⟩, ⟨15, 1, .rw, 0, false, true⟩, ⟨0, 0, .rw, 0, true, false⟩]⟩,
   ⟨0x4, [], [⟨31, 13, .ro, 0, false, true⟩, ⟨12, 8, .sc, 0, false, false⟩, ⟨7, 4, .ro, 0, false, true⟩, ⟨3, 3, .sc, 0, false, false⟩, ⟨2, 2, .sc, 0, false, false⟩, ⟨1, 1, .sc, 0, false, false⟩, ⟨0, 0, .sc, 0, false, false⟩]⟩,
   ⟨0x8, [], [⟨31, 2, .ro, 0, false, true⟩, ⟨1, 1, .cmd, 0, false, false⟩, ⟨0, 0, .cmd, 0, false, false⟩]⟩,
   ⟨0xC, [], [⟨31, 12, .ro, 0, false, true⟩, ⟨11, 11, .wo, 0, false, false⟩, ⟨10, 10, .wo, 0, false, false⟩, ⟨9, 9, .wo, 0, false, false⟩, ⟨8, 8, .wo, 0, false, false⟩, ⟨7, 0, .wo, 0, false, false⟩]⟩,
   ⟨0x10, [], [⟨31, 8, .ro, 0, false, true⟩, ⟨7, 0, .rs, 0, false, false⟩]⟩,
   ⟨0x14, [], [⟨31, 16, .ro, 0, false, true⟩, ⟨15, 0, .sc, 0, false, false⟩]⟩,
   ⟨0x18, [], [⟨31, 2, .rw, 0, false, true⟩, ⟨1, 1, .rw, 0, true, false⟩, ⟨0, 0, .rw, 0, true, false⟩]⟩]

/-! QEP: registers of file 20_peripherals_watchdogs.md. -/

def QEP.CTRL.W : Fld := ⟨0x0, 31, 0⟩
def QEP.CTRL.FILT : Fld := ⟨0x0, 31, 24⟩
def QEP.CTRL.MODE : Fld := ⟨0x0, 9, 8⟩
def QEP.CTRL.ZMODE : Fld := ⟨0x0, 5, 4⟩
def QEP.CTRL.INV_DIR : Fld := ⟨0x0, 3, 3⟩
def QEP.CTRL.ENABLE : Fld := ⟨0x0, 0, 0⟩
def QEP.STATUS.W : Fld := ⟨0x4, 31, 0⟩
def QEP.STATUS.Z_ARMED : Fld := ⟨0x4, 3, 3⟩
def QEP.STATUS.DIR : Fld := ⟨0x4, 2, 2⟩
def QEP.STATUS.WIGN : Fld := ⟨0x4, 0, 0⟩
def QEP.CMD.W : Fld := ⟨0x8, 31, 0⟩
def QEP.CMD.CNT_CLR : Fld := ⟨0x8, 1, 1⟩
def QEP.CMD.ARM_Z : Fld := ⟨0x8, 0, 0⟩
def QEP.POS.W : Fld := ⟨0xC, 31, 0⟩
def QEP.POS.POS : Fld := ⟨0xC, 31, 0⟩
def QEP.ZPOS.W : Fld := ⟨0x10, 31, 0⟩
def QEP.ZPOS.POS : Fld := ⟨0x10, 31, 0⟩
def QEP.CNT.W : Fld := ⟨0x14, 31, 0⟩
def QEP.CNT.PHASE_ERR : Fld := ⟨0x14, 15, 0⟩

/-- The register table of QEP (R539). -/
def QEP.map : List RegRow :=
  [⟨0x0, [], [⟨31, 24, .rwd, 0, true, false⟩, ⟨23, 10, .rw, 0, false, true⟩, ⟨9, 8, .rwd, 0, true, false⟩, ⟨7, 6, .rw, 0, false, true⟩, ⟨5, 4, .rwd, 0, true, false⟩, ⟨3, 3, .rwd, 0, true, false⟩, ⟨2, 1, .rw, 0, false, true⟩, ⟨0, 0, .rw, 0, true, false⟩]⟩,
   ⟨0x4, [], [⟨31, 4, .ro, 0, false, true⟩, ⟨3, 3, .sc, 0, false, false⟩, ⟨2, 2, .sc, 0, false, false⟩, ⟨1, 1, .ro, 0, false, true⟩, ⟨0, 0, .sc, 0, false, false⟩]⟩,
   ⟨0x8, [], [⟨31, 2, .ro, 0, false, true⟩, ⟨1, 1, .cmd, 0, false, false⟩, ⟨0, 0, .cmd, 0, false, false⟩]⟩,
   ⟨0xC, [], [⟨31, 0, .rw, 0, false, false⟩]⟩,
   ⟨0x10, [], [⟨31, 0, .sc, 0, false, false⟩]⟩,
   ⟨0x14, [], [⟨31, 16, .ro, 0, false, true⟩, ⟨15, 0, .sc, 0, false, false⟩]⟩]

/-! GPIO: registers of file 20_peripherals_watchdogs.md. -/

def GPIO.FUNC_LO.W : Fld := ⟨0x0, 31, 0⟩
def GPIO.FUNC_LO.FUNC : Fld := ⟨0x0, 31, 0⟩
def GPIO.FUNC_HI.W : Fld := ⟨0x4, 31, 0⟩
def GPIO.FUNC_HI.FUNC : Fld := ⟨0x4, 31, 0⟩
def GPIO.OUT_LO.W : Fld := ⟨0x8, 31, 0⟩
def GPIO.OUT_LO.OUT : Fld := ⟨0x8, 31, 0⟩
def GPIO.OUT_HI.W : Fld := ⟨0xC, 31, 0⟩
def GPIO.OUT_HI.OUT : Fld := ⟨0xC, 31, 0⟩
def GPIO.OE_LO.W : Fld := ⟨0x10, 31, 0⟩
def GPIO.OE_LO.OE : Fld := ⟨0x10, 31, 0⟩
def GPIO.OE_HI.W : Fld := ⟨0x14, 31, 0⟩
def GPIO.OE_HI.OE : Fld := ⟨0x14, 31, 0⟩
def GPIO.IN_LO.W : Fld := ⟨0x18, 31, 0⟩
def GPIO.IN_LO.IN : Fld := ⟨0x18, 31, 0⟩
def GPIO.IN_HI.W : Fld := ⟨0x1C, 31, 0⟩
def GPIO.IN_HI.IN : Fld := ⟨0x1C, 31, 0⟩
def GPIO.OUT_SET_LO.W : Fld := ⟨0x20, 31, 0⟩
def GPIO.OUT_SET_LO.MASK : Fld := ⟨0x20, 31, 0⟩
def GPIO.OUT_SET_HI.W : Fld := ⟨0x24, 31, 0⟩
def GPIO.OUT_SET_HI.MASK : Fld := ⟨0x24, 31, 0⟩
def GPIO.OUT_CLR_LO.W : Fld := ⟨0x28, 31, 0⟩
def GPIO.OUT_CLR_LO.MASK : Fld := ⟨0x28, 31, 0⟩
def GPIO.OUT_CLR_HI.W : Fld := ⟨0x2C, 31, 0⟩
def GPIO.OUT_CLR_HI.MASK : Fld := ⟨0x2C, 31, 0⟩
def GPIO.IRQ_CFG.W : Fld := ⟨0x40, 31, 0⟩
def GPIO.IRQ_CFG.LINE : Fld := ⟨0x40, 13, 8⟩
def GPIO.IRQ_CFG.MODE : Fld := ⟨0x40, 2, 0⟩

/-- The register table of GPIO (R539). -/
def GPIO.map : List RegRow :=
  [⟨0x0, [], [⟨31, 0, .rw, 0, true, false⟩]⟩,
   ⟨0x4, [], [⟨31, 0, .rw, 0, true, false⟩]⟩,
   ⟨0x8, [], [⟨31, 0, .rw, 0, false, false⟩]⟩,
   ⟨0xC, [], [⟨31, 0, .rw, 0, false, false⟩]⟩,
   ⟨0x10, [], [⟨31, 0, .rw, 0, false, false⟩]⟩,
   ⟨0x14, [], [⟨31, 0, .rw, 0, false, false⟩]⟩,
   ⟨0x18, [], [⟨31, 0, .sc, 0, false, false⟩]⟩,
   ⟨0x1C, [], [⟨31, 0, .sc, 0, false, false⟩]⟩,
   ⟨0x20, [], [⟨31, 0, .cmd, 0, false, false⟩]⟩,
   ⟨0x24, [], [⟨31, 0, .cmd, 0, false, false⟩]⟩,
   ⟨0x28, [], [⟨31, 0, .cmd, 0, false, false⟩]⟩,
   ⟨0x2C, [], [⟨31, 0, .cmd, 0, false, false⟩]⟩,
   ⟨0x40, [(8, 0x4)], [⟨31, 14, .rw, 0, false, true⟩, ⟨13, 8, .rw, 0, true, false⟩, ⟨7, 3, .rw, 0, false, true⟩, ⟨2, 0, .rw, 7, true, false⟩]⟩]

end Sys2Proof.Machine
end

