-- ==== Sys2Proof/Machine/AddrMap.lean ====
section
/-! DEFINITION. The data address map (R34, R38, R39): blocks, their instances and base addresses, the
register row an address falls on, and the word every register holds after reset (R19). -/

namespace Sys2Proof.Machine

/-- The register blocks, by the prefixes of R18. -/
inductive Blk where
  | sys | ais | car | stl | cnv | cmp | leg | eng | trp | cri | flc | cel | wdt | knr | ode | atc | dbg
  | spi | uart | can | iic | qep | gpio
  deriving DecidableEq, Repr

/-- The register table of a block. -/
def Blk.map : Blk → List RegRow
  | .sys => SYS.map | .ais => AIS.map | .car => CAR.map | .stl => STL.map | .cnv => CNV.map
  | .cmp => CMP.map | .leg => LEG.map | .eng => ENG.map | .trp => TRP.map | .cri => CRI.map
  | .flc => FLC.map | .cel => CEL.map | .wdt => WDT.map | .knr => KNR.map | .ode => ODE.map
  | .atc => ATC.map | .dbg => DBG.map | .spi => SPI.map | .uart => UART.map | .can => CAN.map
  | .iic => IIC.map | .qep => QEP.map | .gpio => GPIO.map

/-- Blocks with a one-bit CTRL.ENABLE (R52); all of them keep it at bit 0 of +0x000. -/
def Blk.hasEnable : Blk → Bool
  | .sys | .stl | .dbg | .gpio => false
  | _ => true

/-! Base addresses (R34, R38, R39).  An index counts round its block's instances, so that every base address is one of
its block. -/

def SYS.base : Nat := 0x50000000
def AIS.base (a : Nat) : Nat := 0x40000000 + a % 3 * 0x100000
def CAR.base (g : Nat) : Nat := AIS.base (g / 4) + 0x1000 + 0x100 * (g % 4)
/-- Stall `s` in its aisle's window. -/
def STL.base (s : Nat) : Nat := AIS.base (s / 4) + 0x10000 * (s % 4 + 1)
def CNV.base (s : Nat) : Nat := STL.base s
def CMP.base (c : Nat) : Nat := STL.base (c / 2) + 0x1000 + 0x100 * (c % 2)
def LEG.base (l : Nat) : Nat := STL.base (l / 4) + 0x2000 + 0x100 * (l % 4)
def ENG.base (s : Nat) : Nat := STL.base s + 0x4000
def TRP.base : Nat := 0x46000000
def CRI.base : Nat := 0x48000000
def FLC.base : Nat := 0x49000000
def KNR.base : Nat := 0x4A000000
def ATC.base : Nat := 0x4B000000
def SPI.base (i : Nat) : Nat := 0x4C000000 + i % 4 * 0x10000
def UART.base (i : Nat) : Nat := 0x4C040000 + i % 2 * 0x10000
def CAN.base (i : Nat) : Nat := 0x4C060000 + i % 2 * 0x10000
def IIC.base (i : Nat) : Nat := 0x4C080000 + i % 2 * 0x10000
def QEP.base (i : Nat) : Nat := 0x4C0A0000 + i % 4 * 0x10000
def GPIO.base : Nat := 0x4C0E0000
def WDT.base (i : Nat) : Nat := 0x4C0F0000 + i % 5 * 0x10000
def CEL.base : Nat := 0x4D000000
def DBG.base : Nat := 0x4E000000
def ODE.base : Nat := 0x4F000000

/-- A block instance and an offset in it. -/
structure Place where
  blk : Blk
  inst : Nat
  off : Nat
  deriving DecidableEq, Repr

/-- The aisle window (R38): offset `o` in the region of aisle `a`. -/
def aislePlace (a o : Nat) : Option Place :=
  if o < 0x1000 then some ⟨.ais, a, o⟩
  else if o < 0x1400 then some ⟨.car, 4 * a + (o - 0x1000) / 0x100, o % 0x100⟩
  else if o < 0x10000 then none
  else if o < 0x50000 then
    let s := 4 * a + (o / 0x10000 - 1)
    let p := o % 0x10000
    if p < 0x100 then some ⟨.cnv, s, p⟩
    else if p < 0x1000 then some ⟨.stl, s, p⟩
    else if p < 0x1200 then some ⟨.cmp, 2 * s + (p - 0x1000) / 0x100, p % 0x100⟩
    else if p < 0x2000 then none
    else if p < 0x2400 then some ⟨.leg, 4 * s + (p - 0x2000) / 0x100, p % 0x100⟩
    else if p < 0x4000 then none
    else some ⟨.eng, s, p - 0x4000⟩
  else none

/-- The peripheral slots (R39). -/
def slotPlace (p o : Nat) : Option Place :=
  if p < 4 then some ⟨.spi, p, o⟩
  else if p < 6 then some ⟨.uart, p - 4, o⟩
  else if p < 8 then some ⟨.can, p - 6, o⟩
  else if p < 10 then some ⟨.iic, p - 8, o⟩
  else if p < 14 then some ⟨.qep, p - 10, o⟩
  else if p = 14 then some ⟨.gpio, 0, o⟩
  else if p < 20 then some ⟨.wdt, p - 15, o⟩
  else none

/-- The block a register address lies in (R34), by the windows of the data address map. -/
def place (a : Nat) : Option Place :=
  let w := a / 0x1000000
  let o := a % 0x1000000
  match w with
  | 0x40 => if o < 0x300000 then aislePlace (o / 0x100000) (o % 0x100000) else none
  | 0x46 => some ⟨.trp, 0, o⟩
  | 0x48 => some ⟨.cri, 0, o⟩
  | 0x49 => some ⟨.flc, 0, o⟩
  | 0x4A => some ⟨.knr, 0, o⟩
  | 0x4B => some ⟨.atc, 0, o⟩
  | 0x4C => slotPlace (o / 0x10000) (o % 0x10000)
  | 0x4D => some ⟨.cel, 0, o⟩
  | 0x4E => some ⟨.dbg, 0, o⟩
  | 0x4F => some ⟨.ode, 0, o⟩
  | 0x50 => some ⟨.sys, 0, o⟩
  | _ => none

/-- The base address of a block instance. -/
def Blk.base : Blk → Nat → Nat
  | .sys, _ => SYS.base | .ais, i => AIS.base i | .car, i => CAR.base i | .stl, i => STL.base i
  | .cnv, i => CNV.base i | .cmp, i => CMP.base i | .leg, i => LEG.base i | .eng, i => ENG.base i
  | .trp, _ => TRP.base | .cri, _ => CRI.base | .flc, _ => FLC.base | .cel, _ => CEL.base
  | .wdt, i => WDT.base i | .knr, _ => KNR.base | .ode, _ => ODE.base | .atc, _ => ATC.base
  | .dbg, _ => DBG.base | .spi, i => SPI.base i | .uart, i => UART.base i | .can, i => CAN.base i
  | .iic, i => IIC.base i | .qep, i => QEP.base i | .gpio, _ => GPIO.base

/-- How many instances of a block a hall has (R18). -/
def Blk.count : Blk → Nat
  | .ais => 3 | .car => 12 | .stl => 12 | .cnv => 12 | .cmp => 24 | .leg => 48 | .eng => 12
  | .wdt => 5 | .spi => 4 | .uart => 2 | .can => 2 | .iic => 2 | .qep => 4 | _ => 1

/-- A displacement `d` from a register's first word falls on one of its elements. -/
def onElement : List (Nat × Nat) → Nat → Bool
  | [], d => d == 0
  | (n, st) :: t, d => d / st < n && onElement t (d % st)

/-- The table row of an offset, if the block implements it. -/
def rowAt (m : List RegRow) (off : Nat) : Option RegRow :=
  m.find? fun r => r.off ≤ off && onElement r.dims (off - r.off)

/-- The word the rows of a register give after reset (R19). -/
def RegRow.resetWord (r : RegRow) : Nat :=
  r.rows.foldl (fun n f => n + f.reset <<< f.lo) 0

/-- ENG.CTRL.TRIG_K resets to the engine's own local index, s mod 4. -/
def resetExtra (p : Place) : Nat :=
  if p.blk = .eng ∧ p.off = ENG.CTRL.TRIG_K.off then (p.inst % 4) <<< ENG.CTRL.TRIG_K.lo else 0

/-- The word at a register address after reset; 0 where no register is. -/
def resetWordAt (a : Nat) : BitVec 32 :=
  match place a with
  | none => 0
  | some p =>
    match rowAt p.blk.map p.off with
    | none => 0
    | some r => BitVec.ofNat 32 (r.resetWord + resetExtra p)

/-- The clock island a block lies in (R23). -/
inductive Island where
  | aisle (a : Fin 3) | core (n : Fin 4) | fabric | ring | attic | cellar | dbg
  deriving DecidableEq, Repr

/-- The island of a block instance (Blocks table, R23, R39). -/
def Place.island (p : Place) : Island :=
  match p.blk with
  | .ais => .aisle (Fin.ofNat 3 p.inst)
  | .car | .stl | .cnv | .eng => .aisle (Fin.ofNat 3 (p.inst / 4))
  | .cmp => .aisle (Fin.ofNat 3 (p.inst / 8))
  | .leg => .aisle (Fin.ofNat 3 (p.inst / 16))
  | .cel => if p.off < 0x800 then .cellar else .fabric
  | .wdt => .cellar
  | .knr => .ring
  | .atc => .attic
  | .dbg => .dbg
  | _ => .fabric

end Sys2Proof.Machine
end

