-- ==== Sys2Proof/Machine/Sparse.lean ====
section
/-! DEFINITION. Sparse stores: a list of (key, value) pairs with strictly rising keys and no entry equal
to what an unlisted key reads as.  The memory and the register file are both held so. -/

namespace Sys2Proof.Machine

/-- What key `k` holds: its entry, or what an unlisted key reads as. -/
def Sparse.get {α : Type} (dflt : Nat → α) : List (Nat × α) → Nat → α
  | [], k => dflt k
  | (k', v) :: t, k => if k = k' then v else Sparse.get dflt t k

/-- The entries at other keys than `k`. -/
def Sparse.erase {α : Type} : List (Nat × α) → Nat → List (Nat × α)
  | [], _ => []
  | (k', v') :: t, k => if k = k' then Sparse.erase t k else (k', v') :: Sparse.erase t k

/-- An entry in its place among rising keys. -/
def Sparse.insert {α : Type} : List (Nat × α) → Nat → α → List (Nat × α)
  | [], k, v => [(k, v)]
  | (k', v') :: t, k, v => if k < k' then (k, v) :: (k', v') :: t else (k', v') :: Sparse.insert t k v

/-- Write `v` at key `k`, keeping the canonical form. -/
def Sparse.set {α : Type} [DecidableEq α] (dflt : Nat → α) (l : List (Nat × α)) (k : Nat) (v : α) : List (Nat × α) :=
  if v = dflt k then Sparse.erase l k else Sparse.insert (Sparse.erase l k) k v

/-- The canonical form. -/
def Sparse.wf {α : Type} [DecidableEq α] (dflt : Nat → α) : List (Nat × α) → Bool
  | [] => true
  | [(k, v)] => v != dflt k
  | (k, v) :: (k', v') :: t => v != dflt k && decide (k < k') && Sparse.wf dflt ((k', v') :: t)

end Sys2Proof.Machine
end

