-- ==== Sys2Proof/Machine/State.lean ====
section
/-! DEFINITION. The state of the hall, as plain data, and the state after power-on reset.

Every register of the register maps has its home in `regs`; memories in `mem`; what the spec gives the
blocks beyond their registers stands in the typed records below. -/

namespace Sys2Proof.Machine

/-- The per-initiator shadows of one 64-bit register (R62): initiator, low address, read shadow, and the
write holding word if one is held. -/
structure Shadow where
  init : Nat
  addr : Nat
  read : Word := 0
  hold : Option Word := none
  deriving DecidableEq, Repr

/-- The option values in force since the last option load (R370, R371); the defaults here are the
built-in values. -/
structure Options where
  /-- 0 built-in, 1 copy A, 2 copy B. -/
  source : Nat := 0
  seq : Word := 0
  coreEn : BitVec 4 := 1
  aisleEn : BitVec 3 := 7
  refRing : Bool := true
  bootVec : Vector (BitVec 24) 4 := Vector.replicate 4 0
  legSafe : BitVec 96 := 0
  gpioLvl : BitVec 64 := 0
  gpioOe : BitVec 64 := 0
  restore : BitVec 2 := 2
  node : BitVec 7 := 0
  master : Bool := false
  ports : BitVec 2 := 3
  /-- The RING field as loaded; the three above are what the ring island took from it when it last left reset. -/
  ringWord : BitVec 12 := 0xC00
  wdt0 : Word := 0xFFFFFFFF
  wdt1 : Word := 0xFFFF0000
  dbgLock : BitVec 2 := 0
  keyHash : BitVec 256 := 0
  deriving DecidableEq, Repr

/-- A ledger entry waiting in the cellar queue or being made (R398). -/
structure LedgerEntry where
  time : BitVec 64
  type : BitVec 8
  arg0 : BitVec 8
  arg1 : BitVec 16
  data : Word
  /-- The cellar edge on which it arrives (R400). -/
  edge : Nat := 0
  deriving DecidableEq, Repr

/-- A snapshot or DEF_SAVE in progress (R392, R393): its ARG0 code of ledger type 0x0A, the set it writes
(0 and 1 the slots, 2 the defaults), the number of records written, and where the trailer goes. -/
structure SnapRun where
  cause : Nat
  target : Fin 3
  records : Nat
  trailer : Nat
  startAt : Nat
  deriving DecidableEq, Repr

/-- Where the hall stands between a hall reset and the end of the reset sequence (R390). -/
inductive HallPhase where
  | inReset | waitXin | up
  deriving DecidableEq, Repr

/-- What the key that armed the hall on an edge changed: a cause of disarming on the same edge takes it back (R74,
R405).  ARMS and COUNT of WDT[4] before it, the engines it set free, the instant and state of the change before. -/
structure KeyArm where
  edge : Nat
  arms : Nat
  count : Nat
  frozen : List Nat
  armAt : Nat
  armPrev : BitVec 2
  deriving DecidableEq, Repr

/-- A READY that ended on an edge with its window, or because a group latched: a key that completes on the same edge is
judged before it (R72, R73, R405).  LAST_DISARM and the instant and state of the change before it. -/
structure ReadyEnd where
  edge : Nat
  last : Nat
  armAt : Nat
  armPrev : BitVec 2
  latched : Bool
  deriving DecidableEq, Repr

/-- The cellar logic and the arming machine beyond their registers (chapter 15). -/
structure Cellar where
  /-- VDD_CEL present. -/
  power : Bool := true
  powerOnAt : Nat := 0
  phase : HallPhase := .inReset
  releaseAt : Nat := 0
  /-- RESET_N filtered low. -/
  resetLow : Bool := false
  /-- Rails below their reset threshold: bit 0 VDD_CORE, 1 VDDA, 2 VDD_IO, 3 VDD_SER (R381). -/
  railsLow : BitVec 4 := 0
  /-- CMD.SHUTDOWN holds the hall in reset until RESET_N has gone low and high (R395). -/
  shutHold : Bool := false
  /-- A shutdown waits for its snapshot to end. -/
  shutPending : Bool := false
  /-- The hall reset that is scheduled: its RST_CAUSE.TYPE and its instant (R389, R407). -/
  resetDue : Option (Nat × Nat) := none
  /-- Core resets under way: RST_CAUSE.CORE code and end of the hold (R387). -/
  coreReset : Vector (Option (Nat × Nat)) 4 := Vector.replicate 4 none
  /-- Island resets under way: island code of RST_CMD and end of the hold (R388). -/
  islReset : List (Nat × Nat) := []
  /-- The attic island waits for its PCIe PLL (R390). -/
  atticWait : Bool := true
  /-- No reset sequence has ended since power-on. -/
  fresh : Bool := true
  queue : List LedgerEntry := []
  snap : Option SnapRun := none
  /-- A PFAIL_N snapshot follows the running one (R392). -/
  snapAgain : Bool := false
  /-- Record counts of the three complete sets, kept in the cellar system words. -/
  setCount : Vector Nat 3 := Vector.replicate 3 0
  /-- The safe-level latch of the pad ring (R391). -/
  safeLatch : BitVec 96 := 0
  /-- SAFE_N as its filter last passed it (R404). -/
  safeN : Bool := true
  /-- The edges on which the filters of SAFE_N and PFAIL_N last passed a level (R404, R580). -/
  safeAt : Option Nat := none
  pfailAt : Option Nat := none
  trstN : Bool := true
  /-- The initiator that wrote 0x5A1E and the end of its window (R402). -/
  keyBy : Nat := 0
  keyUntil : Nat := 0
  /-- Instant of the last change of the arming state, and the state before it (R404). -/
  armAt : Nat := 0
  armPrev : BitVec 2 := 0
  /-- The instant of the last cause of disarming: a key of that edge is refused (R74, R402, R405). -/
  disarmAt : Option Nat := none
  keyArm : Option KeyArm := none
  readyEnd : Option ReadyEnd := none
  /-- Watchdog expiries recognised and not yet acted on: cause and instant. -/
  expiry : Vector (Option (Nat × Nat)) 5 := Vector.replicate 5 none
  /-- The last count of 64 µs of each watchdog (R406). -/
  tickAt : Vector Nat 5 := Vector.replicate 5 0
  deriving DecidableEq, Repr

/-- The crier beyond its registers: sources a COMPLETE made inactive on this edge (R339) and the EXTINT
filters. -/
structure Crier where
  heldOff : List Nat := []
  heldAt : Nat := 0
  /-- Of the sources held off, those that a line still asserted made pend again (R344). -/
  repended : List Nat := []
  /-- The level each EXTINT filter passed last, whether it has been restarted since, and on which edge (R342). -/
  extLevel : BitVec 8 := 0
  extFresh : BitVec 8 := 0
  extFrom : Vector Nat 8 := Vector.replicate 8 0
  /-- Pulses on their way to the crier. -/
  launched : List Nat := []
  deriving DecidableEq, Repr

/-- Market time: its value in units of 1/6400 ns at instant `at`, and the correction still to be removed
by slewing (R437, R438). -/
structure MarketClock where
  base : Nat := 0
  since : Nat := 0
  slew : Int := 0
  deriving DecidableEq, Repr

/-- What an aisle holds beyond its registers (chapter 3). -/
structure Aisle where
  /-- The arming state as it has arrived in the aisle, and the changes on their way (R404). -/
  arm : BitVec 2 := 0
  armQueue : List (BitVec 2) := []
  /-- The groups as active at the trip stages of the aisle (R199). -/
  groups : BitVec 16 := 0
  /-- Opening edge of each blanking channel, and the last edge on which its close event fired (R93, R95). -/
  blkOpen : Vector Nat 8 := Vector.replicate 8 0
  blkClose : Vector (Option Nat) 8 := Vector.replicate 8 none
  /-- The last edge on which each sampling group fired (R81). -/
  sgFired : Vector (Option Nat) 4 := Vector.replicate 4 none
  /-- Instant of the last phase measurement (R84). -/
  phaseAt : Nat := 0
  deriving DecidableEq, Repr

/-- A carrier generator beyond its registers (R158–R162): the edge of its last ZERO or PERIOD, the delay of
that event's market instant behind the edge (R84), the slew of the running period in 1/6400 ns (R85),
an unlocked start whose ZERO is still to fire (R160), and which of EVA, EVB have fired in this half. -/
structure Carrier where
  edge : Nat := 0
  fine : Nat := 0
  slew : Int := 0
  starting : Bool := false
  eva : Bool := false
  evb : Bool := false
  /-- The way of the slew under way: `true` shortens the periods (R85; free, log entry 70). -/
  shorten : Option Bool := none
  deriving DecidableEq, Repr

/-- The four values of a leg set, 16.6 format (R167). -/
structure LegSet where
  up : Nat := 0
  dn : Nat := 0
  rise : Nat := 0
  fall : Nat := 0
  deriving DecidableEq, Repr

/-- The two signals of a leg, m, RUN, the pending rises and the balls with their falls, as one edge finds them. -/
structure LegSignals where
  run : Bool
  m : Bool
  hi : Bool
  lo : Bool
  hiRise : Option Nat
  loRise : Option Nat
  hiFell : Nat
  loFell : Nat
  hiBall : Bool
  loBall : Bool
  deriving DecidableEq, Repr

/-- A leg beyond its registers (chapters 6 and 7). -/
structure Leg where
  /-- The committed set; whether a commit has landed since reset, and since the last transfer (R170,
  R171). -/
  committed : LegSet := {}
  landed : Bool := false
  fresh : Bool := false
  /-- The dead-time stage: its two signals and the instants of their pending rises (R165). -/
  hi : Bool := false
  lo : Bool := false
  hiRise : Option Nat := none
  loRise : Option Nat := none
  /-- Instants at which the balls last fell (R176, R197). -/
  hiFell : Nat := 0
  loFell : Nat := 0
  /-- The trip stage: held, the actions of the groups active since the hold began (bit = ACTION), and
  HOLD past the end of its half (R196–R199). -/
  held : Bool := false
  acts : BitVec 4 := 0
  holdOff : Bool := false
  /-- The edge on which the last hold ended, and its actions (R205). -/
  ended : Option (Nat × BitVec 4) := none
  /-- The instant of an m edge that was placed before a set with another compare became active (R174). -/
  placed : Option Nat := none
  /-- The last ZERO or PERIOD edge, and the signals it found (R169, R172). -/
  turned : Option (Nat × LegSignals) := none
  deriving DecidableEq, Repr

/-- A comparator beyond its registers (chapter 5): the detectors, the edges of its settling and of its
pending sampled decisions, the edge on which the gated violation fell, and the threshold that a write
replaced (R138). -/
structure Comparator where
  h : Bool := false
  l : Bool := false
  settleAt : Nat := 0
  ticks : List Nat := []
  violFell : Nat := 0
  thrOld : BitVec 32 := 0x0FFF0000
  thrAt : Nat := 0
  /-- The edge on which RELEASE last released LATCH (R151). -/
  relAt : Option Nat := none
  /-- The cellar divider of sampled operation: the 32.768 kHz edge of its next tick (R146). -/
  tickAt : Option Nat := none
  /-- RESULT and LATCH as last offered to the recorder (R477). -/
  offered : Nat := 3
  deriving DecidableEq, Repr

/-- A scan in progress (R80, R107): the group that runs it, its elements' inputs, the number of elements
the scan runs, the aperture of element 0, ACQ, the next element, and the conversion under way: its
input, its start edge, its code once written. -/
structure Scan where
  group : Option (Fin 4)
  elems : List Nat
  total : Nat
  apt : Nat
  acq : Nat
  idx : Nat := 0
  conv : Option (Nat × Nat) := none
  sample : Sample := {}
  raw : Option Int := none
  /-- The codes written so far, and the angles of the aisle's engines at the element-0 aperture (R223, R477). -/
  codes : List (BitVec 16) := []
  angles : Vector Word 4 := Vector.replicate 4 0
  /-- The angles have been taken, with the market time of the element-0 aperture (R226, R477); the DAC code that the
  loopback on input 6 held at the aperture (R103). -/
  angled : Bool := false
  aptTime : Nat := 0
  dac : Nat := 0
  deriving DecidableEq, Repr

/-- What a converter may run besides a normal scan, in order of request (R124, R128). -/
inductive Side where
  | diag | check
  deriving DecidableEq, Repr

/-- A calibration in progress (R118–R121): what the command took on the edge on which it started, its last edge, and for
the loopback input the conversions sampled so far and the sum of their codes. -/
structure CalRun where
  full : Bool
  input : Nat
  paired : Bool
  fs : Int
  endAt : Nat
  startAt : Nat := 0
  acq : Nat := 12
  loop : Nat := 0
  counted : Nat := 0
  sum : Nat := 0
  deriving DecidableEq, Repr

/-- A diagnostic scan in progress (R124): the balls it diagnoses, its last edge, the edge on which it started, the length
of an element, the codes it converts and the elements whose conversion has ended. -/
structure DiagRun where
  mask : BitVec 4
  endAt : Nat
  startAt : Nat := 0
  len : Nat := 0
  codes : DiagCodes := {}
  ended : Nat := 0
  deriving DecidableEq, Repr

/-- A self-check in progress (R127, R128): its current input (7, then 5 where it was commanded), its start
edge, whether it is a background element. -/
structure CheckRun where
  input : Nat
  startAt : Nat
  background : Bool
  deriving DecidableEq, Repr

/-- A converter beyond its registers (chapter 4). -/
structure Converter where
  scan : Option Scan := none
  /-- The edge from which acquisition counts (R106). -/
  acqFrom : Nat := 0
  waiting : List Side := []
  diag : Option DiagRun := none
  check : Option CheckRun := none
  cal : Option CalRun := none
  /-- A background attempt is pending; the next background input is 5 rather than 7; when the next interval
  starts; from when the 10 ms of R130 count (R127, R130). -/
  attempt : Bool := false
  nextIs5 : Bool := false
  attemptAt : Nat := 0
  checkFrom : Nat := 0
  /-- Back-to-back running goes on with another scan (R110). -/
  again : Bool := false
  /-- The averaging block: scans so far and the sums of each input (R123). -/
  avgScans : Nat := 0
  avgSum : Vector Int 8 := Vector.replicate 8 0
  /-- START and STOP filters: level passed last, restarted since, the edge of the restart (R111). -/
  startLevel : Bool := false
  stopLevel : Bool := false
  startFresh : Bool := false
  stopFresh : Bool := false
  filterFrom : Nat := 0
  /-- Same-edge judgement of R113: the edge of the last firing, of the last START edge that fired, of a CMD.STOP that
  ended running, and of a STOP edge with RUN as it was. -/
  firedAt : Option Nat := none
  pinAt : Option Nat := none
  stopAt : Option Nat := none
  stopPin : Option (Nat × Bool) := none
  /-- The causes of a refused SW_TRIG that persist: bit 0 member, 1 ENABLE 0, 2 TRIG_SRC 2 (R114). -/
  swtCause : BitVec 3 := 0
  deriving DecidableEq, Repr

/-- Releases that have succeeded on one edge (R205): the edge, the groups, what ARM_STATE's last change was before
them if they took the hall from TRIPPED to ARMED, whether the hall asserted the market trip. -/
structure Released where
  edge : Nat
  groups : BitVec 16
  arm : Option (Nat × BitVec 2)
  asserted : Bool
  deriving DecidableEq, Repr

/-- The trip unit beyond its registers: latches, the TRIPIN filter levels, the edge on which each source
fell (R188, R202). -/
structure TripUnit where
  latch : BitVec 16 := 0
  tripin : BitVec 8 := 0
  fell : Vector Nat 46 := Vector.replicate 46 0
  /-- The edge on which each group last went active (R205). -/
  went : Vector (Option Nat) 16 := Vector.replicate 16 none
  released : Option Released := none
  deriving DecidableEq, Repr

/-- An output record of a lane (R232): a value for a shadow of leg `l` (0 CMP_UP, 1 CMP_DN, 2 DT_RISE,
3 DT_FALL), judged for immediate effect or not; a word for MBX_OUT; a MARK; a TRIP. -/
inductive OutRec where
  | store (l : Nat) (shadow : Fin 4) (value : Nat) (sti : Bool)
  | word (m : Nat) (value : Word)
  | mark (tag : Nat) (value : Word)
  | trip
  deriving DecidableEq, Repr

/-- A lane's working copy and results (R211, R232): registers, accumulators and integrators in units of
2⁻³², the saturation record, its output records, and where it is in the program. -/
structure Lane where
  e : Vector Word 32 := Vector.replicate 32 0
  acc : Vector Int 4 := Vector.replicate 4 0
  int : Vector Int 16 := Vector.replicate 16 0
  sat : Bool := false
  recs : List OutRec := []
  pc : Nat := 0
  done : Bool := false
  deriving DecidableEq, Repr

/-- The frame of a run (R214). -/
structure Frame where
  result : Vector Word 8 := Vector.replicate 8 0
  avg : Vector Word 8 := Vector.replicate 8 0
  mbx : Vector Word 16 := Vector.replicate 16 0
  kp : Vector Word 16 := Vector.replicate 16 0
  ki : Vector Word 16 := Vector.replicate 16 0
  hi : Vector Word 16 := Vector.replicate 16 0
  lo : Vector Word 16 := Vector.replicate 16 0
  prd : Nat := 0
  angle : Word := 0
  deriving DecidableEq, Repr

/-- A trigger (R212, R223, R226): its edge, whether a scan gave it, the angle and the market time (units of 1/6400 ns) at
the element-0 aperture of that scan, or at the edge itself for CMD.START. -/
structure Trigger where
  edge : Nat
  scan : Bool
  angle : Word
  time : Nat
  deriving DecidableEq, Repr

/-- How far the capture of a run has come (R213, R214): triggered on X; the results taken as they stand after X; the whole
frame taken after the capture edge X + 1. -/
inductive Captured where
  | triggered | results | all
  deriving DecidableEq, Repr

/-- A run (R213–R215, R229, R233): its trigger, the edge on which the next operation executes, how far its capture has come,
the frame and the lanes, the length so far of the first execution, an LDR that waits, the lanes of the first execution
once a re-run is on, the words read outside the frame by program entry, the target commit point once it has
passed and whether it was missed. -/
structure EngRun where
  trig : Trigger
  next : Nat
  captured : Captured := .triggered
  frame : Frame := {}
  base : Lane := {}
  l0 : Lane := {}
  l1 : Lane := {}
  len : Nat := 0
  waited : Bool := false
  first : Option (Lane × Lane) := none
  kept : List (Nat × List Word) := []
  target : Option Nat := none
  missed : Bool := false
  deriving DecidableEq, Repr

/-- A stall engine beyond its registers (chapter 8). -/
structure Engine where
  run : Option EngRun := none
  /-- A trigger that is accepted if the run in progress leaves on the next edge (R213, R240). -/
  trig : Option Trigger := none
  /-- The edges from which trip requests not yet released stand (R237). -/
  trips : List Nat := []
  /-- Released stores on their way: the edge on which they land and the records (R90, R226). -/
  landing : Option (Nat × List OutRec) := none
  /-- The LDR reads served last: edge, local stalls, whether they had waited (R229). -/
  ldr : Option (Nat × List Nat × Bool) := none
  /-- The phase in units of 2⁻⁴⁸/6400 turn at a market instant (R223). -/
  phi : Nat := 0
  phiAt : Nat := 0
  deriving DecidableEq, Repr

/-- A quadrature decoder beyond its registers (R223, R533): the edge of the last change of POS and its value
before. -/
structure Qep where
  changedAt : Nat := 0
  before : Word := 0
  /-- The filtered levels of A and B; the last edge that counted, with POS before it; the last Z edge (R538). -/
  a : Bool := false
  b : Bool := false
  counted : Option (Nat × Word) := none
  zAt : Option Nat := none
  deriving DecidableEq, Repr

/-- A block on a transmit lane (R414). -/
inductive RingBlock where
  | ident (node : Nat) (priority up : Bool)
  | dlyReq
  | dlyRsp (turnaround : Nat)
  | linkFault
  | beacon (node : Nat) (priority : Bool)
  | trip (origin seq : Nat)
  | record (origin seq time : Nat)
  deriving DecidableEq, Repr

/-- A mailbox request of this hall that waits for its response (R448): service, SEQ, node, and the cycle on
whose capture it times out. -/
structure RingRequest where
  svc : Nat
  seq : Nat
  node : Nat
  due : Nat
  deriving DecidableEq, Repr

/-- The ring island beyond its registers (chapter 16). -/
structure Ring where
  /-- Blocks handed to the transmit lanes, oldest first (port 0 KA, 1 KB), and the frame last sent on. -/
  sent : List (Nat × RingBlock) := []
  frameOut : Option RingFrame := none
  tripSeq : Nat := 0
  recSeq : Nat := 0
  /-- TRIP and REC blocks forwarded: direction, origin, last sequence number. -/
  tripSeen : List (Nat × Nat × Nat) := []
  recSeen : List (Nat × Nat × Nat) := []
  /-- Ports that carry ring traffic, neighbours that reported up, and when the last DLY_REQ left. -/
  use : BitVec 2 := 0
  nbrUp : BitVec 2 := 0
  dlySent : Vector Nat 2 := Vector.replicate 2 0
  /-- Election (R423): since when the hall has been a candidate, the last better beacon. -/
  candFrom : Nat := 0
  betterAt : Option Nat := none
  /-- As a master (R424–R430): number and market instant (ns) of the next cycle, the cycle and instant of the
  last SOF, the frame that has returned since. -/
  nextCycle : Nat := 0
  nextAt : Nat := 0
  started : Bool := false
  sof : Option (Nat × Nat) := none
  returned : Option RingFrame := none
  /-- Valid headers (R431, R439, R440): the last one, the start of their unbroken row, PERIOD and the schedule
  last received, whether market time has been set, headers with |x| small and large in a row. -/
  hdrAt : Option Nat := none
  hdrFrom : Option Nat := none
  period : Nat := 80
  lag : Nat := 0
  lens : Vector (BitVec 6) 64 := Vector.replicate 64 0
  timeSet : Bool := false
  good : Nat := 0
  bad : Nat := 0
  /-- Valid headers with no market trip since the last TRIP block (R443). -/
  quiet : Nat := 0
  /-- The next capture instant: cycle and market time in ns; the cycle captured last; the last applied. -/
  capAt : Option (Nat × Nat) := none
  captured : Option Nat := none
  applied : Option Nat := none
  /-- The edge of the last capture, and whether PD_TX was copied on it (R432); the edge on which the frame was sent on. -/
  capturedOn : Option Nat := none
  copied : Bool := false
  frameAt : Option Nat := none
  /-- Nodes whose BEACON had priority (R423); this master took the cycle over (R425). -/
  prio : List Nat := []
  took : Bool := false
  /-- Process data (R432–R436): the send bank, the segments received (node, WRITTEN, data), stale apply
  instants in a row per node. -/
  send : List (BitVec 64) := []
  segs : List (Nat × Nat × List (BitVec 64)) := []
  staleRun : Vector Nat 64 := Vector.replicate 64 0
  /-- Mailbox (R446–R449). -/
  mbxSeq : Nat := 0
  odeOut : List RingMsg := []
  monOut : List RingMsg := []
  userOut : Option RingMsg := none
  rx : List RingMsg := []
  requests : List RingRequest := []
  heard : List (Nat × Nat) := []
  deriving DecidableEq, Repr

/-- What a dictionary transaction waits for (R463, R468, R469): SNAP_SEQ to differ from a value, DEF_VALID, or the
response to the ring request with a SEQ; with the object it concerns. -/
inductive OdWait where
  | save (seq index sub : Nat)
  | defaults (index sub : Nat)
  | remote (seq index sub : Nat)
  deriving DecidableEq, Repr

/-- A block write in progress (R464): its requester (initiator, and 16 times the source node), index, subindex,
next offset. -/
structure OdBlock where
  client : Nat
  index : Nat
  sub : Nat
  next : Nat
  deriving DecidableEq, Repr

/-- A USDO transfer (R468): its client, the other node it addresses if it does, index, subindex, upload or
download, the bytes held, the size announced or found, the next offset. -/
structure UsdoTransfer where
  client : Nat
  node : Option Nat
  index : Nat
  sub : Nat
  upload : Bool
  data : List (BitVec 8) := []
  size : Nat
  next : Nat := 0
  deriving DecidableEq, Repr

/-- A response of the USDO server to a client: a confirmation, a value sent whole, the size of a segmented upload, a
segment, an abort code. -/
inductive UsdoReply where
  | confirm (client : Nat)
  | value (client : Nat) (data : List (BitVec 8))
  | size (client n : Nat)
  | segment (client : Nat) (data : List (BitVec 8)) (last : Bool)
  | abort (client code : Nat)
  deriving DecidableEq, Repr

/-- The states of a CiA 402 axis that a command or fault can meet (R473; log entry 21). -/
inductive AxisState where
  | disabled | ready | on | enabled | fault
  deriving DecidableEq, Repr

/-- An axis (R472, R473): its state, controlword and target torque as written last, a fault reset that waits for the
causes to go. -/
structure Axis where
  state : AxisState := .disabled
  control : BitVec 16 := 0
  target : BitVec 16 := 0
  resetting : Bool := false
  deriving DecidableEq, Repr

/-- The object dictionary engines beyond their registers (chapter 17). -/
structure Ode where
  /-- The edge on which the negotiation window opened, while it is open (R471). -/
  window : Option Nat := none
  /-- The edge on which the window closed by timeout: a write of that edge is still taken (R73, R471). -/
  closedOn : Option Nat := none
  /-- Ring requests that wait, and for each source node the SEQ and response of the last one completed (R466). -/
  queue : List RingMsg := []
  kept : List (Nat × Nat × List (BitVec 8)) := []
  /-- Transactions that wait, by initiator: cores 0–3, ring side 4, CAN side 5. -/
  waits : Vector (Option OdWait) 6 := Vector.replicate 6 none
  /-- Responses of other halls that have arrived, or their timeouts, by SEQ (R468, R469). -/
  replies : List (Nat × Option (List (BitVec 8))) := []
  blocks : List OdBlock := []
  usdo : Option UsdoTransfer := none
  usdoOut : List UsdoReply := []
  /-- Frames of the USDO identifiers handed over by a CAN controller, and the engine's own transmit slot (R530). -/
  canFrames : List CanFrame := []
  canTx : List CanFrame := []
  axis : Vector Axis 8 := Vector.replicate 8 {}
  deriving DecidableEq, Repr

/-- An item on its way to a recorder tap (R477): times in units of 1/6400 ns of market time, intervals in
1/64 ac. -/
inductive Item where
  | scan (k time apt pitch mask : Nat) (codes : List (BitVec 16))
  | cmp (c time result : Nat) (latch : Bool)
  | leg (l time up dn : Nat) (zero : Bool)
  | mark (source tag time : Nat) (value : Word)
  | cal
  deriving DecidableEq, Repr

/-- An event window (R484, R485): its trigger, WIN_PRE and WIN_POST in µs, merged triggers, the pre-trigger
held, its blocks and the SEQ of the first one sent. -/
structure EventWindow where
  number : Nat
  src : Nat
  arg : Nat
  time : Nat
  pre : Nat
  post : Nat
  merged : Nat := 0
  held : Nat := 0
  blocks : Nat := 0
  firstSeq : Option Nat := none
  /-- The edge of its acceptance, the slot of its CAL block, and TRIG_MT, TRIG_INFO and EVENT before it (R497). -/
  openedAt : Nat := 0
  cal : Option Nat := none
  before : Nat × Nat × Nat := (0, 0, 0)
  deriving DecidableEq, Repr

/-- An item that found no slot (R487): what its tap would have put into a block, and whether it is the first of its kind
dropped since the last block. -/
structure LostItem where
  type : Nat
  win : Bool
  cnv : Nat := 0
  time : Nat := 0
  apt : Nat := 0
  mask : Nat := 0
  pitch : Nat := 0
  stalls : Nat := 0
  bytes : List (BitVec 8) := []
  deriving DecidableEq, Repr

/-- A block that a tap is filling (R479–R481): its TYPE, window kind or stream, converter, staging slot, market
times of its items, aperture of its last scan, payload bytes, items, SCAN_MASK, INTERVAL, PITCH,
STALL_MASK, GAP. -/
structure OpenBlock where
  type : Nat
  win : Bool
  cnv : Nat
  slot : Nat
  times : List Nat
  lastApt : Nat := 0
  len : Nat := 0
  count : Nat := 0
  mask : Nat := 0
  interval : Nat := 0
  pitch : Nat := 0
  stalls : Nat := 0
  gap : Bool := false
  deriving DecidableEq, Repr

/-- A closed block in the event ring (R486): its slot, the market times (ns) of its items, the window that
locks it. -/
structure RingSlotBlock where
  slot : Nat
  times : List Nat
  lock : Option Nat := none
  deriving DecidableEq, Repr

/-- A block that waits for the drive (R486): its slot, the window it belongs to, or the checkpoint copy it is. -/
structure QueuedBlock where
  slot : Nat
  window : Option Nat := none
  copy : Option Nat := none
  deriving DecidableEq, Repr

/-- The attic recorder beyond its registers (chapter 18). -/
structure Attic where
  window : Option EventWindow := none
  windows : Nat := 0
  /-- Windows that have closed and whose EVENT block is still to be written. -/
  closing : List EventWindow := []
  /-- Items offered to the taps and not yet written (R477). -/
  items : List Item := []
  opened : List OpenBlock := []
  ring : List RingSlotBlock := []
  ringNext : Nat := 0
  streamQ : List QueuedBlock := []
  windowQ : List QueuedBlock := []
  /-- Kinds (TYPE, window) of which items were dropped since their last block (R487). -/
  gaps : List (Nat × Bool) := []
  /-- Items dropped on an edge, each with whether it set GAP: a slot that becomes free on it still takes them (R497). -/
  lostOn : Option Nat := none
  lost : List (LostItem × Bool) := []
  /-- The window that closed on an edge (R497). -/
  closedOn : Option (Nat × Nat) := none
  /-- Scans and ZEROs counted for decimation (R480, R483). -/
  scanCount : Vector Nat 12 := Vector.replicate 12 0
  legZero : Vector Nat 48 := Vector.replicate 48 0
  /-- The drive (R488–R494): since when the conditions of PE_PERST_N hold, its level, a bring-up to be run, step
  6 done, the instant of the last failure, the next timers, checkpoint count and the copy written last,
  blocks in the circle. -/
  perstFrom : Option Nat := none
  perst : Bool := false
  bringUp : Bool := false
  step6 : Bool := false
  failAt : Option Nat := none
  ckptAt : Nat := 0
  smartAt : Nat := 0
  ckptCount : Nat := 0
  ckptCopy : Nat := 1
  stopping : Bool := false
  /-- Refusals of READ and FORMAT whose cause persists (R495, R499). -/
  readRefused : Bool := false
  formatRefused : Bool := false
  /-- The edges of the last refused READ and of the last timed checkpoint, and whether that one serves a shutdown
  (R497). -/
  readOn : Option Nat := none
  ckptOn : Option Nat := none
  ckptDone : Bool := false
  /-- The readback under way: region block and count. -/
  readback : Option (Nat × Nat) := none
  /-- The last block read for the dictionary (R496). -/
  dictBlock : Option (Nat × List (BitVec 8)) := none
  deriving DecidableEq, Repr

/-- A branch whose delay slot has not completed (R258, R324): where execution continues after the slot
(`none`: in sequence), the window action PEND, and the branch's address. -/
structure Slot where
  target : Option (BitVec 24)
  pend : BitVec 2 := 0
  branch : BitVec 24
  deriving DecidableEq, Repr

/-- A posted store in the store buffer (R309). -/
structure Posted where
  addr : Nat
  bytes : Nat
  data : Nat
  deriving DecidableEq, Repr

/-- A register-region access whose acknowledge is on its way (R26, R307): the physical registers it loads; the position
of its instruction, with what preceded it, for the bus error that ends it where its island goes down first (R308). -/
structure Outstanding where
  addr : Nat
  dest : List (Nat × Word)
  write : Bool := false
  lost : Bool := false
  pc : BitVec 24 := 0
  last : Option (BitVec 24) := none
  shadow : List (Nat × Word) := []
  hold : Bool := false
  deriving DecidableEq, Repr

/-- What a line buffer holds for a program word (R299, R302). -/
inductive Fetched where
  /-- The word as the memory held it. -/
  | word (w : BitVec 14)
  /-- A word of a ROM, whose contents the specification does not give (DESIGN CHOICE, log entry 69). -/
  | rom
  /-- A word that raises a cause when the core reaches it. -/
  | bad (cause : Nat)
  /-- A word of a flash line with an uncorrectable error that is not recorded yet: it raises 0x06. -/
  | lost
  deriving DecidableEq, Repr

/-- A line buffer: the line's address and its 16 words (R299). -/
structure Line where
  addr : Nat
  words : List Fetched
  deriving DecidableEq, Repr

/-- A core (chapters 9 to 12).  The physical registers are the 64 quads, register j of quad q at 4q + j, and
the common registers x0–x3 at 256 to 259 (R248).  Their values at reset are 0: DESIGN CHOICE, log
entry 4. -/
structure Core where
  x : Vector Word 260 := Vector.replicate 260 0
  pc : BitVec 24 := 0xF00000
  /-- The instruction that completed last, if one has since the last entry or RETI (R324). -/
  last : Option (BitVec 24) := none
  slot : Option Slot := none
  /-- The old values that the load's shadow reads (R259). -/
  shadow : List (Nat × Word) := []
  /-- The last instruction wrote ST (R256). -/
  hold : Bool := false
  waiting : Bool := false
  /-- PC is on a long instruction that has run elements (R272). -/
  mid : Bool := false
  /-- Instructions left of a locked sequence, the held 64-bit word (address / 8), hall-SRAM accesses made. -/
  lockLeft : Nat := 0
  lockWord : Option Nat := none
  lockUses : Nat := 0
  st : Word := 0x600
  wb : Word := 0
  wsp : Word := 0
  ls : Vector Word 2 := Vector.replicate 2 0
  le : Vector Word 2 := Vector.replicate 2 0
  lc : Vector Word 2 := Vector.replicate 2 0
  /-- Instant of the core reset from which CCNT counts, and the shadow of CCNT_HI (R257). -/
  ccntFrom : Nat := 0
  ccntShadow : Word := 0
  /-- Control registers 16–26 of the save sets L1–L7, DF, MON (R331), and the sets in use (bit v). -/
  saves : Vector (Vector Word 11) 9 := Vector.replicate 9 (Vector.replicate 11 0)
  inUse : BitVec 10 := 0
  ssel : Word := 0
  vbase : Word := 0xF00100
  lvlcfg : Word := 0x17
  gmctl : Word := 0
  /-- Instant from which the mask-overrun count counts (R328). -/
  gmFrom : Nat := 0
  store : List Posted := []
  out : List Outstanding := []
  /-- Errors of posted stores not yet raised: address and kind (R310). -/
  imprecise : List (Nat × Nat) := []
  lines : List Line := []
  /-- Branch-target entries: branch address and target, at index bits [11:4] of the branch (R303). -/
  btb : List (BitVec 24 × BitVec 24) := []
  returns : List (BitVec 24) := []
  /-- The instruction that has been replayed and not yet completed (R313); its step is about to execute again (R311). -/
  replayed : Option (BitVec 24) := none
  rerun : Bool := false
  /-- A monitor request that waits (R505); a step in progress and its level (R508); the next instruction does
  not match its breakpoint (R508). -/
  monReq : Bool := false
  stepAt : Option (BitVec 4) := none
  skipBp : Bool := false
  /-- C_STATUS.STEPPING (R508); a RESUME or STEP (`true`) that the monitor executes as soon as it is back at
  MON (R506). -/
  stepping : Bool := false
  resumeAsk : Option Bool := none
  deriving DecidableEq, Repr

/-- What a parity replay goes back to (R311, R312): the core before the first instruction of the step it is in, the values
of the step's register-region accesses, how many of them the present execution has made, and its posted stores. -/
structure Replay where
  start : Core := {}
  taken : List Nat := []
  used : Nat := 0
  posted : Nat := 0
  deriving DecidableEq, Repr

/-- A trace item (R519): market time in ns, core, KIND, FROM with the cause code, TO. -/
structure TraceItem where
  time : Nat
  core : Nat
  kind : Nat
  frm : Nat
  to_ : Nat
  deriving DecidableEq, Repr

/-- The debug island beyond its registers (chapter 19). -/
structure Debug where
  trace : List TraceItem := []
  traceGap : Bool := false
  /-- Monitor requests from the ring that wait, and kept responses by node (R511). -/
  queue : List RingMsg := []
  kept : List (Nat × Nat × List (BitVec 8)) := []
  /-- Causes of C_STATUS.CMD_REFUSED that persist: a HALT of a core that is down, a RESUME or STEP of one that is
  not halted (R505, R508). -/
  haltRefused : BitVec 4 := 0
  resumeRefused : BitVec 4 := 0
  /-- End of the lockout (R521). -/
  lockEnd : Nat := 0
  /-- The access of the system access port that has been asked for: a write or a read (R503). -/
  sap : Option Bool := none
  /-- The TAP (R500–R502): instruction register, update latches of the boundary register, the levels it captured
  last, the value the last DBGACC read returned, its ERR, and the end of a debug reset at power-up. -/
  ir : BitVec 5 := 2
  boundary : List Bool := []
  captured : List Bool := []
  accRead : Word := 0
  accErr : Bool := false
  upAt : Nat := 0
  deriving DecidableEq, Repr

/-- The flash descriptor in progress (R355–R358): its fields, the next line, the line data being programmed,
whether the operation has started, and its completion code with INDEX once the operation has ended. -/
structure FlashOp where
  op : Nat
  irq : Bool
  par : Bool
  count : Nat
  faddr : Nat
  src : Nat
  idx : Nat := 0
  started : Bool := false
  line : Option Nat := none
  result : Option (Nat × Nat) := none
  /-- The edge on which the descriptor was fetched and judged (R374). -/
  judgedAt : Nat := 0
  deriving DecidableEq, Repr

/-- A running or suspended erase of the main array (R362–R364): when it last began to run, a suspension that
has been asked for (from when it counts, by CMD.SUSPEND or not), and the instant the last waiting
read was served. -/
structure EraseRun where
  seq : Nat
  runFrom : Nat
  asked : Option Nat := none
  sw : Bool := false
  suspended : Bool := false
  served : Nat := 0
  /-- It runs again because the resume delay has run out (R374). -/
  delayed : Bool := false
  deriving DecidableEq, Repr

/-- A read or fetch waiting at a bank, or served and not yet taken (R352): initiator, line, fetch. -/
structure FlashWait where
  init : Nat
  line : Nat
  fetch : Bool
  served : Bool := false
  deriving DecidableEq, Repr

/-- The flash controller beyond its registers and its arrays (chapter 14). -/
structure Flash where
  cur : Option FlashOp := none
  erase : Option EraseRun := none
  waiting : List FlashWait := []
  /-- The four line buffers of the data view (R33 ff.). -/
  buffers : List Nat := []
  /-- Lines programmed with ones only: whether their check bits are all ones is not given (R349). -/
  ones : List Nat := []
  scrubLine : Nat := 0
  scrubAt : Nat := 0
  refresh : Option Nat := none
  deriving DecidableEq, Repr

/-- The FIFOs of an SPI or UART (R527, R528) and the frame last sent. -/
structure Serial where
  tx : List Word := []
  rx : List Word := []
  last : Option Word := none
  deriving DecidableEq, Repr

/-- A CAN controller beyond its registers (R529, R530): the receive FIFO, a recovery under way, the frame last
sent. -/
structure Can where
  rx : List CanFrame := []
  recovering : Bool := false
  last : Option CanFrame := none
  deriving DecidableEq, Repr

/-- An I²C controller beyond its registers (R532): the operations queued, the bytes read, the operation last
run. -/
structure Iic where
  queue : List Word := []
  rx : List (BitVec 8) := []
  last : Option Word := none
  deriving DecidableEq, Repr


/-- A write of a plain register on this edge (R71): its initiator, the register, the word written, the word before it and
the block's WIGN before it. -/
structure EdgeWrite where
  init : Nat
  place : Place
  value : Nat
  old : Word
  wign : Bool
  deriving DecidableEq, Repr

/-- What hardware has done on the edge `edge`: the counters that events have counted and the latched fields that events
have set, by register address and lowest bit; the writes of plain registers. A clear or a release on the same edge
leaves the first (R58, R72), and the last stand in the order of R71. -/
structure Happened where
  edge : Nat := 0
  marks : List (Nat × Nat) := []
  writes : List EdgeWrite := []
  deriving DecidableEq, Repr

/-- The state of the hall. -/
structure State where
  /-- Commands waiting, first in first out. -/
  pending : List Instr := []
  /-- Time since power-on in units of 1/6400 ns. -/
  now : Nat := 0
  /-- How many free values have been taken (model's own). -/
  free : Nat := 0
  /-- False once a user obligation without a stated outcome was broken (R21, R61; model's own). -/
  warranted : Bool := true
  /-- The register file: words that differ from their reset word. -/
  regs : List (Nat × Word) := []
  /-- Every memory, by data address. -/
  mem : List Host.Cell := []
  shadows : List Shadow := []
  /-- What has happened on the present edge (model's own). -/
  happened : Happened := {}
  /-- What each initiator's last register or memory read returned (R26). -/
  readData : Vector Word 16 := Vector.replicate 16 0
  /-- Corrected words waiting to be written back (R31). -/
  writeBack : List Nat := []
  options : Options := {}
  cellar : Cellar := {}
  crier : Crier := {}
  clock : MarketClock := {}
  aisle : Vector Aisle 3 := Vector.replicate 3 {}
  car : Vector Carrier 12 := Vector.replicate 12 {}
  leg : Vector Leg 48 := Vector.replicate 48 {}
  cmp : Vector Comparator 24 := Vector.replicate 24 {}
  cnv : Vector Converter 12 := Vector.replicate 12 {}
  eng : Vector Engine 12 := Vector.replicate 12 {}
  qep : Vector Qep 4 := Vector.replicate 4 {}
  trip : TripUnit := {}
  ring : Ring := {}
  ode : Ode := {}
  attic : Attic := {}
  core : Vector Core 4 := Vector.replicate 4 {}
  replay : Vector Replay 4 := Vector.replicate 4 {}
  dbg : Debug := {}
  flash : Flash := {}
  spi : Vector Serial 4 := Vector.replicate 4 {}
  uart : Vector Serial 2 := Vector.replicate 2 {}
  can : Vector Can 2 := Vector.replicate 2 {}
  iic : Vector Iic 2 := Vector.replicate 2 {}
  deriving DecidableEq, Repr

/-- Why a step can stop.  Nothing the spec describes stops this model: no meaning answers with it. -/
inductive Fault where
  /-- Raised by no meaning: every access to an address that does not exist ends in the bus error of R28
  and R34, which is an effect.  Safe. -/
  | addressSpace
  deriving DecidableEq, Repr

/-- Why a command has no meaning. -/
inductive Refusal where
  /-- A row of the table without a meaning; no arm of this model answers with it.  Safe. -/
  | notModelled (mnemonic : String)
  deriving DecidableEq, Repr

/-- The outcome of a meaning. -/
abbrev Result := Host.Outcome State Fault Refusal

/-- The hall right after power-on reset: every register at its Reset column (R19), memories with nothing
listed, no command waiting, the ledger entry of the power-on on its way (R399). -/
def State.reset : State :=
  { cellar := { queue := [{ time := 0x8000000000000000, type := 1, arg0 := 0, arg1 := 0, data := 0 }] } }

end Sys2Proof.Machine
end

