-- ==== Sys2Proof/Machine/Ops.lean ====
section
/-! DEFINITION. The shared operations over registers, memories, time, the crier and the ledger: every
meaning is written with them. -/

namespace Sys2Proof.Machine

/-! ### Time (R8, R22).  One unit is 1/6400 ns. -/

/-- One aisle or fabric cycle, 2.5 ns. -/
def ac : Nat := 16000
/-- One core cycle, 1.25 ns. -/
def cc : Nat := 8000
/-- One nanosecond. -/
def ns : Nat := 6400
/-- One microsecond. -/
def us : Nat := 6400000
/-- One cellar RC cycle, 62.5 ns nominal (R27). -/
def cellarCycle : Nat := 400000
/-- One period of the 32.768 kHz oscillator (R23). -/
def rtcPeriod : Nat := 195312500

/-- The first aisle or fabric edge at or after an instant, and the last one at or before it. -/
def edgeUp (t : Nat) : Nat := (t + (ac - 1)) / ac * ac
def edgeDown (t : Nat) : Nat := t / ac * ac

/-- An internal event falls at instant `t`: time has moved on to the last edge at or before it. -/
def State.atTime (s : State) (t : Nat) : State := { s with now := max s.now (edgeDown t) }

/-! ### Registers -/

/-- Do something for every index below `n`, in ascending order. -/
def State.forAll (s : State) (n : Nat) (act : State → Nat → State) : State := (List.range n).foldl act s

/-- The word a register holds. -/
def State.rd (s : State) (a : Nat) : Word := Sparse.get resetWordAt s.regs a

/-- Put a word into a register. -/
def State.wr (s : State) (a : Nat) (w : Word) : State :=
  { s with regs := Sparse.set resetWordAt s.regs a w }

/-- Every register from `lo` up to `hi` takes its Reset value (R19). -/
def State.clearRegs (s : State) (lo hi : Nat) : State :=
  { s with regs := s.regs.filter fun e => !(decide (lo ≤ e.1) && decide (e.1 < hi)) }

/-- A field of a register of the block instance based at `b`. -/
def State.getF (s : State) (b : Nat) (f : Fld) : Nat := bitsOf (s.rd (b + f.off)).toNat f.hi f.lo

/-- A one-bit field. -/
def State.getB (s : State) (b : Nat) (f : Fld) : Bool := s.getF b f != 0

/-- Bit `i` of a field. -/
def State.bit (s : State) (b : Nat) (f : Fld) (i : Nat) : Bool := (s.getF b f).testBit i

/-- A signed field (R10). -/
def State.getS (s : State) (b : Nat) (f : Fld) : Int := toSigned (f.hi + 1 - f.lo) (s.getF b f)

/-- Set a field. -/
def State.setF (s : State) (b : Nat) (f : Fld) (v : Nat) : State :=
  s.wr (b + f.off) (BitVec.ofNat 32 (setBitsOf (s.rd (b + f.off)).toNat f.hi f.lo v))

/-- Set a one-bit field. -/
def State.setB (s : State) (b : Nat) (f : Fld) (v : Bool) : State := s.setF b f (if v then 1 else 0)

/-- `n` with bit `i` set to `v`. -/
def withBit (n i : Nat) (v : Bool) : Nat :=
  if n.testBit i = v then n else if v then n + 2 ^ i else n - 2 ^ i

/-- Set bit `i` of a field. -/
def State.setBit (s : State) (b : Nat) (f : Fld) (i : Nat) (v : Bool) : State :=
  s.setF b f (withBit (s.getF b f) i v)

/-- The largest value of a field. -/
def Fld.max (f : Fld) : Nat := 2 ^ (f.hi + 1 - f.lo) - 1

/-- What has happened on this edge. -/
def State.onEdge (s : State) : Happened := if s.happened.edge = s.now then s.happened else { edge := s.now }

/-- An event counts in, or sets, the field `f` on this edge. -/
def State.mark (s : State) (b : Nat) (f : Fld) : State :=
  { s with happened := { s.onEdge with marks := (b + f.off, f.lo) :: s.onEdge.marks } }

/-- An event has counted in, or set, the field `f` on this edge. -/
def State.marked (s : State) (b : Nat) (f : Fld) : Bool :=
  s.happened.edge == s.now && s.happened.marks.contains (b + f.off, f.lo)

/-- An event adds to a counter that saturates at all ones (R58). -/
def State.countSat (s : State) (b : Nat) (f : Fld) (n : Nat := 1) : State :=
  (s.mark b f).setF b f (min (s.getF b f + n) f.max)

/-- An event adds to a counter that wraps (R58). -/
def State.countWrap (s : State) (b : Nat) (f : Fld) (n : Nat := 1) : State :=
  (s.mark b f).setF b f ((s.getF b f + n) % (f.max + 1))

/-- A counter is cleared; an event on the same edge leaves it at 1 (R58). -/
def State.clearCount (s : State) (b : Nat) (f : Fld) : State := s.setF b f (s.marked b f).toNat

/-- An event sets a latched field of one bit (R57). -/
def State.latch (s : State) (b : Nat) (f : Fld) : State := (s.mark b f).setB b f true

/-- A command releases a latched field of one bit; an event on the same edge is applied after it (R72). -/
def State.unlatch (s : State) (b : Nat) (f : Fld) : State := s.setB b f (s.marked b f)

/-! ### Balls that are synchronised and filtered (R111, R188, R342, R578) -/

/-- For how many further edges, `unit` apart, a two-stage synchroniser has shown a level that its ball has held for
`since`: it shows on the first edge at or after two periods (R578). -/
def shownFor (since unit : Nat) : Option Nat := if 2 * unit ≤ since then some ((since - 2 * unit) / unit) else none

/-- On this edge the synchronised line has held its level for `n` further edges, so that its filter passes it (R386). -/
def filterPasses (since unit n : Nat) : Bool := shownFor since unit == some n

/-- A filter that passes a level seen on `n` edges, `unit` apart, saw on the edge `last` the level that it passed then: it
passes the other one `n` edges later at the earliest (R404, R580). -/
def State.mayPass (s : State) (last : Option Nat) (unit n : Nat) : Bool := last.all fun e => e + n * unit ≤ s.now

/-- A glitch filter of length `n`, restarted on edge `frm`, passes the level on this edge: the synchronised line has held it
for `n` further edges (R111, R342). -/
def State.passes (s : State) (x : BallLevel) (unit n frm : Nat) : Bool :=
  match shownFor x.since unit with
  | some h => min h ((s.now - frm + (unit - 1)) / unit) == n
  | none => false

/-! ### Free values and broken obligations -/

/-- Take a free value (R21): the value, and the state that has moved on to the next. -/
def State.takeFree (s : State) : BitVec 64 × State :=
  (Config.freeValue s.free, { s with free := s.free + 1 })

/-- A user obligation without a stated outcome has been broken: the behaviour is not warranted (R21). -/
def State.unwarrant (s : State) : State := { s with warranted := false }

/-- A user obligation: `ok`, or the behaviour is not warranted from here on. -/
def State.must (s : State) (ok : Bool) : State := if ok then s else s.unwarrant

/-! ### Islands (R28, R49) -/

/-- An island is up; FABRIC_UP reads 1 whenever it can be read, so the fabric's state is where the reset sequence
stands. -/
def State.islandUp (s : State) : Island → Bool
  | .aisle a => s.bit SYS.base SYS.ISL_STATUS.AISLE_UP a
  | .core n => s.bit SYS.base SYS.ISL_STATUS.CORE_UP n
  | .fabric => s.cellar.phase == .up
  | .ring => s.getB SYS.base SYS.ISL_STATUS.RING_UP
  | .attic => s.getB SYS.base SYS.ISL_STATUS.ATTIC_UP
  | .cellar => s.cellar.power
  | .dbg => s.getB SYS.base SYS.ISL_STATUS.DEBUG_UP

/-- Take an island up or down; the fabric and the cellar follow the reset sequence and the supply. -/
def State.setIsland (s : State) (i : Island) (up : Bool) : State :=
  match i with
  | .aisle a => s.setBit SYS.base SYS.ISL_STATUS.AISLE_UP a up
  | .core n => s.setBit SYS.base SYS.ISL_STATUS.CORE_UP n up
  | .fabric => s
  | .ring => s.setB SYS.base SYS.ISL_STATUS.RING_UP up
  | .attic => s.setB SYS.base SYS.ISL_STATUS.ATTIC_UP up
  | .cellar => s
  | .dbg => s.setB SYS.base SYS.ISL_STATUS.DEBUG_UP up

/-- Is the hall running with this aisle up? -/
def State.aisleUp (s : State) (a : Nat) : Bool := s.islandUp (.aisle (Fin.ofNat 3 a))

/-! ### Memories (R29, R34) -/

/-- What a byte of memory that nothing has written reads as: erased flash and option copies read ones
(R348, R372); the rest read 0 (DESIGN CHOICE, log entry 3). -/
def memDefault (a : Nat) : BitVec 8 :=
  if 0x20000000 ≤ a ∧ a < 0x21000000 then 0xFF
  else if 0x49002000 ≤ a ∧ a < 0x49006000 then 0xFF
  else 0

/-- One byte of memory. -/
def State.byte (s : State) (a : Nat) : BitVec 8 := Sparse.get memDefault s.mem a

/-- Write one byte of memory. -/
def State.setByte (s : State) (a : Nat) (v : BitVec 8) : State :=
  { s with mem := Sparse.set memDefault s.mem a v }

/-- The memory's canonical form. -/
def Memory.wf (m : List Host.Cell) : Bool := Sparse.wf memDefault m

/-- `n` bytes at `a` as one number, the lowest address least significant. -/
def State.bytes (s : State) (a : Nat) : Nat → Nat
  | 0 => 0
  | n + 1 => (s.byte a).toNat + 256 * s.bytes (a + 1) n

/-- Write `n` bytes at `a`, least significant first. -/
def State.setBytes (s : State) (a : Nat) : Nat → Nat → State
  | 0, _ => s
  | n + 1, v => (s.setByte a (BitVec.ofNat 8 v)).setBytes (a + 1) n (v / 256)

/-- A 32-bit word of memory. -/
def State.mem32 (s : State) (a : Nat) : Nat := s.bytes a 4

/-- Write a list of 32-bit words from `a` upwards. -/
def State.setWords (s : State) (a : Nat) : List Nat → State
  | [] => s
  | w :: t => (s.setBytes a 4 w).setWords (a + 4) t

/-! ### The crier (R333–R341) -/

/-- The sources that exist: 1 to 186; the rest read 0 and never pend (R335, R345). -/
def sourceExists (n : Nat) : Bool := 1 ≤ n && n ≤ 186

/-- The bits of mask word `w` that stand for existing sources (R345). -/
def sourceMask (w : Nat) : Nat :=
  if w = 0 then 0xFFFFFFFE else if w < 5 then 0xFFFFFFFF else if w = 5 then 0x07FFFFFF else 0

/-- Bit of source `n` in a mask register. -/
def State.srcBit (s : State) (f : Fld) (n : Nat) : Bool := s.bit CRI.base (f.at (4 * (n / 32))) (n % 32)

def State.setSrcBit (s : State) (f : Fld) (n : Nat) (v : Bool) : State :=
  s.setBit CRI.base (f.at (4 * (n / 32))) (n % 32) v

/-- A source's pending bit is set, if the source exists (R336). -/
def State.pend (s : State) (n : Nat) : State :=
  if sourceExists n then s.setSrcBit CRI.PEND.BITS n true else s

/-- A pulse sets out for the crier; PULSE_SOURCE is its arrival (R336, R340). -/
def State.pulse (s : State) (n : Nat) : State :=
  { s with crier := { s.crier with launched := s.crier.launched ++ [n] } }

/-- A pulse that a bit of an IRQ_EN register gates. -/
def State.pulseIf (s : State) (c : Bool) (n : Nat) : State := if c then s.pulse n else s

/-! ### Market time and the ledger -/

/-- One ring cycle, 5.12 ns. -/
def ringCycle : Nat := 32768

/-- Market time at instant `t`, in units of 1/6400 ns: it runs with the reference, and a correction is removed
by at most 1/256 ns for each ring cycle (R437, R438). -/
def State.marketAt (s : State) (t : Nat) : Nat :=
  let e := t - s.clock.since
  let step : Int := 25 * ((e / ringCycle : Nat) : Int)
  let adj := if 0 ≤ s.clock.slew then min s.clock.slew step else max s.clock.slew (-step)
  ((((s.clock.base + e : Nat) : Int) + adj).toNat) % (2 ^ 64 * ns)

/-- Market time now. -/
def State.marketUnits (s : State) : Nat := s.marketAt s.now

/-- Market time in whole nanoseconds (R7). -/
def State.marketNs (s : State) : Nat := s.marketUnits / ns

/-- The instant, from now on, at which market time reaches `m` units: each round removes what the correction being
slewed has left of the error of the one before. -/
def State.marketInstant (s : State) (m : Nat) : Nat :=
  let step (t : Nat) : Nat := max s.now ((t : Int) + m - s.marketAt t).toNat
  step (step (step (step (step s.now))))

/-- The instant at which market time reaches `m` ns. -/
def State.marketReaches (s : State) (m : Nat) : Nat := s.marketInstant (m * ns)

/-- CEL.RTC: 32.768 kHz ticks since power-on (R409). -/
def State.rtc (s : State) : Nat := (s.now - s.cellar.powerOnAt) / rtcPeriod

/-- The TIME field of a ledger entry (R398). -/
def State.ledgerTime (s : State) : BitVec 64 :=
  if s.islandUp .ring then BitVec.ofNat 64 s.marketNs
  else BitVec.ofNat 64 (2 ^ 63 + s.rtc % 2 ^ 48)

/-- The ledger entry of an event of this edge (R398, R399). -/
def State.ledgerEntry (s : State) (type arg0 arg1 data : Nat) : LedgerEntry :=
  ⟨s.ledgerTime, BitVec.ofNat 8 type, BitVec.ofNat 8 arg0, BitVec.ofNat 16 arg1, BitVec.ofNat 32 data,
    (s.now + (cellarCycle - 1)) / cellarCycle⟩

/-- Entries stand in arrival order, those of one cellar edge in ascending TYPE (R400). -/
def queueEntry (e : LedgerEntry) : List LedgerEntry → List LedgerEntry
  | [] => [e]
  | y :: t => if y.edge = e.edge ∧ e.type < y.type then e :: y :: t else y :: queueEntry e t

/-- An entry enters the 16-entry ledger queue; one that finds it full is dropped and counted (R400). -/
def State.ledger (s : State) (type arg0 arg1 data : Nat) : State :=
  if s.cellar.queue.length < 16 then
    { s with cellar := { s.cellar with queue := queueEntry (s.ledgerEntry type arg0 arg1 data) s.cellar.queue } }
  else s.countSat CEL.base CEL.LEDGER_LOST.COUNT

/-- A pulse of a cellar source, each while its CEL.IRQ_EN bit is 1 (R408). -/
def State.celPulse (s : State) (n : Nat) : State := s.pulseIf (s.bit CEL.base CEL.IRQ_EN.SRC (n - 171)) n

/-! ### Engine health (R237, R239) -/

/-- ENG.FAULT.TRIP_REQ, the engine fault source of stall `e`. -/
def State.tripReq (s : State) (e : Nat) : Bool :=
  s.eng[Fin.ofNat 12 e].trips.any fun t => t ≤ s.now

/-- ENG.STATUS.HEALTHY. -/
def State.engHealthy (s : State) (e : Nat) : Bool :=
  s.getB (ENG.base e) ENG.CTRL.ENABLE && !s.tripReq e && !s.getB (ENG.base e) ENG.FAULT.ILLOP
    && !s.getB (STL.base e) STL.DBG.FREEZE

/-! ### The watchdogs (R406, R410, R517) -/

/-- The load value: TIMEOUT, where 0 acts as 1 (R410). -/
def State.wdtLoad (s : State) (n : Nat) : Nat := max 1 (s.getF (WDT.base n) WDT.TIMEOUT.TIMEOUT)

/-- The service window is open: COUNT ≤ WINDOW (R410). -/
def State.wdtOpen (s : State) (n : Nat) : Bool :=
  s.getF (WDT.base n) WDT.COUNT.COUNT ≤ s.getF (WDT.base n) WDT.WINDOW.WINDOW

/-- STATUS.OPEN follows COUNT and WINDOW. -/
def State.wdtStatus (s : State) (n : Nat) : State := s.setB (WDT.base n) WDT.STATUS.OPEN (s.wdtOpen n)

/-- COUNT takes the load value. -/
def State.wdtReload (s : State) (n : Nat) : State :=
  (s.setF (WDT.base n) WDT.COUNT.COUNT (s.wdtLoad n)).wdtStatus n

/-- The hall watchdog is frozen: DBGFRZ, a core at MON, the hall not armed (R406). -/
def State.hallFrozen (s : State) : Bool :=
  s.getB (WDT.base 4) WDT.CTRL.DBGFRZ
    && (List.range 4).any (fun n => s.islandUp (.core (Fin.ofNat 4 n)) && bitsOf s.core[Fin.ofNat 4 n].st.toNat 15 12 == 9)
    && s.getF CEL.base CEL.ARM_STATE.STATE < 2

/-- WDT[4].STATUS.FROZEN follows its cause from edge to edge; COUNT loads TIMEOUT on the edge on which it becomes 0
(R56, R517). -/
def State.frozenUpdate (s : State) : State :=
  let was := s.getB (WDT.base 4) WDT.STATUS.FROZEN
  let t := s.setB (WDT.base 4) WDT.STATUS.FROZEN s.hallFrozen
  if was && !s.hallFrozen then t.wdtReload 4 else t

/-! ### Bus errors (R28, R34–R36, R47, R51) -/

/-- The place of an initiator in the priority order of R42. -/
def portRank (init : Nat) : Nat := [9, 10, 11, 0, 1, 2, 3, 4, 5, 7, 6, 8, 15].idxOf init

/-- Record a bus error in SYS.BUSERR_ADDR and SYS.BUSERR_INFO: of two on one edge they describe the one whose initiator
stands later in R42, and both count (R51). -/
def State.busError (s : State) (init addr kind : Nat) (write : Bool) : State :=
  let older := s.marked SYS.base SYS.BUSERR_INFO.COUNT
    && decide (portRank init < portRank (s.getF SYS.base SYS.BUSERR_INFO.INITIATOR))
  let t := if older then s
    else (((s.setF SYS.base SYS.BUSERR_ADDR.ADDR addr).setF SYS.base SYS.BUSERR_INFO.INITIATOR init).setF
      SYS.base SYS.BUSERR_INFO.KIND kind).setB SYS.base SYS.BUSERR_INFO.WRITE write
  t.countSat SYS.base SYS.BUSERR_INFO.COUNT

/-- Does a 32-bit access to a register address reach its register?  0, or the KIND of its bus error:
an address no block implements (R34), or an island that is not up (R28). -/
def State.reach (s : State) (addr : Nat) : Nat :=
  match place addr with
  | none => 1
  | some p =>
    if s.islandUp p.island then
      match rowAt p.blk.map p.off with
      | none => 1
      | some _ => 0
    else 5

/-- A write by an initiator to a command register: it acts where it reaches the register, and ends in a
bus error where it does not (R28, R59). -/
def State.onCommand (s : State) (init addr : Nat) (act : State → State) : State :=
  if s.reach addr = 0 then act s else s.busError init addr (s.reach addr) true

/-- The same for a read: the value goes to the initiator. -/
def State.onRead (s : State) (init : Fin 16) (addr : Nat) (act : State → Word × State) : State :=
  if s.reach addr = 0 then
    let (v, t) := act s
    { t with readData := t.readData.set init v }
  else s.busError init addr (s.reach addr) false

/-! ### The cores -/

def State.coreAt (s : State) (c : Nat) : Core := s.core[Fin.ofNat 4 c]

def State.modCore (s : State) (c : Nat) (f : Core → Core) : State :=
  { s with core := s.core.set (Fin.ofNat 4 c) (f (s.coreAt c)) }

/-- Core `c` executes: its island is up. -/
def State.coreUp (s : State) (c : Nat) : Bool := s.islandUp (.core (Fin.ofNat 4 c))

/-! ### The status register (R255) -/

def Core.stF (x : Core) (hi lo : Nat) : Nat := bitsOf x.st.toNat hi lo
def Core.frm (x : Core) : Nat := x.stF 20 16
def Core.cl (x : Core) : Nat := x.stF 15 12
def Core.gm (x : Core) : Bool := x.st.getLsbD 10
def Core.sup (x : Core) : Bool := x.st.getLsbD 9
def Core.lk (x : Core) : Bool := x.st.getLsbD 8
def Core.la (x : Core) : Nat := x.stF 7 6
def Core.setSt (x : Core) (hi lo v : Nat) : Core := { x with st := BitVec.ofNat 32 (setBitsOf x.st.toNat hi lo v) }
def Core.setFrm (x : Core) (v : Nat) : Core := x.setSt 20 16 v

end Sys2Proof.Machine
end

