-- ==== Sys2Proof/Machine/Arming.lean ====
section
/-! DEFINITION. The arming state machine of the hall (R401–R405, R581). -/

namespace Sys2Proof.Machine

/-- 0 SAFE, 1 READY, 2 ARMED, 3 TRIPPED (R409). -/
def State.armState (s : State) : Nat := s.getF CEL.base CEL.ARM_STATE.STATE

/-- The hall is armed: ARMED or TRIPPED. -/
def State.armed (s : State) : Bool := 2 ≤ s.armState

/-- The ARMED ball follows the fabric state one fabric cycle later (R404). -/
def State.armedBall (s : State) : Bool :=
  if s.now < s.cellar.armAt + ac then 2 ≤ s.cellar.armPrev.toNat else s.armed

/-- What the pad ring drives on the ARMED ball: nothing while VDD_IO or VDD_CEL is absent (R380, R391). -/
def State.armedPad (s : State) : Option Bool :=
  if s.cellar.railsLow.getLsbD 2 || !s.cellar.power then none else some s.armedBall

/-- The state changes on this edge: the change sets out for the three aisles, source 171 pulses, and
ledger entry 0x0C is queued with the LAST_DISARM code of a disarm (R399, R404, R408); engine freezing ends
as the hall becomes armed (R241). -/
def State.setArm (s : State) (goal code : Nat) : State :=
  let frm := s.armState
  let t := s.setF CEL.base CEL.ARM_STATE.STATE goal
  let t := (List.range 12).foldl (fun u e =>
    if 2 ≤ goal && frm < 2 then u.setB (STL.base e) STL.DBG.FREEZE false
    else if goal < 2 then u.setB (STL.base e) STL.DBG.FRZ_REFUSED false else u) t
  let t := { t with aisle := t.aisle.map (fun a : Aisle => ({ a with armQueue := a.armQueue ++ [BitVec.ofNat 2 goal] } : Aisle)) }
  let t := { t with cellar := { t.cellar with armAt := t.now, armPrev := BitVec.ofNat 2 frm } }
  ((t.celPulse 171).ledger 0x0C (4 * frm + goal) code 0).frozenUpdate

/-- A list without the last element that is `x`. -/
def dropLastOf {α : Type} [DecidableEq α] (x : α) (l : List α) : List α := (l.reverse.erase x).reverse

/-- The arming state's change of this edge, from `goal` to the state it has, is taken back: the aisles, the pulse and the
ledger entry with it; the change before it was at `at_`, from `prev`. -/
def State.takeBackArm (s : State) (goal at_ : Nat) (prev : BitVec 2) : State :=
  let e := s.ledgerEntry 0x0C (4 * goal + s.armState) (if s.armState = 0 then s.getF CEL.base CEL.ARM_STATE.LAST_DISARM else 0) 0
  let t := s.setF CEL.base CEL.ARM_STATE.STATE goal
  let t := { t with aisle := t.aisle.map (fun a : Aisle => ({ a with armQueue := a.armQueue.dropLast } : Aisle)) }
  let t := if t.bit CEL.base CEL.IRQ_EN.SRC 0 then
      { t with crier := { t.crier with launched := dropLastOf 171 t.crier.launched } } else t
  { t with cellar := { t.cellar with armAt := at_, armPrev := prev, queue := dropLastOf e t.cellar.queue } }

/-- A key that armed the hall on this edge did not advance it after all: the hall is READY, the key is refused, and
what arming changed is as before (R74, R405). -/
def State.unarm (s : State) : State :=
  match s.cellar.keyArm with
  | none => s
  | some k =>
    if k.edge = s.now ∧ s.armState = 2 then
      let t := ((s.takeBackArm 1 k.armAt k.armPrev).setF CEL.base CEL.ARM_CNT.ARMS k.arms).setB CEL.base
        CEL.ARM_STATE.REFUSED true
      let t := k.frozen.foldl (fun u e => u.setB (STL.base e) STL.DBG.FREEZE true) t
      let t := { t with cellar := { t.cellar with keyArm := none } }
      (t.setF (WDT.base 4) WDT.COUNT.COUNT k.count).wdtStatus 4
    else s

/-- A return to SAFE with a LAST_DISARM code (R403); several causes on one edge record the lowest. Codes 1 to 6 are
the causes of R404, whose edge is kept; against them a key of the same edge does not reach ARMED. -/
def State.disarm (s : State) (code : Nat) : State :=
  let s := if code < 7 then { s.unarm with cellar := { s.unarm.cellar with disarmAt := some s.now } } else s
  if s.armState = 0 then
    if s.cellar.armAt = s.now ∧ s.cellar.armPrev ≠ 0 ∧ code < s.getF CEL.base CEL.ARM_STATE.LAST_DISARM then
      let record (e : LedgerEntry) : LedgerEntry :=
        if e.type = 0x0C ∧ e.edge = (s.ledgerEntry 0 0 0 0).edge then { e with arg1 := BitVec.ofNat 16 code } else e
      { s.setF CEL.base CEL.ARM_STATE.LAST_DISARM code with
        cellar := { s.cellar with queue := s.cellar.queue.map record } }
    else s
  else
    let t := if s.armed then s.countSat CEL.base CEL.ARM_CNT.DISARMS else s
    let t := (t.setF CEL.base CEL.ARM_STATE.LAST_DISARM code).setB CEL.base CEL.STATUS.RST_REFUSED false
    t.setArm 0 code

/-- The five arming conditions as the hall stands (R401). -/
def State.condition (s : State) (k : Nat) : Bool :=
  match k with
  | 0 => (List.range 12).all fun e =>
      !s.getB (ENG.base e) ENG.CTRL.ENABLE || s.engHealthy e
  | 1 => !s.getB TRP.base TRP.STATUS.MKT_IN
  | 2 => s.cellar.safeN
  | 3 => !s.getB TRP.base TRP.STATUS.LATCHED
  | _ => s.getB SYS.base SYS.CLK_STATUS.FABRIC_LOCK && !s.getB CEL.base CEL.STATUS.PFAIL
      && (List.range 3).all fun a => !s.options.aisleEn.getLsbD a ||
          (s.bit SYS.base SYS.CLK_STATUS.AISLE_LOCK a && s.aisleUp a)

/-- The clock part of CLK_OK: everything but PFAIL_N (R404 cause 5). -/
def State.clocksFine (s : State) : Bool :=
  s.getB SYS.base SYS.CLK_STATUS.FABRIC_LOCK
    && (List.range 3).all fun a => !s.options.aisleEn.getLsbD a ||
        (s.bit SYS.base SYS.CLK_STATUS.AISLE_LOCK a && s.aisleUp a)

/-- READY ends with its window or because a group latched; what a key of the same edge needs is kept. -/
def State.endReady (s : State) (latched : Bool) : State :=
  let r : ReadyEnd := ⟨s.now, s.getF CEL.base CEL.ARM_STATE.LAST_DISARM, s.cellar.armAt, s.cellar.armPrev, latched⟩
  let t := s.disarm 7
  { t with cellar := { t.cellar with readyEnd := some r } }

/-- COND bit `k` takes the condition's value; in READY a bit that falls ends the state, a key of the same edge is
refused unless the bit is NO_LATCH (R405), and a clock failure disarms in every state (R402, R404, R581). -/
def State.condUpdate (s : State) (k : Nat) : State :=
  let v := s.condition k
  let was := s.bit CEL.base CEL.ARM_STATE.COND k
  let t := s.setBit CEL.base CEL.ARM_STATE.COND k v
  if was && !v then
    if k = 4 ∧ !t.clocksFine then t.disarm 5
    else if k = 3 then (if t.armState = 1 then t.endReady true else t)
    else if t.unarm.armState = 1 then t.unarm.disarm 7 else t
  else t

/-- Every COND bit is 1. -/
def State.condAll (s : State) : Bool := s.getF CEL.base CEL.ARM_STATE.COND = 31

/-- TRP.STATUS.LATCHED has taken a value: ARMED goes to TRIPPED and back, NO_LATCH follows (R402). -/
def State.followLatch (s : State) : State :=
  let l := s.getB TRP.base TRP.STATUS.LATCHED
  let t := s.condUpdate 3
  if l ∧ t.armState = 2 then t.setArm 3 0
  else if !l ∧ t.armState = 3 then t.setArm 2 0
  else t

/-- A write of 0xC0DE on the edge on which READY ended with its window or because a group latched finds READY still
(R72, R73, R405). -/
def State.readyAgain (s : State) : State :=
  match s.cellar.readyEnd with
  | some r =>
    if r.edge = s.now ∧ s.armState = 0 ∧ s.cellar.disarmAt ≠ some s.now then
      (s.takeBackArm 1 r.armAt r.armPrev).setF CEL.base CEL.ARM_STATE.LAST_DISARM r.last
    else s
  | none => s

/-- Every COND bit is 1 before this edge's latching of a group, which comes after a write (R72, R405). -/
def State.condBefore (s : State) : Bool :=
  s.condAll || (s.getF CEL.base CEL.ARM_STATE.COND = 23 &&
    s.cellar.readyEnd.any fun r => r.edge == s.now && r.latched)

/-- A write to ARM_KEY (R402, R403, R405); a bit above KEY makes it do nothing (R60). A cause of disarming on the same
edge takes the hall to SAFE, so that no key advances it there. -/
def State.armKey (s : State) (init value : Nat) : State :=
  if value / 65536 ≠ 0 then s
  else
    let s := if value = 0xC0DE then s.readyAgain else s
    let fine := s.condBefore
    let s := { s with cellar := { s.cellar with readyEnd := none } }
    let refuse (t : State) := t.setB CEL.base CEL.ARM_STATE.REFUSED true
    let accept (t : State) := t.setB CEL.base CEL.ARM_STATE.REFUSED false
    if s.armState = 0 then
      if value = 0x5A1E ∧ s.condAll ∧ s.cellar.disarmAt ≠ some s.now then
        let win := max 1 (s.getF CEL.base CEL.ARM_CFG.WIN)
        let t := { s with cellar := { s.cellar with keyBy := init, keyUntil := s.now + win * us } }
        (accept t).setArm 1 0
      else refuse s
    else if s.armState = 1 then
      if value = 0xC0DE ∧ init = s.cellar.keyBy ∧ s.now ≤ s.cellar.keyUntil ∧ fine then
        let k : KeyArm := ⟨s.now, s.getF CEL.base CEL.ARM_CNT.ARMS, s.getF (WDT.base 4) WDT.COUNT.COUNT,
          (List.range 12).filter fun e => s.getB (STL.base e) STL.DBG.FREEZE, s.cellar.armAt, s.cellar.armPrev⟩
        let t := { s with cellar := { s.cellar with keyArm := some k } }
        (((accept t).countSat CEL.base CEL.ARM_CNT.ARMS).setArm 2 0).followLatch
      else (refuse s).disarm 7
    else refuse s

/-- ARM_KEY_READY: a write of ARM_KEY, the first of the two (R402). -/
def execArmKeyReady (init : Fin 16) (value : Word) (s : State) : Result :=
  .next (s.onCommand init (CEL.base + CEL.ARM_KEY.KEY.off) fun t => t.armKey init value.toNat)

/-- ARM_KEY_ARM: a write of ARM_KEY, the second (R402). -/
def execArmKeyArm (init : Fin 16) (value : Word) (s : State) : Result :=
  .next (s.onCommand init (CEL.base + CEL.ARM_KEY.KEY.off) fun t => t.armKey init value.toNat)

/-- ARM_WINDOW_EXPIRY: WIN runs out in READY (R402). -/
def execArmWindowExpiry (s : State) : Result :=
  .next (if s.armState = 1 then (s.atTime s.cellar.keyUntil).endReady false else s)

/-- COND_CHANGE: arming condition `k` crosses into the fabric (R581). -/
def execCondChange (k : Fin 5) (s : State) : Result := .next (s.condUpdate k)

/-- DISARM: CEL.ARM_CMD.DISARM (R404 cause 1). -/
def execDisarm (init : Fin 16) (s : State) : Result :=
  .next (s.onCommand init (CEL.base + CEL.ARM_CMD.DISARM.off) fun t => t.disarm 1)

/-- Both ARM_CNT counts to 0 (R58, R409). -/
def State.armCntClr (s : State) : State :=
  (s.clearCount CEL.base CEL.ARM_CNT.ARMS).clearCount CEL.base CEL.ARM_CNT.DISARMS

/-- ARM_CNT_CLR (R409). -/
def execArmCntClr (init : Fin 16) (s : State) : Result :=
  .next (s.onCommand init (CEL.base + CEL.ARM_CMD.CNT_CLR.off) fun t =>
    t.armCntClr)

/-- A write of ARM_CMD runs its bits in ascending order (R60). -/
def State.armCmd (s : State) (v : Nat) : State :=
  if v / 4 ≠ 0 then s
  else
    let s := if v.testBit 0 then s.disarm 1 else s
    if v.testBit 1 then s.armCntClr else s

/-- SAFE_N passes its filter at a level, which the filter has seen on 8 fabric edges. -/
def State.safeTakes (s : State) (v : Bool) : State :=
  ({ s with cellar := { s.cellar with safeN := v, safeAt := some s.now } }).setBit CEL.base CEL.ARM_STATE.COND 2 v

/-- SAFE_N_LOW: SAFE_N has been read low on 8 fabric edges, the last this one; it disarms (R404 cause 2). -/
def execSafeNLow (s : State) : Result :=
  .next (if s.cellar.safeN && s.mayPass s.cellar.safeAt ac 8 then (s.safeTakes false).disarm 2 else s)

/-- SAFE_N_HIGH: SAFE_N has been read high on 8 fabric edges, the last this one (R404). -/
def execSafeNHigh (s : State) : Result :=
  .next (if !s.cellar.safeN && s.mayPass s.cellar.safeAt ac 8 then s.safeTakes true else s)

end Sys2Proof.Machine
end

