-- ==== Sys2Proof/Machine/CoreDecode.lean ====
section
/-! DEFINITION. The encodings of the core's instructions (R277–R282), what the frame of an instruction has to know of it,
and the line buffers that hold program words (R299–R302). -/

namespace Sys2Proof.Machine

/-! ### Words (R277–R282) -/

/-- The payload of an EXT prefix, if the instruction has one. -/
abbrev Ext := Option (BitVec 12)

/-- Words of an instruction whose own word is one word long. -/
def extLen (e : Ext) : Nat := 1 + e.isSome.toNat

/-- The width code of LD and ST (R281). -/
def widthCode (e : Ext) : Nat := bitsOf (e.getD 0).toNat 11 9

/-- The fields of a word: the opcode, and fields d (c of a LOOP) and s (disp4, sub of the unary group). -/
def opcode (w : BitVec 14) : Nat := bitsOf w.toNat 13 8
def fieldD (w : BitVec 14) : Fin 16 := Fin.ofNat 16 (bitsOf w.toNat 7 4)
def fieldS (w : BitVec 14) : Fin 16 := Fin.ofNat 16 (bitsOf w.toNat 3 0)

/-- The first word of an instruction of two words: CALL or EXT. -/
def twoWords (w : BitVec 14) : Bool := 0x2C ≤ opcode w

/-- The unary group, opcode 0x2A (R279); sub-codes 14 and 15 are illegal. -/
def decodeUnary (c : Fin 4) (d : Fin 16) (sub : Nat) : Option Instr :=
  match sub with
  | 0 => some (.xNot c d) | 1 => some (.xNeg c d) | 2 => some (.xAbs c d) | 3 => some (.xSextb c d)
  | 4 => some (.xSexth c d) | 5 => some (.xZextb c d) | 6 => some (.xZexth c d) | 7 => some (.xClz c d)
  | 8 => some (.xDadj c d) | 9 => some (.xD2b c d) | 10 => some (.xB2d c d) | 11 => some (.xJmp c d)
  | 12 => some (.xCallr c d) | 13 => some (.xBmov c d {} {}) | _ => none

/-- The system group, opcode 0x2B (R280); every other sub-code is illegal. -/
def decodeSystem (c : Fin 4) (sub : Nat) : Option Instr :=
  match sub with
  | 0x00 => some (.xNop c) | 0x01 => some (.xRet c) | 0x02 => some (.xReti c) | 0x03 => some (.xSyncp c)
  | 0x04 => some (.xSpill c []) | 0x05 => some (.xFill c []) | 0x06 => some (.xLpop c) | 0x07 => some (.xWait c)
  | _ =>
    if 0x10 ≤ sub ∧ sub < 0x18 then some (.xLock c (Fin.ofNat 8 sub))
    else if 0x40 ≤ sub ∧ sub < 0x80 then some (.xTrap c (Fin.ofNat 64 sub))
    else none

/-- The opcodes that an EXT can prefix (R281): Bcc and BRA, LD, ST, the immediate forms, MFC, MTC, the two LOOPs. -/
def prefixable (op : Nat) : Bool := op < 0x08 || (0x1E ≤ op && op ≤ 0x29)

/-- The instruction that an opcode below 0x2C picks (R278), with the payload of its prefix. -/
def decodeOwn (c : Fin 4) (w : BitVec 14) (e : Ext) : Option Instr :=
  let d := fieldD w
  let n := fieldS w
  let f : BitVec 4 := w.extractLsb' 0 4
  match opcode w with
  | 0x08 => some (.xMov c d n) | 0x09 => some (.xAdd c d n) | 0x0A => some (.xSub c d n) | 0x0B => some (.xCmp c d n)
  | 0x0C => some (.xAnd c d n) | 0x0D => some (.xOr c d n) | 0x0E => some (.xXor c d n) | 0x0F => some (.xShl c d n)
  | 0x10 => some (.xShr c d n) | 0x11 => some (.xAsr c d n) | 0x12 => some (.xMul c d n) | 0x13 => some (.xQmul c d n)
  | 0x14 => some (.xQmac c d n) | 0x15 => some (.xDivs c d n) | 0x16 => some (.xDivu c d n)
  | 0x17 => some (.xDadd c d n) | 0x18 => some (.xDaddC c d n) | 0x19 => some (.xDsub c d n)
  | 0x1A => some (.xDsubC c d n) | 0x1B => some (.xDcmp c d n) | 0x1C => some (.xVmac c d n {} {})
  | 0x1D => some (.xBcrc c d n {}) | 0x1E => some (.xLd c d n e {}) | 0x1F => some (.xSt c d n e {})
  | 0x20 => some (.xMovi c d f e) | 0x21 => some (.xAddi c d f e) | 0x22 => some (.xMovhi c d f e)
  | 0x23 => some (.xShli c d f e) | 0x24 => some (.xShri c d f e) | 0x25 => some (.xAsri c d f e)
  | 0x26 => some (.xMfc c d n e) | 0x27 => some (.xMtc c d n e) | 0x28 => some (.xLoop c d f e)
  | 0x29 => some (.xLoopImm c (w.extractLsb' 4 4) f e)
  | 0x2A => decodeUnary c d n.val
  | 0x2B => decodeSystem c (bitsOf w.toNat 7 0)
  | _ =>
    if h : bitsOf w.toNat 10 8 < 7 then some (.xBcc c ⟨_, h⟩ (w.extractLsb' 0 8) e)
    else some (.xBra c (w.extractLsb' 0 8) e)

/-- The instruction that a word `w` and the word `v` after it make; `none` for an illegal sub-code, and for an EXT before
a word that it cannot prefix (R282). -/
def decodeInsn (c : Fin 4) (w v : BitVec 14) : Option Instr :=
  if opcode w < 0x2C then decodeOwn c w none
  else if opcode w < 0x30 then some (.xCall c (w.extractLsb' 0 10 ++ v))
  else if prefixable (opcode v) then decodeOwn c v (some (w.extractLsb' 0 12))
  else none

/-! ### What the frame has to know of an instruction -/

/-- Its length in words, whether an EXT word is its first, whether it is one of those that R258, R263 and R265 exclude,
the registers it reads; whether it is a load or store, and the registers that it loads. -/
structure Insn where
  len : Nat := 1
  ext : Bool := false
  special : Bool := false
  reads : List Nat := []
  access : Bool := false
  loads : List Nat := []

/-- Registers of an access: the pair of a 64-bit one. -/
def accessRegs (d : Nat) (e : Ext) : List Nat := if widthCode e = 5 then [d, d + 1] else [d]

/-- The frame of each instruction. -/
def insnOf : Instr → Insn
  | .xBcc _ _ _ e | .xBra _ _ e | .xLoopImm _ _ _ e => { len := extLen e, ext := e.isSome, special := true }
  | .xLoop _ n _ e => { len := extLen e, ext := e.isSome, special := true, reads := [n] }
  | .xCall _ _ => { len := 2, special := true }
  | .xJmp _ n | .xCallr _ n => { special := true, reads := [n] }
  | .xRet _ => { special := true, reads := [7] }
  | .xReti _ | .xTrap _ _ | .xLpop _ | .xLock _ _ | .xSyncp _ | .xSpill _ _ | .xFill _ _ => { special := true }
  | .xBmov _ n _ _ => { special := true, reads := [n, n + 1, n + 2] }
  | .xVmac _ d n _ _ => { special := true, reads := [d, d + 1, n, n + 1, n + 2] }
  | .xBcrc _ d n _ => { special := true, reads := [d, n, n + 1] }
  | .xMov _ _ n => { reads := [n] }
  | .xMovi _ _ _ e | .xMfc _ _ _ e => { len := extLen e, ext := e.isSome }
  | .xMovhi _ d _ e | .xAddi _ d _ e | .xShli _ d _ e | .xShri _ d _ e | .xAsri _ d _ e | .xMtc _ d _ e =>
    { len := extLen e, ext := e.isSome, reads := [d] }
  | .xAdd _ d n | .xSub _ d n | .xCmp _ d n | .xAnd _ d n | .xOr _ d n | .xXor _ d n | .xShl _ d n | .xShr _ d n
  | .xAsr _ d n | .xMul _ d n | .xQmul _ d n | .xDivs _ d n | .xDivu _ d n | .xDadd _ d n | .xDaddC _ d n
  | .xDsub _ d n | .xDsubC _ d n | .xDcmp _ d n => { reads := [d, n] }
  | .xQmac _ d n => { reads := [d, d + 1, n, n + 1] }
  | .xNot _ d | .xNeg _ d | .xAbs _ d | .xSextb _ d | .xSexth _ d | .xZextb _ d | .xZexth _ d | .xClz _ d | .xDadj _ d
  | .xD2b _ d | .xB2d _ d => { reads := [d] }
  | .xLd _ d n e _ => { len := extLen e, ext := e.isSome, reads := [n], access := true, loads := accessRegs d e }
  | .xSt _ d n e _ => { len := extLen e, ext := e.isSome, reads := n :: accessRegs d e, access := true }
  | _ => {}

/-! ### The line buffers (R40, R41, R299–R304) -/

/-- A program address may be fetched (R40, R41). -/
def Core.mayFetch (x : Core) (a : Nat) : Bool :=
  a < 0x800000 || (0xC00000 ≤ a && a < 0xC10000) || (0xF00000 ≤ a && a < 0xF08000 && x.sup)
    || (0xF08000 ≤ a && a < 0xF10000 && x.cl = 9)

/-- What a buffer holds for a program address; `none` where no buffer holds its line. -/
def Core.buffered (x : Core) (a : Nat) : Option Fetched :=
  (x.lines.find? fun l => l.addr == a / 16).map fun l => l.words.getD (a % 16) .rom

/-- The lines that hold LS of the active loop levels stay in their buffers (R304). -/
def Core.pins (x : Core) : List Nat := (List.range x.la).map fun v => x.ls[Fin.ofNat 2 v].toNat % 2 ^ 24 / 16

/-- A line takes a buffer: the least recently used one that is not pinned makes room (R299). -/
def Core.takeLine (x : Core) (l : Line) : Core :=
  let rest := x.lines.filter fun y => y.addr != l.addr
  if rest.length < 8 then { x with lines := rest ++ [l] }
  else match rest.find? fun y => !x.pins.contains y.addr with
    | some y => { x with lines := rest.erase y ++ [l] }
    | none => { x with lines := rest ++ [l] }

/-- The line that holds a program address has been used: it is the last to be replaced (R299). -/
def Core.useLine (x : Core) (a : Nat) : Core :=
  match x.lines.find? fun l => l.addr == a / 16 with
  | some l => { x with lines := x.lines.erase l ++ [l] }
  | none => x

/-- A line that the core fetches ahead: the line of PC, up to two sequential lines after it, a line that the branch-target
buffer steers to, a pinned one (R274, R299). -/
def Core.fetchesLine (x : Core) (line : Nat) : Bool :=
  (List.range 3).any (fun k => (x.pc.toNat / 16 + k) % 2 ^ 20 == line)
    || x.btb.any (fun e => e.2.toNat / 16 == line) || x.pins.contains line

/-- The uncorrectable error of a buffered flash line has been recorded (R302, R351). -/
def Core.recorded (x : Core) (line : Nat) : Core :=
  { x with lines := x.lines.map fun l =>
      if l.addr == line then { l with words := l.words.map fun w => if w = .lost then .bad 0x06 else w } else l }

end Sys2Proof.Machine
end

