-- ==== Sys2Proof/Machine/Crier.lean ====
section
/-! DEFINITION. The crier: pending, claiming and completing interrupt sources (R333–R347). -/

namespace Sys2Proof.Machine

/-- Source `n` is active: a handler holds it (R333). -/
def State.srcActive (s : State) (n : Nat) : Bool := s.srcBit CRI.ACTIVE.BITS n

/-- Source `n` is offered to core `c` at level `v`, from the next edge on where a COMPLETE has held it off (R333, R341). -/
def State.offering (s : State) (c v n : Nat) : Bool :=
  s.getB CRI.base CRI.CTRL.ENABLE && sourceExists n && s.srcBit CRI.EN.EN n && s.srcBit CRI.PEND.BITS n
    && !s.srcActive n && v != 0
    && s.getF CRI.base (CRI.ROUTE.CORE.at (4 * n)) == c && s.getF CRI.base (CRI.ROUTE.LVL.at (4 * n)) == v

/-- Source `n` is offered to core `c` at level `v` (R333, R339, R341). -/
def State.offered (s : State) (c v n : Nat) : Bool :=
  s.offering c v n && !(s.crier.heldAt == s.now && s.crier.heldOff.contains n)

/-- The lowest-numbered source offered to `c` at `v`, 0 if none (R338). -/
def State.winner (s : State) (c v : Nat) : Nat :=
  ((List.range 187).find? fun n => s.offered c v n).getD 0

/-- The request core `c` sees at level `v` (R340). -/
def State.request (s : State) (c v : Nat) : Bool := s.winner c v != 0

/-- The request of level `v` as core `c` takes it: its own COMPLETE is acknowledged after the edge that offers a source
anew, so that a RETI behind it chains on that source (R340). -/
def State.requestSeen (s : State) (c v : Nat) : Bool := (List.range 187).any fun n => s.offering c v n

/-- A request that ends a WAIT: an asynchronous source above CL, or a monitor request (R295). -/
def State.wakes (s : State) (c : Nat) : Bool :=
  let x := s.coreAt c
  x.monReq || (List.range 8).any fun v => x.cl < v && s.requestSeen c v

/-- The cores whose WAIT a pending request has ended; what clears requests looks here first (R295). -/
def State.wakeAll (s : State) : State :=
  s.forAll 4 fun t c => if (t.coreAt c).waiting && t.wakes c then t.modCore c fun x => { x with waiting := false } else t

/-- CRI.REQ[c]: bit v is the request of level v (R346). -/
def State.criReq (s : State) (c : Nat) : Nat :=
  (List.range 8).foldl (fun n v => if 1 ≤ v && s.request c v then n + 2 ^ v else n) 0

/-- A level source asserted and not active sets its pending bit (R336). -/
def State.levelPend (s : State) (n : Nat) : State :=
  if s.srcBit CRI.LINE.BITS n && !s.srcActive n then s.pend n else s

/-- A level source's line changes (R336); one that falls on the edge of its COMPLETE has not pended again (R344). -/
def State.setLine (s : State) (n : Nat) (v : Bool) : State :=
  if sourceExists n then
    let s := if !v && s.crier.heldAt == s.now && s.crier.repended.contains n && !s.srcActive n then
        s.setSrcBit CRI.PEND.BITS n false else s
    (s.setSrcBit CRI.LINE.BITS n v).levelPend n
  else s

/-- Apply to every source that a mask word names. -/
def State.overMask (s : State) (w mask : Nat) (act : State → Nat → State) : State :=
  (List.range 32).foldl
    (fun t b => if (mask % 2 ^ 32).testBit b && (sourceMask w).testBit b then act t (32 * w + b) else t) s

/-- PEND_SET (R337). -/
def State.criPendSet (s : State) (w mask : Nat) : State := s.overMask w mask State.pend

/-- PEND_CLR: a level source still asserted and not active stays pending (R337). -/
def State.criPendClr (s : State) (w mask : Nat) : State :=
  s.wakeAll.overMask w mask fun t n => (t.setSrcBit CRI.PEND.BITS n false).levelPend n

def State.criEnSet (s : State) (w mask : Nat) : State :=
  s.overMask w mask fun t n => t.setSrcBit CRI.EN.EN n true

def State.criEnClr (s : State) (w mask : Nat) : State :=
  s.wakeAll.overMask w mask fun t n => t.setSrcBit CRI.EN.EN n false

/-- A read of CLAIM[c][v]: the number, and the claim itself where core `c` reads without the peek
attribute (R338). -/
def State.criClaim (s : State) (init c v : Nat) (peek : Bool) : Word × State :=
  let n := s.winner c v
  if n = 0 ∨ init ≠ c ∨ peek then (BitVec.ofNat 32 n, s)
  else
    (BitVec.ofNat 32 n,
      (((s.setSrcBit CRI.PEND.BITS n false).setSrcBit CRI.ACTIVE.BITS n true).setF CRI.base
        (CRI.ROUTE.ACT_CORE.at (4 * n)) c).setF CRI.base (CRI.ROUTE.ACT_LVL.at (4 * n)) v)

/-- Source `n` becomes inactive and is first offered on the next fabric edge if it pends (R339). -/
def State.criRelease (s : State) (n : Nat) : State :=
  let t := ((s.setSrcBit CRI.ACTIVE.BITS n false).setF CRI.base (CRI.ROUTE.ACT_LVL.at (4 * n)) 0).levelPend n
  let same := t.crier.heldAt = t.now
  let again := if t.srcBit CRI.PEND.BITS n && !s.srcBit CRI.PEND.BITS n then [n] else []
  { t with crier := { t.crier with
    heldOff := n :: (if same then t.crier.heldOff else [])
    repended := again ++ (if same then t.crier.repended else []), heldAt := t.now } }

/-- A write of `n` to COMPLETE[c][v] by `init` (R339); a bit above SRC makes it do nothing (R60). -/
def State.criComplete (s : State) (init c v value : Nat) : State :=
  if value / 256 ≠ 0 then s
  else
    let n := value
    if sourceExists n && s.srcActive n && s.getF CRI.base (CRI.ROUTE.ACT_CORE.at (4 * n)) == c
        && s.getF CRI.base (CRI.ROUTE.ACT_LVL.at (4 * n)) == v then s.criRelease n
    else
      (((s.setF CRI.base CRI.CPL_ERR.SRC n).setF CRI.base CRI.CPL_ERR.LVL v).setF
        CRI.base CRI.CPL_ERR.INITIATOR init).countSat CRI.base CRI.CPL_ERR.COUNT

/-- A core reset makes every source claimed by the core inactive (R334). -/
def State.criCoreReset (s : State) (c : Nat) : State :=
  (List.range 187).foldl
    (fun t n =>
      if t.srcActive n && t.getF CRI.base (CRI.ROUTE.ACT_CORE.at (4 * n)) == c then
        ((t.setSrcBit CRI.ACTIVE.BITS n false).setF CRI.base (CRI.ROUTE.ACT_LVL.at (4 * n)) 0).levelPend n
      else t) s

/-- A write of DOORBELL pulses the named doorbell sources on its completing edge (R343). -/
def State.criDoorbell (s : State) (value : Nat) : State :=
  if value / 256 ≠ 0 then s
  else (List.range 8).foldl (fun t d => if value.testBit d then t.pend (179 + d) else t) s

/-- A write of EXT_CFG[i]: the filter restarts and keeps the level it has passed, which is the line of a level source; a
line that no longer makes a level source reads 0 (R342). -/
def State.criExtCfg (s : State) (i value : Nat) : State :=
  let old := s.rd (CRI.base + (CRI.EXT_CFG.W.at (4 * i)).off)
  let reserved := bitsOf old.toNat 31 19 ≠ bitsOf value 31 19 ∨ bitsOf old.toNat 15 11 ≠ bitsOf value 15 11
  let t := (s.must (!decide reserved)).setF CRI.base (CRI.EXT_CFG.W.at (4 * (i % 8))) value
  let t := { t with crier := { t.crier with
    extFresh := t.crier.extFresh ||| BitVec.ofNat 8 (2 ^ i), extFrom := t.crier.extFrom.set (Fin.ofNat 8 i) t.now } }
  let m := bitsOf value 18 16
  if m = 3 then t.setLine (101 + i % 8) (t.crier.extLevel.getLsbD i)
  else if m = 4 then t.setLine (101 + i % 8) (!t.crier.extLevel.getLsbD i)
  else t.setSrcBit CRI.LINE.BITS (101 + i % 8) false

/-- The EXTINT filter passes a level (R342). -/
def State.criExtPass (s : State) (i : Nat) (level : Bool) : State :=
  let was := s.crier.extLevel.getLsbD i
  let fresh := s.crier.extFresh.getLsbD i
  let put (b : BitVec 8) (v : Bool) : BitVec 8 := BitVec.ofNat 8 (withBit b.toNat i v)
  let t := { s with crier := { s.crier with extLevel := put s.crier.extLevel level, extFresh := put s.crier.extFresh false } }
  let m := s.getF CRI.base (CRI.EXT_CFG.MODE.at (4 * i))
  let edge := !fresh && was != level
  if m = 3 then t.setLine (101 + i) level
  else if m = 4 then t.setLine (101 + i) (!level)
  else if m = 0 then (if edge && level then t.pend (101 + i) else t)
  else if m = 1 then (if edge && !level then t.pend (101 + i) else t)
  else if m = 2 then (if edge then t.pend (101 + i) else t)
  else t

/-! ### The commands -/

/-- PULSE_SOURCE: a pulse that has set out for the crier arrives (R336); a crier in reset takes none (R385). -/
def execPulseSource (n : Fin 256) (s : State) : Result :=
  .next (if s.crier.launched.contains n.val then
    let t := { s with crier := { s.crier with launched := s.crier.launched.erase n.val } }
    if s.islandUp .fabric then t.pend n else t
  else s)

/-- PEND_SET (R337). -/
def execPendSet (init : Fin 16) (w : Fin 8) (mask : Word) (s : State) : Result :=
  .next (s.onCommand init (CRI.base + (CRI.PEND_SET.W.at (4 * w)).off) fun t => t.criPendSet w mask.toNat)

/-- PEND_CLR (R337). -/
def execPendClr (init : Fin 16) (w : Fin 8) (mask : Word) (s : State) : Result :=
  .next (s.onCommand init (CRI.base + (CRI.PEND_CLR.W.at (4 * w)).off) fun t => t.criPendClr w mask.toNat)

/-- EN_SET (R337). -/
def execEnSet (init : Fin 16) (w : Fin 8) (mask : Word) (s : State) : Result :=
  .next (s.onCommand init (CRI.base + (CRI.EN_SET.W.at (4 * w)).off) fun t => t.criEnSet w mask.toNat)

/-- EN_CLR (R337). -/
def execEnClr (init : Fin 16) (w : Fin 8) (mask : Word) (s : State) : Result :=
  .next (s.onCommand init (CRI.base + (CRI.EN_CLR.W.at (4 * w)).off) fun t => t.criEnClr w mask.toNat)

/-- CLAIM: a read of CLAIM[c][v] (R338). -/
def execClaim (init : Fin 16) (c : Fin 4) (v : Fin 8) (peek : Bool) (s : State) : Result :=
  .next (s.onRead init (CRI.base + (CRI.CLAIM.W.at (0x100 * c + 0x10 * v)).off) fun t => t.criClaim init c v peek)

/-- COMPLETE: a write to COMPLETE[c][v] (R339). -/
def execComplete (init : Fin 16) (c : Fin 4) (v : Fin 8) (value : Word) (s : State) : Result :=
  .next (s.onCommand init (CRI.base + (CRI.COMPLETE.W.at (0x100 * c + 0x10 * v)).off) fun t =>
    t.criComplete init c v value.toNat)

/-- DOORBELL (R343). -/
def execDoorbell (init : Fin 16) (value : Word) (s : State) : Result :=
  .next (s.onCommand init (CRI.base + CRI.DOORBELL.W.off) fun t => t.criDoorbell value.toNat)

/-- EXT_CFG (R342). -/
def execExtCfg (init : Fin 16) (i : Fin 8) (value : Word) (s : State) : Result :=
  .next (s.onCommand init (CRI.base + (CRI.EXT_CFG.W.at (4 * i)).off) fun t => t.criExtCfg i value.toNat)

/-- EXTINT_EDGE: the filter of EXTINTi passes the ball's level, if the synchronised line has held it for FILT further edges
of the filter clock (R342); a crier in reset takes none (R385). -/
def execExtintEdge (i : Fin 8) (x : BallLevel) (s : State) : Result :=
  let unit := ac * 2 ^ s.getF CRI.base (CRI.EXT_CFG.PRE.at (4 * i))
  .next (if s.islandUp .fabric && s.passes x unit (s.getF CRI.base (CRI.EXT_CFG.FILT.at (4 * i))) s.crier.extFrom[i] then
    s.criExtPass i x.level else s)

end Sys2Proof.Machine
end

