-- ==== Sys2Proof/Machine/Cellar.lean ====
section
/-! DEFINITION. The cellar: CRC-32C, snapshot capture and records, the ledger, the watchdogs (R383–R411,
R535). -/

namespace Sys2Proof.Machine

/-! ### CRC-32C -/

/-- One bit of the reflected CRC-32C register. -/
def crcBit (c : Nat) : Nat := if c % 2 = 1 then (c / 2) ^^^ 0x82F63B78 else c / 2

/-- One byte into the register. -/
def crcByte (c b : Nat) : Nat :=
  crcBit (crcBit (crcBit (crcBit (crcBit (crcBit (crcBit (crcBit (c ^^^ b))))))))

/-- The bytes of a 32-bit word, least significant first. -/
def wordBytes (w : Nat) : List Nat := [w % 256, w / 256 % 256, w / 65536 % 256, w / 16777216 % 256]

/-- CRC-32C: initial value all ones, final inversion (R370, R393). -/
def crc32c (bs : List Nat) : Nat := (bs.foldl crcByte 0xFFFFFFFF) ^^^ 0xFFFFFFFF

def crcWords (ws : List Nat) : Nat := crc32c (ws.flatMap wordBytes)

/-! ### Restored fields (R19, R68, R393) -/

/-- The offsets of a register's elements. -/
def elements : List (Nat × Nat) → Nat → List Nat
  | [], o => [o]
  | (n, st) :: t, o => (List.range n).flatMap fun i => elements t (o + i * st)

/-- The bits of a register that belong to Restored fields. -/
def RegRow.restoredMask (r : RegRow) : Nat :=
  r.rows.foldl (fun m f => if f.restored then m + ((2 ^ (f.hi + 1 - f.lo) - 1) <<< f.lo) else m) 0

/-- Insert by offset. -/
def insertByOff (x : Nat × Nat) : List (Nat × Nat) → List (Nat × Nat)
  | [] => [x]
  | y :: t => if x.1 ≤ y.1 then x :: y :: t else y :: insertByOff x t

/-- The registers of a block with a Restored field, in offset order, with the mask of those fields. -/
def Blk.restored (b : Blk) : List (Nat × Nat) :=
  (b.map.flatMap fun r =>
    if r.restoredMask = 0 then [] else (elements r.dims r.off).map fun o => (o, r.restoredMask)).foldr
      insertByOff []

/-- The blocks in the order of the prefix table of R18, which gives the block ID (R393). -/
def blkList : List Blk :=
  [.sys, .ais, .car, .stl, .cnv, .cmp, .leg, .eng, .trp, .cri, .flc, .cel, .knr, .ode, .atc, .dbg, .wdt,
   .spi, .uart, .can, .iic, .qep, .gpio]

/-- Every block instance of the hall with its block ID. -/
def instances : List (Nat × Blk × Nat) :=
  (blkList.zipIdx).flatMap fun (b, id) => (List.range b.count).map fun i => (id, b, i)

/-- The data of a block's record: each register with a Restored field, other bits 0 (R393). -/
def State.recordData (s : State) (b : Blk) (i : Nat) : List Nat :=
  b.restored.map fun (o, m) => (s.rd (b.base i + o)).toNat &&& m

/-- A record: header, CRC-32C of header and data, data (R393). -/
def recordWords (id i : Nat) (data : List Nat) : List Nat :=
  let h := id + i * 256 + data.length * 65536
  h :: crcWords (h :: data) :: data

/-- The records of every block whose island is up, one list of words each (R393). -/
def State.capture (s : State) : List (List Nat) :=
  instances.filterMap fun (id, b, i) =>
    if s.islandUp (Place.island ⟨b, i, 0⟩) then some (recordWords id i (s.recordData b i)) else none

/-- Where a record set lies in the cellar store (R383). -/
def setBase (k : Nat) : Nat := 0x30020000 + 0x8000 * k

/-- The slot that does not hold the newest complete snapshot (R393). -/
def State.nextSlot (s : State) : Fin 3 :=
  if s.getF CEL.base CEL.STATUS.SNAP_VALID = 0 then 0
  else if s.getF CEL.base CEL.STATUS.SNAP_NEWEST = 0 then 1 else 0

/-- The records of a capture are taken into its set; the trailer follows them at SNAPSHOT_END. -/
def State.takeRecords (s : State) (r : SnapRun) : State :=
  let recs := s.capture
  let ws := recs.flatten
  let t := s.setWords (setBase r.target) ws
  { t with cellar := { t.cellar with snap := some { r with
      records := recs.length, trailer := setBase r.target + 4 * ws.length } } }

/-- A write that completes on the capture edge is included in the snapshot (R70). -/
def State.recapture (s : State) : State :=
  match s.cellar.snap with
  | some r => if r.startAt = s.now then s.takeRecords r else s
  | none => s

/-- A capture into a set begins on this edge (R392, R393): the set stops being complete, its records are
written. -/
def State.startSnap (s : State) (cause : Nat) (target : Fin 3) : State :=
  let t := s.takeRecords ⟨cause, target, 0, 0, s.now⟩
  let t := if target = 2 then t.setB CEL.base CEL.STATUS.DEF_VALID false
    else t.setBit CEL.base CEL.STATUS.SNAP_VALID target false
  t.setB CEL.base CEL.STATUS.SNAP_BUSY true

/-- The capture that runs is that of a PFAIL_N which fell on this edge: a command's goes first (R405). -/
def State.snapYields (s : State) : Bool := s.cellar.snap.any fun r => r.cause == 3 && r.startAt == s.now

/-- A request for a capture: refused while one runs (R392), but for a command on the edge on which PFAIL_N falls, whose
snapshot goes first (R405). -/
def State.requestSnap (s : State) (cause : Nat) (toDefaults : Bool) : State :=
  match s.cellar.snap with
  | some r =>
    if cause = 1 ∧ s.snapYields then
      { s with cellar := { s.cellar with snap := some { r with cause := 1 }, snapAgain := true } }
    else s.setB CEL.base CEL.STATUS.SNAP_REFUSED true
  | none => s.startSnap cause (if toDefaults then 2 else s.nextSlot)

/-- SNAPSHOT: CEL.CMD.SNAPSHOT (R392). -/
def execSnapshot (init : Fin 16) (s : State) : Result :=
  .next (s.onCommand init (CEL.base + CEL.CMD.SNAPSHOT.off) fun t => t.requestSnap 1 false)

/-- DEF_SAVE: CEL.CMD.DEF_SAVE (R392). -/
def execDefSave (init : Fin 16) (s : State) : Result :=
  .next (s.onCommand init (CEL.base + CEL.CMD.DEF_SAVE.off) fun t => t.requestSnap 4 true)

/-- A fall of PFAIL_N is recognised (R580): PFAIL, disarm with cause 3, and a snapshot that is never refused (R392,
R395). -/
def State.powerFails (s : State) : State :=
  let t := ((s.setB CEL.base CEL.STATUS.PFAIL true).disarm 3).condUpdate 4
  if t.getB CEL.base CEL.CTRL.ENABLE then
    (match t.cellar.snap with
     | some _ => { t with cellar := { t.cellar with snapAgain := true } }
     | none => t.startSnap 3 t.nextSlot)
  else t

/-- The filter of PFAIL_N may pass the level that STATUS.PFAIL does not show, seen on 3 cellar edges (R580). -/
def State.pfailTurns (s : State) (low : Bool) : Bool :=
  s.getB CEL.base CEL.STATUS.PFAIL != low && s.mayPass s.cellar.pfailAt cellarCycle 3

def State.pfailPassed (s : State) : State := { s with cellar := { s.cellar with pfailAt := some s.now } }

/-- PFAIL_N_FALL: the filter of PFAIL_N passes a fall on this edge, the third of three (R580). -/
def execPfailNFall (s : State) : Result :=
  .next (if s.pfailTurns true then s.pfailPassed.powerFails else s)

/-- PFAIL_N_RISE: a return to high passes the same filter (R580); the hall stays disarmed (R395). -/
def execPfailNRise (s : State) : Result :=
  .next (if s.pfailTurns false then (s.pfailPassed.setB CEL.base CEL.STATUS.PFAIL false).condUpdate 4 else s)

/-! ### The ledger (R398–R400) -/

/-- The oldest queued entry goes to LEDGER_HEAD.NEXT; the queue waits while a snapshot writes (R400). -/
def State.ledgerWrite (s : State) : State :=
  match s.cellar.snap, s.cellar.queue with
  | none, e :: rest =>
    let n := s.getF CEL.base CEL.LEDGER_HEAD.NEXT
    let c := s.getF CEL.base CEL.LEDGER_HEAD.COUNT
    let v := e.time.toNat + (e.type.toNat + e.arg0.toNat * 2 ^ 8 + e.arg1.toNat * 2 ^ 16) * 2 ^ 64
      + e.data.toNat * 2 ^ 96
    let t := { s with cellar := { s.cellar with queue := rest } }
    let t := t.setBytes (0x30038000 + 16 * n) 16 v
    let t := t.setF CEL.base CEL.LEDGER_HEAD.NEXT ((n + 1) % 1024)
    let t := if c < 1024 then t.countSat CEL.base CEL.LEDGER_HEAD.COUNT
      else t.countSat CEL.base CEL.LEDGER_OVF.COUNT
    t.celPulse 175
  | _, _ => s

/-- LEDGER_ENTRY_WRITE (R400). -/
def execLedgerEntryWrite (s : State) : Result := .next s.ledgerWrite

/-- LEDGER_CLR: COUNT to 0, entries left in place (R400). -/
def execLedgerClr (init : Fin 16) (s : State) : Result :=
  .next (s.onCommand init (CEL.base + CEL.CMD.LEDGER_CLR.off) fun t => t.clearCount CEL.base CEL.LEDGER_HEAD.COUNT)

/-- LEDGER_OVF and LEDGER_LOST to 0 (R58, R400). -/
def State.ledgerCntClr (s : State) : State :=
  (s.clearCount CEL.base CEL.LEDGER_OVF.COUNT).clearCount CEL.base CEL.LEDGER_LOST.COUNT

/-- CEL_CNT_CLR (R400). -/
def execCelCntClr (init : Fin 16) (s : State) : Result :=
  .next (s.onCommand init (CEL.base + CEL.CMD.CNT_CLR.off) fun t =>
    t.ledgerCntClr)

/-! ### The watchdogs (R406, R407, R535) -/

/-- An expiry is recognised; its consequences follow as WATCHDOG_EXPIRY or CORE_WATCHDOG_EXPIRY. -/
def State.wdtExpire (s : State) (n : Fin 5) (cause : Nat) : State :=
  { s with cellar := { s.cellar with expiry := s.cellar.expiry.set n (some (cause, s.now)) } }

/-- A write to SERVICE (R406, R407): the key is accepted while COUNT ≤ WINDOW, and on the edge on which
COUNT would reach 0 (R73); an early key and any other value expire the watchdog. -/
def State.wdtService (s : State) (n : Fin 5) (value : Nat) : State :=
  if value = 0xC0A7 then
    if s.wdtOpen n then
      let keep := match s.cellar.expiry[n] with
        | some (1, t) => if t = s.now then none else some (1, t)
        | e => e
      ({ s with cellar := { s.cellar with expiry := s.cellar.expiry.set n keep } }).wdtReload n
    else s.wdtExpire n 2
  else s.wdtExpire n 3

/-- One count of 64 µs, unless the watchdog is off or frozen (R406); opening the window pulses its source,
reaching 0 expires it. -/
def State.wdtTick (s : State) (n : Fin 5) (frozen : Bool) (openPulse : State → State) : State :=
  let c := s.getF (WDT.base n) WDT.COUNT.COUNT
  if !s.getB (WDT.base n) WDT.CTRL.ENABLE || frozen || c = 0 then s
  else
    let t := (s.setF (WDT.base n) WDT.COUNT.COUNT (c - 1)).wdtStatus n
    let t := if c - 1 = s.getF (WDT.base n) WDT.WINDOW.WINDOW then openPulse t else t
    if c - 1 = 0 then t.wdtExpire n 1 else t

/-- The next count of watchdog `n` falls: 1024 cycles of the cellar RC oscillator after the last, on the grid of its
prescaler (R406). -/
def State.wdtCount (s : State) (n : Fin 5) : State :=
  let p := 1024 * cellarCycle
  let t := max (s.cellar.tickAt[n] + p) (s.now / p * p)
  let s := s.atTime t
  { s with cellar := { s.cellar with tickAt := s.cellar.tickAt.set n t } }

/-- SERVICE: a write to WDT[4].SERVICE (R406). -/
def execService (init : Fin 16) (value : Word) (s : State) : Result :=
  .next (s.onCommand init (WDT.base 4 + WDT.SERVICE.KEY.off) fun t => t.wdtService 4 value.toNat)

/-- A hall reset will start at an instant; an earlier one stays (R389, R407). -/
def State.scheduleReset (s : State) (type at_ : Nat) : State :=
  match s.cellar.resetDue with
  | some (_, t) => if t ≤ at_ then s else { s with cellar := { s.cellar with resetDue := some (type, at_) } }
  | none => { s with cellar := { s.cellar with resetDue := some (type, at_) } }

/-- WATCHDOG_EXPIRY: disarm with cause 4, ledger entry 0x0D, hall reset 20 µs after the expiry (R407). -/
def execWatchdogExpiry (s : State) : Result :=
  .next (match s.cellar.expiry[(4 : Fin 5)] with
  | none => s
  | some (cause, from_) =>
    let t := ((s.disarm 4).ledger 0x0D cause 0 0).scheduleReset 4 (from_ + 20 * us)
    { t with cellar := { t.cellar with expiry := t.cellar.expiry.set 4 none } })

/-- CORE_WATCHDOG_SERVICE: a write to WDT[n].SERVICE; only core n's counts (R535). -/
def execCoreWatchdogService (init : Fin 16) (n : Fin 4) (value : Word) (s : State) : Result :=
  .next (s.onCommand init (WDT.base n + WDT.SERVICE.KEY.off) fun t =>
    if init.val = n.val then t.wdtService (n.castSucc) value.toNat else t)

end Sys2Proof.Machine
end

