-- ==== Sys2Proof/Machine/Staging.lean ====
section
/-! DEFINITION. Attic staging: blocks, taps, the event ring and the stream queue (R477–R487). -/

namespace Sys2Proof.Machine

/-- The hall's node ID (R421). -/
def State.nodeId (s : State) : Nat := s.options.node.toNat

/-- The hall is a ring member: ENABLE is 1 and the ID is 1–64 and not a duplicate (R421, R422). -/
def State.ringMember (s : State) : Bool :=
  s.getB KNR.base KNR.CTRL.ENABLE && 1 ≤ s.nodeId && s.nodeId ≤ 64 && !s.getB KNR.base KNR.STATUS.ID_DUP

/-- A 64-bit pair of registers, low word first. -/
def State.set64 (s : State) (b : Nat) (lo hi : Fld) (v : Nat) : State :=
  (s.setF b lo (v % 2 ^ 32)).setF b hi (v / 2 ^ 32)

def State.get64 (s : State) (b : Nat) (lo hi : Fld) : Nat := s.getF b lo + s.getF b hi * 2 ^ 32

def State.modAttic (s : State) (f : Attic → Attic) : State := { s with attic := f s.attic }

/-- The recorder's taps run: ENABLE is 1 and the attic island is up. -/
def State.taps (s : State) : Bool := s.getB ATC.base ATC.CTRL.ENABLE && s.islandUp .attic

/-- The kind of an item, its time, and its index within its edge: aisle before index (R481), initiators as in R71. -/
def Item.rank : Item → Nat × Nat × Nat
  | .cal => (0, 0, 0)
  | .cmp c t _ _ => (1, t, c)
  | .leg l t _ _ zero => (if zero then 2 else 3, t, l)
  | .mark source _ t _ => (4, t, source)
  | .scan k t _ _ _ _ => (5 + k, t, 0)

/-- Items stand in ascending time, those of one kind and edge in ascending index (R481). -/
def insertItem (i : Item) : List Item → List Item
  | [] => [i]
  | y :: t =>
    if i.rank.1 = y.rank.1 ∧ i.rank.2.1 = y.rank.2.1 ∧ i.rank.2.2 < y.rank.2.2 then i :: y :: t else y :: insertItem i t

/-- An item sets out for its tap; RECORDER_ITEM is its arrival (R477). -/
def State.offer (s : State) (c : Bool) (i : Item) : State :=
  if c && s.taps then s.modAttic fun a => { a with items := insertItem i a.items } else s

/-- The stream records (R483). -/
def State.streaming (s : State) : Bool :=
  s.taps && s.getB ATC.base ATC.CTRL.STREAM_EN && s.getB ATC.base ATC.STATUS.READY

/-- The event ring records (R484). -/
def State.windowing (s : State) : Bool := s.taps && s.getB ATC.base ATC.CTRL.WIN_EN

/-! ### Slots (R486) -/

/-- Slots of the event ring. -/
def State.evtSlots (s : State) : Nat := min 2016 (max 64 (s.getF ATC.base ATC.EVT_BLK.SLOTS))

/-- Data address of a slot. -/
def slotAddr (k : Nat) : Nat := 0x800000 + 4096 * k

/-- Slots that hold a block being filled or waiting for the drive. -/
def State.slotBusy (s : State) (k : Nat) : Bool :=
  (s.attic.opened.any fun b => b.slot == k) || (s.attic.streamQ.any fun q => q.slot == k)
    || (s.attic.windowQ.any fun q => q.slot == k)

/-- A free slot of the stream queue. -/
def State.streamSlot (s : State) : Option Nat :=
  ((List.range (2048 - s.evtSlots)).find? fun i => !s.slotBusy (s.evtSlots + i)).map (s.evtSlots + ·)

/-- The next slot of the event ring that no window locks. -/
def State.ringSlot (s : State) : Option Nat :=
  let n := s.evtSlots
  ((List.range n).find? fun i => !s.slotBusy ((s.attic.ringNext + i) % n)).map fun i => (s.attic.ringNext + i) % n

/-- A slot is taken for a new block; in the ring it replaces the block that stood there. -/
def State.takeSlot (s : State) (win : Bool) : Option (Nat × State) :=
  if win then
    s.ringSlot.map fun k => (k, s.modAttic fun a =>
      { a with ringNext := (k + 1) % s.evtSlots, ring := a.ring.filter fun b => b.slot != k })
  else s.streamSlot.map fun k => (k, s)

/-- An item that finds no slot is dropped (R487). -/
def State.dropItem (s : State) (l : LostItem) : State :=
  let known := s.attic.gaps.contains (l.type, l.win)
  ((s.countSat ATC.base ATC.DROP.ITEMS).setB ATC.base ATC.STATUS.DROPPING true).modAttic fun a =>
    { a with gaps := if known then a.gaps else a.gaps ++ [(l.type, l.win)]
             lostOn := some s.now
             lost := (if a.lostOn = some s.now then a.lost else []) ++ [(l, !known)] }

/-! ### Closing a block (R479, R481, R485) -/

/-- The header of a block, and zeros after its payload; SEQ and CRC follow when it is sent. -/
def State.writeHeader (s : State) (b : OpenBlock) (short : Bool) : State :=
  let a := slotAddr b.slot
  let first := b.times.headD 0
  let last := b.times.getLastD 0
  let flags := (if short then 2 else 0) + (if b.gap then 4 else 0)
  let s := s.setBytes a 4 0xA771C001
  let s := s.setBytes (a + 4) 4 (b.type + 0x100 * flags + 0x10000 * (if s.ringMember then s.nodeId else 0) + 0x1000000)
  let s := s.setBytes (a + 8) 8 0
  let s := s.setBytes (a + 0x10) 8 (first / ns)
  let s := s.setBytes (a + 0x18) 8 (first % ns / 25 + 0x100 * b.cnv + 0x10000 * b.stalls + 2 ^ 32 * b.len + 2 ^ 48 * b.mask)
  let s := s.setBytes (a + 0x20) 4 b.count
  let s := s.setBytes (a + 0x24) 4 b.interval
  let s := s.setBytes (a + 0x28) 4 b.pitch
  let s := s.setBytes (a + 0x2C) 4 0
  let s := s.setBytes (a + 0x30) 8 (last / ns)
  let s := s.setBytes (a + 0x38) 72 0
  s.setBytes (a + 0x80 + b.len) (3968 - b.len) 0

/-- A window holds a block that has an item in [T − WIN_PRE, T + WIN_POST] (R484). -/
def EventWindow.holds (w : EventWindow) (times : List Nat) : Bool :=
  times.any fun t => w.time ≤ t + 1000 * w.pre && t ≤ w.time + 1000 * w.post

/-- A ring block is marked WINDOW and EVENT, locked and queued (R484, R485). -/
def State.queueWindow (s : State) (w : Nat) (b : RingSlotBlock) : State :=
  let a := slotAddr b.slot
  let s := s.setByte (a + 5) ((s.byte (a + 5)) ||| 1)
  (s.setBytes (a + 0x2C) 4 w).modAttic fun x => { x with
    ring := x.ring.map fun r => if r.slot = b.slot then { r with lock := some w } else r
    windowQ := x.windowQ ++ [{ slot := b.slot, window := some w }]
    window := x.window.map fun v => if v.number = w then { v with blocks := v.blocks + 1 } else v }

/-- A block closes: into the stream queue, or into the event ring and, inside an open window, on to the drive. -/
def State.closeBlock (s : State) (b : OpenBlock) (short : Bool) : State :=
  let s := (s.writeHeader b short).modAttic fun a => { a with opened := a.opened.erase b }
  let s := if short then s.countSat ATC.base ATC.CNT.SHORT else s
  if b.win then
    let r : RingSlotBlock := ⟨b.slot, b.times.map (· / ns), none⟩
    let s := s.modAttic fun a => { a with ring := a.ring ++ [r] }
    match s.attic.window with
    | some w => if w.holds r.times then s.queueWindow w.number r else s
    | none => s
  else s.modAttic fun a => { a with streamQ := a.streamQ ++ [{ slot := b.slot }] }

/-! ### Items -/

/-- Bytes of a list from an address upwards. -/
def State.setList (s : State) (a : Nat) : List (BitVec 8) → State
  | [] => s
  | b :: t => (s.setByte a b).setList (a + 1) t

/-- `n` bytes of a number, least significant first. -/
def leBytes (v : Nat) : Nat → List (BitVec 8)
  | 0 => []
  | n + 1 => BitVec.ofNat 8 v :: leBytes (v / 256) n

/-- Must a block close before this item (R481)?  `apt`, `mask`, `pitch` matter to SAMPLES. -/
def OpenBlock.mustClose (b : OpenBlock) (time apt mask pitch : Nat) : Bool :=
  if b.type = 1 then
    b.mask != mask || b.pitch != pitch || (2 ≤ b.count && b.interval != (apt - b.lastApt) / 250)
  else if b.type = 2 || b.type = 6 then time / ns / 2 ^ 48 != b.times.headD 0 / ns / 2 ^ 48
  else false

/-- An item goes into the open block of its kind, or into a new one (R479–R481, R487). -/
def State.putItem (s : State) (type : Nat) (win : Bool) (cnv time apt mask pitch stalls : Nat)
    (bytes : List (BitVec 8)) : State :=
  let isMine (b : OpenBlock) : Bool := b.type == type && b.win == win && b.cnv == cnv
  let s := match s.attic.opened.find? isMine with
    | some b => if b.mustClose time apt mask pitch then s.closeBlock b true else s
    | none => s
  let got : Option (OpenBlock × State) := match s.attic.opened.find? isMine with
    | some b => some (b, s)
    | none => (s.takeSlot win).map fun (k, t) =>
        ({ type := type, win := win, cnv := cnv, slot := k, times := [], mask := mask, pitch := pitch
           gap := t.attic.gaps.contains (type, win) },
         t.modAttic fun a => { a with gaps := a.gaps.erase (type, win) })
  match got with
  | none => s.dropItem ⟨type, win, cnv, time, apt, mask, pitch, stalls, bytes⟩
  | some (b, t) =>
    let t := (t.setB ATC.base ATC.STATUS.DROPPING false).setList (slotAddr b.slot + 0x80 + b.len) bytes
    let b' := { b with
      times := b.times ++ [time], lastApt := apt, len := b.len + bytes.length, count := b.count + 1
      interval := if type = 1 && b.count = 1 then (apt - b.lastApt) / 250 else b.interval
      stalls := b.stalls ||| stalls }
    let t := t.modAttic fun a => { a with opened := a.opened.filter (fun x => !isMine x) ++ [b'] }
    if 3968 < b'.len + bytes.length then t.closeBlock b' false else t

/-- A whole block of one payload through the stream queue (R482, R485, R486). -/
def State.putBlock (s : State) (type count stalls : Nat) (bytes : List (BitVec 8)) : Option (Nat × State) :=
  s.streamSlot.map fun k =>
    let t := s.setList (slotAddr k + 0x80) bytes
    let b : OpenBlock := { type := type, win := false, cnv := 0, slot := k, times := [s.marketUnits]
                           len := bytes.length, count := count, stalls := stalls
                           gap := s.attic.gaps.contains (type, false) }
    (k, (t.writeHeader b false).modAttic fun a => { a with gaps := a.gaps.erase (type, false) })

/-- The CAL block: one entry for each converter selected in SEL_CNV (R480, R482). -/
def State.calBlock (s : State) : State :=
  let sel := (List.range 12).filter fun k =>
    s.bit ATC.base ATC.SEL_CNV.STREAM k || s.bit ATC.base ATC.SEL_CNV.WINDOW k
  let entry (k : Nat) : List (BitVec 8) :=
    leBytes k 4 ++ leBytes (s.rd (CNV.base k + CNV.CTRL.W.off)).toNat 4
      ++ ((List.range 8).flatMap fun i => leBytes (s.rd (CNV.base k + CNV.OFFSET.W.off + 8 * i)).toNat 4)
      ++ ((List.range 8).flatMap fun i => leBytes (s.rd (CNV.base k + CNV.GAIN.W.off + 8 * i)).toNat 4)
  match s.putBlock 5 sel.length (sel.foldl (fun m k => m + 2 ^ k) 0) (sel.flatMap entry) with
  | some (k, t) => t.modAttic fun a => { a with streamQ := a.streamQ ++ [{ slot := k }] }
  | none => s.dropItem { type := 5, win := false }

/-- A Write that completes on the edge on which items found no slot frees one for them: nothing was dropped (R497). -/
def State.retryLost (s : State) : State :=
  if s.attic.lostOn = some s.now then
    let s0 := s.modAttic fun a => { a with lostOn := none, lost := [] }
    s.attic.lost.foldl (fun t x =>
      let (l, fresh) := x
      let t := t.setF ATC.base ATC.DROP.ITEMS (t.getF ATC.base ATC.DROP.ITEMS - 1)
      let t := if fresh then t.modAttic fun a => { a with gaps := a.gaps.erase (l.type, l.win) } else t
      if l.type = 5 then (t.setB ATC.base ATC.STATUS.DROPPING false).calBlock
      else t.putItem l.type l.win l.cnv l.time l.apt l.mask l.pitch l.stalls l.bytes) s0
  else s

/-! ### Windows (R484, R485) -/

/-- The open window is `w`: TRIG_MT, TRIG_INFO and EVENT show it, the ring blocks inside are locked and queued, oldest
first. -/
def State.placeWindow (s : State) (w : EventWindow) : State :=
  let oldest := s.attic.ring.foldl (fun m b => min m (b.times.headD w.time)) w.time
  let w := { w with held := min w.pre ((w.time - oldest) / 1000), blocks := 0 }
  let s := s.modAttic fun a => { a with window := some w }
  let s := (s.setF ATC.base ATC.TRIG_INFO.SRC w.src).setF ATC.base ATC.TRIG_INFO.ARG w.arg
  let s := ((s.set64 ATC.base ATC.TRIG_MT_LO.T ATC.TRIG_MT_HI.T w.time).setF ATC.base ATC.EVENT.NUM w.number).setB
    ATC.base ATC.STATUS.WIN_OPEN true
  (s.attic.ring.filter fun b => b.lock.isNone && w.holds b.times).foldl (fun t b => t.queueWindow w.number b) s

/-- An accepted trigger: the window opens, a CAL block is written, then its blocks are queued; source 137 pulses. -/
def State.openWindow (s : State) (src arg time : Nat) : State :=
  let n := s.attic.windows + 1
  let t := s.calBlock
  let w : EventWindow :=
    { number := n, src := src, arg := arg, time := time, pre := s.getF ATC.base ATC.WIN_PRE.PRE
      post := s.getF ATC.base ATC.WIN_POST.POST, openedAt := s.now
      cal := if s.attic.streamQ.length < t.attic.streamQ.length then t.attic.streamQ.getLast?.map (·.slot) else none
      before := (s.get64 ATC.base ATC.TRIG_MT_LO.T ATC.TRIG_MT_HI.T, s.getF ATC.base ATC.TRIG_INFO.W,
        s.getF ATC.base ATC.EVENT.NUM) }
  ((t.modAttic fun a => { a with windows := n }).placeWindow w).pulseIf (s.bit ATC.base ATC.IRQ_EN.SRC 4) 137

/-- The blocks of the open window `w` are set free again, and no window is open. -/
def State.dropWindow (s : State) (w : EventWindow) : State :=
  let mine := s.attic.ring.filter fun b => b.lock == some w.number
  let s := mine.foldl (fun t b =>
    let a := slotAddr b.slot
    (t.setByte (a + 5) ((t.byte (a + 5)) &&& 0xFE)).setBytes (a + 0x2C) 4 0) s
  s.modAttic fun a => { a with
    window := none
    ring := a.ring.map fun b => if b.lock == some w.number then { b with lock := none } else b
    windowQ := a.windowQ.filter fun q => q.window != some w.number }

/-- Two triggers on one edge make one window, with T and SRC of the lowest SRC; the other counts as merged (R497). -/
def State.mergeTrigger (s : State) (w : EventWindow) (src arg time : Nat) : State :=
  let w := { w with merged := min (w.merged + 1) 0xFFFF }
  let s := if w.openedAt = s.now ∧ src < w.src then
      (s.dropWindow w).placeWindow { w with src := src, arg := arg, time := time }
    else s.modAttic fun a => { a with window := some w }
  s.countSat ATC.base ATC.CNT.MERGED

/-- A trigger on the edge on which window `n` closed is merged into it (R497), its EVENT block included. -/
def State.mergeClosed (s : State) (n : Nat) : State :=
  let isEvent (q : QueuedBlock) : Bool := s.byte (slotAddr q.slot + 4) == 7 && s.bytes (slotAddr q.slot + 0x2C) 4 == n
  let s := (s.attic.streamQ.filter isEvent).foldl (fun t q =>
    let a := slotAddr q.slot + 0x80 + 6
    t.setBytes a 2 (min (t.bytes a 2 + 1) 0xFFFF)) s
  (s.modAttic fun x => { x with closing := x.closing.map fun w =>
    if w.number = n then { w with merged := min (w.merged + 1) 0xFFFF } else w }).countSat ATC.base ATC.CNT.MERGED

/-- ENABLE is written 0 on the edge on which a window opened: its trigger was not accepted (R497). -/
def State.unaccept (s : State) : State :=
  match s.attic.window with
  | some w =>
    if w.openedAt = s.now then
      let s := (s.dropWindow w).modAttic fun a => { a with
        windows := a.windows - 1, streamQ := a.streamQ.filter fun q => w.cal != some q.slot }
      let s := if s.bit ATC.base ATC.IRQ_EN.SRC 4 then
          { s with crier := { s.crier with launched := dropLastOf 137 s.crier.launched } } else s
      let s := (s.set64 ATC.base ATC.TRIG_MT_LO.T ATC.TRIG_MT_HI.T w.before.1).setF ATC.base ATC.TRIG_INFO.W w.before.2.1
      (s.setF ATC.base ATC.EVENT.NUM w.before.2.2).setB ATC.base ATC.STATUS.WIN_OPEN false
    else s
  | none => s

/-- EVENT blocks of closed windows whose last block has gone (R485); source 133 pulses for each. -/
def State.eventBlocks (s : State) : State :=
  s.attic.closing.foldl (fun t w =>
    if t.attic.windowQ.any fun q => q.window == some w.number then t
    else
      let p := leBytes w.number 4 ++ leBytes w.src 1 ++ leBytes w.arg 1 ++ leBytes w.merged 2 ++ leBytes w.time 8
        ++ leBytes w.pre 4 ++ leBytes w.post 4 ++ leBytes w.held 4 ++ leBytes w.blocks 4 ++ leBytes (w.firstSeq.getD 0) 8
      match t.putBlock 7 1 0 p with
      | some (k, u) =>
        let u := u.setBytes (slotAddr k + 0x2C) 4 w.number
        (u.modAttic fun a => { a with closing := a.closing.erase w, streamQ := a.streamQ ++ [{ slot := k }] }).pulseIf
          (u.bit ATC.base ATC.IRQ_EN.SRC 0) 133
      | none => t) s

/-- Every block closes (R481). -/
def State.closeAll (s : State) : State := s.attic.opened.foldl (fun t b => t.closeBlock b true) s

/-- The open window ends (R484, R485). -/
def State.closeWindow (s : State) : State :=
  let s := s.closeAll
  match s.attic.window with
  | none => s
  | some w =>
    ((s.modAttic fun a => { a with window := none, closing := a.closing ++ [w], closedOn := some (s.now, w.number) }).setB ATC.base
      ATC.STATUS.WIN_OPEN false).eventBlocks

end Sys2Proof.Machine
end

