-- ==== Sys2Proof/Machine/Hooks.lean ====
section
/-! DEFINITION. Access to the typed records of the blocks, and the two things a trip passes on: the market
trip of the ring (R442) and the event window of the recorder (R484). -/

namespace Sys2Proof.Machine

/-! ### Records of the blocks, by global index (R16) -/

def State.aisleAt (s : State) (a : Nat) : Aisle := s.aisle[Fin.ofNat 3 a]
def State.carAt (s : State) (g : Nat) : Carrier := s.car[Fin.ofNat 12 g]
def State.legAt (s : State) (l : Nat) : Leg := s.leg[Fin.ofNat 48 l]
def State.cmpAt (s : State) (c : Nat) : Comparator := s.cmp[Fin.ofNat 24 c]
def State.cnvAt (s : State) (k : Nat) : Converter := s.cnv[Fin.ofNat 12 k]
def State.engAt (s : State) (e : Nat) : Engine := s.eng[Fin.ofNat 12 e]

def State.modAisle (s : State) (a : Nat) (f : Aisle → Aisle) : State :=
  { s with aisle := s.aisle.set (Fin.ofNat 3 a) (f (s.aisleAt a)) }
def State.modCar (s : State) (g : Nat) (f : Carrier → Carrier) : State :=
  { s with car := s.car.set (Fin.ofNat 12 g) (f (s.carAt g)) }
def State.modLeg (s : State) (l : Nat) (f : Leg → Leg) : State :=
  { s with leg := s.leg.set (Fin.ofNat 48 l) (f (s.legAt l)) }
def State.modCmp (s : State) (c : Nat) (f : Comparator → Comparator) : State :=
  { s with cmp := s.cmp.set (Fin.ofNat 24 c) (f (s.cmpAt c)) }
def State.modCnv (s : State) (k : Nat) (f : Converter → Converter) : State :=
  { s with cnv := s.cnv.set (Fin.ofNat 12 k) (f (s.cnvAt k)) }
def State.modEng (s : State) (e : Nat) (f : Engine → Engine) : State :=
  { s with eng := s.eng.set (Fin.ofNat 12 e) (f (s.engAt e)) }

/-! ### The recorder's event window (R484) -/

def State.modRing (s : State) (f : Ring → Ring) : State := { s with ring := f s.ring }

/-- A block goes to the transmit lane of a port (0 KA, 1 KB), or of both (R414). -/
def State.transmit (s : State) (p : Nat) (b : RingBlock) : State :=
  s.modRing fun r => { r with sent := r.sent ++ [(p, b)] }
def State.transmitBoth (s : State) (b : RingBlock) : State := (s.transmit 0 b).transmit 1 b

/-- The recorder raises a REC block for every member (R445, R484). -/
def State.sendRec (s : State) (time : Nat) : State :=
  if s.ringMember && s.islandUp .ring then
    (s.transmitBoth (.record s.nodeId s.ring.recSeq time)).modRing fun r => { r with recSeq := (r.recSeq + 1) % 256 }
  else s

/-- The value POS of decoder `q` held on the last fabric edge strictly before now (R223). -/
def State.posBefore (s : State) (q : Nat) : Word :=
  let x := s.qep[Fin.ofNat 4 q]
  if x.changedAt = s.now then x.before else s.rd (QEP.base q + QEP.POS.POS.off)

def State.allPositions (s : State) : Vector Word 4 := Vector.ofFn fun q => s.posBefore q

/-- A trigger of the event window with reference time `time` in ns (R484): it opens a window, or merges
into the open one; triggers of SRC 0–2 go out on the ring with MKT_OUT. -/
def State.trigger (s : State) (src arg time : Nat) : State :=
  if s.getB ATC.base ATC.CTRL.ENABLE && s.getB ATC.base ATC.CTRL.WIN_EN && s.islandUp .attic then
    let t := if src ≤ 2 && s.getB ATC.base ATC.CTRL.MKT_OUT then s.sendRec time else s
    match t.attic.window with
    | some w => t.mergeTrigger w src arg time
    | none =>
      match t.attic.closedOn with
      | some (e, n) => if e = t.now then t.mergeClosed n else t.openWindow src arg time
      | none => t.openWindow src arg time
  else s

/-- Trip group `q` went active: it triggers a window where TRIG_CFG selects it (R484). -/
def State.groupTrigger (s : State) (q : Nat) : State :=
  if s.bit ATC.base ATC.TRIG_CFG.GRP q then s.trigger 1 q s.marketNs else s

/-! ### The market trip (R203, R442) -/

/-- The hall asserts the market trip, or stops asserting it; on the edge on which the assertion begins a
TRIP block goes out on both ports (R442), and a header that passes on it carries MKT_ACC (R451). -/
def State.marketAssert (s : State) : State :=
  let a := s.ringMember && (s.getB TRP.base TRP.STATUS.MKT_OUT || s.getB KNR.base KNR.STATUS.ABS_TRIP)
  let was := s.getB KNR.base KNR.STATUS.MKT_ASSERT
  let t := s.setB KNR.base KNR.STATUS.MKT_ASSERT a
  if a && !was then
    let t := (t.transmitBoth (.trip t.nodeId t.ring.tripSeq)).modRing fun r => { r with tripSeq := (r.tripSeq + 1) % 256 }
    if t.ring.frameAt = some t.now then
      t.modRing fun r => { r with frameOut := r.frameOut.map fun f => { f with mktAcc := true } }
    else t
  else t

end Sys2Proof.Machine
end

