-- ==== Sys2Proof/Machine/Levels.lean ====
section
/-! DEFINITION. The core's registers and windows, its levels, taking an exception and returning from one
(R248–R257, R318–R331), the monitor request (R505–R508) and the core reset (R387). -/

namespace Sys2Proof.Machine

/-! ### Registers and windows (R248, R259) -/

/-- The physical register that register `i` names in window `f`. -/
def physReg (f i : Nat) : Fin 260 :=
  Fin.ofNat 260 <|
    if i < 4 then 256 + i
    else if i < 8 then (2 * f + 63) % 64 * 4 + (i - 4)
    else if i < 12 then 2 * f % 64 * 4 + (i - 8)
    else (2 * f + 1) % 64 * 4 + (i - 12)

/-- A source register: the old value where the instruction stands in a load's shadow. -/
def Core.get (x : Core) (i : Nat) : Word :=
  let p := physReg x.frm i
  match x.shadow.find? fun e => e.1 == p.val with
  | some e => e.2
  | none => x.x[p]

def Core.put (x : Core) (i : Nat) (v : Word) : Core := { x with x := x.x.set (physReg x.frm i) v }

/-- The number of resident windows (R251), and of save sets in use (R252). -/
def Core.resident (x : Core) : Nat := (x.frm + 32 - x.wb.toNat % 32) % 32 + 1
def Core.setsInUse (x : Core) : Nat := ((List.range 10).filter x.inUse.getLsbD).length

/-- The acknowledge of the oldest access that is on its way returns (R26): its registers are loaded. -/
def Core.acknowledge (x : Core) : Core :=
  match x.out with
  | [] => x
  | o :: rest => { x with x := o.dest.foldl (fun r d => r.set (Fin.ofNat 260 d.1) d.2) x.x, out := rest }

/-- All of them return, in order, but for those that a lost one holds up (R307, R308). -/
def Core.acknowledgeAll (x : Core) : Core :=
  (x.out.takeWhile fun o => !o.lost).foldl (fun y _ => y.acknowledge) x

/-- The island that accesses go to goes down: those on their way to it are lost (R28, R308). -/
def State.loseAccesses (s : State) (i : Island) : State :=
  s.forAll 4 fun t c => t.modCore c fun x =>
    { x with out := x.out.map fun o => if (place o.addr).any (fun p => p.island = i) then { o with lost := true } else o }

/-! ### Program memory (R37, R40, R277) -/

/-- Where the halfword of a program word lies in data space: program RAM or flash; the ROMs have none. -/
def wordPlace (c a : Nat) : Option Nat :=
  if a < 0x800000 then some (0x20000000 + 2 * a)
  else if 0xC00000 ≤ a ∧ a < 0xC10000 then some (0x28000000 + 0x40000 * c + 2 * (a - 0xC00000))
  else none

/-- The word at a program address, as a buffer holds it or the memory does; `none` for a ROM and for a word that raises
a cause. -/
def State.programWord (s : State) (c a : Nat) : Option (BitVec 14) :=
  match (s.coreAt c).buffered a with
  | some (.word w) => some w
  | some _ => none
  | none => (wordPlace c a).map fun d => BitVec.ofNat 14 (s.bytes d 2)

/-- The length in words of the instruction that stands at a program address: 2 for CALL and EXT (R277), 1 for
the rest; the contents of the ROMs are not given and count 1. -/
def State.insnLength (s : State) (c : Nat) (a : BitVec 24) : Nat :=
  if (s.programWord c a.toNat).any twoWords then 2 else 1

/-- The instruction at PC, where program memory gives it. -/
def State.nextInsn (s : State) (c : Nat) : Option Instr :=
  let pc := (s.coreAt c).pc
  (s.programWord c pc.toNat).bind fun w =>
    decodeInsn (Fin.ofNat 4 c) w ((s.programWord c (pc + 1).toNat).getD 0)

/-- An instruction makes a shadow read: it reads a register in the shadow of the load before it (R259). -/
def Core.shadowRead (x : Core) (i : Insn) : Bool :=
  i.reads.any fun n => x.shadow.any fun e => e.1 == (physReg x.frm n).val

/-- The instruction at PC makes a shadow read; `told` where PC stands in a ROM, whose contents are not given. -/
def State.shadowNext (s : State) (c : Nat) (told : Bool) : Bool :=
  match s.nextInsn c with
  | some i => (s.coreAt c).shadowRead (insnOf i)
  | none => told && !(s.coreAt c).shadow.isEmpty

/-! ### Requests (R319, R505) -/

/-- The monitor threshold and STEP_INT of core `c`. -/
def State.monThresh (s : State) (c : Nat) : Nat := s.getF DBG.base (DBG.C_CFG.MON_THRESH.at (0x80 * c))
def State.stepInt (s : State) (c : Nat) : Bool := s.getB DBG.base (DBG.C_CFG.STEP_INT.at (0x80 * c))

/-- CL of a saved ST. -/
def savedCl (w : Word) : Nat := bitsOf w.toNat 15 12

/-- A request of level `v` may enter at level `cl` (R319, R508). -/
def State.levelOk (s : State) (c cl v : Nat) : Bool :=
  let x := s.coreAt c
  (if cl ≤ 7 then cl < v
   else cl = 9 && s.monThresh c < v && savedCl x.saves[(8 : Fin 9)][(2 : Fin 11)] < v)
    && !(x.stepping && !s.stepInt c && v ≤ s.monThresh c)

/-- The highest level whose request may enter at level `cl`, 0 if none. -/
def State.bestLevel (s : State) (c cl : Nat) : Nat :=
  ((List.range 8).filter fun v => 1 ≤ v && s.requestSeen c v && s.levelOk c cl v).foldl max 0

/-- The instruction at PC begins a step (R260): no delay slot, no locked sequence, no ST write just before, no shadow
read just after a load. -/
def Core.stepStarts (x : Core) (shadowNext : Bool) : Bool :=
  x.slot.isNone && x.lockLeft = 0 && !x.hold && !shadowNext

/-- An entry may be taken at the boundary: the instruction at PC begins a step that is not one to be replayed (R260,
R267, R312). -/
def Core.mayEnter (x : Core) (shadowNext : Bool) : Bool := x.stepStarts shadowNext && !x.rerun

/-- The boundary allows an asynchronous entry (R260, R319): GM is 0 as well. -/
def Core.boundary (x : Core) (shadowNext : Bool) : Bool := !x.gm && x.mayEnter shadowNext

/-- A monitor request is raised with its reason (R505, R509, R510). -/
def State.monRequest (s : State) (c reason unit : Nat) : State :=
  if (s.coreAt c).monReq then s
  else
    ((s.modCore c fun x => { x with monReq := true }).setF DBG.base (DBG.C_STATUS.REASON.at (0x80 * (c % 4))) reason).setF
      DBG.base (DBG.C_STATUS.UNIT.at (0x80 * (c % 4))) unit

/-- A trace item is made while tracing is on for the core; a full unit drops it (R518, R519). -/
def State.traceItem (s : State) (c kind from_ to_ : Nat) : State :=
  let on := s.getB DBG.base DBG.TRACE_CFG.EN && s.taps && s.getB ATC.base ATC.STATUS.READY
    && s.bit DBG.base DBG.TRACE_CFG.CORES c
  let sel := match kind with
    | 1 => s.getB DBG.base DBG.TRACE_CFG.BRANCH && s.getF DBG.base DBG.TRACE_LO.ADDR ≤ from_
        && from_ ≤ s.getF DBG.base DBG.TRACE_HI.ADDR
    | 4 => s.getB DBG.base DBG.TRACE_CFG.WATCH
    | _ => s.getB DBG.base DBG.TRACE_CFG.ENTRY
  if on && sel then
    if s.dbg.trace.length < 64 then
      { s with dbg := { s.dbg with trace := s.dbg.trace ++ [⟨s.marketNs, c, kind, from_, to_⟩] } }
    else { s.countSat DBG.base DBG.TRACE_LOST.COUNT with dbg := { s.dbg with traceGap := true } }
  else s

/-! ### Core reset (R330, R334, R387) -/

/-- A core reset starts with a cause code of RST_CAUSE.CORE: the island goes down, the crier drops the core's
claims, accesses outstanding get no acknowledge.  CORE_RESET ends it 1 µs later. -/
def State.startCoreReset (s : State) (c cause : Nat) : State :=
  let f := Fin.ofNat 4 c
  let s := (s.setIsland (.core f) false).criCoreReset c
  let s := s.setF CEL.base ⟨CEL.RST_CAUSE.CORE.off, 2 * c + 25, 2 * c + 24⟩ cause
  let s := if cause = 1 then s else s.ledger 0x03 c cause 0
  let s := s.modCore c fun x =>
    { x with out := [], lockLeft := 0, lockWord := none, monReq := false, stepAt := none, stepping := false, resumeAsk := none }
  let s := { s with ode := { s.ode with waits := s.ode.waits.set (Fin.ofNat 6 c) none } }
  { s with cellar := { s.cellar with coreReset := s.cellar.coreReset.set f (some (cause, s.now + us)) } }.frozenUpdate

/-- The core enters MON: a refused RESUME or STEP is no longer shown (R508). -/
def State.monEntered (s : State) (c : Nat) : State :=
  { s with dbg := { s.dbg with resumeRefused := BitVec.ofNat 4 (withBit s.dbg.resumeRefused.toNat c false) } }

/-- The RETI that leaves MON: a frozen core watchdog loads TIMEOUT (R517). -/
def State.leaveMon (s : State) (c : Nat) : State :=
  if s.getB (WDT.base c) WDT.CTRL.DBGFRZ then s.wdtReload c else s

/-! ### Taking an exception (R320–R325) -/

/-- A position as the save set records it (R324). -/
structure Position where
  spc : BitVec 24
  snpc : BitVec 24
  redo : Bool := false
  slot : Bool := false
  pend : BitVec 2 := 0

/-- What else an exception records (R323, R331). -/
structure Syndrome where
  code : Nat
  faddr : Nat := 0
  kind : Nat := 0
  write : Bool := false
  lkbrk : Bool := false
  imprecise : Bool := false
  deriving DecidableEq, Repr

/-- The SCAUSE word (R331). -/
def scauseWord (p : Position) (y : Syndrome) : Word :=
  BitVec.ofNat 32 (y.code + 2 ^ 7 * p.redo.toNat + 2 ^ 8 * p.slot.toNat + 2 ^ 9 * p.pend.toNat
    + 2 ^ 11 * y.imprecise.toNat + 2 ^ 12 * y.lkbrk.toNat + 2 ^ 16 * y.kind + 2 ^ 20 * y.write.toNat)

/-- The position of an entry at a boundary (R324). -/
def Core.atBoundary (x : Core) : Position := ⟨if x.mid then x.pc else x.last.getD x.pc, x.pc, false, false, 0⟩

/-- The handler address of a slot (R322). -/
def Core.handler (x : Core) (slot : Nat) : BitVec 24 := BitVec.ofNat 24 (bitsOf x.vbase.toNat 23 8 * 256 + 16 * slot)

/-- Where entries into a level go: `fault` tells a synchronous exception at its target level, `trap` a TRAP. -/
def Core.entryPc (x : Core) (lvl : Nat) (fault trap : Bool) : BitVec 24 :=
  if lvl = 9 then 0xF08000
  else if lvl = 8 then x.handler 10
  else if trap then x.handler 9
  else if fault then x.handler 8
  else x.handler lvl

/-- The boot-ROM handlers, which the Reset value of VBASE selects, write a ledger entry and request a core reset
(R331). -/
def State.romHandler (s : State) (c code spc : Nat) : State :=
  if bitsOf (s.coreAt c).vbase.toNat 23 8 = 0xF001 then (s.ledger 0x0E c code spc).startCoreReset c 3 else s

/-- Entry into level `lvl`: the save set, ST, the window, SSEL, the mask-overrun count, PC (R323); the
monitor's status on entry into MON (R506); the boot-ROM handlers' own effect (R331). -/
def State.enterLevel (s : State) (c lvl : Nat) (fault trap : Bool) (p : Position) (y : Syndrome) : State :=
  let x := (s.coreAt c).acknowledgeAll
  let pc := x.entryPc lvl fault trap
  let sst := (x.setSt 8 8 (if y.lkbrk then 0 else x.lk.toNat)).st
  let set : Vector Word 11 := #v[p.spc.setWidth 32, p.snpc.setWidth 32, sst, scauseWord p y,
    BitVec.ofNat 32 y.faddr, x.ls[(0 : Fin 2)], x.le[(0 : Fin 2)], x.lc[(0 : Fin 2)],
    x.ls[(1 : Fin 2)], x.le[(1 : Fin 2)], x.lc[(1 : Fin 2)]]
  let x1 := ((x.setSt 15 12 lvl).setSt 10 6 0x8).setFrm ((x.frm + 1) % 32)
  let s := s.modCore c fun _ => { x1 with
    saves := x.saves.set (Fin.ofNat 9 (lvl - 1)) set
    inUse := x.inUse ||| BitVec.ofNat 10 (2 ^ lvl)
    ssel := 0, gmFrom := s.now, pc := pc, last := none, slot := none, shadow := [], hold := false
    waiting := false, mid := false, lockLeft := 0, lockWord := none, lockUses := 0, skipBp := false
    replayed := none, rerun := false }
  let s := s.traceItem c 2 (p.spc.toNat + 2 ^ 24 * y.code) pc.toNat
  let s := if lvl = 8 then s.ledger 0x06 c (y.code + 256 * x.cl) p.spc.toNat else s
  let s := if lvl = 9 then
    (s.modCore c fun z => { z with monReq := false, stepAt := none, stepping := false }).monEntered c
  else s.romHandler c y.code p.spc.toNat
  s.frozenUpdate

/-- TAKING AN EXCEPTION: the one operation by which a synchronous exception is entered (R320, R330): at its
target level, at DF, or as a core reset at DF. -/
def State.takeException (s : State) (c : Nat) (p : Position) (y : Syndrome) : State :=
  let x := s.coreAt c
  let trap : Bool := 0x20 ≤ y.code
  let target := max 1 (if trap then bitsOf x.lvlcfg.toNat 6 4 else bitsOf x.lvlcfg.toNat 2 0)
  if x.cl = 8 then (s.ledger 0x07 c (y.code + 256 * 8) p.spc.toNat).startCoreReset c 1
  else
    let s := if x.stepAt.any (·.toNat = x.cl) then
        (s.monRequest c 4 0).modCore c fun z => { z with stepAt := none } else s
    if x.cl < target then s.enterLevel c target true trap p y
    else s.enterLevel c 8 true false p y

/-! ### Return (R326, R327) -/

/-- RETI at level 1 to 9: the return with its window underflow, which goes before a pending request (R332), or chaining
into a request whose save set is free. -/
def State.retiOnce (s : State) (c : Nat) : State :=
  let s := s.modCore c Core.acknowledgeAll
  let x := s.coreAt c
  let v := x.cl
  let set := x.saves[Fin.ofNat 9 (v - 1)]
  let sst := set[(2 : Fin 11)]
  let cause := set[(3 : Fin 11)].toNat
  let cl' := savedCl sst
  let best := if sst.getLsbD 10 then 0 else s.bestLevel c cl'
  let free : BitVec 10 := x.inUse &&& ~~~(BitVec.ofNat 10 (2 ^ v))
  let mon := !sst.getLsbD 10 && x.monReq && cl' ≤ 7 && !free.getLsbD 9
  let pend := bitsOf cause 10 9
  let frm1 := (x.frm + 31) % 32
  let under := pend = 3 && frm1 = x.wb.toNat % 32
  if !under && (best ≠ 0 || mon) then
    let w := if best ≠ 0 then best else 9
    let set' := set.set (3 : Fin 11) (BitVec.ofNat 32 (setBitsOf cause 6 0 (if w = 9 then 0x60 else 0)))
    let s := s.modCore c fun _ => { x.setSt 15 12 w with
      saves := x.saves.set (Fin.ofNat 9 (w - 1)) set'
      inUse := free ||| BitVec.ofNat 10 (2 ^ w)
      pc := x.entryPc w false false, last := none, gmFrom := s.now, shadow := [], hold := false
      monReq := x.monReq && w != 9, stepAt := if w = 9 then none else x.stepAt
      stepping := x.stepping && w != 9 }
    let s := if v = 9 then s.leaveMon c else s
    (if w = 9 then s.monEntered c else s.romHandler c 0 set[(0 : Fin 11)].toNat).frozenUpdate
  else
    let redo := cause.testBit 7
    let slot := cause.testBit 8
    let spc : BitVec 24 := set[(0 : Fin 11)].setWidth 24
    let snpc : BitVec 24 := set[(1 : Fin 11)].setWidth 24
    let frm2 := if pend = 3 && !under then (frm1 + 31) % 32 else frm1
    let x1 := ({ x with st := sst }.setSt 8 8 0).setFrm frm2
    let pc := if redo then spc else snpc
    let s := s.modCore c fun _ => { x1 with
      ls := #v[set[(5 : Fin 11)], set[(8 : Fin 11)]]
      le := #v[set[(6 : Fin 11)], set[(9 : Fin 11)]]
      lc := #v[set[(7 : Fin 11)], set[(10 : Fin 11)]]
      inUse := free, ssel := 0, gmFrom := s.now, pc := pc, last := none, mid := false, shadow := [], hold := false
      slot := if redo && slot then some ⟨some snpc, BitVec.ofNat 2 pend, spc - 1⟩ else none
      skipBp := v = 9 }
    let s := (if v = 9 then s.leaveMon c else s).frozenUpdate
    let s := s.traceItem c 3 x.pc.toNat pc.toNat
    if under then s.takeException c ⟨spc, snpc, false, false, 3⟩ { code := 0x08 } else s

/-- The monitor executes RETI for a RESUME, or for a STEP, which raises a request once a step has retired at the
level returned to (R508). -/
def State.monLeave (s : State) (c : Nat) (step : Bool) : State :=
  let x := s.coreAt c
  let to_ : BitVec 4 := BitVec.ofNat 4 (savedCl x.saves[(8 : Fin 9)][(2 : Fin 11)])
  (s.modCore c fun z =>
    { z with resumeAsk := none, stepping := step, stepAt := if step then some to_ else none }).retiOnce c

/-- RETI; a monitor that it returns to executes the RESUME or STEP that waits for it (R506, R508). -/
def State.reti (s : State) (c : Nat) : State :=
  let t := s.retiOnce c
  let x := t.coreAt c
  match x.resumeAsk with
  | some step => if x.cl = 9 then t.monLeave c step else t
  | none => t

/-! ### Asynchronous entries -/

/-- Entry of an accepted interrupt request of level `v` (R315, R319). -/
def State.interrupt (s : State) (c v : Nat) : State :=
  s.enterLevel c v false false (s.coreAt c).atBoundary { code := 0 }

/-- Entry of the monitor (R506). -/
def State.monitorEntry (s : State) (c : Nat) : State :=
  s.enterLevel c 9 false false (s.coreAt c).atBoundary { code := 0x60 }

/-- The oldest access is lost with its island: its instruction, which has not retired, raises the bus error of KIND 5,
and the younger accesses go with their instructions (R28, R308). -/
def State.raiseLost (s : State) (c : Nat) (o : Outstanding) : State :=
  let s := (s.busError c o.addr 5 o.write).modCore c fun x =>
    { x with out := [], pc := o.pc, last := o.last, shadow := o.shadow, hold := o.hold }
  s.takeException c ⟨o.pc, o.pc + BitVec.ofNat 24 (s.insnLength c o.pc), true, false, 0⟩
    { code := if o.write then 0x05 else 0x04, faddr := o.addr, kind := 5, write := o.write }

/-- Something that a core does only once its outstanding accesses have returned (R307, R308). -/
def State.settled (s : State) (c : Nat) (act : State → State) : State :=
  if s.coreUp c then
    let t := s.modCore c Core.acknowledgeAll
    match (t.coreAt c).out with
    | o :: _ => t.raiseLost c o
    | [] => act t
  else s

/-- INTERRUPT_ENTRY: at this boundary the highest acceptable request of core `c` is entered.  `shadowNext`: the
next instruction is a shadow read, where a ROM holds it (R260, R315, R319). -/
def execInterruptEntry (c : Fin 4) (shadowNext : Bool) (s : State) : Result :=
  let x := s.core[c]
  let v := s.bestLevel c x.cl
  .next (if x.boundary (s.shadowNext c shadowNext) && v ≠ 0 then s.settled c fun t => t.interrupt c v else s)

/-- MONITOR_ENTRY: a waiting monitor request is accepted, unless an interrupt request goes first (R319,
R506). -/
def execMonitorEntry (c : Fin 4) (shadowNext : Bool) (s : State) : Result :=
  let x := s.core[c]
  .next (if x.boundary (s.shadowNext c shadowNext) && x.monReq && x.cl ≤ 7 && !x.inUse.getLsbD 9
      && s.bestLevel c x.cl = 0 then
    s.settled c fun t => t.monitorEntry c else s)

/-- MASK_OVERRUN: the count passes LIMIT with GM = 1 at CL 0–7, and cause 0x09 is raised at a boundary that
R260 allows (R328). -/
def execMaskOverrun (c : Fin 4) (shadowNext : Bool) (s : State) : Result :=
  let x := s.core[c]
  let limit := bitsOf x.gmctl.toNat 15 0
  .next (if x.gm && x.cl ≤ 7 && limit ≠ 0 && x.mayEnter (s.shadowNext c shadowNext) then
    s.settled c fun t =>
      (t.atTime (x.gmFrom + (limit + 1) * cc)).takeException c
        ⟨x.pc, x.pc + BitVec.ofNat 24 (s.insnLength c x.pc), true, false, 0⟩ { code := 0x09 }
  else s)

/-- ACCESS_ACKNOWLEDGE: the value or acknowledge of the oldest register-region access of core `c` returns (R26,
R307). -/
def execAccessAcknowledge (c : Fin 4) (s : State) : Result :=
  .next (match s.core[c].out with
  | [] => s
  | o :: _ => if o.lost then s.raiseLost c o else s.modCore c Core.acknowledge)

/-- IMPRECISE_STORE_ERROR: the oldest report of a failed posted store is raised at a boundary at which the core
can take an exception (R310, R325). -/
def execImpreciseStoreError (c : Fin 4) (shadowNext : Bool) (s : State) : Result :=
  let x := s.core[c]
  .next (match x.imprecise with
  | [] => s
  | (a, k) :: rest =>
    if x.mayEnter (s.shadowNext c shadowNext) then
      s.settled c fun t =>
        (t.modCore c fun z => { z with imprecise := rest }).takeException c
          ⟨x.pc, x.pc + BitVec.ofNat 24 (s.insnLength c x.pc), true, false, 0⟩
          { code := 0x05, faddr := a, kind := k, write := true, imprecise := true }
    else s)

end Sys2Proof.Machine
end

