-- ==== Sys2Proof/Machine/Attic.lean ====
section
/-! DEFINITION. The attic recorder: items, the drive, the region, readback (R477–R499). -/

namespace Sys2Proof.Machine

/-! ### Items (R477, R478, R483, R519) -/

/-- An item goes to the stream tap and the window tap where each takes it and is at work. -/
def State.toTaps (t : State) (onStream onWindow : Bool) (put : State → Bool → State) : State :=
  let t := if onStream && t.streaming then put t false else t
  if onWindow && t.windowing then put t true else t

/-- An item into its stream block and its window block, as the recorder selects them (R477, R480, R483, R484). -/
def State.takeItem (s : State) (i : Item) : State :=
  match i with
  | .scan k time apt pitch mask codes =>
    let f := Fin.ofNat 12 k
    let on := s.streaming && s.bit ATC.base ATC.SEL_CNV.STREAM k
    let n := s.attic.scanCount[f] + 1
    let s := if on then s.modAttic fun a => { a with scanCount := a.scanCount.set f n } else s
    let due := on && n % max 1 (s.getF ATC.base ATC.DEC.DEC) = 0
    s.toTaps due (s.bit ATC.base ATC.SEL_CNV.WINDOW k) fun t w =>
      t.putItem 1 w k time apt mask pitch (2 ^ k) (codes.flatMap fun c => leBytes c.toNat 2)
  | .cmp c time result latch =>
    s.toTaps true true fun t w =>
      t.putItem 2 w 0 time 0 0 0 (2 ^ (c / 2)) (leBytes (time / ns) 6 ++ leBytes c 1 ++ leBytes (result + 4 * latch.toNat) 1)
  | .leg l time up dn zero =>
    s.toTaps zero (!zero) fun t w =>
      t.putItem 3 w 0 time 0 0 0 (2 ^ (l / 4)) (leBytes (time / ns) 8 ++ leBytes (up + 2 ^ 26 * l) 4 ++ leBytes dn 4)
  | .mark source tag time value =>
    s.toTaps true true fun t w =>
      t.putItem 4 w 0 time 0 0 0 (if source < 12 then 2 ^ source else 0)
        (leBytes (time / ns) 8 ++ leBytes tag 1 ++ leBytes source 3 ++ leBytes value.toNat 4)
  | .cal => if s.streaming || s.windowing then s.calBlock else s

/-- A trace item into the TRACE block (R519). -/
def State.takeTrace (s : State) (t : TraceItem) : State :=
  let s := if s.dbg.traceGap then
      { s.modAttic fun a => { a with gaps := if a.gaps.contains (6, false) then a.gaps else a.gaps ++ [(6, false)] } with
        dbg := { s.dbg with traceGap := false } } else s
  s.putItem 6 false 0 (t.time * ns) 0 0 0 0 (leBytes t.time 6 ++ leBytes t.core 1 ++ leBytes t.kind 1 ++ leBytes t.frm 4
    ++ leBytes t.to_ 4)

/-- RECORDER_ITEM: the oldest item on its way is written by its tap; with none, the oldest item of the trace unit
(R477, R519). -/
def execRecorderItem (s : State) : Result :=
  .next (match s.attic.items with
  | i :: rest =>
    let t := s.modAttic fun a => { a with items := rest }
    if t.taps then t.takeItem i else t
  | [] =>
    match s.dbg.trace with
    | t :: rest =>
      let u := { s with dbg := { s.dbg with trace := rest } }
      if u.taps then u.takeTrace t else u
    | [] => s)

/-- MARK_TAG: a core mark; a bit above TAG makes the write do nothing (R60, R478). -/
def State.markTag (s : State) (init value : Nat) : State :=
  if value / 256 ≠ 0 then s
  else s.offer true (.mark (16 + init) value s.marketUnits (s.rd (ATC.base + ATC.MARK_VAL.VALUE.off)))

/-- MARK_TAG (R478). -/
def execMarkTag (init : Fin 16) (value : Word) (s : State) : Result :=
  .next (s.onCommand init (ATC.base + ATC.MARK_TAG.TAG.off) fun t => t.markTag init value.toNat)

/-! ### Status -/

/-- A READ would be refused (R495). -/
def State.readCause (s : State) : Bool :=
  let n := min 8 (max 1 (s.getF ATC.base ATC.RB_COUNT.COUNT))
  s.getB ATC.base ATC.STATUS.RB_BUSY || !s.getB ATC.base ATC.STATUS.READY
    || s.getF ATC.base ATC.REG_LEN.LEN < s.getF ATC.base ATC.RB_LBA.BLOCK + n

/-- CMD_REFUSED lasts while the cause of a refusal persists (R57, R499); WEAR follows the last poll and WEAR_PCT
(R494). -/
def State.atcStatus (s : State) : State :=
  let r := s.attic.readRefused && s.readCause
  let f := s.attic.formatRefused && !s.attic.step6
  let s := s.modAttic fun a => { a with readRefused := r, formatRefused := f }
  let polled := s.attic.smartAt != 0
  (s.setB ATC.base ATC.STATUS.CMD_REFUSED (r || f)).setB ATC.base ATC.STATUS.WEAR
    (polled && (s.getF ATC.base ATC.WEAR_PCT.PCT ≤ s.getF ATC.base ATC.SMART.PCT_USED
      || s.getF ATC.base ATC.SMART.CRIT != 0))

/-- The conditions of PE_PERST_N (R488); a shutdown keeps it high until it has ended (R493). -/
def State.perstUpdate (s : State) : State :=
  let ok := (s.getB ATC.base ATC.CTRL.ENABLE || s.attic.stopping) && s.islandUp .attic
    && s.getB SYS.base SYS.CLK_STATUS.PCIE_LOCK
  if ok then s.modAttic fun a => { a with perstFrom := some (a.perstFrom.getD s.now) }
  else
    ((s.modAttic fun a => { a with perstFrom := none, perst := false, bringUp := false, step6 := false }).setB
      ATC.base ATC.STATUS.READY false).setF ATC.base ATC.LINK.W 0

/-- PERST_RELEASE: PE_PERST_N rises 100 ms after its conditions are met (R488). -/
def execPerstRelease (s : State) : Result :=
  .next (match s.attic.perstFrom with
  | some t0 =>
    if s.attic.perst || s.attic.stopping then s
    else (s.atTime (t0 + 100000 * us)).modAttic fun a => { a with perst := true, bringUp := true }
  | none => s)

/-! ### The region (R491, R492) -/

def State.atcSeq (s : State) : Nat := s.get64 ATC.base ATC.SEQ_LO.SEQ ATC.SEQ_HI.SEQ
def State.regStart (s : State) : Nat := s.get64 ATC.base ATC.REG_START_LO.LBA ATC.REG_START_HI.LBA
def State.regLen (s : State) : Nat := s.getF ATC.base ATC.REG_LEN.LEN

/-- The block after `w` in the circle 2 … REG_LEN − 1. -/
def State.nextBlock (s : State) (w : Nat) : Nat := if w + 1 < s.regLen then w + 1 else 2

/-- One data block has gone into the circle (R491). -/
def State.advance (s : State) : State :=
  let w := s.nextBlock (s.getF ATC.base ATC.WPTR.BLOCK)
  let full := s.getB ATC.base ATC.STATUS.WRAPPED
  let s := (s.setF ATC.base ATC.WPTR.BLOCK w).set64 ATC.base ATC.SEQ_LO.SEQ ATC.SEQ_HI.SEQ (s.atcSeq + 1)
  if full then s.setF ATC.base ATC.OLDEST.BLOCK w
  else if s.getF ATC.base ATC.OLDEST.BLOCK = w then s.setB ATC.base ATC.STATUS.WRAPPED true else s

def State.advances (s : State) : Nat → State
  | 0 => s
  | n + 1 => s.advance.advances n

/-- The region opens: the pointers of a checkpoint, then the blocks that the scan accepts; the recorder is ready
(R490, R492). -/
def State.openRegion (s : State) (c : CkptCopy) (copy scanned : Nat) : State :=
  let s := ((s.setF ATC.base ATC.WPTR.BLOCK c.wptr.toNat).setF ATC.base ATC.OLDEST.BLOCK c.oldest.toNat).set64
    ATC.base ATC.SEQ_LO.SEQ ATC.SEQ_HI.SEQ c.nextSeq.toNat
  let s := s.setB ATC.base ATC.STATUS.WRAPPED (decide (s.regLen - 2 ≤ c.nextSeq.toNat - 1))
  let s := s.advances scanned
  let s := (s.setB ATC.base ATC.STATUS.NO_REGION false).setB ATC.base ATC.STATUS.READY true
  let s := s.setB ATC.base ATC.STATUS.DRV_FAIL false
  let s := s.modAttic fun a => { a with
    ckptCount := c.count.toNat, ckptCopy := copy, failAt := none, scanCount := Vector.replicate 12 0
    ckptAt := s.now + max 1 (s.getF ATC.base ATC.TIMING.CKPT_MS) * 1000 * us
    smartAt := s.now + max 1 (s.getF ATC.base ATC.TIMING.SMART_S) * 1000000 * us }
  (s.offer (s.getB ATC.base ATC.CTRL.STREAM_EN) .cal).atcStatus

/-- A checkpoint copy that counts: good CRC, and the region as configured (R492). -/
def State.copyGood (s : State) (c : CkptCopy) : Bool :=
  c.good && c.start.toNat == s.regStart && c.len.toNat == s.regLen

/-- A drive failure (R490). -/
def State.driveFail (s : State) (step opc stat : Nat) : State :=
  let s := ((s.setF ATC.base ATC.DRV_ERR.STEP step).setF ATC.base ATC.DRV_ERR.OPC opc).setF ATC.base ATC.DRV_ERR.STAT stat
  ((s.setB ATC.base ATC.STATUS.DRV_FAIL true).setB ATC.base ATC.STATUS.READY false).modAttic fun a =>
    { a with bringUp := false, failAt := some s.now }

/-- A command in service: an error is repeated once, a second one fails the drive (R490). -/
def State.nvme (s : State) (opc : Nat) (r : NvmeResult) (done : State → State) : State :=
  if r.first = 0 || r.second = 0 then done s else (s.driveFail 8 opc r.second.toNat).atcStatus

/-- BRING_UP: steps 2 to 7 of R490. -/
def execBringUp (env : DriveEnv) (s : State) : Result :=
  .next (if s.getB ATC.base ATC.CTRL.ENABLE && s.attic.perst && s.attic.bringUp then
    let s := s.modAttic fun a => { a with bringUp := false, step6 := false }
    let failed (k : Nat) : Bool := env.failStep.val = k
    if failed 1 || failed 2 then (s.driveFail env.failStep env.opc.toNat env.stat.toNat).atcStatus
    else
      let s := (s.setF ATC.base ATC.LINK.WIDTH env.width).setF ATC.base ATC.LINK.SPEED env.speed
      if failed 3 || failed 4 then (s.driveFail env.failStep env.opc.toNat env.stat.toNat).atcStatus
      else if s.regLen < 64 || 0x10000000 < s.regLen || !env.namespaceOk then
        (s.setB ATC.base ATC.STATUS.REG_BAD true).atcStatus
      else if failed 5 then (s.driveFail 5 env.opc.toNat env.stat.toNat).atcStatus
      else
        let s := s.setB ATC.base ATC.STATUS.REG_BAD false
        if failed 6 then (s.driveFail 6 env.opc.toNat env.stat.toNat).atcStatus
        else
          let s := s.modAttic fun a => { a with step6 := true }
          if failed 7 then (s.driveFail 7 env.opc.toNat env.stat.toNat).atcStatus
          else
            let a := s.copyGood env.copyA
            let b := s.copyGood env.copyB
            if a && (!b || env.copyB.count.toNat < env.copyA.count.toNat) then s.openRegion env.copyA 0 env.scanned
            else if b then s.openRegion env.copyB 1 env.scanned
            else (s.setB ATC.base ATC.STATUS.NO_REGION true).atcStatus
  else s)

/-- BRING_UP_RESTART: 1 s after a failure bring-up runs again (R490). -/
def execBringUpRestart (s : State) : Result :=
  .next (match s.attic.failAt with
  | some t0 =>
    if s.getB ATC.base ATC.CTRL.ENABLE && s.attic.perst then
      (s.atTime (t0 + 1000000 * us)).modAttic fun a => { a with failAt := none, bringUp := true }
    else s
  | none => s)

/-- PCIE_LINK_DOWN: READY falls and bring-up restarts (R490). -/
def execPcieLinkDown (s : State) : Result :=
  .next (((s.setB ATC.base ATC.STATUS.READY false).setF ATC.base ATC.LINK.W 0).modAttic
    (fun a => { a with step6 := false, bringUp := a.perst })).atcStatus

/-! ### Writes to the drive (R485, R489, R491) -/

/-- A data block is sent: SEQ, CRC (R479, R491); the window's first SEQ is kept (R485). -/
def State.sendBlock (s : State) (q : QueuedBlock) : State :=
  let a := slotAddr q.slot
  let seq := s.atcSeq
  let s := if q.copy.isNone then s.setBytes (a + 8) 8 seq else s
  let bytes := ((List.range 0x7C).map fun i => (s.byte (a + i)).toNat)
    ++ ((List.range 3968).map fun i => (s.byte (a + 0x80 + i)).toNat)
  let s := s.setBytes (a + 0x7C) 4 (crc32c bytes)
  let note (w : EventWindow) : EventWindow :=
    if q.window = some w.number then { w with firstSeq := some (w.firstSeq.getD seq) } else w
  let s := s.modAttic fun x => { x with
    window := x.window.map note, closing := x.closing.map note
    ring := x.ring.filter fun b => !(b.slot == q.slot && b.lock.isSome) }
  if q.copy.isNone then s.advance else s

/-- Up to `n` blocks of a queue have been written; their slots are free again, and windows that are complete get
their EVENT block. -/
def State.written (s : State) (window : Bool) (n : Nat) : State :=
  let q := if window then s.attic.windowQ else s.attic.streamQ
  let s := (q.take n).foldl State.sendBlock s
  (s.modAttic fun a => if window then { a with windowQ := a.windowQ.drop n } else { a with streamQ := a.streamQ.drop n }).retryLost.eventBlocks

/-- DRIVE_WRITE: a Write of up to 32 consecutive blocks of the stream or window queue completes (R489, R490). -/
def execDriveWrite (window : Bool) (n : Fin 33) (r : NvmeResult) (s : State) : Result :=
  .next (if s.getB ATC.base ATC.STATUS.READY then s.nvme 1 r fun t => t.written window n else s)

/-- The checkpoint block joins the stream queue for the copy not written last (R492). -/
def State.takeCheckpoint (s : State) : State :=
  let copy := 1 - s.attic.ckptCopy
  let n := s.attic.ckptCount + 1
  let p := leBytes s.atcSeq 8 ++ leBytes (s.getF ATC.base ATC.WPTR.BLOCK) 4 ++ leBytes (s.getF ATC.base ATC.OLDEST.BLOCK) 4
    ++ leBytes s.regStart 8 ++ leBytes s.regLen 4 ++ leBytes n 4
  match s.putBlock 8 1 0 p with
  | some (k, t) => t.modAttic fun a => { a with
      ckptCount := n, ckptCopy := copy, streamQ := a.streamQ ++ [{ slot := k, copy := some copy }] }
  | none => s

/-- CHECKPOINT: every CKPT_MS a Flush and a checkpoint (R492). -/
def execCheckpoint (r : NvmeResult) (s : State) : Result :=
  .next (if s.getB ATC.base ATC.STATUS.READY then
    let s := s.atTime s.attic.ckptAt
    let s := s.modAttic fun a => { a with
      ckptAt := s.now + max 1 (s.getF ATC.base ATC.TIMING.CKPT_MS) * 1000 * us, ckptOn := some s.now }
    s.nvme 0 r State.takeCheckpoint
  else s)

/-- ATTIC_SHUTDOWN: blocks in staging are written, the checkpoint is taken, the drive is shut down and
PE_PERST_N falls (R493). -/
def execAtticShutdown (s : State) : Result :=
  .next (if s.attic.stopping then
    let s := s.written true s.attic.windowQ.length
    let s := s.written false s.attic.streamQ.length
    let s := if s.attic.ckptDone then s else s.takeCheckpoint
    let s := s.written false s.attic.streamQ.length
    (s.modAttic fun a => { a with stopping := false }).perstUpdate
  else s)

/-- CTRL.ENABLE has gone to 1 or 0 (R484, R490, R493); a timed checkpoint of the same edge is the shutdown's (R497). -/
def State.atticEnabled (s : State) (on : Bool) : State :=
  if on then ((s.modAttic fun a => { a with stopping := false }).perstUpdate).atcStatus
  else
    let ready := s.getB ATC.base ATC.STATUS.READY
    let s := s.unaccept.closeWindow
    let s := (s.setB ATC.base ATC.STATUS.READY false).setB ATC.base ATC.STATUS.DRV_FAIL false
    let s := (s.setB ATC.base ATC.STATUS.NO_REGION false).setB ATC.base ATC.STATUS.REG_BAD false
    let s := s.setB ATC.base ATC.STATUS.DROPPING false
    (s.modAttic fun a => { a with
      stopping := ready, ckptDone := a.ckptOn == some s.now, items := [], bringUp := false, failAt := none }).perstUpdate.atcStatus

/-- STREAM_EN has gone to 1: ZEROs are counted from here (R480). -/
def State.streamEnabled (s : State) : State := s.modAttic fun a => { a with legZero := Vector.replicate 48 0 }

/-! ### Commands (R492, R495, R499) -/

/-- CMD.READ (R495). -/
def State.atcRead (s : State) : State :=
  if s.readCause then (s.modAttic fun a => { a with readRefused := true, readOn := some s.now }).atcStatus
  else
    let n := min 8 (max 1 (s.getF ATC.base ATC.RB_COUNT.COUNT))
    (s.setB ATC.base ATC.STATUS.RB_BUSY true).modAttic fun a =>
      { a with readback := some (s.getF ATC.base ATC.RB_LBA.BLOCK, n) }

/-- CMD.FORMAT (R492): both copies with SEQ 1 and WPTR 2, and the region opens. -/
def State.atcFormat (s : State) : State :=
  if s.attic.step6 then
    s.openRegion { good := true, count := 2, start := BitVec.ofNat 64 s.regStart, len := BitVec.ofNat 32 s.regLen } 1 0
  else (s.modAttic fun a => { a with formatRefused := true }).atcStatus

/-- A write to ATC.CMD: its commands in ascending bit order (R60). -/
def State.atcCmd (s : State) (v : Nat) : State :=
  if v / 32 ≠ 0 then s
  else
    let t := if v.testBit 0 then s.trigger 0 0 s.marketNs else s
    let t := if v.testBit 1 then t.atcRead else t
    let t := if v.testBit 2 && t.getB ATC.base ATC.STATUS.READY then t.takeCheckpoint else t
    let t := if v.testBit 3 then t.atcFormat else t
    if v.testBit 4 then ((t.clearCount ATC.base ATC.CNT.SHORT).clearCount ATC.base ATC.CNT.MERGED).clearCount ATC.base ATC.DROP.ITEMS else t

/-- TRIG (R484). -/
def execTrig (init : Fin 16) (s : State) : Result :=
  .next (s.onCommand init (ATC.base + ATC.CMD.W.off) fun t => t.atcCmd 1)
/-- ATC_READ (R495). -/
def execAtcRead (init : Fin 16) (s : State) : Result :=
  .next (s.onCommand init (ATC.base + ATC.CMD.W.off) fun t => t.atcCmd 2)
/-- CKPT (R492). -/
def execCkpt (init : Fin 16) (s : State) : Result :=
  .next (s.onCommand init (ATC.base + ATC.CMD.W.off) fun t => t.atcCmd 4)
/-- FORMAT (R492). -/
def execFormat (init : Fin 16) (s : State) : Result :=
  .next (s.onCommand init (ATC.base + ATC.CMD.W.off) fun t => t.atcCmd 8)
/-- ATC_CNT_CLR (R499). -/
def execAtcCntClr (init : Fin 16) (s : State) : Result :=
  .next (s.onCommand init (ATC.base + ATC.CMD.W.off) fun t => t.atcCmd 16)

/-- WINDOW_CLOSE: market time passes T + WIN_POST of the open window (R484, R485). -/
def execWindowClose (s : State) : Result :=
  .next (match s.attic.window with
  | some w => (s.atTime (s.marketReaches (w.time + 1000 * w.post + 1))).closeWindow
  | none => s)

/-- READBACK_END: the blocks come into RB_BUF, or the read fails with an NVMe status (R495); source 138 pulses. A READ of
the same edge starts after it (R497). -/
def execReadbackEnd (data : List Word) (status : BitVec 16) (s : State) : Result :=
  .next (match s.attic.readback with
  | none => s
  | some (_, n) =>
    let s := (s.modAttic fun a => { a with readback := none }).setB ATC.base ATC.STATUS.RB_BUSY false
    let s := if status = 0 then
        ((data.take (1024 * n)).zipIdx.foldl (fun t w => t.setF ATC.base (ATC.RB_BUF.DATA.at (4 * (w.2 % 8192))) w.1.toNat) s).setF
          ATC.base ATC.RB_STATUS.RESULT 1
      else (s.setF ATC.base ATC.RB_STATUS.RESULT 2).setF ATC.base ATC.RB_STATUS.STAT status.toNat
    let s := if s.attic.readRefused && s.attic.readOn == some s.now then
        (s.modAttic fun a => { a with readRefused := false }).atcRead
      else s
    (s.atcStatus).pulseIf (s.bit ATC.base ATC.IRQ_EN.SRC 5) 138)

/-- SMART_POLL: every SMART_S seconds log page 0x02 is read (R494). -/
def execSmartPoll (temp : BitVec 16) (crit pct : BitVec 8) (media : Nat) (r : NvmeResult) (s : State) : Result :=
  .next (if s.getB ATC.base ATC.STATUS.READY then
    let s := s.atTime s.attic.smartAt
    let s := s.modAttic fun a => { a with smartAt := s.now + max 1 (s.getF ATC.base ATC.TIMING.SMART_S) * 1000000 * us }
    s.nvme 2 r fun t =>
      (((((t.setF ATC.base ATC.SMART.TEMP temp.toNat).setF ATC.base ATC.SMART.CRIT crit.toNat).setF ATC.base
        ATC.SMART.PCT_USED pct.toNat).setF ATC.base ATC.MEDIA_ERR.COUNT (min media 0xFFFFFFFF))).atcStatus
  else s)

end Sys2Proof.Machine
end

