-- ==== Sys2Proof/Machine/Fixed.lean ====
section
/-! DEFINITION. Exact arithmetic and its rounding: converter corrections, the fixed point of the stall engines, cosine
and sine (R116, R220, R223). -/

namespace Sys2Proof.Machine

/-- Round to the nearest integer, ties away from zero (R116). -/
def roundAway (n : Int) (d : Nat) : Int :=
  let m : Int := ((2 * n.natAbs + d) / (2 * d) : Nat)
  if n < 0 then -m else m

def clampInt (lo hi v : Int) : Int := if v < lo then lo else if hi < v then hi else v

/-! ### Fixed point (R220) -/

/-- Round a quotient and saturate it to 32 bits: the word, and whether it saturated. -/
def sat32 (n : Int) (d : Nat) : Word × Bool :=
  let r := roundAway n d
  let c := clampInt (-2147483648) 2147483647 r
  (BitVec.ofInt 32 c, c != r)

/-- Saturate a Q32.32 value. -/
def sat64 (n : Int) : Int × Bool :=
  let c := clampInt (-(2 ^ 63)) (2 ^ 63 - 1) n
  (c, c != n)

/-- π/2 in units of 2⁻⁹⁶. -/
def halfPi : Nat := 124451306656115542615260972311

/-- The Taylor sum t − t·x²/((k+1)(k+2)) + …, in units of 2⁻⁹⁶. -/
def taylor (x2 : Int) : Nat → Nat → Int → Int
  | 0, _, _ => 0
  | n + 1, k, t => t + taylor x2 n (k + 2) (-(t * x2) / 2 ^ 96 / (((k + 1) * (k + 2) : Nat) : Int))

/-- cos and sin of an angle within the first quarter turn, in units of 2⁻⁹⁶. -/
def quarter (r : Nat) : Int × Int :=
  let x : Int := (r * halfPi / 2 ^ 30 : Nat)
  let x2 := x * x / 2 ^ 96
  (taylor x2 24 0 (2 ^ 96), taylor x2 24 1 x)

/-- cos and sin of an angle in turn format, each exactly rounded to Q16.16 but for the step that R223 leaves
open. -/
def sincos (angle : Word) : Word × Word :=
  let q := angle.toNat / 2 ^ 30
  let (c, s) := quarter (angle.toNat % 2 ^ 30)
  let p : Int × Int := if q = 0 then (c, s) else if q = 1 then (-s, c) else if q = 2 then (-c, -s) else (s, -c)
  let step (b : Bool) : Int := let k := Config.sincosStep angle b; if k = 0 then 0 else if k = 1 then 1 else -1
  (BitVec.ofInt 32 (roundAway p.1 (2 ^ 80) + step false), BitVec.ofInt 32 (roundAway p.2 (2 ^ 80) + step true))

end Sys2Proof.Machine
end

