-- ==== Sys2Proof/Machine/Leg.lean ====
section
/-! DEFINITION. Legs: shadow sets, transfer, immediate-if-safe, dead time, the output stage and the trip
stage (R164–R179, R196–R200). -/

namespace Sys2Proof.Machine

/-- One 1/64 ac (R9). -/
def tick64 : Nat := 250

/-- The carrier stall `k` uses (R77). -/
def State.carOf (s : State) (k : Nat) : Nat :=
  4 * (k / 4) + bitsOf (s.getF (AIS.base (k / 4)) AIS.CTRL.CARMAP) (2 * (k % 4) + 1) (2 * (k % 4))

/-- The carrier is enabled. -/
def State.carOn (s : State) (g : Nat) : Bool := s.getB (CAR.base g) CAR.CTRL.ENABLE

/-- The carrier counts: enabled, not waiting, and its first ZERO has fired (R160). -/
def State.carRuns (s : State) (g : Nat) : Bool :=
  s.carOn g && !s.getB (CAR.base g) CAR.STATUS.WAIT && !(s.carAt g).starting

/-- PRD_ACT, in ac. -/
def State.prd (s : State) (g : Nat) : Nat := s.getF (CAR.base g) CAR.PRD_ACT.PRD

/-- The market instant of the carrier's last ZERO or PERIOD (R84). -/
def State.carInst (s : State) (g : Nat) : Nat := (s.carAt g).edge + (s.carAt g).fine

/-- The carrier counts down. -/
def State.carDown (s : State) (g : Nat) : Bool := s.getB (CAR.base g) CAR.STATUS.DIR

/-- The half-period register with its floor (R158). -/
def State.prdReg (s : State) (g : Nat) : Nat := max 100 (s.getF (CAR.base g) CAR.PRD.PRD)

/-- The delay of a market instant behind an aisle edge: d = ((64 − MT_PHASE) mod 64) / 64 ac (R84). -/
def State.phaseDelay (s : State) (a : Nat) : Nat :=
  (64 - s.getF (AIS.base a) AIS.MT_PHASE.PHASE) % 64 * tick64

/-- Where an event `d` ac after the last turning point falls: its edge and the delay of its market instant
(R83, R84, R85). -/
def State.carPlace (s : State) (g d : Nat) (slew : Int) : Nat × Nat :=
  let c := s.carAt g
  if s.getB (CAR.base g) CAR.CTRL.MLOCK then
    let inst := ((c.edge + c.fine + d * ac : Nat) + slew : Int).toNat
    (edgeDown inst, inst - edgeDown inst)
  else (c.edge + d * ac, s.phaseDelay (g / 4))

/-- The place of the next turning point of a counting carrier. -/
def State.turnPlace (s : State) (g : Nat) : Nat × Nat :=
  s.carPlace g (s.prd g) (if s.carDown g then (s.carAt g).slew else 0)

/-- A turning point falls on this edge and has not yet been carried out. -/
def State.turnDue (s : State) (g : Nat) : Bool := s.carRuns g && (s.turnPlace g).1 == s.now

/-- ZERO has fired on this edge. -/
def State.zeroNow (s : State) (g : Nat) : Bool := s.carRuns g && !s.carDown g && (s.carAt g).edge == s.now

/-! ### Leg sets -/

def State.shadowSet (s : State) (l : Nat) : LegSet :=
  ⟨s.getF (LEG.base l) LEG.CMP_UP.VALUE, s.getF (LEG.base l) LEG.CMP_DN.VALUE,
   s.getF (LEG.base l) LEG.DT_RISE.VALUE, s.getF (LEG.base l) LEG.DT_FALL.VALUE⟩

def State.activeSet (s : State) (l : Nat) : LegSet :=
  ⟨s.getF (LEG.base l) LEG.CMP_UP_ACT.VALUE, s.getF (LEG.base l) LEG.CMP_DN_ACT.VALUE,
   s.getF (LEG.base l) LEG.DT_RISE_ACT.VALUE, s.getF (LEG.base l) LEG.DT_FALL_ACT.VALUE⟩

/-- A leg is offered to the recorder: on a change of its active set for windows, and on every DEC-th ZERO since
STREAM_EN became 1 for the stream (R477, R480). -/
def State.legOffer (s : State) (l : Nat) (zero : Bool) : State :=
  let sel := if l < 32 then s.bit ATC.base ATC.SEL_LEG_LO.LEGS l else s.bit ATC.base ATC.SEL_LEG_HI.LEGS (l - 32)
  let f := Fin.ofNat 48 l
  let n := s.attic.legZero[f] + 1
  let due := !zero || n % max 1 (s.getF ATC.base ATC.DEC.DEC) = 0
  let s := if zero && s.getB ATC.base ATC.CTRL.STREAM_EN then
      { s with attic := { s.attic with legZero := s.attic.legZero.set f n } } else s
  s.offer (sel && due) (.leg l s.marketUnits (s.activeSet l).up (s.activeSet l).dn zero)

/-- All four values become active on one edge (R167); nothing is pending any more (R174). -/
def State.activate (s : State) (l : Nat) (v : LegSet) : State :=
  let old := s.activeSet l
  let s := ((((s.setF (LEG.base l) LEG.CMP_UP_ACT.VALUE v.up).setF (LEG.base l) LEG.CMP_DN_ACT.VALUE v.dn).setF
    (LEG.base l) LEG.DT_RISE_ACT.VALUE v.rise).setF (LEG.base l) LEG.DT_FALL_ACT.VALUE v.fall).setB
      (LEG.base l) LEG.STATUS.PEND false
  if old = v then s else s.legOffer l false

def State.cgate (s : State) (l : Nat) : Bool := s.getB (LEG.base l) LEG.CTRL.CGATE

/-- The eligible set of a landing or a start (R167, R170). -/
def State.eligible (s : State) (l : Nat) : LegSet :=
  if s.cgate l && (s.legAt l).landed then (s.legAt l).committed else s.shadowSet l

/-- A shadow transfer (R169, R171): with CGATE the committed set, and only if a commit has landed since the
last transfer or start. -/
def State.transfer (s : State) (l : Nat) : State :=
  if s.cgate l then
    if (s.legAt l).fresh then
      (s.activate l (s.legAt l).committed).modLeg l fun x => { x with fresh := false }
    else s
  else s.activate l (s.shadowSet l)

/-- XFER takes the events of its mode: ZERO (`up`) or PERIOD (R168). -/
def xferTakes (mode : Nat) (zero : Bool) : Bool :=
  match mode with
  | 0 => zero
  | 1 => !zero
  | _ => true

/-! ### The output stage (R175–R178, R196–R198) -/

inductive TripAction where
  | pass | off | lowOn | highOn
  deriving DecidableEq, Repr

/-- The action the trip stage applies (R197, R198). -/
def State.tripAction (s : State) (l : Nat) : TripAction :=
  let x := s.legAt l
  if !x.held then .pass
  else if x.acts.getLsbD 0 || (x.acts.getLsbD 1 && x.acts.getLsbD 2) then .off
  else if x.acts.getLsbD 1 then .lowOn
  else if x.acts.getLsbD 2 then .highOn
  else if x.holdOff || !s.getB (LEG.base l) LEG.STATUS.RUN then .off else .pass

/-- The arming state has arrived as armed in the leg's aisle. -/
def State.armedAt (s : State) (l : Nat) : Bool := 2 ≤ (s.aisleAt (l / 16)).arm.toNat

/-- What the two paths ask for after SWAP, INV and FORCE (R175, R177). -/
def State.asks (s : State) (l : Nat) : Bool × Bool :=
  let b := LEG.base l
  if !s.getB b LEG.CTRL.ENABLE then (false, false)
  else
    let fh := s.getF b LEG.CTRL.FORCE_HI
    let fl := s.getF b LEG.CTRL.FORCE_LO
    let p : Bool × Bool :=
      if s.getB b LEG.STATUS.RUN then
        let x := s.legAt l
        let q := if s.getB b LEG.CTRL.SWAP then (x.lo, x.hi) else (x.hi, x.lo)
        (q.1 != s.getB b LEG.CTRL.INV_HI, q.2 != s.getB b LEG.CTRL.INV_LO)
      else (false, false)
    (if fh = 1 then false else if fh = 2 then true else p.1,
     if fl = 1 then false else if fl = 2 then true else p.2)

/-- The safe levels of a leg's balls from the pad-ring latch; both 1 acts as both 0 (R370, R391). -/
def State.safeLevels (s : State) (l : Nat) : Bool × Bool :=
  let h := s.cellar.safeLatch.getLsbD (2 * l)
  let o := s.cellar.safeLatch.getLsbD (2 * l + 1)
  if h && o then (false, false) else (h, o)

/-- The smaller active dead time, which the interlock keeps (R176), in 1/6400 ns. -/
def State.interlockTime (s : State) (l : Nat) : Nat :=
  tick64 * min (s.activeSet l).rise (s.activeSet l).fall

/-- The dead times of a trip action (R197). -/
def State.tripRise (s : State) (l : Nat) : Nat := tick64 * max (s.activeSet l).rise (s.shadowSet l).rise
def State.tripFall (s : State) (l : Nat) : Nat := tick64 * max (s.activeSet l).fall (s.shadowSet l).fall

/-- Put levels on the balls at instant `t`, noting when a ball falls. -/
def State.setBalls (s : State) (l : Nat) (hi lo : Bool) (t : Nat) : State :=
  let b := LEG.base l
  let h0 := s.getB b LEG.STATUS.HI_BALL
  let l0 := s.getB b LEG.STATUS.LO_BALL
  let s := s.modLeg l fun x =>
    { x with hiFell := if h0 && !hi then t else x.hiFell, loFell := if l0 && !lo then t else x.loFell }
  (s.setB b LEG.STATUS.HI_BALL hi).setB b LEG.STATUS.LO_BALL lo

/-- The balls of leg `l` as they stand at instant `t` (R175–R178, R196–R198). -/
def State.drive (s : State) (l : Nat) (t : Nat) : State :=
  let b := LEG.base l
  if !s.armedAt l then
    let (h, o) := s.safeLevels l
    (s.setBalls l h o t).setB b LEG.STATUS.INTERLOCK false
  else
    let h0 := s.getB b LEG.STATUS.HI_BALL
    let l0 := s.getB b LEG.STATUS.LO_BALL
    let hf := if h0 then t else (s.legAt l).hiFell
    let lf := if l0 then t else (s.legAt l).loFell
    match s.tripAction l with
    | .off => (s.setBalls l false false t).setB b LEG.STATUS.INTERLOCK false
    | .lowOn => (s.setBalls l false (l0 || hf + s.tripFall l ≤ t) t).setB b LEG.STATUS.INTERLOCK false
    | .highOn => (s.setBalls l (h0 || lf + s.tripRise l ≤ t) false t).setB b LEG.STATUS.INTERLOCK false
    | .pass =>
      let (ah, al) := s.asks l
      let keepH := h0 && ah
      let keepL := l0 && al
      let w := s.interlockTime l
      let hi := keepH || (ah && !al && !keepL && lf + w ≤ t)
      let lo := keepL || (al && !ah && !keepH && hf + w ≤ t)
      (s.setBalls l hi lo t).setB b LEG.STATUS.INTERLOCK (ah && al)

/-- The instant at which a ball that waits for the other one rises (R176, R197); none waits for OFF, for a path that is
0, or where both paths ask. -/
def State.waitDue (s : State) (l : Nat) : Option Nat :=
  let x := s.legAt l
  let h := s.getB (LEG.base l) LEG.STATUS.HI_BALL
  let o := s.getB (LEG.base l) LEG.STATUS.LO_BALL
  if !s.armedAt l then none
  else
    match s.tripAction l with
    | .lowOn => if o then none else some (x.hiFell + s.tripFall l)
    | .highOn => if h then none else some (x.loFell + s.tripRise l)
    | .off => none
    | .pass =>
      let (ah, al) := s.asks l
      if ah && !al && !h then some (x.loFell + s.interlockTime l)
      else if al && !ah && !o then some (x.hiFell + s.interlockTime l)
      else none

/-- The earlier of two instants that may be absent. -/
def earlier (a b : Option Nat) : Option Nat :=
  match a, b with
  | some x, some y => some (min x y)
  | some x, none => some x
  | none, y => y

/-! ### The modulation signal and dead time (R164, R165) -/

/-- m takes value `v` at instant `t`: the falling side falls, the rising side waits for its dead time. -/
def State.setM (s : State) (l : Nat) (v : Bool) (t : Nat) : State :=
  let b := LEG.base l
  if s.getB b LEG.STATUS.M = v then s
  else
    let a := s.activeSet l
    let s := s.setB b LEG.STATUS.M v
    let s := s.modLeg l fun x =>
      if v then
        { x with lo := false, loRise := none, hi := a.rise = 0
                 hiRise := if a.rise = 0 then none else some (t + tick64 * a.rise) }
      else
        { x with hi := false, hiRise := none, lo := a.fall = 0
                 loRise := if a.fall = 0 then none else some (t + tick64 * a.fall) }
    s.drive l t

/-- The value of m at the start of a half at instant `t` (R164): ZERO or PERIOD; an m edge already placed in that half
stays where it is (R174). -/
def State.boundaryM (s : State) (l : Nat) (zero : Bool) (t : Nat) : Bool :=
  let a := s.activeSet l
  match (s.legAt l).placed with
  | some p => if zero then t < p else p ≤ t
  | none => if zero then 0 < a.up else 64 * s.prd (s.carOf (l / 4)) ≤ a.dn

/-- The leg starts on a ZERO at instant `t` (R170). -/
def State.legStart (s : State) (l : Nat) (t : Nat) : State :=
  let s := s.activate l (s.eligible l)
  let s := s.modLeg l fun x => { x with fresh := false, hi := false, lo := false, hiRise := none, loRise := none }
  let s := s.setB (LEG.base l) LEG.STATUS.RUN true
  let m := s.boundaryM l true t
  (s.setB (LEG.base l) LEG.STATUS.M (!m)).setM l m t

/-- The leg stops: its balls take their levels on this edge with no dead time (R178).  STATUS.M of a leg that does not
run reads 0 (DESIGN CHOICE, log entry 71). -/
def State.legStop (s : State) (l : Nat) : State :=
  let s := (s.setB (LEG.base l) LEG.STATUS.RUN false).setB (LEG.base l) LEG.STATUS.M false
  let s := s.modLeg l fun x => { x with hi := false, lo := false, hiRise := none, loRise := none, placed := none }
  s.drive l s.now

/-- The conditions under which a leg runs (R170). -/
def State.legMayRun (s : State) (l : Nat) : Bool :=
  s.armedAt l && s.getB (LEG.base l) LEG.CTRL.ENABLE && s.carOn (s.carOf (l / 4))

/-- After a change of a start condition or an override: stop, start with a ZERO of this edge, or drive the balls anew
(R170, R177–R179). -/
def State.legRefresh (s : State) (l : Nat) : State :=
  let run := s.getB (LEG.base l) LEG.STATUS.RUN
  if run && !s.legMayRun l then s.legStop l
  else if !run && s.legMayRun l && s.zeroNow (s.carOf (l / 4)) then s.legStart l (s.carInst (s.carOf (l / 4)))
  else s.drive l s.now

/-! ### The trip stage (R196–R200) -/

/-- Does group `q` name leg `l`? (R191) -/
def State.groupNames (s : State) (q l : Nat) : Bool :=
  (s.get64 TRP.base (TRP.GRP_LEGS_LO.LEGS.at (8 * q)) (TRP.GRP_LEGS_HI.LEGS.at (8 * q))).testBit l

/-- A group active at the trip stage names the leg. -/
def State.legNamed (s : State) (l : Nat) : Bool :=
  (List.range 16).any fun q => (s.aisleAt (l / 16)).groups.getLsbD q && s.groupNames q l

def State.setHeld (s : State) (l : Nat) (v : Bool) : State :=
  let s := s.modLeg l fun x => { x with held := v, acts := if v then x.acts else 0, holdOff := v && x.holdOff }
  if l < 32 then s.setBit TRP.base TRP.LEG_HELD_LO.HELD l v else s.setBit TRP.base TRP.LEG_HELD_HI.HELD (l - 32) v

/-- TRP.STATUS.ANY_HELD (R208). -/
def State.anyHeld (s : State) : State :=
  s.setB TRP.base TRP.STATUS.ANY_HELD
    (s.get64 TRP.base TRP.LEG_HELD_LO.HELD TRP.LEG_HELD_HI.HELD != 0)

/-- An active group that names the leg is at its trip stage: the leg is held with its action (R199); HOLD
at a half's end or at a leg not running acts as OFF (R197). -/
def State.hold (s : State) (l q : Nat) : State :=
  let act := s.getF TRP.base (TRP.GRP_CFG.ACTION.at (4 * q))
  let ends := decide ((s.carAt (s.carOf (l / 4))).edge = s.now) || !s.getB (LEG.base l) LEG.STATUS.RUN
  let before : BitVec 4 := match (s.legAt l).ended with
    | some (e, acts) => if e = s.now then acts else 0
    | none => 0
  let s := s.setHeld l true
  let s := s.modLeg l fun x =>
    { x with acts := x.acts ||| before ||| BitVec.ofNat 4 (2 ^ act)
             holdOff := x.holdOff || ((act = 3 || before.getLsbD 3) && ends) }
  (s.drive l s.now).anyHeld

/-- The hold ends on this edge (R199, R200); a group that arrives on the same edge continues it (R205). -/
def State.endHold (s : State) (l : Nat) : State :=
  let acts := (s.legAt l).acts
  (((s.setHeld l false).modLeg l fun x => { x with ended := some (s.now, acts) }).drive l s.now).anyHeld

/-- A hold that no active group asks for any more ends at once while the leg's carrier is disabled, and on the edge of a
ZERO that has fired (R199). -/
def State.unhold (s : State) (l : Nat) : State :=
  let g := s.carOf (l / 4)
  if (s.legAt l).held && !s.legNamed l && (!s.carOn g || s.zeroNow g) then s.endHold l else s

/-- The state of group `q` reaches the legs of aisle `a` (R199). -/
def State.groupArrives (s : State) (q a : Nat) (active : Bool) : State :=
  let s := s.modAisle a fun x => { x with groups := BitVec.ofNat 16 (withBit x.groups.toNat q active) }
  s.forAll 16 fun t j =>
    let l := 16 * a + j
    if !t.groupNames q l then t
    else if active then t.hold l q
    else t.unhold l

/-- The groups that are active at the trip stages of leg `l` name it anew, after a change of what they name or do
(R191, R199). -/
def State.legGroups (s : State) (l : Nat) : State :=
  (s.forAll 16 fun t q =>
    if (t.aisleAt (l / 16)).groups.getLsbD q && t.groupNames q l then t.hold l q else t).unhold l

/-! ### Carrier events at the leg -/

/-- The signals of a leg as they stand. -/
def State.legSignals (s : State) (l : Nat) : LegSignals :=
  let x := s.legAt l
  { run := s.getB (LEG.base l) LEG.STATUS.RUN, m := s.getB (LEG.base l) LEG.STATUS.M, hi := x.hi, lo := x.lo
    hiRise := x.hiRise, loRise := x.loRise, hiFell := x.hiFell, loFell := x.loFell
    hiBall := s.getB (LEG.base l) LEG.STATUS.HI_BALL, loBall := s.getB (LEG.base l) LEG.STATUS.LO_BALL }

/-- The signals of a leg are again what they were. -/
def State.setSignals (s : State) (l : Nat) (v : LegSignals) : State :=
  let b := LEG.base l
  ((((s.setB b LEG.STATUS.RUN v.run).setB b LEG.STATUS.M v.m).setB b LEG.STATUS.HI_BALL v.hiBall).setB b
    LEG.STATUS.LO_BALL v.loBall).modLeg l fun x =>
      { x with hi := v.hi, lo := v.lo, hiRise := v.hiRise, loRise := v.loRise, hiFell := v.hiFell, loFell := v.loFell }

/-- A half begins at instant `t` under the active set: m takes its boundary value, or the leg starts (R164, R170). -/
def State.beginHalf (s : State) (l : Nat) (zero : Bool) (t : Nat) : State :=
  if s.getB (LEG.base l) LEG.STATUS.RUN then s.setM l (s.boundaryM l zero t) t
  else if zero && s.legMayRun l then s.legStart l t else s

/-- ZERO or PERIOD of the leg's carrier on this edge, with market instant `t`: transfer, the end of a hold or of a held
half on the edge itself (R84, R196, R199, R200), start or the boundary value of m at the instant (R164, R169, R170). -/
def State.legEvent (s : State) (l : Nat) (zero : Bool) (t : Nat) : State :=
  let s := if xferTakes (s.getF (LEG.base l) LEG.CTRL.XFER) zero then s.transfer l else s
  let s := if zero then s.legOffer l true else s
  let s :=
    if (s.legAt l).held then
      if zero && !s.legNamed l then s.endHold l
      else (s.modLeg l fun x => { x with holdOff := x.holdOff || x.acts.getLsbD 3 }).drive l s.now
    else s
  let v := s.legSignals l
  let s := s.modLeg l fun x => { x with
    turned := some (s.now, v)
    placed := x.placed.filter fun p => decide (s.now ≤ p) }
  s.beginHalf l zero t

/-! ### Landings (R169, R171–R174) -/

/-- Judge a landing for immediate effect (R173, steps 2 to 4): in the half in progress, which a turning point of this
edge begins.  Where old and new edge are both past and m has not changed yet, the old edge has been placed and
stays (R174). -/
def State.judge (s : State) (l : Nat) : State :=
  let g := s.carOf (l / 4)
  let b := LEG.base l
  let turn := s.turnDue g
  let down := s.carDown g != turn
  let p := if turn && s.carDown g then s.prdReg g else s.prd g
  let v := if turn then 0 else (s.now - (s.carAt g).edge) / ac
  let frm := if turn then (s.turnPlace g).1 + (s.turnPlace g).2 else s.carInst g
  let new := s.eligible l
  let old := s.activeSet l
  let pos (x : LegSet) : Nat := if down then 64 * p - min x.dn (64 * p) else min x.up (64 * p)
  let past (x : LegSet) : Bool := pos x ≤ 64 * (v + 2)
  if p - 2 ≤ v || new.rise != old.rise || new.fall != old.fall || past old != past new then
    (s.setB b LEG.STATUS.PEND true).countSat b LEG.CNT.DEFER
  else
    let coming := s.getB b LEG.STATUS.RUN && (turn || s.getB b LEG.STATUS.M != down)
    let placed := if past old && coming then some (frm + tick64 * pos old) else none
    ((s.activate l new).modLeg l fun x =>
      { x with fresh := false, placed := if x.placed.isSome then x.placed else placed }).countSat b LEG.CNT.IMM

/-- A landing at leg `l` on this edge (R173, R174): taken by a transfer event of this edge, judged for
immediate effect, or waiting.  A transfer event that has already been carried out on this edge is carried out anew. -/
def State.landing (s : State) (l : Nat) (sti : Bool) : State :=
  let g := s.carOf (l / 4)
  let b := LEG.base l
  let mode := s.getF b LEG.CTRL.XFER
  if !s.carRuns g || (s.turnDue g && xferTakes mode (s.carDown g)) then s.setB b LEG.STATUS.PEND true
  else if (s.carAt g).edge = s.now ∧ xferTakes mode (!s.carDown g) then
    let t := s.transfer l
    match (s.legAt l).turned with
    | some (e, v) => if e = s.now then (t.setSignals l v).beginHalf l (!s.carDown g) (s.carInst g) else t
    | none => t
  else if mode = 3 ∨ sti then s.judge l
  else s.setB b LEG.STATUS.PEND true

/-- A commit of a gated leg (R171). -/
def State.commit (s : State) (l : Nat) (sti : Bool) : State :=
  if s.cgate l then
    let v := s.shadowSet l
    (s.modLeg l fun x => { x with committed := v, landed := true, fresh := true }).landing l sti
  else s

/-- A write to a shadow register lands (R167, R169); bits above the value are reserved (R61). -/
def State.shadowWrite (s : State) (l : Nat) (f : Fld) (value : Nat) : State :=
  let old := (s.rd (LEG.base l + f.off)).toNat
  let s := s.must (old / 2 ^ 22 == value / 2 ^ 22)
  let s := s.wr (LEG.base l + f.off) (BitVec.ofNat 32 value)
  if s.cgate l then s else s.landing l false

/-- A group commit of the legs of aisle `a` (R172); a bit above MASK makes it do nothing (R60). -/
def State.groupCommit (s : State) (a mask : Nat) : State :=
  if mask / 65536 ≠ 0 then s
  else s.forAll 16 fun t m => if mask.testBit m then t.commit (16 * a + m) false else t

/-! ### Distances (R87, R88, R101) -/

/-- The transfer events of stall `k` (R87): does ZERO, does PERIOD, transfer a leg? -/
def State.stallTakes (s : State) (k : Nat) (zero : Bool) : Bool :=
  (List.range 4).any fun j => xferTakes (s.getF (LEG.base (4 * k + j)) LEG.CTRL.XFER) zero

/-- The next instant at which u of R83 is 0 for carrier `g`, under PRD and PHASE as they stand. -/
def State.lockedStart (s : State) (g : Nat) : Nat :=
  let per := 2 * ac * s.prdReg g
  let ph := tick64 * s.getF (CAR.base g) CAR.PHASE.PHASE
  s.marketInstant (s.marketUnits + (ph % per + per - s.marketUnits % per) % per)

/-- The instants of the events of one period of a carrier that starts at `z` with half-period `p` ac: event
number of R75 and instant (R75, R76, R159). -/
def periodEvents (z p eva evb : Nat) : List (Nat × Nat) :=
  [(0, z), (1, z + p * ac)]
    ++ (if eva < p then [(3, z + eva * ac)] else [])
    ++ (if 1 ≤ eva ∧ eva ≤ p then [(4, z + (2 * p - eva) * ac)] else [])
    ++ (if evb < p then [(5, z + evb * ac)] else [])
    ++ (if 1 ≤ evb ∧ evb ≤ p then [(6, z + (2 * p - evb) * ac)] else [])

/-- The events of carrier `g` from its running period on: this period with the values in force, the
following ones with the shadowed values (R159). -/
def State.comingEvents (s : State) (g : Nat) : List (Nat × Nat) :=
  let b := CAR.base g
  let c := s.carAt g
  let p1 := s.prdReg g
  let later (z : Nat) := periodEvents z p1 (s.getF b CAR.EVA.VALUE) (s.getF b CAR.EVB.VALUE)
  if s.getB b CAR.STATUS.WAIT then
    let z := s.lockedStart g
    later z ++ later (z + 2 * p1 * ac)
  else if c.starting then later c.edge ++ later (c.edge + 2 * p1 * ac)
  else
    let p := s.prd g
    let anchor := if s.getB b CAR.CTRL.MLOCK then s.carInst g else c.edge
    let z0 := if s.carDown g then anchor - p * ac else anchor
    let z1 := ((z0 + 2 * p * ac : Nat) + c.slew : Int).toNat
    periodEvents z0 p (s.getF b CAR.EV_ACT.EVA) (s.getF b CAR.EV_ACT.EVB)
      ++ later z1 ++ later (z1 + 2 * p1 * ac)

/-- The first edge at or after `t` on which carrier `g` fires one of the events `evs` (numbers of R75). -/
def State.nextEvent (s : State) (g : Nat) (evs : List Nat) (t : Nat) : Option Nat :=
  if !s.carOn g then none
  else
    (s.comingEvents g).foldl (fun best e =>
      let d := edgeDown e.2
      if evs.contains e.1 && t ≤ d then
        match best with
        | none => some d
        | some b => some (min b d)
      else best) none

/-- The first transfer event of stall `k` at or after `t`; none while its carrier is disabled (R87, R89). -/
def State.nextTransfer (s : State) (k t : Nat) : Option Nat :=
  s.nextEvent (s.carOf k)
    ((if s.stallTakes k true then [0] else []) ++ (if s.stallTakes k false then [1] else [])) t

/-- AIS.XFER_DIST of stall `k` (R101). -/
def State.xferDist (s : State) (k : Nat) : Nat :=
  match s.nextTransfer k s.now with
  | none => 0xFFFF
  | some t => min ((t - s.now) / ac) 0xFFFE

/-! ### Landings of engine stores (R90, R225, R226) -/

/-- The shadow register a SHADOW_WRITE names: 0 CMP_UP, 1 CMP_DN, 2 DT_RISE, 3 DT_FALL. -/
def shadowReg (k : Fin 4) : Fld :=
  match k with
  | 0 => LEG.CMP_UP.VALUE | 1 => LEG.CMP_DN.VALUE | 2 => LEG.DT_RISE.VALUE | 3 => LEG.DT_FALL.VALUE

/-- The records of a released run land on this edge: every shadow takes its value, then every leg stored to
is committed, where it is gated, and judged once (R171, R173); MBX_OUT takes its words. -/
def State.landStores (s : State) (e : Nat) (recs : List OutRec) : State :=
  let put (t : State) (r : OutRec) : State :=
    match r with
    | .store l k v _ => t.setF (LEG.base l) (shadowReg k) v
    | .word m v => t.setF (ENG.base e) (ENG.MBX_OUT.VALUE.at (4 * (m % 16))) v.toNat
    | _ => t
  let s := recs.foldl put s
  let stores (l : Nat) : List Bool := recs.filterMap fun r =>
    match r with
    | .store l' _ _ sti => if l' = l then some sti else none
    | _ => none
  let s := s.forAll 16 fun t j =>
    let l := 16 * (e / 4) + j
    if (stores l).isEmpty then t
    else if t.cgate l then t.commit l ((stores l).any id)
    else t.landing l ((stores l).any id)
  let words := recs.any fun r =>
    match r with
    | .word _ _ => true
    | _ => false
  if words then s.countWrap (ENG.base e) ENG.MBX_STATUS.OUT_SEQ else s

/-- The engine whose stores land first, of those that land by `t`: the earliest edge, then the lowest number. -/
def State.nextLanding (s : State) (t : Nat) : Option (Nat × Nat) :=
  (List.range 12).foldl (fun (best : Option (Nat × Nat)) e =>
    match (s.engAt e).landing, best with
    | some (x, _), some (y, _) => if x ≤ t ∧ x < y then some (x, e) else best
    | some (x, _), none => if x ≤ t then some (x, e) else none
    | none, _ => best) none

/-- The stores of engine `e` land on edge `x`. -/
def State.landOn (s : State) (x e : Nat) : State :=
  match (s.engAt e).landing with
  | some (_, recs) =>
    let u := ({ s with now := x }.modEng e fun y => { y with landing := none }).landStores e recs
    { u with now := s.now, happened := if x = s.now then u.happened else s.happened }
  | none => s

/-! ### Captures of engine runs (R89, R213, R214, R230) -/

def State.modRun (s : State) (e : Nat) (f : EngRun → EngRun) : State :=
  s.modEng e fun x => { x with run := x.run.map f }

/-- A vector of the values of an indexed register. -/
def State.regVec (s : State) (b : Nat) (f : Fld) (stride n : Nat) : Vector Word n :=
  Vector.ofFn fun i => s.rd (b + f.off + stride * i.val)

/-- A 64-bit committed value, signed. -/
def State.get64s (s : State) (b : Nat) (lo hi : Fld) : Int := toSigned 64 (s.get64 b lo hi)

/-- Put a value into an engine register of a lane. -/
def Lane.put (l : Lane) (n : Nat) (v : Word) : Lane := { l with e := l.e.set (Fin.ofNat 32 n) v }

/-- The working copy from the committed state (R214). -/
def State.workingCopy (s : State) (e : Nat) (angle : Word) : Lane :=
  let b := ENG.base e
  let l : Lane := {
    e := s.regVec b ENG.E.VALUE 4 32
    acc := Vector.ofFn fun k => s.get64s b (ENG.ACC_LO.VALUE.at (8 * k.val)) (ENG.ACC_HI.VALUE.at (8 * k.val))
    int := Vector.ofFn fun p => s.get64s b (ENG.INT_LO.VALUE.at (32 * p.val)) (ENG.INT_HI.VALUE.at (32 * p.val))
    pc := s.getF b ENG.CTRL.ENTRY }
  if s.getB b ENG.CTRL.SCPRE then
    let (c, d) := sincos angle
    (l.put 30 c).put 31 d
  else l

/-- The write bank goes to the read bank (R230). -/
def State.publishCopy (s : State) (e : Nat) : State :=
  let b := ENG.base e
  (s.forAll 16 fun t m => t.setF b (ENG.MBX_IN_RD.VALUE.at (4 * m)) (t.getF b (ENG.MBX_IN.VALUE.at (4 * m)))).setB b
    ENG.MBX_STATUS.PUB_PEND false

/-- The first edge of a run's execution, S (R213). -/
def State.runStart (s : State) (e : Nat) (t : Trigger) : Nat :=
  t.edge + (if !t.scan && s.getB (ENG.base e) ENG.CTRL.SCPRE then 10 else 2) * ac

/-- The target commit point of a run: the one that has passed, or the first at or after S as the carrier now stands
(R88, R89). -/
def State.runTarget (s : State) (e : Nat) (r : EngRun) : Option Nat :=
  match r.target with
  | some t => some t
  | none => (s.nextTransfer e (s.runStart e r.trig + 4 * ac)).map (· - 4 * ac)

/-- The results that the frame takes, as they stand (R214). -/
def State.captureResults (s : State) (e : Nat) : State :=
  s.modRun e fun r => { r with
    captured := .results
    frame := { r.frame with
      result := s.regVec (CNV.base e) CNV.RESULT.VALUE 4 8, avg := s.regVec (CNV.base e) CNV.AVG.VALUE 4 8 } }

/-- The capture: a publish that waits, the rest of the frame, the working copies (R214, R230). -/
def State.captureAll (s : State) (e : Nat) : State :=
  let b := ENG.base e
  let s := if s.getB b ENG.MBX_STATUS.PUB_PEND then s.publishCopy e else s
  s.modRun e fun r =>
    let l := s.workingCopy e r.trig.angle
    { r with
      captured := .all, base := l, l0 := l, l1 := l
      frame := { r.frame with
        mbx := s.regVec b ENG.MBX_IN_RD.VALUE 4 16
        kp := s.regVec b ENG.PI_KP.VALUE 32 16
        ki := s.regVec b ENG.PI_KI.VALUE 32 16
        hi := s.regVec b ENG.PI_HI.VALUE 32 16
        lo := s.regVec b ENG.PI_LO.VALUE 32 16
        prd := s.prd (s.carOf e)
        angle := r.trig.angle } }

/-- The run of engine `e` as time has moved on: the results are those after edge X, the rest of the frame that after the
capture edge X + 1, and a commit point that has passed stays the target (R89, R214). -/
def State.runTime (s : State) (e : Nat) : State :=
  match (s.engAt e).run with
  | none => s
  | some r =>
    let s := if r.captured = .triggered ∧ r.trig.edge < s.now then s.captureResults e else s
    let s := if r.captured ≠ .all ∧ r.trig.edge + ac < s.now then s.captureAll e else s
    s.modRun e fun q => { q with target := (s.runTarget e q).filter fun t => decide (t ≤ s.now) }

/-- Every landing whose edge has come takes place, on its edge, in the order of the edges (R90, R225); captures whose edge
has passed are complete. -/
def State.settle (s : State) : State :=
  (s.forAll 12 fun t _ =>
    match t.nextLanding t.now with
    | some (x, e) => t.landOn x e
    | none => t).forAll 12 State.runTime

/-- An event of an aisle falls at instant `t`: landings up to then come first. -/
def State.aisleTime (s : State) (t : Nat) : State := (s.atTime t).settle

/-! ### The commands -/

/-- SHADOW_WRITE (R169). -/
def execShadowWrite (init : Fin 16) (l : Fin 48) (k : Fin 4) (value : Word) (s : State) : Result :=
  .next (s.onCommand init (LEG.base l + (shadowReg k).off) fun t => t.settle.shadowWrite l (shadowReg k) value.toNat)

/-- COMMIT: LEG.CMD.COMMIT (R171). -/
def execCommit (init : Fin 16) (l : Fin 48) (s : State) : Result :=
  .next (s.onCommand init (LEG.base l + LEG.CMD.COMMIT.off) fun t => t.settle.commit l false)

/-- GCOMMIT: a write of LEG.GCOMMIT in the window of leg `l` (R172). -/
def execGcommit (init : Fin 16) (l : Fin 48) (mask : Word) (s : State) : Result :=
  .next (s.onCommand init (LEG.base l + LEG.GCOMMIT.MASK.off) fun t => t.settle.groupCommit (l / 16) mask.toNat)

/-- IMM and DEFER to 0 (R58, R183). -/
def State.legCntClr (s : State) (l : Nat) : State :=
  (s.clearCount (LEG.base l) LEG.CNT.IMM).clearCount (LEG.base l) LEG.CNT.DEFER

/-- LEG_CNT_CLR (R183). -/
def execLegCntClr (init : Fin 16) (l : Fin 48) (s : State) : Result :=
  .next (s.onCommand init (LEG.base l + LEG.CMD.CNT_CLR.off) fun t => t.settle.legCntClr l)

/-- A write to LEG.CMD runs its bits in ascending order (R60). -/
def State.legCmd (s : State) (l v : Nat) : State :=
  if v / 4 ≠ 0 then s
  else
    let s := if v.testBit 0 then s.commit l false else s
    if v.testBit 1 then s.legCntClr l else s

/-- The m edge still to come in the half in progress: its instant, and the value m takes (R164, R166, R174). -/
def State.compareInst (s : State) (l : Nat) : Option (Nat × Bool) :=
  let g := s.carOf (l / 4)
  let a := s.activeSet l
  let p := 64 * s.prd g
  let down := s.carDown g
  if !s.getB (LEG.base l) LEG.STATUS.RUN || !s.carRuns g || s.getB (LEG.base l) LEG.STATUS.M == down then none
  else
    match (s.legAt l).placed with
    | some t => some (t, down)
    | none =>
      if !down then (if a.up < p then some (s.carInst g + tick64 * a.up, false) else none)
      else if 0 < a.dn then some (s.carInst g + tick64 * (p - min a.dn p), true) else none

/-- Landings up to the m edge come first, each on its edge, and may move it (R173); then m changes. -/
def State.compareEdge (s : State) (l : Nat) : Nat → State
  | 0 => s
  | n + 1 =>
    match s.compareInst l with
    | none => s
    | some (t, v) =>
      match s.nextLanding (edgeDown t) with
      | some (x, e) => ((s.atTime x).landOn x e).compareEdge l n
      | none => ((s.atTime t).setM l v t).modLeg l fun x => { x with placed := none }

/-- COMPARE_EDGE: the carrier reaches the compare position of the current half and m changes (R164, R166). -/
def execCompareEdge (l : Fin 48) (s : State) : Result := .next (s.settle.compareEdge l 13)

/-- The next instant at which an output of the leg rises: a dead time or a wait ends (R165, R176, R197). -/
def State.riseDue (s : State) (l : Nat) : Option Nat :=
  earlier (earlier (s.legAt l).hiRise (s.legAt l).loRise) (s.waitDue l)

/-- DEAD_TIME_END: the waiting output rises, subject to the interlock (R165, R176); also the end of the
wait that the interlock or a trip action imposes (R197): the earliest of them. -/
def execDeadTimeEnd (l : Fin 48) (s : State) : Result :=
  .next (match s.riseDue l with
  | some t =>
    ((s.atTime t).modLeg l fun x => { x with
      hi := x.hi || x.hiRise = some t, lo := x.lo || x.loRise = some t
      hiRise := x.hiRise.filter (· ≠ t), loRise := x.loRise.filter (· ≠ t) }).drive l (max t (s.atTime t).now)
  | none => s)

/-- GROUP_STATE_ARRIVAL: the state of group `q` reaches the trip stages of aisle `a` (R195, R199). -/
def execGroupStateArrival (q : Fin 16) (a : Fin 3) (s : State) : Result :=
  .next (if s.aisleUp a then s.groupArrives q a (s.bit TRP.base TRP.GRP_STATUS.ACTIVE q) else s)

/-- What the pad ring drives on the HI and LO balls of leg `l`: nothing while VDD_IO or VDD_CEL is absent (R380,
R391). -/
def State.legPads (s : State) (l : Nat) : Option (Bool × Bool) :=
  if s.cellar.railsLow.getLsbD 2 || !s.cellar.power then none
  else some (s.getB (LEG.base l) LEG.STATUS.HI_BALL, s.getB (LEG.base l) LEG.STATUS.LO_BALL)

end Sys2Proof.Machine
end

