-- ==== Sys2Proof/Machine/Trip.lean ====
section
/-! DEFINITION. The trip unit: sources, groups, release, the software trip (R185–R205). -/

namespace Sys2Proof.Machine

/-- A blanking channel of an aisle is open (R94). -/
def State.blanked (s : State) (a ch : Nat) : Bool := s.getB (AIS.base a) (AIS.BLK_STAT.OPEN.at (8 * ch))

/-- Is trip source `i`, which lies in aisle `a`, blanked? (R187) -/
def State.srcBlanked (s : State) (i a : Nat) : Bool :=
  s.getB TRP.base (TRP.SRC_CFG.BLK_EN.at (4 * i)) && s.blanked a (s.getF TRP.base (TRP.SRC_CFG.BLK_CH.at (4 * i)))

/-- The aisle that filters TRIPINi; 3 acts as 0 (R188). -/
def State.pinAisle (s : State) (i : Nat) : Nat := s.getF TRP.base (TRP.SRC_CFG.PIN_AISLE.at (4 * i)) % 3

/-- The trip source of comparator `c` (R152). -/
def State.cmpSource (s : State) (c : Nat) : Bool :=
  if s.getB (CMP.base c) CMP.STATUS.LATCH_MODE then s.getB (CMP.base c) CMP.LATCH.LATCH
  else s.getB (CMP.base c) CMP.STATUS.VIOL

/-- The gated level of source `i` (R185, R187–R190). -/
def State.srcLevel (s : State) (i : Nat) : Bool :=
  if i < 8 then
    (s.trip.tripin.getLsbD i != s.getB TRP.base (TRP.SRC_CFG.POL.at (4 * i))) && !s.srcBlanked i (s.pinAisle i)
      && s.aisleUp (s.pinAisle i)
  else if i < 32 then s.cmpSource (i - 8)
  else if i < 44 then s.tripReq (i - 32) && !s.srcBlanked i ((i - 32) / 4)
  else if i = 44 then s.getB TRP.base TRP.SWTRIP.ACTIVE
  else s.getB TRP.base TRP.STATUS.MKT_IN

/-- Source `i` as the trip unit sees it (TRP.SRC_ACT). -/
def State.srcAct (s : State) (i : Nat) : Bool :=
  if i < 32 then s.bit TRP.base TRP.SRC_ACT0.ACT i else s.bit TRP.base TRP.SRC_ACT1.ACT (i - 32)

def State.setSrcAct (s : State) (i : Nat) (v : Bool) : State :=
  let t := if i < 32 then s.setBit TRP.base TRP.SRC_ACT0.ACT i v else s.setBit TRP.base TRP.SRC_ACT1.ACT (i - 32) v
  if s.srcAct i && !v then { t with trip := { t.trip with fell := t.trip.fell.set (Fin.ofNat 46 i) t.now } } else t

/-- Source `i` is mapped to group `q` and counts for it: the mapping of source 45 has no effect on a
MARKET_OUT group (R186, R204). -/
def State.mapped (s : State) (i q : Nat) : Bool :=
  s.bit TRP.base (TRP.SRC_CFG.GROUPS.at (4 * i)) q
    && !(i == 45 && s.getB TRP.base (TRP.GRP_CFG.MARKET_OUT.at (4 * q)))

/-- The lowest-numbered active source mapped to a group (R194). -/
def State.firstSource (s : State) (q : Nat) : Option Nat :=
  (List.range 46).find? fun i => s.srcAct i && s.mapped i q

def State.cbc (s : State) (q : Nat) : Bool := s.getB TRP.base (TRP.GRP_CFG.CBC.at (4 * q))

/-- A latched group is latched. -/
def State.latched (s : State) (q : Nat) : Bool := s.trip.latch.getLsbD q && !s.cbc q

/-- The latch of group `q`. -/
def State.setLatch (s : State) (q : Nat) (v : Bool) : State :=
  { s with trip := { s.trip with latch := BitVec.ofNat 16 (withBit s.trip.latch.toNat q v) } }

/-- Group `q` was released on this edge. -/
def State.releasedNow (s : State) (q : Nat) : Bool :=
  match s.trip.released with
  | some r => r.edge == s.now && r.groups.getLsbD q
  | none => false

/-- A source has become active on the edge on which group `q` was released: the release is refused after all, the group
has stayed latched, and what its release changed is as before (R74, R205). -/
def State.refuseRelease (s : State) (q : Nat) : State :=
  match s.trip.released with
  | none => s
  | some r =>
    let s := ((s.setLatch q true).setBit TRP.base TRP.GRP_STATUS.ACTIVE q true).setBit TRP.base
      TRP.GRP_STATUS.REL_REFUSED q true
    let s := { s with trip := { s.trip with released := some { r with
      groups := BitVec.ofNat 16 (withBit r.groups.toNat q false), arm := none } } }
    let s := if r.asserted && s.getB TRP.base (TRP.GRP_CFG.MARKET_OUT.at (4 * q)) then
        s.setB KNR.base KNR.STATUS.MKT_ASSERT true else s
    match r.arm with
    | some (at_, prev) => if s.armState = 2 then s.takeBackArm 3 at_ prev else s
    | none => s

/-- One group on a fabric edge (R191, R194, R202). -/
def State.groupUpdate (s : State) (q : Nat) : State :=
  let src := s.firstSource q
  let on := s.getB TRP.base TRP.CTRL.ENABLE && src.isSome
  let s := if src.isSome && !s.cbc q && s.releasedNow q then s.refuseRelease q else s
  let s := if on && !s.cbc q then s.setLatch q true else s
  let act := if s.cbc q then on else s.latched q
  let was := s.bit TRP.base TRP.GRP_STATUS.ACTIVE q
  let s := s.setBit TRP.base TRP.GRP_STATUS.ACTIVE q act
  let s := if src.isNone then s.setBit TRP.base TRP.GRP_STATUS.REL_REFUSED q false else s
  if act && !was then
    let s := { s with trip := { s.trip with went := s.trip.went.set (Fin.ofNat 16 q) (some s.now) } }
    let s := match src with
      | some i => s.setF TRP.base (TRP.GRP_FIRST.SRC.at (4 * (q % 16))) i
      | none => s
    ((s.setB TRP.base (TRP.GRP_FIRST.VALID.at (4 * (q % 16))) true).countSat TRP.base
      (TRP.GRP_FIRST.COUNT.at (4 * (q % 16)))).groupTrigger q
  else s

/-- The trip unit on a fabric edge: every group, LATCHED with the arming state, MKT_OUT with the market
trip (R191, R194, R203, R402). -/
def State.tripUpdate (s : State) : State :=
  let s := s.forAll 16 State.groupUpdate
  let any := (List.range 16).any fun q => s.latched q
  let out := (List.range 16).any fun q => s.latched q && s.getB TRP.base (TRP.GRP_CFG.MARKET_OUT.at (4 * q))
  let s := (s.setB TRP.base TRP.STATUS.LATCHED any).setB TRP.base TRP.STATUS.MKT_OUT out
  s.followLatch.marketAssert

/-- The level of source `i` as it stands crosses into the trip unit (R195). -/
def State.srcSync (s : State) (i : Nat) : State :=
  let v := s.srcLevel i
  if s.srcAct i = v then s else (s.setSrcAct i v).tripUpdate

/-- A source that has fallen leaves the trip unit; its rise is TRIP_SOURCE_ACTIVE. -/
def State.srcFall (s : State) (i : Nat) : State := if s.srcLevel i then s else s.srcSync i

/-- One bit of a release (R202, R205): refused while a mapped source is active on this edge or was on the
edge before. -/
def State.release (s : State) (q : Nat) : State :=
  if !s.latched q then s
  else
    let recent := (List.range 46).any fun i =>
      s.mapped i q && (s.srcAct i || (s.trip.fell[Fin.ofNat 46 i] != 0 && s.now < s.trip.fell[Fin.ofNat 46 i] + ac))
    if recent then
      s.setBit TRP.base TRP.GRP_STATUS.REL_REFUSED q (s.firstSource q).isSome
    else
      let old : BitVec 16 := match s.trip.released with
        | some r => if r.edge = s.now then r.groups else 0
        | none => 0
      let r : Released := ⟨s.now, old ||| BitVec.ofNat 16 (2 ^ q), none, s.getB KNR.base KNR.STATUS.MKT_ASSERT⟩
      let s := s.setLatch q false
      { s with trip := { s.trip with released := some r } }.setBit TRP.base TRP.GRP_STATUS.REL_REFUSED q false

/-- TRP.CMD.RELEASE: each bit on its own, in ascending order (R60, R202); what ARM_STATE's last change was before the
hall went from TRIPPED to ARMED is kept for a source of the same edge (R205). -/
def State.tripRelease (s : State) (mask : Nat) : State :=
  let t := (s.forAll 16 fun t q => if mask.testBit q then t.release q else t).tripUpdate
  if s.armState = 3 ∧ t.armState = 2 then
    { t with trip := { t.trip with released := t.trip.released.map fun r : Released =>
      { r with arm := some (s.cellar.armAt, s.cellar.armPrev) } } }
  else t

/-- CMD.CNT_CLR: every GRP_FIRST.COUNT to 0, or to 1 where the group goes active on this edge (R194, R205). -/
def State.tripCntClr (s : State) : State :=
  s.forAll 16 fun t q => t.setF TRP.base (TRP.GRP_FIRST.COUNT.at (4 * q))
    (if s.trip.went[Fin.ofNat 16 q] = some s.now then 1 else 0)

/-- A write to TRP.CMD: releases, then the counts (R60). -/
def State.trpCmd (s : State) (v : Nat) : State :=
  if v / 2 ^ 17 ≠ 0 then s
  else
    let s := if v % 65536 = 0 then s else s.tripRelease (v % 65536)
    if v.testBit 16 then s.tripCntClr else s

/-- A write of TRP.SWTRIP (R190, R195: its source starts on the completing edge). -/
def State.swTrip (s : State) (value : Nat) : State :=
  let old := (s.rd (TRP.base + TRP.SWTRIP.W.off)).toNat
  ((s.must (old / 2 == value / 2)).setF TRP.base TRP.SWTRIP.W value).srcSync 44

/-- MKT_IN takes a value (R443): trip source 45, arming condition NO_MKT, the recorder's trigger. -/
def State.marketIn (s : State) (v : Bool) : State :=
  let was := s.getB TRP.base TRP.STATUS.MKT_IN
  let s := (s.setB TRP.base TRP.STATUS.MKT_IN v).setB KNR.base KNR.STATUS.MKT_IN v
  let s := (s.condUpdate 1).srcSync 45
  if v && !was && s.getB ATC.base ATC.TRIG_CFG.MKT_IN then s.trigger 2 0 s.marketNs else s

/-- TRIPIN_EDGE: the filter of TRIPINi passes the ball's level, if the synchronised line has held it for FILT further
edges; the source becomes active or inactive (R188). -/
def execTripinEdge (i : Fin 8) (x : BallLevel) (s : State) : Result :=
  .next (if s.passes x ac (s.getF TRP.base (TRP.SRC_CFG.FILT.at (4 * i))) 0 then
    { s with trip := { s.trip with tripin := BitVec.ofNat 8 (withBit s.trip.tripin.toNat i x.level) } }.srcFall i
  else s)

/-- TRIP_SOURCE_ACTIVE: the gated level of source `i` arrives in the trip unit (R191, R195). -/
def execTripSourceActive (i : Fin 46) (s : State) : Result := .next (s.srcSync i)

/-- TRP_RELEASE (R202). -/
def execTrpRelease (init : Fin 16) (mask : BitVec 16) (s : State) : Result :=
  .next (s.onCommand init (TRP.base + TRP.CMD.RELEASE.off) fun t => t.tripRelease mask.toNat)

/-- TRP_CNT_CLR (R194). -/
def execTrpCntClr (init : Fin 16) (s : State) : Result :=
  .next (s.onCommand init (TRP.base + TRP.CMD.CNT_CLR.off) State.tripCntClr)

/-- SWTRIP (R190). -/
def execSwtrip (init : Fin 16) (value : Word) (s : State) : Result :=
  .next (s.onCommand init (TRP.base + TRP.SWTRIP.W.off) fun t => t.swTrip value.toNat)

end Sys2Proof.Machine
end

