-- ==== Sys2Proof/Machine/Comparator.lean ====
section
/-! DEFINITION. Window comparators (R137–R157) and the blanking fabric (R93–R96). -/

namespace Sys2Proof.Machine

/-- RESULT and LATCH are offered to the recorder on every edge on which either changes (R477). -/
def State.cmpOffer (s : State) (c : Nat) : State :=
  let b := CMP.base c
  let r := s.getF b CMP.STATUS.RESULT
  let w := r + 4 * s.getF b CMP.LATCH.LATCH
  if (s.cmpAt c).offered = w then s
  else (s.modCmp c fun x => { x with offered := w }).offer (s.bit ATC.base ATC.SEL_CMP.CMP c)
    (.cmp c s.marketUnits r (s.getB b CMP.LATCH.LATCH))

/-- The gated violation of comparator `c` as its result and its blanking channel give it; a release of this edge is
refused after all where it becomes 1 (R151); a source that becomes inactive is told to the trip unit (R141, R147,
R148, R154). -/
def State.cmpUpdate (s : State) (c : Nat) : State :=
  let b := CMP.base c
  let r := s.getF b CMP.STATUS.RESULT
  let m := s.getF b CMP.CTRL.VMASK
  let raw := if r = 1 then m.testBit 0 else if r = 0 then m.testBit 1 else if r = 2 then m.testBit 2 else false
  let v := raw && !s.srcBlanked (8 + c) (c / 8)
  let was := s.getB b CMP.STATUS.VIOL
  let s := s.setB b CMP.STATUS.VIOL v
  let s := if v && !was then s.countSat b CMP.CNT.VIOL_CNT else s
  let s := if was && !v then s.modCmp c fun x => { x with violFell := s.now } else s
  let s := if v then s else s.setB b CMP.STATUS.REL_REFUSED false
  let undo := v && !was && (s.cmpAt c).relAt == some s.now
  let s := if undo then s.setB b CMP.STATUS.REL_REFUSED true else s
  let s := if undo || (v && s.getB b CMP.STATUS.LATCH_MODE) then s.setB b CMP.LATCH.LATCH true else s
  (s.cmpOffer c).srcFall (8 + c)

/-- The detectors take new states: result and flags follow (R139, R140, R149). -/
def State.setDetectors (s : State) (c : Nat) (h l : Bool) : State :=
  let b := CMP.base c
  let x := s.cmpAt c
  let flag (t : State) (f : Fld) (on : Bool) : State := if on then t.latch b f else t
  let s := if s.getB b CMP.STATUS.LATCH_MODE then s
    else flag (flag (flag (flag s CMP.LATCH.UP_HI (h && !x.h)) CMP.LATCH.DN_HI (!h && x.h))
      CMP.LATCH.DN_LO (l && !x.l)) CMP.LATCH.UP_LO (!l && x.l)
  let s := s.modCmp c fun y => { y with h := h, l := l }
  (s.setF b CMP.STATUS.RESULT (if h then 2 else if l then 1 else 0)).cmpUpdate c

/-- RESULT becomes NOT_VALID: both detectors clear, with no crossing (R140, R149). -/
def State.notValid (s : State) (c : Nat) : State :=
  ((s.modCmp c fun y => { y with h := false, l := false }).setF (CMP.base c) CMP.STATUS.RESULT 3).cmpUpdate c

/-- A threshold code in force at instant `t`: for 40 ac after a write it lies between the old value and the new one, at a
point the spec leaves open (R138). -/
def State.threshold (s : State) (c : Nat) (hi : Bool) (t : Nat) : Nat × State :=
  let w := (s.rd (CMP.base c + CMP.THR.W.off)).toNat
  let x := s.cmpAt c
  let new := if hi then bitsOf w 27 16 else bitsOf w 11 0
  let old := if hi then bitsOf x.thrOld.toNat 27 16 else bitsOf x.thrOld.toNat 11 0
  let known : Bool := x.thrAt + 40 * ac ≤ t || x.thrAt = 0 || new = old
  (if known then new else min new old + s.takeFree.1.toNat % (max new old - min new old + 1),
    if known then s else s.takeFree.2)

/-- The hysteresis in µV (R139). -/
def hystOf (code : Nat) : Int := if code = 0 then 0 else if code = 1 then 5000 else if code = 2 then 10000 else 20000

/-- A detector with hysteresis `y` below the high, or above the low threshold (R141); fresh, it compares with the
threshold alone. -/
def detectHigh (was fresh : Bool) (hi y u : Int) : Bool :=
  if u > hi then true else if fresh then false else if u < hi - y then false else was
def detectLow (was fresh : Bool) (lo y u : Int) : Bool :=
  if u < lo then true else if fresh then false else if u > lo + y then false else was

/-- The detectors for the voltage of the ball that INSEL selects (R137, R139); `fresh` takes the input's state without
hysteresis (R144).  Comparisons are exact: code × VREF / 4096 against the input. -/
def State.cmpDecide (s : State) (c : Nat) (v : BallVolts) (fresh : Bool) : State :=
  let (th, s) := s.threshold c true s.now
  let (tl, s) := s.threshold c false s.now
  let x := s.cmpAt c
  let u := 4096 * v.ain[Fin.ofNat 4 (s.getF (CMP.base c) CMP.CTRL.INSEL)]
  let y := 4096 * hystOf (s.getF (CMP.base c) CMP.CTRL.HYST)
  s.setDetectors c (detectHigh x.h fresh (th * v.vref) y u) (detectLow x.l fresh (tl * v.vref) y u)

/-- The settling time of a mode (R142). -/
def settleTime (mode : Nat) : Nat := ac * (if mode = 0 then 80 else if mode = 1 then 400 else if mode = 2 then 4000 else 40000)

/-- The instant of the `n`-th edge of the 32.768 kHz clock. -/
def State.rtcEdge (s : State) (n : Nat) : Nat := s.cellar.powerOnAt + n * rtcPeriod

/-- ENABLE goes to 1: settling, or waiting for the first tick (R140, R144, R145).  The cellar divider starts on the
first 32.768 kHz edge after this edge, and ticks first TDIV + 1 periods later (R146). -/
def State.cmpEnable (s : State) (c : Nat) : State :=
  let b := CMP.base c
  let s := s.modCmp c fun y => { y with
    ticks := [], settleAt := s.now + settleTime (s.getF b CMP.CTRL.MODE)
    tickAt := some (s.rtc + 1 + s.getF b CMP.TICK.TDIV + 1) }
  (s.setB b CMP.STATUS.SETTLING (!s.getB b CMP.CTRL.SAMPLED)).notValid c

/-- ENABLE goes to 0 (R144). -/
def State.cmpDisable (s : State) (c : Nat) : State :=
  ((s.modCmp c fun y => { y with ticks := [], tickAt := none }).setB (CMP.base c) CMP.STATUS.SETTLING false).notValid c

/-- The edges on which a release may act: the gated violation is 0 now and was 0 on the edge before
(R150). -/
def State.cmpQuiet (s : State) (c : Nat) : Bool :=
  !s.getB (CMP.base c) CMP.STATUS.VIOL && ((s.cmpAt c).violFell = 0 || (s.cmpAt c).violFell + ac ≤ s.now)

/-- CMD.RELEASE (R150, R151). -/
def State.cmpRelease (s : State) (c : Nat) : State :=
  let b := CMP.base c
  if !s.getB b CMP.LATCH.LATCH then s
  else if s.cmpQuiet c then
    ((((s.setB b CMP.LATCH.LATCH false).setB b CMP.STATUS.REL_REFUSED false).modCmp c fun y =>
      { y with relAt := some s.now }).cmpOffer c).srcFall (8 + c)
  else s.setB b CMP.STATUS.REL_REFUSED (s.getB b CMP.STATUS.VIOL)

/-- The cycle-by-cycle release attempted on a ZERO of the stall's carrier (R150). -/
def State.cmpCycleRelease (s : State) (c : Nat) : State :=
  let b := CMP.base c
  if s.getB b CMP.CTRL.CBC && s.getB b CMP.STATUS.LATCH_MODE && s.getB b CMP.LATCH.LATCH && s.cmpQuiet c then
    ((s.setB b CMP.LATCH.LATCH false).cmpOffer c).srcFall (8 + c)
  else s

/-- The arming state arrives: latch mode or edge-flag mode (R147, R148). -/
def State.cmpMode (s : State) (c : Nat) (latch : Bool) : State :=
  (s.setB (CMP.base c) CMP.STATUS.LATCH_MODE latch).cmpUpdate c

/-- The comparator state word of engine `k` (R152). -/
def State.cmpWord (s : State) (k : Nat) : Nat :=
  let one (c : Nat) : Nat := s.getF (CMP.base c) CMP.STATUS.RESULT + 4 * s.getF (CMP.base c) CMP.LATCH.LATCH
    + 8 * s.getF (CMP.base c) CMP.STATUS.VIOL
  one (2 * k) + 16 * one (2 * k + 1)

/-! ### Blanking (R93–R96) -/

/-- A change of blanking channel `ch` of aisle `a` acts on the sources that name it. -/
def State.blankingChanged (s : State) (a ch : Nat) : State :=
  let s := s.forAll 8 fun t j =>
    let c := 8 * a + j
    if t.getB TRP.base (TRP.SRC_CFG.BLK_EN.at (4 * (8 + c))) && t.getF TRP.base (TRP.SRC_CFG.BLK_CH.at (4 * (8 + c))) = ch
    then t.cmpUpdate c else t
  let s := s.forAll 8 fun t i => if t.pinAisle i = a then t.srcFall i else t
  s.forAll 4 fun t k => t.srcFall (32 + 4 * a + k)

def State.blkClose (s : State) (a ch : Nat) : State :=
  (s.setB (AIS.base a) (AIS.BLK_STAT.OPEN.at (8 * (ch % 8))) false).blankingChanged a ch

/-- An event of carrier `4a + i` at edge `t`, as its code: does a 5-bit event code name it? (R75) -/
def codeNames (code i ev : Nat) : Bool :=
  code / 8 == i && (code % 8 == ev || (code % 8 == 2 && ev ≤ 1))

/-- Channel `ch` on an event (R93, R95): each row of R95 is judged against the state before the edge. -/
def State.blankEvent (s : State) (a i ev ch : Nat) : State :=
  let b := AIS.base a
  let opens := codeNames (s.getF b (AIS.BLK_CFG.OPEN.at (8 * ch))) i ev
  let closes := codeNames (s.getF b (AIS.BLK_CFG.CLOSE.at (8 * ch))) i ev
  let f := Fin.ofNat 8 ch
  let s := if closes then s.modAisle a fun x => { x with blkClose := x.blkClose.set f (some s.now) } else s
  if s.blanked a ch then if closes then s.blkClose a ch else s
  else if opens && (s.aisleAt a).blkClose[f] != some s.now
      && s.getF b (AIS.BLK_CFG.MAXLEN.at (8 * ch)) != 0 && s.getB b AIS.CTRL.ENABLE then
    let s := s.modAisle a fun x => { x with blkOpen := x.blkOpen.set f s.now }
    (s.setB b (AIS.BLK_STAT.OPEN.at (8 * (ch % 8))) true).blankingChanged a ch
  else s

/-- AIS ENABLE goes to 0: every open window closes (R96). -/
def State.blankDisable (s : State) (a : Nat) : State :=
  s.forAll 8 fun t ch => if t.blanked a ch then t.blkClose a ch else t

/-! ### Ticks (R146) -/

/-- A tick reaches a sampled comparator: it powers up for a decision 20 ac later, or is lost while one is under way
(R145, R146). -/
def State.cmpTick (s : State) (c : Nat) : State :=
  if (s.cmpAt c).ticks.any fun t => s.now < t then s.countSat (CMP.base c) CMP.CNT.TICK_LOST
  else s.modCmp c fun y => { y with ticks := y.ticks ++ [s.now + 20 * ac] }

/-- The comparator is in sampled operation with this tick source: the cellar timer, or its aisle event. -/
def State.sampling (s : State) (c : Nat) (cellar : Bool) : Bool :=
  let b := CMP.base c
  s.getB b CMP.CTRL.ENABLE && s.getB b CMP.CTRL.SAMPLED && s.getB b CMP.CTRL.TICK_CEL == cellar

/-- Event `ev` of carrier `4a + i` ticks the sampled comparators of the aisle that name it (R146). -/
def State.eventTicks (s : State) (a i ev : Nat) : State :=
  s.forAll 8 fun t j =>
    let c := 8 * a + j
    if t.sampling c false && codeNames (t.getF (CMP.base c) CMP.CTRL.TICK_EVT) i ev then t.cmpTick c else t

/-! ### The commands -/

/-- COMPARATOR_OUTPUT_CHANGE: an analog change `x.age` ago, which the output has kept for `x.held`, reaches RESULT on this
edge if this is the first aisle edge at or after the change plus 1 ac and the change had not reversed when it was
captured, one edge ago (R143). -/
def execComparatorOutputChange (c : Fin 24) (x : OutputChange) (s : State) : Result :=
  let b := CMP.base c
  .next (if s.getB b CMP.CTRL.ENABLE && !s.getB b CMP.CTRL.SAMPLED && !s.getB b CMP.STATUS.SETTLING
      && ac ≤ x.age && x.age < 2 * ac && x.age ≤ x.held + ac then
    s.cmpDecide c x.volts false else s)

/-- SETTLING_END (R144). -/
def execSettlingEnd (c : Fin 24) (v : BallVolts) (s : State) : Result :=
  .next (if s.getB (CMP.base c) CMP.STATUS.SETTLING then
    ((s.atTime (s.cmpAt c).settleAt).setB (CMP.base c) CMP.STATUS.SETTLING false).cmpDecide c v true else s)

/-- TICK: the next tick of a comparator's cellar divider arrives, on the aisle edge that R578 gives; a further one
follows TDIV + 1 periods later (R146).  The ticks of an aisle event come with the event. -/
def execTick (c : Fin 24) (s : State) : Result :=
  .next (match s.cmp[c].tickAt with
  | some n =>
    if s.sampling c true then
      ((s.atTime (edgeUp (s.rtcEdge n + 2 * ac))).modCmp c fun y => { y with
        tickAt := some (n + s.getF (CMP.base c) CMP.TICK.TDIV + 1) }).cmpTick c
    else s
  | none => s)

/-- SAMPLED_DECISION: 20 ac after its tick (R145). -/
def execSampledDecision (c : Fin 24) (v : BallVolts) (s : State) : Result :=
  .next (match (s.cmpAt c).ticks with
  | [] => s
  | t :: rest => ((s.atTime t).modCmp c fun y => { y with ticks := rest }).cmpDecide c v false)

/-- CMP_RELEASE (R150). -/
def execCmpRelease (init : Fin 16) (c : Fin 24) (s : State) : Result :=
  .next (s.onCommand init (CMP.base c + CMP.CMD.RELEASE.off) fun t => t.cmpRelease c)

/-- The flags a FLAG_REL mask releases, bits 0–3 for UP_HI, DN_HI, UP_LO, DN_LO; a flag whose event falls on this edge
stays (R149, R156). -/
def State.flagRelease (s : State) (c mask : Nat) : State :=
  let one (t : State) (i : Nat) (f : Fld) : State := if mask.testBit i then t.unlatch (CMP.base c) f else t
  one (one (one (one s 0 CMP.LATCH.UP_HI) 1 CMP.LATCH.DN_HI) 2 CMP.LATCH.UP_LO) 3 CMP.LATCH.DN_LO

/-- FLAG_REL (R149). -/
def execFlagRel (init : Fin 16) (c : Fin 24) (flags : BitVec 4) (s : State) : Result :=
  .next (s.onCommand init (CMP.base c + CMP.CMD.FLAG_REL.off) fun t => t.flagRelease c flags.toNat)

/-- VIOL_CNT and TICK_LOST to 0 (R58, R154). -/
def State.cmpCntClr (s : State) (c : Nat) : State :=
  (s.clearCount (CMP.base c) CMP.CNT.VIOL_CNT).clearCount (CMP.base c) CMP.CNT.TICK_LOST

/-- CMP_CNT_CLR (R154). -/
def execCmpCntClr (init : Fin 16) (c : Fin 24) (s : State) : Result :=
  .next (s.onCommand init (CMP.base c + CMP.CMD.CNT_CLR.off) fun t => t.cmpCntClr c)

/-- A write to CMP.CMD runs its bits in ascending order (R60). -/
def State.cmpCmd (s : State) (c v : Nat) : State :=
  if v / 512 ≠ 0 ∨ bitsOf v 3 1 ≠ 0 then s
  else
    let s := if v.testBit 0 then s.cmpRelease c else s
    let s := s.flagRelease c (bitsOf v 7 4)
    if v.testBit 8 then s.cmpCntClr c else s

/-- ARMING_STATE_ARRIVAL: a change of the arming state takes effect in aisle `a` (R147, R170, R178, R404). -/
def execArmingStateArrival (a : Fin 3) (s : State) : Result :=
  .next (match s.aisle[a].armQueue with
  | [] => s
  | v :: rest =>
    let s := s.modAisle a fun x => { x with arm := v, armQueue := rest }
    if !s.aisleUp a then s
    else
      let s := s.forAll 8 fun t j => t.cmpMode (8 * a + j) (2 ≤ v.toNat)
      s.forAll 16 fun t j => t.legRefresh (16 * a + j))

/-- BLANKING_MAXLEN: a window closes MAXLEN ac after it opened (R93, R95). -/
def execBlankingMaxlen (a : Fin 3) (ch : Fin 8) (s : State) : Result :=
  .next (if s.blanked a ch then
    let due := s.aisle[a].blkOpen[ch] + ac * s.getF (AIS.base a) (AIS.BLK_CFG.MAXLEN.at (8 * ch))
    let s := s.atTime due
    let s := s.modAisle a fun x => { x with blkClose := x.blkClose.set ch (some s.now) }
    (s.blkClose a ch).countSat (AIS.base a) (AIS.BLK_STAT.FORCED.at (8 * ch))
  else s)

/-- BLK_STAT.FORCED of the named channels to 0 (R58, R101). -/
def State.blkClr (s : State) (a channels : Nat) : State :=
  s.forAll 8 fun t ch => if channels.testBit ch then t.clearCount (AIS.base a) (AIS.BLK_STAT.FORCED.at (8 * ch)) else t

/-- BLK_CLR (R101). -/
def execBlkClr (init : Fin 16) (a : Fin 3) (channels : BitVec 8) (s : State) : Result :=
  .next (s.onCommand init (AIS.base a + AIS.CMD.BLK_CLR.off) fun t => t.blkClr a channels.toNat)

end Sys2Proof.Machine
end

