-- ==== Sys2Proof/Machine/Converter.lean ====
section
/-! DEFINITION. Converters and sampling groups (R78–R81, R103–R136). -/

namespace Sys2Proof.Machine

/-! ### Membership and inputs -/

/-- The group that converter `k` belongs to: the lowest-numbered that names it (R78). -/
def State.groupOf (s : State) (k : Nat) : Option Nat :=
  (List.range 4).find? fun q => s.bit (AIS.base (k / 4)) (AIS.SG_CFG.MEMBERS.at (16 * q)) (k % 4)

/-- ACQ of a sampling group, at least 12 (R80, R101). -/
def State.groupAcq (s : State) (a q : Nat) : Nat := max 12 (s.getF (AIS.base a) (AIS.SG_CFG.ACQ.at (16 * q)))

/-- ACQ of a converter on its own, at least 12 (R107, R135). -/
def State.ownAcq (s : State) (k : Nat) : Nat := max 12 (s.getF (CNV.base k) CNV.TIMING.ACQ)

/-- Input `i` is the even input of an active pair, or the odd one (R104). -/
def State.paired (s : State) (k i : Nat) : Bool :=
  (i == 0 && s.getB (CNV.base k) CNV.CTRL.DIFF01) || (i == 2 && s.getB (CNV.base k) CNV.CTRL.DIFF23)

def State.oddOfPair (s : State) (k i : Nat) : Bool :=
  (i == 1 && s.getB (CNV.base k) CNV.CTRL.DIFF01) || (i == 3 && s.getB (CNV.base k) CNV.CTRL.DIFF23)

/-- The elements of a scan: the masked inputs in ascending order, without the odd inputs of pairs (R106). -/
def State.scanElems (s : State) (k : Nat) : List Nat :=
  (List.range 8).filter fun i => s.bit (CNV.base k) CNV.CTRL.SCAN_MASK i && !s.oddOfPair k i

/-- The first element that a word of CTRL names: its input, and whether it is a pair (R104, R106). -/
def firstElement (ctrl : Nat) : Option (Nat × Bool) :=
  let m := bitsOf ctrl CNV.CTRL.SCAN_MASK.hi CNV.CTRL.SCAN_MASK.lo
  let d01 := ctrl.testBit CNV.CTRL.DIFF01.lo
  let d23 := ctrl.testBit CNV.CTRL.DIFF23.lo
  ((List.range 8).find? fun i => m.testBit i && !(i == 1 && d01) && !(i == 3 && d23)).map fun i =>
    (i, (i == 0 && d01) || (i == 2 && d23))

def State.cnvOn (s : State) (k : Nat) : Bool := s.getB (CNV.base k) CNV.CTRL.ENABLE

/-- No scan, diagnostic scan, self-check or calibration is in progress. -/
def State.cnvIdle (s : State) (k : Nat) : Bool :=
  let c := s.cnvAt k
  c.scan.isNone && c.diag.isNone && c.check.isNone && c.cal.isNone

/-- The conditions under which a converter refuses SW_TRIG (R114). -/
def State.swtCauses (s : State) (k : Nat) : Nat :=
  (if (s.groupOf k).isSome then 1 else 0) + (if s.cnvOn k then 0 else 2)
    + (if s.getF (CNV.base k) CNV.CTRL.TRIG_SRC = 2 then 4 else 0)

/-- The status bits that report what a converter is doing follow it: BUSY, DIAG_BUSY, CAL_BUSY, GROUP,
SWT_REFUSED, and SG_BUSY and SG_CONFLICT of its aisle (R78, R101, R109, R114, R135). -/
def State.cnvStatus (s : State) (k : Nat) : State :=
  let b := CNV.base k
  let c := s.cnvAt k
  let a := k / 4
  let cause := c.swtCause &&& BitVec.ofNat 3 (s.swtCauses k)
  let s := s.modCnv k fun x => { x with swtCause := cause }
  let s := s.setB b CNV.STATUS.BUSY (c.scan.isSome || c.check.isSome)
  let s := s.setB b CNV.STATUS.DIAG_BUSY (c.diag.isSome || c.waiting.contains .diag)
  let s := s.setB b CNV.STATUS.CAL_BUSY c.cal.isSome
  let s := s.setB b CNV.STATUS.GROUP (s.groupOf k).isSome
  let s := s.setB b CNV.STATUS.SWT_REFUSED (cause != 0)
  let busy (q : Nat) : Bool := (List.range 4).any fun j =>
    match (s.cnvAt (4 * a + j)).scan with
    | some x => x.group == some (Fin.ofNat 4 q)
    | none => false
  let named (j : Nat) : Nat :=
    ((List.range 4).filter fun q => s.bit (AIS.base a) (AIS.SG_CFG.MEMBERS.at (16 * q)) j).length
  let s := s.forAll 4 fun t q => t.setBit (AIS.base a) AIS.STATUS.SG_BUSY q (busy q)
  s.setB (AIS.base a) AIS.STATUS.SG_CONFLICT ((List.range 4).any fun j => 2 ≤ named j)

def State.modCnvS (s : State) (k : Nat) (f : Converter → Converter) : State := (s.modCnv k f).cnvStatus k

/-! ### Starting scans -/

/-- A scan is scheduled. -/
def State.startScan (s : State) (k : Nat) (group : Option (Fin 4)) (total apt acq : Nat) : State :=
  s.modCnvS k fun c => { c with
    scan := some { group := group, elems := s.scanElems k, total := total, apt := apt, acq := acq }, again := false }

/-- A firing of a converter that is not a member (R107, R108, R112). -/
def State.cnvFire (s : State) (k : Nat) : State :=
  let n := (s.scanElems k).length
  if !s.cnvOn k || n = 0 then s
  else if !s.cnvIdle k then
    (s.countSat (CNV.base k) CNV.CNT.OVERRUN).modCnv k fun c => { c with firedAt := some s.now }
  else
    let edge := edgeUp s.now
    let ready := (s.cnvAt k).acqFrom + s.ownAcq k * ac
    let s := if edge < ready then s.countSat (CNV.base k) CNV.CNT.LATE else s
    (s.startScan k none n (max edge ready) (s.ownAcq k)).modCnv k fun c => { c with firedAt := some s.now }

/-- A start in armed-continuous mode: RUN becomes 1 with the scan that starts (R108–R110, R112). -/
def State.armedStart (s : State) (k : Nat) : State :=
  let starts := s.cnvOn k && !(s.scanElems k).isEmpty && s.cnvIdle k
  (if starts then s.setB (CNV.base k) CNV.STATUS.RUN true else s).cnvFire k

/-- A sampling group fires at market instant `inst` (R78–R81, R96).  Of an SG_FIRE and a TRIG event on one edge, which are
one firing, it takes the market instant of the one that comes first (DESIGN CHOICE, log entry 67). -/
def State.groupFire (s : State) (a q inst : Nat) : State :=
  let f := Fin.ofNat 4 q
  let members := (List.range 4).map (4 * a + ·) |>.filter fun k => s.groupOf k == some q
  let on := members.filter s.cnvOn
  if !s.getB (AIS.base a) AIS.CTRL.ENABLE || on.isEmpty || (s.aisleAt a).sgFired[f] == some s.now then s
  else
    let s := s.modAisle a fun x => { x with sgFired := x.sgFired.set f (some s.now) }
    if on.any fun k => !s.cnvIdle k then s.countSat (AIS.base a) (AIS.SG_CNT.OVERRUN.at (16 * (q % 4)))
    else
      let acq := s.groupAcq a q
      let apt0 := inst + tick64 * s.getF (AIS.base a) (AIS.SG_DLY.APT_DLY.at (16 * q))
      let ready := (on.filter fun k => !(s.scanElems k).isEmpty).foldl
        (fun m k => max m ((s.cnvAt k).acqFrom + acq * ac)) 0
      let late := (ready - apt0 + (ac - 1)) / ac
      let s := if late = 0 then s else s.countSat (AIS.base a) (AIS.SG_CNT.LATE.at (16 * (q % 4)))
      let total := on.foldl (fun m k => max m (s.scanElems k).length) 1
      on.foldl (fun t k => t.startScan k (some f) total (apt0 + late * ac) acq) s

/-- The scan in progress ends without scan-complete, running ends (R115). -/
def State.cnvDisable (s : State) (k : Nat) : State :=
  let b := CNV.base k
  let s := (s.setB b CNV.STATUS.RUN false).setB b CNV.STATUS.BGSTARVED false
  s.modCnvS k fun c => { c with
    acqFrom := if c.scan.isSome then edgeUp s.now else c.acqFrom
    scan := none, again := false, attempt := false }

/-- The counts of R127 and R130 start: ENABLE or BG_EN has become 1. -/
def State.bgStart (s : State) (k : Nat) : State :=
  s.modCnv k fun c => { c with attemptAt := s.now, checkFrom := s.now }

/-- ENABLE becomes 1: a calibration ends, and acquisition counts from this edge (R121; DESIGN CHOICE, log entry 66),
averaging starts anew (R123), and in continuous mode the edge starts a scan, judged like every start (R109, R112). -/
def State.cnvEnable (s : State) (k : Nat) : State :=
  let b := CNV.base k
  let s := if (s.cnvAt k).cal.isSome then s.setF b CNV.STATUS.CAL_RESULT 5 else s
  let s := (s.modCnv k fun c => { c with
    acqFrom := if c.cal.isSome then edgeUp s.now else c.acqFrom
    cal := none, avgScans := 0, avgSum := Vector.replicate 8 0 }).bgStart k
  if s.getF b CNV.CTRL.TRIG_SRC = 2 && (s.groupOf k).isNone then (s.cnvStatus k).cnvFire k else s.cnvStatus k

/-! ### Conversion and correction -/

/-- The raw code of a sample (R105). -/
def rawCode (v : Sample) (pair : Bool) : Int :=
  if pair then clampInt (-32768) 32767 ((v.pos - v.neg) * 32768 / v.vref)
  else clampInt 0 65535 (v.pos * 65536 / v.vref)

/-- The corrected result and whether it saturated (R116). -/
def corrected (code offset gain : Int) : Int × Bool :=
  let r := roundAway ((code * 256 - offset) * gain) 65536
  let c := clampInt (-2147483648) 2147483647 r
  (c, c != r)

/-- The code at instant `t` of the DAC that LOOP_SEL = `sel` connects to input 6 of converter `k` (R103). -/
def State.loopCode (s : State) (k sel t : Nat) : Nat × State := s.threshold (2 * k + sel / 2) (sel % 2 = 1) t

/-- The aperture of the next element of a scan. -/
def Scan.aperture (x : Scan) (n : Nat) : Nat := x.apt + n * ((x.acq + 28) * ac)

/-- CTRL of converter `k` has been written: a new first element starts its acquisition (R106). -/
def State.newFirst (s : State) (k old new : Nat) : State :=
  if firstElement new == firstElement old then s else s.modCnv k fun c => { c with acqFrom := edgeUp s.now }

/-- The fields of TRIGPIN whose change restarts the START and STOP filters (R111). -/
def filterFields : List Fld := [CNV.TRIGPIN.START_PIN, CNV.TRIGPIN.STOP_PIN, CNV.TRIGPIN.FILT]

/-- TRIGPIN of converter `k` has been written (R111). -/
def State.pinsWritten (s : State) (k old new : Nat) : State :=
  if filterFields.any fun f => bitsOf old f.hi f.lo != bitsOf new f.hi f.lo then
    s.modCnv k fun c => { c with startFresh := true, stopFresh := true, filterFrom := s.now }
  else s

/-- The first edge on which a waiting diagnostic scan or self-check may start: the converter is idle, or the
last conversion of a back-to-back scan has ended (R110, R124, R128). -/
def State.sideMayStart (s : State) (k : Nat) : Bool :=
  let c := s.cnvAt k
  let b := CNV.base k
  let mode := s.getF b CNV.CTRL.TRIG_SRC
  let running := (s.groupOf k).isNone && s.cnvOn k && (mode = 2 || (mode = 3 && s.getB b CNV.STATUS.RUN))
  c.diag.isNone && c.check.isNone && c.cal.isNone &&
    (match c.scan with
     | none => true
     | some x => running && (x.idx = x.elems.length || (x.idx + 1 = x.elems.length && x.raw.isSome)))

/-- A diagnostic scan, self-check or calibration has ended: acquisition counts from here (R106). -/
def State.reacquire (s : State) (k : Nat) (t : Nat) : State := s.modCnvS k fun c => { c with acqFrom := t }

/-! ### The angle unit (R223) -/

def State.ncoFreq (s : State) (e : Nat) : Int := s.getS (ENG.base e) ENG.NCO_FREQ.FREQ

/-- The phase at market instant `m`, in units of 2⁻⁴⁸/6400 turn. -/
def State.phiTo (s : State) (e : Nat) (m : Nat) : Nat :=
  let x := s.engAt e
  (((x.phi : Int) + s.ncoFreq e * ((m : Int) - x.phiAt)) % (2 ^ 48 * 6400 : Nat)).toNat

/-- The angle at market instant `m` with the decoders at `pos`. -/
def State.angleAt (s : State) (e m : Nat) (pos : Vector Word 4) : Word :=
  let b := ENG.base e
  if s.getB b ENG.NCO_CFG.SRC then
    let p := pos[Fin.ofNat 4 (s.getF b ENG.NCO_CFG.QEP_SEL)]
    BitVec.ofNat 32 (p.toNat * s.getF b ENG.NCO_FREQ.FREQ + s.getF b ENG.NCO_PHASE.PHASE)
  else BitVec.ofNat 32 (s.phiTo e m / 6400 / 2 ^ 16)

/-- The angles of the engines of aisle `a` at instant `t`, the present one (R223). -/
def State.anglesAt (s : State) (a t : Nat) : Vector Word 4 :=
  Vector.ofFn fun j => s.angleAt (4 * a + j) (s.marketAt t) s.allPositions

/-- ENG.NCO_ANGLE. -/
def State.ncoAngle (s : State) (e : Nat) : Word := s.angleAt e s.marketUnits s.allPositions

/-- A write to NCO_PHASE (R223). -/
def State.setNcoPhase (s : State) (e value : Nat) : State :=
  (s.setF (ENG.base e) ENG.NCO_PHASE.PHASE value).modEng e fun x =>
    { x with phi := value * 2 ^ 16 * 6400, phiAt := s.marketUnits }

/-- A write to NCO_FREQ: the angle stays continuous (R223). -/
def State.setNcoFreq (s : State) (e value : Nat) : State :=
  (s.modEng e fun x => { x with phi := s.phiTo e s.marketUnits, phiAt := s.marketUnits }).setF (ENG.base e)
    ENG.NCO_FREQ.FREQ value

/-! ### The commands -/

/-- A scan with the angles of its engines and the market time at its element-0 aperture, taken now unless they have been
taken before (R223, R226). -/
def State.withAngles (s : State) (k : Nat) (x : Scan) : Scan :=
  if x.angled then x
  else { x with angles := s.anglesAt (k / 4) x.apt, aptTime := s.marketAt x.apt, angled := true }

/-- APERTURE: the sample of the next element is held, for input 6 the code of the DAC (R79, R103, R106, R107); the
angles are those of element 0, through which a member without inputs idles (R80, R223). -/
def execAperture (k : Fin 12) (v : Sample) (s : State) : Result :=
  .next (match s.cnv[k].scan with
  | none => s
  | some x =>
    let due := x.aperture x.idx
    match x.elems[x.idx]?, x.conv with
    | some i, none =>
      let s := s.atTime due
      let y := s.withAngles k x
      let (d, s) : Nat × State :=
        if i = 6 then s.loopCode k (s.getF (CNV.base k) CNV.CTRL.LOOP_SEL) due else (0, s)
      s.modCnv k fun c => { c with scan := some { y with conv := some (i, edgeUp due), sample := v, dac := d } }
    | none, none =>
      if x.elems.isEmpty then
        let s := s.atTime due
        s.modCnv k fun c => { c with scan := some (s.withAngles k x) }
      else s
    | _, _ => s)

/-- RAW_CODE: 28 ac after the start edge (R80, R103, R105, R107). -/
def execRawCode (k : Fin 12) (s : State) : Result :=
  .next (match s.cnv[k].scan with
  | none => s
  | some x =>
    match x.conv, x.raw with
    | some (i, st), none =>
      let due := st + 28 * ac
      let s := s.atTime due
      let pair := s.paired k i
      let code : Int := if i = 6 then 16 * x.dac else rawCode x.sample pair
      let s := s.setF (CNV.base k) (CNV.RAW.W.at (4 * (i % 8))) (if pair then ofSigned 32 code else code.toNat)
      s.modCnvS k fun c => { c with acqFrom := due, scan := some { x with raw := some code, codes := x.codes ++ [BitVec.ofInt 16 code] } }
    | _, _ => s)

/-- CORRECTED_RESULT: 30 ac after the start edge (R107, R116, R123, R133). -/
def execCorrectedResult (k : Fin 12) (s : State) : Result :=
  .next (match s.cnv[k].scan with
  | none => s
  | some x =>
    match x.conv, x.raw with
    | some (i, st), some code =>
      let b := CNV.base k
      let s := s.aisleTime (st + 30 * ac)
      let (r, sat) := corrected code (s.getS b (CNV.OFFSET.OFFSET.at (8 * i))) (s.getS b (CNV.GAIN.GAIN.at (8 * i)))
      let s := ((s.setF b (CNV.RESULT.VALUE.at (4 * (i % 8))) (ofSigned 32 r)).setBit b CNV.STATUS.SAT i sat).countWrap
        b CNV.SMP_CNT.COUNT
      let f := Fin.ofNat 8 i
      s.modCnvS k fun c => { c with
        avgSum := c.avgSum.set f (c.avgSum[f] + r)
        scan := some { x with idx := x.idx + 1, conv := none, raw := none } }
    | _, _ => s)

/-- Every 2^N-th scan writes the block means (R123). -/
def State.average (s : State) (k : Nat) (elems : List Nat) : State :=
  let n := 2 ^ s.getF (CNV.base k) CNV.CTRL.AVG_N
  let c := s.cnvAt k
  if c.avgScans + 1 < n then s.modCnv k fun y => { y with avgScans := y.avgScans + 1 }
  else
    let s := elems.foldl (fun t i => t.setF (CNV.base k) (CNV.AVG.VALUE.at (4 * (i % 8)))
      (ofSigned 32 (roundAway c.avgSum[Fin.ofNat 8 i] n))) s
    s.modCnv k fun y => { y with avgScans := 0, avgSum := Vector.replicate 8 0 }

/-- The edge of the scan-complete of a scan (R80, R107). -/
def Scan.completeAt (x : Scan) : Nat := edgeUp (x.aperture (x.total - 1)) + 30 * ac

/-- What scan-complete does at the converter: counts, source 3 + 4s, averages, back-to-back running (R80,
R110, R123, R131, R133). -/
def State.scanDone (s : State) (k : Nat) (x : Scan) : State :=
  let b := CNV.base k
  let mode := s.getF b CNV.CTRL.TRIG_SRC
  let running := x.group.isNone && (s.groupOf k).isNone && (mode = 2 || (mode = 3 && s.getB b CNV.STATUS.RUN))
  let s := ((s.countWrap b CNV.SCAN_CNT.COUNT).pulse (3 + 4 * k)).average k x.elems
  s.modCnvS k fun c => { c with scan := none, again := running }

/-- SW_TRIG (R109, R112–R114). -/
def State.swTrig (s : State) (k : Nat) : State :=
  let b := CNV.base k
  if s.swtCauses k ≠ 0 then
    s.modCnvS k fun c => { c with swtCause := BitVec.ofNat 3 (s.swtCauses k) }
  else if s.getF b CNV.CTRL.TRIG_SRC = 3 then
    if s.getB b CNV.STATUS.RUN || (s.cnvAt k).pinAt == some s.now then s else s.armedStart k
  else if (s.cnvAt k).pinAt == some s.now then s
  else s.cnvFire k

def execSwTrig (init : Fin 16) (k : Fin 12) (s : State) : Result :=
  .next (s.onCommand init (CNV.base k + CNV.CMD.SW_TRIG.off) fun t => t.swTrig k)

/-- A passed change matches an edge selection: 1 rising, 2 falling, 3 both (R111). -/
def edgeMatches (sel : Nat) (level : Bool) : Bool := sel = 3 || (sel = 1 && level) || (sel = 2 && !level)

/-- A START edge (R109–R113); a SW_TRIG of the same edge has started the scan, or will not start another. -/
def State.startPin (s : State) (k : Nat) : State :=
  let b := CNV.base k
  let s := s.modCnv k fun x => { x with pinAt := some s.now }
  let mode := s.getF b CNV.CTRL.TRIG_SRC
  let c := s.cnvAt k
  if (s.groupOf k).isSome || !s.cnvOn k || c.firedAt = some s.now then s
  else if mode = 1 then s.cnvFire k
  else if mode = 3 then
    if s.getB b CNV.STATUS.RUN then s
    else if c.stopAt = some s.now then
      (s.setB b CNV.STATUS.RUN true).modCnv k fun x => { x with again := x.scan.isNone }
    else if c.stopPin = some (s.now, true) then s
    else if c.stopPin = some (s.now, false) then s.cnvFire k
    else s.armedStart k
  else s

/-- The START or STOP filter of converter `k` passes this level of a ball on this edge: it is the ball `pin` that the line
names, and the synchronised line has held the level for FILT further edges (R111). -/
def State.linePasses (s : State) (k pin : Nat) (x : PinLevel) : Bool :=
  x.ball.val == pin && s.passes x.line ac (s.getF (CNV.base k) CNV.TRIGPIN.FILT) (s.cnvAt k).filterFrom

/-- START_EDGE: the START filter passes a level (R111). -/
def execStartEdge (k : Fin 12) (x : PinLevel) (s : State) : Result :=
  let c := s.cnv[k]
  let edge := !c.startFresh && c.startLevel != x.line.level
    && edgeMatches (s.getF (CNV.base k) CNV.TRIGPIN.START_EDGE) x.line.level
  .next (if s.linePasses k (s.getF (CNV.base k) CNV.TRIGPIN.START_PIN) x then
    let s := s.modCnv k fun y => { y with startLevel := x.line.level, startFresh := false }
    if edge then s.startPin k else s
  else s)

/-- A STOP edge ends armed-continuous running; no further scan starts (R110, R113). -/
def State.stopPin (s : State) (k : Nat) : State :=
  let run := s.getB (CNV.base k) CNV.STATUS.RUN
  (s.setB (CNV.base k) CNV.STATUS.RUN false).modCnv k fun y => { y with again := false, stopPin := some (s.now, run) }

/-- STOP_EDGE: the STOP filter passes a level; a STOP edge ends armed-continuous running (R110, R111). -/
def execStopEdge (k : Fin 12) (x : PinLevel) (s : State) : Result :=
  let c := s.cnv[k]
  let edge := !c.stopFresh && c.stopLevel != x.line.level
    && edgeMatches (s.getF (CNV.base k) CNV.TRIGPIN.STOP_EDGE) x.line.level
  .next (if s.linePasses k (s.getF (CNV.base k) CNV.TRIGPIN.STOP_PIN) x then
    let s := s.modCnv k fun y => { y with stopLevel := x.line.level, stopFresh := false }
    if edge then s.stopPin k else s
  else s)

/-- CMD.STOP (R110). -/
def State.cnvStop (s : State) (k : Nat) : State :=
  let b := CNV.base k
  if s.getB b CNV.STATUS.RUN then
    (s.setB b CNV.STATUS.RUN false).modCnv k fun x => { x with again := false, stopAt := some s.now }
  else s

def execStop (init : Fin 16) (k : Fin 12) (s : State) : Result :=
  .next (s.onCommand init (CNV.base k + CNV.CMD.STOP.off) fun t => t.cnvStop k)

/-- BACK_TO_BACK_SCAN: the next scan starts on the edge of its element-0 aperture, with exactly ACQ ac of acquisition
since the last conversion, unless running has ended by then or a group has become the only trigger source (R106, R109,
R110). -/
def execBackToBackScan (k : Fin 12) (s : State) : Result :=
  let c := s.cnv[k]
  .next (if c.again && s.cnvIdle k && c.waiting.isEmpty && s.cnvOn k && (s.groupOf k).isNone then
    let due := max s.now (c.acqFrom + s.ownAcq k * ac)
    (s.atTime due).startScan k none (s.scanElems k).length due (s.ownAcq k)
  else s)

/-- A calibration command (R118, R120, R121).  It takes ACQ too on the edge on which it starts (DESIGN CHOICE, log entry
66). -/
def State.calibrate (s : State) (k : Nat) (full : Bool) (i : Nat) : State :=
  let b := CNV.base k
  let c := s.cnvAt k
  if s.cnvOn k then s.setF b CNV.STATUS.CAL_RESULT 2
  else if c.cal.isSome || c.diag.isSome || c.check.isSome || !c.waiting.isEmpty then s.setF b CNV.STATUS.CAL_RESULT 3
  else if s.oddOfPair k i then s.setF b CNV.STATUS.CAL_RESULT 4
  else s.modCnvS k fun x => { x with
    cal := some { full := full, input := i, paired := s.paired k i, fs := s.getS b CNV.FS_VALUE.FS
                  endAt := s.now + 256 * (s.ownAcq k + 28) * ac, startAt := s.now, acq := s.ownAcq k
                  loop := s.getF b CNV.CTRL.LOOP_SEL } }

/-- The aperture of the `n`-th conversion of a calibration (R118). -/
def CalRun.aperture (x : CalRun) (n : Nat) : Nat := x.startAt + ((n + 1) * x.acq + 28 * n) * ac

/-- The conversions of a calibration of input 6 whose apertures have passed by instant `t` sum the codes of the DAC that
LOOP_SEL named at the start (R103, R118). -/
def State.calSample (s : State) (k t : Nat) : State :=
  match (s.cnvAt k).cal with
  | none => s
  | some x =>
    if x.input ≠ 6 then s
    else
      let (y, s) := (List.range 256).foldl (fun (p : CalRun × State) n =>
        if p.1.counted = n ∧ x.aperture n < t then
          let (d, u) := p.2.loopCode k x.loop (x.aperture n)
          ({ p.1 with counted := n + 1, sum := p.1.sum + 16 * d }, u)
        else p) (x, s)
      s.modCnv k fun c => { c with cal := some y }

/-- THR of comparator `c` takes a new word: conversions of the loopback up to this edge have seen the old one (R103,
R118, R138). -/
def State.thrWritten (s : State) (c old : Nat) : State :=
  (s.calSample (c / 2) s.now).modCmp c fun x => { x with thrOld := BitVec.ofNat 32 old, thrAt := s.now }

/-- CAL_ZERO (R118, R119). -/
def execCalZero (init : Fin 16) (k : Fin 12) (input : Fin 8) (s : State) : Result :=
  .next (s.onCommand init (CNV.base k + CNV.CMD.CAL_ZERO.off) fun t => t.calibrate k false input)

/-- CAL_FULL (R118, R120). -/
def execCalFull (init : Fin 16) (k : Fin 12) (input : Fin 8) (s : State) : Result :=
  .next (s.onCommand init (CNV.base k + CNV.CMD.CAL_FULL.off) fun t => t.calibrate k true input)

/-- The correction, the pairing or the scan mask of a converter has changed: the recorder is told (R482). -/
def State.calOffer (s : State) (k : Nat) (changed : Bool) : State :=
  if changed then
    s.offer (s.bit ATC.base ATC.SEL_CNV.STREAM k || s.bit ATC.base ATC.SEL_CNV.WINDOW k) .cal
  else s

/-- The quotient of two integers, rounded to nearest with ties away from zero; `d` is not 0. -/
def roundQuot (n d : Int) : Int := roundAway (if d < 0 then -n else n) d.natAbs

/-- CALIBRATION_END (R119–R121): the sum of the 256 codes lies in the range of R105; that of input 6 is the DAC's. -/
def execCalibrationEnd (k : Fin 12) (codes : CalCodes) (s : State) : Result :=
  .next (match s.cnv[k].cal with
  | none => s
  | some x =>
    let b := CNV.base k
    let s := (s.atTime x.endAt).calSample k x.endAt
    let dacs := match (s.cnvAt k).cal with
      | some y => y.sum
      | none => 0
    let sum := if x.input = 6 then (dacs : Int) else if x.paired then clampInt (-32768 * 256) (32767 * 256) codes.sum else clampInt 0 (65535 * 256) codes.sum
    let d := sum - s.getS b (CNV.OFFSET.OFFSET.at (8 * x.input))
    let gain := roundQuot (x.fs * 65536) d
    let was := s.rd (b + CNV.OFFSET.W.off + 8 * x.input + (if x.full then 4 else 0))
    let s :=
      if !x.full then
        (s.setF b (CNV.OFFSET.OFFSET.at (8 * (x.input % 8))) (ofSigned 32 sum)).setF b CNV.STATUS.CAL_RESULT 1
      else if d = 0 || gain < -2147483648 || 2147483647 < gain then s.setF b CNV.STATUS.CAL_RESULT 6
      else (s.setF b (CNV.GAIN.GAIN.at (8 * (x.input % 8))) (ofSigned 32 gain)).setF b CNV.STATUS.CAL_RESULT 1
    let s := s.calOffer k (s.rd (b + CNV.OFFSET.W.off + 8 * x.input + (if x.full then 4 else 0)) != was)
    s.modCnvS k fun c => { c with cal := none, acqFrom := x.endAt })

/-- CMD.DIAG (R124, R125). -/
def State.cnvDiag (s : State) (k : Nat) : State :=
  let c := s.cnvAt k
  if c.diag.isSome || c.waiting.contains .diag then s
  else (s.setB (CNV.base k) CNV.STATUS.DIAG_DONE false).modCnvS k fun x => { x with waiting := x.waiting ++ [.diag] }

def execDiag (init : Fin 16) (k : Fin 12) (s : State) : Result :=
  .next (s.onCommand init (CNV.base k + CNV.CMD.DIAG.off) fun t => t.cnvDiag k)

/-- The duration of one element of a diagnostic scan (R124). -/
def State.diagLength (s : State) (k : Nat) : Nat := (max 12 (s.getF (CNV.base k) CNV.TIMING.DIAG_ACQ) + 28) * ac

/-- The balls that a diagnostic scan diagnoses, in ascending order. -/
def DiagRun.balls (x : DiagRun) : List Nat := (List.range 4).filter fun p => x.mask.getLsbD p

/-- DIAG_SCAN_START (R110, R124); MASK and DIAG_ACQ are those of this edge (DESIGN CHOICE, log entry 18). -/
def execDiagScanStart (x : DiagStart) (s : State) : Result :=
  let k := x.k
  .next (match s.cnv[k].waiting with
  | .diag :: rest =>
    if s.sideMayStart k then
      let r : DiagRun := { mask := BitVec.ofNat 4 (s.getF (CNV.base k) CNV.DIAG_CFG.MASK), endAt := 0
                           startAt := edgeUp s.now, len := s.diagLength k, codes := x.codes }
      s.modCnvS k fun c => { c with
        waiting := rest, diag := some { r with endAt := r.startAt + 2 * r.balls.length * r.len } }
    else s
  | _ => s)

/-- The conversion of element `n` of a diagnostic scan has ended: pull-up and pull-down of each ball in turn, the latter
with the code `dn`; OPEN is judged with the second (R124, R125). -/
def State.diagElement (s : State) (k n : Nat) (x : DiagRun) (dn : Nat) : State :=
  let b := CNV.base k
  let p := x.balls.getD (n / 2) 0
  let up := x.codes.up[Fin.ofNat 4 p].toNat
  if n % 2 = 0 then s.setF b (CNV.DIAG_RES.UP.at (4 * (p % 4))) up
  else
    (s.setF b (CNV.DIAG_RES.DN.at (4 * (p % 4))) dn).setBit b CNV.STATUS.OPEN p (s.getF b CNV.DIAG_CFG.DELTA + dn ≤ up)

/-- The elements of a diagnostic scan whose conversion has ended by now, but for the last, have written their codes. -/
def State.diagProgress (s : State) (k : Nat) : State :=
  match (s.cnvAt k).diag with
  | none => s
  | some x =>
    s.forAll 8 fun t n =>
      let ended := match (t.cnvAt k).diag with
        | some y => y.ended
        | none => 8
      if ended = n ∧ n + 1 < 2 * x.balls.length ∧ x.startAt + (n + 1) * x.len ≤ t.now then
        (t.diagElement k n x x.codes.dn[Fin.ofNat 4 (x.balls.getD (n / 2) 0)].toNat).modCnv k fun c => { c with diag := c.diag.map fun y => { y with ended := n + 1 } }
      else t

/-- Everything that time has brought to the aisles takes place: landings of engine stores, codes of diagnostic scans. -/
def State.arrive (s : State) : State := s.settle.forAll 12 State.diagProgress

/-- DIAG_SCAN_END: the last element's conversion ends, with the code `last`; DIAG_DONE (R124, R125). -/
def execDiagScanEnd (k : Fin 12) (last : BitVec 16) (s : State) : Result :=
  .next (match s.cnv[k].diag with
  | none => s
  | some x =>
    let s := (s.atTime x.endAt).diagProgress k
    let s := if x.balls.isEmpty then s else s.diagElement k (2 * x.balls.length - 1) x last.toNat
    (s.setB (CNV.base k) CNV.STATUS.DIAG_DONE true).modCnvS k fun c => { c with diag := none, acqFrom := x.endAt })

/-- CMD.SELFCHK (R128). -/
def State.cnvSelfchk (s : State) (k : Nat) : State :=
  let c := s.cnvAt k
  let running := match c.check with
    | some x => !x.background
    | none => false
  if running || c.waiting.contains .check then s
  else s.modCnvS k fun x => { x with waiting := x.waiting ++ [.check] }

def execSelfchk (init : Fin 16) (k : Fin 12) (s : State) : Result :=
  .next (s.onCommand init (CNV.base k + CNV.CMD.SELFCHK.off) fun t => t.cnvSelfchk k)

def State.bgOn (s : State) (k : Nat) : Bool := s.cnvOn k && s.getB (CNV.base k) CNV.CTRL.BG_EN

/-- SELF_CHECK_ATTEMPT: an interval starts and its attempt is pending (R127). -/
def execSelfCheckAttempt (k : Fin 12) (s : State) : Result :=
  .next (if s.bgOn k then
    let t := s.cnv[k].attemptAt
    let int := max 1 (s.getF (CNV.base k) CNV.SC_CFG.SC_INT) * (100 * us)
    (s.atTime t).modCnv k fun c => { c with attempt := true, attemptAt := t + int }
  else s)

/-- The slot test of R127 on the present edge; an event of this edge itself counts as the next one (DESIGN CHOICE, log
entry 66). -/
def State.slot (s : State) (k : Nat) : Bool :=
  let a := k / 4
  s.cnvIdle k && (s.cnvAt k).waiting.isEmpty &&
    (match s.groupOf k with
     | none => false
     | some q =>
       let code := s.getF (AIS.base a) (AIS.SG_CFG.TRIG.at (16 * q))
       let ev := code % 8
       ev != 7 &&
         (match s.nextEvent (4 * a + code / 8) (if ev = 2 then [0, 1] else [ev]) (edgeUp s.now) with
          | some t => edgeUp s.now + (40 + s.groupAcq a q) * ac ≤ t
          | none => s.carOn (4 * a + code / 8)))

/-- SELF_CHECK_ELEMENT: a waiting commanded self-check starts, or a pending background attempt in a slot
(R127, R128). -/
def execSelfCheckElement (k : Fin 12) (s : State) : Result :=
  let c := s.cnv[k]
  .next (match c.waiting with
  | .check :: rest =>
    if s.sideMayStart k then
      s.modCnvS k fun x => { x with waiting := rest, check := some ⟨7, edgeUp s.now, false⟩ }
    else s
  | [] =>
    if c.attempt && s.bgOn k && s.slot k then
      s.modCnvS k fun x => { x with
        attempt := false, nextIs5 := !x.nextIs5
        check := some ⟨if x.nextIs5 then 5 else 7, edgeUp s.now, true⟩ }
    else s
  | _ => s)

/-- SELF_CHECK_RESULT: 12 ac of acquisition and 28 ac of conversion after its start (R127–R130). -/
def execSelfCheckResult (k : Fin 12) (v : Sample) (s : State) : Result :=
  .next (match s.cnv[k].check with
  | none => s
  | some x =>
    let b := CNV.base k
    let due := x.startAt + 40 * ac
    let s := s.atTime due
    let code := (rawCode v false).toNat
    let tol := s.getF b CNV.SC_CFG.REF_TOL
    let s :=
      if x.input = 7 then
        (s.setF b CNV.SC_RES.REF_CODE code).setB b CNV.STATUS.REF_FAIL (code + tol < 32768 || 32768 + tol < code)
      else
        (s.setF b CNV.SC_RES.SUP_CODE code).setB b CNV.STATUS.SUP_FAIL
          (code < s.getF b CNV.SC_SUP.SUP_LO || s.getF b CNV.SC_SUP.SUP_HI < code)
    let next : Option CheckRun := if !x.background && x.input = 7 then some ⟨5, due, false⟩ else none
    (s.setB b CNV.STATUS.BGSTARVED false).modCnvS k fun c => { c with check := next, acqFrom := due, checkFrom := due })

/-- BGSTARVED: 10 ms without a completed element (R130). -/
def execBgstarved (k : Fin 12) (s : State) : Result :=
  .next (if s.bgOn k then
    (s.atTime (s.cnv[k].checkFrom + 10000 * us)).setB (CNV.base k) CNV.STATUS.BGSTARVED true
  else s)

/-- CMD.CNT_CLR (R58, R133). -/
def State.cnvCntClr (s : State) (k : Nat) : State :=
  let b := CNV.base k
  (((s.clearCount b CNV.SMP_CNT.COUNT).clearCount b CNV.SCAN_CNT.COUNT).clearCount b CNV.CNT.LATE).clearCount b
    CNV.CNT.OVERRUN

def execCnvCntClr (init : Fin 16) (k : Fin 12) (s : State) : Result :=
  .next (s.onCommand init (CNV.base k + CNV.CMD.CNT_CLR.off) fun t => t.cnvCntClr k)

/-- A write to CNV.CMD runs its bits in ascending order (R60, R135); a bit above CAL_INPUT or bit 7 makes it
do nothing. -/
def State.cnvCmd (s : State) (k value : Nat) : State :=
  let i := bitsOf value 10 8
  if value / 2048 ≠ 0 || value.testBit 7 then s
  else
    let s := if value.testBit 0 then s.swTrig k else s
    let s := if value.testBit 1 then s.cnvStop k else s
    let s := if value.testBit 2 then s.calibrate k false i else s
    let s := if value.testBit 3 then s.calibrate k true i else s
    let s := if value.testBit 4 then s.cnvDiag k else s
    let s := if value.testBit 5 then s.cnvSelfchk k else s
    if value.testBit 6 then s.cnvCntClr k else s

/-- The diagnostic level of source 4 + 4s (R131). -/
def State.cnvLevel (s : State) (k : Nat) : Bool :=
  let b := CNV.base k
  (s.getB b CNV.IRQ_EN.OPEN && s.getB b CNV.STATUS.OPEN) || (s.getB b CNV.IRQ_EN.REF && s.getB b CNV.STATUS.REF_FAIL)
    || (s.getB b CNV.IRQ_EN.SUP && s.getB b CNV.STATUS.SUP_FAIL)
    || (s.getB b CNV.IRQ_EN.STARVE && s.getB b CNV.STATUS.BGSTARVED)
    || (s.getB b CNV.IRQ_EN.DONE && s.getB b CNV.STATUS.DIAG_DONE)

end Sys2Proof.Machine
end

