-- ==== Sys2Proof/Machine/Engine.lean ====
section
/-! DEFINITION. Stall engines (R210–R244): the angle unit, triggers and frames, the operations in two lanes,
release, vote and faults. -/

namespace Sys2Proof.Machine

/-! ### Program words (R217–R219) -/

structure OpWord where
  op : Nat
  d : Nat
  a : Nat
  b : Nat
  x : Nat
  deriving DecidableEq, Repr

def opWord (w : Nat) : OpWord := ⟨bitsOf w 31 26, bitsOf w 25 21, bitsOf w 20 16, bitsOf w 15 11, bitsOf w 10 0⟩

/-- Legality of a word (R219). -/
def OpWord.legal (o : OpWord) : Bool :=
  let pair (r : Nat) : Bool := r ≤ 30
  let cls := bitsOf o.x 10 8
  let n := bitsOf o.x 5 4 + 1
  let i := bitsOf o.x 2 0
  let m := bitsOf o.x 3 0
  let span (k : Nat) : Bool := o.d + k ≤ 32
  match o.op with
  | 0x00 | 0x04 | 0x05 | 0x0B | 0x0C | 0x0E | 0x10 | 0x15 | 0x1B | 0x1C | 0x20 => true
  | 0x01 => cls ≤ 2 && span n && !(cls == 2 && 1 < n) && i + n ≤ 8
  | 0x02 => cls ≤ 1 && span n && i + n ≤ 8
  | 0x03 => span n && m + n ≤ 16
  | 0x08 | 0x09 => !o.x.testBit 10 || (pair o.d && pair o.a && pair o.b)
  | 0x0A => !o.x.testBit 10 || (pair o.d && pair o.a)
  | 0x0D => pair o.b
  | 0x11 => pair o.d
  | 0x12 | 0x13 => pair o.d && pair o.a && pair o.b
  | 0x14 => pair o.d
  | 0x16 => o.d ≤ 29 && pair o.a
  | 0x18 | 0x19 => span (bitsOf o.x 8 7 + 1) && m + bitsOf o.x 8 7 + 1 ≤ 16 && bitsOf o.x 6 4 ≤ 5
  | 0x1A => span n && m + n ≤ 16
  | _ => false

/-- Issue cycles (R218). -/
def OpWord.cycles (o : OpWord) : Nat := if o.op = 0 then 0 else if o.op = 0x14 then 8 else 1

/-! ### The operations of one lane -/

def Lane.r (l : Lane) (n : Nat) : Word := l.e[Fin.ofNat 32 n]
def Lane.i (l : Lane) (n : Nat) : Int := (l.r n).toInt
/-- Write a rounded, saturated value and note a saturation. -/
def Lane.putSat (l : Lane) (n : Nat) (v : Word × Bool) : Lane := { l.put n v.1 with sat := l.sat || v.2 }
def Lane.putAll (l : Lane) (n : Nat) : List Word → Lane
  | [] => l
  | v :: t => (l.put n v).putAll (n + 1) t
def Lane.out (l : Lane) (r : OutRec) : Lane := { l with recs := l.recs ++ [r] }

/-- END. -/
def opEnd (_ : OpWord) (l : Lane) : Lane := { l with done := true }

/-- LD, LDR, LDM: the words read go to D… -/
def opLoad (ws : List Word) (o : OpWord) (l : Lane) : Lane := l.putAll o.d ws

def opMov (o : OpWord) (l : Lane) : Lane := l.put o.d (l.r o.a)

/-- LDI: imm21 sign-extended × 2¹¹. -/
def opLdi (o : OpWord) (l : Lane) : Lane := l.put o.d (BitVec.ofNat 32 ((o.a * 2 ^ 16 + o.b * 2 ^ 11 + o.x) * 2 ^ 11))

/-- A two-operand operation and its paired form. -/
def opTwo (f : Int → Int → Word × Bool) (bStep : Nat) (o : OpWord) (l : Lane) : Lane :=
  let v := f (l.i o.a) (l.i o.b)
  let v' := f (l.i (o.a + 1)) (l.i (o.b + bStep))
  let l := l.putSat o.d v
  if o.x.testBit 10 then l.putSat (o.d + 1) v' else l

def opAdd : OpWord → Lane → Lane := opTwo (fun a b => sat32 (a + b) 1) 1
def opSub : OpWord → Lane → Lane := opTwo (fun a b => sat32 (a - b) 1) 1
def opMul : OpWord → Lane → Lane := opTwo (fun a b => sat32 (a * b) 65536) 0

def opMac (o : OpWord) (l : Lane) : Lane :=
  let k := Fin.ofNat 4 o.d
  let base := if o.x.testBit 0 then 0 else l.acc[k]
  let (v, s) := sat64 (base + l.i o.a * l.i o.b)
  { l with acc := l.acc.set k v, sat := l.sat || s }

def opSat (o : OpWord) (l : Lane) : Lane := l.putSat o.d (sat32 l.acc[Fin.ofNat 4 o.a] 65536)

def opClamp (o : OpWord) (l : Lane) : Lane :=
  l.put o.d (BitVec.ofInt 32 (min (max (l.i o.a) (l.i o.b)) (l.i (o.b + 1))))

def opAbs (o : OpWord) (l : Lane) : Lane := l.putSat o.d (sat32 (l.i o.a).natAbs 1)

/-- PI (R221): everything in units of 2⁻³². -/
def opPi (f : Frame) (o : OpWord) (l : Lane) : Lane :=
  let p := Fin.ofNat 16 o.x
  let e := l.i o.a - l.i o.b
  let hi := f.hi[p].toInt * 65536
  let lo := f.lo[p].toInt * 65536
  let pt := f.kp[p].toInt * e
  let t := l.int[p] + f.ki[p].toInt * e
  let t := if (hi < pt + t && 0 < e) || (pt + t < lo && e < 0) then l.int[p] else t
  let int := min (max t lo) hi
  let d := min (max (pt + int) lo) hi
  { l.put o.d (BitVec.ofInt 32 (roundAway d 65536)) with int := l.int.set p int }

def opClarke (o : OpWord) (l : Lane) : Lane :=
  let v := sat32 (l.i o.a * 0x93CD + l.i o.b * 0x1279A) 65536
  (l.put o.d (l.r o.a)).putSat (o.d + 1) v

def opPark (o : OpWord) (l : Lane) : Lane :=
  let (x, y, c, s) := (l.i o.a, l.i (o.a + 1), l.i o.b, l.i (o.b + 1))
  (l.putSat o.d (sat32 (x * c + y * s) 65536)).putSat (o.d + 1) (sat32 (y * c - x * s) 65536)

def opIpark (o : OpWord) (l : Lane) : Lane :=
  let (x, y, c, s) := (l.i o.a, l.i (o.a + 1), l.i o.b, l.i (o.b + 1))
  (l.putSat o.d (sat32 (x * c - y * s) 65536)).putSat (o.d + 1) (sat32 (x * s + y * c) 65536)

def opSincos (o : OpWord) (l : Lane) : Lane :=
  let (c, s) := sincos (l.r o.a)
  (l.put o.d c).put (o.d + 1) s

/-- NCO (R223): with L = 1 and market time as the source, the angle that FREQ covers in A µs is added. -/
def opNco (f : Frame) (freq : Int) (marketSource : Bool) (o : OpWord) (l : Lane) : Lane :=
  let adv := if o.x.testBit 0 && marketSource then roundAway (freq * l.i o.a * 1000) (2 ^ 32) else 0
  l.put o.d (BitVec.ofInt 32 (f.angle.toNat + adv))

/-- SVM (R224). -/
def opSvm (f : Frame) (o : OpWord) (l : Lane) : Lane :=
  let al := l.i o.a
  let be := l.i (o.a + 1) * 0xDDB4
  let k : Int := (l.r o.b).toNat
  let va := 2 * al * 2 ^ 16
  let vb := -(al * 2 ^ 16) + 2 * be
  let vc := -(al * 2 ^ 16) - 2 * be
  let sum := max va (max vb vc) + min va (min vb vc)
  let c (v : Int) : Word :=
    BitVec.ofInt 32 (clampInt 0 (f.prd * 65536) (roundAway (f.prd * (2 ^ 57 + k * (2 * v - sum))) (2 ^ 42)))
  ((l.put o.d (c va)).put (o.d + 1) (c vb)).put (o.d + 2) (c vc)

/-- A register in 16.6 format (R225). -/
def to166 (v : Word) (unsigned : Bool) : Nat :=
  if !unsigned && v.msb then 0 else min ((v.toNat + 512) / 1024) 0x3FFFFF

/-- ST and STI of the engine of aisle `a` (R225). -/
def opStore (a : Nat) (sti : Bool) (o : OpWord) (l : Lane) : Lane :=
  let n := bitsOf o.x 8 7 + 1
  let t := bitsOf o.x 6 4
  let shadows : List (Fin 4) :=
    if t = 0 then [0] else if t = 1 then [1] else if t = 2 then [0, 1] else if t = 3 then [2] else if t = 4 then [3] else [2, 3]
  (List.range n).foldl (fun l j =>
    shadows.foldl (fun l k =>
      l.out (.store (16 * a + bitsOf o.x 3 0 + j) k (to166 (l.r (o.d + j)) (o.x.testBit 9)) sti)) l) l

def opSto (o : OpWord) (l : Lane) : Lane :=
  (List.range (bitsOf o.x 5 4 + 1)).foldl (fun l j => l.out (.word (bitsOf o.x 3 0 + j) (l.r (o.d + j)))) l

def opTrip (_ : OpWord) (l : Lane) : Lane := l.out .trip

def opMark (o : OpWord) (l : Lane) : Lane := l.out (.mark (bitsOf o.x 7 0) (l.r o.d))

/-- Is a BRF taken? (R227) -/
def brfTaken (o : OpWord) (l : Lane) : Bool :=
  match o.d % 8 with
  | 0 => true
  | 1 => l.r o.a == l.r o.b
  | 2 => l.r o.a != l.r o.b
  | 3 => decide (l.i o.a < l.i o.b)
  | 4 => decide (l.i o.b ≤ l.i o.a)
  | 5 => (l.r o.a).getLsbD o.b
  | 6 => !(l.r o.a).getLsbD o.b
  | _ => l.sat

/-- BRF (R227): a taken branch continues skip entries further on. -/
def opBrf (o : OpWord) (l : Lane) : Lane :=
  if brfTaken o l then { l with pc := l.pc + bitsOf o.x 6 0 } else l

/-- One operation of one lane; `ws` are the words an LD, LDR or LDM reads. -/
def laneOp (e : Nat) (f : Frame) (freq : Int) (marketSource : Bool) (ws : List Word) (o : OpWord) (l : Lane) : Lane :=
  let l := { l with pc := l.pc + 1 }
  let l :=
    match o.op with
    | 0x00 => opEnd o l
    | 0x01 | 0x02 | 0x03 => opLoad ws o l
    | 0x04 => opMov o l
    | 0x05 => opLdi o l
    | 0x08 => opAdd o l
    | 0x09 => opSub o l
    | 0x0A => opMul o l
    | 0x0B => opMac o l
    | 0x0C => opSat o l
    | 0x0D => opClamp o l
    | 0x0E => opAbs o l
    | 0x10 => opPi f o l
    | 0x11 => opClarke o l
    | 0x12 => opPark o l
    | 0x13 => opIpark o l
    | 0x14 => opSincos o l
    | 0x15 => opNco f freq marketSource o l
    | 0x16 => opSvm f o l
    | 0x18 => opStore (e / 4) false o l
    | 0x19 => opStore (e / 4) true o l
    | 0x1A => opSto o l
    | 0x1B => opTrip o l
    | 0x1C => opMark o l
    | _ => opBrf o l
  if 127 < l.pc then { l with done := true } else l

/-! ### Capture and triggers (R212–R214) -/

/-- The program word at an entry. -/
def State.progWord (s : State) (e pc : Nat) : OpWord := opWord (s.rd (ENG.base e + ENG.PROG.WORD.off + 4 * (pc % 128))).toNat

/-- Where a lane of a run stands: at ENTRY before the capture (R215). -/
def State.lanePc (s : State) (e : Nat) (r : EngRun) (l : Lane) : Nat :=
  if r.captured = .all then l.pc else s.getF (ENG.base e) ENG.CTRL.ENTRY

/-- The words that the lanes not ended execute next, with their entries; that of lane 0 first. -/
def State.nextWords (s : State) (e : Nat) (r : EngRun) : List (Nat × OpWord) :=
  ([r.l0, r.l1].filter fun l => !l.done).map fun l => (s.lanePc e r l, s.progWord e (s.lanePc e r l))

/-- The operation a run executes next: that of lane 0, or of lane 1 where lane 0 has ended. -/
def State.nextOp (s : State) (e : Nat) (r : EngRun) : OpWord :=
  (((s.nextWords e r).head?).map Prod.snd).getD ⟨0, 0, 0, 0, 0⟩

/-- A lane has an illegal word next (R219, R235). -/
def State.nextIllegal (s : State) (e : Nat) (r : EngRun) : Bool := (s.nextWords e r).any fun w => !w.2.legal

def EngRun.ended (r : EngRun) : Bool := r.l0.done && r.l1.done

/-- ENG.STATUS.BUSY: from the capture edge of a run until it leaves (R213). -/
def State.engBusy (s : State) (e : Nat) : Bool :=
  match (s.engAt e).run with
  | some r => r.trig.edge + ac ≤ s.now
  | none => false

/-- A run begins with its trigger; it is captured as time moves on (R213, R214). -/
def State.engBegin (s : State) (e : Nat) (t : Trigger) : State :=
  s.modEng e fun x => { x with run := some { trig := t, next := s.runStart e t } }

/-- A trigger is accepted, and counted (R213). -/
def State.engAccept (s : State) (e : Nat) (t : Trigger) : State :=
  ((s.countWrap (ENG.base e) ENG.RUN_CNT.COUNT).modEng e fun x => { x with trig := none }).engBegin e t

/-- The run in progress will not have left on the capture edge of the trigger that waits: the trigger is lost (R213,
R240). -/
def State.engLose (s : State) (e : Nat) : State :=
  match (s.engAt e).trig, (s.engAt e).run with
  | some t, some r =>
    let o := s.nextOp e r
    if t.edge + ac < r.next || (t.edge + ac = r.next && !r.ended && !s.nextIllegal e r && o.op != 0) then
      (s.countSat (ENG.base e) ENG.CNT.START_LOST).modEng e fun x => { x with trig := none }
    else s
  | _, _ => s

/-- A trigger on this edge: CMD.START, or a scan-complete with the market time and the angle at the element-0 aperture
(R212, R213, R240, R241). Both on one edge are one trigger, that of the scan. -/
def State.engTrigger (s : State) (e : Nat) (scan : Option (Nat × Word)) : State :=
  let b := ENG.base e
  let t : Trigger := match scan with
    | some (time, angle) => ⟨s.now, true, angle, time⟩
    | none => ⟨s.now, false, s.angleAt e s.marketUnits s.allPositions, s.marketUnits⟩
  if !s.getB b ENG.CTRL.ENABLE || s.getB (STL.base e) STL.DBG.FREEZE then s
  else
    match (s.engAt e).run with
    | none => s.engAccept e t
    | some r =>
      if r.trig.edge = s.now then
        if t.scan && !r.trig.scan then s.engBegin e t else s
      else
        match (s.engAt e).trig with
        | none => (s.modEng e fun x => { x with trig := some t }).engLose e
        | some p =>
          if p.edge ≠ s.now then s.countSat b ENG.CNT.START_LOST
          else if t.scan && !p.scan then s.modEng e fun x => { x with trig := some t }
          else s

/-! ### Executing an operation -/

/-- Flip bits of one register of one lane's working copy. -/
def EngRun.upset (r : EngRun) (u : Option LaneUpset) : EngRun :=
  match u with
  | none => r
  | some u =>
    let f (l : Lane) : Lane := l.put u.reg.val (l.r u.reg.val ^^^ u.mask)
    if u.lane then { r with l1 := f r.l1 } else { r with l0 := f r.l0 }

/-- What an LD, LDR or LDM reads: from the frame, or outside it live in the first execution and as kept in a
re-run (R228, R229). -/
def State.engWords (s : State) (e : Nat) (r : EngRun) (pc : Nat) (o : OpWord) : List Word :=
  let n := bitsOf o.x 5 4 + 1
  let i := bitsOf o.x 2 0
  let cls := bitsOf o.x 10 8
  let range (f : Nat → Word) (i : Nat) : List Word := (List.range n).map fun j => f (i + j)
  let kept (live : List Word) : List Word := ((r.kept.find? fun p => p.1 == pc).map Prod.snd).getD live
  match o.op with
  | 0x01 =>
    if cls = 0 then range (fun j => r.frame.result[Fin.ofNat 8 j]) i
    else if cls = 1 then range (fun j => r.frame.avg[Fin.ofNat 8 j]) i
    else kept [BitVec.ofNat 32 (s.cmpWord e)]
  | 0x02 =>
    let k := 4 * (e / 4) + bitsOf o.x 7 6
    let f := if cls = 0 then CNV.RESULT.VALUE else CNV.AVG.VALUE
    kept (range (fun j => s.rd (CNV.base k + f.off + 4 * j)) i)
  | 0x03 => range (fun j => r.frame.mbx[Fin.ofNat 16 j]) (bitsOf o.x 3 0)
  | _ => []

/-- The stall ports that the next LDR words of a run's lanes read; a re-run reads none (R229). -/
def State.ldrPorts (s : State) (e : Nat) (r : EngRun) : List Nat :=
  if r.first.isSome || s.nextIllegal e r then []
  else ((s.nextWords e r).filter fun w => w.2.op == 2).map fun w => bitsOf w.2.x 7 6

/-- Two LDR reads of the stall port go before that of engine `e` on its edge (R229). -/
def State.portFull (s : State) (e : Nat) (r : EngRun) (port : Nat) : Bool :=
  let ahead (w : Bool) (j : Nat) : Bool := (w && !r.waited) || (w == r.waited && j < e)
  let before (j : Nat) : Bool :=
    j != e &&
      ((match (s.engAt j).ldr with
        | some (t, ps, w) => t == r.next && ps.contains port && ahead w j
        | none => false) ||
       (match (s.engAt j).run with
        | some q => q.next == r.next && (s.ldrPorts j q).contains port && ahead q.waited j
        | none => false))
  2 ≤ (((List.range 4).map (4 * (e / 4) + ·)).filter before).length

/-- An LDR of a lane of the run waits one edge. -/
def State.ldrWaits (s : State) (e : Nat) (r : EngRun) : Bool := (s.ldrPorts e r).any fun p => s.portFull e r p

/-- A word that reads outside the frame: LD of class 2, LDR (R228, R229). -/
def OpWord.outside (o : OpWord) : Bool := o.op == 2 || (o.op == 1 && bitsOf o.x 10 8 == 2)

/-- An operation with code `op` executes in both lanes on its edge, if the run's next word is one and no lane has an
illegal word (R215, R232).  Lanes that a fault has driven apart keep step: each executes its own word, and the
next edge is that of the longer one (DESIGN CHOICE, log entry 72). -/
def State.engOp (s : State) (e op : Nat) (u : Option LaneUpset) : State :=
  match (s.engAt e).run with
  | none => s
  | some q =>
    let t := s.aisleTime q.next
    match (t.engAt e).run with
    | none => s
    | some r0 =>
      if r0.ended || (t.nextOp e r0).op ≠ op || t.nextIllegal e r0 then s
      else
        let s := t
        let r := r0.upset u
        if s.ldrWaits e r then
          (s.modRun e fun _ => { r with next := r.next + ac, len := r.len + 1, waited := true }).engLose e
        else
          let b := ENG.base e
          let f (l : Lane) : Lane :=
            if l.done then l
            else
              let w := s.progWord e l.pc
              laneOp e r.frame (s.ncoFreq e) (!s.getB b ENG.NCO_CFG.SRC) (s.engWords e r l.pc w) w l
          let words := s.nextWords e r
          let cycles := words.foldl (fun n w => max n w.2.cycles) 0
          let read := (words.filter fun w => w.2.outside).map fun w => (w.1, s.engWords e r w.1 w.2)
          let ports := s.ldrPorts e r
          let r' := { r with
            l0 := f r.l0, l1 := f r.l1, waited := false
            next := r.next + cycles * ac
            len := if r.first.isNone then r.len + cycles else r.len
            kept := if r.first.isNone then r.kept ++ read else r.kept }
          (s.modEng e fun x => { x with
            run := some r'
            ldr := if ports.isEmpty then x.ldr else some (r.next, ports, r.waited) }).engLose e

/-! ### Release, vote and faults (R232–R237) -/

/-- A trip request stands from edge `t` on; of those that stand already one is kept (R237). -/
def State.raiseTrip (s : State) (e t : Nat) : State :=
  s.modEng e fun x => { x with
    trips := (x.trips.filter fun u => u < s.now).take 1 ++ x.trips.filter (fun u => s.now ≤ u) ++ [t] }

/-- The class of a policy: 0 APPLY, 1 DROP, 2 TRIP (R236). -/
def policyClass (v : Nat) : Nat := min v 2

/-- The target commit point has passed (R91, R235, R237). -/
def State.missDeadline (s : State) (e t : Nat) : State :=
  let b := ENG.base e
  let s := (s.latch b ENG.FAULT.DEADLINE_MISS).modRun e fun r => { r with missed := true }
  if policyClass (s.getF b ENG.POLICY.DEADLINE) = 2 then s.raiseTrip e (t + ac) else s

/-- A result: the list of records, the saturation record, the final working state. -/
structure LaneResult where
  recs : List OutRec
  sat : Bool
  e : Vector Word 32
  acc : Vector Int 4
  int : Vector Int 16
  deriving DecidableEq, Repr

def Lane.result (l : Lane) : LaneResult := ⟨l.recs, l.sat, l.e, l.acc, l.int⟩

/-- The committed state takes a working state (R211). -/
def State.commitLane (s : State) (e : Nat) (x : LaneResult) : State :=
  let b := ENG.base e
  let s := s.forAll 32 fun t n => t.setF b (ENG.E.VALUE.at (4 * n)) x.e[Fin.ofNat 32 n].toNat
  let s := s.forAll 4 fun t k =>
    t.set64 b (ENG.ACC_LO.VALUE.at (8 * k)) (ENG.ACC_HI.VALUE.at (8 * k)) (ofSigned 64 x.acc[Fin.ofNat 4 k])
  s.forAll 16 fun t p =>
    t.set64 b (ENG.INT_LO.VALUE.at (32 * p)) (ENG.INT_HI.VALUE.at (32 * p)) (ofSigned 64 x.int[Fin.ofNat 16 p])

/-- A result leaves the engine on edge `edge`, or a vote has failed (`none`): faults, policies, LAST, source
1 + 4s, and the capture of a trigger that waits (R235–R238, R240, R243). -/
def State.engLeave (s : State) (e : Nat) (r : EngRun) (x : Option LaneResult) (edge : Nat) : State :=
  let b := ENG.base e
  let goal := s.runTarget e r
  let late := match goal with
    | some t => t < edge
    | none => false
  let s := match goal with
    | some t => if late && !r.missed then s.missDeadline e t else s
    | none => s
  let sat := match x with
    | some y => y.sat
    | none => false
  let s := if x.isNone then s.latch b ENG.FAULT.VOTE_FAIL else s
  let s := if sat then s.latch b ENG.FAULT.SAT_EVENT else s
  let pol (c : Bool) (f : Fld) : Nat := if c then policyClass (s.getF b f) else 0
  let other := max (pol sat ENG.POLICY.SAT) (if x.isNone then max 1 (pol true ENG.POLICY.VOTE) else 0)
  let class_ := max other (pol (r.missed || late) ENG.POLICY.DEADLINE)
  let slack : Int := match goal with
    | some t => ((t : Int) - edge) / (ac : Int)
    | none => 0x7FFFF
  let s := (s.setF b ENG.LAST.SLACK (ofSigned 20 slack)).setF b ENG.LAST.LEN r.len
  let s := s.pulseIf (s.getB b ENG.IRQ_EN.DONE) (1 + 4 * e)
  let s := s.modEng e fun y => { y with run := none }
  let s := if other = 2 then s.raiseTrip e (edge + ac) else s
  let s := match x with
    | some y =>
      if class_ = 0 then
        let s := (s.commitLane e y).modEng e fun z => { z with landing := if y.recs.isEmpty then z.landing else some (edge + 2 * ac, y.recs) }
        let s := y.recs.foldl (fun (t : State) (o : OutRec) =>
          match o with
          | OutRec.mark tag v => t.offer true (Item.mark e tag r.trig.time v)
          | _ => t) s
        if y.recs.contains .trip then (s.latch b ENG.FAULT.TRIP_OP).raiseTrip e (edge + ac) else s
      else s
    | none => s
  match (s.engAt e).trig with
  | some t => if edge ≤ t.edge + ac then s.engAccept e t else (s.countSat b ENG.CNT.START_LOST).modEng e fun y => { y with trig := none }
  | none => s

/-- One item of the vote (R234): x, x, * and x, y, x give x; x, y, y gives y; three values give none. -/
def voteItem {α : Type} [DecidableEq α] (a b c : α) : Option α :=
  if a = b then some a else if a = c then some a else if b = c then some b else none

/-- The lists of records, voted by position; a record that a list lacks counts as a value of its own. -/
def voteRecs (x y z : List OutRec) : Option (List OutRec) :=
  (List.range (max x.length (max y.length z.length))).foldl (fun out i =>
    match out with
    | none => none
    | some l =>
      match voteItem x[i]? y[i]? z[i]? with
      | some (some r) => some (l ++ [r])
      | some none => some l
      | none => none) (some [])

/-- The vote over a first execution and an agreed re-run. -/
def voteResults (x y z : LaneResult) : Option LaneResult :=
  match voteRecs x.recs y.recs z.recs, voteItem x.sat y.sat z.sat,
      voteItem (x.e, x.acc, x.int) (y.e, y.acc, y.int) (z.e, z.acc, z.int) with
  | some rs, some t, some w => some ⟨rs, t, w.1, w.2.1, w.2.2⟩
  | _, _, _ => none

/-- CMD.TRIP_REL: a request raised on this edge stays (R237). -/
def State.engTripRel (s : State) (e : Nat) : State :=
  (s.modEng e fun x => { x with trips := x.trips.filter fun u => s.now ≤ u }).srcFall (32 + e)

/-- CMD.PUBLISH (R230). -/
def State.engPublish (s : State) (e : Nat) : State :=
  let b := ENG.base e
  if s.getB b ENG.CTRL.ENABLE then s.setB b ENG.MBX_STATUS.PUB_PEND true else s.publishCopy e

/-- CMD.FLT_REL: a fault that latches on this edge stays (R235). -/
def State.engFltRel (s : State) (e faults : Nat) : State :=
  let one (t : State) (i : Nat) (f : Fld) : State := if faults.testBit i then t.unlatch (ENG.base e) f else t
  one (one (one (one (one s 0 ENG.FAULT.DEADLINE_MISS) 1 ENG.FAULT.VOTE_FAIL) 2 ENG.FAULT.SAT_EVENT) 3
    ENG.FAULT.ILLOP) 4 ENG.FAULT.TRIP_OP

/-- CMD.CNT_CLR (R58, R243). -/
def State.engCntClr (s : State) (e : Nat) : State :=
  let b := ENG.base e
  ((s.clearCount b ENG.CNT.MISMATCH_CNT).clearCount b ENG.CNT.START_LOST).clearCount b ENG.RUN_CNT.COUNT

/-- ENABLE becomes 0: a run is abandoned (R216). -/
def State.engAbandon (s : State) (e : Nat) : State := s.modEng e fun x => { x with run := none, trig := none }

/-- A write to ENG.CMD runs its bits in ascending order (R60, R243). -/
def State.engCmd (s : State) (e value : Nat) : State :=
  if value / 8192 ≠ 0 || bitsOf value 7 4 ≠ 0 then s
  else
    let s := if value.testBit 0 then s.engTrigger e none else s
    let s := if value.testBit 1 then s.engPublish e else s
    let s := if value.testBit 2 then s.engTripRel e else s
    let s := if value.testBit 3 then s.engCntClr e else s
    s.engFltRel e (bitsOf value 12 8)

/-- A write to STL.DBG (R241). -/
def State.freeze (s : State) (e value : Nat) : State :=
  let b := STL.base e
  let old := (s.rd (b + STL.DBG.W.off)).toNat
  let s := s.must (old / 4 == value / 4)
  let s := s.setF b ⟨STL.DBG.W.off, 31, 2⟩ (value / 4)
  if value.testBit 0 && s.armed then
    if s.getB b STL.DBG.FREEZE then s else s.setB b STL.DBG.FRZ_REFUSED true
  else s.setB b STL.DBG.FREEZE (value.testBit 0)

/-- The level of source 2 + 4s (R238). -/
def State.engLevel (s : State) (e : Nat) : Bool :=
  let b := ENG.base e
  (bitsOf (s.rd (b + ENG.FAULT.W.off)).toNat 4 0 &&& s.getF b ENG.IRQ_EN.FAULTS) != 0
    || (s.tripReq e && s.getB b ENG.IRQ_EN.TRIP_REQ)

/-! ### The commands -/

/-- START: ENG.CMD.START (R212). -/
def execStart (init : Fin 16) (e : Fin 12) (s : State) : Result :=
  .next (s.onCommand init (ENG.base e + ENG.CMD.START.off) fun t => t.settle.engTrigger e none)

/-- ENG_END (R218). -/
def execEngEnd (e : Fin 12) (s : State) : Result := .next (s.engOp e 0x00 none)
/-- ENG_LD (R228). -/
def execEngLd (e : Fin 12) (u : Option LaneUpset) (s : State) : Result := .next (s.engOp e 0x01 u)
/-- ENG_LDR (R229). -/
def execEngLdr (e : Fin 12) (u : Option LaneUpset) (s : State) : Result := .next (s.engOp e 0x02 u)
/-- ENG_LDM (R218). -/
def execEngLdm (e : Fin 12) (u : Option LaneUpset) (s : State) : Result := .next (s.engOp e 0x03 u)
/-- ENG_MOV (R218). -/
def execEngMov (e : Fin 12) (u : Option LaneUpset) (s : State) : Result := .next (s.engOp e 0x04 u)
/-- ENG_LDI (R220). -/
def execEngLdi (e : Fin 12) (u : Option LaneUpset) (s : State) : Result := .next (s.engOp e 0x05 u)
/-- ENG_ADD (R220). -/
def execEngAdd (e : Fin 12) (u : Option LaneUpset) (s : State) : Result := .next (s.engOp e 0x08 u)
/-- ENG_SUB (R220). -/
def execEngSub (e : Fin 12) (u : Option LaneUpset) (s : State) : Result := .next (s.engOp e 0x09 u)
/-- ENG_MUL (R220). -/
def execEngMul (e : Fin 12) (u : Option LaneUpset) (s : State) : Result := .next (s.engOp e 0x0A u)
/-- ENG_MAC (R220). -/
def execEngMac (e : Fin 12) (u : Option LaneUpset) (s : State) : Result := .next (s.engOp e 0x0B u)
/-- ENG_SAT (R220). -/
def execEngSat (e : Fin 12) (u : Option LaneUpset) (s : State) : Result := .next (s.engOp e 0x0C u)
/-- ENG_CLAMP (R220). -/
def execEngClamp (e : Fin 12) (u : Option LaneUpset) (s : State) : Result := .next (s.engOp e 0x0D u)
/-- ENG_ABS (R220). -/
def execEngAbs (e : Fin 12) (u : Option LaneUpset) (s : State) : Result := .next (s.engOp e 0x0E u)
/-- ENG_PI (R221). -/
def execEngPi (e : Fin 12) (u : Option LaneUpset) (s : State) : Result := .next (s.engOp e 0x10 u)
/-- ENG_CLARKE (R222). -/
def execEngClarke (e : Fin 12) (u : Option LaneUpset) (s : State) : Result := .next (s.engOp e 0x11 u)
/-- ENG_PARK (R222). -/
def execEngPark (e : Fin 12) (u : Option LaneUpset) (s : State) : Result := .next (s.engOp e 0x12 u)
/-- ENG_IPARK (R222). -/
def execEngIpark (e : Fin 12) (u : Option LaneUpset) (s : State) : Result := .next (s.engOp e 0x13 u)
/-- ENG_SINCOS (R223). -/
def execEngSincos (e : Fin 12) (u : Option LaneUpset) (s : State) : Result := .next (s.engOp e 0x14 u)
/-- ENG_NCO (R223). -/
def execEngNco (e : Fin 12) (u : Option LaneUpset) (s : State) : Result := .next (s.engOp e 0x15 u)
/-- ENG_SVM (R224). -/
def execEngSvm (e : Fin 12) (u : Option LaneUpset) (s : State) : Result := .next (s.engOp e 0x16 u)
/-- ENG_ST (R225). -/
def execEngSt (e : Fin 12) (u : Option LaneUpset) (s : State) : Result := .next (s.engOp e 0x18 u)
/-- ENG_STI (R225). -/
def execEngSti (e : Fin 12) (u : Option LaneUpset) (s : State) : Result := .next (s.engOp e 0x19 u)
/-- ENG_STO (R226). -/
def execEngSto (e : Fin 12) (u : Option LaneUpset) (s : State) : Result := .next (s.engOp e 0x1A u)
/-- ENG_TRIP (R226). -/
def execEngTrip (e : Fin 12) (u : Option LaneUpset) (s : State) : Result := .next (s.engOp e 0x1B u)
/-- ENG_MARK (R226). -/
def execEngMark (e : Fin 12) (u : Option LaneUpset) (s : State) : Result := .next (s.engOp e 0x1C u)
/-- ENG_BRF (R227). -/
def execEngBrf (e : Fin 12) (u : Option LaneUpset) (s : State) : Result := .next (s.engOp e 0x20 u)

/-- ILLOP: a lane reaches an illegal word; the run ends on that edge (R219, R235, R237).  An uncorrectable
word of the program store is illegal too: `secded` says that the check has found one. -/
def execIllop (e : Fin 12) (secded : Bool) (s : State) : Result :=
  .next (match s.eng[e].run with
  | none => s
  | some q =>
    let t := s.aisleTime q.next
    match (t.engAt e).run with
    | none => s
    | some r =>
      if !r.ended && (secded || t.nextIllegal e r) then
        let s := ((t.latch (ENG.base e) ENG.FAULT.ILLOP).modEng e fun x => { x with run := none }).raiseTrip e (r.next + ac)
        match (s.engAt e).trig with
        | some t => if r.next ≤ t.edge + ac then s.engAccept e t else s
        | none => s
      else s)

/-- RESULT_RELEASE: the lanes are compared when both have ended; an agreed result leaves, a mismatch starts
the re-run (R90, R232, R233). -/
def execResultRelease (e : Fin 12) (s : State) : Result :=
  .next (match s.eng[e].run with
  | none => s
  | some q =>
    let t := s.aisleTime q.next
    match (t.engAt e).run with
    | none => s
    | some r =>
      if r.ended && r.first.isNone then
        if r.l0.result = r.l1.result then t.engLeave e r (some r.l0.result) r.next
        else ((t.countSat (ENG.base e) ENG.CNT.MISMATCH_CNT).modRun e fun _ =>
          { r with first := some (r.l0, r.l1), l0 := r.base, l1 := r.base, next := r.next + ac }).engLose e
      else s)

/-- VOTE (R233, R234). -/
def execVote (e : Fin 12) (s : State) : Result :=
  .next (match s.eng[e].run with
  | none => s
  | some q =>
    let t := s.aisleTime q.next
    match (t.engAt e).run with
    | none => s
    | some r =>
      match r.first with
      | none => s
      | some (x, y) =>
        if r.ended then
          t.engLeave e r (if r.l0.result = r.l1.result then voteResults x.result y.result r.l0.result else none) r.next
        else s)

/-- DEADLINE_MISS: the edge after the target commit point (R91, R235). -/
def execDeadlineMiss (e : Fin 12) (s : State) : Result :=
  .next (match s.eng[e].run with
  | none => s
  | some r =>
    match s.runTarget e r with
    | some t => if r.missed then s else (s.aisleTime (t + ac)).missDeadline e t
    | none => s)

/-- FLT_REL (R235). -/
def execFltRel (init : Fin 16) (e : Fin 12) (faults : BitVec 5) (s : State) : Result :=
  .next (s.onCommand init (ENG.base e + ENG.CMD.FLT_REL.off) fun t => t.engFltRel e faults.toNat)

/-- TRIP_REL (R237). -/
def execTripRel (init : Fin 16) (e : Fin 12) (s : State) : Result :=
  .next (s.onCommand init (ENG.base e + ENG.CMD.TRIP_REL.off) fun t => t.engTripRel e)

/-- PUBLISH (R230). -/
def execPublish (init : Fin 16) (e : Fin 12) (s : State) : Result :=
  .next (s.onCommand init (ENG.base e + ENG.CMD.PUBLISH.off) fun t => t.settle.engPublish e)

/-- ENG_CNT_CLR (R243). -/
def execEngCntClr (init : Fin 16) (e : Fin 12) (s : State) : Result :=
  .next (s.onCommand init (ENG.base e + ENG.CMD.CNT_CLR.off) fun t => t.engCntClr e)

/-- NCO_PHASE (R223). -/
def execNcoPhase (init : Fin 16) (e : Fin 12) (value : Word) (s : State) : Result :=
  .next (s.onCommand init (ENG.base e + ENG.NCO_PHASE.PHASE.off) fun t => t.setNcoPhase e value.toNat)

/-- NCO_FREQ (R223). -/
def execNcoFreq (init : Fin 16) (e : Fin 12) (value : Word) (s : State) : Result :=
  .next (s.onCommand init (ENG.base e + ENG.NCO_FREQ.FREQ.off) fun t => t.setNcoFreq e value.toNat)

/-- FREEZE (R241). -/
def execFreeze (init : Fin 16) (e : Fin 12) (value : Word) (s : State) : Result :=
  .next (s.onCommand init (STL.base e + STL.DBG.FREEZE.off) fun t => t.freeze e value.toNat)

/-- SCAN_COMPLETE: at the converter, and the trigger of the engines that wait on it (R80, R131, R212); the
scan is offered to the recorder (R477). -/
def execScanComplete (k : Fin 12) (s : State) : Result :=
  .next (match s.cnv[k].scan with
  | none => s
  | some x =>
    if x.idx = x.elems.length && x.conv.isNone then
      let s := s.aisleTime x.completeAt
      let x := s.withAngles k x
      let a := k.val / 4
      let sel := s.bit ATC.base ATC.SEL_CNV.STREAM k || s.bit ATC.base ATC.SEL_CNV.WINDOW k
      let mask := x.elems.foldl (fun m i => m + 2 ^ i) 0
      let s := if x.elems.isEmpty then s else s.offer sel (.scan k x.aptTime x.apt ((x.acq + 28) * 64) mask x.codes)
      (s.scanDone k x).forAll 4 fun t j =>
        let e := 4 * a + j
        if t.getB (ENG.base e) ENG.CTRL.TRIG_EN && t.getF (ENG.base e) ENG.CTRL.TRIG_K = k % 4 then
          t.engTrigger e (some (x.aptTime, x.angles[Fin.ofNat 4 j]))
        else t
    else s)

end Sys2Proof.Machine
end

