-- ==== Sys2Proof/Machine/Carrier.lean ====
section
/-! DEFINITION. Carrier generators, their events on the aisle event bus, and the aisle's own commands
(R75–R86, R101, R158–R163). -/

namespace Sys2Proof.Machine

/-- PRD, EVA and EVB are taken into force (R159). -/
def State.takeShadows (s : State) (g : Nat) : State :=
  let b := CAR.base g
  ((s.setF b CAR.PRD_ACT.PRD (s.prdReg g)).setF b CAR.EV_ACT.EVA (s.getF b CAR.EVA.VALUE)).setF b CAR.EV_ACT.EVB
    (s.getF b CAR.EVB.VALUE)

/-- A write to PRD, EVA or EVB: taken at once while the carrier is disabled or waits (R159), and on the edge of
a ZERO that has just fired (R163). -/
def State.carWritten (s : State) (g : Nat) : State :=
  let c := s.carAt g
  if !s.carOn g || s.getB (CAR.base g) CAR.STATUS.WAIT || (s.carRuns g && !s.carDown g && c.edge = s.now) then
    s.takeShadows g
  else s

/-- By how much a ZERO of locked carrier `g` at instant `inst` is late against R83, modulo its period. -/
def State.slewError (s : State) (g inst : Nat) : Nat :=
  let per := 2 * ac * s.prd g
  let ph := tick64 * s.getF (CAR.base g) CAR.PHASE.PHASE
  (s.marketAt inst + per - ph % per) % per

/-- The way in which a slew removes its error, shorter periods or longer ones: R85 leaves it open, so it is a free choice
when the slew begins (log entry 70). -/
def State.slewWay (s : State) (g : Nat) : Bool × State :=
  match (s.carAt g).shorten with
  | some d => (d, s)
  | none =>
    let d := s.takeFree.1.getLsbD 0
    (d, s.takeFree.2.modCar g fun c => { c with shorten := some d })

/-- The correction of a locked carrier's period that begins at `inst`: at most 1/64 ac, until the error is gone (R85,
R161). -/
def State.slewOf (s : State) (g inst : Nat) : Int × State :=
  let e := s.slewError g inst
  if e = 0 then (0, s.modCar g fun c => { c with shorten := none })
  else
    let (d, t) := s.slewWay g
    (if d then -(min e tick64 : Nat) else (min (2 * ac * s.prd g - e) tick64 : Nat), t)

/-- AIS.STATUS.SLEW: the carrier slews (R85, R101). -/
def State.setSlew (s : State) (g : Nat) (v : Bool) : State := s.setBit (AIS.base (g / 4)) AIS.STATUS.SLEW (g % 4) v

/-- After a write to PHASE of a counting locked carrier the error is there from now on (R161, R163). -/
def State.phaseWritten (s : State) (g : Nat) : State :=
  if s.getB (CAR.base g) CAR.CTRL.MLOCK && s.carRuns g then
    (s.modCar g fun c => { c with shorten := none }).setSlew g (s.slewError g (s.carInst g) != 0)
  else s

/-- ENABLE becomes 1: an unlocked counter takes 0 and ZERO fires on this edge; a locked one waits (R160).  A shadow write
that no ZERO has taken before ENABLE went to 0 is taken here (DESIGN CHOICE, log entry 71). -/
def State.carEnable (s : State) (g : Nat) : State :=
  let b := CAR.base g
  let s := (s.setB b CAR.STATUS.DIR false).takeShadows g
  if s.getB b CAR.CTRL.MLOCK then
    (s.setB b CAR.STATUS.WAIT true).modCar g fun c => { c with starting := false, slew := 0, shorten := none }
  else
    s.modCar g fun c => { c with edge := edgeUp s.now, fine := s.phaseDelay (g / 4), slew := 0, starting := true
                                 eva := false, evb := false, shorten := none }

/-- Do something for every stall that uses carrier `g` (R77). -/
def State.forStalls (s : State) (g : Nat) (act : State → Nat → State) : State :=
  s.forAll 4 fun t j => if t.carOf (4 * (g / 4) + j) = g then act t (4 * (g / 4) + j) else t

/-- ENABLE becomes 0: the counter takes 0, its legs stop, a hold that no group asks for ends, and its stalls
have no commit point (R89, R160, R170, R178, R199). -/
def State.carDisable (s : State) (g : Nat) : State :=
  let b := CAR.base g
  let s := (((s.setB b CAR.STATUS.DIR false).setB b CAR.STATUS.WAIT false).setSlew g false).modCar g fun c =>
    { c with starting := false, slew := 0 }
  s.forStalls g fun t k =>
    let t := t.forAll 4 fun u j =>
      let l := 4 * k + j
      (u.legRefresh l).unhold l
    t.modRun k fun r => { r with target := none }

/-- CAR.STATUS.COUNT (R158, R76). -/
def State.carCount (s : State) (g : Nat) : Nat :=
  if !s.carRuns g then 0
  else
    let n := (s.now - (s.carAt g).edge) / ac
    if s.carDown g then s.prd g - min n (s.prd g) else min n (s.prd g)

/-- Event `ev` of carrier `g` fires on this edge with market instant `inst`: crier source 89 + g, blanking
channels, ticks of sampled comparators, sampling groups (R75, R79, R84, R93, R146, R162). -/
def State.carEvent (s : State) (g ev inst : Nat) : State :=
  let a := g / 4
  let code := s.getF (CAR.base g) CAR.CTRL.IRQ_EVT
  let s := s.pulseIf (code == ev || (code == 2 && ev ≤ 1)) (89 + g)
  let s := (s.forAll 8 fun t ch => t.blankEvent a (g % 4) ev ch).eventTicks a (g % 4) ev
  s.forAll 4 fun t q =>
    if codeNames (t.getF (AIS.base a) (AIS.SG_CFG.TRIG.at (16 * q))) (g % 4) ev then t.groupFire a q inst else t

/-- The counter takes 0 on edge `edge` (R159, R160, R162, R169, R170, R150, R199). -/
def State.carZero (s : State) (g edge fine : Nat) : State :=
  let b := CAR.base g
  let s := s.aisleTime edge
  let s := s.modCar g fun c => { c with edge := edge, fine := fine, slew := 0, starting := false, eva := false, evb := false }
  let s := (((s.setB b CAR.STATUS.DIR false).setB b CAR.STATUS.WAIT false).takeShadows g).countWrap b CAR.PCNT.COUNT
  let sl := if s.getB b CAR.CTRL.MLOCK then s.slewOf g (edge + fine) else (0, s)
  let s := (sl.2.modCar g fun c => { c with slew := sl.1 }).setSlew g (sl.1 != 0)
  let s := s.carEvent g 0 (edge + fine)
  s.forStalls g fun t k =>
    let t := t.forAll 4 fun u j => u.legEvent (4 * k + j) true (edge + fine)
    (t.cmpCycleRelease (2 * k)).cmpCycleRelease (2 * k + 1)

/-! ### The commands -/

/-- ZERO (R75, R76). -/
def execZero (g : Fin 12) (s : State) : Result :=
  .next (if s.carOn g && s.car[g].starting then s.carZero g s.car[g].edge s.car[g].fine
  else if s.carRuns g && s.carDown g then
    let (e, f) := s.carPlace g (s.prd g) s.car[g].slew
    s.carZero g e f
  else s)

/-- LOCKED_CARRIER_START: a waiting carrier takes 0 at the next u = 0 (R83, R160). -/
def execLockedCarrierStart (g : Fin 12) (s : State) : Result :=
  .next (if s.carOn g && s.getB (CAR.base g) CAR.STATUS.WAIT then
    let inst := s.lockedStart g
    s.carZero g (edgeDown inst) (inst - edgeDown inst)
  else s)

/-- PERIOD (R75, R76). -/
def execPeriod (g : Fin 12) (s : State) : Result :=
  .next (if s.carRuns g && !s.carDown g then
    let (e, f) := s.carPlace g (s.prd g) 0
    let s := s.aisleTime e
    let s := s.modCar g fun c => { c with edge := e, fine := f, eva := false, evb := false }
    let s := (s.setB (CAR.base g) CAR.STATUS.DIR true).carEvent g 1 (e + f)
    s.forStalls g fun t k => t.forAll 4 fun u j => u.legEvent (4 * k + j) false (e + f)
  else s)

/-- An EVA or EVB event `ev` at `d` ac after the turning point. -/
def State.carCompare (s : State) (g d ev : Nat) : State :=
  let (e, f) := s.carPlace g d 0
  (s.aisleTime e).carEvent g ev (e + f)

/-- EVA_UP: the counter takes EVA counting up (R75, R76). -/
def execEvaUp (g : Fin 12) (s : State) : Result :=
  let v := s.getF (CAR.base g) CAR.EV_ACT.EVA
  .next (if s.carRuns g && !s.carDown g && v < s.prd g && !s.car[g].eva then
    (s.modCar g fun c => { c with eva := true }).carCompare g v 3 else s)

/-- EVA_DN: the counter takes EVA counting down (R75, R76). -/
def execEvaDn (g : Fin 12) (s : State) : Result :=
  let v := s.getF (CAR.base g) CAR.EV_ACT.EVA
  .next (if s.carRuns g && s.carDown g && 0 < v && v ≤ s.prd g && !s.car[g].eva then
    (s.modCar g fun c => { c with eva := true }).carCompare g (s.prd g - v) 4 else s)

/-- EVB_UP (R75, R76). -/
def execEvbUp (g : Fin 12) (s : State) : Result :=
  let v := s.getF (CAR.base g) CAR.EV_ACT.EVB
  .next (if s.carRuns g && !s.carDown g && v < s.prd g && !s.car[g].evb then
    (s.modCar g fun c => { c with evb := true }).carCompare g v 5 else s)

/-- EVB_DN (R75, R76). -/
def execEvbDn (g : Fin 12) (s : State) : Result :=
  let v := s.getF (CAR.base g) CAR.EV_ACT.EVB
  .next (if s.carRuns g && s.carDown g && 0 < v && v ≤ s.prd g && !s.car[g].evb then
    (s.modCar g fun c => { c with evb := true }).carCompare g (s.prd g - v) 6 else s)

/-- CAR_CNT_CLR: PCNT to 0, or 1 where ZERO fires on this edge (R58, R163). -/
def State.carCntClr (s : State) (g : Nat) : State := s.clearCount (CAR.base g) CAR.PCNT.COUNT

def execCarCntClr (init : Fin 16) (g : Fin 12) (s : State) : Result :=
  .next (s.onCommand init (CAR.base g + CAR.CMD.CNT_CLR.off) fun t => t.carCntClr g)

/-- CMD.SG_FIRE for each named group, refused while ENABLE is 0 (R60, R79, R84, R101). -/
def State.sgFire (s : State) (a groups : Nat) : State :=
  if groups % 16 = 0 then s
  else if !s.getB (AIS.base a) AIS.CTRL.ENABLE then s.setB (AIS.base a) AIS.STATUS.FIRE_REFUSED true
  else s.forAll 4 fun t q => if groups.testBit q then t.groupFire a q (edgeUp t.now + t.phaseDelay a) else t

def execSgFire (init : Fin 16) (a : Fin 3) (groups : BitVec 4) (s : State) : Result :=
  .next (s.onCommand init (AIS.base a + AIS.CMD.SG_FIRE.off) fun t => t.sgFire a groups.toNat)

/-- CMD.SG_CLR (R58, R101). -/
def State.sgClr (s : State) (a groups : Nat) : State :=
  s.forAll 4 fun t q =>
    if groups.testBit q then
      (t.clearCount (AIS.base a) (AIS.SG_CNT.LATE.at (16 * q))).clearCount (AIS.base a) (AIS.SG_CNT.OVERRUN.at (16 * q))
    else t

def execSgClr (init : Fin 16) (a : Fin 3) (groups : BitVec 4) (s : State) : Result :=
  .next (s.onCommand init (AIS.base a + AIS.CMD.SG_CLR.off) fun t => t.sgClr a groups.toNat)

/-- A write to AIS.CMD runs its bits in ascending order (R60, R101). -/
def State.aisCmd (s : State) (a value : Nat) : State :=
  if value / 65536 ≠ 0 then s
  else ((s.sgFire a (bitsOf value 3 0)).sgClr a (bitsOf value 7 4)).blkClr a (bitsOf value 15 8)

/-- AIS ENABLE goes to 0 or 1 (R96, R101). -/
def State.aisEnable (s : State) (a : Nat) : State := s.setB (AIS.base a) AIS.STATUS.FIRE_REFUSED false

/-- CARMAP or a sampling group's MEMBERS has changed: GROUP, SG_CONFLICT and the legs' carriers follow, and a member runs
no scans back to back (R77, R78, R109, R170, R199). -/
def State.aisChanged (s : State) (a : Nat) : State :=
  let s := s.forAll 4 fun t j =>
    let k := 4 * a + j
    (if (t.groupOf k).isSome then t.modCnv k fun c => { c with again := false } else t).cnvStatus k
  s.forAll 16 fun t j =>
    let l := 16 * a + j
    (if t.getB (LEG.base l) LEG.STATUS.RUN then t.legRefresh l else t).unhold l

/-- PHASE_MEASUREMENT: a measurement completes with a lag of `lag` 64ths, which lies within half a step of the true lag of
this edge behind the market grid; 64 reads 0 (R84).  None is made while the ring island is down. -/
def execPhaseMeasurement (a : Fin 3) (lag : Fin 65) (s : State) : Result :=
  let x := s.marketUnits % ac
  .next (if s.islandUp .ring && s.islandUp (.aisle a) && tick64 * lag ≤ x + tick64 / 2 && x ≤ tick64 * lag + tick64 / 2 then
    ((s.setF (AIS.base a) AIS.MT_PHASE.PHASE (lag % 64)).setB (AIS.base a) AIS.STATUS.PHASE_VALID true).modAisle a
      fun x => { x with phaseAt := s.now }
  else s)

/-- PHASE_VALID_EXPIRY: the last measurement is 1 ms old (R84). -/
def execPhaseValidExpiry (a : Fin 3) (s : State) : Result :=
  .next (if s.getB (AIS.base a) AIS.STATUS.PHASE_VALID then
    (s.atTime (s.aisle[a].phaseAt + 1000 * us)).setB (AIS.base a) AIS.STATUS.PHASE_VALID false
  else s)

end Sys2Proof.Machine
end

