-- ==== Sys2Proof/Machine/Control.lean ====
section
/-! DEFINITION. The core control registers by number: what they read as and which bits a write takes (R255–R257,
R331). -/

namespace Sys2Proof.Machine

/-- Core cycles since the core reset (R257). -/
def State.ccnt (s : State) (c : Nat) : Nat := (s.now - (s.coreAt c).ccntFrom) / cc

/-- GMCTL: LIMIT with the mask-overrun count, which runs with GM = 1 at CL 0–7 and is shown up to 0xFFFF (R328,
R331). -/
def State.gmctlWord (s : State) (c : Nat) : Word :=
  let x := s.coreAt c
  let n := if x.gm && x.cl ≤ 7 then min 0xFFFF ((s.now - x.gmFrom) / cc) else 0
  BitVec.ofNat 32 (bitsOf x.gmctl.toNat 15 0 + 2 ^ 16 * n)

/-- The bits of `v` that a mask names, the rest from `old`. -/
def mergeWord (mask old v : Word) : Word := (old &&& ~~~mask) ||| (v &&& mask)

/-- Bits that a write of register `i` of a save set takes, and the reserved bits that it must leave as they are
(R61, R331): SPC, SNPC, SST, SCAUSE, SFADDR, then the loop registers. -/
def savedMask (i : Nat) : Word × Word :=
  match i with
  | 2 => (0xFFE00EFF, 0xFFE00820)
  | 3 => (0xFFFFFFFF, 0xFFE0E000)
  | 4 | 7 | 10 => (0xFFFFFFFF, 0)
  | _ => (0xFFFFFFFF, 0xFF000000)

/-- A write of register `i` of save set `v` (1–7, 8 DF, 9 MON). -/
def State.writeSaved (s : State) (c v i : Nat) (w : Word) : State :=
  let x := s.coreAt c
  let set := x.saves[Fin.ofNat 9 (v - 1)]
  let old := set[Fin.ofNat 11 i]
  let (m, r) := savedMask i
  (s.must (decide ((old ^^^ w) &&& r = 0))).modCore c fun z =>
    { z with saves := x.saves.set (Fin.ofNat 9 (v - 1)) (set.set (Fin.ofNat 11 i) (mergeWord m old w)) }

/-- A write of WB, WSP or a loop register (numbers 1, 2, 4–6, 8–10; R256, R257). -/
def State.writeLow (s : State) (c n : Nat) (w : Word) : State :=
  let x := s.coreAt c
  let high (old : Word) : State := s.must (decide ((old ^^^ w) &&& 0xFF000000 = 0))
  match n with
  | 1 => (s.must (decide ((x.wb ^^^ w) &&& 0xFFFFFFE0 = 0))).modCore c fun z => { z with wb := w }
  | 2 => s.modCore c fun z => { z with wsp := w }
  | 4 => (high x.ls[(0 : Fin 2)]).modCore c fun z => { z with ls := z.ls.set (0 : Fin 2) w }
  | 5 => (high x.le[(0 : Fin 2)]).modCore c fun z => { z with le := z.le.set (0 : Fin 2) w }
  | 6 => s.modCore c fun z => { z with lc := z.lc.set (0 : Fin 2) w }
  | 8 => (high x.ls[(1 : Fin 2)]).modCore c fun z => { z with ls := z.ls.set (1 : Fin 2) w }
  | 9 => (high x.le[(1 : Fin 2)]).modCore c fun z => { z with le := z.le.set (1 : Fin 2) w }
  | 10 => s.modCore c fun z => { z with lc := z.lc.set (1 : Fin 2) w }
  | _ => s

end Sys2Proof.Machine
end

