-- ==== Sys2Proof/Machine/Dictionary.lean ====
section
/-! DEFINITION. The object dictionary's queue, responses and waiting transactions, shared by the ring, the CAN
controllers and the engines (R463–R469). -/

namespace Sys2Proof.Machine

def State.modOde (s : State) (f : Ode → Ode) : State := { s with ode := f s.ode }

/-- A response to a request (R446). -/
def answerTo (m : RingMsg) (own : Nat) (payload : List (BitVec 8)) : RingMsg :=
  { dst := m.src, src := own, seq := m.seq, svc := m.svc, kind := 1, payload := payload }

/-- Byte `i` of a payload, and `n` bytes as a number, least significant first. -/
def byteAt (p : List (BitVec 8)) (i : Nat) : Nat := (p.getD i 0).toNat
def numAt (p : List (BitVec 8)) (i : Nat) : Nat → Nat
  | 0 => 0
  | n + 1 => byteAt p i + 256 * numAt p (i + 1) n

/-- An abort of an object dictionary engine is counted and recorded (R465). -/
def State.odeAborted (s : State) (code index sub init : Nat) : State :=
  ((((s.countSat ODE.base ODE.CNT.ABORTS).setF ODE.base ODE.LAST_ABORT.CODE code).setF ODE.base
    ODE.LAST_OBJ.INDEX index).setF ODE.base ODE.LAST_OBJ.SUB sub).setF ODE.base ODE.LAST_OBJ.INITIATOR init

/-- A response payload (R464): CMD + 0x80, subindex, index, abort code, LENGTH, data. -/
def odPayload (cmd sub index code : Nat) (data : List (BitVec 8)) : List (BitVec 8) :=
  leBytes (cmd + 0x80) 1 ++ leBytes sub 1 ++ leBytes index 2 ++ leBytes code 4 ++ leBytes data.length 4 ++ data

/-- The ring-side engine serves (R467). -/
def State.odeRingServes (s : State) : Bool :=
  s.getB ODE.base ODE.CTRL.ENABLE && s.getB ODE.base ODE.CTRL.RING_EN && s.getB KNR.base KNR.STATUS.MEMBER

/-- The node ID of the CAN-side engine (R468). -/
def State.odeCanNode (s : State) : Nat :=
  let n := s.getF ODE.base ODE.CAN_CFG.NODE
  if n = 0 then s.nodeId else n

/-- STATUS.RING_QUEUE counts the requests that wait; RING_BUSY and CAN_BUSY follow the transactions (R466, R476). -/
def State.odeStatus (s : State) : State :=
  let busy := s.ode.waits[(4 : Fin 6)].isSome
  let s := s.setF ODE.base ODE.STATUS.RING_QUEUE (min 4 (s.ode.queue.length - busy.toNat))
  (s.setB ODE.base ODE.STATUS.RING_BUSY busy).setB ODE.base ODE.STATUS.CAN_BUSY
    (s.ode.usdo.isSome || s.ode.waits[(5 : Fin 6)].isSome)

/-- What a transaction answers: data, an abort, or nothing before something else has happened. -/
inductive OdResult where
  | done (data : List (BitVec 8))
  | abort (code : Nat)
  | wait (w : OdWait)
  deriving DecidableEq, Repr

/-- A transaction of initiator `init` has ended: it is counted, or its abort recorded (R465, R476). -/
def State.odEnded (s : State) (init index sub : Nat) (r : OdResult) : State :=
  match r with
  | .done _ => s.countSat ODE.base ODE.CNT.TXN
  | .abort code => s.odeAborted code index sub init
  | .wait _ => s

/-! ### The ring side (R466) -/

/-- The CMDs that the engine knows (R464): 3 to 5 with feature 0. -/
def State.odKnows (s : State) (cmd : Nat) : Bool :=
  (1 ≤ cmd && cmd ≤ 7) && (!(3 ≤ cmd && cmd ≤ 5) || s.getF ODE.base ODE.FEAT_ACC_LO.ACC % 2 == 1)

/-- A response to a request leaves for its sender. -/
def State.odSend (s : State) (m : RingMsg) (p : List (BitVec 8)) : State :=
  s.modRing fun r => { r with odeOut := r.odeOut ++ [answerTo m s.nodeId p] }

/-- The request in front has ended: it leaves the queue, its response is kept and sent. -/
def State.odFinish (s : State) (m : RingMsg) (p : List (BitVec 8)) : State :=
  let keep (o : Ode) := (m.src, m.seq, p) :: o.kept.filter fun (k : Nat × Nat × List (BitVec 8)) => k.1 != m.src
  ((s.modOde fun o =>
    { o with queue := o.queue.tail, waits := o.waits.set (4 : Fin 6) none, kept := keep o }).odSend m p).odeStatus

/-- CMD, subindex, index, OFFSET and LENGTH of a request, and its data (R464). -/
def odCmd (m : RingMsg) : Nat := byteAt m.payload 0
def odSub (m : RingMsg) : Nat := byteAt m.payload 1
def odIndex (m : RingMsg) : Nat := numAt m.payload 2 2
def odOffset (m : RingMsg) : Nat := numAt m.payload 4 4
def odLength (m : RingMsg) : Nat := numAt m.payload 8 4
def odData (m : RingMsg) : List (BitVec 8) := m.payload.drop 12

/-- The request in front is answered with a result. -/
def State.odAnswer (s : State) (m : RingMsg) (r : OdResult) : State :=
  let s := s.odEnded 4 (odIndex m) (odSub m) r
  match r with
  | .done d => s.odFinish m (odPayload (odCmd m) (odSub m) (odIndex m) 0 d)
  | .abort code => s.odFinish m (odPayload (odCmd m) (odSub m) (odIndex m) code [])
  | .wait w => (s.modOde fun o => { o with waits := o.waits.set (4 : Fin 6) (some w) }).odeStatus

/-- The response kept for a repeat of a node's last request (R466). -/
def State.odKept (s : State) (m : RingMsg) : Option (List (BitVec 8)) :=
  (s.ode.kept.find? fun k => k.1 == m.src && k.2.1 == m.seq).map (·.2.2)

/-- Requests in front that access nothing are answered: repeats, and CMDs that the engine does not know. -/
def State.odServe (s : State) : Nat → State
  | 0 => s
  | n + 1 =>
    match s.ode.queue with
    | [] => s
    | m :: _ =>
      match s.odKept m with
      | some p => (((s.modOde fun o => { o with queue := o.queue.tail }).odSend m p).odeStatus).odServe n
      | none => if s.odKnows (odCmd m) then s else (s.odAnswer m (.abort 0x05040001)).odServe n

/-- A service-1 request arrives (R466). -/
def State.odArrive (s : State) (m : RingMsg) : State :=
  match s.odKept m with
  | some p => s.odSend m p
  | none =>
    if s.ode.queue.length < 4 + s.ode.waits[(4 : Fin 6)].isSome.toNat then
      ((s.modOde fun o => { o with queue := o.queue ++ [m] }).odeStatus).odServe 5
    else
      (s.odeAborted 0x05040005 (odIndex m) (odSub m) 4).odSend m
        (odPayload (odCmd m) (odSub m) (odIndex m) 0x05040005 [])

/-! ### The CAN side (R468) -/

/-- A response of the USDO server leaves through the engine's transmit slot; CiA 1301 lays the frame out, so its
words are free values (log entry 25). -/
def State.usdoReply (s : State) (r : UsdoReply) : State :=
  let f : CanFrame := ⟨BitVec.ofNat 32 (0x580 + s.odeCanNode), BitVec.setWidth 32 (Config.freeValue s.free),
    (List.range 16).map fun i => BitVec.setWidth 32 (Config.freeValue (s.free + 1 + i))⟩
  { s with free := s.free + 17, ode := { s.ode with usdoOut := s.ode.usdoOut ++ [r], canTx := s.ode.canTx ++ [f] } }

/-- The largest value that USDO sends expedited (log entry 25). -/
def usdoWhole : Nat := 56

/-- The value found by an upload goes out whole, or its size does and the segments follow. -/
def State.usdoValue (s : State) (client : Nat) (t : UsdoTransfer) (d : List (BitVec 8)) : State :=
  if d.length ≤ usdoWhole then (s.modOde fun o => { o with usdo := none }).usdoReply (.value client d)
  else (s.modOde fun o => { o with usdo := some { t with data := d, size := d.length } }).usdoReply (.size client d.length)

/-- A transaction of the CAN side has its result: the client is answered. -/
def State.usdoResult (s : State) (t : UsdoTransfer) (r : OdResult) (local_ : Bool) : State :=
  let s := if local_ then s.odEnded 5 t.index t.sub r else s
  match r with
  | .done d =>
    let s := s.modOde fun o => { o with waits := o.waits.set (5 : Fin 6) none }
    if t.upload then (s.usdoValue t.client t d).odeStatus
    else ((s.modOde fun o => { o with usdo := none }).usdoReply (.confirm t.client)).odeStatus
  | .abort code =>
    ((s.modOde fun o => { o with waits := o.waits.set (5 : Fin 6) none, usdo := none }).usdoReply
      (.abort t.client code)).odeStatus
  | .wait w => (s.modOde fun o => { o with waits := o.waits.set (5 : Fin 6) (some w), usdo := some t }).odeStatus

/-! ### Transactions that wait -/

/-- A waiting transaction's result, once there is one, and whether this hall's dictionary gave it. -/
def State.odReady (s : State) : OdWait → Option (OdResult × Bool)
  | .save seq _ _ => if s.getF CEL.base CEL.SNAP_SEQ.SEQ ≠ seq then some (.done [], true) else none
  | .defaults _ _ => if s.getB CEL.base CEL.STATUS.DEF_VALID then some (.done [], true) else none
  | .remote seq _ _ =>
    match s.ode.replies.find? fun r => r.1 == seq with
    | none => none
    | some (_, none) => some (.abort 0x05040000, true)
    | some (_, some p) =>
      if numAt p 4 4 = 0 then some (.done ((p.drop 12).take (numAt p 8 4)), true)
      else some (.abort (numAt p 4 4), false)

/-- A result that has been taken is no longer held. -/
def State.odTaken (s : State) : OdWait → State
  | .remote seq _ _ => s.modOde fun o => { o with replies := o.replies.filter fun (r : Nat × Option (List (BitVec 8))) => r.1 != seq }
  | _ => s

/-- The engines' own waiting transactions are answered when their result is there (R463, R468). -/
def State.odPoll (s : State) : State :=
  let s := match s.ode.waits[(4 : Fin 6)], s.ode.queue with
    | some w, m :: _ =>
      match s.odReady w with
      | some (r, _) => (s.odAnswer m r).odServe 5
      | none => s
    | _, _ => s
  match s.ode.waits[(5 : Fin 6)], s.ode.usdo with
  | some w, some t =>
    match s.odReady w with
    | some (r, own) => (s.odTaken w).usdoResult t r own
    | none => s
  | _, _ => s

/-- The response to a service-1 request of this hall, or its timeout (R448). -/
def State.odReply (s : State) (seq : Nat) (p : Option (List (BitVec 8))) : State :=
  (s.modOde fun o => { o with replies := o.replies ++ [(seq, p)] }).odPoll

end Sys2Proof.Machine
end

