-- ==== Sys2Proof/Machine/Ring.lean ====
section
/-! DEFINITION. The Knasa ring: ports, election, cycles and frames, process data, market time, market trip,
mailbox (R412–R454). -/

namespace Sys2Proof.Machine

/-! ### Ports (R415–R419) -/

/-- The four bits [3:0] of PSTATUS[p]: LF_RX, BLOCK_LOCK, CDR_LOCK, UP (R453). -/
def portUpF (p : Nat) : Fld := ⟨0x80 + 0x10 * (p % 2), 0, 0⟩
def cdrLockF (p : Nat) : Fld := ⟨0x80 + 0x10 * (p % 2), 1, 1⟩
def blockLockF (p : Nat) : Fld := ⟨0x80 + 0x10 * (p % 2), 2, 2⟩
def faultRxF (p : Nat) : Fld := ⟨0x80 + 0x10 * (p % 2), 3, 3⟩
def clkSrcF (p : Nat) : Fld := KNR.PSTATUS.CLK_SRC.at (0x10 * (p % 2))

/-- The port on which the stream that the hall processes arrives (R419). -/
def State.streamPort (s : State) : Option Nat :=
  if s.ring.use.getLsbD 1 then some 1 else if s.ring.use.getLsbD 0 then some 0 else none

/-- The port by which the processed stream leaves (R419). -/
def State.exitPort (s : State) : Nat :=
  if s.ring.use = 3 then 0 else if s.ring.use.getLsbD 1 then 1 else 0

/-- The set of ports that carry traffic changes: WRAPPED, its count, and the port whose clock drives the
reference (R419, R440). -/
def State.setUse (s : State) (p : Nat) (v : Bool) : State :=
  let u := BitVec.ofNat 2 (withBit s.ring.use.toNat p v)
  let was := s.getB KNR.base KNR.STATUS.WRAPPED
  let s := s.modRing fun r => { r with use := u }
  let wrapped := u = 1 || u = 2
  let s := s.setB KNR.base KNR.STATUS.WRAPPED wrapped
  let s := if wrapped && !was then s.countSat KNR.base KNR.RING_CNT.WRAPS else s
  if s.getB KNR.base (clkSrcF 0) || s.getB KNR.base (clkSrcF 1) then
    match s.streamPort with
    | some q => (s.setB KNR.base (clkSrcF 0) (q = 0)).setB KNR.base (clkSrcF 1) (q = 1)
    | none => s
  else s

/-- A port goes down (R418): it sends LINK_FAULT, its count goes up, the hall wraps or is isolated. -/
def State.portDown (s : State) (p : Nat) : State :=
  if s.getB KNR.base (portUpF p) then
    let s := s.setB KNR.base (portUpF p) false
    let s := s.countSat KNR.base (if p = 0 then KNR.LINK_CNT.KA_DOWN else KNR.LINK_CNT.KB_DOWN)
    let s := s.modRing fun r => { r with nbrUp := BitVec.ofNat 2 (withBit r.nbrUp.toNat p false) }
    (s.transmit p .linkFault).setUse p false
  else s

/-- PORT_DOWN: a port loses clock lock or block lock (R418). -/
def execPortDown (p : Fin 2) (s : State) : Result :=
  .next (if s.islandUp .ring then
    ((s.setB KNR.base (cdrLockF p) false).setB KNR.base (blockLockF p) false).portDown p
  else s)

/-- LINK_FAULT: four LINK_FAULT blocks in a row take the port down (R418). -/
def execLinkFault (p : Fin 2) (s : State) : Result :=
  .next (if s.islandUp .ring then (s.setB KNR.base (faultRxF p) true).portDown p else s)

/-- PORT_UP: an enabled port has trained (R415).  A hall that was isolated uses it at once; otherwise it leaves
the wrapped state at UNWRAP. -/
def execPortUp (p : Fin 2) (s : State) : Result :=
  .next (if s.islandUp .ring && s.options.ports.getLsbD p && !s.getB KNR.base (portUpF p) then
    let s := (((s.setB KNR.base (portUpF p) true).setB KNR.base (cdrLockF p) true).setB KNR.base
      (blockLockF p) true).setB KNR.base (faultRxF p) false
    let s := s.transmit p (.ident s.nodeId s.options.master true)
    if s.ring.use = 0 then (s.setUse p true).modRing fun r => { r with candFrom := s.now } else s
  else s)

/-- UNWRAP: in the gap after an EOF, once both ends of the hop have reported up (R418). -/
def execUnwrap (p : Fin 2) (s : State) : Result :=
  .next (if s.islandUp .ring && s.getB KNR.base (portUpF p) && s.ring.nbrUp.getLsbD p then s.setUse p true else s)

/-- IDENT: the neighbour's node ID and port state (R415). -/
def execIdent (p : Fin 2) (node : BitVec 7) (up : Bool) (s : State) : Result :=
  .next (if s.islandUp .ring then
    (s.setF KNR.base (KNR.PSTATUS.NBR_ID.at (0x10 * p)) node.toNat).modRing fun r =>
      { r with nbrUp := BitVec.ofNat 2 (withBit r.nbrUp.toNat p up) }
  else s)

/-- DLY_REQ: answered by DLY_RSP with the turnaround time, which no rule gives (R416). -/
def execDlyReq (p : Fin 2) (s : State) : Result :=
  .next (if s.islandUp .ring then
    let (v, t) := s.takeFree
    t.transmit p (.dlyRsp (v.toNat % 2 ^ 32))
  else s)

/-- LINK_DELAY_MEASUREMENT: at training, and every 1 ms, a port sends DLY_REQ (R416). -/
def execLinkDelayMeasurement (p : Fin 2) (s : State) : Result :=
  .next (if s.islandUp .ring && s.options.ports.getLsbD p then
    let t := if s.getB KNR.base (portUpF p) then s.atTime (s.ring.dlySent[p] + 1000 * us) else s
    (t.transmit p .dlyReq).modRing fun r => { r with dlySent := r.dlySent.set p t.now }
  else s)

/-- DLY_RSP: half of the round trip less the turnaround, in 1/256 ns (R416). -/
def execDlyRsp (p : Fin 2) (turnaround : Nat) (s : State) : Result :=
  .next (if s.islandUp .ring then
    s.setF KNR.base (KNR.LINK_DLY.DLY.at (0x10 * p)) (((s.now - s.ring.dlySent[p]) / 25 - turnaround) / 2)
  else s)

/-! ### Membership and the master (R421–R425) -/

/-- The negotiation window opens (R471). -/
def State.openNegotiation (s : State) : State :=
  let t := (s.set64 ODE.base ODE.FEAT_ACC_LO.ACC ODE.FEAT_ACC_HI.ACC 0).setB ODE.base ODE.STATUS.NEG_DONE false
  { t.setB ODE.base ODE.STATUS.BASELINE false with ode := { t.ode with window := some t.now, closedOn := none } }

/-- The hall stops being the master: it opens no further cycles, and MT_LOCKED is judged as at another hall (R423,
R424, R439). -/
def State.endMaster (s : State) : State :=
  if s.getB KNR.base KNR.STATUS.MASTER then
    ((s.setB KNR.base KNR.STATUS.MASTER false).setB KNR.base KNR.STATUS.MT_LOCKED false).modRing fun r =>
      { r with good := 0, bad := 0 }
  else s

/-- TX_LEN, above 32 taken as 32 (R453). -/
def State.txLen (s : State) : Nat := min 32 (s.getF KNR.base KNR.PD_CFG.TX_LEN)

/-- PD_LEN[n] of the schedule in force, above 32 taken as 32 (R428). -/
def State.schedLen (s : State) (n : Nat) : Nat := min 32 (s.ring.lens[Fin.ofNat 64 (n - 1)]).toNat

/-- LEN_MISMATCH is 1 while a member's TX_LEN differs from the schedule's PD_LEN for its own ID (R433). -/
def State.lenUpdate (s : State) : State :=
  s.setB KNR.base KNR.STATUS.LEN_MISMATCH
    (s.ringMember && (s.ring.hdrAt.isSome || s.ring.started) && s.txLen != s.schedLen s.nodeId)

/-- ID_BAD, MEMBER and NODE_ID follow the option ID, ENABLE and ID_DUP (R421, R422); becoming a member opens
the negotiation window and starts the judgement of absence (R436, R471). -/
def State.memberUpdate (s : State) : State :=
  let was := s.getB KNR.base KNR.STATUS.MEMBER
  let m := s.ringMember
  let s := s.setB KNR.base KNR.STATUS.ID_BAD (s.nodeId = 0 || 64 < s.nodeId)
  let s := (s.setF KNR.base KNR.IDS.NODE_ID s.nodeId).setB KNR.base KNR.STATUS.MEMBER m
  let s := (if m then s else s.endMaster).lenUpdate
  let s := if m && !was then
      (s.openNegotiation).modRing fun r => { r with staleRun := Vector.replicate 64 0, candFrom := s.now, betterAt := none }
    else s
  s.marketAssert

/-- IDS.MASTER_ID takes a value; a change counts and pulses source 131 (R423, R452). -/
def State.setMaster (s : State) (id : Nat) : State :=
  if s.getF KNR.base KNR.IDS.MASTER_ID = id then s
  else ((s.setF KNR.base KNR.IDS.MASTER_ID id).countSat KNR.base KNR.RING_CNT.MASTER_CHG).pulseIf
    (s.bit KNR.base KNR.IRQ_EN.SRC 14) 131

/-- Priority of R423: option bit 8 first, then the lower node ID. -/
def betterMaster (pa : Bool) (a : Nat) (pb : Bool) (b : Nat) : Bool := (pa && !pb) || (pa == pb && a < b)

/-- The hall is a candidate (R423). -/
def State.candidate (s : State) : Bool := s.ringMember && (s.options.master || s.nodeId == 1)

/-- Cycle time in ns from a PERIOD value (R426, R453). -/
def cycleNs (p : Nat) : Nat := 125 * min 8000 (max 16 p)

/-- BEACON: forwarded if better than this hall's own candidacy, suppressed if worse (R423). -/
def execBeacon (node : BitVec 7) (priority : Bool) (s : State) : Result :=
  .next (if s.islandUp .ring && s.streamPort.isSome then
    let better := betterMaster priority node.toNat s.options.master s.nodeId
    if s.candidate && !better then s
    else
      (s.transmit s.exitPort (.beacon node.toNat priority)).modRing fun r =>
        { r with betterAt := if s.candidate then some s.now else r.betterAt
                 prio := if priority then node.toNat :: r.prio.filter (· != node.toNat) else r.prio.filter (· != node.toNat) }
  else s)

/-- The hall becomes the master: its first cycle starts at the first whole multiple of the cycle time (R424). -/
def State.becomeMaster (s : State) (cycle at_ : Nat) (took : Bool) : State :=
  ((s.setB KNR.base KNR.STATUS.MASTER true).setMaster s.nodeId).modRing fun r =>
    { r with nextCycle := cycle, nextAt := at_, capAt := some (cycle, at_), sof := none, returned := none, took := took }

/-- A header of node `id` comes from a better master (R423); among takeover members the lowest ID wins (R425). -/
def State.yields (s : State) (id : Nat) : Bool :=
  if s.ring.took then decide (id < s.nodeId)
  else betterMaster (s.ring.prio.contains id) id s.options.master s.nodeId

/-- MASTER_ELECTION: a candidate has heard no better beacon for 1 ms (R423, R424). -/
def execMasterElection (s : State) : Result :=
  .next (if s.islandUp .ring && s.candidate && s.streamPort.isSome && !s.getB KNR.base KNR.STATUS.MASTER then
    let t := s.atTime (max s.ring.candFrom (s.ring.betterAt.getD 0) + 1000 * us)
    let p := cycleNs (t.getF KNR.base KNR.CYCLE_CFG.PERIOD)
    let m := (t.marketUnits + (p * ns - 1)) / (p * ns) * p
    t.becomeMaster (if t.ring.started then t.ring.nextCycle else 0) m false
  else s)

/-! ### Mailbox (R446–R449) -/

/-- Blocks of a message: its header and its payload. -/
def msgBlocks (m : RingMsg) : Nat := 1 + (m.payload.length + 7) / 8
def runBlocks : MbxRun → Nat
  | .free n => n
  | .msg m => msgBlocks m

/-- The head of the user receive queue is shown in MBX_RX and MBX_RX_INFO (R449). -/
def State.showRx (s : State) : State :=
  let s := s.setF KNR.base KNR.STATUS.RX_COUNT s.ring.rx.length
  match s.ring.rx with
  | [] => s
  | m :: _ =>
    let s := ((s.setF KNR.base KNR.MBX_RX_INFO.SEQ m.seq).setF KNR.base KNR.MBX_RX_INFO.LEN m.payload.length).setF
      KNR.base KNR.MBX_RX_INFO.SRC m.src
    s.forAll (min 62 ((m.payload.length + 3) / 4)) fun t i =>
      t.setF KNR.base (KNR.MBX_RX.DATA.at (4 * i)) (numAt m.payload (4 * i) 4)

/-- The hall is locked (R520). -/
def State.debugLocked (s : State) : Bool :=
  s.getF DBG.base DBG.LOCK.STATE != 3 && !s.getB DBG.base DBG.LOCK.UNLOCKED

/-- A monitor response: CMD + 0x80, core, STATUS with the KIND of a bus error, ADDR, LENGTH, data (R512). -/
def monPayload (m : RingMsg) (status kind : Nat) (data : List (BitVec 8)) : List (BitVec 8) :=
  leBytes (byteAt m.payload 0 + 0x80) 1 ++ leBytes (byteAt m.payload 1) 1 ++ leBytes (status + 0x100 * kind) 2
    ++ leBytes (numAt m.payload 4 4) 4 ++ leBytes data.length 4 ++ data

/-- A response of another hall's monitor replaces the request in MCMD_BUF (R511). -/
def State.mcmdResponse (s : State) (p : List (BitVec 8)) : State :=
  let s := s.forAll (min 64 ((p.length + 3) / 4)) fun t i => t.setF DBG.base (DBG.MCMD_BUF.DATA.at (4 * i)) (numAt p (4 * i) 4)
  (s.setB DBG.base DBG.MCMD_STATUS.DONE true).setB DBG.base DBG.MCMD_STATUS.BUSY false

/-- The request in front is complete: its response goes to its sender and is kept for a repeat; the request of
the buffer has service 0 and its response replaces it (R511). -/
def State.monAnswer (s : State) (m : RingMsg) (p : List (BitVec 8)) : State :=
  let s := { s with dbg := { s.dbg with queue := s.dbg.queue.tail } }
  if m.svc = 0 then s.mcmdResponse p
  else
    let s := { s with dbg := { s.dbg with kept := (m.src, m.seq, p) :: s.dbg.kept.filter (·.1 != m.src) } }
    s.modRing fun r => { r with monOut := r.monOut ++ [answerTo m s.nodeId p] }

/-- Requests in front that execute nothing are answered: a repeat of the last request of its node with the kept
response, a CMD that R514 does not list with BAD_CMD, or LOCKED in a locked hall. -/
def State.monServe (s : State) : Nat → State
  | 0 => s
  | n + 1 =>
    match s.dbg.queue with
    | [] => s
    | m :: _ =>
      match s.dbg.kept.find? fun k => m.svc != 0 && k.1 == m.src && k.2.1 == m.seq with
      | some k =>
        ({ s with dbg := { s.dbg with queue := s.dbg.queue.tail } }.modRing fun r =>
          { r with monOut := r.monOut ++ [answerTo m s.nodeId k.2.2] }).monServe n
      | none =>
        if byteAt m.payload 0 = 0 ∨ 8 < byteAt m.payload 0 then
          (s.monAnswer m (monPayload m (if s.debugLocked then 1 else 4) 0 [])).monServe n
        else s

/-- A monitor request joins the queue of the debug block (R511). -/
def State.monQueue (s : State) (m : RingMsg) : State :=
  ({ s with dbg := { s.dbg with queue := s.dbg.queue ++ [m] } }).monServe 4

/-- A request has timed out: the capture edge of its cycle k + TMO is over, a response on that edge still wins (R73,
R448). -/
def State.timedOut (s : State) (q : RingRequest) : Bool :=
  s.ring.captured.any fun k =>
    decide ((k + 2 ^ 32 - q.due) % 2 ^ 32 < 2 ^ 31) && !(k == q.due && s.ring.capturedOn == some s.now)

/-- A response ends the request it answers, unless that has timed out (R448). -/
def State.endRequest (s : State) (m : RingMsg) : Bool × State :=
  let hit (q : RingRequest) : Bool := q.svc == m.svc && q.seq == m.seq && q.node == m.src && !s.timedOut q
  (s.ring.requests.any hit, s.modRing fun r => { r with requests := r.requests.filter (!hit ·) })

/-- A message for this hall is offered to its service: whether it is taken (R447, R448, R466, R511). -/
def State.acceptMsg (s : State) (m : RingMsg) : Bool × State :=
  if s.cellar.phase ≠ .up then (false, s)
  else match m.svc, m.kind with
  | 1, 0 => if s.odeRingServes then (true, s.odArrive m) else (false, s)
  | 1, 1 =>
    match s.endRequest m with
    | (true, t) => (true, t.odReply m.seq (some m.payload))
    | (false, t) => (true, t)
  | 2, 0 =>
    if (s.dbg.queue.tail.filter (·.svc != 0)).length < 2 then (true, s.monQueue m)
    else (true, s.modRing fun r => { r with monOut := r.monOut ++ [answerTo m s.nodeId (monPayload m 5 0 [])] })
  | 2, 1 =>
    match s.endRequest m with
    | (true, t) => (true, t.mcmdResponse m.payload)
    | (false, t) => (true, t)
  | 3, _ =>
    if s.ring.rx.length < 4 then (true, (s.modRing fun r => { r with rx := r.rx ++ [m] }).showRx) else (false, s)
  | _, _ => (true, s)

/-- Messages pass the hall: those for it are taken and leave free runs; a broadcast is accepted once for each
source and SEQ and goes on (R447). -/
def State.deliver (s : State) : List MbxRun → List MbxRun × State
  | [] => ([], s)
  | .free n :: t =>
    let (rest, u) := s.deliver t
    (.free n :: rest, u)
  | .msg m :: t =>
    if m.dst = s.nodeId then
      let (ok, s1) := s.acceptMsg m
      let (rest, u) := s1.deliver t
      ((if ok then .free (msgBlocks m) else .msg m) :: rest, u)
    else if m.dst = 0xFF ∧ m.src ≠ s.nodeId ∧ !s.ring.heard.contains (m.src, m.seq) then
      let (ok, s1) := s.acceptMsg m
      let s1 := if ok then s1.modRing fun r => { r with heard := ((m.src, m.seq) :: r.heard).take 256 } else s1
      let (rest, u) := s1.deliver t
      (.msg m :: rest, u)
    else
      let (rest, u) := s.deliver t
      (.msg m :: rest, u)

/-- A message goes into the first free run long enough for it (R447). -/
def insertMsg (m : RingMsg) : List MbxRun → Option (List MbxRun)
  | [] => none
  | .free n :: t =>
    if (msgBlocks m) ≤ n then
      some (.msg m :: (if (msgBlocks m) = n then t else .free (n - (msgBlocks m)) :: t))
    else (insertMsg m t).map (.free n :: ·)
  | x :: t => (insertMsg m t).map (x :: ·)

/-- A message of this hall that has gone out: a request starts its timeout (R448). -/
def State.sentMsg (s : State) (m : RingMsg) (cycle : Nat) : State :=
  if m.kind = 0 then
    let due := (cycle + max 1 (s.getF KNR.base KNR.MBX_CFG.TMO)) % 2 ^ 32
    s.modRing fun r => { r with requests := r.requests ++ [⟨m.svc, m.seq, m.dst, due⟩] }
  else s

/-- Waiting messages of a queue go out; one without room stays and counts DEFER (R447). -/
def State.insertAll (s : State) (cycle : Nat) (runs : List MbxRun) :
    List RingMsg → List RingMsg × List MbxRun × State
  | [] => ([], runs, s)
  | m :: t =>
    match insertMsg m runs with
    | some runs' => (s.sentMsg m cycle).insertAll cycle runs' t
    | none =>
      let (left, r, u) := (s.countSat KNR.base KNR.MBX_CNT.DEFER).insertAll cycle runs t
      (m :: left, r, u)

/-- The mailbox segment passes a member: delivery, then insertion in the order of services (R447). -/
def State.passMailbox (s : State) (cycle : Nat) (runs : List MbxRun) : List MbxRun × State :=
  let (runs, s) := s.deliver runs
  let (o, runs, s) := s.insertAll cycle runs s.ring.odeOut
  let (m, runs, s) := s.insertAll cycle runs s.ring.monOut
  let (u, runs, s) := s.insertAll cycle runs s.ring.userOut.toList
  let s := s.modRing fun r => { r with odeOut := o, monOut := m, userOut := u.head? }
  let s := s.setB KNR.base KNR.STATUS.TX_BUSY s.ring.userOut.isSome
  (runs, if s.ring.userOut.isSome then s else s.setB KNR.base KNR.STATUS.TX_REFUSED false)

/-- A request of this hall to another node's service joins its queue; it gets the next SEQ (R446). -/
def State.ringRequest (s : State) (svc dst : Nat) (payload : List (BitVec 8)) : State :=
  let m : RingMsg := { dst := dst, src := s.nodeId, seq := s.ring.mbxSeq, svc := svc, kind := 0, payload := payload }
  s.modRing fun r =>
    if svc = 1 then { r with odeOut := r.odeOut ++ [m], mbxSeq := (r.mbxSeq + 1) % 0x10000 }
    else { r with monOut := r.monOut ++ [m], mbxSeq := (r.mbxSeq + 1) % 0x10000 }

/-- CMD.MBX_SEND (R449). -/
def State.mbxSend (s : State) : State :=
  if s.getB KNR.base KNR.STATUS.TX_BUSY then s.setB KNR.base KNR.STATUS.TX_REFUSED true
  else
    let len := min 248 (s.getF KNR.base KNR.MBX_TX_CTRL.LEN)
    let bytes := (List.range len).map fun i =>
      BitVec.ofNat 8 (s.getF KNR.base (KNR.MBX_TX.DATA.at (4 * (i / 4))) >>> (8 * (i % 4)))
    let m : RingMsg := { dst := s.getF KNR.base KNR.MBX_TX_CTRL.DST, src := s.nodeId, seq := s.ring.mbxSeq
                         svc := 3, kind := 2, payload := bytes }
    (s.setB KNR.base KNR.STATUS.TX_BUSY true).modRing fun r =>
      { r with userOut := some m, mbxSeq := (r.mbxSeq + 1) % 0x10000 }

/-- CMD.RX_POP (R449). -/
def State.rxPop (s : State) : State := (s.modRing fun r => { r with rx := r.rx.tail }).showRx

/-- CMD.CNT_CLR (R453). -/
def State.knrCntClr (s : State) : State :=
  let s := (s.clearCount KNR.base KNR.MBX_CNT.DROP).clearCount KNR.base KNR.MBX_CNT.DEFER
  let s := (s.clearCount KNR.base KNR.LINK_CNT.KB_DOWN).clearCount KNR.base KNR.LINK_CNT.KA_DOWN
  ((s.clearCount KNR.base KNR.CRC_CNT.COUNT).clearCount KNR.base KNR.RING_CNT.MASTER_CHG).clearCount KNR.base KNR.RING_CNT.WRAPS

/-- PD_LEN[n] of the master's own table, above 32 taken as 32 (R428, R453). -/
def State.pdLen (s : State) (n : Nat) : Nat :=
  min 32 (((s.getF KNR.base (KNR.PD_LEN.LEN.at (4 * ((n - 1) / 4)))) >>> (8 * ((n - 1) % 4))) % 64)

/-- The first `n` 64-bit words of PD_TX. -/
def State.pdTx (s : State) (n : Nat) : List (BitVec 64) :=
  (List.range n).map fun i => BitVec.ofNat 64 (s.get64 KNR.base (KNR.PD_TX.DATA.at (8 * i)) (KNR.PD_TX.DATA.at (8 * i + 4)))

/-- The published data is copied into the send bank (R432). -/
def State.copyPd (s : State) : State :=
  (s.modRing fun r => { r with send := s.pdTx s.txLen, copied := true }).setB KNR.base KNR.STATUS.PUB_PEND false

/-- PD_TX has been written: on the edge of a capture that copied it, the write is included (R432, R451). -/
def State.pdTxWritten (s : State) : State :=
  if s.ring.copied && s.ring.capturedOn == some s.now then s.copyPd else s

/-- CMD.PD_PUBLISH; on a capture edge it is included in the copy (R432, R451). -/
def State.pdPublish (s : State) : State :=
  if s.ring.capturedOn = some s.now then s.copyPd else s.setB KNR.base KNR.STATUS.PUB_PEND true

/-- A write to KNR.CMD: its commands in ascending bit order (R60). -/
def State.knrCmd (s : State) (v : Nat) : State :=
  if v / 16 ≠ 0 then s
  else
    let t := if v.testBit 0 then s.pdPublish else s
    let t := if v.testBit 1 then t.mbxSend else t
    let t := if v.testBit 2 then t.rxPop else t
    if v.testBit 3 then t.knrCntClr else t

/-- PD_PUBLISH (R432). -/
def execPdPublish (init : Fin 16) (s : State) : Result :=
  .next (s.onCommand init (KNR.base + KNR.CMD.W.off) fun t => t.knrCmd 1)
/-- MBX_SEND (R449). -/
def execMbxSend (init : Fin 16) (s : State) : Result :=
  .next (s.onCommand init (KNR.base + KNR.CMD.W.off) fun t => t.knrCmd 2)
/-- RX_POP (R449). -/
def execRxPop (init : Fin 16) (s : State) : Result :=
  .next (s.onCommand init (KNR.base + KNR.CMD.W.off) fun t => t.knrCmd 4)
/-- KNR_CNT_CLR (R453). -/
def execKnrCntClr (init : Fin 16) (s : State) : Result :=
  .next (s.onCommand init (KNR.base + KNR.CMD.W.off) fun t => t.knrCmd 8)

/-- MAILBOX_TIMEOUT: requests time out on a capture edge; once that edge is over, so that a response delivered on it
wins, each pulses source 128, and the engine or monitor that sent it is told after the crossing of R578 (R448, R451,
R468, R511). -/
def execMailboxTimeout (s : State) : Result :=
  let s := match s.ring.capturedOn with
    | some e => s.atTime (e + 2 * ac)
    | none => s
  .next (s.ring.requests.foldl (fun t q =>
    if s.timedOut q then
      let t := t.modRing fun r => { r with requests := r.requests.erase q }
      let t := t.pulseIf (t.bit KNR.base KNR.IRQ_EN.SRC 11) 128
      if q.svc = 1 then t.odReply q.seq none
      else (t.setB DBG.base DBG.MCMD_STATUS.TIMEOUT true).setB DBG.base DBG.MCMD_STATUS.BUSY false
    else t) s)

/-! ### Process data (R432–R436) -/

/-- CAPTURE_INSTANT: market time reaches T_n (R432); the next capture follows one cycle time later unless a
schedule says otherwise. The master takes its PD_LEN (R453). -/
def execCaptureInstant (s : State) : Result :=
  .next (match s.ring.capAt with
  | none => s
  | some (n, t0) =>
    if s.islandUp .ring then
      let s := s.atTime (s.marketReaches t0)
      let s := s.modRing fun r => { r with capturedOn := some s.now, copied := false }
      let s := if s.getB KNR.base KNR.STATUS.PUB_PEND then s.copyPd else s
      let mine := s.getB KNR.base KNR.STATUS.MASTER
      let p := if mine then s.getF KNR.base KNR.CYCLE_CFG.PERIOD else s.ring.period
      let s := s.modRing fun r => { r with
        captured := some n, capAt := some ((n + 1) % 2 ^ 32, t0 + cycleNs p)
        lens := if mine then Vector.ofFn fun (i : Fin 64) => BitVec.ofNat 6 (s.pdLen (i.val + 1)) else r.lens }
      s.pulseIf (s.bit KNR.base KNR.IRQ_EN.SRC 0) 117
    else s)

/-- The segment that a member writes into its own slot (R433). -/
def State.ownSlot (s : State) (cycle : Nat) : RingSlot :=
  { node := s.nodeId
    data := s.ring.send ++ List.replicate (s.txLen - s.ring.send.length) 0
    written := BitVec.ofNat 24 cycle, valid := s.cellar.phase = .up, armed := s.armed }

/-- ABS_ACT of a node (R436). -/
def State.absAct (s : State) (n : Nat) : Nat :=
  ((s.getF KNR.base (KNR.ABS_ACT.ACT.at (4 * ((n - 1) / 16)))) >>> (2 * ((n - 1) % 16))) % 4

/-- Some absent node has an action of the set. -/
def State.absentWith (s : State) (acts : List Nat) : Bool :=
  (List.range 64).any fun i =>
    (s.get64 KNR.base KNR.ABSENT_LO.NODES KNR.ABSENT_HI.NODES).testBit i && acts.contains (s.absAct (i + 1))

/-- HOLDING and ABS_TRIP follow the absent nodes (R436, R442). -/
def State.absUpdate (s : State) : State :=
  ((s.setB KNR.base KNR.STATUS.HOLDING (s.absentWith [1])).setB KNR.base KNR.STATUS.ABS_TRIP
    (s.absentWith [2, 3])).marketAssert

/-- The segment of node `n` written in cycle `k`, if one was received (R435). -/
def State.segment (s : State) (n k : Nat) : Option (List (BitVec 64)) :=
  (s.ring.segs.find? fun g => g.1 == n && g.2.1 == k % 2 ^ 24).map (·.2.2)

/-- Stale and absent, node by node, on an apply edge (R435, R436). -/
def State.judgeNode (s : State) (k n : Nat) : State :=
  let stale := n != s.nodeId && s.schedLen n != 0 && (s.segment n k).isNone
  let f := Fin.ofNat 64 (n - 1)
  let run := if stale then s.ring.staleRun[f] + 1 else 0
  let s := s.modRing fun r => { r with staleRun := r.staleRun.set f run }
  let lim := max 1 (s.getF KNR.base KNR.CTRL.ABS_CYC)
  let was := (s.get64 KNR.base KNR.ABSENT_LO.NODES KNR.ABSENT_HI.NODES).testBit (n - 1)
  let d := (n - 1) / 32
  (s.setBit KNR.base (KNR.STALE_LO.NODES.at (4 * (d % 2))) ((n - 1) % 32) stale).setBit KNR.base
    (KNR.ABSENT_LO.NODES.at (4 * (d % 2))) ((n - 1) % 32) (stale && (was || lim ≤ run))

/-- The data of node `n` goes into its read bank. -/
def State.applyNode (s : State) (n : Nat) (data : List (BitVec 64)) : State :=
  data.zipIdx.foldl (fun t w =>
    t.set64 KNR.base (KNR.PD_RX.DATA.at (0x100 * ((n - 1) % 64) + 8 * (w.2 % 32)))
      (KNR.PD_RX.DATA.at (0x100 * ((n - 1) % 64) + 8 * (w.2 % 32) + 4)) w.1.toNat) s

/-- APPLY_INSTANT: on the capture edge of cycle n + 2 + APPLY_LAG the data of cycle n is applied (R435, R436). -/
def execApplyInstant (s : State) : Result :=
  .next (match s.ring.captured with
  | none => s
  | some c =>
    if s.ringMember && s.ring.applied ≠ some c && (2 + s.ring.lag ≤ c || s.ring.applied.isSome) then
      let k := (c + 2 ^ 32 - 2 - s.ring.lag) % 2 ^ 32
      let s := (List.range 64).foldl (fun t i => t.judgeNode k (i + 1)) s
      let s := s.absUpdate
      let s := if s.getB KNR.base KNR.STATUS.HOLDING then s
        else
          let t := (List.range 64).foldl (fun t i =>
            match s.segment (i + 1) k with
            | some d => if i + 1 = s.nodeId then t else t.applyNode (i + 1) d
            | none => t) s
          t.setF KNR.base KNR.RX_CYC.CYCLE k
      let s := s.modRing fun r => { r with applied := some c, segs := r.segs.filter fun g => g.2.1 != k % 2 ^ 24 }
      s.pulseIf (s.bit KNR.base KNR.IRQ_EN.SRC 1) 118
    else s)

/-! ### Market time from a header (R438, R439) -/

/-- Market time takes a value, in units of 1/6400 ns. -/
def State.setMarket (s : State) (u : Nat) : State := { s with clock := ⟨u, s.now, 0⟩ }

/-- The offset x is to be removed by slewing. -/
def State.slewMarket (s : State) (x : Int) : State := { s with clock := ⟨s.marketUnits, s.now, -25 * x⟩ }

/-- A valid header of the master is judged for market time (R438, R439). -/
def State.judgeTime (s : State) (f : RingFrame) : State :=
  let p := s.streamPort.getD 1
  let ref : Int := ((256 * f.mt.toNat + f.accDly + s.getF KNR.base (KNR.LINK_DLY.DLY.at (0x10 * p)) : Nat) : Int)
    + s.getS KNR.base (KNR.ASYM.ASYM.at (0x10 * p))
  let x : Int := ((s.marketUnits / 25 : Nat) : Int) - ref
  let s := s.setF KNR.base KNR.MT_OFFSET.X (ofSigned 32 x)
  let unlock (t : State) := t.setB KNR.base KNR.STATUS.MT_LOCKED false
  if !s.ring.timeSet || 256000 ≤ x.natAbs then
    (unlock (s.setMarket (25 * ref.toNat))).modRing fun r => { r with timeSet := true, good := 0, bad := 0 }
  else
    let s := s.slewMarket x
    if x.natAbs ≤ 512 then
      let s := s.modRing fun r => { r with good := r.good + 1, bad := 0 }
      if 3 ≤ s.ring.good then s.setB KNR.base KNR.STATUS.MT_LOCKED true else s
    else
      let s := s.modRing fun r => { r with good := 0, bad := r.bad + 1 }
      if 2 ≤ s.ring.bad then unlock s else s

/-! ### Frames (R427–R434, R443) -/

/-- Blocks of a frame (R427). -/
def frameBlocks (f : RingFrame) : Nat :=
  17 + f.mbxLen + (f.lens.toList.foldl (fun n l => if l.toNat = 0 then n else n + min 32 l.toNat + 1) 0)

/-- The market trip bits of a valid header (R443). -/
def State.judgeTrip (s : State) (f : RingFrame) : State :=
  if f.mktTrip || f.mktAcc then (s.modRing fun r => { r with quiet := 0 }).marketIn true
  else
    let s := s.modRing fun r => { r with quiet := r.quiet + 1 }
    if 2 ≤ s.ring.quiet && s.getB KNR.base KNR.STATUS.MKT_IN then s.marketIn false else s

/-- The effect of a valid header (R423, R430, R431, R438). -/
def State.judgeHeader (s : State) (f : RingFrame) : State :=
  let s := (s.setF KNR.base KNR.CYC_NUM.CYCLE f.cycle.toNat).setB KNR.base KNR.STATUS.CYCLE_LOST false
  let s := s.modRing fun r => { r with hdrAt := some s.now, hdrFrom := some (r.hdrFrom.getD s.now), period := f.period }
  let mine := s.getB KNR.base KNR.STATUS.MASTER
  let s := if mine && f.master = s.nodeId then
      match s.ring.sof with
      | some (c, t0) =>
        if c = f.cycle.toNat then
          let dly := (s.now - t0) / 25
          (s.setF KNR.base KNR.LOOP_DLY.DLY dly).setB KNR.base KNR.STATUS.OVERBOOK
            (decide (cycleNs (s.getF KNR.base KNR.CYCLE_CFG.PERIOD) * ns < frameBlocks f * 67584 + 25 * dly))
        else s
      | none => s
    else if mine && !s.yields f.master then s
    else (s.endMaster.setMaster f.master).judgeTime f
  s.judgeTrip f

/-- The schedule of a frame (R428, R433). -/
def State.judgeSchedule (s : State) (f : RingFrame) : State :=
  let s := s.modRing fun r => { r with
    lens := f.lens, lag := f.lag
    capAt := if s.getB KNR.base KNR.STATUS.MASTER then r.capAt
      else some ((f.cycle.toNat + 1) % 2 ^ 32, f.tnext.toNat) }
  s.lenUpdate

/-- The segments of other nodes are copied (R433, R435). -/
def State.copySlots (s : State) (slots : List RingSlot) : State :=
  slots.foldl (fun t g =>
    if g.crcOk && g.valid && g.node != s.nodeId then
      t.modRing fun r => { r with segs :=
        (r.segs.filter fun x => !(x.1 == g.node && x.2.1 == g.written.toNat)) ++ [(g.node, g.written.toNat, g.data)] }
    else t) s

/-- The hall's own slot as the frame passes (R422, R433). -/
def State.writeOwn (s : State) (cycle : Nat) (slots : List RingSlot) : List RingSlot × State :=
  match slots.find? fun g => g.node == s.nodeId with
  | none => (slots, s)
  | some g =>
    if g.crcOk && g.valid && g.written.toNat = cycle % 2 ^ 24 then
      (slots, (s.setB KNR.base KNR.STATUS.ID_DUP true).memberUpdate)
    else if s.txLen = s.schedLen s.nodeId then
      (slots.map fun g => if g.node = s.nodeId then { s.ownSlot cycle with crcOk := g.crcOk } else g, s)
    else (slots, s)

/-- Failed CRCs of a frame (R429). -/
def badCrcs (f : RingFrame) : Nat :=
  (if f.hdrOk then 0 else 1) + (if f.schedOk then 0 else 1) + (if f.mbxOk then 0 else 1)
    + (f.slots.filter fun g => !g.crcOk).length

/-- FRAME: a frame passes in the stream the hall processes (R427–R435, R438, R443, R447).  The hall's own
forwarding time, added to ACC_DLY, is not given beyond its bound of 48 ns. -/
def execFrame (f : RingFrame) (s : State) : Result :=
  .next (match s.islandUp .ring, s.streamPort with
  | true, some p =>
    let s := if badCrcs f == 0 then s else s.countSat KNR.base KNR.CRC_CNT.COUNT (badCrcs f)
    let link : Int := s.getF KNR.base (KNR.LINK_DLY.DLY.at (0x10 * p)) + s.getS KNR.base (KNR.ASYM.ASYM.at (0x10 * p))
    let s := if f.hdrOk then s.judgeHeader f else s
    let s := if f.schedOk && f.hdrOk then s.judgeSchedule f else s
    let own := s.getB KNR.base KNR.STATUS.MASTER && f.master = s.nodeId
    if own then
      (if s.ringMember && f.schedOk then s.copySlots f.slots else s).modRing fun r => { r with returned := some f }
    else
      let (v, s) := s.takeFree
      let (slots, s) := if s.ringMember && f.hdrOk && f.schedOk then
          (s.copySlots f.slots).writeOwn f.cycle.toNat f.slots else (f.slots, s)
      let (mbx, s) := if s.ringMember && f.hdrOk && f.schedOk && f.mbxOk then
          s.passMailbox f.cycle.toNat f.mbx else (f.mbx, s)
      let out := { f with
        mktAcc := f.mktAcc || s.getB KNR.base KNR.STATUS.MKT_ASSERT
        wrapped := f.wrapped || s.getB KNR.base KNR.STATUS.WRAPPED
        accDly := ofSigned 32 (f.accDly + link + (v.toNat % 12289 : Nat)), slots := slots, mbx := mbx }
      s.modRing fun r => { r with frameOut := some out, frameAt := some s.now }
  | _, _ => s)

/-- The mailbox segment the master builds from the returned frame (R447): messages once more with CIRC, those
that had it dropped and counted, then one free run. -/
def State.buildMailbox (s : State) (len : Nat) : List MbxRun × State :=
  let old := match s.ring.returned with
    | some f => if f.mbxOk then f.mbx else []
    | none => []
  let msgs := old.filterMap fun r => match r with
    | .msg m => some m
    | .free _ => none
  let keep := msgs.filter fun m => !m.circ
  let runs := keep.map fun m => MbxRun.msg { m with circ := true }
  let used := (runs.map runBlocks).foldl (· + ·) 0
  (runs ++ (if used < len then [.free (len - used)] else []),
    if msgs.length == keep.length then s else s.countSat KNR.base KNR.MBX_CNT.DROP (msgs.length - keep.length))

/-- A slot of the frame the master sends (R434): its own segment, the returned one, or fill. -/
def State.masterSlot (s : State) (cycle n : Nat) : RingSlot :=
  let fill : RingSlot := ⟨n, List.replicate (s.schedLen n) 0, BitVec.ofNat 24 cycle, false, false, true⟩
  if n = s.nodeId then (if s.txLen = s.schedLen n then s.ownSlot cycle else fill)
  else match s.ring.returned with
    | some f =>
      if f.cycle.toNat + 1 = cycle then
        match f.slots.find? fun g => g.node == n with
        | some g =>
          if g.crcOk && g.valid && g.written.toNat = (cycle - 1) % 2 ^ 24 && g.data.length = s.schedLen n then g else fill
        | none => fill
      else fill
    | none => fill

/-- CYCLE_START: on the first block boundary at or after T_n, once the capture edge is over, the master sends the SOF of
a new cycle (R424–R428, R434, R442, R447); a master whose ENABLE was written 0 on that edge opens none (R451). -/
def execCycleStart (s : State) : Result :=
  .next (if s.islandUp .ring && s.ringMember && s.getB KNR.base KNR.STATUS.MASTER && s.streamPort.isSome
      && s.ring.captured = some s.ring.nextCycle then
    let n := s.ring.nextCycle
    let s := s.atTime (s.marketReaches s.ring.nextAt + ac)
    let p := s.getF KNR.base KNR.CYCLE_CFG.PERIOD
    let len := min 256 (s.getF KNR.base KNR.MBX_CFG.MBX_LEN)
    let acc := match s.ring.returned with
      | some f => f.mktAcc
      | none => false
    let s := (s.modRing fun r => { r with lag := s.getF KNR.base KNR.CYCLE_CFG.APPLY_LAG, started := true }).lenUpdate
    let (runs, s) := s.buildMailbox len
    let (runs, s) := s.passMailbox n runs
    let slots := ((List.range 64).filter fun i => s.schedLen (i + 1) != 0).map fun i => s.masterSlot n (i + 1)
    let u := s.marketUnits
    let f : RingFrame :=
      { cycle := BitVec.ofNat 32 n, master := s.nodeId, mktTrip := acc
        mktAcc := s.getB KNR.base KNR.STATUS.MKT_ASSERT, wrapped := s.getB KNR.base KNR.STATUS.WRAPPED
        mt := BitVec.ofNat 64 (u / ns), accDly := u % ns / 25, period := min 8000 (max 16 p)
        tnext := BitVec.ofNat 64 (s.ring.nextAt + cycleNs p), lens := s.ring.lens, mbxLen := len
        lag := Fin.ofNat 4 s.ring.lag, slots := slots, mbx := runs }
    let s := if s.ring.sof.isSome && s.ring.returned.isNone then s.setF KNR.base KNR.LOOP_DLY.DLY 0xFFFFFFFF else s
    (s.setB KNR.base KNR.STATUS.MT_LOCKED true).modRing fun r => { r with
      frameOut := some f, frameAt := some s.now, sof := some (n, s.now), returned := none
      nextCycle := (n + 1) % 2 ^ 32, nextAt := r.nextAt + cycleNs p }
  else s)

/-- The reference returns to XIN, to which its PLL locks where there is a clock (R24, R440). -/
def State.referenceToXin (s : State) : State :=
  let t := if s.getB SYS.base SYS.CLK_STATUS.REF_SRC then
      s.setB SYS.base SYS.CLK_STATUS.REF_LOCK (s.getB SYS.base SYS.CLK_STATUS.XIN_OK && s.cellar.phase == .up)
    else s
  ((t.setB SYS.base SYS.CLK_STATUS.REF_SRC false).setB KNR.base (clkSrcF 0) false).setB KNR.base (clkSrcF 1) false

/-- While ISO_TRIP is 1 CYCLE_LOST holds MKT_IN at 1 (R443). -/
def State.isolated (s : State) : State :=
  if s.getB KNR.base KNR.CTRL.ISO_TRIP && s.getB KNR.base KNR.STATUS.CYCLE_LOST then
    (s.modRing fun r => { r with quiet := 0 }).marketIn true
  else s

/-- CYCLE_LOST: LOSS_CYC cycle times without a valid header (R431, R439, R440, R443); a takeover member opens
the next scheduled cycle (R425). A header on the edge of the expiry wins (R73, R451): the loss shows on the next. -/
def execCycleLost (s : State) : Result :=
  .next (match s.ring.hdrAt with
  | none => s
  | some t0 =>
    if s.islandUp .ring && !s.getB KNR.base KNR.STATUS.CYCLE_LOST then
      let loss := max 1 (s.getF KNR.base KNR.CTRL.LOSS_CYC)
      let s := s.atTime (t0 + loss * cycleNs s.ring.period * ns + ac)
      let s := (s.setB KNR.base KNR.STATUS.CYCLE_LOST true).setB KNR.base KNR.STATUS.MT_LOCKED false
      let s := s.modRing fun r => { r with hdrFrom := none, good := 0, bad := 0 }
      let s := s.referenceToXin
      let s := s.isolated
      if s.ringMember && s.getB KNR.base KNR.CTRL.TAKEOVER && !s.getB KNR.base KNR.STATUS.MASTER then
        match s.ring.capAt with
        | some (n, t1) =>
          let p := cycleNs s.ring.period
          let k := (s.marketNs + p - t1) / p
          s.becomeMaster ((n + k) % 2 ^ 32) (t1 + k * p) true
        | none => s
      else s
    else s)

/-- REFERENCE_SWITCH: after 1 ms of valid headers a hall with REF_RING = 1 moves its reference to the recovered
clock (R440). -/
def execReferenceSwitch (s : State) : Result :=
  .next (match s.ring.hdrFrom, s.streamPort with
  | some t0, some p =>
    if s.islandUp .ring && s.options.refRing && !s.getB KNR.base KNR.STATUS.MASTER then
      let s := s.atTime (t0 + 1000 * us)
      ((s.setB SYS.base SYS.CLK_STATUS.REF_SRC true).setB SYS.base SYS.CLK_STATUS.REF_LOCK true).setB KNR.base (clkSrcF p) true
    else s
  | _, _ => s)

/-- A TRIP or REC block goes on in its direction, once for each origin and sequence number (R442, R445). -/
def forwardOnce (seen : List (Nat × Nat × Nat)) (dir origin seq : Nat) : Bool × List (Nat × Nat × Nat) :=
  let hit := seen.any fun x => x == (dir, origin, seq)
  (!hit, (seen.filter fun x => !(x.1 == dir && x.2.1 == origin)) ++ [(dir, origin, seq)])

/-- Where a block that arrived on port `p` leaves: the other port, or back where the hall is wrapped. -/
def State.onward (s : State) (p : Nat) : Nat := if s.ring.use = 3 then 1 - p else p

/-- TRIP: a TRIP block with a correct check is forwarded once and sets MKT_IN; a hall discards its own (R442,
R443). -/
def execTrip (p : Fin 2) (origin : BitVec 7) (seq : BitVec 8) (ok : Bool) (s : State) : Result :=
  .next (if s.islandUp .ring && ok && origin.toNat ≠ s.nodeId then
    let (fresh, seen) := forwardOnce s.ring.tripSeen p origin.toNat seq.toNat
    let s := s.modRing fun r => { r with tripSeen := seen, quiet := 0 }
    let s := if fresh then s.transmit (s.onward p) (.trip origin.toNat seq.toNat) else s
    s.marketIn true
  else s)

/-- REC: forwarded once, pulses source 132, and offered to the recorder as a market trigger (R445, R484). -/
def execRecord (p : Fin 2) (origin : BitVec 7) (seq : BitVec 8) (time : BitVec 64) (ok : Bool) (s : State) : Result :=
  .next (if s.islandUp .ring && ok && origin.toNat ≠ s.nodeId then
    let known := s.ring.recSeen.any fun x => x.2 == (origin.toNat, seq.toNat)
    let (fresh, seen) := forwardOnce s.ring.recSeen p origin.toNat seq.toNat
    let s := s.modRing fun r => { r with recSeen := seen }
    let s := if fresh then s.transmit (s.onward p) (.record origin.toNat seq.toNat time.toNat) else s
    let s := s.pulseIf (s.bit KNR.base KNR.IRQ_EN.SRC 15) 132
    if s.ringMember && s.getB ATC.base ATC.CTRL.MKT_ACCEPT && !known then s.trigger 3 origin.toNat time.toNat else s
  else s)

/-! ### Writes of KNR registers -/

/-- CTRL has been written (R421, R424, R443). -/
def State.ringEnabled (s : State) : State := s.memberUpdate.isolated

/-- A committed write of MT (R439): only while ENABLE and MT_LOCKED are both 0. -/
def State.writeMarket (s : State) (v : Nat) : State :=
  if s.getB KNR.base KNR.CTRL.ENABLE || s.getB KNR.base KNR.STATUS.MT_LOCKED then
    if v = s.marketNs then s else s.setB KNR.base KNR.STATUS.WIGN true
  else s.setMarket (v * ns)

end Sys2Proof.Machine
end

