-- ==== Sys2Proof/Machine/Sha256.lean ====
section
/-! DEFINITION. SHA-256 of a 32-byte message, for the debug key (R521).  The function itself is the public standard's
(FIPS 180-4); the spec names it. -/

namespace Sys2Proof.Machine

def shaK0 : List Word :=
  [0x428A2F98, 0x71374491, 0xB5C0FBCF, 0xE9B5DBA5, 0x3956C25B, 0x59F111F1, 0x923F82A4, 0xAB1C5ED5,
   0xD807AA98, 0x12835B01, 0x243185BE, 0x550C7DC3, 0x72BE5D74, 0x80DEB1FE, 0x9BDC06A7, 0xC19BF174]
def shaK1 : List Word :=
  [0xE49B69C1, 0xEFBE4786, 0x0FC19DC6, 0x240CA1CC, 0x2DE92C6F, 0x4A7484AA, 0x5CB0A9DC, 0x76F988DA,
   0x983E5152, 0xA831C66D, 0xB00327C8, 0xBF597FC7, 0xC6E00BF3, 0xD5A79147, 0x06CA6351, 0x14292967]
def shaK2 : List Word :=
  [0x27B70A85, 0x2E1B2138, 0x4D2C6DFC, 0x53380D13, 0x650A7354, 0x766A0ABB, 0x81C2C92E, 0x92722C85,
   0xA2BFE8A1, 0xA81A664B, 0xC24B8B70, 0xC76C51A3, 0xD192E819, 0xD6990624, 0xF40E3585, 0x106AA070]
def shaK3 : List Word :=
  [0x19A4C116, 0x1E376C08, 0x2748774C, 0x34B0BCB5, 0x391C0CB3, 0x4ED8AA4A, 0x5B9CCA4F, 0x682E6FF3,
   0x748F82EE, 0x78A5636F, 0x84C87814, 0x8CC70208, 0x90BEFFFA, 0xA4506CEB, 0xBEF9A3F7, 0xC67178F2]

/-- The eight working words. -/
structure ShaWords where
  a : Word := 0x6A09E667
  b : Word := 0xBB67AE85
  c : Word := 0x3C6EF372
  d : Word := 0xA54FF53A
  e : Word := 0x510E527F
  f : Word := 0x9B05688C
  g : Word := 0x1F83D9AB
  h : Word := 0x5BE0CD19
  deriving DecidableEq, Repr

/-- One round with its constant and message word. -/
def ShaWords.round (x : ShaWords) (k w : Word) : ShaWords :=
  let s1 := x.e.rotateRight 6 ^^^ x.e.rotateRight 11 ^^^ x.e.rotateRight 25
  let ch := (x.e &&& x.f) ^^^ (~~~x.e &&& x.g)
  let t1 := x.h + s1 + ch + k + w
  let s0 := x.a.rotateRight 2 ^^^ x.a.rotateRight 13 ^^^ x.a.rotateRight 22
  let maj := (x.a &&& x.b) ^^^ (x.a &&& x.c) ^^^ (x.b &&& x.c)
  { a := t1 + (s0 + maj), b := x.a, c := x.b, d := x.c, e := x.d + t1, f := x.e, g := x.f, h := x.g }

/-- The next message word from the last sixteen. -/
def shaNext (w : List Word) : Word :=
  let g0 (x : Word) := x.rotateRight 7 ^^^ x.rotateRight 18 ^^^ (x >>> 3)
  let g1 (x : Word) := x.rotateRight 17 ^^^ x.rotateRight 19 ^^^ (x >>> 10)
  g1 (w.getD 14 0) + w.getD 9 0 + g0 (w.getD 1 0) + w.getD 0 0

/-- The rounds over the constants, with a sliding window of sixteen message words. -/
def shaRounds : List Word → List Word → ShaWords → ShaWords
  | [], _, x => x
  | k :: ks, w, x => shaRounds ks (w.tail ++ [shaNext w]) (x.round k (w.headD 0))

/-- A big-endian word of four bytes. -/
def shaWord (p : List (BitVec 8)) (i : Nat) : Word :=
  (p.getD i 0).setWidth 32 <<< 24 ||| (p.getD (i + 1) 0).setWidth 32 <<< 16
    ||| (p.getD (i + 2) 0).setWidth 32 <<< 8 ||| (p.getD (i + 3) 0).setWidth 32

/-- The digest of 32 bytes as 32 bytes, first byte first. -/
def sha256Of32 (p : List (BitVec 8)) : List (BitVec 8) :=
  let m := (List.range 8).map (fun i => shaWord p (4 * i)) ++ [0x80000000, 0, 0, 0, 0, 0, 0, 256]
  let i : ShaWords := {}
  let x := shaRounds (shaK0 ++ shaK1 ++ shaK2 ++ shaK3) m i
  [i.a + x.a, i.b + x.b, i.c + x.c, i.d + x.d, i.e + x.e, i.f + x.f, i.g + x.g, i.h + x.h].flatMap fun w =>
    [w.extractLsb' 24 8, w.extractLsb' 16 8, w.extractLsb' 8 8, w.extractLsb' 0 8]

end Sys2Proof.Machine
end

