-- ==== Sys2Proof/Machine/Debug.lean ====
section
/-! DEFINITION. The debug island: TAP, monitor requests, monitor commands without data accesses, lock, trace
clearing (R500–R502, R505–R521). -/

namespace Sys2Proof.Machine

/-! ### Halt, resume, step (R505–R508) -/

/-- C_STATUS.HALTED: from the entry into MON up to the RETI that leaves it (R506). -/
def State.halted (s : State) (c : Nat) : Bool := s.coreUp c && (s.coreAt c).inUse.getLsbD 9

/-- STATUS.HALTED. -/
def State.haltedMask (s : State) : Nat := (List.range 4).foldl (fun n c => n + 2 ^ c * (s.halted c).toNat) 0

/-- C_STATUS.CMD_REFUSED (R505, R508). -/
def State.cmdRefused (s : State) (c : Nat) : Bool :=
  s.dbg.resumeRefused.getLsbD c || (s.dbg.haltRefused.getLsbD c && !s.coreUp c)

/-- HALT: a monitor request, refused for a core that is down (R505). -/
def State.haltCmd (s : State) (c : Nat) : State :=
  if s.coreUp c then s.monRequest c 1 0
  else { s with dbg := { s.dbg with haltRefused := BitVec.ofNat 4 (withBit s.dbg.haltRefused.toNat c true) } }

/-- RESUME, or STEP: the monitor executes RETI, at once or when the handler that runs above it has returned;
refused while HALTED is 0 (R508). -/
def State.resumeCmd (s : State) (c : Nat) (step : Bool) : State :=
  if s.halted c then
    if (s.coreAt c).cl = 9 then s.monLeave c step
    else s.modCore c fun x => { x with resumeAsk := some step }
  else { s with dbg := { s.dbg with resumeRefused := BitVec.ofNat 4 (withBit s.dbg.resumeRefused.toNat c true) } }

/-- A write of C_CMD[n]: its commands in ascending bit order (R60). -/
def State.cCmd (s : State) (c v : Nat) : State :=
  if v / 8 ≠ 0 then s
  else
    let s := if v.testBit 0 then s.haltCmd c else s
    let s := if v.testBit 1 then s.resumeCmd c false else s
    if v.testBit 2 then s.resumeCmd c true else s

/-- C_CMD_HALT (R505). -/
def execCCmdHalt (init : Fin 16) (c : Fin 4) (s : State) : Result :=
  .next (s.onCommand init (DBG.base + (DBG.C_CMD.W.at (0x80 * c)).off) fun t => t.cCmd c 1)
/-- C_CMD_RESUME (R508). -/
def execCCmdResume (init : Fin 16) (c : Fin 4) (s : State) : Result :=
  .next (s.onCommand init (DBG.base + (DBG.C_CMD.W.at (0x80 * c)).off) fun t => t.cCmd c 2)
/-- C_CMD_STEP (R508). -/
def execCCmdStep (init : Fin 16) (c : Fin 4) (s : State) : Result :=
  .next (s.onCommand init (DBG.base + (DBG.C_CMD.W.at (0x80 * c)).off) fun t => t.cCmd c 4)

/-! ### Lock (R520, R521) -/

/-- One second. -/
def second : Nat := 1000000 * us

/-- The bytes of KEY_HASH, first byte first (R370). -/
def State.keyHashBytes (s : State) : List (BitVec 8) :=
  (List.range 32).map fun i => s.options.keyHash.extractLsb' (8 * i) 8

/-- A key that is not accepted counts and starts the lockout. -/
def State.keyFailed (s : State) : State :=
  let t := (s.countSat DBG.base DBG.LOCK.FAILS).setB DBG.base DBG.LOCK.LOCKOUT true
  { t with dbg := { t.dbg with lockEnd := t.now + second } }

/-- The digest of the key is KEY_HASH. -/
def State.keyMatches (s : State) (key : List (BitVec 8)) : Bool := sha256Of32 key = s.keyHashBytes

/-- A key is judged (R521): whether it was accepted, and the new state.  LOCKOUT refuses it; the last instant of
the lockout no longer does (R522). -/
def State.judgeKey (s : State) (key : List (BitVec 8)) : Bool × State :=
  let s := s.forAll 8 fun t i => t.setF DBG.base (DBG.UNLOCK_KEY.KEY.at (4 * i)) 0
  let st := s.getF DBG.base DBG.LOCK.STATE
  if s.getB DBG.base DBG.LOCK.LOCKOUT && s.now < s.dbg.lockEnd then (false, s)
  else if s.keyMatches key then
    if st = 2 then (true, s.setB DBG.base DBG.LOCK.UNLOCKED true)
    else if st = 3 then (true, s)
    else (false, s.keyFailed)
  else (false, s.keyFailed)

/-- CMD.UNLOCK: the key in UNLOCK_KEY. -/
def State.unlockCmd (s : State) : State :=
  let key := (List.range 32).map fun i =>
    BitVec.ofNat 8 (s.getF DBG.base (DBG.UNLOCK_KEY.KEY.at (4 * (i / 4))) >>> (8 * (i % 4)))
  (s.judgeKey key).2

/-- LOCKOUT_END (R521). -/
def execLockoutEnd (s : State) : Result :=
  .next (if s.getB DBG.base DBG.LOCK.LOCKOUT then
    (s.atTime s.dbg.lockEnd).setB DBG.base DBG.LOCK.LOCKOUT false
  else s)

/-! ### Debug reset (R385, R520, R523) -/

/-- A debug reset: every DBG field at its Reset value, the lock state from the options. -/
def State.debugReset (s : State) : State :=
  let s := (s.clearRegs DBG.base (DBG.base + 0x1000)).setF DBG.base DBG.LOCK.STATE s.options.dbgLock.toNat
  { s with dbg := { upAt := s.dbg.upAt } }

/-! ### Monitor commands (R511–R515) -/

/-- CMD.MCMD_GO: the request in MCMD_BUF is queued here, or sent over the ring; while one is under way the
command does nothing. -/
def State.mcmdGo (s : State) : State :=
  if s.getB DBG.base DBG.MCMD_STATUS.BUSY then s
  else
    let n := s.getF DBG.base DBG.MCMD_CTRL.LEN
    let dst := s.getF DBG.base DBG.MCMD_CTRL.DST
    let p := (List.range n).map fun i =>
      BitVec.ofNat 8 (s.getF DBG.base (DBG.MCMD_BUF.DATA.at (4 * (i / 4))) >>> (8 * (i % 4)))
    let s := ((s.setB DBG.base DBG.MCMD_STATUS.BUSY true).setB DBG.base DBG.MCMD_STATUS.DONE false).setB
      DBG.base DBG.MCMD_STATUS.TIMEOUT false
    if dst = 0 then s.monQueue { dst := 0, src := 0, seq := 0, svc := 0, kind := 0, payload := p }
    else s.ringRequest 2 dst (p.take 248)

/-- A write of DBG.CMD: its commands in ascending bit order (R60); an unlock on the edge of a debug reset does nothing
(R522). -/
def State.dbgCmd (s : State) (v : Nat) : State :=
  if v / 16 ≠ 0 then s
  else
    let s := if v.testBit 0 then s.debugReset else if v.testBit 1 then s.unlockCmd else s
    let s := if v.testBit 2 then s.mcmdGo else s
    if v.testBit 3 then s.clearCount DBG.base DBG.TRACE_LOST.COUNT else s

/-- DBG_RESET (R523). -/
def execDbgReset (init : Fin 16) (s : State) : Result :=
  .next (s.onCommand init (DBG.base + DBG.CMD.W.off) fun t => t.dbgCmd 1)
/-- UNLOCK (R521). -/
def execUnlock (init : Fin 16) (s : State) : Result :=
  .next (s.onCommand init (DBG.base + DBG.CMD.W.off) fun t => t.dbgCmd 2)
/-- MCMD_GO (R511). -/
def execMcmdGo (init : Fin 16) (s : State) : Result :=
  .next (s.onCommand init (DBG.base + DBG.CMD.W.off) fun t => t.dbgCmd 4)
/-- TRACE_CLR (R523). -/
def execTraceClr (init : Fin 16) (s : State) : Result :=
  .next (s.onCommand init (DBG.base + DBG.CMD.W.off) fun t => t.dbgCmd 8)

/-- What a monitor command answers: STATUS, KIND, data (R512, R513). -/
structure MonReply where
  status : Nat := 0
  kind : Nat := 0
  data : List (BitVec 8) := []

/-- The request in front is executed if it carries CMD `cmd`; in a locked hall it is answered LOCKED (R520). -/
def State.monFront (s : State) (cmd : Nat) (act : RingMsg → State → MonReply × State) : State :=
  if s.islandUp .dbg then
    match s.dbg.queue with
    | [] => s
    | m :: _ =>
      if byteAt m.payload 0 = cmd then
        let (r, t) := if s.debugLocked && cmd ≠ 8 then ({ status := 1 }, s) else act m s
        (t.monAnswer m (monPayload m r.status r.kind r.data)).monServe 4
      else s
  else s

/-- A command for one core: BAD_CMD for a core that does not exist, CORE_DOWN, NOT_HALTED where it must halt. -/
def onMonCore (halt : Bool) (act : Nat → RingMsg → State → MonReply × State) (m : RingMsg) (s : State) : MonReply × State :=
  let c := byteAt m.payload 1
  if 3 < c then ({ status := 4 }, s)
  else if !s.coreUp c then ({ status := 6 }, if halt then s else s.haltCmd c)
  else if halt && !s.halted c then ({ status := 3 }, s)
  else act c m s

/-- MON_HALT (R514). -/
def execMonHalt (s : State) : Result :=
  .next (s.monFront 3 (onMonCore false fun c _ t => ({}, t.haltCmd c)))

/-- RESUME or STEP as a monitor command: as the C_CMD of the core (R514). -/
def monResumeOf (step : Bool) (m : RingMsg) (s : State) : MonReply × State :=
  let c := byteAt m.payload 1
  if 3 < c then ({ status := 4 }, s)
  else (if s.halted c then {} else { status := if s.coreUp c then 3 else 6 }, s.resumeCmd c step)

/-- MON_RESUME (R514). -/
def execMonResume (s : State) : Result := .next (s.monFront 4 (monResumeOf false))
/-- MON_STEP (R514). -/
def execMonStep (s : State) : Result := .next (s.monFront 5 (monResumeOf true))

/-- The window of the interrupted code. -/
def Core.monFrm (x : Core) : Nat := bitsOf x.saves[(8 : Fin 9)][(2 : Fin 11)].toNat 20 16

/-- Register of the MON save set that stands for a loop register of the interrupted code. -/
def savedLoop (n : Nat) : Nat := if n < 8 then n + 1 else n

/-- The register of a register code (R515). -/
def State.monReg (s : State) (c code : Nat) : Option Word :=
  let x := s.coreAt c
  let set := x.saves[(8 : Fin 9)]
  if code < 0x10 then some x.x[physReg x.monFrm code]
  else if code < 0x15 then some set[Fin.ofNat 11 (code - 0x10)]
  else match code with
  | 0x21 => some x.wb
  | 0x22 => some x.wsp
  | 0x24 | 0x25 | 0x26 | 0x28 | 0x29 | 0x2A => some set[Fin.ofNat 11 (savedLoop (code - 0x20))]
  | 0x2C => some (BitVec.ofNat 32 (s.ccnt c))
  | 0x2D => some (BitVec.ofNat 32 (s.ccnt c / 2 ^ 32))
  | _ => none

/-- A write of a register code; CCNT is SC and keeps its value. -/
def State.setMonReg (s : State) (c code : Nat) (v : Word) : State :=
  if code < 0x10 then s.modCore c fun x => { x with x := x.x.set (physReg x.monFrm code) v }
  else if code < 0x15 then s.writeSaved c 9 (code - 0x10) v
  else match code with
  | 0x21 => s.writeLow c 1 v
  | 0x22 => s.writeLow c 2 v
  | 0x24 | 0x25 | 0x26 | 0x28 | 0x29 | 0x2A => s.writeSaved c 9 (savedLoop (code - 0x20)) v
  | _ => s

/-- REG_READ (R515). -/
def execRegRead (s : State) : Result :=
  .next (s.monFront 6 (onMonCore true fun c m t =>
    match t.monReg c (numAt m.payload 4 4) with
    | some v => ({ data := leBytes v.toNat 4 }, t)
    | none => ({ status := 4 }, t)))

/-- REG_WRITE (R515). -/
def execRegWrite (s : State) : Result :=
  .next (s.monFront 7 (onMonCore true fun c m t =>
    match t.monReg c (numAt m.payload 4 4) with
    | some _ => ({}, t.setMonReg c (numAt m.payload 4 4) (BitVec.ofNat 32 (numAt m.payload 12 4)))
    | none => ({ status := 4 }, t)))

/-- MON_UNLOCK (R521). -/
def execMonUnlock (s : State) : Result :=
  .next (s.monFront 8 fun m t =>
    if numAt m.payload 8 4 ≠ 32 then ({ status := 4 }, t)
    else
      let (ok, u) := t.judgeKey ((List.range 32).map fun i => BitVec.ofNat 8 (byteAt m.payload (12 + i)))
      ({ status := if ok then 0 else 1 }, u))

/-! ### The TAP (R500, R501) -/

/-- The debug domain is powered and out of reset, and TRST_N is high. -/
def State.tapRuns (s : State) : Bool := s.islandUp .dbg && s.cellar.trstN

/-- A TAP instruction is loaded. -/
def State.tap (s : State) (code : BitVec 5) : State :=
  if s.tapRuns then { s with dbg := { s.dbg with ir := code } } else s

/-- DBG.STATUS.BSCAN_LIVE: EXTEST, CLAMP or HIGHZ drives the balls, which it does in hall reset only. -/
def State.bscanLive (s : State) : Bool :=
  s.cellar.phase == .inReset && (s.dbg.ir == 0 || s.dbg.ir == 3 || s.dbg.ir == 4)

/-- What the boundary register puts on cell `i`: a level, or `none` for a ball it leaves to its pull-down or to
R391. -/
def State.boundaryLevel (s : State) (i : Nat) : Option Bool :=
  if s.bscanLive && s.dbg.ir != 4 then s.dbg.boundary[i]? else none

/-- EXTEST: the cells shifted in drive the balls during hall reset; the levels found are captured (R501). -/
def execExtest (balls cells : List Bool) (s : State) : Result :=
  .next (if s.tapRuns then
    let t := s.tap 0
    { t with dbg := { t.dbg with captured := balls, boundary := cells } }
  else s)

/-- SAMPLE_PRELOAD (R500). -/
def execSamplePreload (balls cells : List Bool) (s : State) : Result :=
  .next (if s.tapRuns then
    let t := s.tap 1
    { t with dbg := { t.dbg with captured := balls, boundary := cells } }
  else s)

/-- IDCODE: the data register is the 32 bits of DBG.ID (R500). -/
def execIdcode (s : State) : Result := .next (s.tap 2)
/-- CLAMP: the cells loaded before drive the balls (R501). -/
def execClamp (s : State) : Result := .next (s.tap 3)
/-- HIGHZ (R501). -/
def execHighz (s : State) : Result := .next (s.tap 4)
/-- BYPASS (R500). -/
def execBypass (s : State) : Result := .next (s.tap 0x1F)

end Sys2Proof.Machine
end

