-- ==== Sys2Proof/Machine/Memory.lean ====
section
/-! DEFINITION. The memories as initiators see them: the address map, widths, protection findings, the cellar
store's partition, the flash data view (R29–R37, R351–R352, R362–R366, R383). -/

namespace Sys2Proof.Machine

/-- The memories of R29 that data addresses reach. -/
inductive Area where
  | sram | staging | coreRam (n : Nat) | program (n : Nat) | flash | cellar
  deriving DecidableEq, Repr

/-- What an access answers: data, a wait (the initiator tries again), or a bus error of a KIND (R47). -/
inductive Reply where
  | ok (data : Nat)
  | wait
  | err (kind : Nat)
  deriving DecidableEq, Repr

/-- The memory of a data address and the one address under which its cells are held (R34): a core's own alias
stands for its global one. -/
def memArea (init a : Nat) : Option (Area × Nat) :=
  if a < 0x400000 then some (.sram, a)
  else if 0x800000 ≤ a ∧ a < 0x1000000 then some (.staging, a)
  else if 0x10000000 ≤ a ∧ a < 0x10040000 then
    if init < 4 then some (.coreRam init, 0x11000000 + 0x100000 * init + (a - 0x10000000)) else none
  else if 0x11000000 ≤ a ∧ a < 0x11400000 then
    if a % 0x100000 < 0x40000 then some (.coreRam ((a - 0x11000000) / 0x100000), a) else none
  else if 0x20000000 ≤ a ∧ a < 0x21000000 then some (.flash, a)
  else if 0x28000000 ≤ a ∧ a < 0x28100000 then
    if a % 0x40000 < 0x20000 then some (.program ((a - 0x28000000) / 0x40000), a) else none
  else if 0x30000000 ≤ a ∧ a < 0x30040000 then some (.cellar, a)
  else none

/-- The island a memory lies in (R28). -/
def Area.island : Area → Island
  | .sram | .staging | .flash => .fabric
  | .coreRam n | .program n => .core (Fin.ofNat 4 n)
  | .cellar => .cellar

/-- The index of SYS.ECC_CNT (R47); flash keeps its own counts. -/
def Area.eccIndex : Area → Nat
  | .sram => 0
  | .staging => 1
  | .coreRam n => 2 + n
  | .program n => 6 + n
  | .cellar => 10
  | .flash => 11

/-- Bytes of a SECDED word (R29). -/
def Area.wordBytes : Area → Nat
  | .coreRam _ => 4
  | .program _ => 2
  | _ => 8

/-- The widths a memory accepts, in bytes: R34 gives those of the hall SRAM and of the program RAM (R35); the other rows
give none, and the model takes 8, 16, 32 and 64 bits there (DESIGN CHOICE, log entry 62). -/
def Area.widthOk : Area → Nat → Bool
  | .program _, n => n == 2 || n == 4
  | _, n => n == 1 || n == 2 || n == 4 || n == 8

/-- The SECDED word of an address. -/
def Area.word (r : Area) (a : Nat) : Nat := a / r.wordBytes * r.wordBytes

/-- A correction is counted and recorded (R31, R47). -/
def State.corrected (s : State) (m init addr syndrome : Nat) : State :=
  ((((s.countSat SYS.base (SYS.ECC_CNT.COUNT.at (4 * (m % 12)))).setF SYS.base SYS.ECC_LAST_ADDR.ADDR addr).setF
    SYS.base SYS.ECC_LAST_SRC.SYNDROME syndrome).setF SYS.base SYS.ECC_LAST_SRC.INITIATOR init).setF
    SYS.base SYS.ECC_LAST_SRC.MEM m

/-- A foreground write of the `n` bytes from word `w` on cancels the write-backs of the words it covers (R31). -/
def State.cancelWriteBack (s : State) (w n : Nat) : State :=
  { s with writeBack := s.writeBack.filter fun x => !(decide (w ≤ x) && decide (x < w + n)) }

/-- A read finds a word of area `r` correctable: the event counts, and the corrected word waits to be written back
(R31); a clean word leaves nothing, and an uncorrectable one is the access's error. -/
def State.findWord (s : State) (r : Area) (init w : Nat) : EccFinding → State
  | .correctable y =>
    let t := s.corrected r.eccIndex init w y.toNat
    { t with writeBack := t.writeBack.filter (· != w) ++ [w] }
  | _ => s

/-- The bus transfers of an access (R30): parity that fails once repeats and counts; twice is KIND 3. -/
def State.busTransfer (s : State) (init addr : Nat) (env : BusEnv) : State × Bool :=
  if env.parityFails = 0 then (s, true)
  else if env.parityFails = 1 then (s.corrected 11 init addr 0, true)
  else (s, false)

/-- A bus error as the answer. -/
def State.fail (s : State) (init addr kind : Nat) (write : Bool) : Reply × State :=
  (.err kind, s.busError init addr kind write)

/-- Another core holds the hall-SRAM word of an address by LOCK: the initiator waits (R266, R267). -/
def State.heldFrom (s : State) (init : Nat) (r : Area) (a : Nat) : Bool :=
  r == .sram && (List.range 4).any fun c => c != init && (s.coreAt c).lockWord == some (a / 8)

/-! ### Flash reads (R351, R352, R362–R366) -/

/-- Bank of a flash line, sector of a line, and the lines of a sector. -/
def lineBank (l : Nat) : Nat := l / 262144
def lineSector (l : Nat) : Nat := l / 2048

/-- The erase in progress: its bank, first sector and number of sectors. -/
def FlashOp.erases (o : FlashOp) : Option (Nat × Nat × Nat) :=
  if !o.started ∨ o.result.isSome then none
  else if o.op = 2 then some (o.faddr / 0x800000, o.faddr / 0x10000, 1)
  else if o.op = 3 then some (o.faddr / 0x800000, o.faddr / 0x10000, 128)
  else none

def State.flashErases (s : State) : Option (Nat × Nat × Nat) := s.flash.cur.bind FlashOp.erases

/-- Sector `x` is being erased (R363). -/
def State.erasing (s : State) (x : Nat) : Bool :=
  match s.flashErases with
  | some (_, f, n) => f ≤ x && x < f + n
  | none => false

/-- FLC.TORN_MAP bit of a sector (R366). -/
def State.torn (s : State) (x : Nat) : Bool := s.bit FLC.base (FLC.TORN_MAP.TORN.at (4 * (x / 32))) (x % 32)

/-- A line of bank `b` is being programmed. -/
def State.programming (s : State) (b : Nat) : Bool :=
  match s.flash.cur with
  | some o => o.line.isSome && o.op = 1 && o.faddr / 0x800000 = b
  | none => false

/-- An erase of bank `b` runs (it is not suspended). -/
def State.eraseRuns (s : State) (b : Nat) : Bool :=
  match s.flashErases, s.flash.erase with
  | some (k, _, _), some r => k = b && !r.suspended
  | _, _ => false

/-- Suspension is asked for: it counts from now, or from the end of MINRUN (R362). -/
def State.askSuspend (s : State) (sw : Bool) : State :=
  match s.flash.erase with
  | none => s
  | some r =>
    let m := min 32 (max 1 (s.getF FLC.base FLC.CTRL.MINRUN))
    let at_ := r.asked.getD (max s.now (r.runFrom + m * 250 * us))
    { s with flash := { s.flash with erase := some { r with asked := some at_, sw := r.sw || sw } } }

/-- Counts and pulses of a flash read that finds an error (R351, R375). -/
def State.flashCorrected (s : State) (line : Nat) : State :=
  ((s.countSat FLC.base FLC.ECC_CNT.COUNT).setF FLC.base FLC.ECC_LAST.OFFSET (32 * line)).pulseIf
    (s.bit FLC.base FLC.IRQ_EN.SRC 5) 114
def State.flashUncorrectable (s : State) : State :=
  (s.countSat FLC.base FLC.CNT.UNC).pulseIf (s.bit FLC.base FLC.IRQ_EN.SRC 7) 116

/-- The data view's line buffers take a line; which of four full buffers it replaces is not given. -/
def State.fillBuffer (s : State) (line : Nat) : State :=
  if s.flash.buffers.length < 4 then { s with flash := { s.flash with buffers := s.flash.buffers ++ [line] } }
  else
    let (v, t) := s.takeFree
    { t with flash := { t.flash with buffers := t.flash.buffers.set (v.toNat % 4) line } }

/-- The array is read for a line; an uncorrectable error that a fetch finds is recorded once a core reaches it (R302). -/
def State.arrayRead (s : State) (line : Nat) (fetch : Bool) (ecc : EccFinding) : Reply × State :=
  match ecc with
  | .uncorrectable => (.err 2, if fetch then s else s.flashUncorrectable)
  | .correctable _ => (.ok 0, (if fetch then s else s.fillBuffer line).flashCorrected line)
  | .clean => (.ok 0, if fetch then s else s.fillBuffer line)

/-- The bank of the erase in progress. -/
def State.erasingBank (s : State) (b : Nat) : Bool := s.flashErases.any fun e => e.1 == b

/-- A read or fetch of bank `b` is served now: an erase of that bank that is suspended for reads counts its resume delay
from here (R364). -/
def State.servedAt (s : State) (b : Nat) : State :=
  match s.flash.erase with
  | some r =>
    if s.erasingBank b then { s with flash := { s.flash with erase := some { r with served := s.now } } } else s
  | none => s

/-- A read arrives at bank `b` on the edge on which the resume delay of its erase has run out: the erase stays suspended
(R374). -/
def State.arrives (s : State) (b : Nat) : State :=
  match s.flash.erase with
  | some r =>
    if s.erasingBank b && r.delayed && r.runFrom = s.now && !r.suspended then
      { s with flash := { s.flash with erase := some { r with suspended := true, asked := none, delayed := false } } }.setB
        FLC.base FLC.STATUS.SUSP true
    else s
  | none => s

/-- A read or fetch of a flash line: a buffer hit, a syndrome, a wait, or the array (R352, R362–R364, R366).
`ok` means that the line's data can be taken. -/
def State.flashLine (s : State) (init line : Nat) (fetch : Bool) (ecc : EccFinding) : Reply × State :=
  let x := lineSector line
  let b := lineBank line
  let mine (w : FlashWait) : Bool := w.init == init && w.line == line && w.fetch == fetch
  let answer (t : State) : Reply × State := if s.torn x then (.err 7, t) else t.arrayRead line fetch ecc
  if s.erasing x then (.err 7, s)
  else if !fetch && !s.torn x && s.flash.buffers.contains line then (.ok 0, s)
  else match s.flash.waiting.find? mine with
  | some w =>
    if w.served then answer { s with flash := { s.flash with waiting := s.flash.waiting.filter (!mine ·) } } else (.wait, s)
  | none =>
    let s := s.arrives b
    if s.programming b || s.eraseRuns b then
      let t := { s with flash := { s.flash with waiting := s.flash.waiting ++ [⟨init, line, fetch, false⟩] } }
      (.wait, if s.eraseRuns b then t.askSuspend false else t)
    else answer (s.servedAt b)

/-- A read of an option copy, whose array has the same SECDED protection: it counts as a read of the main array does, but
gives no flash offset (R351, R370; DESIGN CHOICE, log entry 68).  `false`: uncorrectable. -/
def State.optionRead (s : State) : EccFinding → Bool × State
  | .clean => (true, s)
  | .correctable _ => (true, (s.countSat FLC.base FLC.ECC_CNT.COUNT).pulseIf (s.bit FLC.base FLC.IRQ_EN.SRC 5) 114)
  | .uncorrectable => (false, s.flashUncorrectable)

/-! ### Reads and writes of a memory -/

/-- A naturally aligned read of `n` bytes by an initiator (R31, R32, R34–R36, R51): the data or the KIND of
its bus error, which is recorded. -/
def State.memRead (s : State) (init a n : Nat) (env : BusEnv) : Reply × State :=
  match memArea init a with
  | none => s.fail init a 1 false
  | some (r, p) =>
    if !s.islandUp r.island then s.fail init a 5 false
    else if !r.widthOk n then s.fail init a 6 false
    else if s.heldFrom init r p then (.wait, s)
    else match s.busTransfer init a env with
    | (t, false) => t.fail init a 3 false
    | (t, true) =>
      if r = .flash then
        match t.flashLine init ((p - 0x20000000) / 32) false env.ecc with
        | (.ok _, u) => (.ok (u.bytes p n), u)
        | (.err k, u) => u.fail init a k false
        | (.wait, u) => (.wait, u)
      else
        let w := r.word p
        let high := if r.wordBytes < n then env.high else .clean
        let t := (t.findWord r init w env.ecc).findWord r init (w + r.wordBytes) high
        if env.ecc = .uncorrectable ∨ high = .uncorrectable then t.fail init a 2 false else (.ok (t.bytes p n), t)

/-- A peek of `n` bytes: the answer of a read on this edge, which starts nothing and counts nothing but a bus error
(R67). -/
def State.memPeek (s : State) (init a n : Nat) (env : BusEnv) : Reply × State :=
  match (s.memRead init a n env).1 with
  | .err k => s.fail init a k false
  | r => (r, s)

/-- Bits that a write of `n` bytes can hold: bits [15:14] of program halfwords are ignored (R37). -/
def Area.dataOf : Area → Nat → Nat
  | .program _, v => v &&& 0x3FFF3FFF
  | _, v => v

/-- An initiator may not write here: the flash view, staging but for the recorder and the aisle ports, and the
cellar's own areas (R35, R383). -/
def Area.readOnly : Area → Nat → Nat → Bool
  | .flash, _, _ => true
  | .staging, init, _ => !(init == 8 || (9 ≤ init && init ≤ 11))
  | .cellar, _, p => 0x30020000 ≤ p
  | _, _, _ => false

/-- A naturally aligned write of `n` bytes (R33, R35, R383). -/
def State.memWrite (s : State) (init a n data : Nat) (env : BusEnv) : Reply × State :=
  match memArea init a with
  | none => s.fail init a 1 true
  | some (r, p) =>
    if !s.islandUp r.island then s.fail init a 5 true
    else if !r.widthOk n then s.fail init a 6 true
    else if r.readOnly init p then s.fail init a 4 true
    else if s.heldFrom init r p then (.wait, s)
    else match s.busTransfer init a env with
    | (t, false) => t.fail init a 3 true
    | (t, true) =>
      let w := r.word p
      let put (u : State) : State := (u.setBytes p n (r.dataOf data)).cancelWriteBack w (max n r.wordBytes)
      if n < r.wordBytes then
        match env.ecc with
        | .uncorrectable => t.fail init a 2 true
        | .correctable y => (.ok 0, put (t.corrected r.eccIndex init w y.toNat))
        | .clean => (.ok 0, put t)
      else (.ok 0, put t)

/-- ECC_WRITE_BACK: the corrected word at `addr` is written back, unless a write has cancelled it (R31). -/
def execEccWriteBack (addr : Nat) (s : State) : Result := .next (s.cancelWriteBack addr 1)

/-- A write of SYS.ECC_CMD (R47, R50, R60). -/
def State.eccCmd (s : State) (v : Nat) : State :=
  if v < 12 then s.clearCount SYS.base (SYS.ECC_CNT.COUNT.at (4 * (v % 12)))
  else if v = 0x1F then s.forAll 12 fun u m => u.clearCount SYS.base (SYS.ECC_CNT.COUNT.at (4 * m))
  else s

/-- ECC_CLEAR (R47). -/
def execEccClear (init : Fin 16) (value : Word) (s : State) : Result :=
  .next (s.onCommand init (SYS.base + SYS.ECC_CMD.W.off) fun t => t.eccCmd value.toNat)

end Sys2Proof.Machine
end

