-- ==== Sys2Proof/Machine/Flash.lean ====
section
/-! DEFINITION. The flash controller: descriptor queue, operations, erase suspend, journal, scrub
(R348–R378). -/

namespace Sys2Proof.Machine

/-! ### Arrays -/

def State.modFlash (s : State) (f : Flash → Flash) : State := { s with flash := f s.flash }

/-- Data address of a flash line. -/
def lineAddr (l : Nat) : Nat := 0x20000000 + 32 * l

/-- Every byte of [a, a + n) reads erased again (R349). -/
def State.eraseBytes (s : State) (a n : Nat) : State :=
  { s with mem := s.mem.filter fun c => c.1 < a || a + n ≤ c.1 }

/-- A line is erased (R349). -/
def State.lineBlank (s : State) (l : Nat) : Bool :=
  s.bytes (lineAddr l) 32 == 2 ^ 256 - 1 && (!s.flash.ones.contains l || Config.onesErased)

/-- The number of ones among the low `n` bits. -/
def onesIn (v : Nat) : Nat → Nat
  | 0 => 0
  | n + 1 => v % 2 + onesIn (v / 2) n

/-- A slot with its two parity bits computed (R350). -/
def slotWithParity (v : Nat) : Nat :=
  let w := v % 0x4000
  w + (if onesIn w 7 % 2 = 0 then 0x4000 else 0) + (if onesIn (w / 128) 7 % 2 = 0 then 0x8000 else 0)

/-- The data of a line with PAR (R355). -/
def lineWithParity (v : Nat) : Nat → Nat
  | 0 => 0
  | n + 1 => slotWithParity (v % 0x10000) + 0x10000 * lineWithParity (v / 0x10000) n

/-- Base address of an option copy (R370). -/
def optBase (k : Nat) : Nat := 0x49002000 + 0x2000 * k

/-- A copy or image of the option area is valid (R371). -/
def State.optValid (s : State) (a : Nat) : Bool :=
  s.mem32 a == 0x0B7A4896 && s.mem32 (a + 4) != 0xFFFFFFFF
    && crc32c ((List.range 0x1FFC).map fun i => (s.byte (a + i)).toNat) == s.mem32 (a + 0x1FFC)

/-- `k` 64-bit words of hall SRAM as the controller reads them (initiator 7); `env` meets the first. -/
def State.readSpan (s : State) (a : Nat) (env : BusEnv) : Nat → Reply × State
  | 0 => (.ok 0, s)
  | k + 1 =>
    match s.memRead 7 a 8 env with
    | (.ok d, t) =>
      match t.readSpan (a + 8) {} k with
      | (.ok e, u) => (.ok (d + 2 ^ 64 * e), u)
      | r => r
    | r => r

/-- Lines `i`, `i + 1`, … of 32 bytes from `a` as the controller reads them: an error answers the first failing line. -/
def State.readLines (s : State) (a : Nat) (env : BusEnv) (i : Nat) : Nat → Reply × State
  | 0 => (.ok 0, s)
  | n + 1 =>
    match s.readSpan (a + 32 * i) env 4 with
    | (.ok _, t) => t.readLines a {} (i + 1) n
    | (.err _, t) => (.err i, t)
    | (.wait, t) => (.wait, t)

/-! ### The queue (R354, R357) -/

def State.fqCount (s : State) : Nat :=
  (s.getF FLC.base FLC.FQ_HEAD.HEAD + 0x10000 - s.getF FLC.base FLC.FQ_TAIL.TAIL) % 0x10000

def State.fqSize (s : State) : Nat := 2 ^ min 8 (s.getF FLC.base FLC.FQ_CFG.SIZE)

/-- The address of the descriptor at TAIL. -/
def State.fqDesc (s : State) : Nat :=
  s.getF FLC.base FLC.FQ_BASE.BASE + 16 * (s.getF FLC.base FLC.FQ_TAIL.TAIL % s.fqSize)

/-- A write of FLC.FQ_HEAD (R354). -/
def State.fqHead (s : State) (v : Nat) : State :=
  let t := s.must (v / 0x10000 = (s.getF FLC.base FLC.FQ_HEAD.W) / 0x10000)
  if (v % 0x10000 + 0x10000 - t.getF FLC.base FLC.FQ_TAIL.TAIL) % 0x10000 ≤ t.fqSize then
    t.setF FLC.base FLC.FQ_HEAD.W v
  else
    (t.setF FLC.base FLC.FQ_HEAD.W (t.getF FLC.base FLC.FQ_HEAD.HEAD + v / 0x10000 * 0x10000)).countSat
      FLC.base FLC.CNT.HEAD_REFUSED

/-- FQ_HEAD (R354). -/
def execFqHead (init : Fin 16) (value : Word) (s : State) : Result :=
  .next (s.onCommand init (FLC.base + FLC.FQ_HEAD.W.off) fun t => t.fqHead value.toNat)

/-- Lines of a BLANK_CHECK or VERIFY (R356). -/
def FlashOp.lines (o : FlashOp) : Nat := if o.count = 0 ∧ o.op ≠ 1 then 2048 else o.count

/-- The fields and alignments that R355 and R356 allow. -/
def descOk (w0 : Nat) (o : FlashOp) : Bool :=
  let clean := bitsOf w0 15 10 = 0 && bitsOf w0 31 23 = 0
  let src := o.src % 8 = 0 && o.src < 0x400000
  let inSector := o.faddr % 32 = 0 && o.faddr < 0x1000000 && o.count ≤ 64
    && o.faddr % 0x10000 + 32 * o.count ≤ 0x10000
  let span := inSector && (o.count != 0 || o.faddr % 0x10000 = 0)
  clean && match o.op with
    | 1 => inSector && o.count != 0 && src
    | 2 => o.faddr % 0x10000 = 0 && o.faddr < 0x1000000
    | 3 => o.faddr = 0 || o.faddr = 0x800000
    | 4 => span
    | 5 => span && src
    | 6 => o.faddr ≤ 1 && src
    | 7 => o.faddr ≤ 1
    | _ => false

/-- WP bit of a sector (R353). -/
def State.protectedSector (s : State) (x : Nat) : Bool := s.bit FLC.base (FLC.WP.WP.at (4 * (x / 32))) (x % 32)

/-- The target is protected, or the option copy is the one loaded (R353, R357, R372). -/
def State.forbidden (s : State) (o : FlashOp) : Bool :=
  let x := o.faddr / 0x10000
  match o.op with
  | 1 | 2 => s.protectedSector x
  | 3 => (List.range 128).any fun i => s.protectedSector (x + i)
  | 6 | 7 => s.getF FLC.base FLC.OPT_STATUS.LOADED == o.faddr + 1
  | _ => false

/-- The judgement of R357: a code, or `none` where the operation may start. -/
def State.judgeDesc (s : State) (w0 : Nat) (o : FlashOp) : Option Nat :=
  if !descOk w0 o then some 2
  else if s.forbidden o then some 3
  else if (o.op = 1 || o.op = 4 || o.op = 5) && s.torn (o.faddr / 0x10000) then some 4
  else none

/-- DESCRIPTOR_FETCH: words 0–2 of the descriptor at TAIL are read and judged (R357, R359, R361). -/
def execDescriptorFetch (env : BusEnv) (s : State) : Result :=
  .next (if s.getB FLC.base FLC.CTRL.ENABLE && !s.getB FLC.base FLC.STATUS.HALTED && s.flash.cur.isNone
      && s.fqCount != 0 then
    let b := s.getF FLC.base FLC.FQ_BASE.BASE
    let t := s.must (b % 16 = 0 && b + 16 * s.fqSize ≤ 0x400000)
    match t.readSpan t.fqDesc env 2 with
    | (.wait, _) => s
    | (.err _, u) => (u.setB FLC.base FLC.STATUS.HALTED true).setB FLC.base FLC.STATUS.DESC_ERR true
    | (.ok d, u) =>
      let w0 := d % 2 ^ 32
      let o : FlashOp :=
        { op := bitsOf w0 7 0, irq := w0.testBit 8, par := w0.testBit 9, count := bitsOf w0 22 16
          faddr := bitsOf d 63 32, src := bitsOf d 95 64, judgedAt := u.now }
      ((u.modFlash fun f => { f with cur := some { o with result := (u.judgeDesc w0 o).map fun c => (c, 0) } })).setB
        FLC.base FLC.STATUS.BUSY true
  else s)

/-- ENABLE is written 0 on the edge on which a descriptor would start: it does not start (R361, R374). -/
def State.flcStop (s : State) : State :=
  match s.flash.cur with
  | some o =>
    if o.judgedAt = s.now && !o.started then
      (s.modFlash fun f => { f with cur := none }).setB FLC.base FLC.STATUS.BUSY false
    else s
  | none => s

/-! ### Operations -/

/-- The operation in progress, where its code is not settled and no refresh holds its bank (R369). -/
def State.flashOp (s : State) (op : Nat) : Option FlashOp :=
  match s.flash.cur with
  | some o =>
    if o.op = op && o.result.isNone
      && !(op ≤ 5 && (s.flash.refresh.map lineBank) == some (o.faddr / 0x800000)) then some o else none
  | none => none

def State.putOp (s : State) (o : FlashOp) : State := s.modFlash fun f => { f with cur := some o }

/-- The operation ends with a code and INDEX; DESCRIPTOR_COMPLETION writes it. -/
def State.endOp (s : State) (o : FlashOp) (code index : Nat) : State :=
  s.putOp { o with result := some (code, index), line := none, started := true }

/-- STATUS.BANK_BUSY of the bank of a flash offset. -/
def State.bankBusy (s : State) (offset : Nat) (v : Bool) : State :=
  s.setBit FLC.base FLC.STATUS.BANK_BUSY (offset / 0x800000) v

/-- What the SECDED code of a line finds when the controller reads it (R351): whether the line can be read. -/
def State.lineRead (s : State) (l : Nat) : EccFinding → Bool × State
  | .clean => (true, s)
  | .correctable _ => (true, s.flashCorrected l)
  | .uncorrectable => (false, s.flashUncorrectable)

/-- PROG_LINES: the next line is blank-checked, with what its read finds, its data is read, and its programming begins
(R351, R352, R356).  A line that cannot be read is not blank: an erased one has no error (R349). -/
def execProgLines (x : LineSource) (s : State) : Result :=
  .next (match s.flashOp 1 with
  | none => s
  | some o =>
    let l := o.faddr / 32 + o.idx
    if o.line.isSome then s
    else if !s.lineBlank l then (s.lineRead l x.ecc).2.endOp o 5 o.idx
    else match s.readSpan (o.src + 32 * o.idx) x.bus 4 with
    | (.wait, _) => s
    | (.err _, t) => t.endOp o 9 o.idx
    | (.ok d, t) =>
      (t.putOp { o with started := true, line := some (if o.par then lineWithParity d 16 else d) }).bankBusy o.faddr true)

/-- The reads and fetches that wait at a bank are served (R352). -/
def State.serve (s : State) (b : Nat) : State :=
  s.modFlash fun f => { f with
    waiting := f.waiting.map fun w => if lineBank w.line = b then { w with served := true } else w
    erase := if s.erasingBank b then f.erase.map fun r => { r with served := s.now } else f.erase }

/-- LINE_PROGRAM_END: the line being programmed is done and verified, with what its read finds (`x.ok`: the data agrees);
waiting reads are served; the data view drops the line (R351, R352, R356). -/
def execLineProgramEnd (x : LineOutcome) (s : State) : Result :=
  .next (match s.flash.cur with
  | none => s
  | some o =>
    match o.line with
    | none => s
    | some d =>
      let l := o.faddr / 32 + o.idx
      let (found, t) := (s.serve (lineBank l)).lineRead l x.ecc
      if x.ok && found then
        let t := t.setBytes (lineAddr l) 32 d
        let t := t.modFlash fun f => { f with
          buffers := f.buffers.filter (· != l)
          ones := if d = 2 ^ 256 - 1 then f.ones ++ [l] else f.ones }
        let o' := { o with idx := o.idx + 1, line := none }
        if o.idx + 1 = o.count then t.endOp o' 1 0 else t.putOp o'
      else t.endOp o 6 o.idx)

/-- The journal word of a sector: bit 0 open, bits [15:8] the sector, bits [63:32] the sequence number (R365; the
places of these are the model's, log entry 20). -/
def journalAddr (x : Nat) : Nat := 0x3003C000 + 8 * x

def State.journalOpen (s : State) (x : Nat) : Bool := (s.byte (journalAddr x)).getLsbD 0
def State.journalBegin (s : State) (x seq : Nat) : State :=
  s.setBytes (journalAddr x) 8 (1 + 256 * x + 2 ^ 32 * seq)
def State.journalEnd (s : State) (x : Nat) : State :=
  s.setByte (journalAddr x) ((s.byte (journalAddr x)) &&& 0xFE)

/-- An erase begins (R365): ERASE_BEGIN for its sectors, JSEQ up by one, the erase runs. -/
def State.beginErase (s : State) (o : FlashOp) (n : Nat) : State :=
  let seq := s.getF FLC.base FLC.JSEQ.SEQ
  let x := o.faddr / 0x10000
  let t := s.forAll n fun u i => u.journalBegin (x + i) seq
  let t := t.setF FLC.base FLC.JSEQ.SEQ (seq + 1)
  ((t.putOp { o with started := true }).modFlash fun f =>
    { f with erase := some { seq := seq, runFrom := s.now } }).bankBusy o.faddr true

/-- ERASE_SECTOR: the erase of one sector begins (R356, R365). -/
def execEraseSector (s : State) : Result :=
  .next (match s.flashOp 2 with
  | some o => if o.started then s else s.beginErase o 1
  | none => s)

/-- ERASE_BANK: the erase of a bank begins (R356, R365). -/
def execEraseBank (s : State) : Result :=
  .next (match s.flashOp 3 with
  | some o => if o.started then s else s.beginErase o 128
  | none => s)

/-- A line of a BLANK_CHECK or VERIFY: what its read finds. -/
def State.checkRead (s : State) (f : LineFindings) (l i : Nat) : Bool × State :=
  if f.uncorrectable.contains i then (false, s.flashUncorrectable)
  else if f.correctable.contains i then (true, s.flashCorrected l)
  else (true, s)

/-- Lines `i`, `i + 1`, … of a BLANK_CHECK, ended by the first failing one (R358). -/
def State.blankLines (s : State) (o : FlashOp) (f : LineFindings) (i : Nat) : Nat → State
  | 0 => s.endOp o 1 0
  | n + 1 =>
    let l := o.faddr / 32 + i
    match s.checkRead f l i with
    | (false, t) => t.endOp o 10 i
    | (true, t) => if s.lineBlank l then t.blankLines o f (i + 1) n else t.endOp o 5 i

/-- BLANK_CHECK (R356, R358). -/
def execBlankCheck (f : LineFindings) (s : State) : Result :=
  .next (match s.flashOp 4 with
  | some o => s.blankLines o f 0 o.lines
  | none => s)

/-- Lines of a VERIFY; `none` where a word of SRC is held by a lock and the operation waits. -/
def State.verifyLines (s : State) (o : FlashOp) (f : LineFindings) (env : BusEnv) (i : Nat) : Nat → Option State
  | 0 => some (s.endOp o 1 0)
  | n + 1 =>
    let l := o.faddr / 32 + i
    match s.checkRead f l i with
    | (false, t) => some (t.endOp o 10 i)
    | (true, t) =>
      match t.readSpan (o.src + 32 * i) env 4 with
      | (.wait, _) => none
      | (.err _, u) => some (u.endOp o 9 i)
      | (.ok d, u) => if d = u.bytes (lineAddr l) 32 then u.verifyLines o f {} (i + 1) n else some (u.endOp o 8 i)

/-- VERIFY (R356, R358). -/
def execVerify (f : LineFindings) (env : BusEnv) (s : State) : Result :=
  .next (match s.flashOp 5 with
  | some o => (s.verifyLines o f env 0 o.lines).getD s
  | none => s)

/-- OPT_WRITE: the copy and the image are checked and the programming of the copy begins (R372). -/
def execOptWrite (env : BusEnv) (s : State) : Result :=
  .next (match s.flashOp 6 with
  | none => s
  | some o =>
    if o.started then s
    else match (List.range 256).find? fun i => s.bytes (optBase o.faddr + 32 * i) 32 != 2 ^ 256 - 1 with
    | some i => s.endOp o 5 i
    | none =>
      match s.readLines o.src env 0 256 with
      | (.wait, _) => s
      | (.err i, t) => t.endOp o 9 i
      | (.ok _, t) => if t.optValid o.src then t.putOp { o with started := true } else t.endOp o 11 0)

/-- OPT_ERASE: the erase of the copy begins (R372). -/
def execOptErase (s : State) : Result :=
  .next (match s.flashOp 7 with
  | some o => s.putOp { o with started := true }
  | none => s)

/-- What the end of an erase or option operation does to the arrays and the journal (R365, R366, R372): `failing` is the
first line that fails its verify. -/
def State.finishOp (s : State) (o : FlashOp) (failing : Option Nat) : State :=
  let ok := failing.isNone
  let index := failing.getD 0 % (if o.op = 3 then 262144 else if o.op = 2 then 2048 else 256)
  let x := o.faddr / 0x10000
  let n := if o.op = 3 then 128 else 1
  match o.op with
  | 2 | 3 =>
    let t := (s.modFlash fun f => { f with erase := none }).serve (o.faddr / 0x800000)
    if ok then
      let t := t.forAll n fun u i =>
        (u.journalEnd (x + i)).setBit FLC.base (FLC.TORN_MAP.TORN.at (4 * ((x + i) / 32 % 8))) ((x + i) % 32) false
      let t := t.eraseBytes (0x20000000 + o.faddr) (0x10000 * n)
      let inside (l : Nat) : Bool := x ≤ lineSector l && lineSector l < x + n
      (t.modFlash fun f => { f with buffers := f.buffers.filter (!inside ·), ones := f.ones.filter (!inside ·) }).endOp
        o 1 0
    else
      (t.forAll n fun u i =>
        u.setBit FLC.base (FLC.TORN_MAP.TORN.at (4 * ((x + i) / 32 % 8))) ((x + i) % 32) true).endOp o 7 index
  | 6 =>
    if ok then (s.setBytes (optBase o.faddr) 0x2000 (s.bytes o.src 0x2000)).endOp o 1 0 else s.endOp o 6 index
  | _ => if ok then (s.eraseBytes (optBase o.faddr) 0x2000).endOp o 1 0 else s.endOp o 7 index

/-- Word 3 is written, TAIL advances, the queue halts on any code but OK (R358, R359). -/
def State.completeOp (s : State) (o : FlashOp) (code index : Nat) : State :=
  let t := (s.memWrite 7 (s.fqDesc + 12) 4 (code + 0x10000 * index) {}).2
  let t := (t.countWrap FLC.base FLC.FQ_TAIL.TAIL).modFlash fun f => { f with cur := none, erase := none }
  let t := t.setB FLC.base FLC.STATUS.BUSY false
  let t := if o.started && o.op ≤ 3 then t.bankBusy o.faddr false else t
  let t := t.pulseIf (o.irq && t.bit FLC.base FLC.IRQ_EN.SRC 0) 109
  if code = 1 then t else t.setB FLC.base FLC.STATUS.HALTED true

/-- DESCRIPTOR_COMPLETION: the operation ends; `failing` is the first line at which an erase or option operation does not
verify.  An erase does not end while it is suspended; a word held by a lock makes the write wait. -/
def execDescriptorCompletion (failing : Option (Fin 262144)) (s : State) : Result :=
  .next (match s.flash.cur with
  | none => s
  | some o =>
    if s.heldFrom 7 .sram s.fqDesc || s.heldFrom 7 .sram (s.fqDesc + 12) then s
    else match o.result with
    | some (c, i) => s.completeOp o c i
    | none =>
      let suspended := match s.flash.erase with
        | some r => r.suspended
        | none => false
      if o.started && (o.op = 2 || o.op = 3 || o.op = 6 || o.op = 7) && !suspended then
        let t := s.finishOp o (failing.map (·.val))
        match t.flash.cur.bind (·.result) with
        | some (c, i) => t.completeOp o c i
        | none => t
      else s)

/-! ### Commands (R359, R362, R364) -/

/-- FLC_RESUME: CMD.RESUME restarts a halted queue (R359). -/
def execFlcResume (init : Fin 16) (s : State) : Result :=
  .next (s.onCommand init (FLC.base + FLC.CMD.RESUME.off) fun t =>
    (t.setB FLC.base FLC.STATUS.HALTED false).setB FLC.base FLC.STATUS.DESC_ERR false)

/-- CMD.SUSPEND does nothing while no erase runs (R364). -/
def State.flcSuspend (s : State) : State :=
  match s.flash.erase with
  | some r => if r.suspended then s else s.askSuspend true
  | none => s

/-- The erase runs again; reads that wait ask for the next suspension (R362, R374). -/
def State.resumeRun (s : State) : State :=
  match s.flash.erase with
  | some r =>
    if r.suspended then
      let t := s.modFlash fun f => { f with
        erase := some { r with suspended := false, sw := false, asked := none, runFrom := s.now, delayed := false } }
      let t := (t.setB FLC.base FLC.STATUS.SUSP false).setB FLC.base FLC.STATUS.SUSP_SW false
      if t.flash.waiting.any fun w => !w.served && t.eraseRuns (lineBank w.line) then t.askSuspend false else t
    else s
  | none => s

/-- SUSPEND: CMD.SUSPEND (R362). -/
def execSuspend (init : Fin 16) (s : State) : Result :=
  .next (s.onCommand init (FLC.base + FLC.CMD.SUSPEND.off) State.flcSuspend)

/-- RESUME_ERASE: CMD.RESUME_ERASE (R364). -/
def execResumeErase (init : Fin 16) (s : State) : Result :=
  .next (s.onCommand init (FLC.base + FLC.CMD.RESUME_ERASE.off) State.resumeRun)

/-- CMD.CNT_CLR (R377). -/
def State.flcCntClr (s : State) : State :=
  let s := ((s.clearCount FLC.base FLC.ECC_CNT.COUNT).clearCount FLC.base FLC.CNT.UNC).clearCount FLC.base FLC.CNT.HEAD_REFUSED
  (s.clearCount FLC.base FLC.SCRUB_STAT.STUCK).clearCount FLC.base FLC.SCRUB_STAT.REFRESHED

/-- FLC_CNT_CLR. -/
def execFlcCntClr (init : Fin 16) (s : State) : Result :=
  .next (s.onCommand init (FLC.base + FLC.CMD.CNT_CLR.off) State.flcCntClr)

/-- A write of FLC.WP_SET[w] (R353); a judgement on the same edge follows it (R374). -/
def State.wpSet (s : State) (w mask : Nat) : State :=
  let t := s.setF FLC.base (FLC.WP.WP.at (4 * (w % 8))) (s.getF FLC.base (FLC.WP.WP.at (4 * w)) ||| mask)
  match t.flash.cur with
  | some o =>
    if o.judgedAt = t.now && !o.started && o.result.isNone && t.forbidden o then
      t.modFlash fun f => { f with cur := some { o with result := some (3, 0) } }
    else t
  | none => t

/-- WP_SET: protects sectors until hall reset (R353). -/
def execWpSet (init : Fin 16) (w : Fin 8) (mask : Word) (s : State) : Result :=
  .next (s.onCommand init (FLC.base + (FLC.WP_SET.MASK.at (4 * w)).off) fun t => t.wpSet w mask.toNat)

/-- A write to FLC.CMD: its commands in ascending bit order (R60). -/
def State.flcCmd (s : State) (v : Nat) : State :=
  if v / 32 ≠ 0 ∨ v.testBit 1 then s
  else
    let t := if v.testBit 0 then (s.setB FLC.base FLC.STATUS.HALTED false).setB FLC.base FLC.STATUS.DESC_ERR false else s
    let t := if v.testBit 2 then t.flcSuspend else t
    let t := if v.testBit 3 then t.resumeRun else t
    if v.testBit 4 then t.flcCntClr else t

/-! ### Reads, suspension, scrub -/

/-- FLASH_READ: a data read or fetch by an initiator of the word at a flash offset (R352). -/
def execFlashRead (init : Fin 16) (offset : BitVec 24) (fetch : Bool) (ecc : EccFinding) (s : State) : Result :=
  let a := 0x20000000 + offset.toNat / 4 * 4
  .next (if fetch then (s.flashLine init (offset.toNat / 32) true ecc).2
  else match s.memRead init a 4 { ecc := ecc } with
    | (.ok d, t) => { t with readData := t.readData.set init (BitVec.ofNat 32 d) }
    | (_, t) => t)

/-- ERASE_SUSPEND: 20 µs after the request counts, the erase is suspended and waiting reads of other sectors
are served (R362). -/
def execEraseSuspend (s : State) : Result :=
  .next (match s.flash.erase with
  | some r =>
    match r.asked with
    | some t0 =>
      if r.suspended then s
      else
        let t := s.atTime (t0 + 20 * us)
        let t := t.modFlash fun f => { f with erase := some { r with suspended := true, asked := none } }
        let t := (t.setB FLC.base FLC.STATUS.SUSP true).setB FLC.base FLC.STATUS.SUSP_SW r.sw
        match t.flash.cur with
        | some o => t.serve (o.faddr / 0x800000)
        | none => t
    | none => s
  | none => s)

/-- ERASE_RESUME: 1 µs after the last waiting read was served, an erase that a read suspended runs again (R364). -/
def execEraseResume (s : State) : Result :=
  .next (match s.flash.erase with
  | some r =>
    if r.suspended && !r.sw && !(s.flash.waiting.any fun w => !w.served) then
      let t := (s.atTime (r.served + us)).resumeRun
      t.modFlash fun f => { f with erase := f.erase.map fun q => { q with delayed := true } }
    else s
  | none => s)

/-- The scrub moves to the next line (R368). -/
def State.scrubNext (s : State) : State :=
  let l := (s.flash.scrubLine + 1) % 524288
  let t := s.modFlash fun f => { f with scrubLine := l }
  let t := t.setF FLC.base FLC.SCRUB_POS.LINE (l / 8)
  if l = 0 then t.countWrap FLC.base FLC.SCRUB_POS.PASS else t

/-- SCRUB_READ: INTERVAL µs after the last attempt the scrub reads its line, unless its bank is busy, its
sector is torn or a request waits (R368, R369). -/
def execScrubRead (ecc : EccFinding) (s : State) : Result :=
  .next (if s.getB FLC.base FLC.CTRL.SCRUB_EN && s.flash.refresh.isNone then
    let l := s.flash.scrubLine
    let b := lineBank l
    let t := s.atTime (s.flash.scrubAt + max 1 (s.getF FLC.base FLC.SCRUB_CFG.INTERVAL) * us)
    let t := t.modFlash fun f => { f with scrubAt := t.now }
    let busy := match t.flash.cur with
      | some o => o.started && o.result.isNone && (o.op ≤ 3) && o.faddr / 0x800000 = b
      | none => false
    if busy || t.torn (lineSector l) || t.flash.waiting.any (fun w => !w.served && lineBank w.line = b) then t
    else
      let t := t.scrubNext
      match ecc with
      | .clean => t
      | .correctable _ => ((t.flashCorrected l).modFlash fun f => { f with refresh := some l }).bankBusy (32 * l) true
      | .uncorrectable => t.flashUncorrectable
  else s)

/-- SCRUB_REFRESH: the line has been programmed again and is read: the error has gone, or it is stuck (R369). -/
def execScrubRefresh (gone : Bool) (s : State) : Result :=
  .next (match s.flash.refresh with
  | none => s
  | some l =>
    let t := (s.modFlash fun f => { f with refresh := none }).bankBusy (32 * l) false
    if gone then t.countSat FLC.base FLC.SCRUB_STAT.REFRESHED
    else
      let t := t.flashCorrected l
      ((t.countSat FLC.base FLC.SCRUB_STAT.STUCK).setF FLC.base FLC.SCRUB_STUCK.OFFSET (32 * l)).pulseIf
        (t.bit FLC.base FLC.IRQ_EN.SRC 6) 115)

end Sys2Proof.Machine
end

