-- ==== Sys2Proof/Machine/Peripherals.lean ====
section
/-! DEFINITION. The peripherals and the core watchdogs: GPIO, SPI, UART, CAN, I²C, quadrature decoders
(R524–R539). -/

namespace Sys2Proof.Machine

/-! ### SPI and UART (R527, R528) -/

def State.modSpi (s : State) (p : Fin 4) (f : Serial → Serial) : State := { s with spi := s.spi.set p (f s.spi[p]) }
def State.modUart (s : State) (u : Fin 2) (f : Serial → Serial) : State := { s with uart := s.uart.set u (f s.uart[u]) }

/-- The FIFO levels; BUSY while an enabled transmitter has a frame. -/
def State.spiStatus (s : State) (p : Fin 4) : State :=
  let b := SPI.base p
  ((s.setF b SPI.STATUS.TX_LVL s.spi[p].tx.length).setF b SPI.STATUS.RX_LVL s.spi[p].rx.length).setB b SPI.STATUS.BUSY
    (s.getB b SPI.CTRL.ENABLE && !s.spi[p].tx.isEmpty)

def State.uartStatus (s : State) (u : Fin 2) : State :=
  let b := UART.base u
  ((s.setF b UART.STATUS.TX_LVL s.uart[u].tx.length).setF b UART.STATUS.RX_LVL s.uart[u].rx.length).setB b
    UART.STATUS.BUSY (s.getB b UART.CTRL.ENABLE && !s.uart[u].tx.isEmpty)

/-- A write of SPI.TXDATA: one frame is queued, or refused into a full FIFO. -/
def State.spiPush (s : State) (p : Fin 4) (v : Word) : State :=
  if s.spi[p].tx.length < 16 then (s.modSpi p fun x => { x with tx := x.tx ++ [v] }).spiStatus p
  else s.countSat (SPI.base p) SPI.CNT.TX_REFUSED

def State.uartPush (s : State) (u : Fin 2) (v : Word) : State :=
  if s.uart[u].tx.length < 16 then (s.modUart u fun x => { x with tx := x.tx ++ [v &&& 0xFF] }).uartStatus u
  else s.countSat (UART.base u) UART.CNT.TX_REFUSED

/-- A read of RXDATA: the oldest frame, which an ordinary read removes; 0 if there is none (R539). -/
def State.spiPop (s : State) (p : Fin 4) (peek : Bool) : Word × State :=
  match s.spi[p].rx with
  | [] => (0, s)
  | w :: t => (w, if peek then s else (s.modSpi p fun x => { x with rx := t }).spiStatus p)

def State.uartPop (s : State) (u : Fin 2) (peek : Bool) : Word × State :=
  match s.uart[u].rx with
  | [] => (0, s)
  | w :: t => (w, if peek then s else (s.modUart u fun x => { x with rx := t }).uartStatus u)

/-- SPI_TXDATA (R527). -/
def execSpiTxdata (init : Fin 16) (p : Fin 4) (value : Word) (s : State) : Result :=
  .next (s.onCommand init (SPI.base p + SPI.TXDATA.DATA.off) fun t => t.spiPush p value)

/-- SPI_FRAME: a frame ends; what was received enters RXDATA, or is lost (R527). -/
def execSpiFrame (p : Fin 4) (miso : Word) (s : State) : Result :=
  .next (match s.spi[p].tx with
  | [] => s
  | w :: t =>
    if s.getB (SPI.base p) SPI.CTRL.ENABLE then
      let n := max 7 (s.getF (SPI.base p) SPI.CTRL.BITS) + 1
      let got := BitVec.ofNat 32 (miso.toNat % 2 ^ n)
      let s := s.modSpi p fun x => { x with tx := t, last := some (BitVec.ofNat 32 (w.toNat % 2 ^ n)) }
      let s := if s.spi[p].rx.length < 16 then s.modSpi p fun x => { x with rx := x.rx ++ [got] }
        else s.countSat (SPI.base p) SPI.CNT.RX_LOST
      s.spiStatus p
    else s)

/-- SPI_RXDATA (R539). -/
def execSpiRxdata (init : Fin 16) (p : Fin 4) (peek : Bool) (s : State) : Result :=
  .next (s.onRead init (SPI.base p + SPI.RXDATA.DATA.off) fun t => t.spiPop p peek)

/-- SPI.CMD bit 0: both counts are cleared (R58, R539). -/
def State.spiCntClr (s : State) (p : Nat) : State :=
  (s.clearCount (SPI.base p) SPI.CNT.TX_REFUSED).clearCount (SPI.base p) SPI.CNT.RX_LOST

/-- SPI_CNT_CLR (R539). -/
def execSpiCntClr (init : Fin 16) (p : Fin 4) (s : State) : Result :=
  .next (s.onCommand init (SPI.base p + SPI.CMD.W.off) fun t => t.spiCntClr p)

/-- UART_TXDATA (R528). -/
def execUartTxdata (init : Fin 16) (u : Fin 2) (value : Word) (s : State) : Result :=
  .next (s.onCommand init (UART.base u + UART.TXDATA.DATA.off) fun t => t.uartPush u value)

/-- The synchronised level of a GPIO line. -/
def State.gpioIn (s : State) (n : Nat) : Bool :=
  if n < 32 then s.bit GPIO.base GPIO.IN_LO.IN n else s.bit GPIO.base GPIO.IN_HI.IN (n - 32)

/-- UART_FRAME: a frame is received with its errors, or, with none, the oldest queued frame is sent unless CTS
holds it back (R528). -/
def execUartFrame (u : Fin 2) (received : Option UartFrame) (s : State) : Result :=
  let b := UART.base u
  .next (if s.getB b UART.CTRL.ENABLE then
    match received with
    | some f =>
      let d := if s.getB b UART.CTRL.BITS7 then f.data &&& 0x7F else f.data
      let w := BitVec.ofNat 32 (d.toNat + 0x100 * f.parityError.toNat + 0x200 * f.framingError.toNat)
      let s := if f.framingError then s.countSat b UART.CNT.FRAME else s
      let s := if f.parityError then s.countSat b UART.CNT.PARITY else s
      let s := if s.uart[u].rx.length < 16 then s.modUart u fun x => { x with rx := x.rx ++ [w] }
        else s.countSat b UART.CNT.RX_LOST
      s.uartStatus u
    | none =>
      match s.uart[u].tx with
      | [] => s
      | w :: t =>
        if s.getB b UART.CTRL.RTSCTS && s.gpioIn (19 + 4 * u) then s
        else
          let d := if s.getB b UART.CTRL.BITS7 then w &&& 0x7F else w
          (s.modUart u fun x => { x with tx := t, last := some d }).uartStatus u
  else s)

/-- RTS of a UART: high while RTSCTS is 1 and the receive FIFO holds 12 frames or more (R528). -/
def State.uartRts (s : State) (u : Fin 2) : Bool :=
  s.getB (UART.base u) UART.CTRL.RTSCTS && 12 ≤ s.uart[u].rx.length

/-- UART.CMD bit 0: the four counts are cleared (R58, R539). -/
def State.uartCntClr (s : State) (u : Nat) : State :=
  (((s.clearCount (UART.base u) UART.CNT.FRAME).clearCount (UART.base u) UART.CNT.PARITY).clearCount (UART.base u)
    UART.CNT.RX_LOST).clearCount (UART.base u) UART.CNT.TX_REFUSED

/-- UART_RXDATA (R539). -/
def execUartRxdata (init : Fin 16) (u : Fin 2) (peek : Bool) (s : State) : Result :=
  .next (s.onRead init (UART.base u + UART.RXDATA.W.off) fun t => t.uartPop u peek)

/-! ### CAN (R529–R531) -/

def State.modCan (s : State) (k : Fin 2) (f : Can → Can) : State := { s with can := s.can.set k (f s.can[k]) }

/-- The 18 words of a frame. -/
def frameWords (f : CanFrame) : List Word := f.id :: f.flags :: (f.data.take 16)

/-- RX_HEAD and RX_LVL≠0 follow the receive FIFO. -/
def State.canStatus (s : State) (k : Fin 2) : State :=
  let b := CAN.base k
  let s := s.setB b CAN.STATUS.RX_NE (!s.can[k].rx.isEmpty)
  match s.can[k].rx with
  | [] => s
  | f :: _ => (frameWords f).zipIdx.foldl (fun t w => t.setF b (CAN.RX_HEAD.DATA.at (4 * (w.2 % 18))) w.1.toNat) s

/-- The error state from the counters, as ISO 11898-1 has it: passive from 128, bus-off from 256 (R529; log entry
24). -/
def State.canErrors (s : State) (k : Fin 2) (tec rec : Nat) : State :=
  let b := CAN.base k
  let s := (s.setF b CAN.STATUS.TEC (min tec 511)).setF b CAN.STATUS.REC (min rec 255)
  if s.getF b CAN.STATUS.STATE = 2 then s
  else s.setF b CAN.STATUS.STATE (if 256 ≤ tec then 2 else if 128 ≤ tec || 128 ≤ rec then 1 else 0)

/-- Enabled filter `f` takes an identifier (R530). -/
def State.canFilter (s : State) (k : Fin 2) (id f : Nat) : Bool :=
  let b := CAN.base k
  let m := s.getF b (CAN.FILT_MASK.MASK.at (8 * f))
  s.getB b (CAN.FILT_ID.EN.at (8 * f)) && id &&& m == s.getF b (CAN.FILT_ID.ID.at (8 * f)) &&& m

/-- A frame carries one of the two USDO identifiers of the engine's node ID; CiA 1301 gives them (log entry
25). -/
def State.isUsdo (s : State) (k : Fin 2) (id : Nat) : Bool :=
  s.getB ODE.base ODE.CTRL.CAN_EN && s.getF ODE.base ODE.CTRL.CAN_SEL == k.val
    && (id == 0x580 + s.odeCanNode || id == 0x600 + s.odeCanNode)

/-- A frame has been received without error: the dictionary engine, a filter and the FIFO, or dropped (R530). -/
def State.canTake (s : State) (k : Fin 2) (f : CanFrame) : State :=
  let id := f.id.toNat % 2 ^ 29
  if s.isUsdo k id then { s with ode := { s.ode with canFrames := s.ode.canFrames ++ [f] } }
  else if (List.range 32).any (s.canFilter k id) && s.can[k].rx.length < 32 then
    (s.modCan k fun c => { c with rx := c.rx ++ [f] }).canStatus k
  else s

/-- CAN_FRAME: a frame is received, or ends in an error (R529, R530). -/
def execCanFrame (k : Fin 2) (f : CanFrame) (error : Bool) (s : State) : Result :=
  let b := CAN.base k
  .next (if s.getB b CAN.CTRL.ENABLE && s.getF b CAN.STATUS.STATE ≠ 2 then
    let tec := s.getF b CAN.STATUS.TEC
    let rec_ := s.getF b CAN.STATUS.REC
    if error then s.canErrors k tec (rec_ + 1)
    else (s.canErrors k tec (if 127 < rec_ then 127 else rec_ - 1)).canTake k f
  else s)

/-- The frame of a transmit slot; slot 8 is the engine's own (R530). -/
def State.canSlot (s : State) (k : Fin 2) (slot : Nat) : Option CanFrame :=
  if slot = 8 then
    if s.getF ODE.base ODE.CTRL.CAN_SEL = k.val then s.ode.canTx.head? else none
  else if s.bit (CAN.base k) CAN.TX_PEND.PEND slot then
    let w (i : Nat) : Word := s.rd (CAN.base k + CAN.TX_SLOT.DATA.off + 0x50 * slot + 4 * i)
    some ⟨w 0, w 1, (List.range 16).map fun i => w (i + 2)⟩
  else none

/-- The slot that wins arbitration among the device's own: the lowest identifier. -/
def State.canFirst (s : State) (k : Fin 2) (slot : Nat) : Bool :=
  match s.canSlot k slot with
  | none => false
  | some f => (List.range 9).all fun j =>
      match s.canSlot k j with
      | some g => f.id.toNat % 2 ^ 29 < g.id.toNat % 2 ^ 29 || (f.id.toNat % 2 ^ 29 == g.id.toNat % 2 ^ 29 && slot ≤ j)
      | none => true

/-- CAN_TX_DONE: a slot wins arbitration and its frame is sent, or ends in an error and stays pending (R529,
R530). -/
def execCanTxDone (k : Fin 2) (slot : Fin 9) (error : Bool) (s : State) : Result :=
  let b := CAN.base k
  .next (if s.getB b CAN.CTRL.ENABLE && !s.getB b CAN.CTRL.LISTEN && s.getF b CAN.STATUS.STATE ≠ 2 && s.canFirst k slot then
    let tec := s.getF b CAN.STATUS.TEC
    let rec_ := s.getF b CAN.STATUS.REC
    if error then s.canErrors k (tec + 8) rec_
    else
      match s.canSlot k slot with
      | none => s
      | some f =>
        let s := s.canErrors k (tec - 1) rec_
        let s := if slot.val = 8 then { s with ode := { s.ode with canTx := s.ode.canTx.tail } }
          else s.setBit b CAN.TX_PEND.PEND slot false
        let s := s.modCan k fun c => { c with last := some f }
        if s.getB b CAN.CTRL.LOOP then s.canTake k f else s
  else s)

/-- CMD bit 8: the oldest frame of the receive FIFO is removed (R539). -/
def State.canPop (s : State) (k : Fin 2) : State := (s.modCan k fun c => { c with rx := c.rx.tail }).canStatus k

/-- A write to CAN.CMD: TX_REQ bits, RX_POP, RECOVER, in ascending bit order (R60). -/
def State.canCmd (s : State) (k : Fin 2) (v : Nat) : State :=
  let b := CAN.base k
  if bitsOf v 15 9 ≠ 0 ∨ bitsOf v 31 17 ≠ 0 then s
  else
    let s := s.setF b CAN.TX_PEND.PEND (s.getF b CAN.TX_PEND.PEND ||| v % 256)
    let s := if v.testBit 8 then s.canPop k else s
    if v.testBit 16 && s.getF b CAN.STATUS.STATE = 2 then s.modCan k fun c => { c with recovering := true } else s

/-- TX_REQ (R530). -/
def execTxReq (init : Fin 16) (k : Fin 2) (slots : BitVec 8) (s : State) : Result :=
  .next (s.onCommand init (CAN.base k + CAN.CMD.W.off) fun t => t.canCmd k slots.toNat)
/-- CAN_RX_POP (R539). -/
def execCanRxPop (init : Fin 16) (k : Fin 2) (s : State) : Result :=
  .next (s.onCommand init (CAN.base k + CAN.CMD.W.off) fun t => t.canCmd k 0x100)
/-- RECOVER (R529). -/
def execRecover (init : Fin 16) (k : Fin 2) (s : State) : Result :=
  .next (s.onCommand init (CAN.base k + CAN.CMD.W.off) fun t => t.canCmd k 0x10000)

/-- BUS_OFF_RECOVERY_END: 128 occurrences of 11 recessive bits after RECOVER (R529). -/
def execBusOffRecoveryEnd (k : Fin 2) (s : State) : Result :=
  .next (if s.can[k].recovering && s.getB (CAN.base k) CAN.CTRL.ENABLE then
    ((s.modCan k fun c => { c with recovering := false }).setF (CAN.base k) CAN.STATUS.STATE 0).canErrors k 0 0
  else s)

/-! ### I²C (R532) -/

def State.modIic (s : State) (i : Fin 2) (f : Iic → Iic) : State := { s with iic := s.iic.set i (f s.iic[i]) }

def State.iicStatus (s : State) (i : Fin 2) : State := s.setF (IIC.base i) IIC.STATUS.XFER_LVL s.iic[i].queue.length

/-- A write of XFER: one operation is queued; the rules name no effect of a write into the full FIFO, which is
dropped (log entry 26). -/
def State.iicPush (s : State) (i : Fin 2) (v : Word) : State :=
  if s.iic[i].queue.length < 16 then (s.modIic i fun x => { x with queue := x.queue ++ [v &&& 0xFFF] }).iicStatus i else s

def State.iicPop (s : State) (i : Fin 2) (peek : Bool) : Word × State :=
  match s.iic[i].rx with
  | [] => (0, s)
  | b :: t => (b.setWidth 32, if peek then s else s.modIic i fun x => { x with rx := t })

/-- CMD.RESUME restarts a halted queue. -/
def State.iicResume (s : State) (i : Fin 2) : State :=
  ((s.setB (IIC.base i) IIC.STATUS.HALTED false).setB (IIC.base i) IIC.STATUS.NACKED false).setB (IIC.base i)
    IIC.STATUS.ARB_LOST false

/-- XFER (R532). -/
def execXfer (init : Fin 16) (i : Fin 2) (value : Word) (s : State) : Result :=
  .next (s.onCommand init (IIC.base i + IIC.XFER.DATA.off) fun t => t.iicPush i value)

/-- IIC_OPERATION: the oldest operation completes; a NACK to a written byte or a lost arbitration halts the
queue (R532). -/
def execIicOperation (i : Fin 2) (r : IicResult) (s : State) : Result :=
  let b := IIC.base i
  .next (match s.iic[i].queue with
  | [] => s
  | w :: t =>
    if s.getB b IIC.CTRL.ENABLE && !s.getB b IIC.STATUS.HALTED then
      let s := (s.modIic i fun x => { x with queue := t, last := some w }).iicStatus i
      if r.arbLost then (s.setB b IIC.STATUS.ARB_LOST true).setB b IIC.STATUS.HALTED true
      else if w.getLsbD 9 then s.modIic i fun x => { x with rx := x.rx ++ [r.byte] }
      else if r.nack then
        ((s.countSat b IIC.CNT.NACKS).setB b IIC.STATUS.NACKED true).setB b IIC.STATUS.HALTED true
      else s
    else s)

/-- IIC_RXDATA (R539). -/
def execIicRxdata (init : Fin 16) (i : Fin 2) (peek : Bool) (s : State) : Result :=
  .next (s.onRead init (IIC.base i + IIC.RXDATA.DATA.off) fun t => t.iicPop i peek)
/-- IIC_RESUME (R532). -/
def execIicResume (init : Fin 16) (i : Fin 2) (s : State) : Result :=
  .next (s.onCommand init (IIC.base i + IIC.CMD.W.off) fun t => t.iicResume i)
/-- IIC_CNT_CLR (R539). -/
def execIicCntClr (init : Fin 16) (i : Fin 2) (s : State) : Result :=
  .next (s.onCommand init (IIC.base i + IIC.CMD.W.off) fun t => t.clearCount (IIC.base i) IIC.CNT.NACKS)

/-! ### Quadrature decoders (R533, R534, R538) -/

def State.modQep (s : State) (d : Fin 4) (f : Qep → Qep) : State := { s with qep := s.qep.set d (f s.qep[d]) }

/-- POS takes a value on this edge; what it held before the edge is kept (R223). -/
def State.setPos (s : State) (d : Fin 4) (v : Word) : State :=
  let old := s.rd (QEP.base d + QEP.POS.POS.off)
  let s := if s.qep[d].changedAt = s.now then s else s.modQep d fun q => { q with changedAt := s.now, before := old }
  s.wr (QEP.base d + QEP.POS.POS.off) v

/-- Step of a quadrature change from (a, b) to (a', b'): +1 while A leads B, −1 while B leads A, 0 where both
change (PRESUMED, log entry 27). -/
def quadStep (a b a' b' : Bool) : Int :=
  if a ≠ a' ∧ b ≠ b' then 0
  else if a ≠ a' then (if a' ≠ b then 1 else -1)
  else if b ≠ b' then (if b' = a then 1 else -1)
  else 0

/-- The filter of a decoder's input passes the level of its ball on this edge, clocked at 400 MHz with CTRL.FILT
(R342, R533). -/
def State.qepPasses (s : State) (d : Fin 4) (x : BallLevel) : Bool :=
  s.passes x ac (s.getF (QEP.base d) QEP.CTRL.FILT) 0

/-- QEP_COUNT_EDGE: a level of A or B that its filter passes counts as MODE selects (R533). -/
def execQepCountEdge (d : Fin 4) (a b : BallLevel) (s : State) : Result :=
  let base := QEP.base d
  let q := s.qep[d]
  let a := if s.qepPasses d a then a.level else q.a
  let b := if s.qepPasses d b then b.level else q.b
  let s0 := s.modQep d fun x => { x with a := a, b := b }
  .next (if s.getB base QEP.CTRL.ENABLE then
    let mode := s.getF base QEP.CTRL.MODE
    let riseA := a && !q.a
    let riseB := b && !q.b
    let step : Int := match mode with
      | 0 => quadStep q.a q.b a b
      | 1 => if riseA then (if b then -1 else 1) else 0
      | 2 => (if riseA then 1 else 0) - (if riseB then 1 else 0)
      | _ => 0
    let step := if s.getB base QEP.CTRL.INV_DIR then -step else step
    let s := if mode = 0 ∧ a ≠ q.a ∧ b ≠ q.b then s0.countSat base QEP.CNT.PHASE_ERR else s0
    if step = 0 ∨ q.zAt = some s.now then s
    else
      let pos := s.rd (base + QEP.POS.POS.off)
      let s := (s.modQep d fun x => { x with counted := some (s.now, pos) }).setB base QEP.STATUS.DIR (decide (step < 0))
      s.setPos d (BitVec.ofInt 32 (pos.toNat + step))
  else s0)

/-- Z_EDGE: a filtered rising Z edge loads ZPOS and clears POS as ZMODE selects; a count on the same edge is lost
(R534, R538). -/
def execZEdge (z : ZLine) (s : State) : Result :=
  let d := z.d
  let base := QEP.base d
  let mode := s.getF base QEP.CTRL.ZMODE
  let acts := z.line.level && s.qepPasses d z.line && s.getB base QEP.CTRL.ENABLE && (mode = 1 || (mode = 2 && s.getB base QEP.STATUS.Z_ARMED))
  .next (if acts then
    let v := match s.qep[d].counted with
      | some (t, p) => if t = s.now then p else s.rd (base + QEP.POS.POS.off)
      | none => s.rd (base + QEP.POS.POS.off)
    let s := (s.wr (base + QEP.ZPOS.POS.off) v).setPos d 0
    let s := if mode = 2 then s.setB base QEP.STATUS.Z_ARMED false else s
    (s.modQep d fun x => { x with zAt := some s.now }).pulse (153 + d)
  else s)

/-- A write to QEP.CMD. -/
def State.qepCmd (s : State) (d : Fin 4) (v : Nat) : State :=
  let b := QEP.base d
  if v / 4 ≠ 0 then s
  else
    let s := if v.testBit 0 then s.setB b QEP.STATUS.Z_ARMED true else s
    if v.testBit 1 then s.clearCount b QEP.CNT.PHASE_ERR else s

/-- ARM_Z (R534). -/
def execArmZ (init : Fin 16) (d : Fin 4) (s : State) : Result :=
  .next (s.onCommand init (QEP.base d + QEP.CMD.W.off) fun t => t.qepCmd d 1)
/-- QEP_CNT_CLR (R539). -/
def execQepCntClr (init : Fin 16) (d : Fin 4) (s : State) : Result :=
  .next (s.onCommand init (QEP.base d + QEP.CMD.W.off) fun t => t.qepCmd d 2)
/-- POS: a write of QEP.POS (R538). -/
def execPos (init : Fin 16) (d : Fin 4) (value : Word) (s : State) : Result :=
  .next (s.onCommand init (QEP.base d + QEP.POS.POS.off) fun t =>
    (t.modQep d fun x => { x with counted := none }).setPos d value)

/-! ### GPIO (R524–R526) -/

/-- The block whose signal a line carries with FUNC = 1 (R524). -/
def gpioSignal (n : Nat) : Option Nat :=
  if n < 16 then some (SPI.base (n / 4))
  else if n < 24 then some (UART.base ((n - 16) / 4))
  else if n < 28 then some (CAN.base ((n - 24) / 2))
  else if n < 32 then some (IIC.base ((n - 28) / 2))
  else if n < 44 then some (QEP.base ((n - 32) / 3))
  else if n < 50 then some (SPI.base ((n - 44) / 3))
  else none

/-- Bit `n` of a pair of GPIO registers. -/
def State.gpioBit (s : State) (lo hi : Fld) (n : Nat) : Bool :=
  if n < 32 then s.bit GPIO.base lo n else s.bit GPIO.base hi (n - 32)

/-- Line `n` is its peripheral's: FUNC is 1 and the peripheral's ENABLE is 1 (R524). -/
def State.gpioPeripheral (s : State) (n : Nat) : Bool :=
  s.gpioBit GPIO.FUNC_LO.FUNC GPIO.FUNC_HI.FUNC n && (gpioSignal n).any fun b => (s.rd b).getLsbD 0

/-- The level the GPIO block drives on the ball of line `n`; none where the ball is unpowered or an input, or its
peripheral's (R524). Through a hall reset the latched safe level and output enable of the option copy loaded last
stand there, from power-on to the first load nothing (R391, R547). -/
def State.gpioDriven (s : State) (n : Nat) : Option Bool :=
  if s.cellar.railsLow.getLsbD 2 || !s.cellar.power then none
  else if s.cellar.phase != .up then
    if !s.cellar.fresh && s.options.gpioOe.getLsbD n then some (s.options.gpioLvl.getLsbD n) else none
  else if !s.gpioPeripheral n && s.gpioBit GPIO.OE_LO.OE GPIO.OE_HI.OE n then
    some (s.gpioBit GPIO.OUT_LO.OUT GPIO.OUT_HI.OUT n)
  else none

/-- OUT_SET and OUT_CLR change the bits written as 1 (R525). -/
def State.gpioOut (s : State) (hi set : Bool) (mask : Nat) : State :=
  let f := if hi then GPIO.OUT_HI.OUT else GPIO.OUT_LO.OUT
  let v := s.getF GPIO.base f
  s.setF GPIO.base f (if set then v ||| mask else v - (v &&& mask))

/-- OUT_SET (R525). -/
def execOutSet (init : Fin 16) (hi : Bool) (mask : Word) (s : State) : Result :=
  .next (s.onCommand init (GPIO.base + (if hi then GPIO.OUT_SET_HI.MASK.off else GPIO.OUT_SET_LO.MASK.off)) fun t =>
    t.gpioOut hi true mask.toNat)
/-- OUT_CLR (R525). -/
def execOutClr (init : Fin 16) (hi : Bool) (mask : Word) (s : State) : Result :=
  .next (s.onCommand init (GPIO.base + (if hi then GPIO.OUT_CLR_HI.MASK.off else GPIO.OUT_CLR_LO.MASK.off)) fun t =>
    t.gpioOut hi false mask.toNat)

/-- A watched line's level reaches source 157 + k by its MODE (R342, R526). -/
def State.gpioWatch (s : State) (line : Nat) (was level : Bool) (k : Nat) : State :=
  if s.getF GPIO.base (GPIO.IRQ_CFG.LINE.at (4 * k)) = line then
    match s.getF GPIO.base (GPIO.IRQ_CFG.MODE.at (4 * k)) with
    | 0 => if level && !was then s.pend (157 + k) else s
    | 1 => if !level && was then s.pend (157 + k) else s
    | 2 => if level != was then s.pend (157 + k) else s
    | 3 => s.setLine (157 + k) level
    | 4 => s.setLine (157 + k) (!level)
    | _ => s
  else s

/-- GPIO_IRQ_EDGE: the ball of a line has a level, which its two-stage synchroniser shows without a filter; the sources
that watch the line follow (R526, R578). -/
def execGpioIrqEdge (line : Fin 64) (x : BallLevel) (s : State) : Result :=
  .next (if (shownFor x.since ac).isNone then s
  else
    let was := s.gpioIn line
    let s := if line.val < 32 then s.setBit GPIO.base GPIO.IN_LO.IN line x.level
      else s.setBit GPIO.base GPIO.IN_HI.IN (line.val - 32) x.level
    s.forAll 8 fun t k => t.gpioWatch line was x.level k)

/-- A write of IRQ_CFG[k]: a line that no longer makes a level source reads 0, a level mode shows its level
(R342, R526). -/
def State.gpioIrqCfg (s : State) (k : Nat) : State :=
  let v := s.gpioIn (s.getF GPIO.base (GPIO.IRQ_CFG.LINE.at (4 * k)))
  match s.getF GPIO.base (GPIO.IRQ_CFG.MODE.at (4 * k)) with
  | 3 => s.setLine (157 + k) v
  | 4 => s.setLine (157 + k) (!v)
  | _ => s.setSrcBit CRI.LINE.BITS (157 + k % 8) false

/-! ### The watchdogs' time (R406, R517, R535) -/

/-- Core `n` is in MON, or in a handler entered from it (R507, R517). -/
def State.monInUse (s : State) (n : Nat) : Bool := (s.coreAt n).inUse.getLsbD 9

/-- STATUS.FROZEN of watchdog `n`: DBGFRZ of a core's while its core is in MON (R517), the hall watchdog's under
R406. -/
def State.wdtFrozen (s : State) (n : Nat) : Bool :=
  if n < 4 then s.getB (WDT.base n) WDT.CTRL.DBGFRZ && s.monInUse n && s.coreUp n else s.hallFrozen

/-- WATCHDOG_TICK: one count of the hall watchdog (R406, R408). -/
def execWatchdogTick (s : State) : Result :=
  let s := s.wdtCount 4
  .next (s.frozenUpdate.wdtTick 4 s.hallFrozen fun t => t.celPulse 177)

/-- CORE_WATCHDOG_TICK: one count of a core watchdog; source 165 + n pulses as its window opens (R517, R535). -/
def execCoreWatchdogTick (n : Fin 4) (s : State) : Result :=
  let s := s.wdtCount n.castSucc
  .next (s.wdtTick n.castSucc (s.wdtFrozen n) fun t => t.pulse (165 + n))

/-- CORE_WATCHDOG_EXPIRY: the core is reset with cause 2, and ledger entry 0x03 is queued (R535). -/
def execCoreWatchdogExpiry (n : Fin 4) (s : State) : Result :=
  .next (match s.cellar.expiry[n.castSucc] with
  | none => s
  | some _ =>
    let t := { s with cellar := { s.cellar with expiry := s.cellar.expiry.set n.castSucc none } }
    t.startCoreReset n 2)

end Sys2Proof.Machine
end

