-- ==== Sys2Proof/Machine/Restart.lean ====
section
/-! DEFINITION. Resets of single islands, the reset commands, shutdown, the debug domain's power (R382, R385–R389,
R395). -/

namespace Sys2Proof.Machine

/-! ### What a reset of one island does to its blocks (R385) -/

/-- The shadows of the 64-bit registers from `lo` up to `hi` are 0 again (R62). -/
def State.dropShadows (s : State) (lo hi : Nat) : State :=
  { s with shadows := s.shadows.filter fun (x : Shadow) => !(lo ≤ x.addr && x.addr < hi) }

/-- The blocks of aisle `a` take their reset state; what stands outside the island, the arming state and the groups
that act on it, stays. -/
def State.resetAisle (s : State) (a : Nat) : State :=
  let s := s.forAll 16 fun t j => t.setHeld (16 * a + j) false
  let s := (s.clearRegs (AIS.base a) (AIS.base a + 0x100000)).dropShadows (AIS.base a) (AIS.base a + 0x100000)
  let s := s.modAisle a fun x => { arm := x.arm, armQueue := x.armQueue, groups := x.groups }
  let s := s.forAll 4 fun t j => ((t.modCar (4 * a + j) fun _ => {}).modCnv (4 * a + j) fun _ => {}).modEng (4 * a + j) fun _ => {}
  let s := (s.forAll 16 fun t j => t.modLeg (16 * a + j) fun _ => {}).forAll 8 fun t j => t.modCmp (8 * a + j) fun _ => {}
  let s := s.anyHeld
  let s := s.forAll 8 fun t i => if t.pinAisle i = a then t.srcFall i else t
  (s.forAll 8 fun t j => t.srcFall (8 + 8 * a + j)).forAll 4 fun t j => t.srcFall (32 + 4 * a + j)

/-- The ring island takes its reset state: requests that waited for a response get none (R448), market time starts
anew, the reference is XIN, no market trip comes in. -/
def State.resetRing (s : State) : State :=
  let asked (v : Nat) : List Nat := ((s.ring.requests.filter fun q => q.svc == v).map (·.seq))
    ++ (((s.ring.odeOut ++ s.ring.monOut).filter fun m => m.kind == 0 && m.svc == v).map (·.seq))
  let s := (asked 1).foldl (fun t q => t.odReply q none) s
  let s := if (asked 2).isEmpty then s
    else (s.setB DBG.base DBG.MCMD_STATUS.TIMEOUT true).setB DBG.base DBG.MCMD_STATUS.BUSY false
  let s := (s.clearRegs KNR.base (KNR.base + 0x1000000)).dropShadows KNR.base (KNR.base + 0x1000000)
  let s := ({ s with ring := {}, clock := { since := s.now } }).referenceToXin
  s.marketIn false

/-- The attic island takes its reset state. -/
def State.resetAttic (s : State) : State :=
  let s := (s.clearRegs ATC.base (ATC.base + 0x1000000)).dropShadows ATC.base (ATC.base + 0x1000000)
  ({ s with attic := {} }).perstUpdate

/-- An island reset starts, with its code of RST_CMD (R388, R389). -/
def State.startIslandReset (s : State) (code : Nat) : State :=
  let s := s.ledger 0x04 code 0 0
  let s := { s with cellar := { s.cellar with islReset := (s.cellar.islReset.filter fun (p : Nat × Nat) => p.1 != code) ++ [(code, s.now + us)] } }
  let down (i : Island) : State := (s.setIsland i false).loseAccesses i
  if code < 3 then (down (.aisle (Fin.ofNat 3 code))).resetAisle code
  else if code = 8 then (down .ring).resetRing
  else (down .attic).resetAttic

/-! ### Commands -/

/-- RST_CMD action 1 (R389). -/
def State.hallResetCmd (s : State) : State := (s.disarm 1).scheduleReset 5 (s.now + 2 * us)

/-- RST_CMD action 2: a core of CORE_EN is reset with cause 3 (R387). -/
def State.coreResetCmd (s : State) (c : Nat) : State :=
  if c < 4 && s.options.coreEn.getLsbD c && s.cellar.phase == .up then s.startCoreReset c 3 else s

/-- RST_CMD action 3 (R388): an aisle of AISLE_EN, the ring or the attic; an aisle is refused while armed. -/
def State.islandResetCmd (s : State) (code : Nat) : State :=
  if code < 3 then
    if s.armed then s.setB CEL.base CEL.STATUS.RST_REFUSED true
    else if s.options.aisleEn.getLsbD code then s.startIslandReset code else s
  else if code = 8 ∨ code = 9 then s.startIslandReset code
  else s

/-- A write of RST_CMD: the key, no bit marked "write as 0", and an assigned action (R60, R389). -/
def State.rstCmd (s : State) (v : Nat) : State :=
  if bitsOf v 31 16 ≠ 0xB007 ∨ bitsOf v 15 12 ≠ 0 ∨ bitsOf v 7 2 ≠ 0 then s
  else match bitsOf v 1 0 with
  | 1 => s.hallResetCmd
  | 2 => s.coreResetCmd (bitsOf v 11 8)
  | 3 => s.islandResetCmd (bitsOf v 11 8)
  | _ => s

/-- CMD.SHUTDOWN (R392, R395) disarms the hall, asks for a snapshot and, when no capture runs any more, holds the hall
in hall reset. While a capture runs, the snapshot alone is refused; with CTRL.ENABLE 0 none is taken. -/
def State.shutdown (s : State) : State :=
  let s := s.disarm 6
  let s := if s.getB CEL.base CEL.CTRL.ENABLE then s.requestSnap 2 false else s
  match s.cellar.snap with
  | some _ => { s with cellar := { s.cellar with shutPending := true } }
  | none => { s.scheduleReset 5 s.now with cellar := { (s.scheduleReset 5 s.now).cellar with shutHold := true } }

/-- A write of CEL.CMD: its commands in ascending bit order (R60). -/
def State.celCmd (s : State) (v : Nat) : State :=
  if v / 32 ≠ 0 then s
  else
    let s := if v.testBit 0 then s.requestSnap 1 false else s
    let s := if v.testBit 1 then s.requestSnap 4 true else s
    let s := if v.testBit 2 then s.shutdown else s
    let s := if v.testBit 3 then s.clearCount CEL.base CEL.LEDGER_HEAD.COUNT else s
    if v.testBit 4 then s.ledgerCntClr else s

/-- HALL_RESET_CMD (R389). -/
def execHallResetCmd (init : Fin 16) (s : State) : Result :=
  .next (s.onCommand init (CEL.base + CEL.RST_CMD.W.off) fun t => t.rstCmd 0xB0070001)
/-- CORE_RESET_CMD (R387). -/
def execCoreResetCmd (init : Fin 16) (target : Fin 16) (s : State) : Result :=
  .next (s.onCommand init (CEL.base + CEL.RST_CMD.W.off) fun t => t.rstCmd (0xB0070002 + 0x100 * target))
/-- ISLAND_RESET_CMD (R388). -/
def execIslandResetCmd (init : Fin 16) (target : Fin 16) (s : State) : Result :=
  .next (s.onCommand init (CEL.base + CEL.RST_CMD.W.off) fun t => t.rstCmd (0xB0070003 + 0x100 * target))
/-- SHUTDOWN (R395). -/
def execShutdown (init : Fin 16) (s : State) : Result :=
  .next (s.onCommand init (CEL.base + CEL.CMD.SHUTDOWN.off) State.shutdown)

/-! ### The debug domain (R382, R385) -/

/-- The debug domain is powered except while DBG_OFF is 1 and TRST_N is low; switched on, it is held in debug
reset for 10 µs. -/
def State.debugPower (s : State) : State :=
  let on := !(s.getB CEL.base CEL.CTRL.DBG_OFF && !s.cellar.trstN)
  let was := s.getB CEL.base CEL.STATUS.DBG_PWR
  if on == was then s
  else
    let s := ((s.setB CEL.base CEL.STATUS.DBG_PWR on).setIsland .dbg false).debugReset
    { s with dbg := { s.dbg with upAt := s.now + 10 * us } }

/-- DEBUG_RESET: TRST_N goes low: the debug island is in reset while it stays low (R385). -/
def execDebugReset (s : State) : Result :=
  let s := { s with cellar := { s.cellar with trstN := false } }
  .next ((s.debugReset.setIsland .dbg false).debugPower)

/-- DBG_POWER_ON: the debug domain, with TRST_N at a level, comes out of its debug reset: 10 µs after it was switched
on, or when TRST_N goes high (R382). -/
def execDbgPowerOn (trstN : Bool) (s : State) : Result :=
  let s := ({ s with cellar := { s.cellar with trstN := trstN } }).debugPower
  .next (if trstN && !s.islandUp .dbg then
    (s.atTime s.dbg.upAt).setIsland .dbg true
  else s)

end Sys2Proof.Machine
end

