-- ==== Sys2Proof/Machine/Bus.lean ====
section
/-! DEFINITION. The register region as initiators see it: reads with their live fields, peek and side effects,
writes with enable gating, 64-bit shadows and every effect a write has (R20, R26, R28, R34–R36, R52–R74), and the
one access that chooses between memory and registers. -/

namespace Sys2Proof.Machine

/-! ### The fields of a row -/

/-- The bits of a register whose field satisfies `p`. -/
def RegRow.mask (r : RegRow) (p : FieldRow → Bool) : Nat :=
  r.rows.foldl (fun n f => if p f then n + (2 ^ (f.hi + 1) - 2 ^ f.lo) else n) 0

/-- Bits that a read shows; WO, CMD and "write as 0" fields read 0 (R20, R59). -/
def RegRow.shown (r : RegRow) : Nat := r.mask fun f => f.acc == .rw || f.acc == .ro || f.acc == .rwd || f.acc == .sc || f.acc == .rs

/-- Bits that a write takes at any time; WO fields are held though they read 0. -/
def RegRow.open (r : RegRow) : Nat := r.mask fun f => f.acc == .rw || f.acc == .wo

/-- RWD bits (R20). -/
def RegRow.gated (r : RegRow) : Nat := r.mask fun f => f.acc == .rwd

/-- Reserved bits that a write must leave as they were read (R61). -/
def RegRow.kept (r : RegRow) : Nat := r.mask fun f => f.reserved && (f.acc == .rw || f.acc == .rwd)

/-! ### 64-bit registers (R62–R66) -/

/-- The offset of the low word of the 64-bit register that offset `p.off` belongs to, and whether it is the high
word. -/
def Place.pair (p : Place) : Option (Nat × Bool) :=
  let one (lo : Nat) : Option (Nat × Bool) :=
    if p.off = lo then some (lo, false) else if p.off = lo + 4 then some (lo, true) else none
  let row (lo n stride : Nat) : Option (Nat × Bool) :=
    if lo ≤ p.off ∧ p.off < lo + n * stride then one (lo + (p.off - lo) / stride * stride) else none
  match p.blk with
  | .sys => one 0x8
  | .trp => (one 0x28).orElse fun _ => row 0x240 16 8
  | .eng => (row 0x180 4 8).orElse fun _ => row 0x210 16 0x20
  | .cel => one 0x30
  | .knr => ((one 0x20).orElse fun _ => one 0x38).orElse fun _ => one 0x40
  | .ode => (one 0x10).orElse fun _ => one 0x18
  | .atc => (((one 0x10).orElse fun _ => one 0x28).orElse fun _ => one 0x50).orElse fun _ => one 0x60
  | _ => none

/-- The shadows of initiator `init` for the 64-bit register at `a`. -/
def State.shadow (s : State) (init a : Nat) : Shadow :=
  (s.shadows.find? fun x => x.init == init && x.addr == a).getD { init := init, addr := a }

def State.setShadow (s : State) (x : Shadow) : State :=
  { s with shadows := s.shadows.filter (fun y => !(y.init == x.init && y.addr == x.addr)) ++ [x] }

/-! ### Reads -/

/-- A register word in which field `f` shows `v`. -/
def shows (w : Nat) (f : Fld) (v : Nat) : Nat := setBitsOf w f.hi f.lo v
def showsB (w : Nat) (f : Fld) (v : Bool) : Nat := shows w f v.toNat

/-- STL.SUMMARY (R241). -/
def State.summary (s : State) (k : Nat) : Nat :=
  let legs := (List.range 4).foldl (fun n j => n + 2 ^ (4 + j) * s.getF (LEG.base (4 * k + j)) LEG.STATUS.RUN) 0
  legs + 8 * (s.engHealthy k).toNat + 4 * (s.engBusy k).toNat + 2 * s.getF (CNV.base k) CNV.STATUS.BUSY
    + (s.tripReq k).toNat

/-- The word that a register shows to `init` now: the word it holds, with the fields that follow their cause from
edge to edge (R56). -/
def State.liveWord (s : State) (init : Nat) (p : Place) : Nat :=
  let a := p.blk.base p.inst + p.off
  let w := match rowAt p.blk.map p.off with
    | some r => (s.rd a).toNat &&& r.shown
    | none => 0
  match p.blk, p.off with
  | .sys, 0x8 => Config.uid.toNat % 2 ^ 32
  | .sys, 0xC => Config.uid.toNat / 2 ^ 32
  | .sys, 0x10 => init
  | .ais, o => if 0x60 ≤ o ∧ o < 0x70 then s.xferDist (4 * p.inst + (o - 0x60) / 4) else w
  | .car, 0x4 => shows w CAR.STATUS.COUNT (s.carCount p.inst)
  | .stl, 0x104 => s.summary p.inst
  | .cmp, 0x4 =>
    let t := (s.rd (CMP.base p.inst + CMP.THR.W.off)).toNat
    showsB w CMP.STATUS.THR_INV (bitsOf t 27 16 < bitsOf t 11 0)
  | .eng, 0x4 =>
    let x := (s.engAt p.inst).run
    let again := match x with
      | some r => r.first.isSome
      | none => false
    showsB (showsB (showsB (showsB w ENG.STATUS.BUSY (s.engBusy p.inst)) ENG.STATUS.RERUN again) ENG.STATUS.FROZEN
      (s.getB (STL.base p.inst) STL.DBG.FREEZE)) ENG.STATUS.HEALTHY (s.engHealthy p.inst)
  | .eng, 0x10 => showsB w ENG.FAULT.TRIP_REQ (s.tripReq p.inst)
  | .eng, 0x3C => (s.ncoAngle p.inst).toNat
  | .cri, o =>
    if 0x1080 ≤ o ∧ o < 0x1480 ∧ (o - 0x1080) % 0x100 = 0 then s.criReq ((o - 0x1080) / 0x100) else w
  | .flc, o => if 0x2000 ≤ o ∧ o < 0x6000 then s.mem32 a else w
  | .wdt, 0x4 => showsB w WDT.STATUS.FROZEN (s.wdtFrozen p.inst)
  | .cel, 0x30 => s.rtc % 2 ^ 32
  | .cel, 0x34 => s.rtc / 2 ^ 32 % 2 ^ 32
  | .knr, 0x20 => s.marketNs % 2 ^ 32
  | .knr, 0x24 => s.marketNs / 2 ^ 32 % 2 ^ 32
  | .dbg, 0x4 => showsB (shows w DBG.STATUS.HALTED s.haltedMask) DBG.STATUS.BSCAN_LIVE s.bscanLive
  | .dbg, o =>
    if 0x108 ≤ o ∧ o < 0x300 ∧ (o - 0x108) % 0x80 = 0 then
      let c := (o - 0x100) / 0x80
      let f (g : Fld) : Fld := { g with off := o }
      showsB (showsB (showsB (showsB w (f DBG.C_STATUS.HALTED) (s.halted c)) (f DBG.C_STATUS.REQ) (s.coreAt c).monReq)
        (f DBG.C_STATUS.STEPPING) (s.coreAt c).stepping) (f DBG.C_STATUS.CMD_REFUSED) (s.cmdRefused c)
    else w
  | _, _ => w

/-- A read of a register by `init`: its value, and the state after the side effect of an RS register or of a
shadow (R20, R63, R67). -/
def State.readReg (s : State) (init : Nat) (p : Place) (peek : Bool) : Word × State :=
  match p.pair with
  | some (lo, high) =>
    let a := p.blk.base p.inst + lo
    let x := s.shadow init a
    if high then (x.read, s)
    else
      (BitVec.ofNat 32 (s.liveWord init p),
        s.setShadow { x with read := BitVec.ofNat 32 (s.liveWord init { p with off := lo + 4 }) })
  | none =>
    match p.blk with
    | .cri =>
      if 0x1000 ≤ p.off ∧ p.off % 16 = 0 ∧ p.off % 0x100 < 0x80 then
        s.criClaim init ((p.off - 0x1000) / 0x100) (p.off % 0x100 / 16) peek
      else (BitVec.ofNat 32 (s.liveWord init p), s)
    | .spi => if p.off = 0x10 then s.spiPop (Fin.ofNat 4 p.inst) peek else (BitVec.ofNat 32 (s.liveWord init p), s)
    | .uart => if p.off = 0x10 then s.uartPop (Fin.ofNat 2 p.inst) peek else (BitVec.ofNat 32 (s.liveWord init p), s)
    | .iic => if p.off = 0x10 then s.iicPop (Fin.ofNat 2 p.inst) peek else (BitVec.ofNat 32 (s.liveWord init p), s)
    | _ => (BitVec.ofNat 32 (s.liveWord init p), s)

/-! ### What a write sets going -/

/-- Sources that a change of their blanking or polarity made inactive leave the trip unit; comparators are gated
anew; the groups hold the legs they now name (R141, R187, R192, R199). -/
def State.tripConfigured (s : State) : State :=
  let s := s.forAll 24 State.cmpUpdate
  ((s.forAll 46 State.srcFall).tripUpdate).forAll 48 State.legGroups

/-- ENABLE of the block, before and after. -/
def rises (old new : Nat) : Bool := !old.testBit 0 && new.testBit 0
def falls (old new : Nat) : Bool := old.testBit 0 && !new.testBit 0

/-- What follows from a register of block `p.blk` having taken a new word. -/
def State.afterWrite (s : State) (p : Place) (old new : Nat) : State :=
  let i := p.inst
  match p.blk, p.off with
  | .ais, o =>
    if o = 0 then
      let s := if rises old new then s.aisEnable i else if falls old new then (s.aisEnable i).blankDisable i else s
      s.aisChanged i
    else if o < 0x60 ∧ 0x10 ≤ o then s.aisChanged i
    else s
  | .car, 0x0 => if rises old new then s.carEnable i else if falls old new then s.carDisable i else s
  | .car, 0x8 | .car, 0x10 | .car, 0x14 => s.carWritten i
  | .car, 0xC => s.phaseWritten i
  | .cnv, o =>
    let s := s.calOffer i ((o = 0 && (old ^^^ new) &&& 0xFF18 != 0) || (0xA0 ≤ o && old != new))
    if o = 0 then
      let s := s.newFirst i old new
      let s := if rises old new then s.cnvEnable i else if falls old new then s.cnvDisable i else s.cnvStatus i
      if !old.testBit 5 && new.testBit 5 && !rises old new then s.bgStart i else s
    else if o = 0xC then s.pinsWritten i old new
    else s.cnvStatus i
  | .cmp, 0x0 =>
    (if rises old new then s.cmpEnable i else if falls old new then s.cmpDisable i else s).cmpUpdate i
  | .cmp, 0xC => s.thrWritten i old
  | .leg, 0x0 => s.legRefresh i
  | .trp, _ => s.tripConfigured
  | .eng, 0x0 => if falls old new then s.engAbandon i else s
  | .flc, 0x0 =>
    let s := if falls old new then s.flcStop else s
    if !old.testBit 1 && new.testBit 1 then s.modFlash fun f => { f with scrubAt := s.now } else s
  | .cel, 0x0 => s.debugPower
  | .wdt, 0x0 => (if rises old new then s.wdtReload i else s.wdtStatus i).frozenUpdate
  | .wdt, 0x8 | .wdt, 0xC => s.wdtStatus i
  | .knr, o => if o = 0 then s.ringEnabled else if 0x60 ≤ o ∧ o < 0x70 then s.absUpdate
    else if 0x400 ≤ o ∧ o < 0x500 then s.pdTxWritten else s
  | .ode, 0x0 => if rises old new then s.openNegotiation else s
  | .atc, 0x0 =>
    let s := if rises old new then s.atticEnabled true else if falls old new then s.atticEnabled false else s
    if !old.testBit 1 && new.testBit 1 then s.streamEnabled else s
  | .atc, _ => s.atcStatus
  | .spi, 0x0 => s.spiStatus (Fin.ofNat 4 i)
  | .uart, 0x0 => s.uartStatus (Fin.ofNat 2 i)
  | .gpio, o => if 0x40 ≤ o ∧ o < 0x60 then s.gpioIrqCfg ((o - 0x40) / 4) else s
  | _, _ => s

/-! ### Plain writes (R52–R54, R61, R65) -/

/-- A word is put into a register: RW fields at any time; RWD fields unless ENABLE is 1 and stays 1, in which case a
change sets WIGN; ENABLE going to 0 clears WIGN. -/
def State.putReg (s : State) (p : Place) (v : Nat) : State :=
  match rowAt p.blk.map p.off with
  | none => s
  | some r =>
    let b := p.blk.base p.inst
    let a := b + p.off
    let old := (s.rd a).toNat
    let on := p.blk.hasEnable && (s.rd b).getLsbD 0
    let shut := on && !(p.off = 0 && !v.testBit 0)
    let take := if shut then r.open else r.open ||| r.gated
    let new := (old &&& (0xFFFFFFFF - take)) ||| (v &&& take)
    let s := s.must ((old ^^^ v) &&& r.kept == 0)
    let s := s.wr a (BitVec.ofNat 32 new)
    let s := if shut && (old ^^^ v) &&& r.gated != 0 then s.wr (b + 4) (s.rd (b + 4) ||| 1)
      else if p.blk.hasEnable && p.off = 0 && falls old v then s.wr (b + 4) (s.rd (b + 4) &&& 0xFFFFFFFE)
      else s
    s.afterWrite p old new

/-! ### Writes of several initiators on one edge (R71) -/

/-- The address of the register that a place names. -/
def Place.addr (p : Place) : Nat := p.blk.base p.inst + p.off

/-- WIGN of the block of a place. -/
def State.wignAt (s : State) (p : Place) : Bool := (s.rd (p.blk.base p.inst + 4)).getLsbD 0

/-- A write of this edge is undone: register and WIGN hold what they held before it. -/
def State.undoWrite (s : State) (w : EdgeWrite) : State :=
  let s := s.wr w.place.addr w.old
  if w.place.blk.hasEnable then
    let a := w.place.blk.base w.place.inst + 4
    s.wr a (BitVec.ofNat 32 (setBitsOf (s.rd a).toNat 0 0 w.wign.toNat))
  else s

/-- A plain write is noted and applied. -/
def State.applyWrite (s : State) (init : Nat) (p : Place) (v : Nat) : State :=
  let w : EdgeWrite := ⟨init, p, v, s.rd p.addr, s.wignAt p⟩
  { s with happened := { s.onEdge with writes := s.onEdge.writes ++ [w] } }.putReg p v

/-- A write of a plain register: on one edge the writes to a block are applied in the order of their initiators' numbers,
whatever the order of their commands, each judged against what those before it left (R71; DESIGN CHOICE for what goes beyond
a plain register, log entry 75). -/
def State.putInTurn (s : State) (init : Nat) (p : Place) (v : Nat) : State :=
  let after (w : EdgeWrite) : Bool := w.place.blk == p.blk && w.place.inst == p.inst && init < w.init
  let later := s.onEdge.writes.filter after
  if later.isEmpty then s.applyWrite init p v
  else
    let s := later.reverse.foldl State.undoWrite s
    let s := { s with happened := { s.onEdge with writes := s.onEdge.writes.filter fun w => !after w } }
    later.foldl (fun t w => t.applyWrite w.init w.place w.value) (s.applyWrite init p v)

/-- A write of a word of a 64-bit register (R64, R65): the low word is held, the high word commits both. -/
def State.putPair (s : State) (init : Nat) (p : Place) (lo : Nat) (high : Bool) (v : Nat) : State :=
  let a := p.blk.base p.inst + lo
  let x := s.shadow init a
  if !high then s.setShadow { x with hold := some (BitVec.ofNat 32 v) }
  else
    let low := match x.hold with
      | some w => w.toNat
      | none => s.liveWord init { p with off := lo }
    let s := s.setShadow { x with hold := none }
    if p.blk = .knr ∧ lo = 0x20 then s.writeMarket (low + 2 ^ 32 * v)
    else (s.putInTurn init { p with off := lo } low).putInTurn init { p with off := lo + 4 } v

/-! ### The system access port (R503) -/

/-- A write of SAP_CMD: READ, then WRITE; one that finds the port busy is refused. -/
def State.sapCmd (s : State) (v : Nat) : State :=
  let ask (t : State) (write : Bool) : State :=
    if t.getB DBG.base DBG.SAP_STATUS.BUSY then t.setB DBG.base DBG.SAP_STATUS.REFUSED true
    else
      let t := t.setB DBG.base DBG.SAP_STATUS.BUSY true
      { t with dbg := { t.dbg with sap := some write } }
  if v / 4 ≠ 0 then s
  else
    let s := if v.testBit 0 then ask s false else s
    if v.testBit 1 then ask s true else s

/-! ### The registers whose write is a command -/

/-- A write of a register that LOCK = 1 fixes is ignored (R406); with ENABLE 1 one that would change an RWD field sets
STATUS.WIGN (R52, R410). -/
def State.lockedWrite (s : State) (p : Place) (v : Nat) : State :=
  match rowAt p.blk.map p.off with
  | none => s
  | some r =>
    let b := p.blk.base p.inst
    if (s.rd b).getLsbD 0 && ((s.rd (b + p.off)).toNat ^^^ v) &&& r.gated != 0 then s.wr (b + 4) (s.rd (b + 4) ||| 1) else s

/-- The effect of a write of `v` to a command register, or to a register whose write does more than store;
`none` for every other register. -/
def State.special (s : State) (init : Nat) (p : Place) (v : Nat) : Option State :=
  let i := p.inst
  match p.blk, p.off with
  | .sys, 0x70 => some (s.eccCmd v)
  | .ais, 0xC => some (s.aisCmd i v)
  | .cnv, 0x10 => some (s.cnvCmd i v)
  | .cmp, 0x10 => some (s.cmpCmd i v)
  | .car, 0x20 => some (if v = 1 then s.carCntClr i else s)
  | .leg, 0x8 => some (s.shadowWrite i LEG.CMP_UP.VALUE v)
  | .leg, 0xC => some (s.shadowWrite i LEG.CMP_DN.VALUE v)
  | .leg, 0x10 => some (s.shadowWrite i LEG.DT_RISE.VALUE v)
  | .leg, 0x14 => some (s.shadowWrite i LEG.DT_FALL.VALUE v)
  | .leg, 0x28 => some (s.legCmd i v)
  | .leg, 0x40 => some (s.groupCommit (i / 16) v)
  | .trp, 0x8 => some (s.trpCmd v)
  | .trp, 0xC => some (s.swTrip v)
  | .stl, 0x100 => some (s.freeze i v)
  | .eng, 0x8 => some (s.engCmd i v)
  | .eng, 0x34 => some (s.setNcoFreq i v)
  | .eng, 0x38 => some (s.setNcoPhase i v)
  | .cri, o =>
    if o = 0x10 then some (s.criDoorbell v)
    else if 0x40 ≤ o ∧ o < 0x60 then some (s.criExtCfg ((o - 0x40) / 4) v)
    else if 0x80 ≤ o ∧ o < 0xA0 then
      some (s.wr (CRI.base + o) (BitVec.ofNat 32 (v &&& sourceMask ((o - 0x80) / 4))))
    else if 0xA0 ≤ o ∧ o < 0xC0 then some (s.criEnSet ((o - 0xA0) / 4) v)
    else if 0xC0 ≤ o ∧ o < 0xE0 then some (s.criEnClr ((o - 0xC0) / 4) v)
    else if 0x120 ≤ o ∧ o < 0x140 then some (s.criPendSet ((o - 0x120) / 4) v)
    else if 0x140 ≤ o ∧ o < 0x160 then some (s.criPendClr ((o - 0x140) / 4) v)
    else if 0x1000 ≤ o ∧ o % 16 = 4 ∧ o % 0x100 < 0x80 then
      some (s.criComplete init ((o - 0x1000) / 0x100) (o % 0x100 / 16) v)
    else none
  | .flc, o =>
    if o = 0x8 then some (s.flcCmd v)
    else if o = 0x18 then some (s.fqHead v)
    else if 0xA0 ≤ o ∧ o < 0xC0 then some (s.wpSet ((o - 0xA0) / 4) v)
    else none
  | .cel, 0x8 => some (s.celCmd v)
  | .cel, 0x10 => some (s.rstCmd v)
  | .cel, 0x800 => some (s.armKey init v)
  | .cel, 0x80C => some (s.armCmd v)
  | .wdt, o =>
    if o = 0x10 then some (if i < 4 ∧ init ≠ i then s else s.wdtService (Fin.ofNat 5 i) v)
    else if (o = 0 ∨ o = 8 ∨ o = 0xC) && s.getB (WDT.base i) WDT.CTRL.LOCK then some (s.lockedWrite p v)
    else none
  | .knr, 0x8 => some (s.knrCmd v)
  | .ode, 0xC =>
    some (if v = 1 then (s.clearCount ODE.base ODE.CNT.TXN).clearCount ODE.base ODE.CNT.ABORTS else s)
  | .atc, 0x8 => some (s.atcCmd v)
  | .atc, 0x94 => some (s.markTag init v)
  | .dbg, o =>
    if o = 0x8 then some (s.dbgCmd v)
    else if o = 0x1C then some (s.sapCmd v)
    else if 0x104 ≤ o ∧ o < 0x300 ∧ (o - 0x104) % 0x80 = 0 then some (s.cCmd ((o - 0x104) / 0x80) v)
    else none
  | .spi, 0x8 =>
    some (if v = 1 then s.spiCntClr i else s)
  | .spi, 0xC => some (s.spiPush (Fin.ofNat 4 i) (BitVec.ofNat 32 v))
  | .uart, 0x8 => some (if v = 1 then s.uartCntClr i else s)
  | .uart, 0xC => some (s.uartPush (Fin.ofNat 2 i) (BitVec.ofNat 32 v))
  | .can, 0x8 => some (s.canCmd (Fin.ofNat 2 i) v)
  | .iic, 0x8 =>
    some (if v / 4 ≠ 0 then s
      else
        let t := if v.testBit 0 then s.iicResume (Fin.ofNat 2 i) else s
        if v.testBit 1 then t.clearCount (IIC.base i) IIC.CNT.NACKS else t)
  | .iic, 0xC => some (s.iicPush (Fin.ofNat 2 i) (BitVec.ofNat 32 v))
  | .qep, 0x8 => some (s.qepCmd (Fin.ofNat 4 i) v)
  | .qep, 0xC => some (s.setPos (Fin.ofNat 4 i) (BitVec.ofNat 32 v))
  | .gpio, 0x20 => some (s.gpioOut false true v)
  | .gpio, 0x24 => some (s.gpioOut true true v)
  | .gpio, 0x28 => some (s.gpioOut false false v)
  | .gpio, 0x2C => some (s.gpioOut true false v)
  | _, _ => none

/-- A write of a register that is reached, on its completing edge (R26); a snapshot's capture on that edge includes it
(R70). -/
def State.writeReg (s : State) (init : Nat) (p : Place) (v : Nat) : State :=
  let s := s.arrive
  let s := if p.blk = .cri then s.wakeAll else s
  let t := match s.special init p v with
    | some t => t
    | none =>
      match p.pair with
      | some (lo, high) => s.putPair init p lo high v
      | none => s.putInTurn init p v
  t.recapture

/-! ### Accesses -/

/-- The KIND of bus error that a register access meets, 0 if it reaches its register (R28, R34–R36).  Where several
causes hold at once the model records the first of: no block there, island down, width, no register there (DESIGN
CHOICE, log entry 63: R47 gives no order). -/
def State.regFault (s : State) (a n : Nat) : Nat :=
  match place a with
  | none => 1
  | some p => if !s.islandUp p.island then 5 else if n ≠ 4 ∨ a % 4 ≠ 0 then 6 else s.reach a

/-- A read of `n` bytes at `a` by an initiator, a memory or a register (R34–R36, R67).  A misaligned access of an
initiator other than a core, which R36 does not settle, ends in KIND 6 (DESIGN CHOICE, log entry 64). -/
def State.busRead (s : State) (init a n : Nat) (peek : Bool) (env : BusEnv) : Reply × State :=
  if a < 0x40000000 then
    if a % n ≠ 0 then s.fail init a 6 false
    else if peek then s.memPeek init a n env else s.memRead init a n env
  else
    let k := s.regFault a n
    if k ≠ 0 then s.fail init a k false
    else match s.busTransfer init a env, place a with
    | (t, false), _ => t.fail init a 3 false
    | (t, true), some p =>
      let (ok, t) := if p.blk = .flc ∧ 0x2000 ≤ p.off ∧ !peek then t.optionRead env.ecc else (true, t)
      if !ok then t.fail init a 2 false
      else
        let (v, u) := t.arrive.readReg init p peek
        (.ok v.toNat, u)
    | (t, true), none => t.fail init a 1 false

/-- A write of `n` bytes at `a`; misaligned, it ends as a read does (log entry 64). -/
def State.busWrite (s : State) (init a n data : Nat) (env : BusEnv) : Reply × State :=
  if a < 0x40000000 then
    if a % n ≠ 0 then s.fail init a 6 true else s.memWrite init a n data env
  else
    let k := s.regFault a n
    if k ≠ 0 then s.fail init a k true
    else match s.busTransfer init a env, place a with
    | (t, false), _ => t.fail init a 3 true
    | (t, true), some p => (.ok 0, t.writeReg init p (data % 2 ^ 32))
    | (t, true), none => t.fail init a 1 true

/-- REGISTER_WRITE: a write by an initiator (R26, R52–R65). -/
def execRegisterWrite (x : Access) (s : State) : Result :=
  .next (s.busWrite x.init x.addr (x.width / 8) x.data.toNat x.env).2

end Sys2Proof.Machine
end

