-- ==== Sys2Proof/Machine/Operands.lean ====
section
/-! DEFINITION. The operand forms of the core's instructions: immediates, displacements, shift amounts, offsets and
loop fields with and without an EXT prefix (R281), register pairs and groups (R268, R286), PACKED_BCD32 digits
(R12, R273). -/

namespace Sys2Proof.Machine

/-- The number `p : f`, `p` above a field of `w` bits, sign-extended to 32 bits; without EXT the field alone. -/
def signedField (w : Nat) (e : Ext) (f : Nat) : Word :=
  match e with
  | none => BitVec.ofInt 32 (toSigned w f)
  | some p => BitVec.ofInt 32 (toSigned (12 + w) (p.toNat * 2 ^ w + f))

/-- The immediate of MOVI and ADDI. -/
def imm (e : Ext) (f : BitVec 4) : Word := signedField 4 e f.toNat

/-- The immediate of MOVHI. -/
def immHigh (e : Ext) (f : BitVec 4) : Nat := (e.getD 0).toNat * 16 + f.toNat

/-- The amount of SHLI, SHRI and ASRI; `none` where the payload breaks its "must". -/
def shiftAmount (e : Ext) (f : BitVec 4) : Option Nat :=
  match e with
  | none => some f.toNat
  | some p => if p.toNat < 2 then some (16 * p.toNat + f.toNat) else none

/-- The displacement of Bcc and BRA. -/
def branchDisp (e : Ext) (f : BitVec 8) : BitVec 24 := (signedField 8 e f.toNat).setWidth 24

/-- The byte offset of LD and ST for accesses of `size` bytes. -/
def accessOffset (e : Ext) (size : Nat) : Word := BitVec.ofInt 32 (toSigned 9 (bitsOf (e.getD 0).toNat 8 0) * size)

/-- The displacement of LOOP with its payload check, and of LOOP # with its count. -/
def loopDisp (e : Ext) (f : BitVec 4) : Option Nat :=
  match e with
  | none => some f.toNat
  | some p => if p.toNat < 256 then some (p.toNat * 16 + f.toNat) else none
def loopImmDisp (e : Ext) (f : BitVec 4) : Nat := bitsOf (e.getD 0).toNat 7 0 * 16 + f.toNat
def loopImmCount (e : Ext) (f : BitVec 4) : Nat := bitsOf (e.getD 0).toNat 11 8 * 16 + f.toNat

/-- The number of a control register; `none` where the payload is not 1. -/
def controlNumber (e : Ext) (f : Fin 16) : Option Nat :=
  match e with
  | none => some f.val
  | some p => if p = 1 then some (16 + f.val) else none

/-- Registers `n` to `n + k − 1` exist (R286). -/
def groupOk (n k : Nat) : Bool := n + k ≤ 16
/-- Two groups have a register in common. -/
def overlap (n k m j : Nat) : Bool := n < m + j && m < n + k

/-- A pair as one number, low word in the lower register. -/
def Core.pair (x : Core) (n : Nat) : Nat := (x.get n).toNat + 2 ^ 32 * (x.get (n + 1)).toNat
def Core.putPair (x : Core) (n v : Nat) : Core := (x.put n (BitVec.ofNat 32 v)).put (n + 1) (BitVec.ofNat 32 (v / 2 ^ 32))

/-- The width of an access code: size in bytes, sign extension (R293); `none` for an illegal code. -/
def loadWidth (code : Nat) : Option (Nat × Bool) :=
  match code with
  | 0 => some (4, false) | 1 => some (2, false) | 2 => some (2, true) | 3 => some (1, false) | 4 => some (1, true)
  | 5 => some (8, false) | _ => none
def storeWidth (code : Nat) : Option Nat :=
  match code with
  | 0 => some 4 | 1 => some 2 | 3 => some 1 | 5 => some 8 | _ => none

/-- What a load of `n` bytes puts into a register. -/
def extended (n : Nat) (signed : Bool) (v : Nat) : Word :=
  if signed then BitVec.ofInt 32 (toSigned (8 * n) v) else BitVec.ofNat 32 v

/-- The digits of a packed decimal word, lowest first. -/
def nibbles (w : Word) : List Nat := (List.range 8).map fun i => bitsOf w.toNat (4 * i + 3) (4 * i)
def decimalOk (w : Word) : Bool := (nibbles w).all (· ≤ 9)
/-- The value of a packed decimal word, and the word of a value. -/
def decimalValue (w : Word) : Nat := (nibbles w).foldr (fun d n => d + 10 * n) 0
def decimalWord (v : Nat) : Word :=
  BitVec.ofNat 32 ((List.range 8).foldr (fun i n => v / 10 ^ i % 10 + 16 * n) 0)

end Sys2Proof.Machine
end

