-- ==== Sys2Proof/Machine/Flags.lean ====
section
/-! DEFINITION. The flags of the core and how results set them (R285, R290). -/

namespace Sys2Proof.Machine

def Core.v (x : Core) : Bool := x.st.getLsbD 0
def Core.cy (x : Core) : Bool := x.st.getLsbD 1
def Core.z (x : Core) : Bool := x.st.getLsbD 2
def Core.n (x : Core) : Bool := x.st.getLsbD 3
def Core.dc (x : Core) : Bool := x.st.getLsbD 4

def Core.setV (x : Core) (b : Bool) : Core := x.setSt 0 0 b.toNat
def Core.setC (x : Core) (b : Bool) : Core := x.setSt 1 1 b.toNat
def Core.setZ (x : Core) (b : Bool) : Core := x.setSt 2 2 b.toNat
def Core.setN (x : Core) (b : Bool) : Core := x.setSt 3 3 b.toNat
def Core.setDc (x : Core) (b : Bool) : Core := x.setSt 4 4 b.toNat

/-- N and Z of a result. -/
def Core.setNZ (x : Core) (r : Word) : Core := (x.setN r.msb).setZ (r == 0)

/-- N, Z, C, V of a sum: C the carry out of bit 31, V signed overflow. -/
def Core.addFlags (x : Core) (a b : Word) : Core :=
  let r := a + b
  ((x.setNZ r).setC (2 ^ 32 ≤ a.toNat + b.toNat)).setV (a.toInt + b.toInt != r.toInt)

/-- N, Z, C, V of a difference: C the borrow, V signed overflow. -/
def Core.subFlags (x : Core) (a b : Word) : Core :=
  let r := a - b
  ((x.setNZ r).setC (a.toNat < b.toNat)).setV (a.toInt - b.toInt != r.toInt)

/-- The three shifts. -/
inductive Shift where
  | left | right | arith
  deriving DecidableEq, Repr

/-- The result of a shift by `n`. -/
def Shift.result : Shift → Word → Nat → Word
  | .left, w, n => w <<< n
  | .right, w, n => w >>> n
  | .arith, w, n => w.sshiftRight n

/-- The last bit shifted out, for a non-zero amount (R290). -/
def Shift.out : Shift → Word → Nat → Bool
  | .left, w, n => n ≤ 32 && w.getLsbD (32 - n)
  | .right, w, n => n ≤ 32 && w.getLsbD (n - 1)
  | .arith, w, n => if n ≤ 32 then w.getLsbD (n - 1) else w.msb

/-- Whether the flags meet a condition (R287). -/
def Core.holds (x : Core) (cond : Fin 7) : Bool :=
  match cond with
  | 0 => x.z
  | 1 => !x.z
  | 2 => x.n != x.v
  | 3 => x.n == x.v
  | 4 => x.cy
  | 5 => !x.cy
  | 6 => x.v

end Sys2Proof.Machine
end

