-- ==== Sys2Proof/Machine/CoreStep.lean ====
section
/-! DEFINITION. The frame of every core instruction: what can stop it before it executes, its retirement with delay
slot, loop end, locked sequence and load shadow, precise exceptions (R258–R272, R283, R284, R302, R324, R325), the
breakpoints and watchpoints (R509, R510), and the data accesses of a core (R307–R310). -/

namespace Sys2Proof.Machine

/-- What the execution of an instruction came to: a cause that it raises; a memory that makes it wait; elements left; a
next address that is not in sequence; a RETI, after which PC and ST are those returned to; the accesses that watchpoints
see (address, write); the old values that its load shadow reads; an ST write. -/
structure Ran where
  fault : Option Syndrome := none
  waits : Bool := false
  stays : Bool := false
  jump : Option (BitVec 24) := none
  away : Bool := false
  hits : List (Nat × Bool) := []
  shadow : List (Nat × Word) := []
  hold : Bool := false

/-! ### Before execution -/

/-- A line of program memory arrives in a buffer of core `c`, with what the memory's SECDED and the buffer's parity find
at word `a`: the answer tells a wait for the flash (R300–R302, R350, R352).  A slot of flash whose own parity bits fail
does so again when it is fetched once more.  What a fetch finds is not recorded in SYS.BUSERR_* (DESIGN CHOICE, log entry
65). -/
def State.fetchLine (s : State) (c a : Nat) (ecc : EccFinding) (parityFails : Nat) : Bool × State :=
  let line := a / 16
  let put (t : State) (f : Nat → Fetched) : State :=
    t.modCore c fun x => x.takeLine ⟨line, (List.range 16).map fun i =>
      if i = a % 16 ∧ 2 ≤ parityFails then
        match f i with
        | .word _ => .bad 0x0A
        | w => w
      else f i⟩
  let word (t : State) (d i : Nat) : Fetched := .word (BitVec.ofNat 14 (t.bytes (d + 2 * i) 2))
  match wordPlace c (16 * line) with
  | none => (true, put s fun _ => .rom)
  | some d =>
    if d < 0x28000000 then
      let slot (t : State) (i : Nat) : Fetched :=
        let v := t.bytes (d + 2 * i) 2
        if slotWithParity v = v then word t d i else .bad 0x0A
      match s.flashLine c ((d - 0x20000000) / 32) true ecc with
      | (.ok _, t) => (true, put t (slot t))
      | (.err 2, t) => (true, put t fun _ => .lost)
      | (.err _, t) => (true, put t fun _ => .bad 0x06)
      | (.wait, t) => (false, t)
    else
      let t := s.findWord (.program c) c (d + 2 * (a % 16)) ecc
      (true, put t fun i => if i = a % 16 ∧ ecc = .uncorrectable then .bad 0x06 else word t d i)

/-- The word at a program address that the core reaches: what its buffer holds, its line being fetched where no buffer
holds it; `none` while that waits.  An uncorrectable error of flash is recorded here (R299, R302, R351). -/
def State.reachWord (s : State) (c a : Nat) : Option Fetched × State :=
  if !(s.coreAt c).mayFetch a then (some (.bad 0x06), s)
  else
    let (ok, t) := if ((s.coreAt c).buffered a).isSome then (true, s) else s.fetchLine c a .clean 0
    if !ok then (none, t)
    else match (t.coreAt c).buffered a with
      | some .lost => (some (.bad 0x06), t.flashUncorrectable.modCore c fun x => x.recorded (a / 16))
      | w => (some (w.getD .rom), t)

/-- What stands at PC, where the sender names an instruction. -/
inductive Found where
  /-- That instruction: its words, or words of a ROM, whose contents are not given (R278). -/
  | named
  /-- Another instruction. -/
  | other
  /-- A cause that the fetch, or an encoding without an instruction, raises. -/
  | cause (y : Syndrome)
  /-- A fetch that has to wait. -/
  | waits
  deriving DecidableEq, Repr

/-- The core fetches and decodes what stands at PC (R277–R283, R302). -/
def State.fetch (s : State) (c : Nat) (i : Instr) : Found × State :=
  let pc := (s.coreAt c).pc
  let judge (w v : BitVec 14) : Found :=
    match decodeInsn (Fin.ofNat 4 c) w v with
    | some j => if j = i then .named else .other
    | none => .cause { code := 0x01 }
  match s.reachWord c pc.toNat with
  | (none, t) => (.waits, t)
  | (some (.bad k), t) => (.cause { code := k, faddr := pc.toNat }, t)
  | (some w, t) =>
    let two := match w with
      | .word v => twoWords v
      | _ => (insnOf i).len = 2
    if two then
      let a := (pc + 1).toNat
      match t.reachWord c a with
      | (none, u) => (.waits, u)
      | (some (.bad k), u) => (.cause { code := k, faddr := a }, u)
      | (some v, u) =>
        match w, v with
        | .word w, .word v => (judge w v, u)
        | _, _ => (.named, u)
    else
      match w with
      | .word w => (judge w 0, t)
      | _ => (.named, t)

/-- The innermost active loop level, and whether PC stands at its LE. -/
def Core.leOf (x : Core) (lvl : Nat) : BitVec 24 := x.le[Fin.ofNat 2 lvl].setWidth 24
def Core.atLe (x : Core) : Bool := x.la ≠ 0 && x.leOf (x.la - 1) = x.pc

/-- PC stands at LE of an active level. -/
def Core.atAnyLe (x : Core) : Bool := (List.range x.la).any fun l => x.leOf l = x.pc

/-- The cause that the instruction's position raises: 0x01 in a delay slot (R258), 0x0D at LE (R263), 0x0E in a locked
sequence (R265). -/
def Core.misuse (x : Core) (i : Insn) : Option Nat :=
  if x.slot.isSome && i.special then some 0x01
  else if x.atLe && (i.special || x.slot.isSome) then some 0x0D
  else if x.lockLeft ≠ 0 && (i.special || x.atAnyLe) then some 0x0E
  else none

/-- The breakpoint that matches, the lowest-numbered one (R507, R509). -/
def State.breakpoint (s : State) (c : Nat) (i : Insn) : Option Nat :=
  let x := s.coreAt c
  let at_ (k : Nat) : Nat := s.getF DBG.base (DBG.BP.ADDR.at (0x80 * c + 4 * k))
  if x.skipBp || x.mid || x.cl = 8 || x.inUse.getLsbD 9 then none
  else (List.range 4).find? fun k =>
    s.getB DBG.base (DBG.BP.EN.at (0x80 * c + 4 * k))
      && (at_ k == x.pc.toNat || (i.ext && at_ k == (x.pc + 1).toNat))

/-- A monitor request of a breakpoint or watchpoint, with the access it matched. -/
def State.hitRequest (s : State) (c reason unit pc : Nat) (data : Option Nat) : State :=
  if (s.coreAt c).monReq then s
  else
    let s := (s.monRequest c reason unit).setF DBG.base (DBG.HIT_PC.ADDR.at (0x80 * (c % 4))) pc
    match data with
    | some a => s.setF DBG.base (DBG.HIT_DATA.ADDR.at (0x80 * (c % 4))) a
    | none => s

/-- The watchpoints judge a retired access (R510). -/
def State.watch (s : State) (c pc : Nat) (hit : Nat × Bool) : State :=
  let x := s.coreAt c
  if x.cl = 8 || x.inUse.getLsbD 9 then s
  else s.forAll 2 fun t k =>
    let d := 0x80 * c + 0x10 * k
    let m := 0xFFFFFFFF - t.getF DBG.base (DBG.WP_MASK.MASK.at d)
    let on := t.getB DBG.base (DBG.WP_CFG.EN.at d)
      && t.getB DBG.base ((if hit.2 then DBG.WP_CFG.WRITE else DBG.WP_CFG.READ).at d)
    if on && hit.1 &&& m == t.getF DBG.base (DBG.WP_ADDR.ADDR.at d) &&& m then
      if t.getB DBG.base (DBG.WP_CFG.TRACE_ONLY.at d) then t.traceItem c 4 pc hit.1
      else t.hitRequest c 3 k pc (some hit.1)
    else t

/-! ### The store buffer (R309, R310) -/

/-- The oldest posted store is carried out: whether it could be, and the state after; an error is reported later. -/
def State.drainStore (s : State) (c : Nat) (env : BusEnv) : Bool × State :=
  match (s.coreAt c).store with
  | [] => (true, s)
  | o :: rest =>
    match s.memWrite c o.addr o.bytes o.data env with
    | (.ok _, t) => (true, t.modCore c fun x => { x with store := rest })
    | (.wait, t) => (false, t)
    | (.err k, t) => (true, t.modCore c fun x => { x with store := rest, imprecise := x.imprecise ++ [(o.addr, k)] })

/-- The store buffer drains; `false` if a store has to wait. -/
def State.drainStores (s : State) (c : Nat) : Nat → Bool × State
  | 0 => (true, s)
  | n + 1 =>
    match s.drainStore c {} with
    | (true, t) => t.drainStores c n
    | r => r

/-- The byte at memory cell `p` that the store buffer holds. -/
def Core.posted (x : Core) (c p : Nat) : Option Nat :=
  x.store.foldl (fun r o =>
    match memArea c o.addr with
    | some (_, q) => if q ≤ p ∧ p < q + o.bytes then some (o.data / 2 ^ (8 * (p - q)) % 256) else r
    | none => r) none

/-- `n` bytes with those the store buffer holds merged in. -/
def Core.forwarded (x : Core) (c p v : Nat) : Nat → Nat
  | 0 => 0
  | n + 1 => (x.posted c p).getD (v % 256) + 256 * x.forwarded c (p + 1) (v / 256) n

/-! ### Data accesses of a core -/

/-- What an access came to. -/
inductive Got where
  | ok (v : Nat)
  | fault (y : Syndrome)
  | waits
  deriving Inhabited

/-- Within a locked sequence, an access to hall SRAM: at most two, within one aligned 64-bit word, which the core holds
from the first one on; that waits while another core holds the word (R265–R267).  `none`: nothing against it. -/
def State.lockAccess (s : State) (c a : Nat) : Option Got × State :=
  let x := s.coreAt c
  if x.lockLeft = 0 || !(a < 0x400000) then (none, s)
  else if x.lockUses = 2 || x.lockWord.any (· != a / 8) then (some (.fault { code := 0x0E }), s)
  else if s.heldFrom c .sram a then (some .waits, s)
  else (none, s.modCore c fun z => { z with lockUses := z.lockUses + 1, lockWord := some (a / 8) })

def State.modReplay (s : State) (c : Nat) (f : Replay → Replay) : State :=
  { s with replay := s.replay.set (Fin.ofNat 4 c) (f s.replay[Fin.ofNat 4 c]) }

/-- The oldest accesses return where the next one needs it: before an access to memory or to another island, and where
four are on their way (R307). -/
def Core.makeRoom (x : Core) (a : Nat) : Core :=
  let isl (b : Nat) : Option Island := (place b).map Place.island
  if a < 0x40000000 || x.out.any (fun o => isl o.addr != isl a) then x.acknowledgeAll
  else if 4 ≤ x.out.length then x.acknowledge else x

/-- A register-region access: it waits until the store buffer is empty (R307, R309).  An execution that a parity replay
has started again does not repeat one that has reached its target: it has the value returned then (R312). -/
def State.regAccess (s : State) (c : Nat) (go : State → Reply × State) : Reply × State :=
  let used (u : State) (l : List Nat) : State := u.modReplay c fun r => { r with taken := l, used := r.used + 1 }
  let r := s.replay[Fin.ofNat 4 c]
  match r.taken.drop r.used with
  | v :: _ => (.ok v, used s r.taken)
  | [] =>
    match s.drainStores c 4 with
    | (true, t) =>
      match go t with
      | (.ok v, u) => (.ok v, used u (r.taken ++ [v]))
      | e => e
    | (false, t) => (.wait, t)

/-- An access of the instruction at PC is on its way. -/
def Core.sends (x : Core) (a : Nat) (dest : List (Nat × Word)) (write : Bool) : Core :=
  { x with out := x.out ++ [{ addr := a, dest := dest, write := write, pc := x.pc, last := x.last, shadow := x.shadow, hold := x.hold }] }

/-- A read of `n` bytes: misaligned 0x03, bus error 0x04 (R246, R293, R307, R309). -/
def State.coreRead (s : State) (c a n : Nat) (env : BusEnv) : Got × State :=
  if a % n ≠ 0 then (.fault { code := 0x03, faddr := a }, s)
  else match (s.modCore c fun x => x.makeRoom a).lockAccess c a with
  | (some g, t) => (g, t)
  | (none, s) =>
    let x := s.coreAt c
    let r : Reply × State :=
      if 0x40000000 ≤ a then s.regAccess c fun t => t.busRead c a n false env
      else match memArea c a with
      | none => s.memRead c a n env
      | some (_, p) =>
        if (List.range n).all fun i => (x.posted c (p + i)).isSome then (.ok (x.forwarded c p 0 n), s)
        else match s.memRead c a n env with
        | (.ok v, t) => (.ok (x.forwarded c p v n), t)
        | r => r
    match r with
    | (.ok v, t) => (.ok v, t)
    | (.wait, t) => (.waits, t)
    | (.err k, t) => (.fault { code := 0x04, faddr := a, kind := k }, t)

/-- The checks that a posted store passes before it enters the buffer: map, width, read-only regions; the cellar store
judges its own partition when the store arrives (R310). -/
def postFault (c a n : Nat) : Nat :=
  match memArea c a with
  | none => 1
  | some (r, p) => if !r.widthOk n then 6 else if r != .cellar && r.readOnly c p then 4 else 0

/-- A write of `n` bytes: misaligned 0x03, bus error 0x05; posted below 0x4000_0000, carried out and acknowledged at or
above it (R26, R293, R307–R310). -/
def State.coreWrite (s : State) (c a n data : Nat) (env : BusEnv) : Got × State :=
  if a % n ≠ 0 then (.fault { code := 0x03, faddr := a, write := true }, s)
  else match (s.modCore c fun x => x.makeRoom a).lockAccess c a with
  | (some g, t) => (g, t)
  | (none, s) =>
    let bad (k : Nat) (t : State) : Got × State := (.fault { code := 0x05, faddr := a, kind := k, write := true }, t)
    if 0x40000000 ≤ a then
      match s.regAccess c fun t => t.busWrite c a n data env with
      | (.ok _, t) => (.ok 0, t.modCore c fun x => x.sends a [] true)
      | (.wait, t) => (.waits, t)
      | (.err k, t) => bad k t
    else
      let k := postFault c a n
      if k ≠ 0 then bad k (s.busError c a k true)
      else
        let (ok, s) := if (s.coreAt c).store.length < 4 then (true, s) else s.drainStore c {}
        if ok then
          (.ok 0, (s.modCore c fun x => { x with store := x.store ++ [⟨a, n, data⟩] }).modReplay c fun r =>
            { r with posted := r.posted + 1 })
        else (.waits, s)

/-! ### Exceptions and retirement -/

/-- The position of a synchronous exception at PC (R324, R325). -/
def Core.position (x : Core) (len : Nat) : Position :=
  let after := x.pc + BitVec.ofNat 24 len
  match x.slot with
  | some sl => ⟨x.pc, sl.target.getD after, true, true, sl.pend⟩
  | none => ⟨x.pc, after, true, false, 0⟩

/-- A synchronous exception at the instruction at PC; it ends a locked sequence (R267).  TRAP has executed (R325). -/
def State.raise (s : State) (c : Nat) (i : Insn) (y : Syndrome) : State :=
  let x := s.coreAt c
  let p := x.position i.len
  (s.modCore c fun z => { z with replayed := none }).takeException c { p with redo := y.code < 0x20 }
    { y with lkbrk := x.lockLeft ≠ 0 }

/-- The request that ends a step, once the step has retired at its level (R508). -/
def State.stepDone (s : State) (c : Nat) : State :=
  let x := s.coreAt c
  if x.stepAt.any (·.toNat = x.cl) && x.slot.isNone && x.lockLeft = 0 && !x.hold then
    (s.monRequest c 4 0).modCore c fun z => { z with stepAt := none }
  else s

/-- One instruction of a locked sequence has completed; the last one, whose stores have drained, ends it and releases the
word (R265, R266, R309). -/
def State.lockStep (s : State) (c : Nat) (was : Nat) : State :=
  if was = 0 then s
  else if was = 1 then
    s.modCore c fun x => { x.setSt 8 8 0 with lockLeft := 0, lockWord := none, lockUses := 0 }
  else s.modCore c fun x => { x with lockLeft := was - 1 }

/-- Where execution goes after the instruction at PC, in sequence but for the loop test (R262). -/
def Core.loopTest (x : Core) (seq : BitVec 24) : BitVec 24 × Core :=
  if x.atLe then
    let l := Fin.ofNat 2 (x.la - 1)
    if 1 < x.lc[l].toNat then (x.ls[l].setWidth 24, { x with lc := x.lc.set l (x.lc[l] - 1) })
    else (seq, { x.setSt 7 6 (x.la - 1) with lc := x.lc.set l 0 })
  else (seq, x)

/-- The window action of a branch, after its slot (R249, R250). -/
def Core.windowAfter (x : Core) (pend : BitVec 2) (ret : BitVec 24) : Core :=
  if pend = 1 then
    { (x.setFrm ((x.frm + 1) % 32)).put 7 (ret.setWidth 32) with returns := (ret :: x.returns).take 4 }
  else if pend = 2 then { x.setFrm ((x.frm + 31) % 32) with returns := x.returns.tail }
  else x

/-- The instruction at PC retires.  `pre` is the core before it executed. -/
def State.retire (s : State) (c : Nat) (pre : Core) (i : Insn) (r : Ran) : State :=
  let pc := pre.pc
  let seq := pc + BitVec.ofNat 24 i.len
  let clean (x : Core) : Core :=
    { x.useLine pc.toNat with
      last := some pc, shadow := r.shadow, hold := r.hold, mid := false, skipBp := false
      replayed := if x.replayed = some pc then none else x.replayed }
  let s := match pre.slot with
    | some sl =>
      let to_ := sl.target.getD seq
      let x := clean (s.coreAt c)
      if sl.pend = 2 ∧ x.frm = x.wb.toNat % 32 then
        (s.modCore c fun _ => { x with slot := none, pc := to_, returns := x.returns.tail }).takeException c ⟨sl.branch, to_, false, false, 3⟩
          { code := 0x08 }
      else s.modCore c fun _ => { x.windowAfter sl.pend seq with slot := none, pc := to_ }
    | none =>
      let (next, x) := (s.coreAt c).loopTest seq
      s.modCore c fun _ => { clean x with pc := r.jump.getD next }
  let s := s.lockStep c pre.lockLeft
  (r.hits.foldl (fun t h => t.watch c pc.toNat h) s).stepDone c

/-- An element of a long instruction has completed and elements are left (R271, R272). -/
def State.elementDone (s : State) (c : Nat) (r : Ran) : State :=
  let pc := (s.coreAt c).pc
  let s := s.modCore c fun x =>
    { x with mid := true, shadow := [], hold := false, skipBp := false
             replayed := if x.replayed = some pc then none else x.replayed }
  (r.hits.foldl (fun t h => t.watch c pc.toNat h) s).stepDone c

/-- After a RETI: a step that it was has retired (R508). -/
def State.returned (s : State) (c : Nat) (pre : Core) : State :=
  let s := s.modCore c fun z => { z with replayed := if z.replayed = some pre.pc then none else z.replayed }
  if pre.stepAt.any (·.toNat = pre.cl) && (s.coreAt c).stepAt == pre.stepAt then
    (s.monRequest c 4 0).modCore c fun z => { z with stepAt := none }
  else s

/-- Registers that an access on its way loads. -/
def Core.awaited (x : Core) (i : Insn) : Bool :=
  (i.reads ++ i.loads).any fun n => x.out.any fun o => o.dest.any fun d => d.1 == (physReg x.frm n).val

/-- The instruction at PC may retire its place in the order of accesses ahead of its acknowledge: nothing but the next
sequential address hangs on its retirement (R307). -/
def Core.plain (x : Core) : Bool := x.slot.isNone && x.lockLeft = 0 && !x.atLe

/-- The instruction that begins a step, or an instruction of a step that goes on: what a replay goes back to (R311). -/
def State.stepBegins (s : State) (c : Nat) (pre : Core) (starts : Bool) : State :=
  if pre.rerun then
    (s.modReplay c fun r => { r with used := 0, posted := 0 }).modCore c fun x => { x with rerun := false }
  else if starts then s.modReplay c fun _ => { start := pre }
  else s

/-- The last instruction of a locked sequence: its stores drain before it ends (R309). -/
def State.lockDrains (s : State) (c : Nat) (pre : Core) : Bool × State :=
  if pre.lockLeft = 1 then s.drainStores c 4 else (true, s)

/-- The instruction at PC, found and free to execute: the body, and retirement. -/
def State.execute (s : State) (c : Nat) (i : Insn) (pre : Core) (body : State → Ran × State) : State :=
  match body (s.stepBegins c pre (pre.stepStarts (pre.shadowRead i))) with
  | (r, t) =>
    if r.waits then { s with flash := t.flash, free := t.free }
    else match r.fault with
    | some y => t.raise c i y
    | none =>
      match t.lockDrains c pre with
      | (false, u) => { s with flash := u.flash, free := u.free }
      | (true, t) =>
        if r.stays then t.elementDone c r
        else if r.away then t.returned c pre
        else (if i.access && pre.plain then t else t.modCore c Core.acknowledgeAll).retire c pre i r

/-- The checks before the instruction at PC executes: a breakpoint, which enters the monitor at a boundary that allows it
(R509), and a place that forbids the instruction. -/
def State.judged (s : State) (c : Nat) (i : Insn) (body : State → Ran × State) : State :=
  let pre := s.coreAt c
  let bp := s.breakpoint c i
  let s := match bp with
    | some k => s.hitRequest c 2 k pre.pc.toNat none
    | none => s
  if bp.isSome && pre.boundary (pre.shadowRead i) then s
  else match pre.misuse i with
  | some code => s.raise c i { code := code }
  | none => s.execute c i pre body

/-- The sender names the instruction that stands at PC of core `c`.  Nothing happens while the core is down or waits in
WAIT, and where another instruction stands there; what the fetch or the encoding raises comes before everything else. -/
def State.coreStep (s : State) (c : Nat) (op : Instr) (body : State → Ran × State) : State :=
  let i := insnOf op
  let x := s.coreAt c
  if !s.coreUp c || (x.waiting && !s.wakes c) then s
  else match x.out.find? fun o => o.lost with
  | some _ => s.settled c fun t => t
  | none =>
    match s.fetch c op with
    | (.other, _) => s
    | (.waits, t) => t
    | (.cause y, t) =>
      (t.modCore c fun z => { z.acknowledgeAll with waiting := false }).raise c { i with len := t.insnLength c x.pc } y
    | (.named, t) =>
      (t.modCore c fun z =>
        { (if i.access && z.plain && !z.awaited i then z else z.acknowledgeAll) with waiting := false }).judged c i body

/-! ### The shapes of bodies -/

/-- An instruction that only changes registers and flags, or raises a cause. -/
def State.coreOp (s : State) (c : Nat) (i : Instr) (f : Core → Except Nat Core) : State :=
  s.coreStep c i fun t =>
    match f (t.coreAt c) with
    | .ok x => ({}, t.modCore c fun _ => x)
    | .error code => ({ fault := some { code := code } }, t)

/-- xd ← f xd xs with flags from the old values. -/
def State.binary (s : State) (op : Fin 4 → Fin 16 → Fin 16 → Instr) (c : Fin 4) (d n : Fin 16)
    (f : Core → Word → Word → Core) : State :=
  s.coreOp c (op c d n) fun x => .ok (f x (x.get d) (x.get n))

/-- xd ← f xd. -/
def State.unary (s : State) (op : Fin 4 → Fin 16 → Instr) (c : Fin 4) (d : Fin 16) (f : Core → Word → Core) : State :=
  s.coreOp c (op c d) fun x => .ok (f x (x.get d))

end Sys2Proof.Machine
end

