-- ==== Sys2Proof/Machine/CoreAlu.lean ====
section
/-! DEFINITION. Moves, arithmetic, logic, shifts, multiplication, division and packed decimal of the core (R273,
R288–R292, R297). -/

namespace Sys2Proof.Machine

/-! ### Moves (R288, R289) -/

/-- MOV: xd ← xs. -/
def execXMov (c : Fin 4) (d n : Fin 16) (s : State) : Result :=
  .next (s.coreOp c (.xMov c d n) fun x => .ok (x.put d (x.get n)))

/-- MOVI: xd ← imm. -/
def execXMovi (c : Fin 4) (d : Fin 16) (f : BitVec 4) (ext : Option (BitVec 12)) (s : State) : Result :=
  .next (s.coreOp c (.xMovi c d f ext) fun x => .ok (x.put d (imm ext f)))

/-- MOVHI: xd[31:16] ← imm. -/
def execXMovhi (c : Fin 4) (d : Fin 16) (f : BitVec 4) (ext : Option (BitVec 12)) (s : State) : Result :=
  .next (s.coreOp c (.xMovhi c d f ext) fun x =>
    .ok (x.put d (BitVec.ofNat 32 (immHigh ext f * 2 ^ 16 + bitsOf (x.get d).toNat 15 0))))

/-! ### Arithmetic and logic (R285, R288) -/

/-- ADD. -/
def execXAdd (c : Fin 4) (d n : Fin 16) (s : State) : Result :=
  .next (s.binary .xAdd c d n fun x a b => (x.addFlags a b).put d (a + b))

/-- ADDI. -/
def execXAddi (c : Fin 4) (d : Fin 16) (f : BitVec 4) (ext : Option (BitVec 12)) (s : State) : Result :=
  .next (s.coreOp c (.xAddi c d f ext) fun x =>
    .ok ((x.addFlags (x.get d) (imm ext f)).put d (x.get d + imm ext f)))

/-- SUB. -/
def execXSub (c : Fin 4) (d n : Fin 16) (s : State) : Result :=
  .next (s.binary .xSub c d n fun x a b => (x.subFlags a b).put d (a - b))

/-- CMP. -/
def execXCmp (c : Fin 4) (d n : Fin 16) (s : State) : Result :=
  .next (s.binary .xCmp c d n fun x a b => x.subFlags a b)

/-- AND. -/
def execXAnd (c : Fin 4) (d n : Fin 16) (s : State) : Result :=
  .next (s.binary .xAnd c d n fun x a b => (x.setNZ (a &&& b)).put d (a &&& b))

/-- OR. -/
def execXOr (c : Fin 4) (d n : Fin 16) (s : State) : Result :=
  .next (s.binary .xOr c d n fun x a b => (x.setNZ (a ||| b)).put d (a ||| b))

/-- XOR. -/
def execXXor (c : Fin 4) (d n : Fin 16) (s : State) : Result :=
  .next (s.binary .xXor c d n fun x a b => (x.setNZ (a ^^^ b)).put d (a ^^^ b))

/-- NOT. -/
def execXNot (c : Fin 4) (d : Fin 16) (s : State) : Result :=
  .next (s.unary .xNot c d fun x a => (x.setNZ (~~~a)).put d (~~~a))

/-- NEG: 0 − xd. -/
def execXNeg (c : Fin 4) (d : Fin 16) (s : State) : Result :=
  .next (s.unary .xNeg c d fun x a => (x.subFlags 0 a).put d (0 - a))

/-- ABS: 0x8000_0000 gives 0x7FFF_FFFF with V = 1. -/
def execXAbs (c : Fin 4) (d : Fin 16) (s : State) : Result :=
  .next (s.unary .xAbs c d fun x a =>
    let r : Word := if a = 0x80000000 then 0x7FFFFFFF else if a.msb then 0 - a else a
    ((x.setNZ r).setV (a == 0x80000000)).put d r)

/-- SEXTB. -/
def execXSextb (c : Fin 4) (d : Fin 16) (s : State) : Result :=
  .next (s.unary .xSextb c d fun x a => (x.setNZ (extended 1 true a.toNat)).put d (extended 1 true a.toNat))

/-- SEXTH. -/
def execXSexth (c : Fin 4) (d : Fin 16) (s : State) : Result :=
  .next (s.unary .xSexth c d fun x a => (x.setNZ (extended 2 true a.toNat)).put d (extended 2 true a.toNat))

/-- ZEXTB. -/
def execXZextb (c : Fin 4) (d : Fin 16) (s : State) : Result :=
  .next (s.unary .xZextb c d fun x a => (x.setNZ (a &&& 0xFF)).put d (a &&& 0xFF))

/-- ZEXTH. -/
def execXZexth (c : Fin 4) (d : Fin 16) (s : State) : Result :=
  .next (s.unary .xZexth c d fun x a => (x.setNZ (a &&& 0xFFFF)).put d (a &&& 0xFFFF))

/-- The number of leading zeros, 0 to 32. -/
def leadingZeros (w : Word) : Nat := if w = 0 then 32 else 31 - w.toNat.log2

/-- CLZ: only Z is written. -/
def execXClz (c : Fin 4) (d : Fin 16) (s : State) : Result :=
  .next (s.unary .xClz c d fun x a => (x.setZ (leadingZeros a == 0)).put d (BitVec.ofNat 32 (leadingZeros a)))

/-! ### Shifts (R285, R290) -/

/-- A shift by `k`: N and Z of the result; C the last bit out, unchanged for 0. -/
def Core.shift (x : Core) (h : Shift) (d : Fin 16) (a : Word) (k : Nat) : Core :=
  let r := h.result a k
  let y := x.setNZ r
  (if k = 0 then y else y.setC (h.out a k)).put d r

/-- A shift by xs[7:0]. -/
def State.shiftBy (s : State) (op : Fin 4 → Fin 16 → Fin 16 → Instr) (h : Shift) (c : Fin 4) (d n : Fin 16) : State :=
  s.binary op c d n fun x a b => x.shift h d a (bitsOf b.toNat 7 0)

/-- A shift by an immediate amount; a payload above 1 is illegal (R281, R282). -/
def State.shiftImm (s : State) (op : Fin 4 → Fin 16 → BitVec 4 → Ext → Instr) (h : Shift) (c : Fin 4) (d : Fin 16)
    (f : BitVec 4) (ext : Ext) : State :=
  s.coreOp c (op c d f ext) fun x =>
    match shiftAmount ext f with
    | some k => .ok (x.shift h d (x.get d) k)
    | none => .error 0x01

/-- SHL. -/
def execXShl (c : Fin 4) (d n : Fin 16) (s : State) : Result := .next (s.shiftBy .xShl .left c d n)
/-- SHR. -/
def execXShr (c : Fin 4) (d n : Fin 16) (s : State) : Result := .next (s.shiftBy .xShr .right c d n)
/-- ASR. -/
def execXAsr (c : Fin 4) (d n : Fin 16) (s : State) : Result := .next (s.shiftBy .xAsr .arith c d n)
/-- SHLI. -/
def execXShli (c : Fin 4) (d : Fin 16) (f : BitVec 4) (ext : Option (BitVec 12)) (s : State) : Result :=
  .next (s.shiftImm .xShli .left c d f ext)
/-- SHRI. -/
def execXShri (c : Fin 4) (d : Fin 16) (f : BitVec 4) (ext : Option (BitVec 12)) (s : State) : Result :=
  .next (s.shiftImm .xShri .right c d f ext)
/-- ASRI. -/
def execXAsri (c : Fin 4) (d : Fin 16) (f : BitVec 4) (ext : Option (BitVec 12)) (s : State) : Result :=
  .next (s.shiftImm .xAsri .arith c d f ext)

/-! ### Multiply and divide (R291, R297) -/

/-- MUL: the low 32 bits. -/
def execXMul (c : Fin 4) (d n : Fin 16) (s : State) : Result :=
  .next (s.binary .xMul c d n fun x a b => (x.setNZ (a * b)).put d (a * b))

/-- QMUL: Q16.16, rounded once to nearest with ties away from zero, saturated. -/
def execXQmul (c : Fin 4) (d n : Fin 16) (s : State) : Result :=
  .next (s.binary .xQmul c d n fun x a b =>
    let (r, sat) := sat32 (a.toInt * b.toInt) 65536
    ((x.setNZ r).setV sat).put d r)

/-- The exact product of two Q16.16 words added to a Q32.32 pair, saturated. -/
def macStep (acc : Nat) (a b : Word) : Int × Bool := sat64 (toSigned 64 acc + a.toInt * b.toInt)

/-- QMAC: d must be even, the pairs must exist and not overlap. -/
def execXQmac (c : Fin 4) (d n : Fin 16) (s : State) : Result :=
  .next (s.coreOp c (.xQmac c d n) fun x =>
    if d.val % 2 = 1 ∨ n.val = 15 ∨ overlap d 2 n 2 then .error 0x01
    else
      let (r, sat) := macStep (x.pair d) (x.get n) (x.get (n + 1))
      .ok ((if sat then x.setV true else x).putPair d (ofSigned 64 r)))

/-- DIVS: the quotient rounded towards zero, the remainder with the sign of the dividend. -/
def execXDivs (c : Fin 4) (d n : Fin 16) (s : State) : Result :=
  .next (s.coreOp c (.xDivs c d n) fun x =>
    let a := x.get d
    let b := x.get n
    if d.val = 15 then .error 0x01
    else if b = 0 then .error 0x0B
    else
      let q : Word := BitVec.ofInt 32 (a.toInt.tdiv b.toInt)
      let r : Word := BitVec.ofInt 32 (a.toInt.tmod b.toInt)
      .ok ((((x.setNZ q).setV (a == 0x80000000 && b == 0xFFFFFFFF)).put d q).put (d.val + 1) r))

/-- DIVU. -/
def execXDivu (c : Fin 4) (d n : Fin 16) (s : State) : Result :=
  .next (s.coreOp c (.xDivu c d n) fun x =>
    let a := x.get d
    let b := x.get n
    if d.val = 15 then .error 0x01
    else if b = 0 then .error 0x0B
    else .ok ((((x.setNZ (a / b)).setV false).put d (a / b)).put (d.val + 1) (a % b)))

/-! ### Packed decimal (R273, R292) -/

/-- A decimal instruction on digits: 0x0C if a digit of a checked source is above 9. -/
def State.decimal (s : State) (op : Fin 4 → Fin 16 → Fin 16 → Instr) (c : Fin 4) (d n : Fin 16)
    (f : Core → Nat → Nat → Core) : State :=
  s.coreOp c (op c d n) fun x =>
    if decimalOk (x.get d) && decimalOk (x.get n) then .ok (f x (decimalValue (x.get d)) (decimalValue (x.get n)))
    else .error 0x0C

/-- A result modulo 10⁸ into xd, with DC and Z. -/
def Core.putDecimal (x : Core) (d : Fin 16) (v : Nat) (dc : Bool) : Core :=
  ((x.setDc dc).setZ (v % 10 ^ 8 == 0)).put d (decimalWord (v % 10 ^ 8))

/-- xd + xs + k and xd − xs − k. -/
def Core.decAdd (x : Core) (d : Fin 16) (a b k : Nat) : Core := x.putDecimal d (a + b + k) (10 ^ 8 ≤ a + b + k)
def Core.decSub (x : Core) (d : Fin 16) (a b k : Nat) : Core := x.putDecimal d (a + 10 ^ 8 - (b + k)) (a < b + k)

/-- DADD. -/
def execXDadd (c : Fin 4) (d n : Fin 16) (s : State) : Result :=
  .next (s.decimal .xDadd c d n fun x a b => x.decAdd d a b 0)
/-- DADD.C. -/
def execXDaddC (c : Fin 4) (d n : Fin 16) (s : State) : Result :=
  .next (s.decimal .xDaddC c d n fun x a b => x.decAdd d a b x.dc.toNat)
/-- DSUB. -/
def execXDsub (c : Fin 4) (d n : Fin 16) (s : State) : Result :=
  .next (s.decimal .xDsub c d n fun x a b => x.decSub d a b 0)
/-- DSUB.C. -/
def execXDsubC (c : Fin 4) (d n : Fin 16) (s : State) : Result :=
  .next (s.decimal .xDsubC c d n fun x a b => x.decSub d a b x.dc.toNat)
/-- DCMP. -/
def execXDcmp (c : Fin 4) (d n : Fin 16) (s : State) : Result :=
  .next (s.decimal .xDcmp c d n fun x a b => (x.setZ (a == b)).setC (a < b))

/-- The adjustment of DADJ, nibble by nibble: the digits and the carry. -/
def adjust : List Nat → Nat → List Nat × Nat
  | [], k => ([], k)
  | n :: t, k =>
    let v := n + k
    let (ds, k') := adjust t (if 9 < v then 1 else 0)
    ((if 9 < v then v - 10 else v) :: ds, k')

/-- DADJ. -/
def execXDadj (c : Fin 4) (d : Fin 16) (s : State) : Result :=
  .next (s.unary .xDadj c d fun x a =>
    let (ds, k) := adjust (nibbles a) 0
    let r : Word := BitVec.ofNat 32 (ds.foldr (fun n m => n + 16 * m) 0)
    ((x.setDc (k == 1)).setZ (r == 0)).put d r)

/-- D2B. -/
def execXD2b (c : Fin 4) (d : Fin 16) (s : State) : Result :=
  .next (s.coreOp c (.xD2b c d) fun x =>
    let a := x.get d
    if decimalOk a then .ok ((x.setZ (decimalValue a == 0)).put d (BitVec.ofNat 32 (decimalValue a)))
    else .error 0x0C)

/-- B2D. -/
def execXB2d (c : Fin 4) (d : Fin 16) (s : State) : Result :=
  .next (s.unary .xB2d c d fun x a => x.putDecimal d a.toNat (10 ^ 8 ≤ a.toNat))

end Sys2Proof.Machine
end

