-- ==== Sys2Proof/Machine/CoreFlow.lean ====
section
/-! DEFINITION. Branches, calls and returns, traps, hardware loops, locks and the system instructions of the core (R249,
R250, R254–R257, R261–R267, R274, R275, R287, R294, R295, R303, R326, R331). -/

namespace Sys2Proof.Machine

/-! ### Branches (R258, R287, R303) -/

/-- The branch at PC, whose own word stands at `word`, retires: the branch-target buffer and the trace follow it. -/
def State.branchRetires (s : State) (c : Nat) (word : BitVec 24) (target : Option (BitVec 24)) : State :=
  let index (a : BitVec 24) : BitVec 8 := a.extractLsb' 4 8
  match target with
  | some t =>
    (s.modCore c fun x => { x with btb := (x.btb.filter fun e => index e.1 != index word) ++ [(word, t)] }).traceItem c 1
      word.toNat t.toNat
  | none => s.modCore c fun x => { x with btb := x.btb.filter fun e => e.1 != word }

/-- A branch at PC goes to `target` after its slot, if it is taken, with a window action. -/
def State.branch (s : State) (c : Nat) (word : BitVec 24) (target : Option (BitVec 24)) (pend : BitVec 2) : Ran × State :=
  let pc := (s.coreAt c).pc
  let s := (s.modCore c fun x => { x with slot := some ⟨target, pend, pc⟩ })
  ({}, if pend = 2 then s.traceItem c 1 word.toNat (target.getD 0).toNat else s.branchRetires c word target)

/-- The address of the branch's own word. -/
def Core.ownWord (x : Core) (e : Ext) : BitVec 24 := x.pc + BitVec.ofNat 24 e.isSome.toNat

/-- Bcc: decided on the flags before the slot. -/
def execXBcc (c : Fin 4) (cond : Fin 7) (disp : BitVec 8) (ext : Option (BitVec 12)) (s : State) : Result :=
  .next (s.coreStep c (.xBcc c cond disp ext) fun t =>
    let x := t.coreAt c
    let a := x.ownWord ext
    t.branch c a (if x.holds cond then some (a + 1 + branchDisp ext disp) else none) 0)

/-- BRA. -/
def execXBra (c : Fin 4) (disp : BitVec 8) (ext : Option (BitVec 12)) (s : State) : Result :=
  .next (s.coreStep c (.xBra c disp ext) fun t =>
    let a := (t.coreAt c).ownWord ext
    t.branch c a (some (a + 1 + branchDisp ext disp)) 0)

/-- JMP xs. -/
def execXJmp (c : Fin 4) (n : Fin 16) (s : State) : Result :=
  .next (s.coreStep c (.xJmp c n) fun t =>
    let x := t.coreAt c
    t.branch c x.pc (some ((x.get n).setWidth 24)) 0)

/-- A call: window overflow where R + 1 would exceed 22 + E (R252). -/
def State.call (s : State) (c : Nat) (target : BitVec 24) : Ran × State :=
  let x := s.coreAt c
  if 22 + x.setsInUse < x.resident + 1 then ({ fault := some { code := 0x07 } }, s)
  else s.branch c x.pc (some target) 1

/-- CALL target. -/
def execXCall (c : Fin 4) (target : BitVec 24) (s : State) : Result :=
  .next (s.coreStep c (.xCall c target) fun t => t.call c target)

/-- CALLR xs. -/
def execXCallr (c : Fin 4) (n : Fin 16) (s : State) : Result :=
  .next (s.coreStep c (.xCallr c n) fun t => t.call c (((t.coreAt c).get n).setWidth 24))

/-- RET: to x7, the window moving back after the slot. -/
def execXRet (c : Fin 4) (s : State) : Result :=
  .next (s.coreStep c (.xRet c) fun t =>
    let x := t.coreAt c
    t.branch c x.pc (some ((x.get 7).setWidth 24)) 2)

/-- RETI: supervisor only, not at L0. -/
def execXReti (c : Fin 4) (s : State) : Result :=
  .next (s.coreStep c (.xReti c) fun t =>
    let x := t.coreAt c
    if !x.sup then ({ fault := some { code := 0x02 } }, t)
    else if x.cl = 0 then ({ fault := some { code := 0x01 } }, t)
    else ({ away := true }, (t.modCore c fun y => { y with skipBp := false }).reti c))

/-- TRAP #n: cause 0x20 + n after the instruction. -/
def execXTrap (c : Fin 4) (n : Fin 64) (s : State) : Result :=
  .next (s.coreStep c (.xTrap c n) fun t => ({ fault := some { code := 0x20 + n.val } }, t))

/-! ### Hardware loops (R261–R263, R294) -/

/-- LOOP at PC with LE and a count: a level opens, or the body is passed over. -/
def State.loop (s : State) (c len : Nat) (le : BitVec 24) (count : Word) : Ran × State :=
  let x := s.coreAt c
  let ls := x.pc + BitVec.ofNat 24 len
  if x.la = 2 then ({ fault := some { code := 0x0D } }, s)
  else if count = 0 then ({ jump := some (le + BitVec.ofNat 24 (s.insnLength c le)) }, s)
  else if x.la = 1 ∧ ¬ (x.ls[(0 : Fin 2)].toNat < ls.toNat ∧ le.toNat < (x.leOf 0).toNat) then
    ({ fault := some { code := 0x0D } }, s)
  else
    let l := Fin.ofNat 2 x.la
    ({}, s.modCore c fun _ => { x.setSt 7 6 (x.la + 1) with
      ls := x.ls.set l (ls.setWidth 32), le := x.le.set l (le.setWidth 32), lc := x.lc.set l count })

/-- LOOP xs, end. -/
def execXLoop (c : Fin 4) (n : Fin 16) (disp : BitVec 4) (ext : Option (BitVec 12)) (s : State) : Result :=
  .next (s.coreStep c (.xLoop c n disp ext) fun t =>
    let x := t.coreAt c
    match loopDisp ext disp with
    | some k => t.loop c (extLen ext) (x.ownWord ext + 1 + BitVec.ofNat 24 k) (x.get n)
    | none => ({ fault := some { code := 0x01 } }, t))

/-- LOOP #n, end. -/
def execXLoopImm (c : Fin 4) (count : BitVec 4) (disp : BitVec 4) (ext : Option (BitVec 12)) (s : State) : Result :=
  .next (s.coreStep c (.xLoopImm c count disp ext) fun t =>
    t.loop c (extLen ext) ((t.coreAt c).ownWord ext + 1 + BitVec.ofNat 24 (loopImmDisp ext disp))
      (BitVec.ofNat 32 (loopImmCount ext count)))

/-- LPOP. -/
def execXLpop (c : Fin 4) (s : State) : Result :=
  .next (s.coreOp c (.xLpop c) fun x => if x.la = 0 then .error 0x0D else .ok (x.setSt 7 6 (x.la - 1)))

/-! ### Locks and simple system instructions (R265, R275, R294, R295) -/

/-- LOCK n.  A sequence that is replayed still holds its word (R312). -/
def execXLock (c : Fin 4) (n : Fin 8) (s : State) : Result :=
  .next (s.coreOp c (.xLock c n) fun x =>
    if n.val = 0 ∨ 4 < n.val then .error 0x01
    else .ok { x.setSt 8 8 1 with lockLeft := n.val, lockUses := 0 })

/-- NOP. -/
def execXNop (c : Fin 4) (s : State) : Result := .next (s.coreOp c (.xNop c) fun x => .ok x)

/-- WAIT: the core stops at the boundary after it unless a request is pending already. -/
def execXWait (c : Fin 4) (s : State) : Result :=
  .next (s.coreStep c (.xWait c) fun t =>
    if (t.coreAt c).sup then ({}, t.modCore c fun x => { x with waiting := !t.wakes c })
    else ({ fault := some { code := 0x02 } }, t))

/-- SYNCP: earlier stores complete, then fetched lines and branch-target entries are discarded. -/
def execXSyncp (c : Fin 4) (s : State) : Result :=
  .next (s.coreStep c (.xSyncp c) fun t =>
    match t.drainStores c 4 with
    | (true, u) => ({}, u.modCore c fun x => { x with lines := [], btb := [] })
    | (false, u) => ({ waits := true }, u))

/-! ### Spill and fill (R254) -/

/-- Window `w` is one that a save set in use will return to; a pending RET (PEND 3) returns one window further. -/
def Core.pinned (x : Core) (w : Nat) : Bool :=
  (List.range 9).any fun v =>
    x.inUse.getLsbD (v + 1) &&
      (let set := x.saves[Fin.ofNat 9 v]
       let f := bitsOf set[(2 : Fin 11)].toNat 20 16
       f = w || (bitsOf set[(3 : Fin 11)].toNat 10 9 = 3 && (f + 31) % 32 = w))

/-- The eight physical registers of window `w`: received, then own. -/
def windowRegs (w : Nat) : List (Fin 260) := [4, 5, 6, 7, 8, 9, 10, 11].map (physReg w)

/-- Words are stored from `a` upwards, each access completed before the next: the first failure, and the accesses made. -/
def State.spillWords (s : State) (c a : Nat) : List Word → List BusEnv → List (Nat × Bool) → Ran × State
  | [], _, hits => ({ hits := hits }, s)
  | w :: ws, env, hits =>
    match s.coreWrite c a 4 w.toNat (env.headD {}) with
    | (.ok _, t) =>
      if 0x40000000 ≤ a then t.spillWords c ((a + 4) % 2 ^ 32) ws env.tail (hits ++ [(a, true)])
      else
        match t.drainStore c (env.headD {}) with
        | (false, u) => ({ waits := true }, u)
        | (true, u) =>
          match (u.coreAt c).imprecise.drop (t.coreAt c).imprecise.length with
          | (b, k) :: _ =>
            ({ fault := some { code := 0x05, faddr := b, kind := k, write := true } },
              u.modCore c fun x => { x with imprecise := (t.coreAt c).imprecise })
          | [] => u.spillWords c ((a + 4) % 2 ^ 32) ws env.tail (hits ++ [(a, true)])
    | (.fault y, t) => ({ fault := some y }, t)
    | (.waits, t) => ({ waits := true }, t)

/-- Words are loaded from `a` upwards. -/
def State.fillWords (s : State) (c a : Nat) : Nat → List BusEnv → List Word → List (Nat × Bool) → Ran × List Word × State
  | 0, _, ws, hits => ({ hits := hits }, ws, s)
  | n + 1, env, ws, hits =>
    match s.coreRead c a 4 (env.headD {}) with
    | (.ok v, t) => t.fillWords c ((a + 4) % 2 ^ 32) n env.tail (ws ++ [BitVec.ofNat 32 v]) (hits ++ [(a, false)])
    | (.fault y, t) => ({ fault := some y }, ws, t)
    | (.waits, t) => ({ waits := true }, ws, t)

/-- SPILL: the oldest window goes to the spill stack; one that raises a fault leaves memory as it was (R284). -/
def execXSpill (c : Fin 4) (env : List BusEnv) (s : State) : Result :=
  .next (s.coreStep c (.xSpill c []) fun t =>
    let x := t.coreAt c
    let w := x.wb.toNat % 32
    if !x.sup then ({ fault := some { code := 0x02 } }, t)
    else if w = x.frm ∨ x.pinned w then ({ fault := some { code := 0x01 } }, t)
    else match t.drainStores c 4 with
    | (false, u) => ({ waits := true }, u)
    | (true, u) =>
      let a := x.wsp - 32
      match u.spillWords c a.toNat ((windowRegs w).map fun r => x.x[r]) env [] with
      | (r, v) =>
        if r.fault.isSome || r.waits then (r, { v with mem := u.mem, writeBack := u.writeBack })
        else (r, v.modCore c fun y => { y with wsp := a, wb := BitVec.ofNat 32 (setBitsOf y.wb.toNat 4 0 ((w + 1) % 32)) }))

/-- FILL: the window below the oldest comes back. -/
def execXFill (c : Fin 4) (env : List BusEnv) (s : State) : Result :=
  .next (s.coreStep c (.xFill c []) fun t =>
    let x := t.coreAt c
    let w := (x.wb.toNat % 32 + 31) % 32
    if !x.sup then ({ fault := some { code := 0x02 } }, t)
    else if x.resident = 31 then ({ fault := some { code := 0x01 } }, t)
    else match t.fillWords c x.wsp.toNat 8 env [] [] with
    | (r, ws, u) =>
      if r.fault.isSome || r.waits then (r, u)
      else (r, u.modCore c fun y => { y with
        x := ((windowRegs w).zip ws).foldl (fun (m : Vector Word 260) (e : Fin 260 × Word) => m.set e.1 e.2) y.x
        wsp := x.wsp + 32, wb := BitVec.ofNat 32 (setBitsOf y.wb.toNat 4 0 w) }))

/-! ### Control registers (R255–R257, R331) -/

/-- The save set that numbers 16 to 26 address (1–9), or the cause that they raise. -/
def Core.selected (x : Core) : Except Nat Nat :=
  let l := bitsOf x.ssel.toNat 3 0
  let v := if l = 0 then x.cl else l
  if v = 0 ∨ 9 < v then .error 0x01 else if v = 9 ∧ x.cl ≠ 9 then .error 0x02 else .ok v

/-- Control registers 0 to 13 that exist. -/
def lowControl (n : Nat) : Bool := [0, 1, 2, 4, 5, 6, 8, 9, 10, 12, 13].contains n

/-- The cause that an access to control register `n` raises. -/
def Core.controlCause (x : Core) (n : Nat) (write : Bool) : Option Nat :=
  if n < 16 then
    if !lowControl n then some 0x01 else if write && n ≠ 0 && !x.sup then some 0x02 else none
  else if !x.sup then some 0x02
  else if n ≤ 26 then
    match x.selected with
    | .error e => some e
    | .ok _ => none
  else none

/-- What control register `n` reads as. -/
def State.controlRead (s : State) (c n : Nat) : Word :=
  let x := s.coreAt c
  match n with
  | 0 => x.st
  | 1 => x.wb
  | 2 => x.wsp
  | 4 => x.ls[(0 : Fin 2)]
  | 5 => x.le[(0 : Fin 2)]
  | 6 => x.lc[(0 : Fin 2)]
  | 8 => x.ls[(1 : Fin 2)]
  | 9 => x.le[(1 : Fin 2)]
  | 10 => x.lc[(1 : Fin 2)]
  | 12 => BitVec.ofNat 32 (s.ccnt c)
  | 13 => x.ccntShadow
  | 27 => x.ssel
  | 28 => x.vbase
  | 29 => x.lvlcfg
  | 30 => s.gmctlWord c
  | 31 => BitVec.ofNat 32 x.inUse.toNat
  | _ =>
    match x.selected with
    | .ok v => x.saves[Fin.ofNat 9 (v - 1)][Fin.ofNat 11 (n - 16)]
    | .error _ => 0

/-- MFC xd, c. -/
def execXMfc (c : Fin 4) (d n : Fin 16) (ext : Option (BitVec 12)) (s : State) : Result :=
  .next (s.coreStep c (.xMfc c d n ext) fun t =>
    let x := t.coreAt c
    match controlNumber ext n with
    | none => ({ fault := some { code := 0x01 } }, t)
    | some k =>
      match x.controlCause k false with
      | some code => ({ fault := some { code := code } }, t)
      | none =>
        let hi : Word := BitVec.ofNat 32 (t.ccnt c / 2 ^ 32)
        ({}, t.modCore c fun _ => { x.put d (t.controlRead c k) with ccntShadow := if k = 12 then hi else x.ccntShadow }))

/-- A write of ST (R256): the bits it takes, and the mask-overrun count that starts when GM becomes 1 (R328). -/
def State.writeSt (s : State) (c : Nat) (w : Word) : State :=
  let x := s.coreAt c
  let mask : Word := 0xFFE0083F ||| if x.sup then 0x600 else 0
  let new := mergeWord mask x.st w
  (s.must ((x.st ^^^ w) &&& 0xFFE00820 == 0)).modCore c fun y =>
    { y with st := new, gmFrom := if new.getLsbD 10 && !x.gm then s.now else y.gmFrom }

/-- A write of VBASE, LVLCFG, GMCTL or SSEL: the bits taken, and the reserved bits that must stay. -/
def State.writeHigh (s : State) (c n : Nat) (w : Word) : State :=
  let x := s.coreAt c
  let kept (old mask : Word) : State := s.must ((old ^^^ w) &&& mask == 0)
  match n with
  | 27 => (kept x.ssel 0xFFFFFFF0).modCore c fun y => { y with ssel := w }
  | 28 => (kept x.vbase 0xFF000000).modCore c fun y => { y with vbase := w &&& 0xFFFFFF00 }
  | 29 => (kept x.lvlcfg 0xFFFFFF88).modCore c fun y => { y with lvlcfg := w }
  | 30 => s.modCore c fun y => { y with gmctl := w &&& 0xFFFF }
  | _ => s

/-- MTC xs, c: field d holds the register. -/
def execXMtc (c : Fin 4) (d n : Fin 16) (ext : Option (BitVec 12)) (s : State) : Result :=
  .next (s.coreStep c (.xMtc c d n ext) fun t =>
    let x := t.coreAt c
    let w := x.get d
    match controlNumber ext n with
    | none => ({ fault := some { code := 0x01 } }, t)
    | some k =>
      match x.controlCause k true with
      | some code => ({ fault := some { code := code } }, t)
      | none =>
        if k = 0 then
          if !x.sup && (x.st ^^^ w) &&& 0x600 != 0 then ({ fault := some { code := 0x02 } }, t)
          else ({ hold := true }, t.writeSt c w)
        else if k < 16 then ({}, t.writeLow c k w)
        else if k ≤ 26 then
          match x.selected with
          | .ok v => ({}, t.writeSaved c v (k - 16) w)
          | .error code => ({ fault := some { code := code } }, t)
        else ({}, t.writeHigh c k w))

/-! ### Fetch and replay (R299, R302, R311, R313) -/

/-- LINE_FETCH: a line that the core fetches ahead, or once more where a word's parity has failed in the buffer, arrives in a
buffer of core `c`.  `ecc`: what the memory's SECDED finds at the word at `a`; `parityFails`: how often that word's parity
fails in the buffer (R299–R302). -/
def execLineFetch (c : Fin 4) (a : BitVec 24) (ecc : EccFinding) (parityFails : Nat) (s : State) : Result :=
  let x := s.core[c]
  let wanted := if (x.buffered a.toNat).isSome then parityFails ≠ 0 else x.fetchesLine (a.toNat / 16)
  .next (if s.coreUp c && wanted && x.mayFetch a.toNat then (s.fetchLine c a.toNat ecc parityFails).2 else s)

/-- STORE_DRAIN: the oldest posted store completes at its memory (R309). -/
def execStoreDrain (c : Fin 4) (env : BusEnv) (s : State) : Result :=
  .next (if s.coreUp c then (s.drainStore c env).2 else s)

/-- Execution goes back to the first instruction of the step that PC is in (R311): what has been fetched, requested and
reported stays, posted stores of the step leave the buffer, a held word stays held (R312). -/
def State.rollBack (s : State) (c : Nat) : State :=
  let r := s.replay[Fin.ofNat 4 c]
  s.modCore c fun x =>
    { r.start.acknowledgeAll with
      store := x.store.take (x.store.length - r.posted), lines := x.lines, btb := x.btb, imprecise := x.imprecise
      monReq := x.monReq, stepAt := x.stepAt, stepping := x.stepping, resumeAsk := x.resumeAsk
      lockWord := x.lockWord, rerun := true }

/-- PARITY_REPLAY: the marked instruction at PC reaches retirement: a ledger entry is written, and its step executes again
from its first instruction; a second mismatch at the same instruction raises unrecoverable parity (R311, R313).
`m.shadowNext`: the instruction is a shadow read, where a ROM holds it. -/
def execParityReplay (m : ReplayMark) (s : State) : Result :=
  let c := m.c
  let x := s.core[c]
  .next (if x.waiting && !s.wakes c then s
  else s.settled c fun t =>
    if x.replayed = some x.pc then t.raise c { len := t.insnLength c x.pc } { code := 0x0A }
    else
      let t := t.ledger 0x05 c 0 x.pc.toNat
      let t := if x.stepStarts (s.shadowNext c m.shadowNext) then t else t.rollBack c
      t.modCore c fun y => { y with replayed := some x.pc })

end Sys2Proof.Machine
end

