-- ==== Sys2Proof/Machine/CoreMem.lean ====
section
/-! DEFINITION. Loads and stores of the core, and its resumable long instructions (R246, R259, R268–R272, R293, R297,
R307–R310). -/

namespace Sys2Proof.Machine

/-- The physical registers that a load of `n` bytes fills from register `d` on, with the values loaded. -/
def Core.loaded (x : Core) (d n : Nat) (signed : Bool) (v : Nat) : List (Nat × Word) :=
  if n = 8 then
    [((physReg x.frm d).val, BitVec.ofNat 32 v), ((physReg x.frm (d + 1)).val, BitVec.ofNat 32 (v / 2 ^ 32))]
  else [((physReg x.frm d).val, extended n signed v)]

/-- Put values into physical registers. -/
def Core.putAll (x : Core) (l : List (Nat × Word)) : Core :=
  { x with x := l.foldl (fun (m : Vector Word 260) (e : Nat × Word) => m.set (Fin.ofNat 260 e.1) e.2) x.x }

/-- LD xd, [xs + off]: a register-region value arrives with its acknowledge; the next instruction is the load's
shadow. -/
def execXLd (c : Fin 4) (d n : Fin 16) (ext : Option (BitVec 12)) (env : BusEnv) (s : State) : Result :=
  .next (s.coreStep c (.xLd c d n ext {}) fun t =>
    let x := t.coreAt c
    match loadWidth (widthCode ext) with
    | none => ({ fault := some { code := 0x01 } }, t)
    | some (size, signed) =>
      if size = 8 ∧ d.val % 2 = 1 then ({ fault := some { code := 0x01 } }, t)
      else
        let a := (x.get n + accessOffset ext size).toNat
        match t.coreRead c a size env with
        | (.ok v, u) =>
          let y := u.coreAt c
          let l := y.loaded d size signed v
          let old := l.map fun (e : Nat × Word) => (e.1, y.x[Fin.ofNat 260 e.1])
          ({ hits := [(a, false)], shadow := old },
            u.modCore c fun z => if 0x40000000 ≤ a then z.sends a l false else z.putAll l)
        | (.fault y, u) => ({ fault := some y }, u)
        | (.waits, u) => ({ waits := true }, u))

/-- ST xd, [xs + off]. -/
def execXSt (c : Fin 4) (d n : Fin 16) (ext : Option (BitVec 12)) (env : BusEnv) (s : State) : Result :=
  .next (s.coreStep c (.xSt c d n ext {}) fun t =>
    let x := t.coreAt c
    match storeWidth (widthCode ext) with
    | none => ({ fault := some { code := 0x01 } }, t)
    | some size =>
      if size = 8 ∧ d.val % 2 = 1 then ({ fault := some { code := 0x01 } }, t)
      else
        let a := (x.get n + accessOffset ext size).toNat
        let v := if size = 8 then x.pair d else (x.get d).toNat % 2 ^ (8 * size)
        match t.coreWrite c a size v env with
        | (.ok _, u) => ({ hits := [(a, true)] }, u)
        | (.fault y, u) => ({ fault := some y }, u)
        | (.waits, u) => ({ waits := true }, u))

/-! ### Long instructions: one command is one element (R268–R272) -/

/-- The element has been done: the instruction finishes when its count has become 0. -/
def longRan (count : Word) (hits : List (Nat × Bool)) : Ran := { stays := count != 1, hits := hits }

/-- BMOV xs: an element copies one word. -/
def execXBmov (c : Fin 4) (n : Fin 16) (rd wr : BusEnv) (s : State) : Result :=
  .next (s.coreStep c (.xBmov c n {} {}) fun t =>
    let x := t.coreAt c
    if !groupOk n 3 then ({ fault := some { code := 0x01 } }, t)
    else
      let dst := x.get n
      let src := x.get (n.val + 1)
      let count := x.get (n.val + 2)
      if count = 0 then ({}, t)
      else if dst.toNat % 4 ≠ 0 then ({ fault := some { code := 0x03, faddr := dst.toNat, write := true } }, t)
      else if src.toNat % 4 ≠ 0 then ({ fault := some { code := 0x03, faddr := src.toNat } }, t)
      else match t.coreRead c src.toNat 4 rd with
      | (.ok v, u) =>
        match u.coreWrite c dst.toNat 4 v wr with
        | (.ok _, w) =>
          (longRan count [(src.toNat, false), (dst.toNat, true)], w.modCore c fun y =>
            ((y.put n (dst + 4)).put (n.val + 1) (src + 4)).put (n.val + 2) (count - 1))
        | (.fault y, w) => ({ fault := some y }, w)
        | (.waits, w) => ({ waits := true }, w)
      | (.fault y, u) => ({ fault := some y }, u)
      | (.waits, u) => ({ waits := true }, u))

/-- VMAC xd, xs: an element adds the exact product of two Q16.16 words; one that saturates sets V. -/
def execXVmac (c : Fin 4) (d n : Fin 16) (ra rb : BusEnv) (s : State) : Result :=
  .next (s.coreStep c (.xVmac c d n {} {}) fun t =>
    let x := t.coreAt c
    let count := x.get (n.val + 2)
    if !groupOk n 3 || !groupOk d 2 || overlap d 2 n 3 || 4096 < count.toNat then ({ fault := some { code := 0x01 } }, t)
    else
      let a := x.get n
      let b := x.get (n.val + 1)
      if count = 0 then ({}, t)
      else if a.toNat % 4 ≠ 0 then ({ fault := some { code := 0x03, faddr := a.toNat } }, t)
      else if b.toNat % 4 ≠ 0 then ({ fault := some { code := 0x03, faddr := b.toNat } }, t)
      else match t.coreRead c a.toNat 4 ra with
      | (.ok va, u) =>
        match u.coreRead c b.toNat 4 rb with
        | (.ok vb, w) =>
          let (r, sat) := macStep (x.pair d) (BitVec.ofNat 32 va) (BitVec.ofNat 32 vb)
          (longRan count [(a.toNat, false), (b.toNat, false)], w.modCore c fun y =>
            ((((if sat then y.setV true else y).putPair d (ofSigned 64 r)).put n (a + 4)).put (n.val + 1) (b + 4)).put
              (n.val + 2) (count - 1))
        | (.fault y, w) => ({ fault := some y }, w)
        | (.waits, w) => ({ waits := true }, w)
      | (.fault y, u) => ({ fault := some y }, u)
      | (.waits, u) => ({ waits := true }, u))

/-- BCRC xd, xs: an element folds one byte into the CRC-32C in xd. -/
def execXBcrc (c : Fin 4) (d n : Fin 16) (env : BusEnv) (s : State) : Result :=
  .next (s.coreStep c (.xBcrc c d n {}) fun t =>
    let x := t.coreAt c
    if !groupOk n 2 || overlap d 1 n 2 then ({ fault := some { code := 0x01 } }, t)
    else
      let p := x.get n
      let count := x.get (n.val + 1)
      if count = 0 then ({}, t)
      else match t.coreRead c p.toNat 1 env with
      | (.ok v, u) =>
        (longRan count [(p.toNat, false)], u.modCore c fun y =>
          ((y.put d (BitVec.ofNat 32 (crcByte (x.get d).toNat v))).put n (p + 1)).put (n.val + 1) (count - 1))
      | (.fault y, u) => ({ fault := some y }, u)
      | (.waits, u) => ({ waits := true }, u))

end Sys2Proof.Machine
end

