-- ==== Sys2Proof/Machine/DebugBus.lean ====
section
/-! DEFINITION. The debug accesses: DBGACC, the system access port, and the memory commands of the monitor
(R502–R504, R514, R520). -/

namespace Sys2Proof.Machine

/-- The registers DBGACC reaches in a locked hall: ID, STATUS, CMD, LOCK, UNLOCK_KEY (R520). -/
def lockedReach (index : Nat) : Bool := index < 4 || (0x18 ≤ index && index < 0x20)

/-- DBGACC: one access to the DBG register at 0x4E00_0000 + 4 × INDEX (R502). -/
def execDbgacc (write : Bool) (index : Fin 512) (data : Word) (s : State) : Result :=
  .next (if s.tapRuns then
    let s := s.tap 0x10
    let a := DBG.base + 4 * index.val
    let p : Place := ⟨.dbg, 0, 4 * index.val⟩
    if s.debugLocked && !lockedReach index.val then
      { s with dbg := { s.dbg with accErr := true, accRead := if write then s.dbg.accRead else 0 } }
    else if s.reach a ≠ 0 then { s with dbg := { s.dbg with accErr := true } }
    else
      let s := { s with dbg := { s.dbg with accErr := false } }
      if write then s.writeReg 6 p data.toNat
      else
        let (v, t) := s.readReg 6 p false
        { t with dbg := { t.dbg with accRead := v } }
  else s)

/-- The bytes of a system access (SAP_CFG.SIZE). -/
def State.sapSize (s : State) : Nat :=
  match s.getF DBG.base DBG.SAP_CFG.SIZE with
  | 1 => 2
  | 2 => 1
  | _ => 4

/-- The acknowledge of a system access has returned: BUSY and REFUSED end, ERR and KIND say how, SAP_ADDR moves on
(R503).  A debug reset that the access itself made has ended it. -/
def State.sapDone (s : State) (addr size : Nat) (kind : Option Nat) : State :=
  if s.dbg.sap.isNone then s
  else
    let b := DBG.base
    let s := ((s.setB b DBG.SAP_STATUS.BUSY false).setB b DBG.SAP_STATUS.REFUSED false).setB b DBG.SAP_STATUS.ERR
      kind.isSome
    let s := match kind with
      | some k => s.setF b DBG.SAP_STATUS.KIND k
      | none => s
    let s := if s.getB b DBG.SAP_CFG.AUTOINC then s.setF b DBG.SAP_ADDR.ADDR (addr + size) else s
    { s with dbg := { s.dbg with sap := none } }

/-- SAP_READ: the read that SAP_CMD.READ asked for (R503, R504). -/
def execSapRead (env : BusEnv) (s : State) : Result :=
  .next (if s.dbg.sap = some false ∧ s.islandUp .dbg then
    let a := s.getF DBG.base DBG.SAP_ADDR.ADDR
    let n := s.sapSize
    match s.busRead 6 a n (s.getB DBG.base DBG.SAP_CFG.PEEK) env with
    | (.ok v, t) => (t.setF DBG.base DBG.SAP_DATA.DATA v).sapDone a n none
    | (.wait, t) => t
    | (.err k, t) => t.sapDone a n (some k)
  else s)

/-- SAP_WRITE: the write that SAP_CMD.WRITE asked for (R503). -/
def execSapWrite (env : BusEnv) (s : State) : Result :=
  .next (if s.dbg.sap = some true ∧ s.islandUp .dbg then
    let a := s.getF DBG.base DBG.SAP_ADDR.ADDR
    let n := s.sapSize
    match s.busWrite 6 a n (s.getF DBG.base DBG.SAP_DATA.DATA % 2 ^ (8 * n)) env with
    | (.ok _, t) => t.sapDone a n none
    | (.wait, t) => t
    | (.err k, t) => t.sapDone a n (some k)
  else s)

/-- What a run of accesses came to: how it ended, the data read, the state. -/
structure Sweep where
  kind : Option Nat := none
  waits : Bool := false
  data : List (BitVec 8) := []

/-- Peek reads of `n` words from `a`, ascending, up to the first bus error (R514). -/
def State.peekWords (s : State) (a : Nat) : Nat → List BusEnv → List (BitVec 8) → Sweep × State
  | 0, _, acc => ({ data := acc }, s)
  | n + 1, envs, acc =>
    match s.busRead 6 a 4 true (envs.headD {}) with
    | (.ok v, t) => t.peekWords (a + 4) n envs.tail (acc ++ leBytes v 4)
    | (.wait, t) => ({ waits := true, data := acc }, t)
    | (.err k, t) => ({ kind := some k, data := acc }, t)

/-- Writes of words from `a`, ascending, up to the first bus error (R514). -/
def State.pokeWords (s : State) (a : Nat) : List Nat → List BusEnv → Sweep × State
  | [], _ => ({}, s)
  | w :: ws, envs =>
    match s.busWrite 6 a 4 w (envs.headD {}) with
    | (.ok _, t) => t.pokeWords (a + 4) ws envs.tail
    | (.wait, t) => ({ waits := true }, t)
    | (.err k, t) => ({ kind := some k }, t)

/-- The limits of MEM_READ and MEM_WRITE (R514). -/
def memLimits (m : RingMsg) : Bool :=
  let n := numAt m.payload 8 4
  n % 4 = 0 && n ≤ 236 && numAt m.payload 4 4 % 4 = 0

/-- An executed memory command answers; one that meets a memory held from it, or a flash bank at work, stays in
front and is carried out as a whole later. -/
def State.monMemory (s : State) (cmd : Nat) (run : RingMsg → State → Sweep × State) : State :=
  match s.dbg.queue with
  | [] => s
  | m :: _ =>
    let (r, t) := run m s
    if !s.debugLocked && s.islandUp .dbg && byteAt m.payload 0 == cmd && memLimits m && r.waits then
      { s with flash := t.flash, free := t.free }
    else
      s.monFront cmd fun m u =>
        if !memLimits m then ({ status := 4 }, u)
        else
          let (r, v) := run m u
          match r.kind with
          | none => ({ data := r.data }, v)
          | some k => ({ status := 2, kind := k, data := r.data }, v)

/-- MEM_READ (R514). -/
def execMemRead (env : List BusEnv) (s : State) : Result :=
  .next (s.monMemory 1 fun m t => t.peekWords (numAt m.payload 4 4) (numAt m.payload 8 4 / 4) env [])

/-- MEM_WRITE (R514). -/
def execMemWrite (env : List BusEnv) (s : State) : Result :=
  .next (s.monMemory 2 fun m t =>
    t.pokeWords (numAt m.payload 4 4)
      ((List.range (numAt m.payload 8 4 / 4)).map fun i => numAt m.payload (12 + 4 * i) 4) env)

end Sys2Proof.Machine
end

