-- ==== Sys2Proof/Machine/Lines.lean ====
section
/-! DEFINITION. The lines of the level sources, and LEVEL_SOURCE, by which a change of one reaches the crier (R131,
R152, R207, R238, R335, R336, R375, R408, R452, R498, R537). -/

namespace Sys2Proof.Machine

/-- Comparator `c`, source 49 + c. -/
def State.cmpLine (s : State) (c : Nat) : Bool :=
  let b := CMP.base c
  (s.getB b CMP.IRQ_EN.LATCH && s.getB b CMP.LATCH.LATCH)
    || (s.getB b CMP.IRQ_EN.FLAGS && bitsOf (s.rd (b + CMP.LATCH.LATCH.off)).toNat 7 4 != 0)

/-- Flash controller: HALTED, HEAD = TAIL, SUSP, any TORN_MAP bit. -/
def State.flashLineOf (s : State) (n : Nat) : Bool :=
  s.bit FLC.base FLC.IRQ_EN.SRC (n - 109) && match n with
  | 110 => s.getB FLC.base FLC.STATUS.HALTED
  | 111 => s.getF FLC.base FLC.FQ_HEAD.HEAD == s.getF FLC.base FLC.FQ_TAIL.TAIL
  | 112 => s.getB FLC.base FLC.STATUS.SUSP
  | _ => (List.range 8).any fun w => s.getB FLC.base (FLC.TORN_MAP.TORN.at (4 * w))

/-- The ring. -/
def State.ringLineOf (s : State) (n : Nat) : Bool :=
  let b := KNR.base
  s.bit b KNR.IRQ_EN.SRC (n - 117) && match n with
  | 119 => s.getB b KNR.STALE_LO.NODES || s.getB b KNR.STALE_HI.NODES
  | 120 => s.getB b KNR.ABSENT_LO.NODES || s.getB b KNR.ABSENT_HI.NODES
  | 121 => !s.getB b (portUpF 0)
  | 122 => !s.getB b (portUpF 1)
  | 123 => s.getB b KNR.STATUS.WRAPPED
  | 124 => s.getB b KNR.STATUS.MEMBER && !s.getB b KNR.STATUS.MT_LOCKED
  | 125 => s.getB b KNR.STATUS.CYCLE_LOST
  | 126 => s.getB b KNR.STATUS.RX_COUNT
  | 127 => !s.getB b KNR.STATUS.TX_BUSY
  | 129 => s.getB b KNR.STATUS.MKT_IN
  | _ => s.getB b KNR.STATUS.OVERBOOK

/-- The attic recorder. -/
def State.atticLineOf (s : State) (n : Nat) : Bool :=
  let b := ATC.base
  s.bit b ATC.IRQ_EN.SRC (n - 133) && match n with
  | 134 => s.getB b ATC.STATUS.DROPPING
  | 135 => s.getB b ATC.STATUS.DRV_FAIL
  | 136 => s.getB b ATC.STATUS.WEAR
  | 139 => s.getB b ATC.CTRL.ENABLE && !s.getB b ATC.STATUS.READY
  | _ => s.getB b ATC.STATUS.NO_REGION || s.getB b ATC.STATUS.REG_BAD

/-- The serial peripherals: a condition that the block's IRQ_EN enables. -/
def State.serialLineOf (s : State) (n : Nat) : Bool :=
  if n < 145 then
    let b := SPI.base (n - 141)
    (s.getB b SPI.IRQ_EN.RX_NE && s.getB b SPI.STATUS.RX_LVL) || (s.getB b SPI.IRQ_EN.TX_EMPTY && !s.getB b SPI.STATUS.TX_LVL)
  else if n < 147 then
    let b := UART.base (n - 145)
    (s.getB b UART.IRQ_EN.RX_NE && s.getB b UART.STATUS.RX_LVL)
      || (s.getB b UART.IRQ_EN.TX_EMPTY && !s.getB b UART.STATUS.TX_LVL)
  else if n < 149 then
    let b := CAN.base (n - 147)
    (s.getB b CAN.IRQ_EN.RX_NE && s.getB b CAN.STATUS.RX_NE)
      || (s.getB b CAN.IRQ_EN.TX_DONE && !s.getB b CAN.TX_PEND.PEND)
  else if n < 151 then
    let b := CAN.base (n - 149)
    s.getB b CAN.IRQ_EN.ERR && s.getB b CAN.STATUS.STATE
  else
    let b := IIC.base (n - 151)
    (s.getB b IIC.IRQ_EN.RX_NE && !s.iic[Fin.ofNat 2 (n - 151)].rx.isEmpty)
      || (s.getB b IIC.IRQ_EN.HALTED && s.getB b IIC.STATUS.HALTED)

/-- Cellar and arming. -/
def State.cellarLineOf (s : State) (n : Nat) : Bool :=
  let b := CEL.base
  s.bit b CEL.IRQ_EN.SRC (n - 171) && match n with
  | 172 => s.armState == 3
  | 173 => s.getB b CEL.STATUS.PFAIL
  | 176 => s.getB b CEL.STATUS.SUP_WARN
  | _ => s.getB b CEL.RESTORE_STAT.RESET_VAL || s.getB b CEL.RESTORE_STAT.OLDER

/-- The level sources of the blocks; EXTINT and GPIO lines follow their filters (R342, R526). -/
def blockLevel (n : Nat) : Bool :=
  (1 ≤ n && n ≤ 48 && n % 2 == 0) || (49 ≤ n && n ≤ 88) || (110 ≤ n && n ≤ 113) || (119 ≤ n && n ≤ 127) || n == 129 || n == 130
    || (134 ≤ n && n ≤ 136) || n == 139 || n == 140 || (141 ≤ n && n ≤ 152) || n == 172 || n == 173 || n == 176 || n == 178

/-- The line of block level source `n`. -/
def State.lineOf (s : State) (n : Nat) : Bool :=
  if n ≤ 48 then (if n % 4 = 2 then s.engLevel ((n - 2) / 4) else s.cnvLevel ((n - 4) / 4))
  else if n ≤ 72 then s.cmpLine (n - 49)
  else if n ≤ 88 then s.bit TRP.base TRP.GRP_STATUS.ACTIVE (n - 73) && s.bit TRP.base TRP.IRQ_EN.GRP (n - 73)
  else if n ≤ 116 then s.flashLineOf n
  else if n ≤ 132 then s.ringLineOf n
  else if n ≤ 140 then s.atticLineOf n
  else if n ≤ 152 then s.serialLineOf n
  else s.cellarLineOf n

/-- LEVEL_SOURCE: the line of level source `n`, as it now is, reaches the crier; an asserted line pends the source
while no handler holds it (R336); a crier in reset takes none (R385). -/
def execLevelSource (n : Fin 256) (s : State) : Result :=
  let s := s.arrive
  .next (if !s.islandUp .fabric then s else if blockLevel n then s.setLine n (s.lineOf n) else s.levelPend n)

end Sys2Proof.Machine
end

