-- ==== Sys2Proof/Machine/Reset.lean ====
section
/-! DEFINITION. Hall resets and the reset sequence, option load, restore, the end of island and core resets,
supplies, the end of a snapshot (R366, R371, R378, R381, R385–R397, R406, R536). -/

namespace Sys2Proof.Machine

/-! ### The options (R370, R371, R536) -/

/-- The option values of the copy at `a`. -/
def State.optionsAt (s : State) (a source : Nat) : Options :=
  let w (o : Nat) : Nat := s.mem32 (a + o)
  let r := bitsOf (w 0x40) 1 0
  { source := source
    seq := BitVec.ofNat 32 (w 4)
    coreEn := BitVec.ofNat 4 (bitsOf (w 8) 3 0 ||| 1)
    aisleEn := BitVec.ofNat 3 (bitsOf (w 8) 6 4)
    refRing := (w 8).testBit 8
    bootVec := Vector.ofFn fun n => BitVec.ofNat 24 (w (0xC + 4 * n.val))
    legSafe := BitVec.ofNat 96 (s.bytes (a + 0x20) 12)
    gpioLvl := BitVec.ofNat 64 (s.bytes (a + 0x30) 8)
    gpioOe := BitVec.ofNat 64 (s.bytes (a + 0x38) 8)
    restore := BitVec.ofNat 2 (if r = 3 then 2 else r)
    node := BitVec.ofNat 7 (bitsOf (w 0x44) 6 0)
    master := (w 0x44).testBit 8
    ports := BitVec.ofNat 2 (bitsOf (w 0x44) 11 10)
    ringWord := BitVec.ofNat 12 (bitsOf (w 0x44) 11 0)
    wdt0 := BitVec.ofNat 32 (w 0x48)
    wdt1 := BitVec.ofNat 32 (w 0x4C)
    dbgLock := BitVec.ofNat 2 (bitsOf (w 0x50) 1 0)
    keyHash := BitVec.ofNat 256 (s.bytes (a + 0x60) 32) }

/-- The built-in values: the lock is open. -/
def builtIn : Options := { dbgLock := 3 }

/-- The copy that the option load chooses: 0 built-in values, 1 A, 2 B; a copy that cannot be read is not valid. -/
def State.chooseCopy (s : State) (bad : BitVec 2) : Bool × Bool × Nat :=
  let va := s.optValid (optBase 0) && !bad.getLsbD 0
  let vb := s.optValid (optBase 1) && !bad.getLsbD 1
  let newer := (s.mem32 (optBase 0 + 4) + 2 ^ 32 - s.mem32 (optBase 1 + 4)) % 2 ^ 32 < 2 ^ 31
  (va, vb, if va && vb then (if newer then 1 else 2) else if va then 1 else if vb then 2 else 0)

/-- The option load (R371): OPT_STATUS, OPT_SEQ, the ledger, the safe-level latch and with it the legs'
balls (R391), the watchdogs' and the GPIO block's option values.  A hall reset leaves the ring island as it is, its node ID, master bit and ports included
(R385). -/
def State.loadOptions (s : State) (bad : BitVec 2) : State :=
  let (va, vb, k) := s.chooseCopy bad
  let o := if k = 0 then builtIn else s.optionsAt (optBase (k - 1)) k
  let old := s.options
  let o := if s.islandUp .ring then { o with node := old.node, master := old.master, ports := old.ports } else o
  let s := { s with options := o }
  let s := ((s.setF FLC.base FLC.OPT_STATUS.LOADED k).setB FLC.base FLC.OPT_STATUS.A_VALID va).setB FLC.base
    FLC.OPT_STATUS.B_VALID vb
  let s := if k = 0 then s.ledger 0x09 (s.getF FLC.base FLC.OPT_STATUS.W) 0 0
    else s.setF FLC.base FLC.OPT_SEQ.SEQ o.seq.toNat
  let pair (n l : Nat) : Nat := if n.testBit (2 * l) && n.testBit (2 * l + 1) then n - 2 ^ (2 * l) - 2 ^ (2 * l + 1) else n
  let safe := (List.range 48).foldl pair o.legSafe.toNat
  let s := { s with cellar := { s.cellar with safeLatch := BitVec.ofNat 96 safe } }
  let s := s.forAll 48 fun t l => t.drive l t.now
  let w0 := o.wdt0.toNat
  let w1 := o.wdt1.toNat
  let dog (t : State) (n : Nat) (enable frz lock : Bool) (timeout window : Nat) : State :=
    let b := WDT.base n
    let t := ((t.setF b WDT.CTRL.W 0).setF b WDT.TIMEOUT.TIMEOUT timeout).setF b WDT.WINDOW.WINDOW window
    let t := ((t.setB b WDT.CTRL.ENABLE enable).setB b WDT.CTRL.DBGFRZ frz).setB b WDT.CTRL.LOCK lock
    let t := (t.setB b WDT.STATUS.WIGN false).frozenUpdate
    if enable then t.wdtReload n else (t.setF b WDT.COUNT.COUNT 0).wdtStatus n
  let s := dog s 4 (w1.testBit 0) (w1.testBit 1) (w1.testBit 2) (bitsOf w0 15 0) (bitsOf w0 31 16)
  let s := s.forAll 4 fun t n => dog t n (w1.testBit (4 + n)) (w1.testBit 8) (w1.testBit 9) (bitsOf w1 31 16) (bitsOf w1 31 16)
  let s := (s.setF GPIO.base GPIO.OUT_LO.OUT (o.gpioLvl.toNat % 2 ^ 32)).setF GPIO.base GPIO.OUT_HI.OUT (o.gpioLvl.toNat / 2 ^ 32)
  let s := (s.setF GPIO.base GPIO.OE_LO.OE (o.gpioOe.toNat % 2 ^ 32)).setF GPIO.base GPIO.OE_HI.OE (o.gpioOe.toNat / 2 ^ 32)
  if s.cellar.fresh then s.setF DBG.base DBG.LOCK.STATE o.dbgLock.toNat else s

/-- The journal is read: TORN_MAP, and a ledger entry for each torn sector, written on as the queue fills; a word that
cannot be read makes its sector torn (R366, R384, R400). -/
def State.readJournal (s : State) (unreadable : List Nat) : State :=
  s.forAll 256 fun t x =>
    let torn := t.journalOpen x || unreadable.contains (journalAddr x)
    let t := t.setBit FLC.base (FLC.TORN_MAP.TORN.at (4 * (x / 32 % 8))) (x % 32) torn
    let t := if 16 ≤ t.cellar.queue.length then t.ledgerWrite else t
    if torn then t.ledger 0x08 0 x (t.mem32 (journalAddr x + 4)) else t

/-! ### Restore (R69, R396, R397) -/

/-- The record of a block instance in a set: the address of its data and its length, searched from `a` over `n`
records. -/
def State.findRecord (s : State) (id inst a : Nat) : Nat → Option (Nat × Nat)
  | 0 => none
  | n + 1 =>
    let h := s.mem32 a
    let len := bitsOf h 31 16
    if bitsOf h 7 0 = id ∧ bitsOf h 15 8 = inst then some (a + 8, len) else s.findRecord id inst (a + 8 + 4 * len) n

/-- The words of a good record of set `k`: present, its CRC right, every word readable. -/
def State.goodRecord (s : State) (unreadable : List Nat) (id inst k : Nat) : Option (List Nat) :=
  match s.findRecord id inst (setBase k) (s.cellar.setCount.toList.getD k 0) with
  | none => none
  | some (a, len) =>
    let ws := (List.range len).map fun j => s.mem32 (a + 4 * j)
    let bad := unreadable.any fun u => u < a + 4 * len && a - 8 < u + 8
    if bad || crcWords (s.mem32 (a - 8) :: ws) != s.mem32 (a - 4) then none else some ws

/-- One Restored register takes its word: bits `mask`, written directly, with what such a word sets going. -/
def State.restoreWord (s : State) (b : Blk) (inst o mask v : Nat) : State :=
  let a := b.base inst + o
  let old := (s.rd a).toNat
  let new := (old &&& (0xFFFFFFFF - mask)) ||| (v &&& mask)
  match b, o with
  | .eng, 0x34 => s.setNcoFreq inst new
  | .cri, _ => if 0x40 ≤ o ∧ o < 0x60 then s.criExtCfg ((o - 0x40) / 4) new else s.wr a (BitVec.ofNat 32 new)
  | _, _ => (s.wr a (BitVec.ofNat 32 new)).afterWrite ⟨b, inst, o⟩ old new

/-- A block is restored: every other field first, the ENABLE field last (R69). -/
def State.restoreBlock (s : State) (b : Blk) (inst : Nat) (ws : List Nat) : State :=
  let rows := b.restored.zip ws
  let first (t : State) (x : (Nat × Nat) × Nat) : State :=
    let m := if b.hasEnable && x.1.1 = 0 then x.1.2 &&& 0xFFFFFFFE else x.1.2
    t.restoreWord b inst x.1.1 m x.2
  let last (t : State) (x : (Nat × Nat) × Nat) : State :=
    if b.hasEnable && x.1.1 = 0 && x.1.2.testBit 0 then t.restoreWord b inst 0 1 x.2 else t
  rows.foldl last (rows.foldl first s)

/-- The set that policy `p` names, if it is complete (R396). -/
def State.restoreSource (s : State) (p : Nat) : Option Nat :=
  if p = 0 then
    let k := s.getF CEL.base CEL.STATUS.SNAP_NEWEST
    if s.bit CEL.base CEL.STATUS.SNAP_VALID k then some k else none
  else if s.getB CEL.base CEL.STATUS.DEF_VALID then some 2 else none

/-- A block under policy 0 or 1: its record, the older slot's, or Reset values (R397). -/
def State.restoreOne (s : State) (unreadable : List Nat) (p k id : Nat) (b : Blk) (inst : Nat) : State :=
  match s.goodRecord unreadable id inst k with
  | some ws => s.restoreBlock b inst ws
  | none =>
    let older := if p = 0 && s.bit CEL.base CEL.STATUS.SNAP_VALID (1 - k) then s.goodRecord unreadable id inst (1 - k) else none
    let s := s.setF CEL.base CEL.RESTORE_STAT.FAILED (s.getF CEL.base CEL.RESTORE_STAT.FAILED + 1)
    let s := s.ledger 0x0B id inst older.isSome.toNat
    match older with
    | some ws => (s.setB CEL.base CEL.RESTORE_STAT.OLDER true).restoreBlock b inst ws
    | none => s.setB CEL.base CEL.RESTORE_STAT.RESET_VAL true

/-- A restore of the blocks that `which` names, under the loaded policy (R396). -/
def State.restore (s : State) (unreadable : List Nat) (which : Blk → Nat → Bool) : State :=
  let p := s.options.restore.toNat
  let s := (s.setF CEL.base CEL.RESTORE_STAT.W 0).setF CEL.base CEL.RESTORE_STAT.POLICY p
  if p = 2 then s
  else
    match s.restoreSource p with
    | none => s.setB CEL.base CEL.RESTORE_STAT.RESET_VAL true
    | some k =>
      let s := s.setF CEL.base CEL.RESTORE_STAT.SLOT (k % 2)
      instances.foldl (fun t (x : Nat × Blk × Nat) => if which x.2.1 x.2.2 then t.restoreOne unreadable p k x.1 x.2.1 x.2.2 else t) s

/-! ### The hall reset (R378, R385, R404, R411) -/

/-- A flash operation is cut short: what it was programming is undefined; an erase stays torn (R367, R378). -/
def State.flashCut (s : State) : State :=
  let scramble (t : State) (a : Nat) : State := t.forAll 4 fun u i =>
    let (v, w) := u.takeFree
    w.setBytes (a + 8 * i) 8 v.toNat
  let s := match s.flash.cur with
    | some o =>
      if o.started && o.result.isNone && o.op = 1 && o.line.isSome then scramble s (lineAddr (o.faddr / 32 + o.idx))
      else if o.started && o.result.isNone && (o.op = 6 || o.op = 7) then
        s.forAll 256 fun t i => scramble t (optBase (o.faddr % 2) + 32 * i)
      else s
    | none => s
  let seq := s.getF FLC.base FLC.JSEQ.SEQ
  { (s.clearRegs FLC.base (FLC.base + 0x1000000)).setF FLC.base FLC.JSEQ.SEQ seq with flash := { ones := s.flash.ones } }

/-- SYS takes its Reset values but for the islands that stay up, the references and their PLLs. -/
def State.resetSys (s : State) : State :=
  let isl := s.getF SYS.base SYS.ISL_STATUS.W
  let clk := s.getF SYS.base SYS.CLK_STATUS.W
  ((s.clearRegs SYS.base (SYS.base + 0x1000)).setF SYS.base SYS.ISL_STATUS.W (isl &&& 0xA00 ||| 0x100)).setF
    SYS.base SYS.CLK_STATUS.W (clk &&& 0x7003)

/-- The blocks of every island but the cellar, the debug island and the ring island take their reset state. -/
def State.resetBlocks (s : State) : State :=
  let s := s.flashCut
  let s := s.clearRegs 0x40000000 0x49000000
  let s := ((s.clearRegs 0x4B000000 0x4C0F0000).clearRegs (CEL.base + 0x800) (CEL.base + 0x1000)).clearRegs
    ODE.base SYS.base
  let s := (s.resetSys).setF CEL.base CEL.LEDGER_LOST.COUNT 0
  { s with
    shadows := s.shadows.filter fun (x : Shadow) =>
      (KNR.base ≤ x.addr && x.addr < ATC.base) || (CEL.base ≤ x.addr && x.addr < CEL.base + 0x800)
    readData := Vector.replicate 16 0, writeBack := [], crier := {}
    aisle := Vector.replicate 3 {}, car := Vector.replicate 12 {}, leg := Vector.replicate 48 {}
    cmp := Vector.replicate 24 {}, cnv := Vector.replicate 12 {}, eng := Vector.replicate 12 {}
    qep := Vector.replicate 4 {}, trip := {}, ode := {}, attic := {}, core := Vector.replicate 4 {}
    spi := Vector.replicate 4 {}, uart := Vector.replicate 2 {}, can := Vector.replicate 2 {}
    iic := Vector.replicate 2 {} }

/-- A hall reset of a TYPE begins, with the rails below threshold of a supply-monitor reset; a trailer written on its
edge has VALID = 0 (R451). -/
def State.hallReset (s : State) (type sup : Nat) : State :=
  let s := s.ledger 0x02 type sup 0
  let s := s.resetBlocks
  let s := ((s.setF CEL.base CEL.RST_CAUSE.CORE 0).setF CEL.base CEL.RST_CAUSE.TYPE type).setF CEL.base CEL.RST_CAUSE.SUP sup
  let s := s.setB CEL.base CEL.STATUS.RST_REFUSED false
  let s := { s with cellar := { s.cellar with
    phase := .inReset, releaseAt := s.now, resetDue := none, coreReset := Vector.replicate 4 none
    islReset := s.cellar.islReset.filter fun (p : Nat × Nat) => p.1 == 8
    atticWait := true, keyBy := 0, keyUntil := 0, armAt := s.now, armPrev := 0, expiry := Vector.replicate 5 none } }
  let s := s.setB TRP.base TRP.STATUS.MKT_IN (s.getB KNR.base KNR.STATUS.MKT_IN)
  let own (g : RingSlot) : RingSlot := if g.node = s.nodeId then { g with valid := false } else g
  let s := if s.ring.frameAt = some s.now then
      s.modRing fun r => { r with frameOut := r.frameOut.map fun f => { f with slots := f.slots.map own } }
    else s
  (s.marketAssert).forAll 48 fun t l => t.drive l t.now

/-- HALL_RESET_START: the hall reset that RST_CMD, the hall watchdog or a shutdown has scheduled begins (R389, R395,
R407). -/
def execHallResetStart (s : State) : Result :=
  .next (match s.cellar.resetDue with
  | some (type, t) => (s.atTime t).hallReset type 0
  | none => s)

/-- RESET_N: the filter passes a level that the ball has held for 16 cellar cycles (R386); a hold of CMD.SHUTDOWN ends
once the ball has gone low and high again (R395). -/
def execResetN (x : BallLevel) (s : State) : Result :=
  .next (if !filterPasses x.since cellarCycle 16 then s
  else if x.level then
    let rose := s.cellar.resetLow
    { s with cellar := { s.cellar with resetLow := false
                                       shutHold := s.cellar.shutHold && !rose
                                       releaseAt := if rose then max s.cellar.releaseAt s.now else s.cellar.releaseAt } }
  else
    let s := if s.cellar.phase == .inReset then s else s.hallReset 2 0
    { s with cellar := { s.cellar with resetLow := true } })

/-- SUPPLY_MONITOR: a rail falls below its reset threshold, or rises above it (R381); without VDD_CORE (rail 0) or
VDD_SER (rail 3) the ring island is down (R450). -/
def execSupplyMonitor (rail : Fin 4) (below : Bool) (s : State) : Result :=
  let rails := BitVec.ofNat 4 (withBit s.cellar.railsLow.toNat rail below)
  let s := { s with cellar := { s.cellar with railsLow := rails } }
  .next (if below then
    let s := if s.cellar.phase == .inReset then s else s.hallReset 3 rails.toNat
    if rail = 0 ∨ rail = 3 then ((s.setIsland .ring false).setB SYS.base SYS.CLK_STATUS.SER_LOCK false).resetRing else s
  else if rails = 0 then
    { s with cellar := { s.cellar with releaseAt := max s.cellar.releaseAt (s.now + 200 * us) } }
  else s)

/-- SUP_WARN: VDD_CORE crosses its warning threshold (R381). -/
def execSupWarn (below : Bool) (s : State) : Result := .next (s.setB CEL.base CEL.STATUS.SUP_WARN below)

/-- XIN_CLOCK_CHANGE: a 25 MHz clock appears on XIN or is gone (R49). -/
def execXinClockChange (present : Bool) (s : State) : Result :=
  let s := s.setB SYS.base SYS.CLK_STATUS.XIN_OK present
  .next (if s.getB SYS.base SYS.CLK_STATUS.REF_SRC then s
  else s.setB SYS.base SYS.CLK_STATUS.REF_LOCK (present && s.cellar.phase == .up))

/-! ### The reset sequence (R390) -/

/-- A core island comes out of reset: every control register at its Reset value, x0–x15 undefined (R248, R387), and
the boot ROM has sent it to BOOT_VEC[n]. -/
def State.releaseCore (s : State) (c : Nat) : State :=
  let fill (t : Vector Word 260 × State) (i : Nat) : Vector Word 260 × State :=
    let (v, u) := t.2.takeFree
    (t.1.set (Fin.ofNat 260 i) (BitVec.ofNat 32 v.toNat), u)
  let (x, s) := (List.range 260).foldl fill (Vector.replicate 260 0, s)
  let s := s.modCore c fun _ => { x := x, pc := s.options.bootVec[Fin.ofNat 4 c], ccntFrom := s.now, gmFrom := s.now }
  { s.setIsland (.core (Fin.ofNat 4 c)) true with
    dbg := { s.dbg with haltRefused := BitVec.ofNat 4 (withBit s.dbg.haltRefused.toNat c false) } }

/-- The ring island comes out of reset: market time starts at 0 (R437). -/
def State.releaseRing (s : State) : State :=
  let s := { s.setB SYS.base SYS.CLK_STATUS.SER_LOCK true with clock := { since := s.now } }
  s.memberUpdate

/-- Blocks that step 6 restores: those of the fabric and of the cellar, of every aisle of AISLE_EN, of the ring after
power-on, and of the attic where it is out of reset. -/
def State.sequenceRestores (s : State) (ring attic : Bool) (b : Blk) (inst : Nat) : Bool :=
  match Place.island ⟨b, inst, 0⟩ with
  | .aisle a => s.options.aisleEn.getLsbD a
  | .ring => ring
  | .attic => attic
  | .dbg => false
  | _ => true

/-- Steps 2 to 8. -/
def State.sequence (s : State) (env : ResetEnv) : State :=
  let s := ((s.setB SYS.base SYS.CLK_STATUS.REF_LOCK true).setB SYS.base SYS.CLK_STATUS.FABRIC_LOCK true)
  let s := (s.loadOptions env.optBad).readJournal env.unreadable
  let s := (s.setF SYS.base SYS.CLK_STATUS.AISLE_LOCK s.options.aisleEn.toNat).setF SYS.base SYS.CLK_STATUS.CORE_LOCK
    s.options.coreEn.toNat
  let ring := !s.islandUp .ring && !(s.cellar.islReset.any fun (p : Nat × Nat) => p.1 == 8)
  let s := if ring then s.releaseRing else s
  let s := s.setB SYS.base SYS.CLK_STATUS.PCIE_LOCK env.pcieLocked
  let s := { s with cellar := { s.cellar with phase := .up, fresh := false, atticWait := !env.pcieLocked } }
  let s := s.restore env.unreadable (s.sequenceRestores ring env.pcieLocked)
  let s := s.forAll 3 fun t a => if t.options.aisleEn.getLsbD a then t.setIsland (.aisle (Fin.ofNat 3 a)) true else t
  let s := if ring then s.setIsland .ring true else s
  let s := if ring then s.memberUpdate else s
  let s := if env.pcieLocked then (s.setIsland .attic true).perstUpdate else s
  let s := s.forAll 5 State.condUpdate
  s.forAll 4 fun t c => if t.options.coreEn.getLsbD c then t.releaseCore c else t

/-- RESET_SEQUENCE: the hall reset is released once nothing holds it, and the sequence runs to its end; without XIN
it waits in step 2 (R390). -/
def execResetSequence (env : ResetEnv) (s : State) : Result :=
  let c := s.cellar
  .next (if c.phase == .up || c.resetLow || c.railsLow != 0 || c.shutHold || !c.power then s
  else
    let s := s.atTime c.releaseAt
    if s.getB SYS.base SYS.CLK_STATUS.XIN_OK then s.sequence env
    else { s with cellar := { s.cellar with phase := .waitXin } })

/-- ATTIC_ISLAND_UP: the PCIe PLL locks after the sequence: the attic leaves reset and is restored (R390). -/
def execAtticIslandUp (env : ResetEnv) (s : State) : Result :=
  .next (if s.cellar.phase == .up && s.cellar.atticWait then
    let s := s.setB SYS.base SYS.CLK_STATUS.PCIE_LOCK true
    let s := { s with cellar := { s.cellar with atticWait := false } }
    let s := s.restore env.unreadable fun b _ => b == .atc
    (s.setIsland .attic true).perstUpdate
  else s)

/-! ### Ends of resets (R387, R388) -/

/-- The end of an island reset: the island comes up once its blocks are restored; groups that are active hold its
legs again (R199, R209). -/
def State.islandBack (s : State) (code : Nat) (env : ResetEnv) : State :=
  let mine (b : Blk) (i : Nat) : Bool :=
    match Place.island ⟨b, i, 0⟩ with
    | .aisle a => a.val == code
    | .ring => code == 8
    | .attic => code == 9
    | _ => false
  if code < 3 then
    let s := (s.restore env.unreadable mine).setIsland (.aisle (Fin.ofNat 3 code)) true
    let s := s.forAll 16 fun t q => t.groupArrives q code (t.bit TRP.base TRP.GRP_STATUS.ACTIVE q)
    (s.forAll 16 fun t j => t.drive (16 * code + j) t.now).forAll 5 State.condUpdate
  else if code = 8 then
    let w := s.options.ringWord
    let s := { s with options := { s.options with
      node := w.extractLsb' 0 7, master := w.getLsbD 8, ports := w.extractLsb' 10 2 } }
    ((s.releaseRing.restore env.unreadable mine).setIsland .ring true).memberUpdate
  else if s.getB SYS.base SYS.CLK_STATUS.PCIE_LOCK then
    ((s.restore env.unreadable mine).setIsland .attic true).perstUpdate
  else { s with cellar := { s.cellar with atticWait := true } }

/-- ISLAND_RESET: the 1 µs of an island reset ends (R388). -/
def execIslandReset (island : Fin 16) (env : ResetEnv) (s : State) : Result :=
  .next (match s.cellar.islReset.find? fun (p : Nat × Nat) => p.1 == island.val with
  | some (code, t) =>
    let s := s.atTime t
    { s with cellar := { s.cellar with islReset := s.cellar.islReset.filter fun (p : Nat × Nat) => p.1 != code } }.islandBack code env
  | none => s)

/-- CORE_RESET: the 1 µs of a core reset ends: the core starts again, its watchdog loads TIMEOUT (R387, R535). -/
def execCoreReset (c : Fin 4) (s : State) : Result :=
  .next (match s.cellar.coreReset[c] with
  | some (_, t) =>
    let s := s.atTime t
    let s := { s with cellar := { s.cellar with coreReset := s.cellar.coreReset.set c none } }
    (s.releaseCore c).wdtReload c
  | none => s)

/-! ### Power (R380, R385) -/

/-- VDD_CEL_LOSS: the cellar, and with it the hall, loses its supply; a set being written stays incomplete. -/
def execVddCelLoss (s : State) : Result :=
  let s := s.resetBlocks
  let s := ((s.setIsland .ring false).resetRing).setIsland .dbg false
  .next { s with cellar := { s.cellar with power := false, phase := .inReset, snap := none, queue := [] } }

/-- Addresses of the fields that the cellar keeps across power loss (R409, R411). -/
def cellarWords (s t : State) : State :=
  let keep (t : State) (x : Nat × Fld) : State := t.setF x.1 x.2 (s.getF x.1 x.2)
  [(CEL.base, CEL.STATUS.DEF_VALID), (CEL.base, CEL.STATUS.SNAP_VALID), (CEL.base, CEL.STATUS.SNAP_NEWEST),
   (CEL.base, CEL.SNAP_SEQ.SEQ), (CEL.base, CEL.LEDGER_HEAD.COUNT), (CEL.base, CEL.LEDGER_HEAD.NEXT),
   (CEL.base, CEL.LEDGER_OVF.COUNT), (FLC.base, FLC.JSEQ.SEQ)].foldl keep t

/-- POWER_ON_RESET: VDD_CEL rises through its threshold: everything is reset but the contents of the cellar store and
of the flash (R385); the levels found at the balls and rails stay as they are. -/
def execPowerOnReset (s : State) : Result :=
  let kept (a : Nat) : Bool :=
    (0x20000000 ≤ a && a < 0x21000000) || (0x30000000 ≤ a && a < 0x30040000) || (0x49002000 ≤ a && a < 0x49006000)
  let t : State := { State.reset with
    pending := s.pending, now := s.now, free := s.flashCut.free, warranted := s.warranted
    mem := s.flashCut.mem.filter fun (x : Host.Cell) => kept x.1
    flash := { ones := s.flash.ones }
    clock := { since := s.now } }
  let t := { t with cellar := { t.cellar with
    powerOnAt := s.now, releaseAt := s.now + 200 * us, resetLow := s.cellar.resetLow
    railsLow := s.cellar.railsLow, trstN := s.cellar.trstN, setCount := s.cellar.setCount } }
  let t := t.setB SYS.base SYS.CLK_STATUS.XIN_OK (s.getB SYS.base SYS.CLK_STATUS.XIN_OK)
  .next (cellarWords s { t with dbg := { upAt := s.now + 10 * us } })

/-! ### The end of a snapshot (R393–R395) -/

/-- The trailer of a set: record count, sequence number, CRC-32C of the two. -/
def State.writeTrailer (s : State) (a count seq : Nat) : State :=
  s.setWords a [count, seq, crcWords [count, seq]]

/-- The running capture ends: trailer, the set is complete, ledger entry 0x0A, source 174; then what waited for
it. -/
def State.snapEnd (s : State) : State :=
  match s.cellar.snap with
  | none => s
  | some r =>
    let seq := (s.getF CEL.base CEL.SNAP_SEQ.SEQ + 1) % 2 ^ 32
    let s := s.writeTrailer r.trailer r.records seq
    let s := { s with cellar := { s.cellar with snap := none, setCount := s.cellar.setCount.set r.target r.records } }
    let s := s.setB CEL.base CEL.STATUS.SNAP_BUSY false
    let s := if r.target = 2 then s.setB CEL.base CEL.STATUS.DEF_VALID true
      else ((s.setBit CEL.base CEL.STATUS.SNAP_VALID r.target true).setF CEL.base CEL.STATUS.SNAP_NEWEST r.target).setF
        CEL.base CEL.SNAP_SEQ.SEQ seq
    let s := (s.ledger 0x0A r.cause 0 (if r.target = 2 then 0 else seq)).celPulse 174
    let s := if s.cellar.shutPending && !s.cellar.snapAgain then
        let t := s.scheduleReset 5 s.now
        { t with cellar := { t.cellar with shutPending := false, shutHold := true } }
      else s
    if s.cellar.snapAgain then
      ({ s with cellar := { s.cellar with snapAgain := false } }).startSnap 3 s.nextSlot
    else s.setB CEL.base CEL.STATUS.SNAP_REFUSED false

end Sys2Proof.Machine
end

