-- ==== Sys2Proof/Machine/Ode.lean ====
section
/-! DEFINITION. The object dictionary: objects, transactions, the engines of the ring and CAN sides, feature
negotiation, CiA 402 axes (R455–R476, R496). -/

namespace Sys2Proof.Machine

/-! ### Objects (R455–R463, R470–R472) -/

/-- An entry of the dictionary: a value that only reads; the commands behind 0x1010, 0x1011 and 0x1F81; a register or a
64-bit register; a DOMAIN in the address space, writable or not; a meter word; the attic readback; a value read
from a register, whole or its top half; controlword, mode and target torque of an axis. -/
inductive OdObj where
  | value (bytes : List (BitVec 8)) (text : Bool)
  | save (toDefaults : Bool)
  | load
  | accept
  | reg (p : Place) (wide : Bool)
  | domain (a len : Nat) (rw : Bool)
  | meter (a : Nat)
  | readback
  | live (a : Nat) (top : Bool)
  | control (x : Fin 8)
  | mode
  | torque (x : Fin 8)
  deriving DecidableEq, Repr

/-- Feature `k` has been accepted (R470). -/
def State.feature (s : State) (k : Nat) : Bool :=
  (s.get64 ODE.base ODE.FEAT_ACC_LO.ACC ODE.FEAT_ACC_HI.ACC).testBit k

/-- Base address of a register-mapped index (R459). -/
def odWindow (ix : Nat) : Option Nat :=
  let rows (b n : Nat) (f : Nat → Nat) : Option Nat := if b ≤ ix ∧ ix < b + n then some (f (ix - b)) else none
  [rows 0x2000 1 fun _ => SYS.base, rows 0x2100 3 AIS.base, rows 0x2110 12 CAR.base, rows 0x2200 12 CNV.base,
   rows 0x2210 12 fun k => STL.base k + 0x100, rows 0x2220 24 CMP.base, rows 0x2300 48 LEG.base,
   rows 0x2400 12 ENG.base, rows 0x2410 12 fun k => ENG.base k + 0x400, rows 0x2420 12 fun k => ENG.base k + 0x4000,
   rows 0x2500 1 fun _ => TRP.base, rows 0x2600 1 fun _ => CRI.base, rows 0x2601 1 fun _ => CRI.base + 0x404,
   rows 0x2700 1 fun _ => FLC.base, rows 0x2800 1 fun _ => CEL.base, rows 0x2801 1 fun _ => CEL.base + 0x800,
   rows 0x2900 1 fun _ => KNR.base, rows 0x2A00 1 fun _ => ATC.base, rows 0x2B00 20 fun p => SPI.base 0 + 0x10000 * p,
   rows 0x2D00 1 fun _ => ODE.base].findSome? id

/-- Subindex `k` of a window: its register, and whether it is the low word of a 64-bit register; high words and
unimplemented offsets do not exist (R459, R460). -/
def odRegister (base k : Nat) : Option OdObj :=
  match place base, place (base + 4 * (k - 1)) with
  | some b, some p =>
    if p.blk = b.blk ∧ p.inst = b.inst ∧ (rowAt p.blk.map p.off).isSome then
      match p.pair with
      | some (_, true) => none
      | some (_, false) => some (.reg p true)
      | none => some (.reg p false)
    else none
  | _, _ => none

/-- The highest subindex of a window. -/
def odHighest (base : Nat) : Nat :=
  (List.range 256).foldl (fun n k => if k ≠ 0 && (odRegister base k).isSome then k else n) 0

/-- A constant of `n` bytes. -/
def odConst (v n : Nat) : OdObj := .value (leBytes v n) false
def odText (cs : List Nat) : OdObj := .value (cs.map (BitVec.ofNat 8 ·)) true

/-! Axes (R472). -/

def axisF (f : Fld) (x : Nat) : Fld := f.at (4 * x)
def State.axisOn (s : State) (x : Nat) : Bool := s.feature 1 && s.getB ODE.base (axisF ODE.AXIS_CFG.EN x)
def State.axisStall (s : State) (x : Nat) : Nat := min 11 (s.getF ODE.base (axisF ODE.AXIS_CFG.STALL x))

/-- The legs of axis `x`. -/
def State.axisLegs (s : State) (x : Nat) : List Nat :=
  ((List.range 4).filter fun j => s.bit ODE.base (axisF ODE.AXIS_CFG.LEGS x) j).map (4 * s.axisStall x + ·)

/-- TRP.LEG_HELD of leg `l`. -/
def State.legHeld (s : State) (l : Nat) : Bool :=
  if l < 32 then s.bit TRP.base TRP.LEG_HELD_LO.HELD l else s.bit TRP.base TRP.LEG_HELD_HI.HELD (l - 32)

/-- The causes of an axis fault (R473) and the error code they show (R472). -/
def State.axisError (s : State) (x : Nat) : Nat :=
  if s.tripReq (s.axisStall x) then 0xFF01 else if (s.axisLegs x).any s.legHeld then 0xFF02 else 0

/-- The state of an axis: a fault reset has effect once both causes are 0 (R473). -/
def State.axisState (s : State) (x : Fin 8) : AxisState :=
  let a := s.ode.axis[x]
  if a.resetting && s.axisError x = 0 then .disabled else a.state

/-- The statusword: the code of CiA 402 (log entry 21), bit 4 while ARMED or TRIPPED, bit 9 (R473). -/
def State.statusword (s : State) (x : Fin 8) : Nat :=
  (match s.axisState x with
   | .disabled => 0x40
   | .ready => 0x21
   | .on => 0x23
   | .enabled => 0x27
   | .fault => 0x08) + 0x10 * (decide (2 ≤ s.armState)).toNat + 0x200

/-- Object `o` of axis `x`. -/
def State.axisObject (s : State) (x : Fin 8) (o sub : Nat) : Except Nat OdObj :=
  if ¬ [0x3F, 0x40, 0x41, 0x5A, 0x60, 0x61, 0x64, 0x71, 0x77, 0x502].contains o then .error 0x06020000
  else if sub ≠ 0 then .error 0x06090011
  else .ok (match o with
    | 0x3F => odConst (s.axisError x) 2
    | 0x40 => .control x
    | 0x41 => odConst (s.statusword x) 2
    | 0x5A => odConst 0 2
    | 0x60 => .mode
    | 0x61 => odConst 10 1
    | 0x64 => .live (QEP.base (s.getF ODE.base (axisF ODE.AXIS_CFG.QEP x)) + QEP.POS.POS.off) false
    | 0x71 => .torque x
    | 0x77 => .live (ENG.base (s.axisStall x) + ENG.MBX_OUT.VALUE.off
        + 4 * s.getF ODE.base (axisF ODE.AXIS_CFG.ACT_WORD x)) true
    | _ => odConst 0x200 4)

/-- Entries of 0x1000 to 0x1FFF (R462). -/
def State.odIdentity (s : State) (ix sub : Nat) : Except Nat OdObj :=
  let one (o : OdObj) : Except Nat OdObj := if sub = 0 then .ok o else .error 0x06090011
  let list (os : List (Nat × OdObj)) : Except Nat OdObj :=
    match os.find? fun e => e.1 == sub with
    | some e => .ok e.2
    | none => .error 0x06090011
  match ix with
  | 0x1000 => one (odConst (if (List.range 8).any s.axisOn then 0x192 else 0) 4)
  | 0x1001 => one (odConst (s.getB TRP.base TRP.STATUS.LATCHED || (List.range 12).any s.tripReq).toNat 1)
  | 0x1008 => one (odText [0x56, 0x4E, 0x34, 0x38, 0x39, 0x36])
  | 0x1009 => one (odText [0x41, 0x30])
  | 0x100A => one (odText [0x31, 0x2E, 0x30])
  | 0x1010 => list ([(0, odConst 4 1), (1, .save false)] ++ if s.feature 5 then [(4, .save true)] else [])
  | 0x1011 => list [(0, odConst 1 1), (1, .load)]
  | 0x1018 => list [(0, odConst 4 1), (1, odConst 0xB7 4), (2, odConst 0x4896 4), (3, odConst 0x100 4),
      (4, odConst (Config.uid.toNat % 2 ^ 32) 4)]
  | 0x1F80 => one (odConst 0x7F 8)
  | 0x1F81 => one .accept
  | 0x1F82 => one (odConst 0x00010000 4)
  | _ => .error 0x06020000

/-- The entry that index and subindex name, or the abort code (R458, R459, R465). -/
def State.odFind (s : State) (ix sub : Nat) : Except Nat OdObj :=
  let one (ok : Bool) (o : OdObj) : Except Nat OdObj :=
    if !ok then .error 0x06020000 else if sub = 0 then .ok o else .error 0x06090011
  if ix < 0x2000 then s.odIdentity ix sub
  else if 0x6000 ≤ ix ∧ ix < 0xA000 then
    let x := Fin.ofNat 8 ((ix - 0x6000) / 0x800)
    if s.axisOn x then s.axisObject x ((ix - 0x6000) % 0x800) sub else .error 0x06020000
  else match odWindow ix with
  | some b =>
    if sub = 0 then .ok (odConst (odHighest b) 1)
    else match odRegister b sub with
    | some o => .ok o
    | none => .error 0x06090011
  | none =>
    match ix with
    | 0x2701 => one (s.feature 0) (.domain 0x49002000 0x2000 false)
    | 0x2702 => one (s.feature 0) (.domain 0x49004000 0x2000 false)
    | 0x2802 => one (s.feature 0) (.domain 0x30038000 0x4000 false)
    | 0x2E00 => one (s.feature 0 && s.feature 6) (.domain 0x30000000 0x20000 true)
    | 0x2E01 =>
      if !s.feature 3 then .error 0x06020000
      else if 1 ≤ sub ∧ sub ≤ 16 then .ok (.meter (0x30000000 + 4 * (sub - 1)))
      else .error 0x06090011
    | 0x2F00 => one (s.feature 0 && s.feature 2) .readback
    | _ => .error 0x06020000

/-! ### Rights and sizes (R455, R456, R460) -/

inductive OdRight where
  | ro | wo | rw | rwd
  deriving DecidableEq, Repr

/-- The right of a register-mapped entry (R460). -/
def RegRow.odRight (r : RegRow) : OdRight :=
  let f := r.rows.filter fun x => !x.reserved
  if f.all fun x => x.acc == .cmd then .wo
  else if f.any fun x => x.acc == .rwd then .rwd
  else if f.any fun x => x.acc == .rw then .rw
  else .ro

def Place.row (p : Place) : RegRow := (rowAt p.blk.map p.off).getD ⟨0, [], []⟩

def OdObj.right : OdObj → OdRight
  | .reg p _ => p.row.odRight
  | .domain _ _ true | .save _ | .load | .accept | .meter _ | .control _ | .mode | .torque _ => .rw
  | _ => .ro

/-- The size of an entry in bytes. -/
def OdObj.size : OdObj → Nat
  | .value b _ => b.length
  | .save _ | .load | .meter _ => 4
  | .accept => 8
  | .reg _ wide => if wide then 8 else 4
  | .domain _ n _ => n
  | .readback => 0x100000000
  | .live _ top => if top then 2 else 4
  | .control _ | .torque _ => 2
  | .mode => 1

/-- Block transfers apply to the entry (R464). -/
def OdObj.blocks : OdObj → Bool
  | .value _ text => text
  | .domain .. | .readback => true
  | _ => false

/-! ### Accesses -/

/-- The abort code of an access that failed (R465). -/
def odBusError : Reply → Nat
  | .err 5 | .wait => 0x08000022
  | _ => 0x06060000

def envAt (env : List BusEnv) (i : Nat) : BusEnv := env.getD i {}

/-- A register, or low and high word of a 64-bit register, is read (R460). -/
def State.odFetch (s : State) (init a : Nat) (wide : Bool) (env : List BusEnv) : Except Nat Nat × State :=
  match s.busRead init a 4 false (envAt env 0) with
  | (.ok v, t) =>
    if wide then
      match t.busRead init (a + 4) 4 false (envAt env 1) with
      | (.ok h, u) => (.ok (v + 2 ^ 32 * h), u)
      | (r, u) => (.error (odBusError r), u)
    else (.ok v, t)
  | (r, t) => (.error (odBusError r), t)

/-- The same written; the abort code if the access failed. -/
def State.odStore (s : State) (init a : Nat) (wide : Bool) (v : Nat) (env : List BusEnv) : Option Nat × State :=
  match s.busWrite init a 4 (v % 2 ^ 32) (envAt env 0) with
  | (.ok _, t) =>
    if wide then
      match t.busWrite init (a + 4) 4 (v / 2 ^ 32) (envAt env 1) with
      | (.ok _, u) => (none, u)
      | (r, u) => (some (odBusError r), u)
    else (none, t)
  | (r, t) => (some (odBusError r), t)

/-- `n` words from `a` are read. -/
def State.odWords (s : State) (init a : Nat) : Nat → List BusEnv → List (BitVec 8) → Except Nat (List (BitVec 8)) × State
  | 0, _, acc => (.ok acc, s)
  | n + 1, env, acc =>
    match s.busRead init a 4 false (envAt env 0) with
    | (.ok v, t) => t.odWords init (a + 4) n env.tail (acc ++ leBytes v 4)
    | (r, t) => (.error (odBusError r), t)

/-- `n` bytes from `a` are read, by the words that hold them. -/
def State.odBytes (s : State) (init a n : Nat) (env : List BusEnv) : Except Nat (List (BitVec 8)) × State :=
  let first := a / 4 * 4
  match s.odWords init first ((a + n + 3) / 4 - a / 4) env [] with
  | (.ok d, t) => (.ok ((d.drop (a - first)).take n), t)
  | r => r

/-- Bytes are written from `a` upwards. -/
def State.odPoke (s : State) (init a : Nat) : List (BitVec 8) → List BusEnv → Option Nat × State
  | [], _ => (none, s)
  | b :: bs, env =>
    match s.busWrite init a 1 b.toNat (envAt env 0) with
    | (.ok _, t) => t.odPoke init (a + 1) bs env.tail
    | (r, t) => (some (odBusError r), t)

/-! ### The attic readback (R496) -/

/-- The directory of 0x2F00. -/
def State.odDirectory (s : State) : List (BitVec 8) :=
  leBytes s.regLen 4 ++ leBytes (s.getF ATC.base ATC.WPTR.BLOCK) 4 ++ leBytes (s.getF ATC.base ATC.OLDEST.BLOCK) 4
    ++ leBytes (s.getF ATC.base ATC.RB_BASE.BLOCK) 4 ++ leBytes s.atcSeq 8 ++ leBytes s.nodeId 1

/-- Bytes `lo` to `lo + n` of block `b`: the directory, the block kept, or the next drive Read (`none`: it fails, or
takes more than 10 ms). -/
def State.odBlock (s : State) (b lo n : Nat) (drive : List (Option (List Word))) :
    Except Nat (List (BitVec 8)) × State × List (Option (List Word)) :=
  let cut (d : List (BitVec 8)) : List (BitVec 8) := ((d ++ List.replicate (lo + n) 0).drop lo).take n
  if b = 0 then (.ok (cut s.odDirectory), s, drive)
  else
    let blk := (s.getF ATC.base ATC.RB_BASE.BLOCK + b - 1) % s.regLen
    let fresh : Except Nat (List (BitVec 8)) × State × List (Option (List Word)) :=
      match drive.head?.join with
      | none => (.error 0x06060000, s, drive.tail)
      | some ws =>
        let d := (ws.take 1024).flatMap fun w => leBytes w.toNat 4
        (.ok (cut d), { s with attic := { s.attic with dictBlock := some (blk, d) } }, drive.tail)
    match s.attic.dictBlock with
    | some (k, d) => if k = blk then (.ok (cut d), s, drive) else fresh
    | none => fresh

/-- `n` bytes (at most 236) of 0x2F00 from `off`; they lie in one block or in two. -/
def State.odReadback (s : State) (off n : Nat) (drive : List (Option (List Word))) :
    Except Nat (List (BitVec 8)) × State :=
  if !s.getB ATC.base ATC.STATUS.READY then (.error 0x08000022, s)
  else
    let n1 := min n (4096 - off % 4096)
    match s.odBlock (off / 4096) (off % 4096) n1 drive with
    | (.error e, t, _) => (.error e, t)
    | (.ok d, t, rest) =>
      if n1 = n then (.ok d, t)
      else match t.odBlock (off / 4096 + 1) 0 (n - n1) rest with
      | (.ok d', u, _) => (.ok (d ++ d'), u)
      | (.error e, u, _) => (.error e, u)

/-! ### Axes (R473) -/

/-- What follows a read that has succeeded. -/
def State.onValue (p : Reply × State) (act : State → Nat → State) : State :=
  match p with
  | (.ok v, u) => act u v
  | (_, u) => u

/-- What follows a store that has succeeded. -/
def State.onStored (p : Option Nat × State) (act : State → Option Nat × State) : Option Nat × State :=
  match p with
  | (none, t) => act t
  | r => r

/-- LEG.CTRL.ENABLE of the axis legs is set, read-modify-write by initiator `init`. -/
def State.axisEnable (s : State) (init x : Nat) (on : Bool) : State :=
  (s.axisLegs x).foldl (fun t l =>
    State.onValue (t.busRead init (LEG.base l) 4 false {}) fun u v =>
      (u.busWrite init (LEG.base l) 4 (setBitsOf v 0 0 on.toNat) {}).2) s

def State.setAxis (s : State) (x : Fin 8) (f : Axis → Axis) : State :=
  s.modOde fun o => { o with axis := o.axis.set x (f o.axis[x]) }

/-- The axis goes to a state; leaving OPERATION ENABLED clears ENABLE of its legs. -/
def State.axisGo (s : State) (init : Nat) (x : Fin 8) (goal : AxisState) : State :=
  let was := s.axisState x
  let s := if was = .enabled ∧ goal ≠ .enabled then s.axisEnable init x false else s
  let s := if was ≠ .enabled ∧ goal = .enabled then s.axisEnable init x true else s
  s.setAxis x fun a => { a with state := goal, resetting := false }

/-- The commands of the controlword (log entry 21). -/
inductive AxisCommand where
  | disableVoltage | quickStop | shutdown | switchOn | enableOperation
  deriving DecidableEq, Repr

def axisCommand (w : Nat) : AxisCommand :=
  if !w.testBit 1 then .disableVoltage
  else if !w.testBit 2 then .quickStop
  else if !w.testBit 0 then .shutdown
  else if !w.testBit 3 then .switchOn
  else .enableOperation

/-- A fault reset ends in switch-on disabled once its causes are gone, and waits for that before. -/
def State.faultReset (t : State) (init : Nat) (x : Fin 8) : State :=
  if t.axisError x = 0 then t.axisGo init x .disabled else t.setAxis x fun a => { a with resetting := true }

/-- A controlword is written: the abort code of a refused enable operation, and the state after (R473). -/
def State.controlword (s : State) (init : Nat) (x : Fin 8) (w : Nat) : Option Nat × State :=
  let before := s.ode.axis[x].control
  let st := s.axisState x
  let s := s.setAxis x fun a => { a with state := st, resetting := a.resetting && st = .fault, control := BitVec.ofNat 16 w }
  if st = .fault then
    if w.testBit 7 && !before.getLsbD 7 then
      (none, (s.busWrite init (ENG.base (s.axisStall x) + ENG.CMD.W.off) 4 0x1F04 {}).2.faultReset init x)
    else (none, s)
  else match axisCommand w, st with
  | .disableVoltage, _ | .quickStop, _ => (none, s.axisGo init x .disabled)
  | .shutdown, _ => (none, s.axisGo init x .ready)
  | _, .disabled => (none, s)
  | .switchOn, _ => (none, s.axisGo init x .on)
  | .enableOperation, .enabled => (none, s)
  | .enableOperation, _ =>
    if s.armState = 2 then (none, s.axisGo init x .enabled)
    else (some 0x08000022, s.axisGo init x .on)

/-- A target torque is written: the mailbox word, then PUBLISH (R472). -/
def State.targetTorque (s : State) (init : Nat) (x : Fin 8) (v : Nat) (env : List BusEnv) : Option Nat × State :=
  let e := ENG.base (s.axisStall x)
  let s := s.setAxis x fun a => { a with target := BitVec.ofNat 16 v }
  State.onStored
    (s.odStore init (e + ENG.MBX_IN.VALUE.off + 4 * s.getF ODE.base (axisF ODE.AXIS_CFG.TQ_WORD x)) false (v * 2 ^ 16) env)
    fun t => t.odStore init (e + ENG.CMD.W.off) false 2 env.tail

/-! ### Writes (R461, R463, R471, R474) -/

/-- Every digit of a PACKED_BCD32 value is 0 to 9 (R12). -/
def bcdOk (v : Nat) : Bool := (List.range 8).all fun i => v / 16 ^ i % 16 ≤ 9

/-- Non-reserved bits, and RWD bits among them. -/
def RegRow.meant (r : RegRow) : Nat := r.mask fun f => !f.reserved
def RegRow.held (r : RegRow) : Nat := r.mask fun f => !f.reserved && f.acc == .rwd

/-- The masks of both words of an entry. -/
def odMask (p : Place) (wide : Bool) (m : RegRow → Nat) : Nat :=
  m p.row + if wide then 2 ^ 32 * m { p with off := p.off + 4 : Place }.row else 0

/-- A write to a register-mapped entry (R461). -/
def State.odRegWrite (s : State) (init : Nat) (p : Place) (wide : Bool) (v : Nat) (env : List BusEnv) : OdResult × State :=
  let a := p.blk.base p.inst + p.off
  let n := if wide then 2 else 1
  if p.row.odRight = .wo then
    match s.odStore init a wide v env with
    | (none, t) => (.done [], t)
    | (some e, t) => (.abort e, t)
  else match s.odFetch init a wide env with
  | (.error e, t) => (.abort e, t)
  | (.ok old, t) =>
    let meant := odMask p wide RegRow.meant
    let rwd := odMask p wide RegRow.held
    let new := (old &&& (2 ^ 64 - 1 - meant)) ||| (v &&& meant)
    if (p.blk.hasEnable && (t.rd (p.blk.base p.inst)).getLsbD 0) && (old ^^^ new) &&& rwd != 0 then (.abort 0x08000022, t)
    else match t.odStore init a wide new (env.drop n) with
    | (some e, u) => (.abort e, u)
    | (none, u) =>
      match u.odFetch init a wide (env.drop (2 * n)) with
      | (.error e, v') => (.abort e, v')
      | (.ok now, v') => (if (now ^^^ new) &&& rwd = 0 then .done [] else .abort 0x08000022, v')

/-- Restore defaults: the defaults set goes to the slot that does not hold the newest complete snapshot, with trailer
sequence SNAP_SEQ + 1 (R463). -/
def State.copyDefaults (s : State) : State :=
  let k := s.nextSlot
  let count := s.cellar.setCount[(2 : Fin 3)]
  let seq := (s.getF CEL.base CEL.SNAP_SEQ.SEQ + 1) % 2 ^ 32
  let len (a : Nat) : Nat := bitsOf (s.mem32 a) 31 16
  let endAt := (List.range count).foldl (fun a _ => a + 8 + 4 * len a) (setBase 2)
  let words := (List.range ((endAt - setBase 2) / 4)).map fun i => s.mem32 (setBase 2 + 4 * i)
  let s := (s.setWords (setBase k) words).writeTrailer (setBase k + 4 * words.length) count seq
  let s := { s with cellar := { s.cellar with setCount := s.cellar.setCount.set k count } }
  ((s.setBit CEL.base CEL.STATUS.SNAP_VALID k true).setF CEL.base CEL.STATUS.SNAP_NEWEST k).setF CEL.base
    CEL.SNAP_SEQ.SEQ seq

/-- A store's outcome as the result of a transaction without data. -/
def odPlain (p : Option Nat × State) : OdResult × State :=
  match p with
  | (none, t) => (.done [], t)
  | (some e, t) => (.abort e, t)

/-- A save has been commanded: it waits, or was refused because a capture runs. -/
def odSaving (p : Option Nat × State) (busy : Bool) (w : OdWait) : OdResult × State :=
  match p with
  | (some e, t) => (.abort e, t)
  | (none, t) => if busy then (.abort 0x08000022, t) else (.wait w, t)

/-- A write of `v` to an entry that takes writes; sizes have been checked. -/
def State.odPut (s : State) (init ix sub : Nat) (o : OdObj) (v : Nat) (data : List (BitVec 8)) (env : List BusEnv) :
    OdResult × State :=
  match o with
  | .save d =>
    if v ≠ 0x65766173 then (.abort 0x08000020, s)
    else
      odSaving (s.odStore init (CEL.base + CEL.CMD.W.off) false (if d then 2 else 1) env)
        (s.cellar.snap.isSome && (d || !s.snapYields))
        (if d then .defaults ix sub else .save (s.getF CEL.base CEL.SNAP_SEQ.SEQ) ix sub)
  | .load =>
    if v ≠ 0x64616F6C then (.abort 0x08000020, s)
    else if !s.getB CEL.base CEL.STATUS.DEF_VALID then (.abort 0x08000024, s)
    else if s.cellar.snap.isSome then (.abort 0x08000022, s)
    else (.done [], s.copyDefaults)
  | .accept =>
    if v / 0x80 ≠ 0 then (.abort 0x06090030, s)
    else if s.ode.window.isNone && s.ode.closedOn != some s.now then (.abort 0x08000022, s)
    else
      let t := (s.set64 ODE.base ODE.FEAT_ACC_LO.ACC ODE.FEAT_ACC_HI.ACC v).setB ODE.base ODE.STATUS.NEG_DONE true
      (.done [], (t.setB ODE.base ODE.STATUS.BASELINE false).modOde fun o => { o with window := none, closedOn := none })
  | .reg p wide =>
    if p = ⟨.cel, 0, 0x800⟩ && !s.getB ODE.base ODE.CTRL.ARM_REMOTE then (.abort 0x08000021, s)
    else s.odRegWrite init p wide v env
  | .domain a _ _ => odPlain (s.odPoke init a data env)
  | .meter a => if bcdOk v then odPlain (s.odStore init a false v env) else (.abort 0x06090030, s)
  | .control x => odPlain (s.controlword init x v)
  | .mode => if v = 10 then (.done [], s) else (.abort 0x06090030, s)
  | .torque x => odPlain (s.targetTorque init x v env)
  | _ => (.abort 0x06010002, s)

/-! ### Transactions (R464, R465) -/

/-- The value of an entry that is read whole. -/
def State.odGet (s : State) (init : Nat) (o : OdObj) (env : List BusEnv) : OdResult × State :=
  let num (n : Nat) (r : Except Nat Nat × State) (f : Nat → Nat) : OdResult × State :=
    match r with
    | (.ok v, t) => (.done (leBytes (f v) n), t)
    | (.error e, t) => (.abort e, t)
  match o with
  | .value b _ => (.done b, s)
  | .save _ | .load => (.done (leBytes 1 4), s)
  | .accept => (.done (leBytes (s.get64 ODE.base ODE.FEAT_ACC_LO.ACC ODE.FEAT_ACC_HI.ACC) 8), s)
  | .reg p wide => num (if wide then 8 else 4) (s.odFetch init (p.blk.base p.inst + p.off) wide env) id
  | .meter a =>
    match s.odFetch init a false env with
    | (.ok v, t) => (if bcdOk v then .done (leBytes v 4) else .abort 0x08000024, t)
    | (.error e, t) => (.abort e, t)
  | .live a top => num (if top then 2 else 4) (s.odFetch init a false env) fun v => if top then v / 2 ^ 16 else v
  | .control x => (.done (leBytes s.ode.axis[x].control.toNat 2), s)
  | .torque x => (.done (leBytes s.ode.axis[x].target.toNat 2), s)
  | .mode => (.done (leBytes 10 1), s)
  | .domain .. | .readback => (.abort 0x06070010, s)

/-- Part of an entry that block transfers apply to. -/
def State.odPart (s : State) (init : Nat) (o : OdObj) (off n : Nat) (env : List BusEnv)
    (drive : List (Option (List Word))) : OdResult × State :=
  let r : Except Nat (List (BitVec 8)) × State := match o with
    | .value b _ => (.ok ((b.drop off).take n), s)
    | .domain a _ _ => s.odBytes init (a + off) n env
    | _ => s.odReadback off n drive
  match r with
  | (.ok d, t) => (.done d, t)
  | (.error e, t) => (.abort e, t)

/-- The most data bytes of one message (R464). -/
def odMax : Nat := 236

/-- A segment of a block write: segments begin at 0 and continue without gaps; one that does not ends the transfer. -/
def State.odSegment (s : State) (init client ix sub : Nat) (o : OdObj) (off len : Nat) (data : List (BitVec 8)) (last : Bool)
    (env : List BusEnv) : OdResult × State :=
  let mine (b : OdBlock) : Bool := b.client == client && b.index == ix && b.sub == sub
  let dropped (t : State) : State := t.modOde fun d => { d with blocks := d.blocks.filter (!mine ·) }
  let want := match s.ode.blocks.find? mine with
    | some b => if off = 0 then 0 else b.next
    | none => 0
  match o with
  | .domain a size _ =>
    if data.length < len ∨ size < off + len then (.abort 0x06070010, dropped s)
    else if off ≠ want then (.abort 0x08000020, dropped s)
    else match (dropped s).odPoke init (a + off) (data.take len) env with
    | (some e, t) => (.abort e, t)
    | (none, t) =>
      (.done [], if last then t else t.modOde fun d => { d with blocks := d.blocks ++ [⟨client, ix, sub, off + len⟩] })
  | _ => (.abort 0x06070010, dropped s)

/-- A transaction of initiator `init` for a requester `client`, with the checks of R465 in their order. -/
def State.odTransact (s : State) (init client cmd ix sub off len : Nat) (data : List (BitVec 8)) (env : List BusEnv)
    (drive : List (Option (List Word))) : OdResult × State :=
  if !s.odKnows cmd then (.abort 0x05040001, s)
  else if cmd = 6 then s.odPut init 0x1010 1 (.save false) 0x65766173 [] env
  else if cmd = 7 then s.odPut init 0x1011 1 .load 0x64616F6C [] env
  else match s.odFind ix sub with
  | .error e => (.abort e, s)
  | .ok o =>
    if cmd = 1 ∨ cmd = 3 then
      if o.right = .wo then (.abort 0x06010001, s)
      else if cmd = 1 then
        if min len odMax < o.size then (.abort 0x06070010, s) else
          match o with
          | .domain .. | .readback => s.odPart init o 0 o.size env drive
          | _ => s.odGet init o env
      else if !o.blocks then (.abort 0x06070010, s)
      else if o.size ≤ off then (.abort 0x08000024, s)
      else s.odPart init o off (min (min len odMax) (o.size - off)) env drive
    else if o.right = .ro then (.abort 0x06010002, s)
    else if cmd = 2 then
      if len ≠ o.size ∨ data.length < len then (.abort 0x06070010, s)
      else s.odPut init ix sub o (numAt data 0 (min len 8)) (data.take len) env
    else s.odSegment init client ix sub o off len data (cmd = 5) env

/-! ### The ring side (R466, R467) -/

/-- The row of the table that a request belongs to. -/
inductive OdKind where
  | read | write | blockRead | blockWrite | blockEnd | save | load | accept | control | torque
  deriving DecidableEq, Repr

def odKind (m : RingMsg) : OdKind :=
  let ix := odIndex m
  let axis := 0x6000 ≤ ix && ix < 0xA000
  match odCmd m with
  | 1 => .read
  | 3 => .blockRead
  | 4 => .blockWrite
  | 5 => .blockEnd
  | 6 => .save
  | 7 => .load
  | _ =>
    if ix = 0x1010 then .save else if ix = 0x1011 then .load else if ix = 0x1F81 then .accept
    else if axis && (ix - 0x6000) % 0x800 == 0x40 then .control
    else if axis && (ix - 0x6000) % 0x800 == 0x71 then .torque
    else .write

/-- The ring-side engine executes the request in front, if it is of kind `k` and no transaction waits. -/
def State.odRing (s : State) (k : OdKind) (env : List BusEnv) (drive : List (Option (List Word))) : State :=
  match s.ode.queue, s.ode.waits[(4 : Fin 6)] with
  | m :: _, none =>
    if s.odeRingServes && odKind m == k then
      let (r, t) := s.odTransact 4 (4 + 16 * m.src) (odCmd m) (odIndex m) (odSub m) (odOffset m) (odLength m) (odData m)
        env drive
      (t.odAnswer m r).odServe 5
    else s
  | _, _ => s

/-- OD_REQUEST (R466). -/
def execOdRequest (m : RingMsg) (s : State) : Result :=
  .next (if s.cellar.phase == .up && s.odeRingServes && m.svc = 1 && m.kind = 0 then s.odArrive m else s)

/-- OD_READ (R464). -/
def execOdRead (env : List BusEnv) (s : State) : Result := .next (s.odRing .read env [])
/-- OD_WRITE (R461). -/
def execOdWrite (env : List BusEnv) (s : State) : Result := .next (s.odRing .write env [])
/-- BLOCK_READ (R464, R496). -/
def execBlockRead (env : List BusEnv) (drive : List (Option (List Word))) (s : State) : Result :=
  .next (s.odRing .blockRead env drive)
/-- BLOCK_WRITE (R464). -/
def execBlockWrite (env : List BusEnv) (s : State) : Result := .next (s.odRing .blockWrite env [])
/-- BLOCK_WRITE_END (R464). -/
def execBlockWriteEnd (env : List BusEnv) (s : State) : Result := .next (s.odRing .blockEnd env [])
/-- OD_SAVE (R463). -/
def execOdSave (env : List BusEnv) (s : State) : Result := .next (s.odRing .save env [])
/-- RESTORE_DEFAULTS (R463). -/
def execRestoreDefaults (env : List BusEnv) (s : State) : Result := .next (s.odRing .load env [])
/-- FEATURES_ACCEPTED (R471). -/
def execFeaturesAccepted (env : List BusEnv) (s : State) : Result := .next (s.odRing .accept env [])
/-- CONTROLWORD (R473). -/
def execControlword (env : List BusEnv) (s : State) : Result := .next (s.odRing .control env [])
/-- TARGET_TORQUE (R472). -/
def execTargetTorque (env : List BusEnv) (s : State) : Result := .next (s.odRing .torque env [])

/-- NEGOTIATION_TIMEOUT: the window has been open for 10 ms (R471). -/
def execNegotiationTimeout (s : State) : Result :=
  .next (match s.ode.window with
  | none => s
  | some t0 =>
    let s := s.atTime (t0 + 10000 * us)
    let s := s.set64 ODE.base ODE.FEAT_ACC_LO.ACC ODE.FEAT_ACC_HI.ACC 0
    ((s.setB ODE.base ODE.STATUS.NEG_DONE true).setB ODE.base ODE.STATUS.BASELINE true).modOde fun o =>
      { o with window := none, closedOn := some s.now })

/-- ODE_CNT_CLR (R476). -/
def execOdeCntClr (init : Fin 16) (s : State) : Result :=
  .next (s.onCommand init (ODE.base + ODE.CMD.W.off) fun t =>
    (t.clearCount ODE.base ODE.CNT.TXN).clearCount ODE.base ODE.CNT.ABORTS)

/-- AXIS_FAULT: an axis with a cause enters FAULT (R473); the ring-side engine's number marks its accesses. -/
def execAxisFault (x : Fin 8) (s : State) : Result :=
  .next (if s.axisOn x && s.axisError x != 0 && s.axisState x != .fault then s.axisGo 4 x .fault else s)

/-- SNAPSHOT_END: the capture ends, and saves that waited for it are answered (R394, R463). -/
def execSnapshotEnd (s : State) : Result := .next s.snapEnd.odPoll

/-! ### The CAN side (R468) -/

/-- A request for another hall goes over the ring with feature 4 (R468). -/
def State.usdoRoute (s : State) (t : UsdoTransfer) (cmd : Nat) (d : List (BitVec 8)) (node : Nat) : State :=
  if !s.feature 4 then s.usdoResult t (.abort 0x06020000) true
  else if odMax < d.length then s.usdoResult t (.abort 0x06070010) true
  else
    let p := leBytes cmd 1 ++ leBytes t.sub 1 ++ leBytes t.index 2 ++ leBytes 0 4
      ++ leBytes (if cmd = 1 then odMax else d.length) 4 ++ d
    (s.ringRequest 1 node p).usdoResult t (.wait (.remote s.ring.mbxSeq t.index t.sub)) true

/-- A whole read or write for the CAN side, here or at another hall. -/
def State.usdoRun (s : State) (t : UsdoTransfer) (cmd : Nat) (d : List (BitVec 8)) (env : List BusEnv) : State :=
  match t.node with
  | some n => s.usdoRoute t cmd d n
  | none =>
    let (r, u) := s.odTransact 5 5 cmd t.index t.sub 0 (if cmd = 1 then odMax else d.length) d env []
    u.usdoResult t r true

/-- The entry is a DOMAIN of this hall, whose segments are read and written as they come. -/
def State.usdoDomain (s : State) (t : UsdoTransfer) : Option Nat :=
  match t.node, s.odFind t.index t.sub with
  | none, .ok (.domain a n rw) => some (OdObj.domain a n rw).size
  | none, .ok .readback => some OdObj.readback.size
  | _, _ => none

/-- A segment of a download. -/
def State.usdoDown (s : State) (t : UsdoTransfer) (d : List (BitVec 8)) (last : Bool) (env : List BusEnv) : State :=
  match s.usdoDomain t with
  | some _ =>
    let (r, u) := s.odTransact 5 5 (if last then 5 else 4) t.index t.sub t.next d.length d env []
    match r with
    | .done _ =>
      if last then u.usdoResult t r true
      else (u.modOde fun o => { o with usdo := some { t with next := t.next + d.length } }).usdoReply (.confirm t.client)
    | _ => u.usdoResult t r true
  | none =>
    let t := { t with data := t.data ++ d, next := t.next + d.length }
    if !last then (s.modOde fun o => { o with usdo := some t }).usdoReply (.confirm t.client)
    else if t.data.length ≠ t.size then s.usdoResult t (.abort 0x06070010) true
    else s.usdoRun t 2 t.data env

/-- The next segment of an upload. -/
def State.usdoUp (s : State) (t : UsdoTransfer) (env : List BusEnv) (drive : List (Option (List Word))) : State :=
  let n := min usdoWhole (t.size - t.next)
  let last : Bool := t.size ≤ t.next + n
  let give (u : State) (d : List (BitVec 8)) : State :=
    let u := if last then u.modOde fun o => { o with usdo := none } else u.modOde fun o => { o with usdo := some { t with next := t.next + n } }
    (u.usdoReply (.segment t.client d last)).odeStatus
  match s.usdoDomain t with
  | some _ =>
    match s.odTransact 5 5 3 t.index t.sub t.next n [] env drive with
    | (.done d, u) => give (if last then u.odEnded 5 t.index t.sub (.done d) else u) d
    | (r, u) => u.usdoResult t r true
  | none => give s ((t.data.drop t.next).take n)

/-- The engine serves requests (R468). -/
def State.usdoServes (s : State) : Bool :=
  s.getB ODE.base ODE.CTRL.ENABLE && s.getB ODE.base ODE.CTRL.CAN_EN && 1 ≤ s.odeCanNode
    && (s.getF ODE.base ODE.CAN_CFG.NODE != 0 || s.odeCanNode ≤ 64)

/-- A request of `client` that starts a transfer, or one within its transfer. -/
def State.usdoRequest (s : State) (client : Nat) (target : Option (BitVec 7)) (op : UsdoOp) (env : List BusEnv)
    (drive : List (Option (List Word))) : State :=
  let node := match target with
    | none => none
    | some n => if n.toNat = s.nodeId then none else some n.toNat
  let fresh (ix : BitVec 16) (sub : BitVec 8) (up : Bool) (size : Nat) : UsdoTransfer :=
    { client := client, node := node, index := ix.toNat, sub := sub.toNat, upload := up, size := size }
  let busy : Bool := s.ode.waits[(5 : Fin 6)].isSome || (match s.ode.usdo with
    | some t => t.client != client
    | none => false)
  let stray (u : State) : State := (u.odeAborted 0x05040001 0 0 5).usdoReply (.abort client 0x05040001)
  if busy then
    match op with
    | .abort => s
    | .download ix sub _ | .downloadStart ix sub _ | .upload ix sub =>
      (s.odeAborted 0x05040005 ix.toNat sub.toNat 5).usdoReply (.abort client 0x05040005)
    | _ => (s.odeAborted 0x05040005 0 0 5).usdoReply (.abort client 0x05040005)
  else match op with
  | .abort => (s.modOde fun o => { o with usdo := none }).odeStatus
  | .download ix sub d => s.usdoRun (fresh ix sub false d.length) 2 d env
  | .downloadStart ix sub n =>
    ((s.modOde fun o => { o with usdo := some (fresh ix sub false n) }).usdoReply (.confirm client)).odeStatus
  | .upload ix sub =>
    let t := fresh ix sub true 0
    match s.usdoDomain t with
    | some n =>
      ((s.modOde fun o => { o with usdo := some { t with size := n } }).usdoReply (.size client n)).odeStatus
    | none => s.usdoRun t 1 [] env
  | .downloadSegment d last =>
    match s.ode.usdo with
    | some t => if t.upload then stray s else s.usdoDown t d last env
    | none => stray s
  | .uploadSegment =>
    match s.ode.usdo with
    | some t => if t.upload then s.usdoUp t env drive else stray s
    | none => stray s

/-- USDO_REQUEST: a request that the CAN controller has handed over is served (R468). -/
def execUsdoRequest (client : BitVec 7) (target : Option (BitVec 7)) (op : UsdoOp) (env : List BusEnv)
    (drive : List (Option (List Word))) (s : State) : Result :=
  .next (if s.cellar.phase == .up && s.usdoServes then
    (s.modOde fun o => { o with canFrames := o.canFrames.tail }).usdoRequest client.toNat target op env drive
  else s)

end Sys2Proof.Machine
end

