-- ==== Sys2Proof/Machine/Odsvc.lean ====
section
/-! DEFINITION. The boot-ROM routine ODSVC: a dictionary transaction on the calling core (R469).  What the routine's own
code leaves in registers, flags and its stack is not given: free values. -/

namespace Sys2Proof.Machine

/-- Where ODSVC stands. -/
def odsvcEntry : BitVec 24 := 0xF00400

/-- The arguments: CMD, index, subindex, buffer, length. -/
structure SvcArgs where
  cmd : Nat
  index : Nat
  sub : Nat
  buf : Nat
  len : Nat

def Core.svcArgs (x : Core) : SvcArgs :=
  let a := (x.get 4).toNat
  ⟨bitsOf a 31 24, bitsOf a 23 8, bitsOf a 7 0, (x.get 5).toNat, (x.get 6).toNat⟩

/-- CMD 3 to 5 carry OFFSET in the first four bytes of the buffer, and data follow. -/
def SvcArgs.block (a : SvcArgs) : Bool := 3 ≤ a.cmd && a.cmd ≤ 5
def SvcArgs.data (a : SvcArgs) : Nat := if a.block then a.buf + 4 else a.buf
def SvcArgs.writes (a : SvcArgs) : Bool := a.cmd = 2 || a.cmd = 4 || a.cmd = 5

/-- The routine's stack: 3 KiB below x3; what it leaves there is not given. -/
def State.svcStack (s : State) (c : Nat) : State :=
  let top := ((s.coreAt c).get 3).toNat
  (List.range 3072).foldl (fun t i =>
    match memArea c (top - 1 - i) with
    | some (.sram, p) | some (.coreRam _, p) => t.setByte p ((Config.freeValue (s.free + i)).setWidth 8)
    | _ => t) { s with free := s.free + 3072 }

/-- ODSVC returns: x4 the abort code, x5 the bytes transferred; the window goes back; the flags, the window's own
registers and its hand-off registers hold free values. -/
def State.svcReturn (s : State) (c : Nat) (code bytes : Nat) : State :=
  let s := s.svcStack c
  let x := s.coreAt c
  let fresh (i : Nat) : Word := (Config.freeValue (s.free + i)).setWidth 32
  let x1 := ((List.range 8).foldl (fun (y : Core) i => y.put (8 + i) (fresh i)) x).put 4 (BitVec.ofNat 32 code)
  let x1 := x1.put 5 (BitVec.ofNat 32 bytes)
  let x1 := (x1.setSt 4 0 (fresh 8).toNat).setFrm ((x.frm + 31) % 32)
  { s with free := s.free + 10 }.modCore c fun _ => { x1 with
    pc := (x.get 7).setWidth 24, last := some ((fresh 9).setWidth 24), returns := x.returns.tail }

/-- A transaction that has its result: data go to the buffer, and the routine returns. -/
def State.svcDone (s : State) (c : Nat) (a : SvcArgs) (r : OdResult) (own : Bool) : State :=
  let s := if own then s.odEnded c a.index a.sub r else s
  let s := s.modOde fun o => { o with waits := o.waits.set (Fin.ofNat 6 c) none }
  match r with
  | .done d =>
    if a.cmd = 1 ∨ a.cmd = 3 then
      match s.odPoke c a.data d [] with
      | (none, t) => t.svcReturn c 0 d.length
      | (some e, t) => t.svcReturn c e 0
    else s.svcReturn c 0 (if a.writes then a.len else 0)
  | .abort code => s.svcReturn c code 0
  | .wait w => s.modOde fun o => { o with waits := o.waits.set (Fin.ofNat 6 c) (some w) }

/-- The transaction starts: OFFSET and data are read from the buffer; another hall's dictionary is asked over the
ring. -/
def State.svcStart (s : State) (c : Nat) (node : Nat) (a : SvcArgs) (env : List BusEnv)
    (drive : List (Option (List Word))) : State :=
  let (off, s) : Except Nat Nat × State :=
    if a.block then
      match s.odBytes c a.buf 4 [] with
      | (.ok b, t) => (.ok (numAt b 0 4), t)
      | (.error e, t) => (.error e, t)
    else (.ok 0, s)
  let (data, s) : Except Nat (List (BitVec 8)) × State :=
    if a.writes then s.odBytes c a.data (min a.len odMax) [] else (.ok [], s)
  match off, data with
  | .ok off, .ok data =>
    if node = 0 ∨ node = s.nodeId then
      let (r, t) := s.odTransact c c a.cmd a.index a.sub off a.len data env drive
      t.svcDone c a r true
    else
      let len := if a.writes then data.length else min a.len odMax
      let p := leBytes a.cmd 1 ++ leBytes a.sub 1 ++ leBytes a.index 2 ++ leBytes off 4 ++ leBytes len 4 ++ data
      (s.ringRequest 1 node p).svcDone c a (.wait (.remote s.ring.mbxSeq a.index a.sub)) true
  | .error e, _ | _, .error e => s.svcDone c a (.abort e) true

/-- ODSVC: the core stands at the routine's entry.  `node`: the caller's x15, which CALL has replaced by the return
address.  While the transaction waits nothing else happens; a further command looks again. -/
def execOdsvc (c : Fin 4) (node : BitVec 7) (env : List BusEnv) (drive : List (Option (List Word))) (s : State) : Result :=
  .next (if !s.coreUp c || ((s.coreAt c).waiting && !s.wakes c) || (s.coreAt c).pc ≠ odsvcEntry || (s.coreAt c).slot.isSome then s
  else s.settled c fun s =>
    let s := s.modCore c fun x => { x with shadow := [], hold := false, waiting := false }
    let x := s.coreAt c
    if !x.mayFetch odsvcEntry.toNat then s.raise c {} { code := 0x06, faddr := odsvcEntry.toNat }
    else
      let (ok, s) := s.drainStores c 4
      if !ok then s
      else match s.ode.waits[Fin.ofNat 6 c] with
      | some w =>
        match s.odReady w with
        | some (r, own) => (s.odTaken w).svcDone c x.svcArgs r own
        | none => s
      | none => s.svcStart c node.toNat x.svcArgs env drive)

end Sys2Proof.Machine
end

