-- ==== Sys2Proof/Machine/Dispatch.lean ====
section
/-! DEFINITION. The dispatch: one arm for each command of the table, each a call of its meaning. -/

namespace Sys2Proof.Machine

/-- The effect of a command on everything but the queue. -/
def exec (i : Instr) (s : State) : Host.Outcome State Fault Refusal :=
  match i with
  | .registerWrite a => Sys2Proof.Machine.execRegisterWrite a s
  | .eccWriteBack addr => Sys2Proof.Machine.execEccWriteBack addr s
  | .eccClear init value => Sys2Proof.Machine.execEccClear init value s
  | .accessAcknowledge c => Sys2Proof.Machine.execAccessAcknowledge c s
  | .zero g => Sys2Proof.Machine.execZero g s
  | .period g => Sys2Proof.Machine.execPeriod g s
  | .evaUp g => Sys2Proof.Machine.execEvaUp g s
  | .evaDn g => Sys2Proof.Machine.execEvaDn g s
  | .evbUp g => Sys2Proof.Machine.execEvbUp g s
  | .evbDn g => Sys2Proof.Machine.execEvbDn g s
  | .lockedCarrierStart g => Sys2Proof.Machine.execLockedCarrierStart g s
  | .sgFire init a groups => Sys2Proof.Machine.execSgFire init a groups s
  | .sgClr init a groups => Sys2Proof.Machine.execSgClr init a groups s
  | .blkClr init a channels => Sys2Proof.Machine.execBlkClr init a channels s
  | .blankingMaxlen a b => Sys2Proof.Machine.execBlankingMaxlen a b s
  | .phaseMeasurement a lag => Sys2Proof.Machine.execPhaseMeasurement a lag s
  | .phaseValidExpiry a => Sys2Proof.Machine.execPhaseValidExpiry a s
  | .aperture s0 v => Sys2Proof.Machine.execAperture s0 v s
  | .rawCode s0 => Sys2Proof.Machine.execRawCode s0 s
  | .correctedResult s0 => Sys2Proof.Machine.execCorrectedResult s0 s
  | .scanComplete s0 => Sys2Proof.Machine.execScanComplete s0 s
  | .swTrig init s0 => Sys2Proof.Machine.execSwTrig init s0 s
  | .startEdge s0 x => Sys2Proof.Machine.execStartEdge s0 x s
  | .stopEdge s0 x => Sys2Proof.Machine.execStopEdge s0 x s
  | .stop init s0 => Sys2Proof.Machine.execStop init s0 s
  | .backToBackScan s0 => Sys2Proof.Machine.execBackToBackScan s0 s
  | .calZero init s0 input => Sys2Proof.Machine.execCalZero init s0 input s
  | .calFull init s0 input => Sys2Proof.Machine.execCalFull init s0 input s
  | .calibrationEnd s0 codes => Sys2Proof.Machine.execCalibrationEnd s0 codes s
  | .diag init s0 => Sys2Proof.Machine.execDiag init s0 s
  | .diagScanStart x => Sys2Proof.Machine.execDiagScanStart x s
  | .diagScanEnd s0 last => Sys2Proof.Machine.execDiagScanEnd s0 last s
  | .selfchk init s0 => Sys2Proof.Machine.execSelfchk init s0 s
  | .selfCheckAttempt s0 => Sys2Proof.Machine.execSelfCheckAttempt s0 s
  | .selfCheckElement s0 => Sys2Proof.Machine.execSelfCheckElement s0 s
  | .selfCheckResult s0 v => Sys2Proof.Machine.execSelfCheckResult s0 v s
  | .bgstarved s0 => Sys2Proof.Machine.execBgstarved s0 s
  | .cnvCntClr init s0 => Sys2Proof.Machine.execCnvCntClr init s0 s
  | .comparatorOutputChange c x => Sys2Proof.Machine.execComparatorOutputChange c x s
  | .settlingEnd c v => Sys2Proof.Machine.execSettlingEnd c v s
  | .tick c => Sys2Proof.Machine.execTick c s
  | .sampledDecision c v => Sys2Proof.Machine.execSampledDecision c v s
  | .cmpRelease init c => Sys2Proof.Machine.execCmpRelease init c s
  | .flagRel init c flags => Sys2Proof.Machine.execFlagRel init c flags s
  | .cmpCntClr init c => Sys2Proof.Machine.execCmpCntClr init c s
  | .armingStateArrival a => Sys2Proof.Machine.execArmingStateArrival a s
  | .carCntClr init g => Sys2Proof.Machine.execCarCntClr init g s
  | .shadowWrite init l k value => Sys2Proof.Machine.execShadowWrite init l k value s
  | .commit init l => Sys2Proof.Machine.execCommit init l s
  | .gcommit init l mask => Sys2Proof.Machine.execGcommit init l mask s
  | .legCntClr init l => Sys2Proof.Machine.execLegCntClr init l s
  | .compareEdge l => Sys2Proof.Machine.execCompareEdge l s
  | .deadTimeEnd l => Sys2Proof.Machine.execDeadTimeEnd l s
  | .tripinEdge i0 x => Sys2Proof.Machine.execTripinEdge i0 x s
  | .tripSourceActive i0 => Sys2Proof.Machine.execTripSourceActive i0 s
  | .groupStateArrival q a => Sys2Proof.Machine.execGroupStateArrival q a s
  | .trpRelease init mask => Sys2Proof.Machine.execTrpRelease init mask s
  | .trpCntClr init => Sys2Proof.Machine.execTrpCntClr init s
  | .swtrip init value => Sys2Proof.Machine.execSwtrip init value s
  | .start init e => Sys2Proof.Machine.execStart init e s
  | .engEnd e => Sys2Proof.Machine.execEngEnd e s
  | .engLd e u => Sys2Proof.Machine.execEngLd e u s
  | .engLdr e u => Sys2Proof.Machine.execEngLdr e u s
  | .engLdm e u => Sys2Proof.Machine.execEngLdm e u s
  | .engMov e u => Sys2Proof.Machine.execEngMov e u s
  | .engLdi e u => Sys2Proof.Machine.execEngLdi e u s
  | .engAdd e u => Sys2Proof.Machine.execEngAdd e u s
  | .engSub e u => Sys2Proof.Machine.execEngSub e u s
  | .engMul e u => Sys2Proof.Machine.execEngMul e u s
  | .engMac e u => Sys2Proof.Machine.execEngMac e u s
  | .engSat e u => Sys2Proof.Machine.execEngSat e u s
  | .engClamp e u => Sys2Proof.Machine.execEngClamp e u s
  | .engAbs e u => Sys2Proof.Machine.execEngAbs e u s
  | .engPi e u => Sys2Proof.Machine.execEngPi e u s
  | .engClarke e u => Sys2Proof.Machine.execEngClarke e u s
  | .engPark e u => Sys2Proof.Machine.execEngPark e u s
  | .engIpark e u => Sys2Proof.Machine.execEngIpark e u s
  | .engSincos e u => Sys2Proof.Machine.execEngSincos e u s
  | .engNco e u => Sys2Proof.Machine.execEngNco e u s
  | .engSvm e u => Sys2Proof.Machine.execEngSvm e u s
  | .engSt e u => Sys2Proof.Machine.execEngSt e u s
  | .engSti e u => Sys2Proof.Machine.execEngSti e u s
  | .engSto e u => Sys2Proof.Machine.execEngSto e u s
  | .engTrip e u => Sys2Proof.Machine.execEngTrip e u s
  | .engMark e u => Sys2Proof.Machine.execEngMark e u s
  | .engBrf e u => Sys2Proof.Machine.execEngBrf e u s
  | .illop e secded => Sys2Proof.Machine.execIllop e secded s
  | .resultRelease e => Sys2Proof.Machine.execResultRelease e s
  | .vote e => Sys2Proof.Machine.execVote e s
  | .deadlineMiss e => Sys2Proof.Machine.execDeadlineMiss e s
  | .fltRel init e faults => Sys2Proof.Machine.execFltRel init e faults s
  | .tripRel init e => Sys2Proof.Machine.execTripRel init e s
  | .publish init e => Sys2Proof.Machine.execPublish init e s
  | .engCntClr init e => Sys2Proof.Machine.execEngCntClr init e s
  | .ncoPhase init e value => Sys2Proof.Machine.execNcoPhase init e value s
  | .ncoFreq init e value => Sys2Proof.Machine.execNcoFreq init e value s
  | .freeze init e value => Sys2Proof.Machine.execFreeze init e value s
  | .xBcc c cond disp ext => Sys2Proof.Machine.execXBcc c cond disp ext s
  | .xBra c disp ext => Sys2Proof.Machine.execXBra c disp ext s
  | .xJmp c n => Sys2Proof.Machine.execXJmp c n s
  | .xCall c target => Sys2Proof.Machine.execXCall c target s
  | .xCallr c n => Sys2Proof.Machine.execXCallr c n s
  | .xRet c => Sys2Proof.Machine.execXRet c s
  | .xReti c => Sys2Proof.Machine.execXReti c s
  | .xTrap c n => Sys2Proof.Machine.execXTrap c n s
  | .xMov c d n => Sys2Proof.Machine.execXMov c d n s
  | .xMovi c d f ext => Sys2Proof.Machine.execXMovi c d f ext s
  | .xMovhi c d f ext => Sys2Proof.Machine.execXMovhi c d f ext s
  | .xAdd c d n => Sys2Proof.Machine.execXAdd c d n s
  | .xAddi c d f ext => Sys2Proof.Machine.execXAddi c d f ext s
  | .xSub c d n => Sys2Proof.Machine.execXSub c d n s
  | .xCmp c d n => Sys2Proof.Machine.execXCmp c d n s
  | .xAnd c d n => Sys2Proof.Machine.execXAnd c d n s
  | .xOr c d n => Sys2Proof.Machine.execXOr c d n s
  | .xXor c d n => Sys2Proof.Machine.execXXor c d n s
  | .xShl c d n => Sys2Proof.Machine.execXShl c d n s
  | .xShr c d n => Sys2Proof.Machine.execXShr c d n s
  | .xAsr c d n => Sys2Proof.Machine.execXAsr c d n s
  | .xShli c d f ext => Sys2Proof.Machine.execXShli c d f ext s
  | .xShri c d f ext => Sys2Proof.Machine.execXShri c d f ext s
  | .xAsri c d f ext => Sys2Proof.Machine.execXAsri c d f ext s
  | .xNot c d => Sys2Proof.Machine.execXNot c d s
  | .xNeg c d => Sys2Proof.Machine.execXNeg c d s
  | .xAbs c d => Sys2Proof.Machine.execXAbs c d s
  | .xSextb c d => Sys2Proof.Machine.execXSextb c d s
  | .xSexth c d => Sys2Proof.Machine.execXSexth c d s
  | .xZextb c d => Sys2Proof.Machine.execXZextb c d s
  | .xZexth c d => Sys2Proof.Machine.execXZexth c d s
  | .xClz c d => Sys2Proof.Machine.execXClz c d s
  | .xMul c d n => Sys2Proof.Machine.execXMul c d n s
  | .xQmul c d n => Sys2Proof.Machine.execXQmul c d n s
  | .xQmac c d n => Sys2Proof.Machine.execXQmac c d n s
  | .xDivs c d n => Sys2Proof.Machine.execXDivs c d n s
  | .xDivu c d n => Sys2Proof.Machine.execXDivu c d n s
  | .xDadd c d n => Sys2Proof.Machine.execXDadd c d n s
  | .xDaddC c d n => Sys2Proof.Machine.execXDaddC c d n s
  | .xDsub c d n => Sys2Proof.Machine.execXDsub c d n s
  | .xDsubC c d n => Sys2Proof.Machine.execXDsubC c d n s
  | .xDadj c d => Sys2Proof.Machine.execXDadj c d s
  | .xDcmp c d n => Sys2Proof.Machine.execXDcmp c d n s
  | .xD2b c d => Sys2Proof.Machine.execXD2b c d s
  | .xB2d c d => Sys2Proof.Machine.execXB2d c d s
  | .xLd c d n ext env => Sys2Proof.Machine.execXLd c d n ext env s
  | .xSt c d n ext env => Sys2Proof.Machine.execXSt c d n ext env s
  | .xLoop c n disp ext => Sys2Proof.Machine.execXLoop c n disp ext s
  | .xLoopImm c count disp ext => Sys2Proof.Machine.execXLoopImm c count disp ext s
  | .xLpop c => Sys2Proof.Machine.execXLpop c s
  | .xLock c n => Sys2Proof.Machine.execXLock c n s
  | .xNop c => Sys2Proof.Machine.execXNop c s
  | .xWait c => Sys2Proof.Machine.execXWait c s
  | .xSyncp c => Sys2Proof.Machine.execXSyncp c s
  | .xSpill c env => Sys2Proof.Machine.execXSpill c env s
  | .xFill c env => Sys2Proof.Machine.execXFill c env s
  | .xMfc c d n ext => Sys2Proof.Machine.execXMfc c d n ext s
  | .xMtc c d n ext => Sys2Proof.Machine.execXMtc c d n ext s
  | .xBmov c n rd wr => Sys2Proof.Machine.execXBmov c n rd wr s
  | .xVmac c d n ra rb => Sys2Proof.Machine.execXVmac c d n ra rb s
  | .xBcrc c d n env => Sys2Proof.Machine.execXBcrc c d n env s
  | .lineFetch c a ecc parityFails => Sys2Proof.Machine.execLineFetch c a ecc parityFails s
  | .storeDrain c env => Sys2Proof.Machine.execStoreDrain c env s
  | .impreciseStoreError c shadowNext => Sys2Proof.Machine.execImpreciseStoreError c shadowNext s
  | .parityReplay x => Sys2Proof.Machine.execParityReplay x s
  | .interruptEntry c shadowNext => Sys2Proof.Machine.execInterruptEntry c shadowNext s
  | .maskOverrun c shadowNext => Sys2Proof.Machine.execMaskOverrun c shadowNext s
  | .coreReset c => Sys2Proof.Machine.execCoreReset c s
  | .pulseSource n => Sys2Proof.Machine.execPulseSource n s
  | .levelSource n => Sys2Proof.Machine.execLevelSource n s
  | .pendSet init w mask => Sys2Proof.Machine.execPendSet init w mask s
  | .pendClr init w mask => Sys2Proof.Machine.execPendClr init w mask s
  | .enSet init w mask => Sys2Proof.Machine.execEnSet init w mask s
  | .enClr init w mask => Sys2Proof.Machine.execEnClr init w mask s
  | .claim init c v peek => Sys2Proof.Machine.execClaim init c v peek s
  | .complete init c v value => Sys2Proof.Machine.execComplete init c v value s
  | .doorbell init value => Sys2Proof.Machine.execDoorbell init value s
  | .extCfg init i0 value => Sys2Proof.Machine.execExtCfg init i0 value s
  | .extintEdge i0 x => Sys2Proof.Machine.execExtintEdge i0 x s
  | .fqHead init value => Sys2Proof.Machine.execFqHead init value s
  | .descriptorFetch env => Sys2Proof.Machine.execDescriptorFetch env s
  | .progLines x => Sys2Proof.Machine.execProgLines x s
  | .eraseSector => Sys2Proof.Machine.execEraseSector s
  | .eraseBank => Sys2Proof.Machine.execEraseBank s
  | .blankCheck f => Sys2Proof.Machine.execBlankCheck f s
  | .verify f env => Sys2Proof.Machine.execVerify f env s
  | .optWrite env => Sys2Proof.Machine.execOptWrite env s
  | .optErase => Sys2Proof.Machine.execOptErase s
  | .lineProgramEnd x => Sys2Proof.Machine.execLineProgramEnd x s
  | .descriptorCompletion failing => Sys2Proof.Machine.execDescriptorCompletion failing s
  | .flcResume init => Sys2Proof.Machine.execFlcResume init s
  | .suspend init => Sys2Proof.Machine.execSuspend init s
  | .resumeErase init => Sys2Proof.Machine.execResumeErase init s
  | .flcCntClr init => Sys2Proof.Machine.execFlcCntClr init s
  | .wpSet init w mask => Sys2Proof.Machine.execWpSet init w mask s
  | .flashRead init offset fetch ecc => Sys2Proof.Machine.execFlashRead init offset fetch ecc s
  | .eraseSuspend => Sys2Proof.Machine.execEraseSuspend s
  | .eraseResume => Sys2Proof.Machine.execEraseResume s
  | .scrubRead ecc => Sys2Proof.Machine.execScrubRead ecc s
  | .scrubRefresh gone => Sys2Proof.Machine.execScrubRefresh gone s
  | .powerOnReset => Sys2Proof.Machine.execPowerOnReset s
  | .resetN x => Sys2Proof.Machine.execResetN x s
  | .supplyMonitor rail below => Sys2Proof.Machine.execSupplyMonitor rail below s
  | .supWarn below => Sys2Proof.Machine.execSupWarn below s
  | .resetSequence env => Sys2Proof.Machine.execResetSequence env s
  | .atticIslandUp env => Sys2Proof.Machine.execAtticIslandUp env s
  | .islandReset island env => Sys2Proof.Machine.execIslandReset island env s
  | .debugReset => Sys2Proof.Machine.execDebugReset s
  | .dbgPowerOn trstN => Sys2Proof.Machine.execDbgPowerOn trstN s
  | .hallResetCmd init => Sys2Proof.Machine.execHallResetCmd init s
  | .coreResetCmd init target => Sys2Proof.Machine.execCoreResetCmd init target s
  | .islandResetCmd init target => Sys2Proof.Machine.execIslandResetCmd init target s
  | .snapshot init => Sys2Proof.Machine.execSnapshot init s
  | .shutdown init => Sys2Proof.Machine.execShutdown init s
  | .defSave init => Sys2Proof.Machine.execDefSave init s
  | .pfailNFall => Sys2Proof.Machine.execPfailNFall s
  | .pfailNRise => Sys2Proof.Machine.execPfailNRise s
  | .snapshotEnd => Sys2Proof.Machine.execSnapshotEnd s
  | .ledgerEntryWrite => Sys2Proof.Machine.execLedgerEntryWrite s
  | .ledgerClr init => Sys2Proof.Machine.execLedgerClr init s
  | .celCntClr init => Sys2Proof.Machine.execCelCntClr init s
  | .armKeyReady init value => Sys2Proof.Machine.execArmKeyReady init value s
  | .armKeyArm init value => Sys2Proof.Machine.execArmKeyArm init value s
  | .armWindowExpiry => Sys2Proof.Machine.execArmWindowExpiry s
  | .condChange k => Sys2Proof.Machine.execCondChange k s
  | .disarm init => Sys2Proof.Machine.execDisarm init s
  | .armCntClr init => Sys2Proof.Machine.execArmCntClr init s
  | .safeNLow => Sys2Proof.Machine.execSafeNLow s
  | .safeNHigh => Sys2Proof.Machine.execSafeNHigh s
  | .watchdogTick => Sys2Proof.Machine.execWatchdogTick s
  | .service init value => Sys2Proof.Machine.execService init value s
  | .watchdogExpiry => Sys2Proof.Machine.execWatchdogExpiry s
  | .portUp p => Sys2Proof.Machine.execPortUp p s
  | .ident p node up => Sys2Proof.Machine.execIdent p node up s
  | .dlyReq p => Sys2Proof.Machine.execDlyReq p s
  | .dlyRsp p turnaround => Sys2Proof.Machine.execDlyRsp p turnaround s
  | .linkDelayMeasurement p => Sys2Proof.Machine.execLinkDelayMeasurement p s
  | .portDown p => Sys2Proof.Machine.execPortDown p s
  | .linkFault p => Sys2Proof.Machine.execLinkFault p s
  | .unwrap p => Sys2Proof.Machine.execUnwrap p s
  | .beacon node priority => Sys2Proof.Machine.execBeacon node priority s
  | .masterElection => Sys2Proof.Machine.execMasterElection s
  | .cycleStart => Sys2Proof.Machine.execCycleStart s
  | .frame f => Sys2Proof.Machine.execFrame f s
  | .captureInstant => Sys2Proof.Machine.execCaptureInstant s
  | .applyInstant => Sys2Proof.Machine.execApplyInstant s
  | .cycleLost => Sys2Proof.Machine.execCycleLost s
  | .referenceSwitch => Sys2Proof.Machine.execReferenceSwitch s
  | .trip p origin seq ok => Sys2Proof.Machine.execTrip p origin seq ok s
  | .record p origin seq time ok => Sys2Proof.Machine.execRecord p origin seq time ok s
  | .mailboxTimeout => Sys2Proof.Machine.execMailboxTimeout s
  | .pdPublish init => Sys2Proof.Machine.execPdPublish init s
  | .mbxSend init => Sys2Proof.Machine.execMbxSend init s
  | .rxPop init => Sys2Proof.Machine.execRxPop init s
  | .knrCntClr init => Sys2Proof.Machine.execKnrCntClr init s
  | .odRequest m => Sys2Proof.Machine.execOdRequest m s
  | .odRead env => Sys2Proof.Machine.execOdRead env s
  | .odWrite env => Sys2Proof.Machine.execOdWrite env s
  | .blockRead env drive => Sys2Proof.Machine.execBlockRead env drive s
  | .blockWrite env => Sys2Proof.Machine.execBlockWrite env s
  | .blockWriteEnd env => Sys2Proof.Machine.execBlockWriteEnd env s
  | .odSave env => Sys2Proof.Machine.execOdSave env s
  | .restoreDefaults env => Sys2Proof.Machine.execRestoreDefaults env s
  | .usdoRequest client target op env drive => Sys2Proof.Machine.execUsdoRequest client target op env drive s
  | .odsvc c node env drive => Sys2Proof.Machine.execOdsvc c node env drive s
  | .featuresAccepted env => Sys2Proof.Machine.execFeaturesAccepted env s
  | .negotiationTimeout => Sys2Proof.Machine.execNegotiationTimeout s
  | .odeCntClr init => Sys2Proof.Machine.execOdeCntClr init s
  | .controlword env => Sys2Proof.Machine.execControlword env s
  | .targetTorque env => Sys2Proof.Machine.execTargetTorque env s
  | .axisFault x => Sys2Proof.Machine.execAxisFault x s
  | .recorderItem => Sys2Proof.Machine.execRecorderItem s
  | .trig init => Sys2Proof.Machine.execTrig init s
  | .windowClose => Sys2Proof.Machine.execWindowClose s
  | .driveWrite window n r => Sys2Proof.Machine.execDriveWrite window n r s
  | .perstRelease => Sys2Proof.Machine.execPerstRelease s
  | .bringUp env => Sys2Proof.Machine.execBringUp env s
  | .bringUpRestart => Sys2Proof.Machine.execBringUpRestart s
  | .checkpoint r => Sys2Proof.Machine.execCheckpoint r s
  | .ckpt init => Sys2Proof.Machine.execCkpt init s
  | .format init => Sys2Proof.Machine.execFormat init s
  | .atcRead init => Sys2Proof.Machine.execAtcRead init s
  | .readbackEnd data status => Sys2Proof.Machine.execReadbackEnd data status s
  | .smartPoll temp crit pct media r => Sys2Proof.Machine.execSmartPoll temp crit pct media r s
  | .atcCntClr init => Sys2Proof.Machine.execAtcCntClr init s
  | .markTag init value => Sys2Proof.Machine.execMarkTag init value s
  | .atticShutdown => Sys2Proof.Machine.execAtticShutdown s
  | .extest balls cells => Sys2Proof.Machine.execExtest balls cells s
  | .samplePreload balls cells => Sys2Proof.Machine.execSamplePreload balls cells s
  | .idcode => Sys2Proof.Machine.execIdcode s
  | .clamp => Sys2Proof.Machine.execClamp s
  | .highz => Sys2Proof.Machine.execHighz s
  | .dbgacc write index data => Sys2Proof.Machine.execDbgacc write index data s
  | .bypass => Sys2Proof.Machine.execBypass s
  | .sapRead env => Sys2Proof.Machine.execSapRead env s
  | .sapWrite env => Sys2Proof.Machine.execSapWrite env s
  | .mcmdGo init => Sys2Proof.Machine.execMcmdGo init s
  | .memRead env => Sys2Proof.Machine.execMemRead env s
  | .memWrite env => Sys2Proof.Machine.execMemWrite env s
  | .monHalt => Sys2Proof.Machine.execMonHalt s
  | .monResume => Sys2Proof.Machine.execMonResume s
  | .monStep => Sys2Proof.Machine.execMonStep s
  | .regRead => Sys2Proof.Machine.execRegRead s
  | .regWrite => Sys2Proof.Machine.execRegWrite s
  | .monUnlock => Sys2Proof.Machine.execMonUnlock s
  | .unlock init => Sys2Proof.Machine.execUnlock init s
  | .lockoutEnd => Sys2Proof.Machine.execLockoutEnd s
  | .traceClr init => Sys2Proof.Machine.execTraceClr init s
  | .dbgReset init => Sys2Proof.Machine.execDbgReset init s
  | .cCmdHalt init c => Sys2Proof.Machine.execCCmdHalt init c s
  | .cCmdResume init c => Sys2Proof.Machine.execCCmdResume init c s
  | .cCmdStep init c => Sys2Proof.Machine.execCCmdStep init c s
  | .monitorEntry c shadowNext => Sys2Proof.Machine.execMonitorEntry c shadowNext s
  | .spiTxdata init p value => Sys2Proof.Machine.execSpiTxdata init p value s
  | .spiFrame p miso => Sys2Proof.Machine.execSpiFrame p miso s
  | .spiRxdata init p peek => Sys2Proof.Machine.execSpiRxdata init p peek s
  | .spiCntClr init p => Sys2Proof.Machine.execSpiCntClr init p s
  | .uartTxdata init u value => Sys2Proof.Machine.execUartTxdata init u value s
  | .uartFrame u received => Sys2Proof.Machine.execUartFrame u received s
  | .uartRxdata init u peek => Sys2Proof.Machine.execUartRxdata init u peek s
  | .canFrame k f error => Sys2Proof.Machine.execCanFrame k f error s
  | .txReq init k slots => Sys2Proof.Machine.execTxReq init k slots s
  | .canTxDone k slot error => Sys2Proof.Machine.execCanTxDone k slot error s
  | .canRxPop init k => Sys2Proof.Machine.execCanRxPop init k s
  | .recover init k => Sys2Proof.Machine.execRecover init k s
  | .xfer init i0 value => Sys2Proof.Machine.execXfer init i0 value s
  | .iicOperation i0 r => Sys2Proof.Machine.execIicOperation i0 r s
  | .iicRxdata init i0 peek => Sys2Proof.Machine.execIicRxdata init i0 peek s
  | .iicResume init i0 => Sys2Proof.Machine.execIicResume init i0 s
  | .iicCntClr init i0 => Sys2Proof.Machine.execIicCntClr init i0 s
  | .qepCountEdge d a b => Sys2Proof.Machine.execQepCountEdge d a b s
  | .zEdge z => Sys2Proof.Machine.execZEdge z s
  | .armZ init d => Sys2Proof.Machine.execArmZ init d s
  | .qepCntClr init d => Sys2Proof.Machine.execQepCntClr init d s
  | .pos init d value => Sys2Proof.Machine.execPos init d value s
  | .outSet init hi mask => Sys2Proof.Machine.execOutSet init hi mask s
  | .outClr init hi mask => Sys2Proof.Machine.execOutClr init hi mask s
  | .gpioIrqEdge line x => Sys2Proof.Machine.execGpioIrqEdge line x s
  | .coreWatchdogTick n => Sys2Proof.Machine.execCoreWatchdogTick n s
  | .coreWatchdogService init n value => Sys2Proof.Machine.execCoreWatchdogService init n value s
  | .coreWatchdogExpiry n => Sys2Proof.Machine.execCoreWatchdogExpiry n s
  | .hallResetStart => Sys2Proof.Machine.execHallResetStart s
  | .vddCelLoss => Sys2Proof.Machine.execVddCelLoss s
  | .xinClockChange present => Sys2Proof.Machine.execXinClockChange present s
  | .pcieLinkDown => Sys2Proof.Machine.execPcieLinkDown s
  | .busOffRecoveryEnd k => Sys2Proof.Machine.execBusOffRecoveryEnd k s

end Sys2Proof.Machine
end

