-- ==== Sys2Proof/Safety.lean ====
section
/-! DEFINITION. What claims are stated with: the invariant of every state, a safe step, and frames that say what a command
leaves alone. -/

namespace Sys2Proof.Safety

open Sys2Proof Sys2Proof.Machine

/-- The register file and the memory are in canonical form: rising addresses, and no entry that an unlisted address
would read as. -/
def Canonical (s : State) : Prop := Sparse.wf resetWordAt s.regs = true ∧ Memory.wf s.mem = true

/-- A step is safe that ends in a next state whose behaviour the spec still warrants (R21, R61). -/
def SafeStep (s : State) : Prop := ∃ t, step s = .next t ∧ t.warranted = true

/-- A write by an initiator reaches the register at an address: an address some block implements (R34), on an island
that is up (R28). -/
def Reaches (s : State) (addr : Nat) : Prop := s.reach addr = 0

/-- Nothing but registers has changed (and the note of what the present edge has done), and of these only ones that `w`
names. -/
structure OnlyRegs (s t : State) (w : Nat → Prop) : Prop where
  rest : t = { s with regs := t.regs, happened := t.happened }
  regs : ∀ a, ¬ w a → t.rd a = s.rd a

/-- Of the registers only those that `w` names have changed. -/
def RegsBut (s t : State) (w : Nat → Prop) : Prop := ∀ a, ¬ w a → t.rd a = s.rd a

/-- Every byte of memory reads as before. -/
def SameMem (s t : State) : Prop := ∀ a, t.byte a = s.byte a

/-- The parts of a state: its fields but the queue, and the registers block by block. -/
inductive Part where
  | now | free | warranted | mem | shadows | happened | readData | writeBack | options | cellar | crier | clock | aisle | car | leg
  | cmp | cnv | eng | qep | trip | ring | ode | attic | core | replay | dbg | flash | spi | uart | can | iic
  | sysR | aisR | carR | stlR | cnvR | cmpR | legR | engR | trpR | criR | flcR | celR
  | wdtR | knrR | odeR | atcR | dbgR | spiR | uartR | canR | iicR | qepR | gpioR
  deriving DecidableEq, Repr

/-- Of the registers of block `b` only those that `w` names have changed. -/
def BlkBut (b : Blk) (s t : State) (w : Nat → Prop) : Prop :=
  ∀ a, (place a).map Place.blk = some b → ¬ w a → t.rd a = s.rd a

/-- Every register of block `b` reads as before. -/
def SameRegs (b : Blk) (s t : State) : Prop := ∀ a, (place a).map Place.blk = some b → t.rd a = s.rd a

/-- A part of the state is as it was. -/
def Part.Same (p : Part) (s t : State) : Prop :=
  match p with
  | .now => t.now = s.now
  | .free => t.free = s.free
  | .warranted => t.warranted = s.warranted
  | .mem => t.mem = s.mem
  | .shadows => t.shadows = s.shadows
  | .happened => t.happened = s.happened
  | .readData => t.readData = s.readData
  | .writeBack => t.writeBack = s.writeBack
  | .options => t.options = s.options
  | .cellar => t.cellar = s.cellar
  | .crier => t.crier = s.crier
  | .clock => t.clock = s.clock
  | .aisle => t.aisle = s.aisle
  | .car => t.car = s.car
  | .leg => t.leg = s.leg
  | .cmp => t.cmp = s.cmp
  | .cnv => t.cnv = s.cnv
  | .eng => t.eng = s.eng
  | .qep => t.qep = s.qep
  | .trip => t.trip = s.trip
  | .ring => t.ring = s.ring
  | .ode => t.ode = s.ode
  | .attic => t.attic = s.attic
  | .core => t.core = s.core
  | .replay => t.replay = s.replay
  | .dbg => t.dbg = s.dbg
  | .flash => t.flash = s.flash
  | .spi => t.spi = s.spi
  | .uart => t.uart = s.uart
  | .can => t.can = s.can
  | .iic => t.iic = s.iic
  | .sysR => SameRegs .sys s t
  | .aisR => SameRegs .ais s t
  | .carR => SameRegs .car s t
  | .stlR => SameRegs .stl s t
  | .cnvR => SameRegs .cnv s t
  | .cmpR => SameRegs .cmp s t
  | .legR => SameRegs .leg s t
  | .engR => SameRegs .eng s t
  | .trpR => SameRegs .trp s t
  | .criR => SameRegs .cri s t
  | .flcR => SameRegs .flc s t
  | .celR => SameRegs .cel s t
  | .wdtR => SameRegs .wdt s t
  | .knrR => SameRegs .knr s t
  | .odeR => SameRegs .ode s t
  | .atcR => SameRegs .atc s t
  | .dbgR => SameRegs .dbg s t
  | .spiR => SameRegs .spi s t
  | .uartR => SameRegs .uart s t
  | .canR => SameRegs .can s t
  | .iicR => SameRegs .iic s t
  | .qepR => SameRegs .qep s t
  | .gpioR => SameRegs .gpio s t

/-- Of a state at most the parts in `l` have changed. -/
def Within (l : List Part) (s t : State) : Prop := ∀ p, p ∉ l → p.Same s t

/-- Every part of the state. -/
def allParts : List Part :=
  [.now, .free, .warranted, .mem, .shadows, .happened, .readData, .writeBack, .options, .cellar, .crier, .clock,
   .aisle, .car, .leg, .cmp, .cnv, .eng, .qep, .trip, .ring, .ode, .attic, .core, .replay, .dbg, .flash, .spi,
   .uart, .can, .iic, .sysR, .aisR, .carR, .stlR, .cnvR, .cmpR, .legR, .engR, .trpR, .criR, .flcR, .celR, .wdtR,
   .knrR, .odeR, .atcR, .dbgR, .spiR, .uartR, .canR, .iicR, .qepR, .gpioR]

/-- The parts of the state that a command may change.  Registers of the system block are among them where a write by
an initiator may find its island down, which SYS.BUSERR_* records (R51). -/
def touches (i : Instr) : List Part :=
  match i with
  | .registerWrite .. | .odRead .. | .odWrite .. | .blockRead .. | .blockWrite .. | .blockWriteEnd .. | .odSave ..
  | .restoreDefaults .. | .usdoRequest .. | .odsvc .. | .featuresAccepted .. | .controlword .. | .targetTorque ..
  | .axisFault .. | .sapWrite .. | .memWrite .. => allParts.filter (· ∉ [.now, .readData, .options, .replay])
  | .eccWriteBack .. => [.writeBack]
  | .eccClear .. => [.happened, .sysR]
  | .accessAcknowledge .. | .impreciseStoreError .. | .parityReplay .. | .interruptEntry .. | .cCmdHalt ..
  | .cCmdResume .. | .cCmdStep .. | .monitorEntry .. =>
    [.happened, .cellar, .ode, .core, .dbg, .sysR, .criR, .celR, .wdtR, .dbgR]
  | .zero .. | .lockedCarrierStart .. =>
    [.now, .free, .mem, .happened, .cellar, .crier, .aisle, .car, .leg, .cmp, .cnv, .eng, .trip, .ring, .attic,
     .aisR, .carR, .stlR, .cnvR, .cmpR, .legR, .engR, .trpR, .celR, .wdtR, .knrR, .atcR]
  | .period .. =>
    [.now, .mem, .happened, .cellar, .crier, .aisle, .car, .leg, .cmp, .cnv, .eng, .trip, .ring, .attic, .aisR,
     .carR, .stlR, .cnvR, .cmpR, .legR, .engR, .trpR, .celR, .wdtR, .knrR, .atcR]
  | .evaUp .. | .evaDn .. | .evbUp .. | .evbDn .. =>
    [.now, .mem, .happened, .cellar, .crier, .aisle, .car, .leg, .cmp, .cnv, .eng, .trip, .ring, .attic, .aisR,
     .stlR, .cnvR, .cmpR, .legR, .engR, .trpR, .celR, .wdtR, .knrR, .atcR]
  | .sgFire .. => [.happened, .aisle, .cnv, .sysR, .aisR, .cnvR]
  | .sgClr .. | .blkClr .. => [.happened, .sysR, .aisR]
  | .blankingMaxlen .. =>
    [.now, .mem, .happened, .cellar, .crier, .aisle, .cmp, .trip, .ring, .attic, .aisR, .stlR, .cmpR, .trpR, .celR,
     .wdtR, .knrR, .atcR]
  | .phaseMeasurement .. => [.aisle, .aisR]
  | .phaseValidExpiry .. => [.now, .aisR]
  | .aperture .. => [.now, .free, .cnv]
  | .rawCode .. | .backToBackScan .. | .diagScanEnd .. | .selfCheckResult .. => [.now, .cnv, .aisR, .cnvR]
  | .correctedResult .. => [.now, .happened, .leg, .cnv, .eng, .attic, .aisR, .cnvR, .legR, .engR]
  | .scanComplete .. => [.now, .happened, .crier, .leg, .cnv, .eng, .attic, .aisR, .cnvR, .legR, .engR]
  | .swTrig .. | .calZero .. | .calFull .. | .diag .. | .selfchk .. => [.happened, .cnv, .sysR, .aisR, .cnvR]
  | .startEdge .. => [.happened, .cnv, .aisR, .cnvR]
  | .stopEdge .. => [.cnv, .cnvR]
  | .stop .. => [.happened, .cnv, .sysR, .cnvR]
  | .calibrationEnd .. => [.now, .free, .cnv, .attic, .aisR, .cnvR]
  | .diagScanStart .. | .selfCheckElement .. => [.cnv, .aisR, .cnvR]
  | .selfCheckAttempt .. => [.now, .cnv]
  | .bgstarved .. => [.now, .cnvR]
  | .cnvCntClr .. => [.happened, .sysR, .cnvR]
  | .comparatorOutputChange .. =>
    [.free, .mem, .happened, .cellar, .crier, .aisle, .cmp, .trip, .ring, .attic, .stlR, .cmpR, .trpR, .celR,
     .wdtR, .knrR, .atcR]
  | .settlingEnd .. | .sampledDecision .. =>
    [.now, .free, .mem, .happened, .cellar, .crier, .aisle, .cmp, .trip, .ring, .attic, .stlR, .cmpR, .trpR, .celR,
     .wdtR, .knrR, .atcR]
  | .tick .. => [.now, .happened, .cmp, .cmpR]
  | .cmpRelease .. =>
    [.mem, .happened, .cellar, .crier, .aisle, .cmp, .trip, .ring, .attic, .sysR, .stlR, .cmpR, .trpR, .celR,
     .wdtR, .knrR, .atcR]
  | .flagRel .. | .cmpCntClr .. => [.happened, .sysR, .cmpR]
  | .armingStateArrival .. =>
    [.mem, .happened, .cellar, .crier, .aisle, .leg, .cmp, .trip, .ring, .attic, .stlR, .cmpR, .legR, .trpR, .celR,
     .wdtR, .knrR, .atcR]
  | .carCntClr .. => [.happened, .sysR, .carR]
  | .shadowWrite .. => [.warranted, .happened, .leg, .eng, .attic, .sysR, .legR, .engR]
  | .commit .. | .gcommit .. | .legCntClr .. | .start .. | .publish .. =>
    [.happened, .leg, .eng, .attic, .sysR, .legR, .engR]
  | .compareEdge .. | .engEnd .. | .engLd .. | .engLdr .. | .engLdm .. | .engMov .. | .engLdi .. | .engAdd ..
  | .engSub .. | .engMul .. | .engMac .. | .engSat .. | .engClamp .. | .engAbs .. | .engPi .. | .engClarke ..
  | .engPark .. | .engIpark .. | .engSincos .. | .engNco .. | .engSvm .. | .engSt .. | .engSti .. | .engSto ..
  | .engTrip .. | .engMark .. | .engBrf .. | .illop .. | .deadlineMiss .. =>
    [.now, .happened, .leg, .eng, .attic, .legR, .engR]
  | .deadTimeEnd .. => [.now, .leg, .legR]
  | .tripinEdge .. | .tripSourceActive .. | .trip .. =>
    [.mem, .happened, .cellar, .crier, .aisle, .trip, .ring, .attic, .stlR, .trpR, .celR, .wdtR, .knrR, .atcR]
  | .groupStateArrival .. => [.aisle, .leg, .legR, .trpR]
  | .trpRelease .. =>
    [.mem, .happened, .cellar, .crier, .aisle, .trip, .ring, .attic, .sysR, .stlR, .trpR, .celR, .wdtR, .knrR,
     .atcR]
  | .trpCntClr .. => [.happened, .sysR, .trpR]
  | .swtrip .. =>
    [.warranted, .mem, .happened, .cellar, .crier, .aisle, .trip, .ring, .attic, .sysR, .stlR, .trpR, .celR, .wdtR,
     .knrR, .atcR]
  | .resultRelease .. | .vote .. => [.now, .happened, .crier, .leg, .eng, .attic, .legR, .engR]
  | .fltRel .. | .engCntClr .. => [.happened, .sysR, .engR]
  | .tripRel .. =>
    [.mem, .happened, .cellar, .crier, .aisle, .eng, .trip, .ring, .attic, .sysR, .stlR, .trpR, .celR, .wdtR,
     .knrR, .atcR]
  | .ncoPhase .. | .ncoFreq .. => [.happened, .eng, .sysR, .engR]
  | .freeze .. => [.warranted, .happened, .sysR, .stlR]
  | .xBcc .. | .xBra .. | .xJmp .. | .xCall .. | .xCallr .. | .xRet .. | .xReti .. | .xTrap .. | .xMov ..
  | .xMovi .. | .xMovhi .. | .xAdd .. | .xAddi .. | .xSub .. | .xCmp .. | .xAnd .. | .xOr .. | .xXor .. | .xShl ..
  | .xShr .. | .xAsr .. | .xShli .. | .xShri .. | .xAsri .. | .xNot .. | .xNeg .. | .xAbs .. | .xSextb ..
  | .xSexth .. | .xZextb .. | .xZexth .. | .xClz .. | .xMul .. | .xQmul .. | .xQmac .. | .xDivs .. | .xDivu ..
  | .xDadd .. | .xDaddC .. | .xDsub .. | .xDsubC .. | .xDadj .. | .xDcmp .. | .xD2b .. | .xB2d .. | .xLoop ..
  | .xLoopImm .. | .xLpop .. | .xLock .. | .xNop .. | .xWait .. | .xSyncp .. | .xMfc .. =>
    [.free, .mem, .happened, .writeBack, .cellar, .crier, .ode, .core, .replay, .dbg, .flash, .sysR, .criR, .flcR,
     .celR, .wdtR, .dbgR]
  | .xLd .. | .xFill .. | .xVmac .. | .xBcrc .. =>
    allParts.filter (· ∉ [.now, .warranted, .readData, .options, .clock, .aisle, .car, .cmp, .qep, .trip,
      .ring, .can, .aisR, .carR, .stlR, .cmpR, .trpR, .knrR, .odeR, .atcR, .canR, .iicR,
      .qepR, .gpioR])
  | .xSt .. | .xSpill .. | .xBmov .. => allParts.filter (· ∉ [.now, .readData, .options])
  | .xMtc .. =>
    [.free, .warranted, .mem, .happened, .writeBack, .cellar, .crier, .ode, .core, .replay, .dbg, .flash, .sysR,
     .criR, .flcR, .celR, .wdtR, .dbgR]
  | .lineFetch .. => [.free, .happened, .writeBack, .crier, .core, .flash, .sysR, .flcR]
  | .storeDrain .. => [.mem, .happened, .writeBack, .core, .sysR]
  | .maskOverrun .. => [.now, .happened, .cellar, .ode, .core, .dbg, .sysR, .criR, .celR, .wdtR, .dbgR]
  | .coreReset .. => [.now, .free, .cellar, .core, .dbg, .sysR, .wdtR]
  | .pulseSource .. | .extintEdge .. => [.crier, .criR]
  | .levelSource .. => [.happened, .leg, .cnv, .eng, .attic, .cnvR, .legR, .engR, .criR]
  | .pendSet .. | .enSet .. | .doorbell .. => [.happened, .sysR, .criR]
  | .pendClr .. | .enClr .. => [.happened, .core, .sysR, .criR]
  | .claim .. => [.happened, .readData, .sysR, .criR]
  | .complete .. => [.happened, .crier, .sysR, .criR]
  | .extCfg .. => [.warranted, .happened, .crier, .sysR, .criR]
  | .fqHead .. => [.warranted, .happened, .sysR, .flcR]
  | .descriptorFetch .. => [.free, .warranted, .happened, .writeBack, .crier, .flash, .sysR, .flcR]
  | .progLines .. | .verify .. | .optWrite .. => [.free, .happened, .writeBack, .crier, .flash, .sysR, .flcR]
  | .eraseSector | .eraseBank => [.mem, .flash, .flcR]
  | .blankCheck .. | .scrubRefresh .. => [.happened, .crier, .flash, .flcR]
  | .optErase => [.flash]
  | .lineProgramEnd .. => [.mem, .happened, .crier, .flash, .flcR]
  | .descriptorCompletion .. => [.mem, .happened, .writeBack, .crier, .flash, .sysR, .flcR]
  | .flcResume .. | .flcCntClr .. => [.happened, .sysR, .flcR]
  | .suspend .. => [.happened, .flash, .sysR]
  | .resumeErase .. | .wpSet .. => [.happened, .flash, .sysR, .flcR]
  | .flashRead .. => [.free, .happened, .readData, .writeBack, .crier, .flash, .sysR, .flcR]
  | .eraseSuspend | .eraseResume => [.now, .flash, .flcR]
  | .scrubRead .. => [.now, .happened, .crier, .flash, .flcR]
  | .powerOnReset => allParts
  | .resetN .. => allParts.filter (· ∉ [.now, .warranted, .options, .clock, .replay, .dbg, .wdtR, .dbgR])
  | .supplyMonitor .. | .vddCelLoss => allParts.filter (· ∉ [.now, .warranted, .options, .replay, .dbg])
  | .supWarn .. => [.celR]
  | .resetSequence .. =>
    allParts.filter (· ∉ [.shadows, .readData, .writeBack, .qep, .replay, .spi, .uart, .can, .iic])
  | .atticIslandUp .. =>
    allParts.filter (· ∉ [.now, .shadows, .readData, .writeBack, .options, .clock, .qep, .core, .replay,
      .spi, .uart, .can, .iic])
  | .islandReset .. =>
    allParts.filter (· ∉ [.shadows, .readData, .writeBack, .qep, .core, .replay, .spi, .uart, .can, .iic])
  | .debugReset => [.cellar, .dbg, .sysR, .celR, .dbgR]
  | .dbgPowerOn .. => [.now, .cellar, .dbg, .sysR, .celR, .dbgR]
  | .hallResetCmd .. | .coreResetCmd .. | .islandResetCmd .. =>
    allParts.filter (· ∉ [.now, .warranted, .readData, .writeBack, .options, .qep, .replay, .dbg, .flash,
      .spi, .uart, .can, .iic, .flcR, .spiR, .uartR, .canR, .iicR, .qepR, .gpioR])
  | .snapshot .. | .defSave .. => [.mem, .happened, .cellar, .sysR, .celR]
  | .shutdown .. => [.mem, .happened, .cellar, .crier, .aisle, .sysR, .stlR, .celR, .wdtR]
  | .pfailNFall => [.mem, .happened, .cellar, .crier, .aisle, .stlR, .celR, .wdtR]
  | .pfailNRise | .condChange .. | .safeNLow | .watchdogExpiry =>
    [.happened, .cellar, .crier, .aisle, .stlR, .celR, .wdtR]
  | .snapshotEnd => [.free, .mem, .happened, .cellar, .crier, .ring, .ode, .celR, .odeR]
  | .ledgerEntryWrite => [.mem, .happened, .cellar, .crier, .celR]
  | .ledgerClr .. | .celCntClr .. | .armCntClr .. => [.happened, .sysR, .celR]
  | .armKeyReady .. | .armKeyArm .. | .disarm .. => [.happened, .cellar, .crier, .aisle, .sysR, .stlR, .celR, .wdtR]
  | .armWindowExpiry => [.now, .happened, .cellar, .crier, .aisle, .stlR, .celR, .wdtR]
  | .safeNHigh => [.cellar, .celR]
  | .watchdogTick | .coreWatchdogTick .. => [.now, .cellar, .crier, .wdtR]
  | .service .. | .coreWatchdogService .. => [.happened, .cellar, .sysR, .wdtR]
  | .portUp .. | .portDown .. | .linkFault .. | .unwrap .. => [.happened, .ring, .knrR]
  | .ident .. => [.ring, .knrR]
  | .dlyReq .. => [.free, .ring]
  | .dlyRsp .. => [.knrR]
  | .linkDelayMeasurement .. => [.now, .ring]
  | .beacon .. => [.ring]
  | .masterElection => [.now, .happened, .crier, .ring, .knrR]
  | .cycleStart => [.now, .free, .happened, .ring, .ode, .dbg, .knrR, .odeR, .dbgR]
  | .frame .. =>
    [.free, .mem, .happened, .cellar, .crier, .clock, .aisle, .trip, .ring, .ode, .attic, .dbg, .stlR, .trpR,
     .celR, .wdtR, .knrR, .odeR, .atcR, .dbgR]
  | .captureInstant => [.now, .crier, .ring, .knrR]
  | .applyInstant => [.crier, .ring, .knrR]
  | .cycleLost =>
    [.now, .mem, .happened, .cellar, .crier, .aisle, .trip, .ring, .attic, .sysR, .stlR, .trpR, .celR, .wdtR,
     .knrR, .atcR]
  | .referenceSwitch => [.now, .sysR, .knrR]
  | .record .. => [.mem, .happened, .crier, .ring, .attic, .atcR]
  | .mailboxTimeout => [.now, .free, .happened, .crier, .ring, .ode, .odeR, .dbgR]
  | .pdPublish .. | .mbxSend .. | .rxPop .. | .knrCntClr .. => [.happened, .ring, .sysR, .knrR]
  | .odRequest .. => [.happened, .ring, .ode, .odeR]
  | .negotiationTimeout => [.now, .ode, .odeR]
  | .odeCntClr .. => [.happened, .sysR, .odeR]
  | .recorderItem => [.mem, .happened, .attic, .dbg, .atcR]
  | .trig .. | .ckpt .. | .format .. | .atcRead .. | .atcCntClr .. =>
    [.mem, .happened, .crier, .ring, .attic, .sysR, .atcR]
  | .windowClose => [.now, .mem, .happened, .crier, .attic, .atcR]
  | .driveWrite .. | .atticShutdown => [.mem, .happened, .crier, .attic, .atcR]
  | .perstRelease | .bringUpRestart => [.now, .attic]
  | .bringUp .. | .pcieLinkDown => [.attic, .atcR]
  | .checkpoint .. => [.now, .mem, .attic, .atcR]
  | .readbackEnd .. => [.crier, .attic, .atcR]
  | .smartPoll .. => [.now, .attic, .atcR]
  | .markTag .. => [.happened, .attic, .sysR]
  | .extest .. | .samplePreload .. | .idcode | .clamp | .highz | .bypass => [.dbg]
  | .dbgacc .. => allParts.filter (· ∉ [.now, .readData, .writeBack, .options, .replay])
  | .sapRead .. =>
    [.free, .shadows, .happened, .writeBack, .crier, .leg, .cnv, .eng, .attic, .dbg, .flash, .spi, .uart, .iic,
     .sysR, .cnvR, .legR, .engR, .criR, .flcR, .dbgR, .spiR, .uartR]
  | .mcmdGo .. | .unlock .. | .traceClr .. | .dbgReset .. => [.happened, .ring, .dbg, .sysR, .dbgR]
  | .memRead .. =>
    [.free, .shadows, .happened, .writeBack, .crier, .leg, .cnv, .eng, .ring, .attic, .dbg, .flash, .spi, .uart,
     .iic, .sysR, .cnvR, .legR, .engR, .criR, .flcR, .dbgR, .spiR, .uartR]
  | .monHalt | .regRead => [.ring, .core, .dbg, .dbgR]
  | .monResume | .monStep => [.happened, .cellar, .ring, .ode, .core, .dbg, .sysR, .criR, .celR, .wdtR, .dbgR]
  | .regWrite => [.warranted, .ring, .core, .dbg, .dbgR]
  | .monUnlock => [.happened, .ring, .dbg, .dbgR]
  | .lockoutEnd => [.now, .dbgR]
  | .spiTxdata .. => [.happened, .spi, .sysR, .spiR]
  | .spiFrame .. => [.happened, .spi, .spiR]
  | .spiRxdata .. => [.happened, .readData, .spi, .sysR, .spiR]
  | .spiCntClr .. => [.happened, .sysR, .spiR]
  | .uartTxdata .. => [.happened, .uart, .sysR, .uartR]
  | .uartFrame .. => [.happened, .uart, .uartR]
  | .uartRxdata .. => [.happened, .readData, .uart, .sysR, .uartR]
  | .canFrame .. | .canTxDone .. => [.ode, .can, .canR]
  | .txReq .. | .canRxPop .. | .recover .. => [.happened, .can, .sysR, .canR]
  | .xfer .. => [.happened, .iic, .sysR, .iicR]
  | .iicOperation .. => [.happened, .iic, .iicR]
  | .iicRxdata .. => [.happened, .readData, .iic, .sysR]
  | .iicResume .. | .iicCntClr .. => [.happened, .sysR, .iicR]
  | .qepCountEdge .. => [.happened, .qep, .qepR]
  | .zEdge .. => [.crier, .qep, .qepR]
  | .armZ .. | .qepCntClr .. => [.happened, .sysR, .qepR]
  | .pos .. => [.happened, .qep, .sysR, .qepR]
  | .outSet .. | .outClr .. => [.happened, .sysR, .gpioR]
  | .gpioIrqEdge .. => [.criR, .gpioR]
  | .coreWatchdogExpiry .. => [.happened, .cellar, .ode, .core, .sysR, .criR, .celR, .wdtR]
  | .hallResetStart => allParts.filter (· ∉ [.warranted, .options, .clock, .replay, .dbg, .wdtR, .dbgR])
  | .xinClockChange .. => [.sysR]
  | .busOffRecoveryEnd .. => [.can, .canR]

/-- The register that holds field `f` of the block instance based at `b`. -/
def At (b : Nat) (f : Fld) (a : Nat) : Prop := a = b + f.off

/-- Field `g` of the block instance based at `b'` shares no bit with field `f` of the one based at `b`. -/
def Apart (b' : Nat) (g : Fld) (b : Nat) (f : Fld) : Prop := b' + g.off ≠ b + f.off ∨ g.hi < f.lo ∨ f.hi < g.lo

/-- Nothing has changed but the fields `fs` of the block instance based at `b`, as far as a field of a register can
tell, and the note of what the present edge has done. -/
structure OnlyFields (s t : State) (b : Nat) (fs : List Fld) : Prop where
  rest : t = { s with regs := t.regs, happened := t.happened }
  same : ∀ b' g, (∀ f ∈ fs, Apart b' g b f) → t.getF b' g = s.getF b' g

/-- The counts `fs` of the block instance based at `b` read 0, or 1 where an event has counted on this edge (R58), and
nothing else has changed. -/
structure Cleared (s t : State) (b : Nat) (fs : List Fld) : Prop where
  count : ∀ f ∈ fs, t.getF b f = (s.marked b f).toNat
  only : OnlyFields s t b fs

/-- A command answers a next state with property `P`. -/
def Answers (i : Instr) (s : State) (P : State → Prop) : Prop := ∃ t, exec i s = .next t ∧ P t

/-- A mask word names a source: it is word n / 32 of its registers, and bit n mod 32 is set (R345). -/
abbrev Names (w mask n : Nat) : Prop := n / 32 = w ∧ mask.testBit (n % 32) = true

/-- The write of a word at `addr` by `init` finds no register, or its island is not up: it ends in a bus error, which
SYS.BUSERR_ADDR and SYS.BUSERR_INFO record, and changes nothing else (R28, R34, R51). -/
def TurnedAway (s t : State) (init addr : Nat) (write : Bool) : Prop := t = s.busError init addr (s.reach addr) write

/-! ### What statements about one block say -/

/-- `u` is `s` once time has come to the edge of the next operation of engine `e`, with what has landed by then (R90); its
run is then `r`. -/
def Comes (s u : State) (e : Fin 12) (r : EngRun) : Prop :=
  (∃ q, s.eng[e].run = some q ∧ u = s.aisleTime q.next) ∧ u.eng[e].run = some r

/-- Engine `e` is about to execute operation `o` of its program in two lanes that stand alike, and no trigger waits; `u`
is the hall on the edge of the operation (R213, R215, R232). -/
structure Issues (s u : State) (e : Fin 12) (r : EngRun) (o : OpWord) : Prop where
  comes : Comes s u e r
  captured : r.captured = .all
  lanes : r.l1 = r.l0
  going : r.l0.done = false
  word : opWord (u.rd (ENG.base e + ENG.PROG.WORD.off + 4 * (r.l0.pc % 128))).toNat = o
  legal : o.legal = true
  alone : u.eng[e].trig = none

/-- A lane that has executed an operation and has otherwise not changed: it stands at the next entry, or is done after
entry 127 (R215). -/
def moved (l : Lane) : Lane := { l with pc := l.pc + 1, done := decide (127 ≤ l.pc) }

/-- The operation has been executed on its edge, on which the hall stood at `s`: both lanes stand at `l`, `k` cycles have
gone, and nothing but the engine's run has changed. -/
structure Executed (s t : State) (e : Fin 12) (r : EngRun) (l : Lane) (k : Nat) : Prop where
  lanes : ∃ q, t.eng[e].run = some q ∧ q.l0 = l ∧ q.l1 = l
  run : ∃ q, t.eng[e].run = some q ∧ q.next = r.next + k * ac ∧ (r.first = none → q.len = r.len + k) ∧ q.trig = r.trig ∧
    q.frame = r.frame ∧ q.base = r.base ∧ q.first = r.first ∧ q.target = r.target ∧ q.missed = r.missed
  rest : t = { s with eng := t.eng }
  others : ∀ f : Fin 12, f ≠ e → t.eng[f] = s.eng[f]

/-- Core `c`, which stands at `x` once the accesses under way have returned, executes: its island is up, it does not wait,
no access under way is lost, and for the instruction at its PC, of `len` words (`e`: with an EXT in front), no breakpoint
matches, no step and no replay is under way. -/
structure Reaches1 (s : State) (c : Fin 4) (x : Core) (len : Nat) (e : Bool) : Prop where
  up : s.coreUp c = true
  awake : s.core[c].waiting = true → s.wakes c = true
  sure : (s.core[c].out.find? fun o => o.lost) = none
  now : x = { s.core[c].acknowledgeAll with waiting := false }
  breaks : s.breakpoint c { len := len, ext := e } = none
  step : x.stepAt = none
  first : x.rerun = false

/-- The same, and nothing but the instruction itself has a say in what follows: no delay slot, loop end or locked
sequence. -/
structure Stands (s : State) (c : Fin 4) (x : Core) (len : Nat) (e : Bool) : Prop extends Reaches1 s c x len e where
  slot : x.slot = none
  lock : x.lockLeft = 0
  le : x.atAnyLe = false

/-- An instruction as its words name it: without what its accesses meet. -/
def bare : Instr → Instr
  | .xLd c d n e _ => .xLd c d n e {}
  | .xSt c d n e _ => .xSt c d n e {}
  | .xBmov c n _ _ => .xBmov c n {} {}
  | .xVmac c d n _ _ => .xVmac c d n {} {}
  | .xBcrc c d n _ => .xBcrc c d n {}
  | .xSpill c _ => .xSpill c []
  | .xFill c _ => .xFill c []
  | i => i

/-- The words at PC of core `c` are those of the instruction `i`, and the core has them in its buffers. -/
def Fetched (i : Instr) (s : State) (c : Fin 4) : Prop := s.fetch c (bare i) = (.named, s)

/-- Where the instruction `i` stands at PC of core `c`, it answers a state with property `P`. -/
def Executes (i : Instr) (s : State) (c : Fin 4) (P : State → Prop) : Prop := Fetched i s c → Answers i s P

/-- The core `y` that the instruction at `x` has made of it, once it has retired in sequence. -/
def retired (x y : Core) (len : Nat) : Core :=
  { y.useLine x.pc.toNat with
    pc := x.pc + BitVec.ofNat 24 len, last := some x.pc, shadow := [], hold := false, mid := false, skipBp := false
    replayed := if y.replayed = some x.pc then none else y.replayed }

/-- The instruction `i` at `x` answers a state in which core `c` has executed it: the core has become `y`, has gone on in
sequence, and nothing else has changed but the note of what a parity replay goes back to. -/
def Runs1 (i : Instr) (s : State) (c : Fin 4) (x : Core) (len : Nat) (y : Core) : Prop :=
  Executes i s c fun t => t = State.modCore { s with replay := t.replay } c fun _ => retired x y len

/-- The instruction at `x` raises an exception and changes nothing itself: it is taken at its position, to execute the
instruction again for a fault, after it for a trap (R284, R324, R325). -/
def RaisesAt (i : Instr) (s : State) (c : Fin 4) (x : Core) (len : Nat) (y : Syndrome) : Prop :=
  Executes i s c fun t =>
    t = (State.modCore { s with replay := t.replay } c fun _ => { x with replayed := none }).takeException c
      ⟨x.pc, x.pc + BitVec.ofNat 24 len, decide (y.code < 0x20), false, 0⟩ y

/-- The same with nothing but a cause code to record. -/
def Raises (i : Instr) (s : State) (c : Fin 4) (x : Core) (len code : Nat) : Prop := RaisesAt i s c x len { code := code }

/-- The flags that `m` names take the bits of `f`; the rest of ST stays. -/
def flagged (x : Core) (m f : Word) : Core := { x with st := (x.st &&& ~~~m) ||| (f &&& m) }

/-- N and Z of a result with C and V, at their places in ST (R285). -/
def nzcv (r : Word) (c v : Bool) : Word :=
  BitVec.ofNat 32 (8 * r.msb.toNat + 4 * (decide (r = 0)).toNat + 2 * c.toNat + v.toNat)

/-- A number that 32 bits do not hold as a signed number. -/
def overflows (v : Int) : Bool := decide (v < -2147483648 ∨ 2147483647 < v)

/-- The core that an entry into level `lvl` on instant `now` has made of `x` (R323, R331). -/
def entered (now : Nat) (x : Core) (lvl : Nat) (p : Position) (y : Syndrome) (pc : BitVec 24) : Core :=
  let cause := y.code + 2 ^ 7 * p.redo.toNat + 2 ^ 8 * p.slot.toNat + 2 ^ 9 * p.pend.toNat + 2 ^ 11 * y.imprecise.toNat
    + 2 ^ 12 * y.lkbrk.toNat + 2 ^ 16 * y.kind + 2 ^ 20 * y.write.toNat
  { x with
    st := (x.st &&& 0xFFE0083F) ||| BitVec.ofNat 32 (0x200 + 2 ^ 12 * lvl + 2 ^ 16 * ((x.frm + 1) % 32))
    saves := x.saves.set (Fin.ofNat 9 (lvl - 1)) #v[p.spc.setWidth 32, p.snpc.setWidth 32,
      if y.lkbrk then x.st &&& 0xFFFFFEFF else x.st, BitVec.ofNat 32 cause, BitVec.ofNat 32 y.faddr,
      x.ls[(0 : Fin 2)], x.le[(0 : Fin 2)], x.lc[(0 : Fin 2)], x.ls[(1 : Fin 2)], x.le[(1 : Fin 2)], x.lc[(1 : Fin 2)]]
    inUse := x.inUse ||| BitVec.ofNat 10 (2 ^ lvl)
    ssel := 0, gmFrom := now, pc := pc, last := none, slot := none, shadow := [], hold := false, waiting := false
    mid := false, lockLeft := 0, lockWord := none, lockUses := 0, skipBp := false, replayed := none, rerun := false }

/-- No watchpoint of core `c` is on. -/
def NoWatch (s : State) (c : Fin 4) : Prop := ∀ k : Fin 2, s.getB DBG.base (DBG.WP_CFG.EN.at (0x80 * c.val + 0x10 * k.val)) = false

/-- Core `c` reads `n` bytes at `a`, held at `p`, from a memory other than flash and finds nothing in the way: no
misalignment, the width allowed, the island up, the word not held by another core, no store waiting. -/
structure Loads (s : State) (c : Fin 4) (x : Core) (a n p : Nat) : Prop where
  aligned : a % n = 0
  area : ∃ r, memArea c a = some (r, p) ∧ r ≠ .flash ∧ r.widthOk n = true ∧ s.islandUp r.island = true ∧
    s.heldFrom c r p = false
  empty : x.store = []

/-- A hall reset of a TYPE has begun (R385, R389, R404): the hall is in reset and SAFE, RST_CAUSE and the ledger say why,
every register of the islands that it resets reads as after reset, and the cores, engines and queues of these islands
are as after reset. -/
structure HallDown (s t : State) (type sup : Nat) : Prop where
  phase : t.cellar.phase = .inReset ∧ t.cellar.resetDue = none
  safe : t.getF CEL.base CEL.ARM_STATE.STATE = 0
  cause : t.getF CEL.base CEL.RST_CAUSE.TYPE = type % 16 ∧ t.getF CEL.base CEL.RST_CAUSE.SUP = sup % 16 ∧
    t.getF CEL.base CEL.RST_CAUSE.CORE = 0
  ledger : s.cellar.queue.length < 16 → t.cellar.queue =
    queueEntry (s.ledgerEntry 0x02 type sup 0) s.cellar.queue
  regs : ∀ b ∈ [Blk.ais, .car, .stl, .cnv, .cmp, .eng, .cri, .ode, .atc, .spi, .uart, .can, .iic, .qep, .gpio],
    ∀ a, (place a).map Place.blk = some b → t.rd a = resetWordAt a
  blocks : t.core = State.reset.core ∧ t.eng = State.reset.eng ∧ t.cnv = State.reset.cnv ∧ t.cmp = State.reset.cmp ∧
    t.car = State.reset.car ∧ t.ode = State.reset.ode ∧ t.attic = State.reset.attic ∧ t.flash = { ones := s.flash.ones } ∧
    t.can = State.reset.can ∧ t.spi = State.reset.spi

end Sys2Proof.Safety
end

