-- ==== Sys2Proof/Certificates/Slice0/Obligations.lean ====
section
/-! DEFINITION. The statements for the provers: what each family of commands does, where it completes, and what holds of
every step.  Parts of a statement that a numbered rule of the spec does not give word for word are the model's readings,
named by their entries in the assumption log. -/

open Sys2Proof Sys2Proof.Machine Sys2Proof.Safety

/-! ### The whole machine -/

/-- A step executes the command at the front of the queue with the queue's rest; on an empty queue only time goes on, by
one fabric cycle (the model's choice: log entry 2). Readings of the model: log entries 2, 6, 61. -/
def Obligations.StepRunsFront : Prop :=
  (∀ (c : Instr) (s : State) (rest : List Instr), step { s with pending := c :: rest } = exec c { s with pending := rest }) ∧
  ∀ s : State, s.pending = [] → step s = .next { s with now := s.now + ac }

/-- Reset: the hall is in reset with an empty queue, every register holds the value of its table's Reset column, and
what is not flash or an option copy reads 0 where nothing has been written (the model's choice: log entry 3; the time 0
and the cores' zeros: log entries 2 and 4). Readings of the model: log entries 2, 3, 4. -/
def Obligations.ResetState : Prop :=
  let s := State.reset
  Canonical s ∧ s.pending = [] ∧ s.now = 0 ∧ s.warranted = true ∧ s.cellar.phase = .inReset ∧
  (∀ a, s.rd a = resetWordAt a) ∧ s.getF CEL.base CEL.ARM_STATE.STATE = 0 ∧
  (∀ a, s.byte a = if (0x20000000 ≤ a ∧ a < 0x21000000) ∨ (0x49002000 ≤ a ∧ a < 0x49006000) then 0xFF else 0) ∧
  (∀ c : Fin 4, s.coreUp c = false ∧ s.core[c].x = Vector.replicate 260 0) ∧
  (∀ e ∈ [(SYS.base, SYS.ID.W, 0x4896B71A), (SYS.base, SYS.STEPPING.MAJOR, 1), (SYS.base, SYS.CONFIG.W, 0x3FFFF),
      (AIS.base 0, AIS.CTRL.CARMAP, 228), (AIS.base 1, AIS.SG_CFG.ACQ, 12), (AIS.base 2, AIS.SG_CFG.TRIG, 31),
      (AIS.base 0, AIS.XFER_DIST.DIST, 65535), (AIS.base 0, AIS.BLK_CFG.CLOSE, 31), (AIS.base 0, AIS.BLK_CFG.OPEN, 31),
      (CNV.base 0, CNV.TIMING.DIAG_ACQ, 400), (CNV.base 11, CNV.TIMING.ACQ, 12), (CNV.base 0, CNV.DIAG_CFG.DELTA, 8192),
      (CNV.base 0, CNV.DIAG_CFG.I10, 1), (CNV.base 0, CNV.DIAG_CFG.MASK, 15), (CNV.base 0, CNV.SC_CFG.SC_INT, 10),
      (CNV.base 0, CNV.SC_CFG.REF_TOL, 64), (CNV.base 0, CNV.SC_SUP.SUP_HI, 25034), (CNV.base 0, CNV.SC_SUP.SUP_LO, 22151),
      (CNV.base 0, CNV.GAIN.GAIN, 640), (CMP.base 0, CMP.CTRL.TICK_EVT, 31), (CMP.base 0, CMP.CTRL.VMASK, 5),
      (CMP.base 23, CMP.STATUS.RESULT, 3), (CMP.base 23, CMP.THR.THR_HI, 4095), (CAR.base 0, CAR.CTRL.IRQ_EVT, 7),
      (CAR.base 11, CAR.PRD.PRD, 1000), (CAR.base 0, CAR.PRD_ACT.PRD, 1000), (LEG.base 0, LEG.DT_RISE.VALUE, 3200),
      (LEG.base 47, LEG.DT_FALL.VALUE, 3200), (ENG.base 3, ENG.CTRL.TRIG_K, 3), (ENG.base 6, ENG.CTRL.TRIG_K, 2),
      (ENG.base 0, ENG.POLICY.VOTE, 2), (ENG.base 0, ENG.POLICY.DEADLINE, 2), (CRI.base, CRI.EXT_CFG.MODE, 7),
      (FLC.base, FLC.CTRL.MINRUN, 4), (FLC.base, FLC.CTRL.SCRUB_EN, 1), (FLC.base, FLC.SCRUB_CFG.INTERVAL, 1000),
      (CEL.base, CEL.CTRL.ENABLE, 1), (CEL.base, CEL.STATUS.DBG_PWR, 1), (CEL.base, CEL.RST_CAUSE.TYPE, 1),
      (CEL.base, CEL.RESTORE_STAT.POLICY, 2), (CEL.base, CEL.ARM_CFG.WIN, 1000), (KNR.base, KNR.CTRL.ABS_CYC, 2),
      (KNR.base, KNR.CTRL.LOSS_CYC, 3), (KNR.base, KNR.CYCLE_CFG.PERIOD, 80), (KNR.base, KNR.MBX_CFG.MBX_LEN, 32),
      (KNR.base, KNR.MBX_CFG.TMO, 3), (KNR.base, KNR.LOOP_DLY.DLY, 0xFFFFFFFF), (ODE.base, ODE.CTRL.RING_EN, 1),
      (ODE.base, ODE.FEAT_OFFER_LO.OFFER, 127), (ATC.base, ATC.CTRL.NSID, 1), (ATC.base, ATC.REG_LEN.LEN, 0x10000000),
      (ATC.base, ATC.DEC.DEC, 64), (ATC.base, ATC.WIN_PRE.PRE, 10000), (ATC.base, ATC.WIN_POST.POST, 20000),
      (ATC.base, ATC.EVT_BLK.SLOTS, 1984), (ATC.base, ATC.TIMING.SMART_S, 60), (ATC.base, ATC.TIMING.CKPT_MS, 1000),
      (ATC.base, ATC.WEAR_PCT.PCT, 90), (ATC.base, ATC.RB_COUNT.COUNT, 1), (DBG.base, DBG.ID.IDCODE, 344547695),
      (DBG.base, DBG.SAP_CFG.PEEK, 1), (DBG.base, DBG.TRACE_HI.ADDR, 0xFFFFFF), (DBG.base, DBG.C_CFG.MON_THRESH, 5),
      (SPI.base 0, SPI.CTRL.DIV, 3), (SPI.base 3, SPI.CTRL.BITS, 7), (UART.base 1, UART.CTRL.DIV, 55556),
      (CAN.base 0, CAN.NBT.BRP, 4), (CAN.base 0, CAN.NBT.TSEG1, 10), (CAN.base 0, CAN.NBT.TSEG2, 3), (CAN.base 0, CAN.NBT.SJW, 3),
      (CAN.base 1, CAN.DBT.TSEG1, 6), (CAN.base 1, CAN.DBT.TSEG2, 1), (CAN.base 1, CAN.DBT.SJW, 1), (CAN.base 1, CAN.TDC.TDCO, 10),
      (IIC.base 0, IIC.CTRL.DIV, 249), (GPIO.base, GPIO.IRQ_CFG.MODE, 7)], s.getF e.1 e.2.1 = e.2.2)

/-- The canonical form is kept: whatever the state, a step that answers a next state leaves the register file and the
memory with rising addresses and no entry that an unlisted address would read as, if it found them so. Readings of the
model: log entries 3. -/
def Obligations.CanonicalKept : Prop :=
  ∀ s t : State, Canonical s → step s = .next t → Canonical t

/-- Every command completes, from every state, and is confined: it answers a next state, and of the parts of the state
(each block's registers and each of State's other fields) only those that its row may touch differ; the queue's rest
stays, time and the count of free values taken do not go back, and a warrant that is lost does not come back. Readings
of the model: log entries 1, 5, 12. -/
def Obligations.CommandFrame : Prop :=
  ∀ (i : Instr) (s : State), Answers i s fun t =>
    Within (touches i) s t ∧ t.pending = s.pending ∧ s.now ≤ t.now ∧ s.free ≤ t.free ∧
    (t.warranted = true → s.warranted = true)

/-! ### Counters -/

/-- The commands that clear counts (R47, R58, R133, R154, R162, R183, R194, R243, R377, R400, R409, R453, R476, R499, R523,
R539): where the command register is reached, the counts that the block's rules name read 0, or 1 where an event has
counted on the same edge, and no other field changes; every event that counts leaves that note, a trip group that goes
active (R205) its own. Readings of the model: log entries 6. -/
def Obligations.CountersClear : Prop :=
  (∀ (s : State) (b : Nat) (f : Fld) (n : Nat),
    (s.countSat b f n).marked b f = true ∧ (s.countWrap b f n).marked b f = true) ∧
  ∀ (s : State) (init : Fin 16),
    (∀ v : Word, Reaches s (SYS.base + SYS.ECC_CMD.W.off) →
      (∀ m : Fin 12, v.toNat = m.val →
        Answers (.eccClear init v) s fun t => Cleared s t SYS.base [SYS.ECC_CNT.COUNT.at (4 * m)]) ∧
      (v.toNat = 0x1F → Answers (.eccClear init v) s fun t =>
        Cleared s t SYS.base ((List.range 12).map fun m => SYS.ECC_CNT.COUNT.at (4 * m))) ∧
      (12 ≤ v.toNat → v.toNat ≠ 0x1F → Answers (.eccClear init v) s fun t => t = s)) ∧
    (∀ k : Fin 12, Reaches s (CNV.base k + CNV.CMD.W.off) → Answers (.cnvCntClr init k) s fun t =>
      Cleared s t (CNV.base k) [CNV.SMP_CNT.COUNT, CNV.SCAN_CNT.COUNT, CNV.CNT.LATE, CNV.CNT.OVERRUN]) ∧
    (∀ c : Fin 24, Reaches s (CMP.base c + CMP.CMD.W.off) → Answers (.cmpCntClr init c) s fun t =>
      Cleared s t (CMP.base c) [CMP.CNT.VIOL_CNT, CMP.CNT.TICK_LOST]) ∧
    (∀ g : Fin 12, Reaches s (CAR.base g + CAR.CMD.W.off) → Answers (.carCntClr init g) s fun t =>
      Cleared s t (CAR.base g) [CAR.PCNT.COUNT]) ∧
    (∀ l : Fin 48, Reaches s (LEG.base l + LEG.CMD.W.off) → Answers (.legCntClr init l) s fun t =>
      Cleared s.settle t (LEG.base l) [LEG.CNT.IMM, LEG.CNT.DEFER]) ∧
    (Reaches s (TRP.base + TRP.CMD.W.off) → Answers (.trpCntClr init) s fun t =>
      (∀ q : Fin 16, t.getF TRP.base (TRP.GRP_FIRST.COUNT.at (4 * q)) = if s.trip.went[q] = some s.now then 1 else 0) ∧
      OnlyFields s t TRP.base ((List.range 16).map fun q => TRP.GRP_FIRST.COUNT.at (4 * q))) ∧
    (∀ e : Fin 12, Reaches s (ENG.base e + ENG.CMD.W.off) → Answers (.engCntClr init e) s fun t =>
      Cleared s t (ENG.base e) [ENG.CNT.MISMATCH_CNT, ENG.CNT.START_LOST, ENG.RUN_CNT.COUNT]) ∧
    (Reaches s (FLC.base + FLC.CMD.W.off) → Answers (.flcCntClr init) s fun t =>
      Cleared s t FLC.base [FLC.ECC_CNT.COUNT, FLC.CNT.UNC, FLC.CNT.HEAD_REFUSED, FLC.SCRUB_STAT.STUCK, FLC.SCRUB_STAT.REFRESHED]) ∧
    (Reaches s (CEL.base + CEL.CMD.W.off) → Answers (.ledgerClr init) s fun t =>
      Cleared s t CEL.base [CEL.LEDGER_HEAD.COUNT]) ∧
    (Reaches s (CEL.base + CEL.CMD.W.off) → Answers (.celCntClr init) s fun t =>
      Cleared s t CEL.base [CEL.LEDGER_OVF.COUNT, CEL.LEDGER_LOST.COUNT]) ∧
    (Reaches s (CEL.base + CEL.ARM_CMD.W.off) → Answers (.armCntClr init) s fun t =>
      Cleared s t CEL.base [CEL.ARM_CNT.ARMS, CEL.ARM_CNT.DISARMS]) ∧
    (Reaches s (KNR.base + KNR.CMD.W.off) → Answers (.knrCntClr init) s fun t =>
      Cleared s t KNR.base [KNR.MBX_CNT.DROP, KNR.MBX_CNT.DEFER, KNR.LINK_CNT.KB_DOWN, KNR.LINK_CNT.KA_DOWN,
        KNR.CRC_CNT.COUNT, KNR.RING_CNT.MASTER_CHG, KNR.RING_CNT.WRAPS]) ∧
    (Reaches s (ODE.base + ODE.CMD.W.off) → Answers (.odeCntClr init) s fun t =>
      Cleared s t ODE.base [ODE.CNT.TXN, ODE.CNT.ABORTS]) ∧
    (Reaches s (ATC.base + ATC.CMD.W.off) → Answers (.atcCntClr init) s fun t =>
      Cleared s t ATC.base [ATC.CNT.SHORT, ATC.CNT.MERGED, ATC.DROP.ITEMS]) ∧
    (Reaches s (DBG.base + DBG.CMD.W.off) → Answers (.traceClr init) s fun t =>
      Cleared s t DBG.base [DBG.TRACE_LOST.COUNT]) ∧
    (∀ p : Fin 4, Reaches s (SPI.base p + SPI.CMD.W.off) → Answers (.spiCntClr init p) s fun t =>
      Cleared s t (SPI.base p) [SPI.CNT.TX_REFUSED, SPI.CNT.RX_LOST]) ∧
    (∀ i : Fin 2, Reaches s (IIC.base i + IIC.CMD.W.off) → Answers (.iicCntClr init i) s fun t =>
      Cleared s t (IIC.base i) [IIC.CNT.NACKS]) ∧
    (∀ d : Fin 4, Reaches s (QEP.base d + QEP.CMD.W.off) → Answers (.qepCntClr init d) s fun t =>
      Cleared s t (QEP.base d) [QEP.CNT.PHASE_ERR])

/-! ### Peripherals -/

/-- Writes (R26, R28, R31, R34–R36, R52–R54, R61, R64, R71): a write that reaches no register, or is not an aligned one of 32
bits, ends in a bus error that SYS.BUSERR_* describes; one that reaches a plain register changes its RW bits, and its
RWD bits unless the block is enabled and stays so, which sets WIGN where a bit would have changed; the low word of a
64-bit register is held; writes of one edge to a register act in the order of their initiators' numbers, in whichever
order the commands stand; a write-back waits no longer once it is done. Readings of the model: log entries 6, 11, 12,
14, 15, 62, 63, 64, 75. -/
def Obligations.RegisterWrites : Prop :=
  ∀ (s : State) (x : Access) (addr : Nat),
    let a := x.addr
    let turned (kind : Nat) : Prop := Answers (.registerWrite x) s (· = s.busError x.init a kind true)
    (Answers (.eccWriteBack addr) s fun t =>
      t = { s with writeBack := s.writeBack.filter (· != addr) }) ∧
    (0x40000000 ≤ a →
      (place a = none → turned 1) ∧
      ∀ p, place a = some p →
        (s.islandUp p.island = false → turned 5) ∧
        (s.islandUp p.island = true → x.width / 8 ≠ 4 ∨ a % 4 ≠ 0 → turned 6) ∧
        (s.islandUp p.island = true → x.width / 8 = 4 → a % 4 = 0 →
          (rowAt p.blk.map p.off = none → turned 1) ∧
          ∀ r, rowAt p.blk.map p.off = some r → x.env.parityFails = 0 → s.arrive = s →
            (∀ w ∈ s.onEdge.writes, w.place.blk = p.blk → w.place.inst = p.inst → w.init ≤ x.init.val) →
            let v := x.data.toNat % 2 ^ 32
            let z := if p.blk = .cri then s.wakeAll else s
            (∀ lo, z.special x.init p v = none → p.pair = some (lo, false) → Answers (.registerWrite x) s fun t =>
              t = State.recapture { z with shadows := t.shadows } ∧
              (t.shadow x.init (p.blk.base p.inst + lo)).hold = some (BitVec.ofNat 32 v)) ∧
            (z.special x.init p v = none → p.pair = none →
              let b := p.blk.base p.inst
              let old := (s.rd (b + p.off)).toNat
              let shut := p.blk.hasEnable = true ∧ (s.rd b).getLsbD 0 = true ∧ ¬ (p.off = 0 ∧ v.testBit 0 = false)
              Answers (.registerWrite x) s fun t => ∃ (u : State) (new : Nat), t = (u.afterWrite p old new).recapture ∧
                (∀ k < 32, new.testBit k = if r.open.testBit k = true ∨ (r.gated.testBit k = true ∧ ¬ shut)
                  then v.testBit k else old.testBit k) ∧
                (p.off ≠ 4 → u.rd (b + p.off) = BitVec.ofNat 32 new) ∧
                (p.off ≠ 4 → shut → (old ^^^ v) &&& r.gated ≠ 0 → (u.rd (b + 4)).getLsbD 0 = true) ∧
                (p.off = 0 → p.blk.hasEnable = true → old.testBit 0 = true → v.testBit 0 = false →
                  (u.rd (b + 4)).getLsbD 0 = false) ∧
                u = { z with regs := u.regs, warranted := u.warranted, happened := u.happened } ∧
                (∀ c, c ≠ b + p.off → c ≠ b + 4 → u.rd c = s.rd c) ∧
                (u.warranted = true ↔ s.warranted = true ∧ (old ^^^ v) &&& r.kept = 0)))) ∧
    (∀ (first second : Fin 16) (k : Fin 6) (v w : Word), first < second → s.onEdge.writes = [] →
      let p : Place := ⟨.gpio, 0, 4 * k⟩
      ((s.putInTurn first p v.toNat).putInTurn second p w.toNat).rd p.addr = w ∧
      ((s.putInTurn second p w.toNat).putInTurn first p v.toNat).rd p.addr = w)

/-! ### The crier -/

/-- The registers of the crier. Mask commands (R337, R345): on an existing source that the mask names PEND_SET sets the
pending bit, PEND_CLR clears it unless the source's line is asserted and the source is not active, EN_SET and EN_CLR set
and clear the enable bit; no other source's bit and no other register changes, the active bits among them. CLAIM (R338,
R341): the read returns the lowest-numbered source offered to core c at level v, or 0; read by core c without the peek
attribute it clears that source's pending bit, sets its active bit and records c and v. COMPLETE (R339): a write of the
number of a source that core c holds at level v makes it inactive, a level source whose line is asserted pends again,
and the source is not offered on this edge; any other number changes no source and is described in CPL_ERR. Readings of
the model: log entries 36, 37. -/
def Obligations.CrierRegisters : Prop :=
  (∀ (s : State) (init : Fin 16) (w : Fin 8) (mask : Word),
     (Reaches s (CRI.base + (CRI.PEND_SET.W.at (4 * w)).off) →
       Answers (.pendSet init w mask) s fun t =>
         OnlyRegs s t (At CRI.base (CRI.PEND.BITS.at (4 * w))) ∧
         ∀ n, t.srcBit CRI.PEND.BITS n = if sourceExists n ∧ Names w mask.toNat n then true else s.srcBit CRI.PEND.BITS n) ∧
     (Reaches s (CRI.base + (CRI.PEND_CLR.W.at (4 * w)).off) →
       Answers (.pendClr init w mask) s fun t =>
         OnlyRegs s t (At CRI.base (CRI.PEND.BITS.at (4 * w))) ∧
         ∀ n, t.srcBit CRI.PEND.BITS n = if sourceExists n ∧ Names w mask.toNat n then
           s.srcBit CRI.LINE.BITS n && !s.srcActive n else s.srcBit CRI.PEND.BITS n) ∧
     (Reaches s (CRI.base + (CRI.EN_SET.W.at (4 * w)).off) →
       Answers (.enSet init w mask) s fun t =>
         OnlyRegs s t (At CRI.base (CRI.EN.EN.at (4 * w))) ∧
         ∀ n, t.srcBit CRI.EN.EN n = if sourceExists n ∧ Names w mask.toNat n then true else s.srcBit CRI.EN.EN n) ∧
     (Reaches s (CRI.base + (CRI.EN_CLR.W.at (4 * w)).off) →
       Answers (.enClr init w mask) s fun t =>
         OnlyRegs s t (At CRI.base (CRI.EN.EN.at (4 * w))) ∧
         ∀ n, t.srcBit CRI.EN.EN n = if sourceExists n ∧ Names w mask.toNat n then false else s.srcBit CRI.EN.EN n)) ∧
  (∀ (s : State) (init : Fin 16) (c : Fin 4) (v : Fin 8) (peek : Bool),
     Reaches s (CRI.base + (CRI.CLAIM.W.at (0x100 * c + 0x10 * v)).off) →
     Answers (.claim init c v peek) s fun t => ∃ n < 187,
       t.readData = s.readData.set init (BitVec.ofNat 32 n) ∧
       (n ≠ 0 → s.offered c v n = true) ∧ (∀ m < 187, s.offered c v m = true → n ≠ 0 ∧ n ≤ m) ∧
       (s.getB CRI.base CRI.CTRL.ENABLE = false → n = 0) ∧
       (n = 0 ∨ init.val ≠ c.val ∨ peek = true → t = { s with readData := t.readData }) ∧
       (n ≠ 0 → init.val = c.val → peek = false →
         t.srcBit CRI.PEND.BITS n = false ∧ t.srcActive n = true ∧
         t.getF CRI.base (CRI.ROUTE.ACT_CORE.at (4 * n)) = c ∧ t.getF CRI.base (CRI.ROUTE.ACT_LVL.at (4 * n)) = v ∧
         (∀ m < 256, m ≠ n → t.srcBit CRI.PEND.BITS m = s.srcBit CRI.PEND.BITS m ∧ t.srcActive m = s.srcActive m) ∧
         OnlyRegs { s with readData := t.readData } t fun a =>
           At CRI.base (CRI.PEND.BITS.at (4 * (n / 32))) a ∨ At CRI.base (CRI.ACTIVE.BITS.at (4 * (n / 32))) a ∨
           At CRI.base (CRI.ROUTE.W.at (4 * n)) a)) ∧
  (∀ (s : State) (init : Fin 16) (c : Fin 4) (v : Fin 8) (value : Word),
     Reaches s (CRI.base + (CRI.COMPLETE.W.at (0x100 * c + 0x10 * v)).off) → value.toNat < 256 →
     let n := value.toNat
     let holds := sourceExists n = true ∧ s.srcActive n = true ∧
       s.getF CRI.base (CRI.ROUTE.ACT_CORE.at (4 * n)) = c ∧ s.getF CRI.base (CRI.ROUTE.ACT_LVL.at (4 * n)) = v
     Answers (.complete init c v value) s fun t =>
       (holds →
         t.srcActive n = false ∧ t.getF CRI.base (CRI.ROUTE.ACT_LVL.at (4 * n)) = 0 ∧
         t.srcBit CRI.PEND.BITS n = (s.srcBit CRI.LINE.BITS n || s.srcBit CRI.PEND.BITS n) ∧
         (∀ d l, t.offered d l n = false) ∧
         (∀ m < 256, m ≠ n → t.srcBit CRI.PEND.BITS m = s.srcBit CRI.PEND.BITS m ∧ t.srcActive m = s.srcActive m) ∧
         OnlyRegs { s with crier := t.crier } t fun a =>
           At CRI.base (CRI.PEND.BITS.at (4 * (n / 32))) a ∨ At CRI.base (CRI.ACTIVE.BITS.at (4 * (n / 32))) a ∨
           At CRI.base (CRI.ROUTE.W.at (4 * n)) a) ∧
       (¬ holds →
         t.getF CRI.base CRI.CPL_ERR.SRC = n ∧ t.getF CRI.base CRI.CPL_ERR.LVL = v ∧
         t.getF CRI.base CRI.CPL_ERR.INITIATOR = init ∧
         t.getF CRI.base CRI.CPL_ERR.COUNT = min (s.getF CRI.base CRI.CPL_ERR.COUNT + 1) 0xFFFF ∧
         OnlyRegs s t (At CRI.base CRI.CPL_ERR.W)))

/-- How sources pend (R336, R342–R344): a pulse that has set out arrives and pends its source; a level source with its
line asserted pends on the edge while no handler holds it, and one whose line falls on the edge of its COMPLETE is not
pending; DOORBELL pends source 179 + d for every bit d it carries; a write of EXT_CFG restarts the filter and in a level
mode leaves the line at the level last passed, and the level the filter passes becomes the line of a level source or, if
it is an edge of the mode's kind and not the first level after a restart, pends a pulse source; a crier that a hall
reset holds in reset takes none of them (R385). Readings of the model: log entries 16, 36. -/
def Obligations.CrierSources : Prop :=
  let falls (u : State) (n : Nat) (line : Bool) : Bool :=
    !line && u.crier.heldAt == u.now && u.crier.repended.contains n && !u.srcActive n
  (∀ (s : State) (n : Fin 256), n.val ∈ s.crier.launched → sourceExists n = true →
    Answers (.pulseSource n) s fun t =>
      t.srcBit CRI.PEND.BITS n = (s.srcBit CRI.PEND.BITS n || s.cellar.phase == .up) ∧ t.crier.launched = s.crier.launched.erase n.val ∧
      (∀ m < 256, m ≠ n.val → t.srcBit CRI.PEND.BITS m = s.srcBit CRI.PEND.BITS m) ∧
      OnlyRegs { s with crier := t.crier } t (At CRI.base (CRI.PEND.BITS.at (4 * (n / 32))))) ∧
  (∀ (s : State) (n : Fin 256), s.cellar.phase ≠ .up → Answers (.levelSource n) s (· = s.arrive)) ∧
  (∀ (s : State) (n : Fin 256), s.cellar.phase = .up → sourceExists n = true →
    let u := s.arrive
    let line := if blockLevel n then u.lineOf n else u.srcBit CRI.LINE.BITS n
    Answers (.levelSource n) s fun t =>
      t.srcBit CRI.LINE.BITS n = line ∧
      t.srcBit CRI.PEND.BITS n = ((u.srcBit CRI.PEND.BITS n && !(blockLevel n && falls u n line)) ||
        (line && !u.srcActive n)) ∧
      (∀ m < 256, m ≠ n.val → t.srcBit CRI.PEND.BITS m = u.srcBit CRI.PEND.BITS m) ∧
      OnlyRegs u t fun a => At CRI.base (CRI.LINE.BITS.at (4 * (n / 32))) a ∨ At CRI.base (CRI.PEND.BITS.at (4 * (n / 32))) a) ∧
  (∀ (s : State) (c : Fin 24), blockLevel (49 + c) = true ∧
    s.lineOf (49 + c) = ((s.getB (CMP.base c) CMP.IRQ_EN.LATCH && s.getB (CMP.base c) CMP.LATCH.LATCH) ||
      (s.getB (CMP.base c) CMP.IRQ_EN.FLAGS && bitsOf (s.rd (CMP.base c + CMP.LATCH.LATCH.off)).toNat 7 4 != 0))) ∧
  (∀ (s : State) (q : Fin 16), blockLevel (73 + q) = true ∧
    s.lineOf (73 + q) = (s.bit TRP.base TRP.GRP_STATUS.ACTIVE q && s.bit TRP.base TRP.IRQ_EN.GRP q)) ∧
  (∀ (s : State) (init : Fin 16) (value : Word), Reaches s (CRI.base + CRI.DOORBELL.W.off) → value.toNat < 256 →
    Answers (.doorbell init value) s fun t =>
      (∀ n, t.srcBit CRI.PEND.BITS n =
        if 179 ≤ n ∧ n < 187 ∧ value.toNat.testBit (n - 179) = true then true else s.srcBit CRI.PEND.BITS n) ∧
      OnlyRegs s t (At CRI.base (CRI.PEND.BITS.at 20))) ∧
  (∀ (s : State) (init : Fin 16) (i : Fin 8) (value : Word), Reaches s (CRI.base + (CRI.EXT_CFG.W.at (4 * i)).off) →
    Answers (.extCfg init i value) s fun t =>
      let m := bitsOf value.toNat 18 16
      let level := s.crier.extLevel.getLsbD i
      let line := (m == 3 && level) || (m == 4 && !level)
      let n := 101 + i.val
      t.rd (CRI.base + (CRI.EXT_CFG.W.at (4 * i)).off) = value ∧ t.crier.extFresh.getLsbD i = true ∧
      t.crier.extLevel = s.crier.extLevel ∧ t.crier.extFrom[i] = s.now ∧
      t.srcBit CRI.LINE.BITS n = line ∧
      t.srcBit CRI.PEND.BITS n = ((s.srcBit CRI.PEND.BITS n && !((m == 3 || m == 4) && falls s n line)) ||
        (line && !s.srcActive n)) ∧
      (∀ k < 256, k ≠ n → t.srcBit CRI.PEND.BITS k = s.srcBit CRI.PEND.BITS k) ∧
      RegsBut s t (fun a => At CRI.base (CRI.EXT_CFG.W.at (4 * i)) a ∨ At CRI.base (CRI.LINE.BITS.at 12) a ∨
        At CRI.base (CRI.PEND.BITS.at 12) a) ∧ SameMem s t) ∧
  (∀ (s : State) (i : Fin 8) (x : BallLevel),
    let level := x.level
    let passes := s.passes x (ac * 2 ^ s.getF CRI.base (CRI.EXT_CFG.PRE.at (4 * i)))
      (s.getF CRI.base (CRI.EXT_CFG.FILT.at (4 * i))) s.crier.extFrom[i]
    let m := s.getF CRI.base (CRI.EXT_CFG.MODE.at (4 * i))
    let edge := !s.crier.extFresh.getLsbD i && s.crier.extLevel.getLsbD i != level
    let n := 101 + i.val
    (s.cellar.phase ≠ .up ∨ passes = false → Answers (.extintEdge i x) s (· = s)) ∧
    (s.cellar.phase = .up → passes = true → Answers (.extintEdge i x) s fun t =>
      t.crier.extLevel.getLsbD i = level ∧ t.crier.extFresh.getLsbD i = false ∧
      t.srcBit CRI.LINE.BITS n = (if m = 3 then level else if m = 4 then !level else s.srcBit CRI.LINE.BITS n) ∧
      t.srcBit CRI.PEND.BITS n = ((s.srcBit CRI.PEND.BITS n &&
          !((m == 3 && falls s n level) || (m == 4 && falls s n (!level)))) ||
        match m with
        | 0 => edge && level
        | 1 => edge && !level
        | 2 => edge
        | 3 => level && !s.srcActive n
        | 4 => !level && !s.srcActive n
        | _ => false) ∧
      (∀ k < 256, k ≠ n → t.srcBit CRI.PEND.BITS k = s.srcBit CRI.PEND.BITS k) ∧
      OnlyRegs { s with crier := t.crier } t fun a => At CRI.base (CRI.LINE.BITS.at 12) a ∨ At CRI.base (CRI.PEND.BITS.at 12) a))

/-! ### Aisles and carriers -/

/-- The turning points of a carrier (R75, R76, R158–R160, R162): a ZERO of a carrier that starts, counts down to 0 or
has waited for its market position takes the period, EVA and EVB into force, with the floor of 100 ac, counts up and
adds 1 to PCNT; a PERIOD turns the count downwards. An unlocked carrier's turning points lie PRD_ACT ac apart; a locked
one's on the last edge at or before their market instants, and it leaves its wait where market time stands at CAR.PHASE
(R83). The compare events of a running carrier: EVA_UP and EVB_UP while it counts up, at EV_ACT below the period; EVA_DN
and EVB_DN while it counts down, at values from 1 up to the period: each falls once for each way the carrier counts,
that many ac after the turning point, and changes no register of a carrier. Readings of the model: log entries 8, 17. -/
def Obligations.CarrierEvents : Prop :=
  (∀ (s : State) (g : Fin 12),
     let b := CAR.base g
     let point (slew : Int) : Nat :=
       if s.getB b CAR.CTRL.MLOCK then
         edgeDown (((s.car[g].edge + s.car[g].fine + s.prd g * ac : Nat) : Int) + slew).toNat
       else s.car[g].edge + s.prd g * ac
     let zero (e : Nat) (t : State) : Prop :=
       t.getB b CAR.STATUS.DIR = false ∧ t.getB b CAR.STATUS.WAIT = false ∧
       t.getF b CAR.PRD_ACT.PRD = max 100 (s.getF b CAR.PRD.PRD) ∧
       t.getF b CAR.EV_ACT.EVA = s.getF b CAR.EVA.VALUE ∧ t.getF b CAR.EV_ACT.EVB = s.getF b CAR.EVB.VALUE ∧
       t.getF b CAR.PCNT.COUNT = (s.getF b CAR.PCNT.COUNT + 1) % 0x10000 ∧
       t.car[g].edge = e ∧ t.car[g].starting = false ∧ t.now = max s.now (edgeDown e) ∧ t.carRuns g = true ∧
       (∀ h : Fin 12, h ≠ g → t.car[h] = s.car[h]) ∧
       BlkBut .car s t fun a => a ∈ [b + CAR.STATUS.W.off, b + CAR.PRD_ACT.W.off, b + CAR.EV_ACT.W.off, b + CAR.PCNT.W.off]
     (s.carOn g = true → s.car[g].starting = true → Answers (.zero g) s (zero s.car[g].edge)) ∧
     (s.carRuns g = true → s.carDown g = true → Answers (.zero g) s (zero (point s.car[g].slew))) ∧
     (s.carOn g = true → s.getB b CAR.STATUS.WAIT = true →
       Answers (.lockedCarrierStart g) s (zero (edgeDown (s.lockedStart g))) ∧ s.now ≤ s.lockedStart g ∧
       (let per := 2 * ac * max 100 (s.getF b CAR.PRD.PRD)
        s.clock.slew = 0 → s.clock.since ≤ s.now → s.marketUnits + per < 2 ^ 64 * ns →
         s.marketAt (s.lockedStart g) % per = tick64 * s.getF b CAR.PHASE.PHASE % per ∧
         s.lockedStart g < s.now + per)) ∧
     (s.carRuns g = true → s.carDown g = false → Answers (.period g) s fun t =>
       t.getB b CAR.STATUS.DIR = true ∧ t.car[g].edge = point 0 ∧ t.now = max s.now (edgeDown (point 0)) ∧
       (∀ h : Fin 12, h ≠ g → t.car[h] = s.car[h]) ∧ BlkBut .car s t (At b CAR.STATUS.W))) ∧
  (∀ (s : State) (g : Fin 12), s.carRuns g = true →
     let b := CAR.base g
     let place (d : Nat) : Nat :=
       if s.getB b CAR.CTRL.MLOCK then edgeDown (s.car[g].edge + s.car[g].fine + d * ac) else s.car[g].edge + d * ac
     let fired (d : Nat) (t : State) : Prop :=
       t.now = max s.now (edgeDown (place d)) ∧ SameRegs .car s t ∧ (∀ h : Fin 12, h ≠ g → t.car[h] = s.car[h]) ∧
       t.car[g].edge = s.car[g].edge
     let va := s.getF b CAR.EV_ACT.EVA
     let vb := s.getF b CAR.EV_ACT.EVB
     (s.carDown g = false → va < s.prd g → s.car[g].eva = false →
       Answers (.evaUp g) s fun t => fired va t ∧ t.car[g].eva = true) ∧
     (s.carDown g = true → 0 < va → va ≤ s.prd g → s.car[g].eva = false →
       Answers (.evaDn g) s fun t => fired (s.prd g - va) t ∧ t.car[g].eva = true) ∧
     (s.carDown g = false → vb < s.prd g → s.car[g].evb = false →
       Answers (.evbUp g) s fun t => fired vb t ∧ t.car[g].evb = true) ∧
     (s.carDown g = true → 0 < vb → vb ≤ s.prd g → s.car[g].evb = false →
       Answers (.evbDn g) s fun t => fired (s.prd g - vb) t ∧ t.car[g].evb = true))

/-- The aisle's own commands (R81, R84, R93, R95, R101): SG_CLR and BLK_CLR clear the counts of the groups and channels
that their bits name, which an event of the same edge leaves at 1 (R58); SG_FIRE is refused while ENABLE is 0, and STATUS.FIRE_REFUSED says so; a window that has been open
for MAXLEN ac closes and is counted in FORCED; a measurement of the aisle's phase against market time, to within half a
step of 1/64 ac, is shown modulo 64 and is valid until it is 1 ms old. -/
def Obligations.AisleCommands : Prop :=
  ∀ (s : State) (init : Fin 16) (a : Fin 3),
    let b := AIS.base a
    (Reaches s (b + AIS.CMD.W.off) →
      (∀ groups : BitVec 4, Answers (.sgClr init a groups) s fun t =>
        (∀ q : Fin 4, ∀ f ∈ [AIS.SG_CNT.LATE.at (16 * q), AIS.SG_CNT.OVERRUN.at (16 * q)], t.getF b f =
          if groups.getLsbD q then (s.marked b f).toNat else s.getF b f) ∧
        OnlyRegs s t fun x => ∃ q : Fin 4, groups.getLsbD q = true ∧ At b (AIS.SG_CNT.W.at (16 * q)) x) ∧
      (∀ channels : BitVec 8, Answers (.blkClr init a channels) s fun t =>
        (∀ ch : Fin 8, t.getF b (AIS.BLK_STAT.FORCED.at (8 * ch)) =
          if channels.getLsbD ch then (s.marked b (AIS.BLK_STAT.FORCED.at (8 * ch))).toNat
          else s.getF b (AIS.BLK_STAT.FORCED.at (8 * ch))) ∧
        (∀ ch : Fin 8, t.getB b (AIS.BLK_STAT.OPEN.at (8 * ch)) = s.getB b (AIS.BLK_STAT.OPEN.at (8 * ch))) ∧
        OnlyRegs s t fun x => ∃ ch : Fin 8, channels.getLsbD ch = true ∧ At b (AIS.BLK_STAT.W.at (8 * ch)) x) ∧
      (∀ groups : BitVec 4, groups ≠ 0 → s.getB b AIS.CTRL.ENABLE = false → Answers (.sgFire init a groups) s fun t =>
        t.getB b AIS.STATUS.FIRE_REFUSED = true ∧ OnlyFields s t b [AIS.STATUS.FIRE_REFUSED])) ∧
    (∀ ch : Fin 8, s.getB b (AIS.BLK_STAT.OPEN.at (8 * ch)) = true → Answers (.blankingMaxlen a ch) s fun t =>
      t.getB b (AIS.BLK_STAT.OPEN.at (8 * ch)) = false ∧
      t.getF b (AIS.BLK_STAT.FORCED.at (8 * ch)) = min (s.getF b (AIS.BLK_STAT.FORCED.at (8 * ch)) + 1) 0xFFFF ∧
      t.now = max s.now (edgeDown (s.aisle[a].blkOpen[ch] + ac * s.getF b (AIS.BLK_CFG.MAXLEN.at (8 * ch)))) ∧
      BlkBut .ais s t (At b (AIS.BLK_STAT.W.at (8 * ch)))) ∧
    (∀ lag : Fin 65, s.islandUp .ring = true → s.islandUp (.aisle a) = true →
        2 * (((s.marketUnits % ac : Nat) : Int) - (tick64 * lag : Nat)).natAbs ≤ tick64 →
        Answers (.phaseMeasurement a lag) s fun t =>
      t.getF b AIS.MT_PHASE.PHASE = lag % 64 ∧ t.getB b AIS.STATUS.PHASE_VALID = true ∧ t.aisle[a].phaseAt = s.now ∧
      OnlyFields { s with aisle := t.aisle } t b [AIS.MT_PHASE.PHASE, AIS.STATUS.PHASE_VALID]) ∧
    (s.getB b AIS.STATUS.PHASE_VALID = true → Answers (.phaseValidExpiry a) s fun t =>
      t.getB b AIS.STATUS.PHASE_VALID = false ∧ t.now = max s.now (edgeDown (s.aisle[a].phaseAt + 1000 * us)) ∧
      OnlyFields { s with now := t.now } t b [AIS.STATUS.PHASE_VALID])

/-! ### Window comparators -/

/-- What a comparator finds (R137–R149): the input that INSEL names above the high threshold is ABOVE, below the low threshold BELOW,
and within the hysteresis it stays as it was; a change of the output acts on the first edge 1 ac or more after it, unless
it has been reversed by then; a comparator that settles or is sampled decides when its time has come, fresh from the
input alone after settling; a tick of the cellar's divider asks for a sample, or is lost while one is on its way; in
latch mode an unblanked violation latches, in edge-flag mode each crossing
sets its flag, where the thresholds have been in force for 40 ac. Releases (R149–R151, R156): the latch ends where the
gated violation is 0 on this edge and was 0 on the edge before; a violation refuses it, and REL_REFUSED says so;
FLAG_REL clears the flags it names but for those that a crossing sets on the same edge. Readings of the model: log entries 19. -/
def Obligations.ComparatorDecisions : Prop :=
  (∀ (s : State) (c : Fin 24) (v : BallVolts),
     let b := CMP.base c
     let x := s.cmp[c]
     let hi := (s.getF b CMP.THR.THR_HI : Int) * v.vref
     let lo := (s.getF b CMP.THR.THR_LO : Int) * v.vref
     let u := 4096 * v.ain[Fin.ofNat 4 (s.getF b CMP.CTRL.INSEL)]
     let known (now : Nat) : Prop := x.thrAt = 0 ∨ x.thrAt + 40 * ac ≤ now
     let decided (fresh : Bool) (t : State) : Prop :=
       let y := t.cmp[c]
       let hyst := 4096 * hystOf (s.getF b CMP.CTRL.HYST)
       y.h = (decide (hi < u) || (!fresh && x.h && decide (hi - hyst ≤ u))) ∧
       y.l = (decide (u < lo) || (!fresh && x.l && decide (u ≤ lo + hyst))) ∧
       t.getF b CMP.STATUS.RESULT = (if y.h then 2 else if y.l then 1 else 0) ∧
       (s.getB b CMP.STATUS.LATCH_MODE = true →
         t.getF b ⟨CMP.LATCH.W.off, 7, 4⟩ = s.getF b ⟨CMP.LATCH.W.off, 7, 4⟩ ∧
         t.getB b CMP.LATCH.LATCH = (s.getB b CMP.LATCH.LATCH || t.getB b CMP.STATUS.VIOL)) ∧
       (s.getB b CMP.STATUS.LATCH_MODE = false →
         t.getB b CMP.LATCH.LATCH = (s.getB b CMP.LATCH.LATCH ||
           (t.getB b CMP.STATUS.VIOL && !s.getB b CMP.STATUS.VIOL && x.relAt == some t.now)) ∧
         t.getB b CMP.LATCH.UP_HI = (s.getB b CMP.LATCH.UP_HI || (y.h && !x.h)) ∧
         t.getB b CMP.LATCH.DN_HI = (s.getB b CMP.LATCH.DN_HI || (!y.h && x.h)) ∧
         t.getB b CMP.LATCH.DN_LO = (s.getB b CMP.LATCH.DN_LO || (y.l && !x.l)) ∧
         t.getB b CMP.LATCH.UP_LO = (s.getB b CMP.LATCH.UP_LO || (!y.l && x.l))) ∧
       t.getB b CMP.STATUS.VIOL = ((s.getF b CMP.CTRL.VMASK).testBit (if y.h then 2 else if y.l then 0 else 1) &&
         !s.srcBlanked (8 + c) (c / 8)) ∧
       t.getF b CMP.CNT.VIOL_CNT = (if t.getB b CMP.STATUS.VIOL && !s.getB b CMP.STATUS.VIOL then
         min (s.getF b CMP.CNT.VIOL_CNT + 1) 0xFFFF else s.getF b CMP.CNT.VIOL_CNT) ∧
       BlkBut .cmp s t fun a => a ∈ [b + CMP.STATUS.W.off, b + CMP.LATCH.W.off, b + CMP.CNT.W.off]
     (∀ age held : Nat,
       (s.getB b CMP.CTRL.ENABLE = true → s.getB b CMP.CTRL.SAMPLED = false → s.getB b CMP.STATUS.SETTLING = false →
         ac ≤ age → age < 2 * ac → age ≤ held + ac → known s.now →
         Answers (.comparatorOutputChange c ⟨v, age, held⟩) s (decided false)) ∧
       (s.getB b CMP.CTRL.ENABLE = false ∨ s.getB b CMP.CTRL.SAMPLED = true ∨ s.getB b CMP.STATUS.SETTLING = true ∨
           age < ac ∨ 2 * ac ≤ age ∨ held + ac < age →
         Answers (.comparatorOutputChange c ⟨v, age, held⟩) s (· = s))) ∧
     (s.getB b CMP.STATUS.SETTLING = true → known (max s.now (edgeDown x.settleAt)) →
       Answers (.settlingEnd c v) s fun t =>
         decided true t ∧ t.getB b CMP.STATUS.SETTLING = false ∧ t.now = max s.now (edgeDown x.settleAt)) ∧
     (∀ (e : Nat) (rest : List Nat), x.ticks = e :: rest → known (max s.now (edgeDown e)) →
       Answers (.sampledDecision c v) s fun t =>
         decided false t ∧ t.cmp[c].ticks = rest ∧ t.now = max s.now (edgeDown e)) ∧
     (∀ n : Nat, s.getB b CMP.CTRL.ENABLE = true → s.getB b CMP.CTRL.SAMPLED = true →
       s.getB b CMP.CTRL.TICK_CEL = true → x.tickAt = some n →
       let due := max s.now (edgeUp (s.cellar.powerOnAt + n * rtcPeriod + 2 * ac))
       Answers (.tick c) s fun t =>
         t.now = due ∧ t.cmp[c].tickAt = some (n + s.getF b CMP.TICK.TDIV + 1) ∧
         (∀ d : Fin 24, d ≠ c → t.cmp[d] = s.cmp[d]) ∧
         (x.ticks.any (fun e => due < e) = true → t.cmp[c].ticks = x.ticks ∧
           t.getF b CMP.CNT.TICK_LOST = min (s.getF b CMP.CNT.TICK_LOST + 1) 0xFFFF ∧
           OnlyFields { s with now := t.now, cmp := t.cmp } t b [CMP.CNT.TICK_LOST]) ∧
         (x.ticks.any (fun e => due < e) = false →
           t = { s with now := t.now, cmp := t.cmp } ∧ t.cmp[c].ticks = x.ticks ++ [due + 20 * ac]))) ∧
  (∀ (s : State) (init : Fin 16) (c : Fin 24), Reaches s (CMP.base c + CMP.CMD.W.off) →
     let b := CMP.base c
     let quiet := s.cmp[c].violFell = 0 ∨ s.cmp[c].violFell + ac ≤ s.now
     (s.getB b CMP.LATCH.LATCH = false → Answers (.cmpRelease init c) s fun t => t = s) ∧
     (s.getB b CMP.LATCH.LATCH = true → s.getB b CMP.STATUS.VIOL = false → quiet →
       Answers (.cmpRelease init c) s fun t =>
         t.getB b CMP.LATCH.LATCH = false ∧ t.getB b CMP.STATUS.REL_REFUSED = false ∧
         (s.getB b CMP.STATUS.LATCH_MODE = true → t.srcAct (8 + c) = false) ∧
         BlkBut .cmp s t fun a => a ∈ [b + CMP.STATUS.W.off, b + CMP.LATCH.W.off]) ∧
     (s.getB b CMP.LATCH.LATCH = true → s.getB b CMP.STATUS.VIOL = true →
       Answers (.cmpRelease init c) s fun t =>
         t.getB b CMP.LATCH.LATCH = true ∧ t.getB b CMP.STATUS.REL_REFUSED = true ∧
         OnlyFields s t b [CMP.STATUS.REL_REFUSED]) ∧
     (∀ flags : BitVec 4, Answers (.flagRel init c flags) s fun t =>
       (∀ i : Fin 4, t.bit b ⟨CMP.LATCH.W.off, 7, 4⟩ i =
         if flags.getLsbD i then s.marked b ⟨CMP.LATCH.W.off, 4 + i, 4 + i⟩ else s.bit b ⟨CMP.LATCH.W.off, 7, 4⟩ i) ∧
       OnlyFields s t b [⟨CMP.LATCH.W.off, 7, 4⟩]))

/-! ### Converters -/

/-- How scans start and stop (R79–R81, R107–R114): a software trigger, a START edge or a group firing starts a scan of a
converter that is idle, with its element-0 aperture on the firing edge (a group's at its market instant plus APT_DLY),
or later where acquisition is not complete, which LATE counts; a firing that finds a scan in progress is ignored and
counted, and a pin and a software trigger of one edge are one firing; an edge of a pin is one of the ball that START_PIN
or STOP_PIN names that its filter passes; armed-continuous running begins with the scan that starts; a refused SW_TRIG is
shown; STOP and a STOP edge end armed-continuous running; back-to-back running goes on with ACQ ac of acquisition. Readings of the model: log entries 18. -/
def Obligations.ConverterTriggers : Prop :=
  ∀ (s : State) (init : Fin 16) (k : Fin 12),
    let b := CNV.base k
    let ready := s.cnv[k].acqFrom + s.ownAcq k * ac
    let starts (edge : Nat) (t : State) : Prop :=
      (∃ x, t.cnv[k].scan = some x ∧ x.group = none ∧ x.elems = s.scanElems k ∧ x.total = (s.scanElems k).length ∧
        x.idx = 0 ∧ x.conv = none ∧ x.apt = max edge ready) ∧
      t.getB b CNV.STATUS.BUSY = true ∧
      ∀ j : Fin 12, j ≠ k → t.cnv[j] = s.cnv[j]
    let fires (t : State) : Prop :=
      (s.cnvIdle k = true → starts (edgeUp s.now) t ∧ t.getF b CNV.CNT.OVERRUN = s.getF b CNV.CNT.OVERRUN ∧
        t.getF b CNV.CNT.LATE = if edgeUp s.now < ready then min (s.getF b CNV.CNT.LATE + 1) 0xFFFF
          else s.getF b CNV.CNT.LATE) ∧
      (s.cnvIdle k = false → t.cnv[k].scan = s.cnv[k].scan ∧ t.getF b CNV.CNT.LATE = s.getF b CNV.CNT.LATE ∧
        t.getF b CNV.CNT.OVERRUN = min (s.getF b CNV.CNT.OVERRUN + 1) 0xFFFF)
    let free := s.groupOf k = none ∧ s.cnvOn k = true ∧ s.scanElems k ≠ []
    let mode := s.getF b CNV.CTRL.TRIG_SRC
    (Reaches s (b + CNV.CMD.W.off) →
      (free → s.cnv[k].pinAt ≠ some s.now → mode < 2 ∨ (mode = 3 ∧ s.getB b CNV.STATUS.RUN = false) → Answers (.swTrig init k) s fun t =>
        fires t ∧ (mode = 3 → t.getB b CNV.STATUS.RUN = s.cnvIdle k)) ∧
      ((s.groupOf k).isSome = true ∨ s.cnvOn k = false ∨ mode = 2 → Answers (.swTrig init k) s fun t =>
        t.getB b CNV.STATUS.SWT_REFUSED = true ∧ t.cnv[k].scan = s.cnv[k].scan) ∧
      (Answers (.stop init k) s fun t =>
        t.getB b CNV.STATUS.RUN = false ∧ t.cnv[k].scan = s.cnv[k].scan ∧ (s.getB b CNV.STATUS.RUN = false → t = s) ∧
        (s.getB b CNV.STATUS.RUN = true → t.cnv[k].again = false) ∧
        OnlyFields { s with cnv := t.cnv } t b [CNV.STATUS.RUN])) ∧
    (∀ (ball : Fin 8) (x : BallLevel),
      let level := x.level
      let passes (pin : Fld) : Prop := ball.val = s.getF b pin ∧
        s.passes x ac (s.getF b CNV.TRIGPIN.FILT) s.cnv[k].filterFrom = true
      let edge (fresh was : Bool) (sel : Nat) : Prop :=
        fresh = false ∧ was ≠ level ∧ (sel = 3 ∨ (sel = 1 ∧ level = true) ∨ (sel = 2 ∧ level = false))
      let start := edge s.cnv[k].startFresh s.cnv[k].startLevel (s.getF b CNV.TRIGPIN.START_EDGE)
      let stop := edge s.cnv[k].stopFresh s.cnv[k].stopLevel (s.getF b CNV.TRIGPIN.STOP_EDGE)
      (¬ passes CNV.TRIGPIN.START_PIN → Answers (.startEdge k ⟨ball, x⟩) s (· = s)) ∧
      (passes CNV.TRIGPIN.START_PIN →
        (start → free → s.cnv[k].firedAt ≠ some s.now →
          mode = 1 ∨ (mode = 3 ∧ s.getB b CNV.STATUS.RUN = false ∧ s.cnv[k].stopAt ≠ some s.now ∧
            ∀ r, s.cnv[k].stopPin ≠ some (s.now, r)) →
          Answers (.startEdge k ⟨ball, x⟩) s fun t =>
            fires t ∧ t.cnv[k].startLevel = level ∧ (mode = 3 → t.getB b CNV.STATUS.RUN = s.cnvIdle k)) ∧
        (¬ start → Answers (.startEdge k ⟨ball, x⟩) s fun t =>
          t = { s with cnv := s.cnv.set k { s.cnv[k] with startLevel := level, startFresh := false } })) ∧
      (¬ passes CNV.TRIGPIN.STOP_PIN → Answers (.stopEdge k ⟨ball, x⟩) s (· = s)) ∧
      (passes CNV.TRIGPIN.STOP_PIN → Answers (.stopEdge k ⟨ball, x⟩) s fun t =>
        t.cnv[k].stopLevel = level ∧ t.cnv[k].stopFresh = false ∧ t.cnv[k].scan = s.cnv[k].scan ∧
        (stop → t.getB b CNV.STATUS.RUN = false ∧ t.cnv[k].again = false ∧
          OnlyFields { s with cnv := t.cnv } t b [CNV.STATUS.RUN]) ∧
        (¬ stop → t = { s with cnv := t.cnv }))) ∧
    (s.cnv[k].again = true → s.cnvIdle k = true → s.cnv[k].waiting = [] → s.cnvOn k = true → s.groupOf k = none →
      Answers (.backToBackScan k) s fun t => starts s.now t ∧ t.cnv[k].again = false ∧
        t.now = max s.now (edgeDown (max s.now ready)) ∧ t.rd (b + CNV.CNT.W.off) = s.rd (b + CNV.CNT.W.off)) ∧
    (∀ (a : Fin 3) (q : Fin 4), Reaches s (AIS.base a + AIS.CMD.W.off) → s.getB (AIS.base a) AIS.CTRL.ENABLE = true →
      (s.aisleAt a).sgFired[q] ≠ some s.now →
      let in_ (j : Fin 12) : Prop := j.val / 4 = a.val ∧ s.groupOf j = some q.val ∧ s.cnvOn j = true
      let apt := edgeUp s.now + s.phaseDelay a + tick64 * s.getF (AIS.base a) (AIS.SG_DLY.APT_DLY.at (16 * q))
      let acq := max 12 (s.getF (AIS.base a) (AIS.SG_CFG.ACQ.at (16 * q)))
      let count (f : Fld) (t : State) : Nat := t.getF (AIS.base a) (f.at (16 * q))
      ((∃ j, in_ j) →
        ((∀ j, in_ j → s.cnvIdle j = true ∧ (s.scanElems j ≠ [] → s.cnv[j].acqFrom + acq * ac ≤ apt)) →
          Answers (.sgFire init a (BitVec.ofNat 4 (2 ^ q.val))) s fun t =>
            (∀ j, in_ j → ∃ x, t.cnv[j].scan = some x ∧ x.group = some q ∧ x.elems = s.scanElems j ∧ x.apt = apt ∧
              x.acq = acq) ∧
            (∀ j, ¬ in_ j → t.cnv[j] = s.cnv[j]) ∧
            count AIS.SG_CNT.LATE t = count AIS.SG_CNT.LATE s ∧ count AIS.SG_CNT.OVERRUN t = count AIS.SG_CNT.OVERRUN s) ∧
        ((∃ j, in_ j ∧ s.cnvIdle j = false) →
          Answers (.sgFire init a (BitVec.ofNat 4 (2 ^ q.val))) s fun t =>
            t.cnv = s.cnv ∧ count AIS.SG_CNT.OVERRUN t = min (count AIS.SG_CNT.OVERRUN s + 1) 0xFFFF)))

/-- One element of a scan (R79, R105–R107, R116, R123, R133): the sample is held at the element's aperture, the angles of the
aisle's engines at that of element 0 (R223); 28 ac after the edge on which conversion starts its code is written to RAW, clamped to its range, and 2 ac later its corrected value
to RESULT, rounded to nearest with ties away from zero and saturated, which SAT shows; an element of input 6 reads 16 times
the code that LOOP_SEL's threshold converter stands at at the aperture, which a write takes 40 ac to reach (R103, R142).
A scan without elements takes the angles at its aperture all the same. -/
def Obligations.ConverterElements : Prop :=
  ∀ (s : State) (k : Fin 12) (x : Scan), s.cnv[k].scan = some x →
    let b := CNV.base k
    let due := x.apt + x.idx * ((x.acq + 28) * ac)
    let sel := s.getF b CNV.CTRL.LOOP_SEL
    let dac := 2 * k.val + sel / 2
    let code := s.getF (CMP.base dac) (if sel % 2 = 1 then CMP.THR.THR_HI else CMP.THR.THR_LO)
    let held (t : State) (y : Scan) : Prop :=
      t.now = max s.now (edgeDown due) ∧ t = { s with now := t.now, cnv := t.cnv, free := t.free } ∧
      (∀ j : Fin 12, j ≠ k → t.cnv[j] = s.cnv[j]) ∧ t.cnv[k].scan = some y ∧
      y.idx = x.idx ∧ y.elems = x.elems ∧ y.apt = x.apt ∧ y.raw = x.raw ∧ y.angled = true ∧
      (x.angled = true → y.angles = x.angles ∧ y.aptTime = x.aptTime) ∧
      (x.angled = false → y.angles = t.anglesAt (k.val / 4) x.apt ∧ y.aptTime = t.marketAt x.apt)
    (∀ (v : Sample) (i : Nat), x.elems[x.idx]? = some i → x.conv = none →
      Answers (.aperture k v) s fun t =>
        ∃ y, held t y ∧ y.sample = v ∧ y.conv = some (i, edgeUp due) ∧
          (i ≠ 6 → t.free = s.free) ∧
          (i = 6 → y.dac < 4096 ∧ ((s.cmpAt dac).thrAt = 0 ∨ (s.cmpAt dac).thrAt + 40 * ac ≤ due →
            y.dac = code ∧ t.free = s.free))) ∧
    (∀ v : Sample, x.elems = [] → x.conv = none →
      Answers (.aperture k v) s fun t => ∃ y, held t y ∧ y.conv = none ∧ t.free = s.free) ∧
    (∀ (i : Fin 8) (st : Nat), x.conv = some (i.val, st) → x.raw = none →
      Answers (.rawCode k) s fun t =>
        t.now = max s.now (edgeDown (st + 28 * ac)) ∧ t.cnv[k].acqFrom = st + 28 * ac ∧
        (∃ y c, t.cnv[k].scan = some y ∧ y.conv = x.conv ∧ y.raw = some c ∧ y.codes = x.codes ++ [BitVec.ofInt 16 c] ∧
          t.getF b (CNV.RAW.W.at (4 * i)) = (BitVec.ofInt 32 c).toNat) ∧
        (∀ j : Fin 8, j ≠ i → t.rd (b + (CNV.RAW.W.at (4 * j)).off) = s.rd (b + (CNV.RAW.W.at (4 * j)).off)) ∧
        (i.val ≠ 6 → s.paired k i = false →
          t.getF b (CNV.RAW.CODE.at (4 * i)) = (clampInt 0 65535 (x.sample.pos * 65536 / x.sample.vref)).toNat ∧
          t.getF b (CNV.RAW.SIGN.at (4 * i)) = 0) ∧
        (i.val ≠ 6 → s.paired k i = true →
          t.getS b (CNV.RAW.W.at (4 * i)) =
            clampInt (-32768) 32767 ((x.sample.pos - x.sample.neg) * 32768 / x.sample.vref)) ∧
        (i.val = 6 → x.dac < 4096 → t.getF b (CNV.RAW.W.at (4 * i)) = 16 * x.dac)) ∧
    (∀ (i : Fin 8) (st : Nat) (code : Int), x.conv = some (i.val, st) → x.raw = some code →
      let exact := (code * 256 - s.getS b (CNV.OFFSET.OFFSET.at (8 * i))) * s.getS b (CNV.GAIN.GAIN.at (8 * i))
      Answers (.correctedResult k) s fun t => ∃ r : Int,
        2 * (exact - r * 65536).natAbs ≤ 65536 ∧
        (2 * (exact - r * 65536).natAbs = 65536 → exact.natAbs < r.natAbs * 65536) ∧
        t.getS b (CNV.RESULT.VALUE.at (4 * i)) = min (max r (-2147483648)) 2147483647 ∧
        t.bit b CNV.STATUS.SAT i = decide (r < -2147483648 ∨ 2147483647 < r) ∧
        (∀ j : Fin 8, j ≠ i → t.bit b CNV.STATUS.SAT j = s.bit b CNV.STATUS.SAT j ∧
          t.getF b (CNV.RESULT.VALUE.at (4 * j)) = s.getF b (CNV.RESULT.VALUE.at (4 * j))) ∧
        t.getF b CNV.SMP_CNT.COUNT = (s.getF b CNV.SMP_CNT.COUNT + 1) % 2 ^ 32 ∧
        t.now = max s.now (edgeDown (st + 30 * ac)) ∧
        (∃ y, t.cnv[k].scan = some y ∧ y.idx = x.idx + 1 ∧ y.conv = none ∧ y.raw = none) ∧
        BlkBut .cnv s t fun a => a ∈ [b + (CNV.RESULT.W.at (4 * i)).off, b + CNV.STATUS.W.off, b + CNV.SMP_CNT.W.off])

/-- Calibration (R118–R122): CAL_ZERO and CAL_FULL are refused, in this order, while ENABLE is 1, while a calibration or
a check is in progress or waits, and for the odd input of a pair, and otherwise run for 256 conversions; the end of a
zero calibration writes OFFSET, of a full-scale one GAIN, rounded to nearest with ties away from zero, unless D is 0 or
the quotient does not fit; one of input 6 sums 256 codes of the threshold converter that LOOP_SEL named at the start.
Readings of the model: log entries 18 and 66. -/
def Obligations.ConverterCalibration : Prop :=
  ∀ (s : State) (init : Fin 16) (k : Fin 12) (i : Fin 8),
    let b := CNV.base k
    let c := s.cnv[k]
    let busy := c.cal.isSome = true ∨ c.diag.isSome = true ∨ c.check.isSome = true ∨ c.waiting ≠ []
    let outcome (full : Bool) (t : State) : Prop :=
      (s.cnvOn k = true → t.getF b CNV.STATUS.CAL_RESULT = 2 ∧ OnlyFields s t b [CNV.STATUS.CAL_RESULT]) ∧
      (s.cnvOn k = false → busy → t.getF b CNV.STATUS.CAL_RESULT = 3 ∧ OnlyFields s t b [CNV.STATUS.CAL_RESULT]) ∧
      (s.cnvOn k = false → ¬ busy → s.oddOfPair k i = true →
        t.getF b CNV.STATUS.CAL_RESULT = 4 ∧ OnlyFields s t b [CNV.STATUS.CAL_RESULT]) ∧
      (s.cnvOn k = false → ¬ busy → s.oddOfPair k i = false →
        t.getB b CNV.STATUS.CAL_BUSY = true ∧ t.getF b CNV.STATUS.CAL_RESULT = s.getF b CNV.STATUS.CAL_RESULT ∧
        let acq := max 12 (s.getF b CNV.TIMING.ACQ)
        t.cnv[k].cal = some ⟨full, i, s.paired k i, s.getS b CNV.FS_VALUE.FS, s.now + 256 * (acq + 28) * ac, s.now, acq,
          s.getF b CNV.CTRL.LOOP_SEL, 0, 0⟩)
    (Reaches s (b + CNV.CMD.W.off) →
      Answers (.calZero init k i) s (outcome false) ∧ Answers (.calFull init k i) s (outcome true)) ∧
    (∀ (x : CalRun) (codes : CalCodes), c.cal = some x → x.input = i.val →
      let ends (sum : Int) (t : State) : Prop :=
        let d := sum - s.getS b (CNV.OFFSET.OFFSET.at (8 * i))
        t.getB b CNV.STATUS.CAL_BUSY = false ∧ t.cnv[k].cal = none ∧ t.cnv[k].acqFrom = x.endAt ∧
        t.now = max s.now (edgeDown x.endAt) ∧
        (x.full = false → t.getS b (CNV.OFFSET.OFFSET.at (8 * i)) = sum ∧ t.getF b CNV.STATUS.CAL_RESULT = 1) ∧
        (x.full = true → t.getF b (CNV.OFFSET.OFFSET.at (8 * i)) = s.getF b (CNV.OFFSET.OFFSET.at (8 * i)) ∧
          ((t.getF b CNV.STATUS.CAL_RESULT = 1 ∧ d ≠ 0 ∧
            let g := t.getS b (CNV.GAIN.GAIN.at (8 * i))
            2 * (x.fs * 65536 - g * d).natAbs ≤ d.natAbs ∧
            (2 * (x.fs * 65536 - g * d).natAbs = d.natAbs → (x.fs * 65536).natAbs < (g * d).natAbs)) ∨
          (t.getF b CNV.STATUS.CAL_RESULT = 6 ∧
            t.getF b (CNV.GAIN.GAIN.at (8 * i)) = s.getF b (CNV.GAIN.GAIN.at (8 * i)) ∧
            (d = 0 ∨ ∀ g : Int, -2147483648 ≤ g → g ≤ 2147483647 → d.natAbs ≤ 2 * (x.fs * 65536 - g * d).natAbs))))
      let dac := 2 * k.val + x.loop / 2
      let code := s.getF (CMP.base dac) (if x.loop % 2 = 1 then CMP.THR.THR_HI else CMP.THR.THR_LO)
      (i.val ≠ 6 → Answers (.calibrationEnd k codes) s (ends
        (if x.paired then clampInt (-8388608) 8388352 codes.sum else clampInt 0 16776960 codes.sum))) ∧
      (i.val = 6 → x.counted ≤ 256 → x.sum ≤ 65520 * x.counted → Answers (.calibrationEnd k codes) s fun t =>
        ∃ sum : Nat, sum ≤ 16773120 ∧ ends sum t) ∧
      (i.val = 6 → x.counted = 0 → x.sum = 0 → x.endAt = x.startAt + 256 * (x.acq + 28) * ac →
        (s.cmpAt dac).thrAt = 0 ∨ (s.cmpAt dac).thrAt + 40 * ac ≤ x.startAt →
        Answers (.calibrationEnd k codes) s (ends (256 * (16 * code)))))

/-- Open-wire diagnosis and self-checks (R110, R124–R130): a request waits and then runs, a second one while it waits or
runs does nothing; each element of a diagnostic scan gives its code as it ends, the second of a ball OPEN too, where the
pull-up code exceeds the pull-down code by DELTA; a self-check judges the reference or the supply code and ends BGSTARVED.
Readings of the model: log entries 18 and 66. -/
def Obligations.ConverterChecks : Prop :=
  ∀ (s : State) (init : Fin 16) (k : Fin 12),
    let b := CNV.base k
    let c := s.cnv[k]
    (Reaches s (b + CNV.CMD.W.off) →
      (c.diag = none → Side.diag ∉ c.waiting → Answers (.diag init k) s fun t =>
        t.cnv[k].waiting = c.waiting ++ [.diag] ∧ t.getB b CNV.STATUS.DIAG_DONE = false ∧
        t.getB b CNV.STATUS.DIAG_BUSY = true) ∧
      (c.diag.isSome = true ∨ Side.diag ∈ c.waiting → Answers (.diag init k) s fun t => t = s) ∧
      ((∀ x, c.check = some x → x.background = true) → Side.check ∉ c.waiting → Answers (.selfchk init k) s fun t =>
        t.cnv[k].waiting = c.waiting ++ [.check]) ∧
      ((∃ x, c.check = some x ∧ x.background = false) ∨ Side.check ∈ c.waiting →
        Answers (.selfchk init k) s fun t => t = s)) ∧
    (∀ (rest : List Side) (codes : DiagCodes), c.waiting = .diag :: rest → s.sideMayStart k = true →
      Answers (.diagScanStart ⟨k, codes⟩) s fun t =>
      t.cnv[k].waiting = rest ∧ t.getB b CNV.STATUS.DIAG_BUSY = true ∧
      ∃ x, t.cnv[k].diag = some x ∧ x.mask.toNat = s.getF b CNV.DIAG_CFG.MASK ∧ x.codes = codes ∧ x.ended = 0 ∧
        x.startAt = edgeUp s.now ∧ x.len = (max 12 (s.getF b CNV.TIMING.DIAG_ACQ) + 28) * ac ∧
        x.endAt = edgeUp s.now + ((List.range 4).filter x.mask.getLsbD).length * 2 *
          (max 12 (s.getF b CNV.TIMING.DIAG_ACQ) + 28) * ac) ∧
    (∀ x : DiagRun, c.diag = some x →
      let balls := (List.range 4).filter x.mask.getLsbD
      let done (n : Nat) (t : State) : Prop := x.startAt + (n + 1) * x.len ≤ t.now
      let shown (last : Option (BitVec 16)) (t : State) : Prop := ∀ n p : Fin 4, balls[n.val]? = some p.val →
        (x.ended ≤ 2 * n.val →
          t.getF b (CNV.DIAG_RES.UP.at (4 * p)) = if done (2 * n) t then x.codes.up[p].toNat
            else s.getF b (CNV.DIAG_RES.UP.at (4 * p))) ∧
        (x.ended ≤ 2 * n.val + 1 →
          let code : Option (BitVec 16) := if n.val + 1 = balls.length then last
            else if done (2 * n + 1) t then some x.codes.dn[p] else none
          (∀ d, code = some d → t.getF b (CNV.DIAG_RES.DN.at (4 * p)) = d.toNat ∧
            t.bit b CNV.STATUS.OPEN p = decide (s.getF b CNV.DIAG_CFG.DELTA + d.toNat ≤ x.codes.up[p].toNat)) ∧
          (code = none → t.getF b (CNV.DIAG_RES.DN.at (4 * p)) = s.getF b (CNV.DIAG_RES.DN.at (4 * p)) ∧
            t.bit b CNV.STATUS.OPEN p = s.bit b CNV.STATUS.OPEN p))
      let kept (t : State) : Prop := ∀ p : Fin 4, x.mask.getLsbD p = false →
        t.rd (b + (CNV.DIAG_RES.W.at (4 * p)).off) = s.rd (b + (CNV.DIAG_RES.W.at (4 * p)).off) ∧
        t.bit b CNV.STATUS.OPEN p = s.bit b CNV.STATUS.OPEN p
      let u := s.diagProgress k
      shown none u ∧ kept u ∧ u.now = s.now ∧ BlkBut .cnv s u (fun a => a = b + CNV.STATUS.W.off ∨
        ∃ p : Fin 4, a = b + (CNV.DIAG_RES.W.at (4 * p)).off) ∧
      ∀ last : BitVec 16, Answers (.diagScanEnd k last) s fun t =>
        t.cnv[k].diag = none ∧ t.getB b CNV.STATUS.DIAG_DONE = true ∧ t.cnv[k].acqFrom = x.endAt ∧
        t.now = max s.now (edgeDown x.endAt) ∧ shown (some last) t ∧ kept t) ∧
    (s.bgOn k = true → Answers (.selfCheckAttempt k) s fun t =>
      t.cnv[k].attempt = true ∧ t.cnv[k].attemptAt = c.attemptAt + max 1 (s.getF b CNV.SC_CFG.SC_INT) * (100 * us) ∧
      t.now = max s.now (edgeDown c.attemptAt) ∧ t = { s with now := t.now, cnv := t.cnv }) ∧
    (∀ rest, c.waiting = .check :: rest → s.sideMayStart k = true → Answers (.selfCheckElement k) s fun t =>
      t.cnv[k].check = some ⟨7, edgeUp s.now, false⟩ ∧ t.cnv[k].waiting = rest ∧ t.getB b CNV.STATUS.BUSY = true) ∧
    (c.waiting = [] → c.attempt = true → s.bgOn k = true → s.slot k = true → Answers (.selfCheckElement k) s fun t =>
      t.cnv[k].check = some ⟨if c.nextIs5 then 5 else 7, edgeUp s.now, true⟩ ∧ t.cnv[k].nextIs5 = !c.nextIs5 ∧
      t.cnv[k].attempt = false) ∧
    (∀ (x : CheckRun) (v : Sample), c.check = some x → Answers (.selfCheckResult k v) s fun t =>
      let code := (clampInt 0 65535 (v.pos * 65536 / v.vref)).toNat
      t.getB b CNV.STATUS.BGSTARVED = false ∧ t.now = max s.now (edgeDown (x.startAt + 40 * ac)) ∧
      t.cnv[k].acqFrom = x.startAt + 40 * ac ∧
      (x.input = 7 → t.getF b CNV.SC_RES.REF_CODE = code ∧
        t.getB b CNV.STATUS.REF_FAIL = decide ((s.getF b CNV.SC_CFG.REF_TOL : Int) < ((code : Int) - 32768).natAbs)) ∧
      (x.input ≠ 7 → t.getF b CNV.SC_RES.SUP_CODE = code ∧
        t.getB b CNV.STATUS.SUP_FAIL = decide (code < s.getF b CNV.SC_SUP.SUP_LO ∨ s.getF b CNV.SC_SUP.SUP_HI < code)) ∧
      (x.input = 7 → x.background = false → t.cnv[k].check = some ⟨5, x.startAt + 40 * ac, false⟩) ∧
      (x.input ≠ 7 ∨ x.background = true → t.cnv[k].check = none) ∧
      t.getB b CNV.STATUS.BUSY = (c.scan.isSome || t.cnv[k].check.isSome)) ∧
    (s.bgOn k = true → Answers (.bgstarved k) s fun t =>
      t.getB b CNV.STATUS.BGSTARVED = true ∧ t.now = max s.now (edgeDown (c.checkFrom + 10000 * us)) ∧
      OnlyFields { s with now := t.now } t b [CNV.STATUS.BGSTARVED])

/-! ### Legs -/

/-- Shadow writes and commits (R167–R174): a write to a shadow register is taken at once by that register; with CGATE it
waits for a commit, which takes the four values together. On the edge of a transfer event of the leg's mode the values
become active; with the immediate-if-safe mode they become active at once, which IMM counts, where at least 3 ac of the
half are left, the dead times stay and the compare of the half is past or future with its old and its new value alike;
elsewhere they wait and DEFER counts them; otherwise they wait for the next transfer event with STATUS.PEND at 1, uncounted.
A group commit with a bit above the mask does nothing. Readings of the model: log entries 39. -/
def Obligations.LegLandings : Prop :=
  ∀ (s : State) (init : Fin 16) (l : Fin 48), s.settle = s →
    let b := LEG.base l
    let g := s.carOf (l / 4)
    let mode := s.getF b LEG.CTRL.XFER
    let coming := s.turnDue g = true ∧ xferTakes mode (s.carDown g) = true
    let event := s.carRuns g = true ∧ ¬ coming ∧ (s.carAt g).edge = s.now ∧ xferTakes mode (!s.carDown g) = true
    let waits (t : State) : Prop := t.getB b LEG.STATUS.PEND = true ∧ t.activeSet l = s.activeSet l
    let active (t : State) (v : LegSet) : Prop := t.activeSet l = v ∧ t.getB b LEG.STATUS.PEND = false
    let gone := (s.now - (s.carAt g).edge) / ac
    let past (v : LegSet) : Prop :=
      (if s.carDown g then 64 * s.prd g - min v.dn (64 * s.prd g) else min v.up (64 * s.prd g)) ≤ 64 * (gone + 2)
    let safe (v : LegSet) : Prop := gone < s.prd g - 2 ∧ v.rise = (s.activeSet l).rise ∧ v.fall = (s.activeSet l).fall ∧
      (past v ↔ past (s.activeSet l))
    let lands (t : State) (v : LegSet) : Prop :=
      (event → active t v) ∧
      (s.carRuns g = false ∨ coming → waits t ∧ t.rd (b + LEG.CNT.W.off) = s.rd (b + LEG.CNT.W.off)) ∧
      (s.carRuns g = true → ¬ coming → ¬ event → mode ≠ 3 →
        waits t ∧ t.rd (b + LEG.CNT.W.off) = s.rd (b + LEG.CNT.W.off)) ∧
      (s.carRuns g = true → ¬ coming → ¬ event → mode = 3 →
        (safe v → active t v ∧ t.getF b LEG.CNT.IMM = min (s.getF b LEG.CNT.IMM + 1) 0xFFFF ∧
          t.getF b LEG.CNT.DEFER = s.getF b LEG.CNT.DEFER) ∧
        (¬ safe v → waits t ∧ t.getF b LEG.CNT.DEFER = min (s.getF b LEG.CNT.DEFER + 1) 0xFFFF ∧
          t.getF b LEG.CNT.IMM = s.getF b LEG.CNT.IMM))
    let inside (t : State) : Prop := BlkBut .leg s t fun a => b ≤ a ∧ a < b + 0x100
    (∀ (k : Fin 4) (value : Word), Reaches s (b + (shadowReg k).off) →
      Answers (.shadowWrite init l k value) s fun t =>
        t.rd (b + (shadowReg k).off) = value ∧
        (∀ j : Fin 4, j ≠ k → t.rd (b + (shadowReg j).off) = s.rd (b + (shadowReg j).off)) ∧
        (t.warranted = true ↔ s.warranted = true ∧
          (s.rd (b + (shadowReg k).off)).toNat / 2 ^ 22 = value.toNat / 2 ^ 22) ∧
        (s.cgate l = true → OnlyRegs { s with warranted := t.warranted } t (At b (shadowReg k))) ∧
        (s.cgate l = false → lands t (t.shadowSet l)) ∧ inside t) ∧
    (Reaches s (b + LEG.CMD.W.off) →
      Answers (.commit init l) s fun t =>
        t.shadowSet l = s.shadowSet l ∧
        (s.cgate l = false → t = s) ∧
        (s.cgate l = true → (t.legAt l).committed = s.shadowSet l ∧ lands t (s.shadowSet l)) ∧ inside t) ∧
    (∀ mask : Word, Reaches s (b + LEG.GCOMMIT.W.off) →
      Answers (.gcommit init l mask) s fun t =>
        (0x10000 ≤ mask.toNat → t = s) ∧
        (mask.toNat < 0x10000 → ∀ m : Fin 16,
          let n := 16 * (l.val / 16) + m.val
          (mask.toNat.testBit m = true → s.cgate n = true → (t.legAt n).committed = s.shadowSet n) ∧
          (mask.toNat.testBit m = false ∨ s.cgate n = false →
            t.legAt n = s.legAt n ∧ ∀ a, LEG.base n ≤ a → a < LEG.base n + 0x100 → t.rd a = s.rd a)))

/-- The modulation signal and the dead times (R164–R166): counting up it falls where the carrier reaches the active
up-compare, counting down it rises where it reaches the active down-compare, at the market instant of the position, on
the 1/64 ac grid, or where the change was placed before (R174); the side that goes off goes off at once and the other
waits for its dead time. DEAD_TIME_END is the earliest rise that waits: of a dead time, of the interlock or of a trip
action, whose balls rise then. The output stage (R176, R391, R196–R198): whatever the paths ask for, a leg whose balls are
not both 1 is never driven to both 1; a leg that is not armed shows its safe levels, and a held leg with the OFF action
has both balls 0. Readings of the model: log entries 8, 39, 71. -/
def Obligations.LegOutputs : Prop :=
  (∀ (s : State) (l : Fin 48),
     let b := LEG.base l
     let g := s.carOf (l / 4)
     let a := s.activeSet l
     let p := 64 * s.prd g
     let up := s.carInst g + tick64 * a.up
     let dn := s.carInst g + tick64 * (p - min a.dn p)
     let at_ (x : Nat) : Nat := match (s.legAt l).placed with
       | some e => e
       | none => x
     (s.settle = s → s.getB b LEG.STATUS.RUN = true → s.carRuns g = true →
       (s.carDown g = false → s.getB b LEG.STATUS.M = true → (s.legAt l).placed.isSome = true ∨ a.up < p →
         s.nextLanding (edgeDown (at_ up)) = none →
         Answers (.compareEdge l) s fun t =>
           t.getB b LEG.STATUS.M = false ∧ t.now = max s.now (edgeDown (at_ up)) ∧ (t.legAt l).placed = none ∧
           (t.legAt l).hi = false ∧ (t.legAt l).hiRise = none ∧
           (a.fall = 0 → (t.legAt l).lo = true ∧ (t.legAt l).loRise = none) ∧
           (a.fall ≠ 0 → (t.legAt l).lo = false ∧ (t.legAt l).loRise = some (at_ up + tick64 * a.fall)) ∧
           BlkBut .leg s t (At b LEG.STATUS.W)) ∧
       (s.carDown g = true → s.getB b LEG.STATUS.M = false → (s.legAt l).placed.isSome = true ∨ 0 < a.dn →
         s.nextLanding (edgeDown (at_ dn)) = none →
         Answers (.compareEdge l) s fun t =>
           t.getB b LEG.STATUS.M = true ∧ t.now = max s.now (edgeDown (at_ dn)) ∧ (t.legAt l).placed = none ∧
           (t.legAt l).lo = false ∧ (t.legAt l).loRise = none ∧
           (a.rise = 0 → (t.legAt l).hi = true ∧ (t.legAt l).hiRise = none) ∧
           (a.rise ≠ 0 → (t.legAt l).hi = false ∧ (t.legAt l).hiRise = some (at_ dn + tick64 * a.rise)) ∧
           BlkBut .leg s t (At b LEG.STATUS.W))) ∧
     (s.settle = s → s.compareInst l = none → Answers (.compareEdge l) s (· = s)) ∧
     (∀ e, s.riseDue l = some e →
       (∀ x, (s.legAt l).hiRise = some x ∨ (s.legAt l).loRise = some x ∨ s.waitDue l = some x → e ≤ x) ∧
       ((s.legAt l).hiRise = some e ∨ (s.legAt l).loRise = some e ∨ s.waitDue l = some e) ∧
       Answers (.deadTimeEnd l) s fun t =>
         (t.legAt l).hi = ((s.legAt l).hi || (s.legAt l).hiRise == some e) ∧
         (t.legAt l).lo = ((s.legAt l).lo || (s.legAt l).loRise == some e) ∧
         (t.legAt l).hiRise = (if (s.legAt l).hiRise = some e then none else (s.legAt l).hiRise) ∧
         (t.legAt l).loRise = (if (s.legAt l).loRise = some e then none else (s.legAt l).loRise) ∧
         t.now = max s.now (edgeDown e) ∧ BlkBut .leg s t (At b LEG.STATUS.W)) ∧
     (s.riseDue l = none → Answers (.deadTimeEnd l) s (· = s)) ∧
     (s.armedAt l = true → s.getB b LEG.STATUS.HI_BALL = false → s.getB b LEG.STATUS.LO_BALL = false →
       (s.legAt l).hiRise = none → (s.legAt l).loRise = none →
       let rises (f : Fld) (e : Nat) : Prop := Answers (.deadTimeEnd l) s fun t =>
         t.getB b f = true ∧ t.now = max s.now (edgeDown e)
       (s.tripAction l = .lowOn →
         rises LEG.STATUS.LO_BALL ((s.legAt l).hiFell + tick64 * max a.fall (s.shadowSet l).fall)) ∧
       (s.tripAction l = .highOn →
         rises LEG.STATUS.HI_BALL ((s.legAt l).loFell + tick64 * max a.rise (s.shadowSet l).rise)) ∧
       (s.tripAction l = .pass → s.asks l = (true, false) →
         rises LEG.STATUS.HI_BALL ((s.legAt l).loFell + tick64 * min a.rise a.fall)) ∧
       (s.tripAction l = .pass → s.asks l = (false, true) →
         rises LEG.STATUS.LO_BALL ((s.legAt l).hiFell + tick64 * min a.rise a.fall)))) ∧
  (∀ (s : State) (l : Fin 48) (at_ : Nat),
     let b := LEG.base l
     let t := s.drive l at_
     (s.getB b LEG.STATUS.HI_BALL = false ∨ s.getB b LEG.STATUS.LO_BALL = false →
       t.getB b LEG.STATUS.HI_BALL = false ∨ t.getB b LEG.STATUS.LO_BALL = false) ∧
     (s.armedAt l = false →
       t.getB b LEG.STATUS.HI_BALL = (s.cellar.safeLatch.getLsbD (2 * l) && !s.cellar.safeLatch.getLsbD (2 * l + 1)) ∧
       t.getB b LEG.STATUS.LO_BALL = (s.cellar.safeLatch.getLsbD (2 * l + 1) && !s.cellar.safeLatch.getLsbD (2 * l))) ∧
     (s.armedAt l = true → (s.legAt l).held = true → (s.legAt l).acts.getLsbD 0 = true →
       t.getB b LEG.STATUS.HI_BALL = false ∧ t.getB b LEG.STATUS.LO_BALL = false) ∧
     (s.armedAt l = true → (s.legAt l).held = false → s.getB b LEG.CTRL.ENABLE = false →
       t.getB b LEG.STATUS.HI_BALL = false ∧ t.getB b LEG.STATUS.LO_BALL = false) ∧
     BlkBut .leg s t (At b LEG.STATUS.W))

/-! ### Trips -/

/-- Trip sources (R185, R188, R190, R191, R195): the level of a source that crosses into the trip unit is what SRC_ACT
shows, and with CTRL.ENABLE its rise makes every group it is mapped to active, latched unless the group is
cycle-by-cycle; a level of a pin that its filter passes is the pin's, and its fall ends the source; a write of SWTRIP sets
source 44 at once. TRP.CMD.RELEASE (R202): a latched group that the mask names is released, and is no longer active, if no
source mapped to it is active or was so on the edge before; with an active source the release is refused, and REL_REFUSED
says so; so it is where a source rises on the edge of the release: the group counts no second activation (R205). Groups at
the legs (R199, R200, R208): the state of a group arrives at the trip stages of an aisle; an active group holds every leg of
the aisle that it names, with its action, and LEG_HELD shows them; one that has ended lets go of a leg that no other group
holds, at once where the leg's carrier is disabled; legs it does not name stay as they are. Readings of the model: log
entries 38. -/
def Obligations.Trips : Prop :=
  (∀ (s : State) (init : Fin 16),
     let rises (i : Nat) (t : State) : Prop :=
       ∀ q : Fin 16, s.mapped i q = true → s.getB TRP.base TRP.CTRL.ENABLE = true →
         t.bit TRP.base TRP.GRP_STATUS.ACTIVE q = true ∧ (s.cbc q = false → t.latched q = true)
     (∀ i : Fin 46, Answers (.tripSourceActive i) s fun t =>
       t.srcAct i = s.srcLevel i ∧ (∀ j : Fin 46, j ≠ i → t.srcAct j = s.srcAct j) ∧
       (s.srcAct i = s.srcLevel i → t = s) ∧
       (s.srcAct i = false → s.srcLevel i = true → rises i t ∧
         ∀ q : Fin 16, s.mapped i q = true → s.cbc q = false → s.releasedNow q = true →
           t.bit TRP.base TRP.GRP_STATUS.REL_REFUSED q = true ∧
           t.getF TRP.base (TRP.GRP_FIRST.COUNT.at (4 * q)) = s.getF TRP.base (TRP.GRP_FIRST.COUNT.at (4 * q)))) ∧
     (∀ (i : Fin 8) (x : BallLevel), s.passes x ac (s.getF TRP.base (TRP.SRC_CFG.FILT.at (4 * i))) 0 = false →
       Answers (.tripinEdge i x) s (· = s)) ∧
     (∀ (i : Fin 8) (x : BallLevel), s.passes x ac (s.getF TRP.base (TRP.SRC_CFG.FILT.at (4 * i))) 0 = true →
       Answers (.tripinEdge i x) s fun t =>
       let level := x.level
       let active := level != s.getB TRP.base (TRP.SRC_CFG.POL.at (4 * i)) && !s.srcBlanked i (s.pinAisle i)
         && s.aisleUp (s.pinAisle i)
       t.trip.tripin.getLsbD i = level ∧ (∀ j : Fin 8, j ≠ i → t.trip.tripin.getLsbD j = s.trip.tripin.getLsbD j) ∧
       (active = false → t.srcAct i = false) ∧ (active = true → t.srcAct i = s.srcAct i)) ∧
     (∀ value : Word, Reaches s (TRP.base + TRP.SWTRIP.W.off) → Answers (.swtrip init value) s fun t =>
       t.rd (TRP.base + TRP.SWTRIP.W.off) = value ∧ t.srcAct 44 = value.toNat.testBit 0 ∧
       (s.srcAct 44 = false → value.toNat.testBit 0 = true → rises 44 t))) ∧
  (∀ (s : State) (init : Fin 16) (mask : BitVec 16), Reaches s (TRP.base + TRP.CMD.W.off) →
     Answers (.trpRelease init mask) s fun t =>
       (∀ q : Fin 16, mask.getLsbD q = true → s.latched q = true →
         ((∀ i : Fin 46, s.mapped i q = true → s.srcAct i = false ∧ (s.trip.fell[i] = 0 ∨ s.trip.fell[i] + ac ≤ s.now)) →
           t.latched q = false ∧ t.bit TRP.base TRP.GRP_STATUS.ACTIVE q = false ∧
           t.bit TRP.base TRP.GRP_STATUS.REL_REFUSED q = false) ∧
         ((∃ i : Fin 46, s.mapped i q = true ∧ s.srcAct i = true) →
           t.latched q = true ∧ t.bit TRP.base TRP.GRP_STATUS.REL_REFUSED q = true)) ∧
       (∀ i : Fin 46, t.srcAct i = s.srcAct i)) ∧
  (∀ (s : State) (q : Fin 16) (a : Fin 3), s.aisleUp a = true →
     Answers (.groupStateArrival q a) s fun t =>
       (t.aisleAt a).groups.getLsbD q = s.bit TRP.base TRP.GRP_STATUS.ACTIVE q ∧
       (∀ p : Fin 16, p ≠ q → (t.aisleAt a).groups.getLsbD p = (s.aisleAt a).groups.getLsbD p) ∧
       (∀ j : Fin 16,
         let l := 16 * a.val + j.val
         (s.groupNames q l = true → s.bit TRP.base TRP.GRP_STATUS.ACTIVE q = true →
           (t.legAt l).held = true ∧ (t.legAt l).acts.getLsbD (s.getF TRP.base (TRP.GRP_CFG.ACTION.at (4 * q))) = true ∧
           (t.get64 TRP.base TRP.LEG_HELD_LO.HELD TRP.LEG_HELD_HI.HELD).testBit l = true) ∧
         (s.groupNames q l = true → s.bit TRP.base TRP.GRP_STATUS.ACTIVE q = false →
           let named := ∃ p : Fin 16, p ≠ q ∧ (s.aisleAt a).groups.getLsbD p = true ∧ s.groupNames p l = true
           (¬ named → s.carOn (s.carOf (l / 4)) = false → (t.legAt l).held = false) ∧
           (named ∨ (s.carOn (s.carOf (l / 4)) = true ∧ s.zeroNow (s.carOf (l / 4)) = false) →
             t.legAt l = s.legAt l)) ∧
         (s.groupNames q l = false → t.legAt l = s.legAt l)) ∧
       (∀ l : Fin 48, l.val / 16 ≠ a.val → t.leg[l] = s.leg[l]))

/-! ### Arming -/

/-- The two keys of ARM_KEY (R402, R403, R405): in SAFE the first key with every condition met leads to READY and opens a
window of WIN µs for its initiator; in READY the second key from the same initiator within the window, with every
condition met, arms the hall, and trips it on the same edge where a group has latched; any other value is refused, and in
READY also ends it with LAST_DISARM 7. A second key on the edge on which READY ended with its window or because a group
latched finds READY still; a first key on the edge of a cause of disarming is refused. A value with a bit above the key does
nothing. Every change of state sets out for the three aisles. The ways back (R403, R404, R407): from READY, ARMED or
TRIPPED each cause leads to SAFE on its edge and records its LAST_DISARM code, and counts in DISARMS where the hall was
armed: a command 1, SAFE_N that its filter passes 2, a power failure 3, the hall watchdog 4; on the edge of the key that armed the hall the key is refused
instead, and neither ARMS nor DISARMS counts; the expiry of the window ends READY with code 7. Readings of the model: log
entries 23. -/
def Obligations.Arming : Prop :=
  (∀ (s : State) (init : Fin 16) (value : Word), Reaches s (CEL.base + CEL.ARM_KEY.W.off) →
     let b := CEL.base
     let again := value.toNat = 0xC0DE ∧ s.getF b CEL.ARM_STATE.STATE = 0 ∧ s.cellar.disarmAt ≠ some s.now ∧
       ∃ r, s.cellar.readyEnd = some r ∧ r.edge = s.now
     let ready := s.getF b CEL.ARM_STATE.STATE = 1 ∨ again
     let met := s.getF b CEL.ARM_STATE.COND = 31
     let before := met ∨ (s.getF b CEL.ARM_STATE.COND = 23 ∧ ∃ r, s.cellar.readyEnd = some r ∧ r.edge = s.now ∧ r.latched = true)
     let goes (t : State) (goals : List (BitVec 2)) : Prop :=
       some (t.getF b CEL.ARM_STATE.STATE) = goals.getLast?.map BitVec.toNat ∧
       ∀ a : Fin 3, (again → t.aisle[a].armQueue = s.aisle[a].armQueue.dropLast ++ goals) ∧
         (¬ again → t.aisle[a].armQueue = s.aisle[a].armQueue ++ goals)
     let first := value.toNat = 0x5A1E ∧ met ∧ s.cellar.disarmAt ≠ some s.now
     let second := value.toNat = 0xC0DE ∧ init.val = s.cellar.keyBy ∧ s.now ≤ s.cellar.keyUntil ∧ before
     (∀ c ∈ [Instr.armKeyReady init value, Instr.armKeyArm init value], Answers c s fun t =>
       (0x10000 ≤ value.toNat → t = s) ∧
       (value.toNat < 0x10000 →
         (s.getF b CEL.ARM_STATE.STATE = 0 → first →
           goes t [1] ∧ t.getB b CEL.ARM_STATE.REFUSED = false ∧ t.cellar.keyBy = init.val ∧
           t.cellar.keyUntil = s.now + max 1 (s.getF b CEL.ARM_CFG.WIN) * us) ∧
         (ready → second →
           goes t (if s.getB TRP.base TRP.STATUS.LATCHED then [2, 3] else [2]) ∧
           t.getB b CEL.ARM_STATE.REFUSED = false ∧
           t.getF b CEL.ARM_CNT.ARMS = min (s.getF b CEL.ARM_CNT.ARMS + 1) 0xFFFF) ∧
         (ready → ¬ second →
           goes t [0] ∧ t.getB b CEL.ARM_STATE.REFUSED = true ∧ t.getF b CEL.ARM_STATE.LAST_DISARM = 7) ∧
         (¬ ready → ¬ (s.getF b CEL.ARM_STATE.STATE = 0 ∧ first) →
           t.getB b CEL.ARM_STATE.REFUSED = true ∧ t.cellar = { s.cellar with readyEnd := none } ∧
           OnlyFields { s with cellar := t.cellar } t b [CEL.ARM_STATE.REFUSED])))) ∧
  (∀ (s : State) (init : Fin 16),
     let b := CEL.base
     let code (n : Nat) (t : State) : Prop := t.getF b CEL.ARM_STATE.STATE = 0 ∧ t.getF b CEL.ARM_STATE.LAST_DISARM = n
     let seen (last : Option Nat) (time : Nat) : Prop := ∀ e, last = some e → e + time ≤ s.now
     let keyed (k : KeyArm) : Prop := s.getF b CEL.ARM_STATE.STATE = 2 ∧ s.cellar.keyArm = some k ∧ k.edge = s.now
     let safe (n : Nat) (t : State) : Prop := code n t ∧
       ((∀ k, ¬ keyed k) →
         t.getF b CEL.ARM_CNT.DISARMS = (if s.getF b CEL.ARM_STATE.STATE = 1 then s.getF b CEL.ARM_CNT.DISARMS
           else min (s.getF b CEL.ARM_CNT.DISARMS + 1) 0xFFFF) ∧
         ∀ a : Fin 3, t.aisle[a].armQueue = s.aisle[a].armQueue ++ [0]) ∧
       (∀ k, keyed k → k.arms ≤ 0xFFFF →
         t.getF b CEL.ARM_CNT.DISARMS = s.getF b CEL.ARM_CNT.DISARMS ∧ t.getF b CEL.ARM_CNT.ARMS = k.arms ∧
         t.getB b CEL.ARM_STATE.REFUSED = true ∧
         ∀ a : Fin 3, t.aisle[a].armQueue = s.aisle[a].armQueue.dropLast ++ [0])
     (1 ≤ s.getF b CEL.ARM_STATE.STATE →
       (Reaches s (b + CEL.ARM_CMD.W.off) → Answers (.disarm init) s fun t =>
         safe 1 t ∧ BlkBut .cel s t fun a =>
           a ∈ [b + CEL.ARM_STATE.W.off, b + CEL.ARM_CNT.W.off, b + CEL.STATUS.W.off, b + CEL.LEDGER_LOST.W.off]) ∧
       (s.cellar.safeN = true → seen s.cellar.safeAt (8 * ac) → Answers .safeNLow s fun t =>
         safe 2 t ∧ t.cellar.safeN = false ∧ t.bit b CEL.ARM_STATE.COND 2 = false) ∧
       (s.getB b CEL.STATUS.PFAIL = false → seen s.cellar.pfailAt (3 * cellarCycle) → Answers .pfailNFall s fun t =>
         safe 3 t ∧ t.getB b CEL.STATUS.PFAIL = true) ∧
       (∀ cause frm, s.cellar.expiry[(4 : Fin 5)] = some (cause, frm) → Answers .watchdogExpiry s fun t =>
         safe 4 t ∧ t.cellar.expiry[(4 : Fin 5)] = none ∧
         (s.cellar.resetDue = none → t.cellar.resetDue = some (4, frm + 20 * us)))) ∧
     (s.cellar.safeN = false ∨ ¬ seen s.cellar.safeAt (8 * ac) → Answers .safeNLow s (· = s)) ∧
     (s.getB b CEL.STATUS.PFAIL = true ∨ ¬ seen s.cellar.pfailAt (3 * cellarCycle) →
       Answers .pfailNFall s (· = s)) ∧
     (s.getF b CEL.ARM_STATE.STATE = 1 → Answers .armWindowExpiry s fun t =>
       code 7 t ∧ t.now = max s.now (edgeDown s.cellar.keyUntil) ∧
       (∀ a : Fin 3, t.aisle[a].armQueue = s.aisle[a].armQueue ++ [0]) ∧
       t.getF b CEL.ARM_CNT.DISARMS = s.getF b CEL.ARM_CNT.DISARMS) ∧
     (s.getF b CEL.ARM_STATE.STATE ≠ 1 → Answers .armWindowExpiry s (· = s)))

/-- The arming conditions (R401, R402, R404, R405, R581): COND follows each condition; one that fails in READY ends it with
code 7, and on the edge of the second key refuses it, unless it is NO_LATCH; a clock that fails ends every other state than
SAFE with code 5; SAFE_N and PFAIL_N that return high, as their filters pass them, leave the hall disarmed. A change of the
arming state takes effect in an aisle when it arrives there (R147, R170, R178, R404): the aisle's comparators latch while
the hall is armed, its legs run no longer where it is not, and every ball shows its safe level; in an aisle that is down it
changes nothing else. Readings of the model: log entries 23. -/
def Obligations.ArmingConditions : Prop :=
  (∀ (s : State),
     let b := CEL.base
     let seen (last : Option Nat) (time : Nat) : Prop := ∀ e, last = some e → e + time ≤ s.now
     let keyed := s.getF b CEL.ARM_STATE.STATE = 2 ∧ ∃ k, s.cellar.keyArm = some k ∧ k.edge = s.now
     (∀ k : Fin 5, Answers (.condChange k) s fun t =>
       t.bit b CEL.ARM_STATE.COND k = s.condition k ∧
       (s.bit b CEL.ARM_STATE.COND k = true → s.condition k = false →
         (k.val ≠ 4 ∨ s.clocksFine = true →
           (s.getF b CEL.ARM_STATE.STATE = 1 →
             t.getF b CEL.ARM_STATE.STATE = 0 ∧ t.getF b CEL.ARM_STATE.LAST_DISARM = 7) ∧
           (keyed → k.val ≠ 3 → t.getF b CEL.ARM_STATE.STATE = 0 ∧ t.getF b CEL.ARM_STATE.LAST_DISARM = 7 ∧
             t.getB b CEL.ARM_STATE.REFUSED = true) ∧
           (s.getF b CEL.ARM_STATE.STATE ≠ 1 → ¬ keyed ∨ k.val = 3 → OnlyFields s t b [CEL.ARM_STATE.COND])) ∧
         (k.val = 4 → s.clocksFine = false → s.getF b CEL.ARM_STATE.STATE ≠ 0 →
           t.getF b CEL.ARM_STATE.STATE = 0 ∧ t.getF b CEL.ARM_STATE.LAST_DISARM = 5)) ∧
       (s.bit b CEL.ARM_STATE.COND k = false ∨ s.condition k = true →
         t.getF b CEL.ARM_STATE.STATE = s.getF b CEL.ARM_STATE.STATE ∧ OnlyFields s t b [CEL.ARM_STATE.COND])) ∧
     (s.cellar.safeN = false → seen s.cellar.safeAt (8 * ac) → Answers .safeNHigh s fun t =>
       t.cellar = { s.cellar with safeN := true, safeAt := some s.now } ∧ t.bit b CEL.ARM_STATE.COND 2 = true ∧
       OnlyFields { s with cellar := t.cellar } t b [CEL.ARM_STATE.COND]) ∧
     (s.cellar.safeN = true ∨ ¬ seen s.cellar.safeAt (8 * ac) → Answers .safeNHigh s (· = s)) ∧
     (s.getB b CEL.STATUS.PFAIL = true → seen s.cellar.pfailAt (3 * cellarCycle) → Answers .pfailNRise s fun t =>
       t.getB b CEL.STATUS.PFAIL = false ∧ t.bit b CEL.ARM_STATE.COND 4 = s.clocksFine ∧
       (s.getF b CEL.ARM_STATE.STATE = 0 → t.getF b CEL.ARM_STATE.STATE = 0)) ∧
     (s.getB b CEL.STATUS.PFAIL = false ∨ ¬ seen s.cellar.pfailAt (3 * cellarCycle) →
       Answers .pfailNRise s (· = s))) ∧
  (∀ (s : State) (a : Fin 3),
     (s.aisle[a].armQueue = [] → Answers (.armingStateArrival a) s (· = s)) ∧
     (∀ (v : BitVec 2) (rest : List (BitVec 2)), s.aisle[a].armQueue = v :: rest →
       (s.aisleUp a = false → Answers (.armingStateArrival a) s fun t =>
         t = { s with aisle := s.aisle.set a { s.aisle[a] with arm := v, armQueue := rest } }) ∧
       (s.aisleUp a = true → Answers (.armingStateArrival a) s fun t =>
         t.aisle[a].arm = v ∧ t.aisle[a].armQueue = rest ∧ t.now = s.now ∧
         (∀ j : Fin 8, t.getB (CMP.base (8 * a.val + j.val)) CMP.STATUS.LATCH_MODE = decide (2 ≤ v.toNat)) ∧
         (v.toNat < 2 → ∀ j : Fin 16,
           let l := 16 * a.val + j.val
           let b := LEG.base l
           t.getB b LEG.STATUS.RUN = false ∧
           t.getB b LEG.STATUS.HI_BALL = (s.cellar.safeLatch.getLsbD (2 * l) && !s.cellar.safeLatch.getLsbD (2 * l + 1)) ∧
           t.getB b LEG.STATUS.LO_BALL = (s.cellar.safeLatch.getLsbD (2 * l + 1) && !s.cellar.safeLatch.getLsbD (2 * l))))))

/-! ### Stall engines -/

/-- Rounding (R116, R220): the rounded quotient is a nearest integer, ties go away from zero, and an exact quotient is
not changed. The arithmetic operations of a program (R218, R220): exact results, rounded once and saturated to Q16.16,
with the second result of a paired form; every saturation sets the run's record; MAC keeps a saturated Q32.32
accumulator; CLAMP, MOV and LDI never set the record. Readings of the model: log entries 40. -/
def Obligations.EngineArithmetic : Prop :=
  (∀ (n : Int) (d : Nat), 0 < d →
     2 * (n - roundAway n d * d).natAbs ≤ d ∧
     (2 * (n - roundAway n d * d).natAbs = d → n.natAbs < (roundAway n d * d).natAbs) ∧
     roundAway (n * d) d = n) ∧
  (∀ (s u : State) (e : Fin 12) (r : EngRun) (o : OpWord), Issues s u e r o →
     let l := moved r.l0
     let a := r.l0.i o.a
     let b := r.l0.i o.b
     let a' := r.l0.i (o.a + 1)
     let b' := r.l0.i (o.b + 1)
     let fit (v : Int) : Int := clampInt (-2147483648) 2147483647 v
     let put (n : Nat) (v : Int) (l : Lane) : Lane := { l with e := l.e.set (Fin.ofNat 32 n) (BitVec.ofInt 32 v) }
     let putSat (n : Nat) (v : Int) (l : Lane) : Lane := { put n (fit v) l with sat := l.sat || decide (fit v ≠ v) }
     let two (v w : Int) : Lane := if o.x.testBit 10 then putSat (o.d + 1) w (putSat o.d v l) else putSat o.d v l
     let wide (v : Int) : Int := clampInt (-(2 ^ 63)) (2 ^ 63 - 1) v
     let sum := (if o.x.testBit 0 then 0 else r.l0.acc[Fin.ofNat 4 o.d]) + a * b
     (o.op = 0x08 → Answers (.engAdd e none) s fun t => Executed u t e r (two (a + b) (a' + b')) 1) ∧
     (o.op = 0x09 → Answers (.engSub e none) s fun t => Executed u t e r (two (a - b) (a' - b')) 1) ∧
     (o.op = 0x0A → Answers (.engMul e none) s fun t =>
       Executed u t e r (two (roundAway (a * b) 65536) (roundAway (a' * b) 65536)) 1) ∧
     (o.op = 0x0B → Answers (.engMac e none) s fun t =>
       Executed u t e r { l with
         acc := l.acc.set (Fin.ofNat 4 o.d) (wide sum), sat := l.sat || decide (wide sum ≠ sum) } 1) ∧
     (o.op = 0x0C → Answers (.engSat e none) s fun t =>
       Executed u t e r (putSat o.d (roundAway r.l0.acc[Fin.ofNat 4 o.a] 65536) l) 1) ∧
     (o.op = 0x0D → Answers (.engClamp e none) s fun t => Executed u t e r (put o.d (min (max a b) b') l) 1) ∧
     (o.op = 0x0E → Answers (.engAbs e none) s fun t => Executed u t e r (putSat o.d a.natAbs l) 1) ∧
     (o.op = 0x04 → Answers (.engMov e none) s fun t => Executed u t e r (put o.d a l) 1) ∧
     (o.op = 0x05 → Answers (.engLdi e none) s fun t =>
       Executed u t e r (put o.d (toSigned 21 (o.a * 2 ^ 16 + o.b * 2 ^ 11 + o.x) * 2 ^ 11) l) 1))

/-- The control operations (R221–R224): the PI term with its integrator and anti-windup, the transforms with their
constants, the space-vector compares clamped to the period, sine and cosine within one step of the exact values, and the
frame angle with its lead. Readings of the model: log entries 1, 40. -/
def Obligations.EngineControl : Prop :=
  ∀ (s u : State) (e : Fin 12) (r : EngRun) (o : OpWord), Issues s u e r o →
    let l := moved r.l0
    let a := r.l0.i o.a
    let b := r.l0.i o.b
    let a' := r.l0.i (o.a + 1)
    let b' := r.l0.i (o.b + 1)
    let fit (v : Int) : Int := clampInt (-2147483648) 2147483647 v
    let put (n : Nat) (v : Int) (l : Lane) : Lane := { l with e := l.e.set (Fin.ofNat 32 n) (BitVec.ofInt 32 v) }
    let putSat (n : Nat) (v : Int) (l : Lane) : Lane := { put n (fit v) l with sat := l.sat || decide (fit v ≠ v) }
    let round (v : Int) : Int := roundAway v 65536
    (o.op = 0x10 → Answers (.engPi e none) s fun t =>
      let p := Fin.ofNat 16 o.x
      let err := a - b
      let hi := r.frame.hi[p].toInt * 65536
      let lo := r.frame.lo[p].toInt * 65536
      let term := r.frame.kp[p].toInt * err
      let sum := r.l0.int[p] + r.frame.ki[p].toInt * err
      let kept := (hi < term + sum ∧ 0 < err) ∨ (term + sum < lo ∧ err < 0)
      let int := min (max (if kept then r.l0.int[p] else sum) lo) hi
      Executed u t e r { put o.d (round (min (max (term + int) lo) hi)) l with int := l.int.set p int } 1) ∧
    (o.op = 0x11 → Answers (.engClarke e none) s fun t =>
      Executed u t e r (putSat (o.d + 1) (round (a * 0x93CD + b * 0x1279A)) (put o.d a l)) 1) ∧
    (o.op = 0x12 → Answers (.engPark e none) s fun t =>
      Executed u t e r (putSat (o.d + 1) (round (a' * b - a * b')) (putSat o.d (round (a * b + a' * b')) l)) 1) ∧
    (o.op = 0x13 → Answers (.engIpark e none) s fun t =>
      Executed u t e r (putSat (o.d + 1) (round (a * b' + a' * b)) (putSat o.d (round (a * b - a' * b')) l)) 1) ∧
    (o.op = 0x14 → Answers (.engSincos e none) s fun t =>
      let q := sincos (r.l0.r o.a)
      Executed u t e r { l with e := (l.e.set (Fin.ofNat 32 o.d) q.1).set (Fin.ofNat 32 (o.d + 1)) q.2 } 8) ∧
    (o.op = 0x15 → Answers (.engNco e none) s fun t =>
      let lead := if o.x.testBit 0 = true ∧ u.getB (ENG.base e) ENG.NCO_CFG.SRC = false then
        roundAway (u.getS (ENG.base e) ENG.NCO_FREQ.FREQ * a * 1000) (2 ^ 32) else 0
      Executed u t e r (put o.d (r.frame.angle.toNat + lead) l) 1) ∧
    (o.op = 0x16 → Answers (.engSvm e none) s fun t =>
      let va := 2 * a * 2 ^ 16
      let vb := -(a * 2 ^ 16) + 2 * (a' * 0xDDB4)
      let vc := -(a * 2 ^ 16) - 2 * (a' * 0xDDB4)
      let mid := max va (max vb vc) + min va (min vb vc)
      let p : Int := r.frame.prd
      let gain : Int := (r.l0.r o.b).toNat
      let c (v : Int) : Int := clampInt 0 (p * 65536) (roundAway (p * (2 ^ 57 + gain * (2 * v - mid))) (2 ^ 42))
      Executed u t e r (put (o.d + 2) (c vc) (put (o.d + 1) (c vb) (put o.d (c va) l))) 1)

/-- The data operations (R215, R225–R229): loads from the frame, of the comparators and of a neighbour's results, live in a
first execution and as kept for a re-run, with an edge of wait where the port is taken; stores, mailbox words, marks and trips as output records in order; branches forward over
the entries skipped; END. Readings of the model: log entries 40. -/
def Obligations.EngineData : Prop :=
  ∀ (s u : State) (e : Fin 12) (r : EngRun) (o : OpWord), Issues s u e r o →
    let l := moved r.l0
    let n := bitsOf o.x 5 4 + 1
    let i := bitsOf o.x 2 0
    let cls := bitsOf o.x 10 8
    let load (f : Nat → Word) : Lane := l.putAll o.d ((List.range n).map f)
    let read (live : List Word) : List Word := ((r.kept.find? fun p => p.1 == r.l0.pc).map Prod.snd).getD live
    (o.op = 0x00 → Answers (.engEnd e) s fun t => Executed u t e r { l with done := true } 0) ∧
    (o.op = 0x01 → Answers (.engLd e none) s fun t =>
      (cls = 0 → Executed u t e r (load fun j => r.frame.result[Fin.ofNat 8 (i + j)]) 1) ∧
      (cls = 1 → Executed u t e r (load fun j => r.frame.avg[Fin.ofNat 8 (i + j)]) 1) ∧
      (cls = 2 → Executed u t e r (l.putAll o.d (read [BitVec.ofNat 32 (u.cmpWord e)])) 1)) ∧
    (o.op = 0x02 →
      (u.ldrWaits e r = false → Answers (.engLdr e none) s fun t =>
        let f := if cls = 0 then CNV.RESULT.VALUE else CNV.AVG.VALUE
        Executed u t e r (l.putAll o.d (read ((List.range n).map fun j =>
          u.rd (CNV.base (4 * (e.val / 4) + bitsOf o.x 7 6) + (f.at (4 * (i + j))).off)))) 1) ∧
      (u.ldrWaits e r = true → r.first = none ∧ Answers (.engLdr e none) s fun t =>
        Executed u t e r r.l0 1 ∧ ∃ q, t.eng[e].run = some q ∧ q.waited = true)) ∧
    (o.op = 0x03 → Answers (.engLdm e none) s fun t =>
      Executed u t e r (load fun j => r.frame.mbx[Fin.ofNat 16 (bitsOf o.x 3 0 + j)]) 1) ∧
    (∀ c ∈ [(0x18, Instr.engSt e none, false), (0x19, .engSti e none, true)], o.op = c.1 → Answers c.2.1 s fun t =>
      let value (j : Nat) : Nat :=
        let v := r.l0.r (o.d + j)
        if o.x.testBit 9 = false ∧ v.toInt < 0 then 0 else min ((v.toNat + 512) / 1024) 0x3FFFFF
      let shadows : List (Fin 4) :=
        match bitsOf o.x 6 4 with
        | 0 => [0] | 1 => [1] | 2 => [0, 1] | 3 => [2] | 4 => [3] | _ => [2, 3]
      Executed u t e r { l with recs := l.recs ++ ((List.range (bitsOf o.x 8 7 + 1)).flatMap fun j =>
        shadows.map fun k => .store (16 * (e.val / 4) + bitsOf o.x 3 0 + j) k (value j) c.2.2) } 1) ∧
    (o.op = 0x1A → Answers (.engSto e none) s fun t =>
      Executed u t e r { l with recs := l.recs ++ ((List.range n).map fun j =>
        .word (bitsOf o.x 3 0 + j) (r.l0.r (o.d + j))) } 1) ∧
    (o.op = 0x1B → Answers (.engTrip e none) s fun t => Executed u t e r { l with recs := l.recs ++ [.trip] } 1) ∧
    (o.op = 0x1C → Answers (.engMark e none) s fun t =>
      Executed u t e r { l with recs := l.recs ++ [.mark (bitsOf o.x 7 0) (r.l0.r o.d)] } 1) ∧
    (o.op = 0x20 → Answers (.engBrf e none) s fun t =>
      let a := r.l0.r o.a
      let b := r.l0.r o.b
      let taken : Bool :=
        match o.d % 8 with
        | 0 => true | 1 => decide (a = b) | 2 => decide (a ≠ b) | 3 => decide (a.toInt < b.toInt)
        | 4 => decide (b.toInt ≤ a.toInt) | 5 => a.getLsbD o.b | 6 => !a.getLsbD o.b | _ => r.l0.sat
      let pc := r.l0.pc + 1 + taken.toNat * bitsOf o.x 6 0
      Executed u t e r { l with pc := pc, done := decide (127 < pc) } 1)

/-- How a run starts (R212–R214, R223, R230, R241): CMD.START and a scan-complete start a run of an engine that is
enabled and not frozen, whose first operation comes two edges later, or ten with SCPRE for CMD.START; both on one edge are
one trigger; one that finds a run which does not leave in time is lost and counted, one that finds a run which leaves in
time waits and is accepted as that run leaves. A scan-complete also counts the scan and sends its pulse. The capture: the
results are those after the edge of the trigger, the rest of the frame, the committed registers that the lanes start from
and a publish that waits are taken after the edge that follows it. Readings of the model: log entries 40. -/
def Obligations.EngineStarts : Prop :=
  (∀ (s : State) (init : Fin 16),
    let open_ (u : State) (e : Nat) : Prop :=
      u.getB (ENG.base e) ENG.CTRL.ENABLE = true ∧ u.getB (STL.base e) STL.DBG.FREEZE = false
    let started (u : State) (e : Fin 12) (scan : Option (Nat × Word)) (t : State) : Prop :=
      t.getF (ENG.base e) ENG.RUN_CNT.COUNT = (u.getF (ENG.base e) ENG.RUN_CNT.COUNT + 1) % 2 ^ 32 ∧
      ∃ q, t.eng[e].run = some q ∧ q.trig.edge = t.now ∧ q.trig.scan = scan.isSome ∧
        (∀ x, scan = some x → q.trig.time = x.1 ∧ q.trig.angle = x.2) ∧
        (scan = none → q.trig.time = u.marketUnits ∧ q.trig.angle = u.ncoAngle e) ∧
        q.next = t.now + (if scan = none ∧ u.getB (ENG.base e) ENG.CTRL.SCPRE = true then 10 else 2) * ac ∧
        q.captured = .triggered ∧ q.len = 0 ∧ q.first = none ∧ q.missed = false
    let lost (u : State) (e : Fin 12) (t : State) : Prop :=
      t.getF (ENG.base e) ENG.CNT.START_LOST = min (u.getF (ENG.base e) ENG.CNT.START_LOST + 1) 0xFFFF ∧
      OnlyFields { u with eng := t.eng } t (ENG.base e) [ENG.CNT.START_LOST] ∧ t.eng[e] = u.eng[e]
    (∀ e : Fin 12, Reaches s (ENG.base e + ENG.CMD.W.off) →
      let u := s.settle
      (¬ open_ u e → Answers (.start init e) s fun t => t = u) ∧
      (open_ u e →
        (u.eng[e].run = none → Answers (.start init e) s (started u e none)) ∧
        (∀ r, u.eng[e].run = some r →
          let leaves := r.next < u.now + ac ∨
            (r.next = u.now + ac ∧ (r.ended = true ∨ u.nextIllegal e r = true ∨ (u.nextOp e r).op = 0))
          (r.trig.edge = u.now → Answers (.start init e) s fun t => t = u) ∧
          (r.trig.edge ≠ u.now →
            (u.eng[e].trig = none → leaves → Answers (.start init e) s fun t =>
              t = { u with eng := t.eng } ∧ t.eng[e].run = u.eng[e].run ∧
              ∃ q, t.eng[e].trig = some q ∧ q.edge = u.now ∧ q.scan = false) ∧
            (u.eng[e].trig = none → ¬ leaves → Answers (.start init e) s (lost u e)) ∧
            (∀ p, u.eng[e].trig = some p → p.edge = u.now → Answers (.start init e) s fun t => t = u) ∧
            (∀ p, u.eng[e].trig = some p → p.edge ≠ u.now → Answers (.start init e) s (lost u e)))))) ∧
    (∀ (k : Fin 12) (x : Scan), s.cnv[k].scan = some x → x.idx = x.elems.length → x.conv = none →
      let u := s.aisleTime x.completeAt
      let time := if x.angled then x.aptTime else u.marketAt x.apt
      let angles := if x.angled then x.angles else u.anglesAt (k / 4) x.apt
      Answers (.scanComplete k) s fun t =>
        t.now = max s.now (edgeDown x.completeAt) ∧ t.cnv[k].scan = none ∧ 3 + 4 * k.val ∈ t.crier.launched ∧
        t.getF (CNV.base k) CNV.SCAN_CNT.COUNT = (s.getF (CNV.base k) CNV.SCAN_CNT.COUNT + 1) % 2 ^ 32 ∧
        (2 ^ s.getF (CNV.base k) CNV.CTRL.AVG_N ≤ s.cnv[k].avgScans + 1 → ∀ i : Fin 8, i.val ∈ x.elems → (∀ j ∈ x.elems, j < 8) →
          t.getF (CNV.base k) (CNV.AVG.VALUE.at (4 * i)) =
            ofSigned 32 (roundAway s.cnv[k].avgSum[i] (2 ^ s.getF (CNV.base k) CNV.CTRL.AVG_N))) ∧
        (∀ e : Fin 12, e.val / 4 = k.val / 4 → u.getB (ENG.base e) ENG.CTRL.TRIG_EN = true →
          u.getF (ENG.base e) ENG.CTRL.TRIG_K = k.val % 4 → open_ u e → u.eng[e].run = none →
          started u e (some (time, angles[Fin.ofNat 4 e])) t)) ∧
    (∀ (u : State) (e : Fin 12) (r : EngRun) (q : Trigger), Comes s u e r → u.eng[e].trig = some q → r.l0.done = true →
      r.l1.done = true → r.first = none → r.l0.result = r.l1.result → r.next ≤ q.edge + ac →
      Answers (.resultRelease e) s fun t =>
        t.eng[e].trig = none ∧ (∃ z, t.eng[e].run = some z ∧ z.trig = q ∧ z.len = 0 ∧ z.first = none ∧
          z.captured = .triggered) ∧
        t.getF (ENG.base e) ENG.RUN_CNT.COUNT = (u.getF (ENG.base e) ENG.RUN_CNT.COUNT + 1) % 2 ^ 32)) ∧
  (∀ (s : State) (e : Fin 12) (r : EngRun), s.eng[e].run = some r → r.captured = .triggered →
    let b := ENG.base e
    let t := s.runTime e
    (s.now ≤ r.trig.edge → ∃ q, t.eng[e].run = some q ∧ q = { r with target := q.target }) ∧
    (r.trig.edge < s.now → ∃ q, t.eng[e].run = some q ∧
      ∀ i : Fin 8, q.frame.result[i] = s.rd (CNV.base e + (CNV.RESULT.VALUE.at (4 * i)).off) ∧
        q.frame.avg[i] = s.rd (CNV.base e + (CNV.AVG.VALUE.at (4 * i)).off)) ∧
    (r.trig.edge + ac < s.now → t.getB b ENG.MBX_STATUS.PUB_PEND = false ∧ ∃ q, t.eng[e].run = some q ∧
      q.captured = .all ∧ q.l0 = q.base ∧ q.l1 = q.base ∧ q.base.pc = s.getF b ENG.CTRL.ENTRY ∧ q.base.sat = false ∧
      q.base.recs = [] ∧ q.frame.angle = r.trig.angle ∧ q.frame.prd = s.prd (s.carOf e) ∧
      (∀ m : Fin 16,
        q.frame.mbx[m] = (if s.getB b ENG.MBX_STATUS.PUB_PEND then s.rd (b + (ENG.MBX_IN.VALUE.at (4 * m)).off)
          else s.rd (b + (ENG.MBX_IN_RD.VALUE.at (4 * m)).off)) ∧
        q.frame.kp[m] = s.rd (b + (ENG.PI_KP.VALUE.at (32 * m)).off) ∧
        q.frame.ki[m] = s.rd (b + (ENG.PI_KI.VALUE.at (32 * m)).off) ∧
        q.frame.hi[m] = s.rd (b + (ENG.PI_HI.VALUE.at (32 * m)).off) ∧
        q.frame.lo[m] = s.rd (b + (ENG.PI_LO.VALUE.at (32 * m)).off)) ∧
      (∀ n : Fin 32, n.val < 30 ∨ s.getB b ENG.CTRL.SCPRE = false → q.base.e[n] = s.rd (b + (ENG.E.W.at (4 * n)).off)) ∧
      (s.getB b ENG.CTRL.SCPRE = true → (q.base.e[(30 : Fin 32)], q.base.e[(31 : Fin 32)]) = sincos q.frame.angle)))

/-- How a result leaves (R90, R91, R211, R232–R237): lanes that agree release their result, which is committed and lands
2 ac later unless a fault's policy drops it; lanes that disagree run again, and a re-run that agrees is voted with the two
lanes of the first execution; three different working states, or a re-run that disagrees too, fail the vote. A failed vote,
a saturated result, a missed deadline and an illegal word latch their faults, and the TRIP policy raises the trip request
on the edge after. Readings of the model: log entries 40. -/
def Obligations.EngineResults : Prop :=
  (∀ (s u : State) (e : Fin 12) (r : EngRun), Comes s u e r → u.eng[e].trig = none →
    let b := ENG.base e
    let trips (t : State) (edge : Nat) : Prop := edge ∈ t.eng[e].trips
    let kept (t : State) : Prop := (∀ n : Fin 32, t.getF b (ENG.E.VALUE.at (4 * n)) = u.getF b (ENG.E.VALUE.at (4 * n))) ∧
      t.eng[e].landing = u.eng[e].landing
    let inTime := r.missed = false ∧ ∀ d, u.runTarget e r = some d → r.next ≤ d
    let released (x : LaneResult) (t : State) : Prop :=
      t.eng[e].run = none ∧ t.getF b ENG.LAST.LEN = r.len % 4096 ∧
      (x.sat = true → t.getB b ENG.FAULT.SAT_EVENT = true) ∧
      (r.missed = false → ¬ inTime → t.getB b ENG.FAULT.DEADLINE_MISS = true) ∧
      (inTime ∨ u.getF b ENG.POLICY.DEADLINE = 0 → x.sat = false ∨ u.getF b ENG.POLICY.SAT = 0 →
        (∀ n : Fin 32, t.getF b (ENG.E.VALUE.at (4 * n)) = x.e[n].toNat) ∧
        (∀ k : Fin 4, t.get64 b (ENG.ACC_LO.VALUE.at (8 * k)) (ENG.ACC_HI.VALUE.at (8 * k)) = ofSigned 64 x.acc[k]) ∧
        (∀ p : Fin 16, t.get64 b (ENG.INT_LO.VALUE.at (32 * p)) (ENG.INT_HI.VALUE.at (32 * p)) = ofSigned 64 x.int[p]) ∧
        t.eng[e].landing = (if x.recs = [] then u.eng[e].landing else some (r.next + 2 * ac, x.recs)) ∧
        (OutRec.trip ∈ x.recs → t.getB b ENG.FAULT.TRIP_OP = true ∧ trips t (r.next + ac))) ∧
      (x.sat = true → 0 < u.getF b ENG.POLICY.SAT → kept t) ∧
      (x.sat = true → 2 ≤ u.getF b ENG.POLICY.SAT → trips t (r.next + ac)) ∧
      (¬ inTime → 0 < u.getF b ENG.POLICY.DEADLINE → kept t)
    let failed (t : State) : Prop :=
      t.getB b ENG.FAULT.VOTE_FAIL = true ∧ t.eng[e].run = none ∧ kept t ∧
      (2 ≤ u.getF b ENG.POLICY.VOTE → trips t (r.next + ac))
    (r.l0.done = true → r.l1.done = true → r.first = none →
      (r.l0.result = r.l1.result → Answers (.resultRelease e) s (released r.l0.result)) ∧
      (r.l0.result ≠ r.l1.result → Answers (.resultRelease e) s fun t =>
        t.getF b ENG.CNT.MISMATCH_CNT = min (u.getF b ENG.CNT.MISMATCH_CNT + 1) 0xFFFF ∧
        t.eng[e].run = some { r with first := some (r.l0, r.l1), l0 := r.base, l1 := r.base, next := r.next + ac } ∧
        t.eng[e].landing = u.eng[e].landing ∧ OnlyFields { u with eng := t.eng } t b [ENG.CNT.MISMATCH_CNT])) ∧
    (∀ x y, r.l0.done = true → r.l1.done = true → r.first = some (x, y) →
      let z := r.l0.result
      (z = r.l1.result →
        (x.result = z ∨ y.result = z ∨ x.result = y.result →
          Answers (.vote e) s (released (if x.result = y.result then x.result else z))) ∧
        ((x.e, x.acc, x.int) ≠ (y.e, y.acc, y.int) → (x.e, x.acc, x.int) ≠ (z.e, z.acc, z.int) →
          (y.e, y.acc, y.int) ≠ (z.e, z.acc, z.int) → Answers (.vote e) s failed)) ∧
      (z ≠ r.l1.result → Answers (.vote e) s failed)) ∧
    (∀ secded : Bool, r.ended = false → r.captured = .all →
      secded = true ∨ (∃ l ∈ [r.l0, r.l1], l.done = false ∧ (u.progWord e l.pc).legal = false) →
      Answers (.illop e secded) s fun t =>
        t.getB b ENG.FAULT.ILLOP = true ∧ t.eng[e].run = none ∧ t.now = u.now ∧ trips t (r.next + ac) ∧
        OnlyFields { u with eng := t.eng } t b [ENG.FAULT.ILLOP])) ∧
  (∀ (s : State) (e : Fin 12) (r : EngRun) (d : Nat), s.eng[e].run = some r → s.runTarget e r = some d → r.missed = false →
    let b := ENG.base e
    let u := s.aisleTime (d + ac)
    Answers (.deadlineMiss e) s fun t =>
      t.getB b ENG.FAULT.DEADLINE_MISS = true ∧ t.now = max s.now (edgeDown (d + ac)) ∧
      t.eng[e].run = u.eng[e].run.map (fun q => { q with missed := true }) ∧
      (2 ≤ u.getF b ENG.POLICY.DEADLINE → d + ac ∈ t.eng[e].trips) ∧
      (u.getF b ENG.POLICY.DEADLINE < 2 → t.eng[e].trips = u.eng[e].trips) ∧
      OnlyFields { u with eng := t.eng } t b [ENG.FAULT.DEADLINE_MISS])

/-- Commands of an engine (R223, R230, R235, R237, R241): FLT_REL clears the faults it names; TRIP_REL ends a trip
request that was raised before; one that has latched or was raised on the edge of the command stays; PUBLISH waits for the
next capture, or copies at once while ENABLE is 0; a write of NCO_PHASE sets the angle, one of NCO_FREQ leaves it
continuous; a hall that is armed refuses to freeze an engine. Readings of the model: log entries 40. -/
def Obligations.EngineCommands : Prop :=
  ∀ (s : State) (init : Fin 16) (e : Fin 12),
    let b := ENG.base e
    let faults : Fld := ⟨ENG.FAULT.W.off, 4, 0⟩
    (Reaches s (b + ENG.CMD.W.off) →
      (∀ mask : BitVec 5, Answers (.fltRel init e mask) s fun t =>
        (∀ i : Fin 5, t.bit b faults i =
          if mask.getLsbD i then s.marked b ⟨ENG.FAULT.W.off, i, i⟩ else s.bit b faults i) ∧ OnlyFields s t b [faults]) ∧
      (Answers (.tripRel init e) s fun t =>
        t.eng[e].trips = s.eng[e].trips.filter (fun u => decide (s.now ≤ u)) ∧
        ((∀ u ∈ s.eng[e].trips, u ≠ s.now) → t.srcAct (32 + e) = false) ∧
        (s.now ∈ s.eng[e].trips → s.srcBlanked (32 + e) (e / 4) = false → t = { s with eng := t.eng })) ∧
      (s.settle.getB b ENG.CTRL.ENABLE = true → Answers (.publish init e) s fun t =>
        t.getB b ENG.MBX_STATUS.PUB_PEND = true ∧ OnlyFields s.settle t b [ENG.MBX_STATUS.PUB_PEND]) ∧
      (s.settle.getB b ENG.CTRL.ENABLE = false → Answers (.publish init e) s fun t =>
        let u := s.settle
        (∀ m : Fin 16, t.getF b (ENG.MBX_IN_RD.VALUE.at (4 * m)) = u.getF b (ENG.MBX_IN.VALUE.at (4 * m)) ∧
          t.getF b (ENG.MBX_IN.VALUE.at (4 * m)) = u.getF b (ENG.MBX_IN.VALUE.at (4 * m))) ∧
        t.getB b ENG.MBX_STATUS.PUB_PEND = false ∧
        OnlyFields u t b (ENG.MBX_STATUS.PUB_PEND :: (List.range 16).map fun m => ENG.MBX_IN_RD.VALUE.at (4 * m)))) ∧
    (∀ value : Word, Reaches s (b + ENG.NCO_PHASE.W.off) → Answers (.ncoPhase init e value) s fun t =>
      t.rd (b + ENG.NCO_PHASE.W.off) = value ∧ (s.getB b ENG.NCO_CFG.SRC = false → t.ncoAngle e = value) ∧
      OnlyFields { s with eng := t.eng } t b [ENG.NCO_PHASE.PHASE]) ∧
    (∀ value : Word, Reaches s (b + ENG.NCO_FREQ.W.off) → Answers (.ncoFreq init e value) s fun t =>
      t.rd (b + ENG.NCO_FREQ.W.off) = value ∧ (s.getB b ENG.NCO_CFG.SRC = false → t.ncoAngle e = s.ncoAngle e) ∧
      OnlyFields { s with eng := t.eng } t b [ENG.NCO_FREQ.FREQ]) ∧
    (∀ value : Word, Reaches s (STL.base e + STL.DBG.W.off) → Answers (.freeze init e value) s fun t =>
      let armed := 2 ≤ s.getF CEL.base CEL.ARM_STATE.STATE
      (value.toNat.testBit 0 = true → armed → t.getB (STL.base e) STL.DBG.FREEZE = s.getB (STL.base e) STL.DBG.FREEZE ∧
        (s.getB (STL.base e) STL.DBG.FREEZE = false → t.getB (STL.base e) STL.DBG.FRZ_REFUSED = true)) ∧
      (value.toNat.testBit 0 = false ∨ ¬ armed →
        t.getB (STL.base e) STL.DBG.FREEZE = value.toNat.testBit 0 ∧
        t.getB (STL.base e) STL.DBG.FRZ_REFUSED = s.getB (STL.base e) STL.DBG.FRZ_REFUSED) ∧
      OnlyRegs { s with warranted := t.warranted } t (At (STL.base e) STL.DBG.W))

/-! ### Cores -/

/-- Moves, arithmetic and logic (R281, R285, R288, R291): what each instruction writes, which flags it sets and from
what; every other register, flag and part of the hall stays. Readings of the model: log entries 41, 42. -/
def Obligations.CoreArithmetic : Prop :=
  ∀ (s : State) (c : Fin 4) (x : Core) (d n : Fin 16) (f : BitVec 4) (ext : Option (BitVec 12)),
    let a := x.get d
    let b := x.get n
    let e : Word := match ext with
      | none => f.signExtend 32
      | some p => BitVec.signExtend 32 (p ++ f)
    let h : BitVec 16 := match ext with
      | none => f.setWidth 16
      | some p => p ++ f
    let len := 1 + ext.isSome.toNat
    let sum (v : Word) : Word := nzcv (a + v) (2 ^ 32 ≤ a.toNat + v.toNat) (overflows (a.toInt + v.toInt))
    let difference : Word := nzcv (a - b) (a.toNat < b.toNat) (overflows (a.toInt - b.toInt))
    let nz (r : Word) : Core := (flagged x 0xC (nzcv r false false)).put d r
    let size : Word := if a = 0x80000000 then 0x7FFFFFFF else BitVec.ofNat 32 a.toInt.natAbs
    let q := roundAway (a.toInt * b.toInt) 65536
    let q' := BitVec.ofInt 32 (clampInt (-2147483648) 2147483647 q)
    (Stands s c x 1 false →
      (∀ i ∈ [(Instr.xMov c d n, x.put d b),
          (.xAdd c d n, (flagged x 0xF (sum b)).put d (a + b)),
          (.xSub c d n, (flagged x 0xF difference).put d (a - b)),
          (.xCmp c d n, flagged x 0xF difference),
          (.xAnd c d n, nz (a &&& b)), (.xOr c d n, nz (a ||| b)), (.xXor c d n, nz (a ^^^ b)),
          (.xNot c d, nz (~~~a)),
          (.xNeg c d, (flagged x 0xF (nzcv (0 - a) (0 < a.toNat) (overflows (-a.toInt)))).put d (0 - a)),
          (.xAbs c d, (flagged x 0xD (nzcv size false (a == 0x80000000))).put d size),
          (.xSextb c d, nz ((a.setWidth 8).signExtend 32)), (.xSexth c d, nz ((a.setWidth 16).signExtend 32)),
          (.xZextb c d, nz ((a.setWidth 8).setWidth 32)), (.xZexth c d, nz ((a.setWidth 16).setWidth 32)),
          (.xMul c d n, nz (BitVec.ofNat 32 (a.toNat * b.toNat))),
          (.xQmul c d n, (flagged x 0xD (nzcv q' false (overflows q))).put d q'),
          (.xNop c, x)], Runs1 i.1 s c x 1 i.2) ∧
      ∃ k ≤ 32, (∀ j < k, a.getLsbD (31 - j) = false) ∧ (k < 32 → a.getLsbD (31 - k) = true) ∧
        Runs1 (.xClz c d) s c x 1 ((flagged x 4 (if k = 0 then 4 else 0)).put d (BitVec.ofNat 32 k))) ∧
    (Stands s c x len ext.isSome →
      Runs1 (.xMovi c d f ext) s c x len (x.put d e) ∧
      Runs1 (.xMovhi c d f ext) s c x len (x.put d (BitVec.ofNat 32 (h.toNat * 65536 + a.toNat % 65536))) ∧
      Runs1 (.xAddi c d f ext) s c x len ((flagged x 0xF (sum e)).put d (a + e)))

/-- Shifts, multiply-accumulate and division (R281, R286, R290, R291): the result and the last bit shifted out, amounts
above 32 included; the saturated accumulator; quotient and remainder from the old values; and the operands that raise a
cause and write nothing. Readings of the model: log entries 41, 42. -/
def Obligations.CoreShiftsAndDivision : Prop :=
  ∀ (s : State) (c : Fin 4) (x : Core) (d n : Fin 16) (f : BitVec 4) (ext : Option (BitVec 12)),
    let a := x.get d
    let b := x.get n
    let len := 1 + ext.isSome.toNat
    let amount := 16 * (ext.getD 0).toNat + f.toNat
    let put (r : Word) (k : Nat) (out : Bool) : Core := (flagged x (if k = 0 then 0xC else 0xE) (nzcv r out false)).put d r
    let left (k : Nat) : Core := put (BitVec.ofNat 32 (a.toNat * 2 ^ k)) k (decide (k ≤ 32) && a.getLsbD (32 - k))
    let right (k : Nat) : Core := put (BitVec.ofNat 32 (a.toNat / 2 ^ k)) k (decide (k ≤ 32) && a.getLsbD (k - 1))
    let arith (k : Nat) : Core :=
      put (BitVec.ofInt 32 (a.toInt / 2 ^ k)) k (if k ≤ 32 then a.getLsbD (k - 1) else a.msb)
    let sum := toSigned 64 (a.toNat + 2 ^ 32 * (x.get (d + 1)).toNat) + b.toInt * (x.get (n + 1)).toInt
    let sat := clampInt (-(2 ^ 63)) (2 ^ 63 - 1) sum
    let q := BitVec.ofInt 32 (a.toInt.tdiv b.toInt)
    let r := BitVec.ofInt 32 (a.toInt.tmod b.toInt)
    (Stands s c x 1 false →
      (∀ i ∈ [(Instr.xShl c d n, left (b.toNat % 256)), (.xShr c d n, right (b.toNat % 256)),
        (.xAsr c d n, arith (b.toNat % 256))], Runs1 i.1 s c x 1 i.2) ∧
      (d.val % 2 = 0 → n.val ≠ 15 → (n.val + 1 < d.val ∨ d.val + 1 < n.val) →
        Runs1 (.xQmac c d n) s c x 1 (((if sat ≠ sum then flagged x 1 1 else x).put d (BitVec.ofInt 32 sat)).put (d + 1)
          (BitVec.ofInt 32 (sat / 2 ^ 32)))) ∧
      (d.val % 2 = 1 ∨ n.val = 15 ∨ (n.val ≤ d.val + 1 ∧ d.val ≤ n.val + 1) → Raises (.xQmac c d n) s c x 1 0x01) ∧
      (d.val ≠ 15 → b ≠ 0 →
        Runs1 (.xDivs c d n) s c x 1 (((flagged x 0xD (nzcv q false (a == 0x80000000 && b == 0xFFFFFFFF))).put d q).put (d + 1) r) ∧
        Runs1 (.xDivu c d n) s c x 1 (((flagged x 0xD (nzcv (BitVec.ofNat 32 (a.toNat / b.toNat)) false false)).put d
          (BitVec.ofNat 32 (a.toNat / b.toNat))).put (d + 1) (BitVec.ofNat 32 (a.toNat % b.toNat)))) ∧
      ∀ i ∈ [Instr.xDivs c d n, .xDivu c d n],
        (d.val = 15 → Raises i s c x 1 0x01) ∧ (d.val ≠ 15 → b = 0 → Raises i s c x 1 0x0B)) ∧
    (Stands s c x len ext.isSome →
      (amount < 32 → ∀ i ∈ [(Instr.xShli c d f ext, left amount), (.xShri c d f ext, right amount),
        (.xAsri c d f ext, arith amount)], Runs1 i.1 s c x len i.2) ∧
      (32 ≤ amount → ∀ i ∈ [Instr.xShli c d f ext, .xShri c d f ext, .xAsri c d f ext], Raises i s c x len 0x01))

/-- Packed decimal (R273): the decimal value of each result, the flags it sets, and cause 0x0C for a digit above 9 of a
source that is checked. Readings of the model: log entries 41, 42. -/
def Obligations.CoreDecimal : Prop :=
  ∀ (s : State) (c : Fin 4) (x : Core) (d n : Fin 16), Stands s c x 1 false →
    let a := x.get d
    let b := x.get n
    let k := x.dc.toNat
    let dz (dc z : Bool) : Core := flagged x 0x14 (BitVec.ofNat 32 (16 * dc.toNat + 4 * z.toNat))
    let digits (r : Word) (v : Nat) : Prop := decimalOk r = true ∧ decimalValue r = v
    (decimalOk a = true → decimalOk b = true →
      (∀ i ∈ [(Instr.xDadd c d n, 0), (.xDaddC c d n, k)],
        let v := decimalValue a + decimalValue b + i.2
        ∃ r, digits r (v % 10 ^ 8) ∧ Runs1 i.1 s c x 1 ((dz (10 ^ 8 ≤ v) (r == 0)).put d r)) ∧
      (∀ i ∈ [(Instr.xDsub c d n, 0), (.xDsubC c d n, k)],
        let w := decimalValue b + i.2
        ∃ r, digits r ((decimalValue a + 10 ^ 8 - w) % 10 ^ 8) ∧
          Runs1 i.1 s c x 1 ((dz (decimalValue a < w) (r == 0)).put d r)) ∧
      Runs1 (.xDcmp c d n) s c x 1 (flagged x 6 (BitVec.ofNat 32
        (4 * (decide (decimalValue a = decimalValue b)).toNat + 2 * (decide (decimalValue a < decimalValue b)).toNat)))) ∧
    ((decimalOk a && decimalOk b) = false → ∀ i ∈ [Instr.xDadd c d n, .xDaddC c d n, .xDsub c d n, .xDsubC c d n, .xDcmp c d n],
      Raises i s c x 1 0x0C) ∧
    (∃ r dc, digits r (decimalValue a - 10 ^ 8 * dc.toNat) ∧ 10 ^ 8 * dc.toNat ≤ decimalValue a ∧
      Runs1 (.xDadj c d) s c x 1 ((dz dc (r == 0)).put d r)) ∧
    (decimalOk a = true → Runs1 (.xD2b c d) s c x 1
      ((flagged x 4 (if decimalValue a = 0 then 4 else 0)).put d (BitVec.ofNat 32 (decimalValue a)))) ∧
    (decimalOk a = false → Raises (.xD2b c d) s c x 1 0x0C) ∧
    ∃ r, digits r (a.toNat % 10 ^ 8) ∧ Runs1 (.xB2d c d) s c x 1 ((dz (10 ^ 8 ≤ a.toNat) (r == 0)).put d r)

/-- Branches (R249–R253, R258, R287, R303): where each goes, decided before its delay slot; the slot executes, and only
then does execution go there, the window move and the return address appear; CALL overflows and RET underflows as the
spec says; an excluded instruction in a slot raises 0x01. Readings of the model: log entries 41, 42, 45. -/
def Obligations.CoreBranches : Prop :=
  ∀ (s : State) (c : Fin 4) (x : Core) (d n : Fin 16) (cond : Fin 7) (disp : BitVec 8) (ext : Option (BitVec 12))
    (target : BitVec 24),
    let len := 1 + ext.isSome.toNat
    let word := x.pc + BitVec.ofNat 24 ext.isSome.toNat
    let away : BitVec 24 := match ext with
      | none => disp.signExtend 24
      | some p => BitVec.signExtend 24 (p ++ disp)
    let flag (i : Nat) : Bool := x.st.getLsbD i
    let met : Bool := match cond with
      | 0 => flag 2 | 1 => !flag 2 | 2 => flag 3 != flag 0 | 3 => flag 3 == flag 0 | 4 => flag 1 | 5 => !flag 1 | 6 => flag 0
    let slot (len : Nat) (p : BitVec 2) (to_ : Option (BitVec 24)) (b : List (BitVec 24 × BitVec 24)) : Core :=
      retired x { x with slot := some ⟨to_, p, x.pc⟩, btb := b } len
    let taken (i : Instr) (len : Nat) (word : BitVec 24) (p : BitVec 2) (to_ : BitVec 24) : Prop :=
      Executes i s c fun t => t = (State.traceItem { s with replay := t.replay } c 1 word.toNat to_.toNat).modCore c fun _ =>
        slot len p (some to_) ((x.btb.filter fun e => e.1.extractLsb' 4 8 != word.extractLsb' 4 8) ++ [(word, to_)])
    (Stands s c x len ext.isSome →
      (met = true → taken (.xBcc c cond disp ext) len word 0 (word + 1 + away)) ∧
      (met = false → Executes (.xBcc c cond disp ext) s c fun t =>
        t = State.modCore { s with replay := t.replay } c fun _ => slot len 0 none (x.btb.filter fun e => e.1 != word)) ∧
      taken (.xBra c disp ext) len word 0 (word + 1 + away)) ∧
    (Stands s c x 1 false →
      taken (.xJmp c n) 1 x.pc 0 ((x.get n).setWidth 24) ∧
      (x.resident + 1 ≤ 22 + x.setsInUse → taken (.xCallr c n) 1 x.pc 1 ((x.get n).setWidth 24)) ∧
      (22 + x.setsInUse < x.resident + 1 → Raises (.xCallr c n) s c x 1 0x07) ∧
      Executes (.xRet c) s c fun t =>
        let to_ : BitVec 24 := (x.get 7).setWidth 24
        t = (State.traceItem { s with replay := t.replay } c 1 x.pc.toNat to_.toNat).modCore c fun _ => slot 1 2 (some to_) x.btb) ∧
    (Stands s c x 2 false →
      (x.resident + 1 ≤ 22 + x.setsInUse → taken (.xCall c target) 2 x.pc 1 target) ∧
      (22 + x.setsInUse < x.resident + 1 → Raises (.xCall c target) s c x 2 0x07)) ∧
    ∀ sl : Slot, Reaches1 s c x 1 false → x.slot = some sl → x.lockLeft = 0 → x.atAnyLe = false →
      let y := x.put d (x.get n)
      let next := sl.target.getD (x.pc + 1)
      let done (y : Core) : Core := { retired x y 1 with slot := none, pc := next }
      let moves (z : Core) : Prop := Executes (.xMov c d n) s c fun t =>
        t = State.modCore { s with replay := t.replay } c fun _ => done z
      (sl.pend = 0 → moves y) ∧
      (sl.pend = 1 →
        let z := { y.setFrm ((x.frm + 1) % 32) with returns := ((x.pc + 1) :: x.returns).take 4 }
        moves (z.put 7 ((x.pc + 1).setWidth 32))) ∧
      (sl.pend = 2 → x.frm ≠ x.wb.toNat % 32 → moves { y.setFrm ((x.frm + 31) % 32) with returns := x.returns.tail }) ∧
      (sl.pend = 2 → x.frm = x.wb.toNat % 32 → Executes (.xMov c d n) s c fun t =>
        t = (State.modCore { s with replay := t.replay } c fun _ => done { y with returns := x.returns.tail }).takeException c
          ⟨sl.branch, next, false, false, 3⟩ { code := 0x08 }) ∧
      ∀ i ∈ [Instr.xJmp c n, .xCallr c n, .xRet c, .xReti c, .xTrap c 5, .xLpop c, .xLock c 2, .xSyncp c, .xSpill c [],
          .xFill c [], .xBmov c n {} {}, .xVmac c d n {} {}, .xBcrc c d n {}, .xBra c disp none, .xBcc c cond disp none,
          .xLoop c n 3 none, .xLoopImm c 2 3 none],
        Executes i s c fun t => t = (s.modCore c fun _ => { x with replayed := none }).takeException c
          ⟨x.pc, next, true, true, sl.pend⟩ { code := 0x01 }

/-- Loops and locked sequences (R261–R263, R265, R294): what LOOP, LPOP and LOCK set; the test at the end of the
innermost level; the count of a locked sequence and its end; the causes 0x01, 0x0D and 0x0E of misuse. Readings of the
model: log entries 42, 43, 44. -/
def Obligations.CoreLoops : Prop :=
  ∀ (s : State) (c : Fin 4) (x : Core) (d n : Fin 16) (count disp : BitVec 4) (ext : Option (BitVec 12)),
    let len := 1 + ext.isSome.toNat
    let p := (ext.getD 0).toNat
    let le (k : Nat) : BitVec 24 := x.pc + BitVec.ofNat 24 (len + k)
    let ls := x.pc + BitVec.ofNat 24 len
    let opens (i : Instr) (le : BitVec 24) (n : Word) : Prop :=
      (x.la = 2 → Raises i s c x len 0x0D) ∧
      (x.la < 2 → n = 0 → Executes i s c fun t =>
        t = State.modCore { s with replay := t.replay } c fun _ => { retired x x len with pc := le + BitVec.ofNat 24 (s.insnLength c le) }) ∧
      (x.la = 0 → n ≠ 0 → Runs1 i s c x len { x.setSt 7 6 1 with
        ls := #v[ls.setWidth 32, x.ls[(1 : Fin 2)]], le := #v[le.setWidth 32, x.le[(1 : Fin 2)]], lc := #v[n, x.lc[(1 : Fin 2)]] }) ∧
      (x.la = 1 → n ≠ 0 →
        let inside := x.ls[(0 : Fin 2)].toNat < ls.toNat ∧ le.toNat < x.le[(0 : Fin 2)].toNat % 2 ^ 24
        (inside → Runs1 i s c x len { x.setSt 7 6 2 with
          ls := #v[x.ls[(0 : Fin 2)], ls.setWidth 32], le := #v[x.le[(0 : Fin 2)], le.setWidth 32], lc := #v[x.lc[(0 : Fin 2)], n] }) ∧
        (¬ inside → Raises i s c x len 0x0D))
    (Stands s c x len ext.isSome →
      (p < 256 → opens (.xLoop c n disp ext) (le (16 * p + disp.toNat)) (x.get n)) ∧
      (256 ≤ p → Raises (.xLoop c n disp ext) s c x len 0x01) ∧
      opens (.xLoopImm c count disp ext) (le (16 * (p % 256) + disp.toNat)) (BitVec.ofNat 32 (16 * (p / 256) + count.toNat))) ∧
    (Stands s c x 1 false →
      (x.la = 0 → Raises (.xLpop c) s c x 1 0x0D) ∧
      (x.la = 1 ∨ x.la = 2 → Runs1 (.xLpop c) s c x 1 (x.setSt 7 6 (x.la - 1))) ∧
      ∀ k : Fin 8,
        (1 ≤ k.val ∧ k.val ≤ 4 → Runs1 (.xLock c k) s c x 1
          { x.setSt 8 8 1 with lockLeft := k.val, lockUses := 0 }) ∧
        (k.val = 0 ∨ 4 < k.val → Raises (.xLock c k) s c x 1 0x01)) ∧
    (Reaches1 s c x 1 false → x.slot = none →
      let y := x.put d (x.get n)
      (∀ v : Fin 2, x.lockLeft = 0 → x.la = v.val + 1 → x.le[v].setWidth 24 = x.pc →
        (1 < x.lc[v].toNat → Executes (.xMov c d n) s c fun t => t = State.modCore { s with replay := t.replay } c fun _ =>
          { retired x { y with lc := x.lc.set v (x.lc[v] - 1) } 1 with pc := x.ls[v].setWidth 24 }) ∧
        (x.lc[v].toNat ≤ 1 → Runs1 (.xMov c d n) s c x 1 { y.setSt 7 6 v with lc := x.lc.set v 0 }) ∧
        ∀ i ∈ [Instr.xJmp c n, .xRet c, .xTrap c 5, .xLpop c, .xLock c 2, .xSyncp c, .xBmov c n {} {}, .xLoopImm c 2 3 none],
          Raises i s c x 1 0x0D) ∧
      (x.atAnyLe = false → x.lockLeft ≠ 0 → x.store = [] →
        (1 < x.lockLeft → Runs1 (.xMov c d n) s c x 1 { y with lockLeft := x.lockLeft - 1 }) ∧
        (x.lockLeft = 1 → Runs1 (.xMov c d n) s c x 1
          { y.setSt 8 8 0 with lockLeft := 0, lockWord := none, lockUses := 0 }) ∧
        ∀ i ∈ [Instr.xJmp c n, .xRet c, .xTrap c 5, .xLpop c, .xLock c 2, .xSyncp c, .xBmov c n {} {}, .xLoopImm c 2 3 none],
          RaisesAt i s c x 1 { code := 0x0E, lkbrk := true }))

/-- WAIT, SYNCP and the control registers (R255–R257, R275, R281, R295, R331): what each register reads as and takes,
which bits a write reaches, the reserved bits that must stay (R61), and the causes of what is not allowed. Readings of
the model: log entries 12, 42, 44. -/
def Obligations.CoreControl : Prop :=
  ∀ (s : State) (c : Fin 4) (x : Core) (d n : Fin 16) (p : BitVec 12),
    let w := x.get d
    let cycles := (s.now - x.ccntFrom) / 8000
    let lvl := if x.ssel.toNat % 16 = 0 then x.cl else x.ssel.toNat % 16
    let set := x.saves[Fin.ofNat 9 (lvl - 1)]
    let hi : Ext := some 1
    let puts (v : Word) : Core := x.put d v
    let writes (i : Instr) (len : Nat) (ok : Bool) (y : Core) : Prop :=
      y.atLe = false → Executes i s c fun t =>
        t = State.modCore { s with warranted := s.warranted && ok, replay := t.replay } c fun _ => retired x y len
    let same (old m : Word) : Bool := (old ^^^ w) &&& m == 0
    (Stands s c x 1 false →
      (x.sup = true → Runs1 (.xWait c) s c x 1 { x with waiting := !s.wakes c }) ∧
      (x.sup = false → Raises (.xWait c) s c x 1 0x02) ∧
      (∀ u, (s.modCore c fun _ => x).drainStores c 4 = (true, u) → (u.coreAt c).atLe = false → (u.coreAt c).stepAt = none →
        Executes (.xSyncp c) s c fun t =>
          t = State.modCore { u with replay := t.replay } c fun _ => retired x { u.coreAt c with lines := [], btb := [] } 1) ∧
      (∀ r ∈ [(0, x.st), (1, x.wb), (2, x.wsp), (4, x.ls[(0 : Fin 2)]), (5, x.le[(0 : Fin 2)]), (6, x.lc[(0 : Fin 2)]),
          (8, x.ls[(1 : Fin 2)]), (9, x.le[(1 : Fin 2)]), (10, x.lc[(1 : Fin 2)]), (13, x.ccntShadow)],
        n.val = r.1 → Runs1 (.xMfc c d n none) s c x 1 (puts r.2)) ∧
      (n = 12 → Runs1 (.xMfc c d n none) s c x 1
        { puts (BitVec.ofNat 32 cycles) with ccntShadow := BitVec.ofNat 32 (cycles / 2 ^ 32) }) ∧
      (n ∈ [3, 7, 11, 14, 15] → Raises (.xMfc c d n none) s c x 1 0x01 ∧ Raises (.xMtc c d n none) s c x 1 0x01) ∧
      (x.sup = false → n ∈ [1, 2, 4, 5, 6, 8, 9, 10, 12, 13] → Raises (.xMtc c d n none) s c x 1 0x02) ∧
      (x.sup = false → (x.st ^^^ w) &&& 0x600 ≠ 0 → Raises (.xMtc c d 0 none) s c x 1 0x02) ∧
      (x.sup = true ∨ (x.st ^^^ w) &&& 0x600 = 0 →
        let m : Word := if x.sup then 0xFFE00E3F else 0xFFE0083F
        let st := (x.st &&& ~~~m) ||| (w &&& m)
        let y := { x with st := st, gmFrom := if st.getLsbD 10 && !x.gm then s.now else x.gmFrom }
        Executes (.xMtc c d 0 none) s c fun t =>
          t = State.modCore { s with warranted := s.warranted && same x.st 0xFFE00820, replay := t.replay } c fun _ =>
            { retired x y 1 with hold := true }) ∧
      (x.sup = true →
        (∀ r ∈ [(1, same x.wb 0xFFFFFFE0, { x with wb := w }), (2, true, { x with wsp := w }),
            (4, same x.ls[(0 : Fin 2)] 0xFF000000, { x with ls := #v[w, x.ls[(1 : Fin 2)]] }),
            (5, same x.le[(0 : Fin 2)] 0xFF000000, { x with le := #v[w, x.le[(1 : Fin 2)]] }),
            (6, true, { x with lc := #v[w, x.lc[(1 : Fin 2)]] }),
            (8, same x.ls[(1 : Fin 2)] 0xFF000000, { x with ls := #v[x.ls[(0 : Fin 2)], w] }),
            (9, same x.le[(1 : Fin 2)] 0xFF000000, { x with le := #v[x.le[(0 : Fin 2)], w] }),
            (10, true, { x with lc := #v[x.lc[(0 : Fin 2)], w] }), (12, true, x), (13, true, x)],
          n.val = r.1 → writes (.xMtc c d n none) 1 r.2.1 r.2.2))) ∧
    (Stands s c x 2 true →
      (p ≠ 1 → Raises (.xMfc c d n (some p)) s c x 2 0x01 ∧ Raises (.xMtc c d n (some p)) s c x 2 0x01) ∧
      (x.sup = false → Raises (.xMfc c d n hi) s c x 2 0x02 ∧ Raises (.xMtc c d n hi) s c x 2 0x02) ∧
      (x.sup = true →
        (n.val ≤ 10 →
          (lvl = 0 ∨ 9 < lvl → Raises (.xMfc c d n hi) s c x 2 0x01 ∧ Raises (.xMtc c d n hi) s c x 2 0x01) ∧
          (lvl = 9 → x.cl ≠ 9 → Raises (.xMfc c d n hi) s c x 2 0x02 ∧ Raises (.xMtc c d n hi) s c x 2 0x02) ∧
          (1 ≤ lvl → lvl ≤ 8 ∨ (lvl = 9 ∧ x.cl = 9) →
            let old := set[Fin.ofNat 11 n.val]
            let new := if n.val = 2 then (old &&& 0x1FF100) ||| (w &&& 0xFFE00EFF) else w
            let kept : Word := if n.val = 2 then 0xFFE00820 else if n.val = 3 then 0xFFE0E000
              else if n.val ∈ [4, 7, 10] then 0 else 0xFF000000
            Runs1 (.xMfc c d n hi) s c x 2 (puts old) ∧
            writes (.xMtc c d n hi) 2 (same old kept)
              { x with saves := x.saves.set (Fin.ofNat 9 (lvl - 1)) (set.set (Fin.ofNat 11 n.val) new) })) ∧
        (∀ r ∈ [(11, x.ssel), (12, x.vbase), (13, x.lvlcfg),
            (14, BitVec.ofNat 32 (x.gmctl.toNat % 65536 +
              65536 * (if x.gm && decide (x.cl ≤ 7) then min 0xFFFF ((s.now - x.gmFrom) / 8000) else 0))),
            (15, BitVec.ofNat 32 x.inUse.toNat)],
          n.val = r.1 → Runs1 (.xMfc c d n hi) s c x 2 (puts r.2)) ∧
        (∀ r ∈ [(11, same x.ssel 0xFFFFFFF0, { x with ssel := w }), (12, same x.vbase 0xFF000000, { x with vbase := w &&& 0xFFFFFF00 }),
            (13, same x.lvlcfg 0xFFFFFF88, { x with lvlcfg := w }), (14, true, { x with gmctl := w &&& 0xFFFF }), (15, true, x)],
          n.val = r.1 → writes (.xMtc c d n hi) 2 r.2.1 r.2.2)))

/-- Taking an exception (R318–R325, R328–R331): a synchronous exception enters its target level, or DF, or resets the
core at DF, and the handlers of the boot ROM reset it too; every entry writes the save set, ST, the window and PC as R323
says; interrupts and the monitor enter at a boundary that allows it and at no other; and the exceptions that no instruction
of its own raises. A parity replay (R311–R313) writes the ledger and starts the step at PC again from its first
instruction; a second mismatch at one instruction raises 0x0A. Readings of the model: log entries 42, 45, 46. -/
def Obligations.CoreExceptions : Prop :=
  ∀ (s : State) (c : Fin 4),
    let x := s.core[c].acknowledgeAll
    let s1 := s.modCore c fun _ => x
    let base := bitsOf x.vbase.toNat 23 8
    let handler (k : Nat) : BitVec 24 := BitVec.ofNat 24 (256 * base + 16 * k)
    let put (lvl : Nat) (p : Position) (y : Syndrome) (pc : BitVec 24) : State :=
      (s.modCore c fun _ => entered s.now x lvl p y pc).traceItem c 2 (p.spc.toNat + 2 ^ 24 * y.code) pc.toNat
    let after : Position := ⟨if x.mid then x.pc else x.last.getD x.pc, x.pc, false, false, 0⟩
    let before : Position := ⟨x.pc, x.pc + BitVec.ofNat 24 (s1.insnLength c x.pc), true, false, 0⟩
    let held (sh : Bool) : Prop := x.slot ≠ none ∨ x.lockLeft ≠ 0 ∨ x.hold = true ∨ s.shadowNext c sh = true
    (∀ (p : Position) (y : Syndrome), x.stepAt = none →
      let target := if 0x20 ≤ y.code then max 1 (bitsOf x.lvlcfg.toNat 6 4) else max 1 (bitsOf x.lvlcfg.toNat 2 0)
      let pc := handler (if 0x20 ≤ y.code then 9 else 8)
      (x.cl < target → base ≠ 0xF001 → s.takeException c p y = (put target p y pc).frozenUpdate) ∧
      (x.cl < target → base = 0xF001 →
        s.takeException c p y = (((put target p y pc).ledger 0x0E c y.code p.spc.toNat).startCoreReset c 3).frozenUpdate) ∧
      (target ≤ x.cl → x.cl ≠ 8 → base ≠ 0xF001 → s.takeException c p y =
        ((put 8 p y (handler 10)).ledger 0x06 c (y.code + 256 * x.cl) p.spc.toNat).frozenUpdate) ∧
      (x.cl = 8 → s.takeException c p y = (s.ledger 0x07 c (y.code + 2048) p.spc.toNat).startCoreReset c 1)) ∧
    (∀ n : Fin 64, Stands s c { x with waiting := false } 1 false →
      Raises (.xTrap c n) s c { x with waiting := false } 1 (0x20 + n.val)) ∧
    (∀ sh : Bool, s.coreUp c = true → x.out = [] → x.rerun = false → ¬ held sh →
      (∀ v : Fin 8, x.gm = false → x.cl < v.val → base ≠ 0xF001 → x.stepping = false → s.requestSeen c v = true →
        (∀ w : Fin 8, v < w → s.requestSeen c w = false) → x.cl ≤ 7 →
        Answers (.interruptEntry c sh) s fun t => t = (put v after { code := 0 } (handler v)).frozenUpdate) ∧
      (x.gm = false → x.cl ≤ 7 → x.monReq = true → x.inUse.getLsbD 9 = false → (∀ v : Fin 8, s.requestSeen c v = false) →
        Answers (.monitorEntry c sh) s fun t => t = (((put 9 after { code := 0x60 } 0xF08000).modCore c fun z =>
          { z with monReq := false, stepAt := none, stepping := false }).monEntered c).frozenUpdate) ∧
      (x.gm = true → x.cl ≤ 7 → x.gmctl.toNat % 65536 ≠ 0 → Answers (.maskOverrun c sh) s fun t =>
        t = (s1.atTime (x.gmFrom + (x.gmctl.toNat % 65536 + 1) * 8000)).takeException c
          ⟨x.pc, x.pc + BitVec.ofNat 24 (s.insnLength c x.pc), true, false, 0⟩ { code := 0x09 }) ∧
      (∀ a k rest, x.imprecise = (a, k) :: rest → Answers (.impreciseStoreError c sh) s fun t =>
        t = (s1.modCore c fun z => { z with imprecise := rest }).takeException c
          ⟨x.pc, x.pc + BitVec.ofNat 24 (s.insnLength c x.pc), true, false, 0⟩
          { code := 0x05, faddr := a, kind := k, write := true, imprecise := true })) ∧
    (∀ sh : Bool, (x.gm = true ∨ x.rerun = true ∨ held sh →
        Answers (.interruptEntry c sh) s (· = s) ∧ Answers (.monitorEntry c sh) s (· = s)) ∧
      (x.inUse.getLsbD 9 = true ∨ x.monReq = false → Answers (.monitorEntry c sh) s (· = s)) ∧
      (x.rerun = true ∨ held sh →
        Answers (.maskOverrun c sh) s (· = s) ∧ Answers (.impreciseStoreError c sh) s (· = s))) ∧
    (∀ sh : Bool, s.coreUp c = true → (x.waiting = true → s.wakes c = true) → x.out = [] →
      (x.replayed ≠ some x.pc →
        let r := s.replay[c]
        let t1 := s1.ledger 0x05 c 0 x.pc.toNat
        (¬ held sh → Answers (.parityReplay ⟨c, sh⟩) s fun t =>
          t = t1.modCore c fun _ => { x with replayed := some x.pc }) ∧
        (held sh → Answers (.parityReplay ⟨c, sh⟩) s fun t =>
          t = t1.modCore c fun _ => { r.start.acknowledgeAll with
            store := x.store.take (x.store.length - r.posted), lines := x.lines, btb := x.btb, imprecise := x.imprecise
            monReq := x.monReq, stepAt := x.stepAt, stepping := x.stepping, resumeAsk := x.resumeAsk
            lockWord := x.lockWord, rerun := true, replayed := some x.pc })) ∧
      (x.replayed = some x.pc → x.slot = none → x.lockLeft = 0 → Answers (.parityReplay ⟨c, sh⟩) s fun t =>
        t = (s1.modCore c fun _ => { x with replayed := none }).takeException c before { code := 0x0A }))

/-- RETI (R287, R326, R327, R332): at L0 or without supervisor rights it raises a cause; otherwise it restores ST, the
window and the loop registers and resumes where the save set says, with the step of the window that a RET which underflowed
still owes, or raises that underflow again where the window is still missing, or else chains into a request that the
restored mask and level admit. Readings of the model: log entries 42, 59. -/
def Obligations.CoreReturn : Prop :=
  ∀ (s : State) (c : Fin 4) (x : Core), Stands s c x 1 false → x.resumeAsk = none →
    let v := Fin.ofNat 9 (x.cl - 1)
    let set := x.saves[v]
    let sst := set[(2 : Fin 11)]
    let cause := set[(3 : Fin 11)].toNat
    let below := bitsOf sst.toNat 15 12
    let masked := sst.getLsbD 10
    let inUse := x.inUse &&& ~~~(BitVec.ofNat 10 (2 ^ x.cl))
    let replayed := if x.replayed = some x.pc then none else x.replayed
    let owes := bitsOf cause 10 9 = 3
    let under := owes ∧ (x.frm + 31) % 32 = x.wb.toNat % 32
    let redo := cause.testBit 7
    let spc : BitVec 24 := set[(0 : Fin 11)].setWidth 24
    let snpc : BitVec 24 := set[(1 : Fin 11)].setWidth 24
    let pc := if redo then spc else snpc
    let left (u : State) : State := (if x.cl = 9 then u.leaveMon c else u).frozenUpdate
    let back (u : State) (again : Bool) (frm : Nat) : State :=
      (left (u.modCore c fun _ => { x with
        st := (sst &&& 0xFFE0FEFF) ||| BitVec.ofNat 32 (2 ^ 16 * (frm % 32))
        ls := #v[set[(5 : Fin 11)], set[(8 : Fin 11)]], le := #v[set[(6 : Fin 11)], set[(9 : Fin 11)]]
        lc := #v[set[(7 : Fin 11)], set[(10 : Fin 11)]], inUse := inUse, ssel := 0, gmFrom := s.now, pc := pc
        last := none, mid := false, shadow := [], hold := false, skipBp := decide (x.cl = 9)
        replayed := if again then x.replayed else replayed
        slot := if redo && cause.testBit 8 then some ⟨some snpc, BitVec.ofNat 2 (bitsOf cause 10 9), spc - 1⟩
          else none })).traceItem c 3 x.pc.toNat pc.toNat
    (x.sup = false → Raises (.xReti c) s c x 1 0x02) ∧
    (x.sup = true → x.cl = 0 → Raises (.xReti c) s c x 1 0x01) ∧
    (x.sup = true → 1 ≤ x.cl → x.cl ≤ 9 → below ≤ 7 → x.stepping = false →
      (¬ under → masked = true ∨ ((x.monReq = false ∨ inUse.getLsbD 9 = true) ∧ ∀ w : Fin 8, below < w.val → s.requestSeen c w = false) →
        Executes (.xReti c) s c fun t =>
          t = back { s with replay := t.replay } false (if owes then x.frm + 30 else x.frm + 31)) ∧
      (under → Executes (.xReti c) s c fun t => ∃ u : State,
        u = (back { s with replay := t.replay } true (x.frm + 31)).takeException c ⟨spc, snpc, false, false, 3⟩ { code := 0x08 } ∧
        t = u.modCore c fun z => { z with replayed := if z.replayed = some x.pc then none else z.replayed }) ∧
      (∀ w : Fin 8, ¬ under → masked = false → below < w.val → s.requestSeen c w = true →
        (∀ k : Fin 8, w < k → s.requestSeen c k = false) → bitsOf x.vbase.toNat 23 8 ≠ 0xF001 →
        Executes (.xReti c) s c fun t => t = (left (State.modCore { s with replay := t.replay } c fun _ => { x with
          st := (x.st &&& 0xFFFF0FFF) ||| BitVec.ofNat 32 (2 ^ 12 * w.val)
          saves := x.saves.set (Fin.ofNat 9 (w.val - 1)) (set.set (3 : Fin 11) (BitVec.ofNat 32 (cause / 128 * 128)))
          inUse := inUse ||| BitVec.ofNat 10 (2 ^ w.val), pc := BitVec.ofNat 24 (256 * bitsOf x.vbase.toNat 23 8 + 16 * w.val)
          last := none, gmFrom := s.now, shadow := [], hold := false, skipBp := false, replayed := replayed }))))

/-- Loads and stores (R259, R281, R293, R307, R309, R310): the width codes and offsets, what a load puts into which
registers and its shadow, a memory store that is posted, register accesses that wait for their acknowledge, of which up to
four to one island may be under way, and the causes of illegal codes, odd pairs, misaligned and unmapped addresses.
Readings of the model: log entries 29, 42, 43. -/
def Obligations.CoreLoadsStores : Prop :=
  ∀ (s : State) (c : Fin 4) (x : Core) (d n : Fin 16) (ext : Option (BitVec 12)) (env : BusEnv) (size : Nat),
    let len := 1 + ext.isSome.toNat
    let p := ext.getD 0
    let code := bitsOf p.toNat 11 9
    let a := (x.get n + BitVec.ofInt 32 (toSigned 9 p.toNat * size)).toNat
    let ld := Instr.xLd c d n ext env
    let st := Instr.xSt c d n ext env
    let v := if size = 8 then (x.get d).toNat + 2 ^ 32 * (x.get (d + 1)).toNat else (x.get d).toNat % 2 ^ (8 * size)
    let regs : List Nat := if size = 8 then [d.val, d + 1] else [d.val]
    let old := regs.map fun i => ((physReg x.frm i).val, x.x[physReg x.frm i])
    let value (v : Nat) : List Word :=
      match code with
      | 2 => [BitVec.signExtend 32 (BitVec.ofNat 16 v)] | 4 => [BitVec.signExtend 32 (BitVec.ofNat 8 v)]
      | 5 => [BitVec.ofNat 32 v, BitVec.ofNat 32 (v / 2 ^ 32)] | _ => [BitVec.ofNat 32 v]
    let at_ (t : State) : State := { s.modCore c fun _ => x with replay := t.replay }
    let fails (u : State) (y : Syndrome) : State := (u.modCore c fun z => { z with replayed := none }).takeException c
      ⟨x.pc, x.pc + BitVec.ofNat 24 len, true, false, 0⟩ y
    let sent (dest : List (Nat × Word)) (write : Bool) : Outstanding :=
      { addr := a, dest := dest, write := write, pc := x.pc, last := x.last, shadow := x.shadow, hold := x.hold }
    let loaded (w : Nat) : List (Nat × Word) := (regs.zip (value w)).map fun e => ((physReg x.frm e.1).val, e.2)
    let island (b : Nat) : Option Island := (place b).map Place.island
    Stands s c x len ext.isSome → NoWatch s c →
      (code = 6 ∨ code = 7 → s.core[c].out = [] → Raises ld s c x len 0x01 ∧ Raises st s c x len 0x01) ∧
      (code = 2 ∨ code = 4 → s.core[c].out = [] → Raises st s c x len 0x01) ∧
      (code = 5 → d.val % 2 = 1 → s.core[c].out = [] → Raises ld s c x len 0x01 ∧ Raises st s c x len 0x01) ∧
      ((code, size) ∈ [(0, 4), (1, 2), (2, 2), (3, 1), (4, 1), (5, 8)] → (code = 5 → d.val % 2 = 0) → s.core[c].out = [] →
        (a % size ≠ 0 → RaisesAt ld s c x len { code := 0x03, faddr := a }) ∧
        (∀ q, Loads s c x a size q → env = {} → Executes ld s c fun t => t = (at_ t).modCore c fun _ =>
            { retired x (((regs.zip (value (s.bytes q size))).foldl fun y e => y.put e.1 e.2) x) len with shadow := old }) ∧
        (a % size = 0 → memArea c a = none → a < 0x40000000 → Executes ld s c fun t =>
          t = fails ((at_ t).busError c a 1 false) { code := 0x04, faddr := a, kind := 1 })) ∧
      ((code, size) ∈ [(0, 4), (1, 2), (3, 1), (5, 8)] → (code = 5 → d.val % 2 = 0) → s.core[c].out = [] →
        (a % size ≠ 0 → RaisesAt st s c x len { code := 0x03, faddr := a, write := true }) ∧
        (a % size = 0 → a < 0x40000000 → postFault c a size = 0 → x.store.length < 4 →
          Runs1 st s c x len { x with store := x.store ++ [⟨a, size, v⟩] }) ∧
        (a % size = 0 → a < 0x40000000 → postFault c a size ≠ 0 → Executes st s c fun t =>
          t = fails ((at_ t).busError c a (postFault c a size) true)
            { code := 0x05, faddr := a, kind := postFault c a size, write := true })) ∧
      (a % size = 0 → 0x40000000 ≤ a → x.store = [] → s.replay[c].taken.length ≤ s.replay[c].used →
        (∀ y ∈ s.core[c].out, island y.addr = island a) → s.core[c].out.length < 4 →
        (∀ y ∈ s.core[c].out, ∀ e ∈ y.dest, ∀ i ∈ n.val :: regs, e.1 ≠ (physReg x.frm i).val) →
        let z := { s.core[c] with waiting := false }
        let on (u t : State) (o : Outstanding) (sh : List (Nat × Word)) : Prop :=
          t = State.modCore { u with replay := t.replay } c fun _ =>
            { retired z { z with out := z.out ++ [o] } len with shadow := sh }
        (∀ w u, (code, size) ∈ [(0, 4), (1, 2), (2, 2), (3, 1), (4, 1), (5, 8)] → (code = 5 → d.val % 2 = 0) →
          (s.modCore c fun _ => z).busRead c a size false env = (.ok w, u) → u.core = (s.modCore c fun _ => z).core →
          NoWatch u c → Executes ld s c fun t => on u t (sent (loaded w) false) old) ∧
        (∀ w u, (code, size) ∈ [(0, 4), (1, 2), (3, 1), (5, 8)] → (code = 5 → d.val % 2 = 0) →
          (s.modCore c fun _ => z).busWrite c a size v env = (.ok w, u) → u.core = (s.modCore c fun _ => z).core →
          NoWatch u c → Executes st s c fun t => on u t (sent [] true) []))

/-- What becomes of accesses under way (R26, R28, R299–R302, R307–R310): the oldest posted store reaches its memory, or its
error waits to be raised; the oldest acknowledge brings its values, and one whose island has gone down raises the bus error
of KIND 5 at its instruction; a line of program RAM that the core fetches ahead stands in a buffer with the words of its
memory, of which one whose parity has failed twice raises 0x0A, and one that it has no reason to fetch does not arrive.
Readings of the model: log entries 29, 43, 45. -/
def Obligations.CoreAccesses : Prop :=
  ∀ (s : State) (c : Fin 4),
    let x := s.core[c]
    (x.store = [] → Answers (.storeDrain c {}) s (· = s)) ∧
    (∀ o rest r p, x.store = o :: rest → s.coreUp c = true → memArea c o.addr = some (r, p) →
      s.islandUp r.island = true → r.widthOk o.bytes = true → r.readOnly c p = false → s.heldFrom c r p = false →
      Answers (.storeDrain c {}) s fun t =>
        let w := p / r.wordBytes * r.wordBytes
        t.core = s.core.set c { x with store := rest } ∧
        (∀ i < o.bytes, t.byte (p + i) = BitVec.ofNat 8 (r.dataOf o.data / 2 ^ (8 * i))) ∧
        (∀ a, a < p ∨ p + o.bytes ≤ a → t.byte a = s.byte a) ∧
        t.writeBack = s.writeBack.filter (fun b => !(decide (w ≤ b) && decide (b < w + max o.bytes r.wordBytes))) ∧
        t = { s with core := t.core, mem := t.mem, writeBack := t.writeBack }) ∧
    (∀ o rest r p, x.store = o :: rest → s.coreUp c = true → memArea c o.addr = some (r, p) →
      s.islandUp r.island = false → ∀ env, Answers (.storeDrain c env) s fun t =>
        t = (s.busError c o.addr 5 true).modCore c fun y => { y with store := rest, imprecise := x.imprecise ++ [(o.addr, 5)] }) ∧
    (x.out = [] → Answers (.accessAcknowledge c) s (· = s)) ∧
    (∀ o rest, x.out = o :: rest → o.lost = false → Answers (.accessAcknowledge c) s fun t =>
      t = { s with core := t.core } ∧ (∀ k, k ≠ c → t.core[k] = s.core[k]) ∧
      t.core[c] = { x with x := t.core[c].x, out := rest } ∧
      (∀ r : Fin 260, (∀ e ∈ o.dest, e.1 % 260 ≠ r.val) → t.core[c].x[r] = x.x[r]) ∧
      (∀ e ∈ o.dest.getLast?, t.core[c].x[Fin.ofNat 260 e.1] = e.2)) ∧
    (∀ o rest, x.out = o :: rest → o.lost = true → Answers (.accessAcknowledge c) s fun t =>
      ∃ u, u = ((s.busError c o.addr 5 o.write).modCore c fun y =>
          { y with out := [], pc := o.pc, last := o.last, shadow := o.shadow, hold := o.hold }) ∧
        t = u.takeException c ⟨o.pc, o.pc + BitVec.ofNat 24 (u.insnLength c o.pc), true, false, 0⟩
          { code := if o.write then 0x05 else 0x04, faddr := o.addr, kind := 5, write := o.write }) ∧
    ∀ (a : BitVec 24) (fails : Nat),
      let held := (x.buffered a.toNat).isSome
      let wanted := if held then fails ≠ 0 else x.fetchesLine (a.toNat / 16) = true
      (s.coreUp c = true → 0xC00000 ≤ a.toNat → a.toNat < 0xC10000 → wanted →
        let q := 0x28000000 + 0x40000 * c.val + 32 * ((a.toNat - 0xC00000) / 16)
        Answers (.lineFetch c a .clean fails) s fun t =>
          t = { s with core := t.core } ∧ (∀ k, k ≠ c → t.core[k] = s.core[k]) ∧
          t.core[c] = { x with lines := t.core[c].lines } ∧
          ∃ l ∈ t.core[c].lines, l.addr = a.toNat / 16 ∧ l.words = (List.range 16).map fun i =>
            if i = a.toNat % 16 ∧ 2 ≤ fails then .bad 0x0A
            else .word (BitVec.ofNat 14 ((s.byte (q + 2 * i)).toNat + 256 * (s.byte (q + 2 * i + 1)).toNat))) ∧
      (s.coreUp c = false ∨ ¬ wanted → ∀ ecc, Answers (.lineFetch c a ecc fails) s (· = s))

/-- Long instructions, SPILL and FILL (R254, R268–R272): each element moves one word or folds one word or byte and
brings the registers forward, the last one ends the instruction; illegal groups and misaligned pointers raise their
causes; SPILL and FILL move eight words and WSP and WB with them. Readings of the model: log entries 42, 43, 44. -/
def Obligations.CoreLong : Prop :=
  ∀ (s : State) (c : Fin 4) (x : Core) (d n : Fin 16), Stands s c x 1 false → NoWatch s c →
    let on (t : State) (y : Core) : Prop := t = State.modCore { s with replay := t.replay } c fun _ => y
    let r (i : Nat) : Word := x.get (n + i)
    let finish (count : Word) (y : Core) : Core :=
      if count = 1 then retired x y 1 else { y with
        mid := true, shadow := [], hold := false, skipBp := false
        replayed := if y.replayed = some x.pc then none else y.replayed }
    let bmov := Instr.xBmov c n {} {}
    let vmac := Instr.xVmac c d n {} {}
    let bcrc := Instr.xBcrc c d n {}
    let badV : Prop := 13 < n.val ∨ d.val = 15 ∨ (d.val < n.val + 3 ∧ n.val < d.val + 2) ∨ 4096 < (r 2).toNat
    let badB : Prop := n.val = 15 ∨ d.val = n.val ∨ d.val = n.val + 1
    (13 < n.val → Raises bmov s c x 1 0x01) ∧ (badV → Raises vmac s c x 1 0x01) ∧ (badB → Raises bcrc s c x 1 0x01) ∧
    (n.val ≤ 13 → r 2 = 0 → Runs1 bmov s c x 1 x) ∧ (¬ badV → r 2 = 0 → Runs1 vmac s c x 1 x) ∧
    (¬ badB → r 1 = 0 → Runs1 bcrc s c x 1 x) ∧
    (n.val ≤ 13 → r 2 ≠ 0 →
      ((r 0).toNat % 4 ≠ 0 → RaisesAt bmov s c x 1 { code := 0x03, faddr := (r 0).toNat, write := true }) ∧
      ((r 0).toNat % 4 = 0 → (r 1).toNat % 4 ≠ 0 → RaisesAt bmov s c x 1 { code := 0x03, faddr := (r 1).toNat }) ∧
      ∀ p, Loads s c x (r 1).toNat 4 p → (r 0).toNat % 4 = 0 → (r 0).toNat < 0x40000000 → postFault c (r 0).toNat 4 = 0 →
        Executes bmov s c fun t => on t <| finish (r 2)
          { ((x.put n (r 0 + 4)).put (n + 1) (r 1 + 4)).put (n + 2) (r 2 - 1) with store := [⟨(r 0).toNat, 4, s.bytes p 4⟩] }) ∧
    (¬ badV → r 2 ≠ 0 → (r 0).toNat % 4 ≠ 0 → RaisesAt vmac s c x 1 { code := 0x03, faddr := (r 0).toNat }) ∧
    (¬ badV → r 2 ≠ 0 → ∀ p q, Loads s c x (r 0).toNat 4 p → Loads s c x (r 1).toNat 4 q →
      let sum := toSigned 64 ((x.get d).toNat + 2 ^ 32 * (x.get (d + 1)).toNat)
        + (BitVec.ofNat 32 (s.bytes p 4)).toInt * (BitVec.ofNat 32 (s.bytes q 4)).toInt
      let sat := clampInt (-(2 ^ 63)) (2 ^ 63 - 1) sum
      Executes vmac s c fun t => on t <| finish (r 2)
        ((((((if sat ≠ sum then flagged x 1 1 else x).put d (BitVec.ofInt 32 sat)).put (d + 1) (BitVec.ofInt 32 (sat / 2 ^ 32))).put
          n (r 0 + 4)).put (n + 1) (r 1 + 4)).put (n + 2) (r 2 - 1))) ∧
    (¬ badB → r 1 ≠ 0 → ∀ p, Loads s c x (r 0).toNat 1 p →
      Executes bcrc s c fun t => on t <| finish (r 1)
        (((x.put d (BitVec.ofNat 32 (crcByte (x.get d).toNat (s.byte p).toNat))).put n (r 0 + 1)).put (n + 1) (r 1 - 1))) ∧
    (x.sup = false → Raises (.xSpill c []) s c x 1 0x02 ∧ Raises (.xFill c []) s c x 1 0x02) ∧
    (x.sup = true →
      let w := x.wb.toNat % 32
      let frame (w i : Nat) : Fin 260 := if i < 4 then Fin.ofNat 260 ((2 * w + 63) % 64 * 4 + i) else Fin.ofNat 260 (2 * w % 64 * 4 + (i - 4))
      let wb (w : Nat) : Word := BitVec.ofNat 32 (x.wb.toNat / 32 * 32 + w)
      (w = x.frm ∨ x.pinned w = true → Raises (.xSpill c []) s c x 1 0x01) ∧
      (x.resident = 31 → Raises (.xFill c []) s c x 1 0x01) ∧
      (w ≠ x.frm → x.pinned w = false → x.store = [] → x.wsp.toNat % 4 = 0 → 32 ≤ x.wsp.toNat → x.wsp.toNat ≤ 0x400000 →
        s.islandUp .fabric = true → (∀ k : Fin 4, k ≠ c → s.core[k].lockWord = none) → Executes (.xSpill c []) s c fun t =>
          t = { s with core := t.core, mem := t.mem, writeBack := t.writeBack, replay := t.replay } ∧
          t.core = s.core.set c (retired x { x with wsp := x.wsp - 32, wb := wb ((w + 1) % 32) } 1) ∧
          (∀ i < 8, t.mem32 (x.wsp.toNat - 32 + 4 * i) = x.x[frame w i].toNat) ∧
          (∀ a, a < x.wsp.toNat - 32 ∨ x.wsp.toNat ≤ a → t.byte a = s.byte a)) ∧
      (x.resident ≠ 31 → x.store = [] → x.wsp.toNat % 4 = 0 → x.wsp.toNat + 32 ≤ 0x400000 →
        s.islandUp .fabric = true → (∀ k : Fin 4, k ≠ c → s.core[k].lockWord = none) → Executes (.xFill c []) s c fun t =>
          let w := (x.wb.toNat % 32 + 31) % 32
          t = { s with core := t.core, replay := t.replay } ∧ (∀ k, k ≠ c → t.core[k] = s.core[k]) ∧
          t.core[c] = retired x { x with x := t.core[c].x, wsp := x.wsp + 32, wb := wb w } 1 ∧
          (∀ i < 8, t.core[c].x[frame w i] = BitVec.ofNat 32 (s.mem32 (x.wsp.toNat + 4 * i))) ∧
          ∀ q : Fin 260, (∀ i < 8, q ≠ frame w i) → t.core[c].x[q] = x.x[q]))

/-! ### The cellar -/

/-- Snapshots and DEF_SAVE (R392–R395): a request starts a capture whose records go to the slot that does not hold the
newest complete one, or to the defaults set, which is not complete from then on; one made while a capture runs is
refused, but for a SNAPSHOT on the edge on which one of PFAIL_N starts, which takes its place and leaves that one to
follow; its end writes the trailer, makes the set complete and answers what the dictionary has waiting for it; SHUTDOWN
disarms, captures (a capture that runs is not ended, and its own is then refused) and holds the hall in reset; and the
warning of VDD_CORE shows (R381). Readings of the model: log entries 22, 33. -/
def Obligations.Snapshots : Prop :=
  ∀ (s : State) (init : Fin 16),
    let b := CEL.base
    let slot : Fin 3 := if s.getF b CEL.STATUS.SNAP_VALID = 0 then 0 else if s.getF b CEL.STATUS.SNAP_NEWEST = 0 then 1 else 0
    let valid (k : Fin 3) (t : State) : Bool := if k = 2 then t.getB b CEL.STATUS.DEF_VALID else t.bit b CEL.STATUS.SNAP_VALID k
    let ws := s.capture.flatten
    let at_ (k : Fin 3) : Nat := 0x30020000 + 0x8000 * k.val
    let seq := (s.getF b CEL.SNAP_SEQ.SEQ + 1) % 2 ^ 32
    let yields : Bool := s.cellar.snap.any fun r => r.cause == 3 && r.startAt == s.now
    let ended (P : State → Prop) : Prop := Answers .snapshotEnd s fun t => ∃ u : State, t = u.odPoll ∧ P u
    (Reaches s (b + CEL.CMD.W.off) →
      (∀ c ∈ [(Instr.snapshot init, 1, slot), (.defSave init, 4, 2)],
        (s.cellar.snap ≠ none → yields = false ∨ c.2.1 = 4 → Answers c.1 s fun t =>
          t.getB b CEL.STATUS.SNAP_REFUSED = true ∧ OnlyFields s t b [CEL.STATUS.SNAP_REFUSED]) ∧
        (s.cellar.snap = none → Answers c.1 s fun t =>
          t.cellar = { s.cellar with snap := some ⟨c.2.1, c.2.2, s.capture.length, at_ c.2.2 + 4 * ws.length, s.now⟩ } ∧
          t.getB b CEL.STATUS.SNAP_BUSY = true ∧ valid c.2.2 t = false ∧
          (∀ i < ws.length, t.mem32 (at_ c.2.2 + 4 * i) = ws.getD i 0 % 2 ^ 32) ∧
          (∀ a, a < at_ c.2.2 ∨ at_ c.2.2 + 4 * ws.length ≤ a → t.byte a = s.byte a) ∧
          OnlyFields { s with mem := t.mem, cellar := t.cellar } t b
            [CEL.STATUS.SNAP_BUSY, CEL.STATUS.DEF_VALID, CEL.STATUS.SNAP_VALID])) ∧
      (∀ r, s.cellar.snap = some r → yields = true → Answers (.snapshot init) s (· =
        { s with cellar := { s.cellar with snap := some { r with cause := 1 }, snapAgain := true } })) ∧
      (s.cellar.snap ≠ none → Answers (.shutdown init) s fun t =>
        t.getF b CEL.ARM_STATE.STATE = 0 ∧ t.cellar.snap = s.cellar.snap ∧ t.cellar.shutPending = true ∧
        (s.getB b CEL.CTRL.ENABLE = true → t.getB b CEL.STATUS.SNAP_REFUSED = true) ∧ t.mem = s.mem) ∧
      (s.cellar.snap = none → Answers (.shutdown init) s fun t =>
        t.getF b CEL.ARM_STATE.STATE = 0 ∧
        (s.getB b CEL.CTRL.ENABLE = true →
          (∃ r, t.cellar.snap = some r ∧ r.cause = 2) ∧ t.cellar.shutPending = true ∧ t.getB b CEL.STATUS.SNAP_BUSY = true) ∧
        (s.getB b CEL.CTRL.ENABLE = false → t.cellar.snap = none ∧ t.cellar.shutHold = true ∧
          (s.cellar.resetDue = none → t.cellar.resetDue = some (5, s.now)) ∧ ∃ k n, t.cellar.resetDue = some (k, n) ∧ n ≤ s.now))) ∧
    (∀ below : Bool, Answers (.supWarn below) s fun t =>
      t.getB b CEL.STATUS.SUP_WARN = below ∧ OnlyFields s t b [CEL.STATUS.SUP_WARN]) ∧
    (s.cellar.snap = none → ended (· = s)) ∧
    (∀ r, s.cellar.snap = some r →
      (s.cellar.snapAgain = false → ended fun t =>
        t.mem32 r.trailer = r.records % 2 ^ 32 ∧ t.mem32 (r.trailer + 4) = seq ∧
        t.mem32 (r.trailer + 8) = crcWords [r.records, seq] % 2 ^ 32 ∧
        (∀ a, a < r.trailer ∨ r.trailer + 12 ≤ a → t.byte a = s.byte a) ∧
        t.cellar.snap = none ∧ t.getB b CEL.STATUS.SNAP_BUSY = false ∧ t.getB b CEL.STATUS.SNAP_REFUSED = false ∧
        valid r.target t = true ∧ t.cellar.setCount[r.target] = r.records ∧
        (r.target = 2 → t.getF b CEL.SNAP_SEQ.SEQ = s.getF b CEL.SNAP_SEQ.SEQ) ∧
        (r.target ≠ 2 → t.getF b CEL.SNAP_SEQ.SEQ = seq ∧ t.getF b CEL.STATUS.SNAP_NEWEST = r.target.val) ∧
        (s.cellar.queue.length < 16 → t.cellar.queue =
          queueEntry (s.ledgerEntry 0x0A r.cause 0 (if r.target = 2 then 0 else seq)) s.cellar.queue) ∧
        (s.bit b CEL.IRQ_EN.SRC 3 = true → t.crier.launched = s.crier.launched ++ [174]) ∧
        (s.cellar.shutPending = true → t.cellar.shutPending = false ∧ t.cellar.shutHold = true ∧
          t.cellar.resetDue.isSome = true)) ∧
      (s.cellar.snapAgain = true → ended fun t =>
        t.cellar.shutPending = s.cellar.shutPending ∧ t.cellar.snapAgain = false ∧ (∃ q, t.cellar.snap = some q ∧ q.cause = 3 ∧ q.startAt = s.now) ∧
        t.getB b CEL.STATUS.SNAP_BUSY = true))

/-- The ledger and the watchdogs (R398–R400, R406, R407, R410, R517, R535): the oldest entry is written to NEXT with its
fields in their bytes, waits while a capture runs, and overwrites the oldest once 1024 are held; a watchdog counts down
unless it is off or frozen, at a multiple of 64 µs after its last count, shows and pulses its open window, and expires
at 0; a service reloads it, comes too early, or has the wrong key; the expiry of a core's resets that core. Readings of
the model: log entries 22, 73, 77. -/
def Obligations.LedgerAndWatchdogs : Prop :=
  ∀ (s : State) (init : Fin 16),
    let b := CEL.base
    (s.cellar.snap ≠ none ∨ s.cellar.queue = [] → Answers .ledgerEntryWrite s (· = s)) ∧
    (∀ e rest, s.cellar.snap = none → s.cellar.queue = e :: rest → Answers .ledgerEntryWrite s fun t =>
      let n := s.getF b CEL.LEDGER_HEAD.NEXT
      let c := s.getF b CEL.LEDGER_HEAD.COUNT
      let a := 0x30038000 + 16 * n
      t.bytes a 8 = e.time.toNat ∧ t.byte (a + 8) = e.type ∧ t.byte (a + 9) = e.arg0 ∧ t.bytes (a + 10) 2 = e.arg1.toNat ∧
      t.mem32 (a + 12) = e.data.toNat ∧ (∀ x, x < a ∨ a + 16 ≤ x → t.byte x = s.byte x) ∧
      t.cellar = { s.cellar with queue := rest } ∧ t.getF b CEL.LEDGER_HEAD.NEXT = (n + 1) % 1024 ∧
      t.getF b CEL.LEDGER_HEAD.COUNT = (if c < 1024 then c + 1 else c) ∧
      t.getF b CEL.LEDGER_OVF.COUNT = (if c < 1024 then s.getF b CEL.LEDGER_OVF.COUNT
        else min (s.getF b CEL.LEDGER_OVF.COUNT + 1) CEL.LEDGER_OVF.COUNT.max) ∧
      t.crier.launched = (if s.bit b CEL.IRQ_EN.SRC 4 then s.crier.launched ++ [175] else s.crier.launched) ∧
      OnlyFields { s with mem := t.mem, cellar := t.cellar, crier := t.crier } t b
        [CEL.LEDGER_HEAD.NEXT, CEL.LEDGER_HEAD.COUNT, CEL.LEDGER_OVF.COUNT]) ∧
    ∀ n : Fin 5,
      let w := WDT.base n
      let count := s.getF w WDT.COUNT.COUNT
      let window := s.getF w WDT.WINDOW.WINDOW
      let load := max 1 (s.getF w WDT.TIMEOUT.TIMEOUT)
      let frozen : Bool := s.getB w WDT.CTRL.DBGFRZ && (if n.val = 4 then
          (List.finRange 4).any (fun k => s.coreUp k && s.core[k].cl == 9) && !decide (2 ≤ s.getF b CEL.ARM_STATE.STATE)
        else s.monInUse n && s.coreUp n)
      let thaws : Bool := n.val == 4 && s.getB w WDT.STATUS.FROZEN && !frozen
      let start := if thaws then load else count
      let unit := 1024 * cellarCycle
      let due := max (s.cellar.tickAt[n] + unit) (s.now / unit * unit)
      let u := { s with now := max s.now (edgeDown due), cellar := { s.cellar with tickAt := s.cellar.tickAt.set n due } }
      let pulses : List Nat := if n.val < 4 then [165 + n.val] else if s.bit b CEL.IRQ_EN.SRC 6 then [177] else []
      let loaded (t : State) : Prop := t.getF w WDT.COUNT.COUNT = load ∧ t.getB w WDT.STATUS.OPEN = decide (load ≤ window)
      let only (u t : State) : Prop := OnlyFields { u with cellar := t.cellar, crier := t.crier } t w
        [WDT.COUNT.COUNT, WDT.STATUS.OPEN, WDT.STATUS.FROZEN]
      (∀ c : Instr, c = (if h : n.val < 4 then .coreWatchdogTick ⟨n.val, h⟩ else .watchdogTick) → Answers c s fun t =>
        only u t ∧ (n.val = 4 → t.getB w WDT.STATUS.FROZEN = frozen) ∧
        (s.getB w WDT.CTRL.ENABLE = false ∨ frozen = true ∨ start = 0 → t.getF w WDT.COUNT.COUNT = start ∧
          t.getB w WDT.STATUS.OPEN = (if thaws then decide (load ≤ window) else s.getB w WDT.STATUS.OPEN) ∧
          t.crier = s.crier ∧ t.cellar = u.cellar) ∧
        (s.getB w WDT.CTRL.ENABLE = true → frozen = false → start ≠ 0 →
          t.getF w WDT.COUNT.COUNT = start - 1 ∧ t.getB w WDT.STATUS.OPEN = decide (start - 1 ≤ window) ∧
          t.cellar = { u.cellar with expiry := if start = 1 then s.cellar.expiry.set n (some (1, u.now)) else s.cellar.expiry } ∧
          t.crier.launched = s.crier.launched ++ (if start - 1 = window then pulses else []))) ∧
      (∀ (v : Word) (c : Instr), c = (if h : n.val < 4 then .coreWatchdogService init ⟨n.val, h⟩ v else .service init v) →
        Reaches s (w + WDT.SERVICE.W.off) →
        (n.val < 4 → init.val ≠ n.val → Answers c s (· = s)) ∧
        (n.val = 4 ∨ init.val = n.val →
          (v = 0xC0A7 → count ≤ window → Answers c s fun t => loaded t ∧ only s t ∧
            t.cellar = { s.cellar with expiry := if s.cellar.expiry[n] = some (1, s.now) then s.cellar.expiry.set n none
              else s.cellar.expiry }) ∧
          (v = 0xC0A7 → window < count → Answers c s fun t =>
            t = { s with cellar := { s.cellar with expiry := s.cellar.expiry.set n (some (2, s.now)) } }) ∧
          (v ≠ 0xC0A7 → Answers c s fun t =>
            t = { s with cellar := { s.cellar with expiry := s.cellar.expiry.set n (some (3, s.now)) } }))) ∧
      ∀ h : n.val < 4,
        (s.cellar.expiry[n] = none → Answers (.coreWatchdogExpiry ⟨n.val, h⟩) s (· = s)) ∧
        (s.cellar.expiry[n] ≠ none → Answers (.coreWatchdogExpiry ⟨n.val, h⟩) s fun t => t.coreUp n.val = false ∧
          t.cellar.expiry[n] = none ∧ t.cellar.coreReset[(⟨n.val, h⟩ : Fin 4)] = some (2, s.now + us) ∧
          t.getF b ⟨CEL.RST_CAUSE.CORE.off, 2 * n.val + 25, 2 * n.val + 24⟩ = 2 ∧
          (s.cellar.queue.length < 16 → t.cellar.queue = queueEntry (s.ledgerEntry 0x03 n.val 2 0) s.cellar.queue))

/-! ### Resets and supplies -/

/-- The causes of a hall reset (R381, R385, R386, R389, R395): RST_CMD disarms and schedules one 2 µs later; the
scheduled one, RESET_N low and a rail below its threshold begin it, the latter two unless the hall is in reset already;
RESET_N high ends its hold, and the hold of a shutdown, each once the filter of RESET_N passes it; without VDD_CORE or
VDD_SER the ring island is down (R379). Readings of the model: log entries 31, 33, 73. -/
def Obligations.HallResets : Prop :=
  ∀ (s : State) (init : Fin 16),
    let b := CEL.base
    (Reaches s (b + CEL.RST_CMD.W.off) → Answers (.hallResetCmd init) s fun t =>
      t.getF b CEL.ARM_STATE.STATE = 0 ∧
      (s.getF b CEL.ARM_STATE.STATE ≠ 0 → t.getF b CEL.ARM_STATE.LAST_DISARM = 1) ∧
      (s.cellar.resetDue = none → t.cellar.resetDue = some (5, s.now + 2 * us)) ∧
      ∀ d, s.cellar.resetDue = some d → t.cellar.resetDue = some (if d.2 ≤ s.now + 2 * us then d else (5, s.now + 2 * us))) ∧
    (s.cellar.resetDue = none → Answers .hallResetStart s (· = s)) ∧
    (∀ type due, s.cellar.resetDue = some (type, due) → Answers .hallResetStart s fun t =>
      t.now = max s.now (edgeDown due) ∧ HallDown (s.atTime due) t type 0) ∧
    (∀ x : BallLevel, (filterPasses x.since cellarCycle 16 = false → Answers (.resetN x) s (· = s)) ∧
      (filterPasses x.since cellarCycle 16 = true → x.level = false →
        Answers (.resetN x) s fun t => t.cellar.resetLow = true ∧
          (s.cellar.phase = .inReset → t = { s with cellar := { s.cellar with resetLow := true } }) ∧
          (s.cellar.phase ≠ .inReset → HallDown s t 2 0)) ∧
      (filterPasses x.since cellarCycle 16 = true → x.level = true →
        Answers (.resetN x) s fun t => t = { s with cellar := t.cellar } ∧ t.cellar.resetLow = false ∧
          (s.cellar.resetLow = true → t.cellar.shutHold = false ∧ t.cellar.releaseAt = max s.cellar.releaseAt s.now) ∧
          (s.cellar.resetLow = false → t.cellar.shutHold = s.cellar.shutHold ∧ t.cellar.releaseAt = s.cellar.releaseAt))) ∧
    ∀ rail : Fin 4,
      let rails (below : Bool) (t : State) : Prop := ∀ k : Fin 4,
        t.cellar.railsLow.getLsbD k = if k = rail then below else s.cellar.railsLow.getLsbD k
      (Answers (.supplyMonitor rail true) s fun t => rails true t ∧
        (s.cellar.phase ≠ .inReset → t.cellar.phase = .inReset ∧ t.getF b CEL.ARM_STATE.STATE = 0 ∧
          t.getF b CEL.RST_CAUSE.TYPE = 3 ∧ t.getF b CEL.RST_CAUSE.SUP = t.cellar.railsLow.toNat) ∧
        (s.cellar.phase ≠ .inReset → rail ≠ 0 → rail ≠ 3 → HallDown s t 3 t.cellar.railsLow.toNat) ∧
        (s.cellar.phase = .inReset → rail ≠ 0 → rail ≠ 3 → t = { s with cellar := t.cellar }) ∧
        (rail = 0 ∨ rail = 3 → t.islandUp .ring = false ∧ t.getB SYS.base SYS.CLK_STATUS.SER_LOCK = false)) ∧
      (Answers (.supplyMonitor rail false) s fun t => rails false t ∧ t = { s with cellar := t.cellar } ∧
        (t.cellar.railsLow = 0 → t.cellar.releaseAt = max s.cellar.releaseAt (s.now + 200 * us)) ∧
        (t.cellar.railsLow ≠ 0 → t.cellar.releaseAt = s.cellar.releaseAt))

/-- Power (R23, R49, R380, R385, R390): power-on resets everything but the cellar store, the flash and what the cellar
keeps; without VDD_CEL the hall is in reset; a clock on XIN shows in CLK_STATUS; the reset sequence waits for its
conditions and for XIN, and then brings up the islands of the loaded options and releases their cores at BOOT_VEC.
Readings of the model: log entries 31, 32. -/
def Obligations.Power : Prop :=
  ∀ (s : State) (env : ResetEnv),
    let b := CEL.base
    (Answers .powerOnReset s fun t =>
      t.now = s.now ∧ t.pending = s.pending ∧ t.cellar.power = true ∧ t.cellar.phase = .inReset ∧
      t.cellar.releaseAt = s.now + 200 * us ∧ t.cellar.fresh = true ∧ t.cellar.setCount = s.cellar.setCount ∧
      t.core = State.reset.core ∧ t.eng = State.reset.eng ∧ t.leg = State.reset.leg ∧ t.ring = State.reset.ring ∧
      (∀ a, a ∉ [b + CEL.STATUS.W.off, b + CEL.SNAP_SEQ.W.off, b + CEL.LEDGER_HEAD.W.off, b + CEL.LEDGER_OVF.W.off,
        FLC.base + FLC.JSEQ.W.off, SYS.base + SYS.CLK_STATUS.W.off] → t.rd a = resetWordAt a) ∧
      (∀ f ∈ [CEL.STATUS.DEF_VALID, CEL.STATUS.SNAP_VALID, CEL.STATUS.SNAP_NEWEST, CEL.SNAP_SEQ.SEQ, CEL.LEDGER_HEAD.COUNT,
        CEL.LEDGER_HEAD.NEXT, CEL.LEDGER_OVF.COUNT], t.getF b f = s.getF b f) ∧
      t.getF FLC.base FLC.JSEQ.SEQ = s.getF FLC.base FLC.JSEQ.SEQ ∧
      (s.flash.cur = none → ∀ a, (0x20000000 ≤ a ∧ a < 0x21000000) ∨ (0x30000000 ≤ a ∧ a < 0x30040000) ∨
        (0x49002000 ≤ a ∧ a < 0x49006000) → t.byte a = s.byte a)) ∧
    (Answers .vddCelLoss s fun t => t.cellar.power = false ∧ t.cellar.phase = .inReset ∧ t.cellar.snap = none ∧
      t.cellar.queue = [] ∧ t.islandUp .ring = false ∧ t.islandUp .dbg = false ∧ ∀ i, t.reach (b + i) = 0 → 0x800 ≤ i) ∧
    (∀ present : Bool, Answers (.xinClockChange present) s fun t =>
      t.getB SYS.base SYS.CLK_STATUS.XIN_OK = present ∧
      t.getB SYS.base SYS.CLK_STATUS.REF_LOCK = (if s.getB SYS.base SYS.CLK_STATUS.REF_SRC
        then s.getB SYS.base SYS.CLK_STATUS.REF_LOCK else present && s.cellar.phase == .up) ∧
      OnlyFields s t SYS.base [SYS.CLK_STATUS.XIN_OK, SYS.CLK_STATUS.REF_LOCK]) ∧
    (s.cellar.phase = .up ∨ s.cellar.resetLow = true ∨ s.cellar.railsLow ≠ 0 ∨ s.cellar.shutHold = true ∨ s.cellar.power = false →
      Answers (.resetSequence env) s (· = s)) ∧
    (s.cellar.phase ≠ .up → s.cellar.resetLow = false → s.cellar.railsLow = 0 → s.cellar.shutHold = false →
      s.cellar.power = true → Answers (.resetSequence env) s fun t => t.now = max s.now (edgeDown s.cellar.releaseAt) ∧
        (s.getB SYS.base SYS.CLK_STATUS.XIN_OK = false →
          t = { s with now := t.now, cellar := { s.cellar with phase := .waitXin } }) ∧
        (s.getB SYS.base SYS.CLK_STATUS.XIN_OK = true →
          let o := if (s.chooseCopy env.optBad).2.2 = 0 then builtIn
            else s.optionsAt (optBase ((s.chooseCopy env.optBad).2.2 - 1)) (s.chooseCopy env.optBad).2.2
          t.options.coreEn = o.coreEn ∧ t.options.aisleEn = o.aisleEn ∧ t.options.bootVec = o.bootVec ∧
          t.options.restore = o.restore ∧ t.options.legSafe = o.legSafe ∧
          (∀ a : Fin 3, o.aisleEn.getLsbD a = true → t.islandUp (.aisle a) = true) ∧
          (s.islandUp .ring = false → s.cellar.islReset = [] → t.islandUp .ring = true) ∧
          (env.pcieLocked = true → t.islandUp .attic = true) ∧
          ∀ c : Fin 4, o.coreEn.getLsbD c = true → t.coreUp c = true ∧ t.core[c].pc = o.bootVec[c] ∧
            t.core[c] = { x := t.core[c].x, pc := o.bootVec[c], ccntFrom := t.now, gmFrom := t.now }))

/-- Resets of one island (R382, R385, R387–R390): a core of CORE_EN goes down with its cause and starts again at
BOOT_VEC; an aisle of AISLE_EN, the ring or the attic goes down and comes up again, but an armed hall refuses that of an
aisle; the attic follows its PCIe PLL; the debug island follows TRST_N and its power. Readings of the model: log entries
33, 35. -/
def Obligations.IslandResets : Prop :=
  ∀ (s : State) (init target : Fin 16) (env : ResetEnv),
    let b := CEL.base
    (Reaches s (b + CEL.RST_CMD.W.off) →
      (∀ h : target.val < 4, s.options.coreEn.getLsbD target = true → s.cellar.phase = .up →
        Answers (.coreResetCmd init target) s fun t => t.coreUp target.val = false ∧
          t.cellar.coreReset[(⟨target.val, h⟩ : Fin 4)] = some (3, s.now + us) ∧
          t.getF b ⟨CEL.RST_CAUSE.CORE.off, 2 * target.val + 25, 2 * target.val + 24⟩ = 3 ∧
          ∀ c : Fin 4, c.val ≠ target.val → t.core[c] = s.core[c]) ∧
      (4 ≤ target.val ∨ s.options.coreEn.getLsbD target = false ∨ s.cellar.phase ≠ .up →
        Answers (.coreResetCmd init target) s (· = s)) ∧
      (target.val < 3 → 2 ≤ s.getF b CEL.ARM_STATE.STATE → Answers (.islandResetCmd init target) s fun t =>
        t.getB b CEL.STATUS.RST_REFUSED = true ∧ OnlyFields s t b [CEL.STATUS.RST_REFUSED]) ∧
      (∀ h : target.val < 3, s.getF b CEL.ARM_STATE.STATE < 2 → s.options.aisleEn.getLsbD target = true →
        Answers (.islandResetCmd init target) s fun t => t.islandUp (.aisle ⟨target.val, h⟩) = false ∧
          ∀ j : Fin 12, j.val / 4 = target.val → t.car[j] = {} ∧ t.cnv[j] = {}) ∧
      (target.val < 3 → s.getF b CEL.ARM_STATE.STATE < 2 → s.options.aisleEn.getLsbD target = false →
        Answers (.islandResetCmd init target) s (· = s)) ∧
      (target = 8 → Answers (.islandResetCmd init target) s fun t => t.islandUp .ring = false) ∧
      (target = 9 → Answers (.islandResetCmd init target) s fun t => t.islandUp .attic = false) ∧
      (3 ≤ target.val → target ≠ 8 → target ≠ 9 → Answers (.islandResetCmd init target) s (· = s))) ∧
    (∀ c : Fin 4, (s.cellar.coreReset[c] = none → Answers (.coreReset c) s (· = s)) ∧
      ∀ k due, s.cellar.coreReset[c] = some (k, due) → Answers (.coreReset c) s fun t =>
        t.now = max s.now (edgeDown due) ∧ t.cellar = { s.cellar with coreReset := s.cellar.coreReset.set c none } ∧
        t.coreUp c = true ∧
        t.core[c] = { x := t.core[c].x, pc := s.options.bootVec[c], ccntFrom := t.now, gmFrom := t.now } ∧
        (∀ n : Fin 4, n ≠ c → t.core[n] = s.core[n]) ∧
        t.getF (WDT.base c) WDT.COUNT.COUNT = max 1 (s.getF (WDT.base c) WDT.TIMEOUT.TIMEOUT)) ∧
    (∀ i : Fin 16, ((∀ p ∈ s.cellar.islReset, p.1 ≠ i.val) → Answers (.islandReset i env) s (· = s)) ∧
      ∀ due, (s.cellar.islReset.find? fun p => p.1 == i.val) = some (i.val, due) → Answers (.islandReset i env) s fun t =>
        t.now = max s.now (edgeDown due) ∧
        (∀ h : i.val < 3, t.islandUp (.aisle ⟨i.val, h⟩) = true) ∧ (i = 8 → t.islandUp .ring = true) ∧
        (i = 9 → s.getB SYS.base SYS.CLK_STATUS.PCIE_LOCK = true → t.islandUp .attic = true) ∧
        (i = 9 → s.getB SYS.base SYS.CLK_STATUS.PCIE_LOCK = false →
          t = { s with now := t.now, cellar := { t.cellar with atticWait := true } })) ∧
    (s.cellar.phase = .up → s.cellar.atticWait = true → Answers (.atticIslandUp env) s fun t => t.islandUp .attic = true) ∧
    (s.cellar.phase ≠ .up ∨ s.cellar.atticWait = false → Answers (.atticIslandUp env) s (· = s)) ∧
    (Answers .debugReset s fun t => t.cellar.trstN = false ∧ t.islandUp .dbg = false ∧
      t.getB b CEL.STATUS.DBG_PWR = !s.getB b CEL.CTRL.DBG_OFF ∧ t.dbg = { upAt := t.dbg.upAt } ∧
      ∀ a, (place a).map Place.blk = some .dbg → a ≠ DBG.base + DBG.LOCK.W.off → t.rd a = resetWordAt a) ∧
    (Answers (.dbgPowerOn true) s fun t => t.cellar.trstN = true ∧ t.islandUp .dbg = true ∧
      t.getB b CEL.STATUS.DBG_PWR = true) ∧
    (Answers (.dbgPowerOn false) s fun t => t.cellar.trstN = false ∧ t.now = s.now ∧
      t.getB b CEL.STATUS.DBG_PWR = !s.getB b CEL.CTRL.DBG_OFF)

/-! ### The store room -/

/-- The descriptor queue (R353, R354, R357–R359, R366): HEAD takes a value that the ring can hold and refuses any other;
the descriptor at TAIL is read and judged, or halts the queue where it cannot be read; a WP_SET of the edge of the
judgement counts in it (R374); at the end of its operation its code and INDEX (the first line that fails, R358) are
written, TAIL advances, and the queue halts on any code but OK; an erase that verifies leaves ones and clears the torn
state, one that does not leaves its sectors torn. Readings of the model: log entries 12, 47. -/
def Obligations.FlashQueue : Prop :=
  ∀ (s : State) (init : Fin 16),
    let b := FLC.base
    let head := s.getF b FLC.FQ_HEAD.HEAD
    let tail := s.getF b FLC.FQ_TAIL.TAIL
    let size := 2 ^ min 8 (s.getF b FLC.FQ_CFG.SIZE)
    let desc := s.getF b FLC.FQ_BASE.BASE + 16 * (tail % size)
    (∀ v : Word, Reaches s (b + FLC.FQ_HEAD.W.off) → Answers (.fqHead init v) s fun t =>
      let fits := (v.toNat % 65536 + 65536 - tail) % 65536 ≤ size
      t.getF b FLC.FQ_HEAD.HEAD = (if fits then v.toNat % 65536 else head) ∧
      t.getF b FLC.CNT.HEAD_REFUSED = (if fits then s.getF b FLC.CNT.HEAD_REFUSED
        else min (s.getF b FLC.CNT.HEAD_REFUSED + 1) 0xFFFF) ∧
      OnlyFields { s with warranted := t.warranted } t b [FLC.FQ_HEAD.W, FLC.CNT.HEAD_REFUSED]) ∧
    (∀ (w : Fin 8) (mask : Word), Reaches s (b + (FLC.WP_SET.MASK.at (4 * w)).off) → Answers (.wpSet init w mask) s fun t =>
      t.getF b (FLC.WP.WP.at (4 * w)) = s.getF b (FLC.WP.WP.at (4 * w)) ||| mask.toNat ∧
      OnlyFields { s with flash := t.flash } t b [FLC.WP.WP.at (4 * w)] ∧ (s.flash.cur = none → t.flash = s.flash) ∧
      ∀ o, s.flash.cur = some o → t.flash =
        if o.judgedAt = s.now ∧ o.started = false ∧ o.result = none ∧ t.forbidden o = true then
          { s.flash with cur := some { o with result := some (3, 0) } }
        else s.flash) ∧
    (Reaches s (b + FLC.CMD.W.off) → Answers (.flcResume init) s fun t =>
      t.getB b FLC.STATUS.HALTED = false ∧ t.getB b FLC.STATUS.DESC_ERR = false ∧
      OnlyFields s t b [FLC.STATUS.HALTED, FLC.STATUS.DESC_ERR]) ∧
    (∀ env, s.getB b FLC.CTRL.ENABLE = false ∨ s.getB b FLC.STATUS.HALTED = true ∨ s.flash.cur ≠ none ∨ head = tail →
      Answers (.descriptorFetch env) s (· = s)) ∧
    (∀ env, s.getB b FLC.CTRL.ENABLE = true → s.getB b FLC.STATUS.HALTED = false → s.flash.cur = none → head ≠ tail →
      s.getF b FLC.FQ_BASE.BASE % 16 = 0 → s.getF b FLC.FQ_BASE.BASE + 16 * size ≤ 0x400000 →
      (∀ d, s.readSpan desc env 2 = (.ok d, s) → Answers (.descriptorFetch env) s fun t =>
        let w0 := d % 2 ^ 32
        let o : FlashOp := { op := w0 % 256, irq := w0.testBit 8, par := w0.testBit 9, count := w0 / 65536 % 128
                             faddr := d / 2 ^ 32 % 2 ^ 32, src := d / 2 ^ 64 % 2 ^ 32, judgedAt := s.now }
        t.flash = { s.flash with cur := some { o with result := (s.judgeDesc w0 o).map fun c => (c, 0) } } ∧
        t.getB b FLC.STATUS.BUSY = true ∧ OnlyFields { s with flash := t.flash } t b [FLC.STATUS.BUSY]) ∧
      (∀ k u, s.readSpan desc env 2 = (.err k, u) → Answers (.descriptorFetch env) s fun t =>
        t.getB b FLC.STATUS.HALTED = true ∧ t.getB b FLC.STATUS.DESC_ERR = true ∧
        OnlyFields u t b [FLC.STATUS.HALTED, FLC.STATUS.DESC_ERR])) ∧
    (∀ failing, s.flash.cur = none → Answers (.descriptorCompletion failing) s (· = s)) ∧
    (∀ failing o, s.flash.cur = some o → s.heldFrom 7 .sram desc = true ∨ s.heldFrom 7 .sram (desc + 12) = true →
      Answers (.descriptorCompletion failing) s (· = s)) ∧
    (desc % 8 = 0 → desc + 16 ≤ 0x400000 → s.islandUp .fabric = true → s.heldFrom 7 .sram desc = false →
      s.heldFrom 7 .sram (desc + 12) = false →
      let ended (t : State) (o : FlashOp) (code index : Nat) : Prop :=
        t.mem32 (desc + 12) = (code + 65536 * index) % 2 ^ 32 ∧ t.getF b FLC.FQ_TAIL.TAIL = (tail + 1) % 65536 ∧
        t.flash.cur = none ∧ t.flash.erase = none ∧ t.getB b FLC.STATUS.BUSY = false ∧
        (o.faddr < 0x1000000 → ∀ k < 2, t.bit b FLC.STATUS.BANK_BUSY k =
          (s.bit b FLC.STATUS.BANK_BUSY k && !(o.started && decide (o.op ≤ 3) && decide (k = o.faddr / 0x800000)))) ∧
        t.getB b FLC.STATUS.HALTED = (s.getB b FLC.STATUS.HALTED || decide (code ≠ 1)) ∧
        t.crier.launched = (if o.irq && s.bit b FLC.IRQ_EN.SRC 0 then s.crier.launched ++ [109] else s.crier.launched)
      (∀ o c i failing, s.flash.cur = some o → o.result = some (c, i) → Answers (.descriptorCompletion failing) s fun t =>
        ended t o c i ∧ (∀ a, a < desc + 12 ∨ desc + 16 ≤ a → t.byte a = s.byte a)) ∧
      ∀ (o : FlashOp) (failing : Option (Fin 262144)), s.flash.cur = some o → o.result = none → o.started = true →
        let ok := failing.isNone
        let first (lines : Nat) : Nat := (failing.getD 0).val % lines
        (∀ r, s.flash.erase = some r → r.suspended = true → Answers (.descriptorCompletion failing) s (· = s)) ∧
        (s.flash.erase.all (fun r => !r.suspended) = true →
          (o.op = 2 ∨ o.op = 3 → o.faddr + 0x10000 * (if o.op = 3 then 128 else 1) ≤ 0x1000000 →
            Answers (.descriptorCompletion failing) s fun t =>
              ended t o (if ok then 1 else 7) (first (if o.op = 3 then 262144 else 2048)) ∧
              ∀ x < 256, o.faddr / 65536 ≤ x → x < o.faddr / 65536 + (if o.op = 3 then 128 else 1) →
                t.torn x = !ok ∧ (ok = true → (t.byte (0x3003C000 + 8 * x)).getLsbD 0 = false ∧
                  (o.faddr % 65536 = 0 → ∀ i < 65536, t.byte (0x20000000 + 65536 * x + i) = 0xFF))) ∧
          (o.op = 6 → o.faddr < 2 → o.src + 0x2000 ≤ 0x400000 → Answers (.descriptorCompletion failing) s fun t =>
            ended t o (if ok then 1 else 6) (first 256) ∧
            ∀ i < 0x2000, t.byte (0x49002000 + 0x2000 * o.faddr + i) =
              if ok then s.byte (o.src + i) else s.byte (0x49002000 + 0x2000 * o.faddr + i)) ∧
          (o.op = 7 → o.faddr < 2 → Answers (.descriptorCompletion failing) s fun t =>
            ended t o (if ok then 1 else 7) (first 256) ∧
            (ok = true → ∀ i < 0x2000, t.byte (0x49002000 + 0x2000 * o.faddr + i) = 0xFF))))

/-- The operations (R349–R352, R356, R358, R365, R372): each line is checked, read from SRC and programmed by itself, and
what the SECDED code finds in the reads of the array counts; an erase opens the journal for its sectors with one sequence
number; checks end with the first failing line; a copy of the options is written only where it is erased and the image
valid. Readings of the model: log entries 20, 47. -/
def Obligations.FlashOperations : Prop :=
  ∀ (s : State) (o : FlashOp), s.flash.cur = some o → o.result = none →
    (∀ l, s.flash.refresh = some l → l / 262144 ≠ o.faddr / 0x800000) →
    let b := FLC.base
    let l := o.faddr / 32 + o.idx
    let cell (l : Nat) : Nat := 0x20000000 + 32 * l
    let ends (t : State) (code index : Nat) : Prop :=
      t = { s with flash := { s.flash with cur := some { o with result := some (code, index), line := none, started := true } } }
    let counted (ecc : EccFinding) (t : State) : Prop :=
      t.getF b FLC.CNT.UNC = min (s.getF b FLC.CNT.UNC + if ecc = .uncorrectable then 1 else 0) 0xFFFF ∧
      t.getF b FLC.ECC_CNT.COUNT = min (s.getF b FLC.ECC_CNT.COUNT + if ecc = .clean ∨ ecc = .uncorrectable then 0 else 1) 0xFFFFFFFF
    let x := o.faddr / 65536
    let lines := if o.count = 0 then 2048 else o.count
    let data (a : Nat) (d : Nat) : Prop := s.readSpan a {} 4 = (.ok d, s)
    let seq := s.getF b FLC.JSEQ.SEQ
    (o.op = 1 → o.line = none →
      (s.lineBlank l = false → ∀ ecc env, Answers (.progLines ⟨ecc, env⟩) s fun t => counted ecc t ∧
        t.flash = { s.flash with cur := some { o with result := some (5, o.idx), line := none, started := true } } ∧
        t.mem = s.mem ∧ (ecc = .clean → ends t 5 o.idx)) ∧
      (s.lineBlank l = true → ∀ ecc d, data (o.src + 32 * o.idx) d → o.faddr < 0x1000000 → Answers (.progLines ⟨ecc, {}⟩) s fun t =>
        t.flash = { s.flash with cur := some { o with started := true, line := some (if o.par then lineWithParity d 16 else d) } } ∧
        t.bit b FLC.STATUS.BANK_BUSY (o.faddr / 0x800000) = true ∧
        OnlyFields { s with flash := t.flash } t b [FLC.STATUS.BANK_BUSY])) ∧
    (∀ d, o.line = some d →
      (∀ ecc, ecc ≠ .uncorrectable → Answers (.lineProgramEnd ⟨true, ecc⟩) s fun t => counted ecc t ∧
        (ecc = .clean → t = { s with mem := t.mem, flash := t.flash }) ∧ t.bytes (cell l) 32 = d % 2 ^ 256 ∧
        (∀ a, a < cell l ∨ cell l + 32 ≤ a → t.byte a = s.byte a) ∧ l ∉ t.flash.buffers ∧
        t.flash.cur = some { o with
          idx := o.idx + 1, line := none, started := o.started || decide (o.idx + 1 = o.count)
          result := if o.idx + 1 = o.count then some (1, 0) else none } ∧
        ∀ w ∈ t.flash.waiting, w.line / 262144 = l / 262144 → w.served = true) ∧
      ∀ ok ecc, ok = false ∨ ecc = .uncorrectable → Answers (.lineProgramEnd ⟨ok, ecc⟩) s fun t => counted ecc t ∧
        (ecc = .clean → t = { s with flash := t.flash }) ∧ t.mem = s.mem ∧
        t.flash.cur = some { o with result := some (6, o.idx), line := none, started := true } ∧
        ∀ w ∈ t.flash.waiting, w.line / 262144 = l / 262144 → w.served = true) ∧
    (o.started = false → o.faddr < 0x1000000 →
      (o.op = 2 → Answers .eraseSector s fun t =>
        t.bytes (0x3003C000 + 8 * x) 8 = 1 + 256 * x + 2 ^ 32 * seq ∧
        (∀ a, a < 0x3003C000 + 8 * x ∨ 0x3003C008 + 8 * x ≤ a → t.byte a = s.byte a) ∧
        t.getF b FLC.JSEQ.SEQ = (seq + 1) % 2 ^ 32 ∧ t.bit b FLC.STATUS.BANK_BUSY (o.faddr / 0x800000) = true ∧
        t.flash = { s.flash with cur := some { o with started := true }, erase := some { seq := seq, runFrom := s.now } } ∧
        OnlyFields { s with mem := t.mem, flash := t.flash } t b [FLC.JSEQ.SEQ, FLC.STATUS.BANK_BUSY]) ∧
      (o.op = 3 → Answers .eraseBank s fun t =>
        (∀ i < 128, t.bytes (0x3003C000 + 8 * (x + i)) 8 = 1 + 256 * (x + i) + 2 ^ 32 * seq) ∧
        (∀ a, a < 0x3003C000 + 8 * x ∨ 0x3003C400 + 8 * x ≤ a → t.byte a = s.byte a) ∧
        t.getF b FLC.JSEQ.SEQ = (seq + 1) % 2 ^ 32 ∧ t.bit b FLC.STATUS.BANK_BUSY (o.faddr / 0x800000) = true ∧
        t.flash = { s.flash with cur := some { o with started := true }, erase := some { seq := seq, runFrom := s.now } })) ∧
    (o.op = 4 →
      ((∀ i < lines, s.lineBlank (o.faddr / 32 + i) = true) → Answers (.blankCheck {}) s fun t => ends t 1 0) ∧
      (∀ i < lines, (∀ j < i, s.lineBlank (o.faddr / 32 + j) = true) →
        (s.lineBlank (o.faddr / 32 + i) = false → Answers (.blankCheck {}) s fun t => ends t 5 i) ∧
        Answers (.blankCheck { uncorrectable := [i] }) s fun t =>
          t.flash.cur = some { o with result := some (10, i), line := none, started := true } ∧
          t.getF b FLC.CNT.UNC = min (s.getF b FLC.CNT.UNC + 1) 0xFFFF)) ∧
    (o.op = 5 → ∀ d : Nat → Nat, (∀ i < lines, data (o.src + 32 * i) (d i)) →
      ((∀ i < lines, s.bytes (cell (o.faddr / 32 + i)) 32 = d i) → Answers (.verify {} {}) s fun t => ends t 1 0) ∧
      ∀ i < lines, (∀ j < i, s.bytes (cell (o.faddr / 32 + j)) 32 = d j) → s.bytes (cell (o.faddr / 32 + i)) 32 ≠ d i →
        Answers (.verify {} {}) s fun t => ends t 8 i) ∧
    (o.op = 6 → o.started = false →
      let ones (i : Nat) : Prop := ∀ k < 32, s.byte (0x49002000 + 0x2000 * o.faddr + 32 * i + k) = 0xFF
      (∀ i < 256, (∀ j < i, ones j) → ¬ ones i → ∀ env, Answers (.optWrite env) s fun t => ends t 5 i) ∧
      (∀ env i u, (∀ j < 256, ones j) → s.readLines o.src env 0 256 = (.err i, u) → Answers (.optWrite env) s fun t =>
        t = { u with flash := { u.flash with cur := some { o with result := some (9, i), line := none, started := true } } }) ∧
      ((∀ j < 256, ones j) → s.readLines o.src {} 0 256 = (.ok 0, s) →
        (s.optValid o.src = true → Answers (.optWrite {}) s fun t =>
          t = { s with flash := { s.flash with cur := some { o with started := true } } }) ∧
        (s.optValid o.src = false → Answers (.optWrite {}) s fun t => ends t 11 0))) ∧
    (o.op = 7 → Answers .optErase s fun t =>
      t = { s with flash := { s.flash with cur := some { o with started := true } } })

/-- Reads, suspension and scrub (R351, R352, R362–R364, R366, R368, R369): a read takes its word from an idle bank,
waits at a busy one and asks a running erase to let it in, and ends in a bus error in a sector being erased, or torn once
its bank serves it; an erase is suspended 20 µs after it is asked, and runs again on RESUME_ERASE or 1 µs after the last
waiting read of its bank, but not where a read comes on that edge (R374); scrub reads line after line and refreshes one
with a correctable error, its bank busy meanwhile. Readings of the model: log entries 29, 47. -/
def Obligations.FlashReads : Prop :=
  ∀ (s : State) (init : Fin 16) (offset : BitVec 24),
    let b := FLC.base
    let l := offset.toNat / 32
    let a := 0x20000000 + offset.toNat / 4 * 4
    let bank (l : Nat) : Nat := l / 262144
    let free : Prop := s.erasing (l / 2048) = false ∧ s.islandUp .fabric = true
    let torn := s.torn (l / 2048)
    (free → (∀ w ∈ s.flash.waiting, w.init ≠ init.val ∨ w.line ≠ l) →
      (s.programming (bank l) = false → s.eraseRuns (bank l) = false →
        (torn = false → Answers (.flashRead init offset false .clean) s fun t =>
          t.readData = s.readData.set init (BitVec.ofNat 32 (s.mem32 a)) ∧
          t = { s with readData := t.readData, flash := t.flash, free := t.free } ∧ t.flash.waiting = s.flash.waiting) ∧
        (torn = true → ∀ ecc, Answers (.flashRead init offset false ecc) s fun t =>
          t = ({ s with flash := t.flash }).busError init a 7 false ∧ t.flash.waiting = s.flash.waiting) ∧
        (∀ ecc, ecc = .clean ∨ torn = true → Answers (.flashRead init offset true ecc) s fun t =>
          t = { s with flash := t.flash } ∧ t.flash.waiting = s.flash.waiting)) ∧
      (s.programming (bank l) = true → s.eraseRuns (bank l) = false → ∀ ecc, Answers (.flashRead init offset true ecc) s fun t =>
        t = { s with flash := { s.flash with waiting := s.flash.waiting ++ [⟨init, l, true, false⟩] } }) ∧
      (∀ r, s.flash.erase = some r → s.eraseRuns (bank l) = true →
        (r.delayed = false ∨ r.runFrom ≠ s.now → ∀ ecc, Answers (.flashRead init offset true ecc) s fun t =>
          let m := min 32 (max 1 (s.getF b FLC.CTRL.MINRUN))
          t = { s with flash := { s.flash with
            waiting := s.flash.waiting ++ [⟨init, l, true, false⟩]
            erase := some { r with asked := some (r.asked.getD (max s.now (r.runFrom + m * 250 * us))) } } }) ∧
        (r.delayed = true → r.runFrom = s.now → Answers (.flashRead init offset true .clean) s fun t =>
          t.flash = { s.flash with erase := some { r with suspended := true, asked := none, delayed := false, served := s.now } } ∧
          t.getB b FLC.STATUS.SUSP = true ∧ OnlyFields { s with flash := t.flash } t b [FLC.STATUS.SUSP]))) ∧
    (s.islandUp .fabric = true → s.erasing (l / 2048) = true →
      ∀ ecc, (Answers (.flashRead init offset false ecc) s fun t => t = s.busError init a 7 false) ∧
        Answers (.flashRead init offset true ecc) s (· = s)) ∧
    (Reaches s (b + FLC.CMD.W.off) →
      (s.flash.erase.all (·.suspended) = true → Answers (.suspend init) s (· = s)) ∧
      (∀ r, s.flash.erase = some r → r.suspended = false → Answers (.suspend init) s fun t =>
        let m := min 32 (max 1 (s.getF b FLC.CTRL.MINRUN))
        t = { s with flash := { s.flash with erase := some { r with
          asked := some (r.asked.getD (max s.now (r.runFrom + m * 250 * us))), sw := true } } }) ∧
      (s.flash.erase.all (!·.suspended) = true → Answers (.resumeErase init) s (· = s)) ∧
      (∀ r, s.flash.erase = some r → r.suspended = true → (∀ w ∈ s.flash.waiting, w.served = true) →
        Answers (.resumeErase init) s fun t =>
          t.flash = { s.flash with
            erase := some { r with suspended := false, sw := false, asked := none, runFrom := s.now, delayed := false } } ∧
          t.getB b FLC.STATUS.SUSP = false ∧ t.getB b FLC.STATUS.SUSP_SW = false ∧
          OnlyFields { s with flash := t.flash } t b [FLC.STATUS.SUSP, FLC.STATUS.SUSP_SW])) ∧
    (s.flash.erase.all (fun r => r.suspended || r.asked.isNone) = true → Answers .eraseSuspend s (· = s)) ∧
    (∀ r t0, s.flash.erase = some r → r.suspended = false → r.asked = some t0 → Answers .eraseSuspend s fun t =>
      t.now = max s.now (edgeDown (t0 + 20 * us)) ∧ (∃ q, t.flash.erase = some q ∧ q.suspended = true ∧ q.sw = r.sw) ∧
      t.getB b FLC.STATUS.SUSP = true ∧ t.getB b FLC.STATUS.SUSP_SW = r.sw ∧
      (∀ o, s.flash.cur = some o → ∀ w ∈ t.flash.waiting, bank w.line = o.faddr / 0x800000 → w.served = true) ∧
      OnlyFields { s with now := t.now, flash := t.flash } t b [FLC.STATUS.SUSP, FLC.STATUS.SUSP_SW]) ∧
    (s.flash.erase.all (fun r => !r.suspended || r.sw) = true → Answers .eraseResume s (· = s)) ∧
    (∀ r, s.flash.erase = some r → r.suspended = true → r.sw = false → (∀ w ∈ s.flash.waiting, w.served = true) →
      Answers .eraseResume s fun t => t.now = max s.now (edgeDown (r.served + us)) ∧
        t.flash.erase = some { r with suspended := false, sw := false, asked := none, runFrom := t.now, delayed := true } ∧
        t.getB b FLC.STATUS.SUSP = false ∧ t.getB b FLC.STATUS.SUSP_SW = false ∧
        OnlyFields { s with now := t.now, flash := t.flash } t b [FLC.STATUS.SUSP, FLC.STATUS.SUSP_SW]) ∧
    (∀ ecc, s.getB b FLC.CTRL.SCRUB_EN = false ∨ s.flash.refresh ≠ none → Answers (.scrubRead ecc) s (· = s)) ∧
    (s.getB b FLC.CTRL.SCRUB_EN = true → s.flash.refresh = none →
      let k := s.flash.scrubLine
      let due := max s.now (edgeDown (s.flash.scrubAt + max 1 (s.getF b FLC.SCRUB_CFG.INTERVAL) * us))
      let busy : Prop := (∃ o, s.flash.cur = some o ∧ o.started = true ∧ o.result = none ∧ o.op ≤ 3 ∧ o.faddr / 0x800000 = bank k) ∨
        s.torn (k / 2048) = true ∨ ∃ w ∈ s.flash.waiting, w.served = false ∧ bank w.line = bank k
      (busy → ∀ ecc, Answers (.scrubRead ecc) s fun t => t = { s with now := due, flash := { s.flash with scrubAt := due } }) ∧
      (¬ busy → ∀ ecc, Answers (.scrubRead ecc) s fun t =>
        t.now = due ∧ t.flash.scrubAt = due ∧ t.flash.scrubLine = (k + 1) % 524288 ∧
        t.getF b FLC.SCRUB_POS.LINE = (k + 1) % 524288 / 8 ∧
        t.flash.refresh = (match ecc with | .correctable _ => some k | _ => none) ∧
        (ecc = .uncorrectable → t.getF b FLC.CNT.UNC = min (s.getF b FLC.CNT.UNC + 1) 0xFFFF) ∧
        (∀ y, ecc = .correctable y → t.getF b FLC.ECC_CNT.COUNT = min (s.getF b FLC.ECC_CNT.COUNT + 1) 0xFFFFFFFF ∧
          (k < 524288 → t.bit b FLC.STATUS.BANK_BUSY (bank k) = true)))) ∧
    ∀ gone, (s.flash.refresh = none → Answers (.scrubRefresh gone) s (· = s)) ∧
      ∀ k, s.flash.refresh = some k → Answers (.scrubRefresh gone) s fun t => t.flash = { s.flash with refresh := none } ∧
        t.getF b FLC.SCRUB_STAT.REFRESHED = min (s.getF b FLC.SCRUB_STAT.REFRESHED + gone.toNat) 0xFFFF ∧
        t.getF b FLC.SCRUB_STAT.STUCK = min (s.getF b FLC.SCRUB_STAT.STUCK + (!gone).toNat) 0xFFFF ∧
        (k < 524288 → t.bit b FLC.STATUS.BANK_BUSY (bank k) = false) ∧
        (gone = false → t.getF b FLC.SCRUB_STUCK.OFFSET = 32 * k % 2 ^ 24)

/-! ### The ring -/

/-- Ports (R415, R416, R418, R419): a port that has trained comes up, tells its neighbour who the hall is, and is used
at once by an isolated hall; one that loses its clock or its blocks, or receives LINK_FAULT, goes down, counts, and
leaves the hall wrapped or isolated; UNWRAP uses it again once the neighbour has reported up; the link delay is half of
the round trip less the turnaround. A ring island that is down does none of this. Readings of the model: log entries 48,
49. -/
def Obligations.RingPorts : Prop :=
  ∀ (s : State) (p : Fin 2) (node : BitVec 7) (up : Bool) (turn : Nat),
    let b := KNR.base
    let wrapped (t : State) : Prop := t.getB b KNR.STATUS.WRAPPED = true ↔ (t.ring.use = 1 ∨ t.ring.use = 2)
    let ports : List Nat := [b + 0x80, b + 0x90, b + KNR.STATUS.W.off, b + KNR.LINK_CNT.W.off, b + KNR.RING_CNT.W.off]
    let inside (t : State) : Prop := t = { s with regs := t.regs, ring := t.ring, happened := t.happened } ∧ ∀ a, a ∉ ports → t.rd a = s.rd a
    let down (t : State) : Prop := t.getB b (portUpF p) = false ∧ inside t ∧
      (s.getB b (portUpF p) = true →
        (∀ k : Fin 2, t.ring.use.getLsbD k = (s.ring.use.getLsbD k && k != p)) ∧ wrapped t ∧
        t.ring.sent = s.ring.sent ++ [(p.val, .linkFault)] ∧ t.ring.nbrUp.getLsbD p = false ∧
        t.getF b (if p = 0 then KNR.LINK_CNT.KA_DOWN else KNR.LINK_CNT.KB_DOWN) =
          min (s.getF b (if p = 0 then KNR.LINK_CNT.KA_DOWN else KNR.LINK_CNT.KB_DOWN) + 1) 0xFFFF) ∧
      (s.getB b (portUpF p) = false → t.ring = s.ring)
    (s.islandUp .ring = true →
      (s.options.ports.getLsbD p = true → s.getB b (portUpF p) = false → Answers (.portUp p) s fun t =>
        t.getB b (portUpF p) = true ∧ t.getB b (cdrLockF p) = true ∧ t.getB b (blockLockF p) = true ∧
        t.getB b (faultRxF p) = false ∧
        t.ring.sent = s.ring.sent ++ [(p.val, .ident s.nodeId s.options.master true)] ∧ inside t ∧
        (s.ring.use = 0 → t.ring.use = BitVec.ofNat 2 (2 ^ p.val) ∧ t.getB b KNR.STATUS.WRAPPED = true) ∧
        (s.ring.use ≠ 0 → t.ring.use = s.ring.use ∧ t.getB b KNR.STATUS.WRAPPED = s.getB b KNR.STATUS.WRAPPED)) ∧
      (s.options.ports.getLsbD p = false ∨ s.getB b (portUpF p) = true → Answers (.portUp p) s (· = s)) ∧
      (Answers (.portDown p) s fun t => down t ∧ t.getB b (cdrLockF p) = false ∧ t.getB b (blockLockF p) = false ∧
        t.getB b (faultRxF p) = s.getB b (faultRxF p)) ∧
      (Answers (.linkFault p) s fun t => down t ∧ t.getB b (faultRxF p) = true) ∧
      (s.getB b (portUpF p) = true → s.ring.nbrUp.getLsbD p = true → Answers (.unwrap p) s fun t =>
        (∀ k : Fin 2, t.ring.use.getLsbD k = (s.ring.use.getLsbD k || k == p)) ∧ wrapped t ∧ inside t ∧
        t.ring = { s.ring with use := t.ring.use }) ∧
      (s.getB b (portUpF p) = false ∨ s.ring.nbrUp.getLsbD p = false → Answers (.unwrap p) s (· = s)) ∧
      (Answers (.ident p node up) s fun t =>
        t.getF b (KNR.PSTATUS.NBR_ID.at (0x10 * p)) = node.toNat ∧
        (∀ k : Fin 2, t.ring.nbrUp.getLsbD k = if k = p then up else s.ring.nbrUp.getLsbD k) ∧
        OnlyFields { s with ring := { s.ring with nbrUp := t.ring.nbrUp } } t b [KNR.PSTATUS.NBR_ID.at (0x10 * p)]) ∧
      (Answers (.dlyReq p) s fun t => ∃ v < 2 ^ 32,
        t = { s with free := s.free + 1, ring := { s.ring with sent := s.ring.sent ++ [(p.val, .dlyRsp v)] } }) ∧
      (Answers (.dlyRsp p turn) s fun t =>
        t.getF b (KNR.LINK_DLY.DLY.at (0x10 * p)) = (((s.now - s.ring.dlySent[p]) / 25 - turn) / 2) % 2 ^ 32 ∧
        OnlyFields s t b [KNR.LINK_DLY.DLY.at (0x10 * p)]) ∧
      (s.options.ports.getLsbD p = true → Answers (.linkDelayMeasurement p) s fun t =>
        t.now = (if s.getB b (portUpF p) then max s.now (edgeDown (s.ring.dlySent[p] + 1000 * us)) else s.now) ∧
        t = { s with now := t.now, ring := { s.ring with
          sent := s.ring.sent ++ [(p.val, .dlyReq)], dlySent := s.ring.dlySent.set p t.now } }) ∧
      (s.options.ports.getLsbD p = false → Answers (.linkDelayMeasurement p) s (· = s))) ∧
    (s.islandUp .ring = false →
      ∀ i ∈ [Instr.portUp p, .portDown p, .linkFault p, .unwrap p, .ident p node up, .dlyReq p, .dlyRsp p turn,
        .linkDelayMeasurement p], Answers i s (· = s))

/-- The master and its cycles (R423–R426, R431, R432, R440): a candidate suppresses a worse beacon and forwards others;
after 1 ms without a better one it becomes the master, whose cycles start at multiples of the cycle time of its market
time; on a capture instant a published bank becomes the one to send, and the master takes its PD_LEN; LOSS_CYC cycle
times without a header set CYCLE_LOST, return the reference to XIN, and let a takeover member go on with the schedule;
1 ms of headers moves the reference to the ring. Readings of the model: log entries 48, 50, 74,
76. -/
def Obligations.RingCycles : Prop :=
  ∀ (s : State) (node : BitVec 7) (priority : Bool),
    let b := KNR.base
    let better := (priority = true ∧ s.options.master = false) ∨ (priority = s.options.master ∧ node.toNat < s.nodeId)
    let period := s.getF b KNR.CYCLE_CFG.PERIOD
    let masters (t : State) : Prop := t.getB b KNR.STATUS.MASTER = true ∧ t.getF b KNR.IDS.MASTER_ID = s.nodeId ∧
      t.ring.capAt = some (t.ring.nextCycle, t.ring.nextAt)
    (s.islandUp .ring = true →
      (s.streamPort = none ∨ (s.candidate = true ∧ ¬ better) → Answers (.beacon node priority) s (· = s)) ∧
      (s.streamPort ≠ none → s.candidate = false ∨ better → Answers (.beacon node priority) s fun t =>
        t = { s with ring := { s.ring with
          sent := s.ring.sent ++ [(s.exitPort, .beacon node.toNat priority)]
          prio := (if priority then [node.toNat] else []) ++ s.ring.prio.filter (· != node.toNat)
          betterAt := if s.candidate then some s.now else s.ring.betterAt } }) ∧
      (s.candidate = false ∨ s.streamPort = none ∨ s.getB b KNR.STATUS.MASTER = true →
        Answers .masterElection s (· = s)) ∧
      (s.candidate = true → s.streamPort ≠ none → s.getB b KNR.STATUS.MASTER = false →
        Answers .masterElection s fun t =>
          t.now = max s.now (edgeDown (max s.ring.candFrom (s.ring.betterAt.getD 0) + 1000 * us)) ∧ masters t ∧
          t.ring.took = false ∧
          t.ring.nextCycle = (if s.ring.started then s.ring.nextCycle else 0) ∧
          t.ring.nextAt % cycleNs period = 0 ∧ t.marketUnits ≤ t.ring.nextAt * ns ∧
          t.ring.nextAt * ns < t.marketUnits + cycleNs period * ns ∧
          (s.getF b KNR.IDS.MASTER_ID ≠ s.nodeId →
            t.getF b KNR.RING_CNT.MASTER_CHG = min (s.getF b KNR.RING_CNT.MASTER_CHG + 1) 0xFFFF) ∧
          BlkBut .knr s t fun a => a ∈ [b + KNR.STATUS.W.off, b + KNR.IDS.W.off, b + KNR.RING_CNT.W.off]) ∧
      (s.ring.capAt = none → Answers .captureInstant s (· = s)) ∧
      (∀ n t0, s.ring.capAt = some (n, t0) → Answers .captureInstant s fun t =>
        t.now = max s.now (edgeDown (s.marketReaches t0)) ∧ t.getB b KNR.STATUS.PUB_PEND = false ∧
        t.ring = { s.ring with
          captured := some n, capturedOn := some t.now, copied := s.getB b KNR.STATUS.PUB_PEND
          lens := if s.getB b KNR.STATUS.MASTER then Vector.ofFn fun (i : Fin 64) => BitVec.ofNat 6 (s.pdLen (i.val + 1))
            else s.ring.lens
          send := if s.getB b KNR.STATUS.PUB_PEND then s.pdTx s.txLen else s.ring.send
          capAt := some ((n + 1) % 2 ^ 32,
            t0 + cycleNs (if s.getB b KNR.STATUS.MASTER then period else s.ring.period)) } ∧
        OnlyFields { s with now := t.now, ring := t.ring, crier := t.crier } t b [KNR.STATUS.PUB_PEND]) ∧
      (s.ringMember = false ∨ s.getB b KNR.STATUS.MASTER = false ∨ s.ring.captured ≠ some s.ring.nextCycle →
        Answers .cycleStart s (· = s)) ∧
      (s.ringMember = true → s.getB b KNR.STATUS.MASTER = true → s.streamPort ≠ none →
        s.ring.captured = some s.ring.nextCycle → Answers .cycleStart s fun t =>
          t.now = max s.now (edgeDown (s.marketReaches s.ring.nextAt + ac)) ∧ t.ring.nextCycle = (s.ring.nextCycle + 1) % 2 ^ 32 ∧
          t.ring.nextAt = s.ring.nextAt + cycleNs period ∧ t.getB b KNR.STATUS.MT_LOCKED = true ∧
          t.ring.sof = some (s.ring.nextCycle, t.now) ∧ t.ring.returned = none ∧ ∃ f : RingFrame, t.ring.frameOut = some f ∧
            f.cycle = BitVec.ofNat 32 s.ring.nextCycle ∧ f.master = s.nodeId ∧
            f.mktTrip = (s.ring.returned.elim false fun r => r.mktAcc) ∧ f.mt = BitVec.ofNat 64 t.marketNs ∧
            f.period = min 8000 (max 16 period) ∧ f.tnext = BitVec.ofNat 64 (s.ring.nextAt + cycleNs period) ∧
            f.lens = s.ring.lens ∧ (s.ring.sof.isSome = true → s.ring.returned = none → t.getF b KNR.LOOP_DLY.DLY = 0xFFFFFFFF) ∧
            f.mbxLen = min 256 (s.getF b KNR.MBX_CFG.MBX_LEN) ∧ f.hdrOk = true ∧ f.schedOk = true ∧ f.mbxOk = true) ∧
      (s.ring.hdrAt = none ∨ s.getB b KNR.STATUS.CYCLE_LOST = true → Answers .cycleLost s (· = s)) ∧
      (∀ t0, s.ring.hdrAt = some t0 → s.getB b KNR.STATUS.CYCLE_LOST = false → Answers .cycleLost s fun t =>
        t.now = max s.now (edgeDown (t0 + max 1 (s.getF b KNR.CTRL.LOSS_CYC) * cycleNs s.ring.period * ns + ac)) ∧
        t.getB b KNR.STATUS.CYCLE_LOST = true ∧ t.getB b KNR.STATUS.MT_LOCKED = false ∧
        t.getB SYS.base SYS.CLK_STATUS.REF_SRC = false ∧
        t.getB SYS.base SYS.CLK_STATUS.REF_LOCK = (if s.getB SYS.base SYS.CLK_STATUS.REF_SRC then
          s.getB SYS.base SYS.CLK_STATUS.XIN_OK && s.cellar.phase == .up else s.getB SYS.base SYS.CLK_STATUS.REF_LOCK) ∧
        (s.getB b KNR.CTRL.ISO_TRIP = true → t.getB b KNR.STATUS.MKT_IN = true) ∧
        (s.getB b KNR.CTRL.ISO_TRIP = false → t.getB b KNR.STATUS.MKT_IN = s.getB b KNR.STATUS.MKT_IN) ∧
        (s.ringMember = true → s.getB b KNR.CTRL.TAKEOVER = true → s.getB b KNR.STATUS.MASTER = false →
          ∀ n t1, s.ring.capAt = some (n, t1) → masters t ∧ t.ring.took = true ∧ ∃ k, t.ring.nextCycle = (n + k) % 2 ^ 32 ∧
            t.ring.nextAt = t1 + k * cycleNs s.ring.period ∧ t.marketNs < t.ring.nextAt ∧
            t.ring.nextAt ≤ max t1 (t.marketNs + cycleNs s.ring.period)) ∧
        (s.ringMember = false ∨ s.getB b KNR.CTRL.TAKEOVER = false →
          t.getB b KNR.STATUS.MASTER = s.getB b KNR.STATUS.MASTER)) ∧
      (s.ring.hdrFrom = none ∨ s.streamPort = none ∨ s.options.refRing = false ∨ s.getB b KNR.STATUS.MASTER = true →
        Answers .referenceSwitch s (· = s)) ∧
      (∀ t0 q, s.ring.hdrFrom = some t0 → s.streamPort = some q → s.options.refRing = true →
        s.getB b KNR.STATUS.MASTER = false → Answers .referenceSwitch s fun t =>
          t.now = max s.now (edgeDown (t0 + 1000 * us)) ∧ t.getB SYS.base SYS.CLK_STATUS.REF_SRC = true ∧
          t.getB SYS.base SYS.CLK_STATUS.REF_LOCK = true ∧ t.getB b (clkSrcF q) = true ∧
          t = { s with now := t.now, regs := t.regs } ∧
          ∀ a, a ≠ SYS.base + SYS.CLK_STATUS.W.off → a ≠ b + (clkSrcF q).off → t.rd a = s.rd a)) ∧
    (s.islandUp .ring = false →
      ∀ i ∈ [Instr.beacon node priority, .masterElection, .captureInstant, .cycleStart, .cycleLost, .referenceSwitch],
        Answers i s (· = s))

/-- A frame in the stream the hall processes (R422, R423, R429, R431, R433, R438, R443): every failed CRC counts; a good
header gives the cycle number, ends CYCLE_LOST, ends the mastership of a hall that has to yield to it (R423, R425), gives
the master and the market time of a hall that is not the master, and carries the market trip; a member copies the good slots of the others and writes its own, unless it finds it written
already or its length differs; the frame goes on with the hall's link and forwarding delay added. Applying a cycle
(R435, R436): on the capture edge of cycle n + 2 + APPLY_LAG a node of the schedule whose segment of cycle n did not
arrive is stale, and absent once it was so ABS_CYC times in a row, until it is not; unless an absent node holds, every
other node's segment goes into its read bank and RX_CYC takes n. Readings of the model: log entries 48, 49, 50, 74. -/
def Obligations.RingFrames : Prop :=
  (∀ (s : State) (f : RingFrame),
     let b := KNR.base
     (s.islandUp .ring = false ∨ s.streamPort = none → Answers (.frame f) s (· = s)) ∧
     ∀ p : Fin 2, s.islandUp .ring = true → s.streamPort = some p.val →
       let link : Int := s.getF b (KNR.LINK_DLY.DLY.at (0x10 * p)) + s.getS b (KNR.ASYM.ASYM.at (0x10 * p))
       let ref : Int := 256 * f.mt.toNat + f.accDly + link
       let x : Int := ((s.marketUnits / 25 : Nat) : Int) - ref
       let own := s.getB b KNR.STATUS.MASTER = true ∧ f.master = s.nodeId
       let prio := s.ring.prio.contains f.master
       let yields := if s.ring.took then f.master < s.nodeId
         else (prio = true ∧ s.options.master = false) ∨ (prio = s.options.master ∧ f.master < s.nodeId)
       Answers (.frame f) s fun t =>
         t.now = s.now ∧
         t.getF b KNR.CRC_CNT.COUNT = min (s.getF b KNR.CRC_CNT.COUNT + badCrcs f) 0xFFFFFFFF ∧
         (f.hdrOk = true → t.getF b KNR.CYC_NUM.CYCLE = f.cycle.toNat ∧ t.getB b KNR.STATUS.CYCLE_LOST = false ∧
           (f.mktTrip = true ∨ f.mktAcc = true → t.getB b KNR.STATUS.MKT_IN = true) ∧
           (s.getB b KNR.STATUS.MASTER = true → f.master ≠ s.nodeId →
             (yields → t.getB b KNR.STATUS.MASTER = false) ∧
             (¬ yields → t.getB b KNR.STATUS.MASTER = true ∨ t.getB b KNR.STATUS.ID_DUP = true)) ∧
           (f.schedOk = true → t.ring.lens = f.lens ∧ t.ring.lag = f.lag) ∧
           (s.getB b KNR.STATUS.MASTER = false → f.master < 128 →
             t.getF b KNR.IDS.MASTER_ID = f.master ∧
             (-2147483648 ≤ x → x < 2147483648 → t.getS b KNR.MT_OFFSET.X = x) ∧
             (s.ring.timeSet = false ∨ 256000 ≤ x.natAbs → 0 ≤ ref →
               t.marketUnits = 25 * ref.toNat % (2 ^ 64 * ns) ∧ t.getB b KNR.STATUS.MT_LOCKED = false) ∧
             (s.ring.timeSet = true → x.natAbs < 256000 → t.marketUnits = s.marketUnits))) ∧
         (f.hdrOk = false → t.getF b KNR.CYC_NUM.CYCLE = s.getF b KNR.CYC_NUM.CYCLE ∧ t.clock = s.clock ∧
           t.getF b KNR.IDS.MASTER_ID = s.getF b KNR.IDS.MASTER_ID ∧
           t.getB b KNR.STATUS.MKT_IN = s.getB b KNR.STATUS.MKT_IN) ∧
         (s.ringMember = true → f.hdrOk = true → f.schedOk = true →
           (f.slots.map RingSlot.node).Nodup → ∀ g ∈ f.slots, g.crcOk = true → g.valid = true → g.node ≠ s.nodeId →
             (g.node, g.written.toNat, g.data) ∈ t.ring.segs) ∧
         (own → t.ring.returned = some f ∧ (s.ring.frameAt ≠ some s.now → t.ring.frameOut = s.ring.frameOut)) ∧
         (¬ own → ∃ o : RingFrame, t.ring.frameOut = some o ∧
           o.cycle = f.cycle ∧ o.master = f.master ∧ o.mktTrip = f.mktTrip ∧ o.mt = f.mt ∧ o.period = f.period ∧
           o.tnext = f.tnext ∧ o.lens = f.lens ∧ o.hdrOk = f.hdrOk ∧ o.schedOk = f.schedOk ∧ o.mbxOk = f.mbxOk ∧
           o.mktAcc = (f.mktAcc || t.getB b KNR.STATUS.MKT_ASSERT) ∧
           o.wrapped = (f.wrapped || t.getB b KNR.STATUS.WRAPPED) ∧
           (∃ d ≤ 12288, (o.accDly : Int) = ((f.accDly : Int) + link + d) % 2 ^ 32) ∧
           o.slots.map RingSlot.node = f.slots.map RingSlot.node ∧
           (s.ringMember = true → f.hdrOk = true → f.schedOk = true → ∀ g ∈ f.slots, g.node = s.nodeId →
             (f.slots.map RingSlot.node).Nodup →
             (g.crcOk = true → g.valid = true → g.written.toNat = f.cycle.toNat % 2 ^ 24 →
               t.getB b KNR.STATUS.ID_DUP = true ∧ o.slots = f.slots) ∧
             (¬ (g.crcOk = true ∧ g.valid = true ∧ g.written.toNat = f.cycle.toNat % 2 ^ 24) →
               (t.getB b KNR.STATUS.LEN_MISMATCH = true ↔ s.txLen ≠ min 32 (f.lens[Fin.ofNat 64 (s.nodeId - 1)]).toNat) ∧
               (t.getB b KNR.STATUS.LEN_MISMATCH = true → o.slots = f.slots) ∧
               (t.getB b KNR.STATUS.LEN_MISMATCH = false → ∀ h ∈ o.slots,
                 (h.node ≠ s.nodeId → h ∈ f.slots) ∧
                 (h.node = s.nodeId → h.written.toNat = f.cycle.toNat % 2 ^ 24 ∧
                   h.valid = decide (t.cellar.phase = .up) ∧ h.armed = t.armed ∧
                   h.data = s.ring.send ++ List.replicate (s.txLen - s.ring.send.length) 0)))))) ∧
  (∀ s : State,
     let b := KNR.base
     (s.ring.captured = none ∨ s.ringMember = false → Answers .applyInstant s (· = s)) ∧
     ∀ c, s.ring.captured = some c → s.ringMember = true →
       (s.ring.applied = some c ∨ (s.ring.applied = none ∧ c < 2 + s.ring.lag) → Answers .applyInstant s (· = s)) ∧
       (s.ring.applied ≠ some c → s.ring.applied ≠ none ∨ 2 + s.ring.lag ≤ c →
         let k := (c + 2 ^ 32 - 2 - s.ring.lag) % 2 ^ 32
         Answers .applyInstant s fun t =>
           (∀ i : Fin 64,
             let n := i.val + 1
             let stale := n ≠ s.nodeId ∧ s.schedLen n ≠ 0 ∧ s.segment n k = none
             ((t.get64 b KNR.STALE_LO.NODES KNR.STALE_HI.NODES).testBit i = true ↔ stale) ∧
             ((t.get64 b KNR.ABSENT_LO.NODES KNR.ABSENT_HI.NODES).testBit i = true ↔ stale ∧
               ((s.get64 b KNR.ABSENT_LO.NODES KNR.ABSENT_HI.NODES).testBit i = true ∨
                 max 1 (s.getF b KNR.CTRL.ABS_CYC) ≤ s.ring.staleRun[i] + 1)) ∧
             (t.getB b KNR.STATUS.HOLDING = false → n ≠ s.nodeId → ∀ d, s.segment n k = some d → d.length ≤ 32 →
               ∀ (j : Nat) (h : j < d.length),
                 t.get64 b (KNR.PD_RX.DATA.at (0x100 * i + 8 * j)) (KNR.PD_RX.DATA.at (0x100 * i + 8 * j + 4)) = d[j].toNat) ∧
             (t.getB b KNR.STATUS.HOLDING = true ∨ n = s.nodeId ∨ s.segment n k = none → ∀ j : Fin 64,
               t.getF b (KNR.PD_RX.DATA.at (0x100 * i + 4 * j)) = s.getF b (KNR.PD_RX.DATA.at (0x100 * i + 4 * j)))) ∧
           t.getB b KNR.STATUS.HOLDING = t.absentWith [1] ∧ t.getB b KNR.STATUS.ABS_TRIP = t.absentWith [2, 3] ∧
           (t.getB b KNR.STATUS.HOLDING = false → t.getF b KNR.RX_CYC.CYCLE = k % 2 ^ 32) ∧
           (t.getB b KNR.STATUS.HOLDING = true → t.getF b KNR.RX_CYC.CYCLE = s.getF b KNR.RX_CYC.CYCLE) ∧
           t.ring.applied = some c))

/-- Blocks and messages (R432, R442, R443, R445, R448, R449): a TRIP or REC block of another hall with a good check goes
on once for each direction, origin and number, and raises the market trip or is offered to the recorder; a published
bank waits for the capture, or is copied at once on the edge of one (R451); a user message waits for the frame, a second
one is refused; popping the receive queue shows the next message; a request unanswered for TMO cycles times out, once
the capture edge is over, on which a response still wins (R73). Readings of the model: log entries 48, 50. -/
def Obligations.RingMessages : Prop :=
  ∀ (s : State) (init : Fin 16) (p : Fin 2) (origin : BitVec 7) (seq : BitVec 8) (time : BitVec 64),
    let b := KNR.base
    (s.islandUp .ring = false ∨ origin.toNat = s.nodeId → Answers (.trip p origin seq true) s (· = s) ∧
      Answers (.record p origin seq time true) s (· = s)) ∧
    (Answers (.trip p origin seq false) s (· = s) ∧ Answers (.record p origin seq time false) s (· = s)) ∧
    (s.islandUp .ring = true → origin.toNat ≠ s.nodeId →
      (Answers (.trip p origin seq true) s fun t =>
        ∃ r : Ring, t = ({ s with ring := r } : State).marketIn true ∧ r.quiet = 0 ∧
          (p.val, origin.toNat, seq.toNat) ∈ r.tripSeen ∧
          ((p.val, origin.toNat, seq.toNat) ∈ s.ring.tripSeen → r.sent = s.ring.sent) ∧
          ((p.val, origin.toNat, seq.toNat) ∉ s.ring.tripSeen →
            r.sent = s.ring.sent ++ [(s.onward p, .trip origin.toNat seq.toNat)]) ∧
          r = { s.ring with quiet := r.quiet, tripSeen := r.tripSeen, sent := r.sent }) ∧
      (Answers (.trip p origin seq true) s fun t =>
        t.getB b KNR.STATUS.MKT_IN = true ∧ t.getB TRP.base TRP.STATUS.MKT_IN = true) ∧
      (Answers (.record p origin seq time true) s fun t =>
        ∃ r : Ring,
          let u := ({ s with ring := r } : State).pulseIf (s.bit b KNR.IRQ_EN.SRC 15) 132
          let taken := s.ringMember = true ∧ s.getB ATC.base ATC.CTRL.MKT_ACCEPT = true ∧
            ∀ d, (d, origin.toNat, seq.toNat) ∉ s.ring.recSeen
          (taken → t = u.trigger 3 origin.toNat time.toNat) ∧ (¬ taken → t = u) ∧
          (p.val, origin.toNat, seq.toNat) ∈ r.recSeen ∧
          ((p.val, origin.toNat, seq.toNat) ∈ s.ring.recSeen → r.sent = s.ring.sent) ∧
          ((p.val, origin.toNat, seq.toNat) ∉ s.ring.recSeen →
            r.sent = s.ring.sent ++ [(s.onward p, .record origin.toNat seq.toNat time.toNat)]) ∧
          r = { s.ring with recSeen := r.recSeen, sent := r.sent })) ∧
    (Reaches s (b + KNR.CMD.W.off) →
      (s.ring.capturedOn ≠ some s.now → Answers (.pdPublish init) s fun t =>
        t.getB b KNR.STATUS.PUB_PEND = true ∧ OnlyFields s t b [KNR.STATUS.PUB_PEND]) ∧
      (s.ring.capturedOn = some s.now → Answers (.pdPublish init) s fun t =>
        t.ring = { s.ring with send := s.pdTx s.txLen, copied := true } ∧ t.getB b KNR.STATUS.PUB_PEND = false ∧
        OnlyFields { s with ring := t.ring } t b [KNR.STATUS.PUB_PEND]) ∧
      (s.getB b KNR.STATUS.TX_BUSY = true → Answers (.mbxSend init) s fun t =>
        t.getB b KNR.STATUS.TX_REFUSED = true ∧ OnlyFields s t b [KNR.STATUS.TX_REFUSED]) ∧
      (s.getB b KNR.STATUS.TX_BUSY = false → Answers (.mbxSend init) s fun t =>
        t.getB b KNR.STATUS.TX_BUSY = true ∧ OnlyFields { s with ring := t.ring } t b [KNR.STATUS.TX_BUSY] ∧
        ∃ m : RingMsg, t.ring = { s.ring with userOut := some m, mbxSeq := (s.ring.mbxSeq + 1) % 0x10000 } ∧
          m.dst = s.getF b KNR.MBX_TX_CTRL.DST ∧ m.src = s.nodeId ∧ m.seq = s.ring.mbxSeq ∧ m.svc = 3 ∧ m.kind = 2 ∧
          m.payload.length = min 248 (s.getF b KNR.MBX_TX_CTRL.LEN) ∧
          ∀ (i : Nat) (h : i < m.payload.length), (m.payload[i]).toNat =
            s.getF b (KNR.MBX_TX.DATA.at (4 * (i / 4))) / 2 ^ (8 * (i % 4)) % 256) ∧
      (s.ring.rx = [] → Answers (.rxPop init) s fun t =>
        t.getF b KNR.STATUS.RX_COUNT = 0 ∧ OnlyFields s t b [KNR.STATUS.RX_COUNT]) ∧
      (∀ m rest, s.ring.rx = m :: rest → Answers (.rxPop init) s fun t =>
        t.ring = { s.ring with rx := rest } ∧ t.getF b KNR.STATUS.RX_COUNT = rest.length % 8 ∧
        ∀ q more, rest = q :: more →
          t.getF b KNR.MBX_RX_INFO.SEQ = q.seq % 0x10000 ∧ t.getF b KNR.MBX_RX_INFO.LEN = q.payload.length % 0x100 ∧
          t.getF b KNR.MBX_RX_INFO.SRC = q.src % 0x80 ∧
          ∀ i < 62, 4 * i < q.payload.length → t.getF b (KNR.MBX_RX.DATA.at (4 * i)) = numAt q.payload (4 * i) 4)) ∧
    let gone (q : RingRequest) : Bool := s.ring.captured.any fun k => decide ((k + 2 ^ 32 - q.due) % 2 ^ 32 < 2 ^ 31)
    let later : Nat := s.ring.capturedOn.elim s.now fun e => max s.now (edgeDown (e + 2 * ac))
    ((∀ q ∈ s.ring.requests, gone q = false) → Answers .mailboxTimeout s (· = { s with now := later })) ∧
    (Answers .mailboxTimeout s fun t => t.now = later ∧ t.ring.requests = s.ring.requests.filter (fun q => !gone q) ∧
      ∀ q ∈ s.ring.requests, gone q = true →
        (s.bit b KNR.IRQ_EN.SRC 11 = true → 128 ∈ t.crier.launched) ∧
        (q.svc ≠ 1 → t.getB DBG.base DBG.MCMD_STATUS.TIMEOUT = true ∧
          t.getB DBG.base DBG.MCMD_STATUS.BUSY = false))

/-! ### The object dictionary -/

/-- Requests from the ring (R460, R461, R463–R466, R471, R472): a repeat gets the response kept, a fifth request an
abort, others wait their turn; the request in front is executed for a register, a block of a DOMAIN, a save, a restore
of defaults, accepted features, a controlword or a target torque, and is answered with the result or the abort code.
Readings of the model: log entries 53, 54, 55. -/
def Obligations.DictionaryRequests : Prop :=
  ∀ (s : State) (m : RingMsg) (env : List BusEnv) (drive : List (Option (List Word))),
    let b := ODE.base
    let ix := odIndex m
    let sub := odSub m
    let data := odData m
    let serves := s.odeRingServes = true
    let first := ∃ rest, s.ode.queue = m :: rest
    let turn := first ∧ s.ode.waits[(4 : Fin 6)] = none ∧ serves
    let replied (u t : State) (code : Nat) (d : List (BitVec 8)) : Prop := ∃ v : State, t = v.odServe 5 ∧
      v = { u with regs := v.regs, ode := v.ode, ring := v.ring, happened := v.happened } ∧
      v.ring = { u.ring with
        odeOut := u.ring.odeOut ++ [answerTo m u.nodeId (odPayload (odCmd m) sub ix code d)] } ∧
      v.ode.queue = u.ode.queue.tail ∧ v.ode.waits[(4 : Fin 6)] = none ∧
      (code = 0 → v.getF b ODE.CNT.TXN = min (u.getF b ODE.CNT.TXN + 1) 0xFFFF ∧
        v.getF b ODE.LAST_ABORT.CODE = u.getF b ODE.LAST_ABORT.CODE) ∧
      (code ≠ 0 → v.getF b ODE.CNT.ABORTS = min (u.getF b ODE.CNT.ABORTS + 1) 0xFFFF ∧
        v.getF b ODE.LAST_ABORT.CODE = code % 2 ^ 32 ∧ v.getF b ODE.LAST_OBJ.INDEX = ix % 0x10000 ∧
        v.getF b ODE.LAST_OBJ.SUB = sub % 0x100 ∧ v.getF b ODE.LAST_OBJ.INITIATOR = 4)
    let answers (i : Instr) (u : State) (code : Nat) (d : List (BitVec 8)) : Prop :=
      Answers i s fun t => replied u t code d
    -- requests arrive
    (s.cellar.phase = .up → serves → m.svc = 1 → m.kind = 0 →
      (∀ p, s.odKept m = some p → Answers (.odRequest m) s fun t =>
        t = { s with ring := { s.ring with odeOut := s.ring.odeOut ++ [answerTo m s.nodeId p] } }) ∧
      (s.odKept m = none → 4 + (s.ode.waits[(4 : Fin 6)]).isSome.toNat ≤ s.ode.queue.length →
        Answers (.odRequest m) s fun t => t.ode = s.ode ∧ t.getF b ODE.LAST_ABORT.CODE = 0x05040005 ∧
          t.ring.odeOut = s.ring.odeOut ++ [answerTo m s.nodeId (odPayload (odCmd m) sub ix 0x05040005 [])]) ∧
      (s.odKept m = none → s.ode.queue.length < 4 + (s.ode.waits[(4 : Fin 6)]).isSome.toNat →
        Answers (.odRequest m) s fun t => ∃ v : State, t = v.odServe 5 ∧
          v = { s with regs := v.regs, ode := { s.ode with queue := s.ode.queue ++ [m] } } ∧
          ∀ a, a ≠ b + ODE.STATUS.W.off → v.rd a = s.rd a)) ∧
    (s.cellar.phase ≠ .up ∨ ¬ serves ∨ m.svc ≠ 1 ∨ m.kind ≠ 0 → Answers (.odRequest m) s (· = s)) ∧
    -- registers
    (turn → ∀ p, s.odFind ix sub = .ok (.reg p false) →
      let a := p.blk.base p.inst + p.off
      (odCmd m = 1 → p.row.odRight ≠ .wo → 4 ≤ odLength m → ∀ v u, s.busRead 4 a 4 false (envAt env 0) = (.ok v, u) →
        answers (.odRead env) u 0 (leBytes v 4)) ∧
      (odKind m = .write → odCmd m = 2 → p.row.odRight = .ro → answers (.odWrite env) s 0x06010002 []) ∧
      (odKind m = .write → odCmd m = 2 → p.row.odRight = .rw ∨ p.row.odRight = .rwd → odLength m = 4 → 4 ≤ data.length →
        p ≠ ⟨.cel, 0, 0x800⟩ →
        ∀ old u, s.busRead 4 a 4 false (envAt env 0) = (.ok old, u) →
          let new := (old &&& (2 ^ 64 - 1 - p.row.meant)) ||| (numAt data 0 4 &&& p.row.meant)
          let changes := (p.blk.hasEnable && (u.rd (p.blk.base p.inst)).getLsbD 0) = true ∧
            (old ^^^ new) &&& p.row.held ≠ 0
          (changes → answers (.odWrite env) u 0x08000022 []) ∧
          (¬ changes → ∀ w x y z, u.busWrite 4 a 4 (new % 2 ^ 32) (envAt env 1) = (.ok w, x) →
            x.busRead 4 a 4 false (envAt env 2) = (.ok y, z) → (y ^^^ new) &&& p.row.held = 0 →
            answers (.odWrite env) z 0 []))) ∧
    -- blocks
    (turn → s.odKnows 3 = true → ∀ a size rw, s.odFind ix sub = .ok (.domain a size rw) →
      let mine (k : OdBlock) : Bool := k.client == 4 + 16 * m.src && k.index == ix && k.sub == sub
      let off := odOffset m
      let len := odLength m
      let d0 : State := { s with ode := { s.ode with blocks := s.ode.blocks.filter (!mine ·) } }
      (odCmd m = 3 → size ≤ off → answers (.blockRead env drive) s 0x08000024 []) ∧
      (odCmd m = 3 → off < size → ∀ d u, s.odBytes 4 (a + off) (min (min len 236) (size - off)) env = (.ok d, u) →
        answers (.blockRead env drive) u 0 d) ∧
      (rw = true → len ≤ data.length → off + len ≤ size →
        (off = 0 ∨ ∃ k, s.ode.blocks.find? mine = some k ∧ k.next = off →
          ∀ u, d0.odPoke 4 (a + off) (data.take len) env = (none, u) →
            (odCmd m = 4 → answers (.blockWrite env)
              { u with ode := { u.ode with blocks := u.ode.blocks ++ [⟨4 + 16 * m.src, ix, sub, off + len⟩] } } 0 []) ∧
            (odCmd m = 5 → answers (.blockWriteEnd env) u 0 [])) ∧
        (off ≠ 0 → (∀ k, s.ode.blocks.find? mine = some k → k.next ≠ off) →
          (odCmd m = 4 → answers (.blockWrite env) d0 0x08000020 []) ∧
          (odCmd m = 5 → answers (.blockWriteEnd env) d0 0x08000020 [])))) ∧
    -- save and restore
    (turn → odCmd m = 6 → ∀ w u, s.busWrite 4 (CEL.base + CEL.CMD.W.off) 4 1 (envAt env 0) = (.ok w, u) →
      let taken := s.cellar.snap = none ∨ s.snapYields = true
      (¬ taken → answers (.odSave env) u 0x08000022 []) ∧
      (taken → Answers (.odSave env) s fun t => ∃ v : State, t = v.odServe 5 ∧
        v = { u with regs := v.regs, ode := { u.ode with
          waits := u.ode.waits.set (4 : Fin 6) (some (.save (s.getF CEL.base CEL.SNAP_SEQ.SEQ) 0x1010 1)) } } ∧
        v.getB b ODE.STATUS.RING_BUSY = true)) ∧
    (turn → odCmd m = 7 →
      (s.getB CEL.base CEL.STATUS.DEF_VALID = false → answers (.restoreDefaults env) s 0x08000024 []) ∧
      (s.getB CEL.base CEL.STATUS.DEF_VALID = true → s.cellar.snap ≠ none →
        answers (.restoreDefaults env) s 0x08000022 []) ∧
      (s.getB CEL.base CEL.STATUS.DEF_VALID = true → s.cellar.snap = none →
        answers (.restoreDefaults env) s.copyDefaults 0 [] ∧
        s.copyDefaults.getF CEL.base CEL.SNAP_SEQ.SEQ = (s.getF CEL.base CEL.SNAP_SEQ.SEQ + 1) % 2 ^ 32)) ∧
    -- features
    (turn → odCmd m = 2 → ix = 0x1F81 → sub = 0 → odLength m = 8 → 8 ≤ data.length →
      (0x80 ≤ numAt data 0 8 → answers (.featuresAccepted env) s 0x06090030 []) ∧
      let closed := s.ode.window = none ∧ s.ode.closedOn ≠ some s.now
      (numAt data 0 8 < 0x80 → closed → answers (.featuresAccepted env) s 0x08000022 []) ∧
      (numAt data 0 8 < 0x80 → ¬ closed → ∃ u : State, answers (.featuresAccepted env) u 0 [] ∧
        u.get64 b ODE.FEAT_ACC_LO.ACC ODE.FEAT_ACC_HI.ACC = numAt data 0 8 ∧ u.getB b ODE.STATUS.NEG_DONE = true ∧
        u.getB b ODE.STATUS.BASELINE = false ∧
        OnlyFields { s with ode := { s.ode with window := none, closedOn := none } } u b
          [ODE.FEAT_ACC_LO.ACC, ODE.FEAT_ACC_HI.ACC, ODE.STATUS.NEG_DONE, ODE.STATUS.BASELINE])) ∧
    -- axes
    (turn → odLength m = 2 → 2 ≤ data.length → ∀ x, odCmd m = 2 →
      (odKind m = .control → s.odFind ix sub = .ok (.control x) →
        answers (.controlword env) (s.controlword 4 x (numAt data 0 2)).2
          ((s.controlword 4 x (numAt data 0 2)).1.getD 0) []) ∧
      (odKind m = .torque → s.odFind ix sub = .ok (.torque x) →
        let e := ENG.base (s.axisStall x)
        let v := numAt data 0 2
        let s1 := s.setAxis x fun a => { a with target := BitVec.ofNat 16 v }
        ∀ w u y z,
          s1.busWrite 4 (e + ENG.MBX_IN.VALUE.off + 4 * s.getF b (axisF ODE.AXIS_CFG.TQ_WORD x)) 4 (v * 2 ^ 16)
            (envAt env 0) = (.ok w, u) →
          u.busWrite 4 (e + ENG.CMD.W.off) 4 2 (envAt env 1) = (.ok y, z) → answers (.targetTorque env) z 0 []))

/-- Axes and negotiation (R471–R473): the controlword moves the axis, and enables it only in an armed hall; a fault
reset ends in switch-on disabled; an engine's trip request or a held leg takes the axis into FAULT; a window of 10 ms
without an answer leaves the baseline. Readings of the model: log entries 21, 55. -/
def Obligations.DictionaryAxes : Prop :=
  ∀ (s : State) (x : Fin 8) (init w : Nat),
    let b := ODE.base
    let st := s.axisState x
    let r := s.controlword init x w
    let reaches (goal : AxisState) : Prop :=
      r.2.ode.axis[x].state = goal ∧ r.2.ode.axis[x].resetting = false ∧ r.2.axisState x = goal
    (st ≠ .fault →
      (w.testBit 1 = false ∨ w.testBit 2 = false → r.1 = none ∧ reaches .disabled) ∧
      (w.testBit 1 = true → w.testBit 2 = true →
        (w.testBit 0 = false → r.1 = none ∧ reaches .ready) ∧
        (w.testBit 0 = true → st = .disabled → r.1 = none ∧ reaches .disabled) ∧
        (w.testBit 0 = true → w.testBit 3 = false → st ≠ .disabled → r.1 = none ∧ reaches .on) ∧
        (w.testBit 0 = true → w.testBit 3 = true → st = .enabled → r.1 = none ∧ reaches .enabled) ∧
        (w.testBit 0 = true → w.testBit 3 = true → st = .ready ∨ st = .on →
          (s.armState = 2 → r.1 = none ∧ reaches .enabled) ∧
          (s.armState ≠ 2 → r.1 = some 0x08000022 ∧ reaches .on)))) ∧
    (st = .fault → r.1 = none ∧
      (w.testBit 7 = false ∨ s.ode.axis[x].control.getLsbD 7 = true →
        r.2 = s.setAxis x fun a => { a with state := .fault, control := BitVec.ofNat 16 w }) ∧
      (w.testBit 7 = true → s.ode.axis[x].control.getLsbD 7 = false →
        r.2.ode.axis[x].resetting = true ∨ r.2.ode.axis[x].state = .disabled)) ∧
    (s.axisOn x = true → s.axisError x ≠ 0 → st ≠ .fault → Answers (.axisFault x) s fun t =>
      t.axisState x = .fault ∧ (st ≠ .enabled → t = s.setAxis x fun a => { a with state := .fault, resetting := false })) ∧
    (s.axisOn x = false ∨ s.axisError x = 0 ∨ st = .fault → Answers (.axisFault x) s (· = s)) ∧
    (s.ode.window = none → Answers .negotiationTimeout s (· = s)) ∧
    (∀ t0, s.ode.window = some t0 → Answers .negotiationTimeout s fun t =>
      t.now = max s.now (edgeDown (t0 + 10000 * us)) ∧ t.get64 b ODE.FEAT_ACC_LO.ACC ODE.FEAT_ACC_HI.ACC = 0 ∧
      t.getB b ODE.STATUS.NEG_DONE = true ∧ t.getB b ODE.STATUS.BASELINE = true ∧
      OnlyFields { s with now := t.now, ode := { s.ode with window := none, closedOn := some t.now } } t b
        [ODE.FEAT_ACC_LO.ACC, ODE.FEAT_ACC_HI.ACC, ODE.STATUS.NEG_DONE, ODE.STATUS.BASELINE])

/-- The CAN side and ODSVC (R463–R465, R468, R469): a second client is turned away; an upload or download of this hall's
dictionary is a transaction of initiator 5, one of another hall goes over the ring with feature 4 and aborts without;
ODSVC, called on a core, runs a transaction with the core's initiator number on the arguments it was given, and returns
the abort code and the bytes transferred in the caller's x12 and x13; in user mode the ROM cannot be fetched (R41). Readings of the model: log entries 25, 56, 57. -/
def Obligations.DictionaryClients : Prop :=
  ∀ (s : State) (client : BitVec 7) (target : Option (BitVec 7)) (op : UsdoOp) (env : List BusEnv)
    (drive : List (Option (List Word))) (ix : BitVec 16) (sub : BitVec 8) (d0 : List (BitVec 8)),
    let s0 : State := { s with ode := { s.ode with canFrames := s.ode.canFrames.tail } }
    let serves := s.cellar.phase = .up ∧ s.usdoServes = true
    let busy := s.ode.waits[(5 : Fin 6)] ≠ none ∨ ∃ t, s.ode.usdo = some t ∧ t.client ≠ client.toNat
    let here := target = none ∨ ∃ n, target = some n ∧ n.toNat = s.nodeId
    let sends (i : Instr) (u : State) (r : UsdoReply) : Prop := Answers i s fun t =>
      t.ode.usdoOut = u.ode.usdoOut ++ [r] ∧ t.ode.canTx.length = u.ode.canTx.length + 1 ∧ t.free = u.free + 17
    (¬ serves → Answers (.usdoRequest client target op env drive) s (· = s)) ∧
    (serves → busy → op ≠ .abort → sends (.usdoRequest client target op env drive) s (.abort client.toNat 0x05040005)) ∧
    (serves → ¬ busy →
      (Answers (.usdoRequest client target .abort env drive) s fun t => t.ode.usdo = none ∧ t.ode.usdoOut = s.ode.usdoOut) ∧
      (here → (∀ a n rw, s0.odFind ix.toNat sub.toNat ≠ .ok (.domain a n rw)) → s0.odFind ix.toNat sub.toNat ≠ .ok .readback →
        (∀ d u, s0.odTransact 5 5 1 ix.toNat sub.toNat 0 236 [] env [] = (.done d, u) → d.length ≤ 56 →
          sends (.usdoRequest client target (.upload ix sub) env drive) u (.value client.toNat d)) ∧
        (∀ e u, s0.odTransact 5 5 1 ix.toNat sub.toNat 0 236 [] env [] = (.abort e, u) →
          sends (.usdoRequest client target (.upload ix sub) env drive) u (.abort client.toNat e))) ∧
      (here → ∀ d u, s0.odTransact 5 5 2 ix.toNat sub.toNat 0 d0.length d0 env [] = (.done d, u) →
        sends (.usdoRequest client target (.download ix sub d0) env drive) u (.confirm client.toNat)) ∧
      (¬ here → s.feature 4 = false →
        sends (.usdoRequest client target (.download ix sub d0) env drive) s (.abort client.toNat 0x06020000)) ∧
      (¬ here → s.feature 4 = true → d0.length ≤ 236 →
        Answers (.usdoRequest client target (.download ix sub d0) env drive) s fun t =>
          t.ode.waits[(5 : Fin 6)] = some (.remote s.ring.mbxSeq ix.toNat sub.toNat) ∧ ∃ q : RingMsg,
            t.ring = { s.ring with odeOut := s.ring.odeOut ++ [q], mbxSeq := (s.ring.mbxSeq + 1) % 0x10000 } ∧
            some q.dst = target.map BitVec.toNat ∧ q.svc = 1 ∧ q.kind = 0 ∧ q.seq = s.ring.mbxSeq ∧ odCmd q = 2 ∧
            odIndex q = ix.toNat ∧ odSub q = sub.toNat ∧ odData q = d0)) ∧
    ∀ (c : Fin 4) (node : BitVec 7),
      let x := { s.core[c].acknowledgeAll with shadow := [], hold := false, waiting := false }
      let asleep := s.core[c].waiting = true ∧ s.wakes c = false
      let s1 := s.modCore c fun _ => x
      let a := x.svcArgs
      let w : Fin 6 := Fin.ofNat 6 c
      let ended (u : State) (r : OdResult) : State :=
        let v := u.odEnded c a.index a.sub r
        { v with ode := { v.ode with waits := v.ode.waits.set w none } }
      (s.coreUp c = false ∨ asleep ∨ s.core[c].pc ≠ odsvcEntry ∨ s.core[c].slot ≠ none →
        Answers (.odsvc c node env drive) s (· = s)) ∧
      (s.coreUp c = true → ¬ asleep → s.core[c].pc = odsvcEntry → s.core[c].slot = none →
        (s.core[c].out.find? fun o => o.lost) = none → x.sup = false → x.cl ≠ 9 → Answers (.odsvc c node env drive) s
          (· = s1.raise c {} { code := 0x06, faddr := odsvcEntry.toNat })) ∧
      (s.coreUp c = true → ¬ asleep → s.core[c].pc = odsvcEntry → s.core[c].slot = none →
        (s.core[c].out.find? fun o => o.lost) = none → x.sup = true → x.store = [] → s.ode.waits[w] = none → node = 0 ∨ node.toNat = s.nodeId →
        (a.cmd = 1 → ∀ d u, s1.odTransact c c 1 a.index a.sub 0 a.len [] env drive = (.done d, u) →
          ∀ v, (ended u (.done d)).odPoke c a.buf d [] = (none, v) →
            Answers (.odsvc c node env drive) s (· = v.svcReturn c 0 d.length)) ∧
        (a.cmd = 2 → ∀ d u, s1.odBytes c a.buf (min a.len 236) [] = (.ok d, u) →
          ∀ e v, u.odTransact c c 2 a.index a.sub 0 a.len d env drive = (.done e, v) →
            Answers (.odsvc c node env drive) s (· = (ended v (.done e)).svcReturn c 0 a.len)) ∧
        (a.cmd = 1 → ∀ e u, s1.odTransact c c 1 a.index a.sub 0 a.len [] env drive = (.abort e, u) →
          Answers (.odsvc c node env drive) s (· = (ended u (.abort e)).svcReturn c e 0))) ∧
      ∀ code n : Nat, s.core[c].shadow = [] →
        let t := s.svcReturn c code n
        t.core[c].get 12 = BitVec.ofNat 32 code ∧ t.core[c].get 13 = BitVec.ofNat 32 n ∧
        t.core[c].pc = (s.core[c].get 7).setWidth 24 ∧ t.core[c].frm = (s.core[c].frm + 31) % 32 ∧
        ∀ f : Fin 4, f ≠ c → t.core[f] = s.core[f]

/-! ### The attic recorder -/

/-- What is recorded (R477–R479, R484, R485, R489, R491–R493): the oldest item on its way goes to the taps at work; a
mark is one item, in its place among those of its edge (R481); a trigger opens a window, or merges into the open one or
one that closed on its edge, and the lowest SRC of an edge gives the window its T and SRC (R497); a window closes all
blocks; blocks written leave their queue and take the next SEQ each; a checkpoint joins the stream queue for the copy not
written last; the shutdown drains the queues and releases the drive. Readings of the model: log entries 51, 52. -/
def Obligations.AtticRecords : Prop :=
  ∀ (s : State) (init : Fin 16) (value : Word) (n : Fin 33) (r : NvmeResult),
    let b := ATC.base
    let fails (opc : Nat) (t : State) : Prop := t.getB b ATC.STATUS.DRV_FAIL = true ∧ t.getB b ATC.STATUS.READY = false ∧
      t.getF b ATC.DRV_ERR.STEP = 8 ∧ t.getF b ATC.DRV_ERR.OPC = opc ∧ t.getF b ATC.DRV_ERR.STAT = r.second.toNat ∧
      t.attic.failAt = some t.now
    let good := r.first = 0 ∨ r.second = 0
    let checkpoint (u t : State) : Prop :=
      (u.streamSlot = none → t = u) ∧
      (∀ k, u.streamSlot = some k → t.attic = { u.attic with
          ckptCount := u.attic.ckptCount + 1, ckptCopy := 1 - u.attic.ckptCopy
          streamQ := u.attic.streamQ ++ [{ slot := k, copy := some (1 - u.attic.ckptCopy) }] } ∧
        t = { u with attic := t.attic, mem := t.mem } ∧ t.mem32 (slotAddr k) = 0xA771C001)
    (s.attic.items = [] → s.dbg.trace = [] → Answers .recorderItem s (· = s)) ∧
    (∀ i rest, s.attic.items = i :: rest →
      let u : State := { s with attic := { s.attic with items := rest } }
      (s.taps = false → Answers .recorderItem s (· = u)) ∧
      (s.taps = true → Answers .recorderItem s (· = u.takeItem i)) ∧
      (∀ source tag time w o, i = .mark source tag time w → s.streaming = true → s.windowing = false →
        (s.attic.opened.find? fun o => o.type == 4 && o.win == false && o.cnv == 0) = some o → o.len + 32 ≤ 3968 →
        let a := slotAddr o.slot + 0x80 + o.len
        Answers .recorderItem s fun t =>
          t.mem32 a = time / ns % 2 ^ 32 ∧ t.mem32 (a + 4) = time / ns / 2 ^ 32 % 2 ^ 32 ∧
          t.byte (a + 8) = BitVec.ofNat 8 tag ∧ t.byte (a + 9) = BitVec.ofNat 8 source ∧ t.mem32 (a + 12) = w.toNat ∧
          ∀ k, k < a ∨ a + 16 ≤ k → t.byte k = s.byte k)) ∧
    (∀ i rest, s.attic.items = [] → s.dbg.trace = i :: rest →
      let u : State := { s with dbg := { s.dbg with trace := rest } }
      Answers .recorderItem s (· = if s.taps then u.takeTrace i else u)) ∧
    (Reaches s (b + ATC.MARK_TAG.TAG.off) →
      (0x100 ≤ value.toNat ∨ s.taps = false → Answers (.markTag init value) s (· = s)) ∧
      (value.toNat < 0x100 → s.taps = true → Answers (.markTag init value) s fun t =>
        let item : Item := .mark (16 + init.val) value.toNat s.marketUnits (s.rd (b + ATC.MARK_VAL.VALUE.off))
        t = { s with attic := { s.attic with items := insertItem item s.attic.items } })) ∧
    (Reaches s (b + ATC.CMD.W.off) →
      (s.windowing = false → Answers (.trig init) s (· = s)) ∧
      let closed (n : Nat) : Prop := s.attic.closedOn = some (s.now, n)
      (∀ n, s.windowing = true → s.attic.window = none → closed n → Answers (.trig init) s fun t =>
        t.attic.window = none ∧ t.getF b ATC.CNT.MERGED = min (s.getF b ATC.CNT.MERGED + 1) 0xFFFF) ∧
      (s.windowing = true → s.attic.window = none → (∀ n, ¬ closed n) → Answers (.trig init) s fun t =>
        t.getB b ATC.STATUS.WIN_OPEN = true ∧ t.getF b ATC.TRIG_INFO.SRC = 0 ∧
        t.getF b ATC.EVENT.NUM = (s.attic.windows + 1) % 2 ^ 32 ∧
        t.get64 b ATC.TRIG_MT_LO.T ATC.TRIG_MT_HI.T = s.marketNs % 2 ^ 64 ∧ ∃ w, t.attic.window = some w ∧
          w.time = s.marketNs ∧ w.src = 0 ∧ w.pre = s.getF b ATC.WIN_PRE.PRE ∧ w.post = s.getF b ATC.WIN_POST.POST ∧
          w.merged = 0) ∧
      (∀ w, s.windowing = true → s.attic.window = some w → Answers (.trig init) s fun t =>
        (w.openedAt ≠ s.now ∨ w.src = 0 →
          t.attic = { s.attic with window := some { w with merged := min (w.merged + 1) 0xFFFF } }) ∧
        (w.openedAt = s.now → w.src ≠ 0 → t.getF b ATC.TRIG_INFO.SRC = 0 ∧
          t.get64 b ATC.TRIG_MT_LO.T ATC.TRIG_MT_HI.T = s.marketNs % 2 ^ 64 ∧ ∃ v, t.attic.window = some v ∧ v.src = 0 ∧
            v.time = s.marketNs ∧ v.number = w.number ∧ v.merged = min (w.merged + 1) 0xFFFF) ∧
        t.getF b ATC.CNT.MERGED = min (s.getF b ATC.CNT.MERGED + 1) 0xFFFF) ∧
      (s.getB b ATC.STATUS.READY = false → Answers (.ckpt init) s (· = s)) ∧
      (s.getB b ATC.STATUS.READY = true → Answers (.ckpt init) s fun t => checkpoint s t)) ∧
    (s.attic.window = none → Answers .windowClose s (· = s)) ∧
    (∀ w, s.attic.window = some w → Answers .windowClose s fun t =>
      t.now = max s.now (edgeDown (s.marketReaches (w.time + 1000 * w.post + 1))) ∧ t.attic.window = none ∧
      t.attic.opened = [] ∧ t.getB b ATC.STATUS.WIN_OPEN = false) ∧
    (s.getB b ATC.STATUS.READY = false → ∀ w, Answers (.driveWrite w n r) s (· = s)) ∧
    (s.getB b ATC.STATUS.READY = true →
      (¬ good → ∀ w, Answers (.driveWrite w n r) s fun t => fails 1 t ∧ t.attic.streamQ = s.attic.streamQ ∧
        t.attic.windowQ = s.attic.windowQ) ∧
      (good → Answers (.driveWrite true n r) s fun t =>
        (s.attic.lostOn ≠ some s.now → t.attic.windowQ = s.attic.windowQ.drop n) ∧
        t.atcSeq = (s.atcSeq + ((s.attic.windowQ.take n).filter fun q => q.copy.isNone).length) % 2 ^ 64) ∧
      (good → Answers (.driveWrite false n r) s fun t =>
        (s.attic.lostOn ≠ some s.now →
          (∃ more, t.attic.streamQ = s.attic.streamQ.drop n ++ more) ∧ t.attic.windowQ = s.attic.windowQ) ∧
        t.atcSeq = (s.atcSeq + ((s.attic.streamQ.take n).filter fun q => q.copy.isNone).length) % 2 ^ 64)) ∧
    (s.getB b ATC.STATUS.READY = false → Answers (.checkpoint r) s (· = s)) ∧
    (s.getB b ATC.STATUS.READY = true →
      let now := max s.now (edgeDown s.attic.ckptAt)
      let u : State := { s with now := now, attic := { s.attic with
        ckptOn := some now
        ckptAt := now + max 1 (s.getF b ATC.TIMING.CKPT_MS) * 1000 * us } }
      (¬ good → Answers (.checkpoint r) s fun t => t.now = now ∧ fails 0 t) ∧
      (good → Answers (.checkpoint r) s fun t => checkpoint u t)) ∧
    (s.attic.stopping = false → Answers .atticShutdown s (· = s)) ∧
    (s.attic.stopping = true → Answers .atticShutdown s fun t =>
      t.attic.stopping = false ∧ (s.attic.lostOn ≠ some s.now → t.attic.windowQ = []) ∧
      (s.getB b ATC.CTRL.ENABLE = false → t.attic.perst = false ∧ t.attic.perstFrom = none ∧
        t.getB b ATC.STATUS.READY = false))

/-- The drive (R488, R490–R492, R494, R495): PE_PERST_N rises 100 ms after its conditions hold; bring-up fails in a
step, finds a bad region or none, or opens the region where the newer good checkpoint and the scan leave it; it runs
again 1 s after a failure, and at once after the link went down; FORMAT opens an empty region, READ reads back, one on
the edge on which a readback ends starts after it (R497), a poll reads the drive's health. Readings of the model: log entries 51, 52. -/
def Obligations.AtticDrive : Prop :=
  ∀ (s : State) (init : Fin 16) (env : DriveEnv) (r : NvmeResult) (data : List Word) (status temp : BitVec 16)
    (crit pct : BitVec 8) (media : Nat),
    let b := ATC.base
    let failed (t : State) (step opc stat : Nat) : Prop := t.getB b ATC.STATUS.DRV_FAIL = true ∧
      t.getB b ATC.STATUS.READY = false ∧ t.getF b ATC.DRV_ERR.STEP = step ∧ t.getF b ATC.DRV_ERR.OPC = opc ∧
      t.getF b ATC.DRV_ERR.STAT = stat ∧ t.attic.failAt = some t.now ∧ t.attic.bringUp = false
    let opened (t : State) (seq : Nat) : Prop := t.getB b ATC.STATUS.READY = true ∧
      t.getB b ATC.STATUS.NO_REGION = false ∧ t.getB b ATC.STATUS.DRV_FAIL = false ∧ t.atcSeq = seq % 2 ^ 64 ∧
      t.attic.failAt = none
    (s.attic.perstFrom = none ∨ s.attic.perst = true ∨ s.attic.stopping = true → Answers .perstRelease s (· = s)) ∧
    (∀ t0, s.attic.perstFrom = some t0 → s.attic.perst = false → s.attic.stopping = false →
      Answers .perstRelease s fun t => t = { s with
        now := max s.now (edgeDown (t0 + 100000 * us)), attic := { s.attic with perst := true, bringUp := true } }) ∧
    (s.getB b ATC.CTRL.ENABLE = false ∨ s.attic.perst = false ∨ s.attic.bringUp = false →
      Answers (.bringUp env) s (· = s)) ∧
    (s.getB b ATC.CTRL.ENABLE = true → s.attic.perst = true → s.attic.bringUp = true →
      let f := env.failStep.val
      let small := s.regLen < 64 ∨ 0x10000000 < s.regLen
      let a := s.copyGood env.copyA = true ∧ (s.copyGood env.copyB = false ∨ env.copyB.count.toNat < env.copyA.count.toNat)
      Answers (.bringUp env) s fun t =>
        (f = 1 ∨ f = 2 ∨ f = 3 ∨ f = 4 → failed t f env.opc.toNat env.stat.toNat) ∧
        (f = 0 ∨ 3 ≤ f → t.getF b ATC.LINK.WIDTH = env.width.val ∧ t.getF b ATC.LINK.SPEED = env.speed.val) ∧
        (f = 0 ∨ 5 ≤ f → small ∨ env.namespaceOk = false → t.getB b ATC.STATUS.REG_BAD = true ∧
          t.attic.bringUp = false ∧ t.attic.step6 = false) ∧
        (f = 5 → ¬ small → env.namespaceOk = true → failed t 5 env.opc.toNat env.stat.toNat ∧ t.attic.step6 = false) ∧
        (f = 0 ∨ 6 ≤ f → ¬ small → env.namespaceOk = true → t.getB b ATC.STATUS.REG_BAD = false ∧
          (t.attic.step6 = true ↔ f ≠ 6) ∧ (f ≠ 0 → failed t f env.opc.toNat env.stat.toNat) ∧
          (f = 0 → a → opened t (env.copyA.nextSeq.toNat + env.scanned) ∧ t.attic.ckptCopy = 0) ∧
          (f = 0 → ¬ a → s.copyGood env.copyB = true →
            opened t (env.copyB.nextSeq.toNat + env.scanned) ∧ t.attic.ckptCopy = 1) ∧
          (f = 0 → s.copyGood env.copyA = false → s.copyGood env.copyB = false →
            t.getB b ATC.STATUS.NO_REGION = true ∧ t.getB b ATC.STATUS.READY = s.getB b ATC.STATUS.READY))) ∧
    (s.attic.failAt = none ∨ s.getB b ATC.CTRL.ENABLE = false ∨ s.attic.perst = false →
      Answers .bringUpRestart s (· = s)) ∧
    (∀ t0, s.attic.failAt = some t0 → s.getB b ATC.CTRL.ENABLE = true → s.attic.perst = true →
      Answers .bringUpRestart s fun t => t = { s with
        now := max s.now (edgeDown (t0 + 1000000 * us)), attic := { s.attic with failAt := none, bringUp := true } }) ∧
    (Answers .pcieLinkDown s fun t => t.getB b ATC.STATUS.READY = false ∧ t.getF b ATC.LINK.WIDTH = 0 ∧
      t.getF b ATC.LINK.SPEED = 0 ∧ t.attic.bringUp = s.attic.perst ∧ t.attic.step6 = false) ∧
    (Reaches s (b + ATC.CMD.W.off) →
      (s.attic.step6 = true → Answers (.format init) s fun t => opened t 1 ∧ t.getF b ATC.WPTR.BLOCK = 2 ∧
        t.getF b ATC.OLDEST.BLOCK = 2 ∧ t.getB b ATC.STATUS.WRAPPED = decide (s.regLen ≤ 2)) ∧
      (s.attic.step6 = false → Answers (.format init) s fun t => t.getB b ATC.STATUS.CMD_REFUSED = true ∧
        OnlyFields { s with attic := t.attic } t b [ATC.STATUS.CMD_REFUSED, ATC.STATUS.WEAR]) ∧
      (s.readCause = true → Answers (.atcRead init) s fun t => t.getB b ATC.STATUS.CMD_REFUSED = true ∧
        t.attic.readback = s.attic.readback) ∧
      (s.readCause = false → Answers (.atcRead init) s fun t => t.getB b ATC.STATUS.RB_BUSY = true ∧
        OnlyFields { s with attic := { s.attic with readback := some (s.getF b ATC.RB_LBA.BLOCK,
          min 8 (max 1 (s.getF b ATC.RB_COUNT.COUNT))) } } t b [ATC.STATUS.RB_BUSY])) ∧
    (s.readCause = true ↔ s.getB b ATC.STATUS.RB_BUSY = true ∨ s.getB b ATC.STATUS.READY = false ∨
      s.getF b ATC.REG_LEN.LEN < s.getF b ATC.RB_LBA.BLOCK + min 8 (max 1 (s.getF b ATC.RB_COUNT.COUNT))) ∧
    (s.attic.readback = none → Answers (.readbackEnd data status) s (· = s)) ∧
    (∀ lba n, s.attic.readback = some (lba, n) → n ≤ 8 → Answers (.readbackEnd data status) s fun t =>
      let again := s.attic.readRefused = true ∧ s.attic.readOn = some s.now
      let blocks := min 8 (max 1 (s.getF b ATC.RB_COUNT.COUNT))
      (¬ again → t.attic.readback = none ∧ t.getB b ATC.STATUS.RB_BUSY = false) ∧
      (again → s.getB b ATC.STATUS.READY = true → s.getF b ATC.RB_LBA.BLOCK + blocks ≤ s.getF b ATC.REG_LEN.LEN →
        t.attic.readback = some (s.getF b ATC.RB_LBA.BLOCK, blocks) ∧ t.getB b ATC.STATUS.RB_BUSY = true) ∧
      (s.bit b ATC.IRQ_EN.SRC 5 = true → t.crier.launched = s.crier.launched ++ [138]) ∧
      (status = 0 → t.getF b ATC.RB_STATUS.RESULT = 1 ∧ ∀ (i : Nat) (h : i < data.length), i < 1024 * n →
        t.getF b (ATC.RB_BUF.DATA.at (4 * i)) = (data[i]).toNat) ∧
      (status ≠ 0 → t.getF b ATC.RB_STATUS.RESULT = 2 ∧ t.getF b ATC.RB_STATUS.STAT = status.toNat ∧
        ∀ i < 8192, t.getF b (ATC.RB_BUF.DATA.at (4 * i)) = s.getF b (ATC.RB_BUF.DATA.at (4 * i)))) ∧
    (s.getB b ATC.STATUS.READY = false → Answers (.smartPoll temp crit pct media r) s (· = s)) ∧
    (s.getB b ATC.STATUS.READY = true → Answers (.smartPoll temp crit pct media r) s fun t =>
      t.now = max s.now (edgeDown s.attic.smartAt) ∧
      (r.first = 0 ∨ r.second = 0 →
        t.getF b ATC.SMART.TEMP = temp.toNat ∧ t.getF b ATC.SMART.CRIT = crit.toNat ∧
        t.getF b ATC.SMART.PCT_USED = pct.toNat ∧ t.getF b ATC.MEDIA_ERR.COUNT = min media 0xFFFFFFFF ∧
        t.attic.smartAt = t.now + max 1 (s.getF b ATC.TIMING.SMART_S) * 1000000 * us ∧
        (t.getB b ATC.STATUS.WEAR = true ↔ s.getF b ATC.WEAR_PCT.PCT ≤ pct.toNat ∨ crit ≠ 0)) ∧
      (¬ (r.first = 0 ∨ r.second = 0) → failed t 8 2 r.second.toNat))

/-! ### Debug -/

/-- The debug island's own accesses (R500–R503, R520, R521, R523): the TAP selects what it is told; DBGACC reaches a DBG
register, in a locked hall only some; the system access port ends an access with the value or the error and moves its
address on; a key is judged, and a wrong one locks out for 1 s; a debug reset sets every field. Readings of the model:
log entries 29, 30, 58, 59. -/
def Obligations.DebugAccess : Prop :=
  ∀ (s : State) (init : Fin 16) (balls cells : List Bool) (index : Fin 512) (data : Word) (env : BusEnv),
    let b := DBG.base
    let tap (code : BitVec 5) (t : State) : Prop := t = { s with dbg := { s.dbg with ir := code } }
    let scan (code : BitVec 5) (t : State) : Prop :=
      t = { s with dbg := { s.dbg with ir := code, captured := balls, boundary := cells } }
    (s.tapRuns = false → (∀ i ∈ [Instr.extest balls cells, .samplePreload balls cells, .idcode, .clamp, .highz, .bypass],
        Answers i s (· = s)) ∧ ∀ w, Answers (.dbgacc w index data) s (· = s)) ∧
    (s.tapRuns = true →
      Answers (.extest balls cells) s (scan 0) ∧ Answers (.samplePreload balls cells) s (scan 1) ∧
      Answers .idcode s (tap 2) ∧ Answers .clamp s (tap 3) ∧ Answers .highz s (tap 4) ∧ Answers .bypass s (tap 0x1F) ∧
      (let a := b + 4 * index.val
       let shut := s.debugLocked = true ∧ lockedReach index = false
       (shut → ∀ w, Answers (.dbgacc w index data) s fun t => t = { s with dbg := { s.dbg with
          ir := 0x10, accErr := true, accRead := if w then s.dbg.accRead else 0 } }) ∧
       (¬ shut → s.reach a ≠ 0 → ∀ w, Answers (.dbgacc w index data) s fun t =>
          t = { s with dbg := { s.dbg with ir := 0x10, accErr := true } }) ∧
       (¬ shut → s.reach a = 0 → Answers (.dbgacc false index data) s fun t => t.dbg.accErr = false ∧
          (index = 0 ∨ index.val ∈ [3, 4, 5, 6, 8, 12, 13, 16, 17, 18, 19] →
            ∀ r, rowAt DBG.map (4 * index.val) = some r → t.dbg.accRead = s.rd a &&& BitVec.ofNat 32 r.shown) ∧
          ∀ k, t.rd k = s.rd k) ∧
       (¬ shut → s.reach a = 0 → index = 4 ∨ index = 5 → Answers (.dbgacc true index data) s fun t =>
          t.rd a = data ∧ t.dbg.accErr = false))) ∧
    (let a := s.getF b DBG.SAP_ADDR.ADDR
     let n := s.sapSize
     let ends (u t : State) (kind : Option Nat) : Prop :=
       t.getB b DBG.SAP_STATUS.BUSY = false ∧ t.getB b DBG.SAP_STATUS.REFUSED = false ∧ t.dbg.sap = none ∧
       t.getB b DBG.SAP_STATUS.ERR = kind.isSome ∧ (∀ k, kind = some k → t.getF b DBG.SAP_STATUS.KIND = k % 16) ∧
       t.getF b DBG.SAP_ADDR.ADDR =
         (if u.getB b DBG.SAP_CFG.AUTOINC then (a + n) % 2 ^ 32 else u.getF b DBG.SAP_ADDR.ADDR) ∧
       t = { u with regs := t.regs, dbg := t.dbg }
     (s.dbg.sap ≠ some false ∨ s.islandUp .dbg = false → Answers (.sapRead env) s (· = s)) ∧
     (s.dbg.sap ≠ some true ∨ s.islandUp .dbg = false → Answers (.sapWrite env) s (· = s)) ∧
     (s.dbg.sap = some false → s.islandUp .dbg = true →
       ∀ r u, s.busRead 6 a n (s.getB b DBG.SAP_CFG.PEEK) env = (r, u) → u.dbg.sap ≠ none →
         (∀ v, r = .ok v → Answers (.sapRead env) s fun t =>
           ends u t none ∧ t.getF b DBG.SAP_DATA.DATA = v % 2 ^ 32) ∧
         (∀ k, r = .err k → Answers (.sapRead env) s fun t => ends u t (some k)) ∧
         (r = .wait → Answers (.sapRead env) s (· = u))) ∧
     (s.dbg.sap = some true → s.islandUp .dbg = true →
       ∀ r u, s.busWrite 6 a n (s.getF b DBG.SAP_DATA.DATA % 2 ^ (8 * n)) env = (r, u) → u.dbg.sap ≠ none →
         (∀ v, r = .ok v → Answers (.sapWrite env) s fun t => ends u t none) ∧
         (∀ k, r = .err k → Answers (.sapWrite env) s fun t => ends u t (some k)) ∧
         (r = .wait → Answers (.sapWrite env) s (· = u)))) ∧
    (Reaches s (b + DBG.CMD.W.off) →
      (let st := s.getF b DBG.LOCK.STATE
       let key := (List.range 32).map fun i =>
         BitVec.ofNat 8 (s.getF b (DBG.UNLOCK_KEY.KEY.at (4 * (i / 4))) / 2 ^ (8 * (i % 4)))
       let shut := s.getB b DBG.LOCK.LOCKOUT = true ∧ s.now < s.dbg.lockEnd
       let keys := (List.range 8).map fun i => DBG.UNLOCK_KEY.KEY.at (4 * i)
       Answers (.unlock init) s fun t => (∀ f ∈ keys, t.getF b f = 0) ∧
         (shut ∨ (s.keyMatches key = true ∧ st = 3) → OnlyFields s t b keys) ∧
         (¬ shut → s.keyMatches key = true → st = 2 →
           t.getB b DBG.LOCK.UNLOCKED = true ∧ OnlyFields s t b (keys ++ [DBG.LOCK.UNLOCKED])) ∧
         (¬ shut → s.keyMatches key = false ∨ st = 0 ∨ st = 1 →
           t.getF b DBG.LOCK.FAILS = min (s.getF b DBG.LOCK.FAILS + 1) 0xFF ∧ t.getB b DBG.LOCK.LOCKOUT = true ∧
           t.dbg = { s.dbg with lockEnd := s.now + 1000000 * us } ∧
           OnlyFields { s with dbg := t.dbg } t b (keys ++ [DBG.LOCK.FAILS, DBG.LOCK.LOCKOUT]))) ∧
      (Answers (.dbgReset init) s fun t => t = { s with regs := t.regs, dbg := { upAt := s.dbg.upAt } } ∧
        (∀ a, b ≤ a → a < b + 0x1000 → a ≠ b + DBG.LOCK.W.off → t.rd a = resetWordAt a) ∧
        (∀ a, a < b ∨ b + 0x1000 ≤ a → t.rd a = s.rd a) ∧
        t.getF b DBG.LOCK.STATE = s.options.dbgLock.toNat ∧ t.getB b DBG.LOCK.UNLOCKED = false)) ∧
    (s.getB b DBG.LOCK.LOCKOUT = false → Answers .lockoutEnd s (· = s)) ∧
    (s.getB b DBG.LOCK.LOCKOUT = true → Answers .lockoutEnd s fun t => t.getB b DBG.LOCK.LOCKOUT = false ∧
      t.now = max s.now (edgeDown s.dbg.lockEnd) ∧ OnlyFields { s with now := t.now } t b [DBG.LOCK.LOCKOUT])

/-- The monitor (R505, R508, R511–R515, R520, R521): HALT raises a request, RESUME and STEP leave MON; a command in
front is carried out and answered; a locked hall answers LOCKED and does nothing else; a core that does not exist, is
down or is not halted is answered so. Readings of the model: log entries 29, 58, 59. -/
def Obligations.DebugMonitor : Prop :=
  ∀ (s : State) (init : Fin 16) (m : RingMsg) (env : List BusEnv),
    let b := DBG.base
    let cmd := byteAt m.payload 0
    let n := byteAt m.payload 1
    let addr := numAt m.payload 4 4
    let len := numAt m.payload 8 4
    let first := s.islandUp .dbg = true ∧ ∃ rest, s.dbg.queue = m :: rest
    let turn (k : Nat) := first ∧ cmd = k ∧ (s.debugLocked = false ∨ k = 8)
    let answered (u t : State) (status kind : Nat) (d : List (BitVec 8)) : Prop := ∃ v : State, t = v.monServe 4 ∧
      v = { u with regs := v.regs, dbg := v.dbg, ring := v.ring } ∧ v.dbg.queue = u.dbg.queue.tail ∧
      (m.svc ≠ 0 → v.ring = { u.ring with monOut := u.ring.monOut ++ [answerTo m u.nodeId (monPayload m status kind d)] } ∧
        v.regs = u.regs) ∧
      (m.svc = 0 → v.ring = u.ring ∧ v.getB b DBG.MCMD_STATUS.DONE = true ∧ v.getB b DBG.MCMD_STATUS.BUSY = false ∧
        ∀ i < 64, 4 * i < (monPayload m status kind d).length →
          v.getF b (DBG.MCMD_BUF.DATA.at (4 * i)) = numAt (monPayload m status kind d) (4 * i) 4)
    let answers (i : Instr) (u : State) (status kind : Nat) (d : List (BitVec 8)) : Prop :=
      Answers i s fun t => answered u t status kind d
    let all : List (Nat × Instr) := [(1, .memRead env), (2, .memWrite env), (3, .monHalt), (4, .monResume), (5, .monStep),
      (6, .regRead), (7, .regWrite), (8, .monUnlock)]
    -- the control registers
    (∀ c : Fin 4, Reaches s (b + (DBG.C_CMD.W.at (0x80 * c.val)).off) →
      (s.coreUp c = true → Answers (.cCmdHalt init c) s fun t => t.core[c].monReq = true ∧
        (s.core[c].monReq = true → t = s) ∧
        (s.core[c].monReq = false → t.getF b (DBG.C_STATUS.REASON.at (0x80 * c.val)) = 1 ∧
          t.core[c] = { s.core[c] with monReq := true } ∧ (∀ f : Fin 4, f ≠ c → t.core[f] = s.core[f]))) ∧
      (s.coreUp c = false → Answers (.cCmdHalt init c) s fun t => t.cmdRefused c = true ∧ t.core = s.core) ∧
      ∀ step : Bool,
        let i : Instr := if step then .cCmdStep init c else .cCmdResume init c
        (s.halted c = false → Answers i s fun t => t.cmdRefused c = true ∧ t.core = s.core) ∧
        (s.halted c = true → s.core[c].cl = 9 → Answers i s (· = s.monLeave c step)) ∧
        (s.halted c = true → s.core[c].cl ≠ 9 → Answers i s fun t =>
          t = s.modCore c fun x => { x with resumeAsk := some step })) ∧
    (Reaches s (b + DBG.CMD.W.off) →
      (s.getB b DBG.MCMD_STATUS.BUSY = true → Answers (.mcmdGo init) s (· = s)) ∧
      (s.getB b DBG.MCMD_STATUS.BUSY = false → ∃ u : State, u.getB b DBG.MCMD_STATUS.BUSY = true ∧
        u.getB b DBG.MCMD_STATUS.DONE = false ∧ u.getB b DBG.MCMD_STATUS.TIMEOUT = false ∧
        OnlyFields s u b [DBG.MCMD_STATUS.BUSY, DBG.MCMD_STATUS.DONE, DBG.MCMD_STATUS.TIMEOUT] ∧
        ∃ p : List (BitVec 8), p.length = s.getF b DBG.MCMD_CTRL.LEN ∧
          (∀ (i : Nat) (h : i < p.length), (p[i]).toNat =
            s.getF b (DBG.MCMD_BUF.DATA.at (4 * (i / 4))) / 2 ^ (8 * (i % 4)) % 256) ∧
          (s.getF b DBG.MCMD_CTRL.DST = 0 → Answers (.mcmdGo init) s fun t =>
            t = ({ u with dbg := { u.dbg with queue := u.dbg.queue ++
              [{ dst := 0, src := 0, seq := 0, svc := 0, kind := 0, payload := p }] } } : State).monServe 4) ∧
          (s.getF b DBG.MCMD_CTRL.DST ≠ 0 → Answers (.mcmdGo init) s fun t =>
            t = { u with ring := { u.ring with
              monOut := u.ring.monOut ++ [{ dst := s.getF b DBG.MCMD_CTRL.DST, src := s.nodeId, seq := s.ring.mbxSeq
                                            svc := 2, kind := 0, payload := p.take 248 }]
              mbxSeq := (u.ring.mbxSeq + 1) % 0x10000 } }))) ∧
    -- what is not executed
    (∀ p ∈ all,
      (s.islandUp .dbg = false ∨ s.dbg.queue = [] → Answers p.2 s (· = s)) ∧
      (first → cmd ≠ p.1 → Answers p.2 s (· = s)) ∧
      (first → cmd = p.1 → p.1 ≠ 8 → s.debugLocked = true → answers p.2 s 1 0 [])) ∧
    -- memory
    (turn 1 → memLimits m = true → ∀ r u, s.peekWords addr (len / 4) env [] = (r, u) →
      (r.waits = false → r.kind = none → answers (.memRead env) u 0 0 r.data) ∧
      (r.waits = false → ∀ k, r.kind = some k → answers (.memRead env) u 2 k r.data) ∧
      (r.waits = true → Answers (.memRead env) s (· = { s with flash := u.flash, free := u.free }))) ∧
    (turn 2 → memLimits m = true →
      ∀ r u, s.pokeWords addr ((List.range (len / 4)).map fun i => numAt m.payload (12 + 4 * i) 4) env = (r, u) →
        (r.waits = false → r.kind = none → answers (.memWrite env) u 0 0 []) ∧
        (r.waits = false → ∀ k, r.kind = some k → answers (.memWrite env) u 2 k []) ∧
        (r.waits = true → Answers (.memWrite env) s (· = { s with flash := u.flash, free := u.free }))) ∧
    (memLimits m = false → (turn 1 → answers (.memRead env) s 4 0 []) ∧ (turn 2 → answers (.memWrite env) s 4 0 [])) ∧
    -- cores
    (3 < n → ∀ p ∈ all, 3 ≤ p.1 → p.1 ≤ 7 → turn p.1 → answers p.2 s 4 0 []) ∧
    (n < 4 →
      (turn 3 → s.coreUp n = true → answers .monHalt (s.haltCmd n) 0 0 []) ∧
      (turn 3 → s.coreUp n = false → answers .monHalt (s.haltCmd n) 6 0 []) ∧
      (∀ p ∈ [(4, Instr.monResume, false), (5, .monStep, true)], turn p.1 →
        (s.halted n = true → answers p.2.1 (s.resumeCmd n p.2.2) 0 0 []) ∧
        (s.halted n = false → answers p.2.1 (s.resumeCmd n p.2.2) (if s.coreUp n then 3 else 6) 0 [])) ∧
      (∀ p ∈ [(6, Instr.regRead), (7, .regWrite)], turn p.1 →
        (s.coreUp n = false → answers p.2 s 6 0 []) ∧
        (s.coreUp n = true → s.halted n = false → answers p.2 s 3 0 []) ∧
        (s.halted n = true → s.monReg n addr = none → answers p.2 s 4 0 [])) ∧
      (s.halted n = true → ∀ v, s.monReg n addr = some v →
        (turn 6 → answers .regRead s 0 0 (leBytes v.toNat 4)) ∧
        (turn 7 → answers .regWrite (s.setMonReg n addr (BitVec.ofNat 32 (numAt m.payload 12 4))) 0 0 []))) ∧
    (∀ (c : Fin 4) (i : Fin 16) (v : Word), (s.setMonReg c i v).core[c] =
      { s.core[c] with x := s.core[c].x.set (physReg s.core[c].monFrm i) v }) ∧
    (turn 8 → len ≠ 32 → answers .monUnlock s 4 0 []) ∧
    (turn 8 → len = 32 → ∀ ok u,
      s.judgeKey ((List.range 32).map fun i => BitVec.ofNat 8 (byteAt m.payload (12 + i))) = (ok, u) →
      answers .monUnlock u (if ok then 0 else 1) 0 [])

/-! ### Peripherals -/

/-- SPI and UART (R527, R528, R538, R539): a word written is queued, or refused into a full FIFO; a frame sent leaves
the FIFO, one received enters the receive FIFO or is lost; CTS holds a UART's frames back; a read takes the oldest
frame, a peek does not, and an empty FIFO reads 0. Readings of the model: log entries 60. -/
def Obligations.SerialPorts : Prop :=
  ∀ (s : State) (init : Fin 16) (w miso : Word) (peek : Bool),
    (∀ p : Fin 4,
      let b := SPI.base p
      let x := s.spi[p]
      let n := max 7 (s.getF b SPI.CTRL.BITS) + 1
      let got : Word := BitVec.ofNat 32 (miso.toNat % 2 ^ n)
      let others (t : State) : Prop := ∀ k : Fin 4, k ≠ p → t.spi[k] = s.spi[k]
      (Reaches s (b + SPI.TXDATA.DATA.off) →
        (x.tx.length < 16 → Answers (.spiTxdata init p w) s fun t => t.spi[p] = { x with tx := x.tx ++ [w] } ∧
          t.getF b SPI.STATUS.TX_LVL = x.tx.length + 1 ∧ others t) ∧
        (16 ≤ x.tx.length → Answers (.spiTxdata init p w) s fun t =>
          t.getF b SPI.CNT.TX_REFUSED = min (s.getF b SPI.CNT.TX_REFUSED + 1) 0xFFFF ∧
          OnlyFields s t b [SPI.CNT.TX_REFUSED])) ∧
      (x.tx = [] ∨ s.getB b SPI.CTRL.ENABLE = false → Answers (.spiFrame p miso) s (· = s)) ∧
      (∀ v rest, x.tx = v :: rest → s.getB b SPI.CTRL.ENABLE = true → Answers (.spiFrame p miso) s fun t =>
        t.spi[p].tx = rest ∧ t.spi[p].last = some (BitVec.ofNat 32 (v.toNat % 2 ^ n)) ∧ others t ∧
        (x.rx.length < 16 → t.spi[p].rx = x.rx ++ [got] ∧ t.getF b SPI.CNT.RX_LOST = s.getF b SPI.CNT.RX_LOST) ∧
        (16 ≤ x.rx.length → t.spi[p].rx = x.rx ∧
          t.getF b SPI.CNT.RX_LOST = min (s.getF b SPI.CNT.RX_LOST + 1) 0xFFFF)) ∧
      (Reaches s (b + SPI.RXDATA.DATA.off) →
        (x.rx = [] → Answers (.spiRxdata init p peek) s fun t => t = { s with readData := s.readData.set init 0 }) ∧
        (∀ v rest, x.rx = v :: rest →
          (Answers (.spiRxdata init p true) s fun t => t = { s with readData := s.readData.set init v }) ∧
          (Answers (.spiRxdata init p false) s fun t => t.readData = s.readData.set init v ∧
            t.spi[p] = { x with rx := rest } ∧ others t ∧ t.getF b SPI.STATUS.RX_LVL = rest.length % 32)))) ∧
    (∀ (u : Fin 2) (f : UartFrame),
      let b := UART.base u
      let x := s.uart[u]
      let d (v : Word) : Word := if s.getB b UART.CTRL.BITS7 then v &&& 0x7F else v
      let got : Word := d (f.data.setWidth 32) ||| BitVec.ofNat 32 (0x100 * f.parityError.toNat + 0x200 * f.framingError.toNat)
      let stopped := s.getB b UART.CTRL.RTSCTS = true ∧ s.gpioIn (19 + 4 * u.val) = true
      let others (t : State) : Prop := ∀ k : Fin 2, k ≠ u → t.uart[k] = s.uart[k]
      let count (t : State) (g : Fld) (more : Bool) : Prop := t.getF b g = min (s.getF b g + more.toNat) 0xFF
      (Reaches s (b + UART.TXDATA.DATA.off) →
        (x.tx.length < 16 → Answers (.uartTxdata init u w) s fun t =>
          t.uart[u] = { x with tx := x.tx ++ [w &&& 0xFF] } ∧ t.getF b UART.STATUS.TX_LVL = x.tx.length + 1 ∧ others t) ∧
        (16 ≤ x.tx.length → Answers (.uartTxdata init u w) s fun t => count t UART.CNT.TX_REFUSED true ∧
          OnlyFields s t b [UART.CNT.TX_REFUSED])) ∧
      (s.getB b UART.CTRL.ENABLE = false → ∀ r, Answers (.uartFrame u r) s (· = s)) ∧
      (s.getB b UART.CTRL.ENABLE = true →
        (Answers (.uartFrame u (some f)) s fun t => others t ∧ t.uart[u].tx = x.tx ∧
          count t UART.CNT.FRAME f.framingError ∧ count t UART.CNT.PARITY f.parityError ∧
          count t UART.CNT.RX_LOST (decide (16 ≤ x.rx.length)) ∧
          t.uart[u].rx = if x.rx.length < 16 then x.rx ++ [got] else x.rx) ∧
        (x.tx = [] ∨ stopped → Answers (.uartFrame u none) s (· = s)) ∧
        (∀ v rest, x.tx = v :: rest → ¬ stopped → Answers (.uartFrame u none) s fun t =>
          t.uart[u] = { x with tx := rest, last := some (d v) } ∧ others t)) ∧
      (Reaches s (b + UART.RXDATA.W.off) →
        (x.rx = [] → Answers (.uartRxdata init u peek) s fun t => t = { s with readData := s.readData.set init 0 }) ∧
        (∀ v rest, x.rx = v :: rest →
          (Answers (.uartRxdata init u true) s fun t => t = { s with readData := s.readData.set init v }) ∧
          (Answers (.uartRxdata init u false) s fun t => t.readData = s.readData.set init v ∧
            t.uart[u] = { x with rx := rest } ∧ others t ∧ t.getF b UART.STATUS.RX_LVL = rest.length % 32))))

/-- CAN (R529, R530, R539): a good frame goes to the dictionary engine, or through a filter into the FIFO, or nowhere;
an error counts, and the counts make the controller passive or bus-off; the slot with the lowest identifier is sent and
is pending no longer; RECOVER starts the only way out of bus-off. Readings of the model: log entries 24, 60. -/
def Obligations.CanBus : Prop :=
  ∀ (s : State) (k : Fin 2) (init : Fin 16) (f : CanFrame) (slots : BitVec 8),
    let b := CAN.base k
    let id := f.id.toNat % 2 ^ 29
    let on := s.getB b CAN.CTRL.ENABLE = true ∧ s.getF b CAN.STATUS.STATE ≠ 2
    let tec := s.getF b CAN.STATUS.TEC
    let rec_ := s.getF b CAN.STATUS.REC
    let passes := ∃ j : Fin 32, s.getB b (CAN.FILT_ID.EN.at (8 * j)) = true ∧
      id &&& s.getF b (CAN.FILT_MASK.MASK.at (8 * j)) =
        s.getF b (CAN.FILT_ID.ID.at (8 * j)) &&& s.getF b (CAN.FILT_MASK.MASK.at (8 * j))
    let counts (t : State) (a c : Nat) : Prop :=
      t.getF b CAN.STATUS.TEC = min a 511 ∧ t.getF b CAN.STATUS.REC = min c 255 ∧
      t.getF b CAN.STATUS.STATE = if 256 ≤ a then 2 else if 128 ≤ a ∨ 128 ≤ c then 1 else 0
    let other (t : State) : Prop := ∀ j : Fin 2, j ≠ k → t.can[j] = s.can[j]
    (¬ on → ∀ e, Answers (.canFrame k f e) s (· = s)) ∧
    (on →
      (Answers (.canFrame k f true) s fun t => counts t tec (rec_ + 1) ∧ t.can = s.can ∧ t.ode = s.ode) ∧
      (Answers (.canFrame k f false) s fun t =>
        counts t tec (if 127 < rec_ then 127 else rec_ - 1) ∧ other t ∧
        (s.isUsdo k id = true → t.ode = { s.ode with canFrames := s.ode.canFrames ++ [f] } ∧ t.can = s.can) ∧
        (s.isUsdo k id = false → t.ode = s.ode ∧
          (passes → s.can[k].rx.length < 32 → t.can[k] = { s.can[k] with rx := s.can[k].rx ++ [f] } ∧
            t.getB b CAN.STATUS.RX_NE = true) ∧
          (¬ passes ∨ 32 ≤ s.can[k].rx.length → t.can = s.can)))) ∧
    (∀ slot : Fin 9,
      (¬ on ∨ s.getB b CAN.CTRL.LISTEN = true ∨ s.canFirst k slot = false → ∀ e,
        Answers (.canTxDone k slot e) s (· = s)) ∧
      (on → s.getB b CAN.CTRL.LISTEN = false → s.canFirst k slot = true →
        (Answers (.canTxDone k slot true) s fun t => counts t (tec + 8) rec_ ∧
          t.getF b CAN.TX_PEND.PEND = s.getF b CAN.TX_PEND.PEND ∧ t.ode = s.ode ∧ t.can = s.can) ∧
        (∀ g, s.canSlot k slot = some g → Answers (.canTxDone k slot false) s fun t => ∃ u : State,
          t = (if s.getB b CAN.CTRL.LOOP then u.canTake k g else u) ∧ counts u (tec - 1) rec_ ∧ other u ∧
            u.can[k] = { s.can[k] with last := some g } ∧
            (slot.val < 8 → u.ode = s.ode ∧
              ∀ j : Fin 8, u.bit b CAN.TX_PEND.PEND j = (s.bit b CAN.TX_PEND.PEND j && j.val != slot.val)) ∧
            (slot.val = 8 → u.ode = { s.ode with canTx := s.ode.canTx.tail } ∧
              u.getF b CAN.TX_PEND.PEND = s.getF b CAN.TX_PEND.PEND))) ∧
      (s.canFirst k slot = true → ∀ (j : Fin 9) (g h : CanFrame), s.canSlot k slot = some g → s.canSlot k j = some h →
        g.id.toNat % 2 ^ 29 ≤ h.id.toNat % 2 ^ 29)) ∧
    (Reaches s (b + CAN.CMD.W.off) →
      (Answers (.txReq init k slots) s fun t =>
        t.getF b CAN.TX_PEND.PEND = s.getF b CAN.TX_PEND.PEND ||| slots.toNat ∧ OnlyFields s t b [CAN.TX_PEND.PEND]) ∧
      (Answers (.canRxPop init k) s fun t => t.can[k] = { s.can[k] with rx := s.can[k].rx.tail } ∧ other t ∧
        (t.getB b CAN.STATUS.RX_NE = true ↔ s.can[k].rx.tail ≠ []) ∧
        ∀ g rest, s.can[k].rx.tail = g :: rest → t.rd (b + CAN.RX_HEAD.DATA.off) = g.id ∧
          t.rd (b + CAN.RX_HEAD.DATA.off + 4) = g.flags) ∧
      (s.getF b CAN.STATUS.STATE ≠ 2 → Answers (.recover init k) s fun t => OnlyRegs s t fun _ => False) ∧
      (s.getF b CAN.STATUS.STATE = 2 → Answers (.recover init k) s fun t =>
        t.can[k] = { s.can[k] with recovering := true } ∧ other t ∧ OnlyRegs { s with can := t.can } t fun _ => False)) ∧
    (s.can[k].recovering = false ∨ s.getB b CAN.CTRL.ENABLE = false → Answers (.busOffRecoveryEnd k) s (· = s)) ∧
    (s.can[k].recovering = true → s.getB b CAN.CTRL.ENABLE = true → Answers (.busOffRecoveryEnd k) s fun t =>
      t.getF b CAN.STATUS.STATE = 0 ∧ t.getF b CAN.STATUS.TEC = 0 ∧ t.getF b CAN.STATUS.REC = 0 ∧
      t.can[k] = { s.can[k] with recovering := false } ∧ other t)

/-- I²C, decoders and GPIO (R525, R526, R532–R534, R538, R539): an operation leaves the queue when it completes, and a
NACK or a lost arbitration halts the queue until RESUME; a decoder counts the levels that its filters pass in its mode
and direction, and an acting Z edge takes the count to ZPOS and clears it; OUT_SET and OUT_CLR change the bits that are
1; a watched line's edge pends its source once the synchroniser shows it. Readings of the model: log entries 26, 27. -/
def Obligations.SlowPeripherals : Prop :=
  ∀ (s : State) (init : Fin 16) (w : Word),
    (∀ (i : Fin 2) (r : IicResult) (peek : Bool),
      let b := IIC.base i
      let x := s.iic[i]
      let other (t : State) : Prop := ∀ j : Fin 2, j ≠ i → t.iic[j] = s.iic[j]
      (Reaches s (b + IIC.XFER.DATA.off) → x.queue.length < 16 → Answers (.xfer init i w) s fun t =>
        t.iic[i] = { x with queue := x.queue ++ [w &&& 0xFFF] } ∧ t.getF b IIC.STATUS.XFER_LVL = x.queue.length + 1 ∧
        other t) ∧
      (Reaches s (b + IIC.XFER.DATA.off) → 16 ≤ x.queue.length → Answers (.xfer init i w) s (· = s)) ∧
      (x.queue = [] ∨ s.getB b IIC.CTRL.ENABLE = false ∨ s.getB b IIC.STATUS.HALTED = true →
        Answers (.iicOperation i r) s (· = s)) ∧
      (∀ v rest, x.queue = v :: rest → s.getB b IIC.CTRL.ENABLE = true → s.getB b IIC.STATUS.HALTED = false →
        Answers (.iicOperation i r) s fun t => t.iic[i].queue = rest ∧ t.iic[i].last = some v ∧ other t ∧
          (r.arbLost = true → t.getB b IIC.STATUS.HALTED = true ∧ t.getB b IIC.STATUS.ARB_LOST = true ∧
            t.iic[i].rx = x.rx) ∧
          (r.arbLost = false → v.getLsbD 9 = true → t.getB b IIC.STATUS.HALTED = false ∧ t.iic[i].rx = x.rx ++ [r.byte]) ∧
          (r.arbLost = false → v.getLsbD 9 = false → t.iic[i].rx = x.rx ∧ t.getB b IIC.STATUS.HALTED = r.nack ∧
            (r.nack = true → t.getB b IIC.STATUS.NACKED = true ∧
              t.getF b IIC.CNT.NACKS = min (s.getF b IIC.CNT.NACKS + 1) 0xFFFF))) ∧
      (Reaches s (b + IIC.CMD.W.off) → Answers (.iicResume init i) s fun t =>
        t.getB b IIC.STATUS.HALTED = false ∧ t.getB b IIC.STATUS.NACKED = false ∧ t.getB b IIC.STATUS.ARB_LOST = false ∧
        OnlyFields s t b [IIC.STATUS.HALTED, IIC.STATUS.NACKED, IIC.STATUS.ARB_LOST]) ∧
      (Reaches s (b + IIC.RXDATA.DATA.off) →
        (x.rx = [] → Answers (.iicRxdata init i peek) s fun t => t = { s with readData := s.readData.set init 0 }) ∧
        (∀ v rest, x.rx = v :: rest →
          (Answers (.iicRxdata init i true) s fun t => t = { s with readData := s.readData.set init (v.setWidth 32) }) ∧
          (Answers (.iicRxdata init i false) s fun t => t.iic[i] = { x with rx := rest } ∧ other t ∧
            t = { s with readData := s.readData.set init (v.setWidth 32), iic := t.iic })))) ∧
    (∀ (d : Fin 4) (xa xb z : BallLevel),
      let b := QEP.base d
      let q := s.qep[d]
      let passes (x : BallLevel) : Bool := decide (2 * ac ≤ x.since) &&
        min ((x.since - 2 * ac) / ac) ((s.now + (ac - 1)) / ac) == s.getF b QEP.CTRL.FILT
      let a := if passes xa then xa.level else q.a
      let b' := if passes xb then xb.level else q.b
      let p := b + QEP.POS.POS.off
      let mode := s.getF b QEP.CTRL.MODE
      let both := a ≠ q.a ∧ b' ≠ q.b
      let up : Int := if a = true ∧ q.a = false then 1 else 0
      let step : Int :=
        if mode = 0 then (if both then 0 else if a ≠ q.a then (if a ≠ q.b then 1 else -1)
          else if b' ≠ q.b then (if b' = a then 1 else -1) else 0)
        else if mode = 1 then (if b' then -up else up)
        else if mode = 2 then up - (if b' = true ∧ q.b = false then 1 else 0) else 0
      let delta := if s.getB b QEP.CTRL.INV_DIR then -step else step
      let zmode := s.getF b QEP.CTRL.ZMODE
      let acts := z.level = true ∧ passes z = true ∧ s.getB b QEP.CTRL.ENABLE = true ∧ (zmode = 1 ∨ (zmode = 2 ∧ s.getB b QEP.STATUS.Z_ARMED = true))
      let other (t : State) : Prop := ∀ j : Fin 4, j ≠ d → t.qep[j] = s.qep[j]
      (Answers (.qepCountEdge d xa xb) s fun t => t.qep[d].a = a ∧ t.qep[d].b = b' ∧ other t ∧
        (s.getB b QEP.CTRL.ENABLE = false → t.regs = s.regs) ∧
        (s.getB b QEP.CTRL.ENABLE = true →
          (q.zAt ≠ some s.now → t.rd p = BitVec.ofInt 32 ((s.rd p).toInt + delta) ∧
            (delta ≠ 0 → (t.getB b QEP.STATUS.DIR = true ↔ delta < 0))) ∧
          (q.zAt = some s.now → t.rd p = s.rd p) ∧
          (mode = 0 → both → t.getF b QEP.CNT.PHASE_ERR = min (s.getF b QEP.CNT.PHASE_ERR + 1) 0xFFFF ∧
            t.rd p = s.rd p))) ∧
      (¬ acts → Answers (.zEdge ⟨d, z⟩) s (· = s)) ∧
      (acts → Answers (.zEdge ⟨d, z⟩) s fun t => t.rd p = 0 ∧ t.crier.launched = s.crier.launched ++ [153 + d.val] ∧ other t ∧
        (∀ v, q.counted = some (s.now, v) → t.rd (b + QEP.ZPOS.POS.off) = v) ∧
        ((∀ v, q.counted ≠ some (s.now, v)) → t.rd (b + QEP.ZPOS.POS.off) = s.rd p) ∧
        (zmode = 2 → t.getB b QEP.STATUS.Z_ARMED = false)) ∧
      (Reaches s (b + QEP.CMD.W.off) → Answers (.armZ init d) s fun t =>
        t.getB b QEP.STATUS.Z_ARMED = true ∧ OnlyFields s t b [QEP.STATUS.Z_ARMED]) ∧
      (Reaches s p → Answers (.pos init d w) s fun t => t.rd p = w ∧ other t ∧ ∀ c, c ≠ p → t.rd c = s.rd c)) ∧
    (∀ hi : Bool,
      let f := if hi then GPIO.OUT_HI.OUT else GPIO.OUT_LO.OUT
      (Reaches s (GPIO.base + if hi then GPIO.OUT_SET_HI.MASK.off else GPIO.OUT_SET_LO.MASK.off) →
        Answers (.outSet init hi w) s fun t => t.rd (GPIO.base + f.off) = s.rd (GPIO.base + f.off) ||| w ∧
          OnlyRegs s t (· = GPIO.base + f.off)) ∧
      (Reaches s (GPIO.base + if hi then GPIO.OUT_CLR_HI.MASK.off else GPIO.OUT_CLR_LO.MASK.off) →
        Answers (.outClr init hi w) s fun t => t.rd (GPIO.base + f.off) = s.rd (GPIO.base + f.off) &&& ~~~w ∧
          OnlyRegs s t (· = GPIO.base + f.off))) ∧
    (∀ (line : Fin 64) (level : Bool) (since : Nat), since < 2 * ac → Answers (.gpioIrqEdge line ⟨level, since⟩) s (· = s)) ∧
    (∀ (line : Fin 64) (level : Bool) (since : Nat), 2 * ac ≤ since → Answers (.gpioIrqEdge line ⟨level, since⟩) s fun t =>
      t.gpioIn line = level ∧ (∀ k : Fin 64, k ≠ line → t.gpioIn k = s.gpioIn k) ∧
      ∀ k : Fin 8, s.getF GPIO.base (GPIO.IRQ_CFG.LINE.at (4 * k)) = line.val →
        let mode := s.getF GPIO.base (GPIO.IRQ_CFG.MODE.at (4 * k))
        let was := s.gpioIn line
        ((mode = 0 ∧ level = true ∧ was = false) ∨ (mode = 1 ∧ level = false ∧ was = true) ∨ (mode = 2 ∧ level ≠ was) →
          t.bit CRI.base (CRI.PEND.BITS.at (4 * ((157 + k.val) / 32))) ((157 + k.val) % 32) = true) ∧
        (mode = 3 ∨ mode = 4 →
          t.bit CRI.base (CRI.LINE.BITS.at (4 * ((157 + k.val) / 32))) ((157 + k.val) % 32) = (level != (mode == 4))))

/-! ### Completion -/

/-- Every command completes: whatever the state, each of the 343 forms of Instr answers a next state, and so does every
step, which takes one command from the queue. What that state holds, each form's own effect, the statements of its
family say. The forms: registerWrite, eccWriteBack, eccClear, accessAcknowledge, zero, period, evaUp, evaDn, evbUp,
evbDn, lockedCarrierStart, sgFire, sgClr, blkClr, blankingMaxlen, phaseMeasurement, phaseValidExpiry, aperture,
rawCode, correctedResult, scanComplete, swTrig, startEdge, stopEdge, stop, backToBackScan, calZero, calFull,
calibrationEnd, diag, diagScanStart, diagScanEnd, selfchk, selfCheckAttempt, selfCheckElement, selfCheckResult,
bgstarved, cnvCntClr, comparatorOutputChange, settlingEnd, tick, sampledDecision, cmpRelease, flagRel, cmpCntClr,
armingStateArrival, carCntClr, shadowWrite, commit, gcommit, legCntClr, compareEdge, deadTimeEnd, tripinEdge,
tripSourceActive, groupStateArrival, trpRelease, trpCntClr, swtrip, start, engEnd, engLd, engLdr, engLdm, engMov,
engLdi, engAdd, engSub, engMul, engMac, engSat, engClamp, engAbs, engPi, engClarke, engPark, engIpark, engSincos,
engNco, engSvm, engSt, engSti, engSto, engTrip, engMark, engBrf, illop, resultRelease, vote, deadlineMiss, fltRel,
tripRel, publish, engCntClr, ncoPhase, ncoFreq, freeze, xBcc, xBra, xJmp, xCall, xCallr, xRet, xReti, xTrap, xMov,
xMovi, xMovhi, xAdd, xAddi, xSub, xCmp, xAnd, xOr, xXor, xShl, xShr, xAsr, xShli, xShri, xAsri, xNot, xNeg, xAbs,
xSextb, xSexth, xZextb, xZexth, xClz, xMul, xQmul, xQmac, xDivs, xDivu, xDadd, xDaddC, xDsub, xDsubC, xDadj, xDcmp,
xD2b, xB2d, xLd, xSt, xLoop, xLoopImm, xLpop, xLock, xNop, xWait, xSyncp, xSpill, xFill, xMfc, xMtc, xBmov, xVmac,
xBcrc, lineFetch, storeDrain, impreciseStoreError, parityReplay, interruptEntry, maskOverrun, coreReset, pulseSource,
levelSource, pendSet, pendClr, enSet, enClr, claim, complete, doorbell, extCfg, extintEdge, fqHead, descriptorFetch,
progLines, eraseSector, eraseBank, blankCheck, verify, optWrite, optErase, lineProgramEnd, descriptorCompletion,
flcResume, suspend, resumeErase, flcCntClr, wpSet, flashRead, eraseSuspend, eraseResume, scrubRead, scrubRefresh,
powerOnReset, resetN, supplyMonitor, supWarn, resetSequence, atticIslandUp, islandReset, debugReset, dbgPowerOn,
hallResetCmd, coreResetCmd, islandResetCmd, snapshot, shutdown, defSave, pfailNFall, pfailNRise, snapshotEnd,
ledgerEntryWrite, ledgerClr, celCntClr, armKeyReady, armKeyArm, armWindowExpiry, condChange, disarm, armCntClr,
safeNLow, safeNHigh, watchdogTick, service, watchdogExpiry, portUp, ident, dlyReq, dlyRsp, linkDelayMeasurement,
portDown, linkFault, unwrap, beacon, masterElection, cycleStart, frame, captureInstant, applyInstant, cycleLost,
referenceSwitch, trip, record, mailboxTimeout, pdPublish, mbxSend, rxPop, knrCntClr, odRequest, odRead, odWrite,
blockRead, blockWrite, blockWriteEnd, odSave, restoreDefaults, usdoRequest, odsvc, featuresAccepted,
negotiationTimeout, odeCntClr, controlword, targetTorque, axisFault, recorderItem, trig, windowClose, driveWrite,
perstRelease, bringUp, bringUpRestart, checkpoint, ckpt, format, atcRead, readbackEnd, smartPoll, atcCntClr, markTag,
atticShutdown, extest, samplePreload, idcode, clamp, highz, dbgacc, bypass, sapRead, sapWrite, mcmdGo, memRead,
memWrite, monHalt, monResume, monStep, regRead, regWrite, monUnlock, unlock, lockoutEnd, traceClr, dbgReset, cCmdHalt,
cCmdResume, cCmdStep, monitorEntry, spiTxdata, spiFrame, spiRxdata, spiCntClr, uartTxdata, uartFrame, uartRxdata,
canFrame, txReq, canTxDone, canRxPop, recover, xfer, iicOperation, iicRxdata, iicResume, iicCntClr, qepCountEdge,
zEdge, armZ, qepCntClr, pos, outSet, outClr, gpioIrqEdge, coreWatchdogTick, coreWatchdogService, coreWatchdogExpiry,
hallResetStart, vddCelLoss, xinClockChange, pcieLinkDown, busOffRecoveryEnd. Readings of the model: log entries 1, 2. -/
def Obligations.EveryCommandCompletes : Prop :=
  (∀ (c : Instr) (s : State), ∃ t, exec c s = .next t) ∧
  ∀ s : State, ∃ t, step s = .next t ∧ t.pending = s.pending.tail
end

