-- ==== Sys2Proof/Laws/Bits.lean ====
section
/-! SUPPORT. Reading and replacing bits [hi:lo] of a number: a replaced field reads as what was put there, every bit
outside it is left alone. -/

namespace Sys2Proof.Laws

open Sys2Proof

theorem bitsOf_lt (n hi lo : Nat) : bitsOf n hi lo < 2 ^ (hi + 1 - lo) := Nat.mod_lt _ (Nat.two_pow_pos _)

theorem testBit_bitsOf (n hi lo i : Nat) : (bitsOf n hi lo).testBit i = (decide (i < hi + 1 - lo) && n.testBit (lo + i)) := by
  simp [bitsOf, Nat.testBit_mod_two_pow, Nat.testBit_shiftRight]

/-- A number as the bits above, in and below a field. -/
theorem field_split (n lo w : Nat) :
    n = 2 ^ lo * (2 ^ w * (n / 2 ^ (lo + w)) + (n >>> lo) % 2 ^ w) + n % 2 ^ lo := by
  have h1 : n >>> lo = n / 2 ^ lo := Nat.shiftRight_eq_div_pow n lo
  have h2 : n / 2 ^ (lo + w) = n / 2 ^ lo / 2 ^ w := by rw [Nat.pow_add, Nat.div_div_eq_div_mul]
  rw [h1, h2, Nat.div_add_mod, Nat.div_add_mod]

theorem setBitsOf_eq (n hi lo v : Nat) :
    setBitsOf n hi lo v =
      2 ^ lo * (2 ^ (hi + 1 - lo) * (n / 2 ^ (lo + (hi + 1 - lo))) + v % 2 ^ (hi + 1 - lo)) + n % 2 ^ lo := by
  have h := field_split n lo (hi + 1 - lo)
  unfold setBitsOf bitsOf
  generalize hi + 1 - lo = w at h ⊢
  rw [Nat.shiftLeft_eq, Nat.shiftLeft_eq]
  generalize hm : (n >>> lo) % 2 ^ w = m at h ⊢
  generalize v % 2 ^ w = u
  generalize hq : n / 2 ^ (lo + w) = q at h ⊢
  generalize hr : n % 2 ^ lo = r at h ⊢
  rw [h, Nat.mul_add, Nat.mul_add, Nat.mul_comm m, Nat.mul_comm u]
  omega

theorem testBit_setBitsOf (n hi lo v i : Nat) :
    (setBitsOf n hi lo v).testBit i =
      if lo ≤ i ∧ i < lo + (hi + 1 - lo) then v.testBit (i - lo) else n.testBit i := by
  rw [setBitsOf_eq]
  conv_rhs => rw [field_split n lo (hi + 1 - lo)]
  generalize hi + 1 - lo = w
  have hr : n % 2 ^ lo < 2 ^ lo := Nat.mod_lt _ (Nat.two_pow_pos _)
  have hv : v % 2 ^ w < 2 ^ w := Nat.mod_lt _ (Nat.two_pow_pos _)
  have hm : (n >>> lo) % 2 ^ w < 2 ^ w := Nat.mod_lt _ (Nat.two_pow_pos _)
  rw [Nat.testBit_two_pow_mul_add _ hr, Nat.testBit_two_pow_mul_add _ hr, Nat.testBit_two_pow_mul_add _ hv,
    Nat.testBit_two_pow_mul_add _ hm, Nat.testBit_mod_two_pow]
  by_cases h1 : i < lo
  · rw [if_pos h1, if_pos h1, if_neg (by omega)]
  · rw [if_neg h1, if_neg h1]
    by_cases h2 : i - lo < w
    · rw [if_pos h2, if_pos (by omega)]
      simp [h2]
    · rw [if_neg h2, if_neg h2, if_neg (by omega)]

theorem bitsOf_setBitsOf_same (n hi lo v : Nat) : bitsOf (setBitsOf n hi lo v) hi lo = v % 2 ^ (hi + 1 - lo) := by
  apply Nat.eq_of_testBit_eq
  intro i
  rw [testBit_bitsOf, testBit_setBitsOf, Nat.testBit_mod_two_pow]
  by_cases h : i < hi + 1 - lo
  · rw [if_pos (by omega)]
    simp [h]
  · simp [h]

theorem bitsOf_setBitsOf_other (n v : Nat) {hi lo hi' lo' : Nat} (h : hi' < lo ∨ hi < lo') :
    bitsOf (setBitsOf n hi lo v) hi' lo' = bitsOf n hi' lo' := by
  apply Nat.eq_of_testBit_eq
  intro i
  rw [testBit_bitsOf, testBit_bitsOf, testBit_setBitsOf]
  by_cases hi1 : i < hi' + 1 - lo'
  · rw [if_neg (by omega)]
  · simp [hi1]

theorem setBitsOf_lt {n hi lo v : Nat} (hn : n < 2 ^ 32) (h : hi < 32) : setBitsOf n hi lo v < 2 ^ 32 := by
  apply Nat.lt_pow_two_of_testBit
  intro i hi32
  rw [testBit_setBitsOf, if_neg (by omega)]
  exact Nat.testBit_lt_two_pow (Nat.lt_of_lt_of_le hn (Nat.pow_le_pow_right (by omega) hi32))

end Sys2Proof.Laws
end

