-- ==== Sys2Proof/Laws/Sparse.lean ====
section
/-! SUPPORT. The laws of sparse stores: a read after a write at the same key gives the value written, a write leaves
every other key alone, and every operation keeps the canonical form. -/

namespace Sys2Proof.Laws

open Sys2Proof.Machine

variable {α : Type} {dflt : Nat → α}

theorem sparse_get_nil (k : Nat) : Sparse.get dflt [] k = dflt k := rfl

/-- A key below every entry reads as an unlisted key. -/
theorem sparse_get_below [DecidableEq α] : ∀ (l : List (Nat × α)) (k : Nat), (∀ e ∈ l, k < e.1) → Sparse.get dflt l k = dflt k
  | [], _, _ => rfl
  | (k', v') :: t, k, h => by
    have h0 := h (k', v') (by simp)
    rw [Sparse.get, if_neg (by simp at h0; omega)]
    exact sparse_get_below t k fun e he => h e (by simp [he])

/-- What the canonical form says of a store with a first entry. -/
theorem sparse_wf_cons [DecidableEq α] {k : Nat} {v : α} {t : List (Nat × α)} :
    Sparse.wf dflt ((k, v) :: t) = true ↔ v ≠ dflt k ∧ (∀ e ∈ t, k < e.1) ∧ Sparse.wf dflt t = true := by
  induction t generalizing k v with
  | nil => simp [Sparse.wf]
  | cons e t ih =>
    obtain ⟨k', v'⟩ := e
    rw [Sparse.wf]
    simp only [Bool.and_eq_true, bne_iff_ne, ne_eq, decide_eq_true_eq, List.mem_cons, forall_eq_or_imp]
    constructor
    · rintro ⟨⟨h1, h2⟩, h3⟩
      exact ⟨h1, ⟨h2, fun e he => Nat.lt_trans h2 ((ih.1 h3).2.1 e he)⟩, h3⟩
    · rintro ⟨h1, ⟨h2, -⟩, h3⟩
      exact ⟨⟨h1, h2⟩, h3⟩

theorem sparse_erase_mem {k : Nat} : ∀ (l : List (Nat × α)) (e : Nat × α), e ∈ Sparse.erase l k → e ∈ l ∧ e.1 ≠ k
  | [], e, h => by simp [Sparse.erase] at h
  | (k', v') :: t, e, h => by
    rw [Sparse.erase] at h
    split at h
    · have := sparse_erase_mem t e h
      exact ⟨List.mem_cons_of_mem _ this.1, this.2⟩
    · rename_i hk
      rcases List.mem_cons.1 h with h | h
      · subst h; exact ⟨List.mem_cons_self, fun e => hk e.symm⟩
      · have := sparse_erase_mem t e h
        exact ⟨List.mem_cons_of_mem _ this.1, this.2⟩

theorem sparse_insert_mem {k : Nat} {v : α} : ∀ (l : List (Nat × α)) (e : Nat × α), e ∈ Sparse.insert l k v → e = (k, v) ∨ e ∈ l
  | [], e, h => by simp [Sparse.insert] at h; exact Or.inl h
  | (k', v') :: t, e, h => by
    rw [Sparse.insert] at h
    split at h
    · rcases List.mem_cons.1 h with h | h
      · exact Or.inl h
      · exact Or.inr h
    · rcases List.mem_cons.1 h with h | h
      · exact Or.inr (h ▸ List.mem_cons_self)
      · rcases sparse_insert_mem t e h with h | h
        · exact Or.inl h
        · exact Or.inr (List.mem_cons_of_mem _ h)

theorem sparse_wf_erase [DecidableEq α] (k : Nat) :
    ∀ l : List (Nat × α), Sparse.wf dflt l = true → Sparse.wf dflt (Sparse.erase l k) = true
  | [], h => h
  | (k', v') :: t, h => by
    have hc := sparse_wf_cons.1 h
    rw [Sparse.erase]
    split
    · exact sparse_wf_erase k t hc.2.2
    · exact sparse_wf_cons.2 ⟨hc.1, fun e he => hc.2.1 e (sparse_erase_mem t e he).1, sparse_wf_erase k t hc.2.2⟩

theorem sparse_wf_insert [DecidableEq α] {k : Nat} {v : α} (hv : v ≠ dflt k) :
    ∀ l : List (Nat × α), (∀ e ∈ l, e.1 ≠ k) → Sparse.wf dflt l = true → Sparse.wf dflt (Sparse.insert l k v) = true
  | [], _, _ => by simp [Sparse.insert, Sparse.wf, hv]
  | (k', v') :: t, hk, h => by
    have hc := sparse_wf_cons.1 h
    have h0 := hk (k', v') List.mem_cons_self
    rw [Sparse.insert]
    split
    · rename_i hlt
      refine sparse_wf_cons.2 ⟨hv, ?_, h⟩
      intro e he
      rcases List.mem_cons.1 he with he | he
      · rw [he]; exact hlt
      · exact Nat.lt_trans hlt (hc.2.1 e he)
    · rename_i hge
      refine sparse_wf_cons.2 ⟨hc.1, ?_, sparse_wf_insert hv t (fun e he => hk e (List.mem_cons_of_mem _ he)) hc.2.2⟩
      intro e he
      rcases sparse_insert_mem t e he with he | he
      · rw [he]; simp at h0 hge ⊢; omega
      · exact hc.2.1 e he

/-- A write keeps the canonical form. -/
theorem sparse_wf_set [DecidableEq α] (k : Nat) (v : α) (l : List (Nat × α)) (h : Sparse.wf dflt l = true) :
    Sparse.wf dflt (Sparse.set dflt l k v) = true := by
  rw [Sparse.set]
  split
  · exact sparse_wf_erase k l h
  · rename_i hv
    exact sparse_wf_insert hv _ (fun e he => (sparse_erase_mem l e he).2) (sparse_wf_erase k l h)

/-- Dropping entries keeps the canonical form. -/
theorem sparse_wf_filter [DecidableEq α] (p : Nat × α → Bool) :
    ∀ l : List (Nat × α), Sparse.wf dflt l = true → Sparse.wf dflt (l.filter p) = true
  | [], h => h
  | (k, v) :: t, h => by
    have hc := sparse_wf_cons.1 h
    rw [List.filter_cons]
    split
    · exact sparse_wf_cons.2 ⟨hc.1, fun e he => hc.2.1 e ((List.mem_filter.1 he).1), sparse_wf_filter p t hc.2.2⟩
    · exact sparse_wf_filter p t hc.2.2

theorem sparse_get_absent {k : Nat} : ∀ l : List (Nat × α), (∀ e ∈ l, e.1 ≠ k) → Sparse.get dflt l k = dflt k
  | [], _ => rfl
  | (k', v') :: t, h => by
    rw [Sparse.get, if_neg fun e => h (k', v') List.mem_cons_self e.symm]
    exact sparse_get_absent t fun e he => h e (List.mem_cons_of_mem _ he)

theorem sparse_get_insert_same {k : Nat} {v : α} : ∀ l : List (Nat × α), (∀ e ∈ l, e.1 ≠ k) → Sparse.get dflt (Sparse.insert l k v) k = v
  | [], _ => by simp [Sparse.insert, Sparse.get]
  | (k', v') :: t, h => by
    rw [Sparse.insert]
    split
    · simp [Sparse.get]
    · rw [Sparse.get, if_neg fun e => h (k', v') List.mem_cons_self e.symm]
      exact sparse_get_insert_same t fun e he => h e (List.mem_cons_of_mem _ he)

theorem sparse_get_insert_other {k k' : Nat} (hne : k' ≠ k) (v : α) :
    ∀ l : List (Nat × α), Sparse.get dflt (Sparse.insert l k v) k' = Sparse.get dflt l k'
  | [] => by simp [Sparse.insert, Sparse.get, hne]
  | (k0, v0) :: t => by
    rw [Sparse.insert]
    split
    · simp [Sparse.get, hne]
    · simp only [Sparse.get]
      rw [sparse_get_insert_other hne v t]

theorem sparse_get_erase_other {k k' : Nat} (hne : k' ≠ k) :
    ∀ l : List (Nat × α), Sparse.get dflt (Sparse.erase l k) k' = Sparse.get dflt l k'
  | [] => rfl
  | (k0, v0) :: t => by
    rw [Sparse.erase]
    split
    · rename_i hk
      rw [Sparse.get, if_neg (by omega)]
      exact sparse_get_erase_other hne t
    · simp only [Sparse.get]
      rw [sparse_get_erase_other hne t]

/-- A read after a write at the same key. -/
theorem sparse_get_set_same [DecidableEq α] (k : Nat) (v : α) (l : List (Nat × α)) :
    Sparse.get dflt (Sparse.set dflt l k v) k = v := by
  rw [Sparse.set]
  split
  · rename_i h
    rw [h]
    exact sparse_get_absent _ fun e he => (sparse_erase_mem l e he).2
  · exact sparse_get_insert_same _ fun e he => (sparse_erase_mem l e he).2

/-- A write leaves every other key alone. -/
theorem sparse_get_set_other [DecidableEq α] {k k' : Nat} (hne : k' ≠ k) (v : α) (l : List (Nat × α)) :
    Sparse.get dflt (Sparse.set dflt l k v) k' = Sparse.get dflt l k' := by
  rw [Sparse.set]
  split
  · exact sparse_get_erase_other hne l
  · rw [sparse_get_insert_other hne, sparse_get_erase_other hne]

end Sys2Proof.Laws
end

