-- ==== Sys2Proof/Laws/State.lean ====
section
/-! SUPPORT. The fields of a state after one of the named updates: one lemma for each field and update. -/

namespace Sys2Proof.Laws

open Sys2Proof Sys2Proof.Machine

variable (s : State)

@[simp] theorem wr_pending (a : Nat) (w : Word) : (s.wr a w).pending = s.pending := rfl
@[simp] theorem wr_now (a : Nat) (w : Word) : (s.wr a w).now = s.now := rfl
@[simp] theorem wr_free (a : Nat) (w : Word) : (s.wr a w).free = s.free := rfl
@[simp] theorem wr_warranted (a : Nat) (w : Word) : (s.wr a w).warranted = s.warranted := rfl
@[simp] theorem wr_mem (a : Nat) (w : Word) : (s.wr a w).mem = s.mem := rfl
@[simp] theorem wr_shadows (a : Nat) (w : Word) : (s.wr a w).shadows = s.shadows := rfl
@[simp] theorem wr_happened (a : Nat) (w : Word) : (s.wr a w).happened = s.happened := rfl
@[simp] theorem wr_readData (a : Nat) (w : Word) : (s.wr a w).readData = s.readData := rfl
@[simp] theorem wr_writeBack (a : Nat) (w : Word) : (s.wr a w).writeBack = s.writeBack := rfl
@[simp] theorem wr_options (a : Nat) (w : Word) : (s.wr a w).options = s.options := rfl
@[simp] theorem wr_cellar (a : Nat) (w : Word) : (s.wr a w).cellar = s.cellar := rfl
@[simp] theorem wr_crier (a : Nat) (w : Word) : (s.wr a w).crier = s.crier := rfl
@[simp] theorem wr_clock (a : Nat) (w : Word) : (s.wr a w).clock = s.clock := rfl
@[simp] theorem wr_aisle (a : Nat) (w : Word) : (s.wr a w).aisle = s.aisle := rfl
@[simp] theorem wr_car (a : Nat) (w : Word) : (s.wr a w).car = s.car := rfl
@[simp] theorem wr_leg (a : Nat) (w : Word) : (s.wr a w).leg = s.leg := rfl
@[simp] theorem wr_cmp (a : Nat) (w : Word) : (s.wr a w).cmp = s.cmp := rfl
@[simp] theorem wr_cnv (a : Nat) (w : Word) : (s.wr a w).cnv = s.cnv := rfl
@[simp] theorem wr_eng (a : Nat) (w : Word) : (s.wr a w).eng = s.eng := rfl
@[simp] theorem wr_qep (a : Nat) (w : Word) : (s.wr a w).qep = s.qep := rfl
@[simp] theorem wr_trip (a : Nat) (w : Word) : (s.wr a w).trip = s.trip := rfl
@[simp] theorem wr_ring (a : Nat) (w : Word) : (s.wr a w).ring = s.ring := rfl
@[simp] theorem wr_ode (a : Nat) (w : Word) : (s.wr a w).ode = s.ode := rfl
@[simp] theorem wr_attic (a : Nat) (w : Word) : (s.wr a w).attic = s.attic := rfl
@[simp] theorem wr_core (a : Nat) (w : Word) : (s.wr a w).core = s.core := rfl
@[simp] theorem wr_replay (a : Nat) (w : Word) : (s.wr a w).replay = s.replay := rfl
@[simp] theorem wr_dbg (a : Nat) (w : Word) : (s.wr a w).dbg = s.dbg := rfl
@[simp] theorem wr_flash (a : Nat) (w : Word) : (s.wr a w).flash = s.flash := rfl
@[simp] theorem wr_spi (a : Nat) (w : Word) : (s.wr a w).spi = s.spi := rfl
@[simp] theorem wr_uart (a : Nat) (w : Word) : (s.wr a w).uart = s.uart := rfl
@[simp] theorem wr_can (a : Nat) (w : Word) : (s.wr a w).can = s.can := rfl
@[simp] theorem wr_iic (a : Nat) (w : Word) : (s.wr a w).iic = s.iic := rfl

@[simp] theorem clearRegs_pending (lo hi : Nat) : (s.clearRegs lo hi).pending = s.pending := rfl
@[simp] theorem clearRegs_now (lo hi : Nat) : (s.clearRegs lo hi).now = s.now := rfl
@[simp] theorem clearRegs_free (lo hi : Nat) : (s.clearRegs lo hi).free = s.free := rfl
@[simp] theorem clearRegs_warranted (lo hi : Nat) : (s.clearRegs lo hi).warranted = s.warranted := rfl
@[simp] theorem clearRegs_mem (lo hi : Nat) : (s.clearRegs lo hi).mem = s.mem := rfl
@[simp] theorem clearRegs_shadows (lo hi : Nat) : (s.clearRegs lo hi).shadows = s.shadows := rfl
@[simp] theorem clearRegs_happened (lo hi : Nat) : (s.clearRegs lo hi).happened = s.happened := rfl
@[simp] theorem clearRegs_readData (lo hi : Nat) : (s.clearRegs lo hi).readData = s.readData := rfl
@[simp] theorem clearRegs_writeBack (lo hi : Nat) : (s.clearRegs lo hi).writeBack = s.writeBack := rfl
@[simp] theorem clearRegs_options (lo hi : Nat) : (s.clearRegs lo hi).options = s.options := rfl
@[simp] theorem clearRegs_cellar (lo hi : Nat) : (s.clearRegs lo hi).cellar = s.cellar := rfl
@[simp] theorem clearRegs_crier (lo hi : Nat) : (s.clearRegs lo hi).crier = s.crier := rfl
@[simp] theorem clearRegs_clock (lo hi : Nat) : (s.clearRegs lo hi).clock = s.clock := rfl
@[simp] theorem clearRegs_aisle (lo hi : Nat) : (s.clearRegs lo hi).aisle = s.aisle := rfl
@[simp] theorem clearRegs_car (lo hi : Nat) : (s.clearRegs lo hi).car = s.car := rfl
@[simp] theorem clearRegs_leg (lo hi : Nat) : (s.clearRegs lo hi).leg = s.leg := rfl
@[simp] theorem clearRegs_cmp (lo hi : Nat) : (s.clearRegs lo hi).cmp = s.cmp := rfl
@[simp] theorem clearRegs_cnv (lo hi : Nat) : (s.clearRegs lo hi).cnv = s.cnv := rfl
@[simp] theorem clearRegs_eng (lo hi : Nat) : (s.clearRegs lo hi).eng = s.eng := rfl
@[simp] theorem clearRegs_qep (lo hi : Nat) : (s.clearRegs lo hi).qep = s.qep := rfl
@[simp] theorem clearRegs_trip (lo hi : Nat) : (s.clearRegs lo hi).trip = s.trip := rfl
@[simp] theorem clearRegs_ring (lo hi : Nat) : (s.clearRegs lo hi).ring = s.ring := rfl
@[simp] theorem clearRegs_ode (lo hi : Nat) : (s.clearRegs lo hi).ode = s.ode := rfl
@[simp] theorem clearRegs_attic (lo hi : Nat) : (s.clearRegs lo hi).attic = s.attic := rfl
@[simp] theorem clearRegs_core (lo hi : Nat) : (s.clearRegs lo hi).core = s.core := rfl
@[simp] theorem clearRegs_replay (lo hi : Nat) : (s.clearRegs lo hi).replay = s.replay := rfl
@[simp] theorem clearRegs_dbg (lo hi : Nat) : (s.clearRegs lo hi).dbg = s.dbg := rfl
@[simp] theorem clearRegs_flash (lo hi : Nat) : (s.clearRegs lo hi).flash = s.flash := rfl
@[simp] theorem clearRegs_spi (lo hi : Nat) : (s.clearRegs lo hi).spi = s.spi := rfl
@[simp] theorem clearRegs_uart (lo hi : Nat) : (s.clearRegs lo hi).uart = s.uart := rfl
@[simp] theorem clearRegs_can (lo hi : Nat) : (s.clearRegs lo hi).can = s.can := rfl
@[simp] theorem clearRegs_iic (lo hi : Nat) : (s.clearRegs lo hi).iic = s.iic := rfl

@[simp] theorem setF_pending (b : Nat) (f : Fld) (v : Nat) : (s.setF b f v).pending = s.pending := rfl
@[simp] theorem setF_now (b : Nat) (f : Fld) (v : Nat) : (s.setF b f v).now = s.now := rfl
@[simp] theorem setF_free (b : Nat) (f : Fld) (v : Nat) : (s.setF b f v).free = s.free := rfl
@[simp] theorem setF_warranted (b : Nat) (f : Fld) (v : Nat) : (s.setF b f v).warranted = s.warranted := rfl
@[simp] theorem setF_mem (b : Nat) (f : Fld) (v : Nat) : (s.setF b f v).mem = s.mem := rfl
@[simp] theorem setF_shadows (b : Nat) (f : Fld) (v : Nat) : (s.setF b f v).shadows = s.shadows := rfl
@[simp] theorem setF_happened (b : Nat) (f : Fld) (v : Nat) : (s.setF b f v).happened = s.happened := rfl
@[simp] theorem setF_readData (b : Nat) (f : Fld) (v : Nat) : (s.setF b f v).readData = s.readData := rfl
@[simp] theorem setF_writeBack (b : Nat) (f : Fld) (v : Nat) : (s.setF b f v).writeBack = s.writeBack := rfl
@[simp] theorem setF_options (b : Nat) (f : Fld) (v : Nat) : (s.setF b f v).options = s.options := rfl
@[simp] theorem setF_cellar (b : Nat) (f : Fld) (v : Nat) : (s.setF b f v).cellar = s.cellar := rfl
@[simp] theorem setF_crier (b : Nat) (f : Fld) (v : Nat) : (s.setF b f v).crier = s.crier := rfl
@[simp] theorem setF_clock (b : Nat) (f : Fld) (v : Nat) : (s.setF b f v).clock = s.clock := rfl
@[simp] theorem setF_aisle (b : Nat) (f : Fld) (v : Nat) : (s.setF b f v).aisle = s.aisle := rfl
@[simp] theorem setF_car (b : Nat) (f : Fld) (v : Nat) : (s.setF b f v).car = s.car := rfl
@[simp] theorem setF_leg (b : Nat) (f : Fld) (v : Nat) : (s.setF b f v).leg = s.leg := rfl
@[simp] theorem setF_cmp (b : Nat) (f : Fld) (v : Nat) : (s.setF b f v).cmp = s.cmp := rfl
@[simp] theorem setF_cnv (b : Nat) (f : Fld) (v : Nat) : (s.setF b f v).cnv = s.cnv := rfl
@[simp] theorem setF_eng (b : Nat) (f : Fld) (v : Nat) : (s.setF b f v).eng = s.eng := rfl
@[simp] theorem setF_qep (b : Nat) (f : Fld) (v : Nat) : (s.setF b f v).qep = s.qep := rfl
@[simp] theorem setF_trip (b : Nat) (f : Fld) (v : Nat) : (s.setF b f v).trip = s.trip := rfl
@[simp] theorem setF_ring (b : Nat) (f : Fld) (v : Nat) : (s.setF b f v).ring = s.ring := rfl
@[simp] theorem setF_ode (b : Nat) (f : Fld) (v : Nat) : (s.setF b f v).ode = s.ode := rfl
@[simp] theorem setF_attic (b : Nat) (f : Fld) (v : Nat) : (s.setF b f v).attic = s.attic := rfl
@[simp] theorem setF_core (b : Nat) (f : Fld) (v : Nat) : (s.setF b f v).core = s.core := rfl
@[simp] theorem setF_replay (b : Nat) (f : Fld) (v : Nat) : (s.setF b f v).replay = s.replay := rfl
@[simp] theorem setF_dbg (b : Nat) (f : Fld) (v : Nat) : (s.setF b f v).dbg = s.dbg := rfl
@[simp] theorem setF_flash (b : Nat) (f : Fld) (v : Nat) : (s.setF b f v).flash = s.flash := rfl
@[simp] theorem setF_spi (b : Nat) (f : Fld) (v : Nat) : (s.setF b f v).spi = s.spi := rfl
@[simp] theorem setF_uart (b : Nat) (f : Fld) (v : Nat) : (s.setF b f v).uart = s.uart := rfl
@[simp] theorem setF_can (b : Nat) (f : Fld) (v : Nat) : (s.setF b f v).can = s.can := rfl
@[simp] theorem setF_iic (b : Nat) (f : Fld) (v : Nat) : (s.setF b f v).iic = s.iic := rfl

@[simp] theorem setB_pending (b : Nat) (f : Fld) (v : Bool) : (s.setB b f v).pending = s.pending := rfl
@[simp] theorem setB_now (b : Nat) (f : Fld) (v : Bool) : (s.setB b f v).now = s.now := rfl
@[simp] theorem setB_free (b : Nat) (f : Fld) (v : Bool) : (s.setB b f v).free = s.free := rfl
@[simp] theorem setB_warranted (b : Nat) (f : Fld) (v : Bool) : (s.setB b f v).warranted = s.warranted := rfl
@[simp] theorem setB_mem (b : Nat) (f : Fld) (v : Bool) : (s.setB b f v).mem = s.mem := rfl
@[simp] theorem setB_shadows (b : Nat) (f : Fld) (v : Bool) : (s.setB b f v).shadows = s.shadows := rfl
@[simp] theorem setB_happened (b : Nat) (f : Fld) (v : Bool) : (s.setB b f v).happened = s.happened := rfl
@[simp] theorem setB_readData (b : Nat) (f : Fld) (v : Bool) : (s.setB b f v).readData = s.readData := rfl
@[simp] theorem setB_writeBack (b : Nat) (f : Fld) (v : Bool) : (s.setB b f v).writeBack = s.writeBack := rfl
@[simp] theorem setB_options (b : Nat) (f : Fld) (v : Bool) : (s.setB b f v).options = s.options := rfl
@[simp] theorem setB_cellar (b : Nat) (f : Fld) (v : Bool) : (s.setB b f v).cellar = s.cellar := rfl
@[simp] theorem setB_crier (b : Nat) (f : Fld) (v : Bool) : (s.setB b f v).crier = s.crier := rfl
@[simp] theorem setB_clock (b : Nat) (f : Fld) (v : Bool) : (s.setB b f v).clock = s.clock := rfl
@[simp] theorem setB_aisle (b : Nat) (f : Fld) (v : Bool) : (s.setB b f v).aisle = s.aisle := rfl
@[simp] theorem setB_car (b : Nat) (f : Fld) (v : Bool) : (s.setB b f v).car = s.car := rfl
@[simp] theorem setB_leg (b : Nat) (f : Fld) (v : Bool) : (s.setB b f v).leg = s.leg := rfl
@[simp] theorem setB_cmp (b : Nat) (f : Fld) (v : Bool) : (s.setB b f v).cmp = s.cmp := rfl
@[simp] theorem setB_cnv (b : Nat) (f : Fld) (v : Bool) : (s.setB b f v).cnv = s.cnv := rfl
@[simp] theorem setB_eng (b : Nat) (f : Fld) (v : Bool) : (s.setB b f v).eng = s.eng := rfl
@[simp] theorem setB_qep (b : Nat) (f : Fld) (v : Bool) : (s.setB b f v).qep = s.qep := rfl
@[simp] theorem setB_trip (b : Nat) (f : Fld) (v : Bool) : (s.setB b f v).trip = s.trip := rfl
@[simp] theorem setB_ring (b : Nat) (f : Fld) (v : Bool) : (s.setB b f v).ring = s.ring := rfl
@[simp] theorem setB_ode (b : Nat) (f : Fld) (v : Bool) : (s.setB b f v).ode = s.ode := rfl
@[simp] theorem setB_attic (b : Nat) (f : Fld) (v : Bool) : (s.setB b f v).attic = s.attic := rfl
@[simp] theorem setB_core (b : Nat) (f : Fld) (v : Bool) : (s.setB b f v).core = s.core := rfl
@[simp] theorem setB_replay (b : Nat) (f : Fld) (v : Bool) : (s.setB b f v).replay = s.replay := rfl
@[simp] theorem setB_dbg (b : Nat) (f : Fld) (v : Bool) : (s.setB b f v).dbg = s.dbg := rfl
@[simp] theorem setB_flash (b : Nat) (f : Fld) (v : Bool) : (s.setB b f v).flash = s.flash := rfl
@[simp] theorem setB_spi (b : Nat) (f : Fld) (v : Bool) : (s.setB b f v).spi = s.spi := rfl
@[simp] theorem setB_uart (b : Nat) (f : Fld) (v : Bool) : (s.setB b f v).uart = s.uart := rfl
@[simp] theorem setB_can (b : Nat) (f : Fld) (v : Bool) : (s.setB b f v).can = s.can := rfl
@[simp] theorem setB_iic (b : Nat) (f : Fld) (v : Bool) : (s.setB b f v).iic = s.iic := rfl

@[simp] theorem setBit_pending (b : Nat) (f : Fld) (i : Nat) (v : Bool) : (s.setBit b f i v).pending = s.pending := rfl
@[simp] theorem setBit_now (b : Nat) (f : Fld) (i : Nat) (v : Bool) : (s.setBit b f i v).now = s.now := rfl
@[simp] theorem setBit_free (b : Nat) (f : Fld) (i : Nat) (v : Bool) : (s.setBit b f i v).free = s.free := rfl
@[simp] theorem setBit_warranted (b : Nat) (f : Fld) (i : Nat) (v : Bool) : (s.setBit b f i v).warranted = s.warranted := rfl
@[simp] theorem setBit_mem (b : Nat) (f : Fld) (i : Nat) (v : Bool) : (s.setBit b f i v).mem = s.mem := rfl
@[simp] theorem setBit_shadows (b : Nat) (f : Fld) (i : Nat) (v : Bool) : (s.setBit b f i v).shadows = s.shadows := rfl
@[simp] theorem setBit_happened (b : Nat) (f : Fld) (i : Nat) (v : Bool) : (s.setBit b f i v).happened = s.happened := rfl
@[simp] theorem setBit_readData (b : Nat) (f : Fld) (i : Nat) (v : Bool) : (s.setBit b f i v).readData = s.readData := rfl
@[simp] theorem setBit_writeBack (b : Nat) (f : Fld) (i : Nat) (v : Bool) : (s.setBit b f i v).writeBack = s.writeBack := rfl
@[simp] theorem setBit_options (b : Nat) (f : Fld) (i : Nat) (v : Bool) : (s.setBit b f i v).options = s.options := rfl
@[simp] theorem setBit_cellar (b : Nat) (f : Fld) (i : Nat) (v : Bool) : (s.setBit b f i v).cellar = s.cellar := rfl
@[simp] theorem setBit_crier (b : Nat) (f : Fld) (i : Nat) (v : Bool) : (s.setBit b f i v).crier = s.crier := rfl
@[simp] theorem setBit_clock (b : Nat) (f : Fld) (i : Nat) (v : Bool) : (s.setBit b f i v).clock = s.clock := rfl
@[simp] theorem setBit_aisle (b : Nat) (f : Fld) (i : Nat) (v : Bool) : (s.setBit b f i v).aisle = s.aisle := rfl
@[simp] theorem setBit_car (b : Nat) (f : Fld) (i : Nat) (v : Bool) : (s.setBit b f i v).car = s.car := rfl
@[simp] theorem setBit_leg (b : Nat) (f : Fld) (i : Nat) (v : Bool) : (s.setBit b f i v).leg = s.leg := rfl
@[simp] theorem setBit_cmp (b : Nat) (f : Fld) (i : Nat) (v : Bool) : (s.setBit b f i v).cmp = s.cmp := rfl
@[simp] theorem setBit_cnv (b : Nat) (f : Fld) (i : Nat) (v : Bool) : (s.setBit b f i v).cnv = s.cnv := rfl
@[simp] theorem setBit_eng (b : Nat) (f : Fld) (i : Nat) (v : Bool) : (s.setBit b f i v).eng = s.eng := rfl
@[simp] theorem setBit_qep (b : Nat) (f : Fld) (i : Nat) (v : Bool) : (s.setBit b f i v).qep = s.qep := rfl
@[simp] theorem setBit_trip (b : Nat) (f : Fld) (i : Nat) (v : Bool) : (s.setBit b f i v).trip = s.trip := rfl
@[simp] theorem setBit_ring (b : Nat) (f : Fld) (i : Nat) (v : Bool) : (s.setBit b f i v).ring = s.ring := rfl
@[simp] theorem setBit_ode (b : Nat) (f : Fld) (i : Nat) (v : Bool) : (s.setBit b f i v).ode = s.ode := rfl
@[simp] theorem setBit_attic (b : Nat) (f : Fld) (i : Nat) (v : Bool) : (s.setBit b f i v).attic = s.attic := rfl
@[simp] theorem setBit_core (b : Nat) (f : Fld) (i : Nat) (v : Bool) : (s.setBit b f i v).core = s.core := rfl
@[simp] theorem setBit_replay (b : Nat) (f : Fld) (i : Nat) (v : Bool) : (s.setBit b f i v).replay = s.replay := rfl
@[simp] theorem setBit_dbg (b : Nat) (f : Fld) (i : Nat) (v : Bool) : (s.setBit b f i v).dbg = s.dbg := rfl
@[simp] theorem setBit_flash (b : Nat) (f : Fld) (i : Nat) (v : Bool) : (s.setBit b f i v).flash = s.flash := rfl
@[simp] theorem setBit_spi (b : Nat) (f : Fld) (i : Nat) (v : Bool) : (s.setBit b f i v).spi = s.spi := rfl
@[simp] theorem setBit_uart (b : Nat) (f : Fld) (i : Nat) (v : Bool) : (s.setBit b f i v).uart = s.uart := rfl
@[simp] theorem setBit_can (b : Nat) (f : Fld) (i : Nat) (v : Bool) : (s.setBit b f i v).can = s.can := rfl
@[simp] theorem setBit_iic (b : Nat) (f : Fld) (i : Nat) (v : Bool) : (s.setBit b f i v).iic = s.iic := rfl

@[simp] theorem countSat_pending (b : Nat) (f : Fld) (n : Nat) : (s.countSat b f n).pending = s.pending := rfl
@[simp] theorem countSat_now (b : Nat) (f : Fld) (n : Nat) : (s.countSat b f n).now = s.now := rfl
@[simp] theorem countSat_free (b : Nat) (f : Fld) (n : Nat) : (s.countSat b f n).free = s.free := rfl
@[simp] theorem countSat_warranted (b : Nat) (f : Fld) (n : Nat) : (s.countSat b f n).warranted = s.warranted := rfl
@[simp] theorem countSat_mem (b : Nat) (f : Fld) (n : Nat) : (s.countSat b f n).mem = s.mem := rfl
@[simp] theorem countSat_shadows (b : Nat) (f : Fld) (n : Nat) : (s.countSat b f n).shadows = s.shadows := rfl
@[simp] theorem countSat_readData (b : Nat) (f : Fld) (n : Nat) : (s.countSat b f n).readData = s.readData := rfl
@[simp] theorem countSat_writeBack (b : Nat) (f : Fld) (n : Nat) : (s.countSat b f n).writeBack = s.writeBack := rfl
@[simp] theorem countSat_options (b : Nat) (f : Fld) (n : Nat) : (s.countSat b f n).options = s.options := rfl
@[simp] theorem countSat_cellar (b : Nat) (f : Fld) (n : Nat) : (s.countSat b f n).cellar = s.cellar := rfl
@[simp] theorem countSat_crier (b : Nat) (f : Fld) (n : Nat) : (s.countSat b f n).crier = s.crier := rfl
@[simp] theorem countSat_clock (b : Nat) (f : Fld) (n : Nat) : (s.countSat b f n).clock = s.clock := rfl
@[simp] theorem countSat_aisle (b : Nat) (f : Fld) (n : Nat) : (s.countSat b f n).aisle = s.aisle := rfl
@[simp] theorem countSat_car (b : Nat) (f : Fld) (n : Nat) : (s.countSat b f n).car = s.car := rfl
@[simp] theorem countSat_leg (b : Nat) (f : Fld) (n : Nat) : (s.countSat b f n).leg = s.leg := rfl
@[simp] theorem countSat_cmp (b : Nat) (f : Fld) (n : Nat) : (s.countSat b f n).cmp = s.cmp := rfl
@[simp] theorem countSat_cnv (b : Nat) (f : Fld) (n : Nat) : (s.countSat b f n).cnv = s.cnv := rfl
@[simp] theorem countSat_eng (b : Nat) (f : Fld) (n : Nat) : (s.countSat b f n).eng = s.eng := rfl
@[simp] theorem countSat_qep (b : Nat) (f : Fld) (n : Nat) : (s.countSat b f n).qep = s.qep := rfl
@[simp] theorem countSat_trip (b : Nat) (f : Fld) (n : Nat) : (s.countSat b f n).trip = s.trip := rfl
@[simp] theorem countSat_ring (b : Nat) (f : Fld) (n : Nat) : (s.countSat b f n).ring = s.ring := rfl
@[simp] theorem countSat_ode (b : Nat) (f : Fld) (n : Nat) : (s.countSat b f n).ode = s.ode := rfl
@[simp] theorem countSat_attic (b : Nat) (f : Fld) (n : Nat) : (s.countSat b f n).attic = s.attic := rfl
@[simp] theorem countSat_core (b : Nat) (f : Fld) (n : Nat) : (s.countSat b f n).core = s.core := rfl
@[simp] theorem countSat_replay (b : Nat) (f : Fld) (n : Nat) : (s.countSat b f n).replay = s.replay := rfl
@[simp] theorem countSat_dbg (b : Nat) (f : Fld) (n : Nat) : (s.countSat b f n).dbg = s.dbg := rfl
@[simp] theorem countSat_flash (b : Nat) (f : Fld) (n : Nat) : (s.countSat b f n).flash = s.flash := rfl
@[simp] theorem countSat_spi (b : Nat) (f : Fld) (n : Nat) : (s.countSat b f n).spi = s.spi := rfl
@[simp] theorem countSat_uart (b : Nat) (f : Fld) (n : Nat) : (s.countSat b f n).uart = s.uart := rfl
@[simp] theorem countSat_can (b : Nat) (f : Fld) (n : Nat) : (s.countSat b f n).can = s.can := rfl
@[simp] theorem countSat_iic (b : Nat) (f : Fld) (n : Nat) : (s.countSat b f n).iic = s.iic := rfl

@[simp] theorem countWrap_pending (b : Nat) (f : Fld) (n : Nat) : (s.countWrap b f n).pending = s.pending := rfl
@[simp] theorem countWrap_now (b : Nat) (f : Fld) (n : Nat) : (s.countWrap b f n).now = s.now := rfl
@[simp] theorem countWrap_free (b : Nat) (f : Fld) (n : Nat) : (s.countWrap b f n).free = s.free := rfl
@[simp] theorem countWrap_warranted (b : Nat) (f : Fld) (n : Nat) : (s.countWrap b f n).warranted = s.warranted := rfl
@[simp] theorem countWrap_mem (b : Nat) (f : Fld) (n : Nat) : (s.countWrap b f n).mem = s.mem := rfl
@[simp] theorem countWrap_shadows (b : Nat) (f : Fld) (n : Nat) : (s.countWrap b f n).shadows = s.shadows := rfl
@[simp] theorem countWrap_readData (b : Nat) (f : Fld) (n : Nat) : (s.countWrap b f n).readData = s.readData := rfl
@[simp] theorem countWrap_writeBack (b : Nat) (f : Fld) (n : Nat) : (s.countWrap b f n).writeBack = s.writeBack := rfl
@[simp] theorem countWrap_options (b : Nat) (f : Fld) (n : Nat) : (s.countWrap b f n).options = s.options := rfl
@[simp] theorem countWrap_cellar (b : Nat) (f : Fld) (n : Nat) : (s.countWrap b f n).cellar = s.cellar := rfl
@[simp] theorem countWrap_crier (b : Nat) (f : Fld) (n : Nat) : (s.countWrap b f n).crier = s.crier := rfl
@[simp] theorem countWrap_clock (b : Nat) (f : Fld) (n : Nat) : (s.countWrap b f n).clock = s.clock := rfl
@[simp] theorem countWrap_aisle (b : Nat) (f : Fld) (n : Nat) : (s.countWrap b f n).aisle = s.aisle := rfl
@[simp] theorem countWrap_car (b : Nat) (f : Fld) (n : Nat) : (s.countWrap b f n).car = s.car := rfl
@[simp] theorem countWrap_leg (b : Nat) (f : Fld) (n : Nat) : (s.countWrap b f n).leg = s.leg := rfl
@[simp] theorem countWrap_cmp (b : Nat) (f : Fld) (n : Nat) : (s.countWrap b f n).cmp = s.cmp := rfl
@[simp] theorem countWrap_cnv (b : Nat) (f : Fld) (n : Nat) : (s.countWrap b f n).cnv = s.cnv := rfl
@[simp] theorem countWrap_eng (b : Nat) (f : Fld) (n : Nat) : (s.countWrap b f n).eng = s.eng := rfl
@[simp] theorem countWrap_qep (b : Nat) (f : Fld) (n : Nat) : (s.countWrap b f n).qep = s.qep := rfl
@[simp] theorem countWrap_trip (b : Nat) (f : Fld) (n : Nat) : (s.countWrap b f n).trip = s.trip := rfl
@[simp] theorem countWrap_ring (b : Nat) (f : Fld) (n : Nat) : (s.countWrap b f n).ring = s.ring := rfl
@[simp] theorem countWrap_ode (b : Nat) (f : Fld) (n : Nat) : (s.countWrap b f n).ode = s.ode := rfl
@[simp] theorem countWrap_attic (b : Nat) (f : Fld) (n : Nat) : (s.countWrap b f n).attic = s.attic := rfl
@[simp] theorem countWrap_core (b : Nat) (f : Fld) (n : Nat) : (s.countWrap b f n).core = s.core := rfl
@[simp] theorem countWrap_replay (b : Nat) (f : Fld) (n : Nat) : (s.countWrap b f n).replay = s.replay := rfl
@[simp] theorem countWrap_dbg (b : Nat) (f : Fld) (n : Nat) : (s.countWrap b f n).dbg = s.dbg := rfl
@[simp] theorem countWrap_flash (b : Nat) (f : Fld) (n : Nat) : (s.countWrap b f n).flash = s.flash := rfl
@[simp] theorem countWrap_spi (b : Nat) (f : Fld) (n : Nat) : (s.countWrap b f n).spi = s.spi := rfl
@[simp] theorem countWrap_uart (b : Nat) (f : Fld) (n : Nat) : (s.countWrap b f n).uart = s.uart := rfl
@[simp] theorem countWrap_can (b : Nat) (f : Fld) (n : Nat) : (s.countWrap b f n).can = s.can := rfl
@[simp] theorem countWrap_iic (b : Nat) (f : Fld) (n : Nat) : (s.countWrap b f n).iic = s.iic := rfl

@[simp] theorem mark_pending (b : Nat) (f : Fld) : (s.mark b f).pending = s.pending := rfl
@[simp] theorem mark_now (b : Nat) (f : Fld) : (s.mark b f).now = s.now := rfl
@[simp] theorem mark_free (b : Nat) (f : Fld) : (s.mark b f).free = s.free := rfl
@[simp] theorem mark_warranted (b : Nat) (f : Fld) : (s.mark b f).warranted = s.warranted := rfl
@[simp] theorem mark_regs (b : Nat) (f : Fld) : (s.mark b f).regs = s.regs := rfl
@[simp] theorem mark_mem (b : Nat) (f : Fld) : (s.mark b f).mem = s.mem := rfl
@[simp] theorem mark_shadows (b : Nat) (f : Fld) : (s.mark b f).shadows = s.shadows := rfl
@[simp] theorem mark_readData (b : Nat) (f : Fld) : (s.mark b f).readData = s.readData := rfl
@[simp] theorem mark_writeBack (b : Nat) (f : Fld) : (s.mark b f).writeBack = s.writeBack := rfl
@[simp] theorem mark_options (b : Nat) (f : Fld) : (s.mark b f).options = s.options := rfl
@[simp] theorem mark_cellar (b : Nat) (f : Fld) : (s.mark b f).cellar = s.cellar := rfl
@[simp] theorem mark_crier (b : Nat) (f : Fld) : (s.mark b f).crier = s.crier := rfl
@[simp] theorem mark_clock (b : Nat) (f : Fld) : (s.mark b f).clock = s.clock := rfl
@[simp] theorem mark_aisle (b : Nat) (f : Fld) : (s.mark b f).aisle = s.aisle := rfl
@[simp] theorem mark_car (b : Nat) (f : Fld) : (s.mark b f).car = s.car := rfl
@[simp] theorem mark_leg (b : Nat) (f : Fld) : (s.mark b f).leg = s.leg := rfl
@[simp] theorem mark_cmp (b : Nat) (f : Fld) : (s.mark b f).cmp = s.cmp := rfl
@[simp] theorem mark_cnv (b : Nat) (f : Fld) : (s.mark b f).cnv = s.cnv := rfl
@[simp] theorem mark_eng (b : Nat) (f : Fld) : (s.mark b f).eng = s.eng := rfl
@[simp] theorem mark_qep (b : Nat) (f : Fld) : (s.mark b f).qep = s.qep := rfl
@[simp] theorem mark_trip (b : Nat) (f : Fld) : (s.mark b f).trip = s.trip := rfl
@[simp] theorem mark_ring (b : Nat) (f : Fld) : (s.mark b f).ring = s.ring := rfl
@[simp] theorem mark_ode (b : Nat) (f : Fld) : (s.mark b f).ode = s.ode := rfl
@[simp] theorem mark_attic (b : Nat) (f : Fld) : (s.mark b f).attic = s.attic := rfl
@[simp] theorem mark_core (b : Nat) (f : Fld) : (s.mark b f).core = s.core := rfl
@[simp] theorem mark_replay (b : Nat) (f : Fld) : (s.mark b f).replay = s.replay := rfl
@[simp] theorem mark_dbg (b : Nat) (f : Fld) : (s.mark b f).dbg = s.dbg := rfl
@[simp] theorem mark_flash (b : Nat) (f : Fld) : (s.mark b f).flash = s.flash := rfl
@[simp] theorem mark_spi (b : Nat) (f : Fld) : (s.mark b f).spi = s.spi := rfl
@[simp] theorem mark_uart (b : Nat) (f : Fld) : (s.mark b f).uart = s.uart := rfl
@[simp] theorem mark_can (b : Nat) (f : Fld) : (s.mark b f).can = s.can := rfl
@[simp] theorem mark_iic (b : Nat) (f : Fld) : (s.mark b f).iic = s.iic := rfl

@[simp] theorem latch_pending (b : Nat) (f : Fld) : (s.latch b f).pending = s.pending := rfl
@[simp] theorem latch_now (b : Nat) (f : Fld) : (s.latch b f).now = s.now := rfl
@[simp] theorem latch_free (b : Nat) (f : Fld) : (s.latch b f).free = s.free := rfl
@[simp] theorem latch_warranted (b : Nat) (f : Fld) : (s.latch b f).warranted = s.warranted := rfl
@[simp] theorem latch_mem (b : Nat) (f : Fld) : (s.latch b f).mem = s.mem := rfl
@[simp] theorem latch_shadows (b : Nat) (f : Fld) : (s.latch b f).shadows = s.shadows := rfl
@[simp] theorem latch_readData (b : Nat) (f : Fld) : (s.latch b f).readData = s.readData := rfl
@[simp] theorem latch_writeBack (b : Nat) (f : Fld) : (s.latch b f).writeBack = s.writeBack := rfl
@[simp] theorem latch_options (b : Nat) (f : Fld) : (s.latch b f).options = s.options := rfl
@[simp] theorem latch_cellar (b : Nat) (f : Fld) : (s.latch b f).cellar = s.cellar := rfl
@[simp] theorem latch_crier (b : Nat) (f : Fld) : (s.latch b f).crier = s.crier := rfl
@[simp] theorem latch_clock (b : Nat) (f : Fld) : (s.latch b f).clock = s.clock := rfl
@[simp] theorem latch_aisle (b : Nat) (f : Fld) : (s.latch b f).aisle = s.aisle := rfl
@[simp] theorem latch_car (b : Nat) (f : Fld) : (s.latch b f).car = s.car := rfl
@[simp] theorem latch_leg (b : Nat) (f : Fld) : (s.latch b f).leg = s.leg := rfl
@[simp] theorem latch_cmp (b : Nat) (f : Fld) : (s.latch b f).cmp = s.cmp := rfl
@[simp] theorem latch_cnv (b : Nat) (f : Fld) : (s.latch b f).cnv = s.cnv := rfl
@[simp] theorem latch_eng (b : Nat) (f : Fld) : (s.latch b f).eng = s.eng := rfl
@[simp] theorem latch_qep (b : Nat) (f : Fld) : (s.latch b f).qep = s.qep := rfl
@[simp] theorem latch_trip (b : Nat) (f : Fld) : (s.latch b f).trip = s.trip := rfl
@[simp] theorem latch_ring (b : Nat) (f : Fld) : (s.latch b f).ring = s.ring := rfl
@[simp] theorem latch_ode (b : Nat) (f : Fld) : (s.latch b f).ode = s.ode := rfl
@[simp] theorem latch_attic (b : Nat) (f : Fld) : (s.latch b f).attic = s.attic := rfl
@[simp] theorem latch_core (b : Nat) (f : Fld) : (s.latch b f).core = s.core := rfl
@[simp] theorem latch_replay (b : Nat) (f : Fld) : (s.latch b f).replay = s.replay := rfl
@[simp] theorem latch_dbg (b : Nat) (f : Fld) : (s.latch b f).dbg = s.dbg := rfl
@[simp] theorem latch_flash (b : Nat) (f : Fld) : (s.latch b f).flash = s.flash := rfl
@[simp] theorem latch_spi (b : Nat) (f : Fld) : (s.latch b f).spi = s.spi := rfl
@[simp] theorem latch_uart (b : Nat) (f : Fld) : (s.latch b f).uart = s.uart := rfl
@[simp] theorem latch_can (b : Nat) (f : Fld) : (s.latch b f).can = s.can := rfl
@[simp] theorem latch_iic (b : Nat) (f : Fld) : (s.latch b f).iic = s.iic := rfl

@[simp] theorem unlatch_pending (b : Nat) (f : Fld) : (s.unlatch b f).pending = s.pending := rfl
@[simp] theorem unlatch_now (b : Nat) (f : Fld) : (s.unlatch b f).now = s.now := rfl
@[simp] theorem unlatch_free (b : Nat) (f : Fld) : (s.unlatch b f).free = s.free := rfl
@[simp] theorem unlatch_warranted (b : Nat) (f : Fld) : (s.unlatch b f).warranted = s.warranted := rfl
@[simp] theorem unlatch_mem (b : Nat) (f : Fld) : (s.unlatch b f).mem = s.mem := rfl
@[simp] theorem unlatch_shadows (b : Nat) (f : Fld) : (s.unlatch b f).shadows = s.shadows := rfl
@[simp] theorem unlatch_happened (b : Nat) (f : Fld) : (s.unlatch b f).happened = s.happened := rfl
@[simp] theorem unlatch_readData (b : Nat) (f : Fld) : (s.unlatch b f).readData = s.readData := rfl
@[simp] theorem unlatch_writeBack (b : Nat) (f : Fld) : (s.unlatch b f).writeBack = s.writeBack := rfl
@[simp] theorem unlatch_options (b : Nat) (f : Fld) : (s.unlatch b f).options = s.options := rfl
@[simp] theorem unlatch_cellar (b : Nat) (f : Fld) : (s.unlatch b f).cellar = s.cellar := rfl
@[simp] theorem unlatch_crier (b : Nat) (f : Fld) : (s.unlatch b f).crier = s.crier := rfl
@[simp] theorem unlatch_clock (b : Nat) (f : Fld) : (s.unlatch b f).clock = s.clock := rfl
@[simp] theorem unlatch_aisle (b : Nat) (f : Fld) : (s.unlatch b f).aisle = s.aisle := rfl
@[simp] theorem unlatch_car (b : Nat) (f : Fld) : (s.unlatch b f).car = s.car := rfl
@[simp] theorem unlatch_leg (b : Nat) (f : Fld) : (s.unlatch b f).leg = s.leg := rfl
@[simp] theorem unlatch_cmp (b : Nat) (f : Fld) : (s.unlatch b f).cmp = s.cmp := rfl
@[simp] theorem unlatch_cnv (b : Nat) (f : Fld) : (s.unlatch b f).cnv = s.cnv := rfl
@[simp] theorem unlatch_eng (b : Nat) (f : Fld) : (s.unlatch b f).eng = s.eng := rfl
@[simp] theorem unlatch_qep (b : Nat) (f : Fld) : (s.unlatch b f).qep = s.qep := rfl
@[simp] theorem unlatch_trip (b : Nat) (f : Fld) : (s.unlatch b f).trip = s.trip := rfl
@[simp] theorem unlatch_ring (b : Nat) (f : Fld) : (s.unlatch b f).ring = s.ring := rfl
@[simp] theorem unlatch_ode (b : Nat) (f : Fld) : (s.unlatch b f).ode = s.ode := rfl
@[simp] theorem unlatch_attic (b : Nat) (f : Fld) : (s.unlatch b f).attic = s.attic := rfl
@[simp] theorem unlatch_core (b : Nat) (f : Fld) : (s.unlatch b f).core = s.core := rfl
@[simp] theorem unlatch_replay (b : Nat) (f : Fld) : (s.unlatch b f).replay = s.replay := rfl
@[simp] theorem unlatch_dbg (b : Nat) (f : Fld) : (s.unlatch b f).dbg = s.dbg := rfl
@[simp] theorem unlatch_flash (b : Nat) (f : Fld) : (s.unlatch b f).flash = s.flash := rfl
@[simp] theorem unlatch_spi (b : Nat) (f : Fld) : (s.unlatch b f).spi = s.spi := rfl
@[simp] theorem unlatch_uart (b : Nat) (f : Fld) : (s.unlatch b f).uart = s.uart := rfl
@[simp] theorem unlatch_can (b : Nat) (f : Fld) : (s.unlatch b f).can = s.can := rfl
@[simp] theorem unlatch_iic (b : Nat) (f : Fld) : (s.unlatch b f).iic = s.iic := rfl

@[simp] theorem clearCount_pending (b : Nat) (f : Fld) : (s.clearCount b f).pending = s.pending := rfl
@[simp] theorem clearCount_now (b : Nat) (f : Fld) : (s.clearCount b f).now = s.now := rfl
@[simp] theorem clearCount_free (b : Nat) (f : Fld) : (s.clearCount b f).free = s.free := rfl
@[simp] theorem clearCount_warranted (b : Nat) (f : Fld) : (s.clearCount b f).warranted = s.warranted := rfl
@[simp] theorem clearCount_mem (b : Nat) (f : Fld) : (s.clearCount b f).mem = s.mem := rfl
@[simp] theorem clearCount_shadows (b : Nat) (f : Fld) : (s.clearCount b f).shadows = s.shadows := rfl
@[simp] theorem clearCount_happened (b : Nat) (f : Fld) : (s.clearCount b f).happened = s.happened := rfl
@[simp] theorem clearCount_readData (b : Nat) (f : Fld) : (s.clearCount b f).readData = s.readData := rfl
@[simp] theorem clearCount_writeBack (b : Nat) (f : Fld) : (s.clearCount b f).writeBack = s.writeBack := rfl
@[simp] theorem clearCount_options (b : Nat) (f : Fld) : (s.clearCount b f).options = s.options := rfl
@[simp] theorem clearCount_cellar (b : Nat) (f : Fld) : (s.clearCount b f).cellar = s.cellar := rfl
@[simp] theorem clearCount_crier (b : Nat) (f : Fld) : (s.clearCount b f).crier = s.crier := rfl
@[simp] theorem clearCount_clock (b : Nat) (f : Fld) : (s.clearCount b f).clock = s.clock := rfl
@[simp] theorem clearCount_aisle (b : Nat) (f : Fld) : (s.clearCount b f).aisle = s.aisle := rfl
@[simp] theorem clearCount_car (b : Nat) (f : Fld) : (s.clearCount b f).car = s.car := rfl
@[simp] theorem clearCount_leg (b : Nat) (f : Fld) : (s.clearCount b f).leg = s.leg := rfl
@[simp] theorem clearCount_cmp (b : Nat) (f : Fld) : (s.clearCount b f).cmp = s.cmp := rfl
@[simp] theorem clearCount_cnv (b : Nat) (f : Fld) : (s.clearCount b f).cnv = s.cnv := rfl
@[simp] theorem clearCount_eng (b : Nat) (f : Fld) : (s.clearCount b f).eng = s.eng := rfl
@[simp] theorem clearCount_qep (b : Nat) (f : Fld) : (s.clearCount b f).qep = s.qep := rfl
@[simp] theorem clearCount_trip (b : Nat) (f : Fld) : (s.clearCount b f).trip = s.trip := rfl
@[simp] theorem clearCount_ring (b : Nat) (f : Fld) : (s.clearCount b f).ring = s.ring := rfl
@[simp] theorem clearCount_ode (b : Nat) (f : Fld) : (s.clearCount b f).ode = s.ode := rfl
@[simp] theorem clearCount_attic (b : Nat) (f : Fld) : (s.clearCount b f).attic = s.attic := rfl
@[simp] theorem clearCount_core (b : Nat) (f : Fld) : (s.clearCount b f).core = s.core := rfl
@[simp] theorem clearCount_replay (b : Nat) (f : Fld) : (s.clearCount b f).replay = s.replay := rfl
@[simp] theorem clearCount_dbg (b : Nat) (f : Fld) : (s.clearCount b f).dbg = s.dbg := rfl
@[simp] theorem clearCount_flash (b : Nat) (f : Fld) : (s.clearCount b f).flash = s.flash := rfl
@[simp] theorem clearCount_spi (b : Nat) (f : Fld) : (s.clearCount b f).spi = s.spi := rfl
@[simp] theorem clearCount_uart (b : Nat) (f : Fld) : (s.clearCount b f).uart = s.uart := rfl
@[simp] theorem clearCount_can (b : Nat) (f : Fld) : (s.clearCount b f).can = s.can := rfl
@[simp] theorem clearCount_iic (b : Nat) (f : Fld) : (s.clearCount b f).iic = s.iic := rfl

@[simp] theorem modReplay_pending (c : Nat) (f : Replay → Replay) : (s.modReplay c f).pending = s.pending := rfl
@[simp] theorem modReplay_now (c : Nat) (f : Replay → Replay) : (s.modReplay c f).now = s.now := rfl
@[simp] theorem modReplay_free (c : Nat) (f : Replay → Replay) : (s.modReplay c f).free = s.free := rfl
@[simp] theorem modReplay_warranted (c : Nat) (f : Replay → Replay) : (s.modReplay c f).warranted = s.warranted := rfl
@[simp] theorem modReplay_regs (c : Nat) (f : Replay → Replay) : (s.modReplay c f).regs = s.regs := rfl
@[simp] theorem modReplay_mem (c : Nat) (f : Replay → Replay) : (s.modReplay c f).mem = s.mem := rfl
@[simp] theorem modReplay_shadows (c : Nat) (f : Replay → Replay) : (s.modReplay c f).shadows = s.shadows := rfl
@[simp] theorem modReplay_happened (c : Nat) (f : Replay → Replay) : (s.modReplay c f).happened = s.happened := rfl
@[simp] theorem modReplay_readData (c : Nat) (f : Replay → Replay) : (s.modReplay c f).readData = s.readData := rfl
@[simp] theorem modReplay_writeBack (c : Nat) (f : Replay → Replay) : (s.modReplay c f).writeBack = s.writeBack := rfl
@[simp] theorem modReplay_options (c : Nat) (f : Replay → Replay) : (s.modReplay c f).options = s.options := rfl
@[simp] theorem modReplay_cellar (c : Nat) (f : Replay → Replay) : (s.modReplay c f).cellar = s.cellar := rfl
@[simp] theorem modReplay_crier (c : Nat) (f : Replay → Replay) : (s.modReplay c f).crier = s.crier := rfl
@[simp] theorem modReplay_clock (c : Nat) (f : Replay → Replay) : (s.modReplay c f).clock = s.clock := rfl
@[simp] theorem modReplay_aisle (c : Nat) (f : Replay → Replay) : (s.modReplay c f).aisle = s.aisle := rfl
@[simp] theorem modReplay_car (c : Nat) (f : Replay → Replay) : (s.modReplay c f).car = s.car := rfl
@[simp] theorem modReplay_leg (c : Nat) (f : Replay → Replay) : (s.modReplay c f).leg = s.leg := rfl
@[simp] theorem modReplay_cmp (c : Nat) (f : Replay → Replay) : (s.modReplay c f).cmp = s.cmp := rfl
@[simp] theorem modReplay_cnv (c : Nat) (f : Replay → Replay) : (s.modReplay c f).cnv = s.cnv := rfl
@[simp] theorem modReplay_eng (c : Nat) (f : Replay → Replay) : (s.modReplay c f).eng = s.eng := rfl
@[simp] theorem modReplay_qep (c : Nat) (f : Replay → Replay) : (s.modReplay c f).qep = s.qep := rfl
@[simp] theorem modReplay_trip (c : Nat) (f : Replay → Replay) : (s.modReplay c f).trip = s.trip := rfl
@[simp] theorem modReplay_ring (c : Nat) (f : Replay → Replay) : (s.modReplay c f).ring = s.ring := rfl
@[simp] theorem modReplay_ode (c : Nat) (f : Replay → Replay) : (s.modReplay c f).ode = s.ode := rfl
@[simp] theorem modReplay_attic (c : Nat) (f : Replay → Replay) : (s.modReplay c f).attic = s.attic := rfl
@[simp] theorem modReplay_core (c : Nat) (f : Replay → Replay) : (s.modReplay c f).core = s.core := rfl
@[simp] theorem modReplay_dbg (c : Nat) (f : Replay → Replay) : (s.modReplay c f).dbg = s.dbg := rfl
@[simp] theorem modReplay_flash (c : Nat) (f : Replay → Replay) : (s.modReplay c f).flash = s.flash := rfl
@[simp] theorem modReplay_spi (c : Nat) (f : Replay → Replay) : (s.modReplay c f).spi = s.spi := rfl
@[simp] theorem modReplay_uart (c : Nat) (f : Replay → Replay) : (s.modReplay c f).uart = s.uart := rfl
@[simp] theorem modReplay_can (c : Nat) (f : Replay → Replay) : (s.modReplay c f).can = s.can := rfl
@[simp] theorem modReplay_iic (c : Nat) (f : Replay → Replay) : (s.modReplay c f).iic = s.iic := rfl

@[simp] theorem setSrcBit_pending (f : Fld) (n : Nat) (v : Bool) : (s.setSrcBit f n v).pending = s.pending := rfl
@[simp] theorem setSrcBit_now (f : Fld) (n : Nat) (v : Bool) : (s.setSrcBit f n v).now = s.now := rfl
@[simp] theorem setSrcBit_free (f : Fld) (n : Nat) (v : Bool) : (s.setSrcBit f n v).free = s.free := rfl
@[simp] theorem setSrcBit_warranted (f : Fld) (n : Nat) (v : Bool) : (s.setSrcBit f n v).warranted = s.warranted := rfl
@[simp] theorem setSrcBit_mem (f : Fld) (n : Nat) (v : Bool) : (s.setSrcBit f n v).mem = s.mem := rfl
@[simp] theorem setSrcBit_shadows (f : Fld) (n : Nat) (v : Bool) : (s.setSrcBit f n v).shadows = s.shadows := rfl
@[simp] theorem setSrcBit_happened (f : Fld) (n : Nat) (v : Bool) : (s.setSrcBit f n v).happened = s.happened := rfl
@[simp] theorem setSrcBit_readData (f : Fld) (n : Nat) (v : Bool) : (s.setSrcBit f n v).readData = s.readData := rfl
@[simp] theorem setSrcBit_writeBack (f : Fld) (n : Nat) (v : Bool) : (s.setSrcBit f n v).writeBack = s.writeBack := rfl
@[simp] theorem setSrcBit_options (f : Fld) (n : Nat) (v : Bool) : (s.setSrcBit f n v).options = s.options := rfl
@[simp] theorem setSrcBit_cellar (f : Fld) (n : Nat) (v : Bool) : (s.setSrcBit f n v).cellar = s.cellar := rfl
@[simp] theorem setSrcBit_crier (f : Fld) (n : Nat) (v : Bool) : (s.setSrcBit f n v).crier = s.crier := rfl
@[simp] theorem setSrcBit_clock (f : Fld) (n : Nat) (v : Bool) : (s.setSrcBit f n v).clock = s.clock := rfl
@[simp] theorem setSrcBit_aisle (f : Fld) (n : Nat) (v : Bool) : (s.setSrcBit f n v).aisle = s.aisle := rfl
@[simp] theorem setSrcBit_car (f : Fld) (n : Nat) (v : Bool) : (s.setSrcBit f n v).car = s.car := rfl
@[simp] theorem setSrcBit_leg (f : Fld) (n : Nat) (v : Bool) : (s.setSrcBit f n v).leg = s.leg := rfl
@[simp] theorem setSrcBit_cmp (f : Fld) (n : Nat) (v : Bool) : (s.setSrcBit f n v).cmp = s.cmp := rfl
@[simp] theorem setSrcBit_cnv (f : Fld) (n : Nat) (v : Bool) : (s.setSrcBit f n v).cnv = s.cnv := rfl
@[simp] theorem setSrcBit_eng (f : Fld) (n : Nat) (v : Bool) : (s.setSrcBit f n v).eng = s.eng := rfl
@[simp] theorem setSrcBit_qep (f : Fld) (n : Nat) (v : Bool) : (s.setSrcBit f n v).qep = s.qep := rfl
@[simp] theorem setSrcBit_trip (f : Fld) (n : Nat) (v : Bool) : (s.setSrcBit f n v).trip = s.trip := rfl
@[simp] theorem setSrcBit_ring (f : Fld) (n : Nat) (v : Bool) : (s.setSrcBit f n v).ring = s.ring := rfl
@[simp] theorem setSrcBit_ode (f : Fld) (n : Nat) (v : Bool) : (s.setSrcBit f n v).ode = s.ode := rfl
@[simp] theorem setSrcBit_attic (f : Fld) (n : Nat) (v : Bool) : (s.setSrcBit f n v).attic = s.attic := rfl
@[simp] theorem setSrcBit_core (f : Fld) (n : Nat) (v : Bool) : (s.setSrcBit f n v).core = s.core := rfl
@[simp] theorem setSrcBit_replay (f : Fld) (n : Nat) (v : Bool) : (s.setSrcBit f n v).replay = s.replay := rfl
@[simp] theorem setSrcBit_dbg (f : Fld) (n : Nat) (v : Bool) : (s.setSrcBit f n v).dbg = s.dbg := rfl
@[simp] theorem setSrcBit_flash (f : Fld) (n : Nat) (v : Bool) : (s.setSrcBit f n v).flash = s.flash := rfl
@[simp] theorem setSrcBit_spi (f : Fld) (n : Nat) (v : Bool) : (s.setSrcBit f n v).spi = s.spi := rfl
@[simp] theorem setSrcBit_uart (f : Fld) (n : Nat) (v : Bool) : (s.setSrcBit f n v).uart = s.uart := rfl
@[simp] theorem setSrcBit_can (f : Fld) (n : Nat) (v : Bool) : (s.setSrcBit f n v).can = s.can := rfl
@[simp] theorem setSrcBit_iic (f : Fld) (n : Nat) (v : Bool) : (s.setSrcBit f n v).iic = s.iic := rfl

@[simp] theorem pend_pending (n : Nat) : (s.pend n).pending = s.pending := by unfold State.pend; split <;> rfl
@[simp] theorem pend_now (n : Nat) : (s.pend n).now = s.now := by unfold State.pend; split <;> rfl
@[simp] theorem pend_free (n : Nat) : (s.pend n).free = s.free := by unfold State.pend; split <;> rfl
@[simp] theorem pend_warranted (n : Nat) : (s.pend n).warranted = s.warranted := by unfold State.pend; split <;> rfl
@[simp] theorem pend_mem (n : Nat) : (s.pend n).mem = s.mem := by unfold State.pend; split <;> rfl
@[simp] theorem pend_shadows (n : Nat) : (s.pend n).shadows = s.shadows := by unfold State.pend; split <;> rfl
@[simp] theorem pend_happened (n : Nat) : (s.pend n).happened = s.happened := by unfold State.pend; split <;> rfl
@[simp] theorem pend_readData (n : Nat) : (s.pend n).readData = s.readData := by unfold State.pend; split <;> rfl
@[simp] theorem pend_writeBack (n : Nat) : (s.pend n).writeBack = s.writeBack := by unfold State.pend; split <;> rfl
@[simp] theorem pend_options (n : Nat) : (s.pend n).options = s.options := by unfold State.pend; split <;> rfl
@[simp] theorem pend_cellar (n : Nat) : (s.pend n).cellar = s.cellar := by unfold State.pend; split <;> rfl
@[simp] theorem pend_crier (n : Nat) : (s.pend n).crier = s.crier := by unfold State.pend; split <;> rfl
@[simp] theorem pend_clock (n : Nat) : (s.pend n).clock = s.clock := by unfold State.pend; split <;> rfl
@[simp] theorem pend_aisle (n : Nat) : (s.pend n).aisle = s.aisle := by unfold State.pend; split <;> rfl
@[simp] theorem pend_car (n : Nat) : (s.pend n).car = s.car := by unfold State.pend; split <;> rfl
@[simp] theorem pend_leg (n : Nat) : (s.pend n).leg = s.leg := by unfold State.pend; split <;> rfl
@[simp] theorem pend_cmp (n : Nat) : (s.pend n).cmp = s.cmp := by unfold State.pend; split <;> rfl
@[simp] theorem pend_cnv (n : Nat) : (s.pend n).cnv = s.cnv := by unfold State.pend; split <;> rfl
@[simp] theorem pend_eng (n : Nat) : (s.pend n).eng = s.eng := by unfold State.pend; split <;> rfl
@[simp] theorem pend_qep (n : Nat) : (s.pend n).qep = s.qep := by unfold State.pend; split <;> rfl
@[simp] theorem pend_trip (n : Nat) : (s.pend n).trip = s.trip := by unfold State.pend; split <;> rfl
@[simp] theorem pend_ring (n : Nat) : (s.pend n).ring = s.ring := by unfold State.pend; split <;> rfl
@[simp] theorem pend_ode (n : Nat) : (s.pend n).ode = s.ode := by unfold State.pend; split <;> rfl
@[simp] theorem pend_attic (n : Nat) : (s.pend n).attic = s.attic := by unfold State.pend; split <;> rfl
@[simp] theorem pend_core (n : Nat) : (s.pend n).core = s.core := by unfold State.pend; split <;> rfl
@[simp] theorem pend_replay (n : Nat) : (s.pend n).replay = s.replay := by unfold State.pend; split <;> rfl
@[simp] theorem pend_dbg (n : Nat) : (s.pend n).dbg = s.dbg := by unfold State.pend; split <;> rfl
@[simp] theorem pend_flash (n : Nat) : (s.pend n).flash = s.flash := by unfold State.pend; split <;> rfl
@[simp] theorem pend_spi (n : Nat) : (s.pend n).spi = s.spi := by unfold State.pend; split <;> rfl
@[simp] theorem pend_uart (n : Nat) : (s.pend n).uart = s.uart := by unfold State.pend; split <;> rfl
@[simp] theorem pend_can (n : Nat) : (s.pend n).can = s.can := by unfold State.pend; split <;> rfl
@[simp] theorem pend_iic (n : Nat) : (s.pend n).iic = s.iic := by unfold State.pend; split <;> rfl

@[simp] theorem busError_pending (i a k : Nat) (w : Bool) : (s.busError i a k w).pending = s.pending := by
  simp only [State.busError, countSat_pending]
  split <;> simp only [setB_pending, setF_pending]
@[simp] theorem busError_now (i a k : Nat) (w : Bool) : (s.busError i a k w).now = s.now := by
  simp only [State.busError, countSat_now]
  split <;> simp only [setB_now, setF_now]
@[simp] theorem busError_free (i a k : Nat) (w : Bool) : (s.busError i a k w).free = s.free := by
  simp only [State.busError, countSat_free]
  split <;> simp only [setB_free, setF_free]
@[simp] theorem busError_warranted (i a k : Nat) (w : Bool) : (s.busError i a k w).warranted = s.warranted := by
  simp only [State.busError, countSat_warranted]
  split <;> simp only [setB_warranted, setF_warranted]
@[simp] theorem busError_mem (i a k : Nat) (w : Bool) : (s.busError i a k w).mem = s.mem := by
  simp only [State.busError, countSat_mem]
  split <;> simp only [setB_mem, setF_mem]
@[simp] theorem busError_shadows (i a k : Nat) (w : Bool) : (s.busError i a k w).shadows = s.shadows := by
  simp only [State.busError, countSat_shadows]
  split <;> simp only [setB_shadows, setF_shadows]
@[simp] theorem busError_readData (i a k : Nat) (w : Bool) : (s.busError i a k w).readData = s.readData := by
  simp only [State.busError, countSat_readData]
  split <;> simp only [setB_readData, setF_readData]
@[simp] theorem busError_writeBack (i a k : Nat) (w : Bool) : (s.busError i a k w).writeBack = s.writeBack := by
  simp only [State.busError, countSat_writeBack]
  split <;> simp only [setB_writeBack, setF_writeBack]
@[simp] theorem busError_options (i a k : Nat) (w : Bool) : (s.busError i a k w).options = s.options := by
  simp only [State.busError, countSat_options]
  split <;> simp only [setB_options, setF_options]
@[simp] theorem busError_cellar (i a k : Nat) (w : Bool) : (s.busError i a k w).cellar = s.cellar := by
  simp only [State.busError, countSat_cellar]
  split <;> simp only [setB_cellar, setF_cellar]
@[simp] theorem busError_crier (i a k : Nat) (w : Bool) : (s.busError i a k w).crier = s.crier := by
  simp only [State.busError, countSat_crier]
  split <;> simp only [setB_crier, setF_crier]
@[simp] theorem busError_clock (i a k : Nat) (w : Bool) : (s.busError i a k w).clock = s.clock := by
  simp only [State.busError, countSat_clock]
  split <;> simp only [setB_clock, setF_clock]
@[simp] theorem busError_aisle (i a k : Nat) (w : Bool) : (s.busError i a k w).aisle = s.aisle := by
  simp only [State.busError, countSat_aisle]
  split <;> simp only [setB_aisle, setF_aisle]
@[simp] theorem busError_car (i a k : Nat) (w : Bool) : (s.busError i a k w).car = s.car := by
  simp only [State.busError, countSat_car]
  split <;> simp only [setB_car, setF_car]
@[simp] theorem busError_leg (i a k : Nat) (w : Bool) : (s.busError i a k w).leg = s.leg := by
  simp only [State.busError, countSat_leg]
  split <;> simp only [setB_leg, setF_leg]
@[simp] theorem busError_cmp (i a k : Nat) (w : Bool) : (s.busError i a k w).cmp = s.cmp := by
  simp only [State.busError, countSat_cmp]
  split <;> simp only [setB_cmp, setF_cmp]
@[simp] theorem busError_cnv (i a k : Nat) (w : Bool) : (s.busError i a k w).cnv = s.cnv := by
  simp only [State.busError, countSat_cnv]
  split <;> simp only [setB_cnv, setF_cnv]
@[simp] theorem busError_eng (i a k : Nat) (w : Bool) : (s.busError i a k w).eng = s.eng := by
  simp only [State.busError, countSat_eng]
  split <;> simp only [setB_eng, setF_eng]
@[simp] theorem busError_qep (i a k : Nat) (w : Bool) : (s.busError i a k w).qep = s.qep := by
  simp only [State.busError, countSat_qep]
  split <;> simp only [setB_qep, setF_qep]
@[simp] theorem busError_trip (i a k : Nat) (w : Bool) : (s.busError i a k w).trip = s.trip := by
  simp only [State.busError, countSat_trip]
  split <;> simp only [setB_trip, setF_trip]
@[simp] theorem busError_ring (i a k : Nat) (w : Bool) : (s.busError i a k w).ring = s.ring := by
  simp only [State.busError, countSat_ring]
  split <;> simp only [setB_ring, setF_ring]
@[simp] theorem busError_ode (i a k : Nat) (w : Bool) : (s.busError i a k w).ode = s.ode := by
  simp only [State.busError, countSat_ode]
  split <;> simp only [setB_ode, setF_ode]
@[simp] theorem busError_attic (i a k : Nat) (w : Bool) : (s.busError i a k w).attic = s.attic := by
  simp only [State.busError, countSat_attic]
  split <;> simp only [setB_attic, setF_attic]
@[simp] theorem busError_core (i a k : Nat) (w : Bool) : (s.busError i a k w).core = s.core := by
  simp only [State.busError, countSat_core]
  split <;> simp only [setB_core, setF_core]
@[simp] theorem busError_replay (i a k : Nat) (w : Bool) : (s.busError i a k w).replay = s.replay := by
  simp only [State.busError, countSat_replay]
  split <;> simp only [setB_replay, setF_replay]
@[simp] theorem busError_dbg (i a k : Nat) (w : Bool) : (s.busError i a k w).dbg = s.dbg := by
  simp only [State.busError, countSat_dbg]
  split <;> simp only [setB_dbg, setF_dbg]
@[simp] theorem busError_flash (i a k : Nat) (w : Bool) : (s.busError i a k w).flash = s.flash := by
  simp only [State.busError, countSat_flash]
  split <;> simp only [setB_flash, setF_flash]
@[simp] theorem busError_spi (i a k : Nat) (w : Bool) : (s.busError i a k w).spi = s.spi := by
  simp only [State.busError, countSat_spi]
  split <;> simp only [setB_spi, setF_spi]
@[simp] theorem busError_uart (i a k : Nat) (w : Bool) : (s.busError i a k w).uart = s.uart := by
  simp only [State.busError, countSat_uart]
  split <;> simp only [setB_uart, setF_uart]
@[simp] theorem busError_can (i a k : Nat) (w : Bool) : (s.busError i a k w).can = s.can := by
  simp only [State.busError, countSat_can]
  split <;> simp only [setB_can, setF_can]
@[simp] theorem busError_iic (i a k : Nat) (w : Bool) : (s.busError i a k w).iic = s.iic := by
  simp only [State.busError, countSat_iic]
  split <;> simp only [setB_iic, setF_iic]

@[simp] theorem setIsland_pending (i : Island) (v : Bool) : (s.setIsland i v).pending = s.pending := by cases i <;> simp only [State.setIsland, setBit_pending, setB_pending]
@[simp] theorem setIsland_now (i : Island) (v : Bool) : (s.setIsland i v).now = s.now := by cases i <;> simp only [State.setIsland, setBit_now, setB_now]
@[simp] theorem setIsland_free (i : Island) (v : Bool) : (s.setIsland i v).free = s.free := by cases i <;> simp only [State.setIsland, setBit_free, setB_free]
@[simp] theorem setIsland_warranted (i : Island) (v : Bool) : (s.setIsland i v).warranted = s.warranted := by cases i <;> simp only [State.setIsland, setBit_warranted, setB_warranted]
@[simp] theorem setIsland_mem (i : Island) (v : Bool) : (s.setIsland i v).mem = s.mem := by cases i <;> simp only [State.setIsland, setBit_mem, setB_mem]
@[simp] theorem setIsland_shadows (i : Island) (v : Bool) : (s.setIsland i v).shadows = s.shadows := by cases i <;> simp only [State.setIsland, setBit_shadows, setB_shadows]
@[simp] theorem setIsland_happened (i : Island) (v : Bool) : (s.setIsland i v).happened = s.happened := by cases i <;> simp only [State.setIsland, setBit_happened, setB_happened]
@[simp] theorem setIsland_readData (i : Island) (v : Bool) : (s.setIsland i v).readData = s.readData := by cases i <;> simp only [State.setIsland, setBit_readData, setB_readData]
@[simp] theorem setIsland_writeBack (i : Island) (v : Bool) : (s.setIsland i v).writeBack = s.writeBack := by cases i <;> simp only [State.setIsland, setBit_writeBack, setB_writeBack]
@[simp] theorem setIsland_options (i : Island) (v : Bool) : (s.setIsland i v).options = s.options := by cases i <;> simp only [State.setIsland, setBit_options, setB_options]
@[simp] theorem setIsland_cellar (i : Island) (v : Bool) : (s.setIsland i v).cellar = s.cellar := by cases i <;> simp only [State.setIsland, setBit_cellar, setB_cellar]
@[simp] theorem setIsland_crier (i : Island) (v : Bool) : (s.setIsland i v).crier = s.crier := by cases i <;> simp only [State.setIsland, setBit_crier, setB_crier]
@[simp] theorem setIsland_clock (i : Island) (v : Bool) : (s.setIsland i v).clock = s.clock := by cases i <;> simp only [State.setIsland, setBit_clock, setB_clock]
@[simp] theorem setIsland_aisle (i : Island) (v : Bool) : (s.setIsland i v).aisle = s.aisle := by cases i <;> simp only [State.setIsland, setBit_aisle, setB_aisle]
@[simp] theorem setIsland_car (i : Island) (v : Bool) : (s.setIsland i v).car = s.car := by cases i <;> simp only [State.setIsland, setBit_car, setB_car]
@[simp] theorem setIsland_leg (i : Island) (v : Bool) : (s.setIsland i v).leg = s.leg := by cases i <;> simp only [State.setIsland, setBit_leg, setB_leg]
@[simp] theorem setIsland_cmp (i : Island) (v : Bool) : (s.setIsland i v).cmp = s.cmp := by cases i <;> simp only [State.setIsland, setBit_cmp, setB_cmp]
@[simp] theorem setIsland_cnv (i : Island) (v : Bool) : (s.setIsland i v).cnv = s.cnv := by cases i <;> simp only [State.setIsland, setBit_cnv, setB_cnv]
@[simp] theorem setIsland_eng (i : Island) (v : Bool) : (s.setIsland i v).eng = s.eng := by cases i <;> simp only [State.setIsland, setBit_eng, setB_eng]
@[simp] theorem setIsland_qep (i : Island) (v : Bool) : (s.setIsland i v).qep = s.qep := by cases i <;> simp only [State.setIsland, setBit_qep, setB_qep]
@[simp] theorem setIsland_trip (i : Island) (v : Bool) : (s.setIsland i v).trip = s.trip := by cases i <;> simp only [State.setIsland, setBit_trip, setB_trip]
@[simp] theorem setIsland_ring (i : Island) (v : Bool) : (s.setIsland i v).ring = s.ring := by cases i <;> simp only [State.setIsland, setBit_ring, setB_ring]
@[simp] theorem setIsland_ode (i : Island) (v : Bool) : (s.setIsland i v).ode = s.ode := by cases i <;> simp only [State.setIsland, setBit_ode, setB_ode]
@[simp] theorem setIsland_attic (i : Island) (v : Bool) : (s.setIsland i v).attic = s.attic := by cases i <;> simp only [State.setIsland, setBit_attic, setB_attic]
@[simp] theorem setIsland_core (i : Island) (v : Bool) : (s.setIsland i v).core = s.core := by cases i <;> simp only [State.setIsland, setBit_core, setB_core]
@[simp] theorem setIsland_replay (i : Island) (v : Bool) : (s.setIsland i v).replay = s.replay := by cases i <;> simp only [State.setIsland, setBit_replay, setB_replay]
@[simp] theorem setIsland_dbg (i : Island) (v : Bool) : (s.setIsland i v).dbg = s.dbg := by cases i <;> simp only [State.setIsland, setBit_dbg, setB_dbg]
@[simp] theorem setIsland_flash (i : Island) (v : Bool) : (s.setIsland i v).flash = s.flash := by cases i <;> simp only [State.setIsland, setBit_flash, setB_flash]
@[simp] theorem setIsland_spi (i : Island) (v : Bool) : (s.setIsland i v).spi = s.spi := by cases i <;> simp only [State.setIsland, setBit_spi, setB_spi]
@[simp] theorem setIsland_uart (i : Island) (v : Bool) : (s.setIsland i v).uart = s.uart := by cases i <;> simp only [State.setIsland, setBit_uart, setB_uart]
@[simp] theorem setIsland_can (i : Island) (v : Bool) : (s.setIsland i v).can = s.can := by cases i <;> simp only [State.setIsland, setBit_can, setB_can]
@[simp] theorem setIsland_iic (i : Island) (v : Bool) : (s.setIsland i v).iic = s.iic := by cases i <;> simp only [State.setIsland, setBit_iic, setB_iic]

@[simp] theorem setByte_pending (a : Nat) (v : BitVec 8) : (s.setByte a v).pending = s.pending := rfl
@[simp] theorem setByte_now (a : Nat) (v : BitVec 8) : (s.setByte a v).now = s.now := rfl
@[simp] theorem setByte_free (a : Nat) (v : BitVec 8) : (s.setByte a v).free = s.free := rfl
@[simp] theorem setByte_warranted (a : Nat) (v : BitVec 8) : (s.setByte a v).warranted = s.warranted := rfl
@[simp] theorem setByte_regs (a : Nat) (v : BitVec 8) : (s.setByte a v).regs = s.regs := rfl
@[simp] theorem setByte_shadows (a : Nat) (v : BitVec 8) : (s.setByte a v).shadows = s.shadows := rfl
@[simp] theorem setByte_happened (a : Nat) (v : BitVec 8) : (s.setByte a v).happened = s.happened := rfl
@[simp] theorem setByte_readData (a : Nat) (v : BitVec 8) : (s.setByte a v).readData = s.readData := rfl
@[simp] theorem setByte_writeBack (a : Nat) (v : BitVec 8) : (s.setByte a v).writeBack = s.writeBack := rfl
@[simp] theorem setByte_options (a : Nat) (v : BitVec 8) : (s.setByte a v).options = s.options := rfl
@[simp] theorem setByte_cellar (a : Nat) (v : BitVec 8) : (s.setByte a v).cellar = s.cellar := rfl
@[simp] theorem setByte_crier (a : Nat) (v : BitVec 8) : (s.setByte a v).crier = s.crier := rfl
@[simp] theorem setByte_clock (a : Nat) (v : BitVec 8) : (s.setByte a v).clock = s.clock := rfl
@[simp] theorem setByte_aisle (a : Nat) (v : BitVec 8) : (s.setByte a v).aisle = s.aisle := rfl
@[simp] theorem setByte_car (a : Nat) (v : BitVec 8) : (s.setByte a v).car = s.car := rfl
@[simp] theorem setByte_leg (a : Nat) (v : BitVec 8) : (s.setByte a v).leg = s.leg := rfl
@[simp] theorem setByte_cmp (a : Nat) (v : BitVec 8) : (s.setByte a v).cmp = s.cmp := rfl
@[simp] theorem setByte_cnv (a : Nat) (v : BitVec 8) : (s.setByte a v).cnv = s.cnv := rfl
@[simp] theorem setByte_eng (a : Nat) (v : BitVec 8) : (s.setByte a v).eng = s.eng := rfl
@[simp] theorem setByte_qep (a : Nat) (v : BitVec 8) : (s.setByte a v).qep = s.qep := rfl
@[simp] theorem setByte_trip (a : Nat) (v : BitVec 8) : (s.setByte a v).trip = s.trip := rfl
@[simp] theorem setByte_ring (a : Nat) (v : BitVec 8) : (s.setByte a v).ring = s.ring := rfl
@[simp] theorem setByte_ode (a : Nat) (v : BitVec 8) : (s.setByte a v).ode = s.ode := rfl
@[simp] theorem setByte_attic (a : Nat) (v : BitVec 8) : (s.setByte a v).attic = s.attic := rfl
@[simp] theorem setByte_core (a : Nat) (v : BitVec 8) : (s.setByte a v).core = s.core := rfl
@[simp] theorem setByte_replay (a : Nat) (v : BitVec 8) : (s.setByte a v).replay = s.replay := rfl
@[simp] theorem setByte_dbg (a : Nat) (v : BitVec 8) : (s.setByte a v).dbg = s.dbg := rfl
@[simp] theorem setByte_flash (a : Nat) (v : BitVec 8) : (s.setByte a v).flash = s.flash := rfl
@[simp] theorem setByte_spi (a : Nat) (v : BitVec 8) : (s.setByte a v).spi = s.spi := rfl
@[simp] theorem setByte_uart (a : Nat) (v : BitVec 8) : (s.setByte a v).uart = s.uart := rfl
@[simp] theorem setByte_can (a : Nat) (v : BitVec 8) : (s.setByte a v).can = s.can := rfl
@[simp] theorem setByte_iic (a : Nat) (v : BitVec 8) : (s.setByte a v).iic = s.iic := rfl

@[simp] theorem pulse_pending (n : Nat) : (s.pulse n).pending = s.pending := rfl
@[simp] theorem pulse_now (n : Nat) : (s.pulse n).now = s.now := rfl
@[simp] theorem pulse_free (n : Nat) : (s.pulse n).free = s.free := rfl
@[simp] theorem pulse_warranted (n : Nat) : (s.pulse n).warranted = s.warranted := rfl
@[simp] theorem pulse_regs (n : Nat) : (s.pulse n).regs = s.regs := rfl
@[simp] theorem pulse_mem (n : Nat) : (s.pulse n).mem = s.mem := rfl
@[simp] theorem pulse_shadows (n : Nat) : (s.pulse n).shadows = s.shadows := rfl
@[simp] theorem pulse_happened (n : Nat) : (s.pulse n).happened = s.happened := rfl
@[simp] theorem pulse_readData (n : Nat) : (s.pulse n).readData = s.readData := rfl
@[simp] theorem pulse_writeBack (n : Nat) : (s.pulse n).writeBack = s.writeBack := rfl
@[simp] theorem pulse_options (n : Nat) : (s.pulse n).options = s.options := rfl
@[simp] theorem pulse_cellar (n : Nat) : (s.pulse n).cellar = s.cellar := rfl
@[simp] theorem pulse_clock (n : Nat) : (s.pulse n).clock = s.clock := rfl
@[simp] theorem pulse_aisle (n : Nat) : (s.pulse n).aisle = s.aisle := rfl
@[simp] theorem pulse_car (n : Nat) : (s.pulse n).car = s.car := rfl
@[simp] theorem pulse_leg (n : Nat) : (s.pulse n).leg = s.leg := rfl
@[simp] theorem pulse_cmp (n : Nat) : (s.pulse n).cmp = s.cmp := rfl
@[simp] theorem pulse_cnv (n : Nat) : (s.pulse n).cnv = s.cnv := rfl
@[simp] theorem pulse_eng (n : Nat) : (s.pulse n).eng = s.eng := rfl
@[simp] theorem pulse_qep (n : Nat) : (s.pulse n).qep = s.qep := rfl
@[simp] theorem pulse_trip (n : Nat) : (s.pulse n).trip = s.trip := rfl
@[simp] theorem pulse_ring (n : Nat) : (s.pulse n).ring = s.ring := rfl
@[simp] theorem pulse_ode (n : Nat) : (s.pulse n).ode = s.ode := rfl
@[simp] theorem pulse_attic (n : Nat) : (s.pulse n).attic = s.attic := rfl
@[simp] theorem pulse_core (n : Nat) : (s.pulse n).core = s.core := rfl
@[simp] theorem pulse_replay (n : Nat) : (s.pulse n).replay = s.replay := rfl
@[simp] theorem pulse_dbg (n : Nat) : (s.pulse n).dbg = s.dbg := rfl
@[simp] theorem pulse_flash (n : Nat) : (s.pulse n).flash = s.flash := rfl
@[simp] theorem pulse_spi (n : Nat) : (s.pulse n).spi = s.spi := rfl
@[simp] theorem pulse_uart (n : Nat) : (s.pulse n).uart = s.uart := rfl
@[simp] theorem pulse_can (n : Nat) : (s.pulse n).can = s.can := rfl
@[simp] theorem pulse_iic (n : Nat) : (s.pulse n).iic = s.iic := rfl

@[simp] theorem pulseIf_pending (c : Bool) (n : Nat) : (s.pulseIf c n).pending = s.pending := by cases c <;> rfl
@[simp] theorem pulseIf_now (c : Bool) (n : Nat) : (s.pulseIf c n).now = s.now := by cases c <;> rfl
@[simp] theorem pulseIf_free (c : Bool) (n : Nat) : (s.pulseIf c n).free = s.free := by cases c <;> rfl
@[simp] theorem pulseIf_warranted (c : Bool) (n : Nat) : (s.pulseIf c n).warranted = s.warranted := by cases c <;> rfl
@[simp] theorem pulseIf_regs (c : Bool) (n : Nat) : (s.pulseIf c n).regs = s.regs := by cases c <;> rfl
@[simp] theorem pulseIf_mem (c : Bool) (n : Nat) : (s.pulseIf c n).mem = s.mem := by cases c <;> rfl
@[simp] theorem pulseIf_shadows (c : Bool) (n : Nat) : (s.pulseIf c n).shadows = s.shadows := by cases c <;> rfl
@[simp] theorem pulseIf_happened (c : Bool) (n : Nat) : (s.pulseIf c n).happened = s.happened := by cases c <;> rfl
@[simp] theorem pulseIf_readData (c : Bool) (n : Nat) : (s.pulseIf c n).readData = s.readData := by cases c <;> rfl
@[simp] theorem pulseIf_writeBack (c : Bool) (n : Nat) : (s.pulseIf c n).writeBack = s.writeBack := by cases c <;> rfl
@[simp] theorem pulseIf_options (c : Bool) (n : Nat) : (s.pulseIf c n).options = s.options := by cases c <;> rfl
@[simp] theorem pulseIf_cellar (c : Bool) (n : Nat) : (s.pulseIf c n).cellar = s.cellar := by cases c <;> rfl
@[simp] theorem pulseIf_clock (c : Bool) (n : Nat) : (s.pulseIf c n).clock = s.clock := by cases c <;> rfl
@[simp] theorem pulseIf_aisle (c : Bool) (n : Nat) : (s.pulseIf c n).aisle = s.aisle := by cases c <;> rfl
@[simp] theorem pulseIf_car (c : Bool) (n : Nat) : (s.pulseIf c n).car = s.car := by cases c <;> rfl
@[simp] theorem pulseIf_leg (c : Bool) (n : Nat) : (s.pulseIf c n).leg = s.leg := by cases c <;> rfl
@[simp] theorem pulseIf_cmp (c : Bool) (n : Nat) : (s.pulseIf c n).cmp = s.cmp := by cases c <;> rfl
@[simp] theorem pulseIf_cnv (c : Bool) (n : Nat) : (s.pulseIf c n).cnv = s.cnv := by cases c <;> rfl
@[simp] theorem pulseIf_eng (c : Bool) (n : Nat) : (s.pulseIf c n).eng = s.eng := by cases c <;> rfl
@[simp] theorem pulseIf_qep (c : Bool) (n : Nat) : (s.pulseIf c n).qep = s.qep := by cases c <;> rfl
@[simp] theorem pulseIf_trip (c : Bool) (n : Nat) : (s.pulseIf c n).trip = s.trip := by cases c <;> rfl
@[simp] theorem pulseIf_ring (c : Bool) (n : Nat) : (s.pulseIf c n).ring = s.ring := by cases c <;> rfl
@[simp] theorem pulseIf_ode (c : Bool) (n : Nat) : (s.pulseIf c n).ode = s.ode := by cases c <;> rfl
@[simp] theorem pulseIf_attic (c : Bool) (n : Nat) : (s.pulseIf c n).attic = s.attic := by cases c <;> rfl
@[simp] theorem pulseIf_core (c : Bool) (n : Nat) : (s.pulseIf c n).core = s.core := by cases c <;> rfl
@[simp] theorem pulseIf_replay (c : Bool) (n : Nat) : (s.pulseIf c n).replay = s.replay := by cases c <;> rfl
@[simp] theorem pulseIf_dbg (c : Bool) (n : Nat) : (s.pulseIf c n).dbg = s.dbg := by cases c <;> rfl
@[simp] theorem pulseIf_flash (c : Bool) (n : Nat) : (s.pulseIf c n).flash = s.flash := by cases c <;> rfl
@[simp] theorem pulseIf_spi (c : Bool) (n : Nat) : (s.pulseIf c n).spi = s.spi := by cases c <;> rfl
@[simp] theorem pulseIf_uart (c : Bool) (n : Nat) : (s.pulseIf c n).uart = s.uart := by cases c <;> rfl
@[simp] theorem pulseIf_can (c : Bool) (n : Nat) : (s.pulseIf c n).can = s.can := by cases c <;> rfl
@[simp] theorem pulseIf_iic (c : Bool) (n : Nat) : (s.pulseIf c n).iic = s.iic := by cases c <;> rfl

@[simp] theorem celPulse_pending (n : Nat) : (s.celPulse n).pending = s.pending := pulseIf_pending s _ n
@[simp] theorem celPulse_now (n : Nat) : (s.celPulse n).now = s.now := pulseIf_now s _ n
@[simp] theorem celPulse_free (n : Nat) : (s.celPulse n).free = s.free := pulseIf_free s _ n
@[simp] theorem celPulse_warranted (n : Nat) : (s.celPulse n).warranted = s.warranted := pulseIf_warranted s _ n
@[simp] theorem celPulse_regs (n : Nat) : (s.celPulse n).regs = s.regs := pulseIf_regs s _ n
@[simp] theorem celPulse_mem (n : Nat) : (s.celPulse n).mem = s.mem := pulseIf_mem s _ n
@[simp] theorem celPulse_shadows (n : Nat) : (s.celPulse n).shadows = s.shadows := pulseIf_shadows s _ n
@[simp] theorem celPulse_happened (n : Nat) : (s.celPulse n).happened = s.happened := pulseIf_happened s _ n
@[simp] theorem celPulse_readData (n : Nat) : (s.celPulse n).readData = s.readData := pulseIf_readData s _ n
@[simp] theorem celPulse_writeBack (n : Nat) : (s.celPulse n).writeBack = s.writeBack := pulseIf_writeBack s _ n
@[simp] theorem celPulse_options (n : Nat) : (s.celPulse n).options = s.options := pulseIf_options s _ n
@[simp] theorem celPulse_cellar (n : Nat) : (s.celPulse n).cellar = s.cellar := pulseIf_cellar s _ n
@[simp] theorem celPulse_clock (n : Nat) : (s.celPulse n).clock = s.clock := pulseIf_clock s _ n
@[simp] theorem celPulse_aisle (n : Nat) : (s.celPulse n).aisle = s.aisle := pulseIf_aisle s _ n
@[simp] theorem celPulse_car (n : Nat) : (s.celPulse n).car = s.car := pulseIf_car s _ n
@[simp] theorem celPulse_leg (n : Nat) : (s.celPulse n).leg = s.leg := pulseIf_leg s _ n
@[simp] theorem celPulse_cmp (n : Nat) : (s.celPulse n).cmp = s.cmp := pulseIf_cmp s _ n
@[simp] theorem celPulse_cnv (n : Nat) : (s.celPulse n).cnv = s.cnv := pulseIf_cnv s _ n
@[simp] theorem celPulse_eng (n : Nat) : (s.celPulse n).eng = s.eng := pulseIf_eng s _ n
@[simp] theorem celPulse_qep (n : Nat) : (s.celPulse n).qep = s.qep := pulseIf_qep s _ n
@[simp] theorem celPulse_trip (n : Nat) : (s.celPulse n).trip = s.trip := pulseIf_trip s _ n
@[simp] theorem celPulse_ring (n : Nat) : (s.celPulse n).ring = s.ring := pulseIf_ring s _ n
@[simp] theorem celPulse_ode (n : Nat) : (s.celPulse n).ode = s.ode := pulseIf_ode s _ n
@[simp] theorem celPulse_attic (n : Nat) : (s.celPulse n).attic = s.attic := pulseIf_attic s _ n
@[simp] theorem celPulse_core (n : Nat) : (s.celPulse n).core = s.core := pulseIf_core s _ n
@[simp] theorem celPulse_replay (n : Nat) : (s.celPulse n).replay = s.replay := pulseIf_replay s _ n
@[simp] theorem celPulse_dbg (n : Nat) : (s.celPulse n).dbg = s.dbg := pulseIf_dbg s _ n
@[simp] theorem celPulse_flash (n : Nat) : (s.celPulse n).flash = s.flash := pulseIf_flash s _ n
@[simp] theorem celPulse_spi (n : Nat) : (s.celPulse n).spi = s.spi := pulseIf_spi s _ n
@[simp] theorem celPulse_uart (n : Nat) : (s.celPulse n).uart = s.uart := pulseIf_uart s _ n
@[simp] theorem celPulse_can (n : Nat) : (s.celPulse n).can = s.can := pulseIf_can s _ n
@[simp] theorem celPulse_iic (n : Nat) : (s.celPulse n).iic = s.iic := pulseIf_iic s _ n

@[simp] theorem ledger_pending (t a b d : Nat) : (s.ledger t a b d).pending = s.pending := by
  unfold State.ledger
  split
  · rfl
  · exact countSat_pending s _ _ _
@[simp] theorem ledger_now (t a b d : Nat) : (s.ledger t a b d).now = s.now := by
  unfold State.ledger
  split
  · rfl
  · exact countSat_now s _ _ _
@[simp] theorem ledger_free (t a b d : Nat) : (s.ledger t a b d).free = s.free := by
  unfold State.ledger
  split
  · rfl
  · exact countSat_free s _ _ _
@[simp] theorem ledger_warranted (t a b d : Nat) : (s.ledger t a b d).warranted = s.warranted := by
  unfold State.ledger
  split
  · rfl
  · exact countSat_warranted s _ _ _
@[simp] theorem ledger_mem (t a b d : Nat) : (s.ledger t a b d).mem = s.mem := by
  unfold State.ledger
  split
  · rfl
  · exact countSat_mem s _ _ _
@[simp] theorem ledger_shadows (t a b d : Nat) : (s.ledger t a b d).shadows = s.shadows := by
  unfold State.ledger
  split
  · rfl
  · exact countSat_shadows s _ _ _
@[simp] theorem ledger_readData (t a b d : Nat) : (s.ledger t a b d).readData = s.readData := by
  unfold State.ledger
  split
  · rfl
  · exact countSat_readData s _ _ _
@[simp] theorem ledger_writeBack (t a b d : Nat) : (s.ledger t a b d).writeBack = s.writeBack := by
  unfold State.ledger
  split
  · rfl
  · exact countSat_writeBack s _ _ _
@[simp] theorem ledger_options (t a b d : Nat) : (s.ledger t a b d).options = s.options := by
  unfold State.ledger
  split
  · rfl
  · exact countSat_options s _ _ _
@[simp] theorem ledger_crier (t a b d : Nat) : (s.ledger t a b d).crier = s.crier := by
  unfold State.ledger
  split
  · rfl
  · exact countSat_crier s _ _ _
@[simp] theorem ledger_clock (t a b d : Nat) : (s.ledger t a b d).clock = s.clock := by
  unfold State.ledger
  split
  · rfl
  · exact countSat_clock s _ _ _
@[simp] theorem ledger_aisle (t a b d : Nat) : (s.ledger t a b d).aisle = s.aisle := by
  unfold State.ledger
  split
  · rfl
  · exact countSat_aisle s _ _ _
@[simp] theorem ledger_car (t a b d : Nat) : (s.ledger t a b d).car = s.car := by
  unfold State.ledger
  split
  · rfl
  · exact countSat_car s _ _ _
@[simp] theorem ledger_leg (t a b d : Nat) : (s.ledger t a b d).leg = s.leg := by
  unfold State.ledger
  split
  · rfl
  · exact countSat_leg s _ _ _
@[simp] theorem ledger_cmp (t a b d : Nat) : (s.ledger t a b d).cmp = s.cmp := by
  unfold State.ledger
  split
  · rfl
  · exact countSat_cmp s _ _ _
@[simp] theorem ledger_cnv (t a b d : Nat) : (s.ledger t a b d).cnv = s.cnv := by
  unfold State.ledger
  split
  · rfl
  · exact countSat_cnv s _ _ _
@[simp] theorem ledger_eng (t a b d : Nat) : (s.ledger t a b d).eng = s.eng := by
  unfold State.ledger
  split
  · rfl
  · exact countSat_eng s _ _ _
@[simp] theorem ledger_qep (t a b d : Nat) : (s.ledger t a b d).qep = s.qep := by
  unfold State.ledger
  split
  · rfl
  · exact countSat_qep s _ _ _
@[simp] theorem ledger_trip (t a b d : Nat) : (s.ledger t a b d).trip = s.trip := by
  unfold State.ledger
  split
  · rfl
  · exact countSat_trip s _ _ _
@[simp] theorem ledger_ring (t a b d : Nat) : (s.ledger t a b d).ring = s.ring := by
  unfold State.ledger
  split
  · rfl
  · exact countSat_ring s _ _ _
@[simp] theorem ledger_ode (t a b d : Nat) : (s.ledger t a b d).ode = s.ode := by
  unfold State.ledger
  split
  · rfl
  · exact countSat_ode s _ _ _
@[simp] theorem ledger_attic (t a b d : Nat) : (s.ledger t a b d).attic = s.attic := by
  unfold State.ledger
  split
  · rfl
  · exact countSat_attic s _ _ _
@[simp] theorem ledger_core (t a b d : Nat) : (s.ledger t a b d).core = s.core := by
  unfold State.ledger
  split
  · rfl
  · exact countSat_core s _ _ _
@[simp] theorem ledger_replay (t a b d : Nat) : (s.ledger t a b d).replay = s.replay := by
  unfold State.ledger
  split
  · rfl
  · exact countSat_replay s _ _ _
@[simp] theorem ledger_dbg (t a b d : Nat) : (s.ledger t a b d).dbg = s.dbg := by
  unfold State.ledger
  split
  · rfl
  · exact countSat_dbg s _ _ _
@[simp] theorem ledger_flash (t a b d : Nat) : (s.ledger t a b d).flash = s.flash := by
  unfold State.ledger
  split
  · rfl
  · exact countSat_flash s _ _ _
@[simp] theorem ledger_spi (t a b d : Nat) : (s.ledger t a b d).spi = s.spi := by
  unfold State.ledger
  split
  · rfl
  · exact countSat_spi s _ _ _
@[simp] theorem ledger_uart (t a b d : Nat) : (s.ledger t a b d).uart = s.uart := by
  unfold State.ledger
  split
  · rfl
  · exact countSat_uart s _ _ _
@[simp] theorem ledger_can (t a b d : Nat) : (s.ledger t a b d).can = s.can := by
  unfold State.ledger
  split
  · rfl
  · exact countSat_can s _ _ _
@[simp] theorem ledger_iic (t a b d : Nat) : (s.ledger t a b d).iic = s.iic := by
  unfold State.ledger
  split
  · rfl
  · exact countSat_iic s _ _ _

@[simp] theorem unwarrant_pending : (s.unwarrant).pending = s.pending := rfl
@[simp] theorem unwarrant_now : (s.unwarrant).now = s.now := rfl
@[simp] theorem unwarrant_free : (s.unwarrant).free = s.free := rfl
@[simp] theorem unwarrant_regs : (s.unwarrant).regs = s.regs := rfl
@[simp] theorem unwarrant_mem : (s.unwarrant).mem = s.mem := rfl
@[simp] theorem unwarrant_shadows : (s.unwarrant).shadows = s.shadows := rfl
@[simp] theorem unwarrant_happened : (s.unwarrant).happened = s.happened := rfl
@[simp] theorem unwarrant_readData : (s.unwarrant).readData = s.readData := rfl
@[simp] theorem unwarrant_writeBack : (s.unwarrant).writeBack = s.writeBack := rfl
@[simp] theorem unwarrant_options : (s.unwarrant).options = s.options := rfl
@[simp] theorem unwarrant_cellar : (s.unwarrant).cellar = s.cellar := rfl
@[simp] theorem unwarrant_crier : (s.unwarrant).crier = s.crier := rfl
@[simp] theorem unwarrant_clock : (s.unwarrant).clock = s.clock := rfl
@[simp] theorem unwarrant_aisle : (s.unwarrant).aisle = s.aisle := rfl
@[simp] theorem unwarrant_car : (s.unwarrant).car = s.car := rfl
@[simp] theorem unwarrant_leg : (s.unwarrant).leg = s.leg := rfl
@[simp] theorem unwarrant_cmp : (s.unwarrant).cmp = s.cmp := rfl
@[simp] theorem unwarrant_cnv : (s.unwarrant).cnv = s.cnv := rfl
@[simp] theorem unwarrant_eng : (s.unwarrant).eng = s.eng := rfl
@[simp] theorem unwarrant_qep : (s.unwarrant).qep = s.qep := rfl
@[simp] theorem unwarrant_trip : (s.unwarrant).trip = s.trip := rfl
@[simp] theorem unwarrant_ring : (s.unwarrant).ring = s.ring := rfl
@[simp] theorem unwarrant_ode : (s.unwarrant).ode = s.ode := rfl
@[simp] theorem unwarrant_attic : (s.unwarrant).attic = s.attic := rfl
@[simp] theorem unwarrant_core : (s.unwarrant).core = s.core := rfl
@[simp] theorem unwarrant_replay : (s.unwarrant).replay = s.replay := rfl
@[simp] theorem unwarrant_dbg : (s.unwarrant).dbg = s.dbg := rfl
@[simp] theorem unwarrant_flash : (s.unwarrant).flash = s.flash := rfl
@[simp] theorem unwarrant_spi : (s.unwarrant).spi = s.spi := rfl
@[simp] theorem unwarrant_uart : (s.unwarrant).uart = s.uart := rfl
@[simp] theorem unwarrant_can : (s.unwarrant).can = s.can := rfl
@[simp] theorem unwarrant_iic : (s.unwarrant).iic = s.iic := rfl

@[simp] theorem must_pending (ok : Bool) : (s.must ok).pending = s.pending := by cases ok <;> rfl
@[simp] theorem must_now (ok : Bool) : (s.must ok).now = s.now := by cases ok <;> rfl
@[simp] theorem must_free (ok : Bool) : (s.must ok).free = s.free := by cases ok <;> rfl
@[simp] theorem must_regs (ok : Bool) : (s.must ok).regs = s.regs := by cases ok <;> rfl
@[simp] theorem must_mem (ok : Bool) : (s.must ok).mem = s.mem := by cases ok <;> rfl
@[simp] theorem must_shadows (ok : Bool) : (s.must ok).shadows = s.shadows := by cases ok <;> rfl
@[simp] theorem must_happened (ok : Bool) : (s.must ok).happened = s.happened := by cases ok <;> rfl
@[simp] theorem must_readData (ok : Bool) : (s.must ok).readData = s.readData := by cases ok <;> rfl
@[simp] theorem must_writeBack (ok : Bool) : (s.must ok).writeBack = s.writeBack := by cases ok <;> rfl
@[simp] theorem must_options (ok : Bool) : (s.must ok).options = s.options := by cases ok <;> rfl
@[simp] theorem must_cellar (ok : Bool) : (s.must ok).cellar = s.cellar := by cases ok <;> rfl
@[simp] theorem must_crier (ok : Bool) : (s.must ok).crier = s.crier := by cases ok <;> rfl
@[simp] theorem must_clock (ok : Bool) : (s.must ok).clock = s.clock := by cases ok <;> rfl
@[simp] theorem must_aisle (ok : Bool) : (s.must ok).aisle = s.aisle := by cases ok <;> rfl
@[simp] theorem must_car (ok : Bool) : (s.must ok).car = s.car := by cases ok <;> rfl
@[simp] theorem must_leg (ok : Bool) : (s.must ok).leg = s.leg := by cases ok <;> rfl
@[simp] theorem must_cmp (ok : Bool) : (s.must ok).cmp = s.cmp := by cases ok <;> rfl
@[simp] theorem must_cnv (ok : Bool) : (s.must ok).cnv = s.cnv := by cases ok <;> rfl
@[simp] theorem must_eng (ok : Bool) : (s.must ok).eng = s.eng := by cases ok <;> rfl
@[simp] theorem must_qep (ok : Bool) : (s.must ok).qep = s.qep := by cases ok <;> rfl
@[simp] theorem must_trip (ok : Bool) : (s.must ok).trip = s.trip := by cases ok <;> rfl
@[simp] theorem must_ring (ok : Bool) : (s.must ok).ring = s.ring := by cases ok <;> rfl
@[simp] theorem must_ode (ok : Bool) : (s.must ok).ode = s.ode := by cases ok <;> rfl
@[simp] theorem must_attic (ok : Bool) : (s.must ok).attic = s.attic := by cases ok <;> rfl
@[simp] theorem must_core (ok : Bool) : (s.must ok).core = s.core := by cases ok <;> rfl
@[simp] theorem must_replay (ok : Bool) : (s.must ok).replay = s.replay := by cases ok <;> rfl
@[simp] theorem must_dbg (ok : Bool) : (s.must ok).dbg = s.dbg := by cases ok <;> rfl
@[simp] theorem must_flash (ok : Bool) : (s.must ok).flash = s.flash := by cases ok <;> rfl
@[simp] theorem must_spi (ok : Bool) : (s.must ok).spi = s.spi := by cases ok <;> rfl
@[simp] theorem must_uart (ok : Bool) : (s.must ok).uart = s.uart := by cases ok <;> rfl
@[simp] theorem must_can (ok : Bool) : (s.must ok).can = s.can := by cases ok <;> rfl
@[simp] theorem must_iic (ok : Bool) : (s.must ok).iic = s.iic := by cases ok <;> rfl

@[simp] theorem atTime_pending (i : Nat) : (s.atTime i).pending = s.pending := rfl
@[simp] theorem atTime_free (i : Nat) : (s.atTime i).free = s.free := rfl
@[simp] theorem atTime_warranted (i : Nat) : (s.atTime i).warranted = s.warranted := rfl
@[simp] theorem atTime_regs (i : Nat) : (s.atTime i).regs = s.regs := rfl
@[simp] theorem atTime_mem (i : Nat) : (s.atTime i).mem = s.mem := rfl
@[simp] theorem atTime_shadows (i : Nat) : (s.atTime i).shadows = s.shadows := rfl
@[simp] theorem atTime_happened (i : Nat) : (s.atTime i).happened = s.happened := rfl
@[simp] theorem atTime_readData (i : Nat) : (s.atTime i).readData = s.readData := rfl
@[simp] theorem atTime_writeBack (i : Nat) : (s.atTime i).writeBack = s.writeBack := rfl
@[simp] theorem atTime_options (i : Nat) : (s.atTime i).options = s.options := rfl
@[simp] theorem atTime_cellar (i : Nat) : (s.atTime i).cellar = s.cellar := rfl
@[simp] theorem atTime_crier (i : Nat) : (s.atTime i).crier = s.crier := rfl
@[simp] theorem atTime_clock (i : Nat) : (s.atTime i).clock = s.clock := rfl
@[simp] theorem atTime_aisle (i : Nat) : (s.atTime i).aisle = s.aisle := rfl
@[simp] theorem atTime_car (i : Nat) : (s.atTime i).car = s.car := rfl
@[simp] theorem atTime_leg (i : Nat) : (s.atTime i).leg = s.leg := rfl
@[simp] theorem atTime_cmp (i : Nat) : (s.atTime i).cmp = s.cmp := rfl
@[simp] theorem atTime_cnv (i : Nat) : (s.atTime i).cnv = s.cnv := rfl
@[simp] theorem atTime_eng (i : Nat) : (s.atTime i).eng = s.eng := rfl
@[simp] theorem atTime_qep (i : Nat) : (s.atTime i).qep = s.qep := rfl
@[simp] theorem atTime_trip (i : Nat) : (s.atTime i).trip = s.trip := rfl
@[simp] theorem atTime_ring (i : Nat) : (s.atTime i).ring = s.ring := rfl
@[simp] theorem atTime_ode (i : Nat) : (s.atTime i).ode = s.ode := rfl
@[simp] theorem atTime_attic (i : Nat) : (s.atTime i).attic = s.attic := rfl
@[simp] theorem atTime_core (i : Nat) : (s.atTime i).core = s.core := rfl
@[simp] theorem atTime_replay (i : Nat) : (s.atTime i).replay = s.replay := rfl
@[simp] theorem atTime_dbg (i : Nat) : (s.atTime i).dbg = s.dbg := rfl
@[simp] theorem atTime_flash (i : Nat) : (s.atTime i).flash = s.flash := rfl
@[simp] theorem atTime_spi (i : Nat) : (s.atTime i).spi = s.spi := rfl
@[simp] theorem atTime_uart (i : Nat) : (s.atTime i).uart = s.uart := rfl
@[simp] theorem atTime_can (i : Nat) : (s.atTime i).can = s.can := rfl
@[simp] theorem atTime_iic (i : Nat) : (s.atTime i).iic = s.iic := rfl

@[simp] theorem takeFree_pending : (s.takeFree.2).pending = s.pending := rfl
@[simp] theorem takeFree_now : (s.takeFree.2).now = s.now := rfl
@[simp] theorem takeFree_warranted : (s.takeFree.2).warranted = s.warranted := rfl
@[simp] theorem takeFree_regs : (s.takeFree.2).regs = s.regs := rfl
@[simp] theorem takeFree_mem : (s.takeFree.2).mem = s.mem := rfl
@[simp] theorem takeFree_shadows : (s.takeFree.2).shadows = s.shadows := rfl
@[simp] theorem takeFree_happened : (s.takeFree.2).happened = s.happened := rfl
@[simp] theorem takeFree_readData : (s.takeFree.2).readData = s.readData := rfl
@[simp] theorem takeFree_writeBack : (s.takeFree.2).writeBack = s.writeBack := rfl
@[simp] theorem takeFree_options : (s.takeFree.2).options = s.options := rfl
@[simp] theorem takeFree_cellar : (s.takeFree.2).cellar = s.cellar := rfl
@[simp] theorem takeFree_crier : (s.takeFree.2).crier = s.crier := rfl
@[simp] theorem takeFree_clock : (s.takeFree.2).clock = s.clock := rfl
@[simp] theorem takeFree_aisle : (s.takeFree.2).aisle = s.aisle := rfl
@[simp] theorem takeFree_car : (s.takeFree.2).car = s.car := rfl
@[simp] theorem takeFree_leg : (s.takeFree.2).leg = s.leg := rfl
@[simp] theorem takeFree_cmp : (s.takeFree.2).cmp = s.cmp := rfl
@[simp] theorem takeFree_cnv : (s.takeFree.2).cnv = s.cnv := rfl
@[simp] theorem takeFree_eng : (s.takeFree.2).eng = s.eng := rfl
@[simp] theorem takeFree_qep : (s.takeFree.2).qep = s.qep := rfl
@[simp] theorem takeFree_trip : (s.takeFree.2).trip = s.trip := rfl
@[simp] theorem takeFree_ring : (s.takeFree.2).ring = s.ring := rfl
@[simp] theorem takeFree_ode : (s.takeFree.2).ode = s.ode := rfl
@[simp] theorem takeFree_attic : (s.takeFree.2).attic = s.attic := rfl
@[simp] theorem takeFree_core : (s.takeFree.2).core = s.core := rfl
@[simp] theorem takeFree_replay : (s.takeFree.2).replay = s.replay := rfl
@[simp] theorem takeFree_dbg : (s.takeFree.2).dbg = s.dbg := rfl
@[simp] theorem takeFree_flash : (s.takeFree.2).flash = s.flash := rfl
@[simp] theorem takeFree_spi : (s.takeFree.2).spi = s.spi := rfl
@[simp] theorem takeFree_uart : (s.takeFree.2).uart = s.uart := rfl
@[simp] theorem takeFree_can : (s.takeFree.2).can = s.can := rfl
@[simp] theorem takeFree_iic : (s.takeFree.2).iic = s.iic := rfl

@[simp] theorem modAisle_pending (a : Nat) (f : Aisle → Aisle) : (s.modAisle a f).pending = s.pending := rfl
@[simp] theorem modAisle_now (a : Nat) (f : Aisle → Aisle) : (s.modAisle a f).now = s.now := rfl
@[simp] theorem modAisle_free (a : Nat) (f : Aisle → Aisle) : (s.modAisle a f).free = s.free := rfl
@[simp] theorem modAisle_warranted (a : Nat) (f : Aisle → Aisle) : (s.modAisle a f).warranted = s.warranted := rfl
@[simp] theorem modAisle_regs (a : Nat) (f : Aisle → Aisle) : (s.modAisle a f).regs = s.regs := rfl
@[simp] theorem modAisle_mem (a : Nat) (f : Aisle → Aisle) : (s.modAisle a f).mem = s.mem := rfl
@[simp] theorem modAisle_shadows (a : Nat) (f : Aisle → Aisle) : (s.modAisle a f).shadows = s.shadows := rfl
@[simp] theorem modAisle_happened (a : Nat) (f : Aisle → Aisle) : (s.modAisle a f).happened = s.happened := rfl
@[simp] theorem modAisle_readData (a : Nat) (f : Aisle → Aisle) : (s.modAisle a f).readData = s.readData := rfl
@[simp] theorem modAisle_writeBack (a : Nat) (f : Aisle → Aisle) : (s.modAisle a f).writeBack = s.writeBack := rfl
@[simp] theorem modAisle_options (a : Nat) (f : Aisle → Aisle) : (s.modAisle a f).options = s.options := rfl
@[simp] theorem modAisle_cellar (a : Nat) (f : Aisle → Aisle) : (s.modAisle a f).cellar = s.cellar := rfl
@[simp] theorem modAisle_crier (a : Nat) (f : Aisle → Aisle) : (s.modAisle a f).crier = s.crier := rfl
@[simp] theorem modAisle_clock (a : Nat) (f : Aisle → Aisle) : (s.modAisle a f).clock = s.clock := rfl
@[simp] theorem modAisle_car (a : Nat) (f : Aisle → Aisle) : (s.modAisle a f).car = s.car := rfl
@[simp] theorem modAisle_leg (a : Nat) (f : Aisle → Aisle) : (s.modAisle a f).leg = s.leg := rfl
@[simp] theorem modAisle_cmp (a : Nat) (f : Aisle → Aisle) : (s.modAisle a f).cmp = s.cmp := rfl
@[simp] theorem modAisle_cnv (a : Nat) (f : Aisle → Aisle) : (s.modAisle a f).cnv = s.cnv := rfl
@[simp] theorem modAisle_eng (a : Nat) (f : Aisle → Aisle) : (s.modAisle a f).eng = s.eng := rfl
@[simp] theorem modAisle_qep (a : Nat) (f : Aisle → Aisle) : (s.modAisle a f).qep = s.qep := rfl
@[simp] theorem modAisle_trip (a : Nat) (f : Aisle → Aisle) : (s.modAisle a f).trip = s.trip := rfl
@[simp] theorem modAisle_ring (a : Nat) (f : Aisle → Aisle) : (s.modAisle a f).ring = s.ring := rfl
@[simp] theorem modAisle_ode (a : Nat) (f : Aisle → Aisle) : (s.modAisle a f).ode = s.ode := rfl
@[simp] theorem modAisle_attic (a : Nat) (f : Aisle → Aisle) : (s.modAisle a f).attic = s.attic := rfl
@[simp] theorem modAisle_core (a : Nat) (f : Aisle → Aisle) : (s.modAisle a f).core = s.core := rfl
@[simp] theorem modAisle_replay (a : Nat) (f : Aisle → Aisle) : (s.modAisle a f).replay = s.replay := rfl
@[simp] theorem modAisle_dbg (a : Nat) (f : Aisle → Aisle) : (s.modAisle a f).dbg = s.dbg := rfl
@[simp] theorem modAisle_flash (a : Nat) (f : Aisle → Aisle) : (s.modAisle a f).flash = s.flash := rfl
@[simp] theorem modAisle_spi (a : Nat) (f : Aisle → Aisle) : (s.modAisle a f).spi = s.spi := rfl
@[simp] theorem modAisle_uart (a : Nat) (f : Aisle → Aisle) : (s.modAisle a f).uart = s.uart := rfl
@[simp] theorem modAisle_can (a : Nat) (f : Aisle → Aisle) : (s.modAisle a f).can = s.can := rfl
@[simp] theorem modAisle_iic (a : Nat) (f : Aisle → Aisle) : (s.modAisle a f).iic = s.iic := rfl

@[simp] theorem modCar_pending (g : Nat) (f : Carrier → Carrier) : (s.modCar g f).pending = s.pending := rfl
@[simp] theorem modCar_now (g : Nat) (f : Carrier → Carrier) : (s.modCar g f).now = s.now := rfl
@[simp] theorem modCar_free (g : Nat) (f : Carrier → Carrier) : (s.modCar g f).free = s.free := rfl
@[simp] theorem modCar_warranted (g : Nat) (f : Carrier → Carrier) : (s.modCar g f).warranted = s.warranted := rfl
@[simp] theorem modCar_regs (g : Nat) (f : Carrier → Carrier) : (s.modCar g f).regs = s.regs := rfl
@[simp] theorem modCar_mem (g : Nat) (f : Carrier → Carrier) : (s.modCar g f).mem = s.mem := rfl
@[simp] theorem modCar_shadows (g : Nat) (f : Carrier → Carrier) : (s.modCar g f).shadows = s.shadows := rfl
@[simp] theorem modCar_happened (g : Nat) (f : Carrier → Carrier) : (s.modCar g f).happened = s.happened := rfl
@[simp] theorem modCar_readData (g : Nat) (f : Carrier → Carrier) : (s.modCar g f).readData = s.readData := rfl
@[simp] theorem modCar_writeBack (g : Nat) (f : Carrier → Carrier) : (s.modCar g f).writeBack = s.writeBack := rfl
@[simp] theorem modCar_options (g : Nat) (f : Carrier → Carrier) : (s.modCar g f).options = s.options := rfl
@[simp] theorem modCar_cellar (g : Nat) (f : Carrier → Carrier) : (s.modCar g f).cellar = s.cellar := rfl
@[simp] theorem modCar_crier (g : Nat) (f : Carrier → Carrier) : (s.modCar g f).crier = s.crier := rfl
@[simp] theorem modCar_clock (g : Nat) (f : Carrier → Carrier) : (s.modCar g f).clock = s.clock := rfl
@[simp] theorem modCar_aisle (g : Nat) (f : Carrier → Carrier) : (s.modCar g f).aisle = s.aisle := rfl
@[simp] theorem modCar_leg (g : Nat) (f : Carrier → Carrier) : (s.modCar g f).leg = s.leg := rfl
@[simp] theorem modCar_cmp (g : Nat) (f : Carrier → Carrier) : (s.modCar g f).cmp = s.cmp := rfl
@[simp] theorem modCar_cnv (g : Nat) (f : Carrier → Carrier) : (s.modCar g f).cnv = s.cnv := rfl
@[simp] theorem modCar_eng (g : Nat) (f : Carrier → Carrier) : (s.modCar g f).eng = s.eng := rfl
@[simp] theorem modCar_qep (g : Nat) (f : Carrier → Carrier) : (s.modCar g f).qep = s.qep := rfl
@[simp] theorem modCar_trip (g : Nat) (f : Carrier → Carrier) : (s.modCar g f).trip = s.trip := rfl
@[simp] theorem modCar_ring (g : Nat) (f : Carrier → Carrier) : (s.modCar g f).ring = s.ring := rfl
@[simp] theorem modCar_ode (g : Nat) (f : Carrier → Carrier) : (s.modCar g f).ode = s.ode := rfl
@[simp] theorem modCar_attic (g : Nat) (f : Carrier → Carrier) : (s.modCar g f).attic = s.attic := rfl
@[simp] theorem modCar_core (g : Nat) (f : Carrier → Carrier) : (s.modCar g f).core = s.core := rfl
@[simp] theorem modCar_replay (g : Nat) (f : Carrier → Carrier) : (s.modCar g f).replay = s.replay := rfl
@[simp] theorem modCar_dbg (g : Nat) (f : Carrier → Carrier) : (s.modCar g f).dbg = s.dbg := rfl
@[simp] theorem modCar_flash (g : Nat) (f : Carrier → Carrier) : (s.modCar g f).flash = s.flash := rfl
@[simp] theorem modCar_spi (g : Nat) (f : Carrier → Carrier) : (s.modCar g f).spi = s.spi := rfl
@[simp] theorem modCar_uart (g : Nat) (f : Carrier → Carrier) : (s.modCar g f).uart = s.uart := rfl
@[simp] theorem modCar_can (g : Nat) (f : Carrier → Carrier) : (s.modCar g f).can = s.can := rfl
@[simp] theorem modCar_iic (g : Nat) (f : Carrier → Carrier) : (s.modCar g f).iic = s.iic := rfl

@[simp] theorem modLeg_pending (l : Nat) (f : Leg → Leg) : (s.modLeg l f).pending = s.pending := rfl
@[simp] theorem modLeg_now (l : Nat) (f : Leg → Leg) : (s.modLeg l f).now = s.now := rfl
@[simp] theorem modLeg_free (l : Nat) (f : Leg → Leg) : (s.modLeg l f).free = s.free := rfl
@[simp] theorem modLeg_warranted (l : Nat) (f : Leg → Leg) : (s.modLeg l f).warranted = s.warranted := rfl
@[simp] theorem modLeg_regs (l : Nat) (f : Leg → Leg) : (s.modLeg l f).regs = s.regs := rfl
@[simp] theorem modLeg_mem (l : Nat) (f : Leg → Leg) : (s.modLeg l f).mem = s.mem := rfl
@[simp] theorem modLeg_shadows (l : Nat) (f : Leg → Leg) : (s.modLeg l f).shadows = s.shadows := rfl
@[simp] theorem modLeg_happened (l : Nat) (f : Leg → Leg) : (s.modLeg l f).happened = s.happened := rfl
@[simp] theorem modLeg_readData (l : Nat) (f : Leg → Leg) : (s.modLeg l f).readData = s.readData := rfl
@[simp] theorem modLeg_writeBack (l : Nat) (f : Leg → Leg) : (s.modLeg l f).writeBack = s.writeBack := rfl
@[simp] theorem modLeg_options (l : Nat) (f : Leg → Leg) : (s.modLeg l f).options = s.options := rfl
@[simp] theorem modLeg_cellar (l : Nat) (f : Leg → Leg) : (s.modLeg l f).cellar = s.cellar := rfl
@[simp] theorem modLeg_crier (l : Nat) (f : Leg → Leg) : (s.modLeg l f).crier = s.crier := rfl
@[simp] theorem modLeg_clock (l : Nat) (f : Leg → Leg) : (s.modLeg l f).clock = s.clock := rfl
@[simp] theorem modLeg_aisle (l : Nat) (f : Leg → Leg) : (s.modLeg l f).aisle = s.aisle := rfl
@[simp] theorem modLeg_car (l : Nat) (f : Leg → Leg) : (s.modLeg l f).car = s.car := rfl
@[simp] theorem modLeg_cmp (l : Nat) (f : Leg → Leg) : (s.modLeg l f).cmp = s.cmp := rfl
@[simp] theorem modLeg_cnv (l : Nat) (f : Leg → Leg) : (s.modLeg l f).cnv = s.cnv := rfl
@[simp] theorem modLeg_eng (l : Nat) (f : Leg → Leg) : (s.modLeg l f).eng = s.eng := rfl
@[simp] theorem modLeg_qep (l : Nat) (f : Leg → Leg) : (s.modLeg l f).qep = s.qep := rfl
@[simp] theorem modLeg_trip (l : Nat) (f : Leg → Leg) : (s.modLeg l f).trip = s.trip := rfl
@[simp] theorem modLeg_ring (l : Nat) (f : Leg → Leg) : (s.modLeg l f).ring = s.ring := rfl
@[simp] theorem modLeg_ode (l : Nat) (f : Leg → Leg) : (s.modLeg l f).ode = s.ode := rfl
@[simp] theorem modLeg_attic (l : Nat) (f : Leg → Leg) : (s.modLeg l f).attic = s.attic := rfl
@[simp] theorem modLeg_core (l : Nat) (f : Leg → Leg) : (s.modLeg l f).core = s.core := rfl
@[simp] theorem modLeg_replay (l : Nat) (f : Leg → Leg) : (s.modLeg l f).replay = s.replay := rfl
@[simp] theorem modLeg_dbg (l : Nat) (f : Leg → Leg) : (s.modLeg l f).dbg = s.dbg := rfl
@[simp] theorem modLeg_flash (l : Nat) (f : Leg → Leg) : (s.modLeg l f).flash = s.flash := rfl
@[simp] theorem modLeg_spi (l : Nat) (f : Leg → Leg) : (s.modLeg l f).spi = s.spi := rfl
@[simp] theorem modLeg_uart (l : Nat) (f : Leg → Leg) : (s.modLeg l f).uart = s.uart := rfl
@[simp] theorem modLeg_can (l : Nat) (f : Leg → Leg) : (s.modLeg l f).can = s.can := rfl
@[simp] theorem modLeg_iic (l : Nat) (f : Leg → Leg) : (s.modLeg l f).iic = s.iic := rfl

@[simp] theorem modCmp_pending (c : Nat) (f : Comparator → Comparator) : (s.modCmp c f).pending = s.pending := rfl
@[simp] theorem modCmp_now (c : Nat) (f : Comparator → Comparator) : (s.modCmp c f).now = s.now := rfl
@[simp] theorem modCmp_free (c : Nat) (f : Comparator → Comparator) : (s.modCmp c f).free = s.free := rfl
@[simp] theorem modCmp_warranted (c : Nat) (f : Comparator → Comparator) : (s.modCmp c f).warranted = s.warranted := rfl
@[simp] theorem modCmp_regs (c : Nat) (f : Comparator → Comparator) : (s.modCmp c f).regs = s.regs := rfl
@[simp] theorem modCmp_mem (c : Nat) (f : Comparator → Comparator) : (s.modCmp c f).mem = s.mem := rfl
@[simp] theorem modCmp_shadows (c : Nat) (f : Comparator → Comparator) : (s.modCmp c f).shadows = s.shadows := rfl
@[simp] theorem modCmp_happened (c : Nat) (f : Comparator → Comparator) : (s.modCmp c f).happened = s.happened := rfl
@[simp] theorem modCmp_readData (c : Nat) (f : Comparator → Comparator) : (s.modCmp c f).readData = s.readData := rfl
@[simp] theorem modCmp_writeBack (c : Nat) (f : Comparator → Comparator) : (s.modCmp c f).writeBack = s.writeBack := rfl
@[simp] theorem modCmp_options (c : Nat) (f : Comparator → Comparator) : (s.modCmp c f).options = s.options := rfl
@[simp] theorem modCmp_cellar (c : Nat) (f : Comparator → Comparator) : (s.modCmp c f).cellar = s.cellar := rfl
@[simp] theorem modCmp_crier (c : Nat) (f : Comparator → Comparator) : (s.modCmp c f).crier = s.crier := rfl
@[simp] theorem modCmp_clock (c : Nat) (f : Comparator → Comparator) : (s.modCmp c f).clock = s.clock := rfl
@[simp] theorem modCmp_aisle (c : Nat) (f : Comparator → Comparator) : (s.modCmp c f).aisle = s.aisle := rfl
@[simp] theorem modCmp_car (c : Nat) (f : Comparator → Comparator) : (s.modCmp c f).car = s.car := rfl
@[simp] theorem modCmp_leg (c : Nat) (f : Comparator → Comparator) : (s.modCmp c f).leg = s.leg := rfl
@[simp] theorem modCmp_cnv (c : Nat) (f : Comparator → Comparator) : (s.modCmp c f).cnv = s.cnv := rfl
@[simp] theorem modCmp_eng (c : Nat) (f : Comparator → Comparator) : (s.modCmp c f).eng = s.eng := rfl
@[simp] theorem modCmp_qep (c : Nat) (f : Comparator → Comparator) : (s.modCmp c f).qep = s.qep := rfl
@[simp] theorem modCmp_trip (c : Nat) (f : Comparator → Comparator) : (s.modCmp c f).trip = s.trip := rfl
@[simp] theorem modCmp_ring (c : Nat) (f : Comparator → Comparator) : (s.modCmp c f).ring = s.ring := rfl
@[simp] theorem modCmp_ode (c : Nat) (f : Comparator → Comparator) : (s.modCmp c f).ode = s.ode := rfl
@[simp] theorem modCmp_attic (c : Nat) (f : Comparator → Comparator) : (s.modCmp c f).attic = s.attic := rfl
@[simp] theorem modCmp_core (c : Nat) (f : Comparator → Comparator) : (s.modCmp c f).core = s.core := rfl
@[simp] theorem modCmp_replay (c : Nat) (f : Comparator → Comparator) : (s.modCmp c f).replay = s.replay := rfl
@[simp] theorem modCmp_dbg (c : Nat) (f : Comparator → Comparator) : (s.modCmp c f).dbg = s.dbg := rfl
@[simp] theorem modCmp_flash (c : Nat) (f : Comparator → Comparator) : (s.modCmp c f).flash = s.flash := rfl
@[simp] theorem modCmp_spi (c : Nat) (f : Comparator → Comparator) : (s.modCmp c f).spi = s.spi := rfl
@[simp] theorem modCmp_uart (c : Nat) (f : Comparator → Comparator) : (s.modCmp c f).uart = s.uart := rfl
@[simp] theorem modCmp_can (c : Nat) (f : Comparator → Comparator) : (s.modCmp c f).can = s.can := rfl
@[simp] theorem modCmp_iic (c : Nat) (f : Comparator → Comparator) : (s.modCmp c f).iic = s.iic := rfl

@[simp] theorem modCnv_pending (k : Nat) (f : Converter → Converter) : (s.modCnv k f).pending = s.pending := rfl
@[simp] theorem modCnv_now (k : Nat) (f : Converter → Converter) : (s.modCnv k f).now = s.now := rfl
@[simp] theorem modCnv_free (k : Nat) (f : Converter → Converter) : (s.modCnv k f).free = s.free := rfl
@[simp] theorem modCnv_warranted (k : Nat) (f : Converter → Converter) : (s.modCnv k f).warranted = s.warranted := rfl
@[simp] theorem modCnv_regs (k : Nat) (f : Converter → Converter) : (s.modCnv k f).regs = s.regs := rfl
@[simp] theorem modCnv_mem (k : Nat) (f : Converter → Converter) : (s.modCnv k f).mem = s.mem := rfl
@[simp] theorem modCnv_shadows (k : Nat) (f : Converter → Converter) : (s.modCnv k f).shadows = s.shadows := rfl
@[simp] theorem modCnv_happened (k : Nat) (f : Converter → Converter) : (s.modCnv k f).happened = s.happened := rfl
@[simp] theorem modCnv_readData (k : Nat) (f : Converter → Converter) : (s.modCnv k f).readData = s.readData := rfl
@[simp] theorem modCnv_writeBack (k : Nat) (f : Converter → Converter) : (s.modCnv k f).writeBack = s.writeBack := rfl
@[simp] theorem modCnv_options (k : Nat) (f : Converter → Converter) : (s.modCnv k f).options = s.options := rfl
@[simp] theorem modCnv_cellar (k : Nat) (f : Converter → Converter) : (s.modCnv k f).cellar = s.cellar := rfl
@[simp] theorem modCnv_crier (k : Nat) (f : Converter → Converter) : (s.modCnv k f).crier = s.crier := rfl
@[simp] theorem modCnv_clock (k : Nat) (f : Converter → Converter) : (s.modCnv k f).clock = s.clock := rfl
@[simp] theorem modCnv_aisle (k : Nat) (f : Converter → Converter) : (s.modCnv k f).aisle = s.aisle := rfl
@[simp] theorem modCnv_car (k : Nat) (f : Converter → Converter) : (s.modCnv k f).car = s.car := rfl
@[simp] theorem modCnv_leg (k : Nat) (f : Converter → Converter) : (s.modCnv k f).leg = s.leg := rfl
@[simp] theorem modCnv_cmp (k : Nat) (f : Converter → Converter) : (s.modCnv k f).cmp = s.cmp := rfl
@[simp] theorem modCnv_eng (k : Nat) (f : Converter → Converter) : (s.modCnv k f).eng = s.eng := rfl
@[simp] theorem modCnv_qep (k : Nat) (f : Converter → Converter) : (s.modCnv k f).qep = s.qep := rfl
@[simp] theorem modCnv_trip (k : Nat) (f : Converter → Converter) : (s.modCnv k f).trip = s.trip := rfl
@[simp] theorem modCnv_ring (k : Nat) (f : Converter → Converter) : (s.modCnv k f).ring = s.ring := rfl
@[simp] theorem modCnv_ode (k : Nat) (f : Converter → Converter) : (s.modCnv k f).ode = s.ode := rfl
@[simp] theorem modCnv_attic (k : Nat) (f : Converter → Converter) : (s.modCnv k f).attic = s.attic := rfl
@[simp] theorem modCnv_core (k : Nat) (f : Converter → Converter) : (s.modCnv k f).core = s.core := rfl
@[simp] theorem modCnv_replay (k : Nat) (f : Converter → Converter) : (s.modCnv k f).replay = s.replay := rfl
@[simp] theorem modCnv_dbg (k : Nat) (f : Converter → Converter) : (s.modCnv k f).dbg = s.dbg := rfl
@[simp] theorem modCnv_flash (k : Nat) (f : Converter → Converter) : (s.modCnv k f).flash = s.flash := rfl
@[simp] theorem modCnv_spi (k : Nat) (f : Converter → Converter) : (s.modCnv k f).spi = s.spi := rfl
@[simp] theorem modCnv_uart (k : Nat) (f : Converter → Converter) : (s.modCnv k f).uart = s.uart := rfl
@[simp] theorem modCnv_can (k : Nat) (f : Converter → Converter) : (s.modCnv k f).can = s.can := rfl
@[simp] theorem modCnv_iic (k : Nat) (f : Converter → Converter) : (s.modCnv k f).iic = s.iic := rfl

@[simp] theorem modEng_pending (e : Nat) (f : Engine → Engine) : (s.modEng e f).pending = s.pending := rfl
@[simp] theorem modEng_now (e : Nat) (f : Engine → Engine) : (s.modEng e f).now = s.now := rfl
@[simp] theorem modEng_free (e : Nat) (f : Engine → Engine) : (s.modEng e f).free = s.free := rfl
@[simp] theorem modEng_warranted (e : Nat) (f : Engine → Engine) : (s.modEng e f).warranted = s.warranted := rfl
@[simp] theorem modEng_regs (e : Nat) (f : Engine → Engine) : (s.modEng e f).regs = s.regs := rfl
@[simp] theorem modEng_mem (e : Nat) (f : Engine → Engine) : (s.modEng e f).mem = s.mem := rfl
@[simp] theorem modEng_shadows (e : Nat) (f : Engine → Engine) : (s.modEng e f).shadows = s.shadows := rfl
@[simp] theorem modEng_happened (e : Nat) (f : Engine → Engine) : (s.modEng e f).happened = s.happened := rfl
@[simp] theorem modEng_readData (e : Nat) (f : Engine → Engine) : (s.modEng e f).readData = s.readData := rfl
@[simp] theorem modEng_writeBack (e : Nat) (f : Engine → Engine) : (s.modEng e f).writeBack = s.writeBack := rfl
@[simp] theorem modEng_options (e : Nat) (f : Engine → Engine) : (s.modEng e f).options = s.options := rfl
@[simp] theorem modEng_cellar (e : Nat) (f : Engine → Engine) : (s.modEng e f).cellar = s.cellar := rfl
@[simp] theorem modEng_crier (e : Nat) (f : Engine → Engine) : (s.modEng e f).crier = s.crier := rfl
@[simp] theorem modEng_clock (e : Nat) (f : Engine → Engine) : (s.modEng e f).clock = s.clock := rfl
@[simp] theorem modEng_aisle (e : Nat) (f : Engine → Engine) : (s.modEng e f).aisle = s.aisle := rfl
@[simp] theorem modEng_car (e : Nat) (f : Engine → Engine) : (s.modEng e f).car = s.car := rfl
@[simp] theorem modEng_leg (e : Nat) (f : Engine → Engine) : (s.modEng e f).leg = s.leg := rfl
@[simp] theorem modEng_cmp (e : Nat) (f : Engine → Engine) : (s.modEng e f).cmp = s.cmp := rfl
@[simp] theorem modEng_cnv (e : Nat) (f : Engine → Engine) : (s.modEng e f).cnv = s.cnv := rfl
@[simp] theorem modEng_qep (e : Nat) (f : Engine → Engine) : (s.modEng e f).qep = s.qep := rfl
@[simp] theorem modEng_trip (e : Nat) (f : Engine → Engine) : (s.modEng e f).trip = s.trip := rfl
@[simp] theorem modEng_ring (e : Nat) (f : Engine → Engine) : (s.modEng e f).ring = s.ring := rfl
@[simp] theorem modEng_ode (e : Nat) (f : Engine → Engine) : (s.modEng e f).ode = s.ode := rfl
@[simp] theorem modEng_attic (e : Nat) (f : Engine → Engine) : (s.modEng e f).attic = s.attic := rfl
@[simp] theorem modEng_core (e : Nat) (f : Engine → Engine) : (s.modEng e f).core = s.core := rfl
@[simp] theorem modEng_replay (e : Nat) (f : Engine → Engine) : (s.modEng e f).replay = s.replay := rfl
@[simp] theorem modEng_dbg (e : Nat) (f : Engine → Engine) : (s.modEng e f).dbg = s.dbg := rfl
@[simp] theorem modEng_flash (e : Nat) (f : Engine → Engine) : (s.modEng e f).flash = s.flash := rfl
@[simp] theorem modEng_spi (e : Nat) (f : Engine → Engine) : (s.modEng e f).spi = s.spi := rfl
@[simp] theorem modEng_uart (e : Nat) (f : Engine → Engine) : (s.modEng e f).uart = s.uart := rfl
@[simp] theorem modEng_can (e : Nat) (f : Engine → Engine) : (s.modEng e f).can = s.can := rfl
@[simp] theorem modEng_iic (e : Nat) (f : Engine → Engine) : (s.modEng e f).iic = s.iic := rfl

@[simp] theorem modRing_pending (f : Ring → Ring) : (s.modRing f).pending = s.pending := rfl
@[simp] theorem modRing_now (f : Ring → Ring) : (s.modRing f).now = s.now := rfl
@[simp] theorem modRing_free (f : Ring → Ring) : (s.modRing f).free = s.free := rfl
@[simp] theorem modRing_warranted (f : Ring → Ring) : (s.modRing f).warranted = s.warranted := rfl
@[simp] theorem modRing_regs (f : Ring → Ring) : (s.modRing f).regs = s.regs := rfl
@[simp] theorem modRing_mem (f : Ring → Ring) : (s.modRing f).mem = s.mem := rfl
@[simp] theorem modRing_shadows (f : Ring → Ring) : (s.modRing f).shadows = s.shadows := rfl
@[simp] theorem modRing_happened (f : Ring → Ring) : (s.modRing f).happened = s.happened := rfl
@[simp] theorem modRing_readData (f : Ring → Ring) : (s.modRing f).readData = s.readData := rfl
@[simp] theorem modRing_writeBack (f : Ring → Ring) : (s.modRing f).writeBack = s.writeBack := rfl
@[simp] theorem modRing_options (f : Ring → Ring) : (s.modRing f).options = s.options := rfl
@[simp] theorem modRing_cellar (f : Ring → Ring) : (s.modRing f).cellar = s.cellar := rfl
@[simp] theorem modRing_crier (f : Ring → Ring) : (s.modRing f).crier = s.crier := rfl
@[simp] theorem modRing_clock (f : Ring → Ring) : (s.modRing f).clock = s.clock := rfl
@[simp] theorem modRing_aisle (f : Ring → Ring) : (s.modRing f).aisle = s.aisle := rfl
@[simp] theorem modRing_car (f : Ring → Ring) : (s.modRing f).car = s.car := rfl
@[simp] theorem modRing_leg (f : Ring → Ring) : (s.modRing f).leg = s.leg := rfl
@[simp] theorem modRing_cmp (f : Ring → Ring) : (s.modRing f).cmp = s.cmp := rfl
@[simp] theorem modRing_cnv (f : Ring → Ring) : (s.modRing f).cnv = s.cnv := rfl
@[simp] theorem modRing_eng (f : Ring → Ring) : (s.modRing f).eng = s.eng := rfl
@[simp] theorem modRing_qep (f : Ring → Ring) : (s.modRing f).qep = s.qep := rfl
@[simp] theorem modRing_trip (f : Ring → Ring) : (s.modRing f).trip = s.trip := rfl
@[simp] theorem modRing_ode (f : Ring → Ring) : (s.modRing f).ode = s.ode := rfl
@[simp] theorem modRing_attic (f : Ring → Ring) : (s.modRing f).attic = s.attic := rfl
@[simp] theorem modRing_core (f : Ring → Ring) : (s.modRing f).core = s.core := rfl
@[simp] theorem modRing_replay (f : Ring → Ring) : (s.modRing f).replay = s.replay := rfl
@[simp] theorem modRing_dbg (f : Ring → Ring) : (s.modRing f).dbg = s.dbg := rfl
@[simp] theorem modRing_flash (f : Ring → Ring) : (s.modRing f).flash = s.flash := rfl
@[simp] theorem modRing_spi (f : Ring → Ring) : (s.modRing f).spi = s.spi := rfl
@[simp] theorem modRing_uart (f : Ring → Ring) : (s.modRing f).uart = s.uart := rfl
@[simp] theorem modRing_can (f : Ring → Ring) : (s.modRing f).can = s.can := rfl
@[simp] theorem modRing_iic (f : Ring → Ring) : (s.modRing f).iic = s.iic := rfl

@[simp] theorem modAttic_pending (f : Attic → Attic) : (s.modAttic f).pending = s.pending := rfl
@[simp] theorem modAttic_now (f : Attic → Attic) : (s.modAttic f).now = s.now := rfl
@[simp] theorem modAttic_free (f : Attic → Attic) : (s.modAttic f).free = s.free := rfl
@[simp] theorem modAttic_warranted (f : Attic → Attic) : (s.modAttic f).warranted = s.warranted := rfl
@[simp] theorem modAttic_regs (f : Attic → Attic) : (s.modAttic f).regs = s.regs := rfl
@[simp] theorem modAttic_mem (f : Attic → Attic) : (s.modAttic f).mem = s.mem := rfl
@[simp] theorem modAttic_shadows (f : Attic → Attic) : (s.modAttic f).shadows = s.shadows := rfl
@[simp] theorem modAttic_happened (f : Attic → Attic) : (s.modAttic f).happened = s.happened := rfl
@[simp] theorem modAttic_readData (f : Attic → Attic) : (s.modAttic f).readData = s.readData := rfl
@[simp] theorem modAttic_writeBack (f : Attic → Attic) : (s.modAttic f).writeBack = s.writeBack := rfl
@[simp] theorem modAttic_options (f : Attic → Attic) : (s.modAttic f).options = s.options := rfl
@[simp] theorem modAttic_cellar (f : Attic → Attic) : (s.modAttic f).cellar = s.cellar := rfl
@[simp] theorem modAttic_crier (f : Attic → Attic) : (s.modAttic f).crier = s.crier := rfl
@[simp] theorem modAttic_clock (f : Attic → Attic) : (s.modAttic f).clock = s.clock := rfl
@[simp] theorem modAttic_aisle (f : Attic → Attic) : (s.modAttic f).aisle = s.aisle := rfl
@[simp] theorem modAttic_car (f : Attic → Attic) : (s.modAttic f).car = s.car := rfl
@[simp] theorem modAttic_leg (f : Attic → Attic) : (s.modAttic f).leg = s.leg := rfl
@[simp] theorem modAttic_cmp (f : Attic → Attic) : (s.modAttic f).cmp = s.cmp := rfl
@[simp] theorem modAttic_cnv (f : Attic → Attic) : (s.modAttic f).cnv = s.cnv := rfl
@[simp] theorem modAttic_eng (f : Attic → Attic) : (s.modAttic f).eng = s.eng := rfl
@[simp] theorem modAttic_qep (f : Attic → Attic) : (s.modAttic f).qep = s.qep := rfl
@[simp] theorem modAttic_trip (f : Attic → Attic) : (s.modAttic f).trip = s.trip := rfl
@[simp] theorem modAttic_ring (f : Attic → Attic) : (s.modAttic f).ring = s.ring := rfl
@[simp] theorem modAttic_ode (f : Attic → Attic) : (s.modAttic f).ode = s.ode := rfl
@[simp] theorem modAttic_core (f : Attic → Attic) : (s.modAttic f).core = s.core := rfl
@[simp] theorem modAttic_replay (f : Attic → Attic) : (s.modAttic f).replay = s.replay := rfl
@[simp] theorem modAttic_dbg (f : Attic → Attic) : (s.modAttic f).dbg = s.dbg := rfl
@[simp] theorem modAttic_flash (f : Attic → Attic) : (s.modAttic f).flash = s.flash := rfl
@[simp] theorem modAttic_spi (f : Attic → Attic) : (s.modAttic f).spi = s.spi := rfl
@[simp] theorem modAttic_uart (f : Attic → Attic) : (s.modAttic f).uart = s.uart := rfl
@[simp] theorem modAttic_can (f : Attic → Attic) : (s.modAttic f).can = s.can := rfl
@[simp] theorem modAttic_iic (f : Attic → Attic) : (s.modAttic f).iic = s.iic := rfl

@[simp] theorem modOde_pending (f : Ode → Ode) : (s.modOde f).pending = s.pending := rfl
@[simp] theorem modOde_now (f : Ode → Ode) : (s.modOde f).now = s.now := rfl
@[simp] theorem modOde_free (f : Ode → Ode) : (s.modOde f).free = s.free := rfl
@[simp] theorem modOde_warranted (f : Ode → Ode) : (s.modOde f).warranted = s.warranted := rfl
@[simp] theorem modOde_regs (f : Ode → Ode) : (s.modOde f).regs = s.regs := rfl
@[simp] theorem modOde_mem (f : Ode → Ode) : (s.modOde f).mem = s.mem := rfl
@[simp] theorem modOde_shadows (f : Ode → Ode) : (s.modOde f).shadows = s.shadows := rfl
@[simp] theorem modOde_happened (f : Ode → Ode) : (s.modOde f).happened = s.happened := rfl
@[simp] theorem modOde_readData (f : Ode → Ode) : (s.modOde f).readData = s.readData := rfl
@[simp] theorem modOde_writeBack (f : Ode → Ode) : (s.modOde f).writeBack = s.writeBack := rfl
@[simp] theorem modOde_options (f : Ode → Ode) : (s.modOde f).options = s.options := rfl
@[simp] theorem modOde_cellar (f : Ode → Ode) : (s.modOde f).cellar = s.cellar := rfl
@[simp] theorem modOde_crier (f : Ode → Ode) : (s.modOde f).crier = s.crier := rfl
@[simp] theorem modOde_clock (f : Ode → Ode) : (s.modOde f).clock = s.clock := rfl
@[simp] theorem modOde_aisle (f : Ode → Ode) : (s.modOde f).aisle = s.aisle := rfl
@[simp] theorem modOde_car (f : Ode → Ode) : (s.modOde f).car = s.car := rfl
@[simp] theorem modOde_leg (f : Ode → Ode) : (s.modOde f).leg = s.leg := rfl
@[simp] theorem modOde_cmp (f : Ode → Ode) : (s.modOde f).cmp = s.cmp := rfl
@[simp] theorem modOde_cnv (f : Ode → Ode) : (s.modOde f).cnv = s.cnv := rfl
@[simp] theorem modOde_eng (f : Ode → Ode) : (s.modOde f).eng = s.eng := rfl
@[simp] theorem modOde_qep (f : Ode → Ode) : (s.modOde f).qep = s.qep := rfl
@[simp] theorem modOde_trip (f : Ode → Ode) : (s.modOde f).trip = s.trip := rfl
@[simp] theorem modOde_ring (f : Ode → Ode) : (s.modOde f).ring = s.ring := rfl
@[simp] theorem modOde_attic (f : Ode → Ode) : (s.modOde f).attic = s.attic := rfl
@[simp] theorem modOde_core (f : Ode → Ode) : (s.modOde f).core = s.core := rfl
@[simp] theorem modOde_replay (f : Ode → Ode) : (s.modOde f).replay = s.replay := rfl
@[simp] theorem modOde_dbg (f : Ode → Ode) : (s.modOde f).dbg = s.dbg := rfl
@[simp] theorem modOde_flash (f : Ode → Ode) : (s.modOde f).flash = s.flash := rfl
@[simp] theorem modOde_spi (f : Ode → Ode) : (s.modOde f).spi = s.spi := rfl
@[simp] theorem modOde_uart (f : Ode → Ode) : (s.modOde f).uart = s.uart := rfl
@[simp] theorem modOde_can (f : Ode → Ode) : (s.modOde f).can = s.can := rfl
@[simp] theorem modOde_iic (f : Ode → Ode) : (s.modOde f).iic = s.iic := rfl

@[simp] theorem modFlash_pending (f : Flash → Flash) : (s.modFlash f).pending = s.pending := rfl
@[simp] theorem modFlash_now (f : Flash → Flash) : (s.modFlash f).now = s.now := rfl
@[simp] theorem modFlash_free (f : Flash → Flash) : (s.modFlash f).free = s.free := rfl
@[simp] theorem modFlash_warranted (f : Flash → Flash) : (s.modFlash f).warranted = s.warranted := rfl
@[simp] theorem modFlash_regs (f : Flash → Flash) : (s.modFlash f).regs = s.regs := rfl
@[simp] theorem modFlash_mem (f : Flash → Flash) : (s.modFlash f).mem = s.mem := rfl
@[simp] theorem modFlash_shadows (f : Flash → Flash) : (s.modFlash f).shadows = s.shadows := rfl
@[simp] theorem modFlash_happened (f : Flash → Flash) : (s.modFlash f).happened = s.happened := rfl
@[simp] theorem modFlash_readData (f : Flash → Flash) : (s.modFlash f).readData = s.readData := rfl
@[simp] theorem modFlash_writeBack (f : Flash → Flash) : (s.modFlash f).writeBack = s.writeBack := rfl
@[simp] theorem modFlash_options (f : Flash → Flash) : (s.modFlash f).options = s.options := rfl
@[simp] theorem modFlash_cellar (f : Flash → Flash) : (s.modFlash f).cellar = s.cellar := rfl
@[simp] theorem modFlash_crier (f : Flash → Flash) : (s.modFlash f).crier = s.crier := rfl
@[simp] theorem modFlash_clock (f : Flash → Flash) : (s.modFlash f).clock = s.clock := rfl
@[simp] theorem modFlash_aisle (f : Flash → Flash) : (s.modFlash f).aisle = s.aisle := rfl
@[simp] theorem modFlash_car (f : Flash → Flash) : (s.modFlash f).car = s.car := rfl
@[simp] theorem modFlash_leg (f : Flash → Flash) : (s.modFlash f).leg = s.leg := rfl
@[simp] theorem modFlash_cmp (f : Flash → Flash) : (s.modFlash f).cmp = s.cmp := rfl
@[simp] theorem modFlash_cnv (f : Flash → Flash) : (s.modFlash f).cnv = s.cnv := rfl
@[simp] theorem modFlash_eng (f : Flash → Flash) : (s.modFlash f).eng = s.eng := rfl
@[simp] theorem modFlash_qep (f : Flash → Flash) : (s.modFlash f).qep = s.qep := rfl
@[simp] theorem modFlash_trip (f : Flash → Flash) : (s.modFlash f).trip = s.trip := rfl
@[simp] theorem modFlash_ring (f : Flash → Flash) : (s.modFlash f).ring = s.ring := rfl
@[simp] theorem modFlash_ode (f : Flash → Flash) : (s.modFlash f).ode = s.ode := rfl
@[simp] theorem modFlash_attic (f : Flash → Flash) : (s.modFlash f).attic = s.attic := rfl
@[simp] theorem modFlash_core (f : Flash → Flash) : (s.modFlash f).core = s.core := rfl
@[simp] theorem modFlash_replay (f : Flash → Flash) : (s.modFlash f).replay = s.replay := rfl
@[simp] theorem modFlash_dbg (f : Flash → Flash) : (s.modFlash f).dbg = s.dbg := rfl
@[simp] theorem modFlash_spi (f : Flash → Flash) : (s.modFlash f).spi = s.spi := rfl
@[simp] theorem modFlash_uart (f : Flash → Flash) : (s.modFlash f).uart = s.uart := rfl
@[simp] theorem modFlash_can (f : Flash → Flash) : (s.modFlash f).can = s.can := rfl
@[simp] theorem modFlash_iic (f : Flash → Flash) : (s.modFlash f).iic = s.iic := rfl

@[simp] theorem modCore_pending (c : Nat) (f : Core → Core) : (s.modCore c f).pending = s.pending := rfl
@[simp] theorem modCore_now (c : Nat) (f : Core → Core) : (s.modCore c f).now = s.now := rfl
@[simp] theorem modCore_free (c : Nat) (f : Core → Core) : (s.modCore c f).free = s.free := rfl
@[simp] theorem modCore_warranted (c : Nat) (f : Core → Core) : (s.modCore c f).warranted = s.warranted := rfl
@[simp] theorem modCore_regs (c : Nat) (f : Core → Core) : (s.modCore c f).regs = s.regs := rfl
@[simp] theorem modCore_mem (c : Nat) (f : Core → Core) : (s.modCore c f).mem = s.mem := rfl
@[simp] theorem modCore_shadows (c : Nat) (f : Core → Core) : (s.modCore c f).shadows = s.shadows := rfl
@[simp] theorem modCore_happened (c : Nat) (f : Core → Core) : (s.modCore c f).happened = s.happened := rfl
@[simp] theorem modCore_readData (c : Nat) (f : Core → Core) : (s.modCore c f).readData = s.readData := rfl
@[simp] theorem modCore_writeBack (c : Nat) (f : Core → Core) : (s.modCore c f).writeBack = s.writeBack := rfl
@[simp] theorem modCore_options (c : Nat) (f : Core → Core) : (s.modCore c f).options = s.options := rfl
@[simp] theorem modCore_cellar (c : Nat) (f : Core → Core) : (s.modCore c f).cellar = s.cellar := rfl
@[simp] theorem modCore_crier (c : Nat) (f : Core → Core) : (s.modCore c f).crier = s.crier := rfl
@[simp] theorem modCore_clock (c : Nat) (f : Core → Core) : (s.modCore c f).clock = s.clock := rfl
@[simp] theorem modCore_aisle (c : Nat) (f : Core → Core) : (s.modCore c f).aisle = s.aisle := rfl
@[simp] theorem modCore_car (c : Nat) (f : Core → Core) : (s.modCore c f).car = s.car := rfl
@[simp] theorem modCore_leg (c : Nat) (f : Core → Core) : (s.modCore c f).leg = s.leg := rfl
@[simp] theorem modCore_cmp (c : Nat) (f : Core → Core) : (s.modCore c f).cmp = s.cmp := rfl
@[simp] theorem modCore_cnv (c : Nat) (f : Core → Core) : (s.modCore c f).cnv = s.cnv := rfl
@[simp] theorem modCore_eng (c : Nat) (f : Core → Core) : (s.modCore c f).eng = s.eng := rfl
@[simp] theorem modCore_qep (c : Nat) (f : Core → Core) : (s.modCore c f).qep = s.qep := rfl
@[simp] theorem modCore_trip (c : Nat) (f : Core → Core) : (s.modCore c f).trip = s.trip := rfl
@[simp] theorem modCore_ring (c : Nat) (f : Core → Core) : (s.modCore c f).ring = s.ring := rfl
@[simp] theorem modCore_ode (c : Nat) (f : Core → Core) : (s.modCore c f).ode = s.ode := rfl
@[simp] theorem modCore_attic (c : Nat) (f : Core → Core) : (s.modCore c f).attic = s.attic := rfl
@[simp] theorem modCore_replay (c : Nat) (f : Core → Core) : (s.modCore c f).replay = s.replay := rfl
@[simp] theorem modCore_dbg (c : Nat) (f : Core → Core) : (s.modCore c f).dbg = s.dbg := rfl
@[simp] theorem modCore_flash (c : Nat) (f : Core → Core) : (s.modCore c f).flash = s.flash := rfl
@[simp] theorem modCore_spi (c : Nat) (f : Core → Core) : (s.modCore c f).spi = s.spi := rfl
@[simp] theorem modCore_uart (c : Nat) (f : Core → Core) : (s.modCore c f).uart = s.uart := rfl
@[simp] theorem modCore_can (c : Nat) (f : Core → Core) : (s.modCore c f).can = s.can := rfl
@[simp] theorem modCore_iic (c : Nat) (f : Core → Core) : (s.modCore c f).iic = s.iic := rfl

@[simp] theorem modSpi_pending (p : Fin 4) (f : Serial → Serial) : (s.modSpi p f).pending = s.pending := rfl
@[simp] theorem modSpi_now (p : Fin 4) (f : Serial → Serial) : (s.modSpi p f).now = s.now := rfl
@[simp] theorem modSpi_free (p : Fin 4) (f : Serial → Serial) : (s.modSpi p f).free = s.free := rfl
@[simp] theorem modSpi_warranted (p : Fin 4) (f : Serial → Serial) : (s.modSpi p f).warranted = s.warranted := rfl
@[simp] theorem modSpi_regs (p : Fin 4) (f : Serial → Serial) : (s.modSpi p f).regs = s.regs := rfl
@[simp] theorem modSpi_mem (p : Fin 4) (f : Serial → Serial) : (s.modSpi p f).mem = s.mem := rfl
@[simp] theorem modSpi_shadows (p : Fin 4) (f : Serial → Serial) : (s.modSpi p f).shadows = s.shadows := rfl
@[simp] theorem modSpi_happened (p : Fin 4) (f : Serial → Serial) : (s.modSpi p f).happened = s.happened := rfl
@[simp] theorem modSpi_readData (p : Fin 4) (f : Serial → Serial) : (s.modSpi p f).readData = s.readData := rfl
@[simp] theorem modSpi_writeBack (p : Fin 4) (f : Serial → Serial) : (s.modSpi p f).writeBack = s.writeBack := rfl
@[simp] theorem modSpi_options (p : Fin 4) (f : Serial → Serial) : (s.modSpi p f).options = s.options := rfl
@[simp] theorem modSpi_cellar (p : Fin 4) (f : Serial → Serial) : (s.modSpi p f).cellar = s.cellar := rfl
@[simp] theorem modSpi_crier (p : Fin 4) (f : Serial → Serial) : (s.modSpi p f).crier = s.crier := rfl
@[simp] theorem modSpi_clock (p : Fin 4) (f : Serial → Serial) : (s.modSpi p f).clock = s.clock := rfl
@[simp] theorem modSpi_aisle (p : Fin 4) (f : Serial → Serial) : (s.modSpi p f).aisle = s.aisle := rfl
@[simp] theorem modSpi_car (p : Fin 4) (f : Serial → Serial) : (s.modSpi p f).car = s.car := rfl
@[simp] theorem modSpi_leg (p : Fin 4) (f : Serial → Serial) : (s.modSpi p f).leg = s.leg := rfl
@[simp] theorem modSpi_cmp (p : Fin 4) (f : Serial → Serial) : (s.modSpi p f).cmp = s.cmp := rfl
@[simp] theorem modSpi_cnv (p : Fin 4) (f : Serial → Serial) : (s.modSpi p f).cnv = s.cnv := rfl
@[simp] theorem modSpi_eng (p : Fin 4) (f : Serial → Serial) : (s.modSpi p f).eng = s.eng := rfl
@[simp] theorem modSpi_qep (p : Fin 4) (f : Serial → Serial) : (s.modSpi p f).qep = s.qep := rfl
@[simp] theorem modSpi_trip (p : Fin 4) (f : Serial → Serial) : (s.modSpi p f).trip = s.trip := rfl
@[simp] theorem modSpi_ring (p : Fin 4) (f : Serial → Serial) : (s.modSpi p f).ring = s.ring := rfl
@[simp] theorem modSpi_ode (p : Fin 4) (f : Serial → Serial) : (s.modSpi p f).ode = s.ode := rfl
@[simp] theorem modSpi_attic (p : Fin 4) (f : Serial → Serial) : (s.modSpi p f).attic = s.attic := rfl
@[simp] theorem modSpi_core (p : Fin 4) (f : Serial → Serial) : (s.modSpi p f).core = s.core := rfl
@[simp] theorem modSpi_replay (p : Fin 4) (f : Serial → Serial) : (s.modSpi p f).replay = s.replay := rfl
@[simp] theorem modSpi_dbg (p : Fin 4) (f : Serial → Serial) : (s.modSpi p f).dbg = s.dbg := rfl
@[simp] theorem modSpi_flash (p : Fin 4) (f : Serial → Serial) : (s.modSpi p f).flash = s.flash := rfl
@[simp] theorem modSpi_uart (p : Fin 4) (f : Serial → Serial) : (s.modSpi p f).uart = s.uart := rfl
@[simp] theorem modSpi_can (p : Fin 4) (f : Serial → Serial) : (s.modSpi p f).can = s.can := rfl
@[simp] theorem modSpi_iic (p : Fin 4) (f : Serial → Serial) : (s.modSpi p f).iic = s.iic := rfl

@[simp] theorem modUart_pending (u : Fin 2) (f : Serial → Serial) : (s.modUart u f).pending = s.pending := rfl
@[simp] theorem modUart_now (u : Fin 2) (f : Serial → Serial) : (s.modUart u f).now = s.now := rfl
@[simp] theorem modUart_free (u : Fin 2) (f : Serial → Serial) : (s.modUart u f).free = s.free := rfl
@[simp] theorem modUart_warranted (u : Fin 2) (f : Serial → Serial) : (s.modUart u f).warranted = s.warranted := rfl
@[simp] theorem modUart_regs (u : Fin 2) (f : Serial → Serial) : (s.modUart u f).regs = s.regs := rfl
@[simp] theorem modUart_mem (u : Fin 2) (f : Serial → Serial) : (s.modUart u f).mem = s.mem := rfl
@[simp] theorem modUart_shadows (u : Fin 2) (f : Serial → Serial) : (s.modUart u f).shadows = s.shadows := rfl
@[simp] theorem modUart_happened (u : Fin 2) (f : Serial → Serial) : (s.modUart u f).happened = s.happened := rfl
@[simp] theorem modUart_readData (u : Fin 2) (f : Serial → Serial) : (s.modUart u f).readData = s.readData := rfl
@[simp] theorem modUart_writeBack (u : Fin 2) (f : Serial → Serial) : (s.modUart u f).writeBack = s.writeBack := rfl
@[simp] theorem modUart_options (u : Fin 2) (f : Serial → Serial) : (s.modUart u f).options = s.options := rfl
@[simp] theorem modUart_cellar (u : Fin 2) (f : Serial → Serial) : (s.modUart u f).cellar = s.cellar := rfl
@[simp] theorem modUart_crier (u : Fin 2) (f : Serial → Serial) : (s.modUart u f).crier = s.crier := rfl
@[simp] theorem modUart_clock (u : Fin 2) (f : Serial → Serial) : (s.modUart u f).clock = s.clock := rfl
@[simp] theorem modUart_aisle (u : Fin 2) (f : Serial → Serial) : (s.modUart u f).aisle = s.aisle := rfl
@[simp] theorem modUart_car (u : Fin 2) (f : Serial → Serial) : (s.modUart u f).car = s.car := rfl
@[simp] theorem modUart_leg (u : Fin 2) (f : Serial → Serial) : (s.modUart u f).leg = s.leg := rfl
@[simp] theorem modUart_cmp (u : Fin 2) (f : Serial → Serial) : (s.modUart u f).cmp = s.cmp := rfl
@[simp] theorem modUart_cnv (u : Fin 2) (f : Serial → Serial) : (s.modUart u f).cnv = s.cnv := rfl
@[simp] theorem modUart_eng (u : Fin 2) (f : Serial → Serial) : (s.modUart u f).eng = s.eng := rfl
@[simp] theorem modUart_qep (u : Fin 2) (f : Serial → Serial) : (s.modUart u f).qep = s.qep := rfl
@[simp] theorem modUart_trip (u : Fin 2) (f : Serial → Serial) : (s.modUart u f).trip = s.trip := rfl
@[simp] theorem modUart_ring (u : Fin 2) (f : Serial → Serial) : (s.modUart u f).ring = s.ring := rfl
@[simp] theorem modUart_ode (u : Fin 2) (f : Serial → Serial) : (s.modUart u f).ode = s.ode := rfl
@[simp] theorem modUart_attic (u : Fin 2) (f : Serial → Serial) : (s.modUart u f).attic = s.attic := rfl
@[simp] theorem modUart_core (u : Fin 2) (f : Serial → Serial) : (s.modUart u f).core = s.core := rfl
@[simp] theorem modUart_replay (u : Fin 2) (f : Serial → Serial) : (s.modUart u f).replay = s.replay := rfl
@[simp] theorem modUart_dbg (u : Fin 2) (f : Serial → Serial) : (s.modUart u f).dbg = s.dbg := rfl
@[simp] theorem modUart_flash (u : Fin 2) (f : Serial → Serial) : (s.modUart u f).flash = s.flash := rfl
@[simp] theorem modUart_spi (u : Fin 2) (f : Serial → Serial) : (s.modUart u f).spi = s.spi := rfl
@[simp] theorem modUart_can (u : Fin 2) (f : Serial → Serial) : (s.modUart u f).can = s.can := rfl
@[simp] theorem modUart_iic (u : Fin 2) (f : Serial → Serial) : (s.modUart u f).iic = s.iic := rfl

@[simp] theorem modCan_pending (k : Fin 2) (f : Can → Can) : (s.modCan k f).pending = s.pending := rfl
@[simp] theorem modCan_now (k : Fin 2) (f : Can → Can) : (s.modCan k f).now = s.now := rfl
@[simp] theorem modCan_free (k : Fin 2) (f : Can → Can) : (s.modCan k f).free = s.free := rfl
@[simp] theorem modCan_warranted (k : Fin 2) (f : Can → Can) : (s.modCan k f).warranted = s.warranted := rfl
@[simp] theorem modCan_regs (k : Fin 2) (f : Can → Can) : (s.modCan k f).regs = s.regs := rfl
@[simp] theorem modCan_mem (k : Fin 2) (f : Can → Can) : (s.modCan k f).mem = s.mem := rfl
@[simp] theorem modCan_shadows (k : Fin 2) (f : Can → Can) : (s.modCan k f).shadows = s.shadows := rfl
@[simp] theorem modCan_happened (k : Fin 2) (f : Can → Can) : (s.modCan k f).happened = s.happened := rfl
@[simp] theorem modCan_readData (k : Fin 2) (f : Can → Can) : (s.modCan k f).readData = s.readData := rfl
@[simp] theorem modCan_writeBack (k : Fin 2) (f : Can → Can) : (s.modCan k f).writeBack = s.writeBack := rfl
@[simp] theorem modCan_options (k : Fin 2) (f : Can → Can) : (s.modCan k f).options = s.options := rfl
@[simp] theorem modCan_cellar (k : Fin 2) (f : Can → Can) : (s.modCan k f).cellar = s.cellar := rfl
@[simp] theorem modCan_crier (k : Fin 2) (f : Can → Can) : (s.modCan k f).crier = s.crier := rfl
@[simp] theorem modCan_clock (k : Fin 2) (f : Can → Can) : (s.modCan k f).clock = s.clock := rfl
@[simp] theorem modCan_aisle (k : Fin 2) (f : Can → Can) : (s.modCan k f).aisle = s.aisle := rfl
@[simp] theorem modCan_car (k : Fin 2) (f : Can → Can) : (s.modCan k f).car = s.car := rfl
@[simp] theorem modCan_leg (k : Fin 2) (f : Can → Can) : (s.modCan k f).leg = s.leg := rfl
@[simp] theorem modCan_cmp (k : Fin 2) (f : Can → Can) : (s.modCan k f).cmp = s.cmp := rfl
@[simp] theorem modCan_cnv (k : Fin 2) (f : Can → Can) : (s.modCan k f).cnv = s.cnv := rfl
@[simp] theorem modCan_eng (k : Fin 2) (f : Can → Can) : (s.modCan k f).eng = s.eng := rfl
@[simp] theorem modCan_qep (k : Fin 2) (f : Can → Can) : (s.modCan k f).qep = s.qep := rfl
@[simp] theorem modCan_trip (k : Fin 2) (f : Can → Can) : (s.modCan k f).trip = s.trip := rfl
@[simp] theorem modCan_ring (k : Fin 2) (f : Can → Can) : (s.modCan k f).ring = s.ring := rfl
@[simp] theorem modCan_ode (k : Fin 2) (f : Can → Can) : (s.modCan k f).ode = s.ode := rfl
@[simp] theorem modCan_attic (k : Fin 2) (f : Can → Can) : (s.modCan k f).attic = s.attic := rfl
@[simp] theorem modCan_core (k : Fin 2) (f : Can → Can) : (s.modCan k f).core = s.core := rfl
@[simp] theorem modCan_replay (k : Fin 2) (f : Can → Can) : (s.modCan k f).replay = s.replay := rfl
@[simp] theorem modCan_dbg (k : Fin 2) (f : Can → Can) : (s.modCan k f).dbg = s.dbg := rfl
@[simp] theorem modCan_flash (k : Fin 2) (f : Can → Can) : (s.modCan k f).flash = s.flash := rfl
@[simp] theorem modCan_spi (k : Fin 2) (f : Can → Can) : (s.modCan k f).spi = s.spi := rfl
@[simp] theorem modCan_uart (k : Fin 2) (f : Can → Can) : (s.modCan k f).uart = s.uart := rfl
@[simp] theorem modCan_iic (k : Fin 2) (f : Can → Can) : (s.modCan k f).iic = s.iic := rfl

@[simp] theorem modIic_pending (i : Fin 2) (f : Iic → Iic) : (s.modIic i f).pending = s.pending := rfl
@[simp] theorem modIic_now (i : Fin 2) (f : Iic → Iic) : (s.modIic i f).now = s.now := rfl
@[simp] theorem modIic_free (i : Fin 2) (f : Iic → Iic) : (s.modIic i f).free = s.free := rfl
@[simp] theorem modIic_warranted (i : Fin 2) (f : Iic → Iic) : (s.modIic i f).warranted = s.warranted := rfl
@[simp] theorem modIic_regs (i : Fin 2) (f : Iic → Iic) : (s.modIic i f).regs = s.regs := rfl
@[simp] theorem modIic_mem (i : Fin 2) (f : Iic → Iic) : (s.modIic i f).mem = s.mem := rfl
@[simp] theorem modIic_shadows (i : Fin 2) (f : Iic → Iic) : (s.modIic i f).shadows = s.shadows := rfl
@[simp] theorem modIic_happened (i : Fin 2) (f : Iic → Iic) : (s.modIic i f).happened = s.happened := rfl
@[simp] theorem modIic_readData (i : Fin 2) (f : Iic → Iic) : (s.modIic i f).readData = s.readData := rfl
@[simp] theorem modIic_writeBack (i : Fin 2) (f : Iic → Iic) : (s.modIic i f).writeBack = s.writeBack := rfl
@[simp] theorem modIic_options (i : Fin 2) (f : Iic → Iic) : (s.modIic i f).options = s.options := rfl
@[simp] theorem modIic_cellar (i : Fin 2) (f : Iic → Iic) : (s.modIic i f).cellar = s.cellar := rfl
@[simp] theorem modIic_crier (i : Fin 2) (f : Iic → Iic) : (s.modIic i f).crier = s.crier := rfl
@[simp] theorem modIic_clock (i : Fin 2) (f : Iic → Iic) : (s.modIic i f).clock = s.clock := rfl
@[simp] theorem modIic_aisle (i : Fin 2) (f : Iic → Iic) : (s.modIic i f).aisle = s.aisle := rfl
@[simp] theorem modIic_car (i : Fin 2) (f : Iic → Iic) : (s.modIic i f).car = s.car := rfl
@[simp] theorem modIic_leg (i : Fin 2) (f : Iic → Iic) : (s.modIic i f).leg = s.leg := rfl
@[simp] theorem modIic_cmp (i : Fin 2) (f : Iic → Iic) : (s.modIic i f).cmp = s.cmp := rfl
@[simp] theorem modIic_cnv (i : Fin 2) (f : Iic → Iic) : (s.modIic i f).cnv = s.cnv := rfl
@[simp] theorem modIic_eng (i : Fin 2) (f : Iic → Iic) : (s.modIic i f).eng = s.eng := rfl
@[simp] theorem modIic_qep (i : Fin 2) (f : Iic → Iic) : (s.modIic i f).qep = s.qep := rfl
@[simp] theorem modIic_trip (i : Fin 2) (f : Iic → Iic) : (s.modIic i f).trip = s.trip := rfl
@[simp] theorem modIic_ring (i : Fin 2) (f : Iic → Iic) : (s.modIic i f).ring = s.ring := rfl
@[simp] theorem modIic_ode (i : Fin 2) (f : Iic → Iic) : (s.modIic i f).ode = s.ode := rfl
@[simp] theorem modIic_attic (i : Fin 2) (f : Iic → Iic) : (s.modIic i f).attic = s.attic := rfl
@[simp] theorem modIic_core (i : Fin 2) (f : Iic → Iic) : (s.modIic i f).core = s.core := rfl
@[simp] theorem modIic_replay (i : Fin 2) (f : Iic → Iic) : (s.modIic i f).replay = s.replay := rfl
@[simp] theorem modIic_dbg (i : Fin 2) (f : Iic → Iic) : (s.modIic i f).dbg = s.dbg := rfl
@[simp] theorem modIic_flash (i : Fin 2) (f : Iic → Iic) : (s.modIic i f).flash = s.flash := rfl
@[simp] theorem modIic_spi (i : Fin 2) (f : Iic → Iic) : (s.modIic i f).spi = s.spi := rfl
@[simp] theorem modIic_uart (i : Fin 2) (f : Iic → Iic) : (s.modIic i f).uart = s.uart := rfl
@[simp] theorem modIic_can (i : Fin 2) (f : Iic → Iic) : (s.modIic i f).can = s.can := rfl

@[simp] theorem modQep_pending (d : Fin 4) (f : Qep → Qep) : (s.modQep d f).pending = s.pending := rfl
@[simp] theorem modQep_now (d : Fin 4) (f : Qep → Qep) : (s.modQep d f).now = s.now := rfl
@[simp] theorem modQep_free (d : Fin 4) (f : Qep → Qep) : (s.modQep d f).free = s.free := rfl
@[simp] theorem modQep_warranted (d : Fin 4) (f : Qep → Qep) : (s.modQep d f).warranted = s.warranted := rfl
@[simp] theorem modQep_regs (d : Fin 4) (f : Qep → Qep) : (s.modQep d f).regs = s.regs := rfl
@[simp] theorem modQep_mem (d : Fin 4) (f : Qep → Qep) : (s.modQep d f).mem = s.mem := rfl
@[simp] theorem modQep_shadows (d : Fin 4) (f : Qep → Qep) : (s.modQep d f).shadows = s.shadows := rfl
@[simp] theorem modQep_happened (d : Fin 4) (f : Qep → Qep) : (s.modQep d f).happened = s.happened := rfl
@[simp] theorem modQep_readData (d : Fin 4) (f : Qep → Qep) : (s.modQep d f).readData = s.readData := rfl
@[simp] theorem modQep_writeBack (d : Fin 4) (f : Qep → Qep) : (s.modQep d f).writeBack = s.writeBack := rfl
@[simp] theorem modQep_options (d : Fin 4) (f : Qep → Qep) : (s.modQep d f).options = s.options := rfl
@[simp] theorem modQep_cellar (d : Fin 4) (f : Qep → Qep) : (s.modQep d f).cellar = s.cellar := rfl
@[simp] theorem modQep_crier (d : Fin 4) (f : Qep → Qep) : (s.modQep d f).crier = s.crier := rfl
@[simp] theorem modQep_clock (d : Fin 4) (f : Qep → Qep) : (s.modQep d f).clock = s.clock := rfl
@[simp] theorem modQep_aisle (d : Fin 4) (f : Qep → Qep) : (s.modQep d f).aisle = s.aisle := rfl
@[simp] theorem modQep_car (d : Fin 4) (f : Qep → Qep) : (s.modQep d f).car = s.car := rfl
@[simp] theorem modQep_leg (d : Fin 4) (f : Qep → Qep) : (s.modQep d f).leg = s.leg := rfl
@[simp] theorem modQep_cmp (d : Fin 4) (f : Qep → Qep) : (s.modQep d f).cmp = s.cmp := rfl
@[simp] theorem modQep_cnv (d : Fin 4) (f : Qep → Qep) : (s.modQep d f).cnv = s.cnv := rfl
@[simp] theorem modQep_eng (d : Fin 4) (f : Qep → Qep) : (s.modQep d f).eng = s.eng := rfl
@[simp] theorem modQep_trip (d : Fin 4) (f : Qep → Qep) : (s.modQep d f).trip = s.trip := rfl
@[simp] theorem modQep_ring (d : Fin 4) (f : Qep → Qep) : (s.modQep d f).ring = s.ring := rfl
@[simp] theorem modQep_ode (d : Fin 4) (f : Qep → Qep) : (s.modQep d f).ode = s.ode := rfl
@[simp] theorem modQep_attic (d : Fin 4) (f : Qep → Qep) : (s.modQep d f).attic = s.attic := rfl
@[simp] theorem modQep_core (d : Fin 4) (f : Qep → Qep) : (s.modQep d f).core = s.core := rfl
@[simp] theorem modQep_replay (d : Fin 4) (f : Qep → Qep) : (s.modQep d f).replay = s.replay := rfl
@[simp] theorem modQep_dbg (d : Fin 4) (f : Qep → Qep) : (s.modQep d f).dbg = s.dbg := rfl
@[simp] theorem modQep_flash (d : Fin 4) (f : Qep → Qep) : (s.modQep d f).flash = s.flash := rfl
@[simp] theorem modQep_spi (d : Fin 4) (f : Qep → Qep) : (s.modQep d f).spi = s.spi := rfl
@[simp] theorem modQep_uart (d : Fin 4) (f : Qep → Qep) : (s.modQep d f).uart = s.uart := rfl
@[simp] theorem modQep_can (d : Fin 4) (f : Qep → Qep) : (s.modQep d f).can = s.can := rfl
@[simp] theorem modQep_iic (d : Fin 4) (f : Qep → Qep) : (s.modQep d f).iic = s.iic := rfl

end Sys2Proof.Laws
end

