-- ==== Sys2Proof/Laws/Regs.lean ====
section
/-! SUPPORT. What registers and memory read as after the named updates: a read after a write to the same place gives the
value written, and a write leaves every other place alone. -/

namespace Sys2Proof.Laws

open Sys2Proof Sys2Proof.Machine

variable (s : State)

/-! ### Words -/

@[simp] theorem rd_wr_same (a : Nat) (w : Word) : (s.wr a w).rd a = w := sparse_get_set_same _ _ _

theorem rd_wr_other {a b : Nat} (h : b ≠ a) (w : Word) : (s.wr a w).rd b = s.rd b := sparse_get_set_other h _ _

theorem rd_setF_other {b a : Nat} {f : Fld} (h : a ≠ b + f.off) (v : Nat) : (s.setF b f v).rd a = s.rd a :=
  rd_wr_other s h _

theorem rd_setB_other {b a : Nat} {f : Fld} (h : a ≠ b + f.off) (v : Bool) : (s.setB b f v).rd a = s.rd a :=
  rd_wr_other s h _

theorem rd_setBit_other {b a : Nat} {f : Fld} (h : a ≠ b + f.off) (i : Nat) (v : Bool) : (s.setBit b f i v).rd a = s.rd a :=
  rd_wr_other s h _

theorem rd_countSat_other {b a : Nat} {f : Fld} (h : a ≠ b + f.off) (n : Nat) : (s.countSat b f n).rd a = s.rd a :=
  rd_wr_other s h _

theorem rd_countWrap_other {b a : Nat} {f : Fld} (h : a ≠ b + f.off) (n : Nat) : (s.countWrap b f n).rd a = s.rd a :=
  rd_wr_other s h _

/-- A state with the same register file reads the same. -/
theorem rd_congr {s t : State} (h : t.regs = s.regs) (a : Nat) : t.rd a = s.rd a := by
  unfold State.rd; rw [h]

theorem getF_congr {s t : State} (h : t.regs = s.regs) (b : Nat) (f : Fld) : t.getF b f = s.getF b f := by
  unfold State.getF; rw [rd_congr h]

/-! ### Fields -/

theorem rd_setF_same (b : Nat) (f : Fld) (v : Nat) (h : f.hi < 32) :
    ((s.setF b f v).rd (b + f.off)).toNat = setBitsOf (s.rd (b + f.off)).toNat f.hi f.lo v := by
  unfold State.setF
  rw [rd_wr_same, BitVec.toNat_ofNat, Nat.mod_eq_of_lt (setBitsOf_lt (BitVec.isLt _) h)]

theorem getF_setF_same (b : Nat) (f : Fld) (v : Nat) (h : f.hi < 32 := by decide) :
    (s.setF b f v).getF b f = v % 2 ^ (f.hi + 1 - f.lo) := by
  unfold State.getF
  rw [rd_setF_same s b f v h, bitsOf_setBitsOf_same]

/-- Another register. -/
theorem getF_setF_reg {b b' : Nat} {f g : Fld} (h : b' + g.off ≠ b + f.off) (v : Nat) :
    (s.setF b f v).getF b' g = s.getF b' g := by
  unfold State.getF
  rw [rd_setF_other s h]

/-- Another field of the same register. -/
theorem getF_setF_field {b b' : Nat} {f g : Fld} (e : b' + g.off = b + f.off) (h : g.hi < f.lo ∨ f.hi < g.lo) (v : Nat)
    (hf : f.hi < 32 := by decide) : (s.setF b f v).getF b' g = s.getF b' g := by
  unfold State.getF
  rw [e, rd_setF_same s b f v hf, bitsOf_setBitsOf_other _ _ h]

/-- Any field that is not the one written and does not share a bit with it. -/
theorem getF_setF_other {b b' : Nat} {f g : Fld} (h : b' + g.off ≠ b + f.off ∨ g.hi < f.lo ∨ f.hi < g.lo) (v : Nat)
    (hf : f.hi < 32 := by decide) : (s.setF b f v).getF b' g = s.getF b' g := by
  by_cases e : b' + g.off = b + f.off
  · exact getF_setF_field s e (h.resolve_left fun n => n e) v hf
  · exact getF_setF_reg s e v

theorem getF_lt (b : Nat) (f : Fld) : s.getF b f < 2 ^ (f.hi + 1 - f.lo) := bitsOf_lt _ _ _

theorem getB_setB_same (b : Nat) (f : Fld) (v : Bool) (h : f.hi < 32 := by decide) (h1 : f.lo ≤ f.hi := by decide) :
    (s.setB b f v).getB b f = v := by
  unfold State.getB State.setB
  rw [getF_setF_same s b f _ h]
  have : 2 ≤ 2 ^ (f.hi + 1 - f.lo) := by
    calc 2 = 2 ^ 1 := rfl
      _ ≤ _ := Nat.pow_le_pow_right (by omega) (by omega)
  cases v
  · simp
  · rw [if_pos rfl, Nat.mod_eq_of_lt (by omega)]; rfl

theorem getF_countSat_same (b : Nat) (f : Fld) (n : Nat) (h : f.hi < 32 := by decide) :
    (s.countSat b f n).getF b f = min (s.getF b f + n) (2 ^ (f.hi + 1 - f.lo) - 1) := by
  unfold State.countSat
  rw [getF_setF_same (s.mark b f) b f _ h, Nat.mod_eq_of_lt]
  · rfl
  · have := Nat.two_pow_pos (f.hi + 1 - f.lo)
    unfold Fld.max
    omega

theorem getF_countWrap_same (b : Nat) (f : Fld) (n : Nat) (h : f.hi < 32 := by decide) :
    (s.countWrap b f n).getF b f = (s.getF b f + n) % 2 ^ (f.hi + 1 - f.lo) := by
  unfold State.countWrap
  have := Nat.two_pow_pos (f.hi + 1 - f.lo)
  rw [getF_setF_same (s.mark b f) b f _ h, show f.max + 1 = 2 ^ (f.hi + 1 - f.lo) by unfold Fld.max; omega, Nat.mod_mod]

/-- A cleared count is left at 1 by an event of the same edge. -/
theorem getF_clearCount_same (b : Nat) (f : Fld) (h : f.hi < 32 ∧ f.lo ≤ f.hi := by decide) :
    (s.clearCount b f).getF b f = (s.marked b f).toNat := by
  unfold State.clearCount
  rw [getF_setF_same s b f _ h.1, Nat.mod_eq_of_lt]
  have : 2 ≤ 2 ^ (f.hi + 1 - f.lo) := Nat.pow_le_pow_right (n := 2) (by omega) (show 1 ≤ f.hi + 1 - f.lo by omega)
  have := Bool.toNat_lt (s.marked b f)
  omega

/-- What has happened on the edge is not forgotten within it. -/
theorem marked_mark_same (b : Nat) (f : Fld) : (s.mark b f).marked b f = true := by
  simp [State.marked, State.mark, State.onEdge]
  split <;> simp_all

theorem withBit_testBit (n i j : Nat) (v : Bool) : (withBit n i v).testBit j = if j = i then v else n.testBit j := by
  unfold withBit
  by_cases h : n.testBit i = v
  · rw [if_pos h]
    by_cases e : j = i
    · rw [if_pos e, e, h]
    · rw [if_neg e]
  · rw [if_neg h]
    cases v
    · have h' : n.testBit i = true := by cases hh : n.testBit i <;> simp_all
      rw [if_neg (by simp)]
      have e1 : n - 2 ^ i = setBitsOf n i i 0 := by
        unfold setBitsOf bitsOf
        have : (n >>> i) % 2 ^ (i + 1 - i) = 1 := by
          rw [show i + 1 - i = 1 by omega, Nat.pow_one, Nat.shiftRight_eq_div_pow]
          have := h'
          rw [Nat.testBit_eq_decide_div_mod_eq] at this
          simpa using this
        rw [this, Nat.shiftLeft_eq]
        simp
      rw [e1, testBit_setBitsOf]
      by_cases e : j = i
      · rw [if_pos (by omega), if_pos e]; simp
      · rw [if_neg (by omega), if_neg e]
    · have h' : n.testBit i = false := by cases hh : n.testBit i <;> simp_all
      rw [if_pos rfl]
      have e1 : n + 2 ^ i = setBitsOf n i i 1 := by
        unfold setBitsOf bitsOf
        have : (n >>> i) % 2 ^ (i + 1 - i) = 0 := by
          rw [show i + 1 - i = 1 by omega, Nat.pow_one, Nat.shiftRight_eq_div_pow]
          have := h'
          rw [Nat.testBit_eq_decide_div_mod_eq] at this
          simpa using this
        rw [this, show i + 1 - i = 1 by omega, Nat.shiftLeft_eq, Nat.shiftLeft_eq]
        simp
      rw [e1, testBit_setBitsOf]
      by_cases e : j = i
      · rw [if_pos (by omega), if_pos e, e]; simp
      · rw [if_neg (by omega), if_neg e]

theorem bit_setBit (b : Nat) (f : Fld) (i j : Nat) (v : Bool) (hi : i < f.hi + 1 - f.lo) (h : f.hi < 32 := by decide) :
    (s.setBit b f i v).bit b f j = if j = i then v else s.bit b f j := by
  unfold State.bit State.setBit
  rw [getF_setF_same s b f _ h, Nat.testBit_mod_two_pow, withBit_testBit]
  by_cases e : j = i
  · subst e; simp [hi]
  · simp only [if_neg e]
    by_cases hj : j < f.hi + 1 - f.lo
    · simp [hj]
    · have : (s.getF b f).testBit j = false :=
        Nat.testBit_lt_two_pow (Nat.lt_of_lt_of_le (getF_lt s b f) (Nat.pow_le_pow_right (by omega) (by omega)))
      simp [hj, this]

/-- Every register in the range reads its reset word. -/
theorem rd_clearRegs (lo hi a : Nat) :
    (s.clearRegs lo hi).rd a = if lo ≤ a ∧ a < hi then resetWordAt a else s.rd a := by
  unfold State.rd State.clearRegs
  dsimp only
  induction s.regs with
  | nil => simp [Sparse.get]
  | cons e t ih =>
    obtain ⟨k, v⟩ := e
    rw [List.filter_cons]
    by_cases hk : lo ≤ k ∧ k < hi
    · rw [if_neg (by simp [hk]), ih, Sparse.get]
      by_cases ha : lo ≤ a ∧ a < hi
      · rw [if_pos ha, if_pos ha]
      · rw [if_neg ha, if_neg ha, if_neg (by omega)]
    · rw [if_pos (by simp; omega), Sparse.get, Sparse.get, ih]
      by_cases e : a = k
      · rw [if_pos e, if_pos e, if_neg (by omega)]
      · rw [if_neg e, if_neg e]

/-! ### Memory -/

@[simp] theorem byte_setByte_same (a : Nat) (v : BitVec 8) : (s.setByte a v).byte a = v := sparse_get_set_same _ _ _

theorem byte_setByte_other {a b : Nat} (h : b ≠ a) (v : BitVec 8) : (s.setByte a v).byte b = s.byte b :=
  sparse_get_set_other h _ _

theorem byte_congr {s t : State} (h : t.mem = s.mem) (a : Nat) : t.byte a = s.byte a := by
  unfold State.byte; rw [h]

theorem byte_setBytes : ∀ (n : Nat) (s : State) (a v x : Nat),
    (s.setBytes a n v).byte x = if a ≤ x ∧ x < a + n then BitVec.ofNat 8 (v / 256 ^ (x - a)) else s.byte x
  | 0, s, a, v, x => by rw [State.setBytes, if_neg (by omega)]
  | n + 1, s, a, v, x => by
    rw [State.setBytes, byte_setBytes n]
    by_cases h : a + 1 ≤ x ∧ x < a + 1 + n
    · rw [if_pos h, if_pos (by omega), Nat.div_div_eq_div_mul, ← Nat.pow_succ', show (x - (a + 1)).succ = x - a by omega]
    · rw [if_neg h]
      by_cases e : x = a
      · subst e; simp
      · rw [byte_setByte_other _ e, if_neg (by omega)]

theorem bytes_congr {s t : State} (h : t.mem = s.mem) : ∀ (n a : Nat), t.bytes a n = s.bytes a n
  | 0, _ => rfl
  | n + 1, a => by rw [State.bytes, State.bytes, byte_congr h, bytes_congr h n]

theorem bytes_lt : ∀ (n : Nat) (s : State) (a : Nat), s.bytes a n < 256 ^ n
  | 0, _, _ => by simp [State.bytes]
  | n + 1, s, a => by
    rw [State.bytes, Nat.pow_succ]
    have h1 := bytes_lt n s (a + 1)
    have h2 : (s.byte a).toNat < 256 := (s.byte a).isLt
    omega

theorem bytes_setBytes_before : ∀ (n : Nat) (s : State) (a m b v : Nat), b + n ≤ a → (s.setBytes a m v).bytes b n = s.bytes b n
  | 0, _, _, _, _, _, _ => rfl
  | n + 1, s, a, m, b, v, h => by
    rw [State.bytes, State.bytes, byte_setBytes, if_neg (by omega), bytes_setBytes_before n s a m (b + 1) v (by omega)]

theorem bytes_setByte_after : ∀ (n : Nat) (s : State) (a b : Nat) (v : BitVec 8), a < b → (s.setByte a v).bytes b n = s.bytes b n
  | 0, _, _, _, _, _ => rfl
  | n + 1, s, a, b, v, h => by
    rw [State.bytes, State.bytes, byte_setByte_other _ (by omega), bytes_setByte_after n s a (b + 1) v (by omega)]

/-- A number stored reads back. -/
theorem bytes_setBytes_same : ∀ (n : Nat) (s : State) (a v : Nat), (s.setBytes a n v).bytes a n = v % 256 ^ n
  | 0, _, _, _ => by simp [State.bytes, Nat.mod_one]
  | n + 1, s, a, v => by
    rw [State.bytes, byte_setBytes, if_pos (by omega), State.setBytes, bytes_setBytes_same n]
    simp only [Nat.sub_self, Nat.pow_zero, Nat.div_one, BitVec.toNat_ofNat]
    rw [show (256 : Nat) ^ (n + 1) = 256 * 256 ^ n from Nat.pow_succ', Nat.mod_mul]


/-! ### What the memory and register operations keep -/

theorem memory_wf_setByte (a : Nat) (v : BitVec 8) (h : Memory.wf s.mem = true) : Memory.wf (s.setByte a v).mem = true :=
  sparse_wf_set _ _ _ h

theorem memory_wf_setBytes : ∀ (n : Nat) (s : State) (a v : Nat), Memory.wf s.mem = true → Memory.wf (s.setBytes a n v).mem = true
  | 0, _, _, _, h => h
  | n + 1, s, a, v, h => memory_wf_setBytes n _ _ _ (memory_wf_setByte s _ _ h)

theorem memory_wf_setWords : ∀ (l : List Nat) (s : State) (a : Nat), Memory.wf s.mem = true → Memory.wf (s.setWords a l).mem = true
  | [], _, _, h => h
  | w :: t, s, a, h => memory_wf_setWords t _ _ (memory_wf_setBytes 4 s a w h)

theorem memory_wf_eraseBytes (a n : Nat) (h : Memory.wf s.mem = true) : Memory.wf (s.eraseBytes a n).mem = true :=
  sparse_wf_filter _ _ h

theorem regs_wf_wr (a : Nat) (w : Word) (h : Sparse.wf resetWordAt s.regs = true) :
    Sparse.wf resetWordAt (s.wr a w).regs = true := sparse_wf_set _ _ _ h

theorem regs_wf_clearRegs (lo hi : Nat) (h : Sparse.wf resetWordAt s.regs = true) :
    Sparse.wf resetWordAt (s.clearRegs lo hi).regs = true := sparse_wf_filter _ _ h

end Sys2Proof.Laws
end

