-- ==== Sys2Proof/Laws/Only.lean ====
section
/-! SUPPORT. Frames: how "only these registers change" passes through updates, choices and loops. -/

namespace Sys2Proof.Safety

open Sys2Proof Sys2Proof.Machine Sys2Proof.Laws

variable {s t : State} {w : Nat → Prop}

theorem OnlyRegs.refl (s : State) (w : Nat → Prop) : OnlyRegs s s w := ⟨rfl, fun _ _ => rfl⟩

theorem OnlyRegs.wr (h : OnlyRegs s t w) {a : Nat} (v : Word) (hw : w a) : OnlyRegs s (t.wr a v) w := by
  refine ⟨?_, fun b hb => ?_⟩
  · have := h.rest
    rw [State.wr, this]
  · rw [rd_wr_other t (by rintro rfl; exact hb hw), h.regs b hb]

theorem OnlyRegs.setF (h : OnlyRegs s t w) {b : Nat} {f : Fld} (v : Nat) (hw : w (b + f.off)) :
    OnlyRegs s (t.setF b f v) w := h.wr _ hw

theorem OnlyRegs.setB (h : OnlyRegs s t w) {b : Nat} {f : Fld} (v : Bool) (hw : w (b + f.off)) :
    OnlyRegs s (t.setB b f v) w := h.wr _ hw

theorem OnlyRegs.setBit (h : OnlyRegs s t w) {b : Nat} {f : Fld} (i : Nat) (v : Bool) (hw : w (b + f.off)) :
    OnlyRegs s (t.setBit b f i v) w := h.wr _ hw

theorem OnlyRegs.mark (h : OnlyRegs s t w) (b : Nat) (f : Fld) : OnlyRegs s (t.mark b f) w := by
  refine ⟨?_, h.regs⟩
  have := h.rest
  rw [State.mark, this]

theorem OnlyRegs.countSat (h : OnlyRegs s t w) {b : Nat} {f : Fld} (n : Nat) (hw : w (b + f.off)) :
    OnlyRegs s (t.countSat b f n) w := (h.mark b f).wr _ hw

theorem OnlyRegs.countWrap (h : OnlyRegs s t w) {b : Nat} {f : Fld} (n : Nat) (hw : w (b + f.off)) :
    OnlyRegs s (t.countWrap b f n) w := (h.mark b f).wr _ hw

theorem OnlyRegs.latch (h : OnlyRegs s t w) {b : Nat} {f : Fld} (hw : w (b + f.off)) : OnlyRegs s (t.latch b f) w :=
  (h.mark b f).wr _ hw

theorem OnlyRegs.clearCount (h : OnlyRegs s t w) {b : Nat} {f : Fld} (hw : w (b + f.off)) : OnlyRegs s (t.clearCount b f) w :=
  h.wr _ hw

theorem OnlyRegs.ite {c : Prop} [Decidable c] {u : State} (h : OnlyRegs s t w) (k : OnlyRegs s u w) :
    OnlyRegs s (if c then t else u) w := by split <;> assumption

theorem OnlyRegs.foldl {α : Type} {f : State → α → State} (l : List α) (h : OnlyRegs s t w)
    (k : ∀ u a, a ∈ l → OnlyRegs s u w → OnlyRegs s (f u a) w) : OnlyRegs s (l.foldl f t) w := by
  induction l generalizing t with
  | nil => exact h
  | cons a l ih => exact ih (k t a List.mem_cons_self h) fun u b hb => k u b (List.mem_cons_of_mem _ hb)

theorem OnlyRegs.forAll {n : Nat} {f : State → Nat → State} (h : OnlyRegs s t w)
    (k : ∀ u i, i < n → OnlyRegs s u w → OnlyRegs s (f u i) w) : OnlyRegs s (t.forAll n f) w :=
  OnlyRegs.foldl _ h fun u a ha => k u a (List.mem_range.1 ha)

theorem OnlyRegs.mono {w' : Nat → Prop} (h : OnlyRegs s t w) (k : ∀ a, w a → w' a) : OnlyRegs s t w' :=
  ⟨h.rest, fun a ha => h.regs a fun ha' => ha (k a ha')⟩

theorem OnlyRegs.setSrcBit (h : OnlyRegs s t w) {f : Fld} (n : Nat) (v : Bool) (hw : w (CRI.base + (f.off + 4 * (n / 32)))) :
    OnlyRegs s (t.setSrcBit f n v) w := h.setBit _ _ hw

theorem OnlyRegs.pend (h : OnlyRegs s t w) (n : Nat) (hw : w (CRI.base + (CRI.PEND.BITS.off + 4 * (n / 32)))) :
    OnlyRegs s (t.pend n) w := by
  unfold State.pend
  split
  · exact h.setBit _ _ hw
  · exact h

theorem OnlyRegs.getF (h : OnlyRegs s t w) {b : Nat} {f : Fld} (k : ¬ w (b + f.off)) : t.getF b f = s.getF b f := by
  unfold State.getF
  rw [h.regs _ k]

end Sys2Proof.Safety

namespace Sys2Proof.Laws

open Sys2Proof Sys2Proof.Machine

/-- A command that reaches its register acts. -/
theorem onCommand_of {s : State} {init addr : Nat} (h : Safety.Reaches s addr) (act : State → State) :
    s.onCommand init addr act = act s := if_pos h

/-- A read that reaches its register returns its word to the initiator. -/
theorem onRead_of {s : State} {addr : Nat} (h : Safety.Reaches s addr) (init : Fin 16) (act : State → Word × State) :
    s.onRead init addr act = { (act s).2 with readData := (act s).2.readData.set init (act s).1 } := if_pos h

/-- A fold writes what its steps write: where step `j` alone writes place `j`, place `j` ends as step `j` left it. -/
theorem foldl_range_get {α : Type} (f : State → Nat → State) (g : State → Nat → α) (new : State → Nat → α)
    (hsame : ∀ t j, g (f t j) j = new t j) (hother : ∀ t i j, i ≠ j → g (f t i) j = g t j)
    (hnew : ∀ t i j, i ≠ j → new (f t i) j = new t j) (n : Nat) (s : State) (j : Nat) :
    g ((List.range n).foldl f s) j = if j < n then new s j else g s j := by
  have hnew' : ∀ k, k ≤ j → new ((List.range k).foldl f s) j = new s j := by
    intro k hk
    induction k with
    | zero => rfl
    | succ k ih => rw [List.range_succ, List.foldl_append, List.foldl_cons, List.foldl_nil, hnew _ _ _ (by omega), ih (by omega)]
  induction n with
  | zero => simp
  | succ n ih =>
    rw [List.range_succ, List.foldl_append, List.foldl_cons, List.foldl_nil]
    by_cases e : j = n
    · subst e
      rw [hsame, hnew' j (Nat.le_refl _), if_pos (by omega)]
    · rw [hother _ _ _ (fun h => e h.symm), ih]
      by_cases hj : j < n
      · rw [if_pos hj, if_pos (by omega)]
      · rw [if_neg hj, if_neg (by omega)]

end Sys2Proof.Laws
end

