-- ==== Sys2Proof/Laws/Crier.lean ====
section
/-! SUPPORT. The bits of the crier's mask registers after an update, and its mask commands. -/

namespace Sys2Proof.Laws

open Sys2Proof Sys2Proof.Machine Sys2Proof.Safety

/-- A bit of one mask register after a bit of the same kind is set. -/
theorem srcBit_setSrcBit (s : State) (o n m : Nat) (v : Bool) :
    (s.setSrcBit ⟨o, 31, 0⟩ n v).srcBit ⟨o, 31, 0⟩ m = if m = n then v else s.srcBit ⟨o, 31, 0⟩ m := by
  unfold State.srcBit State.setSrcBit
  by_cases e : m / 32 = n / 32
  · rw [e, bit_setBit _ _ _ _ _ _ (by simp [Fld.at]; omega) (show 31 < 32 by decide)]
    by_cases e2 : m = n
    · rw [if_pos (by rw [e2]), if_pos e2]
    · rw [if_neg (by omega), if_neg e2]
  · rw [if_neg (by intro h; exact e (by rw [h]))]
    unfold State.bit State.setBit
    rw [getF_setF_reg _ (by simp [Fld.at]; omega)]

/-- A bit of a mask register of another kind. -/
theorem srcBit_setSrcBit_other (s : State) {o p n m : Nat} (h : o + 4 * (n / 32) ≠ p + 4 * (m / 32)) (v : Bool) :
    (s.setSrcBit ⟨o, 31, 0⟩ n v).srcBit ⟨p, 31, 0⟩ m = s.srcBit ⟨p, 31, 0⟩ m := by
  unfold State.srcBit State.setSrcBit State.bit State.setBit
  rw [getF_setF_reg _ (by simp [Fld.at]; omega)]

theorem setSrcBit_rd (s : State) (f : Fld) (n : Nat) (v : Bool) {a : Nat} (h : a ≠ CRI.base + (f.off + 4 * (n / 32))) :
    (s.setSrcBit f n v).rd a = s.rd a := rd_setF_other _ h _

theorem sourceMask_testBit {n : Nat} (h : sourceExists n = true) : (sourceMask (n / 32)).testBit (n % 32) = true := by
  have : n < 187 := by simp [sourceExists] at h; omega
  have h1 : 1 ≤ n := by simp [sourceExists] at h; omega
  interval_cases n <;> decide

theorem sourceExists_of_mask {w b : Nat} (hb : b < 32) (h : (sourceMask w).testBit b = true) : sourceExists (32 * w + b) = true := by
  unfold sourceMask at h
  split at h
  · subst w; interval_cases b <;> revert h <;> decide
  · split at h
    · simp [sourceExists]; omega
    · split at h
      · subst w; interval_cases b <;> revert h <;> decide
      · simp at h

/-- What a mask command does to a source's property that its step at that source alone decides. -/
theorem overMask_get {α : Type} (act : State → Nat → State) (g : State → Nat → α) (new : State → Nat → α)
    (hsame : ∀ t n, sourceExists n = true → g (act t n) n = new t n)
    (hother : ∀ t n m, sourceExists n = true → m ≠ n → g (act t n) m = g t m)
    (hnew : ∀ t n m, sourceExists n = true → sourceExists m = true → m ≠ n → new (act t n) m = new t m) (s : State) (w mask n : Nat) :
    g (s.overMask w mask act) n = if sourceExists n = true ∧ Names w mask n then new s n else g s n := by
  unfold State.overMask
  have key : ∀ k : Nat, k ≤ 32 → ∀ (t : State),
      (g ((List.range k).foldl
        (fun t b => if (mask % 2 ^ 32).testBit b && (sourceMask w).testBit b then act t (32 * w + b) else t) t) n =
        if sourceExists n = true ∧ n / 32 = w ∧ n % 32 < k ∧ mask.testBit (n % 32) = true then new t n else g t n) ∧
      (sourceExists n = true → ¬ (n / 32 = w ∧ n % 32 < k) → new ((List.range k).foldl
        (fun t b => if (mask % 2 ^ 32).testBit b && (sourceMask w).testBit b then act t (32 * w + b) else t) t) n = new t n) := by
    intro k hk t
    induction k with
    | zero => simp
    | succ k ih =>
      obtain ⟨ih1, ih2⟩ := ih (by omega)
      rw [List.range_succ, List.foldl_append, List.foldl_cons, List.foldl_nil]
      generalize (List.range k).foldl _ t = u at ih1 ih2
      by_cases e : n = 32 * w + k
      · have e1 : n / 32 = w := by omega
        have e2 : n % 32 = k := by omega
        refine ⟨?_, fun _ h => absurd ⟨e1, by omega⟩ h⟩
        have hne : ¬ (n / 32 = w ∧ n % 32 < k) := by omega
        by_cases hb : ((mask % 2 ^ 32).testBit k && (sourceMask w).testBit k) = true
        · have hb' := hb
          rw [Bool.and_eq_true, Nat.testBit_mod_two_pow, Bool.and_eq_true] at hb'
          have hx : sourceExists n = true := e ▸ sourceExists_of_mask (by omega) hb'.2
          rw [if_pos hb, ← e, hsame _ _ hx, ih2 hx hne, if_pos]
          exact ⟨hx, e1, by omega, by rw [e2]; exact hb'.1.2⟩
        · rw [if_neg hb, ih1, if_neg (fun h => hne ⟨h.2.1, h.2.2.1⟩), if_neg]
          rintro ⟨hx, -, -, hm⟩
          apply hb
          have := sourceMask_testBit hx
          rw [e1, e2] at this
          rw [e2] at hm
          rw [Nat.testBit_mod_two_pow, this, hm]
          simp; omega
      · have h1 : (sourceExists n = true ∧ n / 32 = w ∧ n % 32 < k + 1 ∧ mask.testBit (n % 32) = true) ↔
            (sourceExists n = true ∧ n / 32 = w ∧ n % 32 < k ∧ mask.testBit (n % 32) = true) := by
          constructor
          · rintro ⟨x, a, b, c⟩; exact ⟨x, a, by omega, c⟩
          · rintro ⟨x, a, b, c⟩; exact ⟨x, a, by omega, c⟩
        simp only [h1]
        split
        · rename_i hb
          rw [Bool.and_eq_true] at hb
          have hk : sourceExists (32 * w + k) = true := sourceExists_of_mask (by omega) hb.2
          rw [hother _ _ _ hk e, ih1]
          exact ⟨rfl, fun hx h => by rw [hnew _ _ _ hk hx e, ih2 hx (by omega)]⟩
        · rw [ih1]
          exact ⟨rfl, fun hx h => ih2 hx (by omega)⟩
  have := (key 32 (Nat.le_refl _) s).1
  rw [this]
  have e : (sourceExists n = true ∧ n / 32 = w ∧ n % 32 < 32 ∧ mask.testBit (n % 32) = true) ↔ (sourceExists n = true ∧ Names w mask n) := by
    constructor
    · rintro ⟨x, a, -, c⟩; exact ⟨x, a, c⟩
    · rintro ⟨x, a, c⟩; exact ⟨x, a, by omega, c⟩
  simp only [e]

/-- A mask command changes only registers that its steps at sources of word `w` change. -/
theorem overMask_only {act : State → Nat → State} {s : State} {q : Nat → Prop} (w mask : Nat)
    (h : ∀ u n, sourceExists n = true → n / 32 = w → OnlyRegs s u q → OnlyRegs s (act u n) q) :
    OnlyRegs s (s.overMask w mask act) q := by
  unfold State.overMask
  refine (OnlyRegs.refl s q).foldl _ fun u b hb hu => ?_
  split
  · rename_i hc
    have hb' := List.mem_range.1 hb
    simp at hc
    exact h u _ (sourceExists_of_mask hb' hc.2) (by omega) hu
  · exact hu

theorem levelPend_only {s u : State} {q : Nat → Prop} (n : Nat) (h : OnlyRegs s u q)
    (hq : q (CRI.base + (CRI.PEND.BITS.off + 4 * (n / 32)))) : OnlyRegs s (u.levelPend n) q := by
  unfold State.levelPend
  split
  · exact h.pend n hq
  · exact h

theorem pend_srcBit (s : State) (n m : Nat) :
    (s.pend n).srcBit CRI.PEND.BITS m = if m = n ∧ sourceExists n = true then true else s.srcBit CRI.PEND.BITS m := by
  unfold State.pend
  split
  · rename_i h
    rw [show CRI.PEND.BITS = ⟨0x100, 31, 0⟩ from rfl, srcBit_setSrcBit]; simp [h]
  · rename_i h
    rw [if_neg (fun k => h k.2)]

theorem pend_srcBit_line (s : State) (n m : Nat) (h : m < 256) (hn : n < 256) :
    (s.pend n).srcBit CRI.LINE.BITS m = s.srcBit CRI.LINE.BITS m := by
  unfold State.pend
  split
  · exact srcBit_setSrcBit_other s (by omega) _
  · rfl

theorem pend_srcBit_active (s : State) (n m : Nat) (h : m < 256) (hn : n < 256) :
    (s.pend n).srcActive m = s.srcActive m := by
  unfold State.pend
  split
  · exact srcBit_setSrcBit_other s (by omega) _
  · rfl

theorem sourceExists_lt {n : Nat} (h : sourceExists n = true) : n < 256 := by simp [sourceExists] at h; omega

theorem levelPend_srcBit (s : State) (n m : Nat) (hn : sourceExists n = true) :
    (s.levelPend n).srcBit CRI.PEND.BITS m = if m = n ∧ (s.srcBit CRI.LINE.BITS n && !s.srcActive n) = true then true else s.srcBit CRI.PEND.BITS m := by
  unfold State.levelPend
  split
  · rename_i h; rw [pend_srcBit]; simp [hn, h]
  · rename_i h; rw [if_neg (fun k => h k.2)]


theorem setSrcBit_pend_pend (s : State) (n m : Nat) (v : Bool) :
    (s.setSrcBit CRI.PEND.BITS n v).srcBit CRI.PEND.BITS m = if m = n then v else s.srcBit CRI.PEND.BITS m :=
  srcBit_setSrcBit s _ _ _ _

theorem setSrcBit_pend_line (s : State) (n m : Nat) (v : Bool) (hn : n < 256) (hm : m < 256) :
    (s.setSrcBit CRI.PEND.BITS n v).srcBit CRI.LINE.BITS m = s.srcBit CRI.LINE.BITS m :=
  srcBit_setSrcBit_other s (by omega) _

theorem setSrcBit_pend_active (s : State) (n m : Nat) (v : Bool) (hn : n < 256) (hm : m < 256) :
    (s.setSrcBit CRI.PEND.BITS n v).srcActive m = s.srcActive m :=
  srcBit_setSrcBit_other s (by omega) _

theorem setSrcBit_active_active (s : State) (n m : Nat) (v : Bool) :
    (s.setSrcBit CRI.ACTIVE.BITS n v).srcActive m = if m = n then v else s.srcActive m :=
  srcBit_setSrcBit s _ _ _ _

theorem setSrcBit_active_pend (s : State) (n m : Nat) (v : Bool) (hn : n < 256) (hm : m < 256) :
    (s.setSrcBit CRI.ACTIVE.BITS n v).srcBit CRI.PEND.BITS m = s.srcBit CRI.PEND.BITS m :=
  srcBit_setSrcBit_other s (by omega) _

theorem setSrcBit_active_line (s : State) (n m : Nat) (v : Bool) (hn : n < 256) (hm : m < 256) :
    (s.setSrcBit CRI.ACTIVE.BITS n v).srcBit CRI.LINE.BITS m = s.srcBit CRI.LINE.BITS m :=
  srcBit_setSrcBit_other s (by omega) _

theorem setSrcBit_line_line (s : State) (n m : Nat) (v : Bool) :
    (s.setSrcBit CRI.LINE.BITS n v).srcBit CRI.LINE.BITS m = if m = n then v else s.srcBit CRI.LINE.BITS m :=
  srcBit_setSrcBit s _ _ _ _

theorem setSrcBit_line_pend (s : State) (n m : Nat) (v : Bool) (hn : n < 256) (hm : m < 256) :
    (s.setSrcBit CRI.LINE.BITS n v).srcBit CRI.PEND.BITS m = s.srcBit CRI.PEND.BITS m :=
  srcBit_setSrcBit_other s (by omega) _

theorem setSrcBit_line_active (s : State) (n m : Nat) (v : Bool) (hn : n < 256) (hm : m < 256) :
    (s.setSrcBit CRI.LINE.BITS n v).srcActive m = s.srcActive m :=
  srcBit_setSrcBit_other s (by omega) _

/-- A field of a route register is no mask register. -/
theorem setF_route_srcBit (s : State) {o r hi lo m : Nat} (v : Nat) (ho : o ≤ 0x180) (hr : 0x400 ≤ r) (hm : m < 256) :
    (s.setF CRI.base ⟨r, hi, lo⟩ v).srcBit ⟨o, 31, 0⟩ m = s.srcBit ⟨o, 31, 0⟩ m := by
  unfold State.srcBit State.bit
  rw [getF_setF_reg]
  simp [Fld.at]; omega

/-- A bit of a mask register is no field of a register beyond the mask registers. -/
theorem setSrcBit_getF (s : State) {o n : Nat} {g : Fld} (v : Bool) (ho : o ≤ 0x180) (hn : n < 256) (hg : 0x400 ≤ g.off) :
    (s.setSrcBit ⟨o, 31, 0⟩ n v).getF CRI.base g = s.getF CRI.base g := by
  unfold State.setSrcBit State.setBit
  rw [getF_setF_reg]
  simp [Fld.at]; omega

theorem pend_getF (s : State) {n : Nat} {g : Fld} (hn : n < 256) (hg : 0x400 ≤ g.off) :
    (s.pend n).getF CRI.base g = s.getF CRI.base g := by
  unfold State.pend
  split
  · exact setSrcBit_getF s _ (by decide) hn hg
  · rfl

theorem levelPend_getF (s : State) {n : Nat} {g : Fld} (hn : n < 256) (hg : 0x400 ≤ g.off) :
    (s.levelPend n).getF CRI.base g = s.getF CRI.base g := by
  unfold State.levelPend
  split
  · exact pend_getF s hn hg
  · rfl

theorem levelPend_srcActive (s : State) (n m : Nat) (hn : n < 256) (hm : m < 256) :
    (s.levelPend n).srcActive m = s.srcActive m := by
  unfold State.levelPend
  split
  · exact pend_srcBit_active s n m hm hn
  · rfl

/-- The winner is a source that is offered, the lowest one. -/
theorem winner_spec (s : State) (c v : Nat) :
    s.winner c v < 187 ∧ (s.winner c v ≠ 0 → s.offered c v (s.winner c v) = true) ∧
    ∀ m < 187, s.offered c v m = true → s.winner c v ≠ 0 ∧ s.winner c v ≤ m := by
  have h0 : s.offered c v 0 = false := by simp [State.offered, State.offering, sourceExists]
  unfold State.winner
  cases e : (List.range 187).find? fun n => s.offered c v n with
  | none =>
    rw [List.find?_eq_none] at e
    refine ⟨by simp, by simp, fun m hm ho => absurd ho (e m (List.mem_range.2 hm))⟩
  | some n =>
    rw [List.find?_range_eq_some] at e
    obtain ⟨e1, e2, e3⟩ := e
    refine ⟨by simpa using e2, fun _ => by simpa using e1, fun m hm ho => ?_⟩
    refine ⟨?_, ?_⟩
    · rintro h
      simp at h
      subst h
      simp [h0] at e1
    · by_contra hlt
      have := e3 m (by simpa using hlt)
      simp [ho] at this

end Sys2Proof.Laws
end

