-- ==== Sys2Proof/Laws/Part.lean ====
section
/-! SUPPORT. Which part of a state a register address belongs to, and how "at most these parts change" is carried. -/

namespace Sys2Proof.Laws

open Sys2Proof Sys2Proof.Machine Sys2Proof.Safety

/-- The registers of a block, as a part. -/
def Blk.part : Blk → Part
  | .sys => .sysR | .ais => .aisR | .car => .carR | .stl => .stlR | .cnv => .cnvR | .cmp => .cmpR | .leg => .legR
  | .eng => .engR | .trp => .trpR | .cri => .criR | .flc => .flcR | .cel => .celR | .wdt => .wdtR | .knr => .knrR
  | .ode => .odeR | .atc => .atcR | .dbg => .dbgR | .spi => .spiR | .uart => .uartR | .can => .canR | .iic => .iicR
  | .qep => .qepR | .gpio => .gpioR

/-- A register address of a block whose registers are in `l`, or no register address at all. -/
def InPart (l : List Part) (a : Nat) : Prop := ∀ p, place a = some p → Blk.part p.blk ∈ l

/-- Every part of one list is in another. -/
abbrev Sub (a b : List Part) : Prop := ∀ p ∈ a, p ∈ b

theorem Sub.trans {a b c : List Part} (h : Sub a b) (k : Sub b c) : Sub a c := fun p hp => k p (h p hp)

theorem off_at {f : Fld} {d n m : Nat} (hd : d < n) (hf : f.off + n ≤ m) : (f.at d).off < m := by
  show f.off + d < m
  omega

variable {l : List Part}

theorem inPart_of_blk {a : Nat} {b : Blk} (h : (place a).map Place.blk = some b) (m : Blk.part b ∈ l) : InPart l a := by
  intro p hp
  rw [hp] at h
  rw [Option.some.inj h]
  exact m

/-- An address in an aisle's window. -/
theorem place_aisle (a x : Nat) (hx : x < 0x100000) : place (AIS.base a + x) = aislePlace (a % 3) x := by
  unfold place
  have h1 : (AIS.base a + x) / 0x1000000 = 0x40 := by unfold AIS.base; omega
  have h2 : (AIS.base a + x) % 0x1000000 = a % 3 * 0x100000 + x := by unfold AIS.base; omega
  simp only [h1, h2]
  rw [if_pos (by omega), show (a % 3 * 0x100000 + x) / 0x100000 = a % 3 by omega,
    show (a % 3 * 0x100000 + x) % 0x100000 = x by omega]

theorem blk_ais (a o : Nat) (h : o < 0x1000) : (place (AIS.base a + o)).map Place.blk = some .ais := by
  rw [place_aisle a o (by omega), aislePlace, if_pos h]; rfl

theorem blk_car (g o : Nat) (h : o < 0x100) : (place (CAR.base g + o)).map Place.blk = some .car := by
  rw [CAR.base, Nat.add_assoc, Nat.add_assoc, place_aisle _ _ (by omega), aislePlace, if_neg (by omega), if_pos (by omega)]; rfl

theorem place_stall (s x : Nat) (hx : x < 0x10000) : place (STL.base s + x) = aislePlace (s / 4 % 3) (0x10000 * (s % 4 + 1) + x) := by
  rw [STL.base, Nat.add_assoc, place_aisle _ _ (by omega)]

theorem blk_cnv (s o : Nat) (h : o < 0x100) : (place (CNV.base s + o)).map Place.blk = some .cnv := by
  rw [CNV.base, place_stall s o (by omega), aislePlace, if_neg (by omega), if_neg (by omega), if_neg (by omega),
    if_pos (by omega)]
  dsimp only
  rw [show (0x10000 * (s % 4 + 1) + o) % 0x10000 = o by omega, if_pos h]; rfl

theorem blk_stl (s o : Nat) (h1 : 0x100 ≤ o) (h : o < 0x1000) : (place (STL.base s + o)).map Place.blk = some .stl := by
  rw [place_stall s o (by omega), aislePlace, if_neg (by omega), if_neg (by omega), if_neg (by omega),
    if_pos (by omega)]
  dsimp only
  rw [show (0x10000 * (s % 4 + 1) + o) % 0x10000 = o by omega, if_neg (by omega), if_pos h]; rfl

theorem blk_cmp (c o : Nat) (h : o < 0x100) : (place (CMP.base c + o)).map Place.blk = some .cmp := by
  rw [CMP.base, Nat.add_assoc, Nat.add_assoc, place_stall _ _ (by omega), aislePlace, if_neg (by omega), if_neg (by omega),
    if_neg (by omega), if_pos (by omega)]
  dsimp only
  rw [show (0x10000 * (c / 2 % 4 + 1) + (0x1000 + (0x100 * (c % 2) + o))) % 0x10000 = 0x1000 + (0x100 * (c % 2) + o) by omega,
    if_neg (by omega), if_neg (by omega), if_pos (by omega)]; rfl

theorem blk_leg (i o : Nat) (h : o < 0x100) : (place (LEG.base i + o)).map Place.blk = some .leg := by
  rw [LEG.base, Nat.add_assoc, Nat.add_assoc, place_stall _ _ (by omega), aislePlace, if_neg (by omega), if_neg (by omega),
    if_neg (by omega), if_pos (by omega)]
  dsimp only
  rw [show (0x10000 * (i / 4 % 4 + 1) + (0x2000 + (0x100 * (i % 4) + o))) % 0x10000 = 0x2000 + (0x100 * (i % 4) + o) by omega,
    if_neg (by omega), if_neg (by omega), if_neg (by omega), if_neg (by omega), if_pos (by omega)]; rfl

theorem blk_eng (s o : Nat) (h : o < 0xC000) : (place (ENG.base s + o)).map Place.blk = some .eng := by
  rw [ENG.base, Nat.add_assoc, place_stall _ _ (by omega), aislePlace, if_neg (by omega), if_neg (by omega),
    if_neg (by omega), if_pos (by omega)]
  dsimp only
  rw [show (0x10000 * (s % 4 + 1) + (0x4000 + o)) % 0x10000 = 0x4000 + o by omega, if_neg (by omega), if_neg (by omega),
    if_neg (by omega), if_neg (by omega), if_neg (by omega), if_neg (by omega)]; rfl

theorem blk_trp (o : Nat) (h : o < 0x1000000) : (place (TRP.base + o)).map Place.blk = some .trp := by
  unfold place
  simp only [show (TRP.base + o) / 0x1000000 = 0x46 by unfold TRP.base; omega]
  rfl
theorem blk_cri (o : Nat) (h : o < 0x1000000) : (place (CRI.base + o)).map Place.blk = some .cri := by
  unfold place
  simp only [show (CRI.base + o) / 0x1000000 = 0x48 by unfold CRI.base; omega]
  rfl
theorem blk_flc (o : Nat) (h : o < 0x1000000) : (place (FLC.base + o)).map Place.blk = some .flc := by
  unfold place
  simp only [show (FLC.base + o) / 0x1000000 = 0x49 by unfold FLC.base; omega]
  rfl
theorem blk_knr (o : Nat) (h : o < 0x1000000) : (place (KNR.base + o)).map Place.blk = some .knr := by
  unfold place
  simp only [show (KNR.base + o) / 0x1000000 = 0x4A by unfold KNR.base; omega]
  rfl
theorem blk_atc (o : Nat) (h : o < 0x1000000) : (place (ATC.base + o)).map Place.blk = some .atc := by
  unfold place
  simp only [show (ATC.base + o) / 0x1000000 = 0x4B by unfold ATC.base; omega]
  rfl
theorem blk_cel (o : Nat) (h : o < 0x1000000) : (place (CEL.base + o)).map Place.blk = some .cel := by
  unfold place
  simp only [show (CEL.base + o) / 0x1000000 = 0x4D by unfold CEL.base; omega]
  rfl
theorem blk_dbg (o : Nat) (h : o < 0x1000000) : (place (DBG.base + o)).map Place.blk = some .dbg := by
  unfold place
  simp only [show (DBG.base + o) / 0x1000000 = 0x4E by unfold DBG.base; omega]
  rfl
theorem blk_ode (o : Nat) (h : o < 0x1000000) : (place (ODE.base + o)).map Place.blk = some .ode := by
  unfold place
  simp only [show (ODE.base + o) / 0x1000000 = 0x4F by unfold ODE.base; omega]
  rfl
theorem blk_sys (o : Nat) (h : o < 0x1000000) : (place (SYS.base + o)).map Place.blk = some .sys := by
  unfold place
  simp only [show (SYS.base + o) / 0x1000000 = 0x50 by unfold SYS.base; omega]
  rfl

theorem place_slot {a p o : Nat} (e : a = 0x4C000000 + 0x10000 * p + o) (hp : p < 0x100) (h : o < 0x10000) :
    place a = slotPlace p o := by
  unfold place
  simp only [show a / 0x1000000 = 0x4C by omega, show a % 0x1000000 / 0x10000 = p by omega,
    show a % 0x1000000 % 0x10000 = o by omega]

theorem blk_spi (i o : Nat) (h : o < 0x10000) : (place (SPI.base i + o)).map Place.blk = some .spi := by
  rw [place_slot (p := i % 4) (o := o) (by unfold SPI.base; omega) (by omega) h, slotPlace, if_pos (by omega)]; rfl
theorem blk_uart (i o : Nat) (h : o < 0x10000) : (place (UART.base i + o)).map Place.blk = some .uart := by
  rw [place_slot (p := 4 + i % 2) (o := o) (by unfold UART.base; omega) (by omega) h, slotPlace, if_neg (by omega),
    if_pos (by omega)]; rfl
theorem blk_can (i o : Nat) (h : o < 0x10000) : (place (CAN.base i + o)).map Place.blk = some .can := by
  rw [place_slot (p := 6 + i % 2) (o := o) (by unfold CAN.base; omega) (by omega) h, slotPlace, if_neg (by omega),
    if_neg (by omega), if_pos (by omega)]; rfl
theorem blk_iic (i o : Nat) (h : o < 0x10000) : (place (IIC.base i + o)).map Place.blk = some .iic := by
  rw [place_slot (p := 8 + i % 2) (o := o) (by unfold IIC.base; omega) (by omega) h, slotPlace, if_neg (by omega),
    if_neg (by omega), if_neg (by omega), if_pos (by omega)]; rfl
theorem blk_qep (i o : Nat) (h : o < 0x10000) : (place (QEP.base i + o)).map Place.blk = some .qep := by
  rw [place_slot (p := 10 + i % 4) (o := o) (by unfold QEP.base; omega) (by omega) h, slotPlace, if_neg (by omega),
    if_neg (by omega), if_neg (by omega), if_neg (by omega), if_pos (by omega)]; rfl
theorem blk_gpio (o : Nat) (h : o < 0x10000) : (place (GPIO.base + o)).map Place.blk = some .gpio := by
  rw [place_slot (p := 14) (o := o) (by unfold GPIO.base; omega) (by omega) h]; rfl
theorem blk_wdt (i o : Nat) (h : o < 0x10000) : (place (WDT.base i + o)).map Place.blk = some .wdt := by
  rw [place_slot (p := 15 + i % 5) (o := o) (by unfold WDT.base; omega) (by omega) h, slotPlace, if_neg (by omega),
    if_neg (by omega), if_neg (by omega), if_neg (by omega), if_neg (by omega), if_neg (by omega), if_pos (by omega)]; rfl

/-! ### The side conditions of a register write -/

theorem in_ais {i o : Nat} (m : Part.aisR ∈ l) (h : o < 0x1000) : InPart l (AIS.base i + o) := inPart_of_blk (blk_ais i o h) m
theorem in_car {i o : Nat} (m : Part.carR ∈ l) (h : o < 0x100) : InPart l (CAR.base i + o) := inPart_of_blk (blk_car i o h) m
theorem in_stl {i o : Nat} (m : Part.stlR ∈ l) (h : 0x100 ≤ o ∧ o < 0x1000) : InPart l (STL.base i + o) :=
  inPart_of_blk (blk_stl i o h.1 h.2) m
theorem in_cnv {i o : Nat} (m : Part.cnvR ∈ l) (h : o < 0x100) : InPart l (CNV.base i + o) := inPart_of_blk (blk_cnv i o h) m
theorem in_cmp {i o : Nat} (m : Part.cmpR ∈ l) (h : o < 0x100) : InPart l (CMP.base i + o) := inPart_of_blk (blk_cmp i o h) m
theorem in_leg {i o : Nat} (m : Part.legR ∈ l) (h : o < 0x100) : InPart l (LEG.base i + o) := inPart_of_blk (blk_leg i o h) m
theorem in_eng {i o : Nat} (m : Part.engR ∈ l) (h : o < 0xC000) : InPart l (ENG.base i + o) := inPart_of_blk (blk_eng i o h) m
theorem in_trp {o : Nat} (m : Part.trpR ∈ l) (h : o < 0x1000000) : InPart l (TRP.base + o) := inPart_of_blk (blk_trp o h) m
theorem in_cri {o : Nat} (m : Part.criR ∈ l) (h : o < 0x1000000) : InPart l (CRI.base + o) := inPart_of_blk (blk_cri o h) m
theorem in_flc {o : Nat} (m : Part.flcR ∈ l) (h : o < 0x1000000) : InPart l (FLC.base + o) := inPart_of_blk (blk_flc o h) m
theorem in_knr {o : Nat} (m : Part.knrR ∈ l) (h : o < 0x1000000) : InPart l (KNR.base + o) := inPart_of_blk (blk_knr o h) m
theorem in_atc {o : Nat} (m : Part.atcR ∈ l) (h : o < 0x1000000) : InPart l (ATC.base + o) := inPart_of_blk (blk_atc o h) m
theorem in_cel {o : Nat} (m : Part.celR ∈ l) (h : o < 0x1000000) : InPart l (CEL.base + o) := inPart_of_blk (blk_cel o h) m
theorem in_dbg {o : Nat} (m : Part.dbgR ∈ l) (h : o < 0x1000000) : InPart l (DBG.base + o) := inPart_of_blk (blk_dbg o h) m
theorem in_ode {o : Nat} (m : Part.odeR ∈ l) (h : o < 0x1000000) : InPart l (ODE.base + o) := inPart_of_blk (blk_ode o h) m
theorem in_sys {o : Nat} (m : Part.sysR ∈ l) (h : o < 0x1000000) : InPart l (SYS.base + o) := inPart_of_blk (blk_sys o h) m
theorem in_spi {i o : Nat} (m : Part.spiR ∈ l) (h : o < 0x10000) : InPart l (SPI.base i + o) := inPart_of_blk (blk_spi i o h) m
theorem in_uart {i o : Nat} (m : Part.uartR ∈ l) (h : o < 0x10000) : InPart l (UART.base i + o) := inPart_of_blk (blk_uart i o h) m
theorem in_can {i o : Nat} (m : Part.canR ∈ l) (h : o < 0x10000) : InPart l (CAN.base i + o) := inPart_of_blk (blk_can i o h) m
theorem in_iic {i o : Nat} (m : Part.iicR ∈ l) (h : o < 0x10000) : InPart l (IIC.base i + o) := inPart_of_blk (blk_iic i o h) m
theorem in_qep {i o : Nat} (m : Part.qepR ∈ l) (h : o < 0x10000) : InPart l (QEP.base i + o) := inPart_of_blk (blk_qep i o h) m
theorem in_gpio {o : Nat} (m : Part.gpioR ∈ l) (h : o < 0x10000) : InPart l (GPIO.base + o) := inPart_of_blk (blk_gpio o h) m
theorem in_wdt {i o : Nat} (m : Part.wdtR ∈ l) (h : o < 0x10000) : InPart l (WDT.base i + o) := inPart_of_blk (blk_wdt i o h) m

theorem off_portUpF (p : Nat) : (portUpF p).off < 0x1000000 := by show _ + _ < _; omega
theorem off_cdrLockF (p : Nat) : (cdrLockF p).off < 0x1000000 := by show _ + _ < _; omega
theorem off_blockLockF (p : Nat) : (blockLockF p).off < 0x1000000 := by show _ + _ < _; omega
theorem off_faultRxF (p : Nat) : (faultRxF p).off < 0x1000000 := by show _ + _ < _; omega
theorem off_clkSrcF (p : Nat) : (clkSrcF p).off < 0x1000000 := off_at (n := 0x100) (by omega) (by decide)
theorem off_shadowReg (k : Fin 4) : (shadowReg k).off < 0x100 := by unfold shadowReg; split <;> decide

/-! ### The ranges that resets clear -/

/-- The windows of aisle `a`. -/
theorem aislePlace_blk {a o : Nat} {p : Place} (h : aislePlace a o = some p) :
    p.blk = .ais ∨ p.blk = .car ∨ p.blk = .cnv ∨ p.blk = .stl ∨ p.blk = .cmp ∨ p.blk = .leg ∨ p.blk = .eng := by
  unfold aislePlace at h
  dsimp only at h
  repeat' split at h
  all_goals first | (cases h; done) | (obtain rfl := Option.some.inj h; simp)

theorem slotPlace_blk {n o : Nat} {p : Place} (hn : n < 15) (h : slotPlace n o = some p) :
    p.blk = .spi ∨ p.blk = .uart ∨ p.blk = .can ∨ p.blk = .iic ∨ p.blk = .qep ∨ p.blk = .gpio := by
  unfold slotPlace at h
  repeat' split at h
  all_goals first | (cases h; done) | omega | (obtain rfl := Option.some.inj h; simp)

theorem place_low {a : Nat} {p : Place} (h1 : a < 0x49000000) (h : place a = some p) :
    p.blk = .ais ∨ p.blk = .car ∨ p.blk = .cnv ∨ p.blk = .stl ∨ p.blk = .cmp ∨ p.blk = .leg ∨ p.blk = .eng ∨ p.blk = .trp ∨
      p.blk = .cri := by
  unfold place at h
  dsimp only at h
  split at h
  · split at h
    · have := aislePlace_blk h
      tauto
    · cases h
  all_goals first | (cases h; done) | omega | (obtain rfl := Option.some.inj h; simp)

theorem clear_low (m : Sub [.aisR, .carR, .stlR, .cnvR, .cmpR, .legR, .engR, .trpR, .criR] l) (a : Nat) (_ : 0x40000000 ≤ a)
    (h : a < 0x49000000) : InPart l a := by
  intro p hp
  obtain h | h | h | h | h | h | h | h | h := place_low h hp <;> rw [h] <;> exact m _ (by decide)

theorem clear_aisle {i : Nat} (m : Sub [.aisR, .carR, .stlR, .cnvR, .cmpR, .legR, .engR] l) (a : Nat) (h1 : AIS.base i ≤ a)
    (h2 : a < AIS.base i + 0x100000) : InPart l a := by
  intro p hp
  obtain ⟨x, rfl⟩ := Nat.exists_eq_add_of_le h1
  rw [place_aisle i x (by omega)] at hp
  obtain h | h | h | h | h | h | h := aislePlace_blk hp <;> rw [h] <;> exact m _ (by decide)

theorem clear_mid (m : Sub [.atcR, .spiR, .uartR, .canR, .iicR, .qepR, .gpioR] l) (a : Nat) (h1 : 0x4B000000 ≤ a)
    (h2 : a < 0x4C0F0000) : InPart l a := by
  by_cases k : a < 0x4C000000
  · obtain ⟨x, rfl⟩ := Nat.exists_eq_add_of_le h1
    exact in_atc (m _ (by decide)) (by omega)
  · intro p hp
    rw [place_slot (p := (a - 0x4C000000) / 0x10000) (o := a % 0x10000) (by omega) (by omega) (by omega)] at hp
    obtain h | h | h | h | h | h := slotPlace_blk (by omega) hp <;> rw [h] <;> exact m _ (by decide)

theorem clear_flc (m : Sub [.flcR] l) (a : Nat) (h1 : FLC.base ≤ a) (h2 : a < FLC.base + 0x1000000) : InPart l a := by
  obtain ⟨x, rfl⟩ := Nat.exists_eq_add_of_le h1
  exact in_flc (m _ (by decide)) (by omega)
theorem clear_knr (m : Sub [.knrR] l) (a : Nat) (h1 : KNR.base ≤ a) (h2 : a < KNR.base + 0x1000000) : InPart l a := by
  obtain ⟨x, rfl⟩ := Nat.exists_eq_add_of_le h1
  exact in_knr (m _ (by decide)) (by omega)
theorem clear_atc (m : Sub [.atcR] l) (a : Nat) (h1 : ATC.base ≤ a) (h2 : a < ATC.base + 0x1000000) : InPart l a := by
  obtain ⟨x, rfl⟩ := Nat.exists_eq_add_of_le h1
  exact in_atc (m _ (by decide)) (by omega)
theorem clear_sys (m : Sub [.sysR] l) (a : Nat) (h1 : SYS.base ≤ a) (h2 : a < SYS.base + 0x1000) : InPart l a := by
  obtain ⟨x, rfl⟩ := Nat.exists_eq_add_of_le h1
  exact in_sys (m _ (by decide)) (by omega)
theorem clear_dbg (m : Sub [.dbgR] l) (a : Nat) (h1 : DBG.base ≤ a) (h2 : a < DBG.base + 0x1000) : InPart l a := by
  obtain ⟨x, rfl⟩ := Nat.exists_eq_add_of_le h1
  exact in_dbg (m _ (by decide)) (by omega)
theorem clear_cel (m : Sub [.celR] l) (a : Nat) (h1 : CEL.base + 0x800 ≤ a) (h2 : a < CEL.base + 0x1000) : InPart l a := by
  obtain ⟨x, rfl⟩ := Nat.exists_eq_add_of_le h1
  exact Nat.add_assoc CEL.base _ _ ▸ in_cel (m _ (by decide)) (by omega)
theorem clear_ode (m : Sub [.odeR] l) (a : Nat) (h1 : ODE.base ≤ a) (h2 : a < ODE.base + 0x1000000) : InPart l a := by
  obtain ⟨x, rfl⟩ := Nat.exists_eq_add_of_le h1
  exact in_ode (m _ (by decide)) (by omega)

end Sys2Proof.Laws
end

