-- ==== Sys2Proof/Laws/Keeps.lean ====
section
/-! SUPPORT. What an operation of the hall may do: change the parts of the state that a list names, and nothing else;
and never touch the queue of commands, turn time or the count of free values back, withdraw that behaviour is no longer
warranted, or break the canonical form of the register file or of memory.  One relation between two states says it,
with the rules by which it passes through a definition's text; one lemma for each operation (files Keep…) says it of
that operation with the parts it may change. -/

namespace Sys2Proof.Laws

open Sys2Proof Sys2Proof.Machine Sys2Proof.Safety

/-- From `r` to `s` at most the parts `L` have changed, and nothing of the above has happened. -/
structure Keeps (L : List Part) (r s : State) : Prop where
  queue : s.pending = r.pending
  time : r.now ≤ s.now
  free : r.free ≤ s.free
  warranted : s.warranted = true → r.warranted = true
  regs : Sparse.wf resetWordAt r.regs = true → Sparse.wf resetWordAt s.regs = true
  mem : Memory.wf r.mem = true → Memory.wf s.mem = true
  same : Within L r s

/-- The same of a state that may be missing, or that comes with values. -/
def KeepsO (L : List Part) (r : State) (o : Option State) : Prop := ∀ s, o = some s → Keeps L r s
def KeepsP {α : Type} (L : List Part) (r : State) (o : Option (α × State)) : Prop := ∀ p, o = some p → Keeps L r p.2
def Keeps1 {α : Type} (L : List Part) (r : State) (p : State × α) : Prop := Keeps L r p.1
def Keeps2 {α : Type} (L : List Part) (r : State) (p : α × State) : Prop := Keeps L r p.2
def Keeps21 {α β : Type} (L : List Part) (r : State) (p : α × State × β) : Prop := Keeps L r p.2.1
def Keeps22 {α β : Type} (L : List Part) (r : State) (p : α × β × State) : Prop := Keeps L r p.2.2

/-- An outcome is a next state that keeps all this. -/
def Runs (L : List Part) (r : State) (o : Host.Outcome State Fault Refusal) : Prop := ∃ t, o = .next t ∧ Keeps L r t

variable {L : List Part} {r s t u : State} {α β : Type}

theorem same_refl (p : Part) (s : State) : p.Same s s := by cases p <;> first | rfl | exact fun _ _ => rfl

theorem same_trans {p : Part} (h : p.Same r s) (k : p.Same s t) : p.Same r t := by
  cases p <;> first | exact Eq.trans k h | exact fun a ha => (k a ha).trans (h a ha)

theorem within_refl (L : List Part) (s : State) : Within L s s := fun p _ => same_refl p s

theorem within_trans (h : Within L r s) (k : Within L s t) : Within L r t := fun p hp => same_trans (h p hp) (k p hp)

theorem within_mono {M : List Part} (h : Within L r s) (k : Sub L M) : Within M r s := fun p hp => h p fun m => hp (k p m)

theorem Keeps.refl (s : State) : Keeps L s s := ⟨rfl, Nat.le_refl _, Nat.le_refl _, id, id, id, within_refl L s⟩

theorem Keeps.trans (h : Keeps L r s) (k : Keeps L s t) : Keeps L r t :=
  ⟨k.queue.trans h.queue, Nat.le_trans h.time k.time, Nat.le_trans h.free k.free,
    h.warranted ∘ k.warranted, k.regs ∘ h.regs, k.mem ∘ h.mem, within_trans h.same k.same⟩

theorem Keeps.mono {M : List Part} (h : Keeps L r s) (k : Sub L M) : Keeps M r s :=
  ⟨h.queue, h.time, h.free, h.warranted, h.regs, h.mem, within_mono h.same k⟩

/-! ### Updates of fields -/

theorem Keeps.set_shadows (m : Part.shadows ∈ L) {v : List Shadow} (h : Keeps L r s) : Keeps L r { s with shadows := v } :=
  ⟨h.queue, h.time, h.free, h.warranted, h.regs, h.mem, fun p hp =>
    same_trans (h.same p hp) (by cases p <;> first | exact absurd m hp | rfl | exact fun _ _ => rfl)⟩
theorem Keeps.set_happened (m : Part.happened ∈ L) {v : Happened} (h : Keeps L r s) : Keeps L r { s with happened := v } :=
  ⟨h.queue, h.time, h.free, h.warranted, h.regs, h.mem, fun p hp =>
    same_trans (h.same p hp) (by cases p <;> first | exact absurd m hp | rfl | exact fun _ _ => rfl)⟩
theorem Keeps.set_replay (m : Part.replay ∈ L) {v : Vector Replay 4} (h : Keeps L r s) : Keeps L r { s with replay := v } :=
  ⟨h.queue, h.time, h.free, h.warranted, h.regs, h.mem, fun p hp =>
    same_trans (h.same p hp) (by cases p <;> first | exact absurd m hp | rfl | exact fun _ _ => rfl)⟩
theorem Keeps.set_readData (m : Part.readData ∈ L) {v : Vector Word 16} (h : Keeps L r s) : Keeps L r { s with readData := v } :=
  ⟨h.queue, h.time, h.free, h.warranted, h.regs, h.mem, fun p hp =>
    same_trans (h.same p hp) (by cases p <;> first | exact absurd m hp | rfl | exact fun _ _ => rfl)⟩
theorem Keeps.set_writeBack (m : Part.writeBack ∈ L) {v : List Nat} (h : Keeps L r s) : Keeps L r { s with writeBack := v } :=
  ⟨h.queue, h.time, h.free, h.warranted, h.regs, h.mem, fun p hp =>
    same_trans (h.same p hp) (by cases p <;> first | exact absurd m hp | rfl | exact fun _ _ => rfl)⟩
theorem Keeps.set_options (m : Part.options ∈ L) {v : Options} (h : Keeps L r s) : Keeps L r { s with options := v } :=
  ⟨h.queue, h.time, h.free, h.warranted, h.regs, h.mem, fun p hp =>
    same_trans (h.same p hp) (by cases p <;> first | exact absurd m hp | rfl | exact fun _ _ => rfl)⟩
theorem Keeps.set_cellar (m : Part.cellar ∈ L) {v : Cellar} (h : Keeps L r s) : Keeps L r { s with cellar := v } :=
  ⟨h.queue, h.time, h.free, h.warranted, h.regs, h.mem, fun p hp =>
    same_trans (h.same p hp) (by cases p <;> first | exact absurd m hp | rfl | exact fun _ _ => rfl)⟩
theorem Keeps.set_crier (m : Part.crier ∈ L) {v : Crier} (h : Keeps L r s) : Keeps L r { s with crier := v } :=
  ⟨h.queue, h.time, h.free, h.warranted, h.regs, h.mem, fun p hp =>
    same_trans (h.same p hp) (by cases p <;> first | exact absurd m hp | rfl | exact fun _ _ => rfl)⟩
theorem Keeps.set_clock (m : Part.clock ∈ L) {v : MarketClock} (h : Keeps L r s) : Keeps L r { s with clock := v } :=
  ⟨h.queue, h.time, h.free, h.warranted, h.regs, h.mem, fun p hp =>
    same_trans (h.same p hp) (by cases p <;> first | exact absurd m hp | rfl | exact fun _ _ => rfl)⟩
theorem Keeps.set_aisle (m : Part.aisle ∈ L) {v : Vector Aisle 3} (h : Keeps L r s) : Keeps L r { s with aisle := v } :=
  ⟨h.queue, h.time, h.free, h.warranted, h.regs, h.mem, fun p hp =>
    same_trans (h.same p hp) (by cases p <;> first | exact absurd m hp | rfl | exact fun _ _ => rfl)⟩
theorem Keeps.set_car (m : Part.car ∈ L) {v : Vector Carrier 12} (h : Keeps L r s) : Keeps L r { s with car := v } :=
  ⟨h.queue, h.time, h.free, h.warranted, h.regs, h.mem, fun p hp =>
    same_trans (h.same p hp) (by cases p <;> first | exact absurd m hp | rfl | exact fun _ _ => rfl)⟩
theorem Keeps.set_leg (m : Part.leg ∈ L) {v : Vector Leg 48} (h : Keeps L r s) : Keeps L r { s with leg := v } :=
  ⟨h.queue, h.time, h.free, h.warranted, h.regs, h.mem, fun p hp =>
    same_trans (h.same p hp) (by cases p <;> first | exact absurd m hp | rfl | exact fun _ _ => rfl)⟩
theorem Keeps.set_cmp (m : Part.cmp ∈ L) {v : Vector Comparator 24} (h : Keeps L r s) : Keeps L r { s with cmp := v } :=
  ⟨h.queue, h.time, h.free, h.warranted, h.regs, h.mem, fun p hp =>
    same_trans (h.same p hp) (by cases p <;> first | exact absurd m hp | rfl | exact fun _ _ => rfl)⟩
theorem Keeps.set_cnv (m : Part.cnv ∈ L) {v : Vector Converter 12} (h : Keeps L r s) : Keeps L r { s with cnv := v } :=
  ⟨h.queue, h.time, h.free, h.warranted, h.regs, h.mem, fun p hp =>
    same_trans (h.same p hp) (by cases p <;> first | exact absurd m hp | rfl | exact fun _ _ => rfl)⟩
theorem Keeps.set_eng (m : Part.eng ∈ L) {v : Vector Engine 12} (h : Keeps L r s) : Keeps L r { s with eng := v } :=
  ⟨h.queue, h.time, h.free, h.warranted, h.regs, h.mem, fun p hp =>
    same_trans (h.same p hp) (by cases p <;> first | exact absurd m hp | rfl | exact fun _ _ => rfl)⟩
theorem Keeps.set_qep (m : Part.qep ∈ L) {v : Vector Qep 4} (h : Keeps L r s) : Keeps L r { s with qep := v } :=
  ⟨h.queue, h.time, h.free, h.warranted, h.regs, h.mem, fun p hp =>
    same_trans (h.same p hp) (by cases p <;> first | exact absurd m hp | rfl | exact fun _ _ => rfl)⟩
theorem Keeps.set_trip (m : Part.trip ∈ L) {v : TripUnit} (h : Keeps L r s) : Keeps L r { s with trip := v } :=
  ⟨h.queue, h.time, h.free, h.warranted, h.regs, h.mem, fun p hp =>
    same_trans (h.same p hp) (by cases p <;> first | exact absurd m hp | rfl | exact fun _ _ => rfl)⟩
theorem Keeps.set_ring (m : Part.ring ∈ L) {v : Ring} (h : Keeps L r s) : Keeps L r { s with ring := v } :=
  ⟨h.queue, h.time, h.free, h.warranted, h.regs, h.mem, fun p hp =>
    same_trans (h.same p hp) (by cases p <;> first | exact absurd m hp | rfl | exact fun _ _ => rfl)⟩
theorem Keeps.set_ode (m : Part.ode ∈ L) {v : Ode} (h : Keeps L r s) : Keeps L r { s with ode := v } :=
  ⟨h.queue, h.time, h.free, h.warranted, h.regs, h.mem, fun p hp =>
    same_trans (h.same p hp) (by cases p <;> first | exact absurd m hp | rfl | exact fun _ _ => rfl)⟩
theorem Keeps.set_attic (m : Part.attic ∈ L) {v : Attic} (h : Keeps L r s) : Keeps L r { s with attic := v } :=
  ⟨h.queue, h.time, h.free, h.warranted, h.regs, h.mem, fun p hp =>
    same_trans (h.same p hp) (by cases p <;> first | exact absurd m hp | rfl | exact fun _ _ => rfl)⟩
theorem Keeps.set_core (m : Part.core ∈ L) {v : Vector Core 4} (h : Keeps L r s) : Keeps L r { s with core := v } :=
  ⟨h.queue, h.time, h.free, h.warranted, h.regs, h.mem, fun p hp =>
    same_trans (h.same p hp) (by cases p <;> first | exact absurd m hp | rfl | exact fun _ _ => rfl)⟩
theorem Keeps.set_debug (m : Part.dbg ∈ L) {v : Debug} (h : Keeps L r s) : Keeps L r { s with dbg := v } :=
  ⟨h.queue, h.time, h.free, h.warranted, h.regs, h.mem, fun p hp =>
    same_trans (h.same p hp) (by cases p <;> first | exact absurd m hp | rfl | exact fun _ _ => rfl)⟩
theorem Keeps.set_flash (m : Part.flash ∈ L) {v : Flash} (h : Keeps L r s) : Keeps L r { s with flash := v } :=
  ⟨h.queue, h.time, h.free, h.warranted, h.regs, h.mem, fun p hp =>
    same_trans (h.same p hp) (by cases p <;> first | exact absurd m hp | rfl | exact fun _ _ => rfl)⟩
theorem Keeps.set_spi (m : Part.spi ∈ L) {v : Vector Serial 4} (h : Keeps L r s) : Keeps L r { s with spi := v } :=
  ⟨h.queue, h.time, h.free, h.warranted, h.regs, h.mem, fun p hp =>
    same_trans (h.same p hp) (by cases p <;> first | exact absurd m hp | rfl | exact fun _ _ => rfl)⟩
theorem Keeps.set_uart (m : Part.uart ∈ L) {v : Vector Serial 2} (h : Keeps L r s) : Keeps L r { s with uart := v } :=
  ⟨h.queue, h.time, h.free, h.warranted, h.regs, h.mem, fun p hp =>
    same_trans (h.same p hp) (by cases p <;> first | exact absurd m hp | rfl | exact fun _ _ => rfl)⟩
theorem Keeps.set_can (m : Part.can ∈ L) {v : Vector Can 2} (h : Keeps L r s) : Keeps L r { s with can := v } :=
  ⟨h.queue, h.time, h.free, h.warranted, h.regs, h.mem, fun p hp =>
    same_trans (h.same p hp) (by cases p <;> first | exact absurd m hp | rfl | exact fun _ _ => rfl)⟩
theorem Keeps.set_iic (m : Part.iic ∈ L) {v : Vector Iic 2} (h : Keeps L r s) : Keeps L r { s with iic := v } :=
  ⟨h.queue, h.time, h.free, h.warranted, h.regs, h.mem, fun p hp =>
    same_trans (h.same p hp) (by cases p <;> first | exact absurd m hp | rfl | exact fun _ _ => rfl)⟩

theorem Keeps.addFree (m : Part.free ∈ L) {k : Nat} (h : Keeps L r s) : Keeps L r { s with free := s.free + k } :=
  ⟨h.queue, h.time, Nat.le_add_right_of_le h.free, h.warranted, h.regs, h.mem, fun p hp =>
    same_trans (h.same p hp) (by cases p <;> first | exact absurd m hp | rfl | exact fun _ _ => rfl)⟩

theorem Keeps.set_now (m : Part.now ∈ L) {v : Nat} (hv : s.now ≤ v) (h : Keeps L r s) : Keeps L r { s with now := v } :=
  ⟨h.queue, Nat.le_trans h.time hv, h.free, h.warranted, h.regs, h.mem, fun p hp =>
    same_trans (h.same p hp) (by cases p <;> first | exact absurd m hp | rfl | exact fun _ _ => rfl)⟩

theorem Keeps.set_mem (m : Part.mem ∈ L) {v : List Host.Cell} (hv : Memory.wf s.mem = true → Memory.wf v = true) (h : Keeps L r s) :
    Keeps L r { s with mem := v } :=
  ⟨h.queue, h.time, h.free, h.warranted, h.regs, hv ∘ h.mem, fun p hp =>
    same_trans (h.same p hp) (by cases p <;> first | exact absurd m hp | rfl | exact fun _ _ => rfl)⟩

/-- Of another state only the flash record and the count of free values are taken over. -/
theorem Keeps.taken (m : Part.flash ∈ L) (n : Part.free ∈ L) (h : Keeps L r s) (k : Keeps L r t) :
    Keeps L r { s with flash := t.flash, free := t.free } :=
  ⟨h.queue, h.time, k.free, h.warranted, h.regs, h.mem, fun p hp =>
    same_trans (h.same p hp) (by cases p <;> first | exact absurd m hp | exact absurd n hp | rfl | exact fun _ _ => rfl)⟩

/-! ### Updates of registers, memory, time, free values -/

theorem Same_wr {p : Part} {a : Nat} {w : Word} (ha : InPart L a) (hp : p ∉ L) : p.Same s (s.wr a w) := by
  have k : ∀ b, Blk.part b = p → SameRegs b s (s.wr a w) := by
    intro b hb x hx
    unfold State.rd State.wr
    refine sparse_get_set_other ?_ _ _
    rintro rfl
    cases e : place x with
    | none => rw [e] at hx; cases hx
    | some q =>
      rw [e] at hx
      have := ha q e
      rw [Option.some.inj hx, hb] at this
      exact hp this
  cases p <;> first | rfl | exact k _ rfl

theorem keeps_wr (a : Nat) (w : Word) (ha : InPart L a) (h : Keeps L r s) : Keeps L r (s.wr a w) :=
  ⟨h.queue, h.time, h.free, h.warranted, fun k => sparse_wf_set _ _ _ (h.regs k), h.mem, fun p hp =>
    same_trans (h.same p hp) (Same_wr ha hp)⟩

theorem keeps_setF (b : Nat) (f : Fld) (v : Nat) (ha : InPart L (b + f.off)) (h : Keeps L r s) : Keeps L r (s.setF b f v) :=
  keeps_wr _ _ ha h

theorem keeps_setB (b : Nat) (f : Fld) (v : Bool) (ha : InPart L (b + f.off)) (h : Keeps L r s) : Keeps L r (s.setB b f v) :=
  keeps_wr _ _ ha h

theorem keeps_setBit (b : Nat) (f : Fld) (i : Nat) (v : Bool) (ha : InPart L (b + f.off)) (h : Keeps L r s) :
    Keeps L r (s.setBit b f i v) := keeps_wr _ _ ha h

theorem keeps_mark (b : Nat) (f : Fld) (hL : Sub [.happened] L) (h : Keeps L r s) : Keeps L r (s.mark b f) :=
  h.set_happened (hL _ (by decide))

theorem keeps_countSat (b : Nat) (f : Fld) (n : Nat) (m : Part.happened ∈ L) (ha : InPart L (b + f.off)) (h : Keeps L r s) :
    Keeps L r (s.countSat b f n) := keeps_wr _ _ ha (h.set_happened m)

theorem keeps_countWrap (b : Nat) (f : Fld) (n : Nat) (m : Part.happened ∈ L) (ha : InPart L (b + f.off)) (h : Keeps L r s) :
    Keeps L r (s.countWrap b f n) := keeps_wr _ _ ha (h.set_happened m)

theorem keeps_latch (b : Nat) (f : Fld) (m : Part.happened ∈ L) (ha : InPart L (b + f.off)) (h : Keeps L r s) :
    Keeps L r (s.latch b f) := keeps_wr _ _ ha (h.set_happened m)

theorem keeps_unlatch (b : Nat) (f : Fld) (ha : InPart L (b + f.off)) (h : Keeps L r s) : Keeps L r (s.unlatch b f) :=
  keeps_wr _ _ ha h

theorem keeps_clearCount (b : Nat) (f : Fld) (ha : InPart L (b + f.off)) (h : Keeps L r s) : Keeps L r (s.clearCount b f) :=
  keeps_wr _ _ ha h

theorem rd_clearRegs_out (lo hi x : Nat) (hx : ¬ (lo ≤ x ∧ x < hi)) : (s.clearRegs lo hi).rd x = s.rd x := by
  unfold State.rd State.clearRegs
  dsimp only
  induction s.regs with
  | nil => rfl
  | cons e t ih =>
    rw [List.filter_cons]
    split
    · rw [Sparse.get, Sparse.get, ih]
    · rename_i hk
      rw [ih, Sparse.get, if_neg]
      rintro rfl
      apply hx
      simp at hk
      omega

theorem keeps_clearRegs (lo hi : Nat) (ha : ∀ a, lo ≤ a → a < hi → InPart L a) (h : Keeps L r s) :
    Keeps L r (s.clearRegs lo hi) := by
  refine ⟨h.queue, h.time, h.free, h.warranted, fun k => sparse_wf_filter _ _ (h.regs k), h.mem, fun p hp =>
    same_trans (h.same p hp) ?_⟩
  have k : ∀ b, Blk.part b = p → SameRegs b s (s.clearRegs lo hi) := by
    intro b hb x hx
    refine rd_clearRegs_out lo hi x fun hlh => ?_
    cases e : place x with
    | none => rw [e] at hx; cases hx
    | some q =>
      rw [e] at hx
      have := ha x hlh.1 hlh.2 q e
      rw [Option.some.inj hx, hb] at this
      exact hp this
  cases p <;> first | rfl | exact k _ rfl

theorem keeps_setByte (a : Nat) (v : BitVec 8) (hL : Sub [.mem] L) (h : Keeps L r s) : Keeps L r (s.setByte a v) :=
  h.set_mem (hL _ (by decide)) fun k => sparse_wf_set _ _ _ k

theorem keeps_takeFree (hL : Sub [.free] L) (h : Keeps L r s) : Keeps2 L r s.takeFree := h.addFree (hL _ (by decide))

theorem keeps_unwarrant (hL : Sub [.warranted] L) (h : Keeps L r s) : Keeps L r s.unwarrant :=
  have m : Part.warranted ∈ L := hL _ (by decide)
  ⟨h.queue, h.time, h.free, fun k => Bool.noConfusion k, h.regs, h.mem, fun p hp =>
    same_trans (h.same p hp) (by cases p <;> first | exact absurd m hp | rfl | exact fun _ _ => rfl)⟩

theorem keeps_atTime (i : Nat) (hL : Sub [.now] L) (h : Keeps L r s) : Keeps L r (s.atTime i) :=
  h.set_now (hL _ (by decide)) (Nat.le_max_left _ _)

/-! ### Choices and loops -/

theorem Keeps.ite {c : Prop} [Decidable c] (h : Keeps L r s) (k : Keeps L r t) : Keeps L r (if c then s else t) := by
  split <;> assumption

theorem Keeps.foldl {f : State → α → State} {l : List α} (h : ∀ x a, Keeps L r x → Keeps L r (f x a)) (k : Keeps L r s) :
    Keeps L r (l.foldl f s) := by
  induction l generalizing s with
  | nil => exact k
  | cons a l ih => exact ih (h s a k)

/-- A loop over the numbers below `n`, which may use that its index is below `n`. -/
theorem Keeps.foldl_range {f : State → Nat → State} {n : Nat} (h : ∀ x i, i < n → Keeps L r x → Keeps L r (f x i))
    (k : Keeps L r s) : Keeps L r ((List.range n).foldl f s) := by
  have key : ∀ (l : List Nat), (∀ i ∈ l, i < n) → ∀ s, Keeps L r s → Keeps L r (l.foldl f s) := by
    intro l hl
    induction l with
    | nil => exact fun _ k => k
    | cons a l ih => exact fun s k => ih (fun i hi => hl i (List.mem_cons_of_mem _ hi)) _ (h s a (hl a List.mem_cons_self) k)
  exact key _ (fun i hi => List.mem_range.1 hi) s k

/-- A fold that carries a value beside the state. -/
theorem Keeps1.foldl {f : State × β → α → State × β} {l : List α} {p : State × β}
    (h : ∀ x a, Keeps1 L r x → Keeps1 L r (f x a)) (k : Keeps1 L r p) : Keeps1 L r (l.foldl f p) := by
  induction l generalizing p with
  | nil => exact k
  | cons a l ih => exact ih (h p a k)

theorem Keeps2.foldl {f : β × State → α → β × State} {l : List α} {p : β × State}
    (h : ∀ x a, Keeps2 L r x → Keeps2 L r (f x a)) (k : Keeps2 L r p) : Keeps2 L r (l.foldl f p) := by
  induction l generalizing p with
  | nil => exact k
  | cons a l ih => exact ih (h p a k)

theorem Keeps2.out {p : α × State} (h : Keeps2 L r p) : Keeps L r p.2 := h
theorem Keeps1.out {p : State × α} (h : Keeps1 L r p) : Keeps L r p.1 := h
theorem Keeps21.out {p : α × State × β} (h : Keeps21 L r p) : Keeps L r p.2.1 := h
theorem Keeps22.out {p : α × β × State} (h : Keeps22 L r p) : Keeps L r p.2.2 := h

theorem Keeps2.get {v : α} (h : Keeps2 L r (v, s)) : Keeps L r s := h
theorem Keeps1.get {v : α} (h : Keeps1 L r (s, v)) : Keeps L r s := h
theorem Keeps22.get {v : α} {w : β} (h : Keeps22 L r (v, w, s)) : Keeps L r s := h

theorem Keeps.of_snd {p : α × State} {v : α} (e : p = (v, s)) (h : Keeps2 L r p) : Keeps L r s := by
  subst e; exact h

theorem Keeps.of_fst {p : State × α} {v : α} (e : p = (s, v)) (h : Keeps1 L r p) : Keeps L r s := by
  subst e; exact h

theorem Keeps.of_22 {p : α × β × State} {v : α} {w : β} (e : p = (v, w, s)) (h : Keeps22 L r p) : Keeps L r s := by
  subst e; exact h

theorem Keeps.of_21 {p : α × State × β} {v : α} {w : β} (e : p = (v, s, w)) (h : Keeps21 L r p) : Keeps L r s := by
  subst e; exact h

theorem Keeps1.mk {a : α} (h : Keeps L r s) : Keeps1 L r (s, a) := h
theorem Keeps2.mk {a : α} (h : Keeps L r s) : Keeps2 L r (a, s) := h
theorem Keeps21.mk {a : α} {b : β} (h : Keeps L r s) : Keeps21 L r (a, s, b) := h
theorem Keeps22.mk {a : α} {b : β} (h : Keeps L r s) : Keeps22 L r (a, b, s) := h

theorem Keeps.of_some {o : Option State} (e : o = some s) (h : KeepsO L r o) : Keeps L r s := h s e

theorem Keeps.of_someP {o : Option (α × State)} {v : α} (e : o = some (v, s)) (h : KeepsP L r o) : Keeps L r s := h _ e

theorem Runs.next (h : Keeps L r s) : Runs L r (.next s) := ⟨s, rfl, h⟩

theorem KeepsO.none : KeepsO L r none := by intro _ e; cases e

theorem KeepsO.some (h : Keeps L r s) : KeepsO L r (some s) := fun _ e => Option.some.inj e ▸ h

theorem KeepsP.none {α : Type} : KeepsP (α := α) L r none := by intro _ e; cases e

theorem KeepsP.some {p : α × State} (h : Keeps2 L r p) : KeepsP L r (some p) := fun _ e => Option.some.inj e ▸ h

theorem KeepsP.map {o : Option α} {f : α → β × State} (h : ∀ x, Keeps2 L r (f x)) : KeepsP L r (o.map f) := by
  cases o with
  | none => exact KeepsP.none
  | some x => exact KeepsP.some (h x)

theorem KeepsO.get (h : KeepsO L r (Option.some s)) : Keeps L r s := h s rfl

theorem KeepsP.get {v : α} (h : KeepsP L r (Option.some (v, s))) : Keeps L r s := h _ rfl

theorem KeepsP.mapP {o : Option (α × State)} {f : α × State → β × State} (h : KeepsP L r o)
    (k : ∀ p, Keeps2 L r p → Keeps2 L r (f p)) : KeepsP L r (o.map f) := by
  cases o with
  | none => exact KeepsP.none
  | some x => exact KeepsP.some (k x (h x rfl))

theorem KeepsO.getD {o : Option State} (h : KeepsO L r o) (k : Keeps L r s) : Keeps L r (o.getD s) := by
  cases o with
  | none => exact k
  | some x => exact h x rfl

theorem KeepsO.ite {c : Prop} [Decidable c] {x y : Option State} (h : KeepsO L r x) (k : KeepsO L r y) :
    KeepsO L r (if c then x else y) := by split <;> assumption

theorem KeepsP.ite {c : Prop} [Decidable c] {x y : Option (α × State)} (h : KeepsP L r x) (k : KeepsP L r y) :
    KeepsP L r (if c then x else y) := by split <;> assumption

theorem Runs.ite {c : Prop} [Decidable c] {x y : Host.Outcome State Fault Refusal} (h : Runs L r x) (k : Runs L r y) :
    Runs L r (if c then x else y) := by split <;> assumption

theorem Keeps1.ite {c : Prop} [Decidable c] {x y : State × α} (h : Keeps1 L r x) (k : Keeps1 L r y) :
    Keeps1 L r (if c then x else y) := by split <;> assumption

theorem Keeps2.ite {c : Prop} [Decidable c] {x y : α × State} (h : Keeps2 L r x) (k : Keeps2 L r y) :
    Keeps2 L r (if c then x else y) := by split <;> assumption

theorem Keeps21.ite {c : Prop} [Decidable c] {x y : α × State × β} (h : Keeps21 L r x) (k : Keeps21 L r y) :
    Keeps21 L r (if c then x else y) := by split <;> assumption

theorem Keeps22.ite {c : Prop} [Decidable c] {x y : α × β × State} (h : Keeps22 L r x) (k : Keeps22 L r y) :
    Keeps22 L r (if c then x else y) := by split <;> assumption

end Sys2Proof.Laws
end

