-- ==== Sys2Proof/Laws/KeepOps.lean ====
section
/-! SUPPORT. What the operations of Machine/Ops.lean may change, and what they keep (see Keeps.lean). -/

namespace Sys2Proof.Laws

open Sys2Proof Sys2Proof.Machine Sys2Proof.Safety

theorem keeps_forAll {L : List Part} {r s : State} (n : Nat) (act : State → Nat → State) (h : Keeps L r s)
    (k : ∀ x i, i < n → Keeps L r x → Keeps L r (act x i)) : Keeps L r (s.forAll n act) := Keeps.foldl_range k h

theorem keeps_must {L : List Part} {r s : State} (ok : Bool)
    (hL : Sub [.warranted] L) (h : Keeps L r s) : Keeps L r (State.must s ok) := by
  unfold State.must
  exact (Keeps.ite h (keeps_unwarrant (Sub.trans (by decide) hL) h))

theorem keeps_setIsland {L : List Part} {r s : State} (i : Island) (up : Bool)
    (hL : Sub [.sysR] L) (h : Keeps L r s) : Keeps L r (State.setIsland s i up) := by
  unfold State.setIsland
  split
  · exact (keeps_setBit _ _ _ _ (in_sys (hL _ (by decide)) (by decide)) h)
  · exact (keeps_setBit _ _ _ _ (in_sys (hL _ (by decide)) (by decide)) h)
  · exact h
  · exact (keeps_setB _ _ _ (in_sys (hL _ (by decide)) (by decide)) h)
  · exact (keeps_setB _ _ _ (in_sys (hL _ (by decide)) (by decide)) h)
  · exact h
  · exact (keeps_setB _ _ _ (in_sys (hL _ (by decide)) (by decide)) h)

theorem keeps_setBytes {L : List Part} {r s : State} (a : Nat) (v2 : Nat) (v3 : Nat)
    (hL : Sub [.mem] L) (h : Keeps L r s) : Keeps L r (State.setBytes s a v2 v3) := by
  induction v2 generalizing s a v3 with
  | zero => exact h
  | succ n ih => exact ih _ _ (keeps_setByte _ _ (Sub.trans (by decide) hL) h)

theorem keeps_setWords {L : List Part} {r s : State} (a : Nat) (v2 : List Nat)
    (hL : Sub [.mem] L) (h : Keeps L r s) : Keeps L r (State.setWords s a v2) := by
  induction v2 generalizing s a with
  | nil => exact h
  | cons w t ih => exact ih _ (keeps_setBytes _ _ _ (Sub.trans (by decide) hL) h)

theorem keeps_setSrcBit {L : List Part} {r s : State} (f : Fld) (n : Nat) (v : Bool) (m : Part.criR ∈ L) (hf : f.off < 0x1000)
    (hn : n < 256) (h : Keeps L r s) : Keeps L r (s.setSrcBit f n v) :=
  keeps_setBit _ _ _ _ (in_cri m (by show f.off + _ < _; omega)) h

theorem sourceExists_lt' {n : Nat} (h : sourceExists n = true) : n < 256 := by
  unfold sourceExists at h
  simp at h
  omega

theorem keeps_pend {L : List Part} {r s : State} (n : Nat)
    (hL : Sub [.criR] L) (h : Keeps L r s) : Keeps L r (State.pend s n) := by
  unfold State.pend
  split
  · rename_i k
    have := sourceExists_lt' k
    exact keeps_setSrcBit _ _ _ (hL _ (by decide)) (by decide) (by omega) h
  · exact h

theorem keeps_pulse {L : List Part} {r s : State} (n : Nat)
    (hL : Sub [.crier] L) (h : Keeps L r s) : Keeps L r (State.pulse s n) := by
  unfold State.pulse
  exact (Keeps.set_crier (hL _ (by decide)) h)

theorem keeps_pulseIf {L : List Part} {r s : State} (c : Bool) (n : Nat)
    (hL : Sub [.crier] L) (h : Keeps L r s) : Keeps L r (State.pulseIf s c n) := by
  unfold State.pulseIf
  exact (Keeps.ite (keeps_pulse _ (Sub.trans (by decide) hL) h) h)

theorem keeps_ledger {L : List Part} {r s : State} (type : Nat) (arg0 : Nat) (arg1 : Nat) (data : Nat)
    (hL : Sub [.cellar, .celR, .happened] L) (h : Keeps L r s) : Keeps L r (State.ledger s type arg0 arg1 data) := by
  unfold State.ledger
  exact (Keeps.ite (Keeps.set_cellar (hL _ (by decide)) h) (keeps_countSat _ _ _ (hL _ (by decide)) (in_cel (hL _ (by decide)) (by decide)) h))

theorem keeps_celPulse {L : List Part} {r s : State} (n : Nat)
    (hL : Sub [.crier] L) (h : Keeps L r s) : Keeps L r (State.celPulse s n) := by
  unfold State.celPulse
  exact (keeps_pulseIf _ _ (Sub.trans (by decide) hL) h)

theorem keeps_wdtStatus {L : List Part} {r s : State} (n : Nat)
    (hL : Sub [.wdtR] L) (h : Keeps L r s) : Keeps L r (State.wdtStatus s n) := by
  unfold State.wdtStatus
  exact (keeps_setB _ _ _ (in_wdt (hL _ (by decide)) (by decide)) h)

theorem keeps_wdtReload {L : List Part} {r s : State} (n : Nat)
    (hL : Sub [.wdtR] L) (h : Keeps L r s) : Keeps L r (State.wdtReload s n) := by
  unfold State.wdtReload
  exact (keeps_wdtStatus _ (Sub.trans (by decide) hL) (keeps_setF _ _ _ (in_wdt (hL _ (by decide)) (by decide)) h))

theorem keeps_frozenUpdate {L : List Part} {r s : State} 
    (hL : Sub [.wdtR] L) (h : Keeps L r s) : Keeps L r (State.frozenUpdate s) := by
  unfold State.frozenUpdate
  extract_lets +onlyGivenNames -merge -useContext -underBinder x0
  try clear_value x0
  extract_lets +onlyGivenNames -merge -useContext -underBinder x1
  have k2 : Keeps L r (x1) := (keeps_setB _ _ _ (in_wdt (hL _ (by decide)) (by decide)) h)
  try clear_value x1
  exact (Keeps.ite (keeps_wdtReload _ (Sub.trans (by decide) hL) k2) k2)

theorem keeps_busError {L : List Part} {r s : State} (init : Nat) (addr : Nat) (kind : Nat) (write : Bool)
    (hL : Sub [.sysR, .happened] L) (h : Keeps L r s) : Keeps L r (State.busError s init addr kind write) := by
  unfold State.busError
  extract_lets +onlyGivenNames -merge -useContext -underBinder x0
  try clear_value x0
  extract_lets +onlyGivenNames -merge -useContext -underBinder x1
  have k2 : Keeps L r (x1) := (Keeps.ite h (keeps_setB _ _ _ (in_sys (hL _ (by decide)) (by decide)) (keeps_setF _ _ _ (in_sys (hL _ (by decide)) (by decide)) (keeps_setF _ _ _ (in_sys (hL _ (by decide)) (by decide)) (keeps_setF _ _ _ (in_sys (hL _ (by decide)) (by decide)) h)))))
  try clear_value x1
  exact (keeps_countSat _ _ _ (hL _ (by decide)) (in_sys (hL _ (by decide)) (by decide)) k2)

theorem keeps_onCommand {L : List Part} {r s : State} (init : Nat) (addr : Nat) (act : State → State)
    (hL : Sub [.sysR, .happened] L) (h : Keeps L r s) (h3 : ∀ x0, Keeps L r x0 → Keeps L r (act x0)) : Keeps L r (State.onCommand s init addr act) := by
  unfold State.onCommand
  exact (Keeps.ite (h3 _ h) (keeps_busError _ _ _ _ (Sub.trans (by decide) hL) h))

theorem keeps_onRead {L : List Part} {r s : State} (init : Fin 16) (addr : Nat) (act : State → Word × State)
    (hL : Sub [.readData, .sysR, .happened] L) (h : Keeps L r s) (h3 : ∀ x0, Keeps L r x0 → Keeps2 L r (act x0)) : Keeps L r (State.onRead s init addr act) := by
  unfold State.onRead
  split
  · exact Keeps.set_readData (hL _ (by decide)) (h3 s h)
  · exact keeps_busError _ _ _ _ (Sub.trans (by decide) hL) h

theorem keeps_modCore {L : List Part} {r s : State} (c : Nat) (f : Core → Core)
    (hL : Sub [.core] L) (h : Keeps L r s) : Keeps L r (State.modCore s c f) := by
  unfold State.modCore
  exact (Keeps.set_core (hL _ (by decide)) h)

end Sys2Proof.Laws
end

