-- ==== Sys2Proof/Laws/KeepArming.lean ====
section
/-! SUPPORT. What the operations of Machine/Arming.lean may change, and what they keep (see Keeps.lean). -/

namespace Sys2Proof.Laws

open Sys2Proof Sys2Proof.Machine Sys2Proof.Safety

theorem keeps_setArm {L : List Part} {r s : State} (goal : Nat) (code : Nat)
    (hL : Sub [.celR, .stlR, .aisle, .cellar, .wdtR, .happened, .crier] L) (h : Keeps L r s) : Keeps L r (State.setArm s goal code) := by
  unfold State.setArm
  extract_lets +onlyGivenNames -merge -useContext -underBinder x0
  try clear_value x0
  extract_lets +onlyGivenNames -merge -useContext -underBinder x1
  have k2 : Keeps L r (x1) := (keeps_setF _ _ _ (in_cel (hL _ (by decide)) (by decide)) h)
  try clear_value x1
  extract_lets +onlyGivenNames -merge -useContext -underBinder x3
  have k4 : Keeps L r (x3) := (Keeps.foldl_range (fun y5 y6 b8 k7 => (Keeps.ite (keeps_setB _ _ _ (in_stl (hL _ (by decide)) (by decide)) k7) (Keeps.ite (keeps_setB _ _ _ (in_stl (hL _ (by decide)) (by decide)) k7) k7))) k2)
  try clear_value x3
  extract_lets +onlyGivenNames -merge -useContext -underBinder x9
  have k10 : Keeps L r (x9) := (Keeps.set_aisle (hL _ (by decide)) k4)
  try clear_value x9
  extract_lets +onlyGivenNames -merge -useContext -underBinder x11 x12
  have k13 : Keeps L r (x12) := (Keeps.set_cellar (hL _ (by decide)) k10)
  try clear_value x12
  exact (keeps_frozenUpdate (Sub.trans (by decide) hL) (keeps_ledger _ _ _ _ (Sub.trans (by decide) hL) (keeps_celPulse _ (Sub.trans (by decide) hL) k13)))

theorem keeps_takeBackArm {L : List Part} {r s : State} (goal : Nat) (at_ : Nat) (prev : BitVec 2)
    (hL : Sub [.celR, .aisle, .crier, .cellar] L) (h : Keeps L r s) : Keeps L r (State.takeBackArm s goal at_ prev) := by
  unfold State.takeBackArm
  extract_lets +onlyGivenNames -merge -useContext -underBinder x0
  try clear_value x0
  extract_lets +onlyGivenNames -merge -useContext -underBinder x1
  have k2 : Keeps L r (x1) := (keeps_setF _ _ _ (in_cel (hL _ (by decide)) (by decide)) h)
  try clear_value x1
  extract_lets +onlyGivenNames -merge -useContext -underBinder x3
  have k4 : Keeps L r (x3) := (Keeps.set_aisle (hL _ (by decide)) k2)
  try clear_value x3
  extract_lets +onlyGivenNames -merge -useContext -underBinder x5 x6
  have k7 : Keeps L r (x6) := (Keeps.ite (Keeps.set_crier (hL _ (by decide)) k4) k4)
  try clear_value x6
  exact (Keeps.set_cellar (hL _ (by decide)) k7)

theorem keeps_unarm {L : List Part} {r s : State} 
    (hL : Sub [.celR, .aisle, .crier, .cellar, .stlR, .wdtR] L) (h : Keeps L r s) : Keeps L r (State.unarm s) := by
  unfold State.unarm
  split
  · exact h
  · refine Keeps.ite ?_ h
    extract_lets +onlyGivenNames -merge -useContext -underBinder x0
    have k1 : Keeps L r (x0) := (keeps_setB _ _ _ (in_cel (hL _ (by decide)) (by decide)) (keeps_setF _ _ _ (in_cel (hL _ (by decide)) (by decide)) (keeps_takeBackArm _ _ _ (Sub.trans (by decide) hL) h)))
    try clear_value x0
    extract_lets +onlyGivenNames -merge -useContext -underBinder x2
    have k3 : Keeps L r (x2) := (Keeps.foldl (fun y4 y5 k6 => (keeps_setB _ _ _ (in_stl (hL _ (by decide)) (by decide)) k6)) k1)
    try clear_value x2
    extract_lets +onlyGivenNames -merge -useContext -underBinder x8 x9
    have k10 : Keeps L r (x9) := (Keeps.set_cellar (hL _ (by decide)) k3)
    try clear_value x9
    exact (keeps_wdtStatus _ (Sub.trans (by decide) hL) (keeps_setF _ _ _ (in_wdt (hL _ (by decide)) (by decide)) k10))

theorem keeps_disarm {L : List Part} {r s : State} (code : Nat)
    (hL : Sub [.celR, .aisle, .crier, .cellar, .stlR, .wdtR, .happened] L) (h : Keeps L r s) : Keeps L r (State.disarm s code) := by
  unfold State.disarm
  extract_lets +onlyGivenNames -merge -useContext -underBinder x0 x1 x2
  have k3 : Keeps L r (x0) := (keeps_unarm (Sub.trans (by decide) hL) h)
  try clear_value x0
  have k4 : Keeps L r (x2) := (Keeps.ite (Keeps.set_cellar (hL _ (by decide)) k3) h)
  try clear_value x2
  refine Keeps.ite ?_ ?_
  · refine Keeps.ite ?_ k4
    extract_lets +onlyGivenNames -merge -useContext -underBinder x5
    try clear_value x5
    extract_lets +onlyGivenNames -merge -useContext -underBinder x6
    have k7 : Keeps L r (x6) := (keeps_setF _ _ _ (in_cel (hL _ (by decide)) (by decide)) k4)
    try clear_value x6
    exact (Keeps.set_cellar (hL _ (by decide)) k7)
  · extract_lets +onlyGivenNames -merge -useContext -underBinder x8
    have k9 : Keeps L r (x8) := (Keeps.ite (keeps_countSat _ _ _ (hL _ (by decide)) (in_cel (hL _ (by decide)) (by decide)) k4) k4)
    try clear_value x8
    extract_lets +onlyGivenNames -merge -useContext -underBinder x10
    have k11 : Keeps L r (x10) := (keeps_setB _ _ _ (in_cel (hL _ (by decide)) (by decide)) (keeps_setF _ _ _ (in_cel (hL _ (by decide)) (by decide)) k9))
    try clear_value x10
    exact (keeps_setArm _ _ (Sub.trans (by decide) hL) k11)

theorem keeps_endReady {L : List Part} {r s : State} (latched : Bool)
    (hL : Sub [.celR, .aisle, .crier, .cellar, .stlR, .wdtR, .happened] L) (h : Keeps L r s) : Keeps L r (State.endReady s latched) := by
  unfold State.endReady
  extract_lets +onlyGivenNames -merge -useContext -underBinder x0
  try clear_value x0
  extract_lets +onlyGivenNames -merge -useContext -underBinder x1
  have k2 : Keeps L r (x1) := (keeps_disarm _ (Sub.trans (by decide) hL) h)
  try clear_value x1
  exact (Keeps.set_cellar (hL _ (by decide)) k2)

theorem keeps_condUpdate {L : List Part} {r s : State} (k : Nat)
    (hL : Sub [.celR, .aisle, .crier, .cellar, .stlR, .wdtR, .happened] L) (h : Keeps L r s) : Keeps L r (State.condUpdate s k) := by
  unfold State.condUpdate
  extract_lets +onlyGivenNames -merge -useContext -underBinder x0
  try clear_value x0
  extract_lets +onlyGivenNames -merge -useContext -underBinder x1
  try clear_value x1
  extract_lets +onlyGivenNames -merge -useContext -underBinder x2
  have k3 : Keeps L r (x2) := (keeps_setBit _ _ _ _ (in_cel (hL _ (by decide)) (by decide)) h)
  try clear_value x2
  exact (Keeps.ite (Keeps.ite (keeps_disarm _ (Sub.trans (by decide) hL) k3) (Keeps.ite (Keeps.ite (keeps_endReady _ (Sub.trans (by decide) hL) k3) k3) (Keeps.ite (keeps_disarm _ (Sub.trans (by decide) hL) (keeps_unarm (Sub.trans (by decide) hL) k3)) k3))) k3)

theorem keeps_followLatch {L : List Part} {r s : State} 
    (hL : Sub [.celR, .aisle, .crier, .cellar, .stlR, .wdtR, .happened] L) (h : Keeps L r s) : Keeps L r (State.followLatch s) := by
  unfold State.followLatch
  extract_lets +onlyGivenNames -merge -useContext -underBinder x0
  try clear_value x0
  extract_lets +onlyGivenNames -merge -useContext -underBinder x1
  have k2 : Keeps L r (x1) := (keeps_condUpdate _ (Sub.trans (by decide) hL) h)
  try clear_value x1
  exact (Keeps.ite (keeps_setArm _ _ (Sub.trans (by decide) hL) k2) (Keeps.ite (keeps_setArm _ _ (Sub.trans (by decide) hL) k2) k2))

theorem keeps_readyAgain {L : List Part} {r s : State} 
    (hL : Sub [.celR, .aisle, .crier, .cellar] L) (h : Keeps L r s) : Keeps L r (State.readyAgain s) := by
  unfold State.readyAgain
  split
  · exact (Keeps.ite (keeps_setF _ _ _ (in_cel (hL _ (by decide)) (by decide)) (keeps_takeBackArm _ _ _ (Sub.trans (by decide) hL) h)) h)
  · exact h

theorem keeps_armKey {L : List Part} {r s : State} (init : Nat) (value : Nat)
    (hL : Sub [.celR, .aisle, .crier, .cellar, .stlR, .wdtR, .happened] L) (h : Keeps L r s) : Keeps L r (State.armKey s init value) := by
  unfold State.armKey
  refine Keeps.ite h ?_
  extract_lets +onlyGivenNames -merge -useContext -underBinder x0
  have k1 : Keeps L r (x0) := (Keeps.ite (keeps_readyAgain (Sub.trans (by decide) hL) h) h)
  try clear_value x0
  extract_lets +onlyGivenNames -merge -useContext -underBinder x2
  try clear_value x2
  extract_lets +onlyGivenNames -merge -useContext -underBinder x3 x4
  have k5 : Keeps L r (x4) := (Keeps.set_cellar (hL _ (by decide)) k1)
  try clear_value x4
  extract_lets +onlyGivenNames -merge -useContext -underBinder x6
  have k7 : ∀ y9, Keeps L r (y9) → Keeps L r (x6 y9) := by
    intro y9 k8
    unfold x6
    exact (keeps_setB _ _ _ (in_cel (hL _ (by decide)) (by decide)) k8)
  try clear_value x6
  extract_lets +onlyGivenNames -merge -useContext -underBinder x10
  have k11 : ∀ y13, Keeps L r (y13) → Keeps L r (x10 y13) := by
    intro y13 k12
    unfold x10
    exact (keeps_setB _ _ _ (in_cel (hL _ (by decide)) (by decide)) k12)
  try clear_value x10
  refine Keeps.ite ?_ ?_
  · refine Keeps.ite ?_ (k7 _ k5)
    extract_lets +onlyGivenNames -merge -useContext -underBinder x14
    try clear_value x14
    extract_lets +onlyGivenNames -merge -useContext -underBinder x15 x16
    have k17 : Keeps L r (x16) := (Keeps.set_cellar (hL _ (by decide)) k5)
    try clear_value x16
    exact (keeps_setArm _ _ (Sub.trans (by decide) hL) (k11 _ k17))
  · refine Keeps.ite ?_ (k7 _ k5)
    refine Keeps.ite ?_ (keeps_disarm _ (Sub.trans (by decide) hL) (k7 _ k5))
    extract_lets +onlyGivenNames -merge -useContext -underBinder x18
    try clear_value x18
    extract_lets +onlyGivenNames -merge -useContext -underBinder x19 x20
    have k21 : Keeps L r (x20) := (Keeps.set_cellar (hL _ (by decide)) k5)
    try clear_value x20
    exact (keeps_followLatch (Sub.trans (by decide) hL) (keeps_setArm _ _ (Sub.trans (by decide) hL) (keeps_countSat _ _ _ (hL _ (by decide)) (in_cel (hL _ (by decide)) (by decide)) (k11 _ k21))))

theorem keeps_execArmKeyReady {L : List Part} {r s : State} (init : Fin 16) (value : Word)
    (hL : Sub [.sysR, .happened, .celR, .aisle, .crier, .cellar, .stlR, .wdtR] L) (h : Keeps L r s) : Runs L r (execArmKeyReady init value s) := by
  unfold execArmKeyReady
  exact (Runs.next (keeps_onCommand _ _ _ (Sub.trans (by decide) hL) h (fun y0 k1 => (keeps_armKey _ _ (Sub.trans (by decide) hL) k1))))

theorem keeps_execArmKeyArm {L : List Part} {r s : State} (init : Fin 16) (value : Word)
    (hL : Sub [.sysR, .happened, .celR, .aisle, .crier, .cellar, .stlR, .wdtR] L) (h : Keeps L r s) : Runs L r (execArmKeyArm init value s) := by
  unfold execArmKeyArm
  exact (Runs.next (keeps_onCommand _ _ _ (Sub.trans (by decide) hL) h (fun y0 k1 => (keeps_armKey _ _ (Sub.trans (by decide) hL) k1))))

theorem keeps_execArmWindowExpiry {L : List Part} {r s : State} 
    (hL : Sub [.celR, .aisle, .crier, .cellar, .stlR, .wdtR, .happened, .now] L) (h : Keeps L r s) : Runs L r (execArmWindowExpiry s) := by
  unfold execArmWindowExpiry
  exact (Runs.next (Keeps.ite (keeps_endReady _ (Sub.trans (by decide) hL) (keeps_atTime _ (Sub.trans (by decide) hL) h)) h))

theorem keeps_execCondChange {L : List Part} {r s : State} (k : Fin 5)
    (hL : Sub [.celR, .aisle, .crier, .cellar, .stlR, .wdtR, .happened] L) (h : Keeps L r s) : Runs L r (execCondChange k s) := by
  unfold execCondChange
  exact (Runs.next (keeps_condUpdate _ (Sub.trans (by decide) hL) h))

theorem keeps_execDisarm {L : List Part} {r s : State} (init : Fin 16)
    (hL : Sub [.sysR, .happened, .celR, .aisle, .crier, .cellar, .stlR, .wdtR] L) (h : Keeps L r s) : Runs L r (execDisarm init s) := by
  unfold execDisarm
  exact (Runs.next (keeps_onCommand _ _ _ (Sub.trans (by decide) hL) h (fun y0 k1 => (keeps_disarm _ (Sub.trans (by decide) hL) k1))))

theorem keeps_armCntClr {L : List Part} {r s : State} 
    (hL : Sub [.celR] L) (h : Keeps L r s) : Keeps L r (State.armCntClr s) := by
  unfold State.armCntClr
  exact (keeps_clearCount _ _ (in_cel (hL _ (by decide)) (by decide)) (keeps_clearCount _ _ (in_cel (hL _ (by decide)) (by decide)) h))

theorem keeps_execArmCntClr {L : List Part} {r s : State} (init : Fin 16)
    (hL : Sub [.sysR, .happened, .celR] L) (h : Keeps L r s) : Runs L r (execArmCntClr init s) := by
  unfold execArmCntClr
  exact (Runs.next (keeps_onCommand _ _ _ (Sub.trans (by decide) hL) h (fun y0 k1 => (keeps_armCntClr (Sub.trans (by decide) hL) k1))))

theorem keeps_armCmd {L : List Part} {r s : State} (v : Nat)
    (hL : Sub [.celR, .aisle, .crier, .cellar, .stlR, .wdtR, .happened] L) (h : Keeps L r s) : Keeps L r (State.armCmd s v) := by
  unfold State.armCmd
  refine Keeps.ite h ?_
  extract_lets +onlyGivenNames -merge -useContext -underBinder x0
  have k1 : Keeps L r (x0) := (Keeps.ite (keeps_disarm _ (Sub.trans (by decide) hL) h) h)
  try clear_value x0
  exact (Keeps.ite (keeps_armCntClr (Sub.trans (by decide) hL) k1) k1)

theorem keeps_safeTakes {L : List Part} {r s : State} (v : Bool)
    (hL : Sub [.celR, .cellar] L) (h : Keeps L r s) : Keeps L r (State.safeTakes s v) := by
  unfold State.safeTakes
  exact (keeps_setBit _ _ _ _ (in_cel (hL _ (by decide)) (by decide)) (Keeps.set_cellar (hL _ (by decide)) h))

theorem keeps_execSafeNLow {L : List Part} {r s : State} 
    (hL : Sub [.celR, .aisle, .crier, .cellar, .stlR, .wdtR, .happened] L) (h : Keeps L r s) : Runs L r (execSafeNLow s) := by
  unfold execSafeNLow
  exact (Runs.next (Keeps.ite (keeps_disarm _ (Sub.trans (by decide) hL) (keeps_safeTakes _ (Sub.trans (by decide) hL) h)) h))

theorem keeps_execSafeNHigh {L : List Part} {r s : State} 
    (hL : Sub [.celR, .cellar] L) (h : Keeps L r s) : Runs L r (execSafeNHigh s) := by
  unfold execSafeNHigh
  exact (Runs.next (Keeps.ite (keeps_safeTakes _ (Sub.trans (by decide) hL) h) h))

end Sys2Proof.Laws
end

