-- ==== Sys2Proof/Laws/KeepStaging.lean ====
section
/-! SUPPORT. What the operations of Machine/Staging.lean may change, and what they keep (see Keeps.lean). -/

namespace Sys2Proof.Laws

open Sys2Proof Sys2Proof.Machine Sys2Proof.Safety

theorem keeps_set64 {L : List Part} {r s : State} (b : Nat) (lo hi : Fld) (v : Nat) (h1 : InPart L (b + lo.off))
    (h2 : InPart L (b + hi.off)) (h : Keeps L r s) : Keeps L r (s.set64 b lo hi v) :=
  keeps_setF _ _ _ h2 (keeps_setF _ _ _ h1 h)

theorem keeps_modAttic {L : List Part} {r s : State} (f : Attic → Attic)
    (hL : Sub [.attic] L) (h : Keeps L r s) : Keeps L r (State.modAttic s f) := by
  unfold State.modAttic
  exact (Keeps.set_attic (hL _ (by decide)) h)

theorem keeps_offer {L : List Part} {r s : State} (c : Bool) (i : Item)
    (hL : Sub [.attic] L) (h : Keeps L r s) : Keeps L r (State.offer s c i) := by
  unfold State.offer
  exact (Keeps.ite (keeps_modAttic _ (Sub.trans (by decide) hL) h) h)

theorem keeps_takeSlot {L : List Part} {r s : State} (win : Bool)
    (hL : Sub [.attic] L) (h : Keeps L r s) : KeepsP L r (State.takeSlot s win) := by
  unfold State.takeSlot
  exact (KeepsP.ite (KeepsP.map (fun y0 => (Keeps2.mk (keeps_modAttic _ (Sub.trans (by decide) hL) h)))) (KeepsP.map (fun y1 => (Keeps2.mk h))))

theorem keeps_dropItem {L : List Part} {r s : State} (l : LostItem)
    (hL : Sub [.attic, .atcR, .happened] L) (h : Keeps L r s) : Keeps L r (State.dropItem s l) := by
  unfold State.dropItem
  extract_lets +onlyGivenNames -merge -useContext -underBinder x0
  try clear_value x0
  exact (keeps_modAttic _ (Sub.trans (by decide) hL) (keeps_setB _ _ _ (in_atc (hL _ (by decide)) (by decide)) (keeps_countSat _ _ _ (hL _ (by decide)) (in_atc (hL _ (by decide)) (by decide)) h)))

theorem keeps_writeHeader {L : List Part} {r s : State} (b : OpenBlock) (short : Bool)
    (hL : Sub [.mem] L) (h : Keeps L r s) : Keeps L r (State.writeHeader s b short) := by
  unfold State.writeHeader
  extract_lets +onlyGivenNames -merge -useContext -underBinder x0
  try clear_value x0
  extract_lets +onlyGivenNames -merge -useContext -underBinder x1
  try clear_value x1
  extract_lets +onlyGivenNames -merge -useContext -underBinder x2
  try clear_value x2
  extract_lets +onlyGivenNames -merge -useContext -underBinder x3
  try clear_value x3
  extract_lets +onlyGivenNames -merge -useContext -underBinder x4
  have k5 : Keeps L r (x4) := (keeps_setBytes _ _ _ (Sub.trans (by decide) hL) h)
  try clear_value x4
  extract_lets +onlyGivenNames -merge -useContext -underBinder x6
  have k7 : Keeps L r (x6) := (keeps_setBytes _ _ _ (Sub.trans (by decide) hL) k5)
  try clear_value x6
  extract_lets +onlyGivenNames -merge -useContext -underBinder x8
  have k9 : Keeps L r (x8) := (keeps_setBytes _ _ _ (Sub.trans (by decide) hL) k7)
  try clear_value x8
  extract_lets +onlyGivenNames -merge -useContext -underBinder x10
  have k11 : Keeps L r (x10) := (keeps_setBytes _ _ _ (Sub.trans (by decide) hL) k9)
  try clear_value x10
  extract_lets +onlyGivenNames -merge -useContext -underBinder x12
  have k13 : Keeps L r (x12) := (keeps_setBytes _ _ _ (Sub.trans (by decide) hL) k11)
  try clear_value x12
  extract_lets +onlyGivenNames -merge -useContext -underBinder x14
  have k15 : Keeps L r (x14) := (keeps_setBytes _ _ _ (Sub.trans (by decide) hL) k13)
  try clear_value x14
  extract_lets +onlyGivenNames -merge -useContext -underBinder x16
  have k17 : Keeps L r (x16) := (keeps_setBytes _ _ _ (Sub.trans (by decide) hL) k15)
  try clear_value x16
  extract_lets +onlyGivenNames -merge -useContext -underBinder x18
  have k19 : Keeps L r (x18) := (keeps_setBytes _ _ _ (Sub.trans (by decide) hL) k17)
  try clear_value x18
  extract_lets +onlyGivenNames -merge -useContext -underBinder x20
  have k21 : Keeps L r (x20) := (keeps_setBytes _ _ _ (Sub.trans (by decide) hL) k19)
  try clear_value x20
  extract_lets +onlyGivenNames -merge -useContext -underBinder x22
  have k23 : Keeps L r (x22) := (keeps_setBytes _ _ _ (Sub.trans (by decide) hL) k21)
  try clear_value x22
  extract_lets +onlyGivenNames -merge -useContext -underBinder x24
  have k25 : Keeps L r (x24) := (keeps_setBytes _ _ _ (Sub.trans (by decide) hL) k23)
  try clear_value x24
  exact (keeps_setBytes _ _ _ (Sub.trans (by decide) hL) k25)

theorem keeps_queueWindow {L : List Part} {r s : State} (w : Nat) (b : RingSlotBlock)
    (hL : Sub [.mem, .attic] L) (h : Keeps L r s) : Keeps L r (State.queueWindow s w b) := by
  unfold State.queueWindow
  extract_lets +onlyGivenNames -merge -useContext -underBinder x0
  try clear_value x0
  extract_lets +onlyGivenNames -merge -useContext -underBinder x1
  have k2 : Keeps L r (x1) := (keeps_setByte _ _ (Sub.trans (by decide) hL) h)
  try clear_value x1
  exact (keeps_modAttic _ (Sub.trans (by decide) hL) (keeps_setBytes _ _ _ (Sub.trans (by decide) hL) k2))

theorem keeps_closeBlock {L : List Part} {r s : State} (b : OpenBlock) (short : Bool)
    (hL : Sub [.attic, .mem, .atcR, .happened] L) (h : Keeps L r s) : Keeps L r (State.closeBlock s b short) := by
  unfold State.closeBlock
  extract_lets +onlyGivenNames -merge -useContext -underBinder x0
  have k1 : Keeps L r (x0) := (keeps_modAttic _ (Sub.trans (by decide) hL) (keeps_writeHeader _ _ (Sub.trans (by decide) hL) h))
  try clear_value x0
  extract_lets +onlyGivenNames -merge -useContext -underBinder x2
  have k3 : Keeps L r (x2) := (Keeps.ite (keeps_countSat _ _ _ (hL _ (by decide)) (in_atc (hL _ (by decide)) (by decide)) k1) k1)
  try clear_value x2
  refine Keeps.ite ?_ (keeps_modAttic _ (Sub.trans (by decide) hL) k3)
  extract_lets +onlyGivenNames -merge -useContext -underBinder x4
  try clear_value x4
  extract_lets +onlyGivenNames -merge -useContext -underBinder x5
  have k6 : Keeps L r (x5) := (keeps_modAttic _ (Sub.trans (by decide) hL) k3)
  try clear_value x5
  split
  · exact (Keeps.ite (keeps_queueWindow _ _ (Sub.trans (by decide) hL) k6) k6)
  · exact k6

theorem keeps_setList {L : List Part} {r s : State} (a : Nat) (v2 : List (BitVec 8))
    (hL : Sub [.mem] L) (h : Keeps L r s) : Keeps L r (State.setList s a v2) := by
  induction v2 generalizing s a with
  | nil => exact h
  | cons b t ih => exact ih _ (keeps_setByte _ _ (Sub.trans (by decide) hL) h)

theorem keeps_putItem {L : List Part} {r s : State} (type : Nat) (win : Bool) (cnv : Nat) (time : Nat) (apt : Nat) (mask : Nat) (pitch : Nat) (stalls : Nat) (bytes : List (BitVec 8))
    (hL : Sub [.attic, .mem, .atcR, .happened] L) (h : Keeps L r s) : Keeps L r (State.putItem s type win cnv time apt mask pitch stalls bytes) := by
  unfold State.putItem
  extract_lets +onlyGivenNames -merge -useContext -underBinder x0
  try clear_value x0
  extract_lets +onlyGivenNames -merge -useContext -underBinder x1
  have k2 : Keeps L r (x1) := by
    unfold x1
    split
    · exact (Keeps.ite (keeps_closeBlock _ _ (Sub.trans (by decide) hL) h) h)
    · exact h
  try clear_value x1
  extract_lets +onlyGivenNames -merge -useContext -underBinder x3
  have k4 : KeepsP L r (x3) := by
    unfold x3
    split
    · exact (KeepsP.some (Keeps2.mk k2))
    · refine KeepsP.mapP (keeps_takeSlot _ (Sub.trans (by decide) hL) k2) ?_
      intro y5 k6
      split
      · exact (Keeps2.mk (keeps_modAttic _ (Sub.trans (by decide) hL) (Keeps2.get (by with_reducible assumption))))
  try clear_value x3
  split
  · exact (keeps_dropItem _ (Sub.trans (by decide) hL) k2)
  · extract_lets +onlyGivenNames -merge -useContext -underBinder x7
    have k8 : Keeps L r (x7) := (keeps_setList _ _ (Sub.trans (by decide) hL) (keeps_setB _ _ _ (in_atc (hL _ (by decide)) (by decide)) (KeepsP.get (by with_reducible assumption))))
    try clear_value x7
    extract_lets +onlyGivenNames -merge -useContext -underBinder x9
    try clear_value x9
    extract_lets +onlyGivenNames -merge -useContext -underBinder x10
    have k11 : Keeps L r (x10) := (keeps_modAttic _ (Sub.trans (by decide) hL) k8)
    try clear_value x10
    exact (Keeps.ite (keeps_closeBlock _ _ (Sub.trans (by decide) hL) k11) k11)

theorem keeps_putBlock {L : List Part} {r s : State} (type : Nat) (count : Nat) (stalls : Nat) (bytes : List (BitVec 8))
    (hL : Sub [.mem, .attic] L) (h : Keeps L r s) : KeepsP L r (State.putBlock s type count stalls bytes) := by
  unfold State.putBlock
  refine KeepsP.map ?_
  intro y0
  extract_lets +onlyGivenNames -merge -useContext -underBinder x1
  have k2 : Keeps L r (x1) := (keeps_setList _ _ (Sub.trans (by decide) hL) h)
  try clear_value x1
  extract_lets +onlyGivenNames -merge -useContext -underBinder x3
  try clear_value x3
  exact (Keeps2.mk (keeps_modAttic _ (Sub.trans (by decide) hL) (keeps_writeHeader _ _ (Sub.trans (by decide) hL) k2)))

theorem keeps_calBlock {L : List Part} {r s : State} 
    (hL : Sub [.attic, .mem, .atcR, .happened] L) (h : Keeps L r s) : Keeps L r (State.calBlock s) := by
  unfold State.calBlock
  extract_lets +onlyGivenNames -merge -useContext -underBinder x0
  try clear_value x0
  extract_lets +onlyGivenNames -merge -useContext -underBinder x1
  try clear_value x1
  split
  · exact (keeps_modAttic _ (Sub.trans (by decide) hL) (Keeps.of_someP (by with_reducible assumption) (keeps_putBlock _ _ _ _ (Sub.trans (by decide) hL) h)))
  · exact (keeps_dropItem _ (Sub.trans (by decide) hL) h)

theorem keeps_retryLost {L : List Part} {r s : State} 
    (hL : Sub [.attic, .atcR, .mem, .happened] L) (h : Keeps L r s) : Keeps L r (State.retryLost s) := by
  unfold State.retryLost
  refine Keeps.ite ?_ h
  extract_lets +onlyGivenNames -merge -useContext -underBinder x0
  have k1 : Keeps L r (x0) := (keeps_modAttic _ (Sub.trans (by decide) hL) h)
  try clear_value x0
  refine Keeps.foldl ?_ k1
  intro y2 y3 k4
  split
  · extract_lets +onlyGivenNames -merge -useContext -underBinder x6
    have k7 : Keeps L r (x6) := (keeps_setF _ _ _ (in_atc (hL _ (by decide)) (by decide)) k4)
    try clear_value x6
    extract_lets +onlyGivenNames -merge -useContext -underBinder x8
    have k9 : Keeps L r (x8) := (Keeps.ite (keeps_modAttic _ (Sub.trans (by decide) hL) k7) k7)
    try clear_value x8
    exact (Keeps.ite (keeps_calBlock (Sub.trans (by decide) hL) (keeps_setB _ _ _ (in_atc (hL _ (by decide)) (by decide)) k9)) (keeps_putItem _ _ _ _ _ _ _ _ _ (Sub.trans (by decide) hL) k9))

theorem keeps_placeWindow {L : List Part} {r s : State} (w : EventWindow)
    (hL : Sub [.attic, .atcR, .mem] L) (h : Keeps L r s) : Keeps L r (State.placeWindow s w) := by
  unfold State.placeWindow
  extract_lets +onlyGivenNames -merge -useContext -underBinder x0
  try clear_value x0
  extract_lets +onlyGivenNames -merge -useContext -underBinder x1
  try clear_value x1
  extract_lets +onlyGivenNames -merge -useContext -underBinder x2
  have k3 : Keeps L r (x2) := (keeps_modAttic _ (Sub.trans (by decide) hL) h)
  try clear_value x2
  extract_lets +onlyGivenNames -merge -useContext -underBinder x4
  have k5 : Keeps L r (x4) := (keeps_setF _ _ _ (in_atc (hL _ (by decide)) (by decide)) (keeps_setF _ _ _ (in_atc (hL _ (by decide)) (by decide)) k3))
  try clear_value x4
  extract_lets +onlyGivenNames -merge -useContext -underBinder x6
  have k7 : Keeps L r (x6) := (keeps_setB _ _ _ (in_atc (hL _ (by decide)) (by decide)) (keeps_setF _ _ _ (in_atc (hL _ (by decide)) (by decide)) (keeps_set64 _ _ _ _ (in_atc (hL _ (by decide)) (by decide)) (in_atc (hL _ (by decide)) (by decide)) k5)))
  try clear_value x6
  exact (Keeps.foldl (fun y8 y9 k10 => (keeps_queueWindow _ _ (Sub.trans (by decide) hL) k10)) k7)

theorem keeps_openWindow {L : List Part} {r s : State} (src : Nat) (arg : Nat) (time : Nat)
    (hL : Sub [.attic, .mem, .atcR, .happened, .crier] L) (h : Keeps L r s) : Keeps L r (State.openWindow s src arg time) := by
  unfold State.openWindow
  extract_lets +onlyGivenNames -merge -useContext -underBinder x0
  try clear_value x0
  extract_lets +onlyGivenNames -merge -useContext -underBinder x1
  have k2 : Keeps L r (x1) := (keeps_calBlock (Sub.trans (by decide) hL) h)
  try clear_value x1
  extract_lets +onlyGivenNames -merge -useContext -underBinder x3
  try clear_value x3
  exact (keeps_pulseIf _ _ (Sub.trans (by decide) hL) (keeps_placeWindow _ (Sub.trans (by decide) hL) (keeps_modAttic _ (Sub.trans (by decide) hL) k2)))

theorem keeps_dropWindow {L : List Part} {r s : State} (w : EventWindow)
    (hL : Sub [.mem, .attic] L) (h : Keeps L r s) : Keeps L r (State.dropWindow s w) := by
  unfold State.dropWindow
  extract_lets +onlyGivenNames -merge -useContext -underBinder x0
  try clear_value x0
  extract_lets +onlyGivenNames -merge -useContext -underBinder x1
  have k2 : Keeps L r (x1) := by
    unfold x1
    refine Keeps.foldl ?_ h
    intro y3 y4 k5
    extract_lets +onlyGivenNames -merge -useContext -underBinder x7
    try clear_value x7
    exact (keeps_setBytes _ _ _ (Sub.trans (by decide) hL) (keeps_setByte _ _ (Sub.trans (by decide) hL) k5))
  try clear_value x1
  exact (keeps_modAttic _ (Sub.trans (by decide) hL) k2)

theorem keeps_mergeTrigger {L : List Part} {r s : State} (w : EventWindow) (src : Nat) (arg : Nat) (time : Nat)
    (hL : Sub [.attic, .atcR, .mem, .happened] L) (h : Keeps L r s) : Keeps L r (State.mergeTrigger s w src arg time) := by
  unfold State.mergeTrigger
  extract_lets +onlyGivenNames -merge -useContext -underBinder x0
  try clear_value x0
  extract_lets +onlyGivenNames -merge -useContext -underBinder x1
  have k2 : Keeps L r (x1) := (Keeps.ite (keeps_placeWindow _ (Sub.trans (by decide) hL) (keeps_dropWindow _ (Sub.trans (by decide) hL) h)) (keeps_modAttic _ (Sub.trans (by decide) hL) h))
  try clear_value x1
  exact (keeps_countSat _ _ _ (hL _ (by decide)) (in_atc (hL _ (by decide)) (by decide)) k2)

theorem keeps_mergeClosed {L : List Part} {r s : State} (n : Nat)
    (hL : Sub [.mem, .atcR, .happened, .attic] L) (h : Keeps L r s) : Keeps L r (State.mergeClosed s n) := by
  unfold State.mergeClosed
  extract_lets +onlyGivenNames -merge -useContext -underBinder x0
  try clear_value x0
  extract_lets +onlyGivenNames -merge -useContext -underBinder x1
  have k2 : Keeps L r (x1) := by
    unfold x1
    refine Keeps.foldl ?_ h
    intro y3 y4 k5
    extract_lets +onlyGivenNames -merge -useContext -underBinder x7
    try clear_value x7
    exact (keeps_setBytes _ _ _ (Sub.trans (by decide) hL) k5)
  try clear_value x1
  exact (keeps_countSat _ _ _ (hL _ (by decide)) (in_atc (hL _ (by decide)) (by decide)) (keeps_modAttic _ (Sub.trans (by decide) hL) k2))

theorem keeps_unaccept {L : List Part} {r s : State} 
    (hL : Sub [.attic, .mem, .crier, .atcR] L) (h : Keeps L r s) : Keeps L r (State.unaccept s) := by
  unfold State.unaccept
  split
  · refine Keeps.ite ?_ h
    extract_lets +onlyGivenNames -merge -useContext -underBinder x0
    have k1 : Keeps L r (x0) := (keeps_modAttic _ (Sub.trans (by decide) hL) (keeps_dropWindow _ (Sub.trans (by decide) hL) h))
    try clear_value x0
    extract_lets +onlyGivenNames -merge -useContext -underBinder x2 x3
    have k4 : Keeps L r (x3) := (Keeps.ite (Keeps.set_crier (hL _ (by decide)) k1) k1)
    try clear_value x3
    extract_lets +onlyGivenNames -merge -useContext -underBinder x5
    have k6 : Keeps L r (x5) := (keeps_setF _ _ _ (in_atc (hL _ (by decide)) (by decide)) (keeps_set64 _ _ _ _ (in_atc (hL _ (by decide)) (by decide)) (in_atc (hL _ (by decide)) (by decide)) k4))
    try clear_value x5
    exact (keeps_setB _ _ _ (in_atc (hL _ (by decide)) (by decide)) (keeps_setF _ _ _ (in_atc (hL _ (by decide)) (by decide)) k6))
  · exact h

theorem keeps_eventBlocks {L : List Part} {r s : State} 
    (hL : Sub [.mem, .attic, .crier] L) (h : Keeps L r s) : Keeps L r (State.eventBlocks s) := by
  unfold State.eventBlocks
  refine Keeps.foldl ?_ h
  intro y0 y1 k2
  refine Keeps.ite k2 ?_
  extract_lets +onlyGivenNames -merge -useContext -underBinder x4
  try clear_value x4
  split
  · extract_lets +onlyGivenNames -merge -useContext -underBinder x5
    have k6 : Keeps L r (x5) := (keeps_setBytes _ _ _ (Sub.trans (by decide) hL) (Keeps.of_someP (by with_reducible assumption) (keeps_putBlock _ _ _ _ (Sub.trans (by decide) hL) k2)))
    try clear_value x5
    exact (keeps_pulseIf _ _ (Sub.trans (by decide) hL) (keeps_modAttic _ (Sub.trans (by decide) hL) k6))
  · exact k2

theorem keeps_closeAll {L : List Part} {r s : State} 
    (hL : Sub [.attic, .mem, .atcR, .happened] L) (h : Keeps L r s) : Keeps L r (State.closeAll s) := by
  unfold State.closeAll
  exact (Keeps.foldl (fun y0 y1 k2 => (keeps_closeBlock _ _ (Sub.trans (by decide) hL) k2)) h)

theorem keeps_closeWindow {L : List Part} {r s : State} 
    (hL : Sub [.attic, .mem, .atcR, .happened, .crier] L) (h : Keeps L r s) : Keeps L r (State.closeWindow s) := by
  unfold State.closeWindow
  extract_lets +onlyGivenNames -merge -useContext -underBinder x0
  have k1 : Keeps L r (x0) := (keeps_closeAll (Sub.trans (by decide) hL) h)
  try clear_value x0
  split
  · exact k1
  · exact (keeps_eventBlocks (Sub.trans (by decide) hL) (keeps_setB _ _ _ (in_atc (hL _ (by decide)) (by decide)) (keeps_modAttic _ (Sub.trans (by decide) hL) k1)))

end Sys2Proof.Laws
end

