-- ==== Sys2Proof/Laws/KeepHooks.lean ====
section
/-! SUPPORT. What the operations of Machine/Hooks.lean may change, and what they keep (see Keeps.lean). -/

namespace Sys2Proof.Laws

open Sys2Proof Sys2Proof.Machine Sys2Proof.Safety

theorem keeps_modAisle {L : List Part} {r s : State} (a : Nat) (f : Aisle → Aisle)
    (hL : Sub [.aisle] L) (h : Keeps L r s) : Keeps L r (State.modAisle s a f) := by
  unfold State.modAisle
  exact (Keeps.set_aisle (hL _ (by decide)) h)

theorem keeps_modCar {L : List Part} {r s : State} (g : Nat) (f : Carrier → Carrier)
    (hL : Sub [.car] L) (h : Keeps L r s) : Keeps L r (State.modCar s g f) := by
  unfold State.modCar
  exact (Keeps.set_car (hL _ (by decide)) h)

theorem keeps_modLeg {L : List Part} {r s : State} (l : Nat) (f : Leg → Leg)
    (hL : Sub [.leg] L) (h : Keeps L r s) : Keeps L r (State.modLeg s l f) := by
  unfold State.modLeg
  exact (Keeps.set_leg (hL _ (by decide)) h)

theorem keeps_modCmp {L : List Part} {r s : State} (c : Nat) (f : Comparator → Comparator)
    (hL : Sub [.cmp] L) (h : Keeps L r s) : Keeps L r (State.modCmp s c f) := by
  unfold State.modCmp
  exact (Keeps.set_cmp (hL _ (by decide)) h)

theorem keeps_modCnv {L : List Part} {r s : State} (k : Nat) (f : Converter → Converter)
    (hL : Sub [.cnv] L) (h : Keeps L r s) : Keeps L r (State.modCnv s k f) := by
  unfold State.modCnv
  exact (Keeps.set_cnv (hL _ (by decide)) h)

theorem keeps_modEng {L : List Part} {r s : State} (e : Nat) (f : Engine → Engine)
    (hL : Sub [.eng] L) (h : Keeps L r s) : Keeps L r (State.modEng s e f) := by
  unfold State.modEng
  exact (Keeps.set_eng (hL _ (by decide)) h)

theorem keeps_modRing {L : List Part} {r s : State} (f : Ring → Ring)
    (hL : Sub [.ring] L) (h : Keeps L r s) : Keeps L r (State.modRing s f) := by
  unfold State.modRing
  exact (Keeps.set_ring (hL _ (by decide)) h)

theorem keeps_transmit {L : List Part} {r s : State} (p : Nat) (b : RingBlock)
    (hL : Sub [.ring] L) (h : Keeps L r s) : Keeps L r (State.transmit s p b) := by
  unfold State.transmit
  exact (keeps_modRing _ (Sub.trans (by decide) hL) h)

theorem keeps_transmitBoth {L : List Part} {r s : State} (b : RingBlock)
    (hL : Sub [.ring] L) (h : Keeps L r s) : Keeps L r (State.transmitBoth s b) := by
  unfold State.transmitBoth
  exact (keeps_transmit _ _ (Sub.trans (by decide) hL) (keeps_transmit _ _ (Sub.trans (by decide) hL) h))

theorem keeps_sendRec {L : List Part} {r s : State} (time : Nat)
    (hL : Sub [.ring] L) (h : Keeps L r s) : Keeps L r (State.sendRec s time) := by
  unfold State.sendRec
  exact (Keeps.ite (keeps_modRing _ (Sub.trans (by decide) hL) (keeps_transmitBoth _ (Sub.trans (by decide) hL) h)) h)

theorem keeps_trigger {L : List Part} {r s : State} (src : Nat) (arg : Nat) (time : Nat)
    (hL : Sub [.ring, .attic, .atcR, .mem, .happened, .crier] L) (h : Keeps L r s) : Keeps L r (State.trigger s src arg time) := by
  unfold State.trigger
  refine Keeps.ite ?_ h
  extract_lets +onlyGivenNames -merge -useContext -underBinder x0
  have k1 : Keeps L r (x0) := (Keeps.ite (keeps_sendRec _ (Sub.trans (by decide) hL) h) h)
  try clear_value x0
  split
  · exact (keeps_mergeTrigger _ _ _ _ (Sub.trans (by decide) hL) k1)
  · split
    · exact (Keeps.ite (keeps_mergeClosed _ (Sub.trans (by decide) hL) k1) (keeps_openWindow _ _ _ (Sub.trans (by decide) hL) k1))
    · exact (keeps_openWindow _ _ _ (Sub.trans (by decide) hL) k1)

theorem keeps_groupTrigger {L : List Part} {r s : State} (q : Nat)
    (hL : Sub [.ring, .attic, .atcR, .mem, .happened, .crier] L) (h : Keeps L r s) : Keeps L r (State.groupTrigger s q) := by
  unfold State.groupTrigger
  exact (Keeps.ite (keeps_trigger _ _ _ (Sub.trans (by decide) hL) h) h)

theorem keeps_marketAssert {L : List Part} {r s : State} 
    (hL : Sub [.knrR, .ring] L) (h : Keeps L r s) : Keeps L r (State.marketAssert s) := by
  unfold State.marketAssert
  extract_lets +onlyGivenNames -merge -useContext -underBinder x0
  try clear_value x0
  extract_lets +onlyGivenNames -merge -useContext -underBinder x1
  try clear_value x1
  extract_lets +onlyGivenNames -merge -useContext -underBinder x2
  have k3 : Keeps L r (x2) := (keeps_setB _ _ _ (in_knr (hL _ (by decide)) (by decide)) h)
  try clear_value x2
  refine Keeps.ite ?_ k3
  extract_lets +onlyGivenNames -merge -useContext -underBinder x4
  have k5 : Keeps L r (x4) := (keeps_modRing _ (Sub.trans (by decide) hL) (keeps_transmitBoth _ (Sub.trans (by decide) hL) k3))
  try clear_value x4
  exact (Keeps.ite (keeps_modRing _ (Sub.trans (by decide) hL) k5) k5)

end Sys2Proof.Laws
end

