-- ==== Sys2Proof/Laws/KeepAttic.lean ====
section
/-! SUPPORT. What the operations of Machine/Attic.lean may change, and what they keep (see Keeps.lean). -/

namespace Sys2Proof.Laws

open Sys2Proof Sys2Proof.Machine Sys2Proof.Safety

theorem keeps_toTaps {L : List Part} {r t : State} (onStream : Bool) (onWindow : Bool) (put : State → Bool → State)
    (_ : Sub [] L) (h : Keeps L r t) (h3 : ∀ x0 x1, Keeps L r x0 → Keeps L r (put x0 x1)) : Keeps L r (State.toTaps t onStream onWindow put) := by
  unfold State.toTaps
  extract_lets +onlyGivenNames -merge -useContext -underBinder x0
  have k1 : Keeps L r (x0) := (Keeps.ite (h3 _ _ h) h)
  try clear_value x0
  exact (Keeps.ite (h3 _ _ k1) k1)

theorem keeps_takeItem {L : List Part} {r s : State} (i : Item)
    (hL : Sub [.attic, .mem, .atcR, .happened] L) (h : Keeps L r s) : Keeps L r (State.takeItem s i) := by
  unfold State.takeItem
  split
  · extract_lets +onlyGivenNames -merge -useContext -underBinder x0
    try clear_value x0
    extract_lets +onlyGivenNames -merge -useContext -underBinder x1
    try clear_value x1
    extract_lets +onlyGivenNames -merge -useContext -underBinder x2
    try clear_value x2
    extract_lets +onlyGivenNames -merge -useContext -underBinder x3
    have k4 : Keeps L r (x3) := (Keeps.ite (keeps_modAttic _ (Sub.trans (by decide) hL) h) h)
    try clear_value x3
    extract_lets +onlyGivenNames -merge -useContext -underBinder x5
    try clear_value x5
    exact (keeps_toTaps _ _ _ (Sub.trans (by decide) hL) k4 (fun y6 y7 k8 => (keeps_putItem _ _ _ _ _ _ _ _ _ (Sub.trans (by decide) hL) k8)))
  · exact (keeps_toTaps _ _ _ (Sub.trans (by decide) hL) h (fun y9 y10 k11 => (keeps_putItem _ _ _ _ _ _ _ _ _ (Sub.trans (by decide) hL) k11)))
  · exact (keeps_toTaps _ _ _ (Sub.trans (by decide) hL) h (fun y12 y13 k14 => (keeps_putItem _ _ _ _ _ _ _ _ _ (Sub.trans (by decide) hL) k14)))
  · exact (keeps_toTaps _ _ _ (Sub.trans (by decide) hL) h (fun y15 y16 k17 => (keeps_putItem _ _ _ _ _ _ _ _ _ (Sub.trans (by decide) hL) k17)))
  · exact (Keeps.ite (keeps_calBlock (Sub.trans (by decide) hL) h) h)

theorem keeps_takeTrace {L : List Part} {r s : State} (t : TraceItem)
    (hL : Sub [.attic, .dbg, .mem, .atcR, .happened] L) (h : Keeps L r s) : Keeps L r (State.takeTrace s t) := by
  unfold State.takeTrace
  extract_lets +onlyGivenNames -merge -useContext -underBinder x0 x1 x2
  have k3 : Keeps L r (x0) := (keeps_modAttic _ (Sub.trans (by decide) hL) h)
  try clear_value x0
  have k4 : Keeps L r (x2) := (Keeps.ite (Keeps.set_debug (hL _ (by decide)) k3) h)
  try clear_value x2
  exact (keeps_putItem _ _ _ _ _ _ _ _ _ (Sub.trans (by decide) hL) k4)

theorem keeps_execRecorderItem {L : List Part} {r s : State} 
    (hL : Sub [.attic, .mem, .atcR, .happened, .dbg] L) (h : Keeps L r s) : Runs L r (execRecorderItem s) := by
  unfold execRecorderItem
  refine Runs.next ?_
  split
  · extract_lets +onlyGivenNames -merge -useContext -underBinder x0
    have k1 : Keeps L r (x0) := (keeps_modAttic _ (Sub.trans (by decide) hL) h)
    try clear_value x0
    exact (Keeps.ite (keeps_takeItem _ (Sub.trans (by decide) hL) k1) k1)
  · split
    · extract_lets +onlyGivenNames -merge -useContext -underBinder x2 x3
      have k4 : Keeps L r (x3) := (Keeps.set_debug (hL _ (by decide)) h)
      try clear_value x3
      exact (Keeps.ite (keeps_takeTrace _ (Sub.trans (by decide) hL) k4) k4)
    · exact h

theorem keeps_markTag {L : List Part} {r s : State} (init : Nat) (value : Nat)
    (hL : Sub [.attic] L) (h : Keeps L r s) : Keeps L r (State.markTag s init value) := by
  unfold State.markTag
  exact (Keeps.ite h (keeps_offer _ _ (Sub.trans (by decide) hL) h))

theorem keeps_execMarkTag {L : List Part} {r s : State} (init : Fin 16) (value : Word)
    (hL : Sub [.sysR, .happened, .attic] L) (h : Keeps L r s) : Runs L r (execMarkTag init value s) := by
  unfold execMarkTag
  exact (Runs.next (keeps_onCommand _ _ _ (Sub.trans (by decide) hL) h (fun y0 k1 => (keeps_markTag _ _ (Sub.trans (by decide) hL) k1))))

theorem keeps_atcStatus {L : List Part} {r s : State} 
    (hL : Sub [.attic, .atcR] L) (h : Keeps L r s) : Keeps L r (State.atcStatus s) := by
  unfold State.atcStatus
  extract_lets +onlyGivenNames -merge -useContext -underBinder x0
  try clear_value x0
  extract_lets +onlyGivenNames -merge -useContext -underBinder x1
  try clear_value x1
  extract_lets +onlyGivenNames -merge -useContext -underBinder x2
  have k3 : Keeps L r (x2) := (keeps_modAttic _ (Sub.trans (by decide) hL) h)
  try clear_value x2
  extract_lets +onlyGivenNames -merge -useContext -underBinder x4
  try clear_value x4
  exact (keeps_setB _ _ _ (in_atc (hL _ (by decide)) (by decide)) (keeps_setB _ _ _ (in_atc (hL _ (by decide)) (by decide)) k3))

theorem keeps_perstUpdate {L : List Part} {r s : State} 
    (hL : Sub [.attic, .atcR] L) (h : Keeps L r s) : Keeps L r (State.perstUpdate s) := by
  unfold State.perstUpdate
  extract_lets +onlyGivenNames -merge -useContext -underBinder x0
  try clear_value x0
  exact (Keeps.ite (keeps_modAttic _ (Sub.trans (by decide) hL) h) (keeps_setF _ _ _ (in_atc (hL _ (by decide)) (by decide)) (keeps_setB _ _ _ (in_atc (hL _ (by decide)) (by decide)) (keeps_modAttic _ (Sub.trans (by decide) hL) h))))

theorem keeps_execPerstRelease {L : List Part} {r s : State} 
    (hL : Sub [.attic, .now] L) (h : Keeps L r s) : Runs L r (execPerstRelease s) := by
  unfold execPerstRelease
  refine Runs.next ?_
  split
  · exact (Keeps.ite h (keeps_modAttic _ (Sub.trans (by decide) hL) (keeps_atTime _ (Sub.trans (by decide) hL) h)))
  · exact h

theorem keeps_advance {L : List Part} {r s : State} 
    (hL : Sub [.atcR] L) (h : Keeps L r s) : Keeps L r (State.advance s) := by
  unfold State.advance
  extract_lets +onlyGivenNames -merge -useContext -underBinder x0
  try clear_value x0
  extract_lets +onlyGivenNames -merge -useContext -underBinder x1
  try clear_value x1
  extract_lets +onlyGivenNames -merge -useContext -underBinder x2
  have k3 : Keeps L r (x2) := (keeps_set64 _ _ _ _ (in_atc (hL _ (by decide)) (by decide)) (in_atc (hL _ (by decide)) (by decide)) (keeps_setF _ _ _ (in_atc (hL _ (by decide)) (by decide)) h))
  try clear_value x2
  exact (Keeps.ite (keeps_setF _ _ _ (in_atc (hL _ (by decide)) (by decide)) k3) (Keeps.ite (keeps_setB _ _ _ (in_atc (hL _ (by decide)) (by decide)) k3) k3))

theorem keeps_advances {L : List Part} {r s : State} (v1 : Nat)
    (hL : Sub [.atcR] L) (h : Keeps L r s) : Keeps L r (State.advances s v1) := by
  induction v1 generalizing s with
  | zero => exact h
  | succ n ih => exact ih (keeps_advance (Sub.trans (by decide) hL) h)

theorem keeps_openRegion {L : List Part} {r s : State} (c : CkptCopy) (copy : Nat) (scanned : Nat)
    (hL : Sub [.atcR, .attic] L) (h : Keeps L r s) : Keeps L r (State.openRegion s c copy scanned) := by
  unfold State.openRegion
  extract_lets +onlyGivenNames -merge -useContext -underBinder x0
  have k1 : Keeps L r (x0) := (keeps_set64 _ _ _ _ (in_atc (hL _ (by decide)) (by decide)) (in_atc (hL _ (by decide)) (by decide)) (keeps_setF _ _ _ (in_atc (hL _ (by decide)) (by decide)) (keeps_setF _ _ _ (in_atc (hL _ (by decide)) (by decide)) h)))
  try clear_value x0
  extract_lets +onlyGivenNames -merge -useContext -underBinder x2
  have k3 : Keeps L r (x2) := (keeps_setB _ _ _ (in_atc (hL _ (by decide)) (by decide)) k1)
  try clear_value x2
  extract_lets +onlyGivenNames -merge -useContext -underBinder x4
  have k5 : Keeps L r (x4) := (keeps_advances _ (Sub.trans (by decide) hL) k3)
  try clear_value x4
  extract_lets +onlyGivenNames -merge -useContext -underBinder x6
  have k7 : Keeps L r (x6) := (keeps_setB _ _ _ (in_atc (hL _ (by decide)) (by decide)) (keeps_setB _ _ _ (in_atc (hL _ (by decide)) (by decide)) k5))
  try clear_value x6
  extract_lets +onlyGivenNames -merge -useContext -underBinder x8
  have k9 : Keeps L r (x8) := (keeps_setB _ _ _ (in_atc (hL _ (by decide)) (by decide)) k7)
  try clear_value x8
  extract_lets +onlyGivenNames -merge -useContext -underBinder x10
  have k11 : Keeps L r (x10) := (keeps_modAttic _ (Sub.trans (by decide) hL) k9)
  try clear_value x10
  exact (keeps_atcStatus (Sub.trans (by decide) hL) (keeps_offer _ _ (Sub.trans (by decide) hL) k11))

theorem keeps_driveFail {L : List Part} {r s : State} (step : Nat) (opc : Nat) (stat : Nat)
    (hL : Sub [.atcR, .attic] L) (h : Keeps L r s) : Keeps L r (State.driveFail s step opc stat) := by
  unfold State.driveFail
  extract_lets +onlyGivenNames -merge -useContext -underBinder x0
  have k1 : Keeps L r (x0) := (keeps_setF _ _ _ (in_atc (hL _ (by decide)) (by decide)) (keeps_setF _ _ _ (in_atc (hL _ (by decide)) (by decide)) (keeps_setF _ _ _ (in_atc (hL _ (by decide)) (by decide)) h)))
  try clear_value x0
  exact (keeps_modAttic _ (Sub.trans (by decide) hL) (keeps_setB _ _ _ (in_atc (hL _ (by decide)) (by decide)) (keeps_setB _ _ _ (in_atc (hL _ (by decide)) (by decide)) k1)))

theorem keeps_nvme {L : List Part} {r s : State} (opc : Nat) (v2 : NvmeResult) (done : State → State)
    (hL : Sub [.attic, .atcR] L) (h : Keeps L r s) (h3 : ∀ x0, Keeps L r x0 → Keeps L r (done x0)) : Keeps L r (State.nvme s opc v2 done) := by
  unfold State.nvme
  exact (Keeps.ite (h3 _ h) (keeps_atcStatus (Sub.trans (by decide) hL) (keeps_driveFail _ _ _ (Sub.trans (by decide) hL) h)))

theorem keeps_execBringUp {L : List Part} {r s : State} (env : DriveEnv)
    (hL : Sub [.attic, .atcR] L) (h : Keeps L r s) : Runs L r (execBringUp env s) := by
  unfold execBringUp
  refine Runs.next ?_
  refine Keeps.ite ?_ h
  extract_lets +onlyGivenNames -merge -useContext -underBinder x0
  have k1 : Keeps L r (x0) := (keeps_modAttic _ (Sub.trans (by decide) hL) h)
  try clear_value x0
  extract_lets +onlyGivenNames -merge -useContext -underBinder x2
  try clear_value x2
  refine Keeps.ite (keeps_atcStatus (Sub.trans (by decide) hL) (keeps_driveFail _ _ _ (Sub.trans (by decide) hL) k1)) ?_
  extract_lets +onlyGivenNames -merge -useContext -underBinder x3
  have k4 : Keeps L r (x3) := (keeps_setF _ _ _ (in_atc (hL _ (by decide)) (by decide)) (keeps_setF _ _ _ (in_atc (hL _ (by decide)) (by decide)) k1))
  try clear_value x3
  refine Keeps.ite (keeps_atcStatus (Sub.trans (by decide) hL) (keeps_driveFail _ _ _ (Sub.trans (by decide) hL) k4)) ?_
  refine Keeps.ite (keeps_atcStatus (Sub.trans (by decide) hL) (keeps_setB _ _ _ (in_atc (hL _ (by decide)) (by decide)) k4)) ?_
  refine Keeps.ite (keeps_atcStatus (Sub.trans (by decide) hL) (keeps_driveFail _ _ _ (Sub.trans (by decide) hL) k4)) ?_
  extract_lets +onlyGivenNames -merge -useContext -underBinder x5
  have k6 : Keeps L r (x5) := (keeps_setB _ _ _ (in_atc (hL _ (by decide)) (by decide)) k4)
  try clear_value x5
  refine Keeps.ite (keeps_atcStatus (Sub.trans (by decide) hL) (keeps_driveFail _ _ _ (Sub.trans (by decide) hL) k6)) ?_
  extract_lets +onlyGivenNames -merge -useContext -underBinder x7
  have k8 : Keeps L r (x7) := (keeps_modAttic _ (Sub.trans (by decide) hL) k6)
  try clear_value x7
  refine Keeps.ite (keeps_atcStatus (Sub.trans (by decide) hL) (keeps_driveFail _ _ _ (Sub.trans (by decide) hL) k8)) ?_
  extract_lets +onlyGivenNames -merge -useContext -underBinder x9
  try clear_value x9
  extract_lets +onlyGivenNames -merge -useContext -underBinder x10
  try clear_value x10
  exact (Keeps.ite (keeps_openRegion _ _ _ (Sub.trans (by decide) hL) k8) (Keeps.ite (keeps_openRegion _ _ _ (Sub.trans (by decide) hL) k8) (keeps_atcStatus (Sub.trans (by decide) hL) (keeps_setB _ _ _ (in_atc (hL _ (by decide)) (by decide)) k8))))

theorem keeps_execBringUpRestart {L : List Part} {r s : State} 
    (hL : Sub [.attic, .now] L) (h : Keeps L r s) : Runs L r (execBringUpRestart s) := by
  unfold execBringUpRestart
  refine Runs.next ?_
  split
  · exact (Keeps.ite (keeps_modAttic _ (Sub.trans (by decide) hL) (keeps_atTime _ (Sub.trans (by decide) hL) h)) h)
  · exact h

theorem keeps_execPcieLinkDown {L : List Part} {r s : State} 
    (hL : Sub [.attic, .atcR] L) (h : Keeps L r s) : Runs L r (execPcieLinkDown s) := by
  unfold execPcieLinkDown
  exact (Runs.next (keeps_atcStatus (Sub.trans (by decide) hL) (keeps_modAttic _ (Sub.trans (by decide) hL) (keeps_setF _ _ _ (in_atc (hL _ (by decide)) (by decide)) (keeps_setB _ _ _ (in_atc (hL _ (by decide)) (by decide)) h)))))

theorem keeps_sendBlock {L : List Part} {r s : State} (q : QueuedBlock)
    (hL : Sub [.mem, .attic, .atcR] L) (h : Keeps L r s) : Keeps L r (State.sendBlock s q) := by
  unfold State.sendBlock
  extract_lets +onlyGivenNames -merge -useContext -underBinder x0
  try clear_value x0
  extract_lets +onlyGivenNames -merge -useContext -underBinder x1
  try clear_value x1
  extract_lets +onlyGivenNames -merge -useContext -underBinder x2
  have k3 : Keeps L r (x2) := (Keeps.ite (keeps_setBytes _ _ _ (Sub.trans (by decide) hL) h) h)
  try clear_value x2
  extract_lets +onlyGivenNames -merge -useContext -underBinder x4
  try clear_value x4
  extract_lets +onlyGivenNames -merge -useContext -underBinder x5
  have k6 : Keeps L r (x5) := (keeps_setBytes _ _ _ (Sub.trans (by decide) hL) k3)
  try clear_value x5
  extract_lets +onlyGivenNames -merge -useContext -underBinder x7
  try clear_value x7
  extract_lets +onlyGivenNames -merge -useContext -underBinder x8
  have k9 : Keeps L r (x8) := (keeps_modAttic _ (Sub.trans (by decide) hL) k6)
  try clear_value x8
  exact (Keeps.ite (keeps_advance (Sub.trans (by decide) hL) k9) k9)

theorem keeps_written {L : List Part} {r s : State} (window : Bool) (n : Nat)
    (hL : Sub [.mem, .attic, .atcR, .crier, .happened] L) (h : Keeps L r s) : Keeps L r (State.written s window n) := by
  unfold State.written
  extract_lets +onlyGivenNames -merge -useContext -underBinder x0
  try clear_value x0
  extract_lets +onlyGivenNames -merge -useContext -underBinder x1
  have k2 : Keeps L r (x1) := (Keeps.foldl (fun y3 y4 k5 => (keeps_sendBlock _ (Sub.trans (by decide) hL) k5)) h)
  try clear_value x1
  exact (keeps_eventBlocks (Sub.trans (by decide) hL) (keeps_retryLost (Sub.trans (by decide) hL) (keeps_modAttic _ (Sub.trans (by decide) hL) k2)))

theorem keeps_execDriveWrite {L : List Part} {r s : State} (window : Bool) (n : Fin 33) (v2 : NvmeResult)
    (hL : Sub [.attic, .atcR, .mem, .crier, .happened] L) (h : Keeps L r s) : Runs L r (execDriveWrite window n v2 s) := by
  unfold execDriveWrite
  exact (Runs.next (Keeps.ite (keeps_nvme _ _ _ (Sub.trans (by decide) hL) h (fun y0 k1 => (keeps_written _ _ (Sub.trans (by decide) hL) k1))) h))

theorem keeps_takeCheckpoint {L : List Part} {r s : State} 
    (hL : Sub [.attic, .mem] L) (h : Keeps L r s) : Keeps L r (State.takeCheckpoint s) := by
  unfold State.takeCheckpoint
  extract_lets +onlyGivenNames -merge -useContext -underBinder x0
  try clear_value x0
  extract_lets +onlyGivenNames -merge -useContext -underBinder x1
  try clear_value x1
  extract_lets +onlyGivenNames -merge -useContext -underBinder x2
  try clear_value x2
  split
  · exact (keeps_modAttic _ (Sub.trans (by decide) hL) (Keeps.of_someP (by with_reducible assumption) (keeps_putBlock _ _ _ _ (Sub.trans (by decide) hL) h)))
  · exact h

theorem keeps_execCheckpoint {L : List Part} {r s : State} (v0 : NvmeResult)
    (hL : Sub [.now, .attic, .atcR, .mem] L) (h : Keeps L r s) : Runs L r (execCheckpoint v0 s) := by
  unfold execCheckpoint
  refine Runs.next ?_
  refine Keeps.ite ?_ h
  extract_lets +onlyGivenNames -merge -useContext -underBinder x0
  have k1 : Keeps L r (x0) := (keeps_atTime _ (Sub.trans (by decide) hL) h)
  try clear_value x0
  extract_lets +onlyGivenNames -merge -useContext -underBinder x2
  have k3 : Keeps L r (x2) := (keeps_modAttic _ (Sub.trans (by decide) hL) k1)
  try clear_value x2
  exact (keeps_nvme _ _ _ (Sub.trans (by decide) hL) k3 (fun y4 k5 => (keeps_takeCheckpoint (Sub.trans (by decide) hL) k5)))

theorem keeps_execAtticShutdown {L : List Part} {r s : State} 
    (hL : Sub [.mem, .attic, .atcR, .crier, .happened] L) (h : Keeps L r s) : Runs L r (execAtticShutdown s) := by
  unfold execAtticShutdown
  refine Runs.next ?_
  refine Keeps.ite ?_ h
  extract_lets +onlyGivenNames -merge -useContext -underBinder x0
  have k1 : Keeps L r (x0) := (keeps_written _ _ (Sub.trans (by decide) hL) h)
  try clear_value x0
  extract_lets +onlyGivenNames -merge -useContext -underBinder x2
  have k3 : Keeps L r (x2) := (keeps_written _ _ (Sub.trans (by decide) hL) k1)
  try clear_value x2
  extract_lets +onlyGivenNames -merge -useContext -underBinder x4
  have k5 : Keeps L r (x4) := (Keeps.ite k3 (keeps_takeCheckpoint (Sub.trans (by decide) hL) k3))
  try clear_value x4
  extract_lets +onlyGivenNames -merge -useContext -underBinder x6
  have k7 : Keeps L r (x6) := (keeps_written _ _ (Sub.trans (by decide) hL) k5)
  try clear_value x6
  exact (keeps_perstUpdate (Sub.trans (by decide) hL) (keeps_modAttic _ (Sub.trans (by decide) hL) k7))

theorem keeps_atticEnabled {L : List Part} {r s : State} (on : Bool)
    (hL : Sub [.attic, .atcR, .mem, .happened, .crier] L) (h : Keeps L r s) : Keeps L r (State.atticEnabled s on) := by
  unfold State.atticEnabled
  refine Keeps.ite (keeps_atcStatus (Sub.trans (by decide) hL) (keeps_perstUpdate (Sub.trans (by decide) hL) (keeps_modAttic _ (Sub.trans (by decide) hL) h))) ?_
  extract_lets +onlyGivenNames -merge -useContext -underBinder x0
  try clear_value x0
  extract_lets +onlyGivenNames -merge -useContext -underBinder x1
  have k2 : Keeps L r (x1) := (keeps_closeWindow (Sub.trans (by decide) hL) (keeps_unaccept (Sub.trans (by decide) hL) h))
  try clear_value x1
  extract_lets +onlyGivenNames -merge -useContext -underBinder x3
  have k4 : Keeps L r (x3) := (keeps_setB _ _ _ (in_atc (hL _ (by decide)) (by decide)) (keeps_setB _ _ _ (in_atc (hL _ (by decide)) (by decide)) k2))
  try clear_value x3
  extract_lets +onlyGivenNames -merge -useContext -underBinder x5
  have k6 : Keeps L r (x5) := (keeps_setB _ _ _ (in_atc (hL _ (by decide)) (by decide)) (keeps_setB _ _ _ (in_atc (hL _ (by decide)) (by decide)) k4))
  try clear_value x5
  extract_lets +onlyGivenNames -merge -useContext -underBinder x7
  have k8 : Keeps L r (x7) := (keeps_setB _ _ _ (in_atc (hL _ (by decide)) (by decide)) k6)
  try clear_value x7
  exact (keeps_atcStatus (Sub.trans (by decide) hL) (keeps_perstUpdate (Sub.trans (by decide) hL) (keeps_modAttic _ (Sub.trans (by decide) hL) k8)))

theorem keeps_streamEnabled {L : List Part} {r s : State} 
    (hL : Sub [.attic] L) (h : Keeps L r s) : Keeps L r (State.streamEnabled s) := by
  unfold State.streamEnabled
  exact (keeps_modAttic _ (Sub.trans (by decide) hL) h)

theorem keeps_atcRead {L : List Part} {r s : State} 
    (hL : Sub [.attic, .atcR] L) (h : Keeps L r s) : Keeps L r (State.atcRead s) := by
  unfold State.atcRead
  refine Keeps.ite (keeps_atcStatus (Sub.trans (by decide) hL) (keeps_modAttic _ (Sub.trans (by decide) hL) h)) ?_
  extract_lets +onlyGivenNames -merge -useContext -underBinder x0
  try clear_value x0
  exact (keeps_modAttic _ (Sub.trans (by decide) hL) (keeps_setB _ _ _ (in_atc (hL _ (by decide)) (by decide)) h))

theorem keeps_atcFormat {L : List Part} {r s : State} 
    (hL : Sub [.atcR, .attic] L) (h : Keeps L r s) : Keeps L r (State.atcFormat s) := by
  unfold State.atcFormat
  exact (Keeps.ite (keeps_openRegion _ _ _ (Sub.trans (by decide) hL) h) (keeps_atcStatus (Sub.trans (by decide) hL) (keeps_modAttic _ (Sub.trans (by decide) hL) h)))

theorem keeps_atcCmd {L : List Part} {r s : State} (v : Nat)
    (hL : Sub [.ring, .attic, .atcR, .mem, .happened, .crier] L) (h : Keeps L r s) : Keeps L r (State.atcCmd s v) := by
  unfold State.atcCmd
  refine Keeps.ite h ?_
  extract_lets +onlyGivenNames -merge -useContext -underBinder x0
  have k1 : Keeps L r (x0) := (Keeps.ite (keeps_trigger _ _ _ (Sub.trans (by decide) hL) h) h)
  try clear_value x0
  extract_lets +onlyGivenNames -merge -useContext -underBinder x2
  have k3 : Keeps L r (x2) := (Keeps.ite (keeps_atcRead (Sub.trans (by decide) hL) k1) k1)
  try clear_value x2
  extract_lets +onlyGivenNames -merge -useContext -underBinder x4
  have k5 : Keeps L r (x4) := (Keeps.ite (keeps_takeCheckpoint (Sub.trans (by decide) hL) k3) k3)
  try clear_value x4
  extract_lets +onlyGivenNames -merge -useContext -underBinder x6
  have k7 : Keeps L r (x6) := (Keeps.ite (keeps_atcFormat (Sub.trans (by decide) hL) k5) k5)
  try clear_value x6
  exact (Keeps.ite (keeps_clearCount _ _ (in_atc (hL _ (by decide)) (by decide)) (keeps_clearCount _ _ (in_atc (hL _ (by decide)) (by decide)) (keeps_clearCount _ _ (in_atc (hL _ (by decide)) (by decide)) k7))) k7)

theorem keeps_execTrig {L : List Part} {r s : State} (init : Fin 16)
    (hL : Sub [.sysR, .happened, .ring, .attic, .atcR, .mem, .crier] L) (h : Keeps L r s) : Runs L r (execTrig init s) := by
  unfold execTrig
  exact (Runs.next (keeps_onCommand _ _ _ (Sub.trans (by decide) hL) h (fun y0 k1 => (keeps_atcCmd _ (Sub.trans (by decide) hL) k1))))

theorem keeps_execAtcRead {L : List Part} {r s : State} (init : Fin 16)
    (hL : Sub [.sysR, .happened, .ring, .attic, .atcR, .mem, .crier] L) (h : Keeps L r s) : Runs L r (execAtcRead init s) := by
  unfold execAtcRead
  exact (Runs.next (keeps_onCommand _ _ _ (Sub.trans (by decide) hL) h (fun y0 k1 => (keeps_atcCmd _ (Sub.trans (by decide) hL) k1))))

theorem keeps_execCkpt {L : List Part} {r s : State} (init : Fin 16)
    (hL : Sub [.sysR, .happened, .ring, .attic, .atcR, .mem, .crier] L) (h : Keeps L r s) : Runs L r (execCkpt init s) := by
  unfold execCkpt
  exact (Runs.next (keeps_onCommand _ _ _ (Sub.trans (by decide) hL) h (fun y0 k1 => (keeps_atcCmd _ (Sub.trans (by decide) hL) k1))))

theorem keeps_execFormat {L : List Part} {r s : State} (init : Fin 16)
    (hL : Sub [.sysR, .happened, .ring, .attic, .atcR, .mem, .crier] L) (h : Keeps L r s) : Runs L r (execFormat init s) := by
  unfold execFormat
  exact (Runs.next (keeps_onCommand _ _ _ (Sub.trans (by decide) hL) h (fun y0 k1 => (keeps_atcCmd _ (Sub.trans (by decide) hL) k1))))

theorem keeps_execAtcCntClr {L : List Part} {r s : State} (init : Fin 16)
    (hL : Sub [.sysR, .happened, .ring, .attic, .atcR, .mem, .crier] L) (h : Keeps L r s) : Runs L r (execAtcCntClr init s) := by
  unfold execAtcCntClr
  exact (Runs.next (keeps_onCommand _ _ _ (Sub.trans (by decide) hL) h (fun y0 k1 => (keeps_atcCmd _ (Sub.trans (by decide) hL) k1))))

theorem keeps_execWindowClose {L : List Part} {r s : State} 
    (hL : Sub [.attic, .mem, .atcR, .happened, .crier, .now] L) (h : Keeps L r s) : Runs L r (execWindowClose s) := by
  unfold execWindowClose
  refine Runs.next ?_
  split
  · exact (keeps_closeWindow (Sub.trans (by decide) hL) (keeps_atTime _ (Sub.trans (by decide) hL) h))
  · exact h

theorem keeps_execReadbackEnd {L : List Part} {r s : State} (data : List Word) (status : BitVec 16)
    (hL : Sub [.atcR, .attic, .crier] L) (h : Keeps L r s) : Runs L r (execReadbackEnd data status s) := by
  unfold execReadbackEnd
  refine Runs.next ?_
  split
  · exact h
  · extract_lets +onlyGivenNames -merge -useContext -underBinder x0
    have k1 : Keeps L r (x0) := (keeps_setB _ _ _ (in_atc (hL _ (by decide)) (by decide)) (keeps_modAttic _ (Sub.trans (by decide) hL) h))
    try clear_value x0
    extract_lets +onlyGivenNames -merge -useContext -underBinder x2
    have k3 : Keeps L r (x2) := (Keeps.ite (keeps_setF _ _ _ (in_atc (hL _ (by decide)) (by decide)) (Keeps.foldl (fun y4 y5 k6 => (keeps_setF _ _ _ (in_atc (hL _ (by decide)) (off_at (n := 16744448) (by omega) (by decide))) k6)) k1)) (keeps_setF _ _ _ (in_atc (hL _ (by decide)) (by decide)) (keeps_setF _ _ _ (in_atc (hL _ (by decide)) (by decide)) k1)))
    try clear_value x2
    extract_lets +onlyGivenNames -merge -useContext -underBinder x8
    have k9 : Keeps L r (x8) := (Keeps.ite (keeps_atcRead (Sub.trans (by decide) hL) (keeps_modAttic _ (Sub.trans (by decide) hL) k3)) k3)
    try clear_value x8
    exact (keeps_pulseIf _ _ (Sub.trans (by decide) hL) (keeps_atcStatus (Sub.trans (by decide) hL) k9))

theorem keeps_execSmartPoll {L : List Part} {r s : State} (temp : BitVec 16) (crit : BitVec 8) (pct : BitVec 8) (media : Nat) (v4 : NvmeResult)
    (hL : Sub [.now, .attic, .atcR] L) (h : Keeps L r s) : Runs L r (execSmartPoll temp crit pct media v4 s) := by
  unfold execSmartPoll
  refine Runs.next ?_
  refine Keeps.ite ?_ h
  extract_lets +onlyGivenNames -merge -useContext -underBinder x0
  have k1 : Keeps L r (x0) := (keeps_atTime _ (Sub.trans (by decide) hL) h)
  try clear_value x0
  extract_lets +onlyGivenNames -merge -useContext -underBinder x2
  have k3 : Keeps L r (x2) := (keeps_modAttic _ (Sub.trans (by decide) hL) k1)
  try clear_value x2
  exact (keeps_nvme _ _ _ (Sub.trans (by decide) hL) k3 (fun y4 k5 => (keeps_atcStatus (Sub.trans (by decide) hL) (keeps_setF _ _ _ (in_atc (hL _ (by decide)) (by decide)) (keeps_setF _ _ _ (in_atc (hL _ (by decide)) (by decide)) (keeps_setF _ _ _ (in_atc (hL _ (by decide)) (by decide)) (keeps_setF _ _ _ (in_atc (hL _ (by decide)) (by decide)) k5)))))))

end Sys2Proof.Laws
end

