-- ==== Sys2Proof/Laws/KeepLeg.lean ====
section
/-! SUPPORT. What the operations of Machine/Leg.lean may change, and what they keep (see Keeps.lean). -/

namespace Sys2Proof.Laws

open Sys2Proof Sys2Proof.Machine Sys2Proof.Safety

theorem keeps_legOffer {L : List Part} {r s : State} (l : Nat) (zero : Bool)
    (hL : Sub [.attic] L) (h : Keeps L r s) : Keeps L r (State.legOffer s l zero) := by
  unfold State.legOffer
  extract_lets +onlyGivenNames -merge -useContext -underBinder x0
  try clear_value x0
  extract_lets +onlyGivenNames -merge -useContext -underBinder x1
  try clear_value x1
  extract_lets +onlyGivenNames -merge -useContext -underBinder x2
  try clear_value x2
  extract_lets +onlyGivenNames -merge -useContext -underBinder x3
  try clear_value x3
  extract_lets +onlyGivenNames -merge -useContext -underBinder x4 x5
  have k6 : Keeps L r (x5) := (Keeps.ite (Keeps.set_attic (hL _ (by decide)) h) h)
  try clear_value x5
  exact (keeps_offer _ _ (Sub.trans (by decide) hL) k6)

theorem keeps_activate {L : List Part} {r s : State} (l : Nat) (v : LegSet)
    (hL : Sub [.legR, .attic] L) (h : Keeps L r s) : Keeps L r (State.activate s l v) := by
  unfold State.activate
  extract_lets +onlyGivenNames -merge -useContext -underBinder x0
  try clear_value x0
  extract_lets +onlyGivenNames -merge -useContext -underBinder x1
  have k2 : Keeps L r (x1) := (keeps_setB _ _ _ (in_leg (hL _ (by decide)) (by decide)) (keeps_setF _ _ _ (in_leg (hL _ (by decide)) (by decide)) (keeps_setF _ _ _ (in_leg (hL _ (by decide)) (by decide)) (keeps_setF _ _ _ (in_leg (hL _ (by decide)) (by decide)) (keeps_setF _ _ _ (in_leg (hL _ (by decide)) (by decide)) h)))))
  try clear_value x1
  exact (Keeps.ite k2 (keeps_legOffer _ _ (Sub.trans (by decide) hL) k2))

theorem keeps_transfer {L : List Part} {r s : State} (l : Nat)
    (hL : Sub [.leg, .legR, .attic] L) (h : Keeps L r s) : Keeps L r (State.transfer s l) := by
  unfold State.transfer
  exact (Keeps.ite (Keeps.ite (keeps_modLeg _ _ (Sub.trans (by decide) hL) (keeps_activate _ _ (Sub.trans (by decide) hL) h)) h) (keeps_activate _ _ (Sub.trans (by decide) hL) h))

theorem keeps_setBalls {L : List Part} {r s : State} (l : Nat) (hi : Bool) (lo : Bool) (t : Nat)
    (hL : Sub [.leg, .legR] L) (h : Keeps L r s) : Keeps L r (State.setBalls s l hi lo t) := by
  unfold State.setBalls
  extract_lets +onlyGivenNames -merge -useContext -underBinder x0
  extract_lets +onlyGivenNames -merge -useContext -underBinder x1
  try clear_value x1
  extract_lets +onlyGivenNames -merge -useContext -underBinder x2
  try clear_value x2
  extract_lets +onlyGivenNames -merge -useContext -underBinder x3
  have k4 : Keeps L r (x3) := (keeps_modLeg _ _ (Sub.trans (by decide) hL) h)
  try clear_value x3
  exact (keeps_setB _ _ _ (in_leg (hL _ (by decide)) (by decide)) (keeps_setB _ _ _ (in_leg (hL _ (by decide)) (by decide)) k4))

theorem keeps_drive {L : List Part} {r s : State} (l : Nat) (t : Nat)
    (hL : Sub [.legR, .leg] L) (h : Keeps L r s) : Keeps L r (State.drive s l t) := by
  unfold State.drive
  extract_lets +onlyGivenNames -merge -useContext -underBinder x0
  refine Keeps.ite ?_ ?_
  · split
    · exact (keeps_setB _ _ _ (in_leg (hL _ (by decide)) (by decide)) (keeps_setBalls _ _ _ _ (Sub.trans (by decide) hL) h))
  · extract_lets +onlyGivenNames -merge -useContext -underBinder x1
    try clear_value x1
    extract_lets +onlyGivenNames -merge -useContext -underBinder x2
    try clear_value x2
    extract_lets +onlyGivenNames -merge -useContext -underBinder x3
    try clear_value x3
    extract_lets +onlyGivenNames -merge -useContext -underBinder x4
    try clear_value x4
    split
    · exact (keeps_setB _ _ _ (in_leg (hL _ (by decide)) (by decide)) (keeps_setBalls _ _ _ _ (Sub.trans (by decide) hL) h))
    · exact (keeps_setB _ _ _ (in_leg (hL _ (by decide)) (by decide)) (keeps_setBalls _ _ _ _ (Sub.trans (by decide) hL) h))
    · exact (keeps_setB _ _ _ (in_leg (hL _ (by decide)) (by decide)) (keeps_setBalls _ _ _ _ (Sub.trans (by decide) hL) h))
    · split
      · extract_lets +onlyGivenNames -merge -useContext -underBinder x5
        try clear_value x5
        extract_lets +onlyGivenNames -merge -useContext -underBinder x6
        try clear_value x6
        extract_lets +onlyGivenNames -merge -useContext -underBinder x7
        try clear_value x7
        extract_lets +onlyGivenNames -merge -useContext -underBinder x8
        try clear_value x8
        extract_lets +onlyGivenNames -merge -useContext -underBinder x9
        try clear_value x9
        exact (keeps_setB _ _ _ (in_leg (hL _ (by decide)) (by decide)) (keeps_setBalls _ _ _ _ (Sub.trans (by decide) hL) h))

theorem keeps_setM {L : List Part} {r s : State} (l : Nat) (v : Bool) (t : Nat)
    (hL : Sub [.legR, .leg] L) (h : Keeps L r s) : Keeps L r (State.setM s l v t) := by
  unfold State.setM
  extract_lets +onlyGivenNames -merge -useContext -underBinder x0
  refine Keeps.ite h ?_
  extract_lets +onlyGivenNames -merge -useContext -underBinder x1
  try clear_value x1
  extract_lets +onlyGivenNames -merge -useContext -underBinder x2
  have k3 : Keeps L r (x2) := (keeps_setB _ _ _ (in_leg (hL _ (by decide)) (by decide)) h)
  try clear_value x2
  extract_lets +onlyGivenNames -merge -useContext -underBinder x4
  have k5 : Keeps L r (x4) := (keeps_modLeg _ _ (Sub.trans (by decide) hL) k3)
  try clear_value x4
  exact (keeps_drive _ _ (Sub.trans (by decide) hL) k5)

theorem keeps_legStart {L : List Part} {r s : State} (l : Nat) (t : Nat)
    (hL : Sub [.legR, .attic, .leg] L) (h : Keeps L r s) : Keeps L r (State.legStart s l t) := by
  unfold State.legStart
  extract_lets +onlyGivenNames -merge -useContext -underBinder x0
  have k1 : Keeps L r (x0) := (keeps_activate _ _ (Sub.trans (by decide) hL) h)
  try clear_value x0
  extract_lets +onlyGivenNames -merge -useContext -underBinder x2
  have k3 : Keeps L r (x2) := (keeps_modLeg _ _ (Sub.trans (by decide) hL) k1)
  try clear_value x2
  extract_lets +onlyGivenNames -merge -useContext -underBinder x4
  have k5 : Keeps L r (x4) := (keeps_setB _ _ _ (in_leg (hL _ (by decide)) (by decide)) k3)
  try clear_value x4
  extract_lets +onlyGivenNames -merge -useContext -underBinder x6
  try clear_value x6
  exact (keeps_setM _ _ _ (Sub.trans (by decide) hL) (keeps_setB _ _ _ (in_leg (hL _ (by decide)) (by decide)) k5))

theorem keeps_legStop {L : List Part} {r s : State} (l : Nat)
    (hL : Sub [.legR, .leg] L) (h : Keeps L r s) : Keeps L r (State.legStop s l) := by
  unfold State.legStop
  extract_lets +onlyGivenNames -merge -useContext -underBinder x0
  have k1 : Keeps L r (x0) := (keeps_setB _ _ _ (in_leg (hL _ (by decide)) (by decide)) (keeps_setB _ _ _ (in_leg (hL _ (by decide)) (by decide)) h))
  try clear_value x0
  extract_lets +onlyGivenNames -merge -useContext -underBinder x2
  have k3 : Keeps L r (x2) := (keeps_modLeg _ _ (Sub.trans (by decide) hL) k1)
  try clear_value x2
  exact (keeps_drive _ _ (Sub.trans (by decide) hL) k3)

theorem keeps_legRefresh {L : List Part} {r s : State} (l : Nat)
    (hL : Sub [.legR, .leg, .attic] L) (h : Keeps L r s) : Keeps L r (State.legRefresh s l) := by
  unfold State.legRefresh
  extract_lets +onlyGivenNames -merge -useContext -underBinder x0
  try clear_value x0
  exact (Keeps.ite (keeps_legStop _ (Sub.trans (by decide) hL) h) (Keeps.ite (keeps_legStart _ _ (Sub.trans (by decide) hL) h) (keeps_drive _ _ (Sub.trans (by decide) hL) h)))

theorem keeps_setHeld {L : List Part} {r s : State} (l : Nat) (v : Bool)
    (hL : Sub [.leg, .trpR] L) (h : Keeps L r s) : Keeps L r (State.setHeld s l v) := by
  unfold State.setHeld
  extract_lets +onlyGivenNames -merge -useContext -underBinder x0
  have k1 : Keeps L r (x0) := (keeps_modLeg _ _ (Sub.trans (by decide) hL) h)
  try clear_value x0
  exact (Keeps.ite (keeps_setBit _ _ _ _ (in_trp (hL _ (by decide)) (by decide)) k1) (keeps_setBit _ _ _ _ (in_trp (hL _ (by decide)) (by decide)) k1))

theorem keeps_anyHeld {L : List Part} {r s : State} 
    (hL : Sub [.trpR] L) (h : Keeps L r s) : Keeps L r (State.anyHeld s) := by
  unfold State.anyHeld
  exact (keeps_setB _ _ _ (in_trp (hL _ (by decide)) (by decide)) h)

theorem keeps_hold {L : List Part} {r s : State} (l : Nat) (q : Nat)
    (hL : Sub [.leg, .trpR, .legR] L) (h : Keeps L r s) : Keeps L r (State.hold s l q) := by
  unfold State.hold
  extract_lets +onlyGivenNames -merge -useContext -underBinder x0
  try clear_value x0
  extract_lets +onlyGivenNames -merge -useContext -underBinder x1
  try clear_value x1
  extract_lets +onlyGivenNames -merge -useContext -underBinder x2
  try clear_value x2
  extract_lets +onlyGivenNames -merge -useContext -underBinder x3
  have k4 : Keeps L r (x3) := (keeps_setHeld _ _ (Sub.trans (by decide) hL) h)
  try clear_value x3
  extract_lets +onlyGivenNames -merge -useContext -underBinder x5
  have k6 : Keeps L r (x5) := (keeps_modLeg _ _ (Sub.trans (by decide) hL) k4)
  try clear_value x5
  exact (keeps_anyHeld (Sub.trans (by decide) hL) (keeps_drive _ _ (Sub.trans (by decide) hL) k6))

theorem keeps_endHold {L : List Part} {r s : State} (l : Nat)
    (hL : Sub [.trpR, .legR, .leg] L) (h : Keeps L r s) : Keeps L r (State.endHold s l) := by
  unfold State.endHold
  extract_lets +onlyGivenNames -merge -useContext -underBinder x0
  try clear_value x0
  exact (keeps_anyHeld (Sub.trans (by decide) hL) (keeps_drive _ _ (Sub.trans (by decide) hL) (keeps_modLeg _ _ (Sub.trans (by decide) hL) (keeps_setHeld _ _ (Sub.trans (by decide) hL) h))))

theorem keeps_unhold {L : List Part} {r s : State} (l : Nat)
    (hL : Sub [.trpR, .legR, .leg] L) (h : Keeps L r s) : Keeps L r (State.unhold s l) := by
  unfold State.unhold
  extract_lets +onlyGivenNames -merge -useContext -underBinder x0
  try clear_value x0
  exact (Keeps.ite (keeps_endHold _ (Sub.trans (by decide) hL) h) h)

theorem keeps_groupArrives {L : List Part} {r s : State} (q : Nat) (a : Nat) (active : Bool)
    (hL : Sub [.aisle, .leg, .trpR, .legR] L) (h : Keeps L r s) : Keeps L r (State.groupArrives s q a active) := by
  unfold State.groupArrives
  extract_lets +onlyGivenNames -merge -useContext -underBinder x0
  have k1 : Keeps L r (x0) := (keeps_modAisle _ _ (Sub.trans (by decide) hL) h)
  try clear_value x0
  refine keeps_forAll _ _ k1 ?_
  intro y3 y4 b5 k2
  extract_lets +onlyGivenNames -merge -useContext -underBinder x6
  try clear_value x6
  exact (Keeps.ite k2 (Keeps.ite (keeps_hold _ _ (Sub.trans (by decide) hL) k2) (keeps_unhold _ (Sub.trans (by decide) hL) k2)))

theorem keeps_legGroups {L : List Part} {r s : State} (l : Nat)
    (hL : Sub [.trpR, .legR, .leg] L) (h : Keeps L r s) : Keeps L r (State.legGroups s l) := by
  unfold State.legGroups
  exact (keeps_unhold _ (Sub.trans (by decide) hL) (keeps_forAll _ _ h fun y1 y2 b3 k0 => (Keeps.ite (keeps_hold _ _ (Sub.trans (by decide) hL) k0) k0)))

theorem keeps_setSignals {L : List Part} {r s : State} (l : Nat) (v : LegSignals)
    (hL : Sub [.leg, .legR] L) (h : Keeps L r s) : Keeps L r (State.setSignals s l v) := by
  unfold State.setSignals
  extract_lets +onlyGivenNames -merge -useContext -underBinder x0
  exact (keeps_modLeg _ _ (Sub.trans (by decide) hL) (keeps_setB _ _ _ (in_leg (hL _ (by decide)) (by decide)) (keeps_setB _ _ _ (in_leg (hL _ (by decide)) (by decide)) (keeps_setB _ _ _ (in_leg (hL _ (by decide)) (by decide)) (keeps_setB _ _ _ (in_leg (hL _ (by decide)) (by decide)) h)))))

theorem keeps_beginHalf {L : List Part} {r s : State} (l : Nat) (zero : Bool) (t : Nat)
    (hL : Sub [.legR, .leg, .attic] L) (h : Keeps L r s) : Keeps L r (State.beginHalf s l zero t) := by
  unfold State.beginHalf
  exact (Keeps.ite (keeps_setM _ _ _ (Sub.trans (by decide) hL) h) (Keeps.ite (keeps_legStart _ _ (Sub.trans (by decide) hL) h) h))

theorem keeps_legEvent {L : List Part} {r s : State} (l : Nat) (zero : Bool) (t : Nat)
    (hL : Sub [.leg, .legR, .attic, .trpR] L) (h : Keeps L r s) : Keeps L r (State.legEvent s l zero t) := by
  unfold State.legEvent
  extract_lets +onlyGivenNames -merge -useContext -underBinder x0
  have k1 : Keeps L r (x0) := (Keeps.ite (keeps_transfer _ (Sub.trans (by decide) hL) h) h)
  try clear_value x0
  extract_lets +onlyGivenNames -merge -useContext -underBinder x2
  have k3 : Keeps L r (x2) := (Keeps.ite (keeps_legOffer _ _ (Sub.trans (by decide) hL) k1) k1)
  try clear_value x2
  extract_lets +onlyGivenNames -merge -useContext -underBinder x4
  have k5 : Keeps L r (x4) := (Keeps.ite (Keeps.ite (keeps_endHold _ (Sub.trans (by decide) hL) k3) (keeps_drive _ _ (Sub.trans (by decide) hL) (keeps_modLeg _ _ (Sub.trans (by decide) hL) k3))) k3)
  try clear_value x4
  extract_lets +onlyGivenNames -merge -useContext -underBinder x6
  try clear_value x6
  extract_lets +onlyGivenNames -merge -useContext -underBinder x7
  have k8 : Keeps L r (x7) := (keeps_modLeg _ _ (Sub.trans (by decide) hL) k5)
  try clear_value x7
  exact (keeps_beginHalf _ _ _ (Sub.trans (by decide) hL) k8)

theorem keeps_judge {L : List Part} {r s : State} (l : Nat)
    (hL : Sub [.legR, .happened, .leg, .attic] L) (h : Keeps L r s) : Keeps L r (State.judge s l) := by
  unfold State.judge
  extract_lets +onlyGivenNames -merge -useContext -underBinder x0
  try clear_value x0
  extract_lets +onlyGivenNames -merge -useContext -underBinder x1
  extract_lets +onlyGivenNames -merge -useContext -underBinder x2
  try clear_value x2
  extract_lets +onlyGivenNames -merge -useContext -underBinder x3
  try clear_value x3
  extract_lets +onlyGivenNames -merge -useContext -underBinder x4
  try clear_value x4
  extract_lets +onlyGivenNames -merge -useContext -underBinder x5
  try clear_value x5
  extract_lets +onlyGivenNames -merge -useContext -underBinder x6
  try clear_value x6
  extract_lets +onlyGivenNames -merge -useContext -underBinder x7
  try clear_value x7
  extract_lets +onlyGivenNames -merge -useContext -underBinder x8
  try clear_value x8
  extract_lets +onlyGivenNames -merge -useContext -underBinder x9
  try clear_value x9
  extract_lets +onlyGivenNames -merge -useContext -underBinder x10
  try clear_value x10
  refine Keeps.ite (keeps_countSat _ _ _ (hL _ (by decide)) (in_leg (hL _ (by decide)) (by decide)) (keeps_setB _ _ _ (in_leg (hL _ (by decide)) (by decide)) h)) ?_
  extract_lets +onlyGivenNames -merge -useContext -underBinder x11
  try clear_value x11
  extract_lets +onlyGivenNames -merge -useContext -underBinder x12
  try clear_value x12
  exact (keeps_countSat _ _ _ (hL _ (by decide)) (in_leg (hL _ (by decide)) (by decide)) (keeps_modLeg _ _ (Sub.trans (by decide) hL) (keeps_activate _ _ (Sub.trans (by decide) hL) h)))

theorem keeps_landing {L : List Part} {r s : State} (l : Nat) (sti : Bool)
    (hL : Sub [.legR, .leg, .attic, .happened] L) (h : Keeps L r s) : Keeps L r (State.landing s l sti) := by
  unfold State.landing
  extract_lets +onlyGivenNames -merge -useContext -underBinder x0
  try clear_value x0
  extract_lets +onlyGivenNames -merge -useContext -underBinder x1
  extract_lets +onlyGivenNames -merge -useContext -underBinder x2
  try clear_value x2
  refine Keeps.ite (keeps_setB _ _ _ (in_leg (hL _ (by decide)) (by decide)) h) ?_
  refine Keeps.ite ?_ (Keeps.ite (keeps_judge _ (Sub.trans (by decide) hL) h) (keeps_setB _ _ _ (in_leg (hL _ (by decide)) (by decide)) h))
  extract_lets +onlyGivenNames -merge -useContext -underBinder x3
  have k4 : Keeps L r (x3) := (keeps_transfer _ (Sub.trans (by decide) hL) h)
  try clear_value x3
  split
  · exact (Keeps.ite (keeps_beginHalf _ _ _ (Sub.trans (by decide) hL) (keeps_setSignals _ _ (Sub.trans (by decide) hL) k4)) k4)
  · exact k4

theorem keeps_commit {L : List Part} {r s : State} (l : Nat) (sti : Bool)
    (hL : Sub [.legR, .leg, .attic, .happened] L) (h : Keeps L r s) : Keeps L r (State.commit s l sti) := by
  unfold State.commit
  refine Keeps.ite ?_ h
  extract_lets +onlyGivenNames -merge -useContext -underBinder x0
  try clear_value x0
  exact (keeps_landing _ _ (Sub.trans (by decide) hL) (keeps_modLeg _ _ (Sub.trans (by decide) hL) h))

theorem keeps_shadowWrite {L : List Part} {r s : State} (l : Nat) (f : Fld) (value : Nat)
    (hL : Sub [.legR, .warranted, .leg, .attic, .happened] L) (hf : f.off < 0x100) (h : Keeps L r s) : Keeps L r (State.shadowWrite s l f value) := by
  unfold State.shadowWrite
  extract_lets +onlyGivenNames -merge -useContext -underBinder x0
  try clear_value x0
  extract_lets +onlyGivenNames -merge -useContext -underBinder x1
  have k2 : Keeps L r (x1) := (keeps_must _ (Sub.trans (by decide) hL) h)
  try clear_value x1
  extract_lets +onlyGivenNames -merge -useContext -underBinder x3
  have k4 : Keeps L r (x3) := (keeps_wr _ _ (in_leg (hL _ (by decide)) hf) k2)
  try clear_value x3
  exact (Keeps.ite k4 (keeps_landing _ _ (Sub.trans (by decide) hL) k4))

theorem keeps_groupCommit {L : List Part} {r s : State} (a : Nat) (mask : Nat)
    (hL : Sub [.legR, .leg, .attic, .happened] L) (h : Keeps L r s) : Keeps L r (State.groupCommit s a mask) := by
  unfold State.groupCommit
  exact (Keeps.ite h (keeps_forAll _ _ h fun y1 y2 b3 k0 => (Keeps.ite (keeps_commit _ _ (Sub.trans (by decide) hL) k0) k0)))

theorem keeps_landStores {L : List Part} {r s : State} (e : Nat) (recs : List OutRec)
    (hL : Sub [.legR, .engR, .leg, .attic, .happened] L) (h : Keeps L r s) : Keeps L r (State.landStores s e recs) := by
  unfold State.landStores
  extract_lets +onlyGivenNames -merge -useContext -underBinder x0
  have k1 : ∀ y3 y4, Keeps L r (y3) → Keeps L r (x0 y3 y4) := by
    intro y3 y4 k2
    unfold x0
    split
    · exact (keeps_setF _ _ _ (in_leg (hL _ (by decide)) (off_shadowReg _)) k2)
    · exact (keeps_setF _ _ _ (in_eng (hL _ (by decide)) (off_at (n := 48000) (by omega) (by decide))) k2)
    · exact k2
  try clear_value x0
  extract_lets +onlyGivenNames -merge -useContext -underBinder x5
  have k6 : Keeps L r (x5) := (Keeps.foldl (fun y7 y8 k9 => (k1 _ _ k9)) h)
  try clear_value x5
  extract_lets +onlyGivenNames -merge -useContext -underBinder x11
  try clear_value x11
  extract_lets +onlyGivenNames -merge -useContext -underBinder x12
  have k13 : Keeps L r (x12) := by
    unfold x12
    refine keeps_forAll _ _ k6 ?_
    intro y15 y16 b17 k14
    extract_lets +onlyGivenNames -merge -useContext -underBinder x18
    try clear_value x18
    exact (Keeps.ite k14 (Keeps.ite (keeps_commit _ _ (Sub.trans (by decide) hL) k14) (keeps_landing _ _ (Sub.trans (by decide) hL) k14)))
  try clear_value x12
  extract_lets +onlyGivenNames -merge -useContext -underBinder x19
  try clear_value x19
  exact (Keeps.ite (keeps_countWrap _ _ _ (hL _ (by decide)) (in_eng (hL _ (by decide)) (by decide)) k13) k13)

theorem keeps_landOn {L : List Part} {r s : State} (x : Nat) (e : Nat)
    (hL : Sub [.legR, .engR, .leg, .attic, .happened, .eng] L) (h : Keeps L r s) : Keeps L r (State.landOn s x e) := by
  unfold State.landOn
  split
  · rename_i at_ recs he
    have q := keeps_landStores (L := L) e recs (Sub.trans (by decide) hL) (keeps_modEng e (fun y => { y with landing := none }) (Sub.trans (by decide) hL) (Keeps.refl { s with now := x }))
    refine ⟨q.queue.trans h.queue, h.time, Nat.le_trans h.free q.free, fun w => h.warranted (q.warranted w),
      fun w => q.regs (h.regs w), fun w => q.mem (h.mem w), fun p hp => same_trans (h.same p hp) ?_⟩
    have := q.same p hp
    cases p <;> first | exact absurd (hL _ (by decide)) hp | exact this | rfl
  · exact h

theorem keeps_modRun {L : List Part} {r s : State} (e : Nat) (f : EngRun → EngRun)
    (hL : Sub [.eng] L) (h : Keeps L r s) : Keeps L r (State.modRun s e f) := by
  unfold State.modRun
  exact (keeps_modEng _ _ (Sub.trans (by decide) hL) h)

theorem keeps_publishCopy {L : List Part} {r s : State} (e : Nat)
    (hL : Sub [.engR] L) (h : Keeps L r s) : Keeps L r (State.publishCopy s e) := by
  unfold State.publishCopy
  extract_lets +onlyGivenNames -merge -useContext -underBinder x0
  exact (keeps_setB _ _ _ (in_eng (hL _ (by decide)) (by decide)) (keeps_forAll _ _ h fun y2 y3 b4 k1 => (keeps_setF _ _ _ (in_eng (hL _ (by decide)) (off_at (n := 48064) (by omega) (by decide))) k1)))

theorem keeps_captureResults {L : List Part} {r s : State} (e : Nat)
    (hL : Sub [.eng] L) (h : Keeps L r s) : Keeps L r (State.captureResults s e) := by
  unfold State.captureResults
  exact (keeps_modRun _ _ (Sub.trans (by decide) hL) h)

theorem keeps_captureAll {L : List Part} {r s : State} (e : Nat)
    (hL : Sub [.engR, .eng] L) (h : Keeps L r s) : Keeps L r (State.captureAll s e) := by
  unfold State.captureAll
  extract_lets +onlyGivenNames -merge -useContext -underBinder x0
  extract_lets +onlyGivenNames -merge -useContext -underBinder x1
  have k2 : Keeps L r (x1) := (Keeps.ite (keeps_publishCopy _ (Sub.trans (by decide) hL) h) h)
  try clear_value x1
  exact (keeps_modRun _ _ (Sub.trans (by decide) hL) k2)

theorem keeps_runTime {L : List Part} {r s : State} (e : Nat)
    (hL : Sub [.eng, .engR] L) (h : Keeps L r s) : Keeps L r (State.runTime s e) := by
  unfold State.runTime
  split
  · exact h
  · extract_lets +onlyGivenNames -merge -useContext -underBinder x0
    have k1 : Keeps L r (x0) := (Keeps.ite (keeps_captureResults _ (Sub.trans (by decide) hL) h) h)
    try clear_value x0
    extract_lets +onlyGivenNames -merge -useContext -underBinder x2
    have k3 : Keeps L r (x2) := (Keeps.ite (keeps_captureAll _ (Sub.trans (by decide) hL) k1) k1)
    try clear_value x2
    exact (keeps_modRun _ _ (Sub.trans (by decide) hL) k3)

theorem keeps_settle {L : List Part} {r s : State} 
    (hL : Sub [.eng, .engR, .legR, .leg, .attic, .happened] L) (h : Keeps L r s) : Keeps L r (State.settle s) := by
  unfold State.settle
  refine keeps_forAll _ _ ?_ ?_
  · refine keeps_forAll _ _ h ?_
    intro y5 y6 b7 k4
    split
    · exact (keeps_landOn _ _ (Sub.trans (by decide) hL) k4)
    · exact k4
  · intro y1 y2 b3 k0
    exact (keeps_runTime _ (Sub.trans (by decide) hL) k0)

theorem keeps_aisleTime {L : List Part} {r s : State} (t : Nat)
    (hL : Sub [.eng, .engR, .legR, .leg, .attic, .happened, .now] L) (h : Keeps L r s) : Keeps L r (State.aisleTime s t) := by
  unfold State.aisleTime
  exact (keeps_settle (Sub.trans (by decide) hL) (keeps_atTime _ (Sub.trans (by decide) hL) h))

theorem keeps_execShadowWrite {L : List Part} {r s : State} (init : Fin 16) (l : Fin 48) (k : Fin 4) (value : Word)
    (hL : Sub [.sysR, .happened, .legR, .warranted, .leg, .attic, .eng, .engR] L) (h : Keeps L r s) : Runs L r (execShadowWrite init l k value s) := by
  unfold execShadowWrite
  exact (Runs.next (keeps_onCommand _ _ _ (Sub.trans (by decide) hL) h (fun y0 k1 => (keeps_shadowWrite _ _ _ (Sub.trans (by decide) hL) (off_shadowReg _) (keeps_settle (Sub.trans (by decide) hL) k1)))))

theorem keeps_execCommit {L : List Part} {r s : State} (init : Fin 16) (l : Fin 48)
    (hL : Sub [.sysR, .happened, .legR, .leg, .attic, .eng, .engR] L) (h : Keeps L r s) : Runs L r (execCommit init l s) := by
  unfold execCommit
  exact (Runs.next (keeps_onCommand _ _ _ (Sub.trans (by decide) hL) h (fun y0 k1 => (keeps_commit _ _ (Sub.trans (by decide) hL) (keeps_settle (Sub.trans (by decide) hL) k1)))))

theorem keeps_execGcommit {L : List Part} {r s : State} (init : Fin 16) (l : Fin 48) (mask : Word)
    (hL : Sub [.sysR, .happened, .legR, .leg, .attic, .eng, .engR] L) (h : Keeps L r s) : Runs L r (execGcommit init l mask s) := by
  unfold execGcommit
  exact (Runs.next (keeps_onCommand _ _ _ (Sub.trans (by decide) hL) h (fun y0 k1 => (keeps_groupCommit _ _ (Sub.trans (by decide) hL) (keeps_settle (Sub.trans (by decide) hL) k1)))))

theorem keeps_legCntClr {L : List Part} {r s : State} (l : Nat)
    (hL : Sub [.legR] L) (h : Keeps L r s) : Keeps L r (State.legCntClr s l) := by
  unfold State.legCntClr
  exact (keeps_clearCount _ _ (in_leg (hL _ (by decide)) (by decide)) (keeps_clearCount _ _ (in_leg (hL _ (by decide)) (by decide)) h))

theorem keeps_execLegCntClr {L : List Part} {r s : State} (init : Fin 16) (l : Fin 48)
    (hL : Sub [.sysR, .happened, .legR, .eng, .engR, .leg, .attic] L) (h : Keeps L r s) : Runs L r (execLegCntClr init l s) := by
  unfold execLegCntClr
  exact (Runs.next (keeps_onCommand _ _ _ (Sub.trans (by decide) hL) h (fun y0 k1 => (keeps_legCntClr _ (Sub.trans (by decide) hL) (keeps_settle (Sub.trans (by decide) hL) k1)))))

theorem keeps_legCmd {L : List Part} {r s : State} (l : Nat) (v : Nat)
    (hL : Sub [.legR, .leg, .attic, .happened] L) (h : Keeps L r s) : Keeps L r (State.legCmd s l v) := by
  unfold State.legCmd
  refine Keeps.ite h ?_
  extract_lets +onlyGivenNames -merge -useContext -underBinder x0
  have k1 : Keeps L r (x0) := (Keeps.ite (keeps_commit _ _ (Sub.trans (by decide) hL) h) h)
  try clear_value x0
  exact (Keeps.ite (keeps_legCntClr _ (Sub.trans (by decide) hL) k1) k1)

theorem keeps_compareEdge {L : List Part} {r s : State} (l : Nat) (v2 : Nat)
    (hL : Sub [.now, .legR, .engR, .leg, .attic, .happened, .eng] L) (h : Keeps L r s) : Keeps L r (State.compareEdge s l v2) := by
  induction v2 generalizing s with
  | zero => exact h
  | succ n ih =>
    rw [State.compareEdge]
    split
    · exact h
    · split
      · exact ih (keeps_landOn _ _ (Sub.trans (by decide) hL) (keeps_atTime _ (Sub.trans (by decide) hL) h))
      · exact keeps_modLeg _ _ (Sub.trans (by decide) hL) (keeps_setM _ _ _ (Sub.trans (by decide) hL) (keeps_atTime _ (Sub.trans (by decide) hL) h))

theorem keeps_execCompareEdge {L : List Part} {r s : State} (l : Fin 48)
    (hL : Sub [.now, .legR, .engR, .leg, .attic, .happened, .eng] L) (h : Keeps L r s) : Runs L r (execCompareEdge l s) := by
  unfold execCompareEdge
  exact (Runs.next (keeps_compareEdge _ _ (Sub.trans (by decide) hL) (keeps_settle (Sub.trans (by decide) hL) h)))

theorem keeps_execDeadTimeEnd {L : List Part} {r s : State} (l : Fin 48)
    (hL : Sub [.legR, .leg, .now] L) (h : Keeps L r s) : Runs L r (execDeadTimeEnd l s) := by
  unfold execDeadTimeEnd
  refine Runs.next ?_
  split
  · exact (keeps_drive _ _ (Sub.trans (by decide) hL) (keeps_modLeg _ _ (Sub.trans (by decide) hL) (keeps_atTime _ (Sub.trans (by decide) hL) h)))
  · exact h

theorem keeps_execGroupStateArrival {L : List Part} {r s : State} (q : Fin 16) (a : Fin 3)
    (hL : Sub [.aisle, .leg, .trpR, .legR] L) (h : Keeps L r s) : Runs L r (execGroupStateArrival q a s) := by
  unfold execGroupStateArrival
  exact (Runs.next (Keeps.ite (keeps_groupArrives _ _ _ (Sub.trans (by decide) hL) h) h))

end Sys2Proof.Laws
end

