-- ==== Sys2Proof/Laws/KeepTrip.lean ====
section
/-! SUPPORT. What the operations of Machine/Trip.lean may change, and what they keep (see Keeps.lean). -/

namespace Sys2Proof.Laws

open Sys2Proof Sys2Proof.Machine Sys2Proof.Safety

theorem keeps_setSrcAct {L : List Part} {r s : State} (i : Nat) (v : Bool)
    (hL : Sub [.trpR, .trip] L) (h : Keeps L r s) : Keeps L r (State.setSrcAct s i v) := by
  unfold State.setSrcAct
  extract_lets +onlyGivenNames -merge -useContext -underBinder x0
  have k1 : Keeps L r (x0) := (Keeps.ite (keeps_setBit _ _ _ _ (in_trp (hL _ (by decide)) (by decide)) h) (keeps_setBit _ _ _ _ (in_trp (hL _ (by decide)) (by decide)) h))
  try clear_value x0
  exact (Keeps.ite (Keeps.set_trip (hL _ (by decide)) k1) k1)

theorem keeps_setLatch {L : List Part} {r s : State} (q : Nat) (v : Bool)
    (hL : Sub [.trip] L) (h : Keeps L r s) : Keeps L r (State.setLatch s q v) := by
  unfold State.setLatch
  exact (Keeps.set_trip (hL _ (by decide)) h)

theorem keeps_refuseRelease {L : List Part} {r s : State} (q : Nat)
    (hL : Sub [.trpR, .trip, .knrR, .celR, .aisle, .crier, .cellar] L) (h : Keeps L r s) : Keeps L r (State.refuseRelease s q) := by
  unfold State.refuseRelease
  split
  · exact h
  · extract_lets +onlyGivenNames -merge -useContext -underBinder x0
    have k1 : Keeps L r (x0) := (keeps_setBit _ _ _ _ (in_trp (hL _ (by decide)) (by decide)) (keeps_setBit _ _ _ _ (in_trp (hL _ (by decide)) (by decide)) (keeps_setLatch _ _ (Sub.trans (by decide) hL) h)))
    try clear_value x0
    extract_lets +onlyGivenNames -merge -useContext -underBinder x2 x3
    have k4 : Keeps L r (x3) := (Keeps.set_trip (hL _ (by decide)) k1)
    try clear_value x3
    extract_lets +onlyGivenNames -merge -useContext -underBinder x5
    have k6 : Keeps L r (x5) := (Keeps.ite (keeps_setB _ _ _ (in_knr (hL _ (by decide)) (by decide)) k4) k4)
    try clear_value x5
    split
    · exact (Keeps.ite (keeps_takeBackArm _ _ _ (Sub.trans (by decide) hL) k6) k6)
    · exact k6

theorem keeps_groupUpdate {L : List Part} {r s : State} (q : Nat)
    (hL : Sub [.trpR, .trip, .knrR, .celR, .aisle, .crier, .cellar, .ring, .attic, .atcR, .mem, .happened] L) (h : Keeps L r s) : Keeps L r (State.groupUpdate s q) := by
  unfold State.groupUpdate
  extract_lets +onlyGivenNames -merge -useContext -underBinder x0
  try clear_value x0
  extract_lets +onlyGivenNames -merge -useContext -underBinder x1
  try clear_value x1
  extract_lets +onlyGivenNames -merge -useContext -underBinder x2
  have k3 : Keeps L r (x2) := (Keeps.ite (keeps_refuseRelease _ (Sub.trans (by decide) hL) h) h)
  try clear_value x2
  extract_lets +onlyGivenNames -merge -useContext -underBinder x4
  have k5 : Keeps L r (x4) := (Keeps.ite (keeps_setLatch _ _ (Sub.trans (by decide) hL) k3) k3)
  try clear_value x4
  extract_lets +onlyGivenNames -merge -useContext -underBinder x6
  try clear_value x6
  extract_lets +onlyGivenNames -merge -useContext -underBinder x7
  try clear_value x7
  extract_lets +onlyGivenNames -merge -useContext -underBinder x8
  have k9 : Keeps L r (x8) := (keeps_setBit _ _ _ _ (in_trp (hL _ (by decide)) (by decide)) k5)
  try clear_value x8
  extract_lets +onlyGivenNames -merge -useContext -underBinder x10
  have k11 : Keeps L r (x10) := (Keeps.ite (keeps_setBit _ _ _ _ (in_trp (hL _ (by decide)) (by decide)) k9) k9)
  try clear_value x10
  refine Keeps.ite ?_ k11
  extract_lets +onlyGivenNames -merge -useContext -underBinder x12 x13
  have k14 : Keeps L r (x13) := (Keeps.set_trip (hL _ (by decide)) k11)
  try clear_value x13
  extract_lets +onlyGivenNames -merge -useContext -underBinder x15
  have k16 : Keeps L r (x15) := by
    unfold x15
    split
    · exact (keeps_setF _ _ _ (in_trp (hL _ (by decide)) (off_at (n := 16776512) (by omega) (by decide))) k14)
    · exact k14
  try clear_value x15
  exact (keeps_groupTrigger _ (Sub.trans (by decide) hL) (keeps_countSat _ _ _ (hL _ (by decide)) (in_trp (hL _ (by decide)) (off_at (n := 16776512) (by omega) (by decide))) (keeps_setB _ _ _ (in_trp (hL _ (by decide)) (off_at (n := 16776512) (by omega) (by decide))) k16)))

theorem keeps_tripUpdate {L : List Part} {r s : State} 
    (hL : Sub [.trpR, .trip, .knrR, .celR, .aisle, .crier, .cellar, .ring, .attic, .atcR, .mem, .happened, .stlR, .wdtR] L) (h : Keeps L r s) : Keeps L r (State.tripUpdate s) := by
  unfold State.tripUpdate
  extract_lets +onlyGivenNames -merge -useContext -underBinder x0
  have k1 : Keeps L r (x0) := (keeps_forAll _ _ h fun y3 y4 b5 k2 => (keeps_groupUpdate _ (Sub.trans (by decide) hL) k2))
  try clear_value x0
  extract_lets +onlyGivenNames -merge -useContext -underBinder x6
  try clear_value x6
  extract_lets +onlyGivenNames -merge -useContext -underBinder x7
  try clear_value x7
  extract_lets +onlyGivenNames -merge -useContext -underBinder x8
  have k9 : Keeps L r (x8) := (keeps_setB _ _ _ (in_trp (hL _ (by decide)) (by decide)) (keeps_setB _ _ _ (in_trp (hL _ (by decide)) (by decide)) k1))
  try clear_value x8
  exact (keeps_marketAssert (Sub.trans (by decide) hL) (keeps_followLatch (Sub.trans (by decide) hL) k9))

theorem keeps_srcSync {L : List Part} {r s : State} (i : Nat)
    (hL : Sub [.trpR, .trip, .knrR, .celR, .aisle, .crier, .cellar, .ring, .attic, .atcR, .mem, .happened, .stlR, .wdtR] L) (h : Keeps L r s) : Keeps L r (State.srcSync s i) := by
  unfold State.srcSync
  extract_lets +onlyGivenNames -merge -useContext -underBinder x0
  try clear_value x0
  exact (Keeps.ite h (keeps_tripUpdate (Sub.trans (by decide) hL) (keeps_setSrcAct _ _ (Sub.trans (by decide) hL) h)))

theorem keeps_srcFall {L : List Part} {r s : State} (i : Nat)
    (hL : Sub [.trpR, .trip, .knrR, .celR, .aisle, .crier, .cellar, .ring, .attic, .atcR, .mem, .happened, .stlR, .wdtR] L) (h : Keeps L r s) : Keeps L r (State.srcFall s i) := by
  unfold State.srcFall
  exact (Keeps.ite h (keeps_srcSync _ (Sub.trans (by decide) hL) h))

theorem keeps_release {L : List Part} {r s : State} (q : Nat)
    (hL : Sub [.trpR, .trip] L) (h : Keeps L r s) : Keeps L r (State.release s q) := by
  unfold State.release
  refine Keeps.ite h ?_
  extract_lets +onlyGivenNames -merge -useContext -underBinder x0
  try clear_value x0
  refine Keeps.ite (keeps_setBit _ _ _ _ (in_trp (hL _ (by decide)) (by decide)) h) ?_
  extract_lets +onlyGivenNames -merge -useContext -underBinder x1
  try clear_value x1
  extract_lets +onlyGivenNames -merge -useContext -underBinder x2
  try clear_value x2
  extract_lets +onlyGivenNames -merge -useContext -underBinder x3
  have k4 : Keeps L r (x3) := (keeps_setLatch _ _ (Sub.trans (by decide) hL) h)
  try clear_value x3
  exact (keeps_setBit _ _ _ _ (in_trp (hL _ (by decide)) (by decide)) (Keeps.set_trip (hL _ (by decide)) k4))

theorem keeps_tripRelease {L : List Part} {r s : State} (mask : Nat)
    (hL : Sub [.trpR, .trip, .knrR, .celR, .aisle, .crier, .cellar, .ring, .attic, .atcR, .mem, .happened, .stlR, .wdtR] L) (h : Keeps L r s) : Keeps L r (State.tripRelease s mask) := by
  unfold State.tripRelease
  extract_lets +onlyGivenNames -merge -useContext -underBinder x0
  have k1 : Keeps L r (x0) := (keeps_tripUpdate (Sub.trans (by decide) hL) (keeps_forAll _ _ h fun y3 y4 b5 k2 => (Keeps.ite (keeps_release _ (Sub.trans (by decide) hL) k2) k2)))
  try clear_value x0
  exact (Keeps.ite (Keeps.set_trip (hL _ (by decide)) k1) k1)

theorem keeps_tripCntClr {L : List Part} {r s : State} 
    (hL : Sub [.trpR] L) (h : Keeps L r s) : Keeps L r (State.tripCntClr s) := by
  unfold State.tripCntClr
  exact (keeps_forAll _ _ h fun y1 y2 b3 k0 => (keeps_setF _ _ _ (in_trp (hL _ (by decide)) (off_at (n := 16776512) (by omega) (by decide))) k0))

theorem keeps_trpCmd {L : List Part} {r s : State} (v : Nat)
    (hL : Sub [.trpR, .trip, .knrR, .celR, .aisle, .crier, .cellar, .ring, .attic, .atcR, .mem, .happened, .stlR, .wdtR] L) (h : Keeps L r s) : Keeps L r (State.trpCmd s v) := by
  unfold State.trpCmd
  refine Keeps.ite h ?_
  extract_lets +onlyGivenNames -merge -useContext -underBinder x0
  have k1 : Keeps L r (x0) := (Keeps.ite h (keeps_tripRelease _ (Sub.trans (by decide) hL) h))
  try clear_value x0
  exact (Keeps.ite (keeps_tripCntClr (Sub.trans (by decide) hL) k1) k1)

theorem keeps_swTrip {L : List Part} {r s : State} (value : Nat)
    (hL : Sub [.trpR, .trip, .knrR, .celR, .aisle, .crier, .cellar, .ring, .attic, .atcR, .mem, .happened, .stlR, .wdtR, .warranted] L) (h : Keeps L r s) : Keeps L r (State.swTrip s value) := by
  unfold State.swTrip
  extract_lets +onlyGivenNames -merge -useContext -underBinder x0
  try clear_value x0
  exact (keeps_srcSync _ (Sub.trans (by decide) hL) (keeps_setF _ _ _ (in_trp (hL _ (by decide)) (by decide)) (keeps_must _ (Sub.trans (by decide) hL) h)))

theorem keeps_marketIn {L : List Part} {r s : State} (v : Bool)
    (hL : Sub [.knrR, .trpR, .trip, .celR, .aisle, .crier, .cellar, .ring, .attic, .atcR, .mem, .happened, .stlR, .wdtR] L) (h : Keeps L r s) : Keeps L r (State.marketIn s v) := by
  unfold State.marketIn
  extract_lets +onlyGivenNames -merge -useContext -underBinder x0
  try clear_value x0
  extract_lets +onlyGivenNames -merge -useContext -underBinder x1
  have k2 : Keeps L r (x1) := (keeps_setB _ _ _ (in_knr (hL _ (by decide)) (by decide)) (keeps_setB _ _ _ (in_trp (hL _ (by decide)) (by decide)) h))
  try clear_value x1
  extract_lets +onlyGivenNames -merge -useContext -underBinder x3
  have k4 : Keeps L r (x3) := (keeps_srcSync _ (Sub.trans (by decide) hL) (keeps_condUpdate _ (Sub.trans (by decide) hL) k2))
  try clear_value x3
  exact (Keeps.ite (keeps_trigger _ _ _ (Sub.trans (by decide) hL) k4) k4)

theorem keeps_execTripinEdge {L : List Part} {r s : State} (i : Fin 8) (x : BallLevel)
    (hL : Sub [.trpR, .trip, .knrR, .celR, .aisle, .crier, .cellar, .ring, .attic, .atcR, .mem, .happened, .stlR, .wdtR] L) (h : Keeps L r s) : Runs L r (execTripinEdge i x s) := by
  unfold execTripinEdge
  exact (Runs.next (Keeps.ite (keeps_srcFall _ (Sub.trans (by decide) hL) (Keeps.set_trip (hL _ (by decide)) h)) h))

theorem keeps_execTripSourceActive {L : List Part} {r s : State} (i : Fin 46)
    (hL : Sub [.trpR, .trip, .knrR, .celR, .aisle, .crier, .cellar, .ring, .attic, .atcR, .mem, .happened, .stlR, .wdtR] L) (h : Keeps L r s) : Runs L r (execTripSourceActive i s) := by
  unfold execTripSourceActive
  exact (Runs.next (keeps_srcSync _ (Sub.trans (by decide) hL) h))

theorem keeps_execTrpRelease {L : List Part} {r s : State} (init : Fin 16) (mask : BitVec 16)
    (hL : Sub [.sysR, .happened, .trpR, .trip, .knrR, .celR, .aisle, .crier, .cellar, .ring, .attic, .atcR, .mem, .stlR, .wdtR] L) (h : Keeps L r s) : Runs L r (execTrpRelease init mask s) := by
  unfold execTrpRelease
  exact (Runs.next (keeps_onCommand _ _ _ (Sub.trans (by decide) hL) h (fun y0 k1 => (keeps_tripRelease _ (Sub.trans (by decide) hL) k1))))

theorem keeps_execTrpCntClr {L : List Part} {r s : State} (init : Fin 16)
    (hL : Sub [.sysR, .happened, .trpR] L) (h : Keeps L r s) : Runs L r (execTrpCntClr init s) := by
  unfold execTrpCntClr
  exact (Runs.next (keeps_onCommand _ _ _ (Sub.trans (by decide) hL) h (fun y0 k1 => (keeps_tripCntClr (Sub.trans (by decide) hL) k1))))

theorem keeps_execSwtrip {L : List Part} {r s : State} (init : Fin 16) (value : Word)
    (hL : Sub [.sysR, .happened, .trpR, .trip, .knrR, .celR, .aisle, .crier, .cellar, .ring, .attic, .atcR, .mem, .stlR, .wdtR, .warranted] L) (h : Keeps L r s) : Runs L r (execSwtrip init value s) := by
  unfold execSwtrip
  exact (Runs.next (keeps_onCommand _ _ _ (Sub.trans (by decide) hL) h (fun y0 k1 => (keeps_swTrip _ (Sub.trans (by decide) hL) k1))))

end Sys2Proof.Laws
end

