-- ==== Sys2Proof/Laws/KeepComparator.lean ====
section
/-! SUPPORT. What the operations of Machine/Comparator.lean may change, and what they keep (see Keeps.lean). -/

namespace Sys2Proof.Laws

open Sys2Proof Sys2Proof.Machine Sys2Proof.Safety

theorem keeps_cmpOffer {L : List Part} {r s : State} (c : Nat)
    (hL : Sub [.attic, .cmp] L) (h : Keeps L r s) : Keeps L r (State.cmpOffer s c) := by
  unfold State.cmpOffer
  extract_lets +onlyGivenNames -merge -useContext -underBinder x0
  extract_lets +onlyGivenNames -merge -useContext -underBinder x1
  try clear_value x1
  extract_lets +onlyGivenNames -merge -useContext -underBinder x2
  try clear_value x2
  exact (Keeps.ite h (keeps_offer _ _ (Sub.trans (by decide) hL) (keeps_modCmp _ _ (Sub.trans (by decide) hL) h)))

theorem keeps_cmpUpdate {L : List Part} {r s : State} (c : Nat)
    (hL : Sub [.cmpR, .happened, .cmp, .trpR, .trip, .knrR, .celR, .aisle, .crier, .cellar, .ring, .attic, .atcR, .mem, .stlR, .wdtR] L) (h : Keeps L r s) : Keeps L r (State.cmpUpdate s c) := by
  unfold State.cmpUpdate
  extract_lets +onlyGivenNames -merge -useContext -underBinder x0
  extract_lets +onlyGivenNames -merge -useContext -underBinder x1
  try clear_value x1
  extract_lets +onlyGivenNames -merge -useContext -underBinder x2
  try clear_value x2
  extract_lets +onlyGivenNames -merge -useContext -underBinder x3
  try clear_value x3
  extract_lets +onlyGivenNames -merge -useContext -underBinder x4
  try clear_value x4
  extract_lets +onlyGivenNames -merge -useContext -underBinder x5
  try clear_value x5
  extract_lets +onlyGivenNames -merge -useContext -underBinder x6
  have k7 : Keeps L r (x6) := (keeps_setB _ _ _ (in_cmp (hL _ (by decide)) (by decide)) h)
  try clear_value x6
  extract_lets +onlyGivenNames -merge -useContext -underBinder x8
  have k9 : Keeps L r (x8) := (Keeps.ite (keeps_countSat _ _ _ (hL _ (by decide)) (in_cmp (hL _ (by decide)) (by decide)) k7) k7)
  try clear_value x8
  extract_lets +onlyGivenNames -merge -useContext -underBinder x10
  have k11 : Keeps L r (x10) := (Keeps.ite (keeps_modCmp _ _ (Sub.trans (by decide) hL) k9) k9)
  try clear_value x10
  extract_lets +onlyGivenNames -merge -useContext -underBinder x12
  have k13 : Keeps L r (x12) := (Keeps.ite k11 (keeps_setB _ _ _ (in_cmp (hL _ (by decide)) (by decide)) k11))
  try clear_value x12
  extract_lets +onlyGivenNames -merge -useContext -underBinder x14
  try clear_value x14
  extract_lets +onlyGivenNames -merge -useContext -underBinder x15
  have k16 : Keeps L r (x15) := (Keeps.ite (keeps_setB _ _ _ (in_cmp (hL _ (by decide)) (by decide)) k13) k13)
  try clear_value x15
  extract_lets +onlyGivenNames -merge -useContext -underBinder x17
  have k18 : Keeps L r (x17) := (Keeps.ite (keeps_setB _ _ _ (in_cmp (hL _ (by decide)) (by decide)) k16) k16)
  try clear_value x17
  exact (keeps_srcFall _ (Sub.trans (by decide) hL) (keeps_cmpOffer _ (Sub.trans (by decide) hL) k18))

theorem keeps_setDetectors {L : List Part} {r s : State} (c : Nat) (v2 : Bool) (l : Bool)
    (hL : Sub [.cmpR, .happened, .cmp, .trpR, .trip, .knrR, .celR, .aisle, .crier, .cellar, .ring, .attic, .atcR, .mem, .stlR, .wdtR] L) (h : Keeps L r s) : Keeps L r (State.setDetectors s c v2 l) := by
  unfold State.setDetectors
  extract_lets +onlyGivenNames -merge -useContext -underBinder x0 x1 x2
  have k3 : ∀ (y5 : State) (y6 : Fld) (y7 : Bool), y6.off < 0x100 → Keeps L r y5 → Keeps L r (x2 y5 y6 y7) := by
    intro y5 y6 y7 hf k4
    unfold x2
    exact Keeps.ite (keeps_latch _ _ (hL _ (by decide)) (in_cmp (hL _ (by decide)) hf) k4) k4
  clear_value x2
  extract_lets +onlyGivenNames -merge -useContext -underBinder x8
  have k9 : Keeps L r (x8) := (Keeps.ite h (k3 _ _ _ (by decide) (k3 _ _ _ (by decide) (k3 _ _ _ (by decide) (k3 _ _ _ (by decide) h)))))
  clear_value x8
  extract_lets +onlyGivenNames -merge -useContext -underBinder x10
  have k11 : Keeps L r (x10) := (keeps_modCmp _ _ (Sub.trans (by decide) hL) k9)
  clear_value x10
  exact (keeps_cmpUpdate _ (Sub.trans (by decide) hL) (keeps_setF _ _ _ (in_cmp (hL _ (by decide)) (by decide)) k11))

theorem keeps_notValid {L : List Part} {r s : State} (c : Nat)
    (hL : Sub [.cmpR, .happened, .cmp, .trpR, .trip, .knrR, .celR, .aisle, .crier, .cellar, .ring, .attic, .atcR, .mem, .stlR, .wdtR] L) (h : Keeps L r s) : Keeps L r (State.notValid s c) := by
  unfold State.notValid
  exact (keeps_cmpUpdate _ (Sub.trans (by decide) hL) (keeps_setF _ _ _ (in_cmp (hL _ (by decide)) (by decide)) (keeps_modCmp _ _ (Sub.trans (by decide) hL) h)))

theorem keeps_threshold {L : List Part} {r s : State} (c : Nat) (hi : Bool) (t : Nat)
    (hL : Sub [.free] L) (h : Keeps L r s) : Keeps2 L r (State.threshold s c hi t) := by
  unfold State.threshold
  extract_lets +onlyGivenNames -merge -useContext -underBinder x0
  try clear_value x0
  extract_lets +onlyGivenNames -merge -useContext -underBinder x1
  try clear_value x1
  extract_lets +onlyGivenNames -merge -useContext -underBinder x2
  try clear_value x2
  extract_lets +onlyGivenNames -merge -useContext -underBinder x3
  try clear_value x3
  extract_lets +onlyGivenNames -merge -useContext -underBinder x4
  try clear_value x4
  exact (Keeps2.mk (Keeps.ite h (Keeps2.out (keeps_takeFree (Sub.trans (by decide) hL) h))))

theorem keeps_cmpDecide {L : List Part} {r s : State} (c : Nat) (v : BallVolts) (fresh : Bool)
    (hL : Sub [.cmpR, .happened, .cmp, .trpR, .trip, .knrR, .celR, .aisle, .crier, .cellar, .ring, .attic, .atcR, .mem, .stlR, .wdtR, .free] L) (h : Keeps L r s) : Keeps L r (State.cmpDecide s c v fresh) := by
  unfold State.cmpDecide
  split
  · split
    · extract_lets +onlyGivenNames -merge -useContext -underBinder x0
      try clear_value x0
      extract_lets +onlyGivenNames -merge -useContext -underBinder x1
      try clear_value x1
      extract_lets +onlyGivenNames -merge -useContext -underBinder x2
      try clear_value x2
      exact (keeps_setDetectors _ _ _ (Sub.trans (by decide) hL) (Keeps.of_snd (by with_reducible assumption) (keeps_threshold _ _ _ (Sub.trans (by decide) hL) (Keeps.of_snd (by with_reducible assumption) (keeps_threshold _ _ _ (Sub.trans (by decide) hL) h)))))

theorem keeps_cmpEnable {L : List Part} {r s : State} (c : Nat)
    (hL : Sub [.cmp, .cmpR, .happened, .trpR, .trip, .knrR, .celR, .aisle, .crier, .cellar, .ring, .attic, .atcR, .mem, .stlR, .wdtR] L) (h : Keeps L r s) : Keeps L r (State.cmpEnable s c) := by
  unfold State.cmpEnable
  extract_lets +onlyGivenNames -merge -useContext -underBinder x0
  extract_lets +onlyGivenNames -merge -useContext -underBinder x1
  have k2 : Keeps L r (x1) := (keeps_modCmp _ _ (Sub.trans (by decide) hL) h)
  try clear_value x1
  exact (keeps_notValid _ (Sub.trans (by decide) hL) (keeps_setB _ _ _ (in_cmp (hL _ (by decide)) (by decide)) k2))

theorem keeps_cmpDisable {L : List Part} {r s : State} (c : Nat)
    (hL : Sub [.cmpR, .happened, .cmp, .trpR, .trip, .knrR, .celR, .aisle, .crier, .cellar, .ring, .attic, .atcR, .mem, .stlR, .wdtR] L) (h : Keeps L r s) : Keeps L r (State.cmpDisable s c) := by
  unfold State.cmpDisable
  exact (keeps_notValid _ (Sub.trans (by decide) hL) (keeps_setB _ _ _ (in_cmp (hL _ (by decide)) (by decide)) (keeps_modCmp _ _ (Sub.trans (by decide) hL) h)))

theorem keeps_cmpRelease {L : List Part} {r s : State} (c : Nat)
    (hL : Sub [.trpR, .trip, .knrR, .celR, .aisle, .crier, .cellar, .ring, .attic, .atcR, .mem, .happened, .stlR, .wdtR, .cmp, .cmpR] L) (h : Keeps L r s) : Keeps L r (State.cmpRelease s c) := by
  unfold State.cmpRelease
  extract_lets +onlyGivenNames -merge -useContext -underBinder x0
  exact (Keeps.ite h (Keeps.ite (keeps_srcFall _ (Sub.trans (by decide) hL) (keeps_cmpOffer _ (Sub.trans (by decide) hL) (keeps_modCmp _ _ (Sub.trans (by decide) hL) (keeps_setB _ _ _ (in_cmp (hL _ (by decide)) (by decide)) (keeps_setB _ _ _ (in_cmp (hL _ (by decide)) (by decide)) h))))) (keeps_setB _ _ _ (in_cmp (hL _ (by decide)) (by decide)) h)))

theorem keeps_cmpCycleRelease {L : List Part} {r s : State} (c : Nat)
    (hL : Sub [.trpR, .trip, .knrR, .celR, .aisle, .crier, .cellar, .ring, .attic, .atcR, .mem, .happened, .stlR, .wdtR, .cmp, .cmpR] L) (h : Keeps L r s) : Keeps L r (State.cmpCycleRelease s c) := by
  unfold State.cmpCycleRelease
  extract_lets +onlyGivenNames -merge -useContext -underBinder x0
  exact (Keeps.ite (keeps_srcFall _ (Sub.trans (by decide) hL) (keeps_cmpOffer _ (Sub.trans (by decide) hL) (keeps_setB _ _ _ (in_cmp (hL _ (by decide)) (by decide)) h))) h)

theorem keeps_cmpMode {L : List Part} {r s : State} (c : Nat) (latch : Bool)
    (hL : Sub [.cmpR, .happened, .cmp, .trpR, .trip, .knrR, .celR, .aisle, .crier, .cellar, .ring, .attic, .atcR, .mem, .stlR, .wdtR] L) (h : Keeps L r s) : Keeps L r (State.cmpMode s c latch) := by
  unfold State.cmpMode
  exact (keeps_cmpUpdate _ (Sub.trans (by decide) hL) (keeps_setB _ _ _ (in_cmp (hL _ (by decide)) (by decide)) h))

theorem keeps_blankingChanged {L : List Part} {r s : State} (a : Nat) (ch : Nat)
    (hL : Sub [.cmpR, .happened, .cmp, .trpR, .trip, .knrR, .celR, .aisle, .crier, .cellar, .ring, .attic, .atcR, .mem, .stlR, .wdtR] L) (h : Keeps L r s) : Keeps L r (State.blankingChanged s a ch) := by
  unfold State.blankingChanged
  extract_lets +onlyGivenNames -merge -useContext -underBinder x0
  have k1 : Keeps L r (x0) := by
    unfold x0
    refine keeps_forAll _ _ h ?_
    intro y3 y4 b5 k2
    extract_lets +onlyGivenNames -merge -useContext -underBinder x6
    try clear_value x6
    exact (Keeps.ite (keeps_cmpUpdate _ (Sub.trans (by decide) hL) k2) k2)
  try clear_value x0
  extract_lets +onlyGivenNames -merge -useContext -underBinder x7
  have k8 : Keeps L r (x7) := (keeps_forAll _ _ k1 fun y10 y11 b12 k9 => (Keeps.ite (keeps_srcFall _ (Sub.trans (by decide) hL) k9) k9))
  try clear_value x7
  exact (keeps_forAll _ _ k8 fun y14 y15 b16 k13 => (keeps_srcFall _ (Sub.trans (by decide) hL) k13))

theorem keeps_blkClose {L : List Part} {r s : State} (a : Nat) (ch : Nat)
    (hL : Sub [.cmpR, .happened, .cmp, .trpR, .trip, .knrR, .celR, .aisle, .crier, .cellar, .ring, .attic, .atcR, .mem, .stlR, .wdtR, .aisR] L) (h : Keeps L r s) : Keeps L r (State.blkClose s a ch) := by
  unfold State.blkClose
  exact (keeps_blankingChanged _ _ (Sub.trans (by decide) hL) (keeps_setB _ _ _ (in_ais (hL _ (by decide)) (off_at (n := 3836) (by omega) (by decide))) h))

theorem keeps_blankEvent {L : List Part} {r s : State} (a : Nat) (i : Nat) (ev : Nat) (ch : Nat)
    (hL : Sub [.aisle, .cmpR, .happened, .cmp, .trpR, .trip, .knrR, .celR, .crier, .cellar, .ring, .attic, .atcR, .mem, .stlR, .wdtR, .aisR] L) (h : Keeps L r s) : Keeps L r (State.blankEvent s a i ev ch) := by
  unfold State.blankEvent
  extract_lets +onlyGivenNames -merge -useContext -underBinder x0
  extract_lets +onlyGivenNames -merge -useContext -underBinder x1
  try clear_value x1
  extract_lets +onlyGivenNames -merge -useContext -underBinder x2
  try clear_value x2
  extract_lets +onlyGivenNames -merge -useContext -underBinder x3
  try clear_value x3
  extract_lets +onlyGivenNames -merge -useContext -underBinder x4
  have k5 : Keeps L r (x4) := (Keeps.ite (keeps_modAisle _ _ (Sub.trans (by decide) hL) h) h)
  try clear_value x4
  refine Keeps.ite (Keeps.ite (keeps_blkClose _ _ (Sub.trans (by decide) hL) k5) k5) ?_
  refine Keeps.ite ?_ k5
  extract_lets +onlyGivenNames -merge -useContext -underBinder x6
  have k7 : Keeps L r (x6) := (keeps_modAisle _ _ (Sub.trans (by decide) hL) k5)
  try clear_value x6
  exact (keeps_blankingChanged _ _ (Sub.trans (by decide) hL) (keeps_setB _ _ _ (in_ais (hL _ (by decide)) (off_at (n := 3836) (by omega) (by decide))) k7))

theorem keeps_blankDisable {L : List Part} {r s : State} (a : Nat)
    (hL : Sub [.cmpR, .happened, .cmp, .trpR, .trip, .knrR, .celR, .aisle, .crier, .cellar, .ring, .attic, .atcR, .mem, .stlR, .wdtR, .aisR] L) (h : Keeps L r s) : Keeps L r (State.blankDisable s a) := by
  unfold State.blankDisable
  exact (keeps_forAll _ _ h fun y1 y2 b3 k0 => (Keeps.ite (keeps_blkClose _ _ (Sub.trans (by decide) hL) k0) k0))

theorem keeps_cmpTick {L : List Part} {r s : State} (c : Nat)
    (hL : Sub [.cmpR, .happened, .cmp] L) (h : Keeps L r s) : Keeps L r (State.cmpTick s c) := by
  unfold State.cmpTick
  exact (Keeps.ite (keeps_countSat _ _ _ (hL _ (by decide)) (in_cmp (hL _ (by decide)) (by decide)) h) (keeps_modCmp _ _ (Sub.trans (by decide) hL) h))

theorem keeps_eventTicks {L : List Part} {r s : State} (a : Nat) (i : Nat) (ev : Nat)
    (hL : Sub [.cmpR, .happened, .cmp] L) (h : Keeps L r s) : Keeps L r (State.eventTicks s a i ev) := by
  unfold State.eventTicks
  refine keeps_forAll _ _ h ?_
  intro y1 y2 b3 k0
  extract_lets +onlyGivenNames -merge -useContext -underBinder x4
  try clear_value x4
  exact (Keeps.ite (keeps_cmpTick _ (Sub.trans (by decide) hL) k0) k0)

theorem keeps_execComparatorOutputChange {L : List Part} {r s : State} (c : Fin 24) (x : OutputChange)
    (hL : Sub [.cmpR, .happened, .cmp, .trpR, .trip, .knrR, .celR, .aisle, .crier, .cellar, .ring, .attic, .atcR, .mem, .stlR, .wdtR, .free] L) (h : Keeps L r s) : Runs L r (execComparatorOutputChange c x s) := by
  unfold execComparatorOutputChange
  extract_lets +onlyGivenNames -merge -useContext -underBinder x0
  exact (Runs.next (Keeps.ite (keeps_cmpDecide _ _ _ (Sub.trans (by decide) hL) h) h))

theorem keeps_execSettlingEnd {L : List Part} {r s : State} (c : Fin 24) (v : BallVolts)
    (hL : Sub [.cmpR, .happened, .cmp, .trpR, .trip, .knrR, .celR, .aisle, .crier, .cellar, .ring, .attic, .atcR, .mem, .stlR, .wdtR, .free, .now] L) (h : Keeps L r s) : Runs L r (execSettlingEnd c v s) := by
  unfold execSettlingEnd
  exact (Runs.next (Keeps.ite (keeps_cmpDecide _ _ _ (Sub.trans (by decide) hL) (keeps_setB _ _ _ (in_cmp (hL _ (by decide)) (by decide)) (keeps_atTime _ (Sub.trans (by decide) hL) h))) h))

theorem keeps_execTick {L : List Part} {r s : State} (c : Fin 24)
    (hL : Sub [.cmpR, .happened, .cmp, .now] L) (h : Keeps L r s) : Runs L r (execTick c s) := by
  unfold execTick
  refine Runs.next ?_
  split
  · exact (Keeps.ite (keeps_cmpTick _ (Sub.trans (by decide) hL) (keeps_modCmp _ _ (Sub.trans (by decide) hL) (keeps_atTime _ (Sub.trans (by decide) hL) h))) h)
  · exact h

theorem keeps_execSampledDecision {L : List Part} {r s : State} (c : Fin 24) (v : BallVolts)
    (hL : Sub [.cmpR, .happened, .cmp, .trpR, .trip, .knrR, .celR, .aisle, .crier, .cellar, .ring, .attic, .atcR, .mem, .stlR, .wdtR, .free, .now] L) (h : Keeps L r s) : Runs L r (execSampledDecision c v s) := by
  unfold execSampledDecision
  refine Runs.next ?_
  split
  · exact h
  · exact (keeps_cmpDecide _ _ _ (Sub.trans (by decide) hL) (keeps_modCmp _ _ (Sub.trans (by decide) hL) (keeps_atTime _ (Sub.trans (by decide) hL) h)))

theorem keeps_execCmpRelease {L : List Part} {r s : State} (init : Fin 16) (c : Fin 24)
    (hL : Sub [.sysR, .happened, .trpR, .trip, .knrR, .celR, .aisle, .crier, .cellar, .ring, .attic, .atcR, .mem, .stlR, .wdtR, .cmp, .cmpR] L) (h : Keeps L r s) : Runs L r (execCmpRelease init c s) := by
  unfold execCmpRelease
  exact (Runs.next (keeps_onCommand _ _ _ (Sub.trans (by decide) hL) h (fun y0 k1 => (keeps_cmpRelease _ (Sub.trans (by decide) hL) k1))))

theorem keeps_flagRelease {L : List Part} {r s : State} (c : Nat) (mask : Nat)
    (hL : Sub [.cmpR] L) (h : Keeps L r s) : Keeps L r (State.flagRelease s c mask) := by
  unfold State.flagRelease
  extract_lets +onlyGivenNames -merge -useContext -underBinder x0
  have k1 : ∀ (u : State) (i : Nat) (f : Fld), f.off < 0x100 → Keeps L r u → Keeps L r (x0 u i f) := by
    intro u i f hf k2
    unfold x0
    exact Keeps.ite (keeps_unlatch _ _ (in_cmp (hL _ (by decide)) hf) k2) k2
  clear_value x0
  exact k1 _ _ _ (by decide) (k1 _ _ _ (by decide) (k1 _ _ _ (by decide) (k1 _ _ _ (by decide) h)))

theorem keeps_execFlagRel {L : List Part} {r s : State} (init : Fin 16) (c : Fin 24) (flags : BitVec 4)
    (hL : Sub [.sysR, .happened, .cmpR] L) (h : Keeps L r s) : Runs L r (execFlagRel init c flags s) := by
  unfold execFlagRel
  exact (Runs.next (keeps_onCommand _ _ _ (Sub.trans (by decide) hL) h (fun y0 k1 => (keeps_flagRelease _ _ (Sub.trans (by decide) hL) k1))))

theorem keeps_cmpCntClr {L : List Part} {r s : State} (c : Nat)
    (hL : Sub [.cmpR] L) (h : Keeps L r s) : Keeps L r (State.cmpCntClr s c) := by
  unfold State.cmpCntClr
  exact (keeps_clearCount _ _ (in_cmp (hL _ (by decide)) (by decide)) (keeps_clearCount _ _ (in_cmp (hL _ (by decide)) (by decide)) h))

theorem keeps_execCmpCntClr {L : List Part} {r s : State} (init : Fin 16) (c : Fin 24)
    (hL : Sub [.sysR, .happened, .cmpR] L) (h : Keeps L r s) : Runs L r (execCmpCntClr init c s) := by
  unfold execCmpCntClr
  exact (Runs.next (keeps_onCommand _ _ _ (Sub.trans (by decide) hL) h (fun y0 k1 => (keeps_cmpCntClr _ (Sub.trans (by decide) hL) k1))))

theorem keeps_cmpCmd {L : List Part} {r s : State} (c : Nat) (v : Nat)
    (hL : Sub [.trpR, .trip, .knrR, .celR, .aisle, .crier, .cellar, .ring, .attic, .atcR, .mem, .happened, .stlR, .wdtR, .cmp, .cmpR] L) (h : Keeps L r s) : Keeps L r (State.cmpCmd s c v) := by
  unfold State.cmpCmd
  refine Keeps.ite h ?_
  extract_lets +onlyGivenNames -merge -useContext -underBinder x0
  have k1 : Keeps L r (x0) := (Keeps.ite (keeps_cmpRelease _ (Sub.trans (by decide) hL) h) h)
  try clear_value x0
  extract_lets +onlyGivenNames -merge -useContext -underBinder x2
  have k3 : Keeps L r (x2) := (keeps_flagRelease _ _ (Sub.trans (by decide) hL) k1)
  try clear_value x2
  exact (Keeps.ite (keeps_cmpCntClr _ (Sub.trans (by decide) hL) k3) k3)

theorem keeps_execArmingStateArrival {L : List Part} {r s : State} (a : Fin 3)
    (hL : Sub [.aisle, .cmpR, .happened, .cmp, .trpR, .trip, .knrR, .celR, .crier, .cellar, .ring, .attic, .atcR, .mem, .stlR, .wdtR, .legR, .leg] L) (h : Keeps L r s) : Runs L r (execArmingStateArrival a s) := by
  unfold execArmingStateArrival
  refine Runs.next ?_
  split
  · exact h
  · extract_lets +onlyGivenNames -merge -useContext -underBinder x0
    have k1 : Keeps L r (x0) := (keeps_modAisle _ _ (Sub.trans (by decide) hL) h)
    try clear_value x0
    refine Keeps.ite k1 ?_
    extract_lets +onlyGivenNames -merge -useContext -underBinder x2
    have k3 : Keeps L r (x2) := (keeps_forAll _ _ k1 fun y5 y6 b7 k4 => (keeps_cmpMode _ _ (Sub.trans (by decide) hL) k4))
    try clear_value x2
    exact (keeps_forAll _ _ k3 fun y9 y10 b11 k8 => (keeps_legRefresh _ (Sub.trans (by decide) hL) k8))

theorem keeps_execBlankingMaxlen {L : List Part} {r s : State} (a : Fin 3) (ch : Fin 8)
    (hL : Sub [.now, .aisle, .aisR, .happened, .cmpR, .cmp, .trpR, .trip, .knrR, .celR, .crier, .cellar, .ring, .attic, .atcR, .mem, .stlR, .wdtR] L) (h : Keeps L r s) : Runs L r (execBlankingMaxlen a ch s) := by
  unfold execBlankingMaxlen
  refine Runs.next ?_
  refine Keeps.ite ?_ h
  extract_lets +onlyGivenNames -merge -useContext -underBinder x0
  try clear_value x0
  extract_lets +onlyGivenNames -merge -useContext -underBinder x1
  have k2 : Keeps L r (x1) := (keeps_atTime _ (Sub.trans (by decide) hL) h)
  try clear_value x1
  extract_lets +onlyGivenNames -merge -useContext -underBinder x3
  have k4 : Keeps L r (x3) := (keeps_modAisle _ _ (Sub.trans (by decide) hL) k2)
  try clear_value x3
  exact (keeps_countSat _ _ _ (hL _ (by decide)) (in_ais (hL _ (by decide)) (off_at (n := 3836) (by omega) (by decide))) (keeps_blkClose _ _ (Sub.trans (by decide) hL) k4))

theorem keeps_blkClr {L : List Part} {r s : State} (a : Nat) (channels : Nat)
    (hL : Sub [.aisR] L) (h : Keeps L r s) : Keeps L r (State.blkClr s a channels) := by
  unfold State.blkClr
  exact (keeps_forAll _ _ h fun y1 y2 b3 k0 => (Keeps.ite (keeps_clearCount _ _ (in_ais (hL _ (by decide)) (off_at (n := 3836) (by omega) (by decide))) k0) k0))

theorem keeps_execBlkClr {L : List Part} {r s : State} (init : Fin 16) (a : Fin 3) (channels : BitVec 8)
    (hL : Sub [.sysR, .happened, .aisR] L) (h : Keeps L r s) : Runs L r (execBlkClr init a channels s) := by
  unfold execBlkClr
  exact (Runs.next (keeps_onCommand _ _ _ (Sub.trans (by decide) hL) h (fun y0 k1 => (keeps_blkClr _ _ (Sub.trans (by decide) hL) k1))))

end Sys2Proof.Laws
end

