-- ==== Sys2Proof/Laws/KeepConverter.lean ====
section
/-! SUPPORT. What the operations of Machine/Converter.lean may change, and what they keep (see Keeps.lean). -/

namespace Sys2Proof.Laws

open Sys2Proof Sys2Proof.Machine Sys2Proof.Safety

theorem keeps_cnvStatus {L : List Part} {r s : State} (k : Nat)
    (hL : Sub [.cnv, .cnvR, .aisR] L) (h : Keeps L r s) : Keeps L r (State.cnvStatus s k) := by
  unfold State.cnvStatus
  extract_lets +onlyGivenNames -merge -useContext -underBinder x0
  extract_lets +onlyGivenNames -merge -useContext -underBinder x1
  try clear_value x1
  extract_lets +onlyGivenNames -merge -useContext -underBinder x2
  try clear_value x2
  extract_lets +onlyGivenNames -merge -useContext -underBinder x3
  try clear_value x3
  extract_lets +onlyGivenNames -merge -useContext -underBinder x4
  have k5 : Keeps L r (x4) := (keeps_modCnv _ _ (Sub.trans (by decide) hL) h)
  try clear_value x4
  extract_lets +onlyGivenNames -merge -useContext -underBinder x6
  have k7 : Keeps L r (x6) := (keeps_setB _ _ _ (in_cnv (hL _ (by decide)) (by decide)) k5)
  try clear_value x6
  extract_lets +onlyGivenNames -merge -useContext -underBinder x8
  have k9 : Keeps L r (x8) := (keeps_setB _ _ _ (in_cnv (hL _ (by decide)) (by decide)) k7)
  try clear_value x8
  extract_lets +onlyGivenNames -merge -useContext -underBinder x10
  have k11 : Keeps L r (x10) := (keeps_setB _ _ _ (in_cnv (hL _ (by decide)) (by decide)) k9)
  try clear_value x10
  extract_lets +onlyGivenNames -merge -useContext -underBinder x12
  have k13 : Keeps L r (x12) := (keeps_setB _ _ _ (in_cnv (hL _ (by decide)) (by decide)) k11)
  try clear_value x12
  extract_lets +onlyGivenNames -merge -useContext -underBinder x14
  have k15 : Keeps L r (x14) := (keeps_setB _ _ _ (in_cnv (hL _ (by decide)) (by decide)) k13)
  try clear_value x14
  extract_lets +onlyGivenNames -merge -useContext -underBinder x16
  try clear_value x16
  extract_lets +onlyGivenNames -merge -useContext -underBinder x17
  try clear_value x17
  extract_lets +onlyGivenNames -merge -useContext -underBinder x18
  have k19 : Keeps L r (x18) := (keeps_forAll _ _ k15 fun y21 y22 b23 k20 => (keeps_setBit _ _ _ _ (in_ais (hL _ (by decide)) (by decide)) k20))
  try clear_value x18
  exact (keeps_setB _ _ _ (in_ais (hL _ (by decide)) (by decide)) k19)

theorem keeps_modCnvS {L : List Part} {r s : State} (k : Nat) (f : Converter → Converter)
    (hL : Sub [.cnv, .cnvR, .aisR] L) (h : Keeps L r s) : Keeps L r (State.modCnvS s k f) := by
  unfold State.modCnvS
  exact (keeps_cnvStatus _ (Sub.trans (by decide) hL) (keeps_modCnv _ _ (Sub.trans (by decide) hL) h))

theorem keeps_startScan {L : List Part} {r s : State} (k : Nat) (group : Option (Fin 4)) (total : Nat) (apt : Nat) (acq : Nat)
    (hL : Sub [.cnv, .cnvR, .aisR] L) (h : Keeps L r s) : Keeps L r (State.startScan s k group total apt acq) := by
  unfold State.startScan
  exact (keeps_modCnvS _ _ (Sub.trans (by decide) hL) h)

theorem keeps_cnvFire {L : List Part} {r s : State} (k : Nat)
    (hL : Sub [.cnv, .cnvR, .happened, .aisR] L) (h : Keeps L r s) : Keeps L r (State.cnvFire s k) := by
  unfold State.cnvFire
  extract_lets +onlyGivenNames -merge -useContext -underBinder x0
  try clear_value x0
  refine Keeps.ite h ?_
  refine Keeps.ite (keeps_modCnv _ _ (Sub.trans (by decide) hL) (keeps_countSat _ _ _ (hL _ (by decide)) (in_cnv (hL _ (by decide)) (by decide)) h)) ?_
  extract_lets +onlyGivenNames -merge -useContext -underBinder x1
  try clear_value x1
  extract_lets +onlyGivenNames -merge -useContext -underBinder x2
  try clear_value x2
  extract_lets +onlyGivenNames -merge -useContext -underBinder x3
  have k4 : Keeps L r (x3) := (Keeps.ite (keeps_countSat _ _ _ (hL _ (by decide)) (in_cnv (hL _ (by decide)) (by decide)) h) h)
  try clear_value x3
  exact (keeps_modCnv _ _ (Sub.trans (by decide) hL) (keeps_startScan _ _ _ _ _ (Sub.trans (by decide) hL) k4))

theorem keeps_armedStart {L : List Part} {r s : State} (k : Nat)
    (hL : Sub [.cnv, .cnvR, .happened, .aisR] L) (h : Keeps L r s) : Keeps L r (State.armedStart s k) := by
  unfold State.armedStart
  extract_lets +onlyGivenNames -merge -useContext -underBinder x0
  try clear_value x0
  exact (keeps_cnvFire _ (Sub.trans (by decide) hL) (Keeps.ite (keeps_setB _ _ _ (in_cnv (hL _ (by decide)) (by decide)) h) h))

theorem keeps_groupFire {L : List Part} {r s : State} (a : Nat) (q : Nat) (inst : Nat)
    (hL : Sub [.aisle, .aisR, .happened, .cnv, .cnvR] L) (h : Keeps L r s) : Keeps L r (State.groupFire s a q inst) := by
  unfold State.groupFire
  extract_lets +onlyGivenNames -merge -useContext -underBinder x0
  try clear_value x0
  extract_lets +onlyGivenNames -merge -useContext -underBinder x1
  try clear_value x1
  extract_lets +onlyGivenNames -merge -useContext -underBinder x2
  try clear_value x2
  refine Keeps.ite h ?_
  extract_lets +onlyGivenNames -merge -useContext -underBinder x3
  have k4 : Keeps L r (x3) := (keeps_modAisle _ _ (Sub.trans (by decide) hL) h)
  try clear_value x3
  refine Keeps.ite (keeps_countSat _ _ _ (hL _ (by decide)) (in_ais (hL _ (by decide)) (off_at (n := 4072) (by omega) (by decide))) k4) ?_
  extract_lets +onlyGivenNames -merge -useContext -underBinder x5
  try clear_value x5
  extract_lets +onlyGivenNames -merge -useContext -underBinder x6
  try clear_value x6
  extract_lets +onlyGivenNames -merge -useContext -underBinder x7
  try clear_value x7
  extract_lets +onlyGivenNames -merge -useContext -underBinder x8
  try clear_value x8
  extract_lets +onlyGivenNames -merge -useContext -underBinder x9
  have k10 : Keeps L r (x9) := (Keeps.ite k4 (keeps_countSat _ _ _ (hL _ (by decide)) (in_ais (hL _ (by decide)) (off_at (n := 4072) (by omega) (by decide))) k4))
  try clear_value x9
  extract_lets +onlyGivenNames -merge -useContext -underBinder x11
  try clear_value x11
  exact (Keeps.foldl (fun y12 y13 k14 => (keeps_startScan _ _ _ _ _ (Sub.trans (by decide) hL) k14)) k10)

theorem keeps_cnvDisable {L : List Part} {r s : State} (k : Nat)
    (hL : Sub [.cnvR, .cnv, .aisR] L) (h : Keeps L r s) : Keeps L r (State.cnvDisable s k) := by
  unfold State.cnvDisable
  extract_lets +onlyGivenNames -merge -useContext -underBinder x0
  extract_lets +onlyGivenNames -merge -useContext -underBinder x1
  have k2 : Keeps L r (x1) := (keeps_setB _ _ _ (in_cnv (hL _ (by decide)) (by decide)) (keeps_setB _ _ _ (in_cnv (hL _ (by decide)) (by decide)) h))
  try clear_value x1
  exact (keeps_modCnvS _ _ (Sub.trans (by decide) hL) k2)

theorem keeps_bgStart {L : List Part} {r s : State} (k : Nat)
    (hL : Sub [.cnv] L) (h : Keeps L r s) : Keeps L r (State.bgStart s k) := by
  unfold State.bgStart
  exact (keeps_modCnv _ _ (Sub.trans (by decide) hL) h)

theorem keeps_cnvEnable {L : List Part} {r s : State} (k : Nat)
    (hL : Sub [.cnvR, .cnv, .happened, .aisR] L) (h : Keeps L r s) : Keeps L r (State.cnvEnable s k) := by
  unfold State.cnvEnable
  extract_lets +onlyGivenNames -merge -useContext -underBinder x0
  extract_lets +onlyGivenNames -merge -useContext -underBinder x1
  have k2 : Keeps L r (x1) := (Keeps.ite (keeps_setF _ _ _ (in_cnv (hL _ (by decide)) (by decide)) h) h)
  try clear_value x1
  extract_lets +onlyGivenNames -merge -useContext -underBinder x3
  have k4 : Keeps L r (x3) := (keeps_bgStart _ (Sub.trans (by decide) hL) (keeps_modCnv _ _ (Sub.trans (by decide) hL) k2))
  try clear_value x3
  exact (Keeps.ite (keeps_cnvFire _ (Sub.trans (by decide) hL) (keeps_cnvStatus _ (Sub.trans (by decide) hL) k4)) (keeps_cnvStatus _ (Sub.trans (by decide) hL) k4))

theorem keeps_loopCode {L : List Part} {r s : State} (k : Nat) (sel : Nat) (t : Nat)
    (hL : Sub [.free] L) (h : Keeps L r s) : Keeps2 L r (State.loopCode s k sel t) := by
  unfold State.loopCode
  exact (keeps_threshold _ _ _ (Sub.trans (by decide) hL) h)

theorem keeps_newFirst {L : List Part} {r s : State} (k : Nat) (old : Nat) (new : Nat)
    (hL : Sub [.cnv] L) (h : Keeps L r s) : Keeps L r (State.newFirst s k old new) := by
  unfold State.newFirst
  exact (Keeps.ite h (keeps_modCnv _ _ (Sub.trans (by decide) hL) h))

theorem keeps_pinsWritten {L : List Part} {r s : State} (k : Nat) (old : Nat) (new : Nat)
    (hL : Sub [.cnv] L) (h : Keeps L r s) : Keeps L r (State.pinsWritten s k old new) := by
  unfold State.pinsWritten
  exact (Keeps.ite (keeps_modCnv _ _ (Sub.trans (by decide) hL) h) h)

theorem keeps_reacquire {L : List Part} {r s : State} (k : Nat) (t : Nat)
    (hL : Sub [.cnv, .cnvR, .aisR] L) (h : Keeps L r s) : Keeps L r (State.reacquire s k t) := by
  unfold State.reacquire
  exact (keeps_modCnvS _ _ (Sub.trans (by decide) hL) h)

theorem keeps_setNcoPhase {L : List Part} {r s : State} (e : Nat) (value : Nat)
    (hL : Sub [.eng, .engR] L) (h : Keeps L r s) : Keeps L r (State.setNcoPhase s e value) := by
  unfold State.setNcoPhase
  exact (keeps_modEng _ _ (Sub.trans (by decide) hL) (keeps_setF _ _ _ (in_eng (hL _ (by decide)) (by decide)) h))

theorem keeps_setNcoFreq {L : List Part} {r s : State} (e : Nat) (value : Nat)
    (hL : Sub [.engR, .eng] L) (h : Keeps L r s) : Keeps L r (State.setNcoFreq s e value) := by
  unfold State.setNcoFreq
  exact (keeps_setF _ _ _ (in_eng (hL _ (by decide)) (by decide)) (keeps_modEng _ _ (Sub.trans (by decide) hL) h))

theorem keeps_execAperture {L : List Part} {r s : State} (k : Fin 12) (v : Sample)
    (hL : Sub [.now, .cnv, .free] L) (h : Keeps L r s) : Runs L r (execAperture k v s) := by
  unfold execAperture
  refine Runs.next ?_
  split
  · exact h
  · extract_lets +onlyGivenNames -merge -useContext -underBinder x0
    try clear_value x0
    split
    · extract_lets +onlyGivenNames -merge -useContext -underBinder x1
      have k2 : Keeps L r (x1) := (keeps_atTime _ (Sub.trans (by decide) hL) h)
      try clear_value x1
      extract_lets +onlyGivenNames -merge -useContext -underBinder x3
      try clear_value x3
      -- NESTED
      split
      · exact (keeps_modCnv _ _ (Sub.trans (by decide) hL) (Keeps.of_snd (by with_reducible assumption) (Keeps2.ite (keeps_loopCode _ _ _ (Sub.trans (by decide) hL) k2) (Keeps2.mk k2))))
    · refine Keeps.ite ?_ h
      extract_lets +onlyGivenNames -merge -useContext -underBinder x4
      have k5 : Keeps L r (x4) := (keeps_atTime _ (Sub.trans (by decide) hL) h)
      try clear_value x4
      exact (keeps_modCnv _ _ (Sub.trans (by decide) hL) k5)
    · exact h

theorem keeps_execRawCode {L : List Part} {r s : State} (k : Fin 12)
    (hL : Sub [.now, .cnvR, .cnv, .aisR] L) (h : Keeps L r s) : Runs L r (execRawCode k s) := by
  unfold execRawCode
  refine Runs.next ?_
  split
  · exact h
  · split
    · extract_lets +onlyGivenNames -merge -useContext -underBinder x0
      try clear_value x0
      extract_lets +onlyGivenNames -merge -useContext -underBinder x1
      have k2 : Keeps L r (x1) := (keeps_atTime _ (Sub.trans (by decide) hL) h)
      try clear_value x1
      extract_lets +onlyGivenNames -merge -useContext -underBinder x3
      try clear_value x3
      extract_lets +onlyGivenNames -merge -useContext -underBinder x4
      try clear_value x4
      extract_lets +onlyGivenNames -merge -useContext -underBinder x5
      have k6 : Keeps L r (x5) := (keeps_setF _ _ _ (in_cnv (hL _ (by decide)) (off_at (n := 192) (by omega) (by decide))) k2)
      try clear_value x5
      exact (keeps_modCnvS _ _ (Sub.trans (by decide) hL) k6)
    · exact h

theorem keeps_execCorrectedResult {L : List Part} {r s : State} (k : Fin 12)
    (hL : Sub [.eng, .engR, .legR, .leg, .attic, .happened, .now, .cnvR, .cnv, .aisR] L) (h : Keeps L r s) : Runs L r (execCorrectedResult k s) := by
  unfold execCorrectedResult
  refine Runs.next ?_
  split
  · exact h
  · split
    · extract_lets +onlyGivenNames -merge -useContext -underBinder x0
      extract_lets +onlyGivenNames -merge -useContext -underBinder x1
      have k2 : Keeps L r (x1) := (keeps_aisleTime _ (Sub.trans (by decide) hL) h)
      try clear_value x1
      split
      · extract_lets +onlyGivenNames -merge -useContext -underBinder x3
        have k4 : Keeps L r (x3) := (keeps_countWrap _ _ _ (hL _ (by decide)) (in_cnv (hL _ (by decide)) (by decide)) (keeps_setBit _ _ _ _ (in_cnv (hL _ (by decide)) (by decide)) (keeps_setF _ _ _ (in_cnv (hL _ (by decide)) (off_at (n := 160) (by omega) (by decide))) k2)))
        try clear_value x3
        extract_lets +onlyGivenNames -merge -useContext -underBinder x5
        try clear_value x5
        exact (keeps_modCnvS _ _ (Sub.trans (by decide) hL) k4)
    · exact h

theorem keeps_average {L : List Part} {r s : State} (k : Nat) (elems : List Nat)
    (hL : Sub [.cnv, .cnvR] L) (h : Keeps L r s) : Keeps L r (State.average s k elems) := by
  unfold State.average
  extract_lets +onlyGivenNames -merge -useContext -underBinder x0
  try clear_value x0
  extract_lets +onlyGivenNames -merge -useContext -underBinder x1
  try clear_value x1
  refine Keeps.ite (keeps_modCnv _ _ (Sub.trans (by decide) hL) h) ?_
  extract_lets +onlyGivenNames -merge -useContext -underBinder x2
  have k3 : Keeps L r (x2) := (Keeps.foldl (fun y4 y5 k6 => (keeps_setF _ _ _ (in_cnv (hL _ (by decide)) (off_at (n := 128) (by omega) (by decide))) k6)) h)
  try clear_value x2
  exact (keeps_modCnv _ _ (Sub.trans (by decide) hL) k3)

theorem keeps_scanDone {L : List Part} {r s : State} (k : Nat) (x : Scan)
    (hL : Sub [.cnv, .cnvR, .crier, .happened, .aisR] L) (h : Keeps L r s) : Keeps L r (State.scanDone s k x) := by
  unfold State.scanDone
  extract_lets +onlyGivenNames -merge -useContext -underBinder x0
  extract_lets +onlyGivenNames -merge -useContext -underBinder x1
  try clear_value x1
  extract_lets +onlyGivenNames -merge -useContext -underBinder x2
  try clear_value x2
  extract_lets +onlyGivenNames -merge -useContext -underBinder x3
  have k4 : Keeps L r (x3) := (keeps_average _ _ (Sub.trans (by decide) hL) (keeps_pulse _ (Sub.trans (by decide) hL) (keeps_countWrap _ _ _ (hL _ (by decide)) (in_cnv (hL _ (by decide)) (by decide)) h)))
  try clear_value x3
  exact (keeps_modCnvS _ _ (Sub.trans (by decide) hL) k4)

theorem keeps_swTrig {L : List Part} {r s : State} (k : Nat)
    (hL : Sub [.cnv, .cnvR, .aisR, .happened] L) (h : Keeps L r s) : Keeps L r (State.swTrig s k) := by
  unfold State.swTrig
  extract_lets +onlyGivenNames -merge -useContext -underBinder x0
  exact (Keeps.ite (keeps_modCnvS _ _ (Sub.trans (by decide) hL) h) (Keeps.ite (Keeps.ite h (keeps_armedStart _ (Sub.trans (by decide) hL) h)) (Keeps.ite h (keeps_cnvFire _ (Sub.trans (by decide) hL) h))))

theorem keeps_execSwTrig {L : List Part} {r s : State} (init : Fin 16) (k : Fin 12)
    (hL : Sub [.sysR, .happened, .cnv, .cnvR, .aisR] L) (h : Keeps L r s) : Runs L r (execSwTrig init k s) := by
  unfold execSwTrig
  exact (Runs.next (keeps_onCommand _ _ _ (Sub.trans (by decide) hL) h (fun y0 k1 => (keeps_swTrig _ (Sub.trans (by decide) hL) k1))))

theorem keeps_startPin {L : List Part} {r s : State} (k : Nat)
    (hL : Sub [.cnv, .cnvR, .happened, .aisR] L) (h : Keeps L r s) : Keeps L r (State.startPin s k) := by
  unfold State.startPin
  extract_lets +onlyGivenNames -merge -useContext -underBinder x0
  extract_lets +onlyGivenNames -merge -useContext -underBinder x1
  have k2 : Keeps L r (x1) := (keeps_modCnv _ _ (Sub.trans (by decide) hL) h)
  try clear_value x1
  extract_lets +onlyGivenNames -merge -useContext -underBinder x3
  try clear_value x3
  extract_lets +onlyGivenNames -merge -useContext -underBinder x4
  try clear_value x4
  exact (Keeps.ite k2 (Keeps.ite (keeps_cnvFire _ (Sub.trans (by decide) hL) k2) (Keeps.ite (Keeps.ite k2 (Keeps.ite (keeps_modCnv _ _ (Sub.trans (by decide) hL) (keeps_setB _ _ _ (in_cnv (hL _ (by decide)) (by decide)) k2)) (Keeps.ite k2 (Keeps.ite (keeps_cnvFire _ (Sub.trans (by decide) hL) k2) (keeps_armedStart _ (Sub.trans (by decide) hL) k2))))) k2)))

theorem keeps_execStartEdge {L : List Part} {r s : State} (k : Fin 12) (x : PinLevel)
    (hL : Sub [.cnv, .cnvR, .happened, .aisR] L) (h : Keeps L r s) : Runs L r (execStartEdge k x s) := by
  unfold execStartEdge
  extract_lets +onlyGivenNames -merge -useContext -underBinder x0
  try clear_value x0
  extract_lets +onlyGivenNames -merge -useContext -underBinder x1
  try clear_value x1
  refine Runs.next ?_
  refine Keeps.ite ?_ h
  extract_lets +onlyGivenNames -merge -useContext -underBinder x2
  have k3 : Keeps L r (x2) := (keeps_modCnv _ _ (Sub.trans (by decide) hL) h)
  try clear_value x2
  exact (Keeps.ite (keeps_startPin _ (Sub.trans (by decide) hL) k3) k3)

theorem keeps_stopPin {L : List Part} {r s : State} (k : Nat)
    (hL : Sub [.cnv, .cnvR] L) (h : Keeps L r s) : Keeps L r (State.stopPin s k) := by
  unfold State.stopPin
  extract_lets +onlyGivenNames -merge -useContext -underBinder x0
  try clear_value x0
  exact (keeps_modCnv _ _ (Sub.trans (by decide) hL) (keeps_setB _ _ _ (in_cnv (hL _ (by decide)) (by decide)) h))

theorem keeps_execStopEdge {L : List Part} {r s : State} (k : Fin 12) (x : PinLevel)
    (hL : Sub [.cnv, .cnvR] L) (h : Keeps L r s) : Runs L r (execStopEdge k x s) := by
  unfold execStopEdge
  extract_lets +onlyGivenNames -merge -useContext -underBinder x0
  try clear_value x0
  extract_lets +onlyGivenNames -merge -useContext -underBinder x1
  try clear_value x1
  refine Runs.next ?_
  refine Keeps.ite ?_ h
  extract_lets +onlyGivenNames -merge -useContext -underBinder x2
  have k3 : Keeps L r (x2) := (keeps_modCnv _ _ (Sub.trans (by decide) hL) h)
  try clear_value x2
  exact (Keeps.ite (keeps_stopPin _ (Sub.trans (by decide) hL) k3) k3)

theorem keeps_cnvStop {L : List Part} {r s : State} (k : Nat)
    (hL : Sub [.cnv, .cnvR] L) (h : Keeps L r s) : Keeps L r (State.cnvStop s k) := by
  unfold State.cnvStop
  extract_lets +onlyGivenNames -merge -useContext -underBinder x0
  exact (Keeps.ite (keeps_modCnv _ _ (Sub.trans (by decide) hL) (keeps_setB _ _ _ (in_cnv (hL _ (by decide)) (by decide)) h)) h)

theorem keeps_execStop {L : List Part} {r s : State} (init : Fin 16) (k : Fin 12)
    (hL : Sub [.sysR, .happened, .cnv, .cnvR] L) (h : Keeps L r s) : Runs L r (execStop init k s) := by
  unfold execStop
  exact (Runs.next (keeps_onCommand _ _ _ (Sub.trans (by decide) hL) h (fun y0 k1 => (keeps_cnvStop _ (Sub.trans (by decide) hL) k1))))

theorem keeps_execBackToBackScan {L : List Part} {r s : State} (k : Fin 12)
    (hL : Sub [.cnv, .cnvR, .aisR, .now] L) (h : Keeps L r s) : Runs L r (execBackToBackScan k s) := by
  unfold execBackToBackScan
  extract_lets +onlyGivenNames -merge -useContext -underBinder x0
  try clear_value x0
  refine Runs.next ?_
  refine Keeps.ite ?_ h
  extract_lets +onlyGivenNames -merge -useContext -underBinder x1
  try clear_value x1
  exact (keeps_startScan _ _ _ _ _ (Sub.trans (by decide) hL) (keeps_atTime _ (Sub.trans (by decide) hL) h))

theorem keeps_calibrate {L : List Part} {r s : State} (k : Nat) (full : Bool) (i : Nat)
    (hL : Sub [.cnvR, .cnv, .aisR] L) (h : Keeps L r s) : Keeps L r (State.calibrate s k full i) := by
  unfold State.calibrate
  extract_lets +onlyGivenNames -merge -useContext -underBinder x0
  extract_lets +onlyGivenNames -merge -useContext -underBinder x1
  try clear_value x1
  exact (Keeps.ite (keeps_setF _ _ _ (in_cnv (hL _ (by decide)) (by decide)) h) (Keeps.ite (keeps_setF _ _ _ (in_cnv (hL _ (by decide)) (by decide)) h) (Keeps.ite (keeps_setF _ _ _ (in_cnv (hL _ (by decide)) (by decide)) h) (keeps_modCnvS _ _ (Sub.trans (by decide) hL) h))))

theorem keeps_calSample {L : List Part} {r s : State} (k : Nat) (t : Nat)
    (hL : Sub [.cnv, .free] L) (h : Keeps L r s) : Keeps L r (State.calSample s k t) := by
  unfold State.calSample
  split
  · exact h
  · refine Keeps.ite h ?_
    -- NESTED
    split
    · refine keeps_modCnv _ _ (Sub.trans (by decide) hL) ?_
      refine Keeps.of_snd (by with_reducible assumption) ?_
      refine Keeps2.foldl ?_ (Keeps2.mk h)
      intro y0 y1 k2
      refine Keeps2.ite ?_ k2
      split
      · exact (Keeps2.mk (Keeps.of_snd (by with_reducible assumption) (keeps_loopCode _ _ _ (Sub.trans (by decide) hL) (Keeps2.out k2))))

theorem keeps_thrWritten {L : List Part} {r s : State} (c : Nat) (old : Nat)
    (hL : Sub [.cmp, .cnv, .free] L) (h : Keeps L r s) : Keeps L r (State.thrWritten s c old) := by
  unfold State.thrWritten
  exact (keeps_modCmp _ _ (Sub.trans (by decide) hL) (keeps_calSample _ _ (Sub.trans (by decide) hL) h))

theorem keeps_execCalZero {L : List Part} {r s : State} (init : Fin 16) (k : Fin 12) (input : Fin 8)
    (hL : Sub [.sysR, .happened, .cnvR, .cnv, .aisR] L) (h : Keeps L r s) : Runs L r (execCalZero init k input s) := by
  unfold execCalZero
  exact (Runs.next (keeps_onCommand _ _ _ (Sub.trans (by decide) hL) h (fun y0 k1 => (keeps_calibrate _ _ _ (Sub.trans (by decide) hL) k1))))

theorem keeps_execCalFull {L : List Part} {r s : State} (init : Fin 16) (k : Fin 12) (input : Fin 8)
    (hL : Sub [.sysR, .happened, .cnvR, .cnv, .aisR] L) (h : Keeps L r s) : Runs L r (execCalFull init k input s) := by
  unfold execCalFull
  exact (Runs.next (keeps_onCommand _ _ _ (Sub.trans (by decide) hL) h (fun y0 k1 => (keeps_calibrate _ _ _ (Sub.trans (by decide) hL) k1))))

theorem keeps_calOffer {L : List Part} {r s : State} (k : Nat) (changed : Bool)
    (hL : Sub [.attic] L) (h : Keeps L r s) : Keeps L r (State.calOffer s k changed) := by
  unfold State.calOffer
  exact (Keeps.ite (keeps_offer _ _ (Sub.trans (by decide) hL) h) h)

theorem keeps_execCalibrationEnd {L : List Part} {r s : State} (k : Fin 12) (codes : CalCodes)
    (hL : Sub [.cnv, .free, .now, .cnvR, .attic, .aisR] L) (h : Keeps L r s) : Runs L r (execCalibrationEnd k codes s) := by
  unfold execCalibrationEnd
  refine Runs.next ?_
  split
  · exact h
  · extract_lets +onlyGivenNames -merge -useContext -underBinder x0
    extract_lets +onlyGivenNames -merge -useContext -underBinder x1
    have k2 : Keeps L r (x1) := (keeps_calSample _ _ (Sub.trans (by decide) hL) (keeps_atTime _ (Sub.trans (by decide) hL) h))
    try clear_value x1
    extract_lets +onlyGivenNames -merge -useContext -underBinder x3
    try clear_value x3
    extract_lets +onlyGivenNames -merge -useContext -underBinder x4
    try clear_value x4
    extract_lets +onlyGivenNames -merge -useContext -underBinder x5
    try clear_value x5
    extract_lets +onlyGivenNames -merge -useContext -underBinder x6
    try clear_value x6
    extract_lets +onlyGivenNames -merge -useContext -underBinder x7
    try clear_value x7
    extract_lets +onlyGivenNames -merge -useContext -underBinder x8
    have k9 : Keeps L r (x8) := (Keeps.ite (keeps_setF _ _ _ (in_cnv (hL _ (by decide)) (by decide)) (keeps_setF _ _ _ (in_cnv (hL _ (by decide)) (off_at (n := 96) (by omega) (by decide))) k2)) (Keeps.ite (keeps_setF _ _ _ (in_cnv (hL _ (by decide)) (by decide)) k2) (keeps_setF _ _ _ (in_cnv (hL _ (by decide)) (by decide)) (keeps_setF _ _ _ (in_cnv (hL _ (by decide)) (off_at (n := 92) (by omega) (by decide))) k2))))
    try clear_value x8
    extract_lets +onlyGivenNames -merge -useContext -underBinder x10
    have k11 : Keeps L r (x10) := (keeps_calOffer _ _ (Sub.trans (by decide) hL) k9)
    try clear_value x10
    exact (keeps_modCnvS _ _ (Sub.trans (by decide) hL) k11)

theorem keeps_cnvDiag {L : List Part} {r s : State} (k : Nat)
    (hL : Sub [.cnv, .cnvR, .aisR] L) (h : Keeps L r s) : Keeps L r (State.cnvDiag s k) := by
  unfold State.cnvDiag
  extract_lets +onlyGivenNames -merge -useContext -underBinder x0
  try clear_value x0
  exact (Keeps.ite h (keeps_modCnvS _ _ (Sub.trans (by decide) hL) (keeps_setB _ _ _ (in_cnv (hL _ (by decide)) (by decide)) h)))

theorem keeps_execDiag {L : List Part} {r s : State} (init : Fin 16) (k : Fin 12)
    (hL : Sub [.sysR, .happened, .cnv, .cnvR, .aisR] L) (h : Keeps L r s) : Runs L r (execDiag init k s) := by
  unfold execDiag
  exact (Runs.next (keeps_onCommand _ _ _ (Sub.trans (by decide) hL) h (fun y0 k1 => (keeps_cnvDiag _ (Sub.trans (by decide) hL) k1))))

theorem keeps_execDiagScanStart {L : List Part} {r s : State} (x : DiagStart)
    (hL : Sub [.cnv, .cnvR, .aisR] L) (h : Keeps L r s) : Runs L r (execDiagScanStart x s) := by
  unfold execDiagScanStart
  extract_lets +onlyGivenNames -merge -useContext -underBinder x0
  try clear_value x0
  refine Runs.next ?_
  split
  · refine Keeps.ite ?_ h
    extract_lets +onlyGivenNames -merge -useContext -underBinder x1
    try clear_value x1
    exact (keeps_modCnvS _ _ (Sub.trans (by decide) hL) h)
  · exact h

theorem keeps_diagElement {L : List Part} {r s : State} (k : Nat) (n : Nat) (x : DiagRun) (dn : Nat)
    (hL : Sub [.cnvR] L) (h : Keeps L r s) : Keeps L r (State.diagElement s k n x dn) := by
  unfold State.diagElement
  extract_lets +onlyGivenNames -merge -useContext -underBinder x0
  extract_lets +onlyGivenNames -merge -useContext -underBinder x1
  try clear_value x1
  extract_lets +onlyGivenNames -merge -useContext -underBinder x2
  try clear_value x2
  exact (Keeps.ite (keeps_setF _ _ _ (in_cnv (hL _ (by decide)) (off_at (n := 32) (by omega) (by decide))) h) (keeps_setBit _ _ _ _ (in_cnv (hL _ (by decide)) (by decide)) (keeps_setF _ _ _ (in_cnv (hL _ (by decide)) (off_at (n := 32) (by omega) (by decide))) h)))

theorem keeps_diagProgress {L : List Part} {r s : State} (k : Nat)
    (hL : Sub [.cnv, .cnvR] L) (h : Keeps L r s) : Keeps L r (State.diagProgress s k) := by
  unfold State.diagProgress
  split
  · exact h
  · refine keeps_forAll _ _ h ?_
    intro y1 y2 b3 k0
    extract_lets +onlyGivenNames -merge -useContext -underBinder x4
    try clear_value x4
    exact (Keeps.ite (keeps_modCnv _ _ (Sub.trans (by decide) hL) (keeps_diagElement _ _ _ _ (Sub.trans (by decide) hL) k0)) k0)

theorem keeps_arrive {L : List Part} {r s : State} 
    (hL : Sub [.cnv, .cnvR, .eng, .engR, .legR, .leg, .attic, .happened] L) (h : Keeps L r s) : Keeps L r (State.arrive s) := by
  unfold State.arrive
  exact (keeps_forAll _ _ (keeps_settle (Sub.trans (by decide) hL) h) fun y1 y2 b3 k0 => (keeps_diagProgress _ (Sub.trans (by decide) hL) k0))

theorem keeps_execDiagScanEnd {L : List Part} {r s : State} (k : Fin 12) (last : BitVec 16)
    (hL : Sub [.cnv, .cnvR, .now, .aisR] L) (h : Keeps L r s) : Runs L r (execDiagScanEnd k last s) := by
  unfold execDiagScanEnd
  refine Runs.next ?_
  split
  · exact h
  · extract_lets +onlyGivenNames -merge -useContext -underBinder x0
    have k1 : Keeps L r (x0) := (keeps_diagProgress _ (Sub.trans (by decide) hL) (keeps_atTime _ (Sub.trans (by decide) hL) h))
    try clear_value x0
    extract_lets +onlyGivenNames -merge -useContext -underBinder x2
    have k3 : Keeps L r (x2) := (Keeps.ite k1 (keeps_diagElement _ _ _ _ (Sub.trans (by decide) hL) k1))
    try clear_value x2
    exact (keeps_modCnvS _ _ (Sub.trans (by decide) hL) (keeps_setB _ _ _ (in_cnv (hL _ (by decide)) (by decide)) k3))

theorem keeps_cnvSelfchk {L : List Part} {r s : State} (k : Nat)
    (hL : Sub [.cnv, .cnvR, .aisR] L) (h : Keeps L r s) : Keeps L r (State.cnvSelfchk s k) := by
  unfold State.cnvSelfchk
  extract_lets +onlyGivenNames -merge -useContext -underBinder x0
  try clear_value x0
  extract_lets +onlyGivenNames -merge -useContext -underBinder x1
  try clear_value x1
  exact (Keeps.ite h (keeps_modCnvS _ _ (Sub.trans (by decide) hL) h))

theorem keeps_execSelfchk {L : List Part} {r s : State} (init : Fin 16) (k : Fin 12)
    (hL : Sub [.sysR, .happened, .cnv, .cnvR, .aisR] L) (h : Keeps L r s) : Runs L r (execSelfchk init k s) := by
  unfold execSelfchk
  exact (Runs.next (keeps_onCommand _ _ _ (Sub.trans (by decide) hL) h (fun y0 k1 => (keeps_cnvSelfchk _ (Sub.trans (by decide) hL) k1))))

theorem keeps_execSelfCheckAttempt {L : List Part} {r s : State} (k : Fin 12)
    (hL : Sub [.cnv, .now] L) (h : Keeps L r s) : Runs L r (execSelfCheckAttempt k s) := by
  unfold execSelfCheckAttempt
  refine Runs.next ?_
  refine Keeps.ite ?_ h
  extract_lets +onlyGivenNames -merge -useContext -underBinder x0
  try clear_value x0
  extract_lets +onlyGivenNames -merge -useContext -underBinder x1
  try clear_value x1
  exact (keeps_modCnv _ _ (Sub.trans (by decide) hL) (keeps_atTime _ (Sub.trans (by decide) hL) h))

theorem keeps_execSelfCheckElement {L : List Part} {r s : State} (k : Fin 12)
    (hL : Sub [.cnv, .cnvR, .aisR] L) (h : Keeps L r s) : Runs L r (execSelfCheckElement k s) := by
  unfold execSelfCheckElement
  extract_lets +onlyGivenNames -merge -useContext -underBinder x0
  try clear_value x0
  refine Runs.next ?_
  split
  · exact (Keeps.ite (keeps_modCnvS _ _ (Sub.trans (by decide) hL) h) h)
  · exact (Keeps.ite (keeps_modCnvS _ _ (Sub.trans (by decide) hL) h) h)
  · exact h

theorem keeps_execSelfCheckResult {L : List Part} {r s : State} (k : Fin 12) (v : Sample)
    (hL : Sub [.now, .cnvR, .cnv, .aisR] L) (h : Keeps L r s) : Runs L r (execSelfCheckResult k v s) := by
  unfold execSelfCheckResult
  refine Runs.next ?_
  split
  · exact h
  · extract_lets +onlyGivenNames -merge -useContext -underBinder x0
    extract_lets +onlyGivenNames -merge -useContext -underBinder x1
    try clear_value x1
    extract_lets +onlyGivenNames -merge -useContext -underBinder x2
    have k3 : Keeps L r (x2) := (keeps_atTime _ (Sub.trans (by decide) hL) h)
    try clear_value x2
    extract_lets +onlyGivenNames -merge -useContext -underBinder x4
    try clear_value x4
    extract_lets +onlyGivenNames -merge -useContext -underBinder x5
    try clear_value x5
    extract_lets +onlyGivenNames -merge -useContext -underBinder x6
    have k7 : Keeps L r (x6) := (Keeps.ite (keeps_setB _ _ _ (in_cnv (hL _ (by decide)) (by decide)) (keeps_setF _ _ _ (in_cnv (hL _ (by decide)) (by decide)) k3)) (keeps_setB _ _ _ (in_cnv (hL _ (by decide)) (by decide)) (keeps_setF _ _ _ (in_cnv (hL _ (by decide)) (by decide)) k3)))
    try clear_value x6
    extract_lets +onlyGivenNames -merge -useContext -underBinder x8
    try clear_value x8
    exact (keeps_modCnvS _ _ (Sub.trans (by decide) hL) (keeps_setB _ _ _ (in_cnv (hL _ (by decide)) (by decide)) k7))

theorem keeps_execBgstarved {L : List Part} {r s : State} (k : Fin 12)
    (hL : Sub [.cnvR, .now] L) (h : Keeps L r s) : Runs L r (execBgstarved k s) := by
  unfold execBgstarved
  exact (Runs.next (Keeps.ite (keeps_setB _ _ _ (in_cnv (hL _ (by decide)) (by decide)) (keeps_atTime _ (Sub.trans (by decide) hL) h)) h))

theorem keeps_cnvCntClr {L : List Part} {r s : State} (k : Nat)
    (hL : Sub [.cnvR] L) (h : Keeps L r s) : Keeps L r (State.cnvCntClr s k) := by
  unfold State.cnvCntClr
  extract_lets +onlyGivenNames -merge -useContext -underBinder x0
  exact (keeps_clearCount _ _ (in_cnv (hL _ (by decide)) (by decide)) (keeps_clearCount _ _ (in_cnv (hL _ (by decide)) (by decide)) (keeps_clearCount _ _ (in_cnv (hL _ (by decide)) (by decide)) (keeps_clearCount _ _ (in_cnv (hL _ (by decide)) (by decide)) h))))

theorem keeps_execCnvCntClr {L : List Part} {r s : State} (init : Fin 16) (k : Fin 12)
    (hL : Sub [.sysR, .happened, .cnvR] L) (h : Keeps L r s) : Runs L r (execCnvCntClr init k s) := by
  unfold execCnvCntClr
  exact (Runs.next (keeps_onCommand _ _ _ (Sub.trans (by decide) hL) h (fun y0 k1 => (keeps_cnvCntClr _ (Sub.trans (by decide) hL) k1))))

theorem keeps_cnvCmd {L : List Part} {r s : State} (k : Nat) (value : Nat)
    (hL : Sub [.cnv, .cnvR, .aisR, .happened] L) (h : Keeps L r s) : Keeps L r (State.cnvCmd s k value) := by
  unfold State.cnvCmd
  extract_lets +onlyGivenNames -merge -useContext -underBinder x0
  try clear_value x0
  refine Keeps.ite h ?_
  extract_lets +onlyGivenNames -merge -useContext -underBinder x1
  have k2 : Keeps L r (x1) := (Keeps.ite (keeps_swTrig _ (Sub.trans (by decide) hL) h) h)
  try clear_value x1
  extract_lets +onlyGivenNames -merge -useContext -underBinder x3
  have k4 : Keeps L r (x3) := (Keeps.ite (keeps_cnvStop _ (Sub.trans (by decide) hL) k2) k2)
  try clear_value x3
  extract_lets +onlyGivenNames -merge -useContext -underBinder x5
  have k6 : Keeps L r (x5) := (Keeps.ite (keeps_calibrate _ _ _ (Sub.trans (by decide) hL) k4) k4)
  try clear_value x5
  extract_lets +onlyGivenNames -merge -useContext -underBinder x7
  have k8 : Keeps L r (x7) := (Keeps.ite (keeps_calibrate _ _ _ (Sub.trans (by decide) hL) k6) k6)
  try clear_value x7
  extract_lets +onlyGivenNames -merge -useContext -underBinder x9
  have k10 : Keeps L r (x9) := (Keeps.ite (keeps_cnvDiag _ (Sub.trans (by decide) hL) k8) k8)
  try clear_value x9
  extract_lets +onlyGivenNames -merge -useContext -underBinder x11
  have k12 : Keeps L r (x11) := (Keeps.ite (keeps_cnvSelfchk _ (Sub.trans (by decide) hL) k10) k10)
  try clear_value x11
  exact (Keeps.ite (keeps_cnvCntClr _ (Sub.trans (by decide) hL) k12) k12)

end Sys2Proof.Laws
end

