-- ==== Sys2Proof/Laws/KeepCarrier.lean ====
section
/-! SUPPORT. What the operations of Machine/Carrier.lean may change, and what they keep (see Keeps.lean). -/

namespace Sys2Proof.Laws

open Sys2Proof Sys2Proof.Machine Sys2Proof.Safety

theorem keeps_takeShadows {L : List Part} {r s : State} (g : Nat)
    (hL : Sub [.carR] L) (h : Keeps L r s) : Keeps L r (State.takeShadows s g) := by
  unfold State.takeShadows
  extract_lets +onlyGivenNames -merge -useContext -underBinder x0
  exact (keeps_setF _ _ _ (in_car (hL _ (by decide)) (by decide)) (keeps_setF _ _ _ (in_car (hL _ (by decide)) (by decide)) (keeps_setF _ _ _ (in_car (hL _ (by decide)) (by decide)) h)))

theorem keeps_carWritten {L : List Part} {r s : State} (g : Nat)
    (hL : Sub [.carR] L) (h : Keeps L r s) : Keeps L r (State.carWritten s g) := by
  unfold State.carWritten
  extract_lets +onlyGivenNames -merge -useContext -underBinder x0
  try clear_value x0
  exact (Keeps.ite (keeps_takeShadows _ (Sub.trans (by decide) hL) h) h)

theorem keeps_slewWay {L : List Part} {r s : State} (g : Nat)
    (hL : Sub [.car, .free] L) (h : Keeps L r s) : Keeps2 L r (State.slewWay s g) := by
  unfold State.slewWay
  split
  · exact (Keeps2.mk h)
  · extract_lets +onlyGivenNames -merge -useContext -underBinder x0
    try clear_value x0
    exact (Keeps2.mk (keeps_modCar _ _ (Sub.trans (by decide) hL) (Keeps2.out (keeps_takeFree (Sub.trans (by decide) hL) h))))

theorem keeps_slewOf {L : List Part} {r s : State} (g : Nat) (inst : Nat)
    (hL : Sub [.car, .free] L) (h : Keeps L r s) : Keeps2 L r (State.slewOf s g inst) := by
  unfold State.slewOf
  extract_lets +onlyGivenNames -merge -useContext -underBinder x0
  try clear_value x0
  refine Keeps2.ite (Keeps2.mk (keeps_modCar _ _ (Sub.trans (by decide) hL) h)) ?_
  split
  · exact (Keeps2.mk (Keeps.of_snd (by with_reducible assumption) (keeps_slewWay _ (Sub.trans (by decide) hL) h)))

theorem keeps_setSlew {L : List Part} {r s : State} (g : Nat) (v : Bool)
    (hL : Sub [.aisR] L) (h : Keeps L r s) : Keeps L r (State.setSlew s g v) := by
  unfold State.setSlew
  exact (keeps_setBit _ _ _ _ (in_ais (hL _ (by decide)) (by decide)) h)

theorem keeps_phaseWritten {L : List Part} {r s : State} (g : Nat)
    (hL : Sub [.aisR, .car] L) (h : Keeps L r s) : Keeps L r (State.phaseWritten s g) := by
  unfold State.phaseWritten
  exact (Keeps.ite (keeps_setSlew _ _ (Sub.trans (by decide) hL) (keeps_modCar _ _ (Sub.trans (by decide) hL) h)) h)

theorem keeps_carEnable {L : List Part} {r s : State} (g : Nat)
    (hL : Sub [.carR, .car] L) (h : Keeps L r s) : Keeps L r (State.carEnable s g) := by
  unfold State.carEnable
  extract_lets +onlyGivenNames -merge -useContext -underBinder x0
  extract_lets +onlyGivenNames -merge -useContext -underBinder x1
  have k2 : Keeps L r (x1) := (keeps_takeShadows _ (Sub.trans (by decide) hL) (keeps_setB _ _ _ (in_car (hL _ (by decide)) (by decide)) h))
  try clear_value x1
  exact (Keeps.ite (keeps_modCar _ _ (Sub.trans (by decide) hL) (keeps_setB _ _ _ (in_car (hL _ (by decide)) (by decide)) k2)) (keeps_modCar _ _ (Sub.trans (by decide) hL) k2))

theorem keeps_forStalls {L : List Part} {r s : State} (g : Nat) (act : State → Nat → State)
    (_ : Sub [] L) (h : Keeps L r s) (h2 : ∀ x0 x1, Keeps L r x0 → Keeps L r (act x0 x1)) : Keeps L r (State.forStalls s g act) := by
  unfold State.forStalls
  exact (keeps_forAll _ _ h fun y1 y2 b3 k0 => (Keeps.ite (h2 _ _ k0) k0))

theorem keeps_carDisable {L : List Part} {r s : State} (g : Nat)
    (hL : Sub [.car, .aisR, .carR, .trpR, .legR, .leg, .attic, .eng] L) (h : Keeps L r s) : Keeps L r (State.carDisable s g) := by
  unfold State.carDisable
  extract_lets +onlyGivenNames -merge -useContext -underBinder x0
  extract_lets +onlyGivenNames -merge -useContext -underBinder x1
  have k2 : Keeps L r (x1) := (keeps_modCar _ _ (Sub.trans (by decide) hL) (keeps_setSlew _ _ (Sub.trans (by decide) hL) (keeps_setB _ _ _ (in_car (hL _ (by decide)) (by decide)) (keeps_setB _ _ _ (in_car (hL _ (by decide)) (by decide)) h))))
  try clear_value x1
  refine keeps_forStalls _ _ (Sub.trans (by decide) hL) k2 ?_
  intro y3 y4 k5
  extract_lets +onlyGivenNames -merge -useContext -underBinder x6
  have k7 : Keeps L r (x6) := by
    unfold x6
    refine keeps_forAll _ _ k5 ?_
    intro y9 y10 b11 k8
    extract_lets +onlyGivenNames -merge -useContext -underBinder x12
    try clear_value x12
    exact (keeps_unhold _ (Sub.trans (by decide) hL) (keeps_legRefresh _ (Sub.trans (by decide) hL) k8))
  try clear_value x6
  exact (keeps_modRun _ _ (Sub.trans (by decide) hL) k7)

theorem keeps_carEvent {L : List Part} {r s : State} (g : Nat) (ev : Nat) (inst : Nat)
    (hL : Sub [.crier, .cmpR, .happened, .cmp, .aisle, .trpR, .trip, .knrR, .celR, .cellar, .ring, .attic, .atcR, .mem, .stlR, .wdtR, .aisR, .cnv, .cnvR] L) (h : Keeps L r s) : Keeps L r (State.carEvent s g ev inst) := by
  unfold State.carEvent
  extract_lets +onlyGivenNames -merge -useContext -underBinder x0
  try clear_value x0
  extract_lets +onlyGivenNames -merge -useContext -underBinder x1
  try clear_value x1
  extract_lets +onlyGivenNames -merge -useContext -underBinder x2
  have k3 : Keeps L r (x2) := (keeps_pulseIf _ _ (Sub.trans (by decide) hL) h)
  try clear_value x2
  extract_lets +onlyGivenNames -merge -useContext -underBinder x4
  have k5 : Keeps L r (x4) := (keeps_eventTicks _ _ _ (Sub.trans (by decide) hL) (keeps_forAll _ _ k3 fun y7 y8 b9 k6 => (keeps_blankEvent _ _ _ _ (Sub.trans (by decide) hL) k6)))
  try clear_value x4
  exact (keeps_forAll _ _ k5 fun y11 y12 b13 k10 => (Keeps.ite (keeps_groupFire _ _ _ (Sub.trans (by decide) hL) k10) k10))

theorem keeps_carZero {L : List Part} {r s : State} (g : Nat) (edge : Nat) (fine : Nat)
    (hL : Sub [.eng, .engR, .legR, .leg, .attic, .happened, .now, .car, .carR, .free, .aisR, .crier, .cmpR, .cmp, .aisle, .trpR, .trip, .knrR, .celR, .cellar, .ring, .atcR, .mem, .stlR, .wdtR, .cnv, .cnvR] L) (h : Keeps L r s) : Keeps L r (State.carZero s g edge fine) := by
  unfold State.carZero
  extract_lets +onlyGivenNames -merge -useContext -underBinder x0
  extract_lets +onlyGivenNames -merge -useContext -underBinder x1
  have k2 : Keeps L r (x1) := (keeps_aisleTime _ (Sub.trans (by decide) hL) h)
  try clear_value x1
  extract_lets +onlyGivenNames -merge -useContext -underBinder x3
  have k4 : Keeps L r (x3) := (keeps_modCar _ _ (Sub.trans (by decide) hL) k2)
  try clear_value x3
  extract_lets +onlyGivenNames -merge -useContext -underBinder x5
  have k6 : Keeps L r (x5) := (keeps_countWrap _ _ _ (hL _ (by decide)) (in_car (hL _ (by decide)) (by decide)) (keeps_takeShadows _ (Sub.trans (by decide) hL) (keeps_setB _ _ _ (in_car (hL _ (by decide)) (by decide)) (keeps_setB _ _ _ (in_car (hL _ (by decide)) (by decide)) k4))))
  try clear_value x5
  extract_lets +onlyGivenNames -merge -useContext -underBinder x7
  have k8 : Keeps2 L r (x7) := (Keeps2.ite (keeps_slewOf _ _ (Sub.trans (by decide) hL) k6) (Keeps2.mk k6))
  try clear_value x7
  extract_lets +onlyGivenNames -merge -useContext -underBinder x9
  have k10 : Keeps L r (x9) := (keeps_setSlew _ _ (Sub.trans (by decide) hL) (keeps_modCar _ _ (Sub.trans (by decide) hL) (Keeps2.out k8)))
  try clear_value x9
  extract_lets +onlyGivenNames -merge -useContext -underBinder x11
  have k12 : Keeps L r (x11) := (keeps_carEvent _ _ _ (Sub.trans (by decide) hL) k10)
  try clear_value x11
  refine keeps_forStalls _ _ (Sub.trans (by decide) hL) k12 ?_
  intro y13 y14 k15
  extract_lets +onlyGivenNames -merge -useContext -underBinder x16
  have k17 : Keeps L r (x16) := (keeps_forAll _ _ k15 fun y19 y20 b21 k18 => (keeps_legEvent _ _ _ (Sub.trans (by decide) hL) k18))
  try clear_value x16
  exact (keeps_cmpCycleRelease _ (Sub.trans (by decide) hL) (keeps_cmpCycleRelease _ (Sub.trans (by decide) hL) k17))

theorem keeps_execZero {L : List Part} {r s : State} (g : Fin 12)
    (hL : Sub [.eng, .engR, .legR, .leg, .attic, .happened, .now, .car, .carR, .free, .aisR, .crier, .cmpR, .cmp, .aisle, .trpR, .trip, .knrR, .celR, .cellar, .ring, .atcR, .mem, .stlR, .wdtR, .cnv, .cnvR] L) (h : Keeps L r s) : Runs L r (execZero g s) := by
  unfold execZero
  refine Runs.next ?_
  refine Keeps.ite (keeps_carZero _ _ _ (Sub.trans (by decide) hL) h) ?_
  refine Keeps.ite ?_ h
  split
  · exact (keeps_carZero _ _ _ (Sub.trans (by decide) hL) h)

theorem keeps_execLockedCarrierStart {L : List Part} {r s : State} (g : Fin 12)
    (hL : Sub [.eng, .engR, .legR, .leg, .attic, .happened, .now, .car, .carR, .free, .aisR, .crier, .cmpR, .cmp, .aisle, .trpR, .trip, .knrR, .celR, .cellar, .ring, .atcR, .mem, .stlR, .wdtR, .cnv, .cnvR] L) (h : Keeps L r s) : Runs L r (execLockedCarrierStart g s) := by
  unfold execLockedCarrierStart
  refine Runs.next ?_
  refine Keeps.ite ?_ h
  extract_lets +onlyGivenNames -merge -useContext -underBinder x0
  try clear_value x0
  exact (keeps_carZero _ _ _ (Sub.trans (by decide) hL) h)

theorem keeps_execPeriod {L : List Part} {r s : State} (g : Fin 12)
    (hL : Sub [.eng, .engR, .legR, .leg, .attic, .happened, .now, .car, .crier, .cmpR, .cmp, .aisle, .trpR, .trip, .knrR, .celR, .cellar, .ring, .atcR, .mem, .stlR, .wdtR, .aisR, .cnv, .cnvR, .carR] L) (h : Keeps L r s) : Runs L r (execPeriod g s) := by
  unfold execPeriod
  refine Runs.next ?_
  refine Keeps.ite ?_ h
  split
  · extract_lets +onlyGivenNames -merge -useContext -underBinder x0
    have k1 : Keeps L r (x0) := (keeps_aisleTime _ (Sub.trans (by decide) hL) h)
    try clear_value x0
    extract_lets +onlyGivenNames -merge -useContext -underBinder x2
    have k3 : Keeps L r (x2) := (keeps_modCar _ _ (Sub.trans (by decide) hL) k1)
    try clear_value x2
    extract_lets +onlyGivenNames -merge -useContext -underBinder x4
    have k5 : Keeps L r (x4) := (keeps_carEvent _ _ _ (Sub.trans (by decide) hL) (keeps_setB _ _ _ (in_car (hL _ (by decide)) (by decide)) k3))
    try clear_value x4
    exact (keeps_forStalls _ _ (Sub.trans (by decide) hL) k5 (fun y6 y7 k8 => (keeps_forAll _ _ k8 fun y10 y11 b12 k9 => (keeps_legEvent _ _ _ (Sub.trans (by decide) hL) k9))))

theorem keeps_carCompare {L : List Part} {r s : State} (g : Nat) (d : Nat) (ev : Nat)
    (hL : Sub [.crier, .cmpR, .happened, .cmp, .aisle, .trpR, .trip, .knrR, .celR, .cellar, .ring, .attic, .atcR, .mem, .stlR, .wdtR, .aisR, .cnv, .cnvR, .eng, .engR, .legR, .leg, .now] L) (h : Keeps L r s) : Keeps L r (State.carCompare s g d ev) := by
  unfold State.carCompare
  split
  · exact (keeps_carEvent _ _ _ (Sub.trans (by decide) hL) (keeps_aisleTime _ (Sub.trans (by decide) hL) h))

theorem keeps_execEvaUp {L : List Part} {r s : State} (g : Fin 12)
    (hL : Sub [.crier, .cmpR, .happened, .cmp, .aisle, .trpR, .trip, .knrR, .celR, .cellar, .ring, .attic, .atcR, .mem, .stlR, .wdtR, .aisR, .cnv, .cnvR, .eng, .engR, .legR, .leg, .now, .car] L) (h : Keeps L r s) : Runs L r (execEvaUp g s) := by
  unfold execEvaUp
  extract_lets +onlyGivenNames -merge -useContext -underBinder x0
  try clear_value x0
  exact (Runs.next (Keeps.ite (keeps_carCompare _ _ _ (Sub.trans (by decide) hL) (keeps_modCar _ _ (Sub.trans (by decide) hL) h)) h))

theorem keeps_execEvaDn {L : List Part} {r s : State} (g : Fin 12)
    (hL : Sub [.crier, .cmpR, .happened, .cmp, .aisle, .trpR, .trip, .knrR, .celR, .cellar, .ring, .attic, .atcR, .mem, .stlR, .wdtR, .aisR, .cnv, .cnvR, .eng, .engR, .legR, .leg, .now, .car] L) (h : Keeps L r s) : Runs L r (execEvaDn g s) := by
  unfold execEvaDn
  extract_lets +onlyGivenNames -merge -useContext -underBinder x0
  try clear_value x0
  exact (Runs.next (Keeps.ite (keeps_carCompare _ _ _ (Sub.trans (by decide) hL) (keeps_modCar _ _ (Sub.trans (by decide) hL) h)) h))

theorem keeps_execEvbUp {L : List Part} {r s : State} (g : Fin 12)
    (hL : Sub [.crier, .cmpR, .happened, .cmp, .aisle, .trpR, .trip, .knrR, .celR, .cellar, .ring, .attic, .atcR, .mem, .stlR, .wdtR, .aisR, .cnv, .cnvR, .eng, .engR, .legR, .leg, .now, .car] L) (h : Keeps L r s) : Runs L r (execEvbUp g s) := by
  unfold execEvbUp
  extract_lets +onlyGivenNames -merge -useContext -underBinder x0
  try clear_value x0
  exact (Runs.next (Keeps.ite (keeps_carCompare _ _ _ (Sub.trans (by decide) hL) (keeps_modCar _ _ (Sub.trans (by decide) hL) h)) h))

theorem keeps_execEvbDn {L : List Part} {r s : State} (g : Fin 12)
    (hL : Sub [.crier, .cmpR, .happened, .cmp, .aisle, .trpR, .trip, .knrR, .celR, .cellar, .ring, .attic, .atcR, .mem, .stlR, .wdtR, .aisR, .cnv, .cnvR, .eng, .engR, .legR, .leg, .now, .car] L) (h : Keeps L r s) : Runs L r (execEvbDn g s) := by
  unfold execEvbDn
  extract_lets +onlyGivenNames -merge -useContext -underBinder x0
  try clear_value x0
  exact (Runs.next (Keeps.ite (keeps_carCompare _ _ _ (Sub.trans (by decide) hL) (keeps_modCar _ _ (Sub.trans (by decide) hL) h)) h))

theorem keeps_carCntClr {L : List Part} {r s : State} (g : Nat)
    (hL : Sub [.carR] L) (h : Keeps L r s) : Keeps L r (State.carCntClr s g) := by
  unfold State.carCntClr
  exact (keeps_clearCount _ _ (in_car (hL _ (by decide)) (by decide)) h)

theorem keeps_execCarCntClr {L : List Part} {r s : State} (init : Fin 16) (g : Fin 12)
    (hL : Sub [.sysR, .happened, .carR] L) (h : Keeps L r s) : Runs L r (execCarCntClr init g s) := by
  unfold execCarCntClr
  exact (Runs.next (keeps_onCommand _ _ _ (Sub.trans (by decide) hL) h (fun y0 k1 => (keeps_carCntClr _ (Sub.trans (by decide) hL) k1))))

theorem keeps_sgFire {L : List Part} {r s : State} (a : Nat) (groups : Nat)
    (hL : Sub [.aisR, .aisle, .happened, .cnv, .cnvR] L) (h : Keeps L r s) : Keeps L r (State.sgFire s a groups) := by
  unfold State.sgFire
  exact (Keeps.ite h (Keeps.ite (keeps_setB _ _ _ (in_ais (hL _ (by decide)) (by decide)) h) (keeps_forAll _ _ h fun y1 y2 b3 k0 => (Keeps.ite (keeps_groupFire _ _ _ (Sub.trans (by decide) hL) k0) k0))))

theorem keeps_execSgFire {L : List Part} {r s : State} (init : Fin 16) (a : Fin 3) (groups : BitVec 4)
    (hL : Sub [.sysR, .happened, .aisR, .aisle, .cnv, .cnvR] L) (h : Keeps L r s) : Runs L r (execSgFire init a groups s) := by
  unfold execSgFire
  exact (Runs.next (keeps_onCommand _ _ _ (Sub.trans (by decide) hL) h (fun y0 k1 => (keeps_sgFire _ _ (Sub.trans (by decide) hL) k1))))

theorem keeps_sgClr {L : List Part} {r s : State} (a : Nat) (groups : Nat)
    (hL : Sub [.aisR] L) (h : Keeps L r s) : Keeps L r (State.sgClr s a groups) := by
  unfold State.sgClr
  exact (keeps_forAll _ _ h fun y1 y2 b3 k0 => (Keeps.ite (keeps_clearCount _ _ (in_ais (hL _ (by decide)) (off_at (n := 4072) (by omega) (by decide))) (keeps_clearCount _ _ (in_ais (hL _ (by decide)) (off_at (n := 4072) (by omega) (by decide))) k0)) k0))

theorem keeps_execSgClr {L : List Part} {r s : State} (init : Fin 16) (a : Fin 3) (groups : BitVec 4)
    (hL : Sub [.sysR, .happened, .aisR] L) (h : Keeps L r s) : Runs L r (execSgClr init a groups s) := by
  unfold execSgClr
  exact (Runs.next (keeps_onCommand _ _ _ (Sub.trans (by decide) hL) h (fun y0 k1 => (keeps_sgClr _ _ (Sub.trans (by decide) hL) k1))))

theorem keeps_aisCmd {L : List Part} {r s : State} (a : Nat) (value : Nat)
    (hL : Sub [.aisR, .aisle, .happened, .cnv, .cnvR] L) (h : Keeps L r s) : Keeps L r (State.aisCmd s a value) := by
  unfold State.aisCmd
  exact (Keeps.ite h (keeps_blkClr _ _ (Sub.trans (by decide) hL) (keeps_sgClr _ _ (Sub.trans (by decide) hL) (keeps_sgFire _ _ (Sub.trans (by decide) hL) h))))

theorem keeps_aisEnable {L : List Part} {r s : State} (a : Nat)
    (hL : Sub [.aisR] L) (h : Keeps L r s) : Keeps L r (State.aisEnable s a) := by
  unfold State.aisEnable
  exact (keeps_setB _ _ _ (in_ais (hL _ (by decide)) (by decide)) h)

theorem keeps_aisChanged {L : List Part} {r s : State} (a : Nat)
    (hL : Sub [.cnv, .cnvR, .aisR, .trpR, .legR, .leg, .attic] L) (h : Keeps L r s) : Keeps L r (State.aisChanged s a) := by
  unfold State.aisChanged
  extract_lets +onlyGivenNames -merge -useContext -underBinder x0
  have k1 : Keeps L r (x0) := by
    unfold x0
    refine keeps_forAll _ _ h ?_
    intro y3 y4 b5 k2
    extract_lets +onlyGivenNames -merge -useContext -underBinder x6
    try clear_value x6
    exact (keeps_cnvStatus _ (Sub.trans (by decide) hL) (Keeps.ite (keeps_modCnv _ _ (Sub.trans (by decide) hL) k2) k2))
  try clear_value x0
  refine keeps_forAll _ _ k1 ?_
  intro y8 y9 b10 k7
  extract_lets +onlyGivenNames -merge -useContext -underBinder x11
  try clear_value x11
  exact (keeps_unhold _ (Sub.trans (by decide) hL) (Keeps.ite (keeps_legRefresh _ (Sub.trans (by decide) hL) k7) k7))

theorem keeps_execPhaseMeasurement {L : List Part} {r s : State} (a : Fin 3) (lag : Fin 65)
    (hL : Sub [.aisle, .aisR] L) (h : Keeps L r s) : Runs L r (execPhaseMeasurement a lag s) := by
  unfold execPhaseMeasurement
  extract_lets +onlyGivenNames -merge -useContext -underBinder x0
  try clear_value x0
  exact (Runs.next (Keeps.ite (keeps_modAisle _ _ (Sub.trans (by decide) hL) (keeps_setB _ _ _ (in_ais (hL _ (by decide)) (by decide)) (keeps_setF _ _ _ (in_ais (hL _ (by decide)) (by decide)) h))) h))

theorem keeps_execPhaseValidExpiry {L : List Part} {r s : State} (a : Fin 3)
    (hL : Sub [.aisR, .now] L) (h : Keeps L r s) : Runs L r (execPhaseValidExpiry a s) := by
  unfold execPhaseValidExpiry
  exact (Runs.next (Keeps.ite (keeps_setB _ _ _ (in_ais (hL _ (by decide)) (by decide)) (keeps_atTime _ (Sub.trans (by decide) hL) h)) h))

end Sys2Proof.Laws
end

