-- ==== Sys2Proof/Laws/KeepCellar.lean ====
section
/-! SUPPORT. What the operations of Machine/Cellar.lean may change, and what they keep (see Keeps.lean). -/

namespace Sys2Proof.Laws

open Sys2Proof Sys2Proof.Machine Sys2Proof.Safety

theorem keeps_takeRecords {L : List Part} {r s : State} (v1 : SnapRun)
    (hL : Sub [.mem, .cellar] L) (h : Keeps L r s) : Keeps L r (State.takeRecords s v1) := by
  unfold State.takeRecords
  extract_lets +onlyGivenNames -merge -useContext -underBinder x0
  try clear_value x0
  extract_lets +onlyGivenNames -merge -useContext -underBinder x1
  try clear_value x1
  extract_lets +onlyGivenNames -merge -useContext -underBinder x2
  have k3 : Keeps L r (x2) := (keeps_setWords _ _ (Sub.trans (by decide) hL) h)
  try clear_value x2
  exact (Keeps.set_cellar (hL _ (by decide)) k3)

theorem keeps_recapture {L : List Part} {r s : State} 
    (hL : Sub [.mem, .cellar] L) (h : Keeps L r s) : Keeps L r (State.recapture s) := by
  unfold State.recapture
  split
  · exact (Keeps.ite (keeps_takeRecords _ (Sub.trans (by decide) hL) h) h)
  · exact h

theorem keeps_startSnap {L : List Part} {r s : State} (cause : Nat) (target : Fin 3)
    (hL : Sub [.mem, .cellar, .celR] L) (h : Keeps L r s) : Keeps L r (State.startSnap s cause target) := by
  unfold State.startSnap
  extract_lets +onlyGivenNames -merge -useContext -underBinder x0
  have k1 : Keeps L r (x0) := (keeps_takeRecords _ (Sub.trans (by decide) hL) h)
  try clear_value x0
  extract_lets +onlyGivenNames -merge -useContext -underBinder x2
  have k3 : Keeps L r (x2) := (Keeps.ite (keeps_setB _ _ _ (in_cel (hL _ (by decide)) (by decide)) k1) (keeps_setBit _ _ _ _ (in_cel (hL _ (by decide)) (by decide)) k1))
  try clear_value x2
  exact (keeps_setB _ _ _ (in_cel (hL _ (by decide)) (by decide)) k3)

theorem keeps_requestSnap {L : List Part} {r s : State} (cause : Nat) (toDefaults : Bool)
    (hL : Sub [.cellar, .celR, .mem] L) (h : Keeps L r s) : Keeps L r (State.requestSnap s cause toDefaults) := by
  unfold State.requestSnap
  split
  · exact (Keeps.ite (Keeps.set_cellar (hL _ (by decide)) h) (keeps_setB _ _ _ (in_cel (hL _ (by decide)) (by decide)) h))
  · exact (keeps_startSnap _ _ (Sub.trans (by decide) hL) h)

theorem keeps_execSnapshot {L : List Part} {r s : State} (init : Fin 16)
    (hL : Sub [.sysR, .happened, .cellar, .celR, .mem] L) (h : Keeps L r s) : Runs L r (execSnapshot init s) := by
  unfold execSnapshot
  exact (Runs.next (keeps_onCommand _ _ _ (Sub.trans (by decide) hL) h (fun y0 k1 => (keeps_requestSnap _ _ (Sub.trans (by decide) hL) k1))))

theorem keeps_execDefSave {L : List Part} {r s : State} (init : Fin 16)
    (hL : Sub [.sysR, .happened, .cellar, .celR, .mem] L) (h : Keeps L r s) : Runs L r (execDefSave init s) := by
  unfold execDefSave
  exact (Runs.next (keeps_onCommand _ _ _ (Sub.trans (by decide) hL) h (fun y0 k1 => (keeps_requestSnap _ _ (Sub.trans (by decide) hL) k1))))

theorem keeps_powerFails {L : List Part} {r s : State} 
    (hL : Sub [.celR, .aisle, .crier, .cellar, .stlR, .wdtR, .happened, .mem] L) (h : Keeps L r s) : Keeps L r (State.powerFails s) := by
  unfold State.powerFails
  extract_lets +onlyGivenNames -merge -useContext -underBinder x0
  have k1 : Keeps L r (x0) := (keeps_condUpdate _ (Sub.trans (by decide) hL) (keeps_disarm _ (Sub.trans (by decide) hL) (keeps_setB _ _ _ (in_cel (hL _ (by decide)) (by decide)) h)))
  try clear_value x0
  refine Keeps.ite ?_ k1
  split
  · exact (Keeps.set_cellar (hL _ (by decide)) k1)
  · exact (keeps_startSnap _ _ (Sub.trans (by decide) hL) k1)

theorem keeps_pfailPassed {L : List Part} {r s : State} 
    (hL : Sub [.cellar] L) (h : Keeps L r s) : Keeps L r (State.pfailPassed s) := by
  unfold State.pfailPassed
  exact (Keeps.set_cellar (hL _ (by decide)) h)

theorem keeps_execPfailNFall {L : List Part} {r s : State} 
    (hL : Sub [.celR, .aisle, .crier, .cellar, .stlR, .wdtR, .happened, .mem] L) (h : Keeps L r s) : Runs L r (execPfailNFall s) := by
  unfold execPfailNFall
  exact (Runs.next (Keeps.ite (keeps_powerFails (Sub.trans (by decide) hL) (keeps_pfailPassed (Sub.trans (by decide) hL) h)) h))

theorem keeps_execPfailNRise {L : List Part} {r s : State} 
    (hL : Sub [.celR, .aisle, .crier, .cellar, .stlR, .wdtR, .happened] L) (h : Keeps L r s) : Runs L r (execPfailNRise s) := by
  unfold execPfailNRise
  exact (Runs.next (Keeps.ite (keeps_condUpdate _ (Sub.trans (by decide) hL) (keeps_setB _ _ _ (in_cel (hL _ (by decide)) (by decide)) (keeps_pfailPassed (Sub.trans (by decide) hL) h))) h))

theorem keeps_ledgerWrite {L : List Part} {r s : State} 
    (hL : Sub [.cellar, .mem, .celR, .happened, .crier] L) (h : Keeps L r s) : Keeps L r (State.ledgerWrite s) := by
  unfold State.ledgerWrite
  split
  · extract_lets +onlyGivenNames -merge -useContext -underBinder x0
    try clear_value x0
    extract_lets +onlyGivenNames -merge -useContext -underBinder x1
    try clear_value x1
    extract_lets +onlyGivenNames -merge -useContext -underBinder x2
    try clear_value x2
    extract_lets +onlyGivenNames -merge -useContext -underBinder x3 x4
    have k5 : Keeps L r (x4) := (Keeps.set_cellar (hL _ (by decide)) h)
    try clear_value x4
    extract_lets +onlyGivenNames -merge -useContext -underBinder x6
    have k7 : Keeps L r (x6) := (keeps_setBytes _ _ _ (Sub.trans (by decide) hL) k5)
    try clear_value x6
    extract_lets +onlyGivenNames -merge -useContext -underBinder x8
    have k9 : Keeps L r (x8) := (keeps_setF _ _ _ (in_cel (hL _ (by decide)) (by decide)) k7)
    try clear_value x8
    extract_lets +onlyGivenNames -merge -useContext -underBinder x10
    have k11 : Keeps L r (x10) := (Keeps.ite (keeps_countSat _ _ _ (hL _ (by decide)) (in_cel (hL _ (by decide)) (by decide)) k9) (keeps_countSat _ _ _ (hL _ (by decide)) (in_cel (hL _ (by decide)) (by decide)) k9))
    try clear_value x10
    exact (keeps_celPulse _ (Sub.trans (by decide) hL) k11)
  · exact h

theorem keeps_execLedgerEntryWrite {L : List Part} {r s : State} 
    (hL : Sub [.cellar, .mem, .celR, .happened, .crier] L) (h : Keeps L r s) : Runs L r (execLedgerEntryWrite s) := by
  unfold execLedgerEntryWrite
  exact (Runs.next (keeps_ledgerWrite (Sub.trans (by decide) hL) h))

theorem keeps_execLedgerClr {L : List Part} {r s : State} (init : Fin 16)
    (hL : Sub [.sysR, .happened, .celR] L) (h : Keeps L r s) : Runs L r (execLedgerClr init s) := by
  unfold execLedgerClr
  exact (Runs.next (keeps_onCommand _ _ _ (Sub.trans (by decide) hL) h (fun y0 k1 => (keeps_clearCount _ _ (in_cel (hL _ (by decide)) (by decide)) k1))))

theorem keeps_ledgerCntClr {L : List Part} {r s : State} 
    (hL : Sub [.celR] L) (h : Keeps L r s) : Keeps L r (State.ledgerCntClr s) := by
  unfold State.ledgerCntClr
  exact (keeps_clearCount _ _ (in_cel (hL _ (by decide)) (by decide)) (keeps_clearCount _ _ (in_cel (hL _ (by decide)) (by decide)) h))

theorem keeps_execCelCntClr {L : List Part} {r s : State} (init : Fin 16)
    (hL : Sub [.sysR, .happened, .celR] L) (h : Keeps L r s) : Runs L r (execCelCntClr init s) := by
  unfold execCelCntClr
  exact (Runs.next (keeps_onCommand _ _ _ (Sub.trans (by decide) hL) h (fun y0 k1 => (keeps_ledgerCntClr (Sub.trans (by decide) hL) k1))))

theorem keeps_wdtExpire {L : List Part} {r s : State} (n : Fin 5) (cause : Nat)
    (hL : Sub [.cellar] L) (h : Keeps L r s) : Keeps L r (State.wdtExpire s n cause) := by
  unfold State.wdtExpire
  exact (Keeps.set_cellar (hL _ (by decide)) h)

theorem keeps_wdtService {L : List Part} {r s : State} (n : Fin 5) (value : Nat)
    (hL : Sub [.wdtR, .cellar] L) (h : Keeps L r s) : Keeps L r (State.wdtService s n value) := by
  unfold State.wdtService
  refine Keeps.ite ?_ (keeps_wdtExpire _ _ (Sub.trans (by decide) hL) h)
  refine Keeps.ite ?_ (keeps_wdtExpire _ _ (Sub.trans (by decide) hL) h)
  extract_lets +onlyGivenNames -merge -useContext -underBinder x0
  try clear_value x0
  exact (keeps_wdtReload _ (Sub.trans (by decide) hL) (Keeps.set_cellar (hL _ (by decide)) h))

theorem keeps_wdtTick {L : List Part} {r s : State} (n : Fin 5) (frozen : Bool) (openPulse : State → State)
    (hL : Sub [.wdtR, .cellar] L) (h : Keeps L r s) (h3 : ∀ x0, Keeps L r x0 → Keeps L r (openPulse x0)) : Keeps L r (State.wdtTick s n frozen openPulse) := by
  unfold State.wdtTick
  extract_lets +onlyGivenNames -merge -useContext -underBinder x0
  try clear_value x0
  refine Keeps.ite h ?_
  extract_lets +onlyGivenNames -merge -useContext -underBinder x1
  have k2 : Keeps L r (x1) := (keeps_wdtStatus _ (Sub.trans (by decide) hL) (keeps_setF _ _ _ (in_wdt (hL _ (by decide)) (by decide)) h))
  try clear_value x1
  extract_lets +onlyGivenNames -merge -useContext -underBinder x3
  have k4 : Keeps L r (x3) := (Keeps.ite (h3 _ k2) k2)
  try clear_value x3
  exact (Keeps.ite (keeps_wdtExpire _ _ (Sub.trans (by decide) hL) k4) k4)

theorem keeps_wdtCount {L : List Part} {r s : State} (n : Fin 5)
    (hL : Sub [.now, .cellar] L) (h : Keeps L r s) : Keeps L r (State.wdtCount s n) := by
  unfold State.wdtCount
  extract_lets +onlyGivenNames -merge -useContext -underBinder x0
  try clear_value x0
  extract_lets +onlyGivenNames -merge -useContext -underBinder x1
  try clear_value x1
  extract_lets +onlyGivenNames -merge -useContext -underBinder x2
  have k3 : Keeps L r (x2) := (keeps_atTime _ (Sub.trans (by decide) hL) h)
  try clear_value x2
  exact (Keeps.set_cellar (hL _ (by decide)) k3)

theorem keeps_execService {L : List Part} {r s : State} (init : Fin 16) (value : Word)
    (hL : Sub [.sysR, .happened, .wdtR, .cellar] L) (h : Keeps L r s) : Runs L r (execService init value s) := by
  unfold execService
  exact (Runs.next (keeps_onCommand _ _ _ (Sub.trans (by decide) hL) h (fun y0 k1 => (keeps_wdtService _ _ (Sub.trans (by decide) hL) k1))))

theorem keeps_scheduleReset {L : List Part} {r s : State} (type : Nat) (at_ : Nat)
    (hL : Sub [.cellar] L) (h : Keeps L r s) : Keeps L r (State.scheduleReset s type at_) := by
  unfold State.scheduleReset
  split
  · exact (Keeps.ite h (Keeps.set_cellar (hL _ (by decide)) h))
  · exact (Keeps.set_cellar (hL _ (by decide)) h)

theorem keeps_execWatchdogExpiry {L : List Part} {r s : State} 
    (hL : Sub [.cellar, .celR, .happened, .aisle, .crier, .stlR, .wdtR] L) (h : Keeps L r s) : Runs L r (execWatchdogExpiry s) := by
  unfold execWatchdogExpiry
  refine Runs.next ?_
  split
  · exact h
  · extract_lets +onlyGivenNames -merge -useContext -underBinder x0
    have k1 : Keeps L r (x0) := (keeps_scheduleReset _ _ (Sub.trans (by decide) hL) (keeps_ledger _ _ _ _ (Sub.trans (by decide) hL) (keeps_disarm _ (Sub.trans (by decide) hL) h)))
    try clear_value x0
    exact (Keeps.set_cellar (hL _ (by decide)) k1)

theorem keeps_execCoreWatchdogService {L : List Part} {r s : State} (init : Fin 16) (n : Fin 4) (value : Word)
    (hL : Sub [.sysR, .happened, .wdtR, .cellar] L) (h : Keeps L r s) : Runs L r (execCoreWatchdogService init n value s) := by
  unfold execCoreWatchdogService
  exact (Runs.next (keeps_onCommand _ _ _ (Sub.trans (by decide) hL) h (fun y0 k1 => (Keeps.ite (keeps_wdtService _ _ (Sub.trans (by decide) hL) k1) k1))))

end Sys2Proof.Laws
end

