-- ==== Sys2Proof/Laws/KeepCrier.lean ====
section
/-! SUPPORT. What the operations of Machine/Crier.lean may change, and what they keep (see Keeps.lean). -/

namespace Sys2Proof.Laws

open Sys2Proof Sys2Proof.Machine Sys2Proof.Safety

theorem keeps_wakeAll {L : List Part} {r s : State} 
    (hL : Sub [.core] L) (h : Keeps L r s) : Keeps L r (State.wakeAll s) := by
  unfold State.wakeAll
  exact (keeps_forAll _ _ h fun y1 y2 b3 k0 => (Keeps.ite (keeps_modCore _ _ (Sub.trans (by decide) hL) k0) k0))

theorem keeps_levelPend {L : List Part} {r s : State} (n : Nat)
    (hL : Sub [.criR] L) (h : Keeps L r s) : Keeps L r (State.levelPend s n) := by
  unfold State.levelPend
  exact (Keeps.ite (keeps_pend _ (Sub.trans (by decide) hL) h) h)

theorem keeps_setLine {L : List Part} {r s : State} (n : Nat) (v : Bool)
    (hL : Sub [.criR] L) (h : Keeps L r s) : Keeps L r (State.setLine s n v) := by
  unfold State.setLine
  split
  · rename_i k
    have := sourceExists_lt' k
    exact keeps_levelPend _ (Sub.trans (by decide) hL) (keeps_setSrcBit _ _ _ (hL _ (by decide)) (by decide) (by omega)
      (Keeps.ite (keeps_setSrcBit _ _ _ (hL _ (by decide)) (by decide) (by omega) h) h))
  · exact h

theorem sourceMask_word {w b : Nat} (h : (sourceMask w).testBit b = true) : w < 6 := by
  unfold sourceMask at h
  split at h
  · omega
  · split at h
    · omega
    · split at h
      · omega
      · simp at h

theorem keeps_overMask {L : List Part} {r s : State} (w mask : Nat) (act : State → Nat → State) (h : Keeps L r s)
    (k : ∀ x n, n < 256 → Keeps L r x → Keeps L r (act x n)) : Keeps L r (s.overMask w mask act) := by
  unfold State.overMask
  refine Keeps.foldl_range (fun x i hi hx => ?_) h
  split
  · rename_i hc
    simp only [Bool.and_eq_true] at hc
    have := sourceMask_word hc.2
    exact k x _ (by omega) hx
  · exact hx

theorem keeps_criPendSet {L : List Part} {r s : State} (w : Nat) (mask : Nat)
    (hL : Sub [.criR] L) (h : Keeps L r s) : Keeps L r (State.criPendSet s w mask) := by
  unfold State.criPendSet
  exact (keeps_overMask _ _ _ h fun y1 y2 b3 k0 => (keeps_pend _ (Sub.trans (by decide) hL) k0))

theorem keeps_criPendClr {L : List Part} {r s : State} (w : Nat) (mask : Nat)
    (hL : Sub [.criR, .core] L) (h : Keeps L r s) : Keeps L r (State.criPendClr s w mask) := by
  unfold State.criPendClr
  exact (keeps_overMask _ _ _ (keeps_wakeAll (Sub.trans (by decide) hL) h) fun y1 y2 b3 k0 => (keeps_levelPend _ (Sub.trans (by decide) hL) (keeps_setSrcBit _ _ _ (hL _ (by decide)) (by decide) (by omega) k0)))

theorem keeps_criEnSet {L : List Part} {r s : State} (w : Nat) (mask : Nat)
    (hL : Sub [.criR] L) (h : Keeps L r s) : Keeps L r (State.criEnSet s w mask) := by
  unfold State.criEnSet
  exact (keeps_overMask _ _ _ h fun y1 y2 b3 k0 => (keeps_setSrcBit _ _ _ (hL _ (by decide)) (by decide) (by omega) k0))

theorem keeps_criEnClr {L : List Part} {r s : State} (w : Nat) (mask : Nat)
    (hL : Sub [.criR, .core] L) (h : Keeps L r s) : Keeps L r (State.criEnClr s w mask) := by
  unfold State.criEnClr
  exact (keeps_overMask _ _ _ (keeps_wakeAll (Sub.trans (by decide) hL) h) fun y1 y2 b3 k0 => (keeps_setSrcBit _ _ _ (hL _ (by decide)) (by decide) (by omega) k0))

theorem keeps_criClaim {L : List Part} {r s : State} (init : Nat) (c : Nat) (v : Nat) (peek : Bool)
    (hL : Sub [.criR] L) (h : Keeps L r s) : Keeps2 L r (State.criClaim s init c v peek) := by
  have hw : s.winner c v < 256 := by
    unfold State.winner
    cases e : (List.range 187).find? fun n => s.offered c v n with
    | none => simp
    | some n =>
      have := List.mem_range.1 (List.mem_of_find?_eq_some e)
      simp
      omega
  unfold State.criClaim
  extract_lets +onlyGivenNames -merge -useContext -underBinder n
  have hn : n < 256 := hw
  clear_value n
  refine Keeps2.ite (Keeps2.mk h) (Keeps2.mk ?_)
  exact keeps_setF _ _ _ (in_cri (hL _ (by decide)) (off_at (n := 16776192) (by omega) (by decide)))
    (keeps_setF _ _ _ (in_cri (hL _ (by decide)) (off_at (n := 16776192) (by omega) (by decide)))
      (keeps_setSrcBit _ _ _ (hL _ (by decide)) (by decide) (by omega)
        (keeps_setSrcBit _ _ _ (hL _ (by decide)) (by decide) (by omega) h)))

theorem keeps_criRelease {L : List Part} {r s : State} (n : Nat)
    (hL : Sub [.criR, .crier] L) (hn : n < 256) (h : Keeps L r s) : Keeps L r (State.criRelease s n) := by
  unfold State.criRelease
  extract_lets +onlyGivenNames -merge -useContext -underBinder x0
  have k1 : Keeps L r (x0) := (keeps_levelPend _ (Sub.trans (by decide) hL) (keeps_setF _ _ _ (in_cri (hL _ (by decide)) (off_at (n := 16776192) (by omega) (by decide))) (keeps_setSrcBit _ _ _ (hL _ (by decide)) (by decide) (by omega) h)))
  try clear_value x0
  extract_lets +onlyGivenNames -merge -useContext -underBinder x2
  try clear_value x2
  extract_lets +onlyGivenNames -merge -useContext -underBinder x3
  try clear_value x3
  exact (Keeps.set_crier (hL _ (by decide)) k1)

theorem keeps_criComplete {L : List Part} {r s : State} (init : Nat) (c : Nat) (v : Nat) (value : Nat)
    (hL : Sub [.criR, .crier, .happened] L) (h : Keeps L r s) : Keeps L r (State.criComplete s init c v value) := by
  unfold State.criComplete
  refine Keeps.ite h ?_
  extract_lets +onlyGivenNames -merge -useContext -underBinder n
  split
  · rename_i k
    simp only [Bool.and_eq_true] at k
    exact keeps_criRelease _ (Sub.trans (by decide) hL) (sourceExists_lt' k.1.1.1) h
  · exact keeps_countSat _ _ _ (hL _ (by decide)) (in_cri (hL _ (by decide)) (by decide)) (keeps_setF _ _ _ (in_cri (hL _ (by decide)) (by decide))
      (keeps_setF _ _ _ (in_cri (hL _ (by decide)) (by decide)) (keeps_setF _ _ _ (in_cri (hL _ (by decide)) (by decide)) h)))

theorem keeps_criCoreReset {L : List Part} {r s : State} (c : Nat)
    (hL : Sub [.criR] L) (h : Keeps L r s) : Keeps L r (State.criCoreReset s c) := by
  unfold State.criCoreReset
  exact (Keeps.foldl_range (fun y0 y1 b3 k2 => (Keeps.ite (keeps_levelPend _ (Sub.trans (by decide) hL) (keeps_setF _ _ _ (in_cri (hL _ (by decide)) (off_at (n := 16776192) (by omega) (by decide))) (keeps_setSrcBit _ _ _ (hL _ (by decide)) (by decide) (by omega) k2))) k2)) h)

theorem keeps_criDoorbell {L : List Part} {r s : State} (value : Nat)
    (hL : Sub [.criR] L) (h : Keeps L r s) : Keeps L r (State.criDoorbell s value) := by
  unfold State.criDoorbell
  exact (Keeps.ite h (Keeps.foldl_range (fun y0 y1 b3 k2 => (Keeps.ite (keeps_pend _ (Sub.trans (by decide) hL) k2) k2)) h))

theorem keeps_criExtCfg {L : List Part} {r s : State} (i : Nat) (value : Nat)
    (hL : Sub [.criR, .warranted, .crier] L) (h : Keeps L r s) : Keeps L r (State.criExtCfg s i value) := by
  unfold State.criExtCfg
  extract_lets +onlyGivenNames -merge -useContext -underBinder x0
  try clear_value x0
  extract_lets +onlyGivenNames -merge -useContext -underBinder x1
  try clear_value x1
  extract_lets +onlyGivenNames -merge -useContext -underBinder x2
  have k3 : Keeps L r (x2) := (keeps_setF _ _ _ (in_cri (hL _ (by decide)) (off_at (n := 16777152) (by omega) (by decide))) (keeps_must _ (Sub.trans (by decide) hL) h))
  try clear_value x2
  extract_lets +onlyGivenNames -merge -useContext -underBinder x4 x5
  have k6 : Keeps L r (x5) := (Keeps.set_crier (hL _ (by decide)) k3)
  try clear_value x5
  extract_lets +onlyGivenNames -merge -useContext -underBinder x7
  try clear_value x7
  exact (Keeps.ite (keeps_setLine _ _ (Sub.trans (by decide) hL) k6) (Keeps.ite (keeps_setLine _ _ (Sub.trans (by decide) hL) k6) (keeps_setSrcBit _ _ _ (hL _ (by decide)) (by decide) (by omega) k6)))

theorem keeps_criExtPass {L : List Part} {r s : State} (i : Nat) (level : Bool)
    (hL : Sub [.crier, .criR] L) (h : Keeps L r s) : Keeps L r (State.criExtPass s i level) := by
  unfold State.criExtPass
  extract_lets +onlyGivenNames -merge -useContext -underBinder x0
  try clear_value x0
  extract_lets +onlyGivenNames -merge -useContext -underBinder x1
  try clear_value x1
  extract_lets +onlyGivenNames -merge -useContext -underBinder x2
  try clear_value x2
  extract_lets +onlyGivenNames -merge -useContext -underBinder x3 x4
  have k5 : Keeps L r (x4) := (Keeps.set_crier (hL _ (by decide)) h)
  try clear_value x4
  extract_lets +onlyGivenNames -merge -useContext -underBinder x6
  try clear_value x6
  extract_lets +onlyGivenNames -merge -useContext -underBinder x7
  try clear_value x7
  exact (Keeps.ite (keeps_setLine _ _ (Sub.trans (by decide) hL) k5) (Keeps.ite (keeps_setLine _ _ (Sub.trans (by decide) hL) k5) (Keeps.ite (Keeps.ite (keeps_pend _ (Sub.trans (by decide) hL) k5) k5) (Keeps.ite (Keeps.ite (keeps_pend _ (Sub.trans (by decide) hL) k5) k5) (Keeps.ite (Keeps.ite (keeps_pend _ (Sub.trans (by decide) hL) k5) k5) k5)))))

theorem keeps_execPulseSource {L : List Part} {r s : State} (n : Fin 256)
    (hL : Sub [.crier, .criR] L) (h : Keeps L r s) : Runs L r (execPulseSource n s) := by
  unfold execPulseSource
  refine Runs.next ?_
  refine Keeps.ite ?_ h
  extract_lets +onlyGivenNames -merge -useContext -underBinder x0 x1
  have k2 : Keeps L r (x1) := (Keeps.set_crier (hL _ (by decide)) h)
  try clear_value x1
  exact (Keeps.ite (keeps_pend _ (Sub.trans (by decide) hL) k2) k2)

theorem keeps_execPendSet {L : List Part} {r s : State} (init : Fin 16) (w : Fin 8) (mask : Word)
    (hL : Sub [.sysR, .happened, .criR] L) (h : Keeps L r s) : Runs L r (execPendSet init w mask s) := by
  unfold execPendSet
  exact (Runs.next (keeps_onCommand _ _ _ (Sub.trans (by decide) hL) h (fun y0 k1 => (keeps_criPendSet _ _ (Sub.trans (by decide) hL) k1))))

theorem keeps_execPendClr {L : List Part} {r s : State} (init : Fin 16) (w : Fin 8) (mask : Word)
    (hL : Sub [.sysR, .happened, .criR, .core] L) (h : Keeps L r s) : Runs L r (execPendClr init w mask s) := by
  unfold execPendClr
  exact (Runs.next (keeps_onCommand _ _ _ (Sub.trans (by decide) hL) h (fun y0 k1 => (keeps_criPendClr _ _ (Sub.trans (by decide) hL) k1))))

theorem keeps_execEnSet {L : List Part} {r s : State} (init : Fin 16) (w : Fin 8) (mask : Word)
    (hL : Sub [.sysR, .happened, .criR] L) (h : Keeps L r s) : Runs L r (execEnSet init w mask s) := by
  unfold execEnSet
  exact (Runs.next (keeps_onCommand _ _ _ (Sub.trans (by decide) hL) h (fun y0 k1 => (keeps_criEnSet _ _ (Sub.trans (by decide) hL) k1))))

theorem keeps_execEnClr {L : List Part} {r s : State} (init : Fin 16) (w : Fin 8) (mask : Word)
    (hL : Sub [.sysR, .happened, .criR, .core] L) (h : Keeps L r s) : Runs L r (execEnClr init w mask s) := by
  unfold execEnClr
  exact (Runs.next (keeps_onCommand _ _ _ (Sub.trans (by decide) hL) h (fun y0 k1 => (keeps_criEnClr _ _ (Sub.trans (by decide) hL) k1))))

theorem keeps_execClaim {L : List Part} {r s : State} (init : Fin 16) (c : Fin 4) (v : Fin 8) (peek : Bool)
    (hL : Sub [.readData, .sysR, .happened, .criR] L) (h : Keeps L r s) : Runs L r (execClaim init c v peek s) := by
  unfold execClaim
  exact (Runs.next (keeps_onRead _ _ _ (Sub.trans (by decide) hL) h (fun y0 k1 => (keeps_criClaim _ _ _ _ (Sub.trans (by decide) hL) k1))))

theorem keeps_execComplete {L : List Part} {r s : State} (init : Fin 16) (c : Fin 4) (v : Fin 8) (value : Word)
    (hL : Sub [.sysR, .happened, .criR, .crier] L) (h : Keeps L r s) : Runs L r (execComplete init c v value s) := by
  unfold execComplete
  exact (Runs.next (keeps_onCommand _ _ _ (Sub.trans (by decide) hL) h (fun y0 k1 => (keeps_criComplete _ _ _ _ (Sub.trans (by decide) hL) k1))))

theorem keeps_execDoorbell {L : List Part} {r s : State} (init : Fin 16) (value : Word)
    (hL : Sub [.sysR, .happened, .criR] L) (h : Keeps L r s) : Runs L r (execDoorbell init value s) := by
  unfold execDoorbell
  exact (Runs.next (keeps_onCommand _ _ _ (Sub.trans (by decide) hL) h (fun y0 k1 => (keeps_criDoorbell _ (Sub.trans (by decide) hL) k1))))

theorem keeps_execExtCfg {L : List Part} {r s : State} (init : Fin 16) (i : Fin 8) (value : Word)
    (hL : Sub [.sysR, .happened, .criR, .warranted, .crier] L) (h : Keeps L r s) : Runs L r (execExtCfg init i value s) := by
  unfold execExtCfg
  exact (Runs.next (keeps_onCommand _ _ _ (Sub.trans (by decide) hL) h (fun y0 k1 => (keeps_criExtCfg _ _ (Sub.trans (by decide) hL) k1))))

theorem keeps_execExtintEdge {L : List Part} {r s : State} (i : Fin 8) (x : BallLevel)
    (hL : Sub [.crier, .criR] L) (h : Keeps L r s) : Runs L r (execExtintEdge i x s) := by
  unfold execExtintEdge
  extract_lets +onlyGivenNames -merge -useContext -underBinder x0
  try clear_value x0
  exact (Runs.next (Keeps.ite (keeps_criExtPass _ _ (Sub.trans (by decide) hL) h) h))

end Sys2Proof.Laws
end

