-- ==== Sys2Proof/Laws/KeepControl.lean ====
section
/-! SUPPORT. What the operations of Machine/Control.lean may change, and what they keep (see Keeps.lean). -/

namespace Sys2Proof.Laws

open Sys2Proof Sys2Proof.Machine Sys2Proof.Safety

theorem keeps_writeSaved {L : List Part} {r s : State} (c : Nat) (v : Nat) (i : Nat) (w : Word)
    (hL : Sub [.core, .warranted] L) (h : Keeps L r s) : Keeps L r (State.writeSaved s c v i w) := by
  unfold State.writeSaved
  extract_lets +onlyGivenNames -merge -useContext -underBinder x0
  try clear_value x0
  extract_lets +onlyGivenNames -merge -useContext -underBinder x1
  try clear_value x1
  extract_lets +onlyGivenNames -merge -useContext -underBinder x2
  try clear_value x2
  split
  · exact (keeps_modCore _ _ (Sub.trans (by decide) hL) (keeps_must _ (Sub.trans (by decide) hL) h))

theorem keeps_writeLow {L : List Part} {r s : State} (c : Nat) (n : Nat) (w : Word)
    (hL : Sub [.warranted, .core] L) (h : Keeps L r s) : Keeps L r (State.writeLow s c n w) := by
  unfold State.writeLow
  extract_lets +onlyGivenNames -merge -useContext -underBinder x0
  try clear_value x0
  extract_lets +onlyGivenNames -merge -useContext -underBinder x1
  have k2 : ∀ y3, Keeps L r (x1 y3) := by
    intro y3
    unfold x1
    exact (keeps_must _ (Sub.trans (by decide) hL) h)
  try clear_value x1
  split
  · exact (keeps_modCore _ _ (Sub.trans (by decide) hL) (keeps_must _ (Sub.trans (by decide) hL) h))
  · exact (keeps_modCore _ _ (Sub.trans (by decide) hL) h)
  · exact (keeps_modCore _ _ (Sub.trans (by decide) hL) (k2 _))
  · exact (keeps_modCore _ _ (Sub.trans (by decide) hL) (k2 _))
  · exact (keeps_modCore _ _ (Sub.trans (by decide) hL) h)
  · exact (keeps_modCore _ _ (Sub.trans (by decide) hL) (k2 _))
  · exact (keeps_modCore _ _ (Sub.trans (by decide) hL) (k2 _))
  · exact (keeps_modCore _ _ (Sub.trans (by decide) hL) h)
  · exact h

end Sys2Proof.Laws
end

