-- ==== Sys2Proof/Laws/KeepLevels.lean ====
section
/-! SUPPORT. What the operations of Machine/Levels.lean may change, and what they keep (see Keeps.lean). -/

namespace Sys2Proof.Laws

open Sys2Proof Sys2Proof.Machine Sys2Proof.Safety

theorem keeps_loseAccesses {L : List Part} {r s : State} (i : Island)
    (hL : Sub [.core] L) (h : Keeps L r s) : Keeps L r (State.loseAccesses s i) := by
  unfold State.loseAccesses
  exact (keeps_forAll _ _ h fun y1 y2 b3 k0 => (keeps_modCore _ _ (Sub.trans (by decide) hL) k0))

theorem keeps_monRequest {L : List Part} {r s : State} (c : Nat) (reason : Nat) (unit : Nat)
    (hL : Sub [.dbgR, .core] L) (h : Keeps L r s) : Keeps L r (State.monRequest s c reason unit) := by
  unfold State.monRequest
  exact (Keeps.ite h (keeps_setF _ _ _ (in_dbg (hL _ (by decide)) (off_at (n := 16776952) (by omega) (by decide))) (keeps_setF _ _ _ (in_dbg (hL _ (by decide)) (off_at (n := 16776952) (by omega) (by decide))) (keeps_modCore _ _ (Sub.trans (by decide) hL) h))))

theorem keeps_traceItem {L : List Part} {r s : State} (c : Nat) (kind : Nat) (from_ : Nat) (to_ : Nat)
    (hL : Sub [.dbg, .dbgR, .happened] L) (h : Keeps L r s) : Keeps L r (State.traceItem s c kind from_ to_) := by
  unfold State.traceItem
  extract_lets +onlyGivenNames -merge -useContext -underBinder x0
  try clear_value x0
  extract_lets +onlyGivenNames -merge -useContext -underBinder x1
  try clear_value x1
  refine Keeps.ite ?_ h
  refine Keeps.ite (Keeps.set_debug (hL _ (by decide)) h) ?_
  extract_lets +onlyGivenNames -merge -useContext -underBinder x2
  have k3 : Keeps L r (x2) := (keeps_countSat _ _ _ (hL _ (by decide)) (in_dbg (hL _ (by decide)) (by decide)) h)
  try clear_value x2
  exact (Keeps.set_debug (hL _ (by decide)) k3)

theorem keeps_startCoreReset {L : List Part} {r s : State} (c : Nat) (cause : Nat)
    (hL : Sub [.criR, .sysR, .celR, .cellar, .happened, .core, .ode, .wdtR] L) (h : Keeps L r s) : Keeps L r (State.startCoreReset s c cause) := by
  unfold State.startCoreReset
  extract_lets +onlyGivenNames -merge -useContext -underBinder x0
  try clear_value x0
  extract_lets +onlyGivenNames -merge -useContext -underBinder x1
  have k2 : Keeps L r (x1) := (keeps_criCoreReset _ (Sub.trans (by decide) hL) (keeps_setIsland _ _ (Sub.trans (by decide) hL) h))
  try clear_value x1
  extract_lets +onlyGivenNames -merge -useContext -underBinder x3
  have k4 : Keeps L r (x3) := (keeps_setF _ _ _ (in_cel (hL _ (by decide)) (by show CEL.RST_CAUSE.CORE.off < _; decide)) k2)
  try clear_value x3
  extract_lets +onlyGivenNames -merge -useContext -underBinder x5
  have k6 : Keeps L r (x5) := (Keeps.ite k4 (keeps_ledger _ _ _ _ (Sub.trans (by decide) hL) k4))
  try clear_value x5
  extract_lets +onlyGivenNames -merge -useContext -underBinder x7
  have k8 : Keeps L r (x7) := (keeps_modCore _ _ (Sub.trans (by decide) hL) k6)
  try clear_value x7
  extract_lets +onlyGivenNames -merge -useContext -underBinder x9 x10
  have k11 : Keeps L r (x10) := (Keeps.set_ode (hL _ (by decide)) k8)
  try clear_value x10
  exact (keeps_frozenUpdate (Sub.trans (by decide) hL) (Keeps.set_cellar (hL _ (by decide)) k11))

theorem keeps_monEntered {L : List Part} {r s : State} (c : Nat)
    (hL : Sub [.dbg] L) (h : Keeps L r s) : Keeps L r (State.monEntered s c) := by
  unfold State.monEntered
  exact (Keeps.set_debug (hL _ (by decide)) h)

theorem keeps_leaveMon {L : List Part} {r s : State} (c : Nat)
    (hL : Sub [.wdtR] L) (h : Keeps L r s) : Keeps L r (State.leaveMon s c) := by
  unfold State.leaveMon
  exact (Keeps.ite (keeps_wdtReload _ (Sub.trans (by decide) hL) h) h)

theorem keeps_romHandler {L : List Part} {r s : State} (c : Nat) (code : Nat) (spc : Nat)
    (hL : Sub [.criR, .sysR, .celR, .cellar, .happened, .core, .ode, .wdtR] L) (h : Keeps L r s) : Keeps L r (State.romHandler s c code spc) := by
  unfold State.romHandler
  exact (Keeps.ite (keeps_startCoreReset _ _ (Sub.trans (by decide) hL) (keeps_ledger _ _ _ _ (Sub.trans (by decide) hL) h)) h)

theorem keeps_enterLevel {L : List Part} {r s : State} (c : Nat) (lvl : Nat) (fault : Bool) (trap : Bool) (p : Position) (y : Syndrome)
    (hL : Sub [.core, .dbg, .dbgR, .happened, .cellar, .celR, .criR, .sysR, .ode, .wdtR] L) (h : Keeps L r s) : Keeps L r (State.enterLevel s c lvl fault trap p y) := by
  unfold State.enterLevel
  extract_lets +onlyGivenNames -merge -useContext -underBinder x0
  extract_lets +onlyGivenNames -merge -useContext -underBinder x1
  extract_lets +onlyGivenNames -merge -useContext -underBinder x2
  extract_lets +onlyGivenNames -merge -useContext -underBinder x3
  extract_lets +onlyGivenNames -merge -useContext -underBinder x4
  extract_lets +onlyGivenNames -merge -useContext -underBinder x5
  have k6 : Keeps L r (x5) := (keeps_modCore _ _ (Sub.trans (by decide) hL) h)
  extract_lets +onlyGivenNames -merge -useContext -underBinder x7
  have k8 : Keeps L r (x7) := (keeps_traceItem _ _ _ _ (Sub.trans (by decide) hL) k6)
  extract_lets +onlyGivenNames -merge -useContext -underBinder x9
  have k10 : Keeps L r (x9) := (Keeps.ite (keeps_ledger _ _ _ _ (Sub.trans (by decide) hL) k8) k8)
  extract_lets +onlyGivenNames -merge -useContext -underBinder x11
  have k12 : Keeps L r (x11) := (Keeps.ite (keeps_monEntered _ (Sub.trans (by decide) hL) (keeps_modCore _ _ (Sub.trans (by decide) hL) k10)) (keeps_romHandler _ _ _ (Sub.trans (by decide) hL) k10))
  exact (keeps_frozenUpdate (Sub.trans (by decide) hL) k12)

theorem keeps_takeException {L : List Part} {r s : State} (c : Nat) (p : Position) (y : Syndrome)
    (hL : Sub [.criR, .sysR, .celR, .cellar, .happened, .core, .ode, .wdtR, .dbgR, .dbg] L) (h : Keeps L r s) : Keeps L r (State.takeException s c p y) := by
  unfold State.takeException
  extract_lets +onlyGivenNames -merge -useContext -underBinder x0
  extract_lets +onlyGivenNames -merge -useContext -underBinder x1
  extract_lets +onlyGivenNames -merge -useContext -underBinder x2
  refine Keeps.ite (keeps_startCoreReset _ _ (Sub.trans (by decide) hL) (keeps_ledger _ _ _ _ (Sub.trans (by decide) hL) h)) ?_
  extract_lets +onlyGivenNames -merge -useContext -underBinder x3
  have k4 : Keeps L r (x3) := (Keeps.ite (keeps_modCore _ _ (Sub.trans (by decide) hL) (keeps_monRequest _ _ _ (Sub.trans (by decide) hL) h)) h)
  exact (Keeps.ite (keeps_enterLevel _ _ _ _ _ _ (Sub.trans (by decide) hL) k4) (keeps_enterLevel _ _ _ _ _ _ (Sub.trans (by decide) hL) k4))

theorem keeps_retiOnce {L : List Part} {r s : State} (c : Nat)
    (hL : Sub [.core, .wdtR, .dbg, .criR, .sysR, .celR, .cellar, .happened, .ode, .dbgR] L) (h : Keeps L r s) : Keeps L r (State.retiOnce s c) := by
  unfold State.retiOnce
  extract_lets +onlyGivenNames -merge -useContext -underBinder x0
  have k1 : Keeps L r (x0) := (keeps_modCore _ _ (Sub.trans (by decide) hL) h)
  extract_lets +onlyGivenNames -merge -useContext -underBinder x2
  extract_lets +onlyGivenNames -merge -useContext -underBinder x3
  extract_lets +onlyGivenNames -merge -useContext -underBinder x4
  extract_lets +onlyGivenNames -merge -useContext -underBinder x5
  extract_lets +onlyGivenNames -merge -useContext -underBinder x6
  extract_lets +onlyGivenNames -merge -useContext -underBinder x7
  extract_lets +onlyGivenNames -merge -useContext -underBinder x8
  extract_lets +onlyGivenNames -merge -useContext -underBinder x9
  extract_lets +onlyGivenNames -merge -useContext -underBinder x10
  extract_lets +onlyGivenNames -merge -useContext -underBinder x11
  extract_lets +onlyGivenNames -merge -useContext -underBinder x12
  extract_lets +onlyGivenNames -merge -useContext -underBinder x13
  refine Keeps.ite ?_ ?_
  · extract_lets +onlyGivenNames -merge -useContext -underBinder x14
    extract_lets +onlyGivenNames -merge -useContext -underBinder x15
    extract_lets +onlyGivenNames -merge -useContext -underBinder x16
    have k17 : Keeps L r (x16) := (keeps_modCore _ _ (Sub.trans (by decide) hL) k1)
    extract_lets +onlyGivenNames -merge -useContext -underBinder x18
    have k19 : Keeps L r (x18) := (Keeps.ite (keeps_leaveMon _ (Sub.trans (by decide) hL) k17) k17)
    exact (keeps_frozenUpdate (Sub.trans (by decide) hL) (Keeps.ite (keeps_monEntered _ (Sub.trans (by decide) hL) k19) (keeps_romHandler _ _ _ (Sub.trans (by decide) hL) k19)))
  · extract_lets +onlyGivenNames -merge -useContext -underBinder x20
    extract_lets +onlyGivenNames -merge -useContext -underBinder x21
    extract_lets +onlyGivenNames -merge -useContext -underBinder x22
    extract_lets +onlyGivenNames -merge -useContext -underBinder x23
    extract_lets +onlyGivenNames -merge -useContext -underBinder x24
    extract_lets +onlyGivenNames -merge -useContext -underBinder x25
    extract_lets +onlyGivenNames -merge -useContext -underBinder x26
    extract_lets +onlyGivenNames -merge -useContext -underBinder x27
    have k28 : Keeps L r (x27) := (keeps_modCore _ _ (Sub.trans (by decide) hL) k1)
    extract_lets +onlyGivenNames -merge -useContext -underBinder x29
    have k30 : Keeps L r (x29) := (keeps_frozenUpdate (Sub.trans (by decide) hL) (Keeps.ite (keeps_leaveMon _ (Sub.trans (by decide) hL) k28) k28))
    extract_lets +onlyGivenNames -merge -useContext -underBinder x31
    have k32 : Keeps L r (x31) := (keeps_traceItem _ _ _ _ (Sub.trans (by decide) hL) k30)
    exact (Keeps.ite (keeps_takeException _ _ _ (Sub.trans (by decide) hL) k32) k32)

theorem keeps_monLeave {L : List Part} {r s : State} (c : Nat) (step : Bool)
    (hL : Sub [.core, .wdtR, .dbg, .criR, .sysR, .celR, .cellar, .happened, .ode, .dbgR] L) (h : Keeps L r s) : Keeps L r (State.monLeave s c step) := by
  unfold State.monLeave
  extract_lets +onlyGivenNames -merge -useContext -underBinder x0
  try clear_value x0
  extract_lets +onlyGivenNames -merge -useContext -underBinder x1
  try clear_value x1
  exact (keeps_retiOnce _ (Sub.trans (by decide) hL) (keeps_modCore _ _ (Sub.trans (by decide) hL) h))

theorem keeps_reti {L : List Part} {r s : State} (c : Nat)
    (hL : Sub [.core, .wdtR, .dbg, .criR, .sysR, .celR, .cellar, .happened, .ode, .dbgR] L) (h : Keeps L r s) : Keeps L r (State.reti s c) := by
  unfold State.reti
  extract_lets +onlyGivenNames -merge -useContext -underBinder x0
  have k1 : Keeps L r (x0) := (keeps_retiOnce _ (Sub.trans (by decide) hL) h)
  try clear_value x0
  extract_lets +onlyGivenNames -merge -useContext -underBinder x2
  try clear_value x2
  split
  · exact (Keeps.ite (keeps_monLeave _ _ (Sub.trans (by decide) hL) k1) k1)
  · exact k1

theorem keeps_interrupt {L : List Part} {r s : State} (c : Nat) (v : Nat)
    (hL : Sub [.core, .dbg, .dbgR, .happened, .cellar, .celR, .criR, .sysR, .ode, .wdtR] L) (h : Keeps L r s) : Keeps L r (State.interrupt s c v) := by
  unfold State.interrupt
  exact (keeps_enterLevel _ _ _ _ _ _ (Sub.trans (by decide) hL) h)

theorem keeps_monitorEntry {L : List Part} {r s : State} (c : Nat)
    (hL : Sub [.core, .dbg, .dbgR, .happened, .cellar, .celR, .criR, .sysR, .ode, .wdtR] L) (h : Keeps L r s) : Keeps L r (State.monitorEntry s c) := by
  unfold State.monitorEntry
  exact (keeps_enterLevel _ _ _ _ _ _ (Sub.trans (by decide) hL) h)

theorem keeps_raiseLost {L : List Part} {r s : State} (c : Nat) (o : Outstanding)
    (hL : Sub [.core, .sysR, .happened, .criR, .celR, .cellar, .ode, .wdtR, .dbgR, .dbg] L) (h : Keeps L r s) : Keeps L r (State.raiseLost s c o) := by
  unfold State.raiseLost
  extract_lets +onlyGivenNames -merge -useContext -underBinder x0
  have k1 : Keeps L r (x0) := (keeps_modCore _ _ (Sub.trans (by decide) hL) (keeps_busError _ _ _ _ (Sub.trans (by decide) hL) h))
  try clear_value x0
  exact (keeps_takeException _ _ _ (Sub.trans (by decide) hL) k1)

theorem keeps_settled {L : List Part} {r s : State} (c : Nat) (act : State → State)
    (hL : Sub [.core, .sysR, .happened, .criR, .celR, .cellar, .ode, .wdtR, .dbgR, .dbg] L) (h : Keeps L r s) (h2 : ∀ x0, Keeps L r x0 → Keeps L r (act x0)) : Keeps L r (State.settled s c act) := by
  unfold State.settled
  refine Keeps.ite ?_ h
  extract_lets +onlyGivenNames -merge -useContext -underBinder x0
  have k1 : Keeps L r (x0) := (keeps_modCore _ _ (Sub.trans (by decide) hL) h)
  try clear_value x0
  split
  · exact (keeps_raiseLost _ _ (Sub.trans (by decide) hL) k1)
  · exact (h2 _ k1)

theorem keeps_execInterruptEntry {L : List Part} {r s : State} (c : Fin 4) (shadowNext : Bool)
    (hL : Sub [.core, .sysR, .happened, .criR, .celR, .cellar, .ode, .wdtR, .dbgR, .dbg] L) (h : Keeps L r s) : Runs L r (execInterruptEntry c shadowNext s) := by
  unfold execInterruptEntry
  extract_lets +onlyGivenNames -merge -useContext -underBinder x0
  try clear_value x0
  extract_lets +onlyGivenNames -merge -useContext -underBinder x1
  try clear_value x1
  exact (Runs.next (Keeps.ite (keeps_settled _ _ (Sub.trans (by decide) hL) h (fun y2 k3 => (keeps_interrupt _ _ (Sub.trans (by decide) hL) k3))) h))

theorem keeps_execMonitorEntry {L : List Part} {r s : State} (c : Fin 4) (shadowNext : Bool)
    (hL : Sub [.core, .sysR, .happened, .criR, .celR, .cellar, .ode, .wdtR, .dbgR, .dbg] L) (h : Keeps L r s) : Runs L r (execMonitorEntry c shadowNext s) := by
  unfold execMonitorEntry
  extract_lets +onlyGivenNames -merge -useContext -underBinder x0
  try clear_value x0
  exact (Runs.next (Keeps.ite (keeps_settled _ _ (Sub.trans (by decide) hL) h (fun y1 k2 => (keeps_monitorEntry _ (Sub.trans (by decide) hL) k2))) h))

theorem keeps_execMaskOverrun {L : List Part} {r s : State} (c : Fin 4) (shadowNext : Bool)
    (hL : Sub [.core, .sysR, .happened, .criR, .celR, .cellar, .ode, .wdtR, .dbgR, .dbg, .now] L) (h : Keeps L r s) : Runs L r (execMaskOverrun c shadowNext s) := by
  unfold execMaskOverrun
  extract_lets +onlyGivenNames -merge -useContext -underBinder x0
  try clear_value x0
  extract_lets +onlyGivenNames -merge -useContext -underBinder x1
  try clear_value x1
  exact (Runs.next (Keeps.ite (keeps_settled _ _ (Sub.trans (by decide) hL) h (fun y2 k3 => (keeps_takeException _ _ _ (Sub.trans (by decide) hL) (keeps_atTime _ (Sub.trans (by decide) hL) k3)))) h))

theorem keeps_execAccessAcknowledge {L : List Part} {r s : State} (c : Fin 4)
    (hL : Sub [.core, .sysR, .happened, .criR, .celR, .cellar, .ode, .wdtR, .dbgR, .dbg] L) (h : Keeps L r s) : Runs L r (execAccessAcknowledge c s) := by
  unfold execAccessAcknowledge
  refine Runs.next ?_
  split
  · exact h
  · exact (Keeps.ite (keeps_raiseLost _ _ (Sub.trans (by decide) hL) h) (keeps_modCore _ _ (Sub.trans (by decide) hL) h))

theorem keeps_execImpreciseStoreError {L : List Part} {r s : State} (c : Fin 4) (shadowNext : Bool)
    (hL : Sub [.core, .sysR, .happened, .criR, .celR, .cellar, .ode, .wdtR, .dbgR, .dbg] L) (h : Keeps L r s) : Runs L r (execImpreciseStoreError c shadowNext s) := by
  unfold execImpreciseStoreError
  extract_lets +onlyGivenNames -merge -useContext -underBinder x0
  try clear_value x0
  refine Runs.next ?_
  split
  · exact h
  · exact (Keeps.ite (keeps_settled _ _ (Sub.trans (by decide) hL) h (fun y1 k2 => (keeps_takeException _ _ _ (Sub.trans (by decide) hL) (keeps_modCore _ _ (Sub.trans (by decide) hL) k2)))) h)

end Sys2Proof.Laws
end

