-- ==== Sys2Proof/Laws/KeepDictionary.lean ====
section
/-! SUPPORT. What the operations of Machine/Dictionary.lean may change, and what they keep (see Keeps.lean). -/

namespace Sys2Proof.Laws

open Sys2Proof Sys2Proof.Machine Sys2Proof.Safety

theorem keeps_modOde {L : List Part} {r s : State} (f : Ode → Ode)
    (hL : Sub [.ode] L) (h : Keeps L r s) : Keeps L r (State.modOde s f) := by
  unfold State.modOde
  exact (Keeps.set_ode (hL _ (by decide)) h)

theorem keeps_odeAborted {L : List Part} {r s : State} (code : Nat) (index : Nat) (sub : Nat) (init : Nat)
    (hL : Sub [.odeR, .happened] L) (h : Keeps L r s) : Keeps L r (State.odeAborted s code index sub init) := by
  unfold State.odeAborted
  exact (keeps_setF _ _ _ (in_ode (hL _ (by decide)) (by decide)) (keeps_setF _ _ _ (in_ode (hL _ (by decide)) (by decide)) (keeps_setF _ _ _ (in_ode (hL _ (by decide)) (by decide)) (keeps_setF _ _ _ (in_ode (hL _ (by decide)) (by decide)) (keeps_countSat _ _ _ (hL _ (by decide)) (in_ode (hL _ (by decide)) (by decide)) h)))))

theorem keeps_odeStatus {L : List Part} {r s : State} 
    (hL : Sub [.odeR] L) (h : Keeps L r s) : Keeps L r (State.odeStatus s) := by
  unfold State.odeStatus
  extract_lets +onlyGivenNames -merge -useContext -underBinder x0
  try clear_value x0
  extract_lets +onlyGivenNames -merge -useContext -underBinder x1
  have k2 : Keeps L r (x1) := (keeps_setF _ _ _ (in_ode (hL _ (by decide)) (by decide)) h)
  try clear_value x1
  exact (keeps_setB _ _ _ (in_ode (hL _ (by decide)) (by decide)) (keeps_setB _ _ _ (in_ode (hL _ (by decide)) (by decide)) k2))

theorem keeps_odEnded {L : List Part} {r s : State} (init : Nat) (index : Nat) (sub : Nat) (v4 : OdResult)
    (hL : Sub [.odeR, .happened] L) (h : Keeps L r s) : Keeps L r (State.odEnded s init index sub v4) := by
  unfold State.odEnded
  split
  · exact (keeps_countSat _ _ _ (hL _ (by decide)) (in_ode (hL _ (by decide)) (by decide)) h)
  · exact (keeps_odeAborted _ _ _ _ (Sub.trans (by decide) hL) h)
  · exact h

theorem keeps_odSend {L : List Part} {r s : State} (m : RingMsg) (p : List (BitVec 8))
    (hL : Sub [.ring] L) (h : Keeps L r s) : Keeps L r (State.odSend s m p) := by
  unfold State.odSend
  exact (keeps_modRing _ (Sub.trans (by decide) hL) h)

theorem keeps_odFinish {L : List Part} {r s : State} (m : RingMsg) (p : List (BitVec 8))
    (hL : Sub [.odeR, .ring, .ode] L) (h : Keeps L r s) : Keeps L r (State.odFinish s m p) := by
  unfold State.odFinish
  extract_lets +onlyGivenNames -merge -useContext -underBinder x0
  try clear_value x0
  exact (keeps_odeStatus (Sub.trans (by decide) hL) (keeps_odSend _ _ (Sub.trans (by decide) hL) (keeps_modOde _ (Sub.trans (by decide) hL) h)))

theorem keeps_odAnswer {L : List Part} {r s : State} (m : RingMsg) (v2 : OdResult)
    (hL : Sub [.odeR, .happened, .ring, .ode] L) (h : Keeps L r s) : Keeps L r (State.odAnswer s m v2) := by
  unfold State.odAnswer
  extract_lets +onlyGivenNames -merge -useContext -underBinder x0
  have k1 : Keeps L r (x0) := (keeps_odEnded _ _ _ _ (Sub.trans (by decide) hL) h)
  try clear_value x0
  split
  · exact (keeps_odFinish _ _ (Sub.trans (by decide) hL) k1)
  · exact (keeps_odFinish _ _ (Sub.trans (by decide) hL) k1)
  · exact (keeps_odeStatus (Sub.trans (by decide) hL) (keeps_modOde _ (Sub.trans (by decide) hL) k1))

theorem keeps_odServe {L : List Part} {r s : State} (v1 : Nat)
    (hL : Sub [.odeR, .ring, .ode, .happened] L) (h : Keeps L r s) : Keeps L r (State.odServe s v1) := by
  induction v1 generalizing s with
  | zero => exact h
  | succ n ih =>
    rw [State.odServe]
    split
    · exact h
    · split
      · exact ih (keeps_odeStatus (Sub.trans (by decide) hL) (keeps_odSend _ _ (Sub.trans (by decide) hL) (keeps_modOde _ (Sub.trans (by decide) hL) h)))
      · exact Keeps.ite h (ih (keeps_odAnswer _ _ (Sub.trans (by decide) hL) h))

theorem keeps_odArrive {L : List Part} {r s : State} (m : RingMsg)
    (hL : Sub [.ring, .odeR, .ode, .happened] L) (h : Keeps L r s) : Keeps L r (State.odArrive s m) := by
  unfold State.odArrive
  split
  · exact (keeps_odSend _ _ (Sub.trans (by decide) hL) h)
  · exact (Keeps.ite (keeps_odServe _ (Sub.trans (by decide) hL) (keeps_odeStatus (Sub.trans (by decide) hL) (keeps_modOde _ (Sub.trans (by decide) hL) h))) (keeps_odSend _ _ (Sub.trans (by decide) hL) (keeps_odeAborted _ _ _ _ (Sub.trans (by decide) hL) h)))

theorem keeps_usdoReply {L : List Part} {r s : State} (v1 : UsdoReply)
    (hL : Sub [.free, .ode] L) (h : Keeps L r s) : Keeps L r (State.usdoReply s v1) := by
  unfold State.usdoReply
  have k : ∀ v : Ode, Keeps L r { s with free := s.free + 17, ode := v } := fun v => Keeps.addFree (s := { s with ode := v }) (hL _ (by decide)) (Keeps.set_ode (hL _ (by decide)) h)
  exact k _

theorem keeps_usdoValue {L : List Part} {r s : State} (client : Nat) (t : UsdoTransfer) (d : List (BitVec 8))
    (hL : Sub [.free, .ode] L) (h : Keeps L r s) : Keeps L r (State.usdoValue s client t d) := by
  unfold State.usdoValue
  exact (Keeps.ite (keeps_usdoReply _ (Sub.trans (by decide) hL) (keeps_modOde _ (Sub.trans (by decide) hL) h)) (keeps_usdoReply _ (Sub.trans (by decide) hL) (keeps_modOde _ (Sub.trans (by decide) hL) h)))

theorem keeps_usdoResult {L : List Part} {r s : State} (t : UsdoTransfer) (v2 : OdResult) (local_ : Bool)
    (hL : Sub [.odeR, .happened, .ode, .free] L) (h : Keeps L r s) : Keeps L r (State.usdoResult s t v2 local_) := by
  unfold State.usdoResult
  extract_lets +onlyGivenNames -merge -useContext -underBinder x0
  have k1 : Keeps L r (x0) := (Keeps.ite (keeps_odEnded _ _ _ _ (Sub.trans (by decide) hL) h) h)
  try clear_value x0
  split
  · extract_lets +onlyGivenNames -merge -useContext -underBinder x2
    have k3 : Keeps L r (x2) := (keeps_modOde _ (Sub.trans (by decide) hL) k1)
    try clear_value x2
    exact (Keeps.ite (keeps_odeStatus (Sub.trans (by decide) hL) (keeps_usdoValue _ _ _ (Sub.trans (by decide) hL) k3)) (keeps_odeStatus (Sub.trans (by decide) hL) (keeps_usdoReply _ (Sub.trans (by decide) hL) (keeps_modOde _ (Sub.trans (by decide) hL) k3))))
  · exact (keeps_odeStatus (Sub.trans (by decide) hL) (keeps_usdoReply _ (Sub.trans (by decide) hL) (keeps_modOde _ (Sub.trans (by decide) hL) k1)))
  · exact (keeps_odeStatus (Sub.trans (by decide) hL) (keeps_modOde _ (Sub.trans (by decide) hL) k1))

theorem keeps_odTaken {L : List Part} {r s : State} (v1 : OdWait)
    (hL : Sub [.ode] L) (h : Keeps L r s) : Keeps L r (State.odTaken s v1) := by
  unfold State.odTaken
  split
  · exact (keeps_modOde _ (Sub.trans (by decide) hL) h)
  · exact h

theorem keeps_odPoll {L : List Part} {r s : State} 
    (hL : Sub [.odeR, .ring, .ode, .happened, .free] L) (h : Keeps L r s) : Keeps L r (State.odPoll s) := by
  unfold State.odPoll
  extract_lets +onlyGivenNames -merge -useContext -underBinder x0
  have k1 : Keeps L r (x0) := by
    unfold x0
    split
    · split
      · exact (keeps_odServe _ (Sub.trans (by decide) hL) (keeps_odAnswer _ _ (Sub.trans (by decide) hL) h))
      · exact h
    · exact h
  try clear_value x0
  split
  · split
    · exact (keeps_usdoResult _ _ _ (Sub.trans (by decide) hL) (keeps_odTaken _ (Sub.trans (by decide) hL) k1))
    · exact k1
  · exact k1

theorem keeps_odReply {L : List Part} {r s : State} (seq : Nat) (p : Option (List (BitVec 8)))
    (hL : Sub [.odeR, .ring, .ode, .happened, .free] L) (h : Keeps L r s) : Keeps L r (State.odReply s seq p) := by
  unfold State.odReply
  exact (keeps_odPoll (Sub.trans (by decide) hL) (keeps_modOde _ (Sub.trans (by decide) hL) h))

end Sys2Proof.Laws
end

