-- ==== Sys2Proof/Laws/KeepRing.lean ====
section
/-! SUPPORT. What the operations of Machine/Ring.lean may change, and what they keep (see Keeps.lean). -/

namespace Sys2Proof.Laws

open Sys2Proof Sys2Proof.Machine Sys2Proof.Safety

theorem keeps_setUse {L : List Part} {r s : State} (p : Nat) (v : Bool)
    (hL : Sub [.ring, .knrR, .happened] L) (h : Keeps L r s) : Keeps L r (State.setUse s p v) := by
  unfold State.setUse
  extract_lets +onlyGivenNames -merge -useContext -underBinder x0
  try clear_value x0
  extract_lets +onlyGivenNames -merge -useContext -underBinder x1
  try clear_value x1
  extract_lets +onlyGivenNames -merge -useContext -underBinder x2
  have k3 : Keeps L r (x2) := (keeps_modRing _ (Sub.trans (by decide) hL) h)
  try clear_value x2
  extract_lets +onlyGivenNames -merge -useContext -underBinder x4
  try clear_value x4
  extract_lets +onlyGivenNames -merge -useContext -underBinder x5
  have k6 : Keeps L r (x5) := (keeps_setB _ _ _ (in_knr (hL _ (by decide)) (by decide)) k3)
  try clear_value x5
  extract_lets +onlyGivenNames -merge -useContext -underBinder x7
  have k8 : Keeps L r (x7) := (Keeps.ite (keeps_countSat _ _ _ (hL _ (by decide)) (in_knr (hL _ (by decide)) (by decide)) k6) k6)
  try clear_value x7
  refine Keeps.ite ?_ k8
  split
  · exact (keeps_setB _ _ _ (in_knr (hL _ (by decide)) (by decide)) (keeps_setB _ _ _ (in_knr (hL _ (by decide)) (by decide)) k8))
  · exact k8

theorem keeps_portDown {L : List Part} {r s : State} (p : Nat)
    (hL : Sub [.knrR, .happened, .ring] L) (h : Keeps L r s) : Keeps L r (State.portDown s p) := by
  unfold State.portDown
  refine Keeps.ite ?_ h
  extract_lets +onlyGivenNames -merge -useContext -underBinder x0
  have k1 : Keeps L r (x0) := (keeps_setB _ _ _ (in_knr (hL _ (by decide)) (off_portUpF _)) h)
  try clear_value x0
  extract_lets +onlyGivenNames -merge -useContext -underBinder x2
  have k3 : Keeps L r (x2) := (keeps_countSat _ _ _ (hL _ (by decide)) (in_knr (hL _ (by decide)) (by show Fld.off (ite _ _ _) < _; split <;> decide)) k1)
  try clear_value x2
  extract_lets +onlyGivenNames -merge -useContext -underBinder x4
  have k5 : Keeps L r (x4) := (keeps_modRing _ (Sub.trans (by decide) hL) k3)
  try clear_value x4
  exact (keeps_setUse _ _ (Sub.trans (by decide) hL) (keeps_transmit _ _ (Sub.trans (by decide) hL) k5))

theorem keeps_execPortDown {L : List Part} {r s : State} (p : Fin 2)
    (hL : Sub [.knrR, .happened, .ring] L) (h : Keeps L r s) : Runs L r (execPortDown p s) := by
  unfold execPortDown
  exact (Runs.next (Keeps.ite (keeps_portDown _ (Sub.trans (by decide) hL) (keeps_setB _ _ _ (in_knr (hL _ (by decide)) (off_blockLockF _)) (keeps_setB _ _ _ (in_knr (hL _ (by decide)) (off_cdrLockF _)) h))) h))

theorem keeps_execLinkFault {L : List Part} {r s : State} (p : Fin 2)
    (hL : Sub [.knrR, .happened, .ring] L) (h : Keeps L r s) : Runs L r (execLinkFault p s) := by
  unfold execLinkFault
  exact (Runs.next (Keeps.ite (keeps_portDown _ (Sub.trans (by decide) hL) (keeps_setB _ _ _ (in_knr (hL _ (by decide)) (off_faultRxF _)) h)) h))

theorem keeps_execPortUp {L : List Part} {r s : State} (p : Fin 2)
    (hL : Sub [.knrR, .ring, .happened] L) (h : Keeps L r s) : Runs L r (execPortUp p s) := by
  unfold execPortUp
  refine Runs.next ?_
  refine Keeps.ite ?_ h
  extract_lets +onlyGivenNames -merge -useContext -underBinder x0
  have k1 : Keeps L r (x0) := (keeps_setB _ _ _ (in_knr (hL _ (by decide)) (off_faultRxF _)) (keeps_setB _ _ _ (in_knr (hL _ (by decide)) (off_blockLockF _)) (keeps_setB _ _ _ (in_knr (hL _ (by decide)) (off_cdrLockF _)) (keeps_setB _ _ _ (in_knr (hL _ (by decide)) (off_portUpF _)) h))))
  try clear_value x0
  extract_lets +onlyGivenNames -merge -useContext -underBinder x2
  have k3 : Keeps L r (x2) := (keeps_transmit _ _ (Sub.trans (by decide) hL) k1)
  try clear_value x2
  exact (Keeps.ite (keeps_modRing _ (Sub.trans (by decide) hL) (keeps_setUse _ _ (Sub.trans (by decide) hL) k3)) k3)

theorem keeps_execUnwrap {L : List Part} {r s : State} (p : Fin 2)
    (hL : Sub [.ring, .knrR, .happened] L) (h : Keeps L r s) : Runs L r (execUnwrap p s) := by
  unfold execUnwrap
  exact (Runs.next (Keeps.ite (keeps_setUse _ _ (Sub.trans (by decide) hL) h) h))

theorem keeps_execIdent {L : List Part} {r s : State} (p : Fin 2) (node : BitVec 7) (up : Bool)
    (hL : Sub [.ring, .knrR] L) (h : Keeps L r s) : Runs L r (execIdent p node up s) := by
  unfold execIdent
  exact (Runs.next (Keeps.ite (keeps_modRing _ (Sub.trans (by decide) hL) (keeps_setF _ _ _ (in_knr (hL _ (by decide)) (off_at (n := 16777088) (by omega) (by decide))) h)) h))

theorem keeps_execDlyReq {L : List Part} {r s : State} (p : Fin 2)
    (hL : Sub [.ring, .free] L) (h : Keeps L r s) : Runs L r (execDlyReq p s) := by
  unfold execDlyReq
  refine Runs.next ?_
  refine Keeps.ite ?_ h
  split
  · exact (keeps_transmit _ _ (Sub.trans (by decide) hL) (Keeps.of_snd (by with_reducible assumption) (keeps_takeFree (Sub.trans (by decide) hL) h)))

theorem keeps_execLinkDelayMeasurement {L : List Part} {r s : State} (p : Fin 2)
    (hL : Sub [.now, .ring] L) (h : Keeps L r s) : Runs L r (execLinkDelayMeasurement p s) := by
  unfold execLinkDelayMeasurement
  refine Runs.next ?_
  refine Keeps.ite ?_ h
  extract_lets +onlyGivenNames -merge -useContext -underBinder x0
  have k1 : Keeps L r (x0) := (Keeps.ite (keeps_atTime _ (Sub.trans (by decide) hL) h) h)
  try clear_value x0
  exact (keeps_modRing _ (Sub.trans (by decide) hL) (keeps_transmit _ _ (Sub.trans (by decide) hL) k1))

theorem keeps_execDlyRsp {L : List Part} {r s : State} (p : Fin 2) (turnaround : Nat)
    (hL : Sub [.knrR] L) (h : Keeps L r s) : Runs L r (execDlyRsp p turnaround s) := by
  unfold execDlyRsp
  exact (Runs.next (Keeps.ite (keeps_setF _ _ _ (in_knr (hL _ (by decide)) (off_at (n := 16777084) (by omega) (by decide))) h) h))

theorem keeps_openNegotiation {L : List Part} {r s : State} 
    (hL : Sub [.odeR, .ode] L) (h : Keeps L r s) : Keeps L r (State.openNegotiation s) := by
  unfold State.openNegotiation
  extract_lets +onlyGivenNames -merge -useContext -underBinder x0
  have k1 : Keeps L r (x0) := (keeps_setB _ _ _ (in_ode (hL _ (by decide)) (by decide)) (keeps_set64 _ _ _ _ (in_ode (hL _ (by decide)) (by decide)) (in_ode (hL _ (by decide)) (by decide)) h))
  try clear_value x0
  extract_lets +onlyGivenNames -merge -useContext -underBinder x2
  have k3 : Keeps L r (x2) := (keeps_setB _ _ _ (in_ode (hL _ (by decide)) (by decide)) k1)
  try clear_value x2
  exact (Keeps.set_ode (hL _ (by decide)) k3)

theorem keeps_endMaster {L : List Part} {r s : State} 
    (hL : Sub [.ring, .knrR] L) (h : Keeps L r s) : Keeps L r (State.endMaster s) := by
  unfold State.endMaster
  exact (Keeps.ite (keeps_modRing _ (Sub.trans (by decide) hL) (keeps_setB _ _ _ (in_knr (hL _ (by decide)) (by decide)) (keeps_setB _ _ _ (in_knr (hL _ (by decide)) (by decide)) h))) h)

theorem keeps_lenUpdate {L : List Part} {r s : State} 
    (hL : Sub [.knrR] L) (h : Keeps L r s) : Keeps L r (State.lenUpdate s) := by
  unfold State.lenUpdate
  exact (keeps_setB _ _ _ (in_knr (hL _ (by decide)) (by decide)) h)

theorem keeps_memberUpdate {L : List Part} {r s : State} 
    (hL : Sub [.knrR, .ring, .odeR, .ode] L) (h : Keeps L r s) : Keeps L r (State.memberUpdate s) := by
  unfold State.memberUpdate
  extract_lets +onlyGivenNames -merge -useContext -underBinder x0
  try clear_value x0
  extract_lets +onlyGivenNames -merge -useContext -underBinder x1
  try clear_value x1
  extract_lets +onlyGivenNames -merge -useContext -underBinder x2
  have k3 : Keeps L r (x2) := (keeps_setB _ _ _ (in_knr (hL _ (by decide)) (by decide)) h)
  try clear_value x2
  extract_lets +onlyGivenNames -merge -useContext -underBinder x4
  have k5 : Keeps L r (x4) := (keeps_setB _ _ _ (in_knr (hL _ (by decide)) (by decide)) (keeps_setF _ _ _ (in_knr (hL _ (by decide)) (by decide)) k3))
  try clear_value x4
  extract_lets +onlyGivenNames -merge -useContext -underBinder x6
  have k7 : Keeps L r (x6) := (keeps_lenUpdate (Sub.trans (by decide) hL) (Keeps.ite k5 (keeps_endMaster (Sub.trans (by decide) hL) k5)))
  try clear_value x6
  extract_lets +onlyGivenNames -merge -useContext -underBinder x8
  have k9 : Keeps L r (x8) := (Keeps.ite (keeps_modRing _ (Sub.trans (by decide) hL) (keeps_openNegotiation (Sub.trans (by decide) hL) k7)) k7)
  try clear_value x8
  exact (keeps_marketAssert (Sub.trans (by decide) hL) k9)

theorem keeps_setMaster {L : List Part} {r s : State} (id : Nat)
    (hL : Sub [.crier, .knrR, .happened] L) (h : Keeps L r s) : Keeps L r (State.setMaster s id) := by
  unfold State.setMaster
  exact (Keeps.ite h (keeps_pulseIf _ _ (Sub.trans (by decide) hL) (keeps_countSat _ _ _ (hL _ (by decide)) (in_knr (hL _ (by decide)) (by decide)) (keeps_setF _ _ _ (in_knr (hL _ (by decide)) (by decide)) h))))

theorem keeps_execBeacon {L : List Part} {r s : State} (node : BitVec 7) (priority : Bool)
    (hL : Sub [.ring] L) (h : Keeps L r s) : Runs L r (execBeacon node priority s) := by
  unfold execBeacon
  refine Runs.next ?_
  refine Keeps.ite ?_ h
  extract_lets +onlyGivenNames -merge -useContext -underBinder x0
  try clear_value x0
  exact (Keeps.ite h (keeps_modRing _ (Sub.trans (by decide) hL) (keeps_transmit _ _ (Sub.trans (by decide) hL) h)))

theorem keeps_becomeMaster {L : List Part} {r s : State} (cycle : Nat) (at_ : Nat) (took : Bool)
    (hL : Sub [.ring, .crier, .knrR, .happened] L) (h : Keeps L r s) : Keeps L r (State.becomeMaster s cycle at_ took) := by
  unfold State.becomeMaster
  exact (keeps_modRing _ (Sub.trans (by decide) hL) (keeps_setMaster _ (Sub.trans (by decide) hL) (keeps_setB _ _ _ (in_knr (hL _ (by decide)) (by decide)) h)))

theorem keeps_execMasterElection {L : List Part} {r s : State} 
    (hL : Sub [.now, .ring, .crier, .knrR, .happened] L) (h : Keeps L r s) : Runs L r (execMasterElection s) := by
  unfold execMasterElection
  refine Runs.next ?_
  refine Keeps.ite ?_ h
  extract_lets +onlyGivenNames -merge -useContext -underBinder x0
  have k1 : Keeps L r (x0) := (keeps_atTime _ (Sub.trans (by decide) hL) h)
  try clear_value x0
  extract_lets +onlyGivenNames -merge -useContext -underBinder x2
  try clear_value x2
  extract_lets +onlyGivenNames -merge -useContext -underBinder x3
  try clear_value x3
  exact (keeps_becomeMaster _ _ _ (Sub.trans (by decide) hL) k1)

theorem keeps_showRx {L : List Part} {r s : State} 
    (hL : Sub [.knrR] L) (h : Keeps L r s) : Keeps L r (State.showRx s) := by
  unfold State.showRx
  extract_lets +onlyGivenNames -merge -useContext -underBinder x0
  have k1 : Keeps L r (x0) := (keeps_setF _ _ _ (in_knr (hL _ (by decide)) (by decide)) h)
  try clear_value x0
  split
  · exact k1
  · extract_lets +onlyGivenNames -merge -useContext -underBinder x2
    have k3 : Keeps L r (x2) := (keeps_setF _ _ _ (in_knr (hL _ (by decide)) (by decide)) (keeps_setF _ _ _ (in_knr (hL _ (by decide)) (by decide)) (keeps_setF _ _ _ (in_knr (hL _ (by decide)) (by decide)) k1)))
    try clear_value x2
    exact (keeps_forAll _ _ k3 fun y5 y6 b7 k4 => (keeps_setF _ _ _ (in_knr (hL _ (by decide)) (off_at (n := 16775680) (by omega) (by decide))) k4))

theorem keeps_mcmdResponse {L : List Part} {r s : State} (p : List (BitVec 8))
    (hL : Sub [.dbgR] L) (h : Keeps L r s) : Keeps L r (State.mcmdResponse s p) := by
  unfold State.mcmdResponse
  extract_lets +onlyGivenNames -merge -useContext -underBinder x0
  have k1 : Keeps L r (x0) := (keeps_forAll _ _ h fun y3 y4 b5 k2 => (keeps_setF _ _ _ (in_dbg (hL _ (by decide)) (off_at (n := 16776192) (by omega) (by decide))) k2))
  try clear_value x0
  exact (keeps_setB _ _ _ (in_dbg (hL _ (by decide)) (by decide)) (keeps_setB _ _ _ (in_dbg (hL _ (by decide)) (by decide)) k1))

theorem keeps_monAnswer {L : List Part} {r s : State} (m : RingMsg) (p : List (BitVec 8))
    (hL : Sub [.dbg, .dbgR, .ring] L) (h : Keeps L r s) : Keeps L r (State.monAnswer s m p) := by
  unfold State.monAnswer
  extract_lets +onlyGivenNames -merge -useContext -underBinder x0 x1
  have k2 : Keeps L r (x1) := (Keeps.set_debug (hL _ (by decide)) h)
  try clear_value x1
  refine Keeps.ite (keeps_mcmdResponse _ (Sub.trans (by decide) hL) k2) ?_
  extract_lets +onlyGivenNames -merge -useContext -underBinder x3 x4
  have k5 : Keeps L r (x4) := (Keeps.set_debug (hL _ (by decide)) k2)
  try clear_value x4
  exact (keeps_modRing _ (Sub.trans (by decide) hL) k5)

theorem keeps_monServe {L : List Part} {r s : State} (v1 : Nat)
    (hL : Sub [.ring, .dbg, .dbgR] L) (h : Keeps L r s) : Keeps L r (State.monServe s v1) := by
  induction v1 generalizing s with
  | zero => exact h
  | succ n ih =>
    rw [State.monServe]
    split
    · exact h
    · split
      · exact ih (keeps_modRing _ (Sub.trans (by decide) hL) (Keeps.set_debug (hL _ (by decide)) h))
      · exact Keeps.ite (ih (keeps_monAnswer _ _ (Sub.trans (by decide) hL) h)) h

theorem keeps_monQueue {L : List Part} {r s : State} (m : RingMsg)
    (hL : Sub [.ring, .dbg, .dbgR] L) (h : Keeps L r s) : Keeps L r (State.monQueue s m) := by
  unfold State.monQueue
  exact (keeps_monServe _ (Sub.trans (by decide) hL) (Keeps.set_debug (hL _ (by decide)) h))

theorem keeps_endRequest {L : List Part} {r s : State} (m : RingMsg)
    (hL : Sub [.ring] L) (h : Keeps L r s) : Keeps2 L r (State.endRequest s m) := by
  unfold State.endRequest
  extract_lets +onlyGivenNames -merge -useContext -underBinder x0
  try clear_value x0
  exact (Keeps2.mk (keeps_modRing _ (Sub.trans (by decide) hL) h))

theorem keeps_acceptMsg {L : List Part} {r s : State} (m : RingMsg)
    (hL : Sub [.ring, .odeR, .ode, .happened, .free, .dbg, .dbgR, .knrR] L) (h : Keeps L r s) : Keeps2 L r (State.acceptMsg s m) := by
  unfold State.acceptMsg
  refine Keeps2.ite (Keeps2.mk h) ?_
  split
  · exact (Keeps2.ite (Keeps2.mk (keeps_odArrive _ (Sub.trans (by decide) hL) h)) (Keeps2.mk h))
  · split
    · exact (Keeps2.mk (keeps_odReply _ _ (Sub.trans (by decide) hL) (Keeps.of_snd (by with_reducible assumption) (keeps_endRequest _ (Sub.trans (by decide) hL) h))))
    · exact (Keeps2.mk (Keeps.of_snd (by with_reducible assumption) (keeps_endRequest _ (Sub.trans (by decide) hL) h)))
  · exact (Keeps2.ite (Keeps2.mk (keeps_monQueue _ (Sub.trans (by decide) hL) h)) (Keeps2.mk (keeps_modRing _ (Sub.trans (by decide) hL) h)))
  · split
    · exact (Keeps2.mk (keeps_mcmdResponse _ (Sub.trans (by decide) hL) (Keeps.of_snd (by with_reducible assumption) (keeps_endRequest _ (Sub.trans (by decide) hL) h))))
    · exact (Keeps2.mk (Keeps.of_snd (by with_reducible assumption) (keeps_endRequest _ (Sub.trans (by decide) hL) h)))
  · exact (Keeps2.ite (Keeps2.mk (keeps_showRx (Sub.trans (by decide) hL) (keeps_modRing _ (Sub.trans (by decide) hL) h))) (Keeps2.mk h))
  · exact (Keeps2.mk h)

theorem keeps_deliver {L : List Part} {r s : State} (v1 : List MbxRun)
    (hL : Sub [.ring, .odeR, .ode, .happened, .free, .dbg, .dbgR, .knrR] L) (h : Keeps L r s) : Keeps2 L r (State.deliver s v1) := by
  induction v1 generalizing s with
  | nil => exact h
  | cons x t ih =>
    cases x with
    | free n => exact ih h
    | msg m =>
      rw [State.deliver]
      refine Keeps2.ite ?_ (Keeps2.ite ?_ ?_)
      · have k := keeps_acceptMsg m (Sub.trans (by decide) hL) h
        generalize s.acceptMsg m = p at k
        exact ih k
      · have k := keeps_acceptMsg m (Sub.trans (by decide) hL) h
        generalize s.acceptMsg m = p at k
        exact ih (Keeps.ite (keeps_modRing _ (Sub.trans (by decide) hL) k) k)
      · exact ih h

theorem keeps_sentMsg {L : List Part} {r s : State} (m : RingMsg) (cycle : Nat)
    (hL : Sub [.ring] L) (h : Keeps L r s) : Keeps L r (State.sentMsg s m cycle) := by
  unfold State.sentMsg
  refine Keeps.ite ?_ h
  extract_lets +onlyGivenNames -merge -useContext -underBinder x0
  try clear_value x0
  exact (keeps_modRing _ (Sub.trans (by decide) hL) h)

theorem keeps_insertAll {L : List Part} {r s : State} (cycle : Nat) (runs : List MbxRun) (v3 : List RingMsg)
    (hL : Sub [.knrR, .ring, .happened] L) (h : Keeps L r s) : Keeps22 L r (State.insertAll s cycle runs v3) := by
  induction v3 generalizing s runs with
  | nil => exact h
  | cons m t ih =>
    rw [State.insertAll]
    split
    · exact ih _ (keeps_sentMsg _ _ (Sub.trans (by decide) hL) h)
    · exact ih _ (keeps_countSat _ _ _ (hL _ (by decide)) (in_knr (hL _ (by decide)) (by decide)) h)

theorem keeps_passMailbox {L : List Part} {r s : State} (cycle : Nat) (runs : List MbxRun)
    (hL : Sub [.ring, .knrR, .happened, .odeR, .ode, .free, .dbg, .dbgR] L) (h : Keeps L r s) : Keeps2 L r (State.passMailbox s cycle runs) := by
  unfold State.passMailbox
  split
  · split
    · split
      · split
        · extract_lets +onlyGivenNames -merge -useContext -underBinder x0
          have k1 : Keeps L r (x0) := (keeps_modRing _ (Sub.trans (by decide) hL) (Keeps.of_22 (by with_reducible assumption) (keeps_insertAll _ _ _ (Sub.trans (by decide) hL) (Keeps.of_22 (by with_reducible assumption) (keeps_insertAll _ _ _ (Sub.trans (by decide) hL) (Keeps.of_22 (by with_reducible assumption) (keeps_insertAll _ _ _ (Sub.trans (by decide) hL) (Keeps.of_snd (by with_reducible assumption) (keeps_deliver _ (Sub.trans (by decide) hL) h)))))))))
          try clear_value x0
          extract_lets +onlyGivenNames -merge -useContext -underBinder x2
          have k3 : Keeps L r (x2) := (keeps_setB _ _ _ (in_knr (hL _ (by decide)) (by decide)) k1)
          try clear_value x2
          exact (Keeps2.mk (Keeps.ite k3 (keeps_setB _ _ _ (in_knr (hL _ (by decide)) (by decide)) k3)))

theorem keeps_ringRequest {L : List Part} {r s : State} (svc : Nat) (dst : Nat) (payload : List (BitVec 8))
    (hL : Sub [.ring] L) (h : Keeps L r s) : Keeps L r (State.ringRequest s svc dst payload) := by
  unfold State.ringRequest
  extract_lets +onlyGivenNames -merge -useContext -underBinder x0
  try clear_value x0
  exact (keeps_modRing _ (Sub.trans (by decide) hL) h)

theorem keeps_mbxSend {L : List Part} {r s : State} 
    (hL : Sub [.knrR, .ring] L) (h : Keeps L r s) : Keeps L r (State.mbxSend s) := by
  unfold State.mbxSend
  refine Keeps.ite (keeps_setB _ _ _ (in_knr (hL _ (by decide)) (by decide)) h) ?_
  extract_lets +onlyGivenNames -merge -useContext -underBinder x0
  try clear_value x0
  extract_lets +onlyGivenNames -merge -useContext -underBinder x1
  try clear_value x1
  extract_lets +onlyGivenNames -merge -useContext -underBinder x2
  try clear_value x2
  exact (keeps_modRing _ (Sub.trans (by decide) hL) (keeps_setB _ _ _ (in_knr (hL _ (by decide)) (by decide)) h))

theorem keeps_rxPop {L : List Part} {r s : State} 
    (hL : Sub [.knrR, .ring] L) (h : Keeps L r s) : Keeps L r (State.rxPop s) := by
  unfold State.rxPop
  exact (keeps_showRx (Sub.trans (by decide) hL) (keeps_modRing _ (Sub.trans (by decide) hL) h))

theorem keeps_knrCntClr {L : List Part} {r s : State} 
    (hL : Sub [.knrR] L) (h : Keeps L r s) : Keeps L r (State.knrCntClr s) := by
  unfold State.knrCntClr
  extract_lets +onlyGivenNames -merge -useContext -underBinder x0
  have k1 : Keeps L r (x0) := (keeps_clearCount _ _ (in_knr (hL _ (by decide)) (by decide)) (keeps_clearCount _ _ (in_knr (hL _ (by decide)) (by decide)) h))
  try clear_value x0
  extract_lets +onlyGivenNames -merge -useContext -underBinder x2
  have k3 : Keeps L r (x2) := (keeps_clearCount _ _ (in_knr (hL _ (by decide)) (by decide)) (keeps_clearCount _ _ (in_knr (hL _ (by decide)) (by decide)) k1))
  try clear_value x2
  exact (keeps_clearCount _ _ (in_knr (hL _ (by decide)) (by decide)) (keeps_clearCount _ _ (in_knr (hL _ (by decide)) (by decide)) (keeps_clearCount _ _ (in_knr (hL _ (by decide)) (by decide)) k3)))

theorem keeps_copyPd {L : List Part} {r s : State} 
    (hL : Sub [.knrR, .ring] L) (h : Keeps L r s) : Keeps L r (State.copyPd s) := by
  unfold State.copyPd
  exact (keeps_setB _ _ _ (in_knr (hL _ (by decide)) (by decide)) (keeps_modRing _ (Sub.trans (by decide) hL) h))

theorem keeps_pdTxWritten {L : List Part} {r s : State} 
    (hL : Sub [.knrR, .ring] L) (h : Keeps L r s) : Keeps L r (State.pdTxWritten s) := by
  unfold State.pdTxWritten
  exact (Keeps.ite (keeps_copyPd (Sub.trans (by decide) hL) h) h)

theorem keeps_pdPublish {L : List Part} {r s : State} 
    (hL : Sub [.knrR, .ring] L) (h : Keeps L r s) : Keeps L r (State.pdPublish s) := by
  unfold State.pdPublish
  exact (Keeps.ite (keeps_copyPd (Sub.trans (by decide) hL) h) (keeps_setB _ _ _ (in_knr (hL _ (by decide)) (by decide)) h))

theorem keeps_knrCmd {L : List Part} {r s : State} (v : Nat)
    (hL : Sub [.knrR, .ring] L) (h : Keeps L r s) : Keeps L r (State.knrCmd s v) := by
  unfold State.knrCmd
  refine Keeps.ite h ?_
  extract_lets +onlyGivenNames -merge -useContext -underBinder x0
  have k1 : Keeps L r (x0) := (Keeps.ite (keeps_pdPublish (Sub.trans (by decide) hL) h) h)
  try clear_value x0
  extract_lets +onlyGivenNames -merge -useContext -underBinder x2
  have k3 : Keeps L r (x2) := (Keeps.ite (keeps_mbxSend (Sub.trans (by decide) hL) k1) k1)
  try clear_value x2
  extract_lets +onlyGivenNames -merge -useContext -underBinder x4
  have k5 : Keeps L r (x4) := (Keeps.ite (keeps_rxPop (Sub.trans (by decide) hL) k3) k3)
  try clear_value x4
  exact (Keeps.ite (keeps_knrCntClr (Sub.trans (by decide) hL) k5) k5)

theorem keeps_execPdPublish {L : List Part} {r s : State} (init : Fin 16)
    (hL : Sub [.sysR, .happened, .knrR, .ring] L) (h : Keeps L r s) : Runs L r (execPdPublish init s) := by
  unfold execPdPublish
  exact (Runs.next (keeps_onCommand _ _ _ (Sub.trans (by decide) hL) h (fun y0 k1 => (keeps_knrCmd _ (Sub.trans (by decide) hL) k1))))

theorem keeps_execMbxSend {L : List Part} {r s : State} (init : Fin 16)
    (hL : Sub [.sysR, .happened, .knrR, .ring] L) (h : Keeps L r s) : Runs L r (execMbxSend init s) := by
  unfold execMbxSend
  exact (Runs.next (keeps_onCommand _ _ _ (Sub.trans (by decide) hL) h (fun y0 k1 => (keeps_knrCmd _ (Sub.trans (by decide) hL) k1))))

theorem keeps_execRxPop {L : List Part} {r s : State} (init : Fin 16)
    (hL : Sub [.sysR, .happened, .knrR, .ring] L) (h : Keeps L r s) : Runs L r (execRxPop init s) := by
  unfold execRxPop
  exact (Runs.next (keeps_onCommand _ _ _ (Sub.trans (by decide) hL) h (fun y0 k1 => (keeps_knrCmd _ (Sub.trans (by decide) hL) k1))))

theorem keeps_execKnrCntClr {L : List Part} {r s : State} (init : Fin 16)
    (hL : Sub [.sysR, .happened, .knrR, .ring] L) (h : Keeps L r s) : Runs L r (execKnrCntClr init s) := by
  unfold execKnrCntClr
  exact (Runs.next (keeps_onCommand _ _ _ (Sub.trans (by decide) hL) h (fun y0 k1 => (keeps_knrCmd _ (Sub.trans (by decide) hL) k1))))

theorem keeps_execMailboxTimeout {L : List Part} {r s : State} 
    (hL : Sub [.now, .ring, .crier, .odeR, .ode, .happened, .free, .dbgR] L) (h : Keeps L r s) : Runs L r (execMailboxTimeout s) := by
  unfold execMailboxTimeout
  extract_lets +onlyGivenNames -merge -useContext -underBinder x0
  have k1 : Keeps L r (x0) := by
    unfold x0
    split
    · exact (keeps_atTime _ (Sub.trans (by decide) hL) h)
    · exact h
  try clear_value x0
  refine Runs.next ?_
  refine Keeps.foldl ?_ k1
  intro y2 y3 k4
  refine Keeps.ite ?_ k4
  extract_lets +onlyGivenNames -merge -useContext -underBinder x6
  have k7 : Keeps L r (x6) := (keeps_modRing _ (Sub.trans (by decide) hL) k4)
  try clear_value x6
  extract_lets +onlyGivenNames -merge -useContext -underBinder x8
  have k9 : Keeps L r (x8) := (keeps_pulseIf _ _ (Sub.trans (by decide) hL) k7)
  try clear_value x8
  exact (Keeps.ite (keeps_odReply _ _ (Sub.trans (by decide) hL) k9) (keeps_setB _ _ _ (in_dbg (hL _ (by decide)) (by decide)) (keeps_setB _ _ _ (in_dbg (hL _ (by decide)) (by decide)) k9)))

theorem keeps_execCaptureInstant {L : List Part} {r s : State} 
    (hL : Sub [.now, .ring, .knrR, .crier] L) (h : Keeps L r s) : Runs L r (execCaptureInstant s) := by
  unfold execCaptureInstant
  refine Runs.next ?_
  split
  · exact h
  · refine Keeps.ite ?_ h
    extract_lets +onlyGivenNames -merge -useContext -underBinder x0
    have k1 : Keeps L r (x0) := (keeps_atTime _ (Sub.trans (by decide) hL) h)
    try clear_value x0
    extract_lets +onlyGivenNames -merge -useContext -underBinder x2
    have k3 : Keeps L r (x2) := (keeps_modRing _ (Sub.trans (by decide) hL) k1)
    try clear_value x2
    extract_lets +onlyGivenNames -merge -useContext -underBinder x4
    have k5 : Keeps L r (x4) := (Keeps.ite (keeps_copyPd (Sub.trans (by decide) hL) k3) k3)
    try clear_value x4
    extract_lets +onlyGivenNames -merge -useContext -underBinder x6
    try clear_value x6
    extract_lets +onlyGivenNames -merge -useContext -underBinder x7
    try clear_value x7
    extract_lets +onlyGivenNames -merge -useContext -underBinder x8
    have k9 : Keeps L r (x8) := (keeps_modRing _ (Sub.trans (by decide) hL) k5)
    try clear_value x8
    exact (keeps_pulseIf _ _ (Sub.trans (by decide) hL) k9)

theorem keeps_absUpdate {L : List Part} {r s : State} 
    (hL : Sub [.knrR, .ring] L) (h : Keeps L r s) : Keeps L r (State.absUpdate s) := by
  unfold State.absUpdate
  exact (keeps_marketAssert (Sub.trans (by decide) hL) (keeps_setB _ _ _ (in_knr (hL _ (by decide)) (by decide)) (keeps_setB _ _ _ (in_knr (hL _ (by decide)) (by decide)) h)))

theorem keeps_judgeNode {L : List Part} {r s : State} (k : Nat) (n : Nat)
    (hL : Sub [.ring, .knrR] L) (h : Keeps L r s) : Keeps L r (State.judgeNode s k n) := by
  unfold State.judgeNode
  extract_lets +onlyGivenNames -merge -useContext -underBinder x0
  try clear_value x0
  extract_lets +onlyGivenNames -merge -useContext -underBinder x1
  try clear_value x1
  extract_lets +onlyGivenNames -merge -useContext -underBinder x2
  try clear_value x2
  extract_lets +onlyGivenNames -merge -useContext -underBinder x3
  have k4 : Keeps L r (x3) := (keeps_modRing _ (Sub.trans (by decide) hL) h)
  try clear_value x3
  extract_lets +onlyGivenNames -merge -useContext -underBinder x5
  try clear_value x5
  extract_lets +onlyGivenNames -merge -useContext -underBinder x6
  try clear_value x6
  extract_lets +onlyGivenNames -merge -useContext -underBinder x7
  try clear_value x7
  exact (keeps_setBit _ _ _ _ (in_knr (hL _ (by decide)) (off_at (n := 16777152) (by omega) (by decide))) (keeps_setBit _ _ _ _ (in_knr (hL _ (by decide)) (off_at (n := 16777160) (by omega) (by decide))) k4))

theorem keeps_applyNode {L : List Part} {r s : State} (n : Nat) (data : List (BitVec 64))
    (hL : Sub [.knrR] L) (h : Keeps L r s) : Keeps L r (State.applyNode s n data) := by
  unfold State.applyNode
  exact (Keeps.foldl (fun y0 y1 k2 => (keeps_set64 _ _ _ _ (in_knr (hL _ (by decide)) (off_at (n := 16760832) (by omega) (by decide))) (in_knr (hL _ (by decide)) (off_at (n := 16760832) (by omega) (by decide))) k2)) h)

theorem keeps_execApplyInstant {L : List Part} {r s : State} 
    (hL : Sub [.ring, .knrR, .crier] L) (h : Keeps L r s) : Runs L r (execApplyInstant s) := by
  unfold execApplyInstant
  refine Runs.next ?_
  split
  · exact h
  · refine Keeps.ite ?_ h
    extract_lets +onlyGivenNames -merge -useContext -underBinder x0
    try clear_value x0
    extract_lets +onlyGivenNames -merge -useContext -underBinder x1
    have k2 : Keeps L r (x1) := (Keeps.foldl_range (fun y3 y4 b6 k5 => (keeps_judgeNode _ _ (Sub.trans (by decide) hL) k5)) h)
    try clear_value x1
    extract_lets +onlyGivenNames -merge -useContext -underBinder x7
    have k8 : Keeps L r (x7) := (keeps_absUpdate (Sub.trans (by decide) hL) k2)
    try clear_value x7
    extract_lets +onlyGivenNames -merge -useContext -underBinder x9 x10
    have k11 : Keeps L r (x9) := by
      unfold x9
      refine Keeps.foldl_range ?_ k8
      intro y12 y13 b15 k14
      split
      · exact (Keeps.ite k14 (keeps_applyNode _ _ (Sub.trans (by decide) hL) k14))
      · exact k14
    try clear_value x9
    have k16 : Keeps L r (x10) := (Keeps.ite k8 (keeps_setF _ _ _ (in_knr (hL _ (by decide)) (by decide)) k11))
    try clear_value x10
    extract_lets +onlyGivenNames -merge -useContext -underBinder x17
    have k18 : Keeps L r (x17) := (keeps_modRing _ (Sub.trans (by decide) hL) k16)
    try clear_value x17
    exact (keeps_pulseIf _ _ (Sub.trans (by decide) hL) k18)

theorem keeps_setMarket {L : List Part} {r s : State} (u : Nat)
    (hL : Sub [.clock] L) (h : Keeps L r s) : Keeps L r (State.setMarket s u) := by
  unfold State.setMarket
  exact (Keeps.set_clock (hL _ (by decide)) h)

theorem keeps_slewMarket {L : List Part} {r s : State} (x : Int)
    (hL : Sub [.clock] L) (h : Keeps L r s) : Keeps L r (State.slewMarket s x) := by
  unfold State.slewMarket
  exact (Keeps.set_clock (hL _ (by decide)) h)

theorem keeps_judgeTime {L : List Part} {r s : State} (f : RingFrame)
    (hL : Sub [.knrR, .ring, .clock] L) (h : Keeps L r s) : Keeps L r (State.judgeTime s f) := by
  unfold State.judgeTime
  extract_lets +onlyGivenNames -merge -useContext -underBinder x0
  try clear_value x0
  extract_lets +onlyGivenNames -merge -useContext -underBinder x1
  try clear_value x1
  extract_lets +onlyGivenNames -merge -useContext -underBinder x2
  try clear_value x2
  extract_lets +onlyGivenNames -merge -useContext -underBinder x3
  have k4 : Keeps L r (x3) := (keeps_setF _ _ _ (in_knr (hL _ (by decide)) (by decide)) h)
  try clear_value x3
  extract_lets +onlyGivenNames -merge -useContext -underBinder x5
  have k6 : ∀ y8, Keeps L r (y8) → Keeps L r (x5 y8) := by
    intro y8 k7
    unfold x5
    exact (keeps_setB _ _ _ (in_knr (hL _ (by decide)) (by decide)) k7)
  try clear_value x5
  refine Keeps.ite (keeps_modRing _ (Sub.trans (by decide) hL) (k6 _ (keeps_setMarket _ (Sub.trans (by decide) hL) k4))) ?_
  extract_lets +onlyGivenNames -merge -useContext -underBinder x9
  have k10 : Keeps L r (x9) := (keeps_slewMarket _ (Sub.trans (by decide) hL) k4)
  try clear_value x9
  refine Keeps.ite ?_ ?_
  · extract_lets +onlyGivenNames -merge -useContext -underBinder x11
    have k12 : Keeps L r (x11) := (keeps_modRing _ (Sub.trans (by decide) hL) k10)
    try clear_value x11
    exact (Keeps.ite (keeps_setB _ _ _ (in_knr (hL _ (by decide)) (by decide)) k12) k12)
  · extract_lets +onlyGivenNames -merge -useContext -underBinder x13
    have k14 : Keeps L r (x13) := (keeps_modRing _ (Sub.trans (by decide) hL) k10)
    try clear_value x13
    exact (Keeps.ite (k6 _ k14) k14)

theorem keeps_judgeTrip {L : List Part} {r s : State} (f : RingFrame)
    (hL : Sub [.knrR, .trpR, .trip, .celR, .aisle, .crier, .cellar, .ring, .attic, .atcR, .mem, .happened, .stlR, .wdtR] L) (h : Keeps L r s) : Keeps L r (State.judgeTrip s f) := by
  unfold State.judgeTrip
  refine Keeps.ite (keeps_marketIn _ (Sub.trans (by decide) hL) (keeps_modRing _ (Sub.trans (by decide) hL) h)) ?_
  extract_lets +onlyGivenNames -merge -useContext -underBinder x0
  have k1 : Keeps L r (x0) := (keeps_modRing _ (Sub.trans (by decide) hL) h)
  try clear_value x0
  exact (Keeps.ite (keeps_marketIn _ (Sub.trans (by decide) hL) k1) k1)

theorem keeps_judgeHeader {L : List Part} {r s : State} (f : RingFrame)
    (hL : Sub [.knrR, .ring, .clock, .crier, .happened, .trpR, .trip, .celR, .aisle, .cellar, .attic, .atcR, .mem, .stlR, .wdtR] L) (h : Keeps L r s) : Keeps L r (State.judgeHeader s f) := by
  unfold State.judgeHeader
  extract_lets +onlyGivenNames -merge -useContext -underBinder x0
  have k1 : Keeps L r (x0) := (keeps_setB _ _ _ (in_knr (hL _ (by decide)) (by decide)) (keeps_setF _ _ _ (in_knr (hL _ (by decide)) (by decide)) h))
  try clear_value x0
  extract_lets +onlyGivenNames -merge -useContext -underBinder x2
  have k3 : Keeps L r (x2) := (keeps_modRing _ (Sub.trans (by decide) hL) k1)
  try clear_value x2
  extract_lets +onlyGivenNames -merge -useContext -underBinder x4
  try clear_value x4
  extract_lets +onlyGivenNames -merge -useContext -underBinder x5
  have k6 : Keeps L r (x5) := by
    unfold x5
    refine Keeps.ite ?_ (Keeps.ite k3 (keeps_judgeTime _ (Sub.trans (by decide) hL) (keeps_setMaster _ (Sub.trans (by decide) hL) (keeps_endMaster (Sub.trans (by decide) hL) k3))))
    split
    · refine Keeps.ite ?_ k3
      extract_lets +onlyGivenNames -merge -useContext -underBinder x7
      try clear_value x7
      exact (keeps_setB _ _ _ (in_knr (hL _ (by decide)) (by decide)) (keeps_setF _ _ _ (in_knr (hL _ (by decide)) (by decide)) k3))
    · exact k3
  try clear_value x5
  exact (keeps_judgeTrip _ (Sub.trans (by decide) hL) k6)

theorem keeps_judgeSchedule {L : List Part} {r s : State} (f : RingFrame)
    (hL : Sub [.ring, .knrR] L) (h : Keeps L r s) : Keeps L r (State.judgeSchedule s f) := by
  unfold State.judgeSchedule
  extract_lets +onlyGivenNames -merge -useContext -underBinder x0
  have k1 : Keeps L r (x0) := (keeps_modRing _ (Sub.trans (by decide) hL) h)
  try clear_value x0
  exact (keeps_lenUpdate (Sub.trans (by decide) hL) k1)

theorem keeps_copySlots {L : List Part} {r s : State} (slots : List RingSlot)
    (hL : Sub [.ring] L) (h : Keeps L r s) : Keeps L r (State.copySlots s slots) := by
  unfold State.copySlots
  exact (Keeps.foldl (fun y0 y1 k2 => (Keeps.ite (keeps_modRing _ (Sub.trans (by decide) hL) k2) k2)) h)

theorem keeps_writeOwn {L : List Part} {r s : State} (cycle : Nat) (slots : List RingSlot)
    (hL : Sub [.knrR, .ring, .odeR, .ode] L) (h : Keeps L r s) : Keeps2 L r (State.writeOwn s cycle slots) := by
  unfold State.writeOwn
  split
  · exact (Keeps2.mk h)
  · exact (Keeps2.ite (Keeps2.mk (keeps_memberUpdate (Sub.trans (by decide) hL) (keeps_setB _ _ _ (in_knr (hL _ (by decide)) (by decide)) h))) (Keeps2.ite (Keeps2.mk h) (Keeps2.mk h)))

theorem keeps_execFrame {L : List Part} {r s : State} (f : RingFrame)
    (hL : Sub [.knrR, .happened, .ring, .clock, .crier, .trpR, .trip, .celR, .aisle, .cellar, .attic, .atcR, .mem, .stlR, .wdtR, .odeR, .ode, .free, .dbg, .dbgR] L) (h : Keeps L r s) : Runs L r (execFrame f s) := by
  unfold execFrame
  refine Runs.next ?_
  split
  · extract_lets +onlyGivenNames -merge -useContext -underBinder x0
    have k1 : Keeps L r (x0) := (Keeps.ite h (keeps_countSat _ _ _ (hL _ (by decide)) (in_knr (hL _ (by decide)) (by decide)) h))
    try clear_value x0
    extract_lets +onlyGivenNames -merge -useContext -underBinder x2
    try clear_value x2
    extract_lets +onlyGivenNames -merge -useContext -underBinder x3
    have k4 : Keeps L r (x3) := (Keeps.ite (keeps_judgeHeader _ (Sub.trans (by decide) hL) k1) k1)
    try clear_value x3
    extract_lets +onlyGivenNames -merge -useContext -underBinder x5
    have k6 : Keeps L r (x5) := (Keeps.ite (keeps_judgeSchedule _ (Sub.trans (by decide) hL) k4) k4)
    try clear_value x5
    extract_lets +onlyGivenNames -merge -useContext -underBinder x7
    try clear_value x7
    refine Keeps.ite (keeps_modRing _ (Sub.trans (by decide) hL) (Keeps.ite (keeps_copySlots _ (Sub.trans (by decide) hL) k6) k6)) ?_
    split
    · -- NESTED
      split
      · -- NESTED
        split
        · extract_lets +onlyGivenNames -merge -useContext -underBinder x8
          try clear_value x8
          exact (keeps_modRing _ (Sub.trans (by decide) hL) (Keeps.of_snd (by with_reducible assumption) (Keeps2.ite (keeps_passMailbox _ _ (Sub.trans (by decide) hL) (Keeps.of_snd (by with_reducible assumption) (Keeps2.ite (keeps_writeOwn _ _ (Sub.trans (by decide) hL) (keeps_copySlots _ (Sub.trans (by decide) hL) (Keeps.of_snd (by with_reducible assumption) (keeps_takeFree (Sub.trans (by decide) hL) k6)))) (Keeps2.mk (Keeps.of_snd (by with_reducible assumption) (keeps_takeFree (Sub.trans (by decide) hL) k6)))))) (Keeps2.mk (Keeps.of_snd (by with_reducible assumption) (Keeps2.ite (keeps_writeOwn _ _ (Sub.trans (by decide) hL) (keeps_copySlots _ (Sub.trans (by decide) hL) (Keeps.of_snd (by with_reducible assumption) (keeps_takeFree (Sub.trans (by decide) hL) k6)))) (Keeps2.mk (Keeps.of_snd (by with_reducible assumption) (keeps_takeFree (Sub.trans (by decide) hL) k6)))))))))
  · exact h

theorem keeps_buildMailbox {L : List Part} {r s : State} (len : Nat)
    (hL : Sub [.knrR, .happened] L) (h : Keeps L r s) : Keeps2 L r (State.buildMailbox s len) := by
  unfold State.buildMailbox
  extract_lets +onlyGivenNames -merge -useContext -underBinder x0
  try clear_value x0
  extract_lets +onlyGivenNames -merge -useContext -underBinder x1
  try clear_value x1
  extract_lets +onlyGivenNames -merge -useContext -underBinder x2
  try clear_value x2
  extract_lets +onlyGivenNames -merge -useContext -underBinder x3
  try clear_value x3
  extract_lets +onlyGivenNames -merge -useContext -underBinder x4
  try clear_value x4
  exact (Keeps2.mk (Keeps.ite h (keeps_countSat _ _ _ (hL _ (by decide)) (in_knr (hL _ (by decide)) (by decide)) h)))

theorem keeps_execCycleStart {L : List Part} {r s : State} 
    (hL : Sub [.now, .knrR, .ring, .happened, .odeR, .ode, .free, .dbg, .dbgR] L) (h : Keeps L r s) : Runs L r (execCycleStart s) := by
  unfold execCycleStart
  refine Runs.next ?_
  refine Keeps.ite ?_ h
  extract_lets +onlyGivenNames -merge -useContext -underBinder x0
  try clear_value x0
  extract_lets +onlyGivenNames -merge -useContext -underBinder x1
  have k2 : Keeps L r (x1) := (keeps_atTime _ (Sub.trans (by decide) hL) h)
  try clear_value x1
  extract_lets +onlyGivenNames -merge -useContext -underBinder x3
  try clear_value x3
  extract_lets +onlyGivenNames -merge -useContext -underBinder x4
  try clear_value x4
  extract_lets +onlyGivenNames -merge -useContext -underBinder x5
  try clear_value x5
  extract_lets +onlyGivenNames -merge -useContext -underBinder x6
  have k7 : Keeps L r (x6) := (keeps_lenUpdate (Sub.trans (by decide) hL) (keeps_modRing _ (Sub.trans (by decide) hL) k2))
  try clear_value x6
  split
  · split
    · extract_lets +onlyGivenNames -merge -useContext -underBinder x8
      try clear_value x8
      extract_lets +onlyGivenNames -merge -useContext -underBinder x9
      try clear_value x9
      extract_lets +onlyGivenNames -merge -useContext -underBinder x10
      try clear_value x10
      extract_lets +onlyGivenNames -merge -useContext -underBinder x11
      have k12 : Keeps L r (x11) := (Keeps.ite (keeps_setF _ _ _ (in_knr (hL _ (by decide)) (by decide)) (Keeps.of_snd (by with_reducible assumption) (keeps_passMailbox _ _ (Sub.trans (by decide) hL) (Keeps.of_snd (by with_reducible assumption) (keeps_buildMailbox _ (Sub.trans (by decide) hL) k7))))) (Keeps.of_snd (by with_reducible assumption) (keeps_passMailbox _ _ (Sub.trans (by decide) hL) (Keeps.of_snd (by with_reducible assumption) (keeps_buildMailbox _ (Sub.trans (by decide) hL) k7)))))
      try clear_value x11
      exact (keeps_modRing _ (Sub.trans (by decide) hL) (keeps_setB _ _ _ (in_knr (hL _ (by decide)) (by decide)) k12))

theorem keeps_referenceToXin {L : List Part} {r s : State} 
    (hL : Sub [.sysR, .knrR] L) (h : Keeps L r s) : Keeps L r (State.referenceToXin s) := by
  unfold State.referenceToXin
  extract_lets +onlyGivenNames -merge -useContext -underBinder x0
  have k1 : Keeps L r (x0) := (Keeps.ite (keeps_setB _ _ _ (in_sys (hL _ (by decide)) (by decide)) h) h)
  try clear_value x0
  exact (keeps_setB _ _ _ (in_knr (hL _ (by decide)) (by decide)) (keeps_setB _ _ _ (in_knr (hL _ (by decide)) (by decide)) (keeps_setB _ _ _ (in_sys (hL _ (by decide)) (by decide)) k1)))

theorem keeps_isolated {L : List Part} {r s : State} 
    (hL : Sub [.knrR, .trpR, .trip, .celR, .aisle, .crier, .cellar, .ring, .attic, .atcR, .mem, .happened, .stlR, .wdtR] L) (h : Keeps L r s) : Keeps L r (State.isolated s) := by
  unfold State.isolated
  exact (Keeps.ite (keeps_marketIn _ (Sub.trans (by decide) hL) (keeps_modRing _ (Sub.trans (by decide) hL) h)) h)

theorem keeps_execCycleLost {L : List Part} {r s : State} 
    (hL : Sub [.now, .knrR, .ring, .sysR, .trpR, .trip, .celR, .aisle, .crier, .cellar, .attic, .atcR, .mem, .happened, .stlR, .wdtR] L) (h : Keeps L r s) : Runs L r (execCycleLost s) := by
  unfold execCycleLost
  refine Runs.next ?_
  split
  · exact h
  · refine Keeps.ite ?_ h
    extract_lets +onlyGivenNames -merge -useContext -underBinder x0
    try clear_value x0
    extract_lets +onlyGivenNames -merge -useContext -underBinder x1
    have k2 : Keeps L r (x1) := (keeps_atTime _ (Sub.trans (by decide) hL) h)
    try clear_value x1
    extract_lets +onlyGivenNames -merge -useContext -underBinder x3
    have k4 : Keeps L r (x3) := (keeps_setB _ _ _ (in_knr (hL _ (by decide)) (by decide)) (keeps_setB _ _ _ (in_knr (hL _ (by decide)) (by decide)) k2))
    try clear_value x3
    extract_lets +onlyGivenNames -merge -useContext -underBinder x5
    have k6 : Keeps L r (x5) := (keeps_modRing _ (Sub.trans (by decide) hL) k4)
    try clear_value x5
    extract_lets +onlyGivenNames -merge -useContext -underBinder x7
    have k8 : Keeps L r (x7) := (keeps_referenceToXin (Sub.trans (by decide) hL) k6)
    try clear_value x7
    extract_lets +onlyGivenNames -merge -useContext -underBinder x9
    have k10 : Keeps L r (x9) := (keeps_isolated (Sub.trans (by decide) hL) k8)
    try clear_value x9
    refine Keeps.ite ?_ k10
    split
    · extract_lets +onlyGivenNames -merge -useContext -underBinder x11
      try clear_value x11
      extract_lets +onlyGivenNames -merge -useContext -underBinder x12
      try clear_value x12
      exact (keeps_becomeMaster _ _ _ (Sub.trans (by decide) hL) k10)
    · exact k10

theorem keeps_execReferenceSwitch {L : List Part} {r s : State} 
    (hL : Sub [.now, .knrR, .sysR] L) (h : Keeps L r s) : Runs L r (execReferenceSwitch s) := by
  unfold execReferenceSwitch
  refine Runs.next ?_
  split
  · refine Keeps.ite ?_ h
    extract_lets +onlyGivenNames -merge -useContext -underBinder x0
    have k1 : Keeps L r (x0) := (keeps_atTime _ (Sub.trans (by decide) hL) h)
    try clear_value x0
    exact (keeps_setB _ _ _ (in_knr (hL _ (by decide)) (off_clkSrcF _)) (keeps_setB _ _ _ (in_sys (hL _ (by decide)) (by decide)) (keeps_setB _ _ _ (in_sys (hL _ (by decide)) (by decide)) k1)))
  · exact h

theorem keeps_execTrip {L : List Part} {r s : State} (p : Fin 2) (origin : BitVec 7) (seq : BitVec 8) (ok : Bool)
    (hL : Sub [.ring, .knrR, .trpR, .trip, .celR, .aisle, .crier, .cellar, .attic, .atcR, .mem, .happened, .stlR, .wdtR] L) (h : Keeps L r s) : Runs L r (execTrip p origin seq ok s) := by
  unfold execTrip
  refine Runs.next ?_
  refine Keeps.ite ?_ h
  split
  · extract_lets +onlyGivenNames -merge -useContext -underBinder x0
    have k1 : Keeps L r (x0) := (keeps_modRing _ (Sub.trans (by decide) hL) h)
    try clear_value x0
    extract_lets +onlyGivenNames -merge -useContext -underBinder x2
    have k3 : Keeps L r (x2) := (Keeps.ite (keeps_transmit _ _ (Sub.trans (by decide) hL) k1) k1)
    try clear_value x2
    exact (keeps_marketIn _ (Sub.trans (by decide) hL) k3)

theorem keeps_execRecord {L : List Part} {r s : State} (p : Fin 2) (origin : BitVec 7) (seq : BitVec 8) (time : BitVec 64) (ok : Bool)
    (hL : Sub [.ring, .crier, .attic, .atcR, .mem, .happened] L) (h : Keeps L r s) : Runs L r (execRecord p origin seq time ok s) := by
  unfold execRecord
  refine Runs.next ?_
  refine Keeps.ite ?_ h
  extract_lets +onlyGivenNames -merge -useContext -underBinder x0
  try clear_value x0
  split
  · extract_lets +onlyGivenNames -merge -useContext -underBinder x1
    have k2 : Keeps L r (x1) := (keeps_modRing _ (Sub.trans (by decide) hL) h)
    try clear_value x1
    extract_lets +onlyGivenNames -merge -useContext -underBinder x3
    have k4 : Keeps L r (x3) := (Keeps.ite (keeps_transmit _ _ (Sub.trans (by decide) hL) k2) k2)
    try clear_value x3
    extract_lets +onlyGivenNames -merge -useContext -underBinder x5
    have k6 : Keeps L r (x5) := (keeps_pulseIf _ _ (Sub.trans (by decide) hL) k4)
    try clear_value x5
    exact (Keeps.ite (keeps_trigger _ _ _ (Sub.trans (by decide) hL) k6) k6)

theorem keeps_ringEnabled {L : List Part} {r s : State} 
    (hL : Sub [.knrR, .trpR, .trip, .celR, .aisle, .crier, .cellar, .ring, .attic, .atcR, .mem, .happened, .stlR, .wdtR, .odeR, .ode] L) (h : Keeps L r s) : Keeps L r (State.ringEnabled s) := by
  unfold State.ringEnabled
  exact (keeps_isolated (Sub.trans (by decide) hL) (keeps_memberUpdate (Sub.trans (by decide) hL) h))

theorem keeps_writeMarket {L : List Part} {r s : State} (v : Nat)
    (hL : Sub [.knrR, .clock] L) (h : Keeps L r s) : Keeps L r (State.writeMarket s v) := by
  unfold State.writeMarket
  exact (Keeps.ite (Keeps.ite h (keeps_setB _ _ _ (in_knr (hL _ (by decide)) (by decide)) h)) (keeps_setMarket _ (Sub.trans (by decide) hL) h))

end Sys2Proof.Laws
end

