-- ==== Sys2Proof/Laws/KeepDebug.lean ====
section
/-! SUPPORT. What the operations of Machine/Debug.lean may change, and what they keep (see Keeps.lean). -/

namespace Sys2Proof.Laws

open Sys2Proof Sys2Proof.Machine Sys2Proof.Safety

theorem keeps_haltCmd {L : List Part} {r s : State} (c : Nat)
    (hL : Sub [.dbgR, .core, .dbg] L) (h : Keeps L r s) : Keeps L r (State.haltCmd s c) := by
  unfold State.haltCmd
  exact (Keeps.ite (keeps_monRequest _ _ _ (Sub.trans (by decide) hL) h) (Keeps.set_debug (hL _ (by decide)) h))

theorem keeps_resumeCmd {L : List Part} {r s : State} (c : Nat) (step : Bool)
    (hL : Sub [.core, .wdtR, .dbg, .criR, .sysR, .celR, .cellar, .happened, .ode, .dbgR] L) (h : Keeps L r s) : Keeps L r (State.resumeCmd s c step) := by
  unfold State.resumeCmd
  exact (Keeps.ite (Keeps.ite (keeps_monLeave _ _ (Sub.trans (by decide) hL) h) (keeps_modCore _ _ (Sub.trans (by decide) hL) h)) (Keeps.set_debug (hL _ (by decide)) h))

theorem keeps_cCmd {L : List Part} {r s : State} (c : Nat) (v : Nat)
    (hL : Sub [.dbgR, .core, .dbg, .wdtR, .criR, .sysR, .celR, .cellar, .happened, .ode] L) (h : Keeps L r s) : Keeps L r (State.cCmd s c v) := by
  unfold State.cCmd
  refine Keeps.ite h ?_
  extract_lets +onlyGivenNames -merge -useContext -underBinder x0
  have k1 : Keeps L r (x0) := (Keeps.ite (keeps_haltCmd _ (Sub.trans (by decide) hL) h) h)
  try clear_value x0
  extract_lets +onlyGivenNames -merge -useContext -underBinder x2
  have k3 : Keeps L r (x2) := (Keeps.ite (keeps_resumeCmd _ _ (Sub.trans (by decide) hL) k1) k1)
  try clear_value x2
  exact (Keeps.ite (keeps_resumeCmd _ _ (Sub.trans (by decide) hL) k3) k3)

theorem keeps_execCCmdHalt {L : List Part} {r s : State} (init : Fin 16) (c : Fin 4)
    (hL : Sub [.sysR, .happened, .dbgR, .core, .dbg, .wdtR, .criR, .celR, .cellar, .ode] L) (h : Keeps L r s) : Runs L r (execCCmdHalt init c s) := by
  unfold execCCmdHalt
  exact (Runs.next (keeps_onCommand _ _ _ (Sub.trans (by decide) hL) h (fun y0 k1 => (keeps_cCmd _ _ (Sub.trans (by decide) hL) k1))))

theorem keeps_execCCmdResume {L : List Part} {r s : State} (init : Fin 16) (c : Fin 4)
    (hL : Sub [.sysR, .happened, .dbgR, .core, .dbg, .wdtR, .criR, .celR, .cellar, .ode] L) (h : Keeps L r s) : Runs L r (execCCmdResume init c s) := by
  unfold execCCmdResume
  exact (Runs.next (keeps_onCommand _ _ _ (Sub.trans (by decide) hL) h (fun y0 k1 => (keeps_cCmd _ _ (Sub.trans (by decide) hL) k1))))

theorem keeps_execCCmdStep {L : List Part} {r s : State} (init : Fin 16) (c : Fin 4)
    (hL : Sub [.sysR, .happened, .dbgR, .core, .dbg, .wdtR, .criR, .celR, .cellar, .ode] L) (h : Keeps L r s) : Runs L r (execCCmdStep init c s) := by
  unfold execCCmdStep
  exact (Runs.next (keeps_onCommand _ _ _ (Sub.trans (by decide) hL) h (fun y0 k1 => (keeps_cCmd _ _ (Sub.trans (by decide) hL) k1))))

theorem keeps_keyFailed {L : List Part} {r s : State} 
    (hL : Sub [.dbgR, .happened, .dbg] L) (h : Keeps L r s) : Keeps L r (State.keyFailed s) := by
  unfold State.keyFailed
  extract_lets +onlyGivenNames -merge -useContext -underBinder x0
  have k1 : Keeps L r (x0) := (keeps_setB _ _ _ (in_dbg (hL _ (by decide)) (by decide)) (keeps_countSat _ _ _ (hL _ (by decide)) (in_dbg (hL _ (by decide)) (by decide)) h))
  try clear_value x0
  exact (Keeps.set_debug (hL _ (by decide)) k1)

theorem keeps_judgeKey {L : List Part} {r s : State} (key : List (BitVec 8))
    (hL : Sub [.dbgR, .happened, .dbg] L) (h : Keeps L r s) : Keeps2 L r (State.judgeKey s key) := by
  unfold State.judgeKey
  extract_lets +onlyGivenNames -merge -useContext -underBinder x0
  have k1 : Keeps L r (x0) := (keeps_forAll _ _ h fun y3 y4 b5 k2 => (keeps_setF _ _ _ (in_dbg (hL _ (by decide)) (off_at (n := 16777120) (by omega) (by decide))) k2))
  try clear_value x0
  extract_lets +onlyGivenNames -merge -useContext -underBinder x6
  try clear_value x6
  exact (Keeps2.ite (Keeps2.mk k1) (Keeps2.ite (Keeps2.ite (Keeps2.mk (keeps_setB _ _ _ (in_dbg (hL _ (by decide)) (by decide)) k1)) (Keeps2.ite (Keeps2.mk k1) (Keeps2.mk (keeps_keyFailed (Sub.trans (by decide) hL) k1)))) (Keeps2.mk (keeps_keyFailed (Sub.trans (by decide) hL) k1))))

theorem keeps_unlockCmd {L : List Part} {r s : State} 
    (hL : Sub [.dbgR, .happened, .dbg] L) (h : Keeps L r s) : Keeps L r (State.unlockCmd s) := by
  unfold State.unlockCmd
  extract_lets +onlyGivenNames -merge -useContext -underBinder x0
  try clear_value x0
  exact (Keeps2.out (keeps_judgeKey _ (Sub.trans (by decide) hL) h))

theorem keeps_execLockoutEnd {L : List Part} {r s : State} 
    (hL : Sub [.dbgR, .now] L) (h : Keeps L r s) : Runs L r (execLockoutEnd s) := by
  unfold execLockoutEnd
  exact (Runs.next (Keeps.ite (keeps_setB _ _ _ (in_dbg (hL _ (by decide)) (by decide)) (keeps_atTime _ (Sub.trans (by decide) hL) h)) h))

theorem keeps_debugReset {L : List Part} {r s : State} 
    (hL : Sub [.dbgR, .dbg] L) (h : Keeps L r s) : Keeps L r (State.debugReset s) := by
  unfold State.debugReset
  extract_lets +onlyGivenNames -merge -useContext -underBinder x0
  have k1 : Keeps L r (x0) := (keeps_setF _ _ _ (in_dbg (hL _ (by decide)) (by decide)) (keeps_clearRegs _ _ (clear_dbg (Sub.trans (by decide) hL)) h))
  try clear_value x0
  exact (Keeps.set_debug (hL _ (by decide)) k1)

theorem keeps_mcmdGo {L : List Part} {r s : State} 
    (hL : Sub [.dbgR, .ring, .dbg] L) (h : Keeps L r s) : Keeps L r (State.mcmdGo s) := by
  unfold State.mcmdGo
  refine Keeps.ite h ?_
  extract_lets +onlyGivenNames -merge -useContext -underBinder x0
  try clear_value x0
  extract_lets +onlyGivenNames -merge -useContext -underBinder x1
  try clear_value x1
  extract_lets +onlyGivenNames -merge -useContext -underBinder x2
  try clear_value x2
  extract_lets +onlyGivenNames -merge -useContext -underBinder x3
  have k4 : Keeps L r (x3) := (keeps_setB _ _ _ (in_dbg (hL _ (by decide)) (by decide)) (keeps_setB _ _ _ (in_dbg (hL _ (by decide)) (by decide)) (keeps_setB _ _ _ (in_dbg (hL _ (by decide)) (by decide)) h)))
  try clear_value x3
  exact (Keeps.ite (keeps_monQueue _ (Sub.trans (by decide) hL) k4) (keeps_ringRequest _ _ _ (Sub.trans (by decide) hL) k4))

theorem keeps_dbgCmd {L : List Part} {r s : State} (v : Nat)
    (hL : Sub [.dbgR, .dbg, .happened, .ring] L) (h : Keeps L r s) : Keeps L r (State.dbgCmd s v) := by
  unfold State.dbgCmd
  refine Keeps.ite h ?_
  extract_lets +onlyGivenNames -merge -useContext -underBinder x0
  have k1 : Keeps L r (x0) := (Keeps.ite (keeps_debugReset (Sub.trans (by decide) hL) h) (Keeps.ite (keeps_unlockCmd (Sub.trans (by decide) hL) h) h))
  try clear_value x0
  extract_lets +onlyGivenNames -merge -useContext -underBinder x2
  have k3 : Keeps L r (x2) := (Keeps.ite (keeps_mcmdGo (Sub.trans (by decide) hL) k1) k1)
  try clear_value x2
  exact (Keeps.ite (keeps_clearCount _ _ (in_dbg (hL _ (by decide)) (by decide)) k3) k3)

theorem keeps_execDbgReset {L : List Part} {r s : State} (init : Fin 16)
    (hL : Sub [.sysR, .happened, .dbgR, .dbg, .ring] L) (h : Keeps L r s) : Runs L r (execDbgReset init s) := by
  unfold execDbgReset
  exact (Runs.next (keeps_onCommand _ _ _ (Sub.trans (by decide) hL) h (fun y0 k1 => (keeps_dbgCmd _ (Sub.trans (by decide) hL) k1))))

theorem keeps_execUnlock {L : List Part} {r s : State} (init : Fin 16)
    (hL : Sub [.sysR, .happened, .dbgR, .dbg, .ring] L) (h : Keeps L r s) : Runs L r (execUnlock init s) := by
  unfold execUnlock
  exact (Runs.next (keeps_onCommand _ _ _ (Sub.trans (by decide) hL) h (fun y0 k1 => (keeps_dbgCmd _ (Sub.trans (by decide) hL) k1))))

theorem keeps_execMcmdGo {L : List Part} {r s : State} (init : Fin 16)
    (hL : Sub [.sysR, .happened, .dbgR, .dbg, .ring] L) (h : Keeps L r s) : Runs L r (execMcmdGo init s) := by
  unfold execMcmdGo
  exact (Runs.next (keeps_onCommand _ _ _ (Sub.trans (by decide) hL) h (fun y0 k1 => (keeps_dbgCmd _ (Sub.trans (by decide) hL) k1))))

theorem keeps_execTraceClr {L : List Part} {r s : State} (init : Fin 16)
    (hL : Sub [.sysR, .happened, .dbgR, .dbg, .ring] L) (h : Keeps L r s) : Runs L r (execTraceClr init s) := by
  unfold execTraceClr
  exact (Runs.next (keeps_onCommand _ _ _ (Sub.trans (by decide) hL) h (fun y0 k1 => (keeps_dbgCmd _ (Sub.trans (by decide) hL) k1))))

theorem keeps_monFront {L : List Part} {r s : State} (cmd : Nat) (act : RingMsg → State → MonReply × State)
    (hL : Sub [.ring, .dbg, .dbgR] L) (h : Keeps L r s) (h2 : ∀ x0 x1, Keeps L r x1 → Keeps2 L r (act x0 x1)) : Keeps L r (State.monFront s cmd act) := by
  unfold State.monFront
  refine Keeps.ite ?_ h
  split
  · exact h
  · refine Keeps.ite ?_ h
    -- NESTED
    split
    · exact (keeps_monServe _ (Sub.trans (by decide) hL) (keeps_monAnswer _ _ (Sub.trans (by decide) hL) (Keeps.of_snd (by with_reducible assumption) (Keeps2.ite (Keeps2.mk h) (h2 _ _ h)))))

theorem keeps_onMonCore {L : List Part} {r s : State} (halt : Bool) (act : Nat → RingMsg → State → MonReply × State) (m : RingMsg)
    (hL : Sub [.dbgR, .core, .dbg] L) (h : Keeps L r s) (h1 : ∀ x0 x1 x2, Keeps L r x2 → Keeps2 L r (act x0 x1 x2)) : Keeps2 L r (onMonCore halt act m s) := by
  unfold onMonCore
  extract_lets +onlyGivenNames -merge -useContext -underBinder x0
  try clear_value x0
  exact (Keeps2.ite (Keeps2.mk h) (Keeps2.ite (Keeps2.mk (Keeps.ite h (keeps_haltCmd _ (Sub.trans (by decide) hL) h))) (Keeps2.ite (Keeps2.mk h) (h1 _ _ _ h))))

theorem keeps_execMonHalt {L : List Part} {r s : State} 
    (hL : Sub [.ring, .dbg, .dbgR, .core] L) (h : Keeps L r s) : Runs L r (execMonHalt s) := by
  unfold execMonHalt
  exact (Runs.next (keeps_monFront _ _ (Sub.trans (by decide) hL) h (fun y0 y1 k2 => (keeps_onMonCore _ _ _ (Sub.trans (by decide) hL) k2 (fun y3 y4 y5 k6 => (Keeps2.mk (keeps_haltCmd _ (Sub.trans (by decide) hL) k6)))))))

theorem keeps_monResumeOf {L : List Part} {r s : State} (step : Bool) (m : RingMsg)
    (hL : Sub [.core, .wdtR, .dbg, .criR, .sysR, .celR, .cellar, .happened, .ode, .dbgR] L) (h : Keeps L r s) : Keeps2 L r (monResumeOf step m s) := by
  unfold monResumeOf
  extract_lets +onlyGivenNames -merge -useContext -underBinder x0
  try clear_value x0
  exact (Keeps2.ite (Keeps2.mk h) (Keeps2.mk (keeps_resumeCmd _ _ (Sub.trans (by decide) hL) h)))

theorem keeps_execMonResume {L : List Part} {r s : State} 
    (hL : Sub [.ring, .dbg, .dbgR, .core, .wdtR, .criR, .sysR, .celR, .cellar, .happened, .ode] L) (h : Keeps L r s) : Runs L r (execMonResume s) := by
  unfold execMonResume
  exact (Runs.next (keeps_monFront _ _ (Sub.trans (by decide) hL) h (fun y0 y1 k2 => (keeps_monResumeOf _ _ (Sub.trans (by decide) hL) k2))))

theorem keeps_execMonStep {L : List Part} {r s : State} 
    (hL : Sub [.ring, .dbg, .dbgR, .core, .wdtR, .criR, .sysR, .celR, .cellar, .happened, .ode] L) (h : Keeps L r s) : Runs L r (execMonStep s) := by
  unfold execMonStep
  exact (Runs.next (keeps_monFront _ _ (Sub.trans (by decide) hL) h (fun y0 y1 k2 => (keeps_monResumeOf _ _ (Sub.trans (by decide) hL) k2))))

theorem keeps_setMonReg {L : List Part} {r s : State} (c : Nat) (code : Nat) (v : Word)
    (hL : Sub [.core, .warranted] L) (h : Keeps L r s) : Keeps L r (State.setMonReg s c code v) := by
  unfold State.setMonReg
  refine Keeps.ite (keeps_modCore _ _ (Sub.trans (by decide) hL) h) ?_
  refine Keeps.ite (keeps_writeSaved _ _ _ _ (Sub.trans (by decide) hL) h) ?_
  split
  · exact (keeps_writeLow _ _ _ (Sub.trans (by decide) hL) h)
  · exact (keeps_writeLow _ _ _ (Sub.trans (by decide) hL) h)
  · exact (keeps_writeSaved _ _ _ _ (Sub.trans (by decide) hL) h)
  · exact (keeps_writeSaved _ _ _ _ (Sub.trans (by decide) hL) h)
  · exact (keeps_writeSaved _ _ _ _ (Sub.trans (by decide) hL) h)
  · exact (keeps_writeSaved _ _ _ _ (Sub.trans (by decide) hL) h)
  · exact (keeps_writeSaved _ _ _ _ (Sub.trans (by decide) hL) h)
  · exact (keeps_writeSaved _ _ _ _ (Sub.trans (by decide) hL) h)
  · exact h

theorem keeps_execRegRead {L : List Part} {r s : State} 
    (hL : Sub [.ring, .dbg, .dbgR, .core] L) (h : Keeps L r s) : Runs L r (execRegRead s) := by
  unfold execRegRead
  refine Runs.next ?_
  refine keeps_monFront _ _ (Sub.trans (by decide) hL) h ?_
  intro y0 y1 k2
  refine keeps_onMonCore _ _ _ (Sub.trans (by decide) hL) k2 ?_
  intro y3 y4 y5 k6
  split
  · exact (Keeps2.mk k6)
  · exact (Keeps2.mk k6)

theorem keeps_execRegWrite {L : List Part} {r s : State} 
    (hL : Sub [.ring, .dbg, .dbgR, .core, .warranted] L) (h : Keeps L r s) : Runs L r (execRegWrite s) := by
  unfold execRegWrite
  refine Runs.next ?_
  refine keeps_monFront _ _ (Sub.trans (by decide) hL) h ?_
  intro y0 y1 k2
  refine keeps_onMonCore _ _ _ (Sub.trans (by decide) hL) k2 ?_
  intro y3 y4 y5 k6
  split
  · exact (Keeps2.mk (keeps_setMonReg _ _ _ (Sub.trans (by decide) hL) k6))
  · exact (Keeps2.mk k6)

theorem keeps_execMonUnlock {L : List Part} {r s : State} 
    (hL : Sub [.ring, .dbg, .dbgR, .happened] L) (h : Keeps L r s) : Runs L r (execMonUnlock s) := by
  unfold execMonUnlock
  refine Runs.next ?_
  refine keeps_monFront _ _ (Sub.trans (by decide) hL) h ?_
  intro y0 y1 k2
  refine Keeps2.ite (Keeps2.mk k2) ?_
  split
  · exact (Keeps2.mk (Keeps.of_snd (by with_reducible assumption) (keeps_judgeKey _ (Sub.trans (by decide) hL) k2)))

theorem keeps_tap {L : List Part} {r s : State} (code : BitVec 5)
    (hL : Sub [.dbg] L) (h : Keeps L r s) : Keeps L r (State.tap s code) := by
  unfold State.tap
  exact (Keeps.ite (Keeps.set_debug (hL _ (by decide)) h) h)

theorem keeps_execExtest {L : List Part} {r s : State} (balls : List Bool) (cells : List Bool)
    (hL : Sub [.dbg] L) (h : Keeps L r s) : Runs L r (execExtest balls cells s) := by
  unfold execExtest
  refine Runs.next ?_
  refine Keeps.ite ?_ h
  extract_lets +onlyGivenNames -merge -useContext -underBinder x0
  have k1 : Keeps L r (x0) := (keeps_tap _ (Sub.trans (by decide) hL) h)
  try clear_value x0
  exact (Keeps.set_debug (hL _ (by decide)) k1)

theorem keeps_execSamplePreload {L : List Part} {r s : State} (balls : List Bool) (cells : List Bool)
    (hL : Sub [.dbg] L) (h : Keeps L r s) : Runs L r (execSamplePreload balls cells s) := by
  unfold execSamplePreload
  refine Runs.next ?_
  refine Keeps.ite ?_ h
  extract_lets +onlyGivenNames -merge -useContext -underBinder x0
  have k1 : Keeps L r (x0) := (keeps_tap _ (Sub.trans (by decide) hL) h)
  try clear_value x0
  exact (Keeps.set_debug (hL _ (by decide)) k1)

theorem keeps_execIdcode {L : List Part} {r s : State} 
    (hL : Sub [.dbg] L) (h : Keeps L r s) : Runs L r (execIdcode s) := by
  unfold execIdcode
  exact (Runs.next (keeps_tap _ (Sub.trans (by decide) hL) h))

theorem keeps_execClamp {L : List Part} {r s : State} 
    (hL : Sub [.dbg] L) (h : Keeps L r s) : Runs L r (execClamp s) := by
  unfold execClamp
  exact (Runs.next (keeps_tap _ (Sub.trans (by decide) hL) h))

theorem keeps_execHighz {L : List Part} {r s : State} 
    (hL : Sub [.dbg] L) (h : Keeps L r s) : Runs L r (execHighz s) := by
  unfold execHighz
  exact (Runs.next (keeps_tap _ (Sub.trans (by decide) hL) h))

theorem keeps_execBypass {L : List Part} {r s : State} 
    (hL : Sub [.dbg] L) (h : Keeps L r s) : Runs L r (execBypass s) := by
  unfold execBypass
  exact (Runs.next (keeps_tap _ (Sub.trans (by decide) hL) h))

end Sys2Proof.Laws
end

