-- ==== Sys2Proof/Laws/KeepEngine.lean ====
section
/-! SUPPORT. What the operations of Machine/Engine.lean may change, and what they keep (see Keeps.lean). -/

namespace Sys2Proof.Laws

open Sys2Proof Sys2Proof.Machine Sys2Proof.Safety

theorem keeps_engBegin {L : List Part} {r s : State} (e : Nat) (t : Trigger)
    (hL : Sub [.eng] L) (h : Keeps L r s) : Keeps L r (State.engBegin s e t) := by
  unfold State.engBegin
  exact (keeps_modEng _ _ (Sub.trans (by decide) hL) h)

theorem keeps_engAccept {L : List Part} {r s : State} (e : Nat) (t : Trigger)
    (hL : Sub [.eng, .engR, .happened] L) (h : Keeps L r s) : Keeps L r (State.engAccept s e t) := by
  unfold State.engAccept
  exact (keeps_engBegin _ _ (Sub.trans (by decide) hL) (keeps_modEng _ _ (Sub.trans (by decide) hL) (keeps_countWrap _ _ _ (hL _ (by decide)) (in_eng (hL _ (by decide)) (by decide)) h)))

theorem keeps_engLose {L : List Part} {r s : State} (e : Nat)
    (hL : Sub [.eng, .engR, .happened] L) (h : Keeps L r s) : Keeps L r (State.engLose s e) := by
  unfold State.engLose
  split
  · extract_lets +onlyGivenNames -merge -useContext -underBinder x0
    try clear_value x0
    exact (Keeps.ite (keeps_modEng _ _ (Sub.trans (by decide) hL) (keeps_countSat _ _ _ (hL _ (by decide)) (in_eng (hL _ (by decide)) (by decide)) h)) h)
  · exact h

theorem keeps_engTrigger {L : List Part} {r s : State} (e : Nat) (scan : Option (Nat × Word))
    (hL : Sub [.eng, .engR, .happened] L) (h : Keeps L r s) : Keeps L r (State.engTrigger s e scan) := by
  unfold State.engTrigger
  extract_lets +onlyGivenNames -merge -useContext -underBinder x0
  extract_lets +onlyGivenNames -merge -useContext -underBinder x1
  try clear_value x1
  refine Keeps.ite h ?_
  split
  · exact (keeps_engAccept _ _ (Sub.trans (by decide) hL) h)
  · refine Keeps.ite (Keeps.ite (keeps_engBegin _ _ (Sub.trans (by decide) hL) h) h) ?_
    split
    · exact (keeps_engLose _ (Sub.trans (by decide) hL) (keeps_modEng _ _ (Sub.trans (by decide) hL) h))
    · exact (Keeps.ite (keeps_countSat _ _ _ (hL _ (by decide)) (in_eng (hL _ (by decide)) (by decide)) h) (Keeps.ite (keeps_modEng _ _ (Sub.trans (by decide) hL) h) h))

theorem keeps_engOp {L : List Part} {r s : State} (e : Nat) (op : Nat) (u : Option LaneUpset)
    (hL : Sub [.eng, .engR, .legR, .leg, .attic, .happened, .now] L) (h : Keeps L r s) : Keeps L r (State.engOp s e op u) := by
  unfold State.engOp
  split
  · exact h
  · extract_lets +onlyGivenNames -merge -useContext -underBinder x0
    have k1 : Keeps L r (x0) := (keeps_aisleTime _ (Sub.trans (by decide) hL) h)
    try clear_value x0
    split
    · exact h
    · refine Keeps.ite h ?_
      extract_lets +onlyGivenNames -merge -useContext -underBinder x2
      have k3 : Keeps L r (x2) := k1
      try clear_value x2
      extract_lets +onlyGivenNames -merge -useContext -underBinder x4
      try clear_value x4
      refine Keeps.ite (keeps_engLose _ (Sub.trans (by decide) hL) (keeps_modRun _ _ (Sub.trans (by decide) hL) k3)) ?_
      extract_lets +onlyGivenNames -merge -useContext -underBinder x5
      extract_lets +onlyGivenNames -merge -useContext -underBinder x6
      try clear_value x6
      extract_lets +onlyGivenNames -merge -useContext -underBinder x7
      try clear_value x7
      extract_lets +onlyGivenNames -merge -useContext -underBinder x8
      try clear_value x8
      extract_lets +onlyGivenNames -merge -useContext -underBinder x9
      try clear_value x9
      extract_lets +onlyGivenNames -merge -useContext -underBinder x10
      try clear_value x10
      extract_lets +onlyGivenNames -merge -useContext -underBinder x11
      try clear_value x11
      exact (keeps_engLose _ (Sub.trans (by decide) hL) (keeps_modEng _ _ (Sub.trans (by decide) hL) k3))

theorem keeps_raiseTrip {L : List Part} {r s : State} (e : Nat) (t : Nat)
    (hL : Sub [.eng] L) (h : Keeps L r s) : Keeps L r (State.raiseTrip s e t) := by
  unfold State.raiseTrip
  exact (keeps_modEng _ _ (Sub.trans (by decide) hL) h)

theorem keeps_missDeadline {L : List Part} {r s : State} (e : Nat) (t : Nat)
    (hL : Sub [.eng, .engR, .happened] L) (h : Keeps L r s) : Keeps L r (State.missDeadline s e t) := by
  unfold State.missDeadline
  extract_lets +onlyGivenNames -merge -useContext -underBinder x0
  extract_lets +onlyGivenNames -merge -useContext -underBinder x1
  have k2 : Keeps L r (x1) := (keeps_modRun _ _ (Sub.trans (by decide) hL) (keeps_latch _ _ (hL _ (by decide)) (in_eng (hL _ (by decide)) (by decide)) h))
  try clear_value x1
  exact (Keeps.ite (keeps_raiseTrip _ _ (Sub.trans (by decide) hL) k2) k2)

theorem keeps_commitLane {L : List Part} {r s : State} (e : Nat) (x : LaneResult)
    (hL : Sub [.engR] L) (h : Keeps L r s) : Keeps L r (State.commitLane s e x) := by
  unfold State.commitLane
  extract_lets +onlyGivenNames -merge -useContext -underBinder x0
  extract_lets +onlyGivenNames -merge -useContext -underBinder x1
  have k2 : Keeps L r (x1) := (keeps_forAll _ _ h fun y4 y5 b6 k3 => (keeps_setF _ _ _ (in_eng (hL _ (by decide)) (off_at (n := 48896) (by omega) (by decide))) k3))
  try clear_value x1
  extract_lets +onlyGivenNames -merge -useContext -underBinder x7
  have k8 : Keeps L r (x7) := (keeps_forAll _ _ k2 fun y10 y11 b12 k9 => (keeps_set64 _ _ _ _ (in_eng (hL _ (by decide)) (off_at (n := 48768) (by omega) (by decide))) (in_eng (hL _ (by decide)) (off_at (n := 48764) (by omega) (by decide))) k9))
  try clear_value x7
  exact (keeps_forAll _ _ k8 fun y14 y15 b16 k13 => (keeps_set64 _ _ _ _ (in_eng (hL _ (by decide)) (off_at (n := 48624) (by omega) (by decide))) (in_eng (hL _ (by decide)) (off_at (n := 48620) (by omega) (by decide))) k13))

theorem keeps_engLeave {L : List Part} {r s : State} (e : Nat) (v2 : EngRun) (x : Option LaneResult) (edge : Nat)
    (hL : Sub [.eng, .engR, .happened, .crier, .attic] L) (h : Keeps L r s) : Keeps L r (State.engLeave s e v2 x edge) := by
  unfold State.engLeave
  extract_lets +onlyGivenNames -merge -useContext -underBinder x0
  extract_lets +onlyGivenNames -merge -useContext -underBinder x1
  try clear_value x1
  extract_lets +onlyGivenNames -merge -useContext -underBinder x2
  try clear_value x2
  extract_lets +onlyGivenNames -merge -useContext -underBinder x3
  have k4 : Keeps L r (x3) := by
    unfold x3
    split
    · exact (Keeps.ite (keeps_missDeadline _ _ (Sub.trans (by decide) hL) h) h)
    · exact h
  try clear_value x3
  extract_lets +onlyGivenNames -merge -useContext -underBinder x5
  try clear_value x5
  extract_lets +onlyGivenNames -merge -useContext -underBinder x6
  have k7 : Keeps L r (x6) := (Keeps.ite (keeps_latch _ _ (hL _ (by decide)) (in_eng (hL _ (by decide)) (by decide)) k4) k4)
  try clear_value x6
  extract_lets +onlyGivenNames -merge -useContext -underBinder x8
  have k9 : Keeps L r (x8) := (Keeps.ite (keeps_latch _ _ (hL _ (by decide)) (in_eng (hL _ (by decide)) (by decide)) k7) k7)
  try clear_value x8
  extract_lets +onlyGivenNames -merge -useContext -underBinder x10
  try clear_value x10
  extract_lets +onlyGivenNames -merge -useContext -underBinder x11
  try clear_value x11
  extract_lets +onlyGivenNames -merge -useContext -underBinder x12
  try clear_value x12
  extract_lets +onlyGivenNames -merge -useContext -underBinder x13
  try clear_value x13
  extract_lets +onlyGivenNames -merge -useContext -underBinder x14
  have k15 : Keeps L r (x14) := (keeps_setF _ _ _ (in_eng (hL _ (by decide)) (by decide)) (keeps_setF _ _ _ (in_eng (hL _ (by decide)) (by decide)) k9))
  try clear_value x14
  extract_lets +onlyGivenNames -merge -useContext -underBinder x16
  have k17 : Keeps L r (x16) := (keeps_pulseIf _ _ (Sub.trans (by decide) hL) k15)
  try clear_value x16
  extract_lets +onlyGivenNames -merge -useContext -underBinder x18
  have k19 : Keeps L r (x18) := (keeps_modEng _ _ (Sub.trans (by decide) hL) k17)
  try clear_value x18
  extract_lets +onlyGivenNames -merge -useContext -underBinder x20
  have k21 : Keeps L r (x20) := (Keeps.ite (keeps_raiseTrip _ _ (Sub.trans (by decide) hL) k19) k19)
  try clear_value x20
  extract_lets +onlyGivenNames -merge -useContext -underBinder x22
  have k23 : Keeps L r (x22) := by
    unfold x22
    split
    · refine Keeps.ite ?_ k21
      extract_lets +onlyGivenNames -merge -useContext -underBinder x24
      have k25 : Keeps L r (x24) := (keeps_modEng _ _ (Sub.trans (by decide) hL) (keeps_commitLane _ _ (Sub.trans (by decide) hL) k21))
      try clear_value x24
      extract_lets +onlyGivenNames -merge -useContext -underBinder x26
      have k27 : Keeps L r (x26) := by
        unfold x26
        refine Keeps.foldl ?_ k25
        intro y28 y29 k30
        split
        · exact (keeps_offer _ _ (Sub.trans (by decide) hL) k30)
        · exact k30
      try clear_value x26
      exact (Keeps.ite (keeps_raiseTrip _ _ (Sub.trans (by decide) hL) (keeps_latch _ _ (hL _ (by decide)) (in_eng (hL _ (by decide)) (by decide)) k27)) k27)
    · exact k21
  try clear_value x22
  split
  · exact (Keeps.ite (keeps_engAccept _ _ (Sub.trans (by decide) hL) k23) (keeps_modEng _ _ (Sub.trans (by decide) hL) (keeps_countSat _ _ _ (hL _ (by decide)) (in_eng (hL _ (by decide)) (by decide)) k23)))
  · exact k23

theorem keeps_engTripRel {L : List Part} {r s : State} (e : Nat)
    (hL : Sub [.trpR, .trip, .knrR, .celR, .aisle, .crier, .cellar, .ring, .attic, .atcR, .mem, .happened, .stlR, .wdtR, .eng] L) (h : Keeps L r s) : Keeps L r (State.engTripRel s e) := by
  unfold State.engTripRel
  exact (keeps_srcFall _ (Sub.trans (by decide) hL) (keeps_modEng _ _ (Sub.trans (by decide) hL) h))

theorem keeps_engPublish {L : List Part} {r s : State} (e : Nat)
    (hL : Sub [.engR] L) (h : Keeps L r s) : Keeps L r (State.engPublish s e) := by
  unfold State.engPublish
  extract_lets +onlyGivenNames -merge -useContext -underBinder x0
  exact (Keeps.ite (keeps_setB _ _ _ (in_eng (hL _ (by decide)) (by decide)) h) (keeps_publishCopy _ (Sub.trans (by decide) hL) h))

theorem keeps_engFltRel {L : List Part} {r s : State} (e : Nat) (faults : Nat)
    (hL : Sub [.engR] L) (h : Keeps L r s) : Keeps L r (State.engFltRel s e faults) := by
  unfold State.engFltRel
  extract_lets +onlyGivenNames -merge -useContext -underBinder x0
  have k1 : ∀ (u : State) (i : Nat) (f : Fld), f.off < 0xC000 → Keeps L r u → Keeps L r (x0 u i f) := by
    intro u i f hf k2
    unfold x0
    exact Keeps.ite (keeps_unlatch _ _ (in_eng (hL _ (by decide)) hf) k2) k2
  clear_value x0
  exact k1 _ _ _ (by decide) (k1 _ _ _ (by decide) (k1 _ _ _ (by decide) (k1 _ _ _ (by decide) (k1 _ _ _ (by decide) h))))

theorem keeps_engCntClr {L : List Part} {r s : State} (e : Nat)
    (hL : Sub [.engR] L) (h : Keeps L r s) : Keeps L r (State.engCntClr s e) := by
  unfold State.engCntClr
  extract_lets +onlyGivenNames -merge -useContext -underBinder x0
  exact (keeps_clearCount _ _ (in_eng (hL _ (by decide)) (by decide)) (keeps_clearCount _ _ (in_eng (hL _ (by decide)) (by decide)) (keeps_clearCount _ _ (in_eng (hL _ (by decide)) (by decide)) h)))

theorem keeps_engAbandon {L : List Part} {r s : State} (e : Nat)
    (hL : Sub [.eng] L) (h : Keeps L r s) : Keeps L r (State.engAbandon s e) := by
  unfold State.engAbandon
  exact (keeps_modEng _ _ (Sub.trans (by decide) hL) h)

theorem keeps_engCmd {L : List Part} {r s : State} (e : Nat) (value : Nat)
    (hL : Sub [.eng, .engR, .happened, .trpR, .trip, .knrR, .celR, .aisle, .crier, .cellar, .ring, .attic, .atcR, .mem, .stlR, .wdtR] L) (h : Keeps L r s) : Keeps L r (State.engCmd s e value) := by
  unfold State.engCmd
  refine Keeps.ite h ?_
  extract_lets +onlyGivenNames -merge -useContext -underBinder x0
  have k1 : Keeps L r (x0) := (Keeps.ite (keeps_engTrigger _ _ (Sub.trans (by decide) hL) h) h)
  try clear_value x0
  extract_lets +onlyGivenNames -merge -useContext -underBinder x2
  have k3 : Keeps L r (x2) := (Keeps.ite (keeps_engPublish _ (Sub.trans (by decide) hL) k1) k1)
  try clear_value x2
  extract_lets +onlyGivenNames -merge -useContext -underBinder x4
  have k5 : Keeps L r (x4) := (Keeps.ite (keeps_engTripRel _ (Sub.trans (by decide) hL) k3) k3)
  try clear_value x4
  extract_lets +onlyGivenNames -merge -useContext -underBinder x6
  have k7 : Keeps L r (x6) := (Keeps.ite (keeps_engCntClr _ (Sub.trans (by decide) hL) k5) k5)
  try clear_value x6
  exact (keeps_engFltRel _ _ (Sub.trans (by decide) hL) k7)

theorem keeps_freeze {L : List Part} {r s : State} (e : Nat) (value : Nat)
    (hL : Sub [.warranted, .stlR] L) (h : Keeps L r s) : Keeps L r (State.freeze s e value) := by
  unfold State.freeze
  extract_lets +onlyGivenNames -merge -useContext -underBinder x0
  extract_lets +onlyGivenNames -merge -useContext -underBinder x1
  try clear_value x1
  extract_lets +onlyGivenNames -merge -useContext -underBinder x2
  have k3 : Keeps L r (x2) := (keeps_must _ (Sub.trans (by decide) hL) h)
  try clear_value x2
  extract_lets +onlyGivenNames -merge -useContext -underBinder x4
  have k5 : Keeps L r (x4) := (keeps_setF _ _ _ (in_stl (hL _ (by decide)) (by decide)) k3)
  try clear_value x4
  exact (Keeps.ite (Keeps.ite k5 (keeps_setB _ _ _ (in_stl (hL _ (by decide)) (by decide)) k5)) (keeps_setB _ _ _ (in_stl (hL _ (by decide)) (by decide)) k5))

theorem keeps_execStart {L : List Part} {r s : State} (init : Fin 16) (e : Fin 12)
    (hL : Sub [.sysR, .happened, .eng, .engR, .legR, .leg, .attic] L) (h : Keeps L r s) : Runs L r (execStart init e s) := by
  unfold execStart
  exact (Runs.next (keeps_onCommand _ _ _ (Sub.trans (by decide) hL) h (fun y0 k1 => (keeps_engTrigger _ _ (Sub.trans (by decide) hL) (keeps_settle (Sub.trans (by decide) hL) k1)))))

theorem keeps_execEngEnd {L : List Part} {r s : State} (e : Fin 12)
    (hL : Sub [.eng, .engR, .legR, .leg, .attic, .happened, .now] L) (h : Keeps L r s) : Runs L r (execEngEnd e s) := by
  unfold execEngEnd
  exact (Runs.next (keeps_engOp _ _ _ (Sub.trans (by decide) hL) h))

theorem keeps_execEngLd {L : List Part} {r s : State} (e : Fin 12) (u : Option LaneUpset)
    (hL : Sub [.eng, .engR, .legR, .leg, .attic, .happened, .now] L) (h : Keeps L r s) : Runs L r (execEngLd e u s) := by
  unfold execEngLd
  exact (Runs.next (keeps_engOp _ _ _ (Sub.trans (by decide) hL) h))

theorem keeps_execEngLdr {L : List Part} {r s : State} (e : Fin 12) (u : Option LaneUpset)
    (hL : Sub [.eng, .engR, .legR, .leg, .attic, .happened, .now] L) (h : Keeps L r s) : Runs L r (execEngLdr e u s) := by
  unfold execEngLdr
  exact (Runs.next (keeps_engOp _ _ _ (Sub.trans (by decide) hL) h))

theorem keeps_execEngLdm {L : List Part} {r s : State} (e : Fin 12) (u : Option LaneUpset)
    (hL : Sub [.eng, .engR, .legR, .leg, .attic, .happened, .now] L) (h : Keeps L r s) : Runs L r (execEngLdm e u s) := by
  unfold execEngLdm
  exact (Runs.next (keeps_engOp _ _ _ (Sub.trans (by decide) hL) h))

theorem keeps_execEngMov {L : List Part} {r s : State} (e : Fin 12) (u : Option LaneUpset)
    (hL : Sub [.eng, .engR, .legR, .leg, .attic, .happened, .now] L) (h : Keeps L r s) : Runs L r (execEngMov e u s) := by
  unfold execEngMov
  exact (Runs.next (keeps_engOp _ _ _ (Sub.trans (by decide) hL) h))

theorem keeps_execEngLdi {L : List Part} {r s : State} (e : Fin 12) (u : Option LaneUpset)
    (hL : Sub [.eng, .engR, .legR, .leg, .attic, .happened, .now] L) (h : Keeps L r s) : Runs L r (execEngLdi e u s) := by
  unfold execEngLdi
  exact (Runs.next (keeps_engOp _ _ _ (Sub.trans (by decide) hL) h))

theorem keeps_execEngAdd {L : List Part} {r s : State} (e : Fin 12) (u : Option LaneUpset)
    (hL : Sub [.eng, .engR, .legR, .leg, .attic, .happened, .now] L) (h : Keeps L r s) : Runs L r (execEngAdd e u s) := by
  unfold execEngAdd
  exact (Runs.next (keeps_engOp _ _ _ (Sub.trans (by decide) hL) h))

theorem keeps_execEngSub {L : List Part} {r s : State} (e : Fin 12) (u : Option LaneUpset)
    (hL : Sub [.eng, .engR, .legR, .leg, .attic, .happened, .now] L) (h : Keeps L r s) : Runs L r (execEngSub e u s) := by
  unfold execEngSub
  exact (Runs.next (keeps_engOp _ _ _ (Sub.trans (by decide) hL) h))

theorem keeps_execEngMul {L : List Part} {r s : State} (e : Fin 12) (u : Option LaneUpset)
    (hL : Sub [.eng, .engR, .legR, .leg, .attic, .happened, .now] L) (h : Keeps L r s) : Runs L r (execEngMul e u s) := by
  unfold execEngMul
  exact (Runs.next (keeps_engOp _ _ _ (Sub.trans (by decide) hL) h))

theorem keeps_execEngMac {L : List Part} {r s : State} (e : Fin 12) (u : Option LaneUpset)
    (hL : Sub [.eng, .engR, .legR, .leg, .attic, .happened, .now] L) (h : Keeps L r s) : Runs L r (execEngMac e u s) := by
  unfold execEngMac
  exact (Runs.next (keeps_engOp _ _ _ (Sub.trans (by decide) hL) h))

theorem keeps_execEngSat {L : List Part} {r s : State} (e : Fin 12) (u : Option LaneUpset)
    (hL : Sub [.eng, .engR, .legR, .leg, .attic, .happened, .now] L) (h : Keeps L r s) : Runs L r (execEngSat e u s) := by
  unfold execEngSat
  exact (Runs.next (keeps_engOp _ _ _ (Sub.trans (by decide) hL) h))

theorem keeps_execEngClamp {L : List Part} {r s : State} (e : Fin 12) (u : Option LaneUpset)
    (hL : Sub [.eng, .engR, .legR, .leg, .attic, .happened, .now] L) (h : Keeps L r s) : Runs L r (execEngClamp e u s) := by
  unfold execEngClamp
  exact (Runs.next (keeps_engOp _ _ _ (Sub.trans (by decide) hL) h))

theorem keeps_execEngAbs {L : List Part} {r s : State} (e : Fin 12) (u : Option LaneUpset)
    (hL : Sub [.eng, .engR, .legR, .leg, .attic, .happened, .now] L) (h : Keeps L r s) : Runs L r (execEngAbs e u s) := by
  unfold execEngAbs
  exact (Runs.next (keeps_engOp _ _ _ (Sub.trans (by decide) hL) h))

theorem keeps_execEngPi {L : List Part} {r s : State} (e : Fin 12) (u : Option LaneUpset)
    (hL : Sub [.eng, .engR, .legR, .leg, .attic, .happened, .now] L) (h : Keeps L r s) : Runs L r (execEngPi e u s) := by
  unfold execEngPi
  exact (Runs.next (keeps_engOp _ _ _ (Sub.trans (by decide) hL) h))

theorem keeps_execEngClarke {L : List Part} {r s : State} (e : Fin 12) (u : Option LaneUpset)
    (hL : Sub [.eng, .engR, .legR, .leg, .attic, .happened, .now] L) (h : Keeps L r s) : Runs L r (execEngClarke e u s) := by
  unfold execEngClarke
  exact (Runs.next (keeps_engOp _ _ _ (Sub.trans (by decide) hL) h))

theorem keeps_execEngPark {L : List Part} {r s : State} (e : Fin 12) (u : Option LaneUpset)
    (hL : Sub [.eng, .engR, .legR, .leg, .attic, .happened, .now] L) (h : Keeps L r s) : Runs L r (execEngPark e u s) := by
  unfold execEngPark
  exact (Runs.next (keeps_engOp _ _ _ (Sub.trans (by decide) hL) h))

theorem keeps_execEngIpark {L : List Part} {r s : State} (e : Fin 12) (u : Option LaneUpset)
    (hL : Sub [.eng, .engR, .legR, .leg, .attic, .happened, .now] L) (h : Keeps L r s) : Runs L r (execEngIpark e u s) := by
  unfold execEngIpark
  exact (Runs.next (keeps_engOp _ _ _ (Sub.trans (by decide) hL) h))

theorem keeps_execEngSincos {L : List Part} {r s : State} (e : Fin 12) (u : Option LaneUpset)
    (hL : Sub [.eng, .engR, .legR, .leg, .attic, .happened, .now] L) (h : Keeps L r s) : Runs L r (execEngSincos e u s) := by
  unfold execEngSincos
  exact (Runs.next (keeps_engOp _ _ _ (Sub.trans (by decide) hL) h))

theorem keeps_execEngNco {L : List Part} {r s : State} (e : Fin 12) (u : Option LaneUpset)
    (hL : Sub [.eng, .engR, .legR, .leg, .attic, .happened, .now] L) (h : Keeps L r s) : Runs L r (execEngNco e u s) := by
  unfold execEngNco
  exact (Runs.next (keeps_engOp _ _ _ (Sub.trans (by decide) hL) h))

theorem keeps_execEngSvm {L : List Part} {r s : State} (e : Fin 12) (u : Option LaneUpset)
    (hL : Sub [.eng, .engR, .legR, .leg, .attic, .happened, .now] L) (h : Keeps L r s) : Runs L r (execEngSvm e u s) := by
  unfold execEngSvm
  exact (Runs.next (keeps_engOp _ _ _ (Sub.trans (by decide) hL) h))

theorem keeps_execEngSt {L : List Part} {r s : State} (e : Fin 12) (u : Option LaneUpset)
    (hL : Sub [.eng, .engR, .legR, .leg, .attic, .happened, .now] L) (h : Keeps L r s) : Runs L r (execEngSt e u s) := by
  unfold execEngSt
  exact (Runs.next (keeps_engOp _ _ _ (Sub.trans (by decide) hL) h))

theorem keeps_execEngSti {L : List Part} {r s : State} (e : Fin 12) (u : Option LaneUpset)
    (hL : Sub [.eng, .engR, .legR, .leg, .attic, .happened, .now] L) (h : Keeps L r s) : Runs L r (execEngSti e u s) := by
  unfold execEngSti
  exact (Runs.next (keeps_engOp _ _ _ (Sub.trans (by decide) hL) h))

theorem keeps_execEngSto {L : List Part} {r s : State} (e : Fin 12) (u : Option LaneUpset)
    (hL : Sub [.eng, .engR, .legR, .leg, .attic, .happened, .now] L) (h : Keeps L r s) : Runs L r (execEngSto e u s) := by
  unfold execEngSto
  exact (Runs.next (keeps_engOp _ _ _ (Sub.trans (by decide) hL) h))

theorem keeps_execEngTrip {L : List Part} {r s : State} (e : Fin 12) (u : Option LaneUpset)
    (hL : Sub [.eng, .engR, .legR, .leg, .attic, .happened, .now] L) (h : Keeps L r s) : Runs L r (execEngTrip e u s) := by
  unfold execEngTrip
  exact (Runs.next (keeps_engOp _ _ _ (Sub.trans (by decide) hL) h))

theorem keeps_execEngMark {L : List Part} {r s : State} (e : Fin 12) (u : Option LaneUpset)
    (hL : Sub [.eng, .engR, .legR, .leg, .attic, .happened, .now] L) (h : Keeps L r s) : Runs L r (execEngMark e u s) := by
  unfold execEngMark
  exact (Runs.next (keeps_engOp _ _ _ (Sub.trans (by decide) hL) h))

theorem keeps_execEngBrf {L : List Part} {r s : State} (e : Fin 12) (u : Option LaneUpset)
    (hL : Sub [.eng, .engR, .legR, .leg, .attic, .happened, .now] L) (h : Keeps L r s) : Runs L r (execEngBrf e u s) := by
  unfold execEngBrf
  exact (Runs.next (keeps_engOp _ _ _ (Sub.trans (by decide) hL) h))

theorem keeps_execIllop {L : List Part} {r s : State} (e : Fin 12) (secded : Bool)
    (hL : Sub [.eng, .engR, .legR, .leg, .attic, .happened, .now] L) (h : Keeps L r s) : Runs L r (execIllop e secded s) := by
  unfold execIllop
  refine Runs.next ?_
  split
  · exact h
  · extract_lets +onlyGivenNames -merge -useContext -underBinder x0
    have k1 : Keeps L r (x0) := (keeps_aisleTime _ (Sub.trans (by decide) hL) h)
    try clear_value x0
    split
    · exact h
    · refine Keeps.ite ?_ h
      extract_lets +onlyGivenNames -merge -useContext -underBinder x2
      have k3 : Keeps L r (x2) := (keeps_raiseTrip _ _ (Sub.trans (by decide) hL) (keeps_modEng _ _ (Sub.trans (by decide) hL) (keeps_latch _ _ (hL _ (by decide)) (in_eng (hL _ (by decide)) (by decide)) k1)))
      try clear_value x2
      split
      · exact (Keeps.ite (keeps_engAccept _ _ (Sub.trans (by decide) hL) k3) k3)
      · exact k3

theorem keeps_execResultRelease {L : List Part} {r s : State} (e : Fin 12)
    (hL : Sub [.eng, .engR, .legR, .leg, .attic, .happened, .now, .crier] L) (h : Keeps L r s) : Runs L r (execResultRelease e s) := by
  unfold execResultRelease
  refine Runs.next ?_
  split
  · exact h
  · extract_lets +onlyGivenNames -merge -useContext -underBinder x0
    have k1 : Keeps L r (x0) := (keeps_aisleTime _ (Sub.trans (by decide) hL) h)
    try clear_value x0
    split
    · exact h
    · exact (Keeps.ite (Keeps.ite (keeps_engLeave _ _ _ _ (Sub.trans (by decide) hL) k1) (keeps_engLose _ (Sub.trans (by decide) hL) (keeps_modRun _ _ (Sub.trans (by decide) hL) (keeps_countSat _ _ _ (hL _ (by decide)) (in_eng (hL _ (by decide)) (by decide)) k1)))) h)

theorem keeps_execVote {L : List Part} {r s : State} (e : Fin 12)
    (hL : Sub [.eng, .engR, .legR, .leg, .attic, .happened, .now, .crier] L) (h : Keeps L r s) : Runs L r (execVote e s) := by
  unfold execVote
  refine Runs.next ?_
  split
  · exact h
  · extract_lets +onlyGivenNames -merge -useContext -underBinder x0
    have k1 : Keeps L r (x0) := (keeps_aisleTime _ (Sub.trans (by decide) hL) h)
    try clear_value x0
    split
    · exact h
    · split
      · exact h
      · exact (Keeps.ite (keeps_engLeave _ _ _ _ (Sub.trans (by decide) hL) k1) h)

theorem keeps_execDeadlineMiss {L : List Part} {r s : State} (e : Fin 12)
    (hL : Sub [.eng, .engR, .happened, .legR, .leg, .attic, .now] L) (h : Keeps L r s) : Runs L r (execDeadlineMiss e s) := by
  unfold execDeadlineMiss
  refine Runs.next ?_
  split
  · exact h
  · split
    · exact (Keeps.ite h (keeps_missDeadline _ _ (Sub.trans (by decide) hL) (keeps_aisleTime _ (Sub.trans (by decide) hL) h)))
    · exact h

theorem keeps_execFltRel {L : List Part} {r s : State} (init : Fin 16) (e : Fin 12) (faults : BitVec 5)
    (hL : Sub [.sysR, .happened, .engR] L) (h : Keeps L r s) : Runs L r (execFltRel init e faults s) := by
  unfold execFltRel
  exact (Runs.next (keeps_onCommand _ _ _ (Sub.trans (by decide) hL) h (fun y0 k1 => (keeps_engFltRel _ _ (Sub.trans (by decide) hL) k1))))

theorem keeps_execTripRel {L : List Part} {r s : State} (init : Fin 16) (e : Fin 12)
    (hL : Sub [.sysR, .happened, .trpR, .trip, .knrR, .celR, .aisle, .crier, .cellar, .ring, .attic, .atcR, .mem, .stlR, .wdtR, .eng] L) (h : Keeps L r s) : Runs L r (execTripRel init e s) := by
  unfold execTripRel
  exact (Runs.next (keeps_onCommand _ _ _ (Sub.trans (by decide) hL) h (fun y0 k1 => (keeps_engTripRel _ (Sub.trans (by decide) hL) k1))))

theorem keeps_execPublish {L : List Part} {r s : State} (init : Fin 16) (e : Fin 12)
    (hL : Sub [.sysR, .happened, .engR, .eng, .legR, .leg, .attic] L) (h : Keeps L r s) : Runs L r (execPublish init e s) := by
  unfold execPublish
  exact (Runs.next (keeps_onCommand _ _ _ (Sub.trans (by decide) hL) h (fun y0 k1 => (keeps_engPublish _ (Sub.trans (by decide) hL) (keeps_settle (Sub.trans (by decide) hL) k1)))))

theorem keeps_execEngCntClr {L : List Part} {r s : State} (init : Fin 16) (e : Fin 12)
    (hL : Sub [.sysR, .happened, .engR] L) (h : Keeps L r s) : Runs L r (execEngCntClr init e s) := by
  unfold execEngCntClr
  exact (Runs.next (keeps_onCommand _ _ _ (Sub.trans (by decide) hL) h (fun y0 k1 => (keeps_engCntClr _ (Sub.trans (by decide) hL) k1))))

theorem keeps_execNcoPhase {L : List Part} {r s : State} (init : Fin 16) (e : Fin 12) (value : Word)
    (hL : Sub [.sysR, .happened, .eng, .engR] L) (h : Keeps L r s) : Runs L r (execNcoPhase init e value s) := by
  unfold execNcoPhase
  exact (Runs.next (keeps_onCommand _ _ _ (Sub.trans (by decide) hL) h (fun y0 k1 => (keeps_setNcoPhase _ _ (Sub.trans (by decide) hL) k1))))

theorem keeps_execNcoFreq {L : List Part} {r s : State} (init : Fin 16) (e : Fin 12) (value : Word)
    (hL : Sub [.sysR, .happened, .engR, .eng] L) (h : Keeps L r s) : Runs L r (execNcoFreq init e value s) := by
  unfold execNcoFreq
  exact (Runs.next (keeps_onCommand _ _ _ (Sub.trans (by decide) hL) h (fun y0 k1 => (keeps_setNcoFreq _ _ (Sub.trans (by decide) hL) k1))))

theorem keeps_execFreeze {L : List Part} {r s : State} (init : Fin 16) (e : Fin 12) (value : Word)
    (hL : Sub [.sysR, .happened, .warranted, .stlR] L) (h : Keeps L r s) : Runs L r (execFreeze init e value s) := by
  unfold execFreeze
  exact (Runs.next (keeps_onCommand _ _ _ (Sub.trans (by decide) hL) h (fun y0 k1 => (keeps_freeze _ _ (Sub.trans (by decide) hL) k1))))

theorem keeps_execScanComplete {L : List Part} {r s : State} (k : Fin 12)
    (hL : Sub [.eng, .engR, .legR, .leg, .attic, .happened, .now, .cnv, .cnvR, .crier, .aisR] L) (h : Keeps L r s) : Runs L r (execScanComplete k s) := by
  unfold execScanComplete
  refine Runs.next ?_
  split
  · exact h
  · refine Keeps.ite ?_ h
    extract_lets +onlyGivenNames -merge -useContext -underBinder x0
    have k1 : Keeps L r (x0) := (keeps_aisleTime _ (Sub.trans (by decide) hL) h)
    try clear_value x0
    extract_lets +onlyGivenNames -merge -useContext -underBinder x2
    try clear_value x2
    extract_lets +onlyGivenNames -merge -useContext -underBinder x3
    try clear_value x3
    extract_lets +onlyGivenNames -merge -useContext -underBinder x4
    try clear_value x4
    extract_lets +onlyGivenNames -merge -useContext -underBinder x5
    try clear_value x5
    extract_lets +onlyGivenNames -merge -useContext -underBinder x6
    have k7 : Keeps L r (x6) := (Keeps.ite k1 (keeps_offer _ _ (Sub.trans (by decide) hL) k1))
    try clear_value x6
    refine keeps_forAll _ _ (keeps_scanDone _ _ (Sub.trans (by decide) hL) k7) ?_
    intro y9 y10 b11 k8
    extract_lets +onlyGivenNames -merge -useContext -underBinder x12
    try clear_value x12
    exact (Keeps.ite (keeps_engTrigger _ _ (Sub.trans (by decide) hL) k8) k8)

end Sys2Proof.Laws
end

