-- ==== Sys2Proof/Laws/KeepMemory.lean ====
section
/-! SUPPORT. What the operations of Machine/Memory.lean may change, and what they keep (see Keeps.lean). -/

namespace Sys2Proof.Laws

open Sys2Proof Sys2Proof.Machine Sys2Proof.Safety

theorem keeps_corrected {L : List Part} {r s : State} (m : Nat) (init : Nat) (addr : Nat) (syndrome : Nat)
    (hL : Sub [.sysR, .happened] L) (h : Keeps L r s) : Keeps L r (State.corrected s m init addr syndrome) := by
  unfold State.corrected
  exact (keeps_setF _ _ _ (in_sys (hL _ (by decide)) (by decide)) (keeps_setF _ _ _ (in_sys (hL _ (by decide)) (by decide)) (keeps_setF _ _ _ (in_sys (hL _ (by decide)) (by decide)) (keeps_setF _ _ _ (in_sys (hL _ (by decide)) (by decide)) (keeps_countSat _ _ _ (hL _ (by decide)) (in_sys (hL _ (by decide)) (off_at (n := 16777152) (by omega) (by decide))) h)))))

theorem keeps_cancelWriteBack {L : List Part} {r s : State} (w : Nat) (n : Nat)
    (hL : Sub [.writeBack] L) (h : Keeps L r s) : Keeps L r (State.cancelWriteBack s w n) := by
  unfold State.cancelWriteBack
  exact (Keeps.set_writeBack (hL _ (by decide)) h)

theorem keeps_findWord {L : List Part} {r s : State} (v1 : Area) (init : Nat) (w : Nat) (v4 : EccFinding)
    (hL : Sub [.sysR, .happened, .writeBack] L) (h : Keeps L r s) : Keeps L r (State.findWord s v1 init w v4) := by
  unfold State.findWord
  split
  · extract_lets +onlyGivenNames -merge -useContext -underBinder x0
    have k1 : Keeps L r (x0) := (keeps_corrected _ _ _ _ (Sub.trans (by decide) hL) h)
    try clear_value x0
    exact (Keeps.set_writeBack (hL _ (by decide)) k1)
  · exact h

theorem keeps_busTransfer {L : List Part} {r s : State} (init : Nat) (addr : Nat) (env : BusEnv)
    (hL : Sub [.sysR, .happened] L) (h : Keeps L r s) : Keeps1 L r (State.busTransfer s init addr env) := by
  unfold State.busTransfer
  exact (Keeps1.ite (Keeps1.mk h) (Keeps1.ite (Keeps1.mk (keeps_corrected _ _ _ _ (Sub.trans (by decide) hL) h)) (Keeps1.mk h)))

theorem keeps_fail {L : List Part} {r s : State} (init : Nat) (addr : Nat) (kind : Nat) (write : Bool)
    (hL : Sub [.sysR, .happened] L) (h : Keeps L r s) : Keeps2 L r (State.fail s init addr kind write) := by
  unfold State.fail
  exact (Keeps2.mk (keeps_busError _ _ _ _ (Sub.trans (by decide) hL) h))

theorem keeps_askSuspend {L : List Part} {r s : State} (sw : Bool)
    (hL : Sub [.flash] L) (h : Keeps L r s) : Keeps L r (State.askSuspend s sw) := by
  unfold State.askSuspend
  split
  · exact h
  · extract_lets +onlyGivenNames -merge -useContext -underBinder x0
    try clear_value x0
    extract_lets +onlyGivenNames -merge -useContext -underBinder x1
    try clear_value x1
    exact (Keeps.set_flash (hL _ (by decide)) h)

theorem keeps_flashCorrected {L : List Part} {r s : State} (line : Nat)
    (hL : Sub [.crier, .flcR, .happened] L) (h : Keeps L r s) : Keeps L r (State.flashCorrected s line) := by
  unfold State.flashCorrected
  exact (keeps_pulseIf _ _ (Sub.trans (by decide) hL) (keeps_setF _ _ _ (in_flc (hL _ (by decide)) (by decide)) (keeps_countSat _ _ _ (hL _ (by decide)) (in_flc (hL _ (by decide)) (by decide)) h)))

theorem keeps_flashUncorrectable {L : List Part} {r s : State} 
    (hL : Sub [.crier, .flcR, .happened] L) (h : Keeps L r s) : Keeps L r (State.flashUncorrectable s) := by
  unfold State.flashUncorrectable
  exact (keeps_pulseIf _ _ (Sub.trans (by decide) hL) (keeps_countSat _ _ _ (hL _ (by decide)) (in_flc (hL _ (by decide)) (by decide)) h))

theorem keeps_fillBuffer {L : List Part} {r s : State} (line : Nat)
    (hL : Sub [.flash, .free] L) (h : Keeps L r s) : Keeps L r (State.fillBuffer s line) := by
  unfold State.fillBuffer
  refine Keeps.ite (Keeps.set_flash (hL _ (by decide)) h) ?_
  split
  · exact (Keeps.set_flash (hL _ (by decide)) (Keeps.of_snd (by with_reducible assumption) (keeps_takeFree (Sub.trans (by decide) hL) h)))

theorem keeps_arrayRead {L : List Part} {r s : State} (line : Nat) (fetch : Bool) (ecc : EccFinding)
    (hL : Sub [.crier, .flcR, .happened, .flash, .free] L) (h : Keeps L r s) : Keeps2 L r (State.arrayRead s line fetch ecc) := by
  unfold State.arrayRead
  split
  · exact (Keeps2.mk (Keeps.ite h (keeps_flashUncorrectable (Sub.trans (by decide) hL) h)))
  · exact (Keeps2.mk (keeps_flashCorrected _ (Sub.trans (by decide) hL) (Keeps.ite h (keeps_fillBuffer _ (Sub.trans (by decide) hL) h))))
  · exact (Keeps2.mk (Keeps.ite h (keeps_fillBuffer _ (Sub.trans (by decide) hL) h)))

theorem keeps_servedAt {L : List Part} {r s : State} (b : Nat)
    (hL : Sub [.flash] L) (h : Keeps L r s) : Keeps L r (State.servedAt s b) := by
  unfold State.servedAt
  split
  · exact (Keeps.ite (Keeps.set_flash (hL _ (by decide)) h) h)
  · exact h

theorem keeps_arrives {L : List Part} {r s : State} (b : Nat)
    (hL : Sub [.flcR, .flash] L) (h : Keeps L r s) : Keeps L r (State.arrives s b) := by
  unfold State.arrives
  split
  · exact (Keeps.ite (keeps_setB _ _ _ (in_flc (hL _ (by decide)) (by decide)) (Keeps.set_flash (hL _ (by decide)) h)) h)
  · exact h

theorem keeps_flashLine {L : List Part} {r s : State} (init : Nat) (line : Nat) (fetch : Bool) (ecc : EccFinding)
    (hL : Sub [.crier, .flcR, .happened, .flash, .free] L) (h : Keeps L r s) : Keeps2 L r (State.flashLine s init line fetch ecc) := by
  unfold State.flashLine
  extract_lets +onlyGivenNames -merge -useContext -underBinder x0
  try clear_value x0
  extract_lets +onlyGivenNames -merge -useContext -underBinder x1
  try clear_value x1
  extract_lets +onlyGivenNames -merge -useContext -underBinder x2
  try clear_value x2
  extract_lets +onlyGivenNames -merge -useContext -underBinder x3
  have k4 : ∀ y6, Keeps L r (y6) → Keeps2 L r (x3 y6) := by
    intro y6 k5
    unfold x3
    exact (Keeps2.ite (Keeps2.mk k5) (keeps_arrayRead _ _ _ (Sub.trans (by decide) hL) k5))
  try clear_value x3
  refine Keeps2.ite (Keeps2.mk h) ?_
  refine Keeps2.ite (Keeps2.mk h) ?_
  split
  · exact (Keeps2.ite (k4 _ (Keeps.set_flash (hL _ (by decide)) h)) (Keeps2.mk h))
  · extract_lets +onlyGivenNames -merge -useContext -underBinder x7
    have k8 : Keeps L r (x7) := (keeps_arrives _ (Sub.trans (by decide) hL) h)
    try clear_value x7
    refine Keeps2.ite ?_ (k4 _ (keeps_servedAt _ (Sub.trans (by decide) hL) k8))
    extract_lets +onlyGivenNames -merge -useContext -underBinder x9 x10
    have k11 : Keeps L r (x10) := (Keeps.set_flash (hL _ (by decide)) k8)
    try clear_value x10
    exact (Keeps2.mk (Keeps.ite (keeps_askSuspend _ (Sub.trans (by decide) hL) k11) k11))

theorem keeps_optionRead {L : List Part} {r s : State} (v1 : EccFinding)
    (hL : Sub [.crier, .flcR, .happened] L) (h : Keeps L r s) : Keeps2 L r (State.optionRead s v1) := by
  unfold State.optionRead
  split
  · exact (Keeps2.mk h)
  · exact (Keeps2.mk (keeps_pulseIf _ _ (Sub.trans (by decide) hL) (keeps_countSat _ _ _ (hL _ (by decide)) (in_flc (hL _ (by decide)) (by decide)) h)))
  · exact (Keeps2.mk (keeps_flashUncorrectable (Sub.trans (by decide) hL) h))

theorem keeps_memRead {L : List Part} {r s : State} (init : Nat) (a : Nat) (n : Nat) (env : BusEnv)
    (hL : Sub [.sysR, .happened, .crier, .flcR, .flash, .free, .writeBack] L) (h : Keeps L r s) : Keeps2 L r (State.memRead s init a n env) := by
  unfold State.memRead
  split
  · exact (keeps_fail _ _ _ _ (Sub.trans (by decide) hL) h)
  · refine Keeps2.ite (keeps_fail _ _ _ _ (Sub.trans (by decide) hL) h) ?_
    refine Keeps2.ite (keeps_fail _ _ _ _ (Sub.trans (by decide) hL) h) ?_
    refine Keeps2.ite (Keeps2.mk h) ?_
    split
    · exact (keeps_fail _ _ _ _ (Sub.trans (by decide) hL) (Keeps.of_fst (by with_reducible assumption) (keeps_busTransfer _ _ _ (Sub.trans (by decide) hL) h)))
    · refine Keeps2.ite ?_ ?_
      · split
        · exact (Keeps2.mk (Keeps.of_snd (by with_reducible assumption) (keeps_flashLine _ _ _ _ (Sub.trans (by decide) hL) (Keeps.of_fst (by with_reducible assumption) (keeps_busTransfer _ _ _ (Sub.trans (by decide) hL) h)))))
        · exact (keeps_fail _ _ _ _ (Sub.trans (by decide) hL) (Keeps.of_snd (by with_reducible assumption) (keeps_flashLine _ _ _ _ (Sub.trans (by decide) hL) (Keeps.of_fst (by with_reducible assumption) (keeps_busTransfer _ _ _ (Sub.trans (by decide) hL) h)))))
        · exact (Keeps2.mk (Keeps.of_snd (by with_reducible assumption) (keeps_flashLine _ _ _ _ (Sub.trans (by decide) hL) (Keeps.of_fst (by with_reducible assumption) (keeps_busTransfer _ _ _ (Sub.trans (by decide) hL) h)))))
      · extract_lets +onlyGivenNames -merge -useContext -underBinder x0
        try clear_value x0
        extract_lets +onlyGivenNames -merge -useContext -underBinder x1
        try clear_value x1
        extract_lets +onlyGivenNames -merge -useContext -underBinder x2
        have k3 : Keeps L r (x2) := (keeps_findWord _ _ _ _ (Sub.trans (by decide) hL) (keeps_findWord _ _ _ _ (Sub.trans (by decide) hL) (Keeps.of_fst (by with_reducible assumption) (keeps_busTransfer _ _ _ (Sub.trans (by decide) hL) h))))
        try clear_value x2
        exact (Keeps2.ite (keeps_fail _ _ _ _ (Sub.trans (by decide) hL) k3) (Keeps2.mk k3))

theorem keeps_memPeek {L : List Part} {r s : State} (init : Nat) (a : Nat) (n : Nat) (env : BusEnv)
    (hL : Sub [.sysR, .happened] L) (h : Keeps L r s) : Keeps2 L r (State.memPeek s init a n env) := by
  unfold State.memPeek
  split
  · exact (keeps_fail _ _ _ _ (Sub.trans (by decide) hL) h)
  · exact (Keeps2.mk h)

theorem keeps_memWrite {L : List Part} {r s : State} (init : Nat) (a : Nat) (n : Nat) (data : Nat) (env : BusEnv)
    (hL : Sub [.sysR, .happened, .writeBack, .mem] L) (h : Keeps L r s) : Keeps2 L r (State.memWrite s init a n data env) := by
  unfold State.memWrite
  split
  · exact (keeps_fail _ _ _ _ (Sub.trans (by decide) hL) h)
  · refine Keeps2.ite (keeps_fail _ _ _ _ (Sub.trans (by decide) hL) h) ?_
    refine Keeps2.ite (keeps_fail _ _ _ _ (Sub.trans (by decide) hL) h) ?_
    refine Keeps2.ite (keeps_fail _ _ _ _ (Sub.trans (by decide) hL) h) ?_
    refine Keeps2.ite (Keeps2.mk h) ?_
    split
    · exact (keeps_fail _ _ _ _ (Sub.trans (by decide) hL) (Keeps.of_fst (by with_reducible assumption) (keeps_busTransfer _ _ _ (Sub.trans (by decide) hL) h)))
    · extract_lets +onlyGivenNames -merge -useContext -underBinder x0
      try clear_value x0
      extract_lets +onlyGivenNames -merge -useContext -underBinder x1
      have k2 : ∀ y4, Keeps L r (y4) → Keeps L r (x1 y4) := by
        intro y4 k3
        unfold x1
        exact (keeps_cancelWriteBack _ _ (Sub.trans (by decide) hL) (keeps_setBytes _ _ _ (Sub.trans (by decide) hL) k3))
      try clear_value x1
      refine Keeps2.ite ?_ (Keeps2.mk (k2 _ (Keeps.of_fst (by with_reducible assumption) (keeps_busTransfer _ _ _ (Sub.trans (by decide) hL) h))))
      split
      · exact (keeps_fail _ _ _ _ (Sub.trans (by decide) hL) (Keeps.of_fst (by with_reducible assumption) (keeps_busTransfer _ _ _ (Sub.trans (by decide) hL) h)))
      · exact (Keeps2.mk (k2 _ (keeps_corrected _ _ _ _ (Sub.trans (by decide) hL) (Keeps.of_fst (by with_reducible assumption) (keeps_busTransfer _ _ _ (Sub.trans (by decide) hL) h)))))
      · exact (Keeps2.mk (k2 _ (Keeps.of_fst (by with_reducible assumption) (keeps_busTransfer _ _ _ (Sub.trans (by decide) hL) h))))

theorem keeps_execEccWriteBack {L : List Part} {r s : State} (addr : Nat)
    (hL : Sub [.writeBack] L) (h : Keeps L r s) : Runs L r (execEccWriteBack addr s) := by
  unfold execEccWriteBack
  exact (Runs.next (keeps_cancelWriteBack _ _ (Sub.trans (by decide) hL) h))

theorem keeps_eccCmd {L : List Part} {r s : State} (v : Nat)
    (hL : Sub [.sysR] L) (h : Keeps L r s) : Keeps L r (State.eccCmd s v) := by
  unfold State.eccCmd
  exact (Keeps.ite (keeps_clearCount _ _ (in_sys (hL _ (by decide)) (off_at (n := 16777152) (by omega) (by decide))) h) (Keeps.ite (keeps_forAll _ _ h fun y1 y2 b3 k0 => (keeps_clearCount _ _ (in_sys (hL _ (by decide)) (off_at (n := 16777152) (by omega) (by decide))) k0)) h))

theorem keeps_execEccClear {L : List Part} {r s : State} (init : Fin 16) (value : Word)
    (hL : Sub [.sysR, .happened] L) (h : Keeps L r s) : Runs L r (execEccClear init value s) := by
  unfold execEccClear
  exact (Runs.next (keeps_onCommand _ _ _ (Sub.trans (by decide) hL) h (fun y0 k1 => (keeps_eccCmd _ (Sub.trans (by decide) hL) k1))))

end Sys2Proof.Laws
end

