-- ==== Sys2Proof/Laws/KeepFlash.lean ====
section
/-! SUPPORT. What the operations of Machine/Flash.lean may change, and what they keep (see Keeps.lean). -/

namespace Sys2Proof.Laws

open Sys2Proof Sys2Proof.Machine Sys2Proof.Safety

theorem keeps_modFlash {L : List Part} {r s : State} (f : Flash → Flash)
    (hL : Sub [.flash] L) (h : Keeps L r s) : Keeps L r (State.modFlash s f) := by
  unfold State.modFlash
  exact (Keeps.set_flash (hL _ (by decide)) h)

theorem keeps_eraseBytes {L : List Part} {r s : State} (a : Nat) (n : Nat)
    (hL : Sub [.mem] L) (h : Keeps L r s) : Keeps L r (State.eraseBytes s a n) := by
  exact h.set_mem (hL _ (by decide)) fun k => sparse_wf_filter _ _ k

theorem keeps_readSpan {L : List Part} {r s : State} (a : Nat) (env : BusEnv) (v3 : Nat)
    (hL : Sub [.sysR, .happened, .crier, .flcR, .flash, .free, .writeBack] L) (h : Keeps L r s) : Keeps2 L r (State.readSpan s a env v3) := by
  induction v3 generalizing s a env with
  | zero => exact h
  | succ k ih =>
    rw [State.readSpan]
    split
    · have k1 := ih (a + 8) {} (Keeps.of_snd (by with_reducible assumption) (keeps_memRead _ _ _ _ (Sub.trans (by decide) hL) h))
      split
      · exact Keeps.of_snd (by with_reducible assumption) k1
      · exact k1
    · exact keeps_memRead _ _ _ _ (Sub.trans (by decide) hL) h

theorem keeps_readLines {L : List Part} {r s : State} (a : Nat) (env : BusEnv) (i : Nat) (v4 : Nat)
    (hL : Sub [.sysR, .happened, .crier, .flcR, .flash, .free, .writeBack] L) (h : Keeps L r s) : Keeps2 L r (State.readLines s a env i v4) := by
  induction v4 generalizing s env i with
  | zero => exact h
  | succ n ih =>
    rw [State.readLines]
    split
    · exact ih _ _ (Keeps.of_snd (by with_reducible assumption) (keeps_readSpan _ _ _ (Sub.trans (by decide) hL) h))
    · exact Keeps2.mk (Keeps.of_snd (by with_reducible assumption) (keeps_readSpan _ _ _ (Sub.trans (by decide) hL) h))
    · exact Keeps2.mk (Keeps.of_snd (by with_reducible assumption) (keeps_readSpan _ _ _ (Sub.trans (by decide) hL) h))

theorem keeps_fqHead {L : List Part} {r s : State} (v : Nat)
    (hL : Sub [.warranted, .flcR, .happened] L) (h : Keeps L r s) : Keeps L r (State.fqHead s v) := by
  unfold State.fqHead
  extract_lets +onlyGivenNames -merge -useContext -underBinder x0
  have k1 : Keeps L r (x0) := (keeps_must _ (Sub.trans (by decide) hL) h)
  try clear_value x0
  exact (Keeps.ite (keeps_setF _ _ _ (in_flc (hL _ (by decide)) (by decide)) k1) (keeps_countSat _ _ _ (hL _ (by decide)) (in_flc (hL _ (by decide)) (by decide)) (keeps_setF _ _ _ (in_flc (hL _ (by decide)) (by decide)) k1)))

theorem keeps_execFqHead {L : List Part} {r s : State} (init : Fin 16) (value : Word)
    (hL : Sub [.sysR, .happened, .warranted, .flcR] L) (h : Keeps L r s) : Runs L r (execFqHead init value s) := by
  unfold execFqHead
  exact (Runs.next (keeps_onCommand _ _ _ (Sub.trans (by decide) hL) h (fun y0 k1 => (keeps_fqHead _ (Sub.trans (by decide) hL) k1))))

theorem keeps_execDescriptorFetch {L : List Part} {r s : State} (env : BusEnv)
    (hL : Sub [.warranted, .flcR, .sysR, .happened, .crier, .flash, .free, .writeBack] L) (h : Keeps L r s) : Runs L r (execDescriptorFetch env s) := by
  unfold execDescriptorFetch
  refine Runs.next ?_
  refine Keeps.ite ?_ h
  extract_lets +onlyGivenNames -merge -useContext -underBinder x0
  try clear_value x0
  extract_lets +onlyGivenNames -merge -useContext -underBinder x1
  have k2 : Keeps L r (x1) := (keeps_must _ (Sub.trans (by decide) hL) h)
  try clear_value x1
  split
  · exact h
  · exact (keeps_setB _ _ _ (in_flc (hL _ (by decide)) (by decide)) (keeps_setB _ _ _ (in_flc (hL _ (by decide)) (by decide)) (Keeps.of_snd (by with_reducible assumption) (keeps_readSpan _ _ _ (Sub.trans (by decide) hL) k2))))
  · extract_lets +onlyGivenNames -merge -useContext -underBinder x3
    try clear_value x3
    extract_lets +onlyGivenNames -merge -useContext -underBinder x4
    try clear_value x4
    exact (keeps_setB _ _ _ (in_flc (hL _ (by decide)) (by decide)) (keeps_modFlash _ (Sub.trans (by decide) hL) (Keeps.of_snd (by with_reducible assumption) (keeps_readSpan _ _ _ (Sub.trans (by decide) hL) k2))))

theorem keeps_flcStop {L : List Part} {r s : State} 
    (hL : Sub [.flcR, .flash] L) (h : Keeps L r s) : Keeps L r (State.flcStop s) := by
  unfold State.flcStop
  split
  · exact (Keeps.ite (keeps_setB _ _ _ (in_flc (hL _ (by decide)) (by decide)) (keeps_modFlash _ (Sub.trans (by decide) hL) h)) h)
  · exact h

theorem keeps_putOp {L : List Part} {r s : State} (o : FlashOp)
    (hL : Sub [.flash] L) (h : Keeps L r s) : Keeps L r (State.putOp s o) := by
  unfold State.putOp
  exact (keeps_modFlash _ (Sub.trans (by decide) hL) h)

theorem keeps_endOp {L : List Part} {r s : State} (o : FlashOp) (code : Nat) (index : Nat)
    (hL : Sub [.flash] L) (h : Keeps L r s) : Keeps L r (State.endOp s o code index) := by
  unfold State.endOp
  exact (keeps_putOp _ (Sub.trans (by decide) hL) h)

theorem keeps_bankBusy {L : List Part} {r s : State} (offset : Nat) (v : Bool)
    (hL : Sub [.flcR] L) (h : Keeps L r s) : Keeps L r (State.bankBusy s offset v) := by
  unfold State.bankBusy
  exact (keeps_setBit _ _ _ _ (in_flc (hL _ (by decide)) (by decide)) h)

theorem keeps_lineRead {L : List Part} {r s : State} (l : Nat) (v2 : EccFinding)
    (hL : Sub [.crier, .flcR, .happened] L) (h : Keeps L r s) : Keeps2 L r (State.lineRead s l v2) := by
  unfold State.lineRead
  split
  · exact (Keeps2.mk h)
  · exact (Keeps2.mk (keeps_flashCorrected _ (Sub.trans (by decide) hL) h))
  · exact (Keeps2.mk (keeps_flashUncorrectable (Sub.trans (by decide) hL) h))

theorem keeps_execProgLines {L : List Part} {r s : State} (x : LineSource)
    (hL : Sub [.flash, .crier, .flcR, .happened, .sysR, .free, .writeBack] L) (h : Keeps L r s) : Runs L r (execProgLines x s) := by
  unfold execProgLines
  refine Runs.next ?_
  split
  · exact h
  · extract_lets +onlyGivenNames -merge -useContext -underBinder x0
    try clear_value x0
    refine Keeps.ite h ?_
    refine Keeps.ite (keeps_endOp _ _ _ (Sub.trans (by decide) hL) (Keeps2.out (keeps_lineRead _ _ (Sub.trans (by decide) hL) h))) ?_
    split
    · exact h
    · exact (keeps_endOp _ _ _ (Sub.trans (by decide) hL) (Keeps.of_snd (by with_reducible assumption) (keeps_readSpan _ _ _ (Sub.trans (by decide) hL) h)))
    · exact (keeps_bankBusy _ _ (Sub.trans (by decide) hL) (keeps_putOp _ (Sub.trans (by decide) hL) (Keeps.of_snd (by with_reducible assumption) (keeps_readSpan _ _ _ (Sub.trans (by decide) hL) h))))

theorem keeps_serve {L : List Part} {r s : State} (b : Nat)
    (hL : Sub [.flash] L) (h : Keeps L r s) : Keeps L r (State.serve s b) := by
  unfold State.serve
  exact (keeps_modFlash _ (Sub.trans (by decide) hL) h)

theorem keeps_execLineProgramEnd {L : List Part} {r s : State} (x : LineOutcome)
    (hL : Sub [.mem, .crier, .flcR, .happened, .flash] L) (h : Keeps L r s) : Runs L r (execLineProgramEnd x s) := by
  unfold execLineProgramEnd
  refine Runs.next ?_
  split
  · exact h
  · split
    · exact h
    · extract_lets +onlyGivenNames -merge -useContext -underBinder x0
      try clear_value x0
      split
      · refine Keeps.ite ?_ (keeps_endOp _ _ _ (Sub.trans (by decide) hL) (Keeps.of_snd (by with_reducible assumption) (keeps_lineRead _ _ (Sub.trans (by decide) hL) (keeps_serve _ (Sub.trans (by decide) hL) h))))
        extract_lets +onlyGivenNames -merge -useContext -underBinder x1
        have k2 : Keeps L r (x1) := (keeps_setBytes _ _ _ (Sub.trans (by decide) hL) (Keeps.of_snd (by with_reducible assumption) (keeps_lineRead _ _ (Sub.trans (by decide) hL) (keeps_serve _ (Sub.trans (by decide) hL) h))))
        try clear_value x1
        extract_lets +onlyGivenNames -merge -useContext -underBinder x3
        have k4 : Keeps L r (x3) := (keeps_modFlash _ (Sub.trans (by decide) hL) k2)
        try clear_value x3
        extract_lets +onlyGivenNames -merge -useContext -underBinder x5
        try clear_value x5
        exact (Keeps.ite (keeps_endOp _ _ _ (Sub.trans (by decide) hL) k4) (keeps_putOp _ (Sub.trans (by decide) hL) k4))

theorem keeps_journalBegin {L : List Part} {r s : State} (x : Nat) (seq : Nat)
    (hL : Sub [.mem] L) (h : Keeps L r s) : Keeps L r (State.journalBegin s x seq) := by
  unfold State.journalBegin
  exact (keeps_setBytes _ _ _ (Sub.trans (by decide) hL) h)

theorem keeps_journalEnd {L : List Part} {r s : State} (x : Nat)
    (hL : Sub [.mem] L) (h : Keeps L r s) : Keeps L r (State.journalEnd s x) := by
  unfold State.journalEnd
  exact (keeps_setByte _ _ (Sub.trans (by decide) hL) h)

theorem keeps_beginErase {L : List Part} {r s : State} (o : FlashOp) (n : Nat)
    (hL : Sub [.mem, .flcR, .flash] L) (h : Keeps L r s) : Keeps L r (State.beginErase s o n) := by
  unfold State.beginErase
  extract_lets +onlyGivenNames -merge -useContext -underBinder x0
  try clear_value x0
  extract_lets +onlyGivenNames -merge -useContext -underBinder x1
  try clear_value x1
  extract_lets +onlyGivenNames -merge -useContext -underBinder x2
  have k3 : Keeps L r (x2) := (keeps_forAll _ _ h fun y5 y6 b7 k4 => (keeps_journalBegin _ _ (Sub.trans (by decide) hL) k4))
  try clear_value x2
  extract_lets +onlyGivenNames -merge -useContext -underBinder x8
  have k9 : Keeps L r (x8) := (keeps_setF _ _ _ (in_flc (hL _ (by decide)) (by decide)) k3)
  try clear_value x8
  exact (keeps_bankBusy _ _ (Sub.trans (by decide) hL) (keeps_modFlash _ (Sub.trans (by decide) hL) (keeps_putOp _ (Sub.trans (by decide) hL) k9)))

theorem keeps_execEraseSector {L : List Part} {r s : State} 
    (hL : Sub [.mem, .flcR, .flash] L) (h : Keeps L r s) : Runs L r (execEraseSector s) := by
  unfold execEraseSector
  refine Runs.next ?_
  split
  · exact (Keeps.ite h (keeps_beginErase _ _ (Sub.trans (by decide) hL) h))
  · exact h

theorem keeps_execEraseBank {L : List Part} {r s : State} 
    (hL : Sub [.mem, .flcR, .flash] L) (h : Keeps L r s) : Runs L r (execEraseBank s) := by
  unfold execEraseBank
  refine Runs.next ?_
  split
  · exact (Keeps.ite h (keeps_beginErase _ _ (Sub.trans (by decide) hL) h))
  · exact h

theorem keeps_checkRead {L : List Part} {r s : State} (f : LineFindings) (l : Nat) (i : Nat)
    (hL : Sub [.crier, .flcR, .happened] L) (h : Keeps L r s) : Keeps2 L r (State.checkRead s f l i) := by
  unfold State.checkRead
  exact (Keeps2.ite (Keeps2.mk (keeps_flashUncorrectable (Sub.trans (by decide) hL) h)) (Keeps2.ite (Keeps2.mk (keeps_flashCorrected _ (Sub.trans (by decide) hL) h)) (Keeps2.mk h)))

theorem keeps_blankLines {L : List Part} {r s : State} (o : FlashOp) (f : LineFindings) (i : Nat) (v4 : Nat)
    (hL : Sub [.flash, .crier, .flcR, .happened] L) (h : Keeps L r s) : Keeps L r (State.blankLines s o f i v4) := by
  induction v4 generalizing s i with
  | zero => exact keeps_endOp _ _ _ (Sub.trans (by decide) hL) h
  | succ n ih =>
    rw [State.blankLines]
    split
    · exact keeps_endOp _ _ _ (Sub.trans (by decide) hL) (Keeps.of_snd (by with_reducible assumption) (keeps_checkRead _ _ _ (Sub.trans (by decide) hL) h))
    · exact Keeps.ite (ih _ (Keeps.of_snd (by with_reducible assumption) (keeps_checkRead _ _ _ (Sub.trans (by decide) hL) h)))
        (keeps_endOp _ _ _ (Sub.trans (by decide) hL) (Keeps.of_snd (by with_reducible assumption) (keeps_checkRead _ _ _ (Sub.trans (by decide) hL) h)))

theorem keeps_execBlankCheck {L : List Part} {r s : State} (f : LineFindings)
    (hL : Sub [.flash, .crier, .flcR, .happened] L) (h : Keeps L r s) : Runs L r (execBlankCheck f s) := by
  unfold execBlankCheck
  refine Runs.next ?_
  split
  · exact (keeps_blankLines _ _ _ _ (Sub.trans (by decide) hL) h)
  · exact h

theorem keeps_verifyLines {L : List Part} {r s : State} (o : FlashOp) (f : LineFindings) (env : BusEnv) (i : Nat) (v5 : Nat)
    (hL : Sub [.flash, .crier, .flcR, .happened, .sysR, .free, .writeBack] L) (h : Keeps L r s) : KeepsO L r (State.verifyLines s o f env i v5) := by
  induction v5 generalizing s i env with
  | zero => exact KeepsO.some (keeps_endOp _ _ _ (Sub.trans (by decide) hL) h)
  | succ n ih =>
    rw [State.verifyLines]
    split
    · exact KeepsO.some (keeps_endOp _ _ _ (Sub.trans (by decide) hL) (Keeps.of_snd (by with_reducible assumption) (keeps_checkRead _ _ _ (Sub.trans (by decide) hL) h)))
    · have k1 := Keeps.of_snd (by with_reducible assumption) (keeps_checkRead f (o.faddr / 32 + i) i (Sub.trans (by decide) hL) h)
      split
      · exact KeepsO.none
      · exact KeepsO.some (keeps_endOp _ _ _ (Sub.trans (by decide) hL) (Keeps.of_snd (by with_reducible assumption) (keeps_readSpan _ _ _ (Sub.trans (by decide) hL) k1)))
      · have k2 := Keeps.of_snd (by with_reducible assumption) (keeps_readSpan (o.src + 32 * i) env 4 (Sub.trans (by decide) hL) k1)
        exact KeepsO.ite (ih _ _ k2) (KeepsO.some (keeps_endOp _ _ _ (Sub.trans (by decide) hL) k2))

theorem keeps_execVerify {L : List Part} {r s : State} (f : LineFindings) (env : BusEnv)
    (hL : Sub [.flash, .crier, .flcR, .happened, .sysR, .free, .writeBack] L) (h : Keeps L r s) : Runs L r (execVerify f env s) := by
  unfold execVerify
  refine Runs.next ?_
  split
  · exact (KeepsO.getD (keeps_verifyLines _ _ _ _ _ (Sub.trans (by decide) hL) h) h)
  · exact h

theorem keeps_execOptWrite {L : List Part} {r s : State} (env : BusEnv)
    (hL : Sub [.flash, .sysR, .happened, .crier, .flcR, .free, .writeBack] L) (h : Keeps L r s) : Runs L r (execOptWrite env s) := by
  unfold execOptWrite
  refine Runs.next ?_
  split
  · exact h
  · refine Keeps.ite h ?_
    split
    · exact (keeps_endOp _ _ _ (Sub.trans (by decide) hL) h)
    · split
      · exact h
      · exact (keeps_endOp _ _ _ (Sub.trans (by decide) hL) (Keeps.of_snd (by with_reducible assumption) (keeps_readLines _ _ _ _ (Sub.trans (by decide) hL) h)))
      · exact (Keeps.ite (keeps_putOp _ (Sub.trans (by decide) hL) (Keeps.of_snd (by with_reducible assumption) (keeps_readLines _ _ _ _ (Sub.trans (by decide) hL) h))) (keeps_endOp _ _ _ (Sub.trans (by decide) hL) (Keeps.of_snd (by with_reducible assumption) (keeps_readLines _ _ _ _ (Sub.trans (by decide) hL) h))))

theorem keeps_execOptErase {L : List Part} {r s : State} 
    (hL : Sub [.flash] L) (h : Keeps L r s) : Runs L r (execOptErase s) := by
  unfold execOptErase
  refine Runs.next ?_
  split
  · exact (keeps_putOp _ (Sub.trans (by decide) hL) h)
  · exact h

theorem keeps_finishOp {L : List Part} {r s : State} (o : FlashOp) (failing : Option Nat)
    (hL : Sub [.flash, .flcR, .mem] L) (h : Keeps L r s) : Keeps L r (State.finishOp s o failing) := by
  unfold State.finishOp
  extract_lets +onlyGivenNames -merge -useContext -underBinder x0
  try clear_value x0
  extract_lets +onlyGivenNames -merge -useContext -underBinder x1
  try clear_value x1
  extract_lets +onlyGivenNames -merge -useContext -underBinder x2
  try clear_value x2
  extract_lets +onlyGivenNames -merge -useContext -underBinder x3
  try clear_value x3
  split
  · extract_lets +onlyGivenNames -merge -useContext -underBinder x4
    have k5 : Keeps L r (x4) := (keeps_serve _ (Sub.trans (by decide) hL) (keeps_modFlash _ (Sub.trans (by decide) hL) h))
    try clear_value x4
    refine Keeps.ite ?_ (keeps_endOp _ _ _ (Sub.trans (by decide) hL) (keeps_forAll _ _ k5 fun y16 y17 b18 k15 => (keeps_setBit _ _ _ _ (in_flc (hL _ (by decide)) (off_at (n := 16777120) (by omega) (by decide))) k15)))
    extract_lets +onlyGivenNames -merge -useContext -underBinder x6
    have k7 : Keeps L r (x6) := (keeps_forAll _ _ k5 fun y9 y10 b11 k8 => (keeps_setBit _ _ _ _ (in_flc (hL _ (by decide)) (off_at (n := 16777120) (by omega) (by decide))) (keeps_journalEnd _ (Sub.trans (by decide) hL) k8)))
    try clear_value x6
    extract_lets +onlyGivenNames -merge -useContext -underBinder x12
    have k13 : Keeps L r (x12) := (keeps_eraseBytes _ _ (Sub.trans (by decide) hL) k7)
    try clear_value x12
    extract_lets +onlyGivenNames -merge -useContext -underBinder x14
    try clear_value x14
    exact (keeps_endOp _ _ _ (Sub.trans (by decide) hL) (keeps_modFlash _ (Sub.trans (by decide) hL) k13))
  · extract_lets +onlyGivenNames -merge -useContext -underBinder x19
    have k20 : Keeps L r (x19) := (keeps_serve _ (Sub.trans (by decide) hL) (keeps_modFlash _ (Sub.trans (by decide) hL) h))
    try clear_value x19
    refine Keeps.ite ?_ (keeps_endOp _ _ _ (Sub.trans (by decide) hL) (keeps_forAll _ _ k20 fun y31 y32 b33 k30 => (keeps_setBit _ _ _ _ (in_flc (hL _ (by decide)) (off_at (n := 16777120) (by omega) (by decide))) k30)))
    extract_lets +onlyGivenNames -merge -useContext -underBinder x21
    have k22 : Keeps L r (x21) := (keeps_forAll _ _ k20 fun y24 y25 b26 k23 => (keeps_setBit _ _ _ _ (in_flc (hL _ (by decide)) (off_at (n := 16777120) (by omega) (by decide))) (keeps_journalEnd _ (Sub.trans (by decide) hL) k23)))
    try clear_value x21
    extract_lets +onlyGivenNames -merge -useContext -underBinder x27
    have k28 : Keeps L r (x27) := (keeps_eraseBytes _ _ (Sub.trans (by decide) hL) k22)
    try clear_value x27
    extract_lets +onlyGivenNames -merge -useContext -underBinder x29
    try clear_value x29
    exact (keeps_endOp _ _ _ (Sub.trans (by decide) hL) (keeps_modFlash _ (Sub.trans (by decide) hL) k28))
  · exact (Keeps.ite (keeps_endOp _ _ _ (Sub.trans (by decide) hL) (keeps_setBytes _ _ _ (Sub.trans (by decide) hL) h)) (keeps_endOp _ _ _ (Sub.trans (by decide) hL) h))
  · exact (Keeps.ite (keeps_endOp _ _ _ (Sub.trans (by decide) hL) (keeps_eraseBytes _ _ (Sub.trans (by decide) hL) h)) (keeps_endOp _ _ _ (Sub.trans (by decide) hL) h))

theorem keeps_completeOp {L : List Part} {r s : State} (o : FlashOp) (code : Nat) (index : Nat)
    (hL : Sub [.sysR, .happened, .writeBack, .mem, .flash, .flcR, .crier] L) (h : Keeps L r s) : Keeps L r (State.completeOp s o code index) := by
  unfold State.completeOp
  extract_lets +onlyGivenNames -merge -useContext -underBinder x0
  have k1 : Keeps L r (x0) := (Keeps2.out (keeps_memWrite _ _ _ _ _ (Sub.trans (by decide) hL) h))
  try clear_value x0
  extract_lets +onlyGivenNames -merge -useContext -underBinder x2
  have k3 : Keeps L r (x2) := (keeps_modFlash _ (Sub.trans (by decide) hL) (keeps_countWrap _ _ _ (hL _ (by decide)) (in_flc (hL _ (by decide)) (by decide)) k1))
  try clear_value x2
  extract_lets +onlyGivenNames -merge -useContext -underBinder x4
  have k5 : Keeps L r (x4) := (keeps_setB _ _ _ (in_flc (hL _ (by decide)) (by decide)) k3)
  try clear_value x4
  extract_lets +onlyGivenNames -merge -useContext -underBinder x6
  have k7 : Keeps L r (x6) := (Keeps.ite (keeps_bankBusy _ _ (Sub.trans (by decide) hL) k5) k5)
  try clear_value x6
  extract_lets +onlyGivenNames -merge -useContext -underBinder x8
  have k9 : Keeps L r (x8) := (keeps_pulseIf _ _ (Sub.trans (by decide) hL) k7)
  try clear_value x8
  exact (Keeps.ite k9 (keeps_setB _ _ _ (in_flc (hL _ (by decide)) (by decide)) k9))

theorem keeps_execDescriptorCompletion {L : List Part} {r s : State} (failing : Option (Fin 262144))
    (hL : Sub [.sysR, .happened, .writeBack, .mem, .flash, .flcR, .crier] L) (h : Keeps L r s) : Runs L r (execDescriptorCompletion failing s) := by
  unfold execDescriptorCompletion
  refine Runs.next ?_
  split
  · exact h
  · refine Keeps.ite h ?_
    split
    · exact (keeps_completeOp _ _ _ (Sub.trans (by decide) hL) h)
    · extract_lets +onlyGivenNames -merge -useContext -underBinder x0
      try clear_value x0
      refine Keeps.ite ?_ h
      extract_lets +onlyGivenNames -merge -useContext -underBinder x1
      have k2 : Keeps L r (x1) := (keeps_finishOp _ _ (Sub.trans (by decide) hL) h)
      try clear_value x1
      split
      · exact (keeps_completeOp _ _ _ (Sub.trans (by decide) hL) k2)
      · exact k2

theorem keeps_execFlcResume {L : List Part} {r s : State} (init : Fin 16)
    (hL : Sub [.sysR, .happened, .flcR] L) (h : Keeps L r s) : Runs L r (execFlcResume init s) := by
  unfold execFlcResume
  exact (Runs.next (keeps_onCommand _ _ _ (Sub.trans (by decide) hL) h (fun y0 k1 => (keeps_setB _ _ _ (in_flc (hL _ (by decide)) (by decide)) (keeps_setB _ _ _ (in_flc (hL _ (by decide)) (by decide)) k1)))))

theorem keeps_flcSuspend {L : List Part} {r s : State} 
    (hL : Sub [.flash] L) (h : Keeps L r s) : Keeps L r (State.flcSuspend s) := by
  unfold State.flcSuspend
  split
  · exact (Keeps.ite h (keeps_askSuspend _ (Sub.trans (by decide) hL) h))
  · exact h

theorem keeps_resumeRun {L : List Part} {r s : State} 
    (hL : Sub [.flash, .flcR] L) (h : Keeps L r s) : Keeps L r (State.resumeRun s) := by
  unfold State.resumeRun
  split
  · refine Keeps.ite ?_ h
    extract_lets +onlyGivenNames -merge -useContext -underBinder x0
    have k1 : Keeps L r (x0) := (keeps_modFlash _ (Sub.trans (by decide) hL) h)
    try clear_value x0
    extract_lets +onlyGivenNames -merge -useContext -underBinder x2
    have k3 : Keeps L r (x2) := (keeps_setB _ _ _ (in_flc (hL _ (by decide)) (by decide)) (keeps_setB _ _ _ (in_flc (hL _ (by decide)) (by decide)) k1))
    try clear_value x2
    exact (Keeps.ite (keeps_askSuspend _ (Sub.trans (by decide) hL) k3) k3)
  · exact h

theorem keeps_execSuspend {L : List Part} {r s : State} (init : Fin 16)
    (hL : Sub [.sysR, .happened, .flash] L) (h : Keeps L r s) : Runs L r (execSuspend init s) := by
  unfold execSuspend
  exact (Runs.next (keeps_onCommand _ _ _ (Sub.trans (by decide) hL) h (fun y0 k1 => (keeps_flcSuspend (Sub.trans (by decide) hL) k1))))

theorem keeps_execResumeErase {L : List Part} {r s : State} (init : Fin 16)
    (hL : Sub [.sysR, .happened, .flash, .flcR] L) (h : Keeps L r s) : Runs L r (execResumeErase init s) := by
  unfold execResumeErase
  exact (Runs.next (keeps_onCommand _ _ _ (Sub.trans (by decide) hL) h (fun y0 k1 => (keeps_resumeRun (Sub.trans (by decide) hL) k1))))

theorem keeps_flcCntClr {L : List Part} {r s : State} 
    (hL : Sub [.flcR] L) (h : Keeps L r s) : Keeps L r (State.flcCntClr s) := by
  unfold State.flcCntClr
  extract_lets +onlyGivenNames -merge -useContext -underBinder x0
  have k1 : Keeps L r (x0) := (keeps_clearCount _ _ (in_flc (hL _ (by decide)) (by decide)) (keeps_clearCount _ _ (in_flc (hL _ (by decide)) (by decide)) (keeps_clearCount _ _ (in_flc (hL _ (by decide)) (by decide)) h)))
  try clear_value x0
  exact (keeps_clearCount _ _ (in_flc (hL _ (by decide)) (by decide)) (keeps_clearCount _ _ (in_flc (hL _ (by decide)) (by decide)) k1))

theorem keeps_execFlcCntClr {L : List Part} {r s : State} (init : Fin 16)
    (hL : Sub [.sysR, .happened, .flcR] L) (h : Keeps L r s) : Runs L r (execFlcCntClr init s) := by
  unfold execFlcCntClr
  exact (Runs.next (keeps_onCommand _ _ _ (Sub.trans (by decide) hL) h (fun y0 k1 => (keeps_flcCntClr (Sub.trans (by decide) hL) k1))))

theorem keeps_wpSet {L : List Part} {r s : State} (w : Nat) (mask : Nat)
    (hL : Sub [.flcR, .flash] L) (h : Keeps L r s) : Keeps L r (State.wpSet s w mask) := by
  unfold State.wpSet
  extract_lets +onlyGivenNames -merge -useContext -underBinder x0
  have k1 : Keeps L r (x0) := (keeps_setF _ _ _ (in_flc (hL _ (by decide)) (off_at (n := 16777088) (by omega) (by decide))) h)
  try clear_value x0
  split
  · exact (Keeps.ite (keeps_modFlash _ (Sub.trans (by decide) hL) k1) k1)
  · exact k1

theorem keeps_execWpSet {L : List Part} {r s : State} (init : Fin 16) (w : Fin 8) (mask : Word)
    (hL : Sub [.sysR, .happened, .flcR, .flash] L) (h : Keeps L r s) : Runs L r (execWpSet init w mask s) := by
  unfold execWpSet
  exact (Runs.next (keeps_onCommand _ _ _ (Sub.trans (by decide) hL) h (fun y0 k1 => (keeps_wpSet _ _ (Sub.trans (by decide) hL) k1))))

theorem keeps_flcCmd {L : List Part} {r s : State} (v : Nat)
    (hL : Sub [.flcR, .flash] L) (h : Keeps L r s) : Keeps L r (State.flcCmd s v) := by
  unfold State.flcCmd
  refine Keeps.ite h ?_
  extract_lets +onlyGivenNames -merge -useContext -underBinder x0
  have k1 : Keeps L r (x0) := (Keeps.ite (keeps_setB _ _ _ (in_flc (hL _ (by decide)) (by decide)) (keeps_setB _ _ _ (in_flc (hL _ (by decide)) (by decide)) h)) h)
  try clear_value x0
  extract_lets +onlyGivenNames -merge -useContext -underBinder x2
  have k3 : Keeps L r (x2) := (Keeps.ite (keeps_flcSuspend (Sub.trans (by decide) hL) k1) k1)
  try clear_value x2
  extract_lets +onlyGivenNames -merge -useContext -underBinder x4
  have k5 : Keeps L r (x4) := (Keeps.ite (keeps_resumeRun (Sub.trans (by decide) hL) k3) k3)
  try clear_value x4
  exact (Keeps.ite (keeps_flcCntClr (Sub.trans (by decide) hL) k5) k5)

theorem keeps_execFlashRead {L : List Part} {r s : State} (init : Fin 16) (offset : BitVec 24) (fetch : Bool) (ecc : EccFinding)
    (hL : Sub [.crier, .flcR, .happened, .flash, .free, .readData, .sysR, .writeBack] L) (h : Keeps L r s) : Runs L r (execFlashRead init offset fetch ecc s) := by
  unfold execFlashRead
  extract_lets +onlyGivenNames -merge -useContext -underBinder x0
  try clear_value x0
  refine Runs.next ?_
  refine Keeps.ite (Keeps2.out (keeps_flashLine _ _ _ _ (Sub.trans (by decide) hL) h)) ?_
  split
  · exact (Keeps.set_readData (hL _ (by decide)) (Keeps.of_snd (by with_reducible assumption) (keeps_memRead _ _ _ _ (Sub.trans (by decide) hL) h)))
  · exact (Keeps.of_snd (by with_reducible assumption) (keeps_memRead _ _ _ _ (Sub.trans (by decide) hL) h))

theorem keeps_execEraseSuspend {L : List Part} {r s : State} 
    (hL : Sub [.now, .flash, .flcR] L) (h : Keeps L r s) : Runs L r (execEraseSuspend s) := by
  unfold execEraseSuspend
  refine Runs.next ?_
  split
  · split
    · refine Keeps.ite h ?_
      extract_lets +onlyGivenNames -merge -useContext -underBinder x0
      have k1 : Keeps L r (x0) := (keeps_atTime _ (Sub.trans (by decide) hL) h)
      try clear_value x0
      extract_lets +onlyGivenNames -merge -useContext -underBinder x2
      have k3 : Keeps L r (x2) := (keeps_modFlash _ (Sub.trans (by decide) hL) k1)
      try clear_value x2
      extract_lets +onlyGivenNames -merge -useContext -underBinder x4
      have k5 : Keeps L r (x4) := (keeps_setB _ _ _ (in_flc (hL _ (by decide)) (by decide)) (keeps_setB _ _ _ (in_flc (hL _ (by decide)) (by decide)) k3))
      try clear_value x4
      split
      · exact (keeps_serve _ (Sub.trans (by decide) hL) k5)
      · exact k5
    · exact h
  · exact h

theorem keeps_execEraseResume {L : List Part} {r s : State} 
    (hL : Sub [.flash, .flcR, .now] L) (h : Keeps L r s) : Runs L r (execEraseResume s) := by
  unfold execEraseResume
  refine Runs.next ?_
  split
  · refine Keeps.ite ?_ h
    extract_lets +onlyGivenNames -merge -useContext -underBinder x0
    have k1 : Keeps L r (x0) := (keeps_resumeRun (Sub.trans (by decide) hL) (keeps_atTime _ (Sub.trans (by decide) hL) h))
    try clear_value x0
    exact (keeps_modFlash _ (Sub.trans (by decide) hL) k1)
  · exact h

theorem keeps_scrubNext {L : List Part} {r s : State} 
    (hL : Sub [.flash, .flcR, .happened] L) (h : Keeps L r s) : Keeps L r (State.scrubNext s) := by
  unfold State.scrubNext
  extract_lets +onlyGivenNames -merge -useContext -underBinder x0
  try clear_value x0
  extract_lets +onlyGivenNames -merge -useContext -underBinder x1
  have k2 : Keeps L r (x1) := (keeps_modFlash _ (Sub.trans (by decide) hL) h)
  try clear_value x1
  extract_lets +onlyGivenNames -merge -useContext -underBinder x3
  have k4 : Keeps L r (x3) := (keeps_setF _ _ _ (in_flc (hL _ (by decide)) (by decide)) k2)
  try clear_value x3
  exact (Keeps.ite (keeps_countWrap _ _ _ (hL _ (by decide)) (in_flc (hL _ (by decide)) (by decide)) k4) k4)

theorem keeps_execScrubRead {L : List Part} {r s : State} (ecc : EccFinding)
    (hL : Sub [.now, .flash, .flcR, .happened, .crier] L) (h : Keeps L r s) : Runs L r (execScrubRead ecc s) := by
  unfold execScrubRead
  refine Runs.next ?_
  refine Keeps.ite ?_ h
  extract_lets +onlyGivenNames -merge -useContext -underBinder x0
  try clear_value x0
  extract_lets +onlyGivenNames -merge -useContext -underBinder x1
  try clear_value x1
  extract_lets +onlyGivenNames -merge -useContext -underBinder x2
  have k3 : Keeps L r (x2) := (keeps_atTime _ (Sub.trans (by decide) hL) h)
  try clear_value x2
  extract_lets +onlyGivenNames -merge -useContext -underBinder x4
  have k5 : Keeps L r (x4) := (keeps_modFlash _ (Sub.trans (by decide) hL) k3)
  try clear_value x4
  extract_lets +onlyGivenNames -merge -useContext -underBinder x6
  try clear_value x6
  refine Keeps.ite k5 ?_
  extract_lets +onlyGivenNames -merge -useContext -underBinder x7
  have k8 : Keeps L r (x7) := (keeps_scrubNext (Sub.trans (by decide) hL) k5)
  try clear_value x7
  split
  · exact k8
  · exact (keeps_bankBusy _ _ (Sub.trans (by decide) hL) (keeps_modFlash _ (Sub.trans (by decide) hL) (keeps_flashCorrected _ (Sub.trans (by decide) hL) k8)))
  · exact (keeps_flashUncorrectable (Sub.trans (by decide) hL) k8)

theorem keeps_execScrubRefresh {L : List Part} {r s : State} (gone : Bool)
    (hL : Sub [.flcR, .flash, .happened, .crier] L) (h : Keeps L r s) : Runs L r (execScrubRefresh gone s) := by
  unfold execScrubRefresh
  refine Runs.next ?_
  split
  · exact h
  · extract_lets +onlyGivenNames -merge -useContext -underBinder x0
    have k1 : Keeps L r (x0) := (keeps_bankBusy _ _ (Sub.trans (by decide) hL) (keeps_modFlash _ (Sub.trans (by decide) hL) h))
    try clear_value x0
    refine Keeps.ite (keeps_countSat _ _ _ (hL _ (by decide)) (in_flc (hL _ (by decide)) (by decide)) k1) ?_
    extract_lets +onlyGivenNames -merge -useContext -underBinder x2
    have k3 : Keeps L r (x2) := (keeps_flashCorrected _ (Sub.trans (by decide) hL) k1)
    try clear_value x2
    exact (keeps_pulseIf _ _ (Sub.trans (by decide) hL) (keeps_setF _ _ _ (in_flc (hL _ (by decide)) (by decide)) (keeps_countSat _ _ _ (hL _ (by decide)) (in_flc (hL _ (by decide)) (by decide)) k3)))

end Sys2Proof.Laws
end

