-- ==== Sys2Proof/Laws/KeepPeripherals.lean ====
section
/-! SUPPORT. What the operations of Machine/Peripherals.lean may change, and what they keep (see Keeps.lean). -/

namespace Sys2Proof.Laws

open Sys2Proof Sys2Proof.Machine Sys2Proof.Safety

theorem keeps_modSpi {L : List Part} {r s : State} (p : Fin 4) (f : Serial → Serial)
    (hL : Sub [.spi] L) (h : Keeps L r s) : Keeps L r (State.modSpi s p f) := by
  unfold State.modSpi
  exact (Keeps.set_spi (hL _ (by decide)) h)

theorem keeps_modUart {L : List Part} {r s : State} (u : Fin 2) (f : Serial → Serial)
    (hL : Sub [.uart] L) (h : Keeps L r s) : Keeps L r (State.modUart s u f) := by
  unfold State.modUart
  exact (Keeps.set_uart (hL _ (by decide)) h)

theorem keeps_spiStatus {L : List Part} {r s : State} (p : Fin 4)
    (hL : Sub [.spiR] L) (h : Keeps L r s) : Keeps L r (State.spiStatus s p) := by
  unfold State.spiStatus
  extract_lets +onlyGivenNames -merge -useContext -underBinder x0
  exact (keeps_setB _ _ _ (in_spi (hL _ (by decide)) (by decide)) (keeps_setF _ _ _ (in_spi (hL _ (by decide)) (by decide)) (keeps_setF _ _ _ (in_spi (hL _ (by decide)) (by decide)) h)))

theorem keeps_uartStatus {L : List Part} {r s : State} (u : Fin 2)
    (hL : Sub [.uartR] L) (h : Keeps L r s) : Keeps L r (State.uartStatus s u) := by
  unfold State.uartStatus
  extract_lets +onlyGivenNames -merge -useContext -underBinder x0
  exact (keeps_setB _ _ _ (in_uart (hL _ (by decide)) (by decide)) (keeps_setF _ _ _ (in_uart (hL _ (by decide)) (by decide)) (keeps_setF _ _ _ (in_uart (hL _ (by decide)) (by decide)) h)))

theorem keeps_spiPush {L : List Part} {r s : State} (p : Fin 4) (v : Word)
    (hL : Sub [.spiR, .spi, .happened] L) (h : Keeps L r s) : Keeps L r (State.spiPush s p v) := by
  unfold State.spiPush
  exact (Keeps.ite (keeps_spiStatus _ (Sub.trans (by decide) hL) (keeps_modSpi _ _ (Sub.trans (by decide) hL) h)) (keeps_countSat _ _ _ (hL _ (by decide)) (in_spi (hL _ (by decide)) (by decide)) h))

theorem keeps_uartPush {L : List Part} {r s : State} (u : Fin 2) (v : Word)
    (hL : Sub [.uartR, .uart, .happened] L) (h : Keeps L r s) : Keeps L r (State.uartPush s u v) := by
  unfold State.uartPush
  exact (Keeps.ite (keeps_uartStatus _ (Sub.trans (by decide) hL) (keeps_modUart _ _ (Sub.trans (by decide) hL) h)) (keeps_countSat _ _ _ (hL _ (by decide)) (in_uart (hL _ (by decide)) (by decide)) h))

theorem keeps_spiPop {L : List Part} {r s : State} (p : Fin 4) (peek : Bool)
    (hL : Sub [.spiR, .spi] L) (h : Keeps L r s) : Keeps2 L r (State.spiPop s p peek) := by
  unfold State.spiPop
  split
  · exact (Keeps2.mk h)
  · exact (Keeps2.mk (Keeps.ite h (keeps_spiStatus _ (Sub.trans (by decide) hL) (keeps_modSpi _ _ (Sub.trans (by decide) hL) h))))

theorem keeps_uartPop {L : List Part} {r s : State} (u : Fin 2) (peek : Bool)
    (hL : Sub [.uartR, .uart] L) (h : Keeps L r s) : Keeps2 L r (State.uartPop s u peek) := by
  unfold State.uartPop
  split
  · exact (Keeps2.mk h)
  · exact (Keeps2.mk (Keeps.ite h (keeps_uartStatus _ (Sub.trans (by decide) hL) (keeps_modUart _ _ (Sub.trans (by decide) hL) h))))

theorem keeps_execSpiTxdata {L : List Part} {r s : State} (init : Fin 16) (p : Fin 4) (value : Word)
    (hL : Sub [.sysR, .happened, .spiR, .spi] L) (h : Keeps L r s) : Runs L r (execSpiTxdata init p value s) := by
  unfold execSpiTxdata
  exact (Runs.next (keeps_onCommand _ _ _ (Sub.trans (by decide) hL) h (fun y0 k1 => (keeps_spiPush _ _ (Sub.trans (by decide) hL) k1))))

theorem keeps_execSpiFrame {L : List Part} {r s : State} (p : Fin 4) (miso : Word)
    (hL : Sub [.spi, .spiR, .happened] L) (h : Keeps L r s) : Runs L r (execSpiFrame p miso s) := by
  unfold execSpiFrame
  refine Runs.next ?_
  split
  · exact h
  · refine Keeps.ite ?_ h
    extract_lets +onlyGivenNames -merge -useContext -underBinder x0
    try clear_value x0
    extract_lets +onlyGivenNames -merge -useContext -underBinder x1
    try clear_value x1
    extract_lets +onlyGivenNames -merge -useContext -underBinder x2
    have k3 : Keeps L r (x2) := (keeps_modSpi _ _ (Sub.trans (by decide) hL) h)
    try clear_value x2
    extract_lets +onlyGivenNames -merge -useContext -underBinder x4
    have k5 : Keeps L r (x4) := (Keeps.ite (keeps_modSpi _ _ (Sub.trans (by decide) hL) k3) (keeps_countSat _ _ _ (hL _ (by decide)) (in_spi (hL _ (by decide)) (by decide)) k3))
    try clear_value x4
    exact (keeps_spiStatus _ (Sub.trans (by decide) hL) k5)

theorem keeps_execSpiRxdata {L : List Part} {r s : State} (init : Fin 16) (p : Fin 4) (peek : Bool)
    (hL : Sub [.readData, .sysR, .happened, .spiR, .spi] L) (h : Keeps L r s) : Runs L r (execSpiRxdata init p peek s) := by
  unfold execSpiRxdata
  exact (Runs.next (keeps_onRead _ _ _ (Sub.trans (by decide) hL) h (fun y0 k1 => (keeps_spiPop _ _ (Sub.trans (by decide) hL) k1))))

theorem keeps_spiCntClr {L : List Part} {r s : State} (p : Nat)
    (hL : Sub [.spiR] L) (h : Keeps L r s) : Keeps L r (State.spiCntClr s p) := by
  unfold State.spiCntClr
  exact (keeps_clearCount _ _ (in_spi (hL _ (by decide)) (by decide)) (keeps_clearCount _ _ (in_spi (hL _ (by decide)) (by decide)) h))

theorem keeps_execSpiCntClr {L : List Part} {r s : State} (init : Fin 16) (p : Fin 4)
    (hL : Sub [.sysR, .happened, .spiR] L) (h : Keeps L r s) : Runs L r (execSpiCntClr init p s) := by
  unfold execSpiCntClr
  exact (Runs.next (keeps_onCommand _ _ _ (Sub.trans (by decide) hL) h (fun y0 k1 => (keeps_spiCntClr _ (Sub.trans (by decide) hL) k1))))

theorem keeps_execUartTxdata {L : List Part} {r s : State} (init : Fin 16) (u : Fin 2) (value : Word)
    (hL : Sub [.sysR, .happened, .uartR, .uart] L) (h : Keeps L r s) : Runs L r (execUartTxdata init u value s) := by
  unfold execUartTxdata
  exact (Runs.next (keeps_onCommand _ _ _ (Sub.trans (by decide) hL) h (fun y0 k1 => (keeps_uartPush _ _ (Sub.trans (by decide) hL) k1))))

theorem keeps_execUartFrame {L : List Part} {r s : State} (u : Fin 2) (received : Option UartFrame)
    (hL : Sub [.uartR, .happened, .uart] L) (h : Keeps L r s) : Runs L r (execUartFrame u received s) := by
  unfold execUartFrame
  extract_lets +onlyGivenNames -merge -useContext -underBinder x0
  refine Runs.next ?_
  refine Keeps.ite ?_ h
  split
  · extract_lets +onlyGivenNames -merge -useContext -underBinder x1
    try clear_value x1
    extract_lets +onlyGivenNames -merge -useContext -underBinder x2
    try clear_value x2
    extract_lets +onlyGivenNames -merge -useContext -underBinder x3
    have k4 : Keeps L r (x3) := (Keeps.ite (keeps_countSat _ _ _ (hL _ (by decide)) (in_uart (hL _ (by decide)) (by decide)) h) h)
    try clear_value x3
    extract_lets +onlyGivenNames -merge -useContext -underBinder x5
    have k6 : Keeps L r (x5) := (Keeps.ite (keeps_countSat _ _ _ (hL _ (by decide)) (in_uart (hL _ (by decide)) (by decide)) k4) k4)
    try clear_value x5
    extract_lets +onlyGivenNames -merge -useContext -underBinder x7
    have k8 : Keeps L r (x7) := (Keeps.ite (keeps_modUart _ _ (Sub.trans (by decide) hL) k6) (keeps_countSat _ _ _ (hL _ (by decide)) (in_uart (hL _ (by decide)) (by decide)) k6))
    try clear_value x7
    exact (keeps_uartStatus _ (Sub.trans (by decide) hL) k8)
  · split
    · exact h
    · refine Keeps.ite h ?_
      extract_lets +onlyGivenNames -merge -useContext -underBinder x9
      try clear_value x9
      exact (keeps_uartStatus _ (Sub.trans (by decide) hL) (keeps_modUart _ _ (Sub.trans (by decide) hL) h))

theorem keeps_uartCntClr {L : List Part} {r s : State} (u : Nat)
    (hL : Sub [.uartR] L) (h : Keeps L r s) : Keeps L r (State.uartCntClr s u) := by
  unfold State.uartCntClr
  exact (keeps_clearCount _ _ (in_uart (hL _ (by decide)) (by decide)) (keeps_clearCount _ _ (in_uart (hL _ (by decide)) (by decide)) (keeps_clearCount _ _ (in_uart (hL _ (by decide)) (by decide)) (keeps_clearCount _ _ (in_uart (hL _ (by decide)) (by decide)) h))))

theorem keeps_execUartRxdata {L : List Part} {r s : State} (init : Fin 16) (u : Fin 2) (peek : Bool)
    (hL : Sub [.readData, .sysR, .happened, .uartR, .uart] L) (h : Keeps L r s) : Runs L r (execUartRxdata init u peek s) := by
  unfold execUartRxdata
  exact (Runs.next (keeps_onRead _ _ _ (Sub.trans (by decide) hL) h (fun y0 k1 => (keeps_uartPop _ _ (Sub.trans (by decide) hL) k1))))

theorem keeps_modCan {L : List Part} {r s : State} (k : Fin 2) (f : Can → Can)
    (hL : Sub [.can] L) (h : Keeps L r s) : Keeps L r (State.modCan s k f) := by
  unfold State.modCan
  exact (Keeps.set_can (hL _ (by decide)) h)

theorem keeps_canStatus {L : List Part} {r s : State} (k : Fin 2)
    (hL : Sub [.canR] L) (h : Keeps L r s) : Keeps L r (State.canStatus s k) := by
  unfold State.canStatus
  extract_lets +onlyGivenNames -merge -useContext -underBinder x0
  extract_lets +onlyGivenNames -merge -useContext -underBinder x1
  have k2 : Keeps L r (x1) := (keeps_setB _ _ _ (in_can (hL _ (by decide)) (by decide)) h)
  try clear_value x1
  split
  · exact k2
  · exact (Keeps.foldl (fun y3 y4 k5 => (keeps_setF _ _ _ (in_can (hL _ (by decide)) (off_at (n := 60416) (by omega) (by decide))) k5)) k2)

theorem keeps_canErrors {L : List Part} {r s : State} (k : Fin 2) (tec : Nat) (rec : Nat)
    (hL : Sub [.canR] L) (h : Keeps L r s) : Keeps L r (State.canErrors s k tec rec) := by
  unfold State.canErrors
  extract_lets +onlyGivenNames -merge -useContext -underBinder x0
  extract_lets +onlyGivenNames -merge -useContext -underBinder x1
  have k2 : Keeps L r (x1) := (keeps_setF _ _ _ (in_can (hL _ (by decide)) (by decide)) (keeps_setF _ _ _ (in_can (hL _ (by decide)) (by decide)) h))
  try clear_value x1
  exact (Keeps.ite k2 (keeps_setF _ _ _ (in_can (hL _ (by decide)) (by decide)) k2))

theorem keeps_canTake {L : List Part} {r s : State} (k : Fin 2) (f : CanFrame)
    (hL : Sub [.ode, .canR, .can] L) (h : Keeps L r s) : Keeps L r (State.canTake s k f) := by
  unfold State.canTake
  extract_lets +onlyGivenNames -merge -useContext -underBinder x0
  try clear_value x0
  exact (Keeps.ite (Keeps.set_ode (hL _ (by decide)) h) (Keeps.ite (keeps_canStatus _ (Sub.trans (by decide) hL) (keeps_modCan _ _ (Sub.trans (by decide) hL) h)) h))

theorem keeps_execCanFrame {L : List Part} {r s : State} (k : Fin 2) (f : CanFrame) (error : Bool)
    (hL : Sub [.canR, .ode, .can] L) (h : Keeps L r s) : Runs L r (execCanFrame k f error s) := by
  unfold execCanFrame
  extract_lets +onlyGivenNames -merge -useContext -underBinder x0
  refine Runs.next ?_
  refine Keeps.ite ?_ h
  extract_lets +onlyGivenNames -merge -useContext -underBinder x1
  try clear_value x1
  extract_lets +onlyGivenNames -merge -useContext -underBinder x2
  try clear_value x2
  exact (Keeps.ite (keeps_canErrors _ _ _ (Sub.trans (by decide) hL) h) (keeps_canTake _ _ (Sub.trans (by decide) hL) (keeps_canErrors _ _ _ (Sub.trans (by decide) hL) h)))

theorem keeps_execCanTxDone {L : List Part} {r s : State} (k : Fin 2) (slot : Fin 9) (error : Bool)
    (hL : Sub [.canR, .ode, .can] L) (h : Keeps L r s) : Runs L r (execCanTxDone k slot error s) := by
  unfold execCanTxDone
  extract_lets +onlyGivenNames -merge -useContext -underBinder x0
  refine Runs.next ?_
  refine Keeps.ite ?_ h
  extract_lets +onlyGivenNames -merge -useContext -underBinder x1
  try clear_value x1
  extract_lets +onlyGivenNames -merge -useContext -underBinder x2
  try clear_value x2
  refine Keeps.ite (keeps_canErrors _ _ _ (Sub.trans (by decide) hL) h) ?_
  split
  · exact h
  · extract_lets +onlyGivenNames -merge -useContext -underBinder x3
    have k4 : Keeps L r (x3) := (keeps_canErrors _ _ _ (Sub.trans (by decide) hL) h)
    try clear_value x3
    extract_lets +onlyGivenNames -merge -useContext -underBinder x5 x6
    have k7 : Keeps L r (x6) := (Keeps.ite (Keeps.set_ode (hL _ (by decide)) k4) (keeps_setBit _ _ _ _ (in_can (hL _ (by decide)) (by decide)) k4))
    try clear_value x6
    extract_lets +onlyGivenNames -merge -useContext -underBinder x8
    have k9 : Keeps L r (x8) := (keeps_modCan _ _ (Sub.trans (by decide) hL) k7)
    try clear_value x8
    exact (Keeps.ite (keeps_canTake _ _ (Sub.trans (by decide) hL) k9) k9)

theorem keeps_canPop {L : List Part} {r s : State} (k : Fin 2)
    (hL : Sub [.canR, .can] L) (h : Keeps L r s) : Keeps L r (State.canPop s k) := by
  unfold State.canPop
  exact (keeps_canStatus _ (Sub.trans (by decide) hL) (keeps_modCan _ _ (Sub.trans (by decide) hL) h))

theorem keeps_canCmd {L : List Part} {r s : State} (k : Fin 2) (v : Nat)
    (hL : Sub [.canR, .can] L) (h : Keeps L r s) : Keeps L r (State.canCmd s k v) := by
  unfold State.canCmd
  extract_lets +onlyGivenNames -merge -useContext -underBinder x0
  refine Keeps.ite h ?_
  extract_lets +onlyGivenNames -merge -useContext -underBinder x1
  have k2 : Keeps L r (x1) := (keeps_setF _ _ _ (in_can (hL _ (by decide)) (by decide)) h)
  try clear_value x1
  extract_lets +onlyGivenNames -merge -useContext -underBinder x3
  have k4 : Keeps L r (x3) := (Keeps.ite (keeps_canPop _ (Sub.trans (by decide) hL) k2) k2)
  try clear_value x3
  exact (Keeps.ite (keeps_modCan _ _ (Sub.trans (by decide) hL) k4) k4)

theorem keeps_execTxReq {L : List Part} {r s : State} (init : Fin 16) (k : Fin 2) (slots : BitVec 8)
    (hL : Sub [.sysR, .happened, .canR, .can] L) (h : Keeps L r s) : Runs L r (execTxReq init k slots s) := by
  unfold execTxReq
  exact (Runs.next (keeps_onCommand _ _ _ (Sub.trans (by decide) hL) h (fun y0 k1 => (keeps_canCmd _ _ (Sub.trans (by decide) hL) k1))))

theorem keeps_execCanRxPop {L : List Part} {r s : State} (init : Fin 16) (k : Fin 2)
    (hL : Sub [.sysR, .happened, .canR, .can] L) (h : Keeps L r s) : Runs L r (execCanRxPop init k s) := by
  unfold execCanRxPop
  exact (Runs.next (keeps_onCommand _ _ _ (Sub.trans (by decide) hL) h (fun y0 k1 => (keeps_canCmd _ _ (Sub.trans (by decide) hL) k1))))

theorem keeps_execRecover {L : List Part} {r s : State} (init : Fin 16) (k : Fin 2)
    (hL : Sub [.sysR, .happened, .canR, .can] L) (h : Keeps L r s) : Runs L r (execRecover init k s) := by
  unfold execRecover
  exact (Runs.next (keeps_onCommand _ _ _ (Sub.trans (by decide) hL) h (fun y0 k1 => (keeps_canCmd _ _ (Sub.trans (by decide) hL) k1))))

theorem keeps_execBusOffRecoveryEnd {L : List Part} {r s : State} (k : Fin 2)
    (hL : Sub [.canR, .can] L) (h : Keeps L r s) : Runs L r (execBusOffRecoveryEnd k s) := by
  unfold execBusOffRecoveryEnd
  exact (Runs.next (Keeps.ite (keeps_canErrors _ _ _ (Sub.trans (by decide) hL) (keeps_setF _ _ _ (in_can (hL _ (by decide)) (by decide)) (keeps_modCan _ _ (Sub.trans (by decide) hL) h))) h))

theorem keeps_modIic {L : List Part} {r s : State} (i : Fin 2) (f : Iic → Iic)
    (hL : Sub [.iic] L) (h : Keeps L r s) : Keeps L r (State.modIic s i f) := by
  unfold State.modIic
  exact (Keeps.set_iic (hL _ (by decide)) h)

theorem keeps_iicStatus {L : List Part} {r s : State} (i : Fin 2)
    (hL : Sub [.iicR] L) (h : Keeps L r s) : Keeps L r (State.iicStatus s i) := by
  unfold State.iicStatus
  exact (keeps_setF _ _ _ (in_iic (hL _ (by decide)) (by decide)) h)

theorem keeps_iicPush {L : List Part} {r s : State} (i : Fin 2) (v : Word)
    (hL : Sub [.iicR, .iic] L) (h : Keeps L r s) : Keeps L r (State.iicPush s i v) := by
  unfold State.iicPush
  exact (Keeps.ite (keeps_iicStatus _ (Sub.trans (by decide) hL) (keeps_modIic _ _ (Sub.trans (by decide) hL) h)) h)

theorem keeps_iicPop {L : List Part} {r s : State} (i : Fin 2) (peek : Bool)
    (hL : Sub [.iic] L) (h : Keeps L r s) : Keeps2 L r (State.iicPop s i peek) := by
  unfold State.iicPop
  split
  · exact (Keeps2.mk h)
  · exact (Keeps2.mk (Keeps.ite h (keeps_modIic _ _ (Sub.trans (by decide) hL) h)))

theorem keeps_iicResume {L : List Part} {r s : State} (i : Fin 2)
    (hL : Sub [.iicR] L) (h : Keeps L r s) : Keeps L r (State.iicResume s i) := by
  unfold State.iicResume
  exact (keeps_setB _ _ _ (in_iic (hL _ (by decide)) (by decide)) (keeps_setB _ _ _ (in_iic (hL _ (by decide)) (by decide)) (keeps_setB _ _ _ (in_iic (hL _ (by decide)) (by decide)) h)))

theorem keeps_execXfer {L : List Part} {r s : State} (init : Fin 16) (i : Fin 2) (value : Word)
    (hL : Sub [.sysR, .happened, .iicR, .iic] L) (h : Keeps L r s) : Runs L r (execXfer init i value s) := by
  unfold execXfer
  exact (Runs.next (keeps_onCommand _ _ _ (Sub.trans (by decide) hL) h (fun y0 k1 => (keeps_iicPush _ _ (Sub.trans (by decide) hL) k1))))

theorem keeps_execIicOperation {L : List Part} {r s : State} (i : Fin 2) (v1 : IicResult)
    (hL : Sub [.iicR, .iic, .happened] L) (h : Keeps L r s) : Runs L r (execIicOperation i v1 s) := by
  unfold execIicOperation
  extract_lets +onlyGivenNames -merge -useContext -underBinder x0
  refine Runs.next ?_
  split
  · exact h
  · refine Keeps.ite ?_ h
    extract_lets +onlyGivenNames -merge -useContext -underBinder x1
    have k2 : Keeps L r (x1) := (keeps_iicStatus _ (Sub.trans (by decide) hL) (keeps_modIic _ _ (Sub.trans (by decide) hL) h))
    try clear_value x1
    exact (Keeps.ite (keeps_setB _ _ _ (in_iic (hL _ (by decide)) (by decide)) (keeps_setB _ _ _ (in_iic (hL _ (by decide)) (by decide)) k2)) (Keeps.ite (keeps_modIic _ _ (Sub.trans (by decide) hL) k2) (Keeps.ite (keeps_setB _ _ _ (in_iic (hL _ (by decide)) (by decide)) (keeps_setB _ _ _ (in_iic (hL _ (by decide)) (by decide)) (keeps_countSat _ _ _ (hL _ (by decide)) (in_iic (hL _ (by decide)) (by decide)) k2))) k2)))

theorem keeps_execIicRxdata {L : List Part} {r s : State} (init : Fin 16) (i : Fin 2) (peek : Bool)
    (hL : Sub [.readData, .sysR, .happened, .iic] L) (h : Keeps L r s) : Runs L r (execIicRxdata init i peek s) := by
  unfold execIicRxdata
  exact (Runs.next (keeps_onRead _ _ _ (Sub.trans (by decide) hL) h (fun y0 k1 => (keeps_iicPop _ _ (Sub.trans (by decide) hL) k1))))

theorem keeps_execIicResume {L : List Part} {r s : State} (init : Fin 16) (i : Fin 2)
    (hL : Sub [.sysR, .happened, .iicR] L) (h : Keeps L r s) : Runs L r (execIicResume init i s) := by
  unfold execIicResume
  exact (Runs.next (keeps_onCommand _ _ _ (Sub.trans (by decide) hL) h (fun y0 k1 => (keeps_iicResume _ (Sub.trans (by decide) hL) k1))))

theorem keeps_execIicCntClr {L : List Part} {r s : State} (init : Fin 16) (i : Fin 2)
    (hL : Sub [.sysR, .happened, .iicR] L) (h : Keeps L r s) : Runs L r (execIicCntClr init i s) := by
  unfold execIicCntClr
  exact (Runs.next (keeps_onCommand _ _ _ (Sub.trans (by decide) hL) h (fun y0 k1 => (keeps_clearCount _ _ (in_iic (hL _ (by decide)) (by decide)) k1))))

theorem keeps_modQep {L : List Part} {r s : State} (d : Fin 4) (f : Qep → Qep)
    (hL : Sub [.qep] L) (h : Keeps L r s) : Keeps L r (State.modQep s d f) := by
  unfold State.modQep
  exact (Keeps.set_qep (hL _ (by decide)) h)

theorem keeps_setPos {L : List Part} {r s : State} (d : Fin 4) (v : Word)
    (hL : Sub [.qep, .qepR] L) (h : Keeps L r s) : Keeps L r (State.setPos s d v) := by
  unfold State.setPos
  extract_lets +onlyGivenNames -merge -useContext -underBinder x0
  try clear_value x0
  extract_lets +onlyGivenNames -merge -useContext -underBinder x1
  have k2 : Keeps L r (x1) := (Keeps.ite h (keeps_modQep _ _ (Sub.trans (by decide) hL) h))
  try clear_value x1
  exact (keeps_wr _ _ (in_qep (hL _ (by decide)) (by decide)) k2)

theorem keeps_execQepCountEdge {L : List Part} {r s : State} (d : Fin 4) (a : BallLevel) (b : BallLevel)
    (hL : Sub [.qep, .qepR, .happened] L) (h : Keeps L r s) : Runs L r (execQepCountEdge d a b s) := by
  unfold execQepCountEdge
  extract_lets +onlyGivenNames -merge -useContext -underBinder x0
  extract_lets +onlyGivenNames -merge -useContext -underBinder x1
  try clear_value x1
  extract_lets +onlyGivenNames -merge -useContext -underBinder x2
  try clear_value x2
  extract_lets +onlyGivenNames -merge -useContext -underBinder x3
  try clear_value x3
  extract_lets +onlyGivenNames -merge -useContext -underBinder x4
  have k5 : Keeps L r (x4) := (keeps_modQep _ _ (Sub.trans (by decide) hL) h)
  try clear_value x4
  refine Runs.next ?_
  refine Keeps.ite ?_ k5
  extract_lets +onlyGivenNames -merge -useContext -underBinder x6
  try clear_value x6
  extract_lets +onlyGivenNames -merge -useContext -underBinder x7
  try clear_value x7
  extract_lets +onlyGivenNames -merge -useContext -underBinder x8
  try clear_value x8
  extract_lets +onlyGivenNames -merge -useContext -underBinder x9
  try clear_value x9
  extract_lets +onlyGivenNames -merge -useContext -underBinder x10
  try clear_value x10
  extract_lets +onlyGivenNames -merge -useContext -underBinder x11
  have k12 : Keeps L r (x11) := (Keeps.ite (keeps_countSat _ _ _ (hL _ (by decide)) (in_qep (hL _ (by decide)) (by decide)) k5) k5)
  try clear_value x11
  refine Keeps.ite k12 ?_
  extract_lets +onlyGivenNames -merge -useContext -underBinder x13
  try clear_value x13
  extract_lets +onlyGivenNames -merge -useContext -underBinder x14
  have k15 : Keeps L r (x14) := (keeps_setB _ _ _ (in_qep (hL _ (by decide)) (by decide)) (keeps_modQep _ _ (Sub.trans (by decide) hL) k12))
  try clear_value x14
  exact (keeps_setPos _ _ (Sub.trans (by decide) hL) k15)

theorem keeps_execZEdge {L : List Part} {r s : State} (z : ZLine)
    (hL : Sub [.qep, .qepR, .crier] L) (h : Keeps L r s) : Runs L r (execZEdge z s) := by
  unfold execZEdge
  extract_lets +onlyGivenNames -merge -useContext -underBinder x0
  try clear_value x0
  extract_lets +onlyGivenNames -merge -useContext -underBinder x1
  extract_lets +onlyGivenNames -merge -useContext -underBinder x2
  try clear_value x2
  extract_lets +onlyGivenNames -merge -useContext -underBinder x3
  try clear_value x3
  refine Runs.next ?_
  refine Keeps.ite ?_ h
  extract_lets +onlyGivenNames -merge -useContext -underBinder x4
  try clear_value x4
  extract_lets +onlyGivenNames -merge -useContext -underBinder x5
  have k6 : Keeps L r (x5) := (keeps_setPos _ _ (Sub.trans (by decide) hL) (keeps_wr _ _ (in_qep (hL _ (by decide)) (by decide)) h))
  try clear_value x5
  extract_lets +onlyGivenNames -merge -useContext -underBinder x7
  have k8 : Keeps L r (x7) := (Keeps.ite (keeps_setB _ _ _ (in_qep (hL _ (by decide)) (by decide)) k6) k6)
  try clear_value x7
  exact (keeps_pulse _ (Sub.trans (by decide) hL) (keeps_modQep _ _ (Sub.trans (by decide) hL) k8))

theorem keeps_qepCmd {L : List Part} {r s : State} (d : Fin 4) (v : Nat)
    (hL : Sub [.qepR] L) (h : Keeps L r s) : Keeps L r (State.qepCmd s d v) := by
  unfold State.qepCmd
  extract_lets +onlyGivenNames -merge -useContext -underBinder x0
  refine Keeps.ite h ?_
  extract_lets +onlyGivenNames -merge -useContext -underBinder x1
  have k2 : Keeps L r (x1) := (Keeps.ite (keeps_setB _ _ _ (in_qep (hL _ (by decide)) (by decide)) h) h)
  try clear_value x1
  exact (Keeps.ite (keeps_clearCount _ _ (in_qep (hL _ (by decide)) (by decide)) k2) k2)

theorem keeps_execArmZ {L : List Part} {r s : State} (init : Fin 16) (d : Fin 4)
    (hL : Sub [.sysR, .happened, .qepR] L) (h : Keeps L r s) : Runs L r (execArmZ init d s) := by
  unfold execArmZ
  exact (Runs.next (keeps_onCommand _ _ _ (Sub.trans (by decide) hL) h (fun y0 k1 => (keeps_qepCmd _ _ (Sub.trans (by decide) hL) k1))))

theorem keeps_execQepCntClr {L : List Part} {r s : State} (init : Fin 16) (d : Fin 4)
    (hL : Sub [.sysR, .happened, .qepR] L) (h : Keeps L r s) : Runs L r (execQepCntClr init d s) := by
  unfold execQepCntClr
  exact (Runs.next (keeps_onCommand _ _ _ (Sub.trans (by decide) hL) h (fun y0 k1 => (keeps_qepCmd _ _ (Sub.trans (by decide) hL) k1))))

theorem keeps_execPos {L : List Part} {r s : State} (init : Fin 16) (d : Fin 4) (value : Word)
    (hL : Sub [.sysR, .happened, .qep, .qepR] L) (h : Keeps L r s) : Runs L r (execPos init d value s) := by
  unfold execPos
  exact (Runs.next (keeps_onCommand _ _ _ (Sub.trans (by decide) hL) h (fun y0 k1 => (keeps_setPos _ _ (Sub.trans (by decide) hL) (keeps_modQep _ _ (Sub.trans (by decide) hL) k1)))))

theorem keeps_gpioOut {L : List Part} {r s : State} (hi : Bool) (set : Bool) (mask : Nat)
    (hL : Sub [.gpioR] L) (h : Keeps L r s) : Keeps L r (State.gpioOut s hi set mask) := by
  unfold State.gpioOut
  extract_lets +onlyGivenNames -merge -useContext -underBinder x0
  extract_lets +onlyGivenNames -merge -useContext -underBinder x1
  try clear_value x1
  exact (keeps_setF _ _ _ (in_gpio (hL _ (by decide)) (by show Fld.off (ite _ _ _) < _; split <;> decide)) h)

theorem keeps_execOutSet {L : List Part} {r s : State} (init : Fin 16) (hi : Bool) (mask : Word)
    (hL : Sub [.sysR, .happened, .gpioR] L) (h : Keeps L r s) : Runs L r (execOutSet init hi mask s) := by
  unfold execOutSet
  exact (Runs.next (keeps_onCommand _ _ _ (Sub.trans (by decide) hL) h (fun y0 k1 => (keeps_gpioOut _ _ _ (Sub.trans (by decide) hL) k1))))

theorem keeps_execOutClr {L : List Part} {r s : State} (init : Fin 16) (hi : Bool) (mask : Word)
    (hL : Sub [.sysR, .happened, .gpioR] L) (h : Keeps L r s) : Runs L r (execOutClr init hi mask s) := by
  unfold execOutClr
  exact (Runs.next (keeps_onCommand _ _ _ (Sub.trans (by decide) hL) h (fun y0 k1 => (keeps_gpioOut _ _ _ (Sub.trans (by decide) hL) k1))))

theorem keeps_gpioWatch {L : List Part} {r s : State} (line : Nat) (was : Bool) (level : Bool) (k : Nat)
    (hL : Sub [.criR] L) (h : Keeps L r s) : Keeps L r (State.gpioWatch s line was level k) := by
  unfold State.gpioWatch
  refine Keeps.ite ?_ h
  split
  · exact (Keeps.ite (keeps_pend _ (Sub.trans (by decide) hL) h) h)
  · exact (Keeps.ite (keeps_pend _ (Sub.trans (by decide) hL) h) h)
  · exact (Keeps.ite (keeps_pend _ (Sub.trans (by decide) hL) h) h)
  · exact (keeps_setLine _ _ (Sub.trans (by decide) hL) h)
  · exact (keeps_setLine _ _ (Sub.trans (by decide) hL) h)
  · exact h

theorem keeps_execGpioIrqEdge {L : List Part} {r s : State} (line : Fin 64) (x : BallLevel)
    (hL : Sub [.gpioR, .criR] L) (h : Keeps L r s) : Runs L r (execGpioIrqEdge line x s) := by
  unfold execGpioIrqEdge
  refine Runs.next ?_
  refine Keeps.ite h ?_
  extract_lets +onlyGivenNames -merge -useContext -underBinder x0
  try clear_value x0
  extract_lets +onlyGivenNames -merge -useContext -underBinder x1
  have k2 : Keeps L r (x1) := (Keeps.ite (keeps_setBit _ _ _ _ (in_gpio (hL _ (by decide)) (by decide)) h) (keeps_setBit _ _ _ _ (in_gpio (hL _ (by decide)) (by decide)) h))
  try clear_value x1
  exact (keeps_forAll _ _ k2 fun y4 y5 b6 k3 => (keeps_gpioWatch _ _ _ _ (Sub.trans (by decide) hL) k3))

theorem keeps_gpioIrqCfg {L : List Part} {r s : State} (k : Nat)
    (hL : Sub [.criR] L) (h : Keeps L r s) : Keeps L r (State.gpioIrqCfg s k) := by
  unfold State.gpioIrqCfg
  extract_lets +onlyGivenNames -merge -useContext -underBinder x0
  try clear_value x0
  split
  · exact (keeps_setLine _ _ (Sub.trans (by decide) hL) h)
  · exact (keeps_setLine _ _ (Sub.trans (by decide) hL) h)
  · exact (keeps_setSrcBit _ _ _ (hL _ (by decide)) (by decide) (by omega) h)

theorem keeps_execWatchdogTick {L : List Part} {r s : State} 
    (hL : Sub [.now, .cellar, .wdtR, .crier] L) (h : Keeps L r s) : Runs L r (execWatchdogTick s) := by
  unfold execWatchdogTick
  extract_lets +onlyGivenNames -merge -useContext -underBinder x0
  have k1 : Keeps L r (x0) := (keeps_wdtCount _ (Sub.trans (by decide) hL) h)
  try clear_value x0
  exact (Runs.next (keeps_wdtTick _ _ _ (Sub.trans (by decide) hL) (keeps_frozenUpdate (Sub.trans (by decide) hL) k1) (fun y2 k3 => (keeps_celPulse _ (Sub.trans (by decide) hL) k3))))

theorem keeps_execCoreWatchdogTick {L : List Part} {r s : State} (n : Fin 4)
    (hL : Sub [.now, .cellar, .wdtR, .crier] L) (h : Keeps L r s) : Runs L r (execCoreWatchdogTick n s) := by
  unfold execCoreWatchdogTick
  extract_lets +onlyGivenNames -merge -useContext -underBinder x0
  have k1 : Keeps L r (x0) := (keeps_wdtCount _ (Sub.trans (by decide) hL) h)
  try clear_value x0
  exact (Runs.next (keeps_wdtTick _ _ _ (Sub.trans (by decide) hL) k1 (fun y2 k3 => (keeps_pulse _ (Sub.trans (by decide) hL) k3))))

theorem keeps_execCoreWatchdogExpiry {L : List Part} {r s : State} (n : Fin 4)
    (hL : Sub [.cellar, .criR, .sysR, .celR, .happened, .core, .ode, .wdtR] L) (h : Keeps L r s) : Runs L r (execCoreWatchdogExpiry n s) := by
  unfold execCoreWatchdogExpiry
  refine Runs.next ?_
  split
  · exact h
  · extract_lets +onlyGivenNames -merge -useContext -underBinder x0 x1
    have k2 : Keeps L r (x1) := (Keeps.set_cellar (hL _ (by decide)) h)
    try clear_value x1
    exact (keeps_startCoreReset _ _ (Sub.trans (by decide) hL) k2)

end Sys2Proof.Laws
end

