-- ==== Sys2Proof/Laws/KeepRestart.lean ====
section
/-! SUPPORT. What the operations of Machine/Restart.lean may change, and what they keep (see Keeps.lean). -/

namespace Sys2Proof.Laws

open Sys2Proof Sys2Proof.Machine Sys2Proof.Safety

theorem keeps_dropShadows {L : List Part} {r s : State} (lo : Nat) (hi : Nat)
    (hL : Sub [.shadows] L) (h : Keeps L r s) : Keeps L r (State.dropShadows s lo hi) := by
  unfold State.dropShadows
  exact (Keeps.set_shadows (hL _ (by decide)) h)

theorem keeps_resetAisle {L : List Part} {r s : State} (a : Nat)
    (hL : Sub [.leg, .trpR, .shadows, .aisR, .carR, .stlR, .cnvR, .cmpR, .legR, .engR, .aisle, .eng, .cnv, .car, .cmp, .trip, .knrR, .celR, .crier, .cellar, .ring, .attic, .atcR, .mem, .happened, .wdtR] L) (h : Keeps L r s) : Keeps L r (State.resetAisle s a) := by
  unfold State.resetAisle
  extract_lets +onlyGivenNames -merge -useContext -underBinder x0
  have k1 : Keeps L r (x0) := (keeps_forAll _ _ h fun y3 y4 b5 k2 => (keeps_setHeld _ _ (Sub.trans (by decide) hL) k2))
  try clear_value x0
  extract_lets +onlyGivenNames -merge -useContext -underBinder x6
  have k7 : Keeps L r (x6) := (keeps_dropShadows _ _ (Sub.trans (by decide) hL) (keeps_clearRegs _ _ (clear_aisle (Sub.trans (by decide) hL)) k1))
  try clear_value x6
  extract_lets +onlyGivenNames -merge -useContext -underBinder x8
  have k9 : Keeps L r (x8) := (keeps_modAisle _ _ (Sub.trans (by decide) hL) k7)
  try clear_value x8
  extract_lets +onlyGivenNames -merge -useContext -underBinder x10
  have k11 : Keeps L r (x10) := (keeps_forAll _ _ k9 fun y13 y14 b15 k12 => (keeps_modEng _ _ (Sub.trans (by decide) hL) (keeps_modCnv _ _ (Sub.trans (by decide) hL) (keeps_modCar _ _ (Sub.trans (by decide) hL) k12))))
  try clear_value x10
  extract_lets +onlyGivenNames -merge -useContext -underBinder x16
  have k17 : Keeps L r (x16) := (keeps_forAll _ _ (keeps_forAll _ _ k11 fun y23 y24 b25 k22 => (keeps_modLeg _ _ (Sub.trans (by decide) hL) k22)) fun y19 y20 b21 k18 => (keeps_modCmp _ _ (Sub.trans (by decide) hL) k18))
  try clear_value x16
  extract_lets +onlyGivenNames -merge -useContext -underBinder x26
  have k27 : Keeps L r (x26) := (keeps_anyHeld (Sub.trans (by decide) hL) k17)
  try clear_value x26
  extract_lets +onlyGivenNames -merge -useContext -underBinder x28
  have k29 : Keeps L r (x28) := (keeps_forAll _ _ k27 fun y31 y32 b33 k30 => (Keeps.ite (keeps_srcFall _ (Sub.trans (by decide) hL) k30) k30))
  try clear_value x28
  exact (keeps_forAll _ _ (keeps_forAll _ _ k29 fun y39 y40 b41 k38 => (keeps_srcFall _ (Sub.trans (by decide) hL) k38)) fun y35 y36 b37 k34 => (keeps_srcFall _ (Sub.trans (by decide) hL) k34))

theorem keeps_resetRing {L : List Part} {r s : State} 
    (hL : Sub [.odeR, .ring, .ode, .happened, .free, .dbgR, .shadows, .knrR, .sysR, .clock, .trpR, .trip, .celR, .aisle, .crier, .cellar, .attic, .atcR, .mem, .stlR, .wdtR] L) (h : Keeps L r s) : Keeps L r (State.resetRing s) := by
  unfold State.resetRing
  extract_lets +onlyGivenNames -merge -useContext -underBinder x0
  try clear_value x0
  extract_lets +onlyGivenNames -merge -useContext -underBinder x1
  have k2 : Keeps L r (x1) := (Keeps.foldl (fun y3 y4 k5 => (keeps_odReply _ _ (Sub.trans (by decide) hL) k5)) h)
  try clear_value x1
  extract_lets +onlyGivenNames -merge -useContext -underBinder x7
  have k8 : Keeps L r (x7) := (Keeps.ite k2 (keeps_setB _ _ _ (in_dbg (hL _ (by decide)) (by decide)) (keeps_setB _ _ _ (in_dbg (hL _ (by decide)) (by decide)) k2)))
  try clear_value x7
  extract_lets +onlyGivenNames -merge -useContext -underBinder x9
  have k10 : Keeps L r (x9) := (keeps_dropShadows _ _ (Sub.trans (by decide) hL) (keeps_clearRegs _ _ (clear_knr (Sub.trans (by decide) hL)) k8))
  try clear_value x9
  extract_lets +onlyGivenNames -merge -useContext -underBinder x11
  have k12 : Keeps L r (x11) := (keeps_referenceToXin (Sub.trans (by decide) hL) (Keeps.set_clock (s := { x9 with ring := {} }) (hL _ (by decide)) (Keeps.set_ring (hL _ (by decide)) k10)))
  try clear_value x11
  exact (keeps_marketIn _ (Sub.trans (by decide) hL) k12)

theorem keeps_resetAttic {L : List Part} {r s : State} 
    (hL : Sub [.shadows, .atcR, .attic] L) (h : Keeps L r s) : Keeps L r (State.resetAttic s) := by
  unfold State.resetAttic
  extract_lets +onlyGivenNames -merge -useContext -underBinder x0
  have k1 : Keeps L r (x0) := (keeps_dropShadows _ _ (Sub.trans (by decide) hL) (keeps_clearRegs _ _ (clear_atc (Sub.trans (by decide) hL)) h))
  try clear_value x0
  exact (keeps_perstUpdate (Sub.trans (by decide) hL) (Keeps.set_attic (hL _ (by decide)) k1))

theorem keeps_startIslandReset {L : List Part} {r s : State} (code : Nat)
    (hL : Sub [.cellar, .celR, .happened, .core, .sysR, .leg, .trpR, .shadows, .aisR, .carR, .stlR, .cnvR, .cmpR, .legR, .engR, .aisle, .eng, .cnv, .car, .cmp, .trip, .knrR, .crier, .ring, .attic, .atcR, .mem, .wdtR, .odeR, .ode, .free, .dbgR, .clock] L) (h : Keeps L r s) : Keeps L r (State.startIslandReset s code) := by
  unfold State.startIslandReset
  extract_lets +onlyGivenNames -merge -useContext -underBinder x0
  have k1 : Keeps L r (x0) := (keeps_ledger _ _ _ _ (Sub.trans (by decide) hL) h)
  try clear_value x0
  extract_lets +onlyGivenNames -merge -useContext -underBinder x2 x3
  have k4 : Keeps L r (x3) := (Keeps.set_cellar (hL _ (by decide)) k1)
  try clear_value x3
  extract_lets +onlyGivenNames -merge -useContext -underBinder x5
  have k6 : ∀ y7, Keeps L r (x5 y7) := by
    intro y7
    unfold x5
    exact (keeps_loseAccesses _ (Sub.trans (by decide) hL) (keeps_setIsland _ _ (Sub.trans (by decide) hL) k4))
  try clear_value x5
  exact (Keeps.ite (keeps_resetAisle _ (Sub.trans (by decide) hL) (k6 _)) (Keeps.ite (keeps_resetRing (Sub.trans (by decide) hL) (k6 _)) (keeps_resetAttic (Sub.trans (by decide) hL) (k6 _))))

theorem keeps_hallResetCmd {L : List Part} {r s : State} 
    (hL : Sub [.cellar, .celR, .aisle, .crier, .stlR, .wdtR, .happened] L) (h : Keeps L r s) : Keeps L r (State.hallResetCmd s) := by
  unfold State.hallResetCmd
  exact (keeps_scheduleReset _ _ (Sub.trans (by decide) hL) (keeps_disarm _ (Sub.trans (by decide) hL) h))

theorem keeps_coreResetCmd {L : List Part} {r s : State} (c : Nat)
    (hL : Sub [.criR, .sysR, .celR, .cellar, .happened, .core, .ode, .wdtR] L) (h : Keeps L r s) : Keeps L r (State.coreResetCmd s c) := by
  unfold State.coreResetCmd
  exact (Keeps.ite (keeps_startCoreReset _ _ (Sub.trans (by decide) hL) h) h)

theorem keeps_islandResetCmd {L : List Part} {r s : State} (code : Nat)
    (hL : Sub [.celR, .cellar, .happened, .core, .sysR, .leg, .trpR, .shadows, .aisR, .carR, .stlR, .cnvR, .cmpR, .legR, .engR, .aisle, .eng, .cnv, .car, .cmp, .trip, .knrR, .crier, .ring, .attic, .atcR, .mem, .wdtR, .odeR, .ode, .free, .dbgR, .clock] L) (h : Keeps L r s) : Keeps L r (State.islandResetCmd s code) := by
  unfold State.islandResetCmd
  exact (Keeps.ite (Keeps.ite (keeps_setB _ _ _ (in_cel (hL _ (by decide)) (by decide)) h) (Keeps.ite (keeps_startIslandReset _ (Sub.trans (by decide) hL) h) h)) (Keeps.ite (keeps_startIslandReset _ (Sub.trans (by decide) hL) h) h))

theorem keeps_rstCmd {L : List Part} {r s : State} (v : Nat)
    (hL : Sub [.cellar, .celR, .aisle, .crier, .stlR, .wdtR, .happened, .criR, .sysR, .core, .ode, .leg, .trpR, .shadows, .aisR, .carR, .cnvR, .cmpR, .legR, .engR, .eng, .cnv, .car, .cmp, .trip, .knrR, .ring, .attic, .atcR, .mem, .odeR, .free, .dbgR, .clock] L) (h : Keeps L r s) : Keeps L r (State.rstCmd s v) := by
  unfold State.rstCmd
  refine Keeps.ite h ?_
  split
  · exact (keeps_hallResetCmd (Sub.trans (by decide) hL) h)
  · exact (keeps_coreResetCmd _ (Sub.trans (by decide) hL) h)
  · exact (keeps_islandResetCmd _ (Sub.trans (by decide) hL) h)
  · exact h

theorem keeps_shutdown {L : List Part} {r s : State} 
    (hL : Sub [.celR, .aisle, .crier, .cellar, .stlR, .wdtR, .happened, .mem] L) (h : Keeps L r s) : Keeps L r (State.shutdown s) := by
  unfold State.shutdown
  extract_lets +onlyGivenNames -merge -useContext -underBinder x0
  have k1 : Keeps L r (x0) := (keeps_disarm _ (Sub.trans (by decide) hL) h)
  try clear_value x0
  extract_lets +onlyGivenNames -merge -useContext -underBinder x2
  have k3 : Keeps L r (x2) := (Keeps.ite (keeps_requestSnap _ _ (Sub.trans (by decide) hL) k1) k1)
  try clear_value x2
  split
  · exact (Keeps.set_cellar (hL _ (by decide)) k3)
  · extract_lets +onlyGivenNames -merge -useContext -underBinder x4
    have k5 : Keeps L r (x4) := (keeps_scheduleReset _ _ (Sub.trans (by decide) hL) k3)
    try clear_value x4
    exact (Keeps.set_cellar (hL _ (by decide)) k5)

theorem keeps_celCmd {L : List Part} {r s : State} (v : Nat)
    (hL : Sub [.cellar, .celR, .mem, .aisle, .crier, .stlR, .wdtR, .happened] L) (h : Keeps L r s) : Keeps L r (State.celCmd s v) := by
  unfold State.celCmd
  refine Keeps.ite h ?_
  extract_lets +onlyGivenNames -merge -useContext -underBinder x0
  have k1 : Keeps L r (x0) := (Keeps.ite (keeps_requestSnap _ _ (Sub.trans (by decide) hL) h) h)
  try clear_value x0
  extract_lets +onlyGivenNames -merge -useContext -underBinder x2
  have k3 : Keeps L r (x2) := (Keeps.ite (keeps_requestSnap _ _ (Sub.trans (by decide) hL) k1) k1)
  try clear_value x2
  extract_lets +onlyGivenNames -merge -useContext -underBinder x4
  have k5 : Keeps L r (x4) := (Keeps.ite (keeps_shutdown (Sub.trans (by decide) hL) k3) k3)
  try clear_value x4
  extract_lets +onlyGivenNames -merge -useContext -underBinder x6
  have k7 : Keeps L r (x6) := (Keeps.ite (keeps_clearCount _ _ (in_cel (hL _ (by decide)) (by decide)) k5) k5)
  try clear_value x6
  exact (Keeps.ite (keeps_ledgerCntClr (Sub.trans (by decide) hL) k7) k7)

theorem keeps_execHallResetCmd {L : List Part} {r s : State} (init : Fin 16)
    (hL : Sub [.sysR, .happened, .cellar, .celR, .aisle, .crier, .stlR, .wdtR, .criR, .core, .ode, .leg, .trpR, .shadows, .aisR, .carR, .cnvR, .cmpR, .legR, .engR, .eng, .cnv, .car, .cmp, .trip, .knrR, .ring, .attic, .atcR, .mem, .odeR, .free, .dbgR, .clock] L) (h : Keeps L r s) : Runs L r (execHallResetCmd init s) := by
  unfold execHallResetCmd
  exact (Runs.next (keeps_onCommand _ _ _ (Sub.trans (by decide) hL) h (fun y0 k1 => (keeps_rstCmd _ (Sub.trans (by decide) hL) k1))))

theorem keeps_execCoreResetCmd {L : List Part} {r s : State} (init : Fin 16) (target : Fin 16)
    (hL : Sub [.sysR, .happened, .cellar, .celR, .aisle, .crier, .stlR, .wdtR, .criR, .core, .ode, .leg, .trpR, .shadows, .aisR, .carR, .cnvR, .cmpR, .legR, .engR, .eng, .cnv, .car, .cmp, .trip, .knrR, .ring, .attic, .atcR, .mem, .odeR, .free, .dbgR, .clock] L) (h : Keeps L r s) : Runs L r (execCoreResetCmd init target s) := by
  unfold execCoreResetCmd
  exact (Runs.next (keeps_onCommand _ _ _ (Sub.trans (by decide) hL) h (fun y0 k1 => (keeps_rstCmd _ (Sub.trans (by decide) hL) k1))))

theorem keeps_execIslandResetCmd {L : List Part} {r s : State} (init : Fin 16) (target : Fin 16)
    (hL : Sub [.sysR, .happened, .cellar, .celR, .aisle, .crier, .stlR, .wdtR, .criR, .core, .ode, .leg, .trpR, .shadows, .aisR, .carR, .cnvR, .cmpR, .legR, .engR, .eng, .cnv, .car, .cmp, .trip, .knrR, .ring, .attic, .atcR, .mem, .odeR, .free, .dbgR, .clock] L) (h : Keeps L r s) : Runs L r (execIslandResetCmd init target s) := by
  unfold execIslandResetCmd
  exact (Runs.next (keeps_onCommand _ _ _ (Sub.trans (by decide) hL) h (fun y0 k1 => (keeps_rstCmd _ (Sub.trans (by decide) hL) k1))))

theorem keeps_execShutdown {L : List Part} {r s : State} (init : Fin 16)
    (hL : Sub [.sysR, .happened, .celR, .aisle, .crier, .cellar, .stlR, .wdtR, .mem] L) (h : Keeps L r s) : Runs L r (execShutdown init s) := by
  unfold execShutdown
  exact (Runs.next (keeps_onCommand _ _ _ (Sub.trans (by decide) hL) h (fun y0 k1 => (keeps_shutdown (Sub.trans (by decide) hL) k1))))

theorem keeps_debugPower {L : List Part} {r s : State} 
    (hL : Sub [.dbgR, .dbg, .sysR, .celR] L) (h : Keeps L r s) : Keeps L r (State.debugPower s) := by
  unfold State.debugPower
  extract_lets +onlyGivenNames -merge -useContext -underBinder x0
  try clear_value x0
  extract_lets +onlyGivenNames -merge -useContext -underBinder x1
  try clear_value x1
  refine Keeps.ite h ?_
  extract_lets +onlyGivenNames -merge -useContext -underBinder x2
  have k3 : Keeps L r (x2) := (keeps_debugReset (Sub.trans (by decide) hL) (keeps_setIsland _ _ (Sub.trans (by decide) hL) (keeps_setB _ _ _ (in_cel (hL _ (by decide)) (by decide)) h)))
  try clear_value x2
  exact (Keeps.set_debug (hL _ (by decide)) k3)

theorem keeps_execDebugReset {L : List Part} {r s : State} 
    (hL : Sub [.cellar, .dbgR, .dbg, .sysR, .celR] L) (h : Keeps L r s) : Runs L r (execDebugReset s) := by
  unfold execDebugReset
  extract_lets +onlyGivenNames -merge -useContext -underBinder x0 x1
  have k2 : Keeps L r (x1) := (Keeps.set_cellar (hL _ (by decide)) h)
  try clear_value x1
  exact (Runs.next (keeps_debugPower (Sub.trans (by decide) hL) (keeps_setIsland _ _ (Sub.trans (by decide) hL) (keeps_debugReset (Sub.trans (by decide) hL) k2))))

theorem keeps_execDbgPowerOn {L : List Part} {r s : State} (trstN : Bool)
    (hL : Sub [.dbgR, .dbg, .sysR, .celR, .cellar, .now] L) (h : Keeps L r s) : Runs L r (execDbgPowerOn trstN s) := by
  unfold execDbgPowerOn
  extract_lets +onlyGivenNames -merge -useContext -underBinder x0 x1
  have k2 : Keeps L r (x1) := (keeps_debugPower (Sub.trans (by decide) hL) (Keeps.set_cellar (hL _ (by decide)) h))
  try clear_value x1
  exact (Runs.next (Keeps.ite (keeps_setIsland _ _ (Sub.trans (by decide) hL) (keeps_atTime _ (Sub.trans (by decide) hL) k2)) k2))

end Sys2Proof.Laws
end

