-- ==== Sys2Proof/Laws/KeepBus.lean ====
section
/-! SUPPORT. What the operations of Machine/Bus.lean may change, and what they keep (see Keeps.lean). -/

namespace Sys2Proof.Laws

open Sys2Proof Sys2Proof.Machine Sys2Proof.Safety

theorem keeps_setShadow {L : List Part} {r s : State} (x : Shadow)
    (hL : Sub [.shadows] L) (h : Keeps L r s) : Keeps L r (State.setShadow s x) := by
  unfold State.setShadow
  exact (Keeps.set_shadows (hL _ (by decide)) h)

theorem keeps_readReg {L : List Part} {r s : State} (init : Nat) (p : Place) (peek : Bool)
    (hL : Sub [.shadows, .criR, .spiR, .spi, .uartR, .uart, .iic] L) (h : Keeps L r s) : Keeps2 L r (State.readReg s init p peek) := by
  unfold State.readReg
  split
  · extract_lets +onlyGivenNames -merge -useContext -underBinder x0
    try clear_value x0
    extract_lets +onlyGivenNames -merge -useContext -underBinder x1
    try clear_value x1
    exact (Keeps2.ite (Keeps2.mk h) (Keeps2.mk (keeps_setShadow _ (Sub.trans (by decide) hL) h)))
  · split
    · exact (Keeps2.ite (keeps_criClaim _ _ _ _ (Sub.trans (by decide) hL) h) (Keeps2.mk h))
    · exact (Keeps2.ite (keeps_spiPop _ _ (Sub.trans (by decide) hL) h) (Keeps2.mk h))
    · exact (Keeps2.ite (keeps_uartPop _ _ (Sub.trans (by decide) hL) h) (Keeps2.mk h))
    · exact (Keeps2.ite (keeps_iicPop _ _ (Sub.trans (by decide) hL) h) (Keeps2.mk h))
    · exact (Keeps2.mk h)

theorem keeps_tripConfigured {L : List Part} {r s : State} 
    (hL : Sub [.cmpR, .happened, .cmp, .trpR, .trip, .knrR, .celR, .aisle, .crier, .cellar, .ring, .attic, .atcR, .mem, .stlR, .wdtR, .legR, .leg] L) (h : Keeps L r s) : Keeps L r (State.tripConfigured s) := by
  unfold State.tripConfigured
  extract_lets +onlyGivenNames -merge -useContext -underBinder x0
  have k1 : Keeps L r (x0) := (keeps_forAll _ _ h fun y3 y4 b5 k2 => (keeps_cmpUpdate _ (Sub.trans (by decide) hL) k2))
  try clear_value x0
  exact (keeps_forAll _ _ (keeps_tripUpdate (Sub.trans (by decide) hL) (keeps_forAll _ _ k1 fun y11 y12 b13 k10 => (keeps_srcFall _ (Sub.trans (by decide) hL) k10))) fun y7 y8 b9 k6 => (keeps_legGroups _ (Sub.trans (by decide) hL) k6))

theorem keeps_afterWrite {L : List Part} {r s : State} (p : Place) (old : Nat) (new : Nat)
    (hL : Sub [.aisR, .cmpR, .happened, .cmp, .trpR, .trip, .knrR, .celR, .aisle, .crier, .cellar, .ring, .attic, .atcR, .mem, .stlR, .wdtR, .cnv, .cnvR, .legR, .leg, .carR, .car, .eng, .free, .flcR, .flash, .dbgR, .dbg, .sysR, .odeR, .ode, .spiR, .uartR, .criR] L) (h : Keeps L r s) : Keeps L r (State.afterWrite s p old new) := by
  unfold State.afterWrite
  extract_lets +onlyGivenNames -merge -useContext -underBinder x0
  try clear_value x0
  split
  · refine Keeps.ite ?_ (Keeps.ite (keeps_aisChanged _ (Sub.trans (by decide) hL) h) h)
    extract_lets +onlyGivenNames -merge -useContext -underBinder x1
    have k2 : Keeps L r (x1) := (Keeps.ite (keeps_aisEnable _ (Sub.trans (by decide) hL) h) (Keeps.ite (keeps_blankDisable _ (Sub.trans (by decide) hL) (keeps_aisEnable _ (Sub.trans (by decide) hL) h)) h))
    try clear_value x1
    exact (keeps_aisChanged _ (Sub.trans (by decide) hL) k2)
  · exact (Keeps.ite (keeps_carEnable _ (Sub.trans (by decide) hL) h) (Keeps.ite (keeps_carDisable _ (Sub.trans (by decide) hL) h) h))
  · exact (keeps_carWritten _ (Sub.trans (by decide) hL) h)
  · exact (keeps_carWritten _ (Sub.trans (by decide) hL) h)
  · exact (keeps_carWritten _ (Sub.trans (by decide) hL) h)
  · exact (keeps_phaseWritten _ (Sub.trans (by decide) hL) h)
  · extract_lets +onlyGivenNames -merge -useContext -underBinder x3
    have k4 : Keeps L r (x3) := (keeps_calOffer _ _ (Sub.trans (by decide) hL) h)
    try clear_value x3
    refine Keeps.ite ?_ (Keeps.ite (keeps_pinsWritten _ _ _ (Sub.trans (by decide) hL) k4) (keeps_cnvStatus _ (Sub.trans (by decide) hL) k4))
    extract_lets +onlyGivenNames -merge -useContext -underBinder x5
    have k6 : Keeps L r (x5) := (keeps_newFirst _ _ _ (Sub.trans (by decide) hL) k4)
    try clear_value x5
    extract_lets +onlyGivenNames -merge -useContext -underBinder x7
    have k8 : Keeps L r (x7) := (Keeps.ite (keeps_cnvEnable _ (Sub.trans (by decide) hL) k6) (Keeps.ite (keeps_cnvDisable _ (Sub.trans (by decide) hL) k6) (keeps_cnvStatus _ (Sub.trans (by decide) hL) k6)))
    try clear_value x7
    exact (Keeps.ite (keeps_bgStart _ (Sub.trans (by decide) hL) k8) k8)
  · exact (keeps_cmpUpdate _ (Sub.trans (by decide) hL) (Keeps.ite (keeps_cmpEnable _ (Sub.trans (by decide) hL) h) (Keeps.ite (keeps_cmpDisable _ (Sub.trans (by decide) hL) h) h)))
  · exact (keeps_thrWritten _ _ (Sub.trans (by decide) hL) h)
  · exact (keeps_legRefresh _ (Sub.trans (by decide) hL) h)
  · exact (keeps_tripConfigured (Sub.trans (by decide) hL) h)
  · exact (Keeps.ite (keeps_engAbandon _ (Sub.trans (by decide) hL) h) h)
  · extract_lets +onlyGivenNames -merge -useContext -underBinder x9
    have k10 : Keeps L r (x9) := (Keeps.ite (keeps_flcStop (Sub.trans (by decide) hL) h) h)
    try clear_value x9
    exact (Keeps.ite (keeps_modFlash _ (Sub.trans (by decide) hL) k10) k10)
  · exact (keeps_debugPower (Sub.trans (by decide) hL) h)
  · exact (keeps_frozenUpdate (Sub.trans (by decide) hL) (Keeps.ite (keeps_wdtReload _ (Sub.trans (by decide) hL) h) (keeps_wdtStatus _ (Sub.trans (by decide) hL) h)))
  · exact (keeps_wdtStatus _ (Sub.trans (by decide) hL) h)
  · exact (keeps_wdtStatus _ (Sub.trans (by decide) hL) h)
  · exact (Keeps.ite (keeps_ringEnabled (Sub.trans (by decide) hL) h) (Keeps.ite (keeps_absUpdate (Sub.trans (by decide) hL) h) (Keeps.ite (keeps_pdTxWritten (Sub.trans (by decide) hL) h) h)))
  · exact (Keeps.ite (keeps_openNegotiation (Sub.trans (by decide) hL) h) h)
  · extract_lets +onlyGivenNames -merge -useContext -underBinder x11
    have k12 : Keeps L r (x11) := (Keeps.ite (keeps_atticEnabled _ (Sub.trans (by decide) hL) h) (Keeps.ite (keeps_atticEnabled _ (Sub.trans (by decide) hL) h) h))
    try clear_value x11
    exact (Keeps.ite (keeps_streamEnabled (Sub.trans (by decide) hL) k12) k12)
  · exact (keeps_atcStatus (Sub.trans (by decide) hL) h)
  · exact (keeps_spiStatus _ (Sub.trans (by decide) hL) h)
  · exact (keeps_uartStatus _ (Sub.trans (by decide) hL) h)
  · exact (Keeps.ite (keeps_gpioIrqCfg _ (Sub.trans (by decide) hL) h) h)
  · exact h

theorem keeps_putReg {L : List Part} {r s : State} (p : Place) (v : Nat)
    (hL : Sub [.sysR, .aisR, .carR, .stlR, .cnvR, .cmpR, .legR, .engR, .trpR, .criR, .flcR, .celR, .wdtR, .knrR, .odeR, .atcR, .dbgR, .spiR, .uartR, .canR, .iicR, .qepR, .gpioR, .warranted, .happened, .cmp, .trip, .aisle, .crier, .cellar, .ring, .attic, .mem, .cnv, .leg, .car, .eng, .free, .flash, .dbg, .ode] L) (h : Keeps L r s) : Keeps L r (State.putReg s p v) := by
  unfold State.putReg
  split
  · exact h
  · extract_lets +onlyGivenNames -merge -useContext -underBinder x0
    extract_lets +onlyGivenNames -merge -useContext -underBinder x1
    try clear_value x1
    extract_lets +onlyGivenNames -merge -useContext -underBinder x2
    try clear_value x2
    extract_lets +onlyGivenNames -merge -useContext -underBinder x3
    try clear_value x3
    extract_lets +onlyGivenNames -merge -useContext -underBinder x4
    try clear_value x4
    extract_lets +onlyGivenNames -merge -useContext -underBinder x5
    try clear_value x5
    extract_lets +onlyGivenNames -merge -useContext -underBinder x6
    try clear_value x6
    extract_lets +onlyGivenNames -merge -useContext -underBinder x7
    have k8 : Keeps L r (x7) := (keeps_must _ (Sub.trans (by decide) hL) h)
    try clear_value x7
    extract_lets +onlyGivenNames -merge -useContext -underBinder x9
    have k10 : Keeps L r (x9) := (keeps_wr _ _ (fun q _ => hL _ (by cases q.blk <;> decide)) k8)
    try clear_value x9
    extract_lets +onlyGivenNames -merge -useContext -underBinder x11
    have k12 : Keeps L r (x11) := (Keeps.ite (keeps_wr _ _ (fun q _ => hL _ (by cases q.blk <;> decide)) k10) (Keeps.ite (keeps_wr _ _ (fun q _ => hL _ (by cases q.blk <;> decide)) k10) k10))
    try clear_value x11
    exact (keeps_afterWrite _ _ _ (Sub.trans (by decide) hL) k12)

theorem keeps_undoWrite {L : List Part} {r s : State} (w : EdgeWrite)
    (hL : Sub [.sysR, .aisR, .carR, .stlR, .cnvR, .cmpR, .legR, .engR, .trpR, .criR, .flcR, .celR, .wdtR, .knrR, .odeR, .atcR, .dbgR, .spiR, .uartR, .canR, .iicR, .qepR, .gpioR] L) (h : Keeps L r s) : Keeps L r (State.undoWrite s w) := by
  unfold State.undoWrite
  extract_lets +onlyGivenNames -merge -useContext -underBinder x0
  have k1 : Keeps L r (x0) := (keeps_wr _ _ (fun q _ => hL _ (by cases q.blk <;> decide)) h)
  try clear_value x0
  refine Keeps.ite ?_ k1
  extract_lets +onlyGivenNames -merge -useContext -underBinder x2
  try clear_value x2
  exact (keeps_wr _ _ (fun q _ => hL _ (by cases q.blk <;> decide)) k1)

theorem keeps_applyWrite {L : List Part} {r s : State} (init : Nat) (p : Place) (v : Nat)
    (hL : Sub [.sysR, .aisR, .carR, .stlR, .cnvR, .cmpR, .legR, .engR, .trpR, .criR, .flcR, .celR, .wdtR, .knrR, .odeR, .atcR, .dbgR, .spiR, .uartR, .canR, .iicR, .qepR, .gpioR, .warranted, .happened, .cmp, .trip, .aisle, .crier, .cellar, .ring, .attic, .mem, .cnv, .leg, .car, .eng, .free, .flash, .dbg, .ode] L) (h : Keeps L r s) : Keeps L r (State.applyWrite s init p v) := by
  unfold State.applyWrite
  extract_lets +onlyGivenNames -merge -useContext -underBinder x0
  try clear_value x0
  exact (keeps_putReg _ _ (Sub.trans (by decide) hL) (Keeps.set_happened (hL _ (by decide)) h))

theorem keeps_putInTurn {L : List Part} {r s : State} (init : Nat) (p : Place) (v : Nat)
    (hL : Sub [.sysR, .aisR, .carR, .stlR, .cnvR, .cmpR, .legR, .engR, .trpR, .criR, .flcR, .celR, .wdtR, .knrR, .odeR, .atcR, .dbgR, .spiR, .uartR, .canR, .iicR, .qepR, .gpioR, .warranted, .happened, .cmp, .trip, .aisle, .crier, .cellar, .ring, .attic, .mem, .cnv, .leg, .car, .eng, .free, .flash, .dbg, .ode] L) (h : Keeps L r s) : Keeps L r (State.putInTurn s init p v) := by
  unfold State.putInTurn
  extract_lets +onlyGivenNames -merge -useContext -underBinder x0
  try clear_value x0
  extract_lets +onlyGivenNames -merge -useContext -underBinder x1
  try clear_value x1
  refine Keeps.ite (keeps_applyWrite _ _ _ (Sub.trans (by decide) hL) h) ?_
  extract_lets +onlyGivenNames -merge -useContext -underBinder x2
  have k3 : Keeps L r (x2) := (Keeps.foldl (fun y4 y5 k6 => (keeps_undoWrite _ (Sub.trans (by decide) hL) k6)) h)
  try clear_value x2
  extract_lets +onlyGivenNames -merge -useContext -underBinder x8 x9
  have k10 : Keeps L r (x9) := (Keeps.set_happened (hL _ (by decide)) k3)
  try clear_value x9
  exact (Keeps.foldl (fun y11 y12 k13 => (keeps_applyWrite _ _ _ (Sub.trans (by decide) hL) k13)) (keeps_applyWrite _ _ _ (Sub.trans (by decide) hL) k10))

theorem keeps_putPair {L : List Part} {r s : State} (init : Nat) (p : Place) (lo : Nat) (high : Bool) (v : Nat)
    (hL : Sub [.shadows, .knrR, .clock, .sysR, .aisR, .carR, .stlR, .cnvR, .cmpR, .legR, .engR, .trpR, .criR, .flcR, .celR, .wdtR, .odeR, .atcR, .dbgR, .spiR, .uartR, .canR, .iicR, .qepR, .gpioR, .warranted, .happened, .cmp, .trip, .aisle, .crier, .cellar, .ring, .attic, .mem, .cnv, .leg, .car, .eng, .free, .flash, .dbg, .ode] L) (h : Keeps L r s) : Keeps L r (State.putPair s init p lo high v) := by
  unfold State.putPair
  extract_lets +onlyGivenNames -merge -useContext -underBinder x0
  try clear_value x0
  extract_lets +onlyGivenNames -merge -useContext -underBinder x1
  try clear_value x1
  refine Keeps.ite (keeps_setShadow _ (Sub.trans (by decide) hL) h) ?_
  extract_lets +onlyGivenNames -merge -useContext -underBinder x2
  try clear_value x2
  extract_lets +onlyGivenNames -merge -useContext -underBinder x3
  have k4 : Keeps L r (x3) := (keeps_setShadow _ (Sub.trans (by decide) hL) h)
  try clear_value x3
  exact (Keeps.ite (keeps_writeMarket _ (Sub.trans (by decide) hL) k4) (keeps_putInTurn _ _ _ (Sub.trans (by decide) hL) (keeps_putInTurn _ _ _ (Sub.trans (by decide) hL) k4)))

theorem keeps_sapCmd {L : List Part} {r s : State} (v : Nat)
    (hL : Sub [.dbgR, .dbg] L) (h : Keeps L r s) : Keeps L r (State.sapCmd s v) := by
  unfold State.sapCmd
  extract_lets +onlyGivenNames -merge -useContext -underBinder x0
  have k1 : ∀ y3 y4, Keeps L r (y3) → Keeps L r (x0 y3 y4) := by
    intro y3 y4 k2
    unfold x0
    refine Keeps.ite (keeps_setB _ _ _ (in_dbg (hL _ (by decide)) (by decide)) k2) ?_
    extract_lets +onlyGivenNames -merge -useContext -underBinder x5
    have k6 : Keeps L r (x5) := (keeps_setB _ _ _ (in_dbg (hL _ (by decide)) (by decide)) k2)
    try clear_value x5
    exact (Keeps.set_debug (hL _ (by decide)) k6)
  try clear_value x0
  refine Keeps.ite h ?_
  extract_lets +onlyGivenNames -merge -useContext -underBinder x7
  have k8 : Keeps L r (x7) := (Keeps.ite (k1 _ _ h) h)
  try clear_value x7
  exact (Keeps.ite (k1 _ _ k8) k8)

theorem keeps_lockedWrite {L : List Part} {r s : State} (p : Place) (v : Nat)
    (hL : Sub [.sysR, .aisR, .carR, .stlR, .cnvR, .cmpR, .legR, .engR, .trpR, .criR, .flcR, .celR, .wdtR, .knrR, .odeR, .atcR, .dbgR, .spiR, .uartR, .canR, .iicR, .qepR, .gpioR] L) (h : Keeps L r s) : Keeps L r (State.lockedWrite s p v) := by
  unfold State.lockedWrite
  split
  · exact h
  · extract_lets +onlyGivenNames -merge -useContext -underBinder x0
    exact (Keeps.ite (keeps_wr _ _ (fun q _ => hL _ (by cases q.blk <;> decide)) h) h)

theorem keeps_special {L : List Part} {r s : State} (init : Nat) (p : Place) (v : Nat)
    (hL : Sub [.criR, .sysR, .aisR, .aisle, .happened, .cnv, .cnvR, .trpR, .trip, .knrR, .celR, .crier, .cellar, .ring, .attic, .atcR, .mem, .stlR, .wdtR, .cmp, .cmpR, .carR, .legR, .warranted, .leg, .eng, .engR, .core, .flcR, .flash, .ode, .shadows, .car, .odeR, .free, .dbgR, .clock, .spiR, .uartR, .canR, .iicR, .qepR, .gpioR, .dbg, .spi, .uart, .can, .iic, .qep] L) (h : Keeps L r s) : KeepsO L r (State.special s init p v) := by
  unfold State.special
  extract_lets +onlyGivenNames -merge -useContext -underBinder x0
  try clear_value x0
  split
  · exact (KeepsO.some (keeps_eccCmd _ (Sub.trans (by decide) hL) h))
  · exact (KeepsO.some (keeps_aisCmd _ _ (Sub.trans (by decide) hL) h))
  · exact (KeepsO.some (keeps_cnvCmd _ _ (Sub.trans (by decide) hL) h))
  · exact (KeepsO.some (keeps_cmpCmd _ _ (Sub.trans (by decide) hL) h))
  · exact (KeepsO.some (Keeps.ite (keeps_carCntClr _ (Sub.trans (by decide) hL) h) h))
  · exact (KeepsO.some (keeps_shadowWrite _ _ _ (Sub.trans (by decide) hL) (by decide) h))
  · exact (KeepsO.some (keeps_shadowWrite _ _ _ (Sub.trans (by decide) hL) (by decide) h))
  · exact (KeepsO.some (keeps_shadowWrite _ _ _ (Sub.trans (by decide) hL) (by decide) h))
  · exact (KeepsO.some (keeps_shadowWrite _ _ _ (Sub.trans (by decide) hL) (by decide) h))
  · exact (KeepsO.some (keeps_legCmd _ _ (Sub.trans (by decide) hL) h))
  · exact (KeepsO.some (keeps_groupCommit _ _ (Sub.trans (by decide) hL) h))
  · exact (KeepsO.some (keeps_trpCmd _ (Sub.trans (by decide) hL) h))
  · exact (KeepsO.some (keeps_swTrip _ (Sub.trans (by decide) hL) h))
  · exact (KeepsO.some (keeps_freeze _ _ (Sub.trans (by decide) hL) h))
  · exact (KeepsO.some (keeps_engCmd _ _ (Sub.trans (by decide) hL) h))
  · exact (KeepsO.some (keeps_setNcoFreq _ _ (Sub.trans (by decide) hL) h))
  · exact (KeepsO.some (keeps_setNcoPhase _ _ (Sub.trans (by decide) hL) h))
  · refine KeepsO.ite (KeepsO.some (keeps_criDoorbell _ (Sub.trans (by decide) hL) h)) (KeepsO.ite (KeepsO.some (keeps_criExtCfg _ _ (Sub.trans (by decide) hL) h)) ?_)
    split
    · exact KeepsO.some (keeps_wr _ _ (in_cri (hL _ (by decide)) (by omega)) h)
    · exact (KeepsO.ite (KeepsO.some (keeps_criEnSet _ _ (Sub.trans (by decide) hL) h)) (KeepsO.ite (KeepsO.some (keeps_criEnClr _ _ (Sub.trans (by decide) hL) h)) (KeepsO.ite (KeepsO.some (keeps_criPendSet _ _ (Sub.trans (by decide) hL) h)) (KeepsO.ite (KeepsO.some (keeps_criPendClr _ _ (Sub.trans (by decide) hL) h)) (KeepsO.ite (KeepsO.some (keeps_criComplete _ _ _ _ (Sub.trans (by decide) hL) h)) KeepsO.none)))))
  · exact (KeepsO.ite (KeepsO.some (keeps_flcCmd _ (Sub.trans (by decide) hL) h)) (KeepsO.ite (KeepsO.some (keeps_fqHead _ (Sub.trans (by decide) hL) h)) (KeepsO.ite (KeepsO.some (keeps_wpSet _ _ (Sub.trans (by decide) hL) h)) KeepsO.none)))
  · exact (KeepsO.some (keeps_celCmd _ (Sub.trans (by decide) hL) h))
  · exact (KeepsO.some (keeps_rstCmd _ (Sub.trans (by decide) hL) h))
  · exact (KeepsO.some (keeps_armKey _ _ (Sub.trans (by decide) hL) h))
  · exact (KeepsO.some (keeps_armCmd _ (Sub.trans (by decide) hL) h))
  · exact (KeepsO.ite (KeepsO.some (Keeps.ite h (keeps_wdtService _ _ (Sub.trans (by decide) hL) h))) (KeepsO.ite (KeepsO.some (keeps_lockedWrite _ _ (Sub.trans (by decide) hL) h)) KeepsO.none))
  · exact (KeepsO.some (keeps_knrCmd _ (Sub.trans (by decide) hL) h))
  · exact (KeepsO.some (Keeps.ite (keeps_clearCount _ _ (in_ode (hL _ (by decide)) (by decide)) (keeps_clearCount _ _ (in_ode (hL _ (by decide)) (by decide)) h)) h))
  · exact (KeepsO.some (keeps_atcCmd _ (Sub.trans (by decide) hL) h))
  · exact (KeepsO.some (keeps_markTag _ _ (Sub.trans (by decide) hL) h))
  · exact (KeepsO.ite (KeepsO.some (keeps_dbgCmd _ (Sub.trans (by decide) hL) h)) (KeepsO.ite (KeepsO.some (keeps_sapCmd _ (Sub.trans (by decide) hL) h)) (KeepsO.ite (KeepsO.some (keeps_cCmd _ _ (Sub.trans (by decide) hL) h)) KeepsO.none)))
  · exact (KeepsO.some (Keeps.ite (keeps_spiCntClr _ (Sub.trans (by decide) hL) h) h))
  · exact (KeepsO.some (keeps_spiPush _ _ (Sub.trans (by decide) hL) h))
  · exact (KeepsO.some (Keeps.ite (keeps_uartCntClr _ (Sub.trans (by decide) hL) h) h))
  · exact (KeepsO.some (keeps_uartPush _ _ (Sub.trans (by decide) hL) h))
  · exact (KeepsO.some (keeps_canCmd _ _ (Sub.trans (by decide) hL) h))
  · refine KeepsO.some ?_
    refine Keeps.ite h ?_
    extract_lets +onlyGivenNames -merge -useContext -underBinder x1
    have k2 : Keeps L r (x1) := (Keeps.ite (keeps_iicResume _ (Sub.trans (by decide) hL) h) h)
    try clear_value x1
    exact (Keeps.ite (keeps_clearCount _ _ (in_iic (hL _ (by decide)) (by decide)) k2) k2)
  · exact (KeepsO.some (keeps_iicPush _ _ (Sub.trans (by decide) hL) h))
  · exact (KeepsO.some (keeps_qepCmd _ _ (Sub.trans (by decide) hL) h))
  · exact (KeepsO.some (keeps_setPos _ _ (Sub.trans (by decide) hL) h))
  · exact (KeepsO.some (keeps_gpioOut _ _ _ (Sub.trans (by decide) hL) h))
  · exact (KeepsO.some (keeps_gpioOut _ _ _ (Sub.trans (by decide) hL) h))
  · exact (KeepsO.some (keeps_gpioOut _ _ _ (Sub.trans (by decide) hL) h))
  · exact (KeepsO.some (keeps_gpioOut _ _ _ (Sub.trans (by decide) hL) h))
  · exact KeepsO.none

theorem keeps_writeReg {L : List Part} {r s : State} (init : Nat) (p : Place) (v : Nat)
    (hL : Sub [.cnv, .cnvR, .eng, .engR, .legR, .leg, .attic, .happened, .core, .criR, .sysR, .aisR, .aisle, .trpR, .trip, .knrR, .celR, .crier, .cellar, .ring, .atcR, .mem, .stlR, .wdtR, .cmp, .cmpR, .carR, .warranted, .flcR, .flash, .ode, .shadows, .car, .odeR, .free, .dbgR, .clock, .spiR, .uartR, .canR, .iicR, .qepR, .gpioR, .dbg, .spi, .uart, .can, .iic, .qep] L) (h : Keeps L r s) : Keeps L r (State.writeReg s init p v) := by
  unfold State.writeReg
  extract_lets +onlyGivenNames -merge -useContext -underBinder x0
  have k1 : Keeps L r (x0) := (keeps_arrive (Sub.trans (by decide) hL) h)
  try clear_value x0
  extract_lets +onlyGivenNames -merge -useContext -underBinder x2
  have k3 : Keeps L r (x2) := (Keeps.ite (keeps_wakeAll (Sub.trans (by decide) hL) k1) k1)
  try clear_value x2
  extract_lets +onlyGivenNames -merge -useContext -underBinder x4
  have k5 : Keeps L r (x4) := by
    unfold x4
    split
    · exact (Keeps.of_some (by with_reducible assumption) (keeps_special _ _ _ (Sub.trans (by decide) hL) k3))
    · split
      · exact (keeps_putPair _ _ _ _ _ (Sub.trans (by decide) hL) k3)
      · exact (keeps_putInTurn _ _ _ (Sub.trans (by decide) hL) k3)
  try clear_value x4
  exact (keeps_recapture (Sub.trans (by decide) hL) k5)

theorem keeps_busRead {L : List Part} {r s : State} (init : Nat) (a : Nat) (n : Nat) (peek : Bool) (env : BusEnv)
    (hL : Sub [.sysR, .happened, .crier, .flcR, .flash, .free, .writeBack, .shadows, .criR, .spiR, .spi, .uartR, .uart, .iic, .cnv, .cnvR, .eng, .engR, .legR, .leg, .attic] L) (h : Keeps L r s) : Keeps2 L r (State.busRead s init a n peek env) := by
  unfold State.busRead
  refine Keeps2.ite (Keeps2.ite (keeps_fail _ _ _ _ (Sub.trans (by decide) hL) h) (Keeps2.ite (keeps_memPeek _ _ _ _ (Sub.trans (by decide) hL) h) (keeps_memRead _ _ _ _ (Sub.trans (by decide) hL) h))) ?_
  extract_lets +onlyGivenNames -merge -useContext -underBinder x0
  try clear_value x0
  refine Keeps2.ite (keeps_fail _ _ _ _ (Sub.trans (by decide) hL) h) ?_
  split
  · exact (keeps_fail _ _ _ _ (Sub.trans (by decide) hL) (Keeps.of_fst (by with_reducible assumption) (keeps_busTransfer _ _ _ (Sub.trans (by decide) hL) h)))
  · -- NESTED
    split
    · refine Keeps2.ite (keeps_fail _ _ _ _ (Sub.trans (by decide) hL) (Keeps.of_snd (by with_reducible assumption) (Keeps2.ite (keeps_optionRead _ (Sub.trans (by decide) hL) (Keeps.of_fst (by with_reducible assumption) (keeps_busTransfer _ _ _ (Sub.trans (by decide) hL) h))) (Keeps2.mk (Keeps.of_fst (by with_reducible assumption) (keeps_busTransfer _ _ _ (Sub.trans (by decide) hL) h)))))) ?_
      split
      · exact (Keeps2.mk (Keeps.of_snd (by with_reducible assumption) (keeps_readReg _ _ _ (Sub.trans (by decide) hL) (keeps_arrive (Sub.trans (by decide) hL) (Keeps.of_snd (by with_reducible assumption) (Keeps2.ite (keeps_optionRead _ (Sub.trans (by decide) hL) (Keeps.of_fst (by with_reducible assumption) (keeps_busTransfer _ _ _ (Sub.trans (by decide) hL) h))) (Keeps2.mk (Keeps.of_fst (by with_reducible assumption) (keeps_busTransfer _ _ _ (Sub.trans (by decide) hL) h)))))))))
  · exact (keeps_fail _ _ _ _ (Sub.trans (by decide) hL) (Keeps.of_fst (by with_reducible assumption) (keeps_busTransfer _ _ _ (Sub.trans (by decide) hL) h)))

theorem keeps_busWrite {L : List Part} {r s : State} (init : Nat) (a : Nat) (n : Nat) (data : Nat) (env : BusEnv)
    (hL : Sub [.sysR, .happened, .writeBack, .mem, .cnv, .cnvR, .eng, .engR, .legR, .leg, .attic, .core, .criR, .aisR, .aisle, .trpR, .trip, .knrR, .celR, .crier, .cellar, .ring, .atcR, .stlR, .wdtR, .cmp, .cmpR, .carR, .warranted, .flcR, .flash, .ode, .shadows, .car, .odeR, .free, .dbgR, .clock, .spiR, .uartR, .canR, .iicR, .qepR, .gpioR, .dbg, .spi, .uart, .can, .iic, .qep] L) (h : Keeps L r s) : Keeps2 L r (State.busWrite s init a n data env) := by
  unfold State.busWrite
  refine Keeps2.ite (Keeps2.ite (keeps_fail _ _ _ _ (Sub.trans (by decide) hL) h) (keeps_memWrite _ _ _ _ _ (Sub.trans (by decide) hL) h)) ?_
  extract_lets +onlyGivenNames -merge -useContext -underBinder x0
  try clear_value x0
  refine Keeps2.ite (keeps_fail _ _ _ _ (Sub.trans (by decide) hL) h) ?_
  split
  · exact (keeps_fail _ _ _ _ (Sub.trans (by decide) hL) (Keeps.of_fst (by with_reducible assumption) (keeps_busTransfer _ _ _ (Sub.trans (by decide) hL) h)))
  · exact (Keeps2.mk (keeps_writeReg _ _ _ (Sub.trans (by decide) hL) (Keeps.of_fst (by with_reducible assumption) (keeps_busTransfer _ _ _ (Sub.trans (by decide) hL) h))))
  · exact (keeps_fail _ _ _ _ (Sub.trans (by decide) hL) (Keeps.of_fst (by with_reducible assumption) (keeps_busTransfer _ _ _ (Sub.trans (by decide) hL) h)))

theorem keeps_execRegisterWrite {L : List Part} {r s : State} (x : Access)
    (hL : Sub [.sysR, .happened, .writeBack, .mem, .cnv, .cnvR, .eng, .engR, .legR, .leg, .attic, .core, .criR, .aisR, .aisle, .trpR, .trip, .knrR, .celR, .crier, .cellar, .ring, .atcR, .stlR, .wdtR, .cmp, .cmpR, .carR, .warranted, .flcR, .flash, .ode, .shadows, .car, .odeR, .free, .dbgR, .clock, .spiR, .uartR, .canR, .iicR, .qepR, .gpioR, .dbg, .spi, .uart, .can, .iic, .qep] L) (h : Keeps L r s) : Runs L r (execRegisterWrite x s) := by
  unfold execRegisterWrite
  exact (Runs.next (Keeps2.out (keeps_busWrite _ _ _ _ _ (Sub.trans (by decide) hL) h)))

end Sys2Proof.Laws
end

