-- ==== Sys2Proof/Laws/KeepCoreStep.lean ====
section
/-! SUPPORT. What the operations of Machine/CoreStep.lean may change, and what they keep (see Keeps.lean). -/

namespace Sys2Proof.Laws

open Sys2Proof Sys2Proof.Machine Sys2Proof.Safety

theorem keeps_fetchLine {L : List Part} {r s : State} (c : Nat) (a : Nat) (ecc : EccFinding) (parityFails : Nat)
    (hL : Sub [.core, .crier, .flcR, .happened, .flash, .free, .sysR, .writeBack] L) (h : Keeps L r s) : Keeps2 L r (State.fetchLine s c a ecc parityFails) := by
  unfold State.fetchLine
  extract_lets +onlyGivenNames -merge -useContext -underBinder x0
  try clear_value x0
  extract_lets +onlyGivenNames -merge -useContext -underBinder x1
  have k2 : ∀ y4 y5, Keeps L r (y4) → Keeps L r (x1 y4 y5) := by
    intro y4 y5 k3
    unfold x1
    exact (keeps_modCore _ _ (Sub.trans (by decide) hL) k3)
  try clear_value x1
  extract_lets +onlyGivenNames -merge -useContext -underBinder x6
  try clear_value x6
  split
  · exact (Keeps2.mk (k2 _ _ h))
  · refine Keeps2.ite ?_ ?_
    · extract_lets +onlyGivenNames -merge -useContext -underBinder x7
      try clear_value x7
      split
      · exact (Keeps2.mk (k2 _ _ (Keeps.of_snd (by with_reducible assumption) (keeps_flashLine _ _ _ _ (Sub.trans (by decide) hL) h))))
      · exact (Keeps2.mk (k2 _ _ (Keeps.of_snd (by with_reducible assumption) (keeps_flashLine _ _ _ _ (Sub.trans (by decide) hL) h))))
      · exact (Keeps2.mk (k2 _ _ (Keeps.of_snd (by with_reducible assumption) (keeps_flashLine _ _ _ _ (Sub.trans (by decide) hL) h))))
      · exact (Keeps2.mk (Keeps.of_snd (by with_reducible assumption) (keeps_flashLine _ _ _ _ (Sub.trans (by decide) hL) h)))
    · extract_lets +onlyGivenNames -merge -useContext -underBinder x8
      have k9 : Keeps L r (x8) := (keeps_findWord _ _ _ _ (Sub.trans (by decide) hL) h)
      try clear_value x8
      exact (Keeps2.mk (k2 _ _ k9))

theorem keeps_reachWord {L : List Part} {r s : State} (c : Nat) (a : Nat)
    (hL : Sub [.core, .crier, .flcR, .happened, .flash, .free, .sysR, .writeBack] L) (h : Keeps L r s) : Keeps2 L r (State.reachWord s c a) := by
  unfold State.reachWord
  refine Keeps2.ite (Keeps2.mk h) ?_
  -- NESTED
  split
  · refine Keeps2.ite (Keeps2.mk (Keeps.of_snd (by with_reducible assumption) (Keeps2.ite (Keeps2.mk h) (keeps_fetchLine _ _ _ _ (Sub.trans (by decide) hL) h)))) ?_
    split
    · exact (Keeps2.mk (keeps_modCore _ _ (Sub.trans (by decide) hL) (keeps_flashUncorrectable (Sub.trans (by decide) hL) (Keeps.of_snd (by with_reducible assumption) (Keeps2.ite (Keeps2.mk h) (keeps_fetchLine _ _ _ _ (Sub.trans (by decide) hL) h))))))
    · exact (Keeps2.mk (Keeps.of_snd (by with_reducible assumption) (Keeps2.ite (Keeps2.mk h) (keeps_fetchLine _ _ _ _ (Sub.trans (by decide) hL) h))))

theorem keeps_fetch {L : List Part} {r s : State} (c : Nat) (i : Instr)
    (hL : Sub [.core, .crier, .flcR, .happened, .flash, .free, .sysR, .writeBack] L) (h : Keeps L r s) : Keeps2 L r (State.fetch s c i) := by
  unfold State.fetch
  extract_lets +onlyGivenNames -merge -useContext -underBinder x0
  try clear_value x0
  extract_lets +onlyGivenNames -merge -useContext -underBinder x1
  try clear_value x1
  split
  · exact (Keeps2.mk (Keeps.of_snd (by with_reducible assumption) (keeps_reachWord _ _ (Sub.trans (by decide) hL) h)))
  · exact (Keeps2.mk (Keeps.of_snd (by with_reducible assumption) (keeps_reachWord _ _ (Sub.trans (by decide) hL) h)))
  · extract_lets +onlyGivenNames -merge -useContext -underBinder x2
    try clear_value x2
    refine Keeps2.ite ?_ ?_
    · extract_lets +onlyGivenNames -merge -useContext -underBinder x3
      try clear_value x3
      split
      · exact (Keeps2.mk (Keeps.of_snd (by with_reducible assumption) (keeps_reachWord _ _ (Sub.trans (by decide) hL) (Keeps.of_snd (by with_reducible assumption) (keeps_reachWord _ _ (Sub.trans (by decide) hL) h)))))
      · exact (Keeps2.mk (Keeps.of_snd (by with_reducible assumption) (keeps_reachWord _ _ (Sub.trans (by decide) hL) (Keeps.of_snd (by with_reducible assumption) (keeps_reachWord _ _ (Sub.trans (by decide) hL) h)))))
      · split
        · exact (Keeps2.mk (Keeps.of_snd (by with_reducible assumption) (keeps_reachWord _ _ (Sub.trans (by decide) hL) (Keeps.of_snd (by with_reducible assumption) (keeps_reachWord _ _ (Sub.trans (by decide) hL) h)))))
        · exact (Keeps2.mk (Keeps.of_snd (by with_reducible assumption) (keeps_reachWord _ _ (Sub.trans (by decide) hL) (Keeps.of_snd (by with_reducible assumption) (keeps_reachWord _ _ (Sub.trans (by decide) hL) h)))))
    · split
      · exact (Keeps2.mk (Keeps.of_snd (by with_reducible assumption) (keeps_reachWord _ _ (Sub.trans (by decide) hL) h)))
      · exact (Keeps2.mk (Keeps.of_snd (by with_reducible assumption) (keeps_reachWord _ _ (Sub.trans (by decide) hL) h)))

theorem keeps_hitRequest {L : List Part} {r s : State} (c : Nat) (reason : Nat) (unit : Nat) (pc : Nat) (data : Option Nat)
    (hL : Sub [.dbgR, .core] L) (h : Keeps L r s) : Keeps L r (State.hitRequest s c reason unit pc data) := by
  unfold State.hitRequest
  refine Keeps.ite h ?_
  extract_lets +onlyGivenNames -merge -useContext -underBinder x0
  have k1 : Keeps L r (x0) := (keeps_setF _ _ _ (in_dbg (hL _ (by decide)) (off_at (n := 16776948) (by omega) (by decide))) (keeps_monRequest _ _ _ (Sub.trans (by decide) hL) h))
  try clear_value x0
  split
  · exact (keeps_setF _ _ _ (in_dbg (hL _ (by decide)) (off_at (n := 16776944) (by omega) (by decide))) k1)
  · exact k1

theorem keeps_watch {L : List Part} {r s : State} (c : Nat) (pc : Nat) (hit : Nat × Bool)
    (hL : Sub [.dbg, .dbgR, .happened, .core] L) (h : Keeps L r s) : Keeps L r (State.watch s c pc hit) := by
  unfold State.watch
  extract_lets +onlyGivenNames -merge -useContext -underBinder x0
  try clear_value x0
  refine Keeps.ite h ?_
  refine keeps_forAll _ _ h ?_
  intro y2 y3 b4 k1
  extract_lets +onlyGivenNames -merge -useContext -underBinder x5
  try clear_value x5
  extract_lets +onlyGivenNames -merge -useContext -underBinder x6
  try clear_value x6
  extract_lets +onlyGivenNames -merge -useContext -underBinder x7
  try clear_value x7
  exact (Keeps.ite (Keeps.ite (keeps_traceItem _ _ _ _ (Sub.trans (by decide) hL) k1) (keeps_hitRequest _ _ _ _ _ (Sub.trans (by decide) hL) k1)) k1)

theorem keeps_drainStore {L : List Part} {r s : State} (c : Nat) (env : BusEnv)
    (hL : Sub [.core, .sysR, .happened, .writeBack, .mem] L) (h : Keeps L r s) : Keeps2 L r (State.drainStore s c env) := by
  unfold State.drainStore
  split
  · exact (Keeps2.mk h)
  · split
    · exact (Keeps2.mk (keeps_modCore _ _ (Sub.trans (by decide) hL) (Keeps.of_snd (by with_reducible assumption) (keeps_memWrite _ _ _ _ _ (Sub.trans (by decide) hL) h))))
    · exact (Keeps2.mk (Keeps.of_snd (by with_reducible assumption) (keeps_memWrite _ _ _ _ _ (Sub.trans (by decide) hL) h)))
    · exact (Keeps2.mk (keeps_modCore _ _ (Sub.trans (by decide) hL) (Keeps.of_snd (by with_reducible assumption) (keeps_memWrite _ _ _ _ _ (Sub.trans (by decide) hL) h))))

theorem keeps_drainStores {L : List Part} {r s : State} (c : Nat) (v2 : Nat)
    (hL : Sub [.core, .sysR, .happened, .writeBack, .mem] L) (h : Keeps L r s) : Keeps2 L r (State.drainStores s c v2) := by
  induction v2 generalizing s with
  | zero => exact h
  | succ n ih =>
    rw [State.drainStores]
    split
    · exact ih (Keeps.of_snd (by with_reducible assumption) (keeps_drainStore _ _ (Sub.trans (by decide) hL) h))
    · exact keeps_drainStore _ _ (Sub.trans (by decide) hL) h

theorem keeps_lockAccess {L : List Part} {r s : State} (c : Nat) (a : Nat)
    (hL : Sub [.core] L) (h : Keeps L r s) : Keeps2 L r (State.lockAccess s c a) := by
  unfold State.lockAccess
  extract_lets +onlyGivenNames -merge -useContext -underBinder x0
  try clear_value x0
  exact (Keeps2.ite (Keeps2.mk h) (Keeps2.ite (Keeps2.mk h) (Keeps2.ite (Keeps2.mk h) (Keeps2.mk (keeps_modCore _ _ (Sub.trans (by decide) hL) h)))))

theorem keeps_modReplay {L : List Part} {r s : State} (c : Nat) (f : Replay → Replay)
    (hL : Sub [.replay] L) (h : Keeps L r s) : Keeps L r (State.modReplay s c f) := by
  unfold State.modReplay
  exact (Keeps.set_replay (hL _ (by decide)) h)

theorem keeps_regAccess {L : List Part} {r s : State} (c : Nat) (go : State → Reply × State)
    (hL : Sub [.replay, .core, .sysR, .happened, .writeBack, .mem] L) (h : Keeps L r s) (h2 : ∀ x0, Keeps L r x0 → Keeps2 L r (go x0)) : Keeps2 L r (State.regAccess s c go) := by
  unfold State.regAccess
  extract_lets +onlyGivenNames -merge -useContext -underBinder x0
  have k1 : ∀ y3 y4, Keeps L r (y3) → Keeps L r (x0 y3 y4) := by
    intro y3 y4 k2
    unfold x0
    exact (keeps_modReplay _ _ (Sub.trans (by decide) hL) k2)
  try clear_value x0
  extract_lets +onlyGivenNames -merge -useContext -underBinder x5
  try clear_value x5
  split
  · exact (Keeps2.mk (k1 _ _ h))
  · split
    · split
      · exact (Keeps2.mk (k1 _ _ (Keeps.of_snd (by with_reducible assumption) (h2 _ (Keeps.of_snd (by with_reducible assumption) (keeps_drainStores _ _ (Sub.trans (by decide) hL) h))))))
      · exact (h2 _ (Keeps.of_snd (by with_reducible assumption) (keeps_drainStores _ _ (Sub.trans (by decide) hL) h)))
    · exact (Keeps2.mk (Keeps.of_snd (by with_reducible assumption) (keeps_drainStores _ _ (Sub.trans (by decide) hL) h)))

theorem keeps_coreRead {L : List Part} {r s : State} (c : Nat) (a : Nat) (n : Nat) (env : BusEnv)
    (hL : Sub [.core, .replay, .sysR, .happened, .writeBack, .mem, .crier, .flcR, .flash, .free, .shadows, .criR, .spiR, .spi, .uartR, .uart, .iic, .cnv, .cnvR, .eng, .engR, .legR, .leg, .attic] L) (h : Keeps L r s) : Keeps2 L r (State.coreRead s c a n env) := by
  unfold State.coreRead
  refine Keeps2.ite (Keeps2.mk h) ?_
  split
  · exact (Keeps2.mk (Keeps.of_snd (by with_reducible assumption) (keeps_lockAccess _ _ (Sub.trans (by decide) hL) (keeps_modCore _ _ (Sub.trans (by decide) hL) h))))
  · extract_lets +onlyGivenNames -merge -useContext -underBinder x0
    try clear_value x0
    extract_lets +onlyGivenNames -merge -useContext -underBinder x1
    have k2 : Keeps2 L r (x1) := by
      unfold x1
      refine Keeps2.ite (keeps_regAccess _ _ (Sub.trans (by decide) hL) (Keeps.of_snd (by with_reducible assumption) (keeps_lockAccess _ _ (Sub.trans (by decide) hL) (keeps_modCore _ _ (Sub.trans (by decide) hL) h))) (fun y3 k4 => (keeps_busRead _ _ _ _ _ (Sub.trans (by decide) hL) k4))) ?_
      split
      · exact (keeps_memRead _ _ _ _ (Sub.trans (by decide) hL) (Keeps.of_snd (by with_reducible assumption) (keeps_lockAccess _ _ (Sub.trans (by decide) hL) (keeps_modCore _ _ (Sub.trans (by decide) hL) h))))
      · refine Keeps2.ite (Keeps2.mk (Keeps.of_snd (by with_reducible assumption) (keeps_lockAccess _ _ (Sub.trans (by decide) hL) (keeps_modCore _ _ (Sub.trans (by decide) hL) h)))) ?_
        split
        · exact (Keeps2.mk (Keeps.of_snd (by with_reducible assumption) (keeps_memRead _ _ _ _ (Sub.trans (by decide) hL) (Keeps.of_snd (by with_reducible assumption) (keeps_lockAccess _ _ (Sub.trans (by decide) hL) (keeps_modCore _ _ (Sub.trans (by decide) hL) h))))))
        · exact (keeps_memRead _ _ _ _ (Sub.trans (by decide) hL) (Keeps.of_snd (by with_reducible assumption) (keeps_lockAccess _ _ (Sub.trans (by decide) hL) (keeps_modCore _ _ (Sub.trans (by decide) hL) h))))
    try clear_value x1
    split
    · exact (Keeps2.mk (Keeps2.get (by with_reducible assumption)))
    · exact (Keeps2.mk (Keeps2.get (by with_reducible assumption)))
    · exact (Keeps2.mk (Keeps2.get (by with_reducible assumption)))

theorem keeps_coreWrite {L : List Part} {r s : State} (c : Nat) (a : Nat) (n : Nat) (data : Nat) (env : BusEnv)
    (hL : Sub [.core, .replay, .sysR, .happened, .writeBack, .mem, .cnv, .cnvR, .eng, .engR, .legR, .leg, .attic, .criR, .aisR, .aisle, .trpR, .trip, .knrR, .celR, .crier, .cellar, .ring, .atcR, .stlR, .wdtR, .cmp, .cmpR, .carR, .warranted, .flcR, .flash, .ode, .shadows, .car, .odeR, .free, .dbgR, .clock, .spiR, .uartR, .canR, .iicR, .qepR, .gpioR, .dbg, .spi, .uart, .can, .iic, .qep] L) (h : Keeps L r s) : Keeps2 L r (State.coreWrite s c a n data env) := by
  unfold State.coreWrite
  refine Keeps2.ite (Keeps2.mk h) ?_
  split
  · exact (Keeps2.mk (Keeps.of_snd (by with_reducible assumption) (keeps_lockAccess _ _ (Sub.trans (by decide) hL) (keeps_modCore _ _ (Sub.trans (by decide) hL) h))))
  · extract_lets +onlyGivenNames -merge -useContext -underBinder x0
    have k1 : ∀ y3 y4, Keeps L r (y4) → Keeps2 L r (x0 y3 y4) := by
      intro y3 y4 k2
      unfold x0
      exact (Keeps2.mk k2)
    try clear_value x0
    refine Keeps2.ite ?_ ?_
    · split
      · exact (Keeps2.mk (keeps_modCore _ _ (Sub.trans (by decide) hL) (Keeps.of_snd (by with_reducible assumption) (keeps_regAccess _ _ (Sub.trans (by decide) hL) (Keeps.of_snd (by with_reducible assumption) (keeps_lockAccess _ _ (Sub.trans (by decide) hL) (keeps_modCore _ _ (Sub.trans (by decide) hL) h))) (fun y5 k6 => (keeps_busWrite _ _ _ _ _ (Sub.trans (by decide) hL) k6))))))
      · exact (Keeps2.mk (Keeps.of_snd (by with_reducible assumption) (keeps_regAccess _ _ (Sub.trans (by decide) hL) (Keeps.of_snd (by with_reducible assumption) (keeps_lockAccess _ _ (Sub.trans (by decide) hL) (keeps_modCore _ _ (Sub.trans (by decide) hL) h))) (fun y7 k8 => (keeps_busWrite _ _ _ _ _ (Sub.trans (by decide) hL) k8)))))
      · exact (k1 _ _ (Keeps.of_snd (by with_reducible assumption) (keeps_regAccess _ _ (Sub.trans (by decide) hL) (Keeps.of_snd (by with_reducible assumption) (keeps_lockAccess _ _ (Sub.trans (by decide) hL) (keeps_modCore _ _ (Sub.trans (by decide) hL) h))) (fun y9 k10 => (keeps_busWrite _ _ _ _ _ (Sub.trans (by decide) hL) k10)))))
    · extract_lets +onlyGivenNames -merge -useContext -underBinder x11
      try clear_value x11
      refine Keeps2.ite (k1 _ _ (keeps_busError _ _ _ _ (Sub.trans (by decide) hL) (Keeps.of_snd (by with_reducible assumption) (keeps_lockAccess _ _ (Sub.trans (by decide) hL) (keeps_modCore _ _ (Sub.trans (by decide) hL) h))))) ?_
      -- NESTED
      split
      · exact (Keeps2.ite (Keeps2.mk (keeps_modReplay _ _ (Sub.trans (by decide) hL) (keeps_modCore _ _ (Sub.trans (by decide) hL) (Keeps.of_snd (by with_reducible assumption) (Keeps2.ite (Keeps2.mk (Keeps.of_snd (by with_reducible assumption) (keeps_lockAccess _ _ (Sub.trans (by decide) hL) (keeps_modCore _ _ (Sub.trans (by decide) hL) h)))) (keeps_drainStore _ _ (Sub.trans (by decide) hL) (Keeps.of_snd (by with_reducible assumption) (keeps_lockAccess _ _ (Sub.trans (by decide) hL) (keeps_modCore _ _ (Sub.trans (by decide) hL) h))))))))) (Keeps2.mk (Keeps.of_snd (by with_reducible assumption) (Keeps2.ite (Keeps2.mk (Keeps.of_snd (by with_reducible assumption) (keeps_lockAccess _ _ (Sub.trans (by decide) hL) (keeps_modCore _ _ (Sub.trans (by decide) hL) h)))) (keeps_drainStore _ _ (Sub.trans (by decide) hL) (Keeps.of_snd (by with_reducible assumption) (keeps_lockAccess _ _ (Sub.trans (by decide) hL) (keeps_modCore _ _ (Sub.trans (by decide) hL) h))))))))

theorem keeps_raise {L : List Part} {r s : State} (c : Nat) (i : Insn) (y : Syndrome)
    (hL : Sub [.criR, .sysR, .celR, .cellar, .happened, .core, .ode, .wdtR, .dbgR, .dbg] L) (h : Keeps L r s) : Keeps L r (State.raise s c i y) := by
  unfold State.raise
  extract_lets +onlyGivenNames -merge -useContext -underBinder x0
  try clear_value x0
  extract_lets +onlyGivenNames -merge -useContext -underBinder x1
  try clear_value x1
  exact (keeps_takeException _ _ _ (Sub.trans (by decide) hL) (keeps_modCore _ _ (Sub.trans (by decide) hL) h))

theorem keeps_stepDone {L : List Part} {r s : State} (c : Nat)
    (hL : Sub [.core, .dbgR] L) (h : Keeps L r s) : Keeps L r (State.stepDone s c) := by
  unfold State.stepDone
  extract_lets +onlyGivenNames -merge -useContext -underBinder x0
  try clear_value x0
  exact (Keeps.ite (keeps_modCore _ _ (Sub.trans (by decide) hL) (keeps_monRequest _ _ _ (Sub.trans (by decide) hL) h)) h)

theorem keeps_lockStep {L : List Part} {r s : State} (c : Nat) (was : Nat)
    (hL : Sub [.core] L) (h : Keeps L r s) : Keeps L r (State.lockStep s c was) := by
  unfold State.lockStep
  exact (Keeps.ite h (Keeps.ite (keeps_modCore _ _ (Sub.trans (by decide) hL) h) (keeps_modCore _ _ (Sub.trans (by decide) hL) h)))

theorem keeps_retire {L : List Part} {r s : State} (c : Nat) (pre : Core) (i : Insn) (v4 : Ran)
    (hL : Sub [.criR, .sysR, .celR, .cellar, .happened, .core, .ode, .wdtR, .dbgR, .dbg] L) (h : Keeps L r s) : Keeps L r (State.retire s c pre i v4) := by
  unfold State.retire
  extract_lets +onlyGivenNames -merge -useContext -underBinder x0
  try clear_value x0
  extract_lets +onlyGivenNames -merge -useContext -underBinder x1
  try clear_value x1
  extract_lets +onlyGivenNames -merge -useContext -underBinder x2
  try clear_value x2
  extract_lets +onlyGivenNames -merge -useContext -underBinder x3
  have k4 : Keeps L r (x3) := by
    unfold x3
    split
    · extract_lets +onlyGivenNames -merge -useContext -underBinder x5
      try clear_value x5
      extract_lets +onlyGivenNames -merge -useContext -underBinder x6
      try clear_value x6
      exact (Keeps.ite (keeps_takeException _ _ _ (Sub.trans (by decide) hL) (keeps_modCore _ _ (Sub.trans (by decide) hL) h)) (keeps_modCore _ _ (Sub.trans (by decide) hL) h))
    · split
      · exact (keeps_modCore _ _ (Sub.trans (by decide) hL) h)
  try clear_value x3
  extract_lets +onlyGivenNames -merge -useContext -underBinder x7
  have k8 : Keeps L r (x7) := (keeps_lockStep _ _ (Sub.trans (by decide) hL) k4)
  try clear_value x7
  exact (keeps_stepDone _ (Sub.trans (by decide) hL) (Keeps.foldl (fun y9 y10 k11 => (keeps_watch _ _ _ (Sub.trans (by decide) hL) k11)) k8))

theorem keeps_elementDone {L : List Part} {r s : State} (c : Nat) (v2 : Ran)
    (hL : Sub [.core, .dbgR, .dbg, .happened] L) (h : Keeps L r s) : Keeps L r (State.elementDone s c v2) := by
  unfold State.elementDone
  extract_lets +onlyGivenNames -merge -useContext -underBinder x0
  try clear_value x0
  extract_lets +onlyGivenNames -merge -useContext -underBinder x1
  have k2 : Keeps L r (x1) := (keeps_modCore _ _ (Sub.trans (by decide) hL) h)
  try clear_value x1
  exact (keeps_stepDone _ (Sub.trans (by decide) hL) (Keeps.foldl (fun y3 y4 k5 => (keeps_watch _ _ _ (Sub.trans (by decide) hL) k5)) k2))

theorem keeps_returned {L : List Part} {r s : State} (c : Nat) (pre : Core)
    (hL : Sub [.core, .dbgR] L) (h : Keeps L r s) : Keeps L r (State.returned s c pre) := by
  unfold State.returned
  extract_lets +onlyGivenNames -merge -useContext -underBinder x0
  have k1 : Keeps L r (x0) := (keeps_modCore _ _ (Sub.trans (by decide) hL) h)
  try clear_value x0
  exact (Keeps.ite (keeps_modCore _ _ (Sub.trans (by decide) hL) (keeps_monRequest _ _ _ (Sub.trans (by decide) hL) k1)) k1)

theorem keeps_stepBegins {L : List Part} {r s : State} (c : Nat) (pre : Core) (starts : Bool)
    (hL : Sub [.core, .replay] L) (h : Keeps L r s) : Keeps L r (State.stepBegins s c pre starts) := by
  unfold State.stepBegins
  exact (Keeps.ite (keeps_modCore _ _ (Sub.trans (by decide) hL) (keeps_modReplay _ _ (Sub.trans (by decide) hL) h)) (Keeps.ite (keeps_modReplay _ _ (Sub.trans (by decide) hL) h) h))

theorem keeps_lockDrains {L : List Part} {r s : State} (c : Nat) (pre : Core)
    (hL : Sub [.core, .sysR, .happened, .writeBack, .mem] L) (h : Keeps L r s) : Keeps2 L r (State.lockDrains s c pre) := by
  unfold State.lockDrains
  exact (Keeps2.ite (keeps_drainStores _ _ (Sub.trans (by decide) hL) h) (Keeps2.mk h))

theorem keeps_execute {L : List Part} {r s : State} (c : Nat) (i : Insn) (pre : Core) (body : State → Ran × State)
    (hL : Sub [.flash, .free, .criR, .sysR, .celR, .cellar, .happened, .core, .ode, .wdtR, .dbgR, .dbg, .replay, .writeBack, .mem] L) (h : Keeps L r s) (h4 : ∀ x0, Keeps L r x0 → Keeps2 L r (body x0)) : Keeps L r (State.execute s c i pre body) := by
  unfold State.execute
  split
  · refine Keeps.ite ?_ ?_
    · exact Keeps.taken (hL _ (by decide)) (hL _ (by decide)) h (Keeps.of_snd (by with_reducible assumption) (h4 _ (keeps_stepBegins _ _ _ (Sub.trans (by decide) hL) h)))
    · split
      · exact (keeps_raise _ _ _ (Sub.trans (by decide) hL) (Keeps.of_snd (by with_reducible assumption) (h4 _ (keeps_stepBegins _ _ _ (Sub.trans (by decide) hL) h))))
      · split
        · exact Keeps.taken (hL _ (by decide)) (hL _ (by decide)) h (Keeps.of_snd (by with_reducible assumption) (keeps_lockDrains _ _ (Sub.trans (by decide) hL) (Keeps.of_snd (by with_reducible assumption) (h4 _ (keeps_stepBegins _ _ _ (Sub.trans (by decide) hL) h)))))
        · exact (Keeps.ite (keeps_elementDone _ _ (Sub.trans (by decide) hL) (Keeps.of_snd (by with_reducible assumption) (keeps_lockDrains _ _ (Sub.trans (by decide) hL) (Keeps.of_snd (by with_reducible assumption) (h4 _ (keeps_stepBegins _ _ _ (Sub.trans (by decide) hL) h)))))) (Keeps.ite (keeps_returned _ _ (Sub.trans (by decide) hL) (Keeps.of_snd (by with_reducible assumption) (keeps_lockDrains _ _ (Sub.trans (by decide) hL) (Keeps.of_snd (by with_reducible assumption) (h4 _ (keeps_stepBegins _ _ _ (Sub.trans (by decide) hL) h)))))) (keeps_retire _ _ _ _ (Sub.trans (by decide) hL) (Keeps.ite (Keeps.of_snd (by with_reducible assumption) (keeps_lockDrains _ _ (Sub.trans (by decide) hL) (Keeps.of_snd (by with_reducible assumption) (h4 _ (keeps_stepBegins _ _ _ (Sub.trans (by decide) hL) h))))) (keeps_modCore _ _ (Sub.trans (by decide) hL) (Keeps.of_snd (by with_reducible assumption) (keeps_lockDrains _ _ (Sub.trans (by decide) hL) (Keeps.of_snd (by with_reducible assumption) (h4 _ (keeps_stepBegins _ _ _ (Sub.trans (by decide) hL) h))))))))))

theorem keeps_judged {L : List Part} {r s : State} (c : Nat) (i : Insn) (body : State → Ran × State)
    (hL : Sub [.dbgR, .core, .criR, .sysR, .celR, .cellar, .happened, .ode, .wdtR, .dbg, .flash, .free, .replay, .writeBack, .mem] L) (h : Keeps L r s) (h3 : ∀ x0, Keeps L r x0 → Keeps2 L r (body x0)) : Keeps L r (State.judged s c i body) := by
  unfold State.judged
  extract_lets +onlyGivenNames -merge -useContext -underBinder x0
  try clear_value x0
  extract_lets +onlyGivenNames -merge -useContext -underBinder x1
  try clear_value x1
  extract_lets +onlyGivenNames -merge -useContext -underBinder x2
  have k3 : Keeps L r (x2) := by
    unfold x2
    split
    · exact (keeps_hitRequest _ _ _ _ _ (Sub.trans (by decide) hL) h)
    · exact h
  try clear_value x2
  refine Keeps.ite k3 ?_
  split
  · exact (keeps_raise _ _ _ (Sub.trans (by decide) hL) k3)
  · exact (keeps_execute _ _ _ _ (Sub.trans (by decide) hL) k3 h3)

theorem keeps_coreStep {L : List Part} {r s : State} (c : Nat) (op : Instr) (body : State → Ran × State)
    (hL : Sub [.core, .sysR, .happened, .criR, .celR, .cellar, .ode, .wdtR, .dbgR, .dbg, .crier, .flcR, .flash, .free, .writeBack, .replay, .mem] L) (h : Keeps L r s) (h3 : ∀ x0, Keeps L r x0 → Keeps2 L r (body x0)) : Keeps L r (State.coreStep s c op body) := by
  unfold State.coreStep
  extract_lets +onlyGivenNames -merge -useContext -underBinder x0
  try clear_value x0
  extract_lets +onlyGivenNames -merge -useContext -underBinder x1
  try clear_value x1
  refine Keeps.ite h ?_
  split
  · exact (keeps_settled _ _ (Sub.trans (by decide) hL) h (fun y2 k3 => k3))
  · split
    · exact h
    · exact (Keeps.of_snd (by with_reducible assumption) (keeps_fetch _ _ (Sub.trans (by decide) hL) h))
    · exact (keeps_raise _ _ _ (Sub.trans (by decide) hL) (keeps_modCore _ _ (Sub.trans (by decide) hL) (Keeps.of_snd (by with_reducible assumption) (keeps_fetch _ _ (Sub.trans (by decide) hL) h))))
    · exact (keeps_judged _ _ _ (Sub.trans (by decide) hL) (keeps_modCore _ _ (Sub.trans (by decide) hL) (Keeps.of_snd (by with_reducible assumption) (keeps_fetch _ _ (Sub.trans (by decide) hL) h))) h3)

theorem keeps_coreOp {L : List Part} {r s : State} (c : Nat) (i : Instr) (f : Core → Except Nat Core)
    (hL : Sub [.core, .sysR, .happened, .criR, .celR, .cellar, .ode, .wdtR, .dbgR, .dbg, .crier, .flcR, .flash, .free, .writeBack, .replay, .mem] L) (h : Keeps L r s) : Keeps L r (State.coreOp s c i f) := by
  unfold State.coreOp
  refine keeps_coreStep _ _ _ (Sub.trans (by decide) hL) h ?_
  intro y0 k1
  split
  · exact (Keeps2.mk (keeps_modCore _ _ (Sub.trans (by decide) hL) k1))
  · exact (Keeps2.mk k1)

theorem keeps_binary {L : List Part} {r s : State} (op : Fin 4 → Fin 16 → Fin 16 → Instr) (c : Fin 4) (d : Fin 16) (n : Fin 16) (f : Core → Word → Word → Core)
    (hL : Sub [.core, .sysR, .happened, .criR, .celR, .cellar, .ode, .wdtR, .dbgR, .dbg, .crier, .flcR, .flash, .free, .writeBack, .replay, .mem] L) (h : Keeps L r s) : Keeps L r (State.binary s op c d n f) := by
  unfold State.binary
  exact (keeps_coreOp _ _ _ (Sub.trans (by decide) hL) h)

theorem keeps_unary {L : List Part} {r s : State} (op : Fin 4 → Fin 16 → Instr) (c : Fin 4) (d : Fin 16) (f : Core → Word → Core)
    (hL : Sub [.core, .sysR, .happened, .criR, .celR, .cellar, .ode, .wdtR, .dbgR, .dbg, .crier, .flcR, .flash, .free, .writeBack, .replay, .mem] L) (h : Keeps L r s) : Keeps L r (State.unary s op c d f) := by
  unfold State.unary
  exact (keeps_coreOp _ _ _ (Sub.trans (by decide) hL) h)

end Sys2Proof.Laws
end

