-- ==== Sys2Proof/Laws/KeepCoreAlu.lean ====
section
/-! SUPPORT. What the operations of Machine/CoreAlu.lean may change, and what they keep (see Keeps.lean). -/

namespace Sys2Proof.Laws

open Sys2Proof Sys2Proof.Machine Sys2Proof.Safety

theorem keeps_execXMov {L : List Part} {r s : State} (c : Fin 4) (d : Fin 16) (n : Fin 16)
    (hL : Sub [.core, .sysR, .happened, .criR, .celR, .cellar, .ode, .wdtR, .dbgR, .dbg, .crier, .flcR, .flash, .free, .writeBack, .replay, .mem] L) (h : Keeps L r s) : Runs L r (execXMov c d n s) := by
  unfold execXMov
  exact (Runs.next (keeps_coreOp _ _ _ (Sub.trans (by decide) hL) h))

theorem keeps_execXMovi {L : List Part} {r s : State} (c : Fin 4) (d : Fin 16) (f : BitVec 4) (ext : Option (BitVec 12))
    (hL : Sub [.core, .sysR, .happened, .criR, .celR, .cellar, .ode, .wdtR, .dbgR, .dbg, .crier, .flcR, .flash, .free, .writeBack, .replay, .mem] L) (h : Keeps L r s) : Runs L r (execXMovi c d f ext s) := by
  unfold execXMovi
  exact (Runs.next (keeps_coreOp _ _ _ (Sub.trans (by decide) hL) h))

theorem keeps_execXMovhi {L : List Part} {r s : State} (c : Fin 4) (d : Fin 16) (f : BitVec 4) (ext : Option (BitVec 12))
    (hL : Sub [.core, .sysR, .happened, .criR, .celR, .cellar, .ode, .wdtR, .dbgR, .dbg, .crier, .flcR, .flash, .free, .writeBack, .replay, .mem] L) (h : Keeps L r s) : Runs L r (execXMovhi c d f ext s) := by
  unfold execXMovhi
  exact (Runs.next (keeps_coreOp _ _ _ (Sub.trans (by decide) hL) h))

theorem keeps_execXAdd {L : List Part} {r s : State} (c : Fin 4) (d : Fin 16) (n : Fin 16)
    (hL : Sub [.core, .sysR, .happened, .criR, .celR, .cellar, .ode, .wdtR, .dbgR, .dbg, .crier, .flcR, .flash, .free, .writeBack, .replay, .mem] L) (h : Keeps L r s) : Runs L r (execXAdd c d n s) := by
  unfold execXAdd
  exact (Runs.next (keeps_binary _ _ _ _ _ (Sub.trans (by decide) hL) h))

theorem keeps_execXAddi {L : List Part} {r s : State} (c : Fin 4) (d : Fin 16) (f : BitVec 4) (ext : Option (BitVec 12))
    (hL : Sub [.core, .sysR, .happened, .criR, .celR, .cellar, .ode, .wdtR, .dbgR, .dbg, .crier, .flcR, .flash, .free, .writeBack, .replay, .mem] L) (h : Keeps L r s) : Runs L r (execXAddi c d f ext s) := by
  unfold execXAddi
  exact (Runs.next (keeps_coreOp _ _ _ (Sub.trans (by decide) hL) h))

theorem keeps_execXSub {L : List Part} {r s : State} (c : Fin 4) (d : Fin 16) (n : Fin 16)
    (hL : Sub [.core, .sysR, .happened, .criR, .celR, .cellar, .ode, .wdtR, .dbgR, .dbg, .crier, .flcR, .flash, .free, .writeBack, .replay, .mem] L) (h : Keeps L r s) : Runs L r (execXSub c d n s) := by
  unfold execXSub
  exact (Runs.next (keeps_binary _ _ _ _ _ (Sub.trans (by decide) hL) h))

theorem keeps_execXCmp {L : List Part} {r s : State} (c : Fin 4) (d : Fin 16) (n : Fin 16)
    (hL : Sub [.core, .sysR, .happened, .criR, .celR, .cellar, .ode, .wdtR, .dbgR, .dbg, .crier, .flcR, .flash, .free, .writeBack, .replay, .mem] L) (h : Keeps L r s) : Runs L r (execXCmp c d n s) := by
  unfold execXCmp
  exact (Runs.next (keeps_binary _ _ _ _ _ (Sub.trans (by decide) hL) h))

theorem keeps_execXAnd {L : List Part} {r s : State} (c : Fin 4) (d : Fin 16) (n : Fin 16)
    (hL : Sub [.core, .sysR, .happened, .criR, .celR, .cellar, .ode, .wdtR, .dbgR, .dbg, .crier, .flcR, .flash, .free, .writeBack, .replay, .mem] L) (h : Keeps L r s) : Runs L r (execXAnd c d n s) := by
  unfold execXAnd
  exact (Runs.next (keeps_binary _ _ _ _ _ (Sub.trans (by decide) hL) h))

theorem keeps_execXOr {L : List Part} {r s : State} (c : Fin 4) (d : Fin 16) (n : Fin 16)
    (hL : Sub [.core, .sysR, .happened, .criR, .celR, .cellar, .ode, .wdtR, .dbgR, .dbg, .crier, .flcR, .flash, .free, .writeBack, .replay, .mem] L) (h : Keeps L r s) : Runs L r (execXOr c d n s) := by
  unfold execXOr
  exact (Runs.next (keeps_binary _ _ _ _ _ (Sub.trans (by decide) hL) h))

theorem keeps_execXXor {L : List Part} {r s : State} (c : Fin 4) (d : Fin 16) (n : Fin 16)
    (hL : Sub [.core, .sysR, .happened, .criR, .celR, .cellar, .ode, .wdtR, .dbgR, .dbg, .crier, .flcR, .flash, .free, .writeBack, .replay, .mem] L) (h : Keeps L r s) : Runs L r (execXXor c d n s) := by
  unfold execXXor
  exact (Runs.next (keeps_binary _ _ _ _ _ (Sub.trans (by decide) hL) h))

theorem keeps_execXNot {L : List Part} {r s : State} (c : Fin 4) (d : Fin 16)
    (hL : Sub [.core, .sysR, .happened, .criR, .celR, .cellar, .ode, .wdtR, .dbgR, .dbg, .crier, .flcR, .flash, .free, .writeBack, .replay, .mem] L) (h : Keeps L r s) : Runs L r (execXNot c d s) := by
  unfold execXNot
  exact (Runs.next (keeps_unary _ _ _ _ (Sub.trans (by decide) hL) h))

theorem keeps_execXNeg {L : List Part} {r s : State} (c : Fin 4) (d : Fin 16)
    (hL : Sub [.core, .sysR, .happened, .criR, .celR, .cellar, .ode, .wdtR, .dbgR, .dbg, .crier, .flcR, .flash, .free, .writeBack, .replay, .mem] L) (h : Keeps L r s) : Runs L r (execXNeg c d s) := by
  unfold execXNeg
  exact (Runs.next (keeps_unary _ _ _ _ (Sub.trans (by decide) hL) h))

theorem keeps_execXAbs {L : List Part} {r s : State} (c : Fin 4) (d : Fin 16)
    (hL : Sub [.core, .sysR, .happened, .criR, .celR, .cellar, .ode, .wdtR, .dbgR, .dbg, .crier, .flcR, .flash, .free, .writeBack, .replay, .mem] L) (h : Keeps L r s) : Runs L r (execXAbs c d s) := by
  unfold execXAbs
  exact (Runs.next (keeps_unary _ _ _ _ (Sub.trans (by decide) hL) h))

theorem keeps_execXSextb {L : List Part} {r s : State} (c : Fin 4) (d : Fin 16)
    (hL : Sub [.core, .sysR, .happened, .criR, .celR, .cellar, .ode, .wdtR, .dbgR, .dbg, .crier, .flcR, .flash, .free, .writeBack, .replay, .mem] L) (h : Keeps L r s) : Runs L r (execXSextb c d s) := by
  unfold execXSextb
  exact (Runs.next (keeps_unary _ _ _ _ (Sub.trans (by decide) hL) h))

theorem keeps_execXSexth {L : List Part} {r s : State} (c : Fin 4) (d : Fin 16)
    (hL : Sub [.core, .sysR, .happened, .criR, .celR, .cellar, .ode, .wdtR, .dbgR, .dbg, .crier, .flcR, .flash, .free, .writeBack, .replay, .mem] L) (h : Keeps L r s) : Runs L r (execXSexth c d s) := by
  unfold execXSexth
  exact (Runs.next (keeps_unary _ _ _ _ (Sub.trans (by decide) hL) h))

theorem keeps_execXZextb {L : List Part} {r s : State} (c : Fin 4) (d : Fin 16)
    (hL : Sub [.core, .sysR, .happened, .criR, .celR, .cellar, .ode, .wdtR, .dbgR, .dbg, .crier, .flcR, .flash, .free, .writeBack, .replay, .mem] L) (h : Keeps L r s) : Runs L r (execXZextb c d s) := by
  unfold execXZextb
  exact (Runs.next (keeps_unary _ _ _ _ (Sub.trans (by decide) hL) h))

theorem keeps_execXZexth {L : List Part} {r s : State} (c : Fin 4) (d : Fin 16)
    (hL : Sub [.core, .sysR, .happened, .criR, .celR, .cellar, .ode, .wdtR, .dbgR, .dbg, .crier, .flcR, .flash, .free, .writeBack, .replay, .mem] L) (h : Keeps L r s) : Runs L r (execXZexth c d s) := by
  unfold execXZexth
  exact (Runs.next (keeps_unary _ _ _ _ (Sub.trans (by decide) hL) h))

theorem keeps_execXClz {L : List Part} {r s : State} (c : Fin 4) (d : Fin 16)
    (hL : Sub [.core, .sysR, .happened, .criR, .celR, .cellar, .ode, .wdtR, .dbgR, .dbg, .crier, .flcR, .flash, .free, .writeBack, .replay, .mem] L) (h : Keeps L r s) : Runs L r (execXClz c d s) := by
  unfold execXClz
  exact (Runs.next (keeps_unary _ _ _ _ (Sub.trans (by decide) hL) h))

theorem keeps_shiftBy {L : List Part} {r s : State} (op : Fin 4 → Fin 16 → Fin 16 → Instr) (v2 : Shift) (c : Fin 4) (d : Fin 16) (n : Fin 16)
    (hL : Sub [.core, .sysR, .happened, .criR, .celR, .cellar, .ode, .wdtR, .dbgR, .dbg, .crier, .flcR, .flash, .free, .writeBack, .replay, .mem] L) (h : Keeps L r s) : Keeps L r (State.shiftBy s op v2 c d n) := by
  unfold State.shiftBy
  exact (keeps_binary _ _ _ _ _ (Sub.trans (by decide) hL) h)

theorem keeps_shiftImm {L : List Part} {r s : State} (op : Fin 4 → Fin 16 → BitVec 4 → Ext → Instr) (v2 : Shift) (c : Fin 4) (d : Fin 16) (f : BitVec 4) (ext : Ext)
    (hL : Sub [.core, .sysR, .happened, .criR, .celR, .cellar, .ode, .wdtR, .dbgR, .dbg, .crier, .flcR, .flash, .free, .writeBack, .replay, .mem] L) (h : Keeps L r s) : Keeps L r (State.shiftImm s op v2 c d f ext) := by
  unfold State.shiftImm
  exact (keeps_coreOp _ _ _ (Sub.trans (by decide) hL) h)

theorem keeps_execXShl {L : List Part} {r s : State} (c : Fin 4) (d : Fin 16) (n : Fin 16)
    (hL : Sub [.core, .sysR, .happened, .criR, .celR, .cellar, .ode, .wdtR, .dbgR, .dbg, .crier, .flcR, .flash, .free, .writeBack, .replay, .mem] L) (h : Keeps L r s) : Runs L r (execXShl c d n s) := by
  unfold execXShl
  exact (Runs.next (keeps_shiftBy _ _ _ _ _ (Sub.trans (by decide) hL) h))

theorem keeps_execXShr {L : List Part} {r s : State} (c : Fin 4) (d : Fin 16) (n : Fin 16)
    (hL : Sub [.core, .sysR, .happened, .criR, .celR, .cellar, .ode, .wdtR, .dbgR, .dbg, .crier, .flcR, .flash, .free, .writeBack, .replay, .mem] L) (h : Keeps L r s) : Runs L r (execXShr c d n s) := by
  unfold execXShr
  exact (Runs.next (keeps_shiftBy _ _ _ _ _ (Sub.trans (by decide) hL) h))

theorem keeps_execXAsr {L : List Part} {r s : State} (c : Fin 4) (d : Fin 16) (n : Fin 16)
    (hL : Sub [.core, .sysR, .happened, .criR, .celR, .cellar, .ode, .wdtR, .dbgR, .dbg, .crier, .flcR, .flash, .free, .writeBack, .replay, .mem] L) (h : Keeps L r s) : Runs L r (execXAsr c d n s) := by
  unfold execXAsr
  exact (Runs.next (keeps_shiftBy _ _ _ _ _ (Sub.trans (by decide) hL) h))

theorem keeps_execXShli {L : List Part} {r s : State} (c : Fin 4) (d : Fin 16) (f : BitVec 4) (ext : Option (BitVec 12))
    (hL : Sub [.core, .sysR, .happened, .criR, .celR, .cellar, .ode, .wdtR, .dbgR, .dbg, .crier, .flcR, .flash, .free, .writeBack, .replay, .mem] L) (h : Keeps L r s) : Runs L r (execXShli c d f ext s) := by
  unfold execXShli
  exact (Runs.next (keeps_shiftImm _ _ _ _ _ _ (Sub.trans (by decide) hL) h))

theorem keeps_execXShri {L : List Part} {r s : State} (c : Fin 4) (d : Fin 16) (f : BitVec 4) (ext : Option (BitVec 12))
    (hL : Sub [.core, .sysR, .happened, .criR, .celR, .cellar, .ode, .wdtR, .dbgR, .dbg, .crier, .flcR, .flash, .free, .writeBack, .replay, .mem] L) (h : Keeps L r s) : Runs L r (execXShri c d f ext s) := by
  unfold execXShri
  exact (Runs.next (keeps_shiftImm _ _ _ _ _ _ (Sub.trans (by decide) hL) h))

theorem keeps_execXAsri {L : List Part} {r s : State} (c : Fin 4) (d : Fin 16) (f : BitVec 4) (ext : Option (BitVec 12))
    (hL : Sub [.core, .sysR, .happened, .criR, .celR, .cellar, .ode, .wdtR, .dbgR, .dbg, .crier, .flcR, .flash, .free, .writeBack, .replay, .mem] L) (h : Keeps L r s) : Runs L r (execXAsri c d f ext s) := by
  unfold execXAsri
  exact (Runs.next (keeps_shiftImm _ _ _ _ _ _ (Sub.trans (by decide) hL) h))

theorem keeps_execXMul {L : List Part} {r s : State} (c : Fin 4) (d : Fin 16) (n : Fin 16)
    (hL : Sub [.core, .sysR, .happened, .criR, .celR, .cellar, .ode, .wdtR, .dbgR, .dbg, .crier, .flcR, .flash, .free, .writeBack, .replay, .mem] L) (h : Keeps L r s) : Runs L r (execXMul c d n s) := by
  unfold execXMul
  exact (Runs.next (keeps_binary _ _ _ _ _ (Sub.trans (by decide) hL) h))

theorem keeps_execXQmul {L : List Part} {r s : State} (c : Fin 4) (d : Fin 16) (n : Fin 16)
    (hL : Sub [.core, .sysR, .happened, .criR, .celR, .cellar, .ode, .wdtR, .dbgR, .dbg, .crier, .flcR, .flash, .free, .writeBack, .replay, .mem] L) (h : Keeps L r s) : Runs L r (execXQmul c d n s) := by
  unfold execXQmul
  exact (Runs.next (keeps_binary _ _ _ _ _ (Sub.trans (by decide) hL) h))

theorem keeps_execXQmac {L : List Part} {r s : State} (c : Fin 4) (d : Fin 16) (n : Fin 16)
    (hL : Sub [.core, .sysR, .happened, .criR, .celR, .cellar, .ode, .wdtR, .dbgR, .dbg, .crier, .flcR, .flash, .free, .writeBack, .replay, .mem] L) (h : Keeps L r s) : Runs L r (execXQmac c d n s) := by
  unfold execXQmac
  exact (Runs.next (keeps_coreOp _ _ _ (Sub.trans (by decide) hL) h))

theorem keeps_execXDivs {L : List Part} {r s : State} (c : Fin 4) (d : Fin 16) (n : Fin 16)
    (hL : Sub [.core, .sysR, .happened, .criR, .celR, .cellar, .ode, .wdtR, .dbgR, .dbg, .crier, .flcR, .flash, .free, .writeBack, .replay, .mem] L) (h : Keeps L r s) : Runs L r (execXDivs c d n s) := by
  unfold execXDivs
  exact (Runs.next (keeps_coreOp _ _ _ (Sub.trans (by decide) hL) h))

theorem keeps_execXDivu {L : List Part} {r s : State} (c : Fin 4) (d : Fin 16) (n : Fin 16)
    (hL : Sub [.core, .sysR, .happened, .criR, .celR, .cellar, .ode, .wdtR, .dbgR, .dbg, .crier, .flcR, .flash, .free, .writeBack, .replay, .mem] L) (h : Keeps L r s) : Runs L r (execXDivu c d n s) := by
  unfold execXDivu
  exact (Runs.next (keeps_coreOp _ _ _ (Sub.trans (by decide) hL) h))

theorem keeps_decimal {L : List Part} {r s : State} (op : Fin 4 → Fin 16 → Fin 16 → Instr) (c : Fin 4) (d : Fin 16) (n : Fin 16) (f : Core → Nat → Nat → Core)
    (hL : Sub [.core, .sysR, .happened, .criR, .celR, .cellar, .ode, .wdtR, .dbgR, .dbg, .crier, .flcR, .flash, .free, .writeBack, .replay, .mem] L) (h : Keeps L r s) : Keeps L r (State.decimal s op c d n f) := by
  unfold State.decimal
  exact (keeps_coreOp _ _ _ (Sub.trans (by decide) hL) h)

theorem keeps_execXDadd {L : List Part} {r s : State} (c : Fin 4) (d : Fin 16) (n : Fin 16)
    (hL : Sub [.core, .sysR, .happened, .criR, .celR, .cellar, .ode, .wdtR, .dbgR, .dbg, .crier, .flcR, .flash, .free, .writeBack, .replay, .mem] L) (h : Keeps L r s) : Runs L r (execXDadd c d n s) := by
  unfold execXDadd
  exact (Runs.next (keeps_decimal _ _ _ _ _ (Sub.trans (by decide) hL) h))

theorem keeps_execXDaddC {L : List Part} {r s : State} (c : Fin 4) (d : Fin 16) (n : Fin 16)
    (hL : Sub [.core, .sysR, .happened, .criR, .celR, .cellar, .ode, .wdtR, .dbgR, .dbg, .crier, .flcR, .flash, .free, .writeBack, .replay, .mem] L) (h : Keeps L r s) : Runs L r (execXDaddC c d n s) := by
  unfold execXDaddC
  exact (Runs.next (keeps_decimal _ _ _ _ _ (Sub.trans (by decide) hL) h))

theorem keeps_execXDsub {L : List Part} {r s : State} (c : Fin 4) (d : Fin 16) (n : Fin 16)
    (hL : Sub [.core, .sysR, .happened, .criR, .celR, .cellar, .ode, .wdtR, .dbgR, .dbg, .crier, .flcR, .flash, .free, .writeBack, .replay, .mem] L) (h : Keeps L r s) : Runs L r (execXDsub c d n s) := by
  unfold execXDsub
  exact (Runs.next (keeps_decimal _ _ _ _ _ (Sub.trans (by decide) hL) h))

theorem keeps_execXDsubC {L : List Part} {r s : State} (c : Fin 4) (d : Fin 16) (n : Fin 16)
    (hL : Sub [.core, .sysR, .happened, .criR, .celR, .cellar, .ode, .wdtR, .dbgR, .dbg, .crier, .flcR, .flash, .free, .writeBack, .replay, .mem] L) (h : Keeps L r s) : Runs L r (execXDsubC c d n s) := by
  unfold execXDsubC
  exact (Runs.next (keeps_decimal _ _ _ _ _ (Sub.trans (by decide) hL) h))

theorem keeps_execXDcmp {L : List Part} {r s : State} (c : Fin 4) (d : Fin 16) (n : Fin 16)
    (hL : Sub [.core, .sysR, .happened, .criR, .celR, .cellar, .ode, .wdtR, .dbgR, .dbg, .crier, .flcR, .flash, .free, .writeBack, .replay, .mem] L) (h : Keeps L r s) : Runs L r (execXDcmp c d n s) := by
  unfold execXDcmp
  exact (Runs.next (keeps_decimal _ _ _ _ _ (Sub.trans (by decide) hL) h))

theorem keeps_execXDadj {L : List Part} {r s : State} (c : Fin 4) (d : Fin 16)
    (hL : Sub [.core, .sysR, .happened, .criR, .celR, .cellar, .ode, .wdtR, .dbgR, .dbg, .crier, .flcR, .flash, .free, .writeBack, .replay, .mem] L) (h : Keeps L r s) : Runs L r (execXDadj c d s) := by
  unfold execXDadj
  exact (Runs.next (keeps_unary _ _ _ _ (Sub.trans (by decide) hL) h))

theorem keeps_execXD2b {L : List Part} {r s : State} (c : Fin 4) (d : Fin 16)
    (hL : Sub [.core, .sysR, .happened, .criR, .celR, .cellar, .ode, .wdtR, .dbgR, .dbg, .crier, .flcR, .flash, .free, .writeBack, .replay, .mem] L) (h : Keeps L r s) : Runs L r (execXD2b c d s) := by
  unfold execXD2b
  exact (Runs.next (keeps_coreOp _ _ _ (Sub.trans (by decide) hL) h))

theorem keeps_execXB2d {L : List Part} {r s : State} (c : Fin 4) (d : Fin 16)
    (hL : Sub [.core, .sysR, .happened, .criR, .celR, .cellar, .ode, .wdtR, .dbgR, .dbg, .crier, .flcR, .flash, .free, .writeBack, .replay, .mem] L) (h : Keeps L r s) : Runs L r (execXB2d c d s) := by
  unfold execXB2d
  exact (Runs.next (keeps_unary _ _ _ _ (Sub.trans (by decide) hL) h))

end Sys2Proof.Laws
end

