-- ==== Sys2Proof/Laws/KeepCoreFlow.lean ====
section
/-! SUPPORT. What the operations of Machine/CoreFlow.lean may change, and what they keep (see Keeps.lean). -/

namespace Sys2Proof.Laws

open Sys2Proof Sys2Proof.Machine Sys2Proof.Safety

theorem keeps_branchRetires {L : List Part} {r s : State} (c : Nat) (word : BitVec 24) (target : Option (BitVec 24))
    (hL : Sub [.dbg, .dbgR, .happened, .core] L) (h : Keeps L r s) : Keeps L r (State.branchRetires s c word target) := by
  unfold State.branchRetires
  extract_lets +onlyGivenNames -merge -useContext -underBinder x0
  try clear_value x0
  split
  · exact (keeps_traceItem _ _ _ _ (Sub.trans (by decide) hL) (keeps_modCore _ _ (Sub.trans (by decide) hL) h))
  · exact (keeps_modCore _ _ (Sub.trans (by decide) hL) h)

theorem keeps_branch {L : List Part} {r s : State} (c : Nat) (word : BitVec 24) (target : Option (BitVec 24)) (pend : BitVec 2)
    (hL : Sub [.core, .dbg, .dbgR, .happened] L) (h : Keeps L r s) : Keeps2 L r (State.branch s c word target pend) := by
  unfold State.branch
  extract_lets +onlyGivenNames -merge -useContext -underBinder x0
  try clear_value x0
  extract_lets +onlyGivenNames -merge -useContext -underBinder x1
  have k2 : Keeps L r (x1) := (keeps_modCore _ _ (Sub.trans (by decide) hL) h)
  try clear_value x1
  exact (Keeps2.mk (Keeps.ite (keeps_traceItem _ _ _ _ (Sub.trans (by decide) hL) k2) (keeps_branchRetires _ _ _ (Sub.trans (by decide) hL) k2)))

theorem keeps_execXBcc {L : List Part} {r s : State} (c : Fin 4) (cond : Fin 7) (disp : BitVec 8) (ext : Option (BitVec 12))
    (hL : Sub [.core, .sysR, .happened, .criR, .celR, .cellar, .ode, .wdtR, .dbgR, .dbg, .crier, .flcR, .flash, .free, .writeBack, .replay, .mem] L) (h : Keeps L r s) : Runs L r (execXBcc c cond disp ext s) := by
  unfold execXBcc
  refine Runs.next ?_
  refine keeps_coreStep _ _ _ (Sub.trans (by decide) hL) h ?_
  intro y0 k1
  extract_lets +onlyGivenNames -merge -useContext -underBinder x2
  try clear_value x2
  extract_lets +onlyGivenNames -merge -useContext -underBinder x3
  try clear_value x3
  exact (keeps_branch _ _ _ _ (Sub.trans (by decide) hL) k1)

theorem keeps_execXBra {L : List Part} {r s : State} (c : Fin 4) (disp : BitVec 8) (ext : Option (BitVec 12))
    (hL : Sub [.core, .sysR, .happened, .criR, .celR, .cellar, .ode, .wdtR, .dbgR, .dbg, .crier, .flcR, .flash, .free, .writeBack, .replay, .mem] L) (h : Keeps L r s) : Runs L r (execXBra c disp ext s) := by
  unfold execXBra
  refine Runs.next ?_
  refine keeps_coreStep _ _ _ (Sub.trans (by decide) hL) h ?_
  intro y0 k1
  extract_lets +onlyGivenNames -merge -useContext -underBinder x2
  try clear_value x2
  exact (keeps_branch _ _ _ _ (Sub.trans (by decide) hL) k1)

theorem keeps_execXJmp {L : List Part} {r s : State} (c : Fin 4) (n : Fin 16)
    (hL : Sub [.core, .sysR, .happened, .criR, .celR, .cellar, .ode, .wdtR, .dbgR, .dbg, .crier, .flcR, .flash, .free, .writeBack, .replay, .mem] L) (h : Keeps L r s) : Runs L r (execXJmp c n s) := by
  unfold execXJmp
  refine Runs.next ?_
  refine keeps_coreStep _ _ _ (Sub.trans (by decide) hL) h ?_
  intro y0 k1
  extract_lets +onlyGivenNames -merge -useContext -underBinder x2
  try clear_value x2
  exact (keeps_branch _ _ _ _ (Sub.trans (by decide) hL) k1)

theorem keeps_call {L : List Part} {r s : State} (c : Nat) (target : BitVec 24)
    (hL : Sub [.core, .dbg, .dbgR, .happened] L) (h : Keeps L r s) : Keeps2 L r (State.call s c target) := by
  unfold State.call
  extract_lets +onlyGivenNames -merge -useContext -underBinder x0
  try clear_value x0
  exact (Keeps2.ite (Keeps2.mk h) (keeps_branch _ _ _ _ (Sub.trans (by decide) hL) h))

theorem keeps_execXCall {L : List Part} {r s : State} (c : Fin 4) (target : BitVec 24)
    (hL : Sub [.core, .sysR, .happened, .criR, .celR, .cellar, .ode, .wdtR, .dbgR, .dbg, .crier, .flcR, .flash, .free, .writeBack, .replay, .mem] L) (h : Keeps L r s) : Runs L r (execXCall c target s) := by
  unfold execXCall
  exact (Runs.next (keeps_coreStep _ _ _ (Sub.trans (by decide) hL) h (fun y0 k1 => (keeps_call _ _ (Sub.trans (by decide) hL) k1))))

theorem keeps_execXCallr {L : List Part} {r s : State} (c : Fin 4) (n : Fin 16)
    (hL : Sub [.core, .sysR, .happened, .criR, .celR, .cellar, .ode, .wdtR, .dbgR, .dbg, .crier, .flcR, .flash, .free, .writeBack, .replay, .mem] L) (h : Keeps L r s) : Runs L r (execXCallr c n s) := by
  unfold execXCallr
  exact (Runs.next (keeps_coreStep _ _ _ (Sub.trans (by decide) hL) h (fun y0 k1 => (keeps_call _ _ (Sub.trans (by decide) hL) k1))))

theorem keeps_execXRet {L : List Part} {r s : State} (c : Fin 4)
    (hL : Sub [.core, .sysR, .happened, .criR, .celR, .cellar, .ode, .wdtR, .dbgR, .dbg, .crier, .flcR, .flash, .free, .writeBack, .replay, .mem] L) (h : Keeps L r s) : Runs L r (execXRet c s) := by
  unfold execXRet
  refine Runs.next ?_
  refine keeps_coreStep _ _ _ (Sub.trans (by decide) hL) h ?_
  intro y0 k1
  extract_lets +onlyGivenNames -merge -useContext -underBinder x2
  try clear_value x2
  exact (keeps_branch _ _ _ _ (Sub.trans (by decide) hL) k1)

theorem keeps_execXReti {L : List Part} {r s : State} (c : Fin 4)
    (hL : Sub [.core, .sysR, .happened, .criR, .celR, .cellar, .ode, .wdtR, .dbgR, .dbg, .crier, .flcR, .flash, .free, .writeBack, .replay, .mem] L) (h : Keeps L r s) : Runs L r (execXReti c s) := by
  unfold execXReti
  refine Runs.next ?_
  refine keeps_coreStep _ _ _ (Sub.trans (by decide) hL) h ?_
  intro y0 k1
  extract_lets +onlyGivenNames -merge -useContext -underBinder x2
  try clear_value x2
  exact (Keeps2.ite (Keeps2.mk k1) (Keeps2.ite (Keeps2.mk k1) (Keeps2.mk (keeps_reti _ (Sub.trans (by decide) hL) (keeps_modCore _ _ (Sub.trans (by decide) hL) k1)))))

theorem keeps_execXTrap {L : List Part} {r s : State} (c : Fin 4) (n : Fin 64)
    (hL : Sub [.core, .sysR, .happened, .criR, .celR, .cellar, .ode, .wdtR, .dbgR, .dbg, .crier, .flcR, .flash, .free, .writeBack, .replay, .mem] L) (h : Keeps L r s) : Runs L r (execXTrap c n s) := by
  unfold execXTrap
  exact (Runs.next (keeps_coreStep _ _ _ (Sub.trans (by decide) hL) h (fun y0 k1 => (Keeps2.mk k1))))

theorem keeps_loop {L : List Part} {r s : State} (c : Nat) (len : Nat) (le : BitVec 24) (count : Word)
    (hL : Sub [.core] L) (h : Keeps L r s) : Keeps2 L r (State.loop s c len le count) := by
  unfold State.loop
  extract_lets +onlyGivenNames -merge -useContext -underBinder x0
  extract_lets +onlyGivenNames -merge -useContext -underBinder x1
  refine Keeps2.ite (Keeps2.mk h) ?_
  refine Keeps2.ite (Keeps2.mk h) ?_
  refine Keeps2.ite (Keeps2.mk h) ?_
  extract_lets +onlyGivenNames -merge -useContext -underBinder x2
  exact (Keeps2.mk (keeps_modCore _ _ (Sub.trans (by decide) hL) h))

theorem keeps_execXLoop {L : List Part} {r s : State} (c : Fin 4) (n : Fin 16) (disp : BitVec 4) (ext : Option (BitVec 12))
    (hL : Sub [.core, .sysR, .happened, .criR, .celR, .cellar, .ode, .wdtR, .dbgR, .dbg, .crier, .flcR, .flash, .free, .writeBack, .replay, .mem] L) (h : Keeps L r s) : Runs L r (execXLoop c n disp ext s) := by
  unfold execXLoop
  refine Runs.next ?_
  refine keeps_coreStep _ _ _ (Sub.trans (by decide) hL) h ?_
  intro y0 k1
  extract_lets +onlyGivenNames -merge -useContext -underBinder x2
  try clear_value x2
  split
  · exact (keeps_loop _ _ _ _ (Sub.trans (by decide) hL) k1)
  · exact (Keeps2.mk k1)

theorem keeps_execXLoopImm {L : List Part} {r s : State} (c : Fin 4) (count : BitVec 4) (disp : BitVec 4) (ext : Option (BitVec 12))
    (hL : Sub [.core, .sysR, .happened, .criR, .celR, .cellar, .ode, .wdtR, .dbgR, .dbg, .crier, .flcR, .flash, .free, .writeBack, .replay, .mem] L) (h : Keeps L r s) : Runs L r (execXLoopImm c count disp ext s) := by
  unfold execXLoopImm
  exact (Runs.next (keeps_coreStep _ _ _ (Sub.trans (by decide) hL) h (fun y0 k1 => (keeps_loop _ _ _ _ (Sub.trans (by decide) hL) k1))))

theorem keeps_execXLpop {L : List Part} {r s : State} (c : Fin 4)
    (hL : Sub [.core, .sysR, .happened, .criR, .celR, .cellar, .ode, .wdtR, .dbgR, .dbg, .crier, .flcR, .flash, .free, .writeBack, .replay, .mem] L) (h : Keeps L r s) : Runs L r (execXLpop c s) := by
  unfold execXLpop
  exact (Runs.next (keeps_coreOp _ _ _ (Sub.trans (by decide) hL) h))

theorem keeps_execXLock {L : List Part} {r s : State} (c : Fin 4) (n : Fin 8)
    (hL : Sub [.core, .sysR, .happened, .criR, .celR, .cellar, .ode, .wdtR, .dbgR, .dbg, .crier, .flcR, .flash, .free, .writeBack, .replay, .mem] L) (h : Keeps L r s) : Runs L r (execXLock c n s) := by
  unfold execXLock
  exact (Runs.next (keeps_coreOp _ _ _ (Sub.trans (by decide) hL) h))

theorem keeps_execXNop {L : List Part} {r s : State} (c : Fin 4)
    (hL : Sub [.core, .sysR, .happened, .criR, .celR, .cellar, .ode, .wdtR, .dbgR, .dbg, .crier, .flcR, .flash, .free, .writeBack, .replay, .mem] L) (h : Keeps L r s) : Runs L r (execXNop c s) := by
  unfold execXNop
  exact (Runs.next (keeps_coreOp _ _ _ (Sub.trans (by decide) hL) h))

theorem keeps_execXWait {L : List Part} {r s : State} (c : Fin 4)
    (hL : Sub [.core, .sysR, .happened, .criR, .celR, .cellar, .ode, .wdtR, .dbgR, .dbg, .crier, .flcR, .flash, .free, .writeBack, .replay, .mem] L) (h : Keeps L r s) : Runs L r (execXWait c s) := by
  unfold execXWait
  exact (Runs.next (keeps_coreStep _ _ _ (Sub.trans (by decide) hL) h (fun y0 k1 => (Keeps2.ite (Keeps2.mk (keeps_modCore _ _ (Sub.trans (by decide) hL) k1)) (Keeps2.mk k1)))))

theorem keeps_execXSyncp {L : List Part} {r s : State} (c : Fin 4)
    (hL : Sub [.core, .sysR, .happened, .criR, .celR, .cellar, .ode, .wdtR, .dbgR, .dbg, .crier, .flcR, .flash, .free, .writeBack, .replay, .mem] L) (h : Keeps L r s) : Runs L r (execXSyncp c s) := by
  unfold execXSyncp
  refine Runs.next ?_
  refine keeps_coreStep _ _ _ (Sub.trans (by decide) hL) h ?_
  intro y0 k1
  split
  · exact (Keeps2.mk (keeps_modCore _ _ (Sub.trans (by decide) hL) (Keeps.of_snd (by with_reducible assumption) (keeps_drainStores _ _ (Sub.trans (by decide) hL) k1))))
  · exact (Keeps2.mk (Keeps.of_snd (by with_reducible assumption) (keeps_drainStores _ _ (Sub.trans (by decide) hL) k1)))

theorem keeps_spillWords {L : List Part} {r s : State} (c : Nat) (a : Nat) (v3 : List Word) (v4 : List BusEnv) (v5 : List (Nat × Bool))
    (hL : Sub [.core, .replay, .sysR, .happened, .writeBack, .mem, .cnv, .cnvR, .eng, .engR, .legR, .leg, .attic, .criR, .aisR, .aisle, .trpR, .trip, .knrR, .celR, .crier, .cellar, .ring, .atcR, .stlR, .wdtR, .cmp, .cmpR, .carR, .warranted, .flcR, .flash, .ode, .shadows, .car, .odeR, .free, .dbgR, .clock, .spiR, .uartR, .canR, .iicR, .qepR, .gpioR, .dbg, .spi, .uart, .can, .iic, .qep] L) (h : Keeps L r s) : Keeps2 L r (State.spillWords s c a v3 v4 v5) := by
  induction v3 generalizing s a v4 v5 with
  | nil => exact h
  | cons w ws ih =>
    rw [State.spillWords]
    split
    · have k1 := Keeps.of_snd (by with_reducible assumption) (keeps_coreWrite c a 4 w.toNat (v4.headD {}) (Sub.trans (by decide) hL) h)
      refine Keeps2.ite (ih _ _ _ k1) ?_
      split
      · exact Keeps2.mk (Keeps.of_snd (by with_reducible assumption) (keeps_drainStore _ _ (Sub.trans (by decide) hL) k1))
      · have k2 := Keeps.of_snd (by with_reducible assumption) (keeps_drainStore c (v4.headD {}) (Sub.trans (by decide) hL) k1)
        split
        · exact Keeps2.mk (keeps_modCore _ _ (Sub.trans (by decide) hL) k2)
        · exact ih _ _ _ k2
    · exact Keeps2.mk (Keeps.of_snd (by with_reducible assumption) (keeps_coreWrite _ _ _ _ _ (Sub.trans (by decide) hL) h))
    · exact Keeps2.mk (Keeps.of_snd (by with_reducible assumption) (keeps_coreWrite _ _ _ _ _ (Sub.trans (by decide) hL) h))

theorem keeps_fillWords {L : List Part} {r s : State} (c : Nat) (a : Nat) (v3 : Nat) (v4 : List BusEnv) (v5 : List Word) (v6 : List (Nat × Bool))
    (hL : Sub [.core, .replay, .sysR, .happened, .writeBack, .mem, .crier, .flcR, .flash, .free, .shadows, .criR, .spiR, .spi, .uartR, .uart, .iic, .cnv, .cnvR, .eng, .engR, .legR, .leg, .attic] L) (h : Keeps L r s) : Keeps22 L r (State.fillWords s c a v3 v4 v5 v6) := by
  induction v3 generalizing s a v4 v5 v6 with
  | zero => exact h
  | succ n ih =>
    rw [State.fillWords]
    split
    · exact ih _ _ _ _ (Keeps.of_snd (by with_reducible assumption) (keeps_coreRead _ _ _ _ (Sub.trans (by decide) hL) h))
    · exact Keeps22.mk (Keeps.of_snd (by with_reducible assumption) (keeps_coreRead _ _ _ _ (Sub.trans (by decide) hL) h))
    · exact Keeps22.mk (Keeps.of_snd (by with_reducible assumption) (keeps_coreRead _ _ _ _ (Sub.trans (by decide) hL) h))

theorem keeps_execXSpill {L : List Part} {r s : State} (c : Fin 4) (env : List BusEnv)
    (hL : Sub [.core, .sysR, .happened, .criR, .celR, .cellar, .ode, .wdtR, .dbgR, .dbg, .crier, .flcR, .flash, .free, .writeBack, .replay, .mem, .cnv, .cnvR, .eng, .engR, .legR, .leg, .attic, .aisR, .aisle, .trpR, .trip, .knrR, .ring, .atcR, .stlR, .cmp, .cmpR, .carR, .warranted, .shadows, .car, .odeR, .clock, .spiR, .uartR, .canR, .iicR, .qepR, .gpioR, .spi, .uart, .can, .iic, .qep] L) (h : Keeps L r s) : Runs L r (execXSpill c env s) := by
  unfold execXSpill
  refine Runs.next ?_
  refine keeps_coreStep _ _ _ (Sub.trans (by decide) hL) h ?_
  intro y0 k1
  extract_lets +onlyGivenNames -merge -useContext -underBinder x2
  try clear_value x2
  extract_lets +onlyGivenNames -merge -useContext -underBinder x3
  try clear_value x3
  refine Keeps2.ite (Keeps2.mk k1) ?_
  refine Keeps2.ite (Keeps2.mk k1) ?_
  split
  · exact (Keeps2.mk (Keeps.of_snd (by with_reducible assumption) (keeps_drainStores _ _ (Sub.trans (by decide) hL) k1)))
  · extract_lets +onlyGivenNames -merge -useContext -underBinder x4
    try clear_value x4
    split
    · refine Keeps2.ite ?_ (Keeps2.mk (keeps_modCore _ _ (Sub.trans (by decide) hL) (Keeps.of_snd (by with_reducible assumption) (keeps_spillWords _ _ _ _ _ (Sub.trans (by decide) hL) (Keeps.of_snd (by with_reducible assumption) (keeps_drainStores _ _ (Sub.trans (by decide) hL) k1))))))
      have q2 := Keeps.of_snd (by with_reducible assumption) (keeps_drainStores c 4 (Sub.trans (by decide) hL) k1)
      have q3 := Keeps.of_snd (by with_reducible assumption) (keeps_spillWords _ _ _ _ _ (Sub.trans (by decide) hL) q2)
      refine Keeps2.mk ?_
      exact ⟨q3.queue, q3.time, q3.free, q3.warranted, q3.regs, q2.mem, fun p hp => by cases p <;> first | exact absurd (hL _ (by decide)) hp | exact q3.same _ hp⟩

theorem keeps_execXFill {L : List Part} {r s : State} (c : Fin 4) (env : List BusEnv)
    (hL : Sub [.core, .sysR, .happened, .criR, .celR, .cellar, .ode, .wdtR, .dbgR, .dbg, .crier, .flcR, .flash, .free, .writeBack, .replay, .mem, .shadows, .spiR, .spi, .uartR, .uart, .iic, .cnv, .cnvR, .eng, .engR, .legR, .leg, .attic] L) (h : Keeps L r s) : Runs L r (execXFill c env s) := by
  unfold execXFill
  refine Runs.next ?_
  refine keeps_coreStep _ _ _ (Sub.trans (by decide) hL) h ?_
  intro y0 k1
  extract_lets +onlyGivenNames -merge -useContext -underBinder x2
  try clear_value x2
  extract_lets +onlyGivenNames -merge -useContext -underBinder x3
  try clear_value x3
  refine Keeps2.ite (Keeps2.mk k1) ?_
  refine Keeps2.ite (Keeps2.mk k1) ?_
  split
  · exact (Keeps2.ite (Keeps2.mk (Keeps.of_22 (by with_reducible assumption) (keeps_fillWords _ _ _ _ _ _ (Sub.trans (by decide) hL) k1))) (Keeps2.mk (keeps_modCore _ _ (Sub.trans (by decide) hL) (Keeps.of_22 (by with_reducible assumption) (keeps_fillWords _ _ _ _ _ _ (Sub.trans (by decide) hL) k1)))))

theorem keeps_execXMfc {L : List Part} {r s : State} (c : Fin 4) (d : Fin 16) (n : Fin 16) (ext : Option (BitVec 12))
    (hL : Sub [.core, .sysR, .happened, .criR, .celR, .cellar, .ode, .wdtR, .dbgR, .dbg, .crier, .flcR, .flash, .free, .writeBack, .replay, .mem] L) (h : Keeps L r s) : Runs L r (execXMfc c d n ext s) := by
  unfold execXMfc
  refine Runs.next ?_
  refine keeps_coreStep _ _ _ (Sub.trans (by decide) hL) h ?_
  intro y0 k1
  extract_lets +onlyGivenNames -merge -useContext -underBinder x2
  try clear_value x2
  split
  · exact (Keeps2.mk k1)
  · split
    · exact (Keeps2.mk k1)
    · extract_lets +onlyGivenNames -merge -useContext -underBinder x3
      try clear_value x3
      exact (Keeps2.mk (keeps_modCore _ _ (Sub.trans (by decide) hL) k1))

theorem keeps_writeSt {L : List Part} {r s : State} (c : Nat) (w : Word)
    (hL : Sub [.core, .warranted] L) (h : Keeps L r s) : Keeps L r (State.writeSt s c w) := by
  unfold State.writeSt
  extract_lets +onlyGivenNames -merge -useContext -underBinder x0
  try clear_value x0
  extract_lets +onlyGivenNames -merge -useContext -underBinder x1
  try clear_value x1
  extract_lets +onlyGivenNames -merge -useContext -underBinder x2
  try clear_value x2
  exact (keeps_modCore _ _ (Sub.trans (by decide) hL) (keeps_must _ (Sub.trans (by decide) hL) h))

theorem keeps_writeHigh {L : List Part} {r s : State} (c : Nat) (n : Nat) (w : Word)
    (hL : Sub [.warranted, .core] L) (h : Keeps L r s) : Keeps L r (State.writeHigh s c n w) := by
  unfold State.writeHigh
  extract_lets +onlyGivenNames -merge -useContext -underBinder x0
  try clear_value x0
  extract_lets +onlyGivenNames -merge -useContext -underBinder x1
  have k2 : ∀ y3 y4, Keeps L r (x1 y3 y4) := by
    intro y3 y4
    unfold x1
    exact (keeps_must _ (Sub.trans (by decide) hL) h)
  try clear_value x1
  split
  · exact (keeps_modCore _ _ (Sub.trans (by decide) hL) (k2 _ _))
  · exact (keeps_modCore _ _ (Sub.trans (by decide) hL) (k2 _ _))
  · exact (keeps_modCore _ _ (Sub.trans (by decide) hL) (k2 _ _))
  · exact (keeps_modCore _ _ (Sub.trans (by decide) hL) h)
  · exact h

theorem keeps_execXMtc {L : List Part} {r s : State} (c : Fin 4) (d : Fin 16) (n : Fin 16) (ext : Option (BitVec 12))
    (hL : Sub [.core, .sysR, .happened, .criR, .celR, .cellar, .ode, .wdtR, .dbgR, .dbg, .crier, .flcR, .flash, .free, .writeBack, .replay, .mem, .warranted] L) (h : Keeps L r s) : Runs L r (execXMtc c d n ext s) := by
  unfold execXMtc
  refine Runs.next ?_
  refine keeps_coreStep _ _ _ (Sub.trans (by decide) hL) h ?_
  intro y0 k1
  extract_lets +onlyGivenNames -merge -useContext -underBinder x2
  try clear_value x2
  extract_lets +onlyGivenNames -merge -useContext -underBinder x3
  try clear_value x3
  split
  · exact (Keeps2.mk k1)
  · split
    · exact (Keeps2.mk k1)
    · refine Keeps2.ite (Keeps2.ite (Keeps2.mk k1) (Keeps2.mk (keeps_writeSt _ _ (Sub.trans (by decide) hL) k1))) ?_
      refine Keeps2.ite (Keeps2.mk (keeps_writeLow _ _ _ (Sub.trans (by decide) hL) k1)) ?_
      refine Keeps2.ite ?_ (Keeps2.mk (keeps_writeHigh _ _ _ (Sub.trans (by decide) hL) k1))
      split
      · exact (Keeps2.mk (keeps_writeSaved _ _ _ _ (Sub.trans (by decide) hL) k1))
      · exact (Keeps2.mk k1)

theorem keeps_execLineFetch {L : List Part} {r s : State} (c : Fin 4) (a : BitVec 24) (ecc : EccFinding) (parityFails : Nat)
    (hL : Sub [.core, .crier, .flcR, .happened, .flash, .free, .sysR, .writeBack] L) (h : Keeps L r s) : Runs L r (execLineFetch c a ecc parityFails s) := by
  unfold execLineFetch
  extract_lets +onlyGivenNames -merge -useContext -underBinder x0
  try clear_value x0
  extract_lets +onlyGivenNames -merge -useContext -underBinder x1
  try clear_value x1
  exact (Runs.next (Keeps.ite (Keeps2.out (keeps_fetchLine _ _ _ _ (Sub.trans (by decide) hL) h)) h))

theorem keeps_execStoreDrain {L : List Part} {r s : State} (c : Fin 4) (env : BusEnv)
    (hL : Sub [.core, .sysR, .happened, .writeBack, .mem] L) (h : Keeps L r s) : Runs L r (execStoreDrain c env s) := by
  unfold execStoreDrain
  exact (Runs.next (Keeps.ite (Keeps2.out (keeps_drainStore _ _ (Sub.trans (by decide) hL) h)) h))

theorem keeps_rollBack {L : List Part} {r s : State} (c : Nat)
    (hL : Sub [.core] L) (h : Keeps L r s) : Keeps L r (State.rollBack s c) := by
  unfold State.rollBack
  extract_lets +onlyGivenNames -merge -useContext -underBinder x0
  try clear_value x0
  exact (keeps_modCore _ _ (Sub.trans (by decide) hL) h)

theorem keeps_execParityReplay {L : List Part} {r s : State} (m : ReplayMark)
    (hL : Sub [.core, .sysR, .happened, .criR, .celR, .cellar, .ode, .wdtR, .dbgR, .dbg] L) (h : Keeps L r s) : Runs L r (execParityReplay m s) := by
  unfold execParityReplay
  extract_lets +onlyGivenNames -merge -useContext -underBinder x0
  try clear_value x0
  extract_lets +onlyGivenNames -merge -useContext -underBinder x1
  try clear_value x1
  refine Runs.next ?_
  refine Keeps.ite h ?_
  refine keeps_settled _ _ (Sub.trans (by decide) hL) h ?_
  intro y2 k3
  refine Keeps.ite (keeps_raise _ _ _ (Sub.trans (by decide) hL) k3) ?_
  extract_lets +onlyGivenNames -merge -useContext -underBinder x4
  have k5 : Keeps L r (x4) := (keeps_ledger _ _ _ _ (Sub.trans (by decide) hL) k3)
  try clear_value x4
  extract_lets +onlyGivenNames -merge -useContext -underBinder x6
  have k7 : Keeps L r (x6) := (Keeps.ite k5 (keeps_rollBack _ (Sub.trans (by decide) hL) k5))
  try clear_value x6
  exact (keeps_modCore _ _ (Sub.trans (by decide) hL) k7)

end Sys2Proof.Laws
end

