-- ==== Sys2Proof/Laws/KeepCoreMem.lean ====
section
/-! SUPPORT. What the operations of Machine/CoreMem.lean may change, and what they keep (see Keeps.lean). -/

namespace Sys2Proof.Laws

open Sys2Proof Sys2Proof.Machine Sys2Proof.Safety

theorem keeps_execXLd {L : List Part} {r s : State} (c : Fin 4) (d : Fin 16) (n : Fin 16) (ext : Option (BitVec 12)) (env : BusEnv)
    (hL : Sub [.core, .sysR, .happened, .criR, .celR, .cellar, .ode, .wdtR, .dbgR, .dbg, .crier, .flcR, .flash, .free, .writeBack, .replay, .mem, .shadows, .spiR, .spi, .uartR, .uart, .iic, .cnv, .cnvR, .eng, .engR, .legR, .leg, .attic] L) (h : Keeps L r s) : Runs L r (execXLd c d n ext env s) := by
  unfold execXLd
  refine Runs.next ?_
  refine keeps_coreStep _ _ _ (Sub.trans (by decide) hL) h ?_
  intro y0 k1
  extract_lets +onlyGivenNames -merge -useContext -underBinder x2
  try clear_value x2
  split
  · exact (Keeps2.mk k1)
  · refine Keeps2.ite (Keeps2.mk k1) ?_
    extract_lets +onlyGivenNames -merge -useContext -underBinder x3
    try clear_value x3
    split
    · extract_lets +onlyGivenNames -merge -useContext -underBinder x4
      try clear_value x4
      extract_lets +onlyGivenNames -merge -useContext -underBinder x5
      try clear_value x5
      extract_lets +onlyGivenNames -merge -useContext -underBinder x6
      try clear_value x6
      exact (Keeps2.mk (keeps_modCore _ _ (Sub.trans (by decide) hL) (Keeps.of_snd (by with_reducible assumption) (keeps_coreRead _ _ _ _ (Sub.trans (by decide) hL) k1))))
    · exact (Keeps2.mk (Keeps.of_snd (by with_reducible assumption) (keeps_coreRead _ _ _ _ (Sub.trans (by decide) hL) k1)))
    · exact (Keeps2.mk (Keeps.of_snd (by with_reducible assumption) (keeps_coreRead _ _ _ _ (Sub.trans (by decide) hL) k1)))

theorem keeps_execXSt {L : List Part} {r s : State} (c : Fin 4) (d : Fin 16) (n : Fin 16) (ext : Option (BitVec 12)) (env : BusEnv)
    (hL : Sub [.core, .sysR, .happened, .criR, .celR, .cellar, .ode, .wdtR, .dbgR, .dbg, .crier, .flcR, .flash, .free, .writeBack, .replay, .mem, .cnv, .cnvR, .eng, .engR, .legR, .leg, .attic, .aisR, .aisle, .trpR, .trip, .knrR, .ring, .atcR, .stlR, .cmp, .cmpR, .carR, .warranted, .shadows, .car, .odeR, .clock, .spiR, .uartR, .canR, .iicR, .qepR, .gpioR, .spi, .uart, .can, .iic, .qep] L) (h : Keeps L r s) : Runs L r (execXSt c d n ext env s) := by
  unfold execXSt
  refine Runs.next ?_
  refine keeps_coreStep _ _ _ (Sub.trans (by decide) hL) h ?_
  intro y0 k1
  extract_lets +onlyGivenNames -merge -useContext -underBinder x2
  try clear_value x2
  split
  · exact (Keeps2.mk k1)
  · refine Keeps2.ite (Keeps2.mk k1) ?_
    extract_lets +onlyGivenNames -merge -useContext -underBinder x3
    try clear_value x3
    extract_lets +onlyGivenNames -merge -useContext -underBinder x4
    try clear_value x4
    split
    · exact (Keeps2.mk (Keeps.of_snd (by with_reducible assumption) (keeps_coreWrite _ _ _ _ _ (Sub.trans (by decide) hL) k1)))
    · exact (Keeps2.mk (Keeps.of_snd (by with_reducible assumption) (keeps_coreWrite _ _ _ _ _ (Sub.trans (by decide) hL) k1)))
    · exact (Keeps2.mk (Keeps.of_snd (by with_reducible assumption) (keeps_coreWrite _ _ _ _ _ (Sub.trans (by decide) hL) k1)))

theorem keeps_execXBmov {L : List Part} {r s : State} (c : Fin 4) (n : Fin 16) (rd : BusEnv) (wr : BusEnv)
    (hL : Sub [.core, .sysR, .happened, .criR, .celR, .cellar, .ode, .wdtR, .dbgR, .dbg, .crier, .flcR, .flash, .free, .writeBack, .replay, .mem, .cnv, .cnvR, .eng, .engR, .legR, .leg, .attic, .aisR, .aisle, .trpR, .trip, .knrR, .ring, .atcR, .stlR, .cmp, .cmpR, .carR, .warranted, .shadows, .car, .odeR, .clock, .spiR, .uartR, .canR, .iicR, .qepR, .gpioR, .spi, .uart, .can, .iic, .qep] L) (h : Keeps L r s) : Runs L r (execXBmov c n rd wr s) := by
  unfold execXBmov
  refine Runs.next ?_
  refine keeps_coreStep _ _ _ (Sub.trans (by decide) hL) h ?_
  intro y0 k1
  extract_lets +onlyGivenNames -merge -useContext -underBinder x2
  try clear_value x2
  refine Keeps2.ite (Keeps2.mk k1) ?_
  extract_lets +onlyGivenNames -merge -useContext -underBinder x3
  try clear_value x3
  extract_lets +onlyGivenNames -merge -useContext -underBinder x4
  try clear_value x4
  extract_lets +onlyGivenNames -merge -useContext -underBinder x5
  try clear_value x5
  refine Keeps2.ite (Keeps2.mk k1) ?_
  refine Keeps2.ite (Keeps2.mk k1) ?_
  refine Keeps2.ite (Keeps2.mk k1) ?_
  split
  · split
    · exact (Keeps2.mk (keeps_modCore _ _ (Sub.trans (by decide) hL) (Keeps.of_snd (by with_reducible assumption) (keeps_coreWrite _ _ _ _ _ (Sub.trans (by decide) hL) (Keeps.of_snd (by with_reducible assumption) (keeps_coreRead _ _ _ _ (Sub.trans (by decide) hL) k1))))))
    · exact (Keeps2.mk (Keeps.of_snd (by with_reducible assumption) (keeps_coreWrite _ _ _ _ _ (Sub.trans (by decide) hL) (Keeps.of_snd (by with_reducible assumption) (keeps_coreRead _ _ _ _ (Sub.trans (by decide) hL) k1)))))
    · exact (Keeps2.mk (Keeps.of_snd (by with_reducible assumption) (keeps_coreWrite _ _ _ _ _ (Sub.trans (by decide) hL) (Keeps.of_snd (by with_reducible assumption) (keeps_coreRead _ _ _ _ (Sub.trans (by decide) hL) k1)))))
  · exact (Keeps2.mk (Keeps.of_snd (by with_reducible assumption) (keeps_coreRead _ _ _ _ (Sub.trans (by decide) hL) k1)))
  · exact (Keeps2.mk (Keeps.of_snd (by with_reducible assumption) (keeps_coreRead _ _ _ _ (Sub.trans (by decide) hL) k1)))

theorem keeps_execXVmac {L : List Part} {r s : State} (c : Fin 4) (d : Fin 16) (n : Fin 16) (ra : BusEnv) (rb : BusEnv)
    (hL : Sub [.core, .sysR, .happened, .criR, .celR, .cellar, .ode, .wdtR, .dbgR, .dbg, .crier, .flcR, .flash, .free, .writeBack, .replay, .mem, .shadows, .spiR, .spi, .uartR, .uart, .iic, .cnv, .cnvR, .eng, .engR, .legR, .leg, .attic] L) (h : Keeps L r s) : Runs L r (execXVmac c d n ra rb s) := by
  unfold execXVmac
  refine Runs.next ?_
  refine keeps_coreStep _ _ _ (Sub.trans (by decide) hL) h ?_
  intro y0 k1
  extract_lets +onlyGivenNames -merge -useContext -underBinder x2
  try clear_value x2
  extract_lets +onlyGivenNames -merge -useContext -underBinder x3
  try clear_value x3
  refine Keeps2.ite (Keeps2.mk k1) ?_
  extract_lets +onlyGivenNames -merge -useContext -underBinder x4
  try clear_value x4
  extract_lets +onlyGivenNames -merge -useContext -underBinder x5
  try clear_value x5
  refine Keeps2.ite (Keeps2.mk k1) ?_
  refine Keeps2.ite (Keeps2.mk k1) ?_
  refine Keeps2.ite (Keeps2.mk k1) ?_
  split
  · split
    · split
      · exact (Keeps2.mk (keeps_modCore _ _ (Sub.trans (by decide) hL) (Keeps.of_snd (by with_reducible assumption) (keeps_coreRead _ _ _ _ (Sub.trans (by decide) hL) (Keeps.of_snd (by with_reducible assumption) (keeps_coreRead _ _ _ _ (Sub.trans (by decide) hL) k1))))))
    · exact (Keeps2.mk (Keeps.of_snd (by with_reducible assumption) (keeps_coreRead _ _ _ _ (Sub.trans (by decide) hL) (Keeps.of_snd (by with_reducible assumption) (keeps_coreRead _ _ _ _ (Sub.trans (by decide) hL) k1)))))
    · exact (Keeps2.mk (Keeps.of_snd (by with_reducible assumption) (keeps_coreRead _ _ _ _ (Sub.trans (by decide) hL) (Keeps.of_snd (by with_reducible assumption) (keeps_coreRead _ _ _ _ (Sub.trans (by decide) hL) k1)))))
  · exact (Keeps2.mk (Keeps.of_snd (by with_reducible assumption) (keeps_coreRead _ _ _ _ (Sub.trans (by decide) hL) k1)))
  · exact (Keeps2.mk (Keeps.of_snd (by with_reducible assumption) (keeps_coreRead _ _ _ _ (Sub.trans (by decide) hL) k1)))

theorem keeps_execXBcrc {L : List Part} {r s : State} (c : Fin 4) (d : Fin 16) (n : Fin 16) (env : BusEnv)
    (hL : Sub [.core, .sysR, .happened, .criR, .celR, .cellar, .ode, .wdtR, .dbgR, .dbg, .crier, .flcR, .flash, .free, .writeBack, .replay, .mem, .shadows, .spiR, .spi, .uartR, .uart, .iic, .cnv, .cnvR, .eng, .engR, .legR, .leg, .attic] L) (h : Keeps L r s) : Runs L r (execXBcrc c d n env s) := by
  unfold execXBcrc
  refine Runs.next ?_
  refine keeps_coreStep _ _ _ (Sub.trans (by decide) hL) h ?_
  intro y0 k1
  extract_lets +onlyGivenNames -merge -useContext -underBinder x2
  try clear_value x2
  refine Keeps2.ite (Keeps2.mk k1) ?_
  extract_lets +onlyGivenNames -merge -useContext -underBinder x3
  try clear_value x3
  extract_lets +onlyGivenNames -merge -useContext -underBinder x4
  try clear_value x4
  refine Keeps2.ite (Keeps2.mk k1) ?_
  split
  · exact (Keeps2.mk (keeps_modCore _ _ (Sub.trans (by decide) hL) (Keeps.of_snd (by with_reducible assumption) (keeps_coreRead _ _ _ _ (Sub.trans (by decide) hL) k1))))
  · exact (Keeps2.mk (Keeps.of_snd (by with_reducible assumption) (keeps_coreRead _ _ _ _ (Sub.trans (by decide) hL) k1)))
  · exact (Keeps2.mk (Keeps.of_snd (by with_reducible assumption) (keeps_coreRead _ _ _ _ (Sub.trans (by decide) hL) k1)))

end Sys2Proof.Laws
end

