-- ==== Sys2Proof/Laws/KeepDebugBus.lean ====
section
/-! SUPPORT. What the operations of Machine/DebugBus.lean may change, and what they keep (see Keeps.lean). -/

namespace Sys2Proof.Laws

open Sys2Proof Sys2Proof.Machine Sys2Proof.Safety

theorem keeps_execDbgacc {L : List Part} {r s : State} (write : Bool) (index : Fin 512) (data : Word)
    (hL : Sub [.dbg, .cnv, .cnvR, .eng, .engR, .legR, .leg, .attic, .happened, .core, .criR, .sysR, .aisR, .aisle, .trpR, .trip, .knrR, .celR, .crier, .cellar, .ring, .atcR, .mem, .stlR, .wdtR, .cmp, .cmpR, .carR, .warranted, .flcR, .flash, .ode, .shadows, .car, .odeR, .free, .dbgR, .clock, .spiR, .uartR, .canR, .iicR, .qepR, .gpioR, .spi, .uart, .can, .iic, .qep] L) (h : Keeps L r s) : Runs L r (execDbgacc write index data s) := by
  unfold execDbgacc
  refine Runs.next ?_
  refine Keeps.ite ?_ h
  extract_lets +onlyGivenNames -merge -useContext -underBinder x0
  have k1 : Keeps L r (x0) := (keeps_tap _ (Sub.trans (by decide) hL) h)
  try clear_value x0
  extract_lets +onlyGivenNames -merge -useContext -underBinder x2
  try clear_value x2
  extract_lets +onlyGivenNames -merge -useContext -underBinder x3
  try clear_value x3
  refine Keeps.ite (Keeps.set_debug (hL _ (by decide)) k1) ?_
  refine Keeps.ite (Keeps.set_debug (hL _ (by decide)) k1) ?_
  extract_lets +onlyGivenNames -merge -useContext -underBinder x4 x5
  have k6 : Keeps L r (x5) := (Keeps.set_debug (hL _ (by decide)) k1)
  try clear_value x5
  refine Keeps.ite (keeps_writeReg _ _ _ (Sub.trans (by decide) hL) k6) ?_
  split
  · exact (Keeps.set_debug (hL _ (by decide)) (Keeps.of_snd (by with_reducible assumption) (keeps_readReg _ _ _ (Sub.trans (by decide) hL) k6)))

theorem keeps_sapDone {L : List Part} {r s : State} (addr : Nat) (size : Nat) (kind : Option Nat)
    (hL : Sub [.dbgR, .dbg] L) (h : Keeps L r s) : Keeps L r (State.sapDone s addr size kind) := by
  unfold State.sapDone
  refine Keeps.ite h ?_
  extract_lets +onlyGivenNames -merge -useContext -underBinder x0
  extract_lets +onlyGivenNames -merge -useContext -underBinder x1
  have k2 : Keeps L r (x1) := (keeps_setB _ _ _ (in_dbg (hL _ (by decide)) (by decide)) (keeps_setB _ _ _ (in_dbg (hL _ (by decide)) (by decide)) (keeps_setB _ _ _ (in_dbg (hL _ (by decide)) (by decide)) h)))
  try clear_value x1
  extract_lets +onlyGivenNames -merge -useContext -underBinder x3
  have k4 : Keeps L r (x3) := by
    unfold x3
    split
    · exact (keeps_setF _ _ _ (in_dbg (hL _ (by decide)) (by decide)) k2)
    · exact k2
  try clear_value x3
  extract_lets +onlyGivenNames -merge -useContext -underBinder x5
  have k6 : Keeps L r (x5) := (Keeps.ite (keeps_setF _ _ _ (in_dbg (hL _ (by decide)) (by decide)) k4) k4)
  try clear_value x5
  exact (Keeps.set_debug (hL _ (by decide)) k6)

theorem keeps_execSapRead {L : List Part} {r s : State} (env : BusEnv)
    (hL : Sub [.dbgR, .dbg, .sysR, .happened, .crier, .flcR, .flash, .free, .writeBack, .shadows, .criR, .spiR, .spi, .uartR, .uart, .iic, .cnv, .cnvR, .eng, .engR, .legR, .leg, .attic] L) (h : Keeps L r s) : Runs L r (execSapRead env s) := by
  unfold execSapRead
  refine Runs.next ?_
  refine Keeps.ite ?_ h
  extract_lets +onlyGivenNames -merge -useContext -underBinder x0
  try clear_value x0
  extract_lets +onlyGivenNames -merge -useContext -underBinder x1
  try clear_value x1
  split
  · exact (keeps_sapDone _ _ _ (Sub.trans (by decide) hL) (keeps_setF _ _ _ (in_dbg (hL _ (by decide)) (by decide)) (Keeps.of_snd (by with_reducible assumption) (keeps_busRead _ _ _ _ _ (Sub.trans (by decide) hL) h))))
  · exact (Keeps.of_snd (by with_reducible assumption) (keeps_busRead _ _ _ _ _ (Sub.trans (by decide) hL) h))
  · exact (keeps_sapDone _ _ _ (Sub.trans (by decide) hL) (Keeps.of_snd (by with_reducible assumption) (keeps_busRead _ _ _ _ _ (Sub.trans (by decide) hL) h)))

theorem keeps_execSapWrite {L : List Part} {r s : State} (env : BusEnv)
    (hL : Sub [.dbgR, .dbg, .sysR, .happened, .writeBack, .mem, .cnv, .cnvR, .eng, .engR, .legR, .leg, .attic, .core, .criR, .aisR, .aisle, .trpR, .trip, .knrR, .celR, .crier, .cellar, .ring, .atcR, .stlR, .wdtR, .cmp, .cmpR, .carR, .warranted, .flcR, .flash, .ode, .shadows, .car, .odeR, .free, .clock, .spiR, .uartR, .canR, .iicR, .qepR, .gpioR, .spi, .uart, .can, .iic, .qep] L) (h : Keeps L r s) : Runs L r (execSapWrite env s) := by
  unfold execSapWrite
  refine Runs.next ?_
  refine Keeps.ite ?_ h
  extract_lets +onlyGivenNames -merge -useContext -underBinder x0
  try clear_value x0
  extract_lets +onlyGivenNames -merge -useContext -underBinder x1
  try clear_value x1
  split
  · exact (keeps_sapDone _ _ _ (Sub.trans (by decide) hL) (Keeps.of_snd (by with_reducible assumption) (keeps_busWrite _ _ _ _ _ (Sub.trans (by decide) hL) h)))
  · exact (Keeps.of_snd (by with_reducible assumption) (keeps_busWrite _ _ _ _ _ (Sub.trans (by decide) hL) h))
  · exact (keeps_sapDone _ _ _ (Sub.trans (by decide) hL) (Keeps.of_snd (by with_reducible assumption) (keeps_busWrite _ _ _ _ _ (Sub.trans (by decide) hL) h)))

theorem keeps_peekWords {L : List Part} {r s : State} (a : Nat) (v2 : Nat) (v3 : List BusEnv) (v4 : List (BitVec 8))
    (hL : Sub [.sysR, .happened, .crier, .flcR, .flash, .free, .writeBack, .shadows, .criR, .spiR, .spi, .uartR, .uart, .iic, .cnv, .cnvR, .eng, .engR, .legR, .leg, .attic] L) (h : Keeps L r s) : Keeps2 L r (State.peekWords s a v2 v3 v4) := by
  induction v2 generalizing s a v3 v4 with
  | zero => exact h
  | succ n ih =>
    rw [State.peekWords]
    split
    · exact ih _ _ _ (Keeps.of_snd (by with_reducible assumption) (keeps_busRead _ _ _ _ _ (Sub.trans (by decide) hL) h))
    · exact Keeps2.mk (Keeps.of_snd (by with_reducible assumption) (keeps_busRead _ _ _ _ _ (Sub.trans (by decide) hL) h))
    · exact Keeps2.mk (Keeps.of_snd (by with_reducible assumption) (keeps_busRead _ _ _ _ _ (Sub.trans (by decide) hL) h))

theorem keeps_pokeWords {L : List Part} {r s : State} (a : Nat) (v2 : List Nat) (v3 : List BusEnv)
    (hL : Sub [.sysR, .happened, .writeBack, .mem, .cnv, .cnvR, .eng, .engR, .legR, .leg, .attic, .core, .criR, .aisR, .aisle, .trpR, .trip, .knrR, .celR, .crier, .cellar, .ring, .atcR, .stlR, .wdtR, .cmp, .cmpR, .carR, .warranted, .flcR, .flash, .ode, .shadows, .car, .odeR, .free, .dbgR, .clock, .spiR, .uartR, .canR, .iicR, .qepR, .gpioR, .dbg, .spi, .uart, .can, .iic, .qep] L) (h : Keeps L r s) : Keeps2 L r (State.pokeWords s a v2 v3) := by
  induction v2 generalizing s a v3 with
  | nil => exact h
  | cons w ws ih =>
    rw [State.pokeWords]
    split
    · exact ih _ _ (Keeps.of_snd (by with_reducible assumption) (keeps_busWrite _ _ _ _ _ (Sub.trans (by decide) hL) h))
    · exact Keeps2.mk (Keeps.of_snd (by with_reducible assumption) (keeps_busWrite _ _ _ _ _ (Sub.trans (by decide) hL) h))
    · exact Keeps2.mk (Keeps.of_snd (by with_reducible assumption) (keeps_busWrite _ _ _ _ _ (Sub.trans (by decide) hL) h))

theorem keeps_monMemory {L : List Part} {r s : State} (cmd : Nat) (run : RingMsg → State → Sweep × State)
    (hL : Sub [.flash, .free, .ring, .dbg, .dbgR] L) (h : Keeps L r s) (h2 : ∀ x0 x1, Keeps L r x1 → Keeps2 L r (run x0 x1)) : Keeps L r (State.monMemory s cmd run) := by
  unfold State.monMemory
  split
  · exact h
  · split
    · refine Keeps.ite ?_ ?_
      · exact Keeps.taken (hL _ (by decide)) (hL _ (by decide)) h (Keeps.of_snd (by with_reducible assumption) (h2 _ _ h))
      · refine keeps_monFront _ _ (Sub.trans (by decide) hL) h ?_
        intro y0 y1 k2
        refine Keeps2.ite (Keeps2.mk k2) ?_
        split
        · split
          · exact (Keeps2.mk (Keeps.of_snd (by with_reducible assumption) (h2 _ _ k2)))
          · exact (Keeps2.mk (Keeps.of_snd (by with_reducible assumption) (h2 _ _ k2)))

theorem keeps_execMemRead {L : List Part} {r s : State} (env : List BusEnv)
    (hL : Sub [.flash, .free, .ring, .dbg, .dbgR, .sysR, .happened, .crier, .flcR, .writeBack, .shadows, .criR, .spiR, .spi, .uartR, .uart, .iic, .cnv, .cnvR, .eng, .engR, .legR, .leg, .attic] L) (h : Keeps L r s) : Runs L r (execMemRead env s) := by
  unfold execMemRead
  exact (Runs.next (keeps_monMemory _ _ (Sub.trans (by decide) hL) h (fun y0 y1 k2 => (keeps_peekWords _ _ _ _ (Sub.trans (by decide) hL) k2))))

theorem keeps_execMemWrite {L : List Part} {r s : State} (env : List BusEnv)
    (hL : Sub [.flash, .free, .ring, .dbg, .dbgR, .sysR, .happened, .writeBack, .mem, .cnv, .cnvR, .eng, .engR, .legR, .leg, .attic, .core, .criR, .aisR, .aisle, .trpR, .trip, .knrR, .celR, .crier, .cellar, .atcR, .stlR, .wdtR, .cmp, .cmpR, .carR, .warranted, .flcR, .ode, .shadows, .car, .odeR, .clock, .spiR, .uartR, .canR, .iicR, .qepR, .gpioR, .spi, .uart, .can, .iic, .qep] L) (h : Keeps L r s) : Runs L r (execMemWrite env s) := by
  unfold execMemWrite
  exact (Runs.next (keeps_monMemory _ _ (Sub.trans (by decide) hL) h (fun y0 y1 k2 => (keeps_pokeWords _ _ _ (Sub.trans (by decide) hL) k2))))

end Sys2Proof.Laws
end

