-- ==== Sys2Proof/Laws/KeepLines.lean ====
section
/-! SUPPORT. What the operations of Machine/Lines.lean may change, and what they keep (see Keeps.lean). -/

namespace Sys2Proof.Laws

open Sys2Proof Sys2Proof.Machine Sys2Proof.Safety

theorem keeps_execLevelSource {L : List Part} {r s : State} (n : Fin 256)
    (hL : Sub [.cnv, .cnvR, .eng, .engR, .legR, .leg, .attic, .happened, .criR] L) (h : Keeps L r s) : Runs L r (execLevelSource n s) := by
  unfold execLevelSource
  extract_lets +onlyGivenNames -merge -useContext -underBinder x0
  have k1 : Keeps L r (x0) := (keeps_arrive (Sub.trans (by decide) hL) h)
  try clear_value x0
  exact (Runs.next (Keeps.ite k1 (Keeps.ite (keeps_setLine _ _ (Sub.trans (by decide) hL) k1) (keeps_levelPend _ (Sub.trans (by decide) hL) k1))))

end Sys2Proof.Laws
end

