-- ==== Sys2Proof/Laws/KeepReset.lean ====
section
/-! SUPPORT. What the operations of Machine/Reset.lean may change, and what they keep (see Keeps.lean). -/

namespace Sys2Proof.Laws

open Sys2Proof Sys2Proof.Machine Sys2Proof.Safety

theorem keeps_loadOptions {L : List Part} {r s : State} (bad : BitVec 2)
    (hL : Sub [.options, .flcR, .cellar, .celR, .happened, .legR, .leg, .wdtR, .gpioR, .dbgR] L) (h : Keeps L r s) : Keeps L r (State.loadOptions s bad) := by
  unfold State.loadOptions
  split
  · extract_lets +onlyGivenNames -merge -useContext -underBinder x0
    try clear_value x0
    extract_lets +onlyGivenNames -merge -useContext -underBinder x1
    try clear_value x1
    extract_lets +onlyGivenNames -merge -useContext -underBinder x2
    try clear_value x2
    extract_lets +onlyGivenNames -merge -useContext -underBinder x3
    have k4 : Keeps L r (x3) := (Keeps.set_options (hL _ (by decide)) h)
    try clear_value x3
    extract_lets +onlyGivenNames -merge -useContext -underBinder x5
    have k6 : Keeps L r (x5) := (keeps_setB _ _ _ (in_flc (hL _ (by decide)) (by decide)) (keeps_setB _ _ _ (in_flc (hL _ (by decide)) (by decide)) (keeps_setF _ _ _ (in_flc (hL _ (by decide)) (by decide)) k4)))
    try clear_value x5
    extract_lets +onlyGivenNames -merge -useContext -underBinder x7
    have k8 : Keeps L r (x7) := (Keeps.ite (keeps_ledger _ _ _ _ (Sub.trans (by decide) hL) k6) (keeps_setF _ _ _ (in_flc (hL _ (by decide)) (by decide)) k6))
    try clear_value x7
    extract_lets +onlyGivenNames -merge -useContext -underBinder x9
    try clear_value x9
    extract_lets +onlyGivenNames -merge -useContext -underBinder x10
    try clear_value x10
    extract_lets +onlyGivenNames -merge -useContext -underBinder x11 x12
    have k13 : Keeps L r (x12) := (Keeps.set_cellar (hL _ (by decide)) k8)
    try clear_value x12
    extract_lets +onlyGivenNames -merge -useContext -underBinder x14
    have k15 : Keeps L r (x14) := (keeps_forAll _ _ k13 fun y17 y18 b19 k16 => (keeps_drive _ _ (Sub.trans (by decide) hL) k16))
    try clear_value x14
    extract_lets +onlyGivenNames -merge -useContext -underBinder x20
    try clear_value x20
    extract_lets +onlyGivenNames -merge -useContext -underBinder x21
    try clear_value x21
    extract_lets +onlyGivenNames -merge -useContext -underBinder x22
    have k23 : ∀ y25 y26 y27 y28 y29 y30 y31, Keeps L r (y25) → Keeps L r (x22 y25 y26 y27 y28 y29 y30 y31) := by
      intro y25 y26 y27 y28 y29 y30 y31 k24
      unfold x22
      extract_lets +onlyGivenNames -merge -useContext -underBinder x32
      extract_lets +onlyGivenNames -merge -useContext -underBinder x33
      have k34 : Keeps L r (x33) := (keeps_setF _ _ _ (in_wdt (hL _ (by decide)) (by decide)) (keeps_setF _ _ _ (in_wdt (hL _ (by decide)) (by decide)) (keeps_setF _ _ _ (in_wdt (hL _ (by decide)) (by decide)) k24)))
      try clear_value x33
      extract_lets +onlyGivenNames -merge -useContext -underBinder x35
      have k36 : Keeps L r (x35) := (keeps_setB _ _ _ (in_wdt (hL _ (by decide)) (by decide)) (keeps_setB _ _ _ (in_wdt (hL _ (by decide)) (by decide)) (keeps_setB _ _ _ (in_wdt (hL _ (by decide)) (by decide)) k34)))
      try clear_value x35
      extract_lets +onlyGivenNames -merge -useContext -underBinder x37
      have k38 : Keeps L r (x37) := (keeps_frozenUpdate (Sub.trans (by decide) hL) (keeps_setB _ _ _ (in_wdt (hL _ (by decide)) (by decide)) k36))
      try clear_value x37
      exact (Keeps.ite (keeps_wdtReload _ (Sub.trans (by decide) hL) k38) (keeps_wdtStatus _ (Sub.trans (by decide) hL) (keeps_setF _ _ _ (in_wdt (hL _ (by decide)) (by decide)) k38)))
    try clear_value x22
    extract_lets +onlyGivenNames -merge -useContext -underBinder x39
    have k40 : Keeps L r (x39) := (k23 _ _ _ _ _ _ _ k15)
    try clear_value x39
    extract_lets +onlyGivenNames -merge -useContext -underBinder x41
    have k42 : Keeps L r (x41) := (keeps_forAll _ _ k40 fun y44 y45 b46 k43 => (k23 _ _ _ _ _ _ _ k43))
    try clear_value x41
    extract_lets +onlyGivenNames -merge -useContext -underBinder x47
    have k48 : Keeps L r (x47) := (keeps_setF _ _ _ (in_gpio (hL _ (by decide)) (by decide)) (keeps_setF _ _ _ (in_gpio (hL _ (by decide)) (by decide)) k42))
    try clear_value x47
    extract_lets +onlyGivenNames -merge -useContext -underBinder x49
    have k50 : Keeps L r (x49) := (keeps_setF _ _ _ (in_gpio (hL _ (by decide)) (by decide)) (keeps_setF _ _ _ (in_gpio (hL _ (by decide)) (by decide)) k48))
    try clear_value x49
    exact (Keeps.ite (keeps_setF _ _ _ (in_dbg (hL _ (by decide)) (by decide)) k50) k50)

theorem keeps_readJournal {L : List Part} {r s : State} (unreadable : List Nat)
    (hL : Sub [.flcR, .cellar, .mem, .celR, .happened, .crier] L) (h : Keeps L r s) : Keeps L r (State.readJournal s unreadable) := by
  unfold State.readJournal
  refine keeps_forAll _ _ h ?_
  intro y1 y2 b3 k0
  extract_lets +onlyGivenNames -merge -useContext -underBinder x4
  try clear_value x4
  extract_lets +onlyGivenNames -merge -useContext -underBinder x5
  have k6 : Keeps L r (x5) := (keeps_setBit _ _ _ _ (in_flc (hL _ (by decide)) (off_at (n := 16777120) (by omega) (by decide))) k0)
  try clear_value x5
  extract_lets +onlyGivenNames -merge -useContext -underBinder x7
  have k8 : Keeps L r (x7) := (Keeps.ite (keeps_ledgerWrite (Sub.trans (by decide) hL) k6) k6)
  try clear_value x7
  exact (Keeps.ite (keeps_ledger _ _ _ _ (Sub.trans (by decide) hL) k8) k8)

theorem keeps_restoreWord {L : List Part} {r s : State} (b : Blk) (inst : Nat) (o : Nat) (mask : Nat) (v : Nat)
    (hL : Sub [.sysR, .aisR, .carR, .stlR, .cnvR, .cmpR, .legR, .engR, .trpR, .criR, .flcR, .celR, .wdtR, .knrR, .odeR, .atcR, .dbgR, .spiR, .uartR, .canR, .iicR, .qepR, .gpioR, .eng, .warranted, .crier, .happened, .cmp, .trip, .aisle, .cellar, .ring, .attic, .mem, .cnv, .leg, .car, .free, .flash, .dbg, .ode] L) (h : Keeps L r s) : Keeps L r (State.restoreWord s b inst o mask v) := by
  unfold State.restoreWord
  extract_lets +onlyGivenNames -merge -useContext -underBinder x0
  try clear_value x0
  extract_lets +onlyGivenNames -merge -useContext -underBinder x1
  try clear_value x1
  extract_lets +onlyGivenNames -merge -useContext -underBinder x2
  try clear_value x2
  split
  · exact (keeps_setNcoFreq _ _ (Sub.trans (by decide) hL) h)
  · exact (Keeps.ite (keeps_criExtCfg _ _ (Sub.trans (by decide) hL) h) (keeps_wr _ _ (fun q _ => hL _ (by cases q.blk <;> decide)) h))
  · exact (keeps_afterWrite _ _ _ (Sub.trans (by decide) hL) (keeps_wr _ _ (fun q _ => hL _ (by cases q.blk <;> decide)) h))

theorem keeps_restoreBlock {L : List Part} {r s : State} (b : Blk) (inst : Nat) (ws : List Nat)
    (hL : Sub [.sysR, .aisR, .carR, .stlR, .cnvR, .cmpR, .legR, .engR, .trpR, .criR, .flcR, .celR, .wdtR, .knrR, .odeR, .atcR, .dbgR, .spiR, .uartR, .canR, .iicR, .qepR, .gpioR, .eng, .warranted, .crier, .happened, .cmp, .trip, .aisle, .cellar, .ring, .attic, .mem, .cnv, .leg, .car, .free, .flash, .dbg, .ode] L) (h : Keeps L r s) : Keeps L r (State.restoreBlock s b inst ws) := by
  unfold State.restoreBlock
  extract_lets +onlyGivenNames -merge -useContext -underBinder x0
  try clear_value x0
  extract_lets +onlyGivenNames -merge -useContext -underBinder x1
  have k2 : ∀ y4 y5, Keeps L r (y4) → Keeps L r (x1 y4 y5) := by
    intro y4 y5 k3
    unfold x1
    extract_lets +onlyGivenNames -merge -useContext -underBinder x6
    try clear_value x6
    exact (keeps_restoreWord _ _ _ _ _ (Sub.trans (by decide) hL) k3)
  try clear_value x1
  extract_lets +onlyGivenNames -merge -useContext -underBinder x7
  have k8 : ∀ y10 y11, Keeps L r (y10) → Keeps L r (x7 y10 y11) := by
    intro y10 y11 k9
    unfold x7
    exact (Keeps.ite (keeps_restoreWord _ _ _ _ _ (Sub.trans (by decide) hL) k9) k9)
  try clear_value x7
  exact (Keeps.foldl (fun y12 y13 k14 => (k8 _ _ k14)) (Keeps.foldl (fun y16 y17 k18 => (k2 _ _ k18)) h))

theorem keeps_restoreOne {L : List Part} {r s : State} (unreadable : List Nat) (p : Nat) (k : Nat) (id : Nat) (b : Blk) (inst : Nat)
    (hL : Sub [.sysR, .aisR, .carR, .stlR, .cnvR, .cmpR, .legR, .engR, .trpR, .criR, .flcR, .celR, .wdtR, .knrR, .odeR, .atcR, .dbgR, .spiR, .uartR, .canR, .iicR, .qepR, .gpioR, .eng, .warranted, .crier, .happened, .cmp, .trip, .aisle, .cellar, .ring, .attic, .mem, .cnv, .leg, .car, .free, .flash, .dbg, .ode] L) (h : Keeps L r s) : Keeps L r (State.restoreOne s unreadable p k id b inst) := by
  unfold State.restoreOne
  split
  · exact (keeps_restoreBlock _ _ _ (Sub.trans (by decide) hL) h)
  · extract_lets +onlyGivenNames -merge -useContext -underBinder x0
    try clear_value x0
    extract_lets +onlyGivenNames -merge -useContext -underBinder x1
    have k2 : Keeps L r (x1) := (keeps_setF _ _ _ (in_cel (hL _ (by decide)) (by decide)) h)
    try clear_value x1
    extract_lets +onlyGivenNames -merge -useContext -underBinder x3
    have k4 : Keeps L r (x3) := (keeps_ledger _ _ _ _ (Sub.trans (by decide) hL) k2)
    try clear_value x3
    split
    · exact (keeps_restoreBlock _ _ _ (Sub.trans (by decide) hL) (keeps_setB _ _ _ (in_cel (hL _ (by decide)) (by decide)) k4))
    · exact (keeps_setB _ _ _ (in_cel (hL _ (by decide)) (by decide)) k4)

theorem keeps_restore {L : List Part} {r s : State} (unreadable : List Nat) (which : Blk → Nat → Bool)
    (hL : Sub [.celR, .sysR, .aisR, .carR, .stlR, .cnvR, .cmpR, .legR, .engR, .trpR, .criR, .flcR, .wdtR, .knrR, .odeR, .atcR, .dbgR, .spiR, .uartR, .canR, .iicR, .qepR, .gpioR, .eng, .warranted, .crier, .happened, .cmp, .trip, .aisle, .cellar, .ring, .attic, .mem, .cnv, .leg, .car, .free, .flash, .dbg, .ode] L) (h : Keeps L r s) : Keeps L r (State.restore s unreadable which) := by
  unfold State.restore
  extract_lets +onlyGivenNames -merge -useContext -underBinder x0
  try clear_value x0
  extract_lets +onlyGivenNames -merge -useContext -underBinder x1
  have k2 : Keeps L r (x1) := (keeps_setF _ _ _ (in_cel (hL _ (by decide)) (by decide)) (keeps_setF _ _ _ (in_cel (hL _ (by decide)) (by decide)) h))
  try clear_value x1
  refine Keeps.ite k2 ?_
  split
  · exact (keeps_setB _ _ _ (in_cel (hL _ (by decide)) (by decide)) k2)
  · extract_lets +onlyGivenNames -merge -useContext -underBinder x3
    have k4 : Keeps L r (x3) := (keeps_setF _ _ _ (in_cel (hL _ (by decide)) (by decide)) k2)
    try clear_value x3
    exact (Keeps.foldl (fun y5 y6 k7 => (Keeps.ite (keeps_restoreOne _ _ _ _ _ _ (Sub.trans (by decide) hL) k7) k7)) k4)

theorem keeps_flashCut {L : List Part} {r s : State} 
    (hL : Sub [.mem, .free, .flcR, .flash] L) (h : Keeps L r s) : Keeps L r (State.flashCut s) := by
  unfold State.flashCut
  extract_lets +onlyGivenNames -merge -useContext -underBinder x0
  have k1 : ∀ y3 y4, Keeps L r (y3) → Keeps L r (x0 y3 y4) := by
    intro y3 y4 k2
    unfold x0
    refine keeps_forAll _ _ k2 ?_
    intro y6 y7 b8 k5
    split
    · exact (keeps_setBytes _ _ _ (Sub.trans (by decide) hL) (Keeps.of_snd (by with_reducible assumption) (keeps_takeFree (Sub.trans (by decide) hL) k5)))
  try clear_value x0
  extract_lets +onlyGivenNames -merge -useContext -underBinder x9
  have k10 : Keeps L r (x9) := by
    unfold x9
    split
    · exact (Keeps.ite (k1 _ _ h) (Keeps.ite (keeps_forAll _ _ h fun y12 y13 b14 k11 => (k1 _ _ k11)) h))
    · exact h
  try clear_value x9
  extract_lets +onlyGivenNames -merge -useContext -underBinder x15
  try clear_value x15
  extract_lets +onlyGivenNames -merge -useContext -underBinder x16
  have k17 : Keeps L r (x16) := (keeps_setF _ _ _ (in_flc (hL _ (by decide)) (by decide)) (keeps_clearRegs _ _ (clear_flc (Sub.trans (by decide) hL)) k10))
  try clear_value x16
  exact (Keeps.set_flash (hL _ (by decide)) k17)

theorem keeps_resetSys {L : List Part} {r s : State} 
    (hL : Sub [.sysR] L) (h : Keeps L r s) : Keeps L r (State.resetSys s) := by
  unfold State.resetSys
  extract_lets +onlyGivenNames -merge -useContext -underBinder x0
  try clear_value x0
  extract_lets +onlyGivenNames -merge -useContext -underBinder x1
  try clear_value x1
  exact (keeps_setF _ _ _ (in_sys (hL _ (by decide)) (by decide)) (keeps_setF _ _ _ (in_sys (hL _ (by decide)) (by decide)) (keeps_clearRegs _ _ (clear_sys (Sub.trans (by decide) hL)) h)))

theorem keeps_resetBlocks {L : List Part} {r s : State} 
    (hL : Sub [.mem, .free, .flcR, .flash, .aisR, .carR, .stlR, .cnvR, .cmpR, .legR, .engR, .trpR, .criR, .odeR, .celR, .atcR, .spiR, .uartR, .canR, .iicR, .qepR, .gpioR, .sysR, .shadows, .readData, .writeBack, .crier, .aisle, .car, .leg, .cmp, .cnv, .eng, .qep, .trip, .ode, .attic, .core, .spi, .uart, .can, .iic] L) (h : Keeps L r s) : Keeps L r (State.resetBlocks s) := by
  unfold State.resetBlocks
  extract_lets +onlyGivenNames -merge -useContext -underBinder x0
  have k1 : Keeps L r (x0) := (keeps_flashCut (Sub.trans (by decide) hL) h)
  try clear_value x0
  extract_lets +onlyGivenNames -merge -useContext -underBinder x2
  have k3 : Keeps L r (x2) := (keeps_clearRegs _ _ (clear_low (Sub.trans (by decide) hL)) k1)
  try clear_value x2
  extract_lets +onlyGivenNames -merge -useContext -underBinder x4
  have k5 : Keeps L r (x4) := (keeps_clearRegs _ _ (clear_ode (Sub.trans (by decide) hL)) (keeps_clearRegs _ _ (clear_cel (Sub.trans (by decide) hL)) (keeps_clearRegs _ _ (clear_mid (Sub.trans (by decide) hL)) k3)))
  try clear_value x4
  extract_lets +onlyGivenNames -merge -useContext -underBinder x6
  have k7 : Keeps L r (x6) := (keeps_setF _ _ _ (in_cel (hL _ (by decide)) (by decide)) (keeps_resetSys (Sub.trans (by decide) hL) k5))
  try clear_value x6
  exact ⟨k7.queue, k7.time, k7.free, k7.warranted, k7.regs, k7.mem, fun p hp => same_trans (k7.same p hp)
    (by cases p <;> first | exact absurd (hL _ (by decide)) hp | rfl | exact fun _ _ => rfl)⟩

theorem keeps_hallReset {L : List Part} {r s : State} (type : Nat) (sup : Nat)
    (hL : Sub [.cellar, .celR, .happened, .mem, .free, .flcR, .flash, .aisR, .carR, .stlR, .cnvR, .cmpR, .legR, .engR, .trpR, .criR, .odeR, .atcR, .spiR, .uartR, .canR, .iicR, .qepR, .gpioR, .sysR, .shadows, .readData, .writeBack, .crier, .aisle, .car, .leg, .cmp, .cnv, .eng, .qep, .trip, .ode, .attic, .core, .spi, .uart, .can, .iic, .ring, .knrR] L) (h : Keeps L r s) : Keeps L r (State.hallReset s type sup) := by
  unfold State.hallReset
  extract_lets +onlyGivenNames -merge -useContext -underBinder x0
  have k1 : Keeps L r (x0) := (keeps_ledger _ _ _ _ (Sub.trans (by decide) hL) h)
  try clear_value x0
  extract_lets +onlyGivenNames -merge -useContext -underBinder x2
  have k3 : Keeps L r (x2) := (keeps_resetBlocks (Sub.trans (by decide) hL) k1)
  try clear_value x2
  extract_lets +onlyGivenNames -merge -useContext -underBinder x4
  have k5 : Keeps L r (x4) := (keeps_setF _ _ _ (in_cel (hL _ (by decide)) (by decide)) (keeps_setF _ _ _ (in_cel (hL _ (by decide)) (by decide)) (keeps_setF _ _ _ (in_cel (hL _ (by decide)) (by decide)) k3)))
  try clear_value x4
  extract_lets +onlyGivenNames -merge -useContext -underBinder x6
  have k7 : Keeps L r (x6) := (keeps_setB _ _ _ (in_cel (hL _ (by decide)) (by decide)) k5)
  try clear_value x6
  extract_lets +onlyGivenNames -merge -useContext -underBinder x8 x9
  have k10 : Keeps L r (x9) := (Keeps.set_cellar (hL _ (by decide)) k7)
  try clear_value x9
  extract_lets +onlyGivenNames -merge -useContext -underBinder x11
  have k12 : Keeps L r (x11) := (keeps_setB _ _ _ (in_trp (hL _ (by decide)) (by decide)) k10)
  try clear_value x11
  extract_lets +onlyGivenNames -merge -useContext -underBinder x13
  try clear_value x13
  extract_lets +onlyGivenNames -merge -useContext -underBinder x14
  have k15 : Keeps L r (x14) := (Keeps.ite (keeps_modRing _ (Sub.trans (by decide) hL) k12) k12)
  try clear_value x14
  exact (keeps_forAll _ _ (keeps_marketAssert (Sub.trans (by decide) hL) k15) fun y17 y18 b19 k16 => (keeps_drive _ _ (Sub.trans (by decide) hL) k16))

theorem keeps_execHallResetStart {L : List Part} {r s : State} 
    (hL : Sub [.cellar, .celR, .happened, .mem, .free, .flcR, .flash, .aisR, .carR, .stlR, .cnvR, .cmpR, .legR, .engR, .trpR, .criR, .odeR, .atcR, .spiR, .uartR, .canR, .iicR, .qepR, .gpioR, .sysR, .shadows, .readData, .writeBack, .crier, .aisle, .car, .leg, .cmp, .cnv, .eng, .qep, .trip, .ode, .attic, .core, .spi, .uart, .can, .iic, .ring, .knrR, .now] L) (h : Keeps L r s) : Runs L r (execHallResetStart s) := by
  unfold execHallResetStart
  refine Runs.next ?_
  split
  · exact (keeps_hallReset _ _ (Sub.trans (by decide) hL) (keeps_atTime _ (Sub.trans (by decide) hL) h))
  · exact h

theorem keeps_execResetN {L : List Part} {r s : State} (x : BallLevel)
    (hL : Sub [.cellar, .celR, .happened, .mem, .free, .flcR, .flash, .aisR, .carR, .stlR, .cnvR, .cmpR, .legR, .engR, .trpR, .criR, .odeR, .atcR, .spiR, .uartR, .canR, .iicR, .qepR, .gpioR, .sysR, .shadows, .readData, .writeBack, .crier, .aisle, .car, .leg, .cmp, .cnv, .eng, .qep, .trip, .ode, .attic, .core, .spi, .uart, .can, .iic, .ring, .knrR] L) (h : Keeps L r s) : Runs L r (execResetN x s) := by
  unfold execResetN
  refine Runs.next ?_
  refine Keeps.ite h ?_
  refine Keeps.ite ?_ ?_
  · extract_lets +onlyGivenNames -merge -useContext -underBinder x0
    try clear_value x0
    exact (Keeps.set_cellar (hL _ (by decide)) h)
  · extract_lets +onlyGivenNames -merge -useContext -underBinder x1
    have k2 : Keeps L r (x1) := (Keeps.ite h (keeps_hallReset _ _ (Sub.trans (by decide) hL) h))
    try clear_value x1
    exact (Keeps.set_cellar (hL _ (by decide)) k2)

theorem keeps_execSupplyMonitor {L : List Part} {r s : State} (rail : Fin 4) (below : Bool)
    (hL : Sub [.cellar, .celR, .happened, .mem, .free, .flcR, .flash, .aisR, .carR, .stlR, .cnvR, .cmpR, .legR, .engR, .trpR, .criR, .odeR, .atcR, .spiR, .uartR, .canR, .iicR, .qepR, .gpioR, .sysR, .shadows, .readData, .writeBack, .crier, .aisle, .car, .leg, .cmp, .cnv, .eng, .qep, .trip, .ode, .attic, .core, .spi, .uart, .can, .iic, .ring, .knrR, .dbgR, .clock, .wdtR] L) (h : Keeps L r s) : Runs L r (execSupplyMonitor rail below s) := by
  unfold execSupplyMonitor
  extract_lets +onlyGivenNames -merge -useContext -underBinder x0
  try clear_value x0
  extract_lets +onlyGivenNames -merge -useContext -underBinder x1 x2
  have k3 : Keeps L r (x2) := (Keeps.set_cellar (hL _ (by decide)) h)
  try clear_value x2
  refine Runs.next ?_
  refine Keeps.ite ?_ (Keeps.ite (Keeps.set_cellar (hL _ (by decide)) k3) k3)
  extract_lets +onlyGivenNames -merge -useContext -underBinder x4
  have k5 : Keeps L r (x4) := (Keeps.ite k3 (keeps_hallReset _ _ (Sub.trans (by decide) hL) k3))
  try clear_value x4
  exact (Keeps.ite (keeps_resetRing (Sub.trans (by decide) hL) (keeps_setB _ _ _ (in_sys (hL _ (by decide)) (by decide)) (keeps_setIsland _ _ (Sub.trans (by decide) hL) k5))) k5)

theorem keeps_execSupWarn {L : List Part} {r s : State} (below : Bool)
    (hL : Sub [.celR] L) (h : Keeps L r s) : Runs L r (execSupWarn below s) := by
  unfold execSupWarn
  exact (Runs.next (keeps_setB _ _ _ (in_cel (hL _ (by decide)) (by decide)) h))

theorem keeps_execXinClockChange {L : List Part} {r s : State} (present : Bool)
    (hL : Sub [.sysR] L) (h : Keeps L r s) : Runs L r (execXinClockChange present s) := by
  unfold execXinClockChange
  extract_lets +onlyGivenNames -merge -useContext -underBinder x0
  have k1 : Keeps L r (x0) := (keeps_setB _ _ _ (in_sys (hL _ (by decide)) (by decide)) h)
  try clear_value x0
  exact (Runs.next (Keeps.ite k1 (keeps_setB _ _ _ (in_sys (hL _ (by decide)) (by decide)) k1)))

theorem keeps_releaseCore {L : List Part} {r s : State} (c : Nat)
    (hL : Sub [.free, .core, .sysR, .dbg] L) (h : Keeps L r s) : Keeps L r (State.releaseCore s c) := by
  unfold State.releaseCore
  extract_lets +onlyGivenNames -merge -useContext -underBinder x0
  have k1 : ∀ y3 y4, Keeps2 L r (y3) → Keeps2 L r (x0 y3 y4) := by
    intro y3 y4 k2
    unfold x0
    split
    · exact (Keeps2.mk (Keeps.of_snd (by with_reducible assumption) (keeps_takeFree (Sub.trans (by decide) hL) (Keeps2.out k2))))
  try clear_value x0
  split
  · extract_lets +onlyGivenNames -merge -useContext -underBinder x5
    have k6 : Keeps L r (x5) := (keeps_modCore _ _ (Sub.trans (by decide) hL) (Keeps.of_snd (by with_reducible assumption) (Keeps2.foldl (fun y7 y8 k9 => (k1 _ _ k9)) (Keeps2.mk h))))
    try clear_value x5
    extract_lets +onlyGivenNames -merge -useContext -underBinder x11
    have k12 : Keeps L r (x11) := (keeps_setIsland _ _ (Sub.trans (by decide) hL) k6)
    try clear_value x11
    exact (Keeps.set_debug (hL _ (by decide)) k12)

theorem keeps_releaseRing {L : List Part} {r s : State} 
    (hL : Sub [.sysR, .clock, .knrR, .ring, .odeR, .ode] L) (h : Keeps L r s) : Keeps L r (State.releaseRing s) := by
  unfold State.releaseRing
  extract_lets +onlyGivenNames -merge -useContext -underBinder x0 x1
  have k2 : Keeps L r (x0) := (keeps_setB _ _ _ (in_sys (hL _ (by decide)) (by decide)) h)
  try clear_value x0
  have k3 : Keeps L r (x1) := (Keeps.set_clock (hL _ (by decide)) k2)
  try clear_value x1
  exact (keeps_memberUpdate (Sub.trans (by decide) hL) k3)

theorem keeps_sequence {L : List Part} {r s : State} (env : ResetEnv)
    (hL : Sub [.sysR, .flcR, .cellar, .mem, .celR, .happened, .crier, .options, .legR, .leg, .wdtR, .gpioR, .dbgR, .clock, .knrR, .ring, .odeR, .ode, .aisR, .carR, .stlR, .cnvR, .cmpR, .engR, .trpR, .criR, .atcR, .spiR, .uartR, .canR, .iicR, .qepR, .eng, .warranted, .cmp, .trip, .aisle, .attic, .cnv, .car, .free, .flash, .dbg, .core] L) (h : Keeps L r s) : Keeps L r (State.sequence s env) := by
  unfold State.sequence
  extract_lets +onlyGivenNames -merge -useContext -underBinder x0
  have k1 : Keeps L r (x0) := (keeps_setB _ _ _ (in_sys (hL _ (by decide)) (by decide)) (keeps_setB _ _ _ (in_sys (hL _ (by decide)) (by decide)) h))
  try clear_value x0
  extract_lets +onlyGivenNames -merge -useContext -underBinder x2
  have k3 : Keeps L r (x2) := (keeps_readJournal _ (Sub.trans (by decide) hL) (keeps_loadOptions _ (Sub.trans (by decide) hL) k1))
  try clear_value x2
  extract_lets +onlyGivenNames -merge -useContext -underBinder x4
  have k5 : Keeps L r (x4) := (keeps_setF _ _ _ (in_sys (hL _ (by decide)) (by decide)) (keeps_setF _ _ _ (in_sys (hL _ (by decide)) (by decide)) k3))
  try clear_value x4
  extract_lets +onlyGivenNames -merge -useContext -underBinder x6
  try clear_value x6
  extract_lets +onlyGivenNames -merge -useContext -underBinder x7
  have k8 : Keeps L r (x7) := (Keeps.ite (keeps_releaseRing (Sub.trans (by decide) hL) k5) k5)
  try clear_value x7
  extract_lets +onlyGivenNames -merge -useContext -underBinder x9
  have k10 : Keeps L r (x9) := (keeps_setB _ _ _ (in_sys (hL _ (by decide)) (by decide)) k8)
  try clear_value x9
  extract_lets +onlyGivenNames -merge -useContext -underBinder x11 x12
  have k13 : Keeps L r (x12) := (Keeps.set_cellar (hL _ (by decide)) k10)
  try clear_value x12
  extract_lets +onlyGivenNames -merge -useContext -underBinder x14
  have k15 : Keeps L r (x14) := (keeps_restore _ _ (Sub.trans (by decide) hL) k13)
  try clear_value x14
  extract_lets +onlyGivenNames -merge -useContext -underBinder x16
  have k17 : Keeps L r (x16) := (keeps_forAll _ _ k15 fun y19 y20 b21 k18 => (Keeps.ite (keeps_setIsland _ _ (Sub.trans (by decide) hL) k18) k18))
  try clear_value x16
  extract_lets +onlyGivenNames -merge -useContext -underBinder x22
  have k23 : Keeps L r (x22) := (Keeps.ite (keeps_setIsland _ _ (Sub.trans (by decide) hL) k17) k17)
  try clear_value x22
  extract_lets +onlyGivenNames -merge -useContext -underBinder x24
  have k25 : Keeps L r (x24) := (Keeps.ite (keeps_memberUpdate (Sub.trans (by decide) hL) k23) k23)
  try clear_value x24
  extract_lets +onlyGivenNames -merge -useContext -underBinder x26
  have k27 : Keeps L r (x26) := (Keeps.ite (keeps_perstUpdate (Sub.trans (by decide) hL) (keeps_setIsland _ _ (Sub.trans (by decide) hL) k25)) k25)
  try clear_value x26
  extract_lets +onlyGivenNames -merge -useContext -underBinder x28
  have k29 : Keeps L r (x28) := (keeps_forAll _ _ k27 fun y31 y32 b33 k30 => (keeps_condUpdate _ (Sub.trans (by decide) hL) k30))
  try clear_value x28
  exact (keeps_forAll _ _ k29 fun y35 y36 b37 k34 => (Keeps.ite (keeps_releaseCore _ (Sub.trans (by decide) hL) k34) k34))

theorem keeps_execResetSequence {L : List Part} {r s : State} (env : ResetEnv)
    (hL : Sub [.now, .sysR, .flcR, .cellar, .mem, .celR, .happened, .crier, .options, .legR, .leg, .wdtR, .gpioR, .dbgR, .clock, .knrR, .ring, .odeR, .ode, .aisR, .carR, .stlR, .cnvR, .cmpR, .engR, .trpR, .criR, .atcR, .spiR, .uartR, .canR, .iicR, .qepR, .eng, .warranted, .cmp, .trip, .aisle, .attic, .cnv, .car, .free, .flash, .dbg, .core] L) (h : Keeps L r s) : Runs L r (execResetSequence env s) := by
  unfold execResetSequence
  extract_lets +onlyGivenNames -merge -useContext -underBinder x0
  try clear_value x0
  refine Runs.next ?_
  refine Keeps.ite h ?_
  extract_lets +onlyGivenNames -merge -useContext -underBinder x1
  have k2 : Keeps L r (x1) := (keeps_atTime _ (Sub.trans (by decide) hL) h)
  try clear_value x1
  exact (Keeps.ite (keeps_sequence _ (Sub.trans (by decide) hL) k2) (Keeps.set_cellar (hL _ (by decide)) k2))

theorem keeps_execAtticIslandUp {L : List Part} {r s : State} (env : ResetEnv)
    (hL : Sub [.sysR, .cellar, .celR, .aisR, .carR, .stlR, .cnvR, .cmpR, .legR, .engR, .trpR, .criR, .flcR, .wdtR, .knrR, .odeR, .atcR, .dbgR, .spiR, .uartR, .canR, .iicR, .qepR, .gpioR, .eng, .warranted, .crier, .happened, .cmp, .trip, .aisle, .ring, .attic, .mem, .cnv, .leg, .car, .free, .flash, .dbg, .ode] L) (h : Keeps L r s) : Runs L r (execAtticIslandUp env s) := by
  unfold execAtticIslandUp
  refine Runs.next ?_
  refine Keeps.ite ?_ h
  extract_lets +onlyGivenNames -merge -useContext -underBinder x0
  have k1 : Keeps L r (x0) := (keeps_setB _ _ _ (in_sys (hL _ (by decide)) (by decide)) h)
  try clear_value x0
  extract_lets +onlyGivenNames -merge -useContext -underBinder x2 x3
  have k4 : Keeps L r (x3) := (Keeps.set_cellar (hL _ (by decide)) k1)
  try clear_value x3
  extract_lets +onlyGivenNames -merge -useContext -underBinder x5
  have k6 : Keeps L r (x5) := (keeps_restore _ _ (Sub.trans (by decide) hL) k4)
  try clear_value x5
  exact (keeps_perstUpdate (Sub.trans (by decide) hL) (keeps_setIsland _ _ (Sub.trans (by decide) hL) k6))

theorem keeps_islandBack {L : List Part} {r s : State} (code : Nat) (env : ResetEnv)
    (hL : Sub [.sysR, .celR, .aisR, .carR, .stlR, .cnvR, .cmpR, .legR, .engR, .trpR, .criR, .flcR, .wdtR, .knrR, .odeR, .atcR, .dbgR, .spiR, .uartR, .canR, .iicR, .qepR, .gpioR, .eng, .warranted, .crier, .happened, .cmp, .trip, .aisle, .cellar, .ring, .attic, .mem, .cnv, .leg, .car, .free, .flash, .dbg, .ode, .options, .clock] L) (h : Keeps L r s) : Keeps L r (State.islandBack s code env) := by
  unfold State.islandBack
  extract_lets +onlyGivenNames -merge -useContext -underBinder x0
  try clear_value x0
  refine Keeps.ite ?_ ?_
  · extract_lets +onlyGivenNames -merge -useContext -underBinder x1
    have k2 : Keeps L r (x1) := (keeps_setIsland _ _ (Sub.trans (by decide) hL) (keeps_restore _ _ (Sub.trans (by decide) hL) h))
    try clear_value x1
    extract_lets +onlyGivenNames -merge -useContext -underBinder x3
    have k4 : Keeps L r (x3) := (keeps_forAll _ _ k2 fun y6 y7 b8 k5 => (keeps_groupArrives _ _ _ (Sub.trans (by decide) hL) k5))
    try clear_value x3
    exact (keeps_forAll _ _ (keeps_forAll _ _ k4 fun y14 y15 b16 k13 => (keeps_drive _ _ (Sub.trans (by decide) hL) k13)) fun y10 y11 b12 k9 => (keeps_condUpdate _ (Sub.trans (by decide) hL) k9))
  · refine Keeps.ite ?_ (Keeps.ite (keeps_perstUpdate (Sub.trans (by decide) hL) (keeps_setIsland _ _ (Sub.trans (by decide) hL) (keeps_restore _ _ (Sub.trans (by decide) hL) h))) (Keeps.set_cellar (hL _ (by decide)) h))
    extract_lets +onlyGivenNames -merge -useContext -underBinder x17
    try clear_value x17
    extract_lets +onlyGivenNames -merge -useContext -underBinder x18 x19
    have k20 : Keeps L r (x19) := (Keeps.set_options (hL _ (by decide)) h)
    try clear_value x19
    exact (keeps_memberUpdate (Sub.trans (by decide) hL) (keeps_setIsland _ _ (Sub.trans (by decide) hL) (keeps_restore _ _ (Sub.trans (by decide) hL) (keeps_releaseRing (Sub.trans (by decide) hL) k20))))

theorem keeps_execIslandReset {L : List Part} {r s : State} (island : Fin 16) (env : ResetEnv)
    (hL : Sub [.now, .sysR, .celR, .aisR, .carR, .stlR, .cnvR, .cmpR, .legR, .engR, .trpR, .criR, .flcR, .wdtR, .knrR, .odeR, .atcR, .dbgR, .spiR, .uartR, .canR, .iicR, .qepR, .gpioR, .eng, .warranted, .crier, .happened, .cmp, .trip, .aisle, .cellar, .ring, .attic, .mem, .cnv, .leg, .car, .free, .flash, .dbg, .ode, .options, .clock] L) (h : Keeps L r s) : Runs L r (execIslandReset island env s) := by
  unfold execIslandReset
  refine Runs.next ?_
  split
  · extract_lets +onlyGivenNames -merge -useContext -underBinder x0
    have k1 : Keeps L r (x0) := (keeps_atTime _ (Sub.trans (by decide) hL) h)
    try clear_value x0
    exact (keeps_islandBack _ _ (Sub.trans (by decide) hL) (Keeps.set_cellar (hL _ (by decide)) k1))
  · exact h

theorem keeps_execCoreReset {L : List Part} {r s : State} (c : Fin 4)
    (hL : Sub [.now, .cellar, .wdtR, .free, .core, .sysR, .dbg] L) (h : Keeps L r s) : Runs L r (execCoreReset c s) := by
  unfold execCoreReset
  refine Runs.next ?_
  split
  · extract_lets +onlyGivenNames -merge -useContext -underBinder x0
    have k1 : Keeps L r (x0) := (keeps_atTime _ (Sub.trans (by decide) hL) h)
    try clear_value x0
    extract_lets +onlyGivenNames -merge -useContext -underBinder x2 x3
    have k4 : Keeps L r (x3) := (Keeps.set_cellar (hL _ (by decide)) k1)
    try clear_value x3
    exact (keeps_wdtReload _ (Sub.trans (by decide) hL) (keeps_releaseCore _ (Sub.trans (by decide) hL) k4))
  · exact h

theorem keeps_execVddCelLoss {L : List Part} {r s : State} 
    (hL : Sub [.mem, .free, .flcR, .flash, .aisR, .carR, .stlR, .cnvR, .cmpR, .legR, .engR, .trpR, .criR, .odeR, .celR, .atcR, .spiR, .uartR, .canR, .iicR, .qepR, .gpioR, .sysR, .shadows, .readData, .writeBack, .crier, .aisle, .car, .leg, .cmp, .cnv, .eng, .qep, .trip, .ode, .attic, .core, .spi, .uart, .can, .iic, .ring, .happened, .dbgR, .knrR, .clock, .cellar, .wdtR] L) (h : Keeps L r s) : Runs L r (execVddCelLoss s) := by
  unfold execVddCelLoss
  extract_lets +onlyGivenNames -merge -useContext -underBinder x0
  have k1 : Keeps L r (x0) := (keeps_resetBlocks (Sub.trans (by decide) hL) h)
  try clear_value x0
  extract_lets +onlyGivenNames -merge -useContext -underBinder x2
  have k3 : Keeps L r (x2) := (keeps_setIsland _ _ (Sub.trans (by decide) hL) (keeps_resetRing (Sub.trans (by decide) hL) (keeps_setIsland _ _ (Sub.trans (by decide) hL) k1)))
  try clear_value x2
  exact (Runs.next (Keeps.set_cellar (hL _ (by decide)) k3))

theorem keeps_cellarWords {L : List Part} {r t : State} (s : State)
    (hL : Sub [.celR, .flcR] L) (h : Keeps L r t) : Keeps L r (cellarWords s t) := by
  unfold cellarWords
  have key : ∀ (l : List (Nat × Fld)) (u : State), (∀ x ∈ l, InPart L (x.1 + x.2.off)) → Keeps L r u →
      Keeps L r (l.foldl (fun (t : State) (x : Nat × Fld) => t.setF x.1 x.2 (s.getF x.1 x.2)) u) := by
    intro l
    induction l with
    | nil => exact fun u _ hu => hu
    | cons a l ih => exact fun u hl hu => ih _ (fun x hx => hl x (List.mem_cons_of_mem _ hx)) (keeps_setF _ _ _ (hl a List.mem_cons_self) hu)
  refine key _ _ ?_ h
  simp only [List.forall_mem_cons, List.not_mem_nil, false_imp_iff, implies_true, and_true]
  exact ⟨in_cel (hL _ (by decide)) (by decide), in_cel (hL _ (by decide)) (by decide), in_cel (hL _ (by decide)) (by decide),
    in_cel (hL _ (by decide)) (by decide), in_cel (hL _ (by decide)) (by decide), in_cel (hL _ (by decide)) (by decide),
    in_cel (hL _ (by decide)) (by decide), in_flc (hL _ (by decide)) (by decide)⟩

theorem keeps_execPowerOnReset {L : List Part} {r s : State} 
    (hL : Sub [.happened, .replay, .now, .free, .warranted, .mem, .shadows, .readData, .writeBack, .options, .cellar, .crier, .clock, .aisle, .car, .leg, .cmp, .cnv, .eng, .qep, .trip, .ring, .ode, .attic, .core, .flash, .spi, .uart, .can, .iic, .sysR, .aisR, .carR, .stlR, .cnvR, .cmpR, .legR, .engR, .trpR, .criR, .flcR, .celR, .wdtR, .knrR, .odeR, .atcR, .dbgR, .spiR, .uartR, .canR, .iicR, .qepR, .gpioR, .dbg] L) (h : Keeps L r s) : Runs L r (execPowerOnReset s) := by
  unfold execPowerOnReset
  extract_lets +onlyGivenNames -merge -useContext -underBinder x0 x1 x2
  have k1 : Keeps L r x2 :=
    ⟨h.queue, h.time, (keeps_flashCut (Sub.trans (by decide) hL) h).free, h.warranted, fun _ => rfl,
      fun w => sparse_wf_filter _ _ ((keeps_flashCut (Sub.trans (by decide) hL) h).mem w), fun p hp => absurd (hL p (by cases p <;> decide)) hp⟩
  clear_value x2
  extract_lets +onlyGivenNames -merge -useContext -underBinder x3 x4
  have k2 : Keeps L r x4 := Keeps.set_cellar (hL _ (by decide)) k1
  clear_value x4
  extract_lets +onlyGivenNames -merge -useContext -underBinder x5
  have k3 : Keeps L r x5 := keeps_setB _ _ _ (in_sys (hL _ (by decide)) (by decide)) k2
  clear_value x5
  exact Runs.next (keeps_cellarWords _ (Sub.trans (by decide) hL) (Keeps.set_debug (hL _ (by decide)) k3))

theorem keeps_writeTrailer {L : List Part} {r s : State} (a : Nat) (count : Nat) (seq : Nat)
    (hL : Sub [.mem] L) (h : Keeps L r s) : Keeps L r (State.writeTrailer s a count seq) := by
  unfold State.writeTrailer
  exact (keeps_setWords _ _ (Sub.trans (by decide) hL) h)

theorem keeps_snapEnd {L : List Part} {r s : State} 
    (hL : Sub [.mem, .cellar, .celR, .crier, .happened] L) (h : Keeps L r s) : Keeps L r (State.snapEnd s) := by
  unfold State.snapEnd
  split
  · exact h
  · extract_lets +onlyGivenNames -merge -useContext -underBinder x0
    try clear_value x0
    extract_lets +onlyGivenNames -merge -useContext -underBinder x1
    have k2 : Keeps L r (x1) := (keeps_writeTrailer _ _ _ (Sub.trans (by decide) hL) h)
    try clear_value x1
    extract_lets +onlyGivenNames -merge -useContext -underBinder x3 x4
    have k5 : Keeps L r (x4) := (Keeps.set_cellar (hL _ (by decide)) k2)
    try clear_value x4
    extract_lets +onlyGivenNames -merge -useContext -underBinder x6
    have k7 : Keeps L r (x6) := (keeps_setB _ _ _ (in_cel (hL _ (by decide)) (by decide)) k5)
    try clear_value x6
    extract_lets +onlyGivenNames -merge -useContext -underBinder x8
    have k9 : Keeps L r (x8) := (Keeps.ite (keeps_setB _ _ _ (in_cel (hL _ (by decide)) (by decide)) k7) (keeps_setF _ _ _ (in_cel (hL _ (by decide)) (by decide)) (keeps_setF _ _ _ (in_cel (hL _ (by decide)) (by decide)) (keeps_setBit _ _ _ _ (in_cel (hL _ (by decide)) (by decide)) k7))))
    try clear_value x8
    extract_lets +onlyGivenNames -merge -useContext -underBinder x10
    have k11 : Keeps L r (x10) := (keeps_celPulse _ (Sub.trans (by decide) hL) (keeps_ledger _ _ _ _ (Sub.trans (by decide) hL) k9))
    try clear_value x10
    extract_lets +onlyGivenNames -merge -useContext -underBinder x12 x13 x14
    have k15 : Keeps L r (x12) := (keeps_scheduleReset _ _ (Sub.trans (by decide) hL) k11)
    try clear_value x12
    have k16 : Keeps L r (x14) := (Keeps.ite (Keeps.set_cellar (hL _ (by decide)) k15) k11)
    try clear_value x14
    exact (Keeps.ite (keeps_startSnap _ _ (Sub.trans (by decide) hL) (Keeps.set_cellar (hL _ (by decide)) k16)) (keeps_setB _ _ _ (in_cel (hL _ (by decide)) (by decide)) k16))

end Sys2Proof.Laws
end

