-- ==== Sys2Proof/Laws/KeepOde.lean ====
section
/-! SUPPORT. What the operations of Machine/Ode.lean may change, and what they keep (see Keeps.lean). -/

namespace Sys2Proof.Laws

open Sys2Proof Sys2Proof.Machine Sys2Proof.Safety

theorem keeps_odFetch {L : List Part} {r s : State} (init : Nat) (a : Nat) (wide : Bool) (env : List BusEnv)
    (hL : Sub [.sysR, .happened, .crier, .flcR, .flash, .free, .writeBack, .shadows, .criR, .spiR, .spi, .uartR, .uart, .iic, .cnv, .cnvR, .eng, .engR, .legR, .leg, .attic] L) (h : Keeps L r s) : Keeps2 L r (State.odFetch s init a wide env) := by
  unfold State.odFetch
  split
  · refine Keeps2.ite ?_ (Keeps2.mk (Keeps.of_snd (by with_reducible assumption) (keeps_busRead _ _ _ _ _ (Sub.trans (by decide) hL) h)))
    split
    · exact (Keeps2.mk (Keeps.of_snd (by with_reducible assumption) (keeps_busRead _ _ _ _ _ (Sub.trans (by decide) hL) (Keeps.of_snd (by with_reducible assumption) (keeps_busRead _ _ _ _ _ (Sub.trans (by decide) hL) h)))))
    · exact (Keeps2.mk (Keeps.of_snd (by with_reducible assumption) (keeps_busRead _ _ _ _ _ (Sub.trans (by decide) hL) (Keeps.of_snd (by with_reducible assumption) (keeps_busRead _ _ _ _ _ (Sub.trans (by decide) hL) h)))))
  · exact (Keeps2.mk (Keeps.of_snd (by with_reducible assumption) (keeps_busRead _ _ _ _ _ (Sub.trans (by decide) hL) h)))

theorem keeps_odStore {L : List Part} {r s : State} (init : Nat) (a : Nat) (wide : Bool) (v : Nat) (env : List BusEnv)
    (hL : Sub [.sysR, .happened, .writeBack, .mem, .cnv, .cnvR, .eng, .engR, .legR, .leg, .attic, .core, .criR, .aisR, .aisle, .trpR, .trip, .knrR, .celR, .crier, .cellar, .ring, .atcR, .stlR, .wdtR, .cmp, .cmpR, .carR, .warranted, .flcR, .flash, .ode, .shadows, .car, .odeR, .free, .dbgR, .clock, .spiR, .uartR, .canR, .iicR, .qepR, .gpioR, .dbg, .spi, .uart, .can, .iic, .qep] L) (h : Keeps L r s) : Keeps2 L r (State.odStore s init a wide v env) := by
  unfold State.odStore
  split
  · refine Keeps2.ite ?_ (Keeps2.mk (Keeps.of_snd (by with_reducible assumption) (keeps_busWrite _ _ _ _ _ (Sub.trans (by decide) hL) h)))
    split
    · exact (Keeps2.mk (Keeps.of_snd (by with_reducible assumption) (keeps_busWrite _ _ _ _ _ (Sub.trans (by decide) hL) (Keeps.of_snd (by with_reducible assumption) (keeps_busWrite _ _ _ _ _ (Sub.trans (by decide) hL) h)))))
    · exact (Keeps2.mk (Keeps.of_snd (by with_reducible assumption) (keeps_busWrite _ _ _ _ _ (Sub.trans (by decide) hL) (Keeps.of_snd (by with_reducible assumption) (keeps_busWrite _ _ _ _ _ (Sub.trans (by decide) hL) h)))))
  · exact (Keeps2.mk (Keeps.of_snd (by with_reducible assumption) (keeps_busWrite _ _ _ _ _ (Sub.trans (by decide) hL) h)))

theorem keeps_odWords {L : List Part} {r s : State} (init : Nat) (a : Nat) (v3 : Nat) (v4 : List BusEnv) (v5 : List (BitVec 8))
    (hL : Sub [.sysR, .happened, .crier, .flcR, .flash, .free, .writeBack, .shadows, .criR, .spiR, .spi, .uartR, .uart, .iic, .cnv, .cnvR, .eng, .engR, .legR, .leg, .attic] L) (h : Keeps L r s) : Keeps2 L r (State.odWords s init a v3 v4 v5) := by
  induction v3 generalizing s a v4 v5 with
  | zero => exact h
  | succ n ih =>
    rw [State.odWords]
    split
    · exact ih _ _ _ (Keeps.of_snd (by with_reducible assumption) (keeps_busRead _ _ _ _ _ (Sub.trans (by decide) hL) h))
    · exact Keeps2.mk (Keeps.of_snd (by with_reducible assumption) (keeps_busRead _ _ _ _ _ (Sub.trans (by decide) hL) h))

theorem keeps_odBytes {L : List Part} {r s : State} (init : Nat) (a : Nat) (n : Nat) (env : List BusEnv)
    (hL : Sub [.sysR, .happened, .crier, .flcR, .flash, .free, .writeBack, .shadows, .criR, .spiR, .spi, .uartR, .uart, .iic, .cnv, .cnvR, .eng, .engR, .legR, .leg, .attic] L) (h : Keeps L r s) : Keeps2 L r (State.odBytes s init a n env) := by
  unfold State.odBytes
  extract_lets +onlyGivenNames -merge -useContext -underBinder x0
  try clear_value x0
  split
  · exact (Keeps2.mk (Keeps.of_snd (by with_reducible assumption) (keeps_odWords _ _ _ _ _ (Sub.trans (by decide) hL) h)))
  · exact (keeps_odWords _ _ _ _ _ (Sub.trans (by decide) hL) h)

theorem keeps_odPoke {L : List Part} {r s : State} (init : Nat) (a : Nat) (v3 : List (BitVec 8)) (v4 : List BusEnv)
    (hL : Sub [.sysR, .happened, .writeBack, .mem, .cnv, .cnvR, .eng, .engR, .legR, .leg, .attic, .core, .criR, .aisR, .aisle, .trpR, .trip, .knrR, .celR, .crier, .cellar, .ring, .atcR, .stlR, .wdtR, .cmp, .cmpR, .carR, .warranted, .flcR, .flash, .ode, .shadows, .car, .odeR, .free, .dbgR, .clock, .spiR, .uartR, .canR, .iicR, .qepR, .gpioR, .dbg, .spi, .uart, .can, .iic, .qep] L) (h : Keeps L r s) : Keeps2 L r (State.odPoke s init a v3 v4) := by
  induction v3 generalizing s a v4 with
  | nil => exact h
  | cons b bs ih =>
    rw [State.odPoke]
    split
    · exact ih _ _ (Keeps.of_snd (by with_reducible assumption) (keeps_busWrite _ _ _ _ _ (Sub.trans (by decide) hL) h))
    · exact Keeps2.mk (Keeps.of_snd (by with_reducible assumption) (keeps_busWrite _ _ _ _ _ (Sub.trans (by decide) hL) h))

theorem keeps_odBlock {L : List Part} {r s : State} (b : Nat) (lo : Nat) (n : Nat) (drive : List (Option (List Word)))
    (hL : Sub [.attic] L) (h : Keeps L r s) : Keeps21 L r (State.odBlock s b lo n drive) := by
  unfold State.odBlock
  extract_lets +onlyGivenNames -merge -useContext -underBinder x0
  try clear_value x0
  refine Keeps21.ite (Keeps21.mk h) ?_
  extract_lets +onlyGivenNames -merge -useContext -underBinder x1
  try clear_value x1
  extract_lets +onlyGivenNames -merge -useContext -underBinder x2
  have k3 : Keeps21 L r (x2) := by
    unfold x2
    split
    · exact (Keeps21.mk h)
    · extract_lets +onlyGivenNames -merge -useContext -underBinder x4
      try clear_value x4
      exact (Keeps21.mk (Keeps.set_attic (hL _ (by decide)) h))
  try clear_value x2
  split
  · exact (Keeps21.ite (Keeps21.mk h) k3)
  · exact k3

theorem keeps_odReadback {L : List Part} {r s : State} (off : Nat) (n : Nat) (drive : List (Option (List Word)))
    (hL : Sub [.attic] L) (h : Keeps L r s) : Keeps2 L r (State.odReadback s off n drive) := by
  unfold State.odReadback
  refine Keeps2.ite (Keeps2.mk h) ?_
  extract_lets +onlyGivenNames -merge -useContext -underBinder x0
  try clear_value x0
  split
  · exact (Keeps2.mk (Keeps.of_21 (by with_reducible assumption) (keeps_odBlock _ _ _ _ (Sub.trans (by decide) hL) h)))
  · refine Keeps2.ite (Keeps2.mk (Keeps.of_21 (by with_reducible assumption) (keeps_odBlock _ _ _ _ (Sub.trans (by decide) hL) h))) ?_
    split
    · exact (Keeps2.mk (Keeps.of_21 (by with_reducible assumption) (keeps_odBlock _ _ _ _ (Sub.trans (by decide) hL) (Keeps.of_21 (by with_reducible assumption) (keeps_odBlock _ _ _ _ (Sub.trans (by decide) hL) h)))))
    · exact (Keeps2.mk (Keeps.of_21 (by with_reducible assumption) (keeps_odBlock _ _ _ _ (Sub.trans (by decide) hL) (Keeps.of_21 (by with_reducible assumption) (keeps_odBlock _ _ _ _ (Sub.trans (by decide) hL) h)))))

theorem keeps_onValue {L : List Part} {r : State} (p : Reply × State) (act : State → Nat → State)
    (_ : Sub [] L) (h : Keeps2 L r p) (h1 : ∀ x0 x1, Keeps L r x0 → Keeps L r (act x0 x1)) : Keeps L r (State.onValue p act) := by
  unfold State.onValue
  split
  · exact (h1 _ _ (Keeps2.get (by with_reducible assumption)))
  · exact (Keeps2.get (by with_reducible assumption))

theorem keeps_onStored {L : List Part} {r : State} (p : Option Nat × State) (act : State → Option Nat × State)
    (_ : Sub [] L) (h : Keeps2 L r p) (h1 : ∀ x0, Keeps L r x0 → Keeps2 L r (act x0)) : Keeps2 L r (State.onStored p act) := by
  unfold State.onStored
  split
  · exact (h1 _ (Keeps2.get (by with_reducible assumption)))
  · exact h

theorem keeps_axisEnable {L : List Part} {r s : State} (init : Nat) (x : Nat) (on : Bool)
    (hL : Sub [.sysR, .happened, .crier, .flcR, .flash, .free, .writeBack, .shadows, .criR, .spiR, .spi, .uartR, .uart, .iic, .cnv, .cnvR, .eng, .engR, .legR, .leg, .attic, .mem, .core, .aisR, .aisle, .trpR, .trip, .knrR, .celR, .cellar, .ring, .atcR, .stlR, .wdtR, .cmp, .cmpR, .carR, .warranted, .ode, .car, .odeR, .dbgR, .clock, .canR, .iicR, .qepR, .gpioR, .dbg, .can, .qep] L) (h : Keeps L r s) : Keeps L r (State.axisEnable s init x on) := by
  unfold State.axisEnable
  exact (Keeps.foldl (fun y0 y1 k2 => (keeps_onValue _ _ (Sub.trans (by decide) hL) (keeps_busRead _ _ _ _ _ (Sub.trans (by decide) hL) k2) (fun y4 y5 k6 => (Keeps2.out (keeps_busWrite _ _ _ _ _ (Sub.trans (by decide) hL) k6))))) h)

theorem keeps_setAxis {L : List Part} {r s : State} (x : Fin 8) (f : Axis → Axis)
    (hL : Sub [.ode] L) (h : Keeps L r s) : Keeps L r (State.setAxis s x f) := by
  unfold State.setAxis
  exact (keeps_modOde _ (Sub.trans (by decide) hL) h)

theorem keeps_axisGo {L : List Part} {r s : State} (init : Nat) (x : Fin 8) (goal : AxisState)
    (hL : Sub [.sysR, .happened, .crier, .flcR, .flash, .free, .writeBack, .shadows, .criR, .spiR, .spi, .uartR, .uart, .iic, .cnv, .cnvR, .eng, .engR, .legR, .leg, .attic, .mem, .core, .aisR, .aisle, .trpR, .trip, .knrR, .celR, .cellar, .ring, .atcR, .stlR, .wdtR, .cmp, .cmpR, .carR, .warranted, .ode, .car, .odeR, .dbgR, .clock, .canR, .iicR, .qepR, .gpioR, .dbg, .can, .qep] L) (h : Keeps L r s) : Keeps L r (State.axisGo s init x goal) := by
  unfold State.axisGo
  extract_lets +onlyGivenNames -merge -useContext -underBinder x0
  try clear_value x0
  extract_lets +onlyGivenNames -merge -useContext -underBinder x1
  have k2 : Keeps L r (x1) := (Keeps.ite (keeps_axisEnable _ _ _ (Sub.trans (by decide) hL) h) h)
  try clear_value x1
  extract_lets +onlyGivenNames -merge -useContext -underBinder x3
  have k4 : Keeps L r (x3) := (Keeps.ite (keeps_axisEnable _ _ _ (Sub.trans (by decide) hL) k2) k2)
  try clear_value x3
  exact (keeps_setAxis _ _ (Sub.trans (by decide) hL) k4)

theorem keeps_faultReset {L : List Part} {r t : State} (init : Nat) (x : Fin 8)
    (hL : Sub [.sysR, .happened, .crier, .flcR, .flash, .free, .writeBack, .shadows, .criR, .spiR, .spi, .uartR, .uart, .iic, .cnv, .cnvR, .eng, .engR, .legR, .leg, .attic, .mem, .core, .aisR, .aisle, .trpR, .trip, .knrR, .celR, .cellar, .ring, .atcR, .stlR, .wdtR, .cmp, .cmpR, .carR, .warranted, .ode, .car, .odeR, .dbgR, .clock, .canR, .iicR, .qepR, .gpioR, .dbg, .can, .qep] L) (h : Keeps L r t) : Keeps L r (State.faultReset t init x) := by
  unfold State.faultReset
  exact (Keeps.ite (keeps_axisGo _ _ _ (Sub.trans (by decide) hL) h) (keeps_setAxis _ _ (Sub.trans (by decide) hL) h))

theorem keeps_controlword {L : List Part} {r s : State} (init : Nat) (x : Fin 8) (w : Nat)
    (hL : Sub [.ode, .sysR, .happened, .crier, .flcR, .flash, .free, .writeBack, .shadows, .criR, .spiR, .spi, .uartR, .uart, .iic, .cnv, .cnvR, .eng, .engR, .legR, .leg, .attic, .mem, .core, .aisR, .aisle, .trpR, .trip, .knrR, .celR, .cellar, .ring, .atcR, .stlR, .wdtR, .cmp, .cmpR, .carR, .warranted, .car, .odeR, .dbgR, .clock, .canR, .iicR, .qepR, .gpioR, .dbg, .can, .qep] L) (h : Keeps L r s) : Keeps2 L r (State.controlword s init x w) := by
  unfold State.controlword
  extract_lets +onlyGivenNames -merge -useContext -underBinder x0
  try clear_value x0
  extract_lets +onlyGivenNames -merge -useContext -underBinder x1
  try clear_value x1
  extract_lets +onlyGivenNames -merge -useContext -underBinder x2
  have k3 : Keeps L r (x2) := (keeps_setAxis _ _ (Sub.trans (by decide) hL) h)
  try clear_value x2
  refine Keeps2.ite (Keeps2.ite (Keeps2.mk (keeps_faultReset _ _ (Sub.trans (by decide) hL) (Keeps2.out (keeps_busWrite _ _ _ _ _ (Sub.trans (by decide) hL) k3)))) (Keeps2.mk k3)) ?_
  split
  · exact (Keeps2.mk (keeps_axisGo _ _ _ (Sub.trans (by decide) hL) k3))
  · exact (Keeps2.mk (keeps_axisGo _ _ _ (Sub.trans (by decide) hL) k3))
  · exact (Keeps2.mk (keeps_axisGo _ _ _ (Sub.trans (by decide) hL) k3))
  · exact (Keeps2.mk k3)
  · exact (Keeps2.mk (keeps_axisGo _ _ _ (Sub.trans (by decide) hL) k3))
  · exact (Keeps2.mk k3)
  · exact (Keeps2.ite (Keeps2.mk (keeps_axisGo _ _ _ (Sub.trans (by decide) hL) k3)) (Keeps2.mk (keeps_axisGo _ _ _ (Sub.trans (by decide) hL) k3)))

theorem keeps_targetTorque {L : List Part} {r s : State} (init : Nat) (x : Fin 8) (v : Nat) (env : List BusEnv)
    (hL : Sub [.ode, .sysR, .happened, .writeBack, .mem, .cnv, .cnvR, .eng, .engR, .legR, .leg, .attic, .core, .criR, .aisR, .aisle, .trpR, .trip, .knrR, .celR, .crier, .cellar, .ring, .atcR, .stlR, .wdtR, .cmp, .cmpR, .carR, .warranted, .flcR, .flash, .shadows, .car, .odeR, .free, .dbgR, .clock, .spiR, .uartR, .canR, .iicR, .qepR, .gpioR, .dbg, .spi, .uart, .can, .iic, .qep] L) (h : Keeps L r s) : Keeps2 L r (State.targetTorque s init x v env) := by
  unfold State.targetTorque
  extract_lets +onlyGivenNames -merge -useContext -underBinder x0
  extract_lets +onlyGivenNames -merge -useContext -underBinder x1
  have k2 : Keeps L r (x1) := (keeps_setAxis _ _ (Sub.trans (by decide) hL) h)
  try clear_value x1
  exact (keeps_onStored _ _ (Sub.trans (by decide) hL) (keeps_odStore _ _ _ _ _ (Sub.trans (by decide) hL) k2) (fun y3 k4 => (keeps_odStore _ _ _ _ _ (Sub.trans (by decide) hL) k4)))

theorem keeps_odRegWrite {L : List Part} {r s : State} (init : Nat) (p : Place) (wide : Bool) (v : Nat) (env : List BusEnv)
    (hL : Sub [.sysR, .happened, .writeBack, .mem, .cnv, .cnvR, .eng, .engR, .legR, .leg, .attic, .core, .criR, .aisR, .aisle, .trpR, .trip, .knrR, .celR, .crier, .cellar, .ring, .atcR, .stlR, .wdtR, .cmp, .cmpR, .carR, .warranted, .flcR, .flash, .ode, .shadows, .car, .odeR, .free, .dbgR, .clock, .spiR, .uartR, .canR, .iicR, .qepR, .gpioR, .dbg, .spi, .uart, .can, .iic, .qep] L) (h : Keeps L r s) : Keeps2 L r (State.odRegWrite s init p wide v env) := by
  unfold State.odRegWrite
  extract_lets +onlyGivenNames -merge -useContext -underBinder x0
  try clear_value x0
  extract_lets +onlyGivenNames -merge -useContext -underBinder x1
  try clear_value x1
  refine Keeps2.ite ?_ ?_
  · split
    · exact (Keeps2.mk (Keeps.of_snd (by with_reducible assumption) (keeps_odStore _ _ _ _ _ (Sub.trans (by decide) hL) h)))
    · exact (Keeps2.mk (Keeps.of_snd (by with_reducible assumption) (keeps_odStore _ _ _ _ _ (Sub.trans (by decide) hL) h)))
  · split
    · exact (Keeps2.mk (Keeps.of_snd (by with_reducible assumption) (keeps_odFetch _ _ _ _ (Sub.trans (by decide) hL) h)))
    · extract_lets +onlyGivenNames -merge -useContext -underBinder x2
      try clear_value x2
      extract_lets +onlyGivenNames -merge -useContext -underBinder x3
      try clear_value x3
      extract_lets +onlyGivenNames -merge -useContext -underBinder x4
      try clear_value x4
      refine Keeps2.ite (Keeps2.mk (Keeps.of_snd (by with_reducible assumption) (keeps_odFetch _ _ _ _ (Sub.trans (by decide) hL) h))) ?_
      split
      · exact (Keeps2.mk (Keeps.of_snd (by with_reducible assumption) (keeps_odStore _ _ _ _ _ (Sub.trans (by decide) hL) (Keeps.of_snd (by with_reducible assumption) (keeps_odFetch _ _ _ _ (Sub.trans (by decide) hL) h)))))
      · split
        · exact (Keeps2.mk (Keeps.of_snd (by with_reducible assumption) (keeps_odFetch _ _ _ _ (Sub.trans (by decide) hL) (Keeps.of_snd (by with_reducible assumption) (keeps_odStore _ _ _ _ _ (Sub.trans (by decide) hL) (Keeps.of_snd (by with_reducible assumption) (keeps_odFetch _ _ _ _ (Sub.trans (by decide) hL) h)))))))
        · exact (Keeps2.mk (Keeps.of_snd (by with_reducible assumption) (keeps_odFetch _ _ _ _ (Sub.trans (by decide) hL) (Keeps.of_snd (by with_reducible assumption) (keeps_odStore _ _ _ _ _ (Sub.trans (by decide) hL) (Keeps.of_snd (by with_reducible assumption) (keeps_odFetch _ _ _ _ (Sub.trans (by decide) hL) h)))))))

theorem keeps_copyDefaults {L : List Part} {r s : State} 
    (hL : Sub [.mem, .cellar, .celR] L) (h : Keeps L r s) : Keeps L r (State.copyDefaults s) := by
  unfold State.copyDefaults
  extract_lets +onlyGivenNames -merge -useContext -underBinder x0
  try clear_value x0
  extract_lets +onlyGivenNames -merge -useContext -underBinder x1
  try clear_value x1
  extract_lets +onlyGivenNames -merge -useContext -underBinder x2
  try clear_value x2
  extract_lets +onlyGivenNames -merge -useContext -underBinder x3
  try clear_value x3
  extract_lets +onlyGivenNames -merge -useContext -underBinder x4
  try clear_value x4
  extract_lets +onlyGivenNames -merge -useContext -underBinder x5
  try clear_value x5
  extract_lets +onlyGivenNames -merge -useContext -underBinder x6
  have k7 : Keeps L r (x6) := (keeps_writeTrailer _ _ _ (Sub.trans (by decide) hL) (keeps_setWords _ _ (Sub.trans (by decide) hL) h))
  try clear_value x6
  extract_lets +onlyGivenNames -merge -useContext -underBinder x8 x9
  have k10 : Keeps L r (x9) := (Keeps.set_cellar (hL _ (by decide)) k7)
  try clear_value x9
  exact (keeps_setF _ _ _ (in_cel (hL _ (by decide)) (by decide)) (keeps_setF _ _ _ (in_cel (hL _ (by decide)) (by decide)) (keeps_setBit _ _ _ _ (in_cel (hL _ (by decide)) (by decide)) k10)))

theorem keeps_odPlain {L : List Part} {r : State} (p : Option Nat × State)
    (_ : Sub [] L) (h : Keeps2 L r p) : Keeps2 L r (odPlain p) := by
  unfold odPlain
  split
  · exact (Keeps2.mk (Keeps2.get (by with_reducible assumption)))
  · exact (Keeps2.mk (Keeps2.get (by with_reducible assumption)))

theorem keeps_odSaving {L : List Part} {r : State} (p : Option Nat × State) (busy : Bool) (w : OdWait)
    (_ : Sub [] L) (h : Keeps2 L r p) : Keeps2 L r (odSaving p busy w) := by
  unfold odSaving
  split
  · exact (Keeps2.mk (Keeps2.get (by with_reducible assumption)))
  · exact (Keeps2.ite (Keeps2.mk (Keeps2.get (by with_reducible assumption))) (Keeps2.mk (Keeps2.get (by with_reducible assumption))))

theorem keeps_odPut {L : List Part} {r s : State} (init : Nat) (ix : Nat) (sub : Nat) (o : OdObj) (v : Nat) (data : List (BitVec 8)) (env : List BusEnv)
    (hL : Sub [.sysR, .happened, .writeBack, .mem, .cnv, .cnvR, .eng, .engR, .legR, .leg, .attic, .core, .criR, .aisR, .aisle, .trpR, .trip, .knrR, .celR, .crier, .cellar, .ring, .atcR, .stlR, .wdtR, .cmp, .cmpR, .carR, .warranted, .flcR, .flash, .ode, .shadows, .car, .odeR, .free, .dbgR, .clock, .spiR, .uartR, .canR, .iicR, .qepR, .gpioR, .dbg, .spi, .uart, .can, .iic, .qep] L) (h : Keeps L r s) : Keeps2 L r (State.odPut s init ix sub o v data env) := by
  unfold State.odPut
  split
  · exact (Keeps2.ite (Keeps2.mk h) (keeps_odSaving _ _ _ (Sub.trans (by decide) hL) (keeps_odStore _ _ _ _ _ (Sub.trans (by decide) hL) h)))
  · exact (Keeps2.ite (Keeps2.mk h) (Keeps2.ite (Keeps2.mk h) (Keeps2.ite (Keeps2.mk h) (Keeps2.mk (keeps_copyDefaults (Sub.trans (by decide) hL) h)))))
  · refine Keeps2.ite (Keeps2.mk h) ?_
    refine Keeps2.ite (Keeps2.mk h) ?_
    extract_lets +onlyGivenNames -merge -useContext -underBinder x0
    have k1 : Keeps L r (x0) := (keeps_setB _ _ _ (in_ode (hL _ (by decide)) (by decide)) (keeps_set64 _ _ _ _ (in_ode (hL _ (by decide)) (by decide)) (in_ode (hL _ (by decide)) (by decide)) h))
    try clear_value x0
    exact (Keeps2.mk (keeps_modOde _ (Sub.trans (by decide) hL) (keeps_setB _ _ _ (in_ode (hL _ (by decide)) (by decide)) k1)))
  · exact (Keeps2.ite (Keeps2.mk h) (keeps_odRegWrite _ _ _ _ _ (Sub.trans (by decide) hL) h))
  · exact (keeps_odPlain _ (Sub.trans (by decide) hL) (keeps_odPoke _ _ _ _ (Sub.trans (by decide) hL) h))
  · exact (Keeps2.ite (keeps_odPlain _ (Sub.trans (by decide) hL) (keeps_odStore _ _ _ _ _ (Sub.trans (by decide) hL) h)) (Keeps2.mk h))
  · exact (keeps_odPlain _ (Sub.trans (by decide) hL) (keeps_controlword _ _ _ (Sub.trans (by decide) hL) h))
  · exact (Keeps2.ite (Keeps2.mk h) (Keeps2.mk h))
  · exact (keeps_odPlain _ (Sub.trans (by decide) hL) (keeps_targetTorque _ _ _ _ (Sub.trans (by decide) hL) h))
  · exact (Keeps2.mk h)

theorem keeps_odGet {L : List Part} {r s : State} (init : Nat) (o : OdObj) (env : List BusEnv)
    (hL : Sub [.sysR, .happened, .crier, .flcR, .flash, .free, .writeBack, .shadows, .criR, .spiR, .spi, .uartR, .uart, .iic, .cnv, .cnvR, .eng, .engR, .legR, .leg, .attic] L) (h : Keeps L r s) : Keeps2 L r (State.odGet s init o env) := by
  unfold State.odGet
  extract_lets +onlyGivenNames -merge -useContext -underBinder x0
  have k1 : ∀ y3 y4 y5, Keeps2 L r (y4) → Keeps2 L r (x0 y3 y4 y5) := by
    intro y3 y4 y5 k2
    unfold x0
    split
    · exact (Keeps2.mk (Keeps2.get (by with_reducible assumption)))
    · exact (Keeps2.mk (Keeps2.get (by with_reducible assumption)))
  try clear_value x0
  split
  · exact (Keeps2.mk h)
  · exact (Keeps2.mk h)
  · exact (Keeps2.mk h)
  · exact (Keeps2.mk h)
  · exact (k1 _ _ _ (keeps_odFetch _ _ _ _ (Sub.trans (by decide) hL) h))
  · split
    · exact (Keeps2.mk (Keeps.of_snd (by with_reducible assumption) (keeps_odFetch _ _ _ _ (Sub.trans (by decide) hL) h)))
    · exact (Keeps2.mk (Keeps.of_snd (by with_reducible assumption) (keeps_odFetch _ _ _ _ (Sub.trans (by decide) hL) h)))
  · exact (k1 _ _ _ (keeps_odFetch _ _ _ _ (Sub.trans (by decide) hL) h))
  · exact (Keeps2.mk h)
  · exact (Keeps2.mk h)
  · exact (Keeps2.mk h)
  · exact (Keeps2.mk h)
  · exact (Keeps2.mk h)

theorem keeps_odPart {L : List Part} {r s : State} (init : Nat) (o : OdObj) (off : Nat) (n : Nat) (env : List BusEnv) (drive : List (Option (List Word)))
    (hL : Sub [.sysR, .happened, .crier, .flcR, .flash, .free, .writeBack, .shadows, .criR, .spiR, .spi, .uartR, .uart, .iic, .cnv, .cnvR, .eng, .engR, .legR, .leg, .attic] L) (h : Keeps L r s) : Keeps2 L r (State.odPart s init o off n env drive) := by
  unfold State.odPart
  extract_lets +onlyGivenNames -merge -useContext -underBinder x0
  have k1 : Keeps2 L r (x0) := by
    unfold x0
    split
    · exact (Keeps2.mk h)
    · exact (keeps_odBytes _ _ _ _ (Sub.trans (by decide) hL) h)
    · exact (keeps_odReadback _ _ _ (Sub.trans (by decide) hL) h)
  try clear_value x0
  split
  · exact (Keeps2.mk (Keeps2.get (by with_reducible assumption)))
  · exact (Keeps2.mk (Keeps2.get (by with_reducible assumption)))

theorem keeps_odSegment {L : List Part} {r s : State} (init : Nat) (client : Nat) (ix : Nat) (sub : Nat) (o : OdObj) (off : Nat) (len : Nat) (data : List (BitVec 8)) (last : Bool) (env : List BusEnv)
    (hL : Sub [.ode, .sysR, .happened, .writeBack, .mem, .cnv, .cnvR, .eng, .engR, .legR, .leg, .attic, .core, .criR, .aisR, .aisle, .trpR, .trip, .knrR, .celR, .crier, .cellar, .ring, .atcR, .stlR, .wdtR, .cmp, .cmpR, .carR, .warranted, .flcR, .flash, .shadows, .car, .odeR, .free, .dbgR, .clock, .spiR, .uartR, .canR, .iicR, .qepR, .gpioR, .dbg, .spi, .uart, .can, .iic, .qep] L) (h : Keeps L r s) : Keeps2 L r (State.odSegment s init client ix sub o off len data last env) := by
  unfold State.odSegment
  extract_lets +onlyGivenNames -merge -useContext -underBinder x0
  try clear_value x0
  extract_lets +onlyGivenNames -merge -useContext -underBinder x1
  have k2 : ∀ y4, Keeps L r (y4) → Keeps L r (x1 y4) := by
    intro y4 k3
    unfold x1
    exact (keeps_modOde _ (Sub.trans (by decide) hL) k3)
  try clear_value x1
  extract_lets +onlyGivenNames -merge -useContext -underBinder x5
  try clear_value x5
  split
  · refine Keeps2.ite (Keeps2.mk (k2 _ h)) ?_
    refine Keeps2.ite (Keeps2.mk (k2 _ h)) ?_
    split
    · exact (Keeps2.mk (Keeps.of_snd (by with_reducible assumption) (keeps_odPoke _ _ _ _ (Sub.trans (by decide) hL) (k2 _ h))))
    · exact (Keeps2.mk (Keeps.ite (Keeps.of_snd (by with_reducible assumption) (keeps_odPoke _ _ _ _ (Sub.trans (by decide) hL) (k2 _ h))) (keeps_modOde _ (Sub.trans (by decide) hL) (Keeps.of_snd (by with_reducible assumption) (keeps_odPoke _ _ _ _ (Sub.trans (by decide) hL) (k2 _ h))))))
  · exact (Keeps2.mk (k2 _ h))

theorem keeps_odTransact {L : List Part} {r s : State} (init : Nat) (client : Nat) (cmd : Nat) (ix : Nat) (sub : Nat) (off : Nat) (len : Nat) (data : List (BitVec 8)) (env : List BusEnv) (drive : List (Option (List Word)))
    (hL : Sub [.sysR, .happened, .writeBack, .mem, .cnv, .cnvR, .eng, .engR, .legR, .leg, .attic, .core, .criR, .aisR, .aisle, .trpR, .trip, .knrR, .celR, .crier, .cellar, .ring, .atcR, .stlR, .wdtR, .cmp, .cmpR, .carR, .warranted, .flcR, .flash, .ode, .shadows, .car, .odeR, .free, .dbgR, .clock, .spiR, .uartR, .canR, .iicR, .qepR, .gpioR, .dbg, .spi, .uart, .can, .iic, .qep] L) (h : Keeps L r s) : Keeps2 L r (State.odTransact s init client cmd ix sub off len data env drive) := by
  unfold State.odTransact
  refine Keeps2.ite (Keeps2.mk h) ?_
  refine Keeps2.ite (keeps_odPut _ _ _ _ _ _ _ (Sub.trans (by decide) hL) h) ?_
  refine Keeps2.ite (keeps_odPut _ _ _ _ _ _ _ (Sub.trans (by decide) hL) h) ?_
  split
  · exact (Keeps2.mk h)
  · refine Keeps2.ite ?_ (Keeps2.ite (Keeps2.mk h) (Keeps2.ite (Keeps2.ite (Keeps2.mk h) (keeps_odPut _ _ _ _ _ _ _ (Sub.trans (by decide) hL) h)) (keeps_odSegment _ _ _ _ _ _ _ _ _ _ (Sub.trans (by decide) hL) h)))
    refine Keeps2.ite (Keeps2.mk h) ?_
    refine Keeps2.ite ?_ (Keeps2.ite (Keeps2.mk h) (Keeps2.ite (Keeps2.mk h) (keeps_odPart _ _ _ _ _ _ (Sub.trans (by decide) hL) h)))
    refine Keeps2.ite (Keeps2.mk h) ?_
    split
    · exact (keeps_odPart _ _ _ _ _ _ (Sub.trans (by decide) hL) h)
    · exact (keeps_odPart _ _ _ _ _ _ (Sub.trans (by decide) hL) h)
    · exact (keeps_odGet _ _ _ (Sub.trans (by decide) hL) h)

theorem keeps_odRing {L : List Part} {r s : State} (k : OdKind) (env : List BusEnv) (drive : List (Option (List Word)))
    (hL : Sub [.odeR, .ring, .ode, .happened, .sysR, .writeBack, .mem, .cnv, .cnvR, .eng, .engR, .legR, .leg, .attic, .core, .criR, .aisR, .aisle, .trpR, .trip, .knrR, .celR, .crier, .cellar, .atcR, .stlR, .wdtR, .cmp, .cmpR, .carR, .warranted, .flcR, .flash, .shadows, .car, .free, .dbgR, .clock, .spiR, .uartR, .canR, .iicR, .qepR, .gpioR, .dbg, .spi, .uart, .can, .iic, .qep] L) (h : Keeps L r s) : Keeps L r (State.odRing s k env drive) := by
  unfold State.odRing
  split
  · refine Keeps.ite ?_ h
    split
    · exact (keeps_odServe _ (Sub.trans (by decide) hL) (keeps_odAnswer _ _ (Sub.trans (by decide) hL) (Keeps.of_snd (by with_reducible assumption) (keeps_odTransact _ _ _ _ _ _ _ _ _ _ (Sub.trans (by decide) hL) h))))
  · exact h

theorem keeps_execOdRequest {L : List Part} {r s : State} (m : RingMsg)
    (hL : Sub [.ring, .odeR, .ode, .happened] L) (h : Keeps L r s) : Runs L r (execOdRequest m s) := by
  unfold execOdRequest
  exact (Runs.next (Keeps.ite (keeps_odArrive _ (Sub.trans (by decide) hL) h) h))

theorem keeps_execOdRead {L : List Part} {r s : State} (env : List BusEnv)
    (hL : Sub [.odeR, .ring, .ode, .happened, .sysR, .writeBack, .mem, .cnv, .cnvR, .eng, .engR, .legR, .leg, .attic, .core, .criR, .aisR, .aisle, .trpR, .trip, .knrR, .celR, .crier, .cellar, .atcR, .stlR, .wdtR, .cmp, .cmpR, .carR, .warranted, .flcR, .flash, .shadows, .car, .free, .dbgR, .clock, .spiR, .uartR, .canR, .iicR, .qepR, .gpioR, .dbg, .spi, .uart, .can, .iic, .qep] L) (h : Keeps L r s) : Runs L r (execOdRead env s) := by
  unfold execOdRead
  exact (Runs.next (keeps_odRing _ _ _ (Sub.trans (by decide) hL) h))

theorem keeps_execOdWrite {L : List Part} {r s : State} (env : List BusEnv)
    (hL : Sub [.odeR, .ring, .ode, .happened, .sysR, .writeBack, .mem, .cnv, .cnvR, .eng, .engR, .legR, .leg, .attic, .core, .criR, .aisR, .aisle, .trpR, .trip, .knrR, .celR, .crier, .cellar, .atcR, .stlR, .wdtR, .cmp, .cmpR, .carR, .warranted, .flcR, .flash, .shadows, .car, .free, .dbgR, .clock, .spiR, .uartR, .canR, .iicR, .qepR, .gpioR, .dbg, .spi, .uart, .can, .iic, .qep] L) (h : Keeps L r s) : Runs L r (execOdWrite env s) := by
  unfold execOdWrite
  exact (Runs.next (keeps_odRing _ _ _ (Sub.trans (by decide) hL) h))

theorem keeps_execBlockRead {L : List Part} {r s : State} (env : List BusEnv) (drive : List (Option (List Word)))
    (hL : Sub [.odeR, .ring, .ode, .happened, .sysR, .writeBack, .mem, .cnv, .cnvR, .eng, .engR, .legR, .leg, .attic, .core, .criR, .aisR, .aisle, .trpR, .trip, .knrR, .celR, .crier, .cellar, .atcR, .stlR, .wdtR, .cmp, .cmpR, .carR, .warranted, .flcR, .flash, .shadows, .car, .free, .dbgR, .clock, .spiR, .uartR, .canR, .iicR, .qepR, .gpioR, .dbg, .spi, .uart, .can, .iic, .qep] L) (h : Keeps L r s) : Runs L r (execBlockRead env drive s) := by
  unfold execBlockRead
  exact (Runs.next (keeps_odRing _ _ _ (Sub.trans (by decide) hL) h))

theorem keeps_execBlockWrite {L : List Part} {r s : State} (env : List BusEnv)
    (hL : Sub [.odeR, .ring, .ode, .happened, .sysR, .writeBack, .mem, .cnv, .cnvR, .eng, .engR, .legR, .leg, .attic, .core, .criR, .aisR, .aisle, .trpR, .trip, .knrR, .celR, .crier, .cellar, .atcR, .stlR, .wdtR, .cmp, .cmpR, .carR, .warranted, .flcR, .flash, .shadows, .car, .free, .dbgR, .clock, .spiR, .uartR, .canR, .iicR, .qepR, .gpioR, .dbg, .spi, .uart, .can, .iic, .qep] L) (h : Keeps L r s) : Runs L r (execBlockWrite env s) := by
  unfold execBlockWrite
  exact (Runs.next (keeps_odRing _ _ _ (Sub.trans (by decide) hL) h))

theorem keeps_execBlockWriteEnd {L : List Part} {r s : State} (env : List BusEnv)
    (hL : Sub [.odeR, .ring, .ode, .happened, .sysR, .writeBack, .mem, .cnv, .cnvR, .eng, .engR, .legR, .leg, .attic, .core, .criR, .aisR, .aisle, .trpR, .trip, .knrR, .celR, .crier, .cellar, .atcR, .stlR, .wdtR, .cmp, .cmpR, .carR, .warranted, .flcR, .flash, .shadows, .car, .free, .dbgR, .clock, .spiR, .uartR, .canR, .iicR, .qepR, .gpioR, .dbg, .spi, .uart, .can, .iic, .qep] L) (h : Keeps L r s) : Runs L r (execBlockWriteEnd env s) := by
  unfold execBlockWriteEnd
  exact (Runs.next (keeps_odRing _ _ _ (Sub.trans (by decide) hL) h))

theorem keeps_execOdSave {L : List Part} {r s : State} (env : List BusEnv)
    (hL : Sub [.odeR, .ring, .ode, .happened, .sysR, .writeBack, .mem, .cnv, .cnvR, .eng, .engR, .legR, .leg, .attic, .core, .criR, .aisR, .aisle, .trpR, .trip, .knrR, .celR, .crier, .cellar, .atcR, .stlR, .wdtR, .cmp, .cmpR, .carR, .warranted, .flcR, .flash, .shadows, .car, .free, .dbgR, .clock, .spiR, .uartR, .canR, .iicR, .qepR, .gpioR, .dbg, .spi, .uart, .can, .iic, .qep] L) (h : Keeps L r s) : Runs L r (execOdSave env s) := by
  unfold execOdSave
  exact (Runs.next (keeps_odRing _ _ _ (Sub.trans (by decide) hL) h))

theorem keeps_execRestoreDefaults {L : List Part} {r s : State} (env : List BusEnv)
    (hL : Sub [.odeR, .ring, .ode, .happened, .sysR, .writeBack, .mem, .cnv, .cnvR, .eng, .engR, .legR, .leg, .attic, .core, .criR, .aisR, .aisle, .trpR, .trip, .knrR, .celR, .crier, .cellar, .atcR, .stlR, .wdtR, .cmp, .cmpR, .carR, .warranted, .flcR, .flash, .shadows, .car, .free, .dbgR, .clock, .spiR, .uartR, .canR, .iicR, .qepR, .gpioR, .dbg, .spi, .uart, .can, .iic, .qep] L) (h : Keeps L r s) : Runs L r (execRestoreDefaults env s) := by
  unfold execRestoreDefaults
  exact (Runs.next (keeps_odRing _ _ _ (Sub.trans (by decide) hL) h))

theorem keeps_execFeaturesAccepted {L : List Part} {r s : State} (env : List BusEnv)
    (hL : Sub [.odeR, .ring, .ode, .happened, .sysR, .writeBack, .mem, .cnv, .cnvR, .eng, .engR, .legR, .leg, .attic, .core, .criR, .aisR, .aisle, .trpR, .trip, .knrR, .celR, .crier, .cellar, .atcR, .stlR, .wdtR, .cmp, .cmpR, .carR, .warranted, .flcR, .flash, .shadows, .car, .free, .dbgR, .clock, .spiR, .uartR, .canR, .iicR, .qepR, .gpioR, .dbg, .spi, .uart, .can, .iic, .qep] L) (h : Keeps L r s) : Runs L r (execFeaturesAccepted env s) := by
  unfold execFeaturesAccepted
  exact (Runs.next (keeps_odRing _ _ _ (Sub.trans (by decide) hL) h))

theorem keeps_execControlword {L : List Part} {r s : State} (env : List BusEnv)
    (hL : Sub [.odeR, .ring, .ode, .happened, .sysR, .writeBack, .mem, .cnv, .cnvR, .eng, .engR, .legR, .leg, .attic, .core, .criR, .aisR, .aisle, .trpR, .trip, .knrR, .celR, .crier, .cellar, .atcR, .stlR, .wdtR, .cmp, .cmpR, .carR, .warranted, .flcR, .flash, .shadows, .car, .free, .dbgR, .clock, .spiR, .uartR, .canR, .iicR, .qepR, .gpioR, .dbg, .spi, .uart, .can, .iic, .qep] L) (h : Keeps L r s) : Runs L r (execControlword env s) := by
  unfold execControlword
  exact (Runs.next (keeps_odRing _ _ _ (Sub.trans (by decide) hL) h))

theorem keeps_execTargetTorque {L : List Part} {r s : State} (env : List BusEnv)
    (hL : Sub [.odeR, .ring, .ode, .happened, .sysR, .writeBack, .mem, .cnv, .cnvR, .eng, .engR, .legR, .leg, .attic, .core, .criR, .aisR, .aisle, .trpR, .trip, .knrR, .celR, .crier, .cellar, .atcR, .stlR, .wdtR, .cmp, .cmpR, .carR, .warranted, .flcR, .flash, .shadows, .car, .free, .dbgR, .clock, .spiR, .uartR, .canR, .iicR, .qepR, .gpioR, .dbg, .spi, .uart, .can, .iic, .qep] L) (h : Keeps L r s) : Runs L r (execTargetTorque env s) := by
  unfold execTargetTorque
  exact (Runs.next (keeps_odRing _ _ _ (Sub.trans (by decide) hL) h))

theorem keeps_execNegotiationTimeout {L : List Part} {r s : State} 
    (hL : Sub [.now, .odeR, .ode] L) (h : Keeps L r s) : Runs L r (execNegotiationTimeout s) := by
  unfold execNegotiationTimeout
  refine Runs.next ?_
  split
  · exact h
  · extract_lets +onlyGivenNames -merge -useContext -underBinder x0
    have k1 : Keeps L r (x0) := (keeps_atTime _ (Sub.trans (by decide) hL) h)
    try clear_value x0
    extract_lets +onlyGivenNames -merge -useContext -underBinder x2
    have k3 : Keeps L r (x2) := (keeps_set64 _ _ _ _ (in_ode (hL _ (by decide)) (by decide)) (in_ode (hL _ (by decide)) (by decide)) k1)
    try clear_value x2
    exact (keeps_modOde _ (Sub.trans (by decide) hL) (keeps_setB _ _ _ (in_ode (hL _ (by decide)) (by decide)) (keeps_setB _ _ _ (in_ode (hL _ (by decide)) (by decide)) k3)))

theorem keeps_execOdeCntClr {L : List Part} {r s : State} (init : Fin 16)
    (hL : Sub [.sysR, .happened, .odeR] L) (h : Keeps L r s) : Runs L r (execOdeCntClr init s) := by
  unfold execOdeCntClr
  exact (Runs.next (keeps_onCommand _ _ _ (Sub.trans (by decide) hL) h (fun y0 k1 => (keeps_clearCount _ _ (in_ode (hL _ (by decide)) (by decide)) (keeps_clearCount _ _ (in_ode (hL _ (by decide)) (by decide)) k1)))))

theorem keeps_execAxisFault {L : List Part} {r s : State} (x : Fin 8)
    (hL : Sub [.sysR, .happened, .crier, .flcR, .flash, .free, .writeBack, .shadows, .criR, .spiR, .spi, .uartR, .uart, .iic, .cnv, .cnvR, .eng, .engR, .legR, .leg, .attic, .mem, .core, .aisR, .aisle, .trpR, .trip, .knrR, .celR, .cellar, .ring, .atcR, .stlR, .wdtR, .cmp, .cmpR, .carR, .warranted, .ode, .car, .odeR, .dbgR, .clock, .canR, .iicR, .qepR, .gpioR, .dbg, .can, .qep] L) (h : Keeps L r s) : Runs L r (execAxisFault x s) := by
  unfold execAxisFault
  exact (Runs.next (Keeps.ite (keeps_axisGo _ _ _ (Sub.trans (by decide) hL) h) h))

theorem keeps_execSnapshotEnd {L : List Part} {r s : State} 
    (hL : Sub [.odeR, .ring, .ode, .happened, .free, .mem, .cellar, .celR, .crier] L) (h : Keeps L r s) : Runs L r (execSnapshotEnd s) := by
  unfold execSnapshotEnd
  exact (Runs.next (keeps_odPoll (Sub.trans (by decide) hL) (keeps_snapEnd (Sub.trans (by decide) hL) h)))

theorem keeps_usdoRoute {L : List Part} {r s : State} (t : UsdoTransfer) (cmd : Nat) (d : List (BitVec 8)) (node : Nat)
    (hL : Sub [.odeR, .happened, .ode, .free, .ring] L) (h : Keeps L r s) : Keeps L r (State.usdoRoute s t cmd d node) := by
  unfold State.usdoRoute
  refine Keeps.ite (keeps_usdoResult _ _ _ (Sub.trans (by decide) hL) h) ?_
  refine Keeps.ite (keeps_usdoResult _ _ _ (Sub.trans (by decide) hL) h) ?_
  extract_lets +onlyGivenNames -merge -useContext -underBinder x0
  try clear_value x0
  exact (keeps_usdoResult _ _ _ (Sub.trans (by decide) hL) (keeps_ringRequest _ _ _ (Sub.trans (by decide) hL) h))

theorem keeps_usdoRun {L : List Part} {r s : State} (t : UsdoTransfer) (cmd : Nat) (d : List (BitVec 8)) (env : List BusEnv)
    (hL : Sub [.odeR, .happened, .ode, .free, .ring, .sysR, .writeBack, .mem, .cnv, .cnvR, .eng, .engR, .legR, .leg, .attic, .core, .criR, .aisR, .aisle, .trpR, .trip, .knrR, .celR, .crier, .cellar, .atcR, .stlR, .wdtR, .cmp, .cmpR, .carR, .warranted, .flcR, .flash, .shadows, .car, .dbgR, .clock, .spiR, .uartR, .canR, .iicR, .qepR, .gpioR, .dbg, .spi, .uart, .can, .iic, .qep] L) (h : Keeps L r s) : Keeps L r (State.usdoRun s t cmd d env) := by
  unfold State.usdoRun
  split
  · exact (keeps_usdoRoute _ _ _ _ (Sub.trans (by decide) hL) h)
  · -- NESTED
    split
    · exact (keeps_usdoResult _ _ _ (Sub.trans (by decide) hL) (Keeps.of_snd (by with_reducible assumption) (keeps_odTransact _ _ _ _ _ _ _ _ _ _ (Sub.trans (by decide) hL) h)))

theorem keeps_usdoDown {L : List Part} {r s : State} (t : UsdoTransfer) (d : List (BitVec 8)) (last : Bool) (env : List BusEnv)
    (hL : Sub [.odeR, .happened, .ode, .free, .sysR, .writeBack, .mem, .cnv, .cnvR, .eng, .engR, .legR, .leg, .attic, .core, .criR, .aisR, .aisle, .trpR, .trip, .knrR, .celR, .crier, .cellar, .ring, .atcR, .stlR, .wdtR, .cmp, .cmpR, .carR, .warranted, .flcR, .flash, .shadows, .car, .dbgR, .clock, .spiR, .uartR, .canR, .iicR, .qepR, .gpioR, .dbg, .spi, .uart, .can, .iic, .qep] L) (h : Keeps L r s) : Keeps L r (State.usdoDown s t d last env) := by
  unfold State.usdoDown
  split
  · -- NESTED
    split
    · split
      · exact (Keeps.ite (keeps_usdoResult _ _ _ (Sub.trans (by decide) hL) (Keeps.of_snd (by with_reducible assumption) (keeps_odTransact _ _ _ _ _ _ _ _ _ _ (Sub.trans (by decide) hL) h))) (keeps_usdoReply _ (Sub.trans (by decide) hL) (keeps_modOde _ (Sub.trans (by decide) hL) (Keeps.of_snd (by with_reducible assumption) (keeps_odTransact _ _ _ _ _ _ _ _ _ _ (Sub.trans (by decide) hL) h)))))
      · exact (keeps_usdoResult _ _ _ (Sub.trans (by decide) hL) (Keeps.of_snd (by with_reducible assumption) (keeps_odTransact _ _ _ _ _ _ _ _ _ _ (Sub.trans (by decide) hL) h)))
  · extract_lets +onlyGivenNames -merge -useContext -underBinder x0
    try clear_value x0
    exact (Keeps.ite (keeps_usdoReply _ (Sub.trans (by decide) hL) (keeps_modOde _ (Sub.trans (by decide) hL) h)) (Keeps.ite (keeps_usdoResult _ _ _ (Sub.trans (by decide) hL) h) (keeps_usdoRun _ _ _ _ (Sub.trans (by decide) hL) h)))

theorem keeps_usdoUp {L : List Part} {r s : State} (t : UsdoTransfer) (env : List BusEnv) (drive : List (Option (List Word)))
    (hL : Sub [.ode, .odeR, .free, .happened, .sysR, .writeBack, .mem, .cnv, .cnvR, .eng, .engR, .legR, .leg, .attic, .core, .criR, .aisR, .aisle, .trpR, .trip, .knrR, .celR, .crier, .cellar, .ring, .atcR, .stlR, .wdtR, .cmp, .cmpR, .carR, .warranted, .flcR, .flash, .shadows, .car, .dbgR, .clock, .spiR, .uartR, .canR, .iicR, .qepR, .gpioR, .dbg, .spi, .uart, .can, .iic, .qep] L) (h : Keeps L r s) : Keeps L r (State.usdoUp s t env drive) := by
  unfold State.usdoUp
  extract_lets +onlyGivenNames -merge -useContext -underBinder x0
  try clear_value x0
  extract_lets +onlyGivenNames -merge -useContext -underBinder x1
  try clear_value x1
  extract_lets +onlyGivenNames -merge -useContext -underBinder x2
  have k3 : ∀ y5 y6, Keeps L r (y5) → Keeps L r (x2 y5 y6) := by
    intro y5 y6 k4
    unfold x2
    extract_lets +onlyGivenNames -merge -useContext -underBinder x7
    have k8 : Keeps L r (x7) := (Keeps.ite (keeps_modOde _ (Sub.trans (by decide) hL) k4) (keeps_modOde _ (Sub.trans (by decide) hL) k4))
    try clear_value x7
    exact (keeps_odeStatus (Sub.trans (by decide) hL) (keeps_usdoReply _ (Sub.trans (by decide) hL) k8))
  try clear_value x2
  split
  · split
    · exact (k3 _ _ (Keeps.ite (keeps_odEnded _ _ _ _ (Sub.trans (by decide) hL) (Keeps.of_snd (by with_reducible assumption) (keeps_odTransact _ _ _ _ _ _ _ _ _ _ (Sub.trans (by decide) hL) h))) (Keeps.of_snd (by with_reducible assumption) (keeps_odTransact _ _ _ _ _ _ _ _ _ _ (Sub.trans (by decide) hL) h))))
    · exact (keeps_usdoResult _ _ _ (Sub.trans (by decide) hL) (Keeps.of_snd (by with_reducible assumption) (keeps_odTransact _ _ _ _ _ _ _ _ _ _ (Sub.trans (by decide) hL) h)))
  · exact (k3 _ _ h)

theorem keeps_usdoRequest {L : List Part} {r s : State} (client : Nat) (target : Option (BitVec 7)) (op : UsdoOp) (env : List BusEnv) (drive : List (Option (List Word)))
    (hL : Sub [.free, .ode, .odeR, .happened, .ring, .sysR, .writeBack, .mem, .cnv, .cnvR, .eng, .engR, .legR, .leg, .attic, .core, .criR, .aisR, .aisle, .trpR, .trip, .knrR, .celR, .crier, .cellar, .atcR, .stlR, .wdtR, .cmp, .cmpR, .carR, .warranted, .flcR, .flash, .shadows, .car, .dbgR, .clock, .spiR, .uartR, .canR, .iicR, .qepR, .gpioR, .dbg, .spi, .uart, .can, .iic, .qep] L) (h : Keeps L r s) : Keeps L r (State.usdoRequest s client target op env drive) := by
  unfold State.usdoRequest
  extract_lets +onlyGivenNames -merge -useContext -underBinder x0
  try clear_value x0
  extract_lets +onlyGivenNames -merge -useContext -underBinder x1
  try clear_value x1
  extract_lets +onlyGivenNames -merge -useContext -underBinder x2
  try clear_value x2
  extract_lets +onlyGivenNames -merge -useContext -underBinder x3
  have k4 : ∀ y6, Keeps L r (y6) → Keeps L r (x3 y6) := by
    intro y6 k5
    unfold x3
    exact (keeps_usdoReply _ (Sub.trans (by decide) hL) (keeps_odeAborted _ _ _ _ (Sub.trans (by decide) hL) k5))
  try clear_value x3
  refine Keeps.ite ?_ ?_
  · split
    · exact h
    · exact (keeps_usdoReply _ (Sub.trans (by decide) hL) (keeps_odeAborted _ _ _ _ (Sub.trans (by decide) hL) h))
    · exact (keeps_usdoReply _ (Sub.trans (by decide) hL) (keeps_odeAborted _ _ _ _ (Sub.trans (by decide) hL) h))
    · exact (keeps_usdoReply _ (Sub.trans (by decide) hL) (keeps_odeAborted _ _ _ _ (Sub.trans (by decide) hL) h))
    · exact (keeps_usdoReply _ (Sub.trans (by decide) hL) (keeps_odeAborted _ _ _ _ (Sub.trans (by decide) hL) h))
  · split
    · exact (keeps_odeStatus (Sub.trans (by decide) hL) (keeps_modOde _ (Sub.trans (by decide) hL) h))
    · exact (keeps_usdoRun _ _ _ _ (Sub.trans (by decide) hL) h)
    · exact (keeps_odeStatus (Sub.trans (by decide) hL) (keeps_usdoReply _ (Sub.trans (by decide) hL) (keeps_modOde _ (Sub.trans (by decide) hL) h)))
    · extract_lets +onlyGivenNames -merge -useContext -underBinder x7
      try clear_value x7
      split
      · exact (keeps_odeStatus (Sub.trans (by decide) hL) (keeps_usdoReply _ (Sub.trans (by decide) hL) (keeps_modOde _ (Sub.trans (by decide) hL) h)))
      · exact (keeps_usdoRun _ _ _ _ (Sub.trans (by decide) hL) h)
    · split
      · exact (Keeps.ite (k4 _ h) (keeps_usdoDown _ _ _ _ (Sub.trans (by decide) hL) h))
      · exact (k4 _ h)
    · split
      · exact (Keeps.ite (keeps_usdoUp _ _ _ (Sub.trans (by decide) hL) h) (k4 _ h))
      · exact (k4 _ h)

theorem keeps_execUsdoRequest {L : List Part} {r s : State} (client : BitVec 7) (target : Option (BitVec 7)) (op : UsdoOp) (env : List BusEnv) (drive : List (Option (List Word)))
    (hL : Sub [.free, .ode, .odeR, .happened, .ring, .sysR, .writeBack, .mem, .cnv, .cnvR, .eng, .engR, .legR, .leg, .attic, .core, .criR, .aisR, .aisle, .trpR, .trip, .knrR, .celR, .crier, .cellar, .atcR, .stlR, .wdtR, .cmp, .cmpR, .carR, .warranted, .flcR, .flash, .shadows, .car, .dbgR, .clock, .spiR, .uartR, .canR, .iicR, .qepR, .gpioR, .dbg, .spi, .uart, .can, .iic, .qep] L) (h : Keeps L r s) : Runs L r (execUsdoRequest client target op env drive s) := by
  unfold execUsdoRequest
  exact (Runs.next (Keeps.ite (keeps_usdoRequest _ _ _ _ _ (Sub.trans (by decide) hL) (keeps_modOde _ (Sub.trans (by decide) hL) h)) h))

end Sys2Proof.Laws
end

