-- ==== Sys2Proof/Laws/KeepOdsvc.lean ====
section
/-! SUPPORT. What the operations of Machine/Odsvc.lean may change, and what they keep (see Keeps.lean). -/

namespace Sys2Proof.Laws

open Sys2Proof Sys2Proof.Machine Sys2Proof.Safety

theorem keeps_svcStack {L : List Part} {r s : State} (c : Nat)
    (hL : Sub [.mem, .free] L) (h : Keeps L r s) : Keeps L r (State.svcStack s c) := by
  unfold State.svcStack
  extract_lets +onlyGivenNames -merge -useContext -underBinder x0
  try clear_value x0
  refine Keeps.foldl_range ?_ (Keeps.addFree (hL _ (by decide)) h)
  intro y1 y2 b4 k3
  split
  · exact (keeps_setByte _ _ (Sub.trans (by decide) hL) k3)
  · exact (keeps_setByte _ _ (Sub.trans (by decide) hL) k3)
  · exact k3

theorem keeps_svcReturn {L : List Part} {r s : State} (c : Nat) (code : Nat) (bytes : Nat)
    (hL : Sub [.mem, .free, .core] L) (h : Keeps L r s) : Keeps L r (State.svcReturn s c code bytes) := by
  unfold State.svcReturn
  extract_lets +onlyGivenNames -merge -useContext -underBinder x0
  have k1 : Keeps L r (x0) := (keeps_svcStack _ (Sub.trans (by decide) hL) h)
  try clear_value x0
  extract_lets +onlyGivenNames -merge -useContext -underBinder x2
  try clear_value x2
  extract_lets +onlyGivenNames -merge -useContext -underBinder x3
  try clear_value x3
  extract_lets +onlyGivenNames -merge -useContext -underBinder x4
  try clear_value x4
  extract_lets +onlyGivenNames -merge -useContext -underBinder x5
  try clear_value x5
  extract_lets +onlyGivenNames -merge -useContext -underBinder x6
  try clear_value x6
  exact (keeps_modCore _ _ (Sub.trans (by decide) hL) (Keeps.addFree (hL _ (by decide)) k1))

theorem keeps_svcDone {L : List Part} {r s : State} (c : Nat) (a : SvcArgs) (v3 : OdResult) (own : Bool)
    (hL : Sub [.odeR, .happened, .ode, .mem, .free, .core, .sysR, .writeBack, .cnv, .cnvR, .eng, .engR, .legR, .leg, .attic, .criR, .aisR, .aisle, .trpR, .trip, .knrR, .celR, .crier, .cellar, .ring, .atcR, .stlR, .wdtR, .cmp, .cmpR, .carR, .warranted, .flcR, .flash, .shadows, .car, .dbgR, .clock, .spiR, .uartR, .canR, .iicR, .qepR, .gpioR, .dbg, .spi, .uart, .can, .iic, .qep] L) (h : Keeps L r s) : Keeps L r (State.svcDone s c a v3 own) := by
  unfold State.svcDone
  extract_lets +onlyGivenNames -merge -useContext -underBinder x0
  have k1 : Keeps L r (x0) := (Keeps.ite (keeps_odEnded _ _ _ _ (Sub.trans (by decide) hL) h) h)
  try clear_value x0
  extract_lets +onlyGivenNames -merge -useContext -underBinder x2
  have k3 : Keeps L r (x2) := (keeps_modOde _ (Sub.trans (by decide) hL) k1)
  try clear_value x2
  split
  · refine Keeps.ite ?_ (keeps_svcReturn _ _ _ (Sub.trans (by decide) hL) k3)
    split
    · exact (keeps_svcReturn _ _ _ (Sub.trans (by decide) hL) (Keeps.of_snd (by with_reducible assumption) (keeps_odPoke _ _ _ _ (Sub.trans (by decide) hL) k3)))
    · exact (keeps_svcReturn _ _ _ (Sub.trans (by decide) hL) (Keeps.of_snd (by with_reducible assumption) (keeps_odPoke _ _ _ _ (Sub.trans (by decide) hL) k3)))
  · exact (keeps_svcReturn _ _ _ (Sub.trans (by decide) hL) k3)
  · exact (keeps_modOde _ (Sub.trans (by decide) hL) k3)

theorem keeps_svcStart {L : List Part} {r s : State} (c : Nat) (node : Nat) (a : SvcArgs) (env : List BusEnv) (drive : List (Option (List Word)))
    (hL : Sub [.odeR, .happened, .ode, .mem, .free, .core, .sysR, .writeBack, .cnv, .cnvR, .eng, .engR, .legR, .leg, .attic, .criR, .aisR, .aisle, .trpR, .trip, .knrR, .celR, .crier, .cellar, .ring, .atcR, .stlR, .wdtR, .cmp, .cmpR, .carR, .warranted, .flcR, .flash, .shadows, .car, .dbgR, .clock, .spiR, .uartR, .canR, .iicR, .qepR, .gpioR, .dbg, .spi, .uart, .can, .iic, .qep] L) (h : Keeps L r s) : Keeps L r (State.svcStart s c node a env drive) := by
  unfold State.svcStart
  -- NESTED
  split
  · -- NESTED
    split
    · split
      · refine Keeps.ite ?_ ?_
        · split
          · refine keeps_svcDone _ _ _ _ (Sub.trans (by decide) hL) ?_
            refine Keeps.of_snd (by with_reducible assumption) ?_
            refine keeps_odTransact _ _ _ _ _ _ _ _ _ _ (Sub.trans (by decide) hL) ?_
            refine Keeps.of_snd (by with_reducible assumption) ?_
            refine Keeps2.ite ?_ ?_
            · refine keeps_odBytes _ _ _ _ (Sub.trans (by decide) hL) ?_
              refine Keeps.of_snd (by with_reducible assumption) ?_
              refine Keeps2.ite ?_ (Keeps2.mk h)
              split
              · exact (Keeps2.mk (Keeps.of_snd (by with_reducible assumption) (keeps_odBytes _ _ _ _ (Sub.trans (by decide) hL) h)))
              · exact (Keeps2.mk (Keeps.of_snd (by with_reducible assumption) (keeps_odBytes _ _ _ _ (Sub.trans (by decide) hL) h)))
            · refine Keeps2.mk ?_
              refine Keeps.of_snd (by with_reducible assumption) ?_
              refine Keeps2.ite ?_ (Keeps2.mk h)
              split
              · exact (Keeps2.mk (Keeps.of_snd (by with_reducible assumption) (keeps_odBytes _ _ _ _ (Sub.trans (by decide) hL) h)))
              · exact (Keeps2.mk (Keeps.of_snd (by with_reducible assumption) (keeps_odBytes _ _ _ _ (Sub.trans (by decide) hL) h)))
        · extract_lets +onlyGivenNames -merge -useContext -underBinder x0
          try clear_value x0
          extract_lets +onlyGivenNames -merge -useContext -underBinder x1
          try clear_value x1
          refine keeps_svcDone _ _ _ _ (Sub.trans (by decide) hL) ?_
          refine keeps_ringRequest _ _ _ (Sub.trans (by decide) hL) ?_
          refine Keeps.of_snd (by with_reducible assumption) ?_
          refine Keeps2.ite ?_ ?_
          · refine keeps_odBytes _ _ _ _ (Sub.trans (by decide) hL) ?_
            refine Keeps.of_snd (by with_reducible assumption) ?_
            refine Keeps2.ite ?_ (Keeps2.mk h)
            split
            · exact (Keeps2.mk (Keeps.of_snd (by with_reducible assumption) (keeps_odBytes _ _ _ _ (Sub.trans (by decide) hL) h)))
            · exact (Keeps2.mk (Keeps.of_snd (by with_reducible assumption) (keeps_odBytes _ _ _ _ (Sub.trans (by decide) hL) h)))
          · refine Keeps2.mk ?_
            refine Keeps.of_snd (by with_reducible assumption) ?_
            refine Keeps2.ite ?_ (Keeps2.mk h)
            split
            · exact (Keeps2.mk (Keeps.of_snd (by with_reducible assumption) (keeps_odBytes _ _ _ _ (Sub.trans (by decide) hL) h)))
            · exact (Keeps2.mk (Keeps.of_snd (by with_reducible assumption) (keeps_odBytes _ _ _ _ (Sub.trans (by decide) hL) h)))
      · refine keeps_svcDone _ _ _ _ (Sub.trans (by decide) hL) ?_
        refine Keeps.of_snd (by with_reducible assumption) ?_
        refine Keeps2.ite ?_ ?_
        · refine keeps_odBytes _ _ _ _ (Sub.trans (by decide) hL) ?_
          refine Keeps.of_snd (by with_reducible assumption) ?_
          refine Keeps2.ite ?_ (Keeps2.mk h)
          split
          · exact (Keeps2.mk (Keeps.of_snd (by with_reducible assumption) (keeps_odBytes _ _ _ _ (Sub.trans (by decide) hL) h)))
          · exact (Keeps2.mk (Keeps.of_snd (by with_reducible assumption) (keeps_odBytes _ _ _ _ (Sub.trans (by decide) hL) h)))
        · refine Keeps2.mk ?_
          refine Keeps.of_snd (by with_reducible assumption) ?_
          refine Keeps2.ite ?_ (Keeps2.mk h)
          split
          · exact (Keeps2.mk (Keeps.of_snd (by with_reducible assumption) (keeps_odBytes _ _ _ _ (Sub.trans (by decide) hL) h)))
          · exact (Keeps2.mk (Keeps.of_snd (by with_reducible assumption) (keeps_odBytes _ _ _ _ (Sub.trans (by decide) hL) h)))
      · refine keeps_svcDone _ _ _ _ (Sub.trans (by decide) hL) ?_
        refine Keeps.of_snd (by with_reducible assumption) ?_
        refine Keeps2.ite ?_ ?_
        · refine keeps_odBytes _ _ _ _ (Sub.trans (by decide) hL) ?_
          refine Keeps.of_snd (by with_reducible assumption) ?_
          refine Keeps2.ite ?_ (Keeps2.mk h)
          split
          · exact (Keeps2.mk (Keeps.of_snd (by with_reducible assumption) (keeps_odBytes _ _ _ _ (Sub.trans (by decide) hL) h)))
          · exact (Keeps2.mk (Keeps.of_snd (by with_reducible assumption) (keeps_odBytes _ _ _ _ (Sub.trans (by decide) hL) h)))
        · refine Keeps2.mk ?_
          refine Keeps.of_snd (by with_reducible assumption) ?_
          refine Keeps2.ite ?_ (Keeps2.mk h)
          split
          · exact (Keeps2.mk (Keeps.of_snd (by with_reducible assumption) (keeps_odBytes _ _ _ _ (Sub.trans (by decide) hL) h)))
          · exact (Keeps2.mk (Keeps.of_snd (by with_reducible assumption) (keeps_odBytes _ _ _ _ (Sub.trans (by decide) hL) h)))

theorem keeps_execOdsvc {L : List Part} {r s : State} (c : Fin 4) (node : BitVec 7) (env : List BusEnv) (drive : List (Option (List Word)))
    (hL : Sub [.core, .sysR, .happened, .criR, .celR, .cellar, .ode, .wdtR, .dbgR, .dbg, .writeBack, .mem, .odeR, .free, .cnv, .cnvR, .eng, .engR, .legR, .leg, .attic, .aisR, .aisle, .trpR, .trip, .knrR, .crier, .ring, .atcR, .stlR, .cmp, .cmpR, .carR, .warranted, .flcR, .flash, .shadows, .car, .clock, .spiR, .uartR, .canR, .iicR, .qepR, .gpioR, .spi, .uart, .can, .iic, .qep] L) (h : Keeps L r s) : Runs L r (execOdsvc c node env drive s) := by
  unfold execOdsvc
  refine Runs.next ?_
  refine Keeps.ite h ?_
  refine keeps_settled _ _ (Sub.trans (by decide) hL) h ?_
  intro y0 k1
  extract_lets +onlyGivenNames -merge -useContext -underBinder x2
  have k3 : Keeps L r (x2) := (keeps_modCore _ _ (Sub.trans (by decide) hL) k1)
  try clear_value x2
  extract_lets +onlyGivenNames -merge -useContext -underBinder x4
  try clear_value x4
  refine Keeps.ite (keeps_raise _ _ _ (Sub.trans (by decide) hL) k3) ?_
  split
  · refine Keeps.ite (Keeps.of_snd (by with_reducible assumption) (keeps_drainStores _ _ (Sub.trans (by decide) hL) k3)) ?_
    split
    · split
      · exact (keeps_svcDone _ _ _ _ (Sub.trans (by decide) hL) (keeps_odTaken _ (Sub.trans (by decide) hL) (Keeps.of_snd (by with_reducible assumption) (keeps_drainStores _ _ (Sub.trans (by decide) hL) k3))))
      · exact (Keeps.of_snd (by with_reducible assumption) (keeps_drainStores _ _ (Sub.trans (by decide) hL) k3))
    · exact (keeps_svcStart _ _ _ _ _ (Sub.trans (by decide) hL) (Keeps.of_snd (by with_reducible assumption) (keeps_drainStores _ _ (Sub.trans (by decide) hL) k3)))

end Sys2Proof.Laws
end

