-- ==== Sys2Proof/Laws/Exec.lean ====
section
/-! SUPPORT. Every command answers a next state, changes no part of the state but those that `touches` lists, and keeps what
Keeps.lean names. -/

namespace Sys2Proof.Laws

open Sys2Proof Sys2Proof.Machine Sys2Proof.Safety

set_option Elab.async false

theorem runs_registerWrite (σ : State) (a : Access) : Runs (touches (.registerWrite a)) σ (exec (.registerWrite a) σ) :=
  show Runs _ σ (execRegisterWrite a σ) from keeps_execRegisterWrite a (by show Sub _ (allParts.filter (· ∉ [.now, .readData, .options, .replay])); decide +kernel) (Keeps.refl σ)
theorem runs_eccWriteBack (σ : State) (addr : Nat) : Runs (touches (.eccWriteBack addr)) σ (exec (.eccWriteBack addr) σ) :=
  show Runs _ σ (execEccWriteBack addr σ) from keeps_execEccWriteBack addr (by show Sub _ [.writeBack]; decide +kernel) (Keeps.refl σ)
theorem runs_eccClear (σ : State) (init : Fin 16) (value : Word) : Runs (touches (.eccClear init value)) σ (exec (.eccClear init value) σ) :=
  show Runs _ σ (execEccClear init value σ) from keeps_execEccClear init value (by show Sub _ [.happened, .sysR]; decide +kernel) (Keeps.refl σ)
theorem runs_accessAcknowledge (σ : State) (c : Fin 4) : Runs (touches (.accessAcknowledge c)) σ (exec (.accessAcknowledge c) σ) :=
  show Runs _ σ (execAccessAcknowledge c σ) from keeps_execAccessAcknowledge c (by show Sub _ [.happened, .cellar, .ode, .core, .dbg, .sysR, .criR, .celR, .wdtR, .dbgR]; decide +kernel) (Keeps.refl σ)
theorem runs_zero (σ : State) (g : Fin 12) : Runs (touches (.zero g)) σ (exec (.zero g) σ) :=
  show Runs _ σ (execZero g σ) from keeps_execZero g (by show Sub _ [.now, .free, .mem, .happened, .cellar, .crier, .aisle, .car, .leg, .cmp, .cnv, .eng, .trip, .ring, .attic, .aisR, .carR, .stlR, .cnvR, .cmpR, .legR, .engR, .trpR, .celR, .wdtR, .knrR, .atcR]; decide +kernel) (Keeps.refl σ)
theorem runs_period (σ : State) (g : Fin 12) : Runs (touches (.period g)) σ (exec (.period g) σ) :=
  show Runs _ σ (execPeriod g σ) from keeps_execPeriod g (by show Sub _ [.now, .mem, .happened, .cellar, .crier, .aisle, .car, .leg, .cmp, .cnv, .eng, .trip, .ring, .attic, .aisR, .carR, .stlR, .cnvR, .cmpR, .legR, .engR, .trpR, .celR, .wdtR, .knrR, .atcR]; decide +kernel) (Keeps.refl σ)
theorem runs_evaUp (σ : State) (g : Fin 12) : Runs (touches (.evaUp g)) σ (exec (.evaUp g) σ) :=
  show Runs _ σ (execEvaUp g σ) from keeps_execEvaUp g (by show Sub _ [.now, .mem, .happened, .cellar, .crier, .aisle, .car, .leg, .cmp, .cnv, .eng, .trip, .ring, .attic, .aisR, .stlR, .cnvR, .cmpR, .legR, .engR, .trpR, .celR, .wdtR, .knrR, .atcR]; decide +kernel) (Keeps.refl σ)
theorem runs_evaDn (σ : State) (g : Fin 12) : Runs (touches (.evaDn g)) σ (exec (.evaDn g) σ) :=
  show Runs _ σ (execEvaDn g σ) from keeps_execEvaDn g (by show Sub _ [.now, .mem, .happened, .cellar, .crier, .aisle, .car, .leg, .cmp, .cnv, .eng, .trip, .ring, .attic, .aisR, .stlR, .cnvR, .cmpR, .legR, .engR, .trpR, .celR, .wdtR, .knrR, .atcR]; decide +kernel) (Keeps.refl σ)
theorem runs_evbUp (σ : State) (g : Fin 12) : Runs (touches (.evbUp g)) σ (exec (.evbUp g) σ) :=
  show Runs _ σ (execEvbUp g σ) from keeps_execEvbUp g (by show Sub _ [.now, .mem, .happened, .cellar, .crier, .aisle, .car, .leg, .cmp, .cnv, .eng, .trip, .ring, .attic, .aisR, .stlR, .cnvR, .cmpR, .legR, .engR, .trpR, .celR, .wdtR, .knrR, .atcR]; decide +kernel) (Keeps.refl σ)
theorem runs_evbDn (σ : State) (g : Fin 12) : Runs (touches (.evbDn g)) σ (exec (.evbDn g) σ) :=
  show Runs _ σ (execEvbDn g σ) from keeps_execEvbDn g (by show Sub _ [.now, .mem, .happened, .cellar, .crier, .aisle, .car, .leg, .cmp, .cnv, .eng, .trip, .ring, .attic, .aisR, .stlR, .cnvR, .cmpR, .legR, .engR, .trpR, .celR, .wdtR, .knrR, .atcR]; decide +kernel) (Keeps.refl σ)
theorem runs_lockedCarrierStart (σ : State) (g : Fin 12) : Runs (touches (.lockedCarrierStart g)) σ (exec (.lockedCarrierStart g) σ) :=
  show Runs _ σ (execLockedCarrierStart g σ) from keeps_execLockedCarrierStart g (by show Sub _ [.now, .free, .mem, .happened, .cellar, .crier, .aisle, .car, .leg, .cmp, .cnv, .eng, .trip, .ring, .attic, .aisR, .carR, .stlR, .cnvR, .cmpR, .legR, .engR, .trpR, .celR, .wdtR, .knrR, .atcR]; decide +kernel) (Keeps.refl σ)
theorem runs_sgFire (σ : State) (init : Fin 16) (a : Fin 3) (groups : BitVec 4) : Runs (touches (.sgFire init a groups)) σ (exec (.sgFire init a groups) σ) :=
  show Runs _ σ (execSgFire init a groups σ) from keeps_execSgFire init a groups (by show Sub _ [.happened, .aisle, .cnv, .sysR, .aisR, .cnvR]; decide +kernel) (Keeps.refl σ)
theorem runs_sgClr (σ : State) (init : Fin 16) (a : Fin 3) (groups : BitVec 4) : Runs (touches (.sgClr init a groups)) σ (exec (.sgClr init a groups) σ) :=
  show Runs _ σ (execSgClr init a groups σ) from keeps_execSgClr init a groups (by show Sub _ [.happened, .sysR, .aisR]; decide +kernel) (Keeps.refl σ)
theorem runs_blkClr (σ : State) (init : Fin 16) (a : Fin 3) (channels : BitVec 8) : Runs (touches (.blkClr init a channels)) σ (exec (.blkClr init a channels) σ) :=
  show Runs _ σ (execBlkClr init a channels σ) from keeps_execBlkClr init a channels (by show Sub _ [.happened, .sysR, .aisR]; decide +kernel) (Keeps.refl σ)
theorem runs_blankingMaxlen (σ : State) (a : Fin 3) (b : Fin 8) : Runs (touches (.blankingMaxlen a b)) σ (exec (.blankingMaxlen a b) σ) :=
  show Runs _ σ (execBlankingMaxlen a b σ) from keeps_execBlankingMaxlen a b (by show Sub _ [.now, .mem, .happened, .cellar, .crier, .aisle, .cmp, .trip, .ring, .attic, .aisR, .stlR, .cmpR, .trpR, .celR, .wdtR, .knrR, .atcR]; decide +kernel) (Keeps.refl σ)
theorem runs_phaseMeasurement (σ : State) (a : Fin 3) (lag : Fin 65) : Runs (touches (.phaseMeasurement a lag)) σ (exec (.phaseMeasurement a lag) σ) :=
  show Runs _ σ (execPhaseMeasurement a lag σ) from keeps_execPhaseMeasurement a lag (by show Sub _ [.aisle, .aisR]; decide +kernel) (Keeps.refl σ)
theorem runs_phaseValidExpiry (σ : State) (a : Fin 3) : Runs (touches (.phaseValidExpiry a)) σ (exec (.phaseValidExpiry a) σ) :=
  show Runs _ σ (execPhaseValidExpiry a σ) from keeps_execPhaseValidExpiry a (by show Sub _ [.now, .aisR]; decide +kernel) (Keeps.refl σ)
theorem runs_aperture (σ : State) (s0 : Fin 12) (v : Sample) : Runs (touches (.aperture s0 v)) σ (exec (.aperture s0 v) σ) :=
  show Runs _ σ (execAperture s0 v σ) from keeps_execAperture s0 v (by show Sub _ [.now, .free, .cnv]; decide +kernel) (Keeps.refl σ)
theorem runs_rawCode (σ : State) (s0 : Fin 12) : Runs (touches (.rawCode s0)) σ (exec (.rawCode s0) σ) :=
  show Runs _ σ (execRawCode s0 σ) from keeps_execRawCode s0 (by show Sub _ [.now, .cnv, .aisR, .cnvR]; decide +kernel) (Keeps.refl σ)
theorem runs_correctedResult (σ : State) (s0 : Fin 12) : Runs (touches (.correctedResult s0)) σ (exec (.correctedResult s0) σ) :=
  show Runs _ σ (execCorrectedResult s0 σ) from keeps_execCorrectedResult s0 (by show Sub _ [.now, .happened, .leg, .cnv, .eng, .attic, .aisR, .cnvR, .legR, .engR]; decide +kernel) (Keeps.refl σ)
theorem runs_scanComplete (σ : State) (s0 : Fin 12) : Runs (touches (.scanComplete s0)) σ (exec (.scanComplete s0) σ) :=
  show Runs _ σ (execScanComplete s0 σ) from keeps_execScanComplete s0 (by show Sub _ [.now, .happened, .crier, .leg, .cnv, .eng, .attic, .aisR, .cnvR, .legR, .engR]; decide +kernel) (Keeps.refl σ)
theorem runs_swTrig (σ : State) (init : Fin 16) (s0 : Fin 12) : Runs (touches (.swTrig init s0)) σ (exec (.swTrig init s0) σ) :=
  show Runs _ σ (execSwTrig init s0 σ) from keeps_execSwTrig init s0 (by show Sub _ [.happened, .cnv, .sysR, .aisR, .cnvR]; decide +kernel) (Keeps.refl σ)
theorem runs_startEdge (σ : State) (s0 : Fin 12) (x : PinLevel) : Runs (touches (.startEdge s0 x)) σ (exec (.startEdge s0 x) σ) :=
  show Runs _ σ (execStartEdge s0 x σ) from keeps_execStartEdge s0 x (by show Sub _ [.happened, .cnv, .aisR, .cnvR]; decide +kernel) (Keeps.refl σ)
theorem runs_stopEdge (σ : State) (s0 : Fin 12) (x : PinLevel) : Runs (touches (.stopEdge s0 x)) σ (exec (.stopEdge s0 x) σ) :=
  show Runs _ σ (execStopEdge s0 x σ) from keeps_execStopEdge s0 x (by show Sub _ [.cnv, .cnvR]; decide +kernel) (Keeps.refl σ)
theorem runs_stop (σ : State) (init : Fin 16) (s0 : Fin 12) : Runs (touches (.stop init s0)) σ (exec (.stop init s0) σ) :=
  show Runs _ σ (execStop init s0 σ) from keeps_execStop init s0 (by show Sub _ [.happened, .cnv, .sysR, .cnvR]; decide +kernel) (Keeps.refl σ)
theorem runs_backToBackScan (σ : State) (s0 : Fin 12) : Runs (touches (.backToBackScan s0)) σ (exec (.backToBackScan s0) σ) :=
  show Runs _ σ (execBackToBackScan s0 σ) from keeps_execBackToBackScan s0 (by show Sub _ [.now, .cnv, .aisR, .cnvR]; decide +kernel) (Keeps.refl σ)
theorem runs_calZero (σ : State) (init : Fin 16) (s0 : Fin 12) (input : Fin 8) : Runs (touches (.calZero init s0 input)) σ (exec (.calZero init s0 input) σ) :=
  show Runs _ σ (execCalZero init s0 input σ) from keeps_execCalZero init s0 input (by show Sub _ [.happened, .cnv, .sysR, .aisR, .cnvR]; decide +kernel) (Keeps.refl σ)
theorem runs_calFull (σ : State) (init : Fin 16) (s0 : Fin 12) (input : Fin 8) : Runs (touches (.calFull init s0 input)) σ (exec (.calFull init s0 input) σ) :=
  show Runs _ σ (execCalFull init s0 input σ) from keeps_execCalFull init s0 input (by show Sub _ [.happened, .cnv, .sysR, .aisR, .cnvR]; decide +kernel) (Keeps.refl σ)
theorem runs_calibrationEnd (σ : State) (s0 : Fin 12) (codes : CalCodes) : Runs (touches (.calibrationEnd s0 codes)) σ (exec (.calibrationEnd s0 codes) σ) :=
  show Runs _ σ (execCalibrationEnd s0 codes σ) from keeps_execCalibrationEnd s0 codes (by show Sub _ [.now, .free, .cnv, .attic, .aisR, .cnvR]; decide +kernel) (Keeps.refl σ)
theorem runs_diag (σ : State) (init : Fin 16) (s0 : Fin 12) : Runs (touches (.diag init s0)) σ (exec (.diag init s0) σ) :=
  show Runs _ σ (execDiag init s0 σ) from keeps_execDiag init s0 (by show Sub _ [.happened, .cnv, .sysR, .aisR, .cnvR]; decide +kernel) (Keeps.refl σ)
theorem runs_diagScanStart (σ : State) (x : DiagStart) : Runs (touches (.diagScanStart x)) σ (exec (.diagScanStart x) σ) :=
  show Runs _ σ (execDiagScanStart x σ) from keeps_execDiagScanStart x (by show Sub _ [.cnv, .aisR, .cnvR]; decide +kernel) (Keeps.refl σ)
theorem runs_diagScanEnd (σ : State) (s0 : Fin 12) (last : BitVec 16) : Runs (touches (.diagScanEnd s0 last)) σ (exec (.diagScanEnd s0 last) σ) :=
  show Runs _ σ (execDiagScanEnd s0 last σ) from keeps_execDiagScanEnd s0 last (by show Sub _ [.now, .cnv, .aisR, .cnvR]; decide +kernel) (Keeps.refl σ)
theorem runs_selfchk (σ : State) (init : Fin 16) (s0 : Fin 12) : Runs (touches (.selfchk init s0)) σ (exec (.selfchk init s0) σ) :=
  show Runs _ σ (execSelfchk init s0 σ) from keeps_execSelfchk init s0 (by show Sub _ [.happened, .cnv, .sysR, .aisR, .cnvR]; decide +kernel) (Keeps.refl σ)
theorem runs_selfCheckAttempt (σ : State) (s0 : Fin 12) : Runs (touches (.selfCheckAttempt s0)) σ (exec (.selfCheckAttempt s0) σ) :=
  show Runs _ σ (execSelfCheckAttempt s0 σ) from keeps_execSelfCheckAttempt s0 (by show Sub _ [.now, .cnv]; decide +kernel) (Keeps.refl σ)
theorem runs_selfCheckElement (σ : State) (s0 : Fin 12) : Runs (touches (.selfCheckElement s0)) σ (exec (.selfCheckElement s0) σ) :=
  show Runs _ σ (execSelfCheckElement s0 σ) from keeps_execSelfCheckElement s0 (by show Sub _ [.cnv, .aisR, .cnvR]; decide +kernel) (Keeps.refl σ)
theorem runs_selfCheckResult (σ : State) (s0 : Fin 12) (v : Sample) : Runs (touches (.selfCheckResult s0 v)) σ (exec (.selfCheckResult s0 v) σ) :=
  show Runs _ σ (execSelfCheckResult s0 v σ) from keeps_execSelfCheckResult s0 v (by show Sub _ [.now, .cnv, .aisR, .cnvR]; decide +kernel) (Keeps.refl σ)
theorem runs_bgstarved (σ : State) (s0 : Fin 12) : Runs (touches (.bgstarved s0)) σ (exec (.bgstarved s0) σ) :=
  show Runs _ σ (execBgstarved s0 σ) from keeps_execBgstarved s0 (by show Sub _ [.now, .cnvR]; decide +kernel) (Keeps.refl σ)
theorem runs_cnvCntClr (σ : State) (init : Fin 16) (s0 : Fin 12) : Runs (touches (.cnvCntClr init s0)) σ (exec (.cnvCntClr init s0) σ) :=
  show Runs _ σ (execCnvCntClr init s0 σ) from keeps_execCnvCntClr init s0 (by show Sub _ [.happened, .sysR, .cnvR]; decide +kernel) (Keeps.refl σ)
theorem runs_comparatorOutputChange (σ : State) (c : Fin 24) (x : OutputChange) : Runs (touches (.comparatorOutputChange c x)) σ (exec (.comparatorOutputChange c x) σ) :=
  show Runs _ σ (execComparatorOutputChange c x σ) from keeps_execComparatorOutputChange c x (by show Sub _ [.free, .mem, .happened, .cellar, .crier, .aisle, .cmp, .trip, .ring, .attic, .stlR, .cmpR, .trpR, .celR, .wdtR, .knrR, .atcR]; decide +kernel) (Keeps.refl σ)
theorem runs_settlingEnd (σ : State) (c : Fin 24) (v : BallVolts) : Runs (touches (.settlingEnd c v)) σ (exec (.settlingEnd c v) σ) :=
  show Runs _ σ (execSettlingEnd c v σ) from keeps_execSettlingEnd c v (by show Sub _ [.now, .free, .mem, .happened, .cellar, .crier, .aisle, .cmp, .trip, .ring, .attic, .stlR, .cmpR, .trpR, .celR, .wdtR, .knrR, .atcR]; decide +kernel) (Keeps.refl σ)
theorem runs_tick (σ : State) (c : Fin 24) : Runs (touches (.tick c)) σ (exec (.tick c) σ) :=
  show Runs _ σ (execTick c σ) from keeps_execTick c (by show Sub _ [.now, .happened, .cmp, .cmpR]; decide +kernel) (Keeps.refl σ)
theorem runs_sampledDecision (σ : State) (c : Fin 24) (v : BallVolts) : Runs (touches (.sampledDecision c v)) σ (exec (.sampledDecision c v) σ) :=
  show Runs _ σ (execSampledDecision c v σ) from keeps_execSampledDecision c v (by show Sub _ [.now, .free, .mem, .happened, .cellar, .crier, .aisle, .cmp, .trip, .ring, .attic, .stlR, .cmpR, .trpR, .celR, .wdtR, .knrR, .atcR]; decide +kernel) (Keeps.refl σ)
theorem runs_cmpRelease (σ : State) (init : Fin 16) (c : Fin 24) : Runs (touches (.cmpRelease init c)) σ (exec (.cmpRelease init c) σ) :=
  show Runs _ σ (execCmpRelease init c σ) from keeps_execCmpRelease init c (by show Sub _ [.mem, .happened, .cellar, .crier, .aisle, .cmp, .trip, .ring, .attic, .sysR, .stlR, .cmpR, .trpR, .celR, .wdtR, .knrR, .atcR]; decide +kernel) (Keeps.refl σ)
theorem runs_flagRel (σ : State) (init : Fin 16) (c : Fin 24) (flags : BitVec 4) : Runs (touches (.flagRel init c flags)) σ (exec (.flagRel init c flags) σ) :=
  show Runs _ σ (execFlagRel init c flags σ) from keeps_execFlagRel init c flags (by show Sub _ [.happened, .sysR, .cmpR]; decide +kernel) (Keeps.refl σ)
theorem runs_cmpCntClr (σ : State) (init : Fin 16) (c : Fin 24) : Runs (touches (.cmpCntClr init c)) σ (exec (.cmpCntClr init c) σ) :=
  show Runs _ σ (execCmpCntClr init c σ) from keeps_execCmpCntClr init c (by show Sub _ [.happened, .sysR, .cmpR]; decide +kernel) (Keeps.refl σ)
theorem runs_armingStateArrival (σ : State) (a : Fin 3) : Runs (touches (.armingStateArrival a)) σ (exec (.armingStateArrival a) σ) :=
  show Runs _ σ (execArmingStateArrival a σ) from keeps_execArmingStateArrival a (by show Sub _ [.mem, .happened, .cellar, .crier, .aisle, .leg, .cmp, .trip, .ring, .attic, .stlR, .cmpR, .legR, .trpR, .celR, .wdtR, .knrR, .atcR]; decide +kernel) (Keeps.refl σ)
theorem runs_carCntClr (σ : State) (init : Fin 16) (g : Fin 12) : Runs (touches (.carCntClr init g)) σ (exec (.carCntClr init g) σ) :=
  show Runs _ σ (execCarCntClr init g σ) from keeps_execCarCntClr init g (by show Sub _ [.happened, .sysR, .carR]; decide +kernel) (Keeps.refl σ)
theorem runs_shadowWrite (σ : State) (init : Fin 16) (l : Fin 48) (k : Fin 4) (value : Word) : Runs (touches (.shadowWrite init l k value)) σ (exec (.shadowWrite init l k value) σ) :=
  show Runs _ σ (execShadowWrite init l k value σ) from keeps_execShadowWrite init l k value (by show Sub _ [.warranted, .happened, .leg, .eng, .attic, .sysR, .legR, .engR]; decide +kernel) (Keeps.refl σ)
theorem runs_commit (σ : State) (init : Fin 16) (l : Fin 48) : Runs (touches (.commit init l)) σ (exec (.commit init l) σ) :=
  show Runs _ σ (execCommit init l σ) from keeps_execCommit init l (by show Sub _ [.happened, .leg, .eng, .attic, .sysR, .legR, .engR]; decide +kernel) (Keeps.refl σ)
theorem runs_gcommit (σ : State) (init : Fin 16) (l : Fin 48) (mask : Word) : Runs (touches (.gcommit init l mask)) σ (exec (.gcommit init l mask) σ) :=
  show Runs _ σ (execGcommit init l mask σ) from keeps_execGcommit init l mask (by show Sub _ [.happened, .leg, .eng, .attic, .sysR, .legR, .engR]; decide +kernel) (Keeps.refl σ)
theorem runs_legCntClr (σ : State) (init : Fin 16) (l : Fin 48) : Runs (touches (.legCntClr init l)) σ (exec (.legCntClr init l) σ) :=
  show Runs _ σ (execLegCntClr init l σ) from keeps_execLegCntClr init l (by show Sub _ [.happened, .leg, .eng, .attic, .sysR, .legR, .engR]; decide +kernel) (Keeps.refl σ)
theorem runs_compareEdge (σ : State) (l : Fin 48) : Runs (touches (.compareEdge l)) σ (exec (.compareEdge l) σ) :=
  show Runs _ σ (execCompareEdge l σ) from keeps_execCompareEdge l (by show Sub _ [.now, .happened, .leg, .eng, .attic, .legR, .engR]; decide +kernel) (Keeps.refl σ)
theorem runs_deadTimeEnd (σ : State) (l : Fin 48) : Runs (touches (.deadTimeEnd l)) σ (exec (.deadTimeEnd l) σ) :=
  show Runs _ σ (execDeadTimeEnd l σ) from keeps_execDeadTimeEnd l (by show Sub _ [.now, .leg, .legR]; decide +kernel) (Keeps.refl σ)
theorem runs_tripinEdge (σ : State) (i0 : Fin 8) (x : BallLevel) : Runs (touches (.tripinEdge i0 x)) σ (exec (.tripinEdge i0 x) σ) :=
  show Runs _ σ (execTripinEdge i0 x σ) from keeps_execTripinEdge i0 x (by show Sub _ [.mem, .happened, .cellar, .crier, .aisle, .trip, .ring, .attic, .stlR, .trpR, .celR, .wdtR, .knrR, .atcR]; decide +kernel) (Keeps.refl σ)
theorem runs_tripSourceActive (σ : State) (i0 : Fin 46) : Runs (touches (.tripSourceActive i0)) σ (exec (.tripSourceActive i0) σ) :=
  show Runs _ σ (execTripSourceActive i0 σ) from keeps_execTripSourceActive i0 (by show Sub _ [.mem, .happened, .cellar, .crier, .aisle, .trip, .ring, .attic, .stlR, .trpR, .celR, .wdtR, .knrR, .atcR]; decide +kernel) (Keeps.refl σ)
theorem runs_groupStateArrival (σ : State) (q : Fin 16) (a : Fin 3) : Runs (touches (.groupStateArrival q a)) σ (exec (.groupStateArrival q a) σ) :=
  show Runs _ σ (execGroupStateArrival q a σ) from keeps_execGroupStateArrival q a (by show Sub _ [.aisle, .leg, .legR, .trpR]; decide +kernel) (Keeps.refl σ)
theorem runs_trpRelease (σ : State) (init : Fin 16) (mask : BitVec 16) : Runs (touches (.trpRelease init mask)) σ (exec (.trpRelease init mask) σ) :=
  show Runs _ σ (execTrpRelease init mask σ) from keeps_execTrpRelease init mask (by show Sub _ [.mem, .happened, .cellar, .crier, .aisle, .trip, .ring, .attic, .sysR, .stlR, .trpR, .celR, .wdtR, .knrR, .atcR]; decide +kernel) (Keeps.refl σ)
theorem runs_trpCntClr (σ : State) (init : Fin 16) : Runs (touches (.trpCntClr init)) σ (exec (.trpCntClr init) σ) :=
  show Runs _ σ (execTrpCntClr init σ) from keeps_execTrpCntClr init (by show Sub _ [.happened, .sysR, .trpR]; decide +kernel) (Keeps.refl σ)
theorem runs_swtrip (σ : State) (init : Fin 16) (value : Word) : Runs (touches (.swtrip init value)) σ (exec (.swtrip init value) σ) :=
  show Runs _ σ (execSwtrip init value σ) from keeps_execSwtrip init value (by show Sub _ [.warranted, .mem, .happened, .cellar, .crier, .aisle, .trip, .ring, .attic, .sysR, .stlR, .trpR, .celR, .wdtR, .knrR, .atcR]; decide +kernel) (Keeps.refl σ)
theorem runs_start (σ : State) (init : Fin 16) (e : Fin 12) : Runs (touches (.start init e)) σ (exec (.start init e) σ) :=
  show Runs _ σ (execStart init e σ) from keeps_execStart init e (by show Sub _ [.happened, .leg, .eng, .attic, .sysR, .legR, .engR]; decide +kernel) (Keeps.refl σ)
theorem runs_engEnd (σ : State) (e : Fin 12) : Runs (touches (.engEnd e)) σ (exec (.engEnd e) σ) :=
  show Runs _ σ (execEngEnd e σ) from keeps_execEngEnd e (by show Sub _ [.now, .happened, .leg, .eng, .attic, .legR, .engR]; decide +kernel) (Keeps.refl σ)
theorem runs_engLd (σ : State) (e : Fin 12) (u : Option LaneUpset) : Runs (touches (.engLd e u)) σ (exec (.engLd e u) σ) :=
  show Runs _ σ (execEngLd e u σ) from keeps_execEngLd e u (by show Sub _ [.now, .happened, .leg, .eng, .attic, .legR, .engR]; decide +kernel) (Keeps.refl σ)
theorem runs_engLdr (σ : State) (e : Fin 12) (u : Option LaneUpset) : Runs (touches (.engLdr e u)) σ (exec (.engLdr e u) σ) :=
  show Runs _ σ (execEngLdr e u σ) from keeps_execEngLdr e u (by show Sub _ [.now, .happened, .leg, .eng, .attic, .legR, .engR]; decide +kernel) (Keeps.refl σ)
theorem runs_engLdm (σ : State) (e : Fin 12) (u : Option LaneUpset) : Runs (touches (.engLdm e u)) σ (exec (.engLdm e u) σ) :=
  show Runs _ σ (execEngLdm e u σ) from keeps_execEngLdm e u (by show Sub _ [.now, .happened, .leg, .eng, .attic, .legR, .engR]; decide +kernel) (Keeps.refl σ)
theorem runs_engMov (σ : State) (e : Fin 12) (u : Option LaneUpset) : Runs (touches (.engMov e u)) σ (exec (.engMov e u) σ) :=
  show Runs _ σ (execEngMov e u σ) from keeps_execEngMov e u (by show Sub _ [.now, .happened, .leg, .eng, .attic, .legR, .engR]; decide +kernel) (Keeps.refl σ)
theorem runs_engLdi (σ : State) (e : Fin 12) (u : Option LaneUpset) : Runs (touches (.engLdi e u)) σ (exec (.engLdi e u) σ) :=
  show Runs _ σ (execEngLdi e u σ) from keeps_execEngLdi e u (by show Sub _ [.now, .happened, .leg, .eng, .attic, .legR, .engR]; decide +kernel) (Keeps.refl σ)
theorem runs_engAdd (σ : State) (e : Fin 12) (u : Option LaneUpset) : Runs (touches (.engAdd e u)) σ (exec (.engAdd e u) σ) :=
  show Runs _ σ (execEngAdd e u σ) from keeps_execEngAdd e u (by show Sub _ [.now, .happened, .leg, .eng, .attic, .legR, .engR]; decide +kernel) (Keeps.refl σ)
theorem runs_engSub (σ : State) (e : Fin 12) (u : Option LaneUpset) : Runs (touches (.engSub e u)) σ (exec (.engSub e u) σ) :=
  show Runs _ σ (execEngSub e u σ) from keeps_execEngSub e u (by show Sub _ [.now, .happened, .leg, .eng, .attic, .legR, .engR]; decide +kernel) (Keeps.refl σ)
theorem runs_engMul (σ : State) (e : Fin 12) (u : Option LaneUpset) : Runs (touches (.engMul e u)) σ (exec (.engMul e u) σ) :=
  show Runs _ σ (execEngMul e u σ) from keeps_execEngMul e u (by show Sub _ [.now, .happened, .leg, .eng, .attic, .legR, .engR]; decide +kernel) (Keeps.refl σ)
theorem runs_engMac (σ : State) (e : Fin 12) (u : Option LaneUpset) : Runs (touches (.engMac e u)) σ (exec (.engMac e u) σ) :=
  show Runs _ σ (execEngMac e u σ) from keeps_execEngMac e u (by show Sub _ [.now, .happened, .leg, .eng, .attic, .legR, .engR]; decide +kernel) (Keeps.refl σ)
theorem runs_engSat (σ : State) (e : Fin 12) (u : Option LaneUpset) : Runs (touches (.engSat e u)) σ (exec (.engSat e u) σ) :=
  show Runs _ σ (execEngSat e u σ) from keeps_execEngSat e u (by show Sub _ [.now, .happened, .leg, .eng, .attic, .legR, .engR]; decide +kernel) (Keeps.refl σ)
theorem runs_engClamp (σ : State) (e : Fin 12) (u : Option LaneUpset) : Runs (touches (.engClamp e u)) σ (exec (.engClamp e u) σ) :=
  show Runs _ σ (execEngClamp e u σ) from keeps_execEngClamp e u (by show Sub _ [.now, .happened, .leg, .eng, .attic, .legR, .engR]; decide +kernel) (Keeps.refl σ)
theorem runs_engAbs (σ : State) (e : Fin 12) (u : Option LaneUpset) : Runs (touches (.engAbs e u)) σ (exec (.engAbs e u) σ) :=
  show Runs _ σ (execEngAbs e u σ) from keeps_execEngAbs e u (by show Sub _ [.now, .happened, .leg, .eng, .attic, .legR, .engR]; decide +kernel) (Keeps.refl σ)
theorem runs_engPi (σ : State) (e : Fin 12) (u : Option LaneUpset) : Runs (touches (.engPi e u)) σ (exec (.engPi e u) σ) :=
  show Runs _ σ (execEngPi e u σ) from keeps_execEngPi e u (by show Sub _ [.now, .happened, .leg, .eng, .attic, .legR, .engR]; decide +kernel) (Keeps.refl σ)
theorem runs_engClarke (σ : State) (e : Fin 12) (u : Option LaneUpset) : Runs (touches (.engClarke e u)) σ (exec (.engClarke e u) σ) :=
  show Runs _ σ (execEngClarke e u σ) from keeps_execEngClarke e u (by show Sub _ [.now, .happened, .leg, .eng, .attic, .legR, .engR]; decide +kernel) (Keeps.refl σ)
theorem runs_engPark (σ : State) (e : Fin 12) (u : Option LaneUpset) : Runs (touches (.engPark e u)) σ (exec (.engPark e u) σ) :=
  show Runs _ σ (execEngPark e u σ) from keeps_execEngPark e u (by show Sub _ [.now, .happened, .leg, .eng, .attic, .legR, .engR]; decide +kernel) (Keeps.refl σ)
theorem runs_engIpark (σ : State) (e : Fin 12) (u : Option LaneUpset) : Runs (touches (.engIpark e u)) σ (exec (.engIpark e u) σ) :=
  show Runs _ σ (execEngIpark e u σ) from keeps_execEngIpark e u (by show Sub _ [.now, .happened, .leg, .eng, .attic, .legR, .engR]; decide +kernel) (Keeps.refl σ)
theorem runs_engSincos (σ : State) (e : Fin 12) (u : Option LaneUpset) : Runs (touches (.engSincos e u)) σ (exec (.engSincos e u) σ) :=
  show Runs _ σ (execEngSincos e u σ) from keeps_execEngSincos e u (by show Sub _ [.now, .happened, .leg, .eng, .attic, .legR, .engR]; decide +kernel) (Keeps.refl σ)
theorem runs_engNco (σ : State) (e : Fin 12) (u : Option LaneUpset) : Runs (touches (.engNco e u)) σ (exec (.engNco e u) σ) :=
  show Runs _ σ (execEngNco e u σ) from keeps_execEngNco e u (by show Sub _ [.now, .happened, .leg, .eng, .attic, .legR, .engR]; decide +kernel) (Keeps.refl σ)
theorem runs_engSvm (σ : State) (e : Fin 12) (u : Option LaneUpset) : Runs (touches (.engSvm e u)) σ (exec (.engSvm e u) σ) :=
  show Runs _ σ (execEngSvm e u σ) from keeps_execEngSvm e u (by show Sub _ [.now, .happened, .leg, .eng, .attic, .legR, .engR]; decide +kernel) (Keeps.refl σ)
theorem runs_engSt (σ : State) (e : Fin 12) (u : Option LaneUpset) : Runs (touches (.engSt e u)) σ (exec (.engSt e u) σ) :=
  show Runs _ σ (execEngSt e u σ) from keeps_execEngSt e u (by show Sub _ [.now, .happened, .leg, .eng, .attic, .legR, .engR]; decide +kernel) (Keeps.refl σ)
theorem runs_engSti (σ : State) (e : Fin 12) (u : Option LaneUpset) : Runs (touches (.engSti e u)) σ (exec (.engSti e u) σ) :=
  show Runs _ σ (execEngSti e u σ) from keeps_execEngSti e u (by show Sub _ [.now, .happened, .leg, .eng, .attic, .legR, .engR]; decide +kernel) (Keeps.refl σ)
theorem runs_engSto (σ : State) (e : Fin 12) (u : Option LaneUpset) : Runs (touches (.engSto e u)) σ (exec (.engSto e u) σ) :=
  show Runs _ σ (execEngSto e u σ) from keeps_execEngSto e u (by show Sub _ [.now, .happened, .leg, .eng, .attic, .legR, .engR]; decide +kernel) (Keeps.refl σ)
theorem runs_engTrip (σ : State) (e : Fin 12) (u : Option LaneUpset) : Runs (touches (.engTrip e u)) σ (exec (.engTrip e u) σ) :=
  show Runs _ σ (execEngTrip e u σ) from keeps_execEngTrip e u (by show Sub _ [.now, .happened, .leg, .eng, .attic, .legR, .engR]; decide +kernel) (Keeps.refl σ)
theorem runs_engMark (σ : State) (e : Fin 12) (u : Option LaneUpset) : Runs (touches (.engMark e u)) σ (exec (.engMark e u) σ) :=
  show Runs _ σ (execEngMark e u σ) from keeps_execEngMark e u (by show Sub _ [.now, .happened, .leg, .eng, .attic, .legR, .engR]; decide +kernel) (Keeps.refl σ)
theorem runs_engBrf (σ : State) (e : Fin 12) (u : Option LaneUpset) : Runs (touches (.engBrf e u)) σ (exec (.engBrf e u) σ) :=
  show Runs _ σ (execEngBrf e u σ) from keeps_execEngBrf e u (by show Sub _ [.now, .happened, .leg, .eng, .attic, .legR, .engR]; decide +kernel) (Keeps.refl σ)
theorem runs_illop (σ : State) (e : Fin 12) (secded : Bool) : Runs (touches (.illop e secded)) σ (exec (.illop e secded) σ) :=
  show Runs _ σ (execIllop e secded σ) from keeps_execIllop e secded (by show Sub _ [.now, .happened, .leg, .eng, .attic, .legR, .engR]; decide +kernel) (Keeps.refl σ)
theorem runs_resultRelease (σ : State) (e : Fin 12) : Runs (touches (.resultRelease e)) σ (exec (.resultRelease e) σ) :=
  show Runs _ σ (execResultRelease e σ) from keeps_execResultRelease e (by show Sub _ [.now, .happened, .crier, .leg, .eng, .attic, .legR, .engR]; decide +kernel) (Keeps.refl σ)
theorem runs_vote (σ : State) (e : Fin 12) : Runs (touches (.vote e)) σ (exec (.vote e) σ) :=
  show Runs _ σ (execVote e σ) from keeps_execVote e (by show Sub _ [.now, .happened, .crier, .leg, .eng, .attic, .legR, .engR]; decide +kernel) (Keeps.refl σ)
theorem runs_deadlineMiss (σ : State) (e : Fin 12) : Runs (touches (.deadlineMiss e)) σ (exec (.deadlineMiss e) σ) :=
  show Runs _ σ (execDeadlineMiss e σ) from keeps_execDeadlineMiss e (by show Sub _ [.now, .happened, .leg, .eng, .attic, .legR, .engR]; decide +kernel) (Keeps.refl σ)
theorem runs_fltRel (σ : State) (init : Fin 16) (e : Fin 12) (faults : BitVec 5) : Runs (touches (.fltRel init e faults)) σ (exec (.fltRel init e faults) σ) :=
  show Runs _ σ (execFltRel init e faults σ) from keeps_execFltRel init e faults (by show Sub _ [.happened, .sysR, .engR]; decide +kernel) (Keeps.refl σ)
theorem runs_tripRel (σ : State) (init : Fin 16) (e : Fin 12) : Runs (touches (.tripRel init e)) σ (exec (.tripRel init e) σ) :=
  show Runs _ σ (execTripRel init e σ) from keeps_execTripRel init e (by show Sub _ [.mem, .happened, .cellar, .crier, .aisle, .eng, .trip, .ring, .attic, .sysR, .stlR, .trpR, .celR, .wdtR, .knrR, .atcR]; decide +kernel) (Keeps.refl σ)
theorem runs_publish (σ : State) (init : Fin 16) (e : Fin 12) : Runs (touches (.publish init e)) σ (exec (.publish init e) σ) :=
  show Runs _ σ (execPublish init e σ) from keeps_execPublish init e (by show Sub _ [.happened, .leg, .eng, .attic, .sysR, .legR, .engR]; decide +kernel) (Keeps.refl σ)
theorem runs_engCntClr (σ : State) (init : Fin 16) (e : Fin 12) : Runs (touches (.engCntClr init e)) σ (exec (.engCntClr init e) σ) :=
  show Runs _ σ (execEngCntClr init e σ) from keeps_execEngCntClr init e (by show Sub _ [.happened, .sysR, .engR]; decide +kernel) (Keeps.refl σ)
theorem runs_ncoPhase (σ : State) (init : Fin 16) (e : Fin 12) (value : Word) : Runs (touches (.ncoPhase init e value)) σ (exec (.ncoPhase init e value) σ) :=
  show Runs _ σ (execNcoPhase init e value σ) from keeps_execNcoPhase init e value (by show Sub _ [.happened, .eng, .sysR, .engR]; decide +kernel) (Keeps.refl σ)
theorem runs_ncoFreq (σ : State) (init : Fin 16) (e : Fin 12) (value : Word) : Runs (touches (.ncoFreq init e value)) σ (exec (.ncoFreq init e value) σ) :=
  show Runs _ σ (execNcoFreq init e value σ) from keeps_execNcoFreq init e value (by show Sub _ [.happened, .eng, .sysR, .engR]; decide +kernel) (Keeps.refl σ)
theorem runs_freeze (σ : State) (init : Fin 16) (e : Fin 12) (value : Word) : Runs (touches (.freeze init e value)) σ (exec (.freeze init e value) σ) :=
  show Runs _ σ (execFreeze init e value σ) from keeps_execFreeze init e value (by show Sub _ [.warranted, .happened, .sysR, .stlR]; decide +kernel) (Keeps.refl σ)
theorem runs_xBcc (σ : State) (c : Fin 4) (cond : Fin 7) (disp : BitVec 8) (ext : Option (BitVec 12)) : Runs (touches (.xBcc c cond disp ext)) σ (exec (.xBcc c cond disp ext) σ) :=
  show Runs _ σ (execXBcc c cond disp ext σ) from keeps_execXBcc c cond disp ext (by show Sub _ [.free, .mem, .happened, .writeBack, .cellar, .crier, .ode, .core, .replay, .dbg, .flash, .sysR, .criR, .flcR, .celR, .wdtR, .dbgR]; decide +kernel) (Keeps.refl σ)
theorem runs_xBra (σ : State) (c : Fin 4) (disp : BitVec 8) (ext : Option (BitVec 12)) : Runs (touches (.xBra c disp ext)) σ (exec (.xBra c disp ext) σ) :=
  show Runs _ σ (execXBra c disp ext σ) from keeps_execXBra c disp ext (by show Sub _ [.free, .mem, .happened, .writeBack, .cellar, .crier, .ode, .core, .replay, .dbg, .flash, .sysR, .criR, .flcR, .celR, .wdtR, .dbgR]; decide +kernel) (Keeps.refl σ)
theorem runs_xJmp (σ : State) (c : Fin 4) (n : Fin 16) : Runs (touches (.xJmp c n)) σ (exec (.xJmp c n) σ) :=
  show Runs _ σ (execXJmp c n σ) from keeps_execXJmp c n (by show Sub _ [.free, .mem, .happened, .writeBack, .cellar, .crier, .ode, .core, .replay, .dbg, .flash, .sysR, .criR, .flcR, .celR, .wdtR, .dbgR]; decide +kernel) (Keeps.refl σ)
theorem runs_xCall (σ : State) (c : Fin 4) (target : BitVec 24) : Runs (touches (.xCall c target)) σ (exec (.xCall c target) σ) :=
  show Runs _ σ (execXCall c target σ) from keeps_execXCall c target (by show Sub _ [.free, .mem, .happened, .writeBack, .cellar, .crier, .ode, .core, .replay, .dbg, .flash, .sysR, .criR, .flcR, .celR, .wdtR, .dbgR]; decide +kernel) (Keeps.refl σ)
theorem runs_xCallr (σ : State) (c : Fin 4) (n : Fin 16) : Runs (touches (.xCallr c n)) σ (exec (.xCallr c n) σ) :=
  show Runs _ σ (execXCallr c n σ) from keeps_execXCallr c n (by show Sub _ [.free, .mem, .happened, .writeBack, .cellar, .crier, .ode, .core, .replay, .dbg, .flash, .sysR, .criR, .flcR, .celR, .wdtR, .dbgR]; decide +kernel) (Keeps.refl σ)
theorem runs_xRet (σ : State) (c : Fin 4) : Runs (touches (.xRet c)) σ (exec (.xRet c) σ) :=
  show Runs _ σ (execXRet c σ) from keeps_execXRet c (by show Sub _ [.free, .mem, .happened, .writeBack, .cellar, .crier, .ode, .core, .replay, .dbg, .flash, .sysR, .criR, .flcR, .celR, .wdtR, .dbgR]; decide +kernel) (Keeps.refl σ)
theorem runs_xReti (σ : State) (c : Fin 4) : Runs (touches (.xReti c)) σ (exec (.xReti c) σ) :=
  show Runs _ σ (execXReti c σ) from keeps_execXReti c (by show Sub _ [.free, .mem, .happened, .writeBack, .cellar, .crier, .ode, .core, .replay, .dbg, .flash, .sysR, .criR, .flcR, .celR, .wdtR, .dbgR]; decide +kernel) (Keeps.refl σ)
theorem runs_xTrap (σ : State) (c : Fin 4) (n : Fin 64) : Runs (touches (.xTrap c n)) σ (exec (.xTrap c n) σ) :=
  show Runs _ σ (execXTrap c n σ) from keeps_execXTrap c n (by show Sub _ [.free, .mem, .happened, .writeBack, .cellar, .crier, .ode, .core, .replay, .dbg, .flash, .sysR, .criR, .flcR, .celR, .wdtR, .dbgR]; decide +kernel) (Keeps.refl σ)
theorem runs_xMov (σ : State) (c : Fin 4) (d n : Fin 16) : Runs (touches (.xMov c d n)) σ (exec (.xMov c d n) σ) :=
  show Runs _ σ (execXMov c d n σ) from keeps_execXMov c d n (by show Sub _ [.free, .mem, .happened, .writeBack, .cellar, .crier, .ode, .core, .replay, .dbg, .flash, .sysR, .criR, .flcR, .celR, .wdtR, .dbgR]; decide +kernel) (Keeps.refl σ)
theorem runs_xMovi (σ : State) (c : Fin 4) (d : Fin 16) (f : BitVec 4) (ext : Option (BitVec 12)) : Runs (touches (.xMovi c d f ext)) σ (exec (.xMovi c d f ext) σ) :=
  show Runs _ σ (execXMovi c d f ext σ) from keeps_execXMovi c d f ext (by show Sub _ [.free, .mem, .happened, .writeBack, .cellar, .crier, .ode, .core, .replay, .dbg, .flash, .sysR, .criR, .flcR, .celR, .wdtR, .dbgR]; decide +kernel) (Keeps.refl σ)
theorem runs_xMovhi (σ : State) (c : Fin 4) (d : Fin 16) (f : BitVec 4) (ext : Option (BitVec 12)) : Runs (touches (.xMovhi c d f ext)) σ (exec (.xMovhi c d f ext) σ) :=
  show Runs _ σ (execXMovhi c d f ext σ) from keeps_execXMovhi c d f ext (by show Sub _ [.free, .mem, .happened, .writeBack, .cellar, .crier, .ode, .core, .replay, .dbg, .flash, .sysR, .criR, .flcR, .celR, .wdtR, .dbgR]; decide +kernel) (Keeps.refl σ)
theorem runs_xAdd (σ : State) (c : Fin 4) (d n : Fin 16) : Runs (touches (.xAdd c d n)) σ (exec (.xAdd c d n) σ) :=
  show Runs _ σ (execXAdd c d n σ) from keeps_execXAdd c d n (by show Sub _ [.free, .mem, .happened, .writeBack, .cellar, .crier, .ode, .core, .replay, .dbg, .flash, .sysR, .criR, .flcR, .celR, .wdtR, .dbgR]; decide +kernel) (Keeps.refl σ)
theorem runs_xAddi (σ : State) (c : Fin 4) (d : Fin 16) (f : BitVec 4) (ext : Option (BitVec 12)) : Runs (touches (.xAddi c d f ext)) σ (exec (.xAddi c d f ext) σ) :=
  show Runs _ σ (execXAddi c d f ext σ) from keeps_execXAddi c d f ext (by show Sub _ [.free, .mem, .happened, .writeBack, .cellar, .crier, .ode, .core, .replay, .dbg, .flash, .sysR, .criR, .flcR, .celR, .wdtR, .dbgR]; decide +kernel) (Keeps.refl σ)
theorem runs_xSub (σ : State) (c : Fin 4) (d n : Fin 16) : Runs (touches (.xSub c d n)) σ (exec (.xSub c d n) σ) :=
  show Runs _ σ (execXSub c d n σ) from keeps_execXSub c d n (by show Sub _ [.free, .mem, .happened, .writeBack, .cellar, .crier, .ode, .core, .replay, .dbg, .flash, .sysR, .criR, .flcR, .celR, .wdtR, .dbgR]; decide +kernel) (Keeps.refl σ)
theorem runs_xCmp (σ : State) (c : Fin 4) (d n : Fin 16) : Runs (touches (.xCmp c d n)) σ (exec (.xCmp c d n) σ) :=
  show Runs _ σ (execXCmp c d n σ) from keeps_execXCmp c d n (by show Sub _ [.free, .mem, .happened, .writeBack, .cellar, .crier, .ode, .core, .replay, .dbg, .flash, .sysR, .criR, .flcR, .celR, .wdtR, .dbgR]; decide +kernel) (Keeps.refl σ)
theorem runs_xAnd (σ : State) (c : Fin 4) (d n : Fin 16) : Runs (touches (.xAnd c d n)) σ (exec (.xAnd c d n) σ) :=
  show Runs _ σ (execXAnd c d n σ) from keeps_execXAnd c d n (by show Sub _ [.free, .mem, .happened, .writeBack, .cellar, .crier, .ode, .core, .replay, .dbg, .flash, .sysR, .criR, .flcR, .celR, .wdtR, .dbgR]; decide +kernel) (Keeps.refl σ)
theorem runs_xOr (σ : State) (c : Fin 4) (d n : Fin 16) : Runs (touches (.xOr c d n)) σ (exec (.xOr c d n) σ) :=
  show Runs _ σ (execXOr c d n σ) from keeps_execXOr c d n (by show Sub _ [.free, .mem, .happened, .writeBack, .cellar, .crier, .ode, .core, .replay, .dbg, .flash, .sysR, .criR, .flcR, .celR, .wdtR, .dbgR]; decide +kernel) (Keeps.refl σ)
theorem runs_xXor (σ : State) (c : Fin 4) (d n : Fin 16) : Runs (touches (.xXor c d n)) σ (exec (.xXor c d n) σ) :=
  show Runs _ σ (execXXor c d n σ) from keeps_execXXor c d n (by show Sub _ [.free, .mem, .happened, .writeBack, .cellar, .crier, .ode, .core, .replay, .dbg, .flash, .sysR, .criR, .flcR, .celR, .wdtR, .dbgR]; decide +kernel) (Keeps.refl σ)
theorem runs_xShl (σ : State) (c : Fin 4) (d n : Fin 16) : Runs (touches (.xShl c d n)) σ (exec (.xShl c d n) σ) :=
  show Runs _ σ (execXShl c d n σ) from keeps_execXShl c d n (by show Sub _ [.free, .mem, .happened, .writeBack, .cellar, .crier, .ode, .core, .replay, .dbg, .flash, .sysR, .criR, .flcR, .celR, .wdtR, .dbgR]; decide +kernel) (Keeps.refl σ)
theorem runs_xShr (σ : State) (c : Fin 4) (d n : Fin 16) : Runs (touches (.xShr c d n)) σ (exec (.xShr c d n) σ) :=
  show Runs _ σ (execXShr c d n σ) from keeps_execXShr c d n (by show Sub _ [.free, .mem, .happened, .writeBack, .cellar, .crier, .ode, .core, .replay, .dbg, .flash, .sysR, .criR, .flcR, .celR, .wdtR, .dbgR]; decide +kernel) (Keeps.refl σ)
theorem runs_xAsr (σ : State) (c : Fin 4) (d n : Fin 16) : Runs (touches (.xAsr c d n)) σ (exec (.xAsr c d n) σ) :=
  show Runs _ σ (execXAsr c d n σ) from keeps_execXAsr c d n (by show Sub _ [.free, .mem, .happened, .writeBack, .cellar, .crier, .ode, .core, .replay, .dbg, .flash, .sysR, .criR, .flcR, .celR, .wdtR, .dbgR]; decide +kernel) (Keeps.refl σ)
theorem runs_xShli (σ : State) (c : Fin 4) (d : Fin 16) (f : BitVec 4) (ext : Option (BitVec 12)) : Runs (touches (.xShli c d f ext)) σ (exec (.xShli c d f ext) σ) :=
  show Runs _ σ (execXShli c d f ext σ) from keeps_execXShli c d f ext (by show Sub _ [.free, .mem, .happened, .writeBack, .cellar, .crier, .ode, .core, .replay, .dbg, .flash, .sysR, .criR, .flcR, .celR, .wdtR, .dbgR]; decide +kernel) (Keeps.refl σ)
theorem runs_xShri (σ : State) (c : Fin 4) (d : Fin 16) (f : BitVec 4) (ext : Option (BitVec 12)) : Runs (touches (.xShri c d f ext)) σ (exec (.xShri c d f ext) σ) :=
  show Runs _ σ (execXShri c d f ext σ) from keeps_execXShri c d f ext (by show Sub _ [.free, .mem, .happened, .writeBack, .cellar, .crier, .ode, .core, .replay, .dbg, .flash, .sysR, .criR, .flcR, .celR, .wdtR, .dbgR]; decide +kernel) (Keeps.refl σ)
theorem runs_xAsri (σ : State) (c : Fin 4) (d : Fin 16) (f : BitVec 4) (ext : Option (BitVec 12)) : Runs (touches (.xAsri c d f ext)) σ (exec (.xAsri c d f ext) σ) :=
  show Runs _ σ (execXAsri c d f ext σ) from keeps_execXAsri c d f ext (by show Sub _ [.free, .mem, .happened, .writeBack, .cellar, .crier, .ode, .core, .replay, .dbg, .flash, .sysR, .criR, .flcR, .celR, .wdtR, .dbgR]; decide +kernel) (Keeps.refl σ)
theorem runs_xNot (σ : State) (c : Fin 4) (d : Fin 16) : Runs (touches (.xNot c d)) σ (exec (.xNot c d) σ) :=
  show Runs _ σ (execXNot c d σ) from keeps_execXNot c d (by show Sub _ [.free, .mem, .happened, .writeBack, .cellar, .crier, .ode, .core, .replay, .dbg, .flash, .sysR, .criR, .flcR, .celR, .wdtR, .dbgR]; decide +kernel) (Keeps.refl σ)
theorem runs_xNeg (σ : State) (c : Fin 4) (d : Fin 16) : Runs (touches (.xNeg c d)) σ (exec (.xNeg c d) σ) :=
  show Runs _ σ (execXNeg c d σ) from keeps_execXNeg c d (by show Sub _ [.free, .mem, .happened, .writeBack, .cellar, .crier, .ode, .core, .replay, .dbg, .flash, .sysR, .criR, .flcR, .celR, .wdtR, .dbgR]; decide +kernel) (Keeps.refl σ)
theorem runs_xAbs (σ : State) (c : Fin 4) (d : Fin 16) : Runs (touches (.xAbs c d)) σ (exec (.xAbs c d) σ) :=
  show Runs _ σ (execXAbs c d σ) from keeps_execXAbs c d (by show Sub _ [.free, .mem, .happened, .writeBack, .cellar, .crier, .ode, .core, .replay, .dbg, .flash, .sysR, .criR, .flcR, .celR, .wdtR, .dbgR]; decide +kernel) (Keeps.refl σ)
theorem runs_xSextb (σ : State) (c : Fin 4) (d : Fin 16) : Runs (touches (.xSextb c d)) σ (exec (.xSextb c d) σ) :=
  show Runs _ σ (execXSextb c d σ) from keeps_execXSextb c d (by show Sub _ [.free, .mem, .happened, .writeBack, .cellar, .crier, .ode, .core, .replay, .dbg, .flash, .sysR, .criR, .flcR, .celR, .wdtR, .dbgR]; decide +kernel) (Keeps.refl σ)
theorem runs_xSexth (σ : State) (c : Fin 4) (d : Fin 16) : Runs (touches (.xSexth c d)) σ (exec (.xSexth c d) σ) :=
  show Runs _ σ (execXSexth c d σ) from keeps_execXSexth c d (by show Sub _ [.free, .mem, .happened, .writeBack, .cellar, .crier, .ode, .core, .replay, .dbg, .flash, .sysR, .criR, .flcR, .celR, .wdtR, .dbgR]; decide +kernel) (Keeps.refl σ)
theorem runs_xZextb (σ : State) (c : Fin 4) (d : Fin 16) : Runs (touches (.xZextb c d)) σ (exec (.xZextb c d) σ) :=
  show Runs _ σ (execXZextb c d σ) from keeps_execXZextb c d (by show Sub _ [.free, .mem, .happened, .writeBack, .cellar, .crier, .ode, .core, .replay, .dbg, .flash, .sysR, .criR, .flcR, .celR, .wdtR, .dbgR]; decide +kernel) (Keeps.refl σ)
theorem runs_xZexth (σ : State) (c : Fin 4) (d : Fin 16) : Runs (touches (.xZexth c d)) σ (exec (.xZexth c d) σ) :=
  show Runs _ σ (execXZexth c d σ) from keeps_execXZexth c d (by show Sub _ [.free, .mem, .happened, .writeBack, .cellar, .crier, .ode, .core, .replay, .dbg, .flash, .sysR, .criR, .flcR, .celR, .wdtR, .dbgR]; decide +kernel) (Keeps.refl σ)
theorem runs_xClz (σ : State) (c : Fin 4) (d : Fin 16) : Runs (touches (.xClz c d)) σ (exec (.xClz c d) σ) :=
  show Runs _ σ (execXClz c d σ) from keeps_execXClz c d (by show Sub _ [.free, .mem, .happened, .writeBack, .cellar, .crier, .ode, .core, .replay, .dbg, .flash, .sysR, .criR, .flcR, .celR, .wdtR, .dbgR]; decide +kernel) (Keeps.refl σ)
theorem runs_xMul (σ : State) (c : Fin 4) (d n : Fin 16) : Runs (touches (.xMul c d n)) σ (exec (.xMul c d n) σ) :=
  show Runs _ σ (execXMul c d n σ) from keeps_execXMul c d n (by show Sub _ [.free, .mem, .happened, .writeBack, .cellar, .crier, .ode, .core, .replay, .dbg, .flash, .sysR, .criR, .flcR, .celR, .wdtR, .dbgR]; decide +kernel) (Keeps.refl σ)
theorem runs_xQmul (σ : State) (c : Fin 4) (d n : Fin 16) : Runs (touches (.xQmul c d n)) σ (exec (.xQmul c d n) σ) :=
  show Runs _ σ (execXQmul c d n σ) from keeps_execXQmul c d n (by show Sub _ [.free, .mem, .happened, .writeBack, .cellar, .crier, .ode, .core, .replay, .dbg, .flash, .sysR, .criR, .flcR, .celR, .wdtR, .dbgR]; decide +kernel) (Keeps.refl σ)
theorem runs_xQmac (σ : State) (c : Fin 4) (d n : Fin 16) : Runs (touches (.xQmac c d n)) σ (exec (.xQmac c d n) σ) :=
  show Runs _ σ (execXQmac c d n σ) from keeps_execXQmac c d n (by show Sub _ [.free, .mem, .happened, .writeBack, .cellar, .crier, .ode, .core, .replay, .dbg, .flash, .sysR, .criR, .flcR, .celR, .wdtR, .dbgR]; decide +kernel) (Keeps.refl σ)
theorem runs_xDivs (σ : State) (c : Fin 4) (d n : Fin 16) : Runs (touches (.xDivs c d n)) σ (exec (.xDivs c d n) σ) :=
  show Runs _ σ (execXDivs c d n σ) from keeps_execXDivs c d n (by show Sub _ [.free, .mem, .happened, .writeBack, .cellar, .crier, .ode, .core, .replay, .dbg, .flash, .sysR, .criR, .flcR, .celR, .wdtR, .dbgR]; decide +kernel) (Keeps.refl σ)
theorem runs_xDivu (σ : State) (c : Fin 4) (d n : Fin 16) : Runs (touches (.xDivu c d n)) σ (exec (.xDivu c d n) σ) :=
  show Runs _ σ (execXDivu c d n σ) from keeps_execXDivu c d n (by show Sub _ [.free, .mem, .happened, .writeBack, .cellar, .crier, .ode, .core, .replay, .dbg, .flash, .sysR, .criR, .flcR, .celR, .wdtR, .dbgR]; decide +kernel) (Keeps.refl σ)
theorem runs_xDadd (σ : State) (c : Fin 4) (d n : Fin 16) : Runs (touches (.xDadd c d n)) σ (exec (.xDadd c d n) σ) :=
  show Runs _ σ (execXDadd c d n σ) from keeps_execXDadd c d n (by show Sub _ [.free, .mem, .happened, .writeBack, .cellar, .crier, .ode, .core, .replay, .dbg, .flash, .sysR, .criR, .flcR, .celR, .wdtR, .dbgR]; decide +kernel) (Keeps.refl σ)
theorem runs_xDaddC (σ : State) (c : Fin 4) (d n : Fin 16) : Runs (touches (.xDaddC c d n)) σ (exec (.xDaddC c d n) σ) :=
  show Runs _ σ (execXDaddC c d n σ) from keeps_execXDaddC c d n (by show Sub _ [.free, .mem, .happened, .writeBack, .cellar, .crier, .ode, .core, .replay, .dbg, .flash, .sysR, .criR, .flcR, .celR, .wdtR, .dbgR]; decide +kernel) (Keeps.refl σ)
theorem runs_xDsub (σ : State) (c : Fin 4) (d n : Fin 16) : Runs (touches (.xDsub c d n)) σ (exec (.xDsub c d n) σ) :=
  show Runs _ σ (execXDsub c d n σ) from keeps_execXDsub c d n (by show Sub _ [.free, .mem, .happened, .writeBack, .cellar, .crier, .ode, .core, .replay, .dbg, .flash, .sysR, .criR, .flcR, .celR, .wdtR, .dbgR]; decide +kernel) (Keeps.refl σ)
theorem runs_xDsubC (σ : State) (c : Fin 4) (d n : Fin 16) : Runs (touches (.xDsubC c d n)) σ (exec (.xDsubC c d n) σ) :=
  show Runs _ σ (execXDsubC c d n σ) from keeps_execXDsubC c d n (by show Sub _ [.free, .mem, .happened, .writeBack, .cellar, .crier, .ode, .core, .replay, .dbg, .flash, .sysR, .criR, .flcR, .celR, .wdtR, .dbgR]; decide +kernel) (Keeps.refl σ)
theorem runs_xDadj (σ : State) (c : Fin 4) (d : Fin 16) : Runs (touches (.xDadj c d)) σ (exec (.xDadj c d) σ) :=
  show Runs _ σ (execXDadj c d σ) from keeps_execXDadj c d (by show Sub _ [.free, .mem, .happened, .writeBack, .cellar, .crier, .ode, .core, .replay, .dbg, .flash, .sysR, .criR, .flcR, .celR, .wdtR, .dbgR]; decide +kernel) (Keeps.refl σ)
theorem runs_xDcmp (σ : State) (c : Fin 4) (d n : Fin 16) : Runs (touches (.xDcmp c d n)) σ (exec (.xDcmp c d n) σ) :=
  show Runs _ σ (execXDcmp c d n σ) from keeps_execXDcmp c d n (by show Sub _ [.free, .mem, .happened, .writeBack, .cellar, .crier, .ode, .core, .replay, .dbg, .flash, .sysR, .criR, .flcR, .celR, .wdtR, .dbgR]; decide +kernel) (Keeps.refl σ)
theorem runs_xD2b (σ : State) (c : Fin 4) (d : Fin 16) : Runs (touches (.xD2b c d)) σ (exec (.xD2b c d) σ) :=
  show Runs _ σ (execXD2b c d σ) from keeps_execXD2b c d (by show Sub _ [.free, .mem, .happened, .writeBack, .cellar, .crier, .ode, .core, .replay, .dbg, .flash, .sysR, .criR, .flcR, .celR, .wdtR, .dbgR]; decide +kernel) (Keeps.refl σ)
theorem runs_xB2d (σ : State) (c : Fin 4) (d : Fin 16) : Runs (touches (.xB2d c d)) σ (exec (.xB2d c d) σ) :=
  show Runs _ σ (execXB2d c d σ) from keeps_execXB2d c d (by show Sub _ [.free, .mem, .happened, .writeBack, .cellar, .crier, .ode, .core, .replay, .dbg, .flash, .sysR, .criR, .flcR, .celR, .wdtR, .dbgR]; decide +kernel) (Keeps.refl σ)
theorem runs_xLd (σ : State) (c : Fin 4) (d n : Fin 16) (ext : Option (BitVec 12)) (env : BusEnv) : Runs (touches (.xLd c d n ext env)) σ (exec (.xLd c d n ext env) σ) :=
  show Runs _ σ (execXLd c d n ext env σ) from keeps_execXLd c d n ext env (by show Sub _ (allParts.filter (· ∉ [.now, .warranted, .readData, .options, .clock, .aisle, .car, .cmp, .qep, .trip, .ring, .can, .aisR, .carR, .stlR, .cmpR, .trpR, .knrR, .odeR, .atcR, .canR, .iicR, .qepR, .gpioR])); decide +kernel) (Keeps.refl σ)
theorem runs_xSt (σ : State) (c : Fin 4) (d n : Fin 16) (ext : Option (BitVec 12)) (env : BusEnv) : Runs (touches (.xSt c d n ext env)) σ (exec (.xSt c d n ext env) σ) :=
  show Runs _ σ (execXSt c d n ext env σ) from keeps_execXSt c d n ext env (by show Sub _ (allParts.filter (· ∉ [.now, .readData, .options])); decide +kernel) (Keeps.refl σ)
theorem runs_xLoop (σ : State) (c : Fin 4) (n : Fin 16) (disp : BitVec 4) (ext : Option (BitVec 12)) : Runs (touches (.xLoop c n disp ext)) σ (exec (.xLoop c n disp ext) σ) :=
  show Runs _ σ (execXLoop c n disp ext σ) from keeps_execXLoop c n disp ext (by show Sub _ [.free, .mem, .happened, .writeBack, .cellar, .crier, .ode, .core, .replay, .dbg, .flash, .sysR, .criR, .flcR, .celR, .wdtR, .dbgR]; decide +kernel) (Keeps.refl σ)
theorem runs_xLoopImm (σ : State) (c : Fin 4) (count disp : BitVec 4) (ext : Option (BitVec 12)) : Runs (touches (.xLoopImm c count disp ext)) σ (exec (.xLoopImm c count disp ext) σ) :=
  show Runs _ σ (execXLoopImm c count disp ext σ) from keeps_execXLoopImm c count disp ext (by show Sub _ [.free, .mem, .happened, .writeBack, .cellar, .crier, .ode, .core, .replay, .dbg, .flash, .sysR, .criR, .flcR, .celR, .wdtR, .dbgR]; decide +kernel) (Keeps.refl σ)
theorem runs_xLpop (σ : State) (c : Fin 4) : Runs (touches (.xLpop c)) σ (exec (.xLpop c) σ) :=
  show Runs _ σ (execXLpop c σ) from keeps_execXLpop c (by show Sub _ [.free, .mem, .happened, .writeBack, .cellar, .crier, .ode, .core, .replay, .dbg, .flash, .sysR, .criR, .flcR, .celR, .wdtR, .dbgR]; decide +kernel) (Keeps.refl σ)
theorem runs_xLock (σ : State) (c : Fin 4) (n : Fin 8) : Runs (touches (.xLock c n)) σ (exec (.xLock c n) σ) :=
  show Runs _ σ (execXLock c n σ) from keeps_execXLock c n (by show Sub _ [.free, .mem, .happened, .writeBack, .cellar, .crier, .ode, .core, .replay, .dbg, .flash, .sysR, .criR, .flcR, .celR, .wdtR, .dbgR]; decide +kernel) (Keeps.refl σ)
theorem runs_xNop (σ : State) (c : Fin 4) : Runs (touches (.xNop c)) σ (exec (.xNop c) σ) :=
  show Runs _ σ (execXNop c σ) from keeps_execXNop c (by show Sub _ [.free, .mem, .happened, .writeBack, .cellar, .crier, .ode, .core, .replay, .dbg, .flash, .sysR, .criR, .flcR, .celR, .wdtR, .dbgR]; decide +kernel) (Keeps.refl σ)
theorem runs_xWait (σ : State) (c : Fin 4) : Runs (touches (.xWait c)) σ (exec (.xWait c) σ) :=
  show Runs _ σ (execXWait c σ) from keeps_execXWait c (by show Sub _ [.free, .mem, .happened, .writeBack, .cellar, .crier, .ode, .core, .replay, .dbg, .flash, .sysR, .criR, .flcR, .celR, .wdtR, .dbgR]; decide +kernel) (Keeps.refl σ)
theorem runs_xSyncp (σ : State) (c : Fin 4) : Runs (touches (.xSyncp c)) σ (exec (.xSyncp c) σ) :=
  show Runs _ σ (execXSyncp c σ) from keeps_execXSyncp c (by show Sub _ [.free, .mem, .happened, .writeBack, .cellar, .crier, .ode, .core, .replay, .dbg, .flash, .sysR, .criR, .flcR, .celR, .wdtR, .dbgR]; decide +kernel) (Keeps.refl σ)
theorem runs_xSpill (σ : State) (c : Fin 4) (env : List BusEnv) : Runs (touches (.xSpill c env)) σ (exec (.xSpill c env) σ) :=
  show Runs _ σ (execXSpill c env σ) from keeps_execXSpill c env (by show Sub _ (allParts.filter (· ∉ [.now, .readData, .options])); decide +kernel) (Keeps.refl σ)
theorem runs_xFill (σ : State) (c : Fin 4) (env : List BusEnv) : Runs (touches (.xFill c env)) σ (exec (.xFill c env) σ) :=
  show Runs _ σ (execXFill c env σ) from keeps_execXFill c env (by show Sub _ (allParts.filter (· ∉ [.now, .warranted, .readData, .options, .clock, .aisle, .car, .cmp, .qep, .trip, .ring, .can, .aisR, .carR, .stlR, .cmpR, .trpR, .knrR, .odeR, .atcR, .canR, .iicR, .qepR, .gpioR])); decide +kernel) (Keeps.refl σ)
theorem runs_xMfc (σ : State) (c : Fin 4) (d n : Fin 16) (ext : Option (BitVec 12)) : Runs (touches (.xMfc c d n ext)) σ (exec (.xMfc c d n ext) σ) :=
  show Runs _ σ (execXMfc c d n ext σ) from keeps_execXMfc c d n ext (by show Sub _ [.free, .mem, .happened, .writeBack, .cellar, .crier, .ode, .core, .replay, .dbg, .flash, .sysR, .criR, .flcR, .celR, .wdtR, .dbgR]; decide +kernel) (Keeps.refl σ)
theorem runs_xMtc (σ : State) (c : Fin 4) (d n : Fin 16) (ext : Option (BitVec 12)) : Runs (touches (.xMtc c d n ext)) σ (exec (.xMtc c d n ext) σ) :=
  show Runs _ σ (execXMtc c d n ext σ) from keeps_execXMtc c d n ext (by show Sub _ [.free, .warranted, .mem, .happened, .writeBack, .cellar, .crier, .ode, .core, .replay, .dbg, .flash, .sysR, .criR, .flcR, .celR, .wdtR, .dbgR]; decide +kernel) (Keeps.refl σ)
theorem runs_xBmov (σ : State) (c : Fin 4) (n : Fin 16) (rd wr : BusEnv) : Runs (touches (.xBmov c n rd wr)) σ (exec (.xBmov c n rd wr) σ) :=
  show Runs _ σ (execXBmov c n rd wr σ) from keeps_execXBmov c n rd wr (by show Sub _ (allParts.filter (· ∉ [.now, .readData, .options])); decide +kernel) (Keeps.refl σ)
theorem runs_xVmac (σ : State) (c : Fin 4) (d n : Fin 16) (ra rb : BusEnv) : Runs (touches (.xVmac c d n ra rb)) σ (exec (.xVmac c d n ra rb) σ) :=
  show Runs _ σ (execXVmac c d n ra rb σ) from keeps_execXVmac c d n ra rb (by show Sub _ (allParts.filter (· ∉ [.now, .warranted, .readData, .options, .clock, .aisle, .car, .cmp, .qep, .trip, .ring, .can, .aisR, .carR, .stlR, .cmpR, .trpR, .knrR, .odeR, .atcR, .canR, .iicR, .qepR, .gpioR])); decide +kernel) (Keeps.refl σ)
theorem runs_xBcrc (σ : State) (c : Fin 4) (d n : Fin 16) (env : BusEnv) : Runs (touches (.xBcrc c d n env)) σ (exec (.xBcrc c d n env) σ) :=
  show Runs _ σ (execXBcrc c d n env σ) from keeps_execXBcrc c d n env (by show Sub _ (allParts.filter (· ∉ [.now, .warranted, .readData, .options, .clock, .aisle, .car, .cmp, .qep, .trip, .ring, .can, .aisR, .carR, .stlR, .cmpR, .trpR, .knrR, .odeR, .atcR, .canR, .iicR, .qepR, .gpioR])); decide +kernel) (Keeps.refl σ)
theorem runs_lineFetch (σ : State) (c : Fin 4) (a : BitVec 24) (ecc : EccFinding) (parityFails : Nat) : Runs (touches (.lineFetch c a ecc parityFails)) σ (exec (.lineFetch c a ecc parityFails) σ) :=
  show Runs _ σ (execLineFetch c a ecc parityFails σ) from keeps_execLineFetch c a ecc parityFails (by show Sub _ [.free, .happened, .writeBack, .crier, .core, .flash, .sysR, .flcR]; decide +kernel) (Keeps.refl σ)
theorem runs_storeDrain (σ : State) (c : Fin 4) (env : BusEnv) : Runs (touches (.storeDrain c env)) σ (exec (.storeDrain c env) σ) :=
  show Runs _ σ (execStoreDrain c env σ) from keeps_execStoreDrain c env (by show Sub _ [.mem, .happened, .writeBack, .core, .sysR]; decide +kernel) (Keeps.refl σ)
theorem runs_impreciseStoreError (σ : State) (c : Fin 4) (shadowNext : Bool) : Runs (touches (.impreciseStoreError c shadowNext)) σ (exec (.impreciseStoreError c shadowNext) σ) :=
  show Runs _ σ (execImpreciseStoreError c shadowNext σ) from keeps_execImpreciseStoreError c shadowNext (by show Sub _ [.happened, .cellar, .ode, .core, .dbg, .sysR, .criR, .celR, .wdtR, .dbgR]; decide +kernel) (Keeps.refl σ)
theorem runs_parityReplay (σ : State) (x : ReplayMark) : Runs (touches (.parityReplay x)) σ (exec (.parityReplay x) σ) :=
  show Runs _ σ (execParityReplay x σ) from keeps_execParityReplay x (by show Sub _ [.happened, .cellar, .ode, .core, .dbg, .sysR, .criR, .celR, .wdtR, .dbgR]; decide +kernel) (Keeps.refl σ)
theorem runs_interruptEntry (σ : State) (c : Fin 4) (shadowNext : Bool) : Runs (touches (.interruptEntry c shadowNext)) σ (exec (.interruptEntry c shadowNext) σ) :=
  show Runs _ σ (execInterruptEntry c shadowNext σ) from keeps_execInterruptEntry c shadowNext (by show Sub _ [.happened, .cellar, .ode, .core, .dbg, .sysR, .criR, .celR, .wdtR, .dbgR]; decide +kernel) (Keeps.refl σ)
theorem runs_maskOverrun (σ : State) (c : Fin 4) (shadowNext : Bool) : Runs (touches (.maskOverrun c shadowNext)) σ (exec (.maskOverrun c shadowNext) σ) :=
  show Runs _ σ (execMaskOverrun c shadowNext σ) from keeps_execMaskOverrun c shadowNext (by show Sub _ [.now, .happened, .cellar, .ode, .core, .dbg, .sysR, .criR, .celR, .wdtR, .dbgR]; decide +kernel) (Keeps.refl σ)
theorem runs_coreReset (σ : State) (c : Fin 4) : Runs (touches (.coreReset c)) σ (exec (.coreReset c) σ) :=
  show Runs _ σ (execCoreReset c σ) from keeps_execCoreReset c (by show Sub _ [.now, .free, .cellar, .core, .dbg, .sysR, .wdtR]; decide +kernel) (Keeps.refl σ)
theorem runs_pulseSource (σ : State) (n : Fin 256) : Runs (touches (.pulseSource n)) σ (exec (.pulseSource n) σ) :=
  show Runs _ σ (execPulseSource n σ) from keeps_execPulseSource n (by show Sub _ [.crier, .criR]; decide +kernel) (Keeps.refl σ)
theorem runs_levelSource (σ : State) (n : Fin 256) : Runs (touches (.levelSource n)) σ (exec (.levelSource n) σ) :=
  show Runs _ σ (execLevelSource n σ) from keeps_execLevelSource n (by show Sub _ [.happened, .leg, .cnv, .eng, .attic, .cnvR, .legR, .engR, .criR]; decide +kernel) (Keeps.refl σ)
theorem runs_pendSet (σ : State) (init : Fin 16) (w : Fin 8) (mask : Word) : Runs (touches (.pendSet init w mask)) σ (exec (.pendSet init w mask) σ) :=
  show Runs _ σ (execPendSet init w mask σ) from keeps_execPendSet init w mask (by show Sub _ [.happened, .sysR, .criR]; decide +kernel) (Keeps.refl σ)
theorem runs_pendClr (σ : State) (init : Fin 16) (w : Fin 8) (mask : Word) : Runs (touches (.pendClr init w mask)) σ (exec (.pendClr init w mask) σ) :=
  show Runs _ σ (execPendClr init w mask σ) from keeps_execPendClr init w mask (by show Sub _ [.happened, .core, .sysR, .criR]; decide +kernel) (Keeps.refl σ)
theorem runs_enSet (σ : State) (init : Fin 16) (w : Fin 8) (mask : Word) : Runs (touches (.enSet init w mask)) σ (exec (.enSet init w mask) σ) :=
  show Runs _ σ (execEnSet init w mask σ) from keeps_execEnSet init w mask (by show Sub _ [.happened, .sysR, .criR]; decide +kernel) (Keeps.refl σ)
theorem runs_enClr (σ : State) (init : Fin 16) (w : Fin 8) (mask : Word) : Runs (touches (.enClr init w mask)) σ (exec (.enClr init w mask) σ) :=
  show Runs _ σ (execEnClr init w mask σ) from keeps_execEnClr init w mask (by show Sub _ [.happened, .core, .sysR, .criR]; decide +kernel) (Keeps.refl σ)
theorem runs_claim (σ : State) (init : Fin 16) (c : Fin 4) (v : Fin 8) (peek : Bool) : Runs (touches (.claim init c v peek)) σ (exec (.claim init c v peek) σ) :=
  show Runs _ σ (execClaim init c v peek σ) from keeps_execClaim init c v peek (by show Sub _ [.happened, .readData, .sysR, .criR]; decide +kernel) (Keeps.refl σ)
theorem runs_complete (σ : State) (init : Fin 16) (c : Fin 4) (v : Fin 8) (value : Word) : Runs (touches (.complete init c v value)) σ (exec (.complete init c v value) σ) :=
  show Runs _ σ (execComplete init c v value σ) from keeps_execComplete init c v value (by show Sub _ [.happened, .crier, .sysR, .criR]; decide +kernel) (Keeps.refl σ)
theorem runs_doorbell (σ : State) (init : Fin 16) (value : Word) : Runs (touches (.doorbell init value)) σ (exec (.doorbell init value) σ) :=
  show Runs _ σ (execDoorbell init value σ) from keeps_execDoorbell init value (by show Sub _ [.happened, .sysR, .criR]; decide +kernel) (Keeps.refl σ)
theorem runs_extCfg (σ : State) (init : Fin 16) (i0 : Fin 8) (value : Word) : Runs (touches (.extCfg init i0 value)) σ (exec (.extCfg init i0 value) σ) :=
  show Runs _ σ (execExtCfg init i0 value σ) from keeps_execExtCfg init i0 value (by show Sub _ [.warranted, .happened, .crier, .sysR, .criR]; decide +kernel) (Keeps.refl σ)
theorem runs_extintEdge (σ : State) (i0 : Fin 8) (x : BallLevel) : Runs (touches (.extintEdge i0 x)) σ (exec (.extintEdge i0 x) σ) :=
  show Runs _ σ (execExtintEdge i0 x σ) from keeps_execExtintEdge i0 x (by show Sub _ [.crier, .criR]; decide +kernel) (Keeps.refl σ)
theorem runs_fqHead (σ : State) (init : Fin 16) (value : Word) : Runs (touches (.fqHead init value)) σ (exec (.fqHead init value) σ) :=
  show Runs _ σ (execFqHead init value σ) from keeps_execFqHead init value (by show Sub _ [.warranted, .happened, .sysR, .flcR]; decide +kernel) (Keeps.refl σ)
theorem runs_descriptorFetch (σ : State) (env : BusEnv) : Runs (touches (.descriptorFetch env)) σ (exec (.descriptorFetch env) σ) :=
  show Runs _ σ (execDescriptorFetch env σ) from keeps_execDescriptorFetch env (by show Sub _ [.free, .warranted, .happened, .writeBack, .crier, .flash, .sysR, .flcR]; decide +kernel) (Keeps.refl σ)
theorem runs_progLines (σ : State) (x : LineSource) : Runs (touches (.progLines x)) σ (exec (.progLines x) σ) :=
  show Runs _ σ (execProgLines x σ) from keeps_execProgLines x (by show Sub _ [.free, .happened, .writeBack, .crier, .flash, .sysR, .flcR]; decide +kernel) (Keeps.refl σ)
theorem runs_eraseSector (σ : State) : Runs (touches (.eraseSector)) σ (exec (.eraseSector) σ) :=
  show Runs _ σ (execEraseSector σ) from keeps_execEraseSector (by show Sub _ [.mem, .flash, .flcR]; decide +kernel) (Keeps.refl σ)
theorem runs_eraseBank (σ : State) : Runs (touches (.eraseBank)) σ (exec (.eraseBank) σ) :=
  show Runs _ σ (execEraseBank σ) from keeps_execEraseBank (by show Sub _ [.mem, .flash, .flcR]; decide +kernel) (Keeps.refl σ)
theorem runs_blankCheck (σ : State) (f : LineFindings) : Runs (touches (.blankCheck f)) σ (exec (.blankCheck f) σ) :=
  show Runs _ σ (execBlankCheck f σ) from keeps_execBlankCheck f (by show Sub _ [.happened, .crier, .flash, .flcR]; decide +kernel) (Keeps.refl σ)
theorem runs_verify (σ : State) (f : LineFindings) (env : BusEnv) : Runs (touches (.verify f env)) σ (exec (.verify f env) σ) :=
  show Runs _ σ (execVerify f env σ) from keeps_execVerify f env (by show Sub _ [.free, .happened, .writeBack, .crier, .flash, .sysR, .flcR]; decide +kernel) (Keeps.refl σ)
theorem runs_optWrite (σ : State) (env : BusEnv) : Runs (touches (.optWrite env)) σ (exec (.optWrite env) σ) :=
  show Runs _ σ (execOptWrite env σ) from keeps_execOptWrite env (by show Sub _ [.free, .happened, .writeBack, .crier, .flash, .sysR, .flcR]; decide +kernel) (Keeps.refl σ)
theorem runs_optErase (σ : State) : Runs (touches (.optErase)) σ (exec (.optErase) σ) :=
  show Runs _ σ (execOptErase σ) from keeps_execOptErase (by show Sub _ [.flash]; decide +kernel) (Keeps.refl σ)
theorem runs_lineProgramEnd (σ : State) (x : LineOutcome) : Runs (touches (.lineProgramEnd x)) σ (exec (.lineProgramEnd x) σ) :=
  show Runs _ σ (execLineProgramEnd x σ) from keeps_execLineProgramEnd x (by show Sub _ [.mem, .happened, .crier, .flash, .flcR]; decide +kernel) (Keeps.refl σ)
theorem runs_descriptorCompletion (σ : State) (failing : Option (Fin 262144)) : Runs (touches (.descriptorCompletion failing)) σ (exec (.descriptorCompletion failing) σ) :=
  show Runs _ σ (execDescriptorCompletion failing σ) from keeps_execDescriptorCompletion failing (by show Sub _ [.mem, .happened, .writeBack, .crier, .flash, .sysR, .flcR]; decide +kernel) (Keeps.refl σ)
theorem runs_flcResume (σ : State) (init : Fin 16) : Runs (touches (.flcResume init)) σ (exec (.flcResume init) σ) :=
  show Runs _ σ (execFlcResume init σ) from keeps_execFlcResume init (by show Sub _ [.happened, .sysR, .flcR]; decide +kernel) (Keeps.refl σ)
theorem runs_suspend (σ : State) (init : Fin 16) : Runs (touches (.suspend init)) σ (exec (.suspend init) σ) :=
  show Runs _ σ (execSuspend init σ) from keeps_execSuspend init (by show Sub _ [.happened, .flash, .sysR]; decide +kernel) (Keeps.refl σ)
theorem runs_resumeErase (σ : State) (init : Fin 16) : Runs (touches (.resumeErase init)) σ (exec (.resumeErase init) σ) :=
  show Runs _ σ (execResumeErase init σ) from keeps_execResumeErase init (by show Sub _ [.happened, .flash, .sysR, .flcR]; decide +kernel) (Keeps.refl σ)
theorem runs_flcCntClr (σ : State) (init : Fin 16) : Runs (touches (.flcCntClr init)) σ (exec (.flcCntClr init) σ) :=
  show Runs _ σ (execFlcCntClr init σ) from keeps_execFlcCntClr init (by show Sub _ [.happened, .sysR, .flcR]; decide +kernel) (Keeps.refl σ)
theorem runs_wpSet (σ : State) (init : Fin 16) (w : Fin 8) (mask : Word) : Runs (touches (.wpSet init w mask)) σ (exec (.wpSet init w mask) σ) :=
  show Runs _ σ (execWpSet init w mask σ) from keeps_execWpSet init w mask (by show Sub _ [.happened, .flash, .sysR, .flcR]; decide +kernel) (Keeps.refl σ)
theorem runs_flashRead (σ : State) (init : Fin 16) (offset : BitVec 24) (fetch : Bool) (ecc : EccFinding) : Runs (touches (.flashRead init offset fetch ecc)) σ (exec (.flashRead init offset fetch ecc) σ) :=
  show Runs _ σ (execFlashRead init offset fetch ecc σ) from keeps_execFlashRead init offset fetch ecc (by show Sub _ [.free, .happened, .readData, .writeBack, .crier, .flash, .sysR, .flcR]; decide +kernel) (Keeps.refl σ)
theorem runs_eraseSuspend (σ : State) : Runs (touches (.eraseSuspend)) σ (exec (.eraseSuspend) σ) :=
  show Runs _ σ (execEraseSuspend σ) from keeps_execEraseSuspend (by show Sub _ [.now, .flash, .flcR]; decide +kernel) (Keeps.refl σ)
theorem runs_eraseResume (σ : State) : Runs (touches (.eraseResume)) σ (exec (.eraseResume) σ) :=
  show Runs _ σ (execEraseResume σ) from keeps_execEraseResume (by show Sub _ [.now, .flash, .flcR]; decide +kernel) (Keeps.refl σ)
theorem runs_scrubRead (σ : State) (ecc : EccFinding) : Runs (touches (.scrubRead ecc)) σ (exec (.scrubRead ecc) σ) :=
  show Runs _ σ (execScrubRead ecc σ) from keeps_execScrubRead ecc (by show Sub _ [.now, .happened, .crier, .flash, .flcR]; decide +kernel) (Keeps.refl σ)
theorem runs_scrubRefresh (σ : State) (gone : Bool) : Runs (touches (.scrubRefresh gone)) σ (exec (.scrubRefresh gone) σ) :=
  show Runs _ σ (execScrubRefresh gone σ) from keeps_execScrubRefresh gone (by show Sub _ [.happened, .crier, .flash, .flcR]; decide +kernel) (Keeps.refl σ)
theorem runs_powerOnReset (σ : State) : Runs (touches (.powerOnReset)) σ (exec (.powerOnReset) σ) :=
  show Runs _ σ (execPowerOnReset σ) from keeps_execPowerOnReset (by show Sub _ allParts; decide +kernel) (Keeps.refl σ)
theorem runs_resetN (σ : State) (x : BallLevel) : Runs (touches (.resetN x)) σ (exec (.resetN x) σ) :=
  show Runs _ σ (execResetN x σ) from keeps_execResetN x (by show Sub _ (allParts.filter (· ∉ [.now, .warranted, .options, .clock, .replay, .dbg, .wdtR, .dbgR])); decide +kernel) (Keeps.refl σ)
theorem runs_supplyMonitor (σ : State) (rail : Fin 4) (below : Bool) : Runs (touches (.supplyMonitor rail below)) σ (exec (.supplyMonitor rail below) σ) :=
  show Runs _ σ (execSupplyMonitor rail below σ) from keeps_execSupplyMonitor rail below (by show Sub _ (allParts.filter (· ∉ [.now, .warranted, .options, .replay, .dbg])); decide +kernel) (Keeps.refl σ)
theorem runs_supWarn (σ : State) (below : Bool) : Runs (touches (.supWarn below)) σ (exec (.supWarn below) σ) :=
  show Runs _ σ (execSupWarn below σ) from keeps_execSupWarn below (by show Sub _ [.celR]; decide +kernel) (Keeps.refl σ)
theorem runs_resetSequence (σ : State) (env : ResetEnv) : Runs (touches (.resetSequence env)) σ (exec (.resetSequence env) σ) :=
  show Runs _ σ (execResetSequence env σ) from keeps_execResetSequence env (by show Sub _ (allParts.filter (· ∉ [.shadows, .readData, .writeBack, .qep, .replay, .spi, .uart, .can, .iic])); decide +kernel) (Keeps.refl σ)
theorem runs_atticIslandUp (σ : State) (env : ResetEnv) : Runs (touches (.atticIslandUp env)) σ (exec (.atticIslandUp env) σ) :=
  show Runs _ σ (execAtticIslandUp env σ) from keeps_execAtticIslandUp env (by show Sub _ (allParts.filter (· ∉ [.now, .shadows, .readData, .writeBack, .options, .clock, .qep, .core, .replay, .spi, .uart, .can, .iic])); decide +kernel) (Keeps.refl σ)
theorem runs_islandReset (σ : State) (island : Fin 16) (env : ResetEnv) : Runs (touches (.islandReset island env)) σ (exec (.islandReset island env) σ) :=
  show Runs _ σ (execIslandReset island env σ) from keeps_execIslandReset island env (by show Sub _ (allParts.filter (· ∉ [.shadows, .readData, .writeBack, .qep, .core, .replay, .spi, .uart, .can, .iic])); decide +kernel) (Keeps.refl σ)
theorem runs_debugReset (σ : State) : Runs (touches (.debugReset)) σ (exec (.debugReset) σ) :=
  show Runs _ σ (execDebugReset σ) from keeps_execDebugReset (by show Sub _ [.cellar, .dbg, .sysR, .celR, .dbgR]; decide +kernel) (Keeps.refl σ)
theorem runs_dbgPowerOn (σ : State) (trstN : Bool) : Runs (touches (.dbgPowerOn trstN)) σ (exec (.dbgPowerOn trstN) σ) :=
  show Runs _ σ (execDbgPowerOn trstN σ) from keeps_execDbgPowerOn trstN (by show Sub _ [.now, .cellar, .dbg, .sysR, .celR, .dbgR]; decide +kernel) (Keeps.refl σ)
theorem runs_hallResetCmd (σ : State) (init : Fin 16) : Runs (touches (.hallResetCmd init)) σ (exec (.hallResetCmd init) σ) :=
  show Runs _ σ (execHallResetCmd init σ) from keeps_execHallResetCmd init (by show Sub _ (allParts.filter (· ∉ [.now, .warranted, .readData, .writeBack, .options, .qep, .replay, .dbg, .flash, .spi, .uart, .can, .iic, .flcR, .spiR, .uartR, .canR, .iicR, .qepR, .gpioR])); decide +kernel) (Keeps.refl σ)
theorem runs_coreResetCmd (σ : State) (init : Fin 16) (target : Fin 16) : Runs (touches (.coreResetCmd init target)) σ (exec (.coreResetCmd init target) σ) :=
  show Runs _ σ (execCoreResetCmd init target σ) from keeps_execCoreResetCmd init target (by show Sub _ (allParts.filter (· ∉ [.now, .warranted, .readData, .writeBack, .options, .qep, .replay, .dbg, .flash, .spi, .uart, .can, .iic, .flcR, .spiR, .uartR, .canR, .iicR, .qepR, .gpioR])); decide +kernel) (Keeps.refl σ)
theorem runs_islandResetCmd (σ : State) (init : Fin 16) (target : Fin 16) : Runs (touches (.islandResetCmd init target)) σ (exec (.islandResetCmd init target) σ) :=
  show Runs _ σ (execIslandResetCmd init target σ) from keeps_execIslandResetCmd init target (by show Sub _ (allParts.filter (· ∉ [.now, .warranted, .readData, .writeBack, .options, .qep, .replay, .dbg, .flash, .spi, .uart, .can, .iic, .flcR, .spiR, .uartR, .canR, .iicR, .qepR, .gpioR])); decide +kernel) (Keeps.refl σ)
theorem runs_snapshot (σ : State) (init : Fin 16) : Runs (touches (.snapshot init)) σ (exec (.snapshot init) σ) :=
  show Runs _ σ (execSnapshot init σ) from keeps_execSnapshot init (by show Sub _ [.mem, .happened, .cellar, .sysR, .celR]; decide +kernel) (Keeps.refl σ)
theorem runs_shutdown (σ : State) (init : Fin 16) : Runs (touches (.shutdown init)) σ (exec (.shutdown init) σ) :=
  show Runs _ σ (execShutdown init σ) from keeps_execShutdown init (by show Sub _ [.mem, .happened, .cellar, .crier, .aisle, .sysR, .stlR, .celR, .wdtR]; decide +kernel) (Keeps.refl σ)
theorem runs_defSave (σ : State) (init : Fin 16) : Runs (touches (.defSave init)) σ (exec (.defSave init) σ) :=
  show Runs _ σ (execDefSave init σ) from keeps_execDefSave init (by show Sub _ [.mem, .happened, .cellar, .sysR, .celR]; decide +kernel) (Keeps.refl σ)
theorem runs_pfailNFall (σ : State) : Runs (touches (.pfailNFall)) σ (exec (.pfailNFall) σ) :=
  show Runs _ σ (execPfailNFall σ) from keeps_execPfailNFall (by show Sub _ [.mem, .happened, .cellar, .crier, .aisle, .stlR, .celR, .wdtR]; decide +kernel) (Keeps.refl σ)
theorem runs_pfailNRise (σ : State) : Runs (touches (.pfailNRise)) σ (exec (.pfailNRise) σ) :=
  show Runs _ σ (execPfailNRise σ) from keeps_execPfailNRise (by show Sub _ [.happened, .cellar, .crier, .aisle, .stlR, .celR, .wdtR]; decide +kernel) (Keeps.refl σ)
theorem runs_snapshotEnd (σ : State) : Runs (touches (.snapshotEnd)) σ (exec (.snapshotEnd) σ) :=
  show Runs _ σ (execSnapshotEnd σ) from keeps_execSnapshotEnd (by show Sub _ [.free, .mem, .happened, .cellar, .crier, .ring, .ode, .celR, .odeR]; decide +kernel) (Keeps.refl σ)
theorem runs_ledgerEntryWrite (σ : State) : Runs (touches (.ledgerEntryWrite)) σ (exec (.ledgerEntryWrite) σ) :=
  show Runs _ σ (execLedgerEntryWrite σ) from keeps_execLedgerEntryWrite (by show Sub _ [.mem, .happened, .cellar, .crier, .celR]; decide +kernel) (Keeps.refl σ)
theorem runs_ledgerClr (σ : State) (init : Fin 16) : Runs (touches (.ledgerClr init)) σ (exec (.ledgerClr init) σ) :=
  show Runs _ σ (execLedgerClr init σ) from keeps_execLedgerClr init (by show Sub _ [.happened, .sysR, .celR]; decide +kernel) (Keeps.refl σ)
theorem runs_celCntClr (σ : State) (init : Fin 16) : Runs (touches (.celCntClr init)) σ (exec (.celCntClr init) σ) :=
  show Runs _ σ (execCelCntClr init σ) from keeps_execCelCntClr init (by show Sub _ [.happened, .sysR, .celR]; decide +kernel) (Keeps.refl σ)
theorem runs_armKeyReady (σ : State) (init : Fin 16) (value : Word) : Runs (touches (.armKeyReady init value)) σ (exec (.armKeyReady init value) σ) :=
  show Runs _ σ (execArmKeyReady init value σ) from keeps_execArmKeyReady init value (by show Sub _ [.happened, .cellar, .crier, .aisle, .sysR, .stlR, .celR, .wdtR]; decide +kernel) (Keeps.refl σ)
theorem runs_armKeyArm (σ : State) (init : Fin 16) (value : Word) : Runs (touches (.armKeyArm init value)) σ (exec (.armKeyArm init value) σ) :=
  show Runs _ σ (execArmKeyArm init value σ) from keeps_execArmKeyArm init value (by show Sub _ [.happened, .cellar, .crier, .aisle, .sysR, .stlR, .celR, .wdtR]; decide +kernel) (Keeps.refl σ)
theorem runs_armWindowExpiry (σ : State) : Runs (touches (.armWindowExpiry)) σ (exec (.armWindowExpiry) σ) :=
  show Runs _ σ (execArmWindowExpiry σ) from keeps_execArmWindowExpiry (by show Sub _ [.now, .happened, .cellar, .crier, .aisle, .stlR, .celR, .wdtR]; decide +kernel) (Keeps.refl σ)
theorem runs_condChange (σ : State) (k : Fin 5) : Runs (touches (.condChange k)) σ (exec (.condChange k) σ) :=
  show Runs _ σ (execCondChange k σ) from keeps_execCondChange k (by show Sub _ [.happened, .cellar, .crier, .aisle, .stlR, .celR, .wdtR]; decide +kernel) (Keeps.refl σ)
theorem runs_disarm (σ : State) (init : Fin 16) : Runs (touches (.disarm init)) σ (exec (.disarm init) σ) :=
  show Runs _ σ (execDisarm init σ) from keeps_execDisarm init (by show Sub _ [.happened, .cellar, .crier, .aisle, .sysR, .stlR, .celR, .wdtR]; decide +kernel) (Keeps.refl σ)
theorem runs_armCntClr (σ : State) (init : Fin 16) : Runs (touches (.armCntClr init)) σ (exec (.armCntClr init) σ) :=
  show Runs _ σ (execArmCntClr init σ) from keeps_execArmCntClr init (by show Sub _ [.happened, .sysR, .celR]; decide +kernel) (Keeps.refl σ)
theorem runs_safeNLow (σ : State) : Runs (touches (.safeNLow)) σ (exec (.safeNLow) σ) :=
  show Runs _ σ (execSafeNLow σ) from keeps_execSafeNLow (by show Sub _ [.happened, .cellar, .crier, .aisle, .stlR, .celR, .wdtR]; decide +kernel) (Keeps.refl σ)
theorem runs_safeNHigh (σ : State) : Runs (touches (.safeNHigh)) σ (exec (.safeNHigh) σ) :=
  show Runs _ σ (execSafeNHigh σ) from keeps_execSafeNHigh (by show Sub _ [.cellar, .celR]; decide +kernel) (Keeps.refl σ)
theorem runs_watchdogTick (σ : State) : Runs (touches (.watchdogTick)) σ (exec (.watchdogTick) σ) :=
  show Runs _ σ (execWatchdogTick σ) from keeps_execWatchdogTick (by show Sub _ [.now, .cellar, .crier, .wdtR]; decide +kernel) (Keeps.refl σ)
theorem runs_service (σ : State) (init : Fin 16) (value : Word) : Runs (touches (.service init value)) σ (exec (.service init value) σ) :=
  show Runs _ σ (execService init value σ) from keeps_execService init value (by show Sub _ [.happened, .cellar, .sysR, .wdtR]; decide +kernel) (Keeps.refl σ)
theorem runs_watchdogExpiry (σ : State) : Runs (touches (.watchdogExpiry)) σ (exec (.watchdogExpiry) σ) :=
  show Runs _ σ (execWatchdogExpiry σ) from keeps_execWatchdogExpiry (by show Sub _ [.happened, .cellar, .crier, .aisle, .stlR, .celR, .wdtR]; decide +kernel) (Keeps.refl σ)
theorem runs_portUp (σ : State) (p : Fin 2) : Runs (touches (.portUp p)) σ (exec (.portUp p) σ) :=
  show Runs _ σ (execPortUp p σ) from keeps_execPortUp p (by show Sub _ [.happened, .ring, .knrR]; decide +kernel) (Keeps.refl σ)
theorem runs_ident (σ : State) (p : Fin 2) (node : BitVec 7) (up : Bool) : Runs (touches (.ident p node up)) σ (exec (.ident p node up) σ) :=
  show Runs _ σ (execIdent p node up σ) from keeps_execIdent p node up (by show Sub _ [.ring, .knrR]; decide +kernel) (Keeps.refl σ)
theorem runs_dlyReq (σ : State) (p : Fin 2) : Runs (touches (.dlyReq p)) σ (exec (.dlyReq p) σ) :=
  show Runs _ σ (execDlyReq p σ) from keeps_execDlyReq p (by show Sub _ [.free, .ring]; decide +kernel) (Keeps.refl σ)
theorem runs_dlyRsp (σ : State) (p : Fin 2) (turnaround : Nat) : Runs (touches (.dlyRsp p turnaround)) σ (exec (.dlyRsp p turnaround) σ) :=
  show Runs _ σ (execDlyRsp p turnaround σ) from keeps_execDlyRsp p turnaround (by show Sub _ [.knrR]; decide +kernel) (Keeps.refl σ)
theorem runs_linkDelayMeasurement (σ : State) (p : Fin 2) : Runs (touches (.linkDelayMeasurement p)) σ (exec (.linkDelayMeasurement p) σ) :=
  show Runs _ σ (execLinkDelayMeasurement p σ) from keeps_execLinkDelayMeasurement p (by show Sub _ [.now, .ring]; decide +kernel) (Keeps.refl σ)
theorem runs_portDown (σ : State) (p : Fin 2) : Runs (touches (.portDown p)) σ (exec (.portDown p) σ) :=
  show Runs _ σ (execPortDown p σ) from keeps_execPortDown p (by show Sub _ [.happened, .ring, .knrR]; decide +kernel) (Keeps.refl σ)
theorem runs_linkFault (σ : State) (p : Fin 2) : Runs (touches (.linkFault p)) σ (exec (.linkFault p) σ) :=
  show Runs _ σ (execLinkFault p σ) from keeps_execLinkFault p (by show Sub _ [.happened, .ring, .knrR]; decide +kernel) (Keeps.refl σ)
theorem runs_unwrap (σ : State) (p : Fin 2) : Runs (touches (.unwrap p)) σ (exec (.unwrap p) σ) :=
  show Runs _ σ (execUnwrap p σ) from keeps_execUnwrap p (by show Sub _ [.happened, .ring, .knrR]; decide +kernel) (Keeps.refl σ)
theorem runs_beacon (σ : State) (node : BitVec 7) (priority : Bool) : Runs (touches (.beacon node priority)) σ (exec (.beacon node priority) σ) :=
  show Runs _ σ (execBeacon node priority σ) from keeps_execBeacon node priority (by show Sub _ [.ring]; decide +kernel) (Keeps.refl σ)
theorem runs_masterElection (σ : State) : Runs (touches (.masterElection)) σ (exec (.masterElection) σ) :=
  show Runs _ σ (execMasterElection σ) from keeps_execMasterElection (by show Sub _ [.now, .happened, .crier, .ring, .knrR]; decide +kernel) (Keeps.refl σ)
theorem runs_cycleStart (σ : State) : Runs (touches (.cycleStart)) σ (exec (.cycleStart) σ) :=
  show Runs _ σ (execCycleStart σ) from keeps_execCycleStart (by show Sub _ [.now, .free, .happened, .ring, .ode, .dbg, .knrR, .odeR, .dbgR]; decide +kernel) (Keeps.refl σ)
theorem runs_frame (σ : State) (f : RingFrame) : Runs (touches (.frame f)) σ (exec (.frame f) σ) :=
  show Runs _ σ (execFrame f σ) from keeps_execFrame f (by show Sub _ [.free, .mem, .happened, .cellar, .crier, .clock, .aisle, .trip, .ring, .ode, .attic, .dbg, .stlR, .trpR, .celR, .wdtR, .knrR, .odeR, .atcR, .dbgR]; decide +kernel) (Keeps.refl σ)
theorem runs_captureInstant (σ : State) : Runs (touches (.captureInstant)) σ (exec (.captureInstant) σ) :=
  show Runs _ σ (execCaptureInstant σ) from keeps_execCaptureInstant (by show Sub _ [.now, .crier, .ring, .knrR]; decide +kernel) (Keeps.refl σ)
theorem runs_applyInstant (σ : State) : Runs (touches (.applyInstant)) σ (exec (.applyInstant) σ) :=
  show Runs _ σ (execApplyInstant σ) from keeps_execApplyInstant (by show Sub _ [.crier, .ring, .knrR]; decide +kernel) (Keeps.refl σ)
theorem runs_cycleLost (σ : State) : Runs (touches (.cycleLost)) σ (exec (.cycleLost) σ) :=
  show Runs _ σ (execCycleLost σ) from keeps_execCycleLost (by show Sub _ [.now, .mem, .happened, .cellar, .crier, .aisle, .trip, .ring, .attic, .sysR, .stlR, .trpR, .celR, .wdtR, .knrR, .atcR]; decide +kernel) (Keeps.refl σ)
theorem runs_referenceSwitch (σ : State) : Runs (touches (.referenceSwitch)) σ (exec (.referenceSwitch) σ) :=
  show Runs _ σ (execReferenceSwitch σ) from keeps_execReferenceSwitch (by show Sub _ [.now, .sysR, .knrR]; decide +kernel) (Keeps.refl σ)
theorem runs_trip (σ : State) (p : Fin 2) (origin : BitVec 7) (seq : BitVec 8) (ok : Bool) : Runs (touches (.trip p origin seq ok)) σ (exec (.trip p origin seq ok) σ) :=
  show Runs _ σ (execTrip p origin seq ok σ) from keeps_execTrip p origin seq ok (by show Sub _ [.mem, .happened, .cellar, .crier, .aisle, .trip, .ring, .attic, .stlR, .trpR, .celR, .wdtR, .knrR, .atcR]; decide +kernel) (Keeps.refl σ)
theorem runs_record (σ : State) (p : Fin 2) (origin : BitVec 7) (seq : BitVec 8) (time : BitVec 64) (ok : Bool) : Runs (touches (.record p origin seq time ok)) σ (exec (.record p origin seq time ok) σ) :=
  show Runs _ σ (execRecord p origin seq time ok σ) from keeps_execRecord p origin seq time ok (by show Sub _ [.mem, .happened, .crier, .ring, .attic, .atcR]; decide +kernel) (Keeps.refl σ)
theorem runs_mailboxTimeout (σ : State) : Runs (touches (.mailboxTimeout)) σ (exec (.mailboxTimeout) σ) :=
  show Runs _ σ (execMailboxTimeout σ) from keeps_execMailboxTimeout (by show Sub _ [.now, .free, .happened, .crier, .ring, .ode, .odeR, .dbgR]; decide +kernel) (Keeps.refl σ)
theorem runs_pdPublish (σ : State) (init : Fin 16) : Runs (touches (.pdPublish init)) σ (exec (.pdPublish init) σ) :=
  show Runs _ σ (execPdPublish init σ) from keeps_execPdPublish init (by show Sub _ [.happened, .ring, .sysR, .knrR]; decide +kernel) (Keeps.refl σ)
theorem runs_mbxSend (σ : State) (init : Fin 16) : Runs (touches (.mbxSend init)) σ (exec (.mbxSend init) σ) :=
  show Runs _ σ (execMbxSend init σ) from keeps_execMbxSend init (by show Sub _ [.happened, .ring, .sysR, .knrR]; decide +kernel) (Keeps.refl σ)
theorem runs_rxPop (σ : State) (init : Fin 16) : Runs (touches (.rxPop init)) σ (exec (.rxPop init) σ) :=
  show Runs _ σ (execRxPop init σ) from keeps_execRxPop init (by show Sub _ [.happened, .ring, .sysR, .knrR]; decide +kernel) (Keeps.refl σ)
theorem runs_knrCntClr (σ : State) (init : Fin 16) : Runs (touches (.knrCntClr init)) σ (exec (.knrCntClr init) σ) :=
  show Runs _ σ (execKnrCntClr init σ) from keeps_execKnrCntClr init (by show Sub _ [.happened, .ring, .sysR, .knrR]; decide +kernel) (Keeps.refl σ)
theorem runs_odRequest (σ : State) (m : RingMsg) : Runs (touches (.odRequest m)) σ (exec (.odRequest m) σ) :=
  show Runs _ σ (execOdRequest m σ) from keeps_execOdRequest m (by show Sub _ [.happened, .ring, .ode, .odeR]; decide +kernel) (Keeps.refl σ)
theorem runs_odRead (σ : State) (env : List BusEnv) : Runs (touches (.odRead env)) σ (exec (.odRead env) σ) :=
  show Runs _ σ (execOdRead env σ) from keeps_execOdRead env (by show Sub _ (allParts.filter (· ∉ [.now, .readData, .options, .replay])); decide +kernel) (Keeps.refl σ)
theorem runs_odWrite (σ : State) (env : List BusEnv) : Runs (touches (.odWrite env)) σ (exec (.odWrite env) σ) :=
  show Runs _ σ (execOdWrite env σ) from keeps_execOdWrite env (by show Sub _ (allParts.filter (· ∉ [.now, .readData, .options, .replay])); decide +kernel) (Keeps.refl σ)
theorem runs_blockRead (σ : State) (env : List BusEnv) (drive : List (Option (List Word))) : Runs (touches (.blockRead env drive)) σ (exec (.blockRead env drive) σ) :=
  show Runs _ σ (execBlockRead env drive σ) from keeps_execBlockRead env drive (by show Sub _ (allParts.filter (· ∉ [.now, .readData, .options, .replay])); decide +kernel) (Keeps.refl σ)
theorem runs_blockWrite (σ : State) (env : List BusEnv) : Runs (touches (.blockWrite env)) σ (exec (.blockWrite env) σ) :=
  show Runs _ σ (execBlockWrite env σ) from keeps_execBlockWrite env (by show Sub _ (allParts.filter (· ∉ [.now, .readData, .options, .replay])); decide +kernel) (Keeps.refl σ)
theorem runs_blockWriteEnd (σ : State) (env : List BusEnv) : Runs (touches (.blockWriteEnd env)) σ (exec (.blockWriteEnd env) σ) :=
  show Runs _ σ (execBlockWriteEnd env σ) from keeps_execBlockWriteEnd env (by show Sub _ (allParts.filter (· ∉ [.now, .readData, .options, .replay])); decide +kernel) (Keeps.refl σ)
theorem runs_odSave (σ : State) (env : List BusEnv) : Runs (touches (.odSave env)) σ (exec (.odSave env) σ) :=
  show Runs _ σ (execOdSave env σ) from keeps_execOdSave env (by show Sub _ (allParts.filter (· ∉ [.now, .readData, .options, .replay])); decide +kernel) (Keeps.refl σ)
theorem runs_restoreDefaults (σ : State) (env : List BusEnv) : Runs (touches (.restoreDefaults env)) σ (exec (.restoreDefaults env) σ) :=
  show Runs _ σ (execRestoreDefaults env σ) from keeps_execRestoreDefaults env (by show Sub _ (allParts.filter (· ∉ [.now, .readData, .options, .replay])); decide +kernel) (Keeps.refl σ)
theorem runs_usdoRequest (σ : State) (client : BitVec 7) (target : Option (BitVec 7)) (op : UsdoOp) (env : List BusEnv) (drive : List (Option (List Word))) : Runs (touches (.usdoRequest client target op env drive)) σ (exec (.usdoRequest client target op env drive) σ) :=
  show Runs _ σ (execUsdoRequest client target op env drive σ) from keeps_execUsdoRequest client target op env drive (by show Sub _ (allParts.filter (· ∉ [.now, .readData, .options, .replay])); decide +kernel) (Keeps.refl σ)
theorem runs_odsvc (σ : State) (c : Fin 4) (node : BitVec 7) (env : List BusEnv) (drive : List (Option (List Word))) : Runs (touches (.odsvc c node env drive)) σ (exec (.odsvc c node env drive) σ) :=
  show Runs _ σ (execOdsvc c node env drive σ) from keeps_execOdsvc c node env drive (by show Sub _ (allParts.filter (· ∉ [.now, .readData, .options, .replay])); decide +kernel) (Keeps.refl σ)
theorem runs_featuresAccepted (σ : State) (env : List BusEnv) : Runs (touches (.featuresAccepted env)) σ (exec (.featuresAccepted env) σ) :=
  show Runs _ σ (execFeaturesAccepted env σ) from keeps_execFeaturesAccepted env (by show Sub _ (allParts.filter (· ∉ [.now, .readData, .options, .replay])); decide +kernel) (Keeps.refl σ)
theorem runs_negotiationTimeout (σ : State) : Runs (touches (.negotiationTimeout)) σ (exec (.negotiationTimeout) σ) :=
  show Runs _ σ (execNegotiationTimeout σ) from keeps_execNegotiationTimeout (by show Sub _ [.now, .ode, .odeR]; decide +kernel) (Keeps.refl σ)
theorem runs_odeCntClr (σ : State) (init : Fin 16) : Runs (touches (.odeCntClr init)) σ (exec (.odeCntClr init) σ) :=
  show Runs _ σ (execOdeCntClr init σ) from keeps_execOdeCntClr init (by show Sub _ [.happened, .sysR, .odeR]; decide +kernel) (Keeps.refl σ)
theorem runs_controlword (σ : State) (env : List BusEnv) : Runs (touches (.controlword env)) σ (exec (.controlword env) σ) :=
  show Runs _ σ (execControlword env σ) from keeps_execControlword env (by show Sub _ (allParts.filter (· ∉ [.now, .readData, .options, .replay])); decide +kernel) (Keeps.refl σ)
theorem runs_targetTorque (σ : State) (env : List BusEnv) : Runs (touches (.targetTorque env)) σ (exec (.targetTorque env) σ) :=
  show Runs _ σ (execTargetTorque env σ) from keeps_execTargetTorque env (by show Sub _ (allParts.filter (· ∉ [.now, .readData, .options, .replay])); decide +kernel) (Keeps.refl σ)
theorem runs_axisFault (σ : State) (x : Fin 8) : Runs (touches (.axisFault x)) σ (exec (.axisFault x) σ) :=
  show Runs _ σ (execAxisFault x σ) from keeps_execAxisFault x (by show Sub _ (allParts.filter (· ∉ [.now, .readData, .options, .replay])); decide +kernel) (Keeps.refl σ)
theorem runs_recorderItem (σ : State) : Runs (touches (.recorderItem)) σ (exec (.recorderItem) σ) :=
  show Runs _ σ (execRecorderItem σ) from keeps_execRecorderItem (by show Sub _ [.mem, .happened, .attic, .dbg, .atcR]; decide +kernel) (Keeps.refl σ)
theorem runs_trig (σ : State) (init : Fin 16) : Runs (touches (.trig init)) σ (exec (.trig init) σ) :=
  show Runs _ σ (execTrig init σ) from keeps_execTrig init (by show Sub _ [.mem, .happened, .crier, .ring, .attic, .sysR, .atcR]; decide +kernel) (Keeps.refl σ)
theorem runs_windowClose (σ : State) : Runs (touches (.windowClose)) σ (exec (.windowClose) σ) :=
  show Runs _ σ (execWindowClose σ) from keeps_execWindowClose (by show Sub _ [.now, .mem, .happened, .crier, .attic, .atcR]; decide +kernel) (Keeps.refl σ)
theorem runs_driveWrite (σ : State) (window : Bool) (n : Fin 33) (r : NvmeResult) : Runs (touches (.driveWrite window n r)) σ (exec (.driveWrite window n r) σ) :=
  show Runs _ σ (execDriveWrite window n r σ) from keeps_execDriveWrite window n r (by show Sub _ [.mem, .happened, .crier, .attic, .atcR]; decide +kernel) (Keeps.refl σ)
theorem runs_perstRelease (σ : State) : Runs (touches (.perstRelease)) σ (exec (.perstRelease) σ) :=
  show Runs _ σ (execPerstRelease σ) from keeps_execPerstRelease (by show Sub _ [.now, .attic]; decide +kernel) (Keeps.refl σ)
theorem runs_bringUp (σ : State) (env : DriveEnv) : Runs (touches (.bringUp env)) σ (exec (.bringUp env) σ) :=
  show Runs _ σ (execBringUp env σ) from keeps_execBringUp env (by show Sub _ [.attic, .atcR]; decide +kernel) (Keeps.refl σ)
theorem runs_bringUpRestart (σ : State) : Runs (touches (.bringUpRestart)) σ (exec (.bringUpRestart) σ) :=
  show Runs _ σ (execBringUpRestart σ) from keeps_execBringUpRestart (by show Sub _ [.now, .attic]; decide +kernel) (Keeps.refl σ)
theorem runs_checkpoint (σ : State) (r : NvmeResult) : Runs (touches (.checkpoint r)) σ (exec (.checkpoint r) σ) :=
  show Runs _ σ (execCheckpoint r σ) from keeps_execCheckpoint r (by show Sub _ [.now, .mem, .attic, .atcR]; decide +kernel) (Keeps.refl σ)
theorem runs_ckpt (σ : State) (init : Fin 16) : Runs (touches (.ckpt init)) σ (exec (.ckpt init) σ) :=
  show Runs _ σ (execCkpt init σ) from keeps_execCkpt init (by show Sub _ [.mem, .happened, .crier, .ring, .attic, .sysR, .atcR]; decide +kernel) (Keeps.refl σ)
theorem runs_format (σ : State) (init : Fin 16) : Runs (touches (.format init)) σ (exec (.format init) σ) :=
  show Runs _ σ (execFormat init σ) from keeps_execFormat init (by show Sub _ [.mem, .happened, .crier, .ring, .attic, .sysR, .atcR]; decide +kernel) (Keeps.refl σ)
theorem runs_atcRead (σ : State) (init : Fin 16) : Runs (touches (.atcRead init)) σ (exec (.atcRead init) σ) :=
  show Runs _ σ (execAtcRead init σ) from keeps_execAtcRead init (by show Sub _ [.mem, .happened, .crier, .ring, .attic, .sysR, .atcR]; decide +kernel) (Keeps.refl σ)
theorem runs_readbackEnd (σ : State) (data : List Word) (status : BitVec 16) : Runs (touches (.readbackEnd data status)) σ (exec (.readbackEnd data status) σ) :=
  show Runs _ σ (execReadbackEnd data status σ) from keeps_execReadbackEnd data status (by show Sub _ [.crier, .attic, .atcR]; decide +kernel) (Keeps.refl σ)
theorem runs_smartPoll (σ : State) (temp : BitVec 16) (crit pct : BitVec 8) (media : Nat) (r : NvmeResult) : Runs (touches (.smartPoll temp crit pct media r)) σ (exec (.smartPoll temp crit pct media r) σ) :=
  show Runs _ σ (execSmartPoll temp crit pct media r σ) from keeps_execSmartPoll temp crit pct media r (by show Sub _ [.now, .attic, .atcR]; decide +kernel) (Keeps.refl σ)
theorem runs_atcCntClr (σ : State) (init : Fin 16) : Runs (touches (.atcCntClr init)) σ (exec (.atcCntClr init) σ) :=
  show Runs _ σ (execAtcCntClr init σ) from keeps_execAtcCntClr init (by show Sub _ [.mem, .happened, .crier, .ring, .attic, .sysR, .atcR]; decide +kernel) (Keeps.refl σ)
theorem runs_markTag (σ : State) (init : Fin 16) (value : Word) : Runs (touches (.markTag init value)) σ (exec (.markTag init value) σ) :=
  show Runs _ σ (execMarkTag init value σ) from keeps_execMarkTag init value (by show Sub _ [.happened, .attic, .sysR]; decide +kernel) (Keeps.refl σ)
theorem runs_atticShutdown (σ : State) : Runs (touches (.atticShutdown)) σ (exec (.atticShutdown) σ) :=
  show Runs _ σ (execAtticShutdown σ) from keeps_execAtticShutdown (by show Sub _ [.mem, .happened, .crier, .attic, .atcR]; decide +kernel) (Keeps.refl σ)
theorem runs_extest (σ : State) (balls cells : List Bool) : Runs (touches (.extest balls cells)) σ (exec (.extest balls cells) σ) :=
  show Runs _ σ (execExtest balls cells σ) from keeps_execExtest balls cells (by show Sub _ [.dbg]; decide +kernel) (Keeps.refl σ)
theorem runs_samplePreload (σ : State) (balls cells : List Bool) : Runs (touches (.samplePreload balls cells)) σ (exec (.samplePreload balls cells) σ) :=
  show Runs _ σ (execSamplePreload balls cells σ) from keeps_execSamplePreload balls cells (by show Sub _ [.dbg]; decide +kernel) (Keeps.refl σ)
theorem runs_idcode (σ : State) : Runs (touches (.idcode)) σ (exec (.idcode) σ) :=
  show Runs _ σ (execIdcode σ) from keeps_execIdcode (by show Sub _ [.dbg]; decide +kernel) (Keeps.refl σ)
theorem runs_clamp (σ : State) : Runs (touches (.clamp)) σ (exec (.clamp) σ) :=
  show Runs _ σ (execClamp σ) from keeps_execClamp (by show Sub _ [.dbg]; decide +kernel) (Keeps.refl σ)
theorem runs_highz (σ : State) : Runs (touches (.highz)) σ (exec (.highz) σ) :=
  show Runs _ σ (execHighz σ) from keeps_execHighz (by show Sub _ [.dbg]; decide +kernel) (Keeps.refl σ)
theorem runs_dbgacc (σ : State) (write : Bool) (index : Fin 512) (data : Word) : Runs (touches (.dbgacc write index data)) σ (exec (.dbgacc write index data) σ) :=
  show Runs _ σ (execDbgacc write index data σ) from keeps_execDbgacc write index data (by show Sub _ (allParts.filter (· ∉ [.now, .readData, .writeBack, .options, .replay])); decide +kernel) (Keeps.refl σ)
theorem runs_bypass (σ : State) : Runs (touches (.bypass)) σ (exec (.bypass) σ) :=
  show Runs _ σ (execBypass σ) from keeps_execBypass (by show Sub _ [.dbg]; decide +kernel) (Keeps.refl σ)
theorem runs_sapRead (σ : State) (env : BusEnv) : Runs (touches (.sapRead env)) σ (exec (.sapRead env) σ) :=
  show Runs _ σ (execSapRead env σ) from keeps_execSapRead env (by show Sub _ [.free, .shadows, .happened, .writeBack, .crier, .leg, .cnv, .eng, .attic, .dbg, .flash, .spi, .uart, .iic, .sysR, .cnvR, .legR, .engR, .criR, .flcR, .dbgR, .spiR, .uartR]; decide +kernel) (Keeps.refl σ)
theorem runs_sapWrite (σ : State) (env : BusEnv) : Runs (touches (.sapWrite env)) σ (exec (.sapWrite env) σ) :=
  show Runs _ σ (execSapWrite env σ) from keeps_execSapWrite env (by show Sub _ (allParts.filter (· ∉ [.now, .readData, .options, .replay])); decide +kernel) (Keeps.refl σ)
theorem runs_mcmdGo (σ : State) (init : Fin 16) : Runs (touches (.mcmdGo init)) σ (exec (.mcmdGo init) σ) :=
  show Runs _ σ (execMcmdGo init σ) from keeps_execMcmdGo init (by show Sub _ [.happened, .ring, .dbg, .sysR, .dbgR]; decide +kernel) (Keeps.refl σ)
theorem runs_memRead (σ : State) (env : List BusEnv) : Runs (touches (.memRead env)) σ (exec (.memRead env) σ) :=
  show Runs _ σ (execMemRead env σ) from keeps_execMemRead env (by show Sub _ [.free, .shadows, .happened, .writeBack, .crier, .leg, .cnv, .eng, .ring, .attic, .dbg, .flash, .spi, .uart, .iic, .sysR, .cnvR, .legR, .engR, .criR, .flcR, .dbgR, .spiR, .uartR]; decide +kernel) (Keeps.refl σ)
theorem runs_memWrite (σ : State) (env : List BusEnv) : Runs (touches (.memWrite env)) σ (exec (.memWrite env) σ) :=
  show Runs _ σ (execMemWrite env σ) from keeps_execMemWrite env (by show Sub _ (allParts.filter (· ∉ [.now, .readData, .options, .replay])); decide +kernel) (Keeps.refl σ)
theorem runs_monHalt (σ : State) : Runs (touches (.monHalt)) σ (exec (.monHalt) σ) :=
  show Runs _ σ (execMonHalt σ) from keeps_execMonHalt (by show Sub _ [.ring, .core, .dbg, .dbgR]; decide +kernel) (Keeps.refl σ)
theorem runs_monResume (σ : State) : Runs (touches (.monResume)) σ (exec (.monResume) σ) :=
  show Runs _ σ (execMonResume σ) from keeps_execMonResume (by show Sub _ [.happened, .cellar, .ring, .ode, .core, .dbg, .sysR, .criR, .celR, .wdtR, .dbgR]; decide +kernel) (Keeps.refl σ)
theorem runs_monStep (σ : State) : Runs (touches (.monStep)) σ (exec (.monStep) σ) :=
  show Runs _ σ (execMonStep σ) from keeps_execMonStep (by show Sub _ [.happened, .cellar, .ring, .ode, .core, .dbg, .sysR, .criR, .celR, .wdtR, .dbgR]; decide +kernel) (Keeps.refl σ)
theorem runs_regRead (σ : State) : Runs (touches (.regRead)) σ (exec (.regRead) σ) :=
  show Runs _ σ (execRegRead σ) from keeps_execRegRead (by show Sub _ [.ring, .core, .dbg, .dbgR]; decide +kernel) (Keeps.refl σ)
theorem runs_regWrite (σ : State) : Runs (touches (.regWrite)) σ (exec (.regWrite) σ) :=
  show Runs _ σ (execRegWrite σ) from keeps_execRegWrite (by show Sub _ [.warranted, .ring, .core, .dbg, .dbgR]; decide +kernel) (Keeps.refl σ)
theorem runs_monUnlock (σ : State) : Runs (touches (.monUnlock)) σ (exec (.monUnlock) σ) :=
  show Runs _ σ (execMonUnlock σ) from keeps_execMonUnlock (by show Sub _ [.happened, .ring, .dbg, .dbgR]; decide +kernel) (Keeps.refl σ)
theorem runs_unlock (σ : State) (init : Fin 16) : Runs (touches (.unlock init)) σ (exec (.unlock init) σ) :=
  show Runs _ σ (execUnlock init σ) from keeps_execUnlock init (by show Sub _ [.happened, .ring, .dbg, .sysR, .dbgR]; decide +kernel) (Keeps.refl σ)
theorem runs_lockoutEnd (σ : State) : Runs (touches (.lockoutEnd)) σ (exec (.lockoutEnd) σ) :=
  show Runs _ σ (execLockoutEnd σ) from keeps_execLockoutEnd (by show Sub _ [.now, .dbgR]; decide +kernel) (Keeps.refl σ)
theorem runs_traceClr (σ : State) (init : Fin 16) : Runs (touches (.traceClr init)) σ (exec (.traceClr init) σ) :=
  show Runs _ σ (execTraceClr init σ) from keeps_execTraceClr init (by show Sub _ [.happened, .ring, .dbg, .sysR, .dbgR]; decide +kernel) (Keeps.refl σ)
theorem runs_dbgReset (σ : State) (init : Fin 16) : Runs (touches (.dbgReset init)) σ (exec (.dbgReset init) σ) :=
  show Runs _ σ (execDbgReset init σ) from keeps_execDbgReset init (by show Sub _ [.happened, .ring, .dbg, .sysR, .dbgR]; decide +kernel) (Keeps.refl σ)
theorem runs_cCmdHalt (σ : State) (init : Fin 16) (c : Fin 4) : Runs (touches (.cCmdHalt init c)) σ (exec (.cCmdHalt init c) σ) :=
  show Runs _ σ (execCCmdHalt init c σ) from keeps_execCCmdHalt init c (by show Sub _ [.happened, .cellar, .ode, .core, .dbg, .sysR, .criR, .celR, .wdtR, .dbgR]; decide +kernel) (Keeps.refl σ)
theorem runs_cCmdResume (σ : State) (init : Fin 16) (c : Fin 4) : Runs (touches (.cCmdResume init c)) σ (exec (.cCmdResume init c) σ) :=
  show Runs _ σ (execCCmdResume init c σ) from keeps_execCCmdResume init c (by show Sub _ [.happened, .cellar, .ode, .core, .dbg, .sysR, .criR, .celR, .wdtR, .dbgR]; decide +kernel) (Keeps.refl σ)
theorem runs_cCmdStep (σ : State) (init : Fin 16) (c : Fin 4) : Runs (touches (.cCmdStep init c)) σ (exec (.cCmdStep init c) σ) :=
  show Runs _ σ (execCCmdStep init c σ) from keeps_execCCmdStep init c (by show Sub _ [.happened, .cellar, .ode, .core, .dbg, .sysR, .criR, .celR, .wdtR, .dbgR]; decide +kernel) (Keeps.refl σ)
theorem runs_monitorEntry (σ : State) (c : Fin 4) (shadowNext : Bool) : Runs (touches (.monitorEntry c shadowNext)) σ (exec (.monitorEntry c shadowNext) σ) :=
  show Runs _ σ (execMonitorEntry c shadowNext σ) from keeps_execMonitorEntry c shadowNext (by show Sub _ [.happened, .cellar, .ode, .core, .dbg, .sysR, .criR, .celR, .wdtR, .dbgR]; decide +kernel) (Keeps.refl σ)
theorem runs_spiTxdata (σ : State) (init : Fin 16) (p : Fin 4) (value : Word) : Runs (touches (.spiTxdata init p value)) σ (exec (.spiTxdata init p value) σ) :=
  show Runs _ σ (execSpiTxdata init p value σ) from keeps_execSpiTxdata init p value (by show Sub _ [.happened, .spi, .sysR, .spiR]; decide +kernel) (Keeps.refl σ)
theorem runs_spiFrame (σ : State) (p : Fin 4) (miso : Word) : Runs (touches (.spiFrame p miso)) σ (exec (.spiFrame p miso) σ) :=
  show Runs _ σ (execSpiFrame p miso σ) from keeps_execSpiFrame p miso (by show Sub _ [.happened, .spi, .spiR]; decide +kernel) (Keeps.refl σ)
theorem runs_spiRxdata (σ : State) (init : Fin 16) (p : Fin 4) (peek : Bool) : Runs (touches (.spiRxdata init p peek)) σ (exec (.spiRxdata init p peek) σ) :=
  show Runs _ σ (execSpiRxdata init p peek σ) from keeps_execSpiRxdata init p peek (by show Sub _ [.happened, .readData, .spi, .sysR, .spiR]; decide +kernel) (Keeps.refl σ)
theorem runs_spiCntClr (σ : State) (init : Fin 16) (p : Fin 4) : Runs (touches (.spiCntClr init p)) σ (exec (.spiCntClr init p) σ) :=
  show Runs _ σ (execSpiCntClr init p σ) from keeps_execSpiCntClr init p (by show Sub _ [.happened, .sysR, .spiR]; decide +kernel) (Keeps.refl σ)
theorem runs_uartTxdata (σ : State) (init : Fin 16) (u : Fin 2) (value : Word) : Runs (touches (.uartTxdata init u value)) σ (exec (.uartTxdata init u value) σ) :=
  show Runs _ σ (execUartTxdata init u value σ) from keeps_execUartTxdata init u value (by show Sub _ [.happened, .uart, .sysR, .uartR]; decide +kernel) (Keeps.refl σ)
theorem runs_uartFrame (σ : State) (u : Fin 2) (received : Option UartFrame) : Runs (touches (.uartFrame u received)) σ (exec (.uartFrame u received) σ) :=
  show Runs _ σ (execUartFrame u received σ) from keeps_execUartFrame u received (by show Sub _ [.happened, .uart, .uartR]; decide +kernel) (Keeps.refl σ)
theorem runs_uartRxdata (σ : State) (init : Fin 16) (u : Fin 2) (peek : Bool) : Runs (touches (.uartRxdata init u peek)) σ (exec (.uartRxdata init u peek) σ) :=
  show Runs _ σ (execUartRxdata init u peek σ) from keeps_execUartRxdata init u peek (by show Sub _ [.happened, .readData, .uart, .sysR, .uartR]; decide +kernel) (Keeps.refl σ)
theorem runs_canFrame (σ : State) (k : Fin 2) (f : CanFrame) (error : Bool) : Runs (touches (.canFrame k f error)) σ (exec (.canFrame k f error) σ) :=
  show Runs _ σ (execCanFrame k f error σ) from keeps_execCanFrame k f error (by show Sub _ [.ode, .can, .canR]; decide +kernel) (Keeps.refl σ)
theorem runs_txReq (σ : State) (init : Fin 16) (k : Fin 2) (slots : BitVec 8) : Runs (touches (.txReq init k slots)) σ (exec (.txReq init k slots) σ) :=
  show Runs _ σ (execTxReq init k slots σ) from keeps_execTxReq init k slots (by show Sub _ [.happened, .can, .sysR, .canR]; decide +kernel) (Keeps.refl σ)
theorem runs_canTxDone (σ : State) (k : Fin 2) (slot : Fin 9) (error : Bool) : Runs (touches (.canTxDone k slot error)) σ (exec (.canTxDone k slot error) σ) :=
  show Runs _ σ (execCanTxDone k slot error σ) from keeps_execCanTxDone k slot error (by show Sub _ [.ode, .can, .canR]; decide +kernel) (Keeps.refl σ)
theorem runs_canRxPop (σ : State) (init : Fin 16) (k : Fin 2) : Runs (touches (.canRxPop init k)) σ (exec (.canRxPop init k) σ) :=
  show Runs _ σ (execCanRxPop init k σ) from keeps_execCanRxPop init k (by show Sub _ [.happened, .can, .sysR, .canR]; decide +kernel) (Keeps.refl σ)
theorem runs_recover (σ : State) (init : Fin 16) (k : Fin 2) : Runs (touches (.recover init k)) σ (exec (.recover init k) σ) :=
  show Runs _ σ (execRecover init k σ) from keeps_execRecover init k (by show Sub _ [.happened, .can, .sysR, .canR]; decide +kernel) (Keeps.refl σ)
theorem runs_xfer (σ : State) (init : Fin 16) (i0 : Fin 2) (value : Word) : Runs (touches (.xfer init i0 value)) σ (exec (.xfer init i0 value) σ) :=
  show Runs _ σ (execXfer init i0 value σ) from keeps_execXfer init i0 value (by show Sub _ [.happened, .iic, .sysR, .iicR]; decide +kernel) (Keeps.refl σ)
theorem runs_iicOperation (σ : State) (i0 : Fin 2) (r : IicResult) : Runs (touches (.iicOperation i0 r)) σ (exec (.iicOperation i0 r) σ) :=
  show Runs _ σ (execIicOperation i0 r σ) from keeps_execIicOperation i0 r (by show Sub _ [.happened, .iic, .iicR]; decide +kernel) (Keeps.refl σ)
theorem runs_iicRxdata (σ : State) (init : Fin 16) (i0 : Fin 2) (peek : Bool) : Runs (touches (.iicRxdata init i0 peek)) σ (exec (.iicRxdata init i0 peek) σ) :=
  show Runs _ σ (execIicRxdata init i0 peek σ) from keeps_execIicRxdata init i0 peek (by show Sub _ [.happened, .readData, .iic, .sysR]; decide +kernel) (Keeps.refl σ)
theorem runs_iicResume (σ : State) (init : Fin 16) (i0 : Fin 2) : Runs (touches (.iicResume init i0)) σ (exec (.iicResume init i0) σ) :=
  show Runs _ σ (execIicResume init i0 σ) from keeps_execIicResume init i0 (by show Sub _ [.happened, .sysR, .iicR]; decide +kernel) (Keeps.refl σ)
theorem runs_iicCntClr (σ : State) (init : Fin 16) (i0 : Fin 2) : Runs (touches (.iicCntClr init i0)) σ (exec (.iicCntClr init i0) σ) :=
  show Runs _ σ (execIicCntClr init i0 σ) from keeps_execIicCntClr init i0 (by show Sub _ [.happened, .sysR, .iicR]; decide +kernel) (Keeps.refl σ)
theorem runs_qepCountEdge (σ : State) (d : Fin 4) (a b : BallLevel) : Runs (touches (.qepCountEdge d a b)) σ (exec (.qepCountEdge d a b) σ) :=
  show Runs _ σ (execQepCountEdge d a b σ) from keeps_execQepCountEdge d a b (by show Sub _ [.happened, .qep, .qepR]; decide +kernel) (Keeps.refl σ)
theorem runs_zEdge (σ : State) (z : ZLine) : Runs (touches (.zEdge z)) σ (exec (.zEdge z) σ) :=
  show Runs _ σ (execZEdge z σ) from keeps_execZEdge z (by show Sub _ [.crier, .qep, .qepR]; decide +kernel) (Keeps.refl σ)
theorem runs_armZ (σ : State) (init : Fin 16) (d : Fin 4) : Runs (touches (.armZ init d)) σ (exec (.armZ init d) σ) :=
  show Runs _ σ (execArmZ init d σ) from keeps_execArmZ init d (by show Sub _ [.happened, .sysR, .qepR]; decide +kernel) (Keeps.refl σ)
theorem runs_qepCntClr (σ : State) (init : Fin 16) (d : Fin 4) : Runs (touches (.qepCntClr init d)) σ (exec (.qepCntClr init d) σ) :=
  show Runs _ σ (execQepCntClr init d σ) from keeps_execQepCntClr init d (by show Sub _ [.happened, .sysR, .qepR]; decide +kernel) (Keeps.refl σ)
theorem runs_pos (σ : State) (init : Fin 16) (d : Fin 4) (value : Word) : Runs (touches (.pos init d value)) σ (exec (.pos init d value) σ) :=
  show Runs _ σ (execPos init d value σ) from keeps_execPos init d value (by show Sub _ [.happened, .qep, .sysR, .qepR]; decide +kernel) (Keeps.refl σ)
theorem runs_outSet (σ : State) (init : Fin 16) (hi : Bool) (mask : Word) : Runs (touches (.outSet init hi mask)) σ (exec (.outSet init hi mask) σ) :=
  show Runs _ σ (execOutSet init hi mask σ) from keeps_execOutSet init hi mask (by show Sub _ [.happened, .sysR, .gpioR]; decide +kernel) (Keeps.refl σ)
theorem runs_outClr (σ : State) (init : Fin 16) (hi : Bool) (mask : Word) : Runs (touches (.outClr init hi mask)) σ (exec (.outClr init hi mask) σ) :=
  show Runs _ σ (execOutClr init hi mask σ) from keeps_execOutClr init hi mask (by show Sub _ [.happened, .sysR, .gpioR]; decide +kernel) (Keeps.refl σ)
theorem runs_gpioIrqEdge (σ : State) (line : Fin 64) (x : BallLevel) : Runs (touches (.gpioIrqEdge line x)) σ (exec (.gpioIrqEdge line x) σ) :=
  show Runs _ σ (execGpioIrqEdge line x σ) from keeps_execGpioIrqEdge line x (by show Sub _ [.criR, .gpioR]; decide +kernel) (Keeps.refl σ)
theorem runs_coreWatchdogTick (σ : State) (n : Fin 4) : Runs (touches (.coreWatchdogTick n)) σ (exec (.coreWatchdogTick n) σ) :=
  show Runs _ σ (execCoreWatchdogTick n σ) from keeps_execCoreWatchdogTick n (by show Sub _ [.now, .cellar, .crier, .wdtR]; decide +kernel) (Keeps.refl σ)
theorem runs_coreWatchdogService (σ : State) (init : Fin 16) (n : Fin 4) (value : Word) : Runs (touches (.coreWatchdogService init n value)) σ (exec (.coreWatchdogService init n value) σ) :=
  show Runs _ σ (execCoreWatchdogService init n value σ) from keeps_execCoreWatchdogService init n value (by show Sub _ [.happened, .cellar, .sysR, .wdtR]; decide +kernel) (Keeps.refl σ)
theorem runs_coreWatchdogExpiry (σ : State) (n : Fin 4) : Runs (touches (.coreWatchdogExpiry n)) σ (exec (.coreWatchdogExpiry n) σ) :=
  show Runs _ σ (execCoreWatchdogExpiry n σ) from keeps_execCoreWatchdogExpiry n (by show Sub _ [.happened, .cellar, .ode, .core, .sysR, .criR, .celR, .wdtR]; decide +kernel) (Keeps.refl σ)
theorem runs_hallResetStart (σ : State) : Runs (touches (.hallResetStart)) σ (exec (.hallResetStart) σ) :=
  show Runs _ σ (execHallResetStart σ) from keeps_execHallResetStart (by show Sub _ (allParts.filter (· ∉ [.warranted, .options, .clock, .replay, .dbg, .wdtR, .dbgR])); decide +kernel) (Keeps.refl σ)
theorem runs_vddCelLoss (σ : State) : Runs (touches (.vddCelLoss)) σ (exec (.vddCelLoss) σ) :=
  show Runs _ σ (execVddCelLoss σ) from keeps_execVddCelLoss (by show Sub _ (allParts.filter (· ∉ [.now, .warranted, .options, .replay, .dbg])); decide +kernel) (Keeps.refl σ)
theorem runs_xinClockChange (σ : State) (present : Bool) : Runs (touches (.xinClockChange present)) σ (exec (.xinClockChange present) σ) :=
  show Runs _ σ (execXinClockChange present σ) from keeps_execXinClockChange present (by show Sub _ [.sysR]; decide +kernel) (Keeps.refl σ)
theorem runs_pcieLinkDown (σ : State) : Runs (touches (.pcieLinkDown)) σ (exec (.pcieLinkDown) σ) :=
  show Runs _ σ (execPcieLinkDown σ) from keeps_execPcieLinkDown (by show Sub _ [.attic, .atcR]; decide +kernel) (Keeps.refl σ)
theorem runs_busOffRecoveryEnd (σ : State) (k : Fin 2) : Runs (touches (.busOffRecoveryEnd k)) σ (exec (.busOffRecoveryEnd k) σ) :=
  show Runs _ σ (execBusOffRecoveryEnd k σ) from keeps_execBusOffRecoveryEnd k (by show Sub _ [.can, .canR]; decide +kernel) (Keeps.refl σ)

theorem runs_exec (i : Instr) (σ : State) : Runs (touches i) σ (exec i σ) := by
  cases i with
  | registerWrite a => exact runs_registerWrite σ a
  | eccWriteBack addr => exact runs_eccWriteBack σ addr
  | eccClear init value => exact runs_eccClear σ init value
  | accessAcknowledge c => exact runs_accessAcknowledge σ c
  | zero g => exact runs_zero σ g
  | period g => exact runs_period σ g
  | evaUp g => exact runs_evaUp σ g
  | evaDn g => exact runs_evaDn σ g
  | evbUp g => exact runs_evbUp σ g
  | evbDn g => exact runs_evbDn σ g
  | lockedCarrierStart g => exact runs_lockedCarrierStart σ g
  | sgFire init a groups => exact runs_sgFire σ init a groups
  | sgClr init a groups => exact runs_sgClr σ init a groups
  | blkClr init a channels => exact runs_blkClr σ init a channels
  | blankingMaxlen a b => exact runs_blankingMaxlen σ a b
  | phaseMeasurement a lag => exact runs_phaseMeasurement σ a lag
  | phaseValidExpiry a => exact runs_phaseValidExpiry σ a
  | aperture s0 v => exact runs_aperture σ s0 v
  | rawCode s0 => exact runs_rawCode σ s0
  | correctedResult s0 => exact runs_correctedResult σ s0
  | scanComplete s0 => exact runs_scanComplete σ s0
  | swTrig init s0 => exact runs_swTrig σ init s0
  | startEdge s0 x => exact runs_startEdge σ s0 x
  | stopEdge s0 x => exact runs_stopEdge σ s0 x
  | stop init s0 => exact runs_stop σ init s0
  | backToBackScan s0 => exact runs_backToBackScan σ s0
  | calZero init s0 input => exact runs_calZero σ init s0 input
  | calFull init s0 input => exact runs_calFull σ init s0 input
  | calibrationEnd s0 codes => exact runs_calibrationEnd σ s0 codes
  | diag init s0 => exact runs_diag σ init s0
  | diagScanStart x => exact runs_diagScanStart σ x
  | diagScanEnd s0 last => exact runs_diagScanEnd σ s0 last
  | selfchk init s0 => exact runs_selfchk σ init s0
  | selfCheckAttempt s0 => exact runs_selfCheckAttempt σ s0
  | selfCheckElement s0 => exact runs_selfCheckElement σ s0
  | selfCheckResult s0 v => exact runs_selfCheckResult σ s0 v
  | bgstarved s0 => exact runs_bgstarved σ s0
  | cnvCntClr init s0 => exact runs_cnvCntClr σ init s0
  | comparatorOutputChange c x => exact runs_comparatorOutputChange σ c x
  | settlingEnd c v => exact runs_settlingEnd σ c v
  | tick c => exact runs_tick σ c
  | sampledDecision c v => exact runs_sampledDecision σ c v
  | cmpRelease init c => exact runs_cmpRelease σ init c
  | flagRel init c flags => exact runs_flagRel σ init c flags
  | cmpCntClr init c => exact runs_cmpCntClr σ init c
  | armingStateArrival a => exact runs_armingStateArrival σ a
  | carCntClr init g => exact runs_carCntClr σ init g
  | shadowWrite init l k value => exact runs_shadowWrite σ init l k value
  | commit init l => exact runs_commit σ init l
  | gcommit init l mask => exact runs_gcommit σ init l mask
  | legCntClr init l => exact runs_legCntClr σ init l
  | compareEdge l => exact runs_compareEdge σ l
  | deadTimeEnd l => exact runs_deadTimeEnd σ l
  | tripinEdge i0 x => exact runs_tripinEdge σ i0 x
  | tripSourceActive i0 => exact runs_tripSourceActive σ i0
  | groupStateArrival q a => exact runs_groupStateArrival σ q a
  | trpRelease init mask => exact runs_trpRelease σ init mask
  | trpCntClr init => exact runs_trpCntClr σ init
  | swtrip init value => exact runs_swtrip σ init value
  | start init e => exact runs_start σ init e
  | engEnd e => exact runs_engEnd σ e
  | engLd e u => exact runs_engLd σ e u
  | engLdr e u => exact runs_engLdr σ e u
  | engLdm e u => exact runs_engLdm σ e u
  | engMov e u => exact runs_engMov σ e u
  | engLdi e u => exact runs_engLdi σ e u
  | engAdd e u => exact runs_engAdd σ e u
  | engSub e u => exact runs_engSub σ e u
  | engMul e u => exact runs_engMul σ e u
  | engMac e u => exact runs_engMac σ e u
  | engSat e u => exact runs_engSat σ e u
  | engClamp e u => exact runs_engClamp σ e u
  | engAbs e u => exact runs_engAbs σ e u
  | engPi e u => exact runs_engPi σ e u
  | engClarke e u => exact runs_engClarke σ e u
  | engPark e u => exact runs_engPark σ e u
  | engIpark e u => exact runs_engIpark σ e u
  | engSincos e u => exact runs_engSincos σ e u
  | engNco e u => exact runs_engNco σ e u
  | engSvm e u => exact runs_engSvm σ e u
  | engSt e u => exact runs_engSt σ e u
  | engSti e u => exact runs_engSti σ e u
  | engSto e u => exact runs_engSto σ e u
  | engTrip e u => exact runs_engTrip σ e u
  | engMark e u => exact runs_engMark σ e u
  | engBrf e u => exact runs_engBrf σ e u
  | illop e secded => exact runs_illop σ e secded
  | resultRelease e => exact runs_resultRelease σ e
  | vote e => exact runs_vote σ e
  | deadlineMiss e => exact runs_deadlineMiss σ e
  | fltRel init e faults => exact runs_fltRel σ init e faults
  | tripRel init e => exact runs_tripRel σ init e
  | publish init e => exact runs_publish σ init e
  | engCntClr init e => exact runs_engCntClr σ init e
  | ncoPhase init e value => exact runs_ncoPhase σ init e value
  | ncoFreq init e value => exact runs_ncoFreq σ init e value
  | freeze init e value => exact runs_freeze σ init e value
  | xBcc c cond disp ext => exact runs_xBcc σ c cond disp ext
  | xBra c disp ext => exact runs_xBra σ c disp ext
  | xJmp c n => exact runs_xJmp σ c n
  | xCall c target => exact runs_xCall σ c target
  | xCallr c n => exact runs_xCallr σ c n
  | xRet c => exact runs_xRet σ c
  | xReti c => exact runs_xReti σ c
  | xTrap c n => exact runs_xTrap σ c n
  | xMov c d n => exact runs_xMov σ c d n
  | xMovi c d f ext => exact runs_xMovi σ c d f ext
  | xMovhi c d f ext => exact runs_xMovhi σ c d f ext
  | xAdd c d n => exact runs_xAdd σ c d n
  | xAddi c d f ext => exact runs_xAddi σ c d f ext
  | xSub c d n => exact runs_xSub σ c d n
  | xCmp c d n => exact runs_xCmp σ c d n
  | xAnd c d n => exact runs_xAnd σ c d n
  | xOr c d n => exact runs_xOr σ c d n
  | xXor c d n => exact runs_xXor σ c d n
  | xShl c d n => exact runs_xShl σ c d n
  | xShr c d n => exact runs_xShr σ c d n
  | xAsr c d n => exact runs_xAsr σ c d n
  | xShli c d f ext => exact runs_xShli σ c d f ext
  | xShri c d f ext => exact runs_xShri σ c d f ext
  | xAsri c d f ext => exact runs_xAsri σ c d f ext
  | xNot c d => exact runs_xNot σ c d
  | xNeg c d => exact runs_xNeg σ c d
  | xAbs c d => exact runs_xAbs σ c d
  | xSextb c d => exact runs_xSextb σ c d
  | xSexth c d => exact runs_xSexth σ c d
  | xZextb c d => exact runs_xZextb σ c d
  | xZexth c d => exact runs_xZexth σ c d
  | xClz c d => exact runs_xClz σ c d
  | xMul c d n => exact runs_xMul σ c d n
  | xQmul c d n => exact runs_xQmul σ c d n
  | xQmac c d n => exact runs_xQmac σ c d n
  | xDivs c d n => exact runs_xDivs σ c d n
  | xDivu c d n => exact runs_xDivu σ c d n
  | xDadd c d n => exact runs_xDadd σ c d n
  | xDaddC c d n => exact runs_xDaddC σ c d n
  | xDsub c d n => exact runs_xDsub σ c d n
  | xDsubC c d n => exact runs_xDsubC σ c d n
  | xDadj c d => exact runs_xDadj σ c d
  | xDcmp c d n => exact runs_xDcmp σ c d n
  | xD2b c d => exact runs_xD2b σ c d
  | xB2d c d => exact runs_xB2d σ c d
  | xLd c d n ext env => exact runs_xLd σ c d n ext env
  | xSt c d n ext env => exact runs_xSt σ c d n ext env
  | xLoop c n disp ext => exact runs_xLoop σ c n disp ext
  | xLoopImm c count disp ext => exact runs_xLoopImm σ c count disp ext
  | xLpop c => exact runs_xLpop σ c
  | xLock c n => exact runs_xLock σ c n
  | xNop c => exact runs_xNop σ c
  | xWait c => exact runs_xWait σ c
  | xSyncp c => exact runs_xSyncp σ c
  | xSpill c env => exact runs_xSpill σ c env
  | xFill c env => exact runs_xFill σ c env
  | xMfc c d n ext => exact runs_xMfc σ c d n ext
  | xMtc c d n ext => exact runs_xMtc σ c d n ext
  | xBmov c n rd wr => exact runs_xBmov σ c n rd wr
  | xVmac c d n ra rb => exact runs_xVmac σ c d n ra rb
  | xBcrc c d n env => exact runs_xBcrc σ c d n env
  | lineFetch c a ecc parityFails => exact runs_lineFetch σ c a ecc parityFails
  | storeDrain c env => exact runs_storeDrain σ c env
  | impreciseStoreError c shadowNext => exact runs_impreciseStoreError σ c shadowNext
  | parityReplay x => exact runs_parityReplay σ x
  | interruptEntry c shadowNext => exact runs_interruptEntry σ c shadowNext
  | maskOverrun c shadowNext => exact runs_maskOverrun σ c shadowNext
  | coreReset c => exact runs_coreReset σ c
  | pulseSource n => exact runs_pulseSource σ n
  | levelSource n => exact runs_levelSource σ n
  | pendSet init w mask => exact runs_pendSet σ init w mask
  | pendClr init w mask => exact runs_pendClr σ init w mask
  | enSet init w mask => exact runs_enSet σ init w mask
  | enClr init w mask => exact runs_enClr σ init w mask
  | claim init c v peek => exact runs_claim σ init c v peek
  | complete init c v value => exact runs_complete σ init c v value
  | doorbell init value => exact runs_doorbell σ init value
  | extCfg init i0 value => exact runs_extCfg σ init i0 value
  | extintEdge i0 x => exact runs_extintEdge σ i0 x
  | fqHead init value => exact runs_fqHead σ init value
  | descriptorFetch env => exact runs_descriptorFetch σ env
  | progLines x => exact runs_progLines σ x
  | eraseSector => exact runs_eraseSector σ
  | eraseBank => exact runs_eraseBank σ
  | blankCheck f => exact runs_blankCheck σ f
  | verify f env => exact runs_verify σ f env
  | optWrite env => exact runs_optWrite σ env
  | optErase => exact runs_optErase σ
  | lineProgramEnd x => exact runs_lineProgramEnd σ x
  | descriptorCompletion failing => exact runs_descriptorCompletion σ failing
  | flcResume init => exact runs_flcResume σ init
  | suspend init => exact runs_suspend σ init
  | resumeErase init => exact runs_resumeErase σ init
  | flcCntClr init => exact runs_flcCntClr σ init
  | wpSet init w mask => exact runs_wpSet σ init w mask
  | flashRead init offset fetch ecc => exact runs_flashRead σ init offset fetch ecc
  | eraseSuspend => exact runs_eraseSuspend σ
  | eraseResume => exact runs_eraseResume σ
  | scrubRead ecc => exact runs_scrubRead σ ecc
  | scrubRefresh gone => exact runs_scrubRefresh σ gone
  | powerOnReset => exact runs_powerOnReset σ
  | resetN x => exact runs_resetN σ x
  | supplyMonitor rail below => exact runs_supplyMonitor σ rail below
  | supWarn below => exact runs_supWarn σ below
  | resetSequence env => exact runs_resetSequence σ env
  | atticIslandUp env => exact runs_atticIslandUp σ env
  | islandReset island env => exact runs_islandReset σ island env
  | debugReset => exact runs_debugReset σ
  | dbgPowerOn trstN => exact runs_dbgPowerOn σ trstN
  | hallResetCmd init => exact runs_hallResetCmd σ init
  | coreResetCmd init target => exact runs_coreResetCmd σ init target
  | islandResetCmd init target => exact runs_islandResetCmd σ init target
  | snapshot init => exact runs_snapshot σ init
  | shutdown init => exact runs_shutdown σ init
  | defSave init => exact runs_defSave σ init
  | pfailNFall => exact runs_pfailNFall σ
  | pfailNRise => exact runs_pfailNRise σ
  | snapshotEnd => exact runs_snapshotEnd σ
  | ledgerEntryWrite => exact runs_ledgerEntryWrite σ
  | ledgerClr init => exact runs_ledgerClr σ init
  | celCntClr init => exact runs_celCntClr σ init
  | armKeyReady init value => exact runs_armKeyReady σ init value
  | armKeyArm init value => exact runs_armKeyArm σ init value
  | armWindowExpiry => exact runs_armWindowExpiry σ
  | condChange k => exact runs_condChange σ k
  | disarm init => exact runs_disarm σ init
  | armCntClr init => exact runs_armCntClr σ init
  | safeNLow => exact runs_safeNLow σ
  | safeNHigh => exact runs_safeNHigh σ
  | watchdogTick => exact runs_watchdogTick σ
  | service init value => exact runs_service σ init value
  | watchdogExpiry => exact runs_watchdogExpiry σ
  | portUp p => exact runs_portUp σ p
  | ident p node up => exact runs_ident σ p node up
  | dlyReq p => exact runs_dlyReq σ p
  | dlyRsp p turnaround => exact runs_dlyRsp σ p turnaround
  | linkDelayMeasurement p => exact runs_linkDelayMeasurement σ p
  | portDown p => exact runs_portDown σ p
  | linkFault p => exact runs_linkFault σ p
  | unwrap p => exact runs_unwrap σ p
  | beacon node priority => exact runs_beacon σ node priority
  | masterElection => exact runs_masterElection σ
  | cycleStart => exact runs_cycleStart σ
  | frame f => exact runs_frame σ f
  | captureInstant => exact runs_captureInstant σ
  | applyInstant => exact runs_applyInstant σ
  | cycleLost => exact runs_cycleLost σ
  | referenceSwitch => exact runs_referenceSwitch σ
  | trip p origin seq ok => exact runs_trip σ p origin seq ok
  | record p origin seq time ok => exact runs_record σ p origin seq time ok
  | mailboxTimeout => exact runs_mailboxTimeout σ
  | pdPublish init => exact runs_pdPublish σ init
  | mbxSend init => exact runs_mbxSend σ init
  | rxPop init => exact runs_rxPop σ init
  | knrCntClr init => exact runs_knrCntClr σ init
  | odRequest m => exact runs_odRequest σ m
  | odRead env => exact runs_odRead σ env
  | odWrite env => exact runs_odWrite σ env
  | blockRead env drive => exact runs_blockRead σ env drive
  | blockWrite env => exact runs_blockWrite σ env
  | blockWriteEnd env => exact runs_blockWriteEnd σ env
  | odSave env => exact runs_odSave σ env
  | restoreDefaults env => exact runs_restoreDefaults σ env
  | usdoRequest client target op env drive => exact runs_usdoRequest σ client target op env drive
  | odsvc c node env drive => exact runs_odsvc σ c node env drive
  | featuresAccepted env => exact runs_featuresAccepted σ env
  | negotiationTimeout => exact runs_negotiationTimeout σ
  | odeCntClr init => exact runs_odeCntClr σ init
  | controlword env => exact runs_controlword σ env
  | targetTorque env => exact runs_targetTorque σ env
  | axisFault x => exact runs_axisFault σ x
  | recorderItem => exact runs_recorderItem σ
  | trig init => exact runs_trig σ init
  | windowClose => exact runs_windowClose σ
  | driveWrite window n r => exact runs_driveWrite σ window n r
  | perstRelease => exact runs_perstRelease σ
  | bringUp env => exact runs_bringUp σ env
  | bringUpRestart => exact runs_bringUpRestart σ
  | checkpoint r => exact runs_checkpoint σ r
  | ckpt init => exact runs_ckpt σ init
  | format init => exact runs_format σ init
  | atcRead init => exact runs_atcRead σ init
  | readbackEnd data status => exact runs_readbackEnd σ data status
  | smartPoll temp crit pct media r => exact runs_smartPoll σ temp crit pct media r
  | atcCntClr init => exact runs_atcCntClr σ init
  | markTag init value => exact runs_markTag σ init value
  | atticShutdown => exact runs_atticShutdown σ
  | extest balls cells => exact runs_extest σ balls cells
  | samplePreload balls cells => exact runs_samplePreload σ balls cells
  | idcode => exact runs_idcode σ
  | clamp => exact runs_clamp σ
  | highz => exact runs_highz σ
  | dbgacc write index data => exact runs_dbgacc σ write index data
  | bypass => exact runs_bypass σ
  | sapRead env => exact runs_sapRead σ env
  | sapWrite env => exact runs_sapWrite σ env
  | mcmdGo init => exact runs_mcmdGo σ init
  | memRead env => exact runs_memRead σ env
  | memWrite env => exact runs_memWrite σ env
  | monHalt => exact runs_monHalt σ
  | monResume => exact runs_monResume σ
  | monStep => exact runs_monStep σ
  | regRead => exact runs_regRead σ
  | regWrite => exact runs_regWrite σ
  | monUnlock => exact runs_monUnlock σ
  | unlock init => exact runs_unlock σ init
  | lockoutEnd => exact runs_lockoutEnd σ
  | traceClr init => exact runs_traceClr σ init
  | dbgReset init => exact runs_dbgReset σ init
  | cCmdHalt init c => exact runs_cCmdHalt σ init c
  | cCmdResume init c => exact runs_cCmdResume σ init c
  | cCmdStep init c => exact runs_cCmdStep σ init c
  | monitorEntry c shadowNext => exact runs_monitorEntry σ c shadowNext
  | spiTxdata init p value => exact runs_spiTxdata σ init p value
  | spiFrame p miso => exact runs_spiFrame σ p miso
  | spiRxdata init p peek => exact runs_spiRxdata σ init p peek
  | spiCntClr init p => exact runs_spiCntClr σ init p
  | uartTxdata init u value => exact runs_uartTxdata σ init u value
  | uartFrame u received => exact runs_uartFrame σ u received
  | uartRxdata init u peek => exact runs_uartRxdata σ init u peek
  | canFrame k f error => exact runs_canFrame σ k f error
  | txReq init k slots => exact runs_txReq σ init k slots
  | canTxDone k slot error => exact runs_canTxDone σ k slot error
  | canRxPop init k => exact runs_canRxPop σ init k
  | recover init k => exact runs_recover σ init k
  | xfer init i0 value => exact runs_xfer σ init i0 value
  | iicOperation i0 r => exact runs_iicOperation σ i0 r
  | iicRxdata init i0 peek => exact runs_iicRxdata σ init i0 peek
  | iicResume init i0 => exact runs_iicResume σ init i0
  | iicCntClr init i0 => exact runs_iicCntClr σ init i0
  | qepCountEdge d a b => exact runs_qepCountEdge σ d a b
  | zEdge z => exact runs_zEdge σ z
  | armZ init d => exact runs_armZ σ init d
  | qepCntClr init d => exact runs_qepCntClr σ init d
  | pos init d value => exact runs_pos σ init d value
  | outSet init hi mask => exact runs_outSet σ init hi mask
  | outClr init hi mask => exact runs_outClr σ init hi mask
  | gpioIrqEdge line x => exact runs_gpioIrqEdge σ line x
  | coreWatchdogTick n => exact runs_coreWatchdogTick σ n
  | coreWatchdogService init n value => exact runs_coreWatchdogService σ init n value
  | coreWatchdogExpiry n => exact runs_coreWatchdogExpiry σ n
  | hallResetStart => exact runs_hallResetStart σ
  | vddCelLoss => exact runs_vddCelLoss σ
  | xinClockChange present => exact runs_xinClockChange σ present
  | pcieLinkDown => exact runs_pcieLinkDown σ
  | busOffRecoveryEnd k => exact runs_busOffRecoveryEnd σ k

end Sys2Proof.Laws
end

