-- ==== Sys2Proof/Laws/Fields.lean ====
section
/-! SUPPORT. Frames by field: how "only these fields change" passes through updates. -/

namespace Sys2Proof.Safety

open Sys2Proof Sys2Proof.Machine Sys2Proof.Laws

variable {s t : State} {b : Nat} {fs : List Fld}

theorem OnlyFields.refl (s : State) (b : Nat) (fs : List Fld) : OnlyFields s s b fs := ⟨rfl, fun _ _ _ => rfl⟩

theorem OnlyFields.setF (h : OnlyFields s t b fs) {f : Fld} (v : Nat) (hf : f ∈ fs) (hi : f.hi < 32 := by decide) :
    OnlyFields s (t.setF b f v) b fs := by
  refine ⟨?_, fun b' g k => ?_⟩
  · have := h.rest
    rw [State.setF, State.wr, this]
  · rw [getF_setF_other t (k f hf) v hi, h.same b' g k]

theorem OnlyFields.setB (h : OnlyFields s t b fs) {f : Fld} (v : Bool) (hf : f ∈ fs) (hi : f.hi < 32 := by decide) :
    OnlyFields s (t.setB b f v) b fs := h.setF _ hf hi

theorem OnlyFields.setBit (h : OnlyFields s t b fs) {f : Fld} (i : Nat) (v : Bool) (hf : f ∈ fs)
    (hi : f.hi < 32 := by decide) : OnlyFields s (t.setBit b f i v) b fs := h.setF _ hf hi

theorem OnlyFields.mark (h : OnlyFields s t b fs) (b' : Nat) (f : Fld) : OnlyFields s (t.mark b' f) b fs := by
  refine ⟨?_, h.same⟩
  have := h.rest
  rw [State.mark, this]

theorem OnlyFields.countSat (h : OnlyFields s t b fs) {f : Fld} (n : Nat) (hf : f ∈ fs) (hi : f.hi < 32 := by decide) :
    OnlyFields s (t.countSat b f n) b fs := (h.mark b f).setF _ hf hi

theorem OnlyFields.clearCount (h : OnlyFields s t b fs) {f : Fld} (hf : f ∈ fs) (hi : f.hi < 32 := by decide) :
    OnlyFields s (t.clearCount b f) b fs := h.setF _ hf hi

theorem OnlyFields.foldl {α : Type} {f : State → α → State} (l : List α) (h : OnlyFields s t b fs)
    (k : ∀ u a, a ∈ l → OnlyFields s u b fs → OnlyFields s (f u a) b fs) : OnlyFields s (l.foldl f t) b fs := by
  induction l generalizing t with
  | nil => exact h
  | cons a l ih => exact ih (k t a List.mem_cons_self h) fun u b hb => k u b (List.mem_cons_of_mem _ hb)

/-- The counts of an indexed register, cleared one after the other. -/
theorem Cleared.each (s : State) (b n d : Nat) (f : Fld) (hd : 0 < d) (hf : f.hi < 32 ∧ f.lo ≤ f.hi) :
    Cleared s (s.forAll n fun t i => t.clearCount b (f.at (d * i))) b ((List.range n).map fun i => f.at (d * i)) := by
  refine ⟨fun g hg => ?_, ?_⟩
  · obtain ⟨i, hi, rfl⟩ := List.mem_map.1 hg
    have := foldl_range_get (fun t i => t.clearCount b (f.at (d * i))) (fun t i => t.getF b (f.at (d * i)))
      (fun t i => (t.marked b (f.at (d * i))).toNat)
      (fun t j => getF_clearCount_same t b (f.at (d * j)) hf)
      (fun t i j hij => getF_setF_reg t (by
        have : d * i ≠ d * j := fun e => hij (Nat.eq_of_mul_eq_mul_left hd e)
        show b + (f.off + d * j) ≠ b + (f.off + d * i)
        omega) _) (fun _ _ _ _ => rfl) n s i
    rw [if_pos (List.mem_range.1 hi)] at this
    exact this
  · exact (OnlyFields.refl s b _).foldl _ fun u i hi hu => hu.clearCount (List.mem_map.2 ⟨i, hi, rfl⟩) hf.1

end Sys2Proof.Safety
end

