-- ==== Sys2Proof/WellFormed.lean ====
section
/-! DEFINITION. Well-formed commands: the conditions on operands that their types do not carry. -/

namespace Sys2Proof

/-- A write of 8, 16, 32 or 64 bits within the 32-bit address space (R34). -/
def Access.wf (a : Access) : Bool := [8, 16, 32, 64].contains a.width && decide (a.addr < 2 ^ 32)

/-- A mailbox message: the fields' widths and at most 248 payload bytes (R446). -/
def RingMsg.wf (m : RingMsg) : Bool :=
  decide (m.dst < 256) && decide (m.src < 256) && decide (m.seq < 65536) && decide (m.svc < 16) && decide (m.kind ≤ 2)
    && decide (m.payload.length ≤ 248)

/-- What stands in a mailbox segment. -/
def MbxRun.wf : MbxRun → Bool
  | .free n => decide (1 ≤ n)
  | .msg m => m.wf

/-- A process-data segment: node 1 to 64, at most 32 blocks (R421, R428). -/
def RingSlot.wf (x : RingSlot) : Bool := decide (1 ≤ x.node) && decide (x.node ≤ 64) && decide (x.data.length ≤ 32)

/-- A frame: its fields' widths, its segments and messages (R427, R428). -/
def RingFrame.wf (f : RingFrame) : Bool :=
  decide (f.master < 128) && decide (f.accDly < 2 ^ 32) && decide (f.period < 2 ^ 16) && f.slots.all RingSlot.wf
    && f.mbx.all MbxRun.wf

/-- A CAN FD frame carries at most 64 data bytes (R529). -/
def CanFrame.wf (f : CanFrame) : Bool := decide (f.data.length ≤ 16)

/-- The sum of 256 raw codes (R105, R118). -/
def CalCodes.wf (c : CalCodes) : Bool := decide (-(256 * 32768) ≤ c.sum) && decide (c.sum ≤ 256 * 65535)

/-- Words that cannot be read are 64-bit words of the cellar store (R384). -/
def ResetEnv.wf (e : ResetEnv) : Bool :=
  e.unreadable.all fun a => a % 8 == 0 && decide (0x30000000 ≤ a) && decide (a < 0x30040000)

/-- A block that a drive Read returns has 1024 words (R486). -/
def driveWf (d : List (Option (List Word))) : Bool :=
  d.all fun b => match b with
    | some ws => ws.length == 1024
    | none => true

/-- A USDO segment or value fits a CAN FD frame (R468). -/
def UsdoOp.wf : UsdoOp → Bool
  | .download _ _ d => decide (d.length ≤ 64)
  | .downloadSegment d _ => decide (d.length ≤ 64)
  | _ => true

/-- A well-formed command. -/
def Instr.wf : Instr → Bool
  | .registerWrite a => a.wf
  | .eccWriteBack a => decide (a < 2 ^ 32)
  | .calibrationEnd _ c => c.wf
  | .resetSequence e | .atticIslandUp e | .islandReset _ e => e.wf
  | .dlyRsp _ t => decide (t < 2 ^ 32)
  | .frame f => f.wf
  | .odRequest m => m.wf
  | .blockRead _ d => driveWf d
  | .usdoRequest _ _ o _ d => o.wf && driveWf d
  | .odsvc _ _ _ d => driveWf d
  | .driveWrite _ n _ => decide (1 ≤ n.val)
  | .readbackEnd d _ => decide (d.length ≤ 8192)
  | .canFrame _ f _ => f.wf
  | _ => true

end Sys2Proof
end

