-- ==== Sys2Proof/Tests/Slice0.lean ====
section
/-! SUPPORT. Tests of the model: ill-formed commands that WellFormed refuses, states that meet the hypotheses of each
statement, clause by clause, and single steps whose results come from the spec. -/

namespace Sys2Proof.Tests

set_option Elab.async false

open Sys2Proof Sys2Proof.Machine Sys2Proof.Safety

/-! ### Small states -/

/-- `s` with fields of registers set. -/
def put (s : State) (l : List (Nat × Fld × Nat)) : State := l.foldl (fun s e => s.setF e.1 e.2.1 e.2.2) s

/-- The hall in which every island is up. -/
def up : State :=
  put { State.reset with cellar := { phase := .up, fresh := false } }
    [(SYS.base, SYS.ISL_STATUS.AISLE_UP, 7), (SYS.base, SYS.ISL_STATUS.CORE_UP, 15), (SYS.base, SYS.ISL_STATUS.RING_UP, 1),
     (SYS.base, SYS.ISL_STATUS.ATTIC_UP, 1), (SYS.base, SYS.ISL_STATUS.DEBUG_UP, 1)]


/-! ### Well-formed commands -/

def msg : RingMsg := { dst := 1, src := 2, seq := 3, svc := 1, kind := 0 }
def slot : RingSlot := { node := 1, data := [], written := 0, valid := true, armed := false }
def frame : RingFrame := { cycle := 0, master := 1, mt := 0, period := 80, tnext := 0 }

theorem accepts : Instr.wf (.registerWrite { init := 0, addr := 0x40000000, data := 0 }) = true ∧
    Instr.wf (.frame frame) = true ∧ Instr.wf (.odRequest msg) = true ∧
    Instr.wf (.canFrame 0 { id := 0, data := List.replicate 16 0 } false) = true ∧
    Instr.wf (.resetSequence { unreadable := [0x3003FFF8] }) = true ∧ Instr.wf (.driveWrite true 1 {}) = true ∧
    Instr.wf (.calibrationEnd 0 ⟨-8388608⟩) = true := by decide +kernel

theorem refuses_access :
    Instr.wf (.registerWrite { init := 0, addr := 0x40000000, width := 24, data := 0 }) = false ∧
    Instr.wf (.registerWrite { init := 0, addr := 0x100000000, data := 0 }) = false ∧
    Instr.wf (.eccWriteBack 0x100000000) = false := by decide +kernel

theorem refuses_message :
    Instr.wf (.odRequest { msg with dst := 256 }) = false ∧ Instr.wf (.odRequest { msg with src := 256 }) = false ∧
    Instr.wf (.odRequest { msg with seq := 65536 }) = false ∧ Instr.wf (.odRequest { msg with svc := 16 }) = false ∧
    Instr.wf (.odRequest { msg with kind := 3 }) = false ∧
    Instr.wf (.odRequest { msg with payload := List.replicate 249 0 }) = false := by decide +kernel

theorem refuses_slot : RingSlot.wf { slot with node := 0 } = false ∧ RingSlot.wf { slot with node := 65 } = false ∧
    RingSlot.wf { slot with data := List.replicate 33 0 } = false := by decide +kernel

theorem refuses_frame :
    Instr.wf (.frame { frame with master := 128 }) = false ∧ Instr.wf (.frame { frame with accDly := 2 ^ 32 }) = false ∧
    Instr.wf (.frame { frame with period := 65536 }) = false ∧
    Instr.wf (.frame { frame with slots := [{ slot with node := 0 }] }) = false ∧
    Instr.wf (.frame { frame with mbx := [.free 0] }) = false ∧
    Instr.wf (.frame { frame with mbx := [.msg { msg with dst := 256 }] }) = false := by decide +kernel

theorem refuses_operands :
    Instr.wf (.canFrame 0 { id := 0, data := List.replicate 17 0 } false) = false ∧
    Instr.wf (.calibrationEnd 0 ⟨-8388609⟩) = false ∧ Instr.wf (.calibrationEnd 0 ⟨16776961⟩) = false ∧
    Instr.wf (.resetSequence { unreadable := [0x30000004] }) = false ∧
    Instr.wf (.atticIslandUp { unreadable := [0x2FFFFFF8] }) = false ∧
    Instr.wf (.islandReset 0 { unreadable := [0x30040000] }) = false ∧
    Instr.wf (.dlyRsp 0 (2 ^ 32)) = false ∧ Instr.wf (.driveWrite true 0 {}) = false := by decide +kernel

theorem refuses_drive :
    Instr.wf (.blockRead [] [some []]) = false ∧ Instr.wf (.odsvc 0 0 [] [some []]) = false ∧
    Instr.wf (.usdoRequest 0 none (.upload 0 0) [] [some []]) = false ∧
    Instr.wf (.usdoRequest 0 none (.download 0 0 (List.replicate 65 0)) [] []) = false ∧
    Instr.wf (.usdoRequest 0 none (.downloadSegment (List.replicate 65 0) true) [] []) = false ∧
    Instr.wf (.readbackEnd (List.replicate 8193 0) 0) = false := by decide +kernel

/-! ### Where the statements' hypotheses hold -/

theorem wit_step : State.reset.pending = [] ∧ Canonical State.reset ∧ Canonical up ∧
    step State.reset = .next { State.reset with now := ac } := ⟨rfl, ⟨by decide +kernel, by decide +kernel⟩, ⟨by decide +kernel, by decide +kernel⟩, rfl⟩

/-- Every command register is reached in a hall that is up. -/
theorem wit_reaches :
    ([SYS.base + SYS.ECC_CMD.W.off, TRP.base + TRP.CMD.W.off, TRP.base + TRP.SWTRIP.W.off, FLC.base + FLC.CMD.W.off,
      FLC.base + FLC.FQ_HEAD.W.off, FLC.base + (FLC.WP_SET.MASK.at 28).off, CEL.base + CEL.CMD.W.off,
      CEL.base + CEL.RST_CMD.W.off, CEL.base + CEL.ARM_CMD.W.off, CEL.base + CEL.ARM_KEY.W.off, KNR.base + KNR.CMD.W.off,
      ODE.base + ODE.CMD.W.off, ATC.base + ATC.CMD.W.off, ATC.base + ATC.MARK_TAG.TAG.off, DBG.base + DBG.CMD.W.off,
      DBG.base + (DBG.C_CMD.W.at 0x180).off, CRI.base + CRI.DOORBELL.W.off, CRI.base + (CRI.EXT_CFG.W.at 28).off,
      CRI.base + (CRI.PEND_SET.W.at 28).off, CRI.base + (CRI.PEND_CLR.W.at 28).off, CRI.base + (CRI.EN_SET.W.at 28).off,
      CRI.base + (CRI.EN_CLR.W.at 28).off, CRI.base + (CRI.CLAIM.W.at (0x100 * 3 + 0x10 * 7)).off,
      CRI.base + (CRI.COMPLETE.W.at (0x100 * 3 + 0x10 * 7)).off, GPIO.base + GPIO.OUT_SET_LO.MASK.off,
      GPIO.base + GPIO.OUT_SET_HI.MASK.off, GPIO.base + GPIO.OUT_CLR_LO.MASK.off, GPIO.base + GPIO.OUT_CLR_HI.MASK.off] ++
     (List.range 3).map (fun a => AIS.base a + AIS.CMD.W.off) ++
     ((List.range 12).flatMap fun k => [CNV.base k + CNV.CMD.W.off, CAR.base k + CAR.CMD.W.off, ENG.base k + ENG.CMD.W.off,
       ENG.base k + ENG.NCO_PHASE.W.off, ENG.base k + ENG.NCO_FREQ.W.off, STL.base k + STL.DBG.W.off]) ++
     (List.range 24).map (fun c => CMP.base c + CMP.CMD.W.off) ++
     (List.range 48).map (fun l => LEG.base l + LEG.CMD.W.off) ++ [LEG.base 47 + LEG.GCOMMIT.W.off] ++
     (List.finRange 4).map (fun k => LEG.base 47 + (shadowReg k).off) ++
     (List.range 5).map (fun n => WDT.base n + WDT.SERVICE.W.off) ++
     (List.range 4).flatMap (fun p => [SPI.base p + SPI.CMD.W.off, SPI.base p + SPI.TXDATA.DATA.off,
       SPI.base p + SPI.RXDATA.DATA.off, QEP.base p + QEP.CMD.W.off, QEP.base p + QEP.POS.POS.off]) ++
     (List.range 2).flatMap (fun p => [UART.base p + UART.TXDATA.DATA.off, UART.base p + UART.RXDATA.W.off,
       CAN.base p + CAN.CMD.W.off, IIC.base p + IIC.CMD.W.off, IIC.base p + IIC.XFER.DATA.off,
       IIC.base p + IIC.RXDATA.DATA.off])).all (fun a => up.reach a == 0) = true := by decide +kernel

/-- Registers that a write reaches, misses, finds down, finds of another width; a plain one, a gated one in a block that is
enabled, and the low word of a 64-bit one. -/
theorem wit_register_writes :
    place 0x40300000 = none ∧ place 0x7FFFFFFF = none ∧ State.reset.islandUp .fabric = false ∧
    (place CRI.base).map Place.island = some .fabric ∧ (place 0x48FFFFFC).isSome = true ∧
    rowAt Blk.cri.map 0xFFFFFC = none ∧
    (up.special 0 ⟨.cnv, 0, 8⟩ 0 = none ∧ (rowAt Blk.cnv.map 8).isSome = true ∧ Place.pair ⟨.cnv, 0, 8⟩ = none) ∧
    (Place.pair ⟨.atc, 0, 0x10⟩ = some (0x10, false) ∧ up.special 0 ⟨.atc, 0, 0x10⟩ 0 = none ∧
      (rowAt Blk.atc.map 0x10).isSome = true) ∧
    (let s := put up [(CNV.base 11, CNV.CTRL.ENABLE, 1)]
     Blk.cnv.hasEnable = true ∧ (s.rd (CNV.base 11)).getLsbD 0 = true ∧
     ((rowAt Blk.cnv.map 8).map fun r => r.gated.testBit 0) = some true) := by decide +kernel

theorem wit_settled : up.settle = up ∧ up.arrive = up ∧ up.onEdge.writes = [] ∧ (2 : Fin 16) < 3 := by decide +kernel

/-- Sources that exist and do not, that are named, claimed, held and asserted. -/
theorem wit_crier :
    let s := put up [(CRI.base, CRI.CTRL.ENABLE, 1), (CRI.base, CRI.EN.EN.at 20, 2 ^ 26), (CRI.base, CRI.PEND.BITS.at 20, 2 ^ 26),
      (CRI.base, CRI.ROUTE.CORE.at (4 * 186), 3), (CRI.base, CRI.ROUTE.LVL.at (4 * 186), 7),
      (CRI.base, CRI.ACTIVE.BITS.at 4, 2), (CRI.base, CRI.ROUTE.ACT_CORE.at (4 * 33), 3),
      (CRI.base, CRI.ROUTE.ACT_LVL.at (4 * 33), 7), (CRI.base, CRI.LINE.BITS, 2 ^ 31)]
    sourceExists 1 = true ∧ sourceExists 186 = true ∧ sourceExists 0 = false ∧ sourceExists 187 = false ∧
    Names 5 0x04000000 186 ∧ Names 0 2 1 ∧
    s.offered 3 7 186 = true ∧ up.offered 3 7 186 = false ∧
    (sourceExists 33 = true ∧ s.srcActive 33 = true ∧ s.getF CRI.base (CRI.ROUTE.ACT_CORE.at (4 * 33)) = 3 ∧
      s.getF CRI.base (CRI.ROUTE.ACT_LVL.at (4 * 33)) = 7) ∧ up.srcActive 33 = false ∧
    (s.srcBit CRI.LINE.BITS 31 = true ∧ s.srcActive 31 = false) := by decide +kernel

theorem wit_sources :
    (let s := { up with crier := { up.crier with launched := [186, 1] } }
     (186 ∈ s.crier.launched ∧ sourceExists 186 = true) ∧ (1 ∈ s.crier.launched ∧ sourceExists 1 = true)) ∧
    (sourceExists 49 = true ∧ blockLevel 49 = true ∧ sourceExists 101 = true ∧ blockLevel 101 = false) ∧
    (255 : Word).toNat < 256 ∧ (128 : Word).toNat.testBit (186 - 179) = true := by decide +kernel

/-- A carrier that starts, one that counts up, one that counts down, and one that waits for its market position. -/
def carrier (dir wait : Nat) (c : Carrier) : State :=
  { put up [(CAR.base 11, CAR.CTRL.ENABLE, 1), (CAR.base 11, CAR.STATUS.DIR, dir), (CAR.base 11, CAR.STATUS.WAIT, wait),
      (CAR.base 11, CAR.EV_ACT.EVA, 1000), (CAR.base 11, CAR.EV_ACT.EVB, 999)] with car := up.car.set 11 c }

theorem wit_carrier :
    ((carrier 0 0 { starting := true }).carOn 11 = true ∧ (carrier 0 0 { starting := true }).car[11].starting = true) ∧
    ((carrier 1 0 {}).carRuns 11 = true ∧ (carrier 1 0 {}).carDown 11 = true) ∧
    ((carrier 0 1 {}).carOn 11 = true ∧ (carrier 0 1 {}).getB (CAR.base 11) CAR.STATUS.WAIT = true) ∧
    ((carrier 0 0 {}).carRuns 11 = true ∧ (carrier 0 0 {}).carDown 11 = false) ∧
    (let s := carrier 0 0 {}
     s.getF (CAR.base 11) CAR.EV_ACT.EVB < s.prd 11 ∧ s.car[11].evb = false ∧ s.car[11].eva = false ∧
     (put s [(CAR.base 11, CAR.EV_ACT.EVA, 0)]).getF (CAR.base 11) CAR.EV_ACT.EVA < s.prd 11) ∧
    (let s := carrier 1 0 {}
     0 < s.getF (CAR.base 11) CAR.EV_ACT.EVA ∧ s.getF (CAR.base 11) CAR.EV_ACT.EVA ≤ s.prd 11 ∧
     0 < s.getF (CAR.base 11) CAR.EV_ACT.EVB ∧ s.getF (CAR.base 11) CAR.EV_ACT.EVB ≤ s.prd 11) ∧
    ((carrier 0 0 {}).carAt 11).edge = (carrier 0 0 {}).now ∧
    (let s := carrier 0 1 {}
     s.clock.slew = 0 ∧ s.clock.since ≤ s.now ∧
     s.marketUnits + 2 * ac * max 100 (s.getF (CAR.base 11) CAR.PRD.PRD) < 2 ^ 64 * ns) := by decide +kernel

theorem wit_aisle :
    (0xF : BitVec 4) ≠ 0 ∧ up.getB (AIS.base 2) AIS.CTRL.ENABLE = false ∧
    (put up [(AIS.base 2, AIS.BLK_STAT.OPEN.at 56, 1)]).getB (AIS.base 2) (AIS.BLK_STAT.OPEN.at (8 * 7)) = true ∧
    (up.islandUp .ring = true ∧ up.islandUp (.aisle 2) = true ∧
      2 * (((up.marketUnits % ac : Nat) : Int) - (tick64 * (0 : Fin 65) : Nat)).natAbs ≤ tick64) ∧
    (put up [(AIS.base 2, AIS.STATUS.PHASE_VALID, 1)]).getB (AIS.base 2) AIS.STATUS.PHASE_VALID = true := by decide +kernel

/-- A comparator that runs, is sampled, settles, latches; a release with and without a violation. -/
theorem wit_comparator :
    (let s := put up [(CMP.base 23, CMP.CTRL.ENABLE, 1)]
     s.getB (CMP.base 23) CMP.CTRL.ENABLE = true ∧ s.getB (CMP.base 23) CMP.CTRL.SAMPLED = false ∧
     s.getB (CMP.base 23) CMP.STATUS.SETTLING = false ∧ s.cmp[23].thrAt = 0 ∧
     s.getB (CMP.base 23) CMP.STATUS.LATCH_MODE = false) ∧
    (let s := { put up [(CMP.base 23, CMP.STATUS.SETTLING, 1)] with cmp := up.cmp.set 23 { thrAt := 8, settleAt := 8 + 40 * ac } }
     s.getB (CMP.base 23) CMP.STATUS.SETTLING = true ∧ s.cmp[23].thrAt + 40 * ac ≤ max s.now s.cmp[23].settleAt) ∧
    (let s := { put up [(CMP.base 23, CMP.STATUS.LATCH_MODE, 1)] with cmp := up.cmp.set 23 { ticks := [5] } }
     s.cmp[23].ticks = 5 :: [] ∧ s.cmp[23].thrAt = 0 ∧ s.getB (CMP.base 23) CMP.STATUS.LATCH_MODE = true ∧
     s.cmp[23].ticks.any (fun e => s.now < e) = true) ∧
    (let s := put up [(CMP.base 23, CMP.CTRL.ENABLE, 1), (CMP.base 23, CMP.CTRL.SAMPLED, 1)]
     s.getB (CMP.base 23) CMP.CTRL.ENABLE = true ∧ s.getB (CMP.base 23) CMP.CTRL.SAMPLED = true ∧
     s.cmp[23].ticks.any (fun e => s.now < e) = false) ∧
    (let s := { put up [(CMP.base 23, CMP.CTRL.ENABLE, 1), (CMP.base 23, CMP.CTRL.SAMPLED, 1), (CMP.base 23, CMP.CTRL.TICK_CEL, 1)] with
       cmp := up.cmp.set 23 { tickAt := some 1, ticks := [2 ^ 40] } }
     s.getB (CMP.base 23) CMP.CTRL.SAMPLED = true ∧ s.getB (CMP.base 23) CMP.CTRL.TICK_CEL = true ∧ s.cmp[23].tickAt = some 1 ∧
     s.cmp[23].ticks.any (fun e => max s.now (edgeUp (s.cellar.powerOnAt + 1 * rtcPeriod + 2 * ac)) < e) = true) ∧
    (ac ≤ ac ∧ ac < 2 * ac ∧ ac ≤ 0 + ac ∧ 2 * ac ≤ 2 * ac ∧ 0 + ac < ac + 1 ∧ ac - 1 < ac) ∧
    (let s := put up [(CMP.base 23, CMP.LATCH.LATCH, 1)]
     s.getB (CMP.base 23) CMP.LATCH.LATCH = true ∧ s.getB (CMP.base 23) CMP.STATUS.VIOL = false ∧ s.cmp[23].violFell = 0 ∧
     up.getB (CMP.base 23) CMP.LATCH.LATCH = false) ∧
    (let s := { put up [(CMP.base 23, CMP.LATCH.LATCH, 1)] with cmp := up.cmp.set 23 { violFell := 8 }, now := 8 + ac }
     s.getB (CMP.base 23) CMP.LATCH.LATCH = true ∧ s.getB (CMP.base 23) CMP.STATUS.VIOL = false ∧
     s.cmp[23].violFell + ac ≤ s.now) ∧
    (let s := put up [(CMP.base 23, CMP.LATCH.LATCH, 1), (CMP.base 23, CMP.STATUS.VIOL, 1)]
     s.getB (CMP.base 23) CMP.LATCH.LATCH = true ∧ s.getB (CMP.base 23) CMP.STATUS.VIOL = true) := by decide +kernel

/-- Converter 11 enabled with two inputs in its scan and a trigger mode. -/
def converter (mode : Nat) (l : List (Nat × Fld × Nat)) (c : Converter) : State :=
  { put up ([(CNV.base 11, CNV.CTRL.ENABLE, 1), (CNV.base 11, CNV.CTRL.SCAN_MASK, 0x81), (CNV.base 11, CNV.CTRL.TRIG_SRC, mode)]
      ++ l) with cnv := up.cnv.set 11 c }

def scan : Scan := { group := none, elems := [0, 7], total := 2, apt := ac, acq := 12 }

theorem wit_triggers :
    (let s := converter 1 [] {}
     s.groupOf 11 = none ∧ s.cnvOn 11 = true ∧ s.scanElems 11 ≠ [] ∧ s.getF (CNV.base 11) CNV.CTRL.TRIG_SRC < 2 ∧
     s.cnvIdle 11 = true ∧ s.cnv[11].pinAt ≠ some s.now ∧
     s.cnv[11].firedAt ≠ some s.now) ∧
    (let s := converter 3 [] { scan := some scan }
     s.groupOf 11 = none ∧ s.cnvOn 11 = true ∧ s.getF (CNV.base 11) CNV.CTRL.TRIG_SRC = 3 ∧
     s.getB (CNV.base 11) CNV.STATUS.RUN = false ∧ s.cnvIdle 11 = false) ∧
    (up.cnvOn 11 = false ∧ (converter 2 [] {}).getF (CNV.base 11) CNV.CTRL.TRIG_SRC = 2 ∧
      ((converter 0 [(AIS.base 2, AIS.SG_CFG.MEMBERS.at 48, 8)] {}).groupOf 11).isSome = true) ∧
    (let s := converter 3 [(CNV.base 11, CNV.STATUS.RUN, 1)] {}
     s.getB (CNV.base 11) CNV.STATUS.RUN = true) ∧
    (let s := converter 3 [] {}
     s.getB (CNV.base 11) CNV.STATUS.RUN = false ∧ s.cnv[11].stopAt ≠ some s.now ∧ s.cnv[11].stopPin.isNone = true) ∧
    (let s := { converter 1 [(CNV.base 11, CNV.TRIGPIN.FILT, 2), (CNV.base 11, CNV.TRIGPIN.START_PIN, 5),
       (CNV.base 11, CNV.TRIGPIN.STOP_PIN, 5)] {} with now := 10 * ac }
     (5 : Fin 8).val = s.getF (CNV.base 11) CNV.TRIGPIN.START_PIN ∧ (5 : Fin 8).val = s.getF (CNV.base 11) CNV.TRIGPIN.STOP_PIN ∧
     s.passes ⟨true, 4 * ac⟩ ac (s.getF (CNV.base 11) CNV.TRIGPIN.FILT) s.cnv[11].filterFrom = true ∧
     s.passes ⟨true, 0⟩ ac (s.getF (CNV.base 11) CNV.TRIGPIN.FILT) s.cnv[11].filterFrom = false) ∧
    (let s := converter 1 [(CNV.base 11, CNV.TRIGPIN.START_EDGE, 1), (CNV.base 11, CNV.TRIGPIN.STOP_EDGE, 2)] { stopLevel := true }
     s.cnv[11].startFresh = false ∧ s.cnv[11].startLevel ≠ true ∧ s.getF (CNV.base 11) CNV.TRIGPIN.START_EDGE = 1 ∧
     s.cnv[11].stopFresh = false ∧ s.cnv[11].stopLevel ≠ false ∧ s.getF (CNV.base 11) CNV.TRIGPIN.STOP_EDGE = 2 ∧
     (converter 1 [] { startFresh := true }).cnv[11].startFresh = true) ∧
    (let s := converter 2 [] { again := true }
     s.cnv[11].again = true ∧ s.cnvIdle 11 = true ∧ s.cnv[11].waiting = [] ∧ s.cnvOn 11 = true ∧
     s.groupOf 11 = none) := by decide +kernel

/-- A group of aisle 2 that fires: with its member idle and acquired, and with its member converting. -/
theorem wit_group :
    (let s := { converter 0 [(AIS.base 2, AIS.CTRL.ENABLE, 1), (AIS.base 2, AIS.SG_CFG.MEMBERS.at 48, 8)] {} with now := 12 * ac }
     s.getB (AIS.base 2) AIS.CTRL.ENABLE = true ∧ (s.aisleAt 2).sgFired[3] ≠ some s.now ∧
     (s.groupOf 11 = some 3 ∧ s.cnvOn 11 = true) ∧ s.cnvIdle 11 = true ∧ s.scanElems 11 ≠ [] ∧
     s.cnv[11].acqFrom + max 12 (s.getF (AIS.base 2) (AIS.SG_CFG.ACQ.at 48)) * ac ≤
       edgeUp s.now + s.phaseDelay 2 + tick64 * s.getF (AIS.base 2) (AIS.SG_DLY.APT_DLY.at 48) ∧
     (∀ j : Fin 12, j ≠ 11 → s.cnvOn j = false)) ∧
    (let s := converter 0 [(AIS.base 2, AIS.CTRL.ENABLE, 1), (AIS.base 2, AIS.SG_CFG.MEMBERS.at 48, 8)] { scan := some scan }
     s.groupOf 11 = some 3 ∧ s.cnvOn 11 = true ∧ s.cnvIdle 11 = false) := by decide +kernel

/-- The stages of an element, of a single and a paired input and of input 6; a scan without elements. -/
theorem wit_elements :
    ({ scan with elems := [] }.elems = [] ∧ scan.angled = false ∧ { scan with angled := true }.angled = true) ∧
    ((up.cmpAt (2 * 11 + 1)).thrAt = 0 ∧ { scan with dac := 4095 }.dac < 4096 ∧ { scan with elems := [6] }.elems[0]? = some 6) ∧
    (scan.elems[scan.idx]? = some 0 ∧ scan.conv = none) ∧ ({ scan with idx := 1 }.elems[1]? = some 7) ∧
    (let x := { scan with conv := some (7, 2 * ac) }
     (converter 0 [] { scan := some x }).cnv[11].scan = some x ∧ x.conv = some ((7 : Fin 8).val, 2 * ac) ∧ x.raw = none ∧
     (converter 0 [] {}).paired 11 7 = false) ∧
    (converter 0 [(CNV.base 11, CNV.CTRL.DIFF01, 1)] {}).paired 11 0 = true ∧
    (let x := { scan with conv := some (7, 2 * ac), raw := some 65535 }
     (converter 0 [] { scan := some x }).cnv[11].scan = some x ∧ x.raw = some 65535) := by decide +kernel

theorem wit_calibration :
    (converter 0 [] {}).cnvOn 11 = true ∧ up.cnvOn 11 = false ∧ up.oddOfPair 11 1 = false ∧
    (put up [(CNV.base 11, CNV.CTRL.DIFF01, 1)]).oddOfPair 11 1 = true ∧
    ({ up with cnv := up.cnv.set 11 { waiting := [.diag] } } : State).cnv[11].waiting ≠ [] ∧
    (let x : CalRun := { full := true, input := 7, paired := false, fs := 65536, endAt := 5 }
     let s : State := { up with cnv := up.cnv.set 11 { cal := some x } }
     s.cnv[11].cal = some x ∧ x.input = (7 : Fin 8).val) ∧
    (let x : CalRun := { full := false, input := 6, paired := false, fs := 0, endAt := 256 * 40 * ac }
     let s : State := { up with cnv := up.cnv.set 11 { cal := some x } }
     s.cnv[11].cal = some x ∧ x.input = (6 : Fin 8).val ∧ x.counted ≤ 256 ∧ x.sum ≤ 65520 * x.counted ∧ x.counted = 0 ∧
     x.sum = 0 ∧ x.endAt = x.startAt + 256 * (x.acq + 28) * ac ∧ (s.cmpAt (2 * 11 + x.loop / 2)).thrAt = 0) := by decide +kernel

theorem wit_checks :
    (up.cnv[11].diag = none ∧ Side.diag ∉ up.cnv[11].waiting ∧ up.cnv[11].check = none) ∧
    (let s : State := { up with cnv := up.cnv.set 11 { waiting := [.diag, .check] } }
     s.cnv[11].waiting = .diag :: [.check] ∧ Side.check ∈ s.cnv[11].waiting ∧ s.sideMayStart 11 = true) ∧
    (let s : State := { up with cnv := up.cnv.set 11 { waiting := [.check] } }
     s.cnv[11].waiting = .check :: [] ∧ s.sideMayStart 11 = true) ∧
    (let s : State := { up with cnv := up.cnv.set 11 { diag := some { mask := 9, endAt := 7 }, check := some ⟨7, 4, false⟩ } }
     s.cnv[11].diag = some { mask := 9, endAt := 7 } ∧ s.cnv[11].check = some ⟨7, 4, false⟩ ∧
     ((List.range 4).filter (9 : BitVec 4).getLsbD)[1]? = some 3 ∧ 1 + 1 = ((List.range 4).filter (9 : BitVec 4).getLsbD).length) ∧
    (let s := { converter 0 [(CNV.base 11, CNV.CTRL.BG_EN, 1), (AIS.base 2, AIS.SG_CFG.MEMBERS.at 48, 8),
       (AIS.base 2, AIS.SG_CFG.TRIG.at 48, 24), (CAR.base 11, CAR.CTRL.ENABLE, 1)] { attempt := true } with now := ac }
     s.bgOn 11 = true ∧ s.cnv[11].attempt = true ∧ s.cnv[11].waiting = [] ∧ s.slot 11 = true) := by decide +kernel

/-- A running leg and its carrier: with and without CGATE, at a transfer event and between, in the immediate mode. -/
def leg (dir mode : Nat) (l : List (Nat × Fld × Nat)) (now : Nat) (x : Leg) : State :=
  { put up ([(CAR.base 11, CAR.CTRL.ENABLE, 1), (CAR.base 11, CAR.STATUS.DIR, dir), (LEG.base 47, LEG.CTRL.XFER, mode),
      (LEG.base 47, LEG.STATUS.RUN, 1)] ++ l) with now := now, leg := up.leg.set 47 x }

theorem wit_landings :
    (leg 0 0 [] 0 {}).settle = leg 0 0 [] 0 {} ∧
    (let s := leg 0 0 [] 0 {}
     s.cgate 47 = false ∧ s.carRuns (s.carOf (47 / 4)) = true ∧ (s.carAt (s.carOf (47 / 4))).edge = s.now ∧
     xferTakes 0 (!s.carDown (s.carOf (47 / 4))) = true) ∧
    (put up [(LEG.base 47, LEG.CTRL.CGATE, 1)]).cgate 47 = true ∧ up.carRuns (up.carOf (47 / 4)) = false ∧
    (let s := leg 0 0 [] 8 {}
     s.carRuns (s.carOf (47 / 4)) = true ∧ (s.carAt (s.carOf (47 / 4))).edge ≠ s.now ∧ s.getF (LEG.base 47) LEG.CTRL.XFER ≠ 3) ∧
    (let s := leg 0 0 [] (1000 * ac) {}
     s.turnDue (s.carOf (47 / 4)) = true ∧ xferTakes 1 (s.carDown (s.carOf (47 / 4))) = true) ∧
    (let s := leg 0 3 [] 8 {}
     s.carRuns (s.carOf (47 / 4)) = true ∧ (s.carAt (s.carOf (47 / 4))).edge ≠ s.now ∧ s.getF (LEG.base 47) LEG.CTRL.XFER = 3) ∧
    (0x10000 ≤ (0x10000 : Word).toNat ∧ (0xFFFF : Word).toNat < 0x10000 ∧ (0x8000 : Word).toNat.testBit 15 = true) := by
  decide +kernel

theorem wit_modulation :
    (let s := leg 0 0 [(LEG.base 47, LEG.STATUS.M, 1), (LEG.base 47, LEG.CMP_UP_ACT.VALUE, 63999)] 0 {}
     s.getB (LEG.base 47) LEG.STATUS.RUN = true ∧ s.carRuns (s.carOf (47 / 4)) = true ∧ s.carDown (s.carOf (47 / 4)) = false ∧
     s.getB (LEG.base 47) LEG.STATUS.M = true ∧ (s.activeSet 47).up < 64 * s.prd (s.carOf (47 / 4))) ∧
    (let s := leg 1 0 [(LEG.base 47, LEG.CMP_DN_ACT.VALUE, 1)] 0 {}
     s.carDown (s.carOf (47 / 4)) = true ∧ s.getB (LEG.base 47) LEG.STATUS.M = false ∧ 0 < (s.activeSet 47).dn) ∧
    ((leg 0 0 [] 0 { hiRise := some 5 }).legAt 47).hiRise = some 5 ∧
    (((leg 0 0 [] 0 { loRise := some 5 }).legAt 47).hiRise = none ∧ ((leg 0 0 [] 0 { loRise := some 5 }).legAt 47).loRise = some 5) ∧
    up.armedAt 47 = false ∧
    (let s := leg 0 0 [(LEG.base 47, LEG.STATUS.M, 1)] 0 { placed := some 5, turned := some (0, ⟨true, true, true, false, none, none, 0, 0, true, false⟩) }
     (s.legAt 47).placed.isSome = true ∧ s.settle = s ∧ s.nextLanding (edgeDown 5) = none ∧ (s.compareInst 47).isSome = true) ∧
    (let s := leg 0 0 [] 0 { hiRise := some 7, loRise := some 5 }
     s.riseDue 47 = some 5 ∧ (s.legAt 47).loRise = some 5) ∧
    (let armed (x : Leg) (l : List (Nat × Fld × Nat)) : State := { leg 0 0 l 0 x with aisle := up.aisle.set 2 { arm := 2 } }
     (let s := armed { held := true, acts := 2 } []
      s.armedAt 47 = true ∧ s.tripAction 47 = .lowOn ∧ (s.legAt 47).hiRise = none ∧ (s.legAt 47).loRise = none ∧
      (s.riseDue 47).isSome = true) ∧
     (armed { held := true, acts := 4 } []).tripAction 47 = .highOn ∧
     (let s := armed {} [(LEG.base 47, LEG.CTRL.ENABLE, 1), (LEG.base 47, LEG.CTRL.FORCE_HI, 2)]
      s.tripAction 47 = .pass ∧ s.asks 47 = (true, false) ∧ s.getB (LEG.base 47) LEG.STATUS.HI_BALL = false) ∧
     (let s := armed {} [(LEG.base 47, LEG.CTRL.ENABLE, 1), (LEG.base 47, LEG.CTRL.FORCE_LO, 2)]
      s.tripAction 47 = .pass ∧ s.asks 47 = (false, true))) ∧
    (let s : State := { leg 0 0 [] 0 { held := true, acts := 1 } with aisle := up.aisle.set 2 { arm := 2 } }
     s.armedAt 47 = true ∧ (s.legAt 47).held = true ∧ (s.legAt 47).acts.getLsbD 0 = true) ∧
    (let s : State := { up with aisle := up.aisle.set 2 { arm := 2 } }
     s.armedAt 47 = true ∧ (s.legAt 47).held = false ∧ s.getB (LEG.base 47) LEG.CTRL.ENABLE = false) := by decide +kernel

/-- No store lands by the instants of these edges. -/
theorem wit_aisle_time : up.aisleTime 64000 = { up with now := 64000 } ∧
    (let s := leg 0 0 [] 0 {}
     s.settle = s ∧ s.nextLanding 64000 = none ∧ s.compareInst 47 = none ∧ s.riseDue 47 = none) := by decide +kernel

theorem wit_trips :
    (let s := put up [(TRP.base, TRP.CTRL.ENABLE, 1), (TRP.base, TRP.SWTRIP.ACTIVE, 1), (TRP.base, TRP.SRC_CFG.GROUPS.at (4 * 44), 0x8000)]
     s.srcAct 44 = false ∧ s.srcLevel 44 = true ∧ s.mapped 44 15 = true ∧ s.getB TRP.base TRP.CTRL.ENABLE = true ∧
     s.cbc 15 = false ∧ s.srcAct 45 = s.srcLevel 45 ∧ (1 : Word).toNat.testBit 0 = true) ∧
    (let s := put up [(TRP.base, TRP.SRC_CFG.FILT.at 28, 2)]
     let s := { s with now := 10 * ac }
     s.passes ⟨true, 4 * ac⟩ ac (s.getF TRP.base (TRP.SRC_CFG.FILT.at 28)) 0 = true ∧
     s.passes ⟨true, 3 * ac⟩ ac (s.getF TRP.base (TRP.SRC_CFG.FILT.at 28)) 0 = false) ∧
    (let s := { put up [(TRP.base, TRP.SWTRIP.ACTIVE, 1), (TRP.base, TRP.SRC_CFG.GROUPS.at (4 * 44), 0x8000)] with
       trip := { released := some ⟨0, 0x8000, none, false⟩ } }
     s.srcAct 44 = false ∧ s.srcLevel 44 = true ∧ s.mapped 44 15 = true ∧ s.cbc 15 = false ∧ s.releasedNow 15 = true) ∧
    (true != up.getB TRP.base (TRP.SRC_CFG.POL.at 28) && !up.srcBlanked 7 (up.pinAisle 7) && up.aisleUp (up.pinAisle 7)) = true ∧
    (let s := { put up [(TRP.base, TRP.SRC_CFG.GROUPS.at (4 * 45), 0x8000)] with trip := { latch := 0x8000 } }
     s.latched 15 = true ∧ (0x8000 : BitVec 16).getLsbD 15 = true ∧
     ∀ i : Fin 46, s.mapped i 15 = true → s.srcAct i = false ∧ s.trip.fell[i] = 0) ∧
    (let s := { put up [(TRP.base, TRP.SRC_CFG.GROUPS.at (4 * 45), 0x8000)] with
       trip := { latch := 0x8000, fell := up.trip.fell.set 45 8 }, now := 8 + ac }
     s.mapped 45 15 = true ∧ s.srcAct 45 = false ∧ s.trip.fell[45] + ac ≤ s.now) ∧
    (let s := { put up [(TRP.base, TRP.SRC_CFG.GROUPS.at (4 * 45), 0x8000), (TRP.base, TRP.SRC_ACT1.ACT, 0x2000)] with
       trip := { latch := 0x8000 } }
     s.latched 15 = true ∧ s.mapped 45 15 = true ∧ s.srcAct 45 = true) ∧
    (let s := put up [(TRP.base, TRP.GRP_LEGS_HI.LEGS.at (8 * 15), 0x8000), (TRP.base, TRP.GRP_STATUS.ACTIVE, 0x8000)]
     s.aisleUp 2 = true ∧ s.groupNames 15 (16 * 2 + 15) = true ∧ s.bit TRP.base TRP.GRP_STATUS.ACTIVE 15 = true ∧
     s.groupNames 15 0 = false) ∧
    (let s := put up [(TRP.base, TRP.GRP_LEGS_HI.LEGS.at (8 * 15), 0x8000), (TRP.base, TRP.GRP_LEGS_HI.LEGS.at (8 * 14), 0x8000)]
     s.groupNames 15 47 = true ∧ s.bit TRP.base TRP.GRP_STATUS.ACTIVE 15 = false ∧ s.carOn (s.carOf (47 / 4)) = false ∧
     (∀ p : Fin 16, (s.aisleAt 2).groups.getLsbD p = false) ∧
     ({ s with aisle := up.aisle.set 2 { groups := 0x4000 } }.aisleAt 2).groups.getLsbD 14 = true ∧ s.groupNames 14 47 = true) ∧
    (let s := { put up [(CAR.base 11, CAR.CTRL.ENABLE, 1), (TRP.base, TRP.GRP_LEGS_HI.LEGS.at (8 * 15), 0x8000)] with now := ac }
     s.carOn (s.carOf (47 / 4)) = true ∧ s.zeroNow (s.carOf (47 / 4)) = false) := by decide +kernel

/-- The arming machine in state `n`, with the conditions `cond`, a first key by initiator 15 and a window to 1000. -/
def arming (n cond : Nat) : State :=
  { put up [(CEL.base, CEL.ARM_STATE.STATE, n), (CEL.base, CEL.ARM_STATE.COND, cond)] with
    cellar := { up.cellar with keyBy := 15, keyUntil := 1000, expiry := up.cellar.expiry.set 4 (some (1, 7)) }, now := 1000 }

theorem wit_arming :
    (let s := arming 0 31
     s.getF CEL.base CEL.ARM_STATE.STATE = 0 ∧ s.getF CEL.base CEL.ARM_STATE.COND = 31 ∧ (0x5A1E : Word).toNat = 0x5A1E ∧
     s.cellar.disarmAt ≠ some s.now) ∧
    (let s := { arming 0 31 with cellar := { (arming 0 31).cellar with disarmAt := some 1000 } }
     s.getF CEL.base CEL.ARM_STATE.STATE = 0 ∧ ¬ s.cellar.disarmAt ≠ some s.now) ∧
    (let s := arming 1 31
     s.getF CEL.base CEL.ARM_STATE.STATE = 1 ∧ (0xC0DE : Word).toNat = 0xC0DE ∧ (15 : Fin 16).val = s.cellar.keyBy ∧
     s.now ≤ s.cellar.keyUntil ∧ s.getF CEL.base CEL.ARM_STATE.COND = 31) ∧
    (let s := { arming 0 23 with cellar := { (arming 0 23).cellar with readyEnd := some ⟨1000, 7, 5, 1, true⟩ } }
     s.getF CEL.base CEL.ARM_STATE.STATE = 0 ∧ s.cellar.disarmAt ≠ some s.now ∧
     s.cellar.readyEnd = some ⟨1000, 7, 5, 1, true⟩ ∧ (⟨1000, 7, 5, 1, true⟩ : ReadyEnd).edge = s.now ∧
     s.getF CEL.base CEL.ARM_STATE.COND = 23) ∧
    (let s := { arming 2 31 with cellar := { (arming 2 31).cellar with keyArm := some ⟨1000, 1, 1, [], 5, 1⟩ } }
     s.getF CEL.base CEL.ARM_STATE.STATE = 2 ∧ s.cellar.keyArm = some ⟨1000, 1, 1, [], 5, 1⟩ ∧
     (⟨1000, 1, 1, [], 5, 1⟩ : KeyArm).edge = s.now) ∧
    (let s := { arming 2 31 with now := 8 * ac, cellar := { (arming 2 31).cellar with safeAt := some 0 } }
     1 ≤ s.getF CEL.base CEL.ARM_STATE.STATE ∧ s.cellar.safeN = true ∧ (∀ e, s.cellar.safeAt = some e → e + 8 * ac ≤ s.now)) ∧
    (let s := { arming 2 31 with now := 8 * ac - 1, cellar := { (arming 2 31).cellar with safeAt := some 0 } }
     s.cellar.safeAt = some 0 ∧ ¬ 0 + 8 * ac ≤ s.now) ∧
    (let s := { arming 1 31 with now := 3 * cellarCycle, cellar := { (arming 1 31).cellar with pfailAt := some 0 } }
     1 ≤ s.getF CEL.base CEL.ARM_STATE.STATE ∧ s.getB CEL.base CEL.STATUS.PFAIL = false ∧
     (∀ e, s.cellar.pfailAt = some e → e + 3 * cellarCycle ≤ s.now)) ∧
    (let s := { put up [(CEL.base, CEL.STATUS.PFAIL, 1)] with now := 3 * cellarCycle - 1, cellar := { pfailAt := some 0 } }
     s.getB CEL.base CEL.STATUS.PFAIL = true ∧ s.cellar.pfailAt = some 0 ∧ ¬ 0 + 3 * cellarCycle ≤ s.now) ∧
    ((arming 1 15).getF CEL.base CEL.ARM_STATE.STATE = 1 ∧ (arming 1 15).getF CEL.base CEL.ARM_STATE.COND ≠ 31) ∧
    ((arming 0 15).getF CEL.base CEL.ARM_STATE.STATE = 0 ∧ (arming 0 15).getF CEL.base CEL.ARM_STATE.COND ≠ 31) ∧
    (2 ≤ (arming 2 31).getF CEL.base CEL.ARM_STATE.STATE ∧ 2 ≤ (arming 3 0).getF CEL.base CEL.ARM_STATE.STATE ∧
      (arming 2 31).cellar.expiry[(4 : Fin 5)].isSome = true) ∧
    (0x10000 ≤ (0x10000 : Word).toNat ∧ (0xFFFF : Word).toNat < 0x10000) := by decide +kernel

theorem wit_conditions :
    (let s := put (arming 1 31) [(TRP.base, TRP.STATUS.MKT_IN, 1)]
     s.bit CEL.base CEL.ARM_STATE.COND 1 = true ∧ s.condition 1 = false ∧ s.getF CEL.base CEL.ARM_STATE.STATE = 1) ∧
    (let s := put (arming 1 31) [(SYS.base, SYS.CLK_STATUS.FABRIC_LOCK, 1), (SYS.base, SYS.CLK_STATUS.AISLE_LOCK, 7),
       (CEL.base, CEL.STATUS.PFAIL, 1)]
     s.bit CEL.base CEL.ARM_STATE.COND 4 = true ∧ s.condition 4 = false ∧ s.clocksFine = true ∧
     s.getF CEL.base CEL.ARM_STATE.STATE = 1) ∧
    (let s := arming 3 31
     s.bit CEL.base CEL.ARM_STATE.COND 4 = true ∧ s.condition 4 = false ∧ s.clocksFine = false ∧
     s.getF CEL.base CEL.ARM_STATE.STATE ≠ 0) ∧
    (arming 0 0).bit CEL.base CEL.ARM_STATE.COND 0 = false ∧ (arming 0 31).condition 0 = true ∧
    ((arming 0 0).getF CEL.base CEL.ARM_STATE.STATE = 0) ∧
    (let s := { put up [(CEL.base, CEL.STATUS.PFAIL, 1)] with
       now := 8 * ac, cellar := { safeN := false, safeAt := some 0, pfailAt := some (8 * ac - 3 * cellarCycle) } }
     s.cellar.safeN = false ∧ (∀ e, s.cellar.safeAt = some e → e + 8 * ac ≤ s.now)) ∧
    (let s := { put up [(CEL.base, CEL.STATUS.PFAIL, 1)] with now := 3 * cellarCycle, cellar := { pfailAt := some 0 } }
     s.getB CEL.base CEL.STATUS.PFAIL = true ∧ (∀ e, s.cellar.pfailAt = some e → e + 3 * cellarCycle ≤ s.now)) ∧
    State.reset.aisleUp 2 = false ∧ up.aisle[2].armQueue = [] ∧
    (let s : State := { up with aisle := up.aisle.set 2 { armQueue := [1, 2] } }
     s.aisle[2].armQueue = 1 :: [2] ∧ s.aisleUp 2 = true ∧ (1 : BitVec 2).toNat < 2) ∧
    (let s : State := { up with aisle := up.aisle.set 2 { armQueue := [2] } }
     s.aisle[2].armQueue = 2 :: [] ∧ s.aisleUp 2 = true) := by decide +kernel

/-! ### Engines -/

def lane (pc : Nat) : Lane := { e := Vector.replicate 32 0, acc := Vector.replicate 4 0, int := Vector.replicate 16 0, pc := pc }
def runFrame : Frame :=
  { result := Vector.replicate 8 0, avg := Vector.replicate 8 0, mbx := Vector.replicate 16 0, kp := Vector.replicate 16 0
    ki := Vector.replicate 16 0, hi := Vector.replicate 16 0, lo := Vector.replicate 16 0, prd := 1000, angle := 0 }
def run (pc : Nat) : EngRun :=
  { trig := ⟨0, false, 0, 0⟩, captured := .all, frame := runFrame, base := lane 0, l0 := lane pc, l1 := lane pc, next := 2 * ac }

/-- Engine 11 at entry `pc` of a program that holds the word `w` there. -/
def engine (pc w : Nat) : State :=
  { put up [(ENG.base 11, ENG.PROG.WORD.at (4 * pc), w)] with eng := up.eng.set 11 { run := some (run pc) } }

/-- A legal word of each operation of an engine, at the last entry of its program. -/
theorem wit_engine_words :
    ([0x00, 0x01, 0x02, 0x03, 0x04, 0x05, 0x08, 0x09, 0x0A, 0x0B, 0x0C, 0x0D, 0x0E, 0x10, 0x11, 0x12, 0x13, 0x14, 0x15, 0x16,
      0x18, 0x19, 0x1A, 0x1B, 0x1C, 0x20].all fun op =>
        let o := opWord (op * 0x4000000)
        o.op == op && o.legal) = true := by decide +kernel

/-- The opcodes of an engine's program. -/
def engineOps : List Nat :=
  [0x00, 0x01, 0x02, 0x03, 0x04, 0x05, 0x08, 0x09, 0x0A, 0x0B, 0x0C, 0x0D, 0x0E, 0x10, 0x11, 0x12, 0x13, 0x14, 0x15, 0x16,
   0x18, 0x19, 0x1A, 0x1B, 0x1C, 0x20]

/-- At the last entry of a program each operation can be about to be executed. -/
theorem wit_issues : ∀ op ∈ engineOps, ∃ u o,
    Issues (engine 127 (op * 0x4000000)) u 11 (run 127) o ∧ o.op = op := by
  intro op hop
  have h : ∀ op ∈ engineOps,
      let u := (engine 127 (op * 0x4000000)).aisleTime (run 127).next
      let w := opWord (u.rd (ENG.base 11 + ENG.PROG.WORD.off + 4 * (127 % 128))).toNat
      u.eng[11].run = some (run 127) ∧ u.eng[11].trig = none ∧ w.legal = true ∧ w.op = op := by
    decide +kernel
  exact ⟨_, _, ⟨⟨⟨run 127, rfl, rfl⟩, (h op hop).1⟩, rfl, rfl, rfl, rfl, (h op hop).2.2.1, (h op hop).2.1⟩, (h op hop).2.2.2⟩

/-- Words with the operands that a statement tells apart: a load of the comparators, an LDR that waits and one that does
not, a branch of each kind. -/
theorem wit_engine_operands :
    ((run 127).kept = [] ∧ (run 127).first = none ∧
      bitsOf (opWord (0x01 * 0x4000000 + 0x200)).x 10 8 = 2 ∧ (opWord (0x01 * 0x4000000 + 0x200)).legal = true ∧
      bitsOf (opWord (0x01 * 0x4000000 + 0x100)).x 10 8 = 1 ∧ (opWord (0x01 * 0x4000000 + 0x100)).legal = true) ∧
    (engine 127 (0x02 * 0x4000000)).ldrWaits 11 (run 127) = false ∧
    (let s := engine 127 (0x02 * 0x4000000)
     let s := { s with eng := (s.eng.set 10 { ldr := some (2 * ac, [0], false) }).set 9 { ldr := some (2 * ac, [0], false) } }
     s.ldrWaits 11 (run 127) = true ∧ (run 127).first = none) ∧
    ({ run 127 with kept := [(127, [5])], first := some (lane 127, lane 127) }.kept.find? fun p => p.1 == 127) = some (127, [5]) := by
  decide +kernel

/-- An engine that is enabled and idle; one whose run goes on; one that is frozen. -/
theorem wit_engine_starts :
    (let s := put up [(ENG.base 11, ENG.CTRL.ENABLE, 1)]
     s.getB (ENG.base 11) ENG.CTRL.ENABLE = true ∧ s.getB (STL.base 11) STL.DBG.FREEZE = false ∧ s.eng[11].run = none ∧
     (11 : Fin 12).val / 4 = (8 : Fin 12).val / 4) ∧
    (let s := { put (engine 0 0) [(ENG.base 11, ENG.CTRL.ENABLE, 1)] with now := 1 }
     s.eng[11].run = some (run 0) ∧ (run 0).trig.edge ≠ s.now ∧ s.now + ac < (run 0).next ∧ s.eng[11].trig = none) ∧
    ((run 0).next < 2 * ac + 1 ∧ (run 0).trig.edge ≠ ac) ∧
    (let s := { put (engine 0 0) [(ENG.base 11, ENG.CTRL.ENABLE, 1)] with now := ac }
     s.eng[11].run = some (run 0) ∧ (run 0).next = s.now + ac ∧ (run 0).ended = false ∧ (s.nextOp 11 (run 0)).op = 0 ∧
     s.nextIllegal 11 (run 0) = false) ∧
    (let s := { put (engine 0 0) [(ENG.base 11, ENG.CTRL.ENABLE, 1)] with
       now := ac, eng := up.eng.set 11 { run := some (run 0), trig := some ⟨ac, true, 0, 0⟩ } }
     s.eng[11].trig = some ⟨ac, true, 0, 0⟩ ∧ (⟨ac, true, 0, 0⟩ : Trigger).edge = s.now ∧ (⟨0, true, 0, 0⟩ : Trigger).edge ≠ s.now) ∧
    (let r : EngRun := { run 0 with captured := .triggered }
     let s : State := { up with eng := up.eng.set 11 { run := some r }, now := 3 * ac }
     s.eng[11].run = some r ∧ r.captured = .triggered ∧ r.trig.edge < s.now ∧ r.trig.edge + ac < s.now ∧ 0 ≤ r.trig.edge) ∧
    ((put up [(ENG.base 11, ENG.CTRL.SCPRE, 1), (ENG.base 11, ENG.MBX_STATUS.PUB_PEND, 1)]).getB (ENG.base 11) ENG.CTRL.SCPRE = true) ∧
    (put up [(ENG.base 11, ENG.CTRL.ENABLE, 1), (STL.base 11, STL.DBG.FREEZE, 1)]).getB (STL.base 11) STL.DBG.FREEZE = true := by
  decide +kernel

/-- A scan whose elements are all converted. -/
def doneScan : Scan := { group := none, elems := [7], total := 1, apt := ac, acq := 12, idx := 1 }

theorem wit_scan_complete :
    (let s : State := { up with cnv := up.cnv.set 8 { scan := some doneScan } }
     s.cnv[8].scan = some doneScan ∧ doneScan.idx = doneScan.elems.length ∧ doneScan.conv = none ∧
     2 ^ s.getF (CNV.base 8) CNV.CTRL.AVG_N ≤ s.cnv[8].avgScans + 1 ∧ (∀ j ∈ doneScan.elems, j < 8) ∧
     s.aisleTime doneScan.completeAt = { s with now := doneScan.completeAt } ∧
     (put s [(ENG.base 11, ENG.CTRL.TRIG_EN, 1), (ENG.base 11, ENG.CTRL.TRIG_K, 0)]).getB (ENG.base 11) ENG.CTRL.TRIG_EN = true ∧
     (put s [(ENG.base 11, ENG.CTRL.TRIG_K, 0)]).getF (ENG.base 11) ENG.CTRL.TRIG_K = (8 : Fin 12).val % 4) := by
  decide +kernel

/-- Runs whose lanes are done and agree, or disagree in a saturation, the first time and the second. -/
def doneRun (sat : Bool) (first : Option (Lane × Lane)) : EngRun :=
  { run 0 with l0 := { lane 0 with done := true }, l1 := { lane 0 with done := true, sat := sat }, first := first }

def ran (r : EngRun) (l : List (Nat × Fld × Nat)) : State := { put up l with eng := up.eng.set 11 { run := some r } }

/-- Such a run stands on its edge as it stood; one that leaves in time for the trigger that waits. -/
theorem wit_result_time :
    (∀ r ∈ [doneRun false none, doneRun true none, doneRun false (some (lane 0, lane 0)), run 127],
      ((ran r []).aisleTime r.next).eng[11].run = some r ∧ ((ran r []).aisleTime r.next).eng[11].trig = none) ∧
    (let r := doneRun false none
     let q : Trigger := ⟨ac, true, ac, 5⟩
     let u : State := { up with eng := up.eng.set 11 { run := some r, trig := some q } }.aisleTime r.next
     u.eng[11].run = some r ∧ u.eng[11].trig = some q ∧ r.l0.done = true ∧ r.l1.done = true ∧
     r.first = none ∧ r.l0.result = r.l1.result ∧ r.next ≤ q.edge + ac) := by decide +kernel

theorem wit_engine_results :
    ((ran (doneRun false none) []).eng[11].trig = none ∧ (doneRun false none).l0.result = (doneRun false none).l1.result ∧
      (doneRun true none).l0.result ≠ (doneRun true none).l1.result) ∧
    (let x := lane 0
     let y := { lane 0 with sat := true }
     (doneRun false (some (y, x))).l0.result = (doneRun false (some (y, x))).l1.result ∧
     y.result ≠ (doneRun false (some (y, x))).l0.result ∧ x.result = (doneRun false (some (y, x))).l0.result) ∧
    (let s := ran (run 127) [(ENG.base 11, ENG.PROG.WORD.at (4 * 127), 0xFFFFFFFF)]
     (run 127).l0.done = false ∧ (run 127).ended = false ∧ (run 127).captured = .all ∧ (s.progWord 11 (run 127).l0.pc).legal = false) ∧
    (let x := { lane 0 with e := (lane 0).e.set 0 1 }
     let y := { lane 0 with e := (lane 0).e.set 0 2 }
     let z := lane 0
     (x.e, x.acc, x.int) ≠ (y.e, y.acc, y.int) ∧ (x.e, x.acc, x.int) ≠ (z.e, z.acc, z.int) ∧
     (y.e, y.acc, y.int) ≠ (z.e, z.acc, z.int)) ∧
    (let r := { run 0 with target := some 80 }
     let s := ran r []
     s.eng[11].run = some r ∧ s.runTarget 11 r = some 80 ∧ r.missed = false ∧ { run 0 with missed := true }.missed = true) ∧
    (let s := ran (doneRun false none) [(ENG.base 11, ENG.POLICY.SAT, 2), (ENG.base 11, ENG.POLICY.VOTE, 2),
       (ENG.base 11, ENG.POLICY.DEADLINE, 0)]
     2 ≤ s.getF (ENG.base 11) ENG.POLICY.SAT ∧ 2 ≤ s.getF (ENG.base 11) ENG.POLICY.VOTE ∧
     s.getF (ENG.base 11) ENG.POLICY.DEADLINE < 2) := by decide +kernel

theorem wit_engine_commands :
    (let s : State := { up with eng := up.eng.set 11 { trips := [8] }, now := 9 }
     ∀ u ∈ s.eng[11].trips, u ≠ s.now) ∧
    (let s : State := { up with eng := up.eng.set 11 { trips := [8] }, now := 8 }
     s.now ∈ s.eng[11].trips ∧ s.srcBlanked 43 2 = false) ∧
    (put up [(ENG.base 11, ENG.CTRL.ENABLE, 1)]).settle.getB (ENG.base 11) ENG.CTRL.ENABLE = true ∧
    up.settle.getB (ENG.base 11) ENG.CTRL.ENABLE = false ∧
    (put up [(ENG.base 11, ENG.CTRL.ENABLE, 1)]).getB (ENG.base 11) ENG.CTRL.ENABLE = true ∧
    up.getB (ENG.base 11) ENG.CTRL.ENABLE = false ∧ up.eng[11].run = none ∧
    up.getB (ENG.base 11) ENG.NCO_CFG.SRC = false ∧
    2 ≤ (put up [(CEL.base, CEL.ARM_STATE.STATE, 2)]).getF CEL.base CEL.ARM_STATE.STATE := by decide +kernel

/-! ### Cores -/

/-- The hall with core 3 in the state `x`, and fields of registers set. -/
def cored (x : Core) (l : List (Nat × Fld × Nat)) : State := { put up l with core := up.core.set 3 x }

/-- A core with registers and a status, with the first lines of the boot ROM and of flash in its buffers. -/
def core (st : Word) (l : List (Nat × Word)) : Core :=
  l.foldl (fun x e => x.put e.1 e.2)
    { st := st, lines := [⟨0xF0000, List.replicate 16 .rom⟩, ⟨0, List.replicate 16 .rom⟩] }

/-- What stands at PC can be any instruction: of one word, of two, behind an EXT; or the one whose word a buffer holds. -/
theorem wit_fetched :
    (∀ i ∈ [Instr.xNop 3, .xMov 3 0 15, .xCall 3 5, .xMovi 3 1 2 (some 3), .xBcc 3 6 0x80 none, .xLd 3 2 1 (some 0xA00) {},
        .xBmov 3 13 { parityFails := 1 } {}, .xSpill 3 [], .xReti 3, .xTrap 3 63, .xLoopImm 3 1 2 none],
      Safety.Fetched i (cored (core 0x600 []) []) 3) ∧
    Safety.Fetched (.xTrap 3 63) (cored { core 0x400 [] with pc := 0 } []) 3 ∧
    Safety.Fetched (.xMov 3 1 2)
      (cored { core 0x600 [] with pc := 0, lines := [⟨0, List.replicate 16 (.word 0x0812)⟩] } []) 3 := by
  unfold Safety.Fetched
  decide +kernel

/-- The words of the example of chapter 10, and those of the table of R297 and of R279, R280 and R282 that are illegal. -/
theorem test_core_words :
    ([(0x3210, 0x2090, .xMovi 3 9 0 (some 0x210)), (0x3401, 0x2291, .xMovhi 3 9 1 (some 0x401)), (0x2080, 0, .xMovi 3 8 0 none),
      (0x2982, 0, .xLoopImm 3 8 2 none), (0x1EB4, 0, .xLd 3 11 4 none {}), (0x2144, 0, .xAddi 3 4 4 none),
      (0x098B, 0, .xAdd 3 8 11), (0x0B8A, 0, .xCmp 3 8 10), (0x0209, 0, .xBcc 3 2 9 none),
      (0x3002, 0x1F89, .xSt 3 8 9 (some 2) {}), (0x2C01, 0x0A3C, .xCall 3 0x4A3C), (0x2B00, 0, .xNop 3)].all
        fun (e : Nat × Nat × Instr) => decodeInsn 3 (BitVec.ofNat 14 e.1) (BitVec.ofNat 14 e.2.1) = some e.2.2) = true ∧
    ([(0x2A0E, 0), (0x2A0F, 0), (0x2B08, 0), (0x2B80, 0), (0x3000, 0x3000), (0x3000, 0x2C00), (0x3000, 0x0800)].all
        fun (e : Nat × Nat) => decodeInsn 3 (BitVec.ofNat 14 e.1) (BitVec.ofNat 14 e.2) = none) = true := by decide +kernel

def reaches1 (s : State) (x : Core) (len : Nat) (e : Bool) : Bool :=
  s.coreUp 3 && !x.waiting && x.out.isEmpty &&
    (s.breakpoint 3 { len := len, ext := e }).isNone && x.stepAt.isNone && !x.rerun

theorem reaches1_of {x : Core} {l : List (Nat × Fld × Nat)} {len : Nat} {e : Bool}
    (h : reaches1 (cored x l) x len e = true) : Reaches1 (cored x l) 3 x len e := by
  simp only [reaches1, Bool.and_eq_true, Option.isNone_iff_eq_none, List.isEmpty_iff, Bool.not_eq_true'] at h
  obtain ⟨⟨⟨⟨⟨h1, h2⟩, h3⟩, h4⟩, h5⟩, h6⟩ := h
  have hx : (cored x l).core[(3 : Fin 4)] = x := rfl
  refine ⟨h1, fun w => ?_, ?_, ?_, h4, h5, h6⟩
  · rw [hx, h2] at w
    cases w
  · rw [hx, h3]
    rfl
  · rw [hx]
    obtain ⟨⟩ := x
    subst h2 h3
    rfl

def stands (s : State) (x : Core) (len : Nat) (e : Bool) : Bool :=
  reaches1 s x len e && x.slot.isNone && x.lockLeft == 0 && !x.atAnyLe

theorem stands_of {x : Core} {l : List (Nat × Fld × Nat)} {len : Nat} {e : Bool} (h : stands (cored x l) x len e = true) :
    Stands (cored x l) 3 x len e := by
  simp only [stands, Bool.and_eq_true, Option.isNone_iff_eq_none, beq_iff_eq] at h
  obtain ⟨⟨⟨h1, h2⟩, h3⟩, h4⟩ := h
  exact { toReaches1 := reaches1_of h1, slot := h2, lock := h3, le := by simpa using h4 }

/-- Instructions of one word, of two words, and of one word behind an EXT. -/
theorem wit_core_arithmetic :
    stands (cored (core 0x600 []) []) (core 0x600 []) 1 false = true ∧
    stands (cored (core 0x600 []) []) (core 0x600 []) 2 false = true ∧
    stands (cored (core 0x600 []) []) (core 0x600 []) 2 true = true := by decide +kernel

theorem wit_core_shifts :
    (let x := core 0x600 [(0, 0x80000000), (2, 0xFFFFFFFF)]
     stands (cored x []) x 1 false = true ∧ stands (cored x []) x 2 true = true ∧ x.get 2 ≠ 0 ∧ x.get 3 = 0) ∧
    ((12 : Fin 16).val % 2 = 0 ∧ (14 : Fin 16).val ≠ 15 ∧ (12 : Fin 16).val + 1 < (14 : Fin 16).val) ∧
    ((2 : Fin 16).val + 1 ≥ 3 ∧ (0 : Fin 16).val + 1 < (2 : Fin 16).val ∧ (14 : Fin 16).val ≠ 15) ∧
    (16 * (1 : BitVec 12).toNat + (15 : BitVec 4).toNat < 32 ∧ 32 ≤ 16 * (2 : BitVec 12).toNat + (0 : BitVec 4).toNat) := by
  decide +kernel

theorem wit_core_decimal :
    let x := core 0x600 [(0, 0x99999999), (1, 0x00000001), (2, 0x0000000A)]
    stands (cored x []) x 1 false = true ∧ decimalOk (x.get 0) = true ∧ decimalOk (x.get 1) = true ∧
    (decimalOk (x.get 0) && decimalOk (x.get 2)) = false ∧ decimalOk (x.get 2) = false := by decide +kernel

/-- Slots of a branch, of a CALL and of a RET that underflows and that does not; a window that is full. -/
theorem wit_core_branches :
    (let x := core 0x604 []
     stands (cored x []) x 1 false = true ∧ x.st.getLsbD 2 = true ∧ x.st.getLsbD 3 = false) ∧
    (let x := core 0x140600 []
     stands (cored x []) x 1 false = true ∧ x.resident + 1 ≤ 22 + x.setsInUse) ∧
    (let x := core 0x150600 []
     stands (cored x []) x 1 false = true ∧ stands (cored x []) x 2 false = true ∧ 22 + x.setsInUse < x.resident + 1) ∧
    ([(0, 0x600), (1, 0x600), (2, 0x10600), (2, 0x600)].all fun e =>
      let x : Core := { core e.2 [] with slot := some ⟨some 0x100, BitVec.ofNat 2 e.1, 0xF00000⟩, pc := 0xF00001 }
      reaches1 (cored x []) x 1 false && x.lockLeft == 0 && !x.atAnyLe) = true ∧
    (core 0x10600 []).frm ≠ (core 0x10600 []).wb.toNat % 32 ∧ (core 0x600 []).frm = (core 0x600 []).wb.toNat % 32 := by
  decide +kernel

theorem wit_core_loops :
    (let x := core 0x600 [(1, 1)]
     stands (cored x []) x 1 false = true ∧ stands (cored x []) x 2 true = true ∧ x.la = 0 ∧ x.get 0 = 0 ∧ x.get 1 ≠ 0 ∧
     (255 : BitVec 12).toNat < 256 ∧ 256 ≤ (256 : BitVec 12).toNat) ∧
    (let x : Core := { core 0x640 [(1, 1)] with ls := #v[0xF00000, 0], le := #v[0xF00003, 0] }
     stands (cored x []) x 1 false = true ∧ x.la = 1 ∧ x.get 1 ≠ 0 ∧
     x.ls[(0 : Fin 2)].toNat < (x.pc + 1).toNat ∧ (x.pc + 2).toNat < x.le[(0 : Fin 2)].toNat % 2 ^ 24 ∧
     ¬ (x.pc + 3).toNat < x.le[(0 : Fin 2)].toNat % 2 ^ 24) ∧
    (let x := core 0x680 []
     stands (cored x []) x 1 false = true ∧ x.la = 2) ∧
    ([1, 2, 0].all fun n =>
      let x : Core := { core 0x680 [] with le := #v[0, 0xF00000], lc := #v[1, n] }
      reaches1 (cored x []) x 1 false && x.slot.isNone && x.lockLeft == 0 && x.la == 1 + 1 &&
        decide (x.le[(1 : Fin 2)].setWidth 24 = x.pc)) = true ∧
    ([1, 2].all fun n =>
      let x : Core := { core 0x700 [] with lockLeft := n }
      reaches1 (cored x []) x 1 false && x.slot.isNone && !x.atAnyLe && x.lockLeft != 0 && x.store.isEmpty) = true := by
  decide +kernel

theorem wit_core_control :
    (let x := core 0x600 [(1, 0x600), (2, 0)]
     stands (cored x []) x 1 false = true ∧ stands (cored x []) x 2 true = true ∧ x.sup = true ∧ x.atLe = false ∧
     x.ssel.toNat % 16 = 0 ∧ x.cl = 0) ∧
    (let x : Core := { core 0x400 [(1, 0x400), (2, 0)] with pc := 0 }
     stands (cored x []) x 1 false = true ∧ stands (cored x []) x 2 true = true ∧ x.sup = false ∧
     (x.st ^^^ x.get 2) &&& 0x600 ≠ 0 ∧ (x.st ^^^ x.get 1) &&& 0x600 = 0) ∧
    (let x : Core := { core 0x600 [] with ssel := 10 }
     stands (cored x []) x 2 true = true ∧ 9 < x.ssel.toNat % 16) ∧
    (let x : Core := { core 0x600 [] with ssel := 9 }
     stands (cored x []) x 2 true = true ∧ x.ssel.toNat % 16 = 9 ∧ x.cl ≠ 9) ∧
    (let x : Core := { core 0x600 [] with ssel := 8 }
     stands (cored x []) x 2 true = true ∧ x.ssel.toNat % 16 ≤ 8) ∧
    (let x := core 0x9600 []
     stands (cored x []) x 2 true = true ∧ x.ssel.toNat % 16 = 0 ∧ x.cl = 9) := by decide +kernel

theorem wit_syncp : let x := core 0x600 []
    ((cored x []).modCore 3 fun _ => x).drainStores 3 4 = (true, (cored x []).modCore 3 fun _ => x) ∧ x.atLe = false ∧
    x.stepAt = none := by decide +kernel

/-- Core 3 with a source that requests level 7 of it. -/
def request : List (Nat × Fld × Nat) :=
  [(CRI.base, CRI.CTRL.ENABLE, 1), (CRI.base, CRI.EN.EN, 2), (CRI.base, CRI.PEND.BITS, 2),
   (CRI.base, CRI.ROUTE.CORE.at 4, 3), (CRI.base, CRI.ROUTE.LVL.at 4, 7)]

theorem wit_core_exceptions :
    (let x := core 0x600 []
     x.stepAt = none ∧ x.cl < max 1 (bitsOf x.lvlcfg.toNat 2 0) ∧ x.cl < max 1 (bitsOf x.lvlcfg.toNat 6 4) ∧
     bitsOf x.vbase.toNat 23 8 ≠ 0xF001 + 1 ∧ bitsOf { x with vbase := 0xF00200 }.vbase.toNat 23 8 ≠ 0xF001 ∧
     bitsOf x.vbase.toNat 23 8 = 0xF001) ∧
    (let x : Core := { core 0x7600 [] with vbase := 0xF00200 }
     max 1 (bitsOf x.lvlcfg.toNat 2 0) ≤ x.cl ∧ x.cl ≠ 8) ∧ (core 0x8600 []).cl = 8 ∧
    (let s := cored { core 0x6200 [] with vbase := 0xF00200 } request
     s.coreUp 3 = true ∧ s.core[3].gm = false ∧ s.core[3].cl < (7 : Fin 8).val ∧ s.core[3].stepping = false ∧
     s.requestSeen 3 7 = true ∧ (∀ w : Fin 8, 7 < w → s.requestSeen 3 w = false) ∧ s.core[3].out = [] ∧ s.core[3].rerun = false ∧
     s.core[3].slot = none ∧ s.core[3].lockLeft = 0 ∧ s.core[3].hold = false ∧ s.shadowNext 3 false = false) ∧
    (let s := cored { core 0x7200 [] with monReq := true } []
     s.core[3].gm = false ∧ s.core[3].cl ≤ 7 ∧ s.core[3].monReq = true ∧ s.core[3].inUse.getLsbD 9 = false ∧
     ∀ v : Fin 8, s.requestSeen 3 v = false) ∧
    (let x : Core := { core 0x7600 [] with gmctl := 1 }
     x.gm = true ∧ x.cl ≤ 7 ∧ x.gmctl.toNat % 65536 ≠ 0) ∧
    (let x : Core := { core 0x600 [] with imprecise := [(0, 1)] }
     x.imprecise = (0, 1) :: [] ∧ x.slot = none ∧ x.lockLeft = 0 ∧ x.hold = false ∧ x.shadow = []) ∧
    ({ core 0x600 [] with inUse := 0x200 }.inUse.getLsbD 9 = true ∧ { core 0x600 [] with rerun := true }.rerun = true) ∧
    ({ core 0x600 [] with hold := true }.hold = true ∧ (core 0x600 []).waiting = false ∧
      (core 0x600 []).replayed ≠ some (core 0x600 []).pc ∧
      { core 0x600 [] with replayed := some 0xF00000 }.replayed = some (core 0x600 []).pc) := by decide +kernel

theorem wit_core_return :
    (let x : Core := { core 0x1400 [] with pc := 0 }
     stands (cored x []) x 1 false = true ∧ x.resumeAsk = none ∧ x.sup = false) ∧
    (let x := core 0x600 []
     stands (cored x []) x 1 false = true ∧ x.sup = true ∧ x.cl = 0) ∧
    (let x := core 0x9600 []
     stands (cored x []) x 1 false = true ∧ x.sup = true ∧ x.cl = 9 ∧ bitsOf (x.saves[8])[(2 : Fin 11)].toNat 15 12 ≤ 7 ∧
     x.stepping = false ∧ x.monReq = false ∧ bitsOf (x.saves[8])[(3 : Fin 11)].toNat 10 9 ≠ 3 ∧
     ∀ w : Fin 8, (cored x []).requestSeen 3 w = false) ∧
    (let x : Core := { core 0x11600 [] with saves := (core 0 []).saves.set 0 ((core 0 []).saves[0].set 3 0x600) }
     stands (cored x []) x 1 false = true ∧ x.sup = true ∧ x.cl = 1 ∧ x.stepping = false ∧
     bitsOf (x.saves[0])[(3 : Fin 11)].toNat 10 9 = 3 ∧ (x.frm + 31) % 32 = x.wb.toNat % 32 ∧
     bitsOf (x.saves[0])[(2 : Fin 11)].toNat 15 12 ≤ 7) ∧
    (let x := core 0x1600 []
     stands (cored x request) x 1 false = true ∧ (x.saves[0])[(2 : Fin 11)].getLsbD 10 = false ∧
     bitsOf (x.saves[0])[(2 : Fin 11)].toNat 15 12 < (7 : Fin 8).val ∧ (cored x request).requestSeen 3 7 = true ∧
     (∀ k : Fin 8, 7 < k → (cored x request).requestSeen 3 k = false) ∧
     bitsOf { x with vbase := 0xF00200 }.vbase.toNat 23 8 ≠ 0xF001) := by decide +kernel

def loadsAt (s : State) (c : Fin 4) (x : Core) (a n p : Nat) (r : Area) : Bool :=
  a % n == 0 && decide (memArea c a = some (r, p)) && r != .flash && r.widthOk n && s.islandUp r.island && !s.heldFrom c r p &&
    x.store.isEmpty

theorem loads_of {s : State} {c : Fin 4} {x : Core} {a n p : Nat} {r : Area} (h : loadsAt s c x a n p r = true) :
    Loads s c x a n p := by
  simp only [loadsAt, Bool.and_eq_true, beq_iff_eq, decide_eq_true_eq, bne_iff_ne, List.isEmpty_iff, Bool.not_eq_true'] at h
  obtain ⟨⟨⟨⟨⟨⟨h1, h2⟩, h3⟩, h4⟩, h5⟩, h6⟩, h7⟩ := h
  exact ⟨h1, ⟨r, h2, h3, h4, h5, h6⟩, h7⟩

theorem no_watch (x : Core) : NoWatch (cored x []) 3 := by
  have h : ∀ k : Fin 2, up.getB DBG.base (DBG.WP_CFG.EN.at (0x80 * (3 : Fin 4).val + 0x10 * k.val)) = false := by decide +kernel
  exact h

/-- The widths at their last addresses; addresses misaligned, unmapped, read-only and of registers; a store buffer with room
and full. -/
theorem wit_core_loads :
    (let x := core 0x600 [(1, 0x3FFFFC), (2, 0x400000)]
     stands (cored x []) x 1 false = true ∧ stands (cored x []) x 2 true = true ∧ x.store = [] ∧ x.store.length < 4) ∧
    (bitsOf (0xE00 : BitVec 12).toNat 11 9 = 7 ∧ bitsOf (0xC00 : BitVec 12).toNat 11 9 = 6 ∧
      bitsOf (0x400 : BitVec 12).toNat 11 9 = 2 ∧ bitsOf (0x800 : BitVec 12).toNat 11 9 = 4 ∧
      bitsOf (0xA00 : BitVec 12).toNat 11 9 = 5 ∧ bitsOf (0x200 : BitVec 12).toNat 11 9 = 1 ∧
      bitsOf (0x600 : BitVec 12).toNat 11 9 = 3) ∧
    ([(4, 0x3FFFFC), (2, 0x3FFFFE), (1, 0x3FFFFF), (8, 0x3FFFF8)].all fun e =>
      loadsAt (cored (core 0x600 []) []) 3 (core 0x600 []) e.2 e.1 e.2 .sram && postFault 3 e.2 e.1 == 0) = true ∧
    (0x3FFFFE % 4 ≠ 0 ∧ memArea 3 0x400000 = none ∧ postFault 3 0x400000 4 ≠ 0 ∧ postFault 3 0x20000000 4 ≠ 0) ∧
    (let s := cored (core 0x600 []) []
     (s.busRead 3 CRI.base 4 false {}).1 = .ok 0 ∧ (s.busWrite 3 CRI.base 4 0 {}).1 = .ok 0) := by decide +kernel

/-- A register's read and its write leave the core alone. -/
theorem wit_core_read (x : Core) : ((cored x []).busRead 3 CRI.base 4 false {}).2.core = (cored x []).core :=
  (Laws.keeps_busRead 3 CRI.base 4 false {} (fun _ h => h) (Laws.Keeps.refl _)).same .core (by decide)
theorem wit_core_write : ((cored (core 0x600 []) []).busWrite 3 CRI.base 4 0 {}).2.core = (cored (core 0x600 []) []).core := by
  decide +kernel

/-- The second access to an island while the first is under way; it uses none of the registers that the first loads. -/
theorem wit_core_second :
    let o : Outstanding := { addr := CRI.base, dest := [((physReg 0 5).val, 1)] }
    let x : Core := { core 0x600 [(1, 0x48000000)] with out := [o] }
    let s := cored x []
    s.coreUp 3 = true ∧ x.acknowledgeAll.out = [] ∧ (x.out.find? fun o => o.lost) = none ∧ x.acknowledgeAll.store = [] ∧
    s.replay[3].taken.length ≤ s.replay[3].used ∧ x.out.length < 4 ∧
    (place o.addr).map Place.island = (place 0x48000000).map Place.island ∧ (x.acknowledgeAll.get 1).toNat = 0x48000000 ∧
    (∀ i ∈ [1, 2], ∀ e ∈ o.dest, e.1 ≠ (physReg x.frm i).val) := by decide +kernel

theorem wit_core_accesses :
    (core 0x600 []).store = [] ∧ (core 0x600 []).out = [] ∧
    (let o : Posted := ⟨0x3FFFF8, 8, 2 ^ 64 - 1⟩
     let s := cored { core 0x600 [] with store := [o] } []
     s.core[3].store = o :: [] ∧ s.coreUp 3 = true ∧ memArea 3 o.addr = some (.sram, 0x3FFFF8) ∧
     s.islandUp Area.sram.island = true ∧ Area.sram.widthOk o.bytes = true ∧ Area.sram.readOnly 3 0x3FFFF8 = false ∧
     s.heldFrom 3 .sram 0x3FFFF8 = false) ∧
    (let s := { cored { core 0x600 [] with store := [⟨0x11000000, 4, 0⟩] } [(SYS.base, SYS.ISL_STATUS.CORE_UP, 14)] with now := 1 }
     memArea 3 0x11000000 = some (.coreRam 0, 0x11000000) ∧ s.islandUp (Area.coreRam 0).island = false ∧ s.coreUp 3 = true) ∧
    (let o : Outstanding := { addr := CRI.base, dest := [(259, 1)] }
     { core 0x600 [] with out := [o] }.out = o :: [] ∧ o.lost = false ∧ { o with lost := true }.lost = true) ∧
    (let x := core 0x600 []
     (x.buffered 0xF0000F).isSome = true ∧ (x.buffered 0xC0FFFF).isSome = false ∧ x.fetchesLine (0xC0FFFF / 16) = false ∧
     { x with pc := 0xC0FFF0 }.fetchesLine (0xC0FFFF / 16) = true) ∧
    (0xC00000 ≤ (0xC0FFFF : BitVec 24).toNat ∧ (0xC0FFFF : BitVec 24).toNat < 0xC10000) := by decide +kernel

theorem wit_core_long :
    (let x := core 0x600 [(0, 0x3FFFFC), (1, 0x3FFFF8), (2, 1), (5, 0x3FFFFE), (6, 0x3FFFFF), (7, 4097)]
     stands (cored x []) x 1 false = true ∧ x.get 2 ≠ 0 ∧ x.get 3 = 0 ∧ (x.get 0).toNat % 4 = 0 ∧ (x.get 5).toNat % 4 ≠ 0 ∧
     4096 < (x.get 7).toNat ∧ ¬ 4096 < (x.get 2).toNat ∧ (x.get 0).toNat < 0x40000000 ∧ postFault 3 (x.get 0).toNat 4 = 0 ∧
     loadsAt (cored x []) 3 x 0x3FFFF8 4 0x3FFFF8 .sram = true ∧ loadsAt (cored x []) 3 x 0x3FFFFC 4 0x3FFFFC .sram = true ∧
     loadsAt (cored x []) 3 x 0x3FFFFF 1 0x3FFFFF .sram = true ∧
     x.sup = true ∧ x.wb.toNat % 32 = x.frm ∧ x.resident ≠ 31) ∧
    (let x : Core := { core 0x1E0600 [] with wsp := 0x400000, wb := 0 }
     stands (cored x []) x 1 false = true ∧ x.sup = true ∧ x.wb.toNat % 32 ≠ x.frm ∧ x.pinned (x.wb.toNat % 32) = false ∧
     x.store = [] ∧ x.wsp.toNat % 4 = 0 ∧ 32 ≤ x.wsp.toNat ∧ x.wsp.toNat ≤ 0x400000 ∧
     (cored x []).islandUp .fabric = true ∧ (∀ k : Fin 4, k ≠ 3 → (cored x []).core[k].lockWord = none) ∧ x.resident = 31) ∧
    (let x : Core := { core 0x600 [] with wsp := 0x3FFFE0 }
     stands (cored x []) x 1 false = true ∧ x.wsp.toNat + 32 ≤ 0x400000 ∧ x.resident ≠ 31) ∧
    (let x : Core := { core 0x10600 [] with inUse := 2 }
     stands (cored x []) x 1 false = true ∧ x.pinned 0 = true) ∧
    (let x : Core := { core 0x400 [] with pc := 0 }
     stands (cored x []) x 1 false = true ∧ x.sup = false) := by decide +kernel

/-! ### The cellar, resets and the store room -/

/-- The hall with a capture into the defaults or a slot running. -/
def capturing (target : Fin 3) (again shut : Bool) : State :=
  { up with cellar := { up.cellar with snap := some ⟨2, target, 1, 0x30027FF4, 0⟩, snapAgain := again, shutPending := shut } }

theorem wit_snapshots :
    up.cellar.snap = none ∧ (capturing 0 false false).cellar.snap ≠ none ∧ (capturing 2 false false).cellar.snap = some ⟨2, 2, 1, 0x30027FF4, 0⟩ ∧
    (capturing 2 false false).cellar.snapAgain = false ∧ (capturing 0 true false).cellar.snapAgain = true ∧
    ((2 : Fin 3) = 2 ∧ (1 : Fin 3) ≠ 2) ∧ (capturing 1 false true).cellar.shutPending = true ∧
    up.getB CEL.base CEL.CTRL.ENABLE = true ∧ (put up [(CEL.base, CEL.CTRL.ENABLE, 0)]).getB CEL.base CEL.CTRL.ENABLE = false ∧
    up.cellar.resetDue = none ∧ up.cellar.queue.length < 16 ∧
    (let s : State := { up with cellar := { up.cellar with snap := some ⟨3, 0, 1, 0x30027FF4, 0⟩ } }
     (s.cellar.snap.any fun r => r.cause == 3 && r.startAt == s.now) = true ∧
     ((capturing 0 false false).cellar.snap.any fun r => r.cause == 3 && r.startAt == s.now) = false) ∧
    (put up [(CEL.base, CEL.IRQ_EN.SRC, 8)]).bit CEL.base CEL.IRQ_EN.SRC 3 = true := by decide +kernel

theorem wit_ledger :
    ((capturing 0 false false).cellar.snap ≠ none ∧ up.cellar.queue = []) ∧
    (let s := { put up [(CEL.base, CEL.LEDGER_HEAD.COUNT, 1024), (CEL.base, CEL.LEDGER_HEAD.NEXT, 1023)] with
       cellar := { up.cellar with queue := [⟨1, 0x0A, 2, 3, 4, 0⟩] } }
     s.cellar.snap = none ∧ s.cellar.queue = ⟨1, 0x0A, 2, 3, 4, 0⟩ :: [] ∧ s.getF CEL.base CEL.LEDGER_HEAD.NEXT = 1023) := by
  decide +kernel

/-- A watchdog that is off, one that counts its last microsecond, one frozen by the monitor and one that thaws. -/
theorem wit_watchdogs :
    up.getB (WDT.base 3) WDT.CTRL.ENABLE = false ∧
    (let s := put up [(WDT.base 3, WDT.CTRL.ENABLE, 1), (WDT.base 3, WDT.COUNT.COUNT, 1)]
     s.getB (WDT.base 3) WDT.CTRL.ENABLE = true ∧ s.getB (WDT.base 3) WDT.CTRL.DBGFRZ = false ∧
     s.getF (WDT.base 3) WDT.COUNT.COUNT ≠ 0 ∧ ¬ s.getF (WDT.base 3) WDT.COUNT.COUNT ≤ s.getF (WDT.base 3) WDT.WINDOW.WINDOW) ∧
    (let s := cored (core 0x9600 []) [(WDT.base 4, WDT.CTRL.DBGFRZ, 1)]
     s.getB (WDT.base 4) WDT.CTRL.DBGFRZ = true ∧ ((List.finRange 4).any fun k => s.coreUp k && s.core[k].cl == 9) = true ∧
     s.getF CEL.base CEL.ARM_STATE.STATE < 2) ∧
    (let s := cored { core 0x9600 [] with inUse := 0x200 } [(WDT.base 3, WDT.CTRL.DBGFRZ, 1)]
     (s.getB (WDT.base 3) WDT.CTRL.DBGFRZ && (s.monInUse 3 && s.coreUp 3)) = true) ∧
    (let s := put up [(WDT.base 4, WDT.STATUS.FROZEN, 1)]
     s.getB (WDT.base 4) WDT.STATUS.FROZEN = true ∧ s.getB (WDT.base 4) WDT.CTRL.DBGFRZ = false) ∧
    up.getF (WDT.base 4) WDT.COUNT.COUNT ≤ up.getF (WDT.base 4) WDT.WINDOW.WINDOW ∧ (0xC0A8 : Word) ≠ 0xC0A7 ∧
    (let s : State := { up with cellar := { up.cellar with expiry := up.cellar.expiry.set 3 (some (1, 7)) } }
     s.cellar.expiry[(3 : Fin 5)] ≠ none) ∧ up.cellar.expiry[(3 : Fin 5)] = none := by decide +kernel

theorem wit_hall_resets :
    (filterPasses (18 * cellarCycle) cellarCycle 16 = true ∧ filterPasses (19 * cellarCycle - 1) cellarCycle 16 = true ∧
      filterPasses (18 * cellarCycle - 1) cellarCycle 16 = false ∧ filterPasses (19 * cellarCycle) cellarCycle 16 = false) ∧
    up.getF CEL.base CEL.ARM_STATE.STATE = 0 ∧ (put up [(CEL.base, CEL.ARM_STATE.STATE, 3)]).getF CEL.base CEL.ARM_STATE.STATE ≠ 0 ∧
    up.cellar.resetDue = none ∧
    (let s : State := { up with cellar := { up.cellar with resetDue := some (5, 2 * us) } }
     s.cellar.resetDue = some (5, 2 * us)) ∧
    State.reset.cellar.phase = .inReset ∧ up.cellar.phase ≠ .inReset ∧ up.cellar.resetLow = false ∧
    (let s : State := { up with cellar := { up.cellar with resetLow := true, railsLow := 8 } }
     s.cellar.resetLow = true ∧ s.cellar.railsLow.getLsbD (3 : Fin 4) = true) := by decide +kernel

theorem wit_power :
    up.flash.cur = none ∧
    (let s := State.reset
     s.cellar.phase ≠ .up ∧ s.cellar.resetLow = false ∧ s.cellar.railsLow = 0 ∧ s.cellar.shutHold = false ∧
     s.cellar.power = true ∧ s.getB SYS.base SYS.CLK_STATUS.XIN_OK = false ∧ s.islandUp .ring = false ∧ s.cellar.islReset = []) ∧
    (put State.reset [(SYS.base, SYS.CLK_STATUS.XIN_OK, 1)]).getB SYS.base SYS.CLK_STATUS.XIN_OK = true ∧
    (up.cellar.phase = .up ∧ { up.cellar with shutHold := true }.shutHold = true ∧ { up.cellar with power := false }.power = false) ∧
    { pcieLocked := true : ResetEnv }.pcieLocked = true := by decide +kernel

theorem wit_island_resets :
    up.options.coreEn.getLsbD 0 = true ∧ up.options.aisleEn.getLsbD 2 = true ∧ up.cellar.phase = .up ∧
    (let s : State := { up with options := { up.options with coreEn := 7, aisleEn := 3 } }
     s.options.coreEn.getLsbD 2 = true ∧ s.options.coreEn.getLsbD 3 = false ∧ s.options.aisleEn.getLsbD 2 = false) ∧
    (2 ≤ (put up [(CEL.base, CEL.ARM_STATE.STATE, 2)]).getF CEL.base CEL.ARM_STATE.STATE ∧
      (put up [(CEL.base, CEL.ARM_STATE.STATE, 1)]).getF CEL.base CEL.ARM_STATE.STATE < 2) ∧
    (4 ≤ (4 : Fin 16).val ∧ 3 ≤ (3 : Fin 16).val ∧ (15 : Fin 16) ≠ 8 ∧ (15 : Fin 16) ≠ 9) ∧
    (let s : State := { up with cellar := { up.cellar with
       coreReset := up.cellar.coreReset.set 3 (some (3, us)), islReset := [(2, us), (8, us), (9, us)] } }
     s.cellar.coreReset[(3 : Fin 4)] = some (3, us) ∧ (s.cellar.islReset.find? fun p => p.1 == 2) = some (2, us) ∧
     (s.cellar.islReset.find? fun p => p.1 == 8) = some (8, us) ∧ (s.cellar.islReset.find? fun p => p.1 == 9) = some (9, us) ∧
     s.getB SYS.base SYS.CLK_STATUS.PCIE_LOCK = false ∧ ∀ p ∈ s.cellar.islReset, p.1 ≠ 15) ∧
    (put up [(SYS.base, SYS.CLK_STATUS.PCIE_LOCK, 1)]).getB SYS.base SYS.CLK_STATUS.PCIE_LOCK = true ∧
    up.cellar.coreReset[(3 : Fin 4)] = none ∧ up.cellar.atticWait = true ∧
    ({ up.cellar with atticWait := false }.atticWait = false ∧ State.reset.cellar.phase ≠ .up) := by decide +kernel

/-- The flash controller with an operation, an erase and fields of registers set. -/
def flashed (f : Flash) (l : List (Nat × Fld × Nat)) : State := { put up l with flash := f }

def flashOp (op faddr src : Nat) : FlashOp := { op := op, irq := true, par := false, count := 1, faddr := faddr, src := src }

theorem wit_flash_queue :
    up.getF FLC.base FLC.FQ_HEAD.HEAD = up.getF FLC.base FLC.FQ_TAIL.TAIL ∧
    (let s := put up [(FLC.base, FLC.CTRL.ENABLE, 1), (FLC.base, FLC.FQ_HEAD.HEAD, 1), (FLC.base, FLC.FQ_CFG.SIZE, 8),
       (FLC.base, FLC.FQ_BASE.BASE, 0x3FF000)]
     s.getB FLC.base FLC.CTRL.ENABLE = true ∧ s.getB FLC.base FLC.STATUS.HALTED = false ∧ s.flash.cur = none ∧
     s.getF FLC.base FLC.FQ_HEAD.HEAD ≠ s.getF FLC.base FLC.FQ_TAIL.TAIL ∧ s.getF FLC.base FLC.FQ_BASE.BASE % 16 = 0 ∧
     s.getF FLC.base FLC.FQ_BASE.BASE + 16 * 2 ^ min 8 (s.getF FLC.base FLC.FQ_CFG.SIZE) ≤ 0x400000 ∧
     s.islandUp .fabric = true ∧ s.heldFrom 7 .sram 0x3FF000 = false ∧ s.heldFrom 7 .sram (0x3FF000 + 12) = false ∧
     (s.readSpan 0x3FF000 { ecc := .uncorrectable } 2).1 matches .err _) ∧
    (put up [(FLC.base, FLC.STATUS.HALTED, 1)]).getB FLC.base FLC.STATUS.HALTED = true ∧
    (let o := { flashOp 2 0xFF0000 0 with started := true }
     o.result = none ∧ o.started = true ∧ o.faddr + 0x10000 ≤ 0x1000000) ∧
    (let o := { flashOp 3 0x800000 0 with started := true }
     o.faddr + 0x10000 * 128 ≤ 0x1000000) ∧
    (let r : EraseRun := { seq := 1, runFrom := 0, suspended := true }
     (flashed { cur := some (flashOp 2 0 0), erase := some r } []).flash.erase = some r ∧ r.suspended = true) ∧
    up.flash.erase.all (fun r => !r.suspended) = true ∧
    (flashOp 6 1 (0x400000 - 0x2000)).faddr < 2 ∧ (flashOp 6 1 (0x400000 - 0x2000)).src + 0x2000 ≤ 0x400000 ∧
    ({ flashOp 1 0 0 with result := some (12, 0) }.result = some (12, 0)) ∧
    (let o := { flashOp 2 0x10000 0 with judgedAt := 0 }
     let s := flashed { cur := some o } [(FLC.base, FLC.WP.WP, 2)]
     s.flash.cur = some o ∧ o.judgedAt = s.now ∧ o.started = false ∧ o.result = none ∧ s.forbidden o = true) ∧
    (let s : State := { up with core := up.core.set 0 { lockLeft := 1, lockWord := some (0x3FF000 / 8) } }
     s.heldFrom 7 .sram 0x3FF000 = true) := by decide +kernel

/-- The controller reads a descriptor and leaves the hall as it was. -/
theorem wit_descriptor : up.readSpan 0x3FF000 {} 2 = (.ok 0, up) := rfl

/-- Lines of which the last is not blank. -/
def lines : State := { up with mem := [(0x20FFFFE0, 0)] }

theorem wit_flash_operations :
    (flashed { cur := some (flashOp 1 0 0) } []).flash.cur = some (flashOp 1 0 0) ∧ (flashOp 1 0 0).result = none ∧
    (flashOp 1 0 0).line = none ∧ (flashOp 1 0 0).started = false ∧
    up.flash.refresh = none ∧ (∀ l, (flashed { refresh := some 262144 } []).flash.refresh = some l → l / 262144 ≠ 0 / 0x800000) ∧
    (lines.lineBlank 524287 = false ∧ up.lineBlank 524287 = true ∧ (flashOp 1 0xFFFFE0 0).faddr < 0x1000000) ∧
    { flashOp 1 0xFFFFE0 0 with line := some 5 }.line = some 5 ∧
    (up.bytes (0x20000000 + 32 * 524287) 32 ≠ 0 ∧ up.bytes (0x20000000 + 32 * 524287) 32 = 2 ^ 256 - 1) ∧
    (∃ i < 0x2000, ({ up with mem := [(0x49005FFF, 0)] } : State).byte (0x49002000 + 0x2000 * 1 + i) ≠ 0xFF) ∧
    up.optValid 0 = false := by
  refine ⟨by decide +kernel, by decide +kernel, by decide +kernel, by decide +kernel, by decide +kernel, ?_, by decide +kernel,
    by decide +kernel, by decide +kernel, ⟨0x1FFF, by decide, by decide +kernel⟩, by decide +kernel⟩
  intro l h
  cases h
  decide

/-- A copy of the options that is blank up to its last line; one that is blank, with an image of which line 3 fails. -/
theorem wit_option_copy :
    (let s : State := { up with mem := [(0x49005FFF, 0)] }
     (∀ j : Fin 255, ∀ k : Fin 32, s.byte (0x49002000 + 0x2000 * 1 + 32 * j + k) = 0xFF) ∧
     s.byte (0x49002000 + 0x2000 * 1 + 32 * 255 + 31) ≠ 0xFF) ∧
    (∀ j : Fin 256, ∀ k : Fin 32, up.byte (0x49002000 + 0x2000 * 0 + 32 * j + k) = 0xFF) ∧
    ((up.readLines (0x400000 - 96) {} 0 256).1 matches .err 3) ∧ (up.readLines 0 {} 0 256).1 = .ok 0 := by decide +kernel

theorem wit_image : up.readLines 0 {} 0 256 = (.ok 0, up) := by decide +kernel

theorem wit_flash_reads :
    (up.erasing 255 = false ∧ up.torn 255 = false ∧ up.islandUp .fabric = true ∧ up.flash.waiting = [] ∧
      up.programming 1 = false ∧ up.eraseRuns 1 = false) ∧
    (let s := flashed { cur := some { flashOp 1 0xFFFFE0 0 with line := some 0 } } []
     s.programming 1 = true ∧ s.eraseRuns 1 = false ∧ s.erasing 255 = false) ∧
    (let r : EraseRun := { seq := 1, runFrom := 0 }
     let s := flashed { cur := some { flashOp 2 0x800000 0 with started := true }, erase := some r } []
     s.flash.erase = some r ∧ s.eraseRuns 1 = true ∧ s.erasing 255 = false ∧ s.erasing 128 = true ∧ r.suspended = false ∧
     r.delayed = false ∧ { r with delayed := true }.delayed = true ∧ { r with delayed := true }.runFrom = s.now) ∧
    (∀ w ∈ ([⟨5, 7, true, false⟩] : List FlashWait), w.init ≠ (5 : Fin 16).val ∨ w.line ≠ 8) ∧
    (∀ w ∈ ([⟨5, 7, true, true⟩] : List FlashWait), w.served = true) ∧
    (put up [(FLC.base, FLC.TORN_MAP.TORN.at 28, 0x80000000)]).torn 255 = true ∧
    (let r : EraseRun := { seq := 1, runFrom := 0, asked := some 5, sw := true }
     r.suspended = false ∧ r.asked = some 5 ∧ { r with suspended := true }.suspended = true ∧
     { r with suspended := true, sw := false }.sw = false) ∧
    (up.getB FLC.base FLC.CTRL.SCRUB_EN = true ∧ up.flash.refresh = none ∧ up.flash.cur = none ∧ up.torn 0 = false) ∧
    (put up [(FLC.base, FLC.CTRL.SCRUB_EN, 0)]).getB FLC.base FLC.CTRL.SCRUB_EN = false ∧
    (put up [(FLC.base, FLC.TORN_MAP.TORN, 1)]).torn (up.flash.scrubLine / 2048) = true ∧
    (flashed { refresh := some 524287 } []).flash.refresh = some 524287 := by decide +kernel

/-! ### The ring -/

/-- A hall with a node ID and a master bit, on a ring of which it uses the ports of `use`. -/
def ringed (node : BitVec 7) (master : Bool) (l : List (Nat × Fld × Nat)) (r : Ring) : State :=
  { put up ([(KNR.base, KNR.CTRL.ENABLE, 1)] ++ l) with options := { up.options with node := node, master := master }, ring := r }

theorem wit_ring_ports :
    up.islandUp .ring = true ∧ (put up [(SYS.base, SYS.ISL_STATUS.RING_UP, 0)]).islandUp .ring = false ∧
    up.options.ports.getLsbD (1 : Fin 2) = true ∧ { up.options with ports := 1 }.ports.getLsbD (1 : Fin 2) = false ∧
    up.getB KNR.base (portUpF 1) = false ∧ (put up [(KNR.base, portUpF 1, 1)]).getB KNR.base (portUpF 1) = true ∧
    up.ring.use = 0 ∧ { up.ring with use := 3 }.use ≠ 0 ∧ { up.ring with nbrUp := 2 }.nbrUp.getLsbD (1 : Fin 2) = true ∧
    up.ring.nbrUp.getLsbD (1 : Fin 2) = false := by decide +kernel

theorem wit_ring_master :
    (let s := ringed 64 false [] { use := 3 }
     s.islandUp .ring = true ∧ s.streamPort = some 1 ∧ s.candidate = false ∧ s.ringMember = true) ∧
    (let s := ringed 64 true [] { use := 1 }
     s.streamPort = some 0 ∧ s.candidate = true ∧ s.getB KNR.base KNR.STATUS.MASTER = false ∧
     s.getF KNR.base KNR.IDS.MASTER_ID ≠ s.nodeId) ∧
    up.streamPort = none ∧ (true = true ∧ (ringed 64 false [] {}).options.master = false) ∧
    (false = (ringed 2 false [] {}).options.master ∧ (1 : BitVec 7).toNat < (ringed 2 false [] {}).nodeId) ∧
    (let s := ringed 1 false [(KNR.base, KNR.STATUS.MASTER, 1)] { use := 1, capAt := some (2 ^ 32 - 1, 10000), captured := some 5, nextCycle := 5 }
     s.ring.capAt = some (2 ^ 32 - 1, 10000) ∧ s.ringMember = true ∧ s.getB KNR.base KNR.STATUS.MASTER = true ∧
     s.streamPort ≠ none ∧ s.ring.captured = some s.ring.nextCycle) ∧
    up.ring.capAt = none ∧ up.ringMember = false := by decide +kernel

theorem wit_ring_loss :
    (let s := ringed 2 false [(KNR.base, KNR.CTRL.TAKEOVER, 1), (KNR.base, KNR.CTRL.ISO_TRIP, 1)]
       { use := 1, hdrAt := some 7, hdrFrom := some 3, capAt := some (9, 10000) }
     s.ring.hdrAt = some 7 ∧ s.getB KNR.base KNR.STATUS.CYCLE_LOST = false ∧ s.getB KNR.base KNR.CTRL.ISO_TRIP = true ∧
     s.ringMember = true ∧ s.getB KNR.base KNR.CTRL.TAKEOVER = true ∧ s.getB KNR.base KNR.STATUS.MASTER = false ∧
     s.ring.capAt = some (9, 10000) ∧ s.ring.hdrFrom = some 3 ∧ s.streamPort = some 0 ∧ s.options.refRing = true) ∧
    (up.ring.hdrAt = none ∧ up.ring.hdrFrom = none ∧ up.getB KNR.base KNR.CTRL.ISO_TRIP = false ∧
      up.getB KNR.base KNR.CTRL.TAKEOVER = false ∧ { up.options with refRing := false }.refRing = false) ∧
    (put up [(KNR.base, KNR.STATUS.CYCLE_LOST, 1)]).getB KNR.base KNR.STATUS.CYCLE_LOST = true := by decide +kernel

/-- A frame of two slots, the second one this hall's. -/
def ringFrame : RingFrame :=
  { frame with master := 127, mt := 1000, lens := Vector.replicate 64 63
               slots := [{ slot with node := 63 }, { slot with node := 64, written := 7 }] }

theorem wit_ring_frames :
    (let s := ringed 64 false [] { use := 3, timeSet := true }
     s.islandUp .ring = true ∧ s.streamPort = some (1 : Fin 2).val ∧ s.ringMember = true ∧ s.ring.timeSet = true ∧
     ringFrame.hdrOk = true ∧ ringFrame.schedOk = true ∧ (ringFrame.slots.map RingSlot.node).Nodup ∧ ringFrame.master < 128 ∧
     s.getB KNR.base KNR.STATUS.MASTER = false ∧ ringFrame.slots.map RingSlot.node = [63, s.nodeId] ∧
     (∀ g ∈ ringFrame.slots, g.crcOk = true ∧ g.valid = true) ∧
     (∃ g ∈ ringFrame.slots, g.node = s.nodeId ∧ g.written.toNat ≠ ringFrame.cycle.toNat % 2 ^ 24) ∧
     (∃ g ∈ ringFrame.slots, g.node ≠ s.nodeId) ∧
     (∃ g ∈ ringFrame.slots, g.node = s.nodeId ∧ g.written.toNat = { ringFrame with cycle := 7 }.cycle.toNat % 2 ^ 24)) ∧
    ((ringed 64 false [] {}).ring.timeSet = false ∧ { ringFrame with hdrOk := false }.hdrOk = false ∧
      { ringFrame with mktAcc := true }.mktAcc = true) ∧
    (let s := ringed 64 false [(KNR.base, KNR.STATUS.MASTER, 1)] { use := 1 }
     s.getB KNR.base KNR.STATUS.MASTER = true ∧ { ringFrame with master := 64 }.master = s.nodeId ∧
     { ringFrame with master := 63 }.master < s.nodeId ∧ s.ring.took = false ∧ s.options.master = false ∧
     (s.ring.prio.contains 63) = false ∧ ({ s.ring with prio := [65] }.prio.contains 65) = true ∧ ¬ 65 < s.nodeId ∧
     { s.ring with took := true }.took = true ∧ s.ring.frameAt ≠ some s.now) := by decide +kernel

theorem wit_ring_applies :
    (up.ring.captured = none ∧ up.ringMember = false) ∧
    (let s := ringed 64 false [(KNR.base, KNR.CTRL.ABS_CYC, 1)]
       { captured := some 2, lens := Vector.replicate 64 32, segs := [(63, 0, List.replicate 32 1)] }
     s.ring.captured = some 2 ∧ s.ringMember = true ∧ s.ring.applied ≠ some 2 ∧ 2 + s.ring.lag ≤ 2 ∧
     s.segment 63 0 = some (List.replicate 32 1) ∧ (62 ≠ s.nodeId ∧ s.schedLen 62 ≠ 0 ∧ s.segment 62 0 = none) ∧
     max 1 (s.getF KNR.base KNR.CTRL.ABS_CYC) ≤ s.ring.staleRun[61] + 1) ∧
    (let s := ringed 64 false [] { captured := some 2, applied := some 2, lag := 1 }
     s.ring.applied = some 2 ∧ 2 < 2 + s.ring.lag) := by decide +kernel

theorem wit_ring_messages :
    up.islandUp .ring = true ∧ (64 : BitVec 7).toNat ≠ up.nodeId ∧ (64 : BitVec 7).toNat = (ringed 64 false [] {}).nodeId ∧
    ((1, 64, 255) ∈ (ringed 1 false [] { tripSeen := [(1, 64, 255)] }).ring.tripSeen ∧ (1, 64, 255) ∉ up.ring.tripSeen) ∧
    (let s := ringed 1 false [(ATC.base, ATC.CTRL.MKT_ACCEPT, 1)] {}
     s.ringMember = true ∧ s.getB ATC.base ATC.CTRL.MKT_ACCEPT = true ∧ s.ring.recSeen = []) ∧
    (up.ring.capturedOn ≠ some up.now ∧ { up.ring with capturedOn := some 0 }.capturedOn = some up.now) ∧
    up.getB KNR.base KNR.STATUS.TX_BUSY = false ∧ (put up [(KNR.base, KNR.STATUS.TX_BUSY, 1)]).getB KNR.base KNR.STATUS.TX_BUSY = true ∧
    up.ring.rx = [] ∧
    (let s := ringed 1 false [] { rx := [msg, { msg with payload := List.replicate 248 1 }] }
     s.ring.rx = msg :: { msg with payload := List.replicate 248 1 } :: []) ∧
    (let s := ringed 1 false [(KNR.base, KNR.IRQ_EN.SRC, 2 ^ 11)] { captured := some 7, requests := [⟨2, 1, 3, 7⟩, ⟨1, 2, 3, 8⟩] }
     s.ring.captured = some 7 ∧
     (∃ q ∈ s.ring.requests, (s.ring.captured.any fun k => decide ((k + 2 ^ 32 - q.due) % 2 ^ 32 < 2 ^ 31)) = true ∧ q.svc ≠ 1) ∧
     (∃ q ∈ s.ring.requests, (s.ring.captured.any fun k => decide ((k + 2 ^ 32 - q.due) % 2 ^ 32 < 2 ^ 31)) = false) ∧ s.bit KNR.base KNR.IRQ_EN.SRC 11 = true) ∧
    up.ring.requests = [] := by decide +kernel

/-! ### The object dictionary -/

/-- A request of node 3 to node 2: CMD, subindex, index, offset, length and data. -/
def request1 (cmd sub ix off len : Nat) (data : List (BitVec 8)) : RingMsg :=
  { dst := 2, src := 3, seq := 0xFFFF, svc := 1, kind := 0
    payload := leBytes cmd 1 ++ leBytes sub 1 ++ leBytes ix 2 ++ leBytes off 4 ++ leBytes len 4 ++ data }

/-- Node 2 with its dictionary served over the ring and features 0 and 1 accepted, a request in front. -/
def served (l : List (Nat × Fld × Nat)) (o : Ode) : State :=
  { put up ([(KNR.base, KNR.CTRL.ENABLE, 1), (KNR.base, KNR.STATUS.MEMBER, 1), (ODE.base, ODE.CTRL.ENABLE, 1),
      (ODE.base, ODE.CTRL.RING_EN, 1), (ODE.base, ODE.CTRL.CAN_EN, 1), (ODE.base, ODE.FEAT_ACC_LO.ACC, 3),
      (ODE.base, axisF ODE.AXIS_CFG.EN 0, 1)] ++ l) with
    options := { up.options with node := 2 }, ode := o }

def isRegister (s : State) (m : RingMsg) (r : OdRight) : Bool :=
  match s.odFind (odIndex m) (odSub m) with
  | .ok (.reg p false) => p.row.odRight == r && p != ⟨.cel, 0, 0x800⟩ &&
      ((s.busRead 4 (p.blk.base p.inst + p.off) 4 false {}).1 matches .ok _)
  | _ => false

theorem wit_requests :
    (let s := served [] {}
     s.cellar.phase = .up ∧ s.odeRingServes = true ∧ s.odKept (request1 1 0 0 0 4 []) = none ∧ s.ode.queue.length < 4 ∧
     s.ode.waits[(4 : Fin 6)] = none ∧ up.odeRingServes = false) ∧
    (let s := served [] { queue := List.replicate 4 (request1 1 0 0 0 4 []) }
     4 + (s.ode.waits[(4 : Fin 6)]).isSome.toNat ≤ s.ode.queue.length) ∧
    (served [] { kept := [(3, 0xFFFF, [])] }).odKept (request1 1 0 0 0 4 []) = some [] := by decide +kernel

theorem wit_request_registers :
    (let m := request1 1 18 0x2A00 0 4 []
     isRegister (served [] {}) m .rw = true ∧ odCmd m = 1 ∧ 4 ≤ odLength m) ∧
    (let m := request1 2 2 0x2A00 0 4 [0, 0, 0, 0]
     isRegister (served [] {}) m .ro = true ∧ odKind m = .write ∧ odCmd m = 2) ∧
    (let m := request1 2 18 0x2A00 0 4 [1, 2, 3, 4]
     isRegister (served [] {}) m .rw = true ∧ odKind m = .write ∧ odLength m = 4 ∧ 4 ≤ (odData m).length) ∧
    (let m := request1 2 3 0x2D00 0 4 [1, 0, 0, 0]
     isRegister (served [] {}) m .rwd = true ∧ ((served [] {}).rd ODE.base).getLsbD 0 = true ∧ odKind m = .write) := by
  decide +kernel

theorem wit_request_blocks :
    (served [] {}).odKnows 3 = true ∧
    (served [] {}).odFind 0x2802 0 = .ok (.domain 0x30038000 0x4000 false) ∧
    (let s := served [(ODE.base, ODE.FEAT_ACC_LO.ACC, 0x41)] { blocks := [⟨4 + 16 * 3, 0x2E00, 0, 236⟩] }
     s.odFind 0x2E00 0 = .ok (.domain 0x30000000 0x20000 true) ∧
     (s.ode.blocks.find? fun k => k.client == 4 + 16 * 3 && k.index == 0x2E00 && k.sub == 0) = some ⟨52, 0x2E00, 0, 236⟩) ∧
    (let m := request1 3 0 0x2802 0x3FFF 236 []
     odCmd m = 3 ∧ odOffset m = 0x3FFF ∧ ((served [] {}).odBytes 4 (0x30038000 + 0x3FFF) 1 []).1 = .ok [0]) ∧
    (0x4000 ≤ odOffset (request1 3 0 0x2802 0x4000 236 [])) ∧
    (let m := request1 5 0 0x2E00 236 2 [7, 8]
     odCmd m = 5 ∧ odLength m ≤ (odData m).length ∧ odOffset m + odLength m ≤ 0x20000 ∧ odOffset m ≠ 0 ∧
     odCmd (request1 4 0 0x2E00 0 2 [7, 8]) = 4) ∧
    ((served [(ODE.base, ODE.FEAT_ACC_LO.ACC, 0x41)] {}).odPoke 4 0x300000EC [7, 8] []).1 = none := by decide +kernel

theorem wit_request_sets :
    (odCmd (request1 6 0 0 0 0 []) = 6 ∧ ((served [] {}).busWrite 4 (CEL.base + CEL.CMD.W.off) 4 1 {}).1 = .ok 0 ∧
      (served [] {}).cellar.snap = none ∧
      { served [] {} with cellar := { up.cellar with snap := some ⟨3, 0, 1, 0x30027FF4, 0⟩ } }.snapYields = true ∧
      { served [] {} with cellar := { up.cellar with snap := some ⟨1, 0, 1, 0x30027FF4, 0⟩ } }.snapYields = false ∧
      { up.cellar with snap := some ⟨1, 0, 1, 0x30027FF4, 0⟩ }.snap ≠ none) ∧
    (odCmd (request1 7 0 0 0 0 []) = 7 ∧ (served [] {}).getB CEL.base CEL.STATUS.DEF_VALID = false ∧
      (served [(CEL.base, CEL.STATUS.DEF_VALID, 1)] {}).getB CEL.base CEL.STATUS.DEF_VALID = true) ∧
    (let m := request1 2 0 0x1F81 0 8 [0x7F, 0, 0, 0, 0, 0, 0, 0]
     odCmd m = 2 ∧ odIndex m = 0x1F81 ∧ odSub m = 0 ∧ odLength m = 8 ∧ numAt (odData m) 0 8 < 0x80) ∧
    0x80 ≤ numAt (odData (request1 2 0 0x1F81 0 8 [0x80, 0, 0, 0, 0, 0, 0, 0])) 0 8 ∧
    ({ window := some 0 : Ode }.window ≠ none ∧ ({} : Ode).window = none ∧ ({} : Ode).closedOn ≠ some up.now ∧
      { closedOn := some 0 : Ode }.closedOn = some up.now) ∧
    (let m := request1 2 0 0x6040 0 2 [6, 0]
     odLength m = 2 ∧ 2 ≤ (odData m).length ∧ odKind m = .control ∧ (served [] {}).odFind 0x6040 0 = .ok (.control 0)) ∧
    (let m := request1 2 0 0x6071 0 2 [0, 0x80]
     odKind m = .torque ∧ (served [] {}).odFind 0x6071 0 = .ok (.torque 0) ∧
     ((served [] {}).busWrite 4 (ENG.base 0 + ENG.MBX_IN.VALUE.off) 4 0x80000000 {}).1 = .ok 0 ∧
     ((served [] {}).busWrite 4 (ENG.base 0 + ENG.CMD.W.off) 4 2 {}).1 = .ok 0) := by decide +kernel

theorem wit_axes :
    (([AxisState.disabled, .ready, .on, .enabled, .fault].all fun a =>
      (served [] { axis := (Vector.replicate 8 {}).set 7 { state := a } }).axisState 7 == a) = true) ∧
    ((6 : Nat).testBit 1 = true ∧ (6 : Nat).testBit 2 = true ∧ (6 : Nat).testBit 0 = false ∧ (7 : Nat).testBit 3 = false ∧
      (15 : Nat).testBit 3 = true ∧ (0x80 : Nat).testBit 7 = true) ∧
    (up.armState ≠ 2 ∧ (put up [(CEL.base, CEL.ARM_STATE.STATE, 2)]).armState = 2) ∧
    (let s := served [(TRP.base, TRP.LEG_HELD_LO.HELD, 1), (ODE.base, axisF ODE.AXIS_CFG.LEGS 0, 1)] {}
     s.axisOn 0 = true ∧ s.axisError 0 ≠ 0 ∧ s.axisState 0 ≠ .fault ∧ s.axisOn 7 = false) ∧
    (served [] {}).axisError 0 = 0 ∧ { window := some 0 : Ode }.window = some 0 := by decide +kernel

theorem wit_clients :
    (let s := served [] {}
     s.cellar.phase = .up ∧ s.usdoServes = true ∧ s.ode.waits[(5 : Fin 6)] = none ∧ s.ode.usdo = none ∧
     s.nodeId = (2 : BitVec 7).toNat ∧ s.nodeId ≠ (3 : BitVec 7).toNat ∧ s.feature 4 = false) ∧
    (let s := served [(ODE.base, ODE.FEAT_ACC_LO.ACC, 0x10)] { usdo := some ⟨126, none, 0, 0, true, [], 0, 0⟩ }
     s.ode.usdo = some ⟨126, none, 0, 0, true, [], 0, 0⟩ ∧ s.feature 4 = true) ∧
    up.usdoServes = false ∧
    (let s := served [] {}
     (s.odTransact 5 5 1 0x1018 4 0 236 [] [] []).1 matches .done _) ∧
    (let s := served [] {}
     (s.odTransact 5 5 1 0x1018 5 0 236 [] [] []).1 matches .abort _) ∧
    (let s := served [] {}
     (s.odTransact 5 5 2 0x2A00 18 0 4 [1, 2, 3, 4] [] []).1 matches .done _) := by decide +kernel

/-- Core 3 at the entry of ODSVC with its arguments. -/
def calling (cmd ix sub len : Nat) : Core :=
  { core 0x600 [(4, BitVec.ofNat 32 (cmd * 2 ^ 24 + ix * 2 ^ 8 + sub)), (5, 0x3FFFFC), (6, BitVec.ofNat 32 len)] with pc := odsvcEntry }

theorem wit_odsvc :
    (let x := calling 1 0x1018 4 4
     (cored x []).coreUp 3 = true ∧ x.waiting = false ∧ x.pc = odsvcEntry ∧ x.slot = none ∧ x.sup = true ∧ (x.out.find? fun o => o.lost) = none ∧ x.store = [] ∧
     (cored x []).ode.waits[(3 : Fin 6)] = none ∧ x.svcArgs.cmd = 1 ∧ x.shadow = [] ∧
     ((cored x []).odTransact 3 3 1 0x1018 4 0 4 [] [] []).1 matches .done _) ∧
    (let x := calling 1 0x1018 5 4
     ((cored x []).odTransact 3 3 1 0x1018 5 0 4 [] [] []).1 matches .abort _) ∧
    (let x := calling 2 0x2A00 18 4
     x.svcArgs.cmd = 2 ∧ ((cored x []).odBytes 3 0x3FFFFC 4 []).1 = .ok [0, 0, 0, 0] ∧
     ((cored x []).odTransact 3 3 2 0x2A00 18 0 4 [0, 0, 0, 0] [] []).1 matches .done _) ∧
    (core 0x600 []).pc ≠ odsvcEntry ∧
    (let x : Core := { core 0x400 [] with pc := odsvcEntry }
     (cored x []).coreUp 3 = true ∧ x.waiting = false ∧ x.slot = none ∧ (x.out.find? fun o => o.lost) = none ∧ x.sup = false ∧
     x.cl ≠ 9) ∧
    (let x : Core := { core 0x600 [] with waiting := true }
     x.waiting = true ∧ (cored x []).wakes 3 = false) := by decide +kernel

/-! ### The attic recorder -/

def recording (l : List (Nat × Fld × Nat)) (a : Attic) : State := { put up ([(ATC.base, ATC.CTRL.ENABLE, 1)] ++ l) with attic := a }

def eventWindow : EventWindow := { number := 1, src := 0, arg := 0, time := 5, pre := 0, post := 20000 }

theorem wit_recorder :
    (up.attic.items = [] ∧ up.dbg.trace = [] ∧ up.taps = false ∧ (recording [] {}).taps = true) ∧
    (let i : Item := .mark 16 255 7 9
     let s := recording [(ATC.base, ATC.CTRL.STREAM_EN, 1), (ATC.base, ATC.STATUS.READY, 1), (ATC.base, ATC.CTRL.WIN_EN, 0)]
       { items := [i], opened := [{ type := 4, win := false, cnv := 0, slot := 2047, times := [], len := 3936 }] }
     s.attic.items = i :: [] ∧ s.streaming = true ∧ s.windowing = false ∧
     ((s.attic.opened.find? fun o => o.type == 4 && o.win == false && o.cnv == 0).map fun o => o.len + 32) = some 3968) ∧
    (let t : TraceItem := { time := 0, core := 0, kind := 1, frm := 0, to_ := 0 }
     { up.dbg with trace := [t] }.trace = t :: []) ∧
    (0x100 ≤ (0x100 : Word).toNat ∧ (0xFF : Word).toNat < 0x100) := by decide +kernel

theorem wit_windows :
    (let s := recording [(ATC.base, ATC.CTRL.WIN_EN, 1)] {}
     s.windowing = true ∧ s.attic.window = none) ∧
    (recording [] { window := some eventWindow }).attic.window = some eventWindow ∧ up.windowing = false ∧
    (eventWindow.src = 0 ∧ { eventWindow with src := 3 }.openedAt = up.now ∧ { eventWindow with src := 3 }.src ≠ 0 ∧
      { closedOn := some (0, 7) : Attic }.closedOn = some (up.now, 7) ∧ ({} : Attic).lostOn ≠ some up.now) ∧
    (let s := recording [(ATC.base, ATC.STATUS.READY, 1)] { streamQ := [{ slot := 2047, copy := some 1 }], stopping := true }
     s.getB ATC.base ATC.STATUS.READY = true ∧ s.streamSlot ≠ none ∧ s.attic.stopping = true) ∧
    up.getB ATC.base ATC.STATUS.READY = false ∧ up.attic.stopping = false ∧
    ({ first := 1, second := 0 : NvmeResult }.second = 0 ∧ { first := 1, second := 2 : NvmeResult }.second ≠ 0) := by decide +kernel

theorem wit_drive :
    (up.attic.perstFrom = none ∧ up.attic.perst = false ∧ up.attic.bringUp = false ∧ up.attic.failAt = none ∧ up.attic.step6 = false) ∧
    ({ perstFrom := some 3 : Attic }.perstFrom = some 3 ∧ { perst := true, bringUp := true : Attic }.bringUp = true ∧
      { failAt := some 3 : Attic }.failAt = some 3 ∧ { step6 := true : Attic }.step6 = true) ∧
    (let s := recording [(ATC.base, ATC.REG_LEN.LEN, 64)] { perst := true, bringUp := true }
     s.getB ATC.base ATC.CTRL.ENABLE = true ∧ s.attic.perst = true ∧ ¬ (s.regLen < 64 ∨ 0x10000000 < s.regLen)) ∧
    (recording [(ATC.base, ATC.REG_LEN.LEN, 63)] {}).regLen < 64 ∧
    (let s := recording [] {}
     let g : CkptCopy := { good := true, start := BitVec.ofNat 64 s.regStart, len := BitVec.ofNat 32 s.regLen, count := 1 }
     s.copyGood g = true ∧ s.copyGood {} = false ∧ { g with count := 0 }.count.toNat < g.count.toNat) ∧
    up.readCause = true ∧
    (recording [(ATC.base, ATC.STATUS.READY, 1)] {}).readCause = false ∧
    ({ readback := some (0, 8) : Attic }.readback = some (0, 8) ∧ 8 ≤ 8 ∧ (1 : BitVec 16) ≠ 0) ∧
    (let s := recording [(ATC.base, ATC.STATUS.READY, 1), (ATC.base, ATC.REG_LEN.LEN, 64)] { readRefused := true, readOn := some 0 }
     s.attic.readRefused = true ∧ s.attic.readOn = some s.now ∧ s.getB ATC.base ATC.STATUS.READY = true ∧
     s.getF ATC.base ATC.RB_LBA.BLOCK + min 8 (max 1 (s.getF ATC.base ATC.RB_COUNT.COUNT)) ≤ s.getF ATC.base ATC.REG_LEN.LEN ∧
     ({} : Attic).readRefused = false) := by decide +kernel

/-! ### Debug -/

/-- A monitor request from the hall itself: CMD, core, address, length and data. -/
def monitor (cmd n addr len : Nat) (data : List (BitVec 8)) : RingMsg :=
  { dst := 0, src := 0, seq := 0, svc := 0, kind := 0
    payload := leBytes cmd 1 ++ leBytes n 1 ++ [0, 0] ++ leBytes addr 4 ++ leBytes len 4 ++ data }

def debugged (l : List (Nat × Fld × Nat)) (d : Debug) : State := { put up ([(DBG.base, DBG.LOCK.STATE, 3)] ++ l) with dbg := d }

/-- SHA-256 of 32 bytes of zero (FIPS 180-4). -/
def zeroDigest : List (BitVec 8) :=
  [0x66, 0x68, 0x7a, 0xad, 0xf8, 0x62, 0xbd, 0x77, 0x6c, 0x8f, 0xc1, 0x8b, 0x8e, 0x9f, 0x8e, 0x20, 0x08, 0x97, 0x14, 0x85,
   0x6e, 0xe2, 0x33, 0xb3, 0x90, 0x2a, 0x59, 0x1d, 0x0d, 0x5f, 0x29, 0x25]

theorem wit_debug_access :
    up.tapRuns = true ∧ { up.cellar with trstN := false }.trstN = false ∧
    (put up [(SYS.base, SYS.ISL_STATUS.DEBUG_UP, 0)]).tapRuns = false ∧
    (let s := debugged [(DBG.base, DBG.LOCK.STATE, 2)] {}
     s.debugLocked = true ∧ lockedReach 0x40 = false ∧ lockedReach 0x1F = true ∧ s.reach (DBG.base + 4 * 0x40) = 0) ∧
    ((debugged [] {}).debugLocked = false ∧ (debugged [] {}).reach (DBG.base + 4 * 511) ≠ 0 ∧
      (debugged [] {}).reach (DBG.base + 4 * 5) = 0) ∧
    (let s := debugged [(DBG.base, DBG.SAP_ADDR.ADDR, 0x3FFFFC)] { sap := some false }
     s.dbg.sap = some false ∧ s.islandUp .dbg = true ∧ (s.busRead 6 0x3FFFFC 4 true {}).1 = .ok 0 ∧
     (s.busRead 6 0x3FFFFC 4 true {}).2.dbg.sap ≠ none ∧ (s.busRead 6 0x400000 4 true {}).1 = .err 1) ∧
    (let s := debugged [(DBG.base, DBG.SAP_ADDR.ADDR, 0x3FFFFC)] { sap := some true }
     s.dbg.sap = some true ∧ (s.busWrite 6 0x3FFFFC 4 0 {}).1 = .ok 0 ∧ (s.busWrite 6 0x3FFFFC 4 0 {}).2.dbg.sap ≠ none) ∧
    (let s := debugged [(DBG.base, DBG.LOCK.LOCKOUT, 1)] { lockEnd := 1 }
     s.getB DBG.base DBG.LOCK.LOCKOUT = true ∧ s.now < s.dbg.lockEnd) ∧
    (let s := debugged [(DBG.base, DBG.LOCK.LOCKOUT, 1)] {}
     s.getB DBG.base DBG.LOCK.LOCKOUT = true ∧ ¬ s.now < s.dbg.lockEnd) := by decide +kernel

theorem wit_key :
    sha256Of32 (List.replicate 32 0) = zeroDigest ∧
    (let s : State := { up with options := { up.options with keyHash := 0x25295f0d1d592a90b333e26e85149708208e9f8e8bc18f6c77bd62f8ad7a6866 } }
     s.keyMatches (List.replicate 32 0) = true ∧ up.keyMatches (List.replicate 32 0) = false) := by decide +kernel

theorem wit_monitor_cores :
    (let s := cored (core 0x9600 []) []
     s.coreUp 3 = true ∧ s.core[(3 : Fin 4)].monReq = false ∧ s.halted 3 = false) ∧
    (let s := cored { core 0x9600 [] with inUse := 0x200 } []
     s.halted 3 = true ∧ s.core[(3 : Fin 4)].cl = 9) ∧
    (let s := cored { core 0x8600 [] with inUse := 0x200 } []
     s.halted 3 = true ∧ s.core[(3 : Fin 4)].cl ≠ 9) ∧
    (put up [(SYS.base, SYS.ISL_STATUS.CORE_UP, 7)]).coreUp 3 = false ∧
    up.getB DBG.base DBG.MCMD_STATUS.BUSY = false ∧ up.getF DBG.base DBG.MCMD_CTRL.DST = 0 ∧
    (put up [(DBG.base, DBG.MCMD_STATUS.BUSY, 1)]).getB DBG.base DBG.MCMD_STATUS.BUSY = true ∧
    (put up [(DBG.base, DBG.MCMD_CTRL.DST, 64)]).getF DBG.base DBG.MCMD_CTRL.DST ≠ 0 := by decide +kernel

theorem wit_monitor_commands :
    (let m := monitor 1 0 0x3FFF14 236 []
     let s := debugged [] { queue := [m] }
     s.islandUp .dbg = true ∧ s.dbg.queue = m :: [] ∧ byteAt m.payload 0 = 1 ∧ s.debugLocked = false ∧ memLimits m = true ∧
     (s.peekWords 0x3FFF14 1 [] []).1.waits = false ∧ (s.peekWords 0x3FFF14 1 [] []).1.kind = none ∧
     (s.peekWords 0x400000 1 [] []).1.kind = some 1) ∧
    (let m := monitor 2 0 0x3FFFFC 4 [1, 2, 3, 4]
     let s := debugged [] { queue := [m] }
     memLimits m = true ∧ (s.pokeWords 0x3FFFFC [5] []).1.waits = false ∧ (s.pokeWords 0x3FFFFC [5] []).1.kind = none ∧
     (s.pokeWords 0x400000 [5] []).1.kind = some 1) ∧
    (memLimits (monitor 1 0 0 237 []) = false ∧ memLimits (monitor 1 0 2 4 []) = false ∧ memLimits (monitor 2 0 0 240 []) = false) ∧
    ((debugged [(DBG.base, DBG.LOCK.STATE, 2)] { queue := [monitor 8 0 0 32 []] }).debugLocked = true) ∧
    (byteAt (monitor 3 4 0 0 []).payload 1 = 4 ∧ byteAt (monitor 7 3 15 0 [1, 0, 0, 0]).payload 1 = 3 ∧
      byteAt (monitor 8 0 0 32 []).payload 0 = 8 ∧ numAt (monitor 8 0 0 32 []).payload 8 4 = 32 ∧
      numAt (monitor 8 0 0 31 []).payload 8 4 ≠ 32) ∧
    (let s := cored { core 0x9600 [] with inUse := 0x200 } []
     (s.monReg 3 15).isSome = true ∧ s.monReg 3 0x40 = none) := by decide +kernel

/-! ### Peripherals -/

theorem wit_serial :
    (up.spi[(3 : Fin 4)].tx.length < 16 ∧ up.spi[(3 : Fin 4)].rx.length < 16 ∧ up.getB (SPI.base 3) SPI.CTRL.ENABLE = false) ∧
    (let x : Serial := { tx := List.replicate 16 5, rx := List.replicate 16 6 }
     let s : State := { put up [(SPI.base 3, SPI.CTRL.ENABLE, 1)] with spi := up.spi.set 3 x }
     16 ≤ s.spi[(3 : Fin 4)].tx.length ∧ s.spi[(3 : Fin 4)].tx = 5 :: List.replicate 15 5 ∧ 16 ≤ s.spi[(3 : Fin 4)].rx.length ∧
     s.spi[(3 : Fin 4)].rx = 6 :: List.replicate 15 6 ∧ s.getB (SPI.base 3) SPI.CTRL.ENABLE = true) ∧
    (let x : Serial := { tx := List.replicate 15 5, rx := List.replicate 15 6 }
     let s : State := { put up [(UART.base 1, UART.CTRL.ENABLE, 1)] with uart := up.uart.set 1 x }
     s.uart[(1 : Fin 2)].tx.length < 16 ∧ s.uart[(1 : Fin 2)].rx.length < 16 ∧ s.getB (UART.base 1) UART.CTRL.ENABLE = true ∧
     s.getB (UART.base 1) UART.CTRL.RTSCTS = false) ∧
    (let s := put up [(UART.base 1, UART.CTRL.RTSCTS, 1), (GPIO.base, GPIO.IN_LO.IN, 2 ^ 23)]
     s.getB (UART.base 1) UART.CTRL.RTSCTS = true ∧ s.gpioIn (19 + 4 * (1 : Fin 2).val) = true) := by decide +kernel

def canFrame (id : Word) : CanFrame := { id := id, flags := 0, data := [] }

theorem wit_can :
    up.getB (CAN.base 1) CAN.CTRL.ENABLE = false ∧
    (let s := put up [(CAN.base 1, CAN.CTRL.ENABLE, 1), (CAN.base 1, CAN.FILT_ID.EN.at 248, 1),
       (CAN.base 1, CAN.FILT_ID.ID.at 248, 0x1FFFFFFF), (CAN.base 1, CAN.FILT_MASK.MASK.at 248, 0x1FFFFFFF)]
     s.getB (CAN.base 1) CAN.CTRL.ENABLE = true ∧ s.getF (CAN.base 1) CAN.STATUS.STATE ≠ 2 ∧
     s.getB (CAN.base 1) (CAN.FILT_ID.EN.at (8 * 31)) = true ∧
     0x1FFFFFFF &&& s.getF (CAN.base 1) (CAN.FILT_MASK.MASK.at (8 * 31)) =
       s.getF (CAN.base 1) (CAN.FILT_ID.ID.at (8 * 31)) &&& s.getF (CAN.base 1) (CAN.FILT_MASK.MASK.at (8 * 31)) ∧
     s.isUsdo 1 0x1FFFFFFF = false ∧ s.can[(1 : Fin 2)].rx.length < 32) ∧
    (let s := put up [(ODE.base, ODE.CTRL.CAN_EN, 1), (ODE.base, ODE.CTRL.CAN_SEL, 1), (ODE.base, ODE.CAN_CFG.NODE, 127)]
     s.isUsdo 1 0x67F = true ∧ s.isUsdo 1 0x5FF = true ∧ s.isUsdo 1 0x680 = false) ∧
    (let s := { put up [(CAN.base 1, CAN.CTRL.ENABLE, 1), (CAN.base 1, CAN.TX_PEND.PEND, 0x80), (CAN.base 1, CAN.TX_SLOT.DATA.at (0x50 * 7), 9),
       (ODE.base, ODE.CTRL.CAN_SEL, 1)] with ode := { up.ode with canTx := [canFrame 8] } }
     s.canFirst 1 8 = true ∧ s.canFirst 1 7 = false ∧ s.canSlot 1 8 = some (canFrame 8) ∧ (s.canSlot 1 7).isSome = true ∧
     s.getB (CAN.base 1) CAN.CTRL.LISTEN = false) ∧
    (put up [(CAN.base 1, CAN.STATUS.STATE, 2)]).getF (CAN.base 1) CAN.STATUS.STATE = 2 ∧
    ({ recovering := true : Can }.recovering = true ∧ up.can[(1 : Fin 2)].recovering = false) := by decide +kernel

theorem wit_slow :
    (let s := { put up [(IIC.base 1, IIC.CTRL.ENABLE, 1)] with iic := up.iic.set 1 { queue := [0x200], rx := [7] } }
     s.iic[(1 : Fin 2)].queue = 0x200 :: [] ∧ s.getB (IIC.base 1) IIC.CTRL.ENABLE = true ∧ s.getB (IIC.base 1) IIC.STATUS.HALTED = false ∧
     (0x200 : Word).getLsbD 9 = true ∧ (0xFF : Word).getLsbD 9 = false ∧ s.iic[(1 : Fin 2)].rx = 7 :: []) ∧
    (let s : State := { up with iic := up.iic.set 1 { queue := List.replicate 16 0 } }
     16 ≤ s.iic[(1 : Fin 2)].queue.length ∧ up.iic[(1 : Fin 2)].queue.length < 16 ∧ up.iic[(1 : Fin 2)].rx = []) ∧
    (let s := { put up [(QEP.base 3, QEP.CTRL.ENABLE, 1), (QEP.base 3, QEP.CTRL.ZMODE, 2), (QEP.base 3, QEP.STATUS.Z_ARMED, 1)] with
       qep := up.qep.set 3 { zAt := some 5, counted := some (0, 4) } }
     s.getB (QEP.base 3) QEP.CTRL.ENABLE = true ∧ s.getF (QEP.base 3) QEP.CTRL.ZMODE = 2 ∧
     s.getB (QEP.base 3) QEP.STATUS.Z_ARMED = true ∧ s.qep[(3 : Fin 4)].zAt ≠ some s.now ∧
     s.qep[(3 : Fin 4)].counted = some (s.now, 4) ∧ s.getF (QEP.base 3) QEP.CTRL.MODE = 0) ∧
    (let x : BallLevel := ⟨true, 5 * ac⟩
     2 * ac ≤ x.since ∧ min ((x.since - 2 * ac) / ac) ((3 * ac + (ac - 1)) / ac) =
       (put up [(QEP.base 3, QEP.CTRL.FILT, 3)]).getF (QEP.base 3) QEP.CTRL.FILT ∧ (⟨true, 2 * ac - 1⟩ : BallLevel).since < 2 * ac) ∧
    (up.qep[(3 : Fin 4)].zAt = none ∧ { zAt := some 0 : Qep }.zAt = some up.now) ∧
    (let s := put up [(GPIO.base, GPIO.IRQ_CFG.LINE.at 28, 63), (GPIO.base, GPIO.IRQ_CFG.MODE.at 28, 2)]
     s.getF GPIO.base (GPIO.IRQ_CFG.LINE.at (4 * 7)) = (63 : Fin 64).val ∧ s.getF GPIO.base (GPIO.IRQ_CFG.MODE.at (4 * 7)) = 2 ∧
     s.gpioIn 63 = false ∧ up.getF GPIO.base (GPIO.IRQ_CFG.MODE.at 28) = 7 ∧
     (put s [(GPIO.base, GPIO.IRQ_CFG.MODE.at 28, 4)]).getF GPIO.base (GPIO.IRQ_CFG.MODE.at (4 * 7)) = 4) := by decide +kernel

/-! ### Single steps, with the results of the spec's worked examples -/

/-- What is read of the state that a command answers. -/
def after {α : Type} (i : Instr) (s : State) (f : State → α) : Option α :=
  match exec i s with
  | .next t => some (f t)
  | _ => none

/-- Base addresses (00_scope, 01_hall_architecture, 05_window_comparators). -/
theorem test_addresses : LEG.base 17 = 0x40112100 ∧ CNV.base 9 = 0x40220000 ∧ CMP.base 9 = 0x40111100 ∧
    CRI.base + (CRI.CLAIM.W.at (0x100 * 0 + 0x10 * 6)).off = 0x48001060 := by decide

/-- A 64-bit counter read in two halves by core 2 (02_register_behaviour). -/
theorem test_shadow :
    let lo := ATC.base + ATC.SEQ_LO.SEQ.off
    let hi := ATC.base + ATC.SEQ_HI.SEQ.off
    let s := put up [(ATC.base, ATC.SEQ_LO.SEQ, 0xFFFFFFF0), (ATC.base, ATC.SEQ_HI.SEQ, 1)]
    let r := s.busRead 2 lo 4 false {}
    let t := put r.2 [(ATC.base, ATC.SEQ_LO.SEQ, 0x10), (ATC.base, ATC.SEQ_HI.SEQ, 2)]
    r.1 = .ok 0xFFFFFFF0 ∧ (t.busRead 2 hi 4 false {}).1 = .ok 1 := by decide +kernel

/-- The calibration of the phase-U shunt (04_converters). -/
theorem test_calZero :
    let s := { put up [(CNV.base 0, CNV.CTRL.DIFF01, 1)] with cnv := up.cnv.set 0 { cal := some { full := false, input := 0, paired := true, fs := 0, endAt := 0 } } }
    after (.calibrationEnd 0 ⟨-9600⟩) s (·.rd (CNV.base 0 + CNV.OFFSET.OFFSET.off)) = some 0xFFFFDA80 := by decide +kernel
theorem test_calFull :
    let s := { put up [(CNV.base 0, CNV.CTRL.DIFF01, 1), (CNV.base 0, CNV.OFFSET.OFFSET, 0xFFFFDA80)] with
      cnv := up.cnv.set 0 { cal := some { full := true, input := 0, paired := true, fs := 1200 * 65536, endAt := 0 } } }
    after (.calibrationEnd 0 ⟨6544000⟩) s (·.rd (CNV.base 0 + CNV.GAIN.GAIN.off)) = some 0x000C0000 := by decide +kernel
theorem test_correctedResult :
    let x : Scan := { scan with conv := some (0, ac), raw := some 12763 }
    let s := { put up [(CNV.base 0, CNV.OFFSET.OFFSET, 0xFFFFDA80), (CNV.base 0, CNV.GAIN.GAIN, 0x000C0000)] with
      cnv := up.cnv.set 0 { scan := some x } }
    after (.correctedResult 0) s (fun t => (t.rd (CNV.base 0 + CNV.RESULT.VALUE.off), t.now)) = some (0x02580600, 31 * ac) := by
  decide +kernel

/-- SVM and ST of the current loop (08_stall_engine): the compares of 39 062.5 ac and 10 937.5 ac. -/
def svmLane (pc : Nat) (l : List (Nat × Word)) : Lane :=
  { lane pc with e := l.foldl (fun (e : Vector Word 32) (x : Nat × Word) => e.set (Fin.ofNat 32 x.1) x.2) (Vector.replicate 32 0) }
def svmState (pc w : Nat) (l : List (Nat × Word)) : State :=
  { put up [(ENG.base 0, ENG.PROG.WORD.at (4 * pc), w)] with
    eng := up.eng.set 0 { run := some { run pc with frame := { runFrame with prd := 50000 }, l0 := svmLane pc l, l1 := svmLane pc l } } }
theorem test_engSvm :
    after (.engSvm 0 none) (svmState 8 0x5A027000 [(2, 0x01800000), (14, 0x4000)])
      (fun t => t.eng[0].run.map fun q => (q.l0.e[16], q.l0.e[17], q.l0.e[18], q.l1 == q.l0)) =
      some (some (39062 * 65536 + 32768, 10937 * 65536 + 32768, 10937 * 65536 + 32768, true)) := by decide +kernel
theorem test_engSt :
    after (.engSt 0 none) (svmState 11 0x62000320 [(16, 39062 * 65536 + 32768), (17, 10937 * 65536 + 32768), (18, 10937 * 65536 + 32768)])
      (fun t => t.eng[0].run.map fun q => q.l0.recs) =
      some (some [.store 0 0 0x2625A0 false, .store 0 1 0x2625A0 false, .store 1 0 0x0AAE60 false, .store 1 1 0x0AAE60 false,
        .store 2 0 0x0AAE60 false, .store 2 1 0x0AAE60 false]) := by decide +kernel

/-- The digits of the energy counter (09_xitum_model). -/
theorem test_dadd :
    after (.xDadd 3 8 10) (cored (core 0x600 [(8, 0x99999950), (10, 0x00000075)]) [])
      (fun t => (t.core[3].get 8, t.core[3].st.getLsbD 4)) = some (0x00000025, true) := by decide +kernel
theorem test_daddC :
    after (.xDaddC 3 9 11) (cored (core 0x610 [(9, 0x00000412)]) [])
      (fun t => (t.core[3].get 9, t.core[3].st.getLsbD 4)) = some (0x00000413, false) := by decide +kernel

/-- The block-CRC routine over "123456789" (09_xitum_model), and its first byte as a step. -/
theorem test_crc : (List.range 9).foldl (fun x i => crcByte x (0x31 + i)) 0xFFFFFFFF = 0x1CF96D7C := by decide +kernel
theorem test_bcrc :
    after (.xBcrc 3 8 9 {}) { cored (core 0x600 [(8, 0xFFFFFFFF), (9, 0x10), (10, 9)]) [] with mem := [(0x10, 0x31)] }
      (fun t => (t.core[3].get 8, t.core[3].get 9, t.core[3].get 10, t.core[3].mid)) =
      some (BitVec.ofNat 32 (crcByte 0xFFFFFFFF 0x31), 0x11, 8, true) := by decide +kernel

/-- The load in the slot of a CALL that meets a bus error, and the RETI after it (12_levels_traps_faults). -/
def slotLoad : Core :=
  { core 0 [(9, 0x40112108)] with
    pc := 0xC00302, slot := some ⟨some 0x004A3C, 1, 0xC00300⟩, vbase := 0xF00200
    lines := [⟨0xC0030, List.replicate 16 .rom⟩] }
theorem test_slotFault :
    after (.xLd 3 8 9 none {}) (cored slotLoad [(SYS.base, SYS.ISL_STATUS.AISLE_UP, 5)])
      (fun t => ((t.core[3].saves[6]).toList.take 5 == [0xC00302, 0x004A3C, 0, 0x00050384, 0x40112108], t.core[3].cl, t.core[3].sup,
        t.core[3].pc)) = some (true, 7, true, 0xF00280) := by decide +kernel
def slotHandler : Core :=
  { core 0x17600 [] with inUse := 0x80, pc := 0xF00290
                         saves := (Vector.replicate 9 (Vector.replicate 11 0)).set 6
                           #v[0xC00302, 0x004A3C, 0, 0x00050384, 0x40112108, 0, 0, 0, 0, 0, 0] }
theorem test_slotReturn :
    after (.xReti 3) (cored slotHandler []) (fun t => (t.core[3].pc, t.core[3].cl, t.core[3].sup, t.core[3].frm, (t.core[3].slot.map fun x => (x.target, x.pend)) == some (some 0x004A3C, 1))) =
      some (0xC00302, 0, false, 0, true) := by decide +kernel

/-- LOOP #8 and the back-edge at LE (10_xitum_instructions). -/
theorem test_loop :
    after (.xLoopImm 3 8 2 none) (cored { core 0x600 [] with pc := 0xC00201, lines := [⟨0xC0020, (List.replicate 16 .rom).set 1 (.word 0x2982)⟩] } [])
      (fun t => let x := t.core[3]; (x.ls[0], x.le[0], x.lc[0], x.la, x.pc)) =
      some (0xC00202, 0xC00204, 8, 1, 0xC00202) := by decide +kernel
theorem test_backEdge :
    after (.xAdd 3 8 11) (cored { core 0x640 [(8, 1), (11, 2)] with pc := 0xC00204, ls := #v[0xC00202, 0], le := #v[0xC00204, 0],
                                                                    lc := #v[8, 0], lines := [⟨0xC0020, (List.replicate 16 .rom).set 4 (.word 0x098B)⟩] } [])
      (fun t => let x := t.core[3]; (x.get 8, x.pc, x.lc[0])) = some (3, 0xC00202, 7) := by decide +kernel

/-- NOP in a slot of a line, and the descriptor queue that wraps (14_store_room_flash). -/
theorem test_slotParity : slotWithParity 0x2B00 = 0xEB00 := by decide
def flashQueue : List (Nat × Fld × Nat) :=
  [(FLC.base, FLC.CTRL.ENABLE, 1), (FLC.base, FLC.FQ_CFG.SIZE, 4), (FLC.base, FLC.FQ_BASE.BASE, 0x3F000),
   (FLC.base, FLC.FQ_TAIL.TAIL, 0xFFFF)]
theorem test_fqHead :
    after (.fqHead 0 0) (put up (flashQueue ++ [(FLC.base, FLC.FQ_HEAD.HEAD, 0xFFFF)]))
      (fun t => (t.getF FLC.base FLC.FQ_HEAD.HEAD, t.getF FLC.base FLC.CNT.HEAD_REFUSED)) = some (0, 0) := by decide +kernel
theorem test_descriptorFetch :
    after (.descriptorFetch {}) { put up flashQueue with mem := [(0x3F0F0, 0x01), (0x3F0F1, 0x03), (0x3F0F2, 0x40), (0x3F0F6, 0x12), (0x3F0FA, 0x02)] }
      (fun t => t.flash.cur) =
      some (some { op := 1, irq := true, par := true, count := 64, faddr := 0x120000, src := 0x20000 }) := by decide +kernel

/-- A trip group's level source that is claimed, and completed while its cause holds (13_crier). -/
def tripGroup : List (Nat × Fld × Nat) :=
  [(CRI.base, CRI.CTRL.ENABLE, 1), (CRI.base, CRI.EN.EN.at 8, 0x800), (CRI.base, CRI.ROUTE.LVL.at (4 * 75), 6),
   (CRI.base, CRI.LINE.BITS.at 8, 0x800)]
theorem test_claim :
    after (.claim 0 0 6 false) (put up (tripGroup ++ [(CRI.base, CRI.PEND.BITS.at 8, 0x800)]))
      (fun t => (t.readData[0], t.srcActive 75, t.srcBit CRI.PEND.BITS 75)) = some (75, true, false) := by decide +kernel
theorem test_complete :
    after (.complete 0 0 6 75) (put up (tripGroup ++ [(CRI.base, CRI.ACTIVE.BITS.at 8, 0x800),
        (CRI.base, CRI.ROUTE.ACT_LVL.at (4 * 75), 6)]))
      (fun t => (t.srcActive 75, t.srcBit CRI.PEND.BITS 75)) = some (false, true) := by decide +kernel

/-- The host's questions: no row of the table gives bits. -/
theorem test_decode : decodeTableWord 14 0x2B00 = none ∧ State.reset.withFetchWord 14 0x2B00 = State.reset :=
  ⟨rfl, rfl⟩

end Sys2Proof.Tests
end

section
/-! SUPPORT. Signed words and the rounding of converter results (R10, R105, R116, R120). -/

namespace Sys2Proof.Laws

open Sys2Proof Sys2Proof.Machine Sys2Proof.Safety

/-! ### Signed words -/

theorem ofSigned_lt (w : Nat) (v : Int) : ofSigned w v < 2 ^ w := by
  have hpos : (0 : Int) < 2 ^ w := by positivity
  have h0 := Int.emod_nonneg v hpos.ne'
  have h1 := Int.emod_lt_of_pos v hpos
  unfold ofSigned
  zify
  rwa [Int.toNat_of_nonneg h0]

/-- A number that 32 bits hold as a signed number is read back from its low 32 bits (R10). -/
theorem toSigned_ofSigned {v : Int} (h : -2147483648 ≤ v) (h' : v ≤ 2147483647) : toSigned 32 (ofSigned 32 v) = v := by
  unfold toSigned ofSigned
  dsimp only
  split <;> omega

theorem ofSigned_eq_ofInt (v : Int) : ofSigned 32 v = (BitVec.ofInt 32 v).toNat := by
  rw [BitVec.toNat_ofInt]; rfl

/-- A signed register reads as the number put there. -/
theorem getS_setF_ofSigned (s : State) (b : Nat) (f : Fld) {v : Int} (h : -2147483648 ≤ v) (h' : v ≤ 2147483647)
    (hf : f.hi = 31 ∧ f.lo = 0 := by exact ⟨rfl, rfl⟩) : (s.setF b f (ofSigned 32 v)).getS b f = v := by
  obtain ⟨hi, lo⟩ := hf
  unfold State.getS
  rw [getF_setF_same s b f _ (by omega), hi, lo]
  show toSigned 32 (ofSigned 32 v % 2 ^ 32) = v
  rw [Nat.mod_eq_of_lt (ofSigned_lt 32 v), toSigned_ofSigned h h']

theorem getS_congr {s t : State} {b : Nat} {f : Fld} (h : t.getF b f = s.getF b f) : t.getS b f = s.getS b f := by
  unfold State.getS; rw [h]

/-! ### Clamping and rounding -/

theorem clampInt_eq_min_max {lo hi : Int} (h : lo ≤ hi) (v : Int) : clampInt lo hi v = min (max v lo) hi := by
  unfold clampInt
  split
  · omega
  · split <;> omega

theorem le_clampInt {lo hi : Int} (h : lo ≤ hi) (v : Int) : lo ≤ clampInt lo hi v := by
  rw [clampInt_eq_min_max h]; omega

theorem clampInt_le {lo hi : Int} (h : lo ≤ hi) (v : Int) : clampInt lo hi v ≤ hi := by
  rw [clampInt_eq_min_max h]; omega

/-- `r` is `n / d` rounded to the nearest integer, ties away from zero (R116, R120). -/
def RoundsTo (n d r : Int) : Prop :=
  2 * (n - r * d).natAbs ≤ d.natAbs ∧ (2 * (n - r * d).natAbs = d.natAbs → n.natAbs < (r * d).natAbs)

theorem RoundsTo.neg {n d r : Int} (h : RoundsTo n d r) : RoundsTo (-n) d (-r) := by
  unfold RoundsTo at *
  rwa [show -n - -r * d = -(n - r * d) by ring, neg_mul, Int.natAbs_neg, Int.natAbs_neg, Int.natAbs_neg]

theorem RoundsTo.neg_divisor {n d r : Int} (h : RoundsTo (-n) d r) : RoundsTo n (-d) r := by
  unfold RoundsTo at *
  rwa [show n - r * -d = -(-n - r * d) by ring, mul_neg, Int.natAbs_neg, Int.natAbs_neg, Int.natAbs_neg,
    ← Int.natAbs_neg n]

/-- Rounding a quotient of natural numbers is rounding down after one half has been added. -/
theorem roundsTo_half_up (m d : Nat) (hd : 0 < d) : RoundsTo m d ((2 * m + d) / (2 * d) : Nat) := by
  have h := Nat.div_add_mod (2 * m + d) (2 * d)
  have hlt := Nat.mod_lt (2 * m + d) (show 0 < 2 * d by omega)
  generalize (2 * m + d) / (2 * d) = q at *
  have e : 2 * d * q = 2 * (q * d) := by ring
  rw [e] at h
  unfold RoundsTo
  rw [← Nat.cast_mul]
  generalize q * d = p at *
  omega

theorem roundsTo_roundAway (n : Int) {d : Nat} (hd : 0 < d) : RoundsTo n d (roundAway n d) := by
  have h := roundsTo_half_up n.natAbs d hd
  unfold roundAway
  split
  · have := h.neg
    rwa [show -((n.natAbs : Nat) : Int) = n by omega] at this
  · rwa [show ((n.natAbs : Nat) : Int) = n by omega] at h

theorem roundsTo_roundQuot (n : Int) {d : Int} (hd : d ≠ 0) : RoundsTo n d (roundQuot n d) := by
  unfold roundQuot
  have hp : 0 < d.natAbs := by omega
  split
  · have := (roundsTo_roundAway (-n) hp).neg_divisor
    rwa [show -((d.natAbs : Nat) : Int) = d by omega] at this
  · have := roundsTo_roundAway n hp
    rwa [show ((d.natAbs : Nat) : Int) = d by omega] at this

/-- No other integer is nearer to a quotient than half a step. -/
theorem RoundsTo.le_of_ne {n d r g : Int} (h : RoundsTo n d r) (hg : g ≠ r) : d.natAbs ≤ 2 * (n - g * d).natAbs := by
  have hstep : d.natAbs ≤ ((r - g) * d).natAbs := by
    rw [Int.natAbs_mul]
    exact Nat.le_mul_of_pos_left _ (by omega)
  have hsum : (r - g) * d = (n - g * d) - (n - r * d) := by ring
  obtain ⟨hr, -⟩ := h
  omega

end Sys2Proof.Laws
end

section
/-! SUPPORT. The record and the registers of a converter: what an update of the record gives, and what the status bits
that follow it leave alone (R78, R101, R109, R114, R135). -/

namespace Sys2Proof.Laws

open Sys2Proof Sys2Proof.Machine Sys2Proof.Safety

variable (s : State)

/-! ### The record -/

theorem cnvAt_val (k : Fin 12) : s.cnvAt k = s.cnv[k] := by
  simp [State.cnvAt, Fin.ofNat, Nat.mod_eq_of_lt k.isLt]

@[simp] theorem modCnv_cnv_self (k : Fin 12) (f : Converter → Converter) : (s.modCnv k f).cnv[k] = f s.cnv[k] := by
  rw [← cnvAt_val, ← cnvAt_val]
  simp [State.modCnv, State.cnvAt]

theorem modCnv_cnv_other {j k : Fin 12} (h : j ≠ k) (f : Converter → Converter) :
    (s.modCnv k f).cnv[j] = s.cnv[j] := by
  have : k.val ≠ j.val := fun e => h (Fin.ext e.symm)
  simp [State.modCnv, Fin.ofNat, Nat.mod_eq_of_lt k.isLt, Vector.getElem_set_ne, this]

/-- What every action of a loop over indices leaves alone, the loop leaves alone. -/
theorem forAll_same {α : Type} (g : State → α) {act : State → Nat → State} (h : ∀ t i, g (act t i) = g t) (n : Nat) :
    g (s.forAll n act) = g s := by
  unfold State.forAll
  induction List.range n generalizing s with
  | nil => rfl
  | cons i l ih => exact (ih (act s i)).trans (h s i)

/-- What the status bits of a converter write: the causes of a refused SW_TRIG in its record, five bits of its STATUS,
the bits of the sampling groups in the AIS.STATUS of its aisle. -/
theorem cnvStatus_eq (k : Nat) : ∃ (c : BitVec 3) (busy diag group refused conflict : Bool) (groups : Nat → Bool),
    s.cnvStatus k =
      (((((((s.modCnv k fun x => { x with swtCause := c }).setB (CNV.base k) CNV.STATUS.BUSY busy).setB
          (CNV.base k) CNV.STATUS.DIAG_BUSY diag).setB (CNV.base k) CNV.STATUS.CAL_BUSY (s.cnvAt k).cal.isSome).setB
          (CNV.base k) CNV.STATUS.GROUP group).setB (CNV.base k) CNV.STATUS.SWT_REFUSED refused).forAll 4
          fun t q => t.setBit (AIS.base (k / 4)) AIS.STATUS.SG_BUSY q (groups q)).setB
        (AIS.base (k / 4)) AIS.STATUS.SG_CONFLICT conflict := by
  unfold State.cnvStatus
  exact ⟨_, _, _, _, _, _, _, rfl⟩

theorem cnvStatus_cnv (k : Nat) : ∃ c, (s.cnvStatus k).cnv = (s.modCnv k fun x => { x with swtCause := c }).cnv := by
  obtain ⟨c, busy, diag, group, refused, conflict, groups, h⟩ := cnvStatus_eq s k
  rw [h, setB_cnv, forAll_same _ State.cnv fun t i => setBit_cnv t _ _ i _]
  exact ⟨c, rfl⟩

theorem modCnvS_cnv_self (k : Fin 12) (f : Converter → Converter) :
    ∃ c, (s.modCnvS k f).cnv[k] = { f s.cnv[k] with swtCause := c } := by
  unfold State.modCnvS
  obtain ⟨c, h⟩ := cnvStatus_cnv (s.modCnv k f) k
  rw [h, modCnv_cnv_self, modCnv_cnv_self]
  exact ⟨c, rfl⟩

@[simp] theorem modCnvS_scan (k : Fin 12) (f : Converter → Converter) :
    (s.modCnvS k f).cnv[k].scan = (f s.cnv[k]).scan := by
  obtain ⟨c, h⟩ := modCnvS_cnv_self s k f; rw [h]

@[simp] theorem modCnvS_acqFrom (k : Fin 12) (f : Converter → Converter) :
    (s.modCnvS k f).cnv[k].acqFrom = (f s.cnv[k]).acqFrom := by
  obtain ⟨c, h⟩ := modCnvS_cnv_self s k f; rw [h]

@[simp] theorem modCnvS_cal (k : Fin 12) (f : Converter → Converter) :
    (s.modCnvS k f).cnv[k].cal = (f s.cnv[k]).cal := by
  obtain ⟨c, h⟩ := modCnvS_cnv_self s k f; rw [h]

@[simp] theorem modCnvS_now (k : Nat) (f : Converter → Converter) : (s.modCnvS k f).now = s.now :=
  (keeps_modCnvS (L := [.cnv, .cnvR, .aisR]) k f (by decide) (Keeps.refl s)).same .now (by decide)

/-! ### The registers -/

theorem getF_setB_other {b b' : Nat} {f g : Fld} (h : b' + g.off ≠ b + f.off ∨ g.hi < f.lo ∨ f.hi < g.lo) (v : Bool)
    (hf : f.hi < 32 := by decide) : (s.setB b f v).getF b' g = s.getF b' g := getF_setF_other s h _ hf

theorem getF_setBit_other {b b' : Nat} {f g : Fld} (h : b' + g.off ≠ b + f.off ∨ g.hi < f.lo ∨ f.hi < g.lo) (i : Nat)
    (v : Bool) (hf : f.hi < 32 := by decide) : (s.setBit b f i v).getF b' g = s.getF b' g := getF_setF_other s h _ hf

/-- A converter's status bits that follow its record stand in STATUS[7:0], those of its aisle in AIS.STATUS. -/
theorem getF_cnvStatus_other {k b : Nat} {g : Fld} (hc : b + g.off ≠ CNV.base k + CNV.STATUS.W.off ∨ 7 < g.lo)
    (ha : b + g.off ≠ AIS.base (k / 4) + AIS.STATUS.W.off) : (s.cnvStatus k).getF b g = s.getF b g := by
  have low (f : Fld) (ho : f.off = CNV.STATUS.W.off) (hi : f.hi ≤ 7) {t : State} {v : Bool} :
      (t.setB (CNV.base k) f v).getF b g = t.getF b g :=
    getF_setB_other t (ho ▸ hc.imp_right fun h => Or.inr (by omega)) v (by omega)
  have sg {t : State} {i : Nat} {v : Bool} :
      (t.setBit (AIS.base (k / 4)) AIS.STATUS.SG_BUSY i v).getF b g = t.getF b g :=
    getF_setBit_other t (f := AIS.STATUS.SG_BUSY) (Or.inl ha) i v
  obtain ⟨c, busy, diag, group, refused, conflict, groups, h⟩ := cnvStatus_eq s k
  rw [h, getF_setB_other _ (f := AIS.STATUS.SG_CONFLICT) (Or.inl ha), forAll_same _ (·.getF b g) fun _ _ => sg,
    low CNV.STATUS.SWT_REFUSED rfl (by decide), low CNV.STATUS.GROUP rfl (by decide),
    low CNV.STATUS.CAL_BUSY rfl (by decide), low CNV.STATUS.DIAG_BUSY rfl (by decide),
    low CNV.STATUS.BUSY rfl (by decide)]
  rfl

theorem cnv_ne_ais (k a : Nat) {o o' : Nat} (h : o < 0x100) (h' : o' < 0x1000) : CNV.base k + o ≠ AIS.base a + o' := by
  intro e
  have := (blk_cnv k o h).symm.trans (e ▸ blk_ais a o' h')
  cases this

theorem getF_modCnvS (k : Nat) (f : Converter → Converter) {g : Fld} (ho : g.off < 0x100)
    (hg : g.off ≠ CNV.STATUS.W.off ∨ 7 < g.lo) : (s.modCnvS k f).getF (CNV.base k) g = s.getF (CNV.base k) g :=
  getF_cnvStatus_other _ (hg.imp_left fun h e => h (Nat.add_left_cancel e)) (cnv_ne_ais k _ ho (by decide))

/-- A field of 32 bits is its register's word. -/
theorem getF_word {b : Nat} {g : Fld} (hg : g.hi = 31 ∧ g.lo = 0 := by exact ⟨rfl, rfl⟩) :
    s.getF b g = (s.rd (b + g.off)).toNat := by
  unfold State.getF
  rw [hg.1, hg.2]
  exact Nat.mod_eq_of_lt (s.rd _).isLt

/-- Of the registers of the converters an update of a record changes STATUS at most. -/
theorem rd_modCnvS (k : Nat) (f : Converter → Converter) {a : Nat} (hb : (place a).map Place.blk = some .cnv)
    (ha : a ≠ CNV.base k + CNV.STATUS.W.off) : (s.modCnvS k f).rd a = s.rd a := by
  have hais : a ≠ AIS.base (k / 4) + AIS.STATUS.W.off := by
    rintro rfl
    rw [blk_ais _ _ (by decide)] at hb
    cases hb
  have h : (s.modCnvS k f).getF a ⟨0, 31, 0⟩ = s.getF a ⟨0, 31, 0⟩ :=
    getF_cnvStatus_other _ (Or.inl ha) hais
  rw [getF_word, getF_word] at h
  exact BitVec.eq_of_toNat_eq h

/-- CAL_BUSY shows whether a calibration is in progress (R121). -/
theorem calBusy_modCnvS (k : Fin 12) (f : Converter → Converter) :
    (s.modCnvS k f).getB (CNV.base k) CNV.STATUS.CAL_BUSY = (f s.cnv[k]).cal.isSome := by
  have sg {t : State} {i : Nat} {v : Bool} : (t.setBit (AIS.base (k / 4)) AIS.STATUS.SG_BUSY i v).getF (CNV.base k)
      CNV.STATUS.CAL_BUSY = t.getF (CNV.base k) CNV.STATUS.CAL_BUSY :=
    getF_setBit_other t (Or.inl (cnv_ne_ais k _ (by decide) (by decide))) i v
  obtain ⟨c, busy, diag, group, refused, conflict, groups, h⟩ := cnvStatus_eq (s.modCnv k f) k
  unfold State.modCnvS
  rw [h, State.getB, getF_setB_other _ (Or.inl (cnv_ne_ais k _ (by decide) (by decide))),
    forAll_same _ (·.getF (CNV.base k) CNV.STATUS.CAL_BUSY) fun _ _ => sg, getF_setB_other _ (Or.inr (by decide)),
    getF_setB_other _ (Or.inr (by decide)), ← State.getB,
    getB_setB_same _ _ CNV.STATUS.CAL_BUSY, cnvAt_val, modCnv_cnv_self]

/-- Two states whose converters' registers read the same give the same fields. -/
theorem getF_of_sameRegs {s t : State} (h : SameRegs .cnv s t) (k : Nat) {f : Fld} (hf : f.off < 0x100) :
    t.getF (CNV.base k) f = s.getF (CNV.base k) f := by
  unfold State.getF
  rw [h _ (blk_cnv k f.off hf)]

end Sys2Proof.Laws
end

section
/-! SUPPORT. The threshold converter that LOOP_SEL connects to input 6 (R103, R138, R142), and the commands of one
element of a scan as equations (R79, R103, R105, R107, R116). -/

namespace Sys2Proof.Laws

open Sys2Proof Sys2Proof.Machine Sys2Proof.Safety

variable (s : State)

/-! ### The threshold converter -/

/-- A threshold code has 12 bits, also while it moves from one value to the next. -/
theorem threshold_lt (c : Nat) (hi : Bool) (t : Nat) : (s.threshold c hi t).1 < 4096 := by
  have field (n : Nat) : (if hi then bitsOf n 27 16 else bitsOf n 11 0) < 4096 := by
    split
    · exact bitsOf_lt n 27 16
    · exact bitsOf_lt n 11 0
  unfold State.threshold
  extract_lets w x new old known
  have hnew : new < 4096 := field _
  have hold : old < 4096 := field _
  dsimp only
  split
  · exact hnew
  · have := Nat.mod_lt s.takeFree.1.toNat (show 0 < max new old - min new old + 1 by omega)
    omega

/-- A threshold that nothing has written, or whose write lies 40 ac back, stands at its code (R138). -/
theorem threshold_settled {c t : Nat} (hi : Bool) (h : (s.cmpAt c).thrAt = 0 ∨ (s.cmpAt c).thrAt + 40 * ac ≤ t) :
    s.threshold c hi t = (s.getF (CMP.base c) (if hi then CMP.THR.THR_HI else CMP.THR.THR_LO), s) := by
  have known : (decide ((s.cmpAt c).thrAt + 40 * ac ≤ t) || decide ((s.cmpAt c).thrAt = 0)) = true := by
    simpa using h.symm
  unfold State.threshold
  dsimp only
  rw [known, Bool.true_or, if_pos rfl, if_pos rfl]
  cases hi <;> rfl

/-- Reading a threshold takes at most a free value. -/
theorem threshold_state (c : Nat) (hi : Bool) (t : Nat) : ∃ n, (s.threshold c hi t).2 = { s with free := n } := by
  unfold State.threshold
  extract_lets w x new old known
  cases known
  · exact ⟨s.free + 1, rfl⟩
  · exact ⟨s.free, rfl⟩

/-- The code of the threshold that LOOP_SEL = `sel` connects to input 6 of converter `k`, where it stands still. -/
def loopThreshold (s : State) (k sel : Nat) : Nat :=
  s.getF (CMP.base (2 * k + sel / 2)) (if sel % 2 = 1 then CMP.THR.THR_HI else CMP.THR.THR_LO)

theorem loopCode_settled {k sel t : Nat}
    (h : (s.cmpAt (2 * k + sel / 2)).thrAt = 0 ∨ (s.cmpAt (2 * k + sel / 2)).thrAt + 40 * ac ≤ t) :
    s.loopCode k sel t = (loopThreshold s k sel, s) := by
  unfold State.loopCode loopThreshold
  rw [threshold_settled s _ h]
  simp only [decide_eq_true_eq]

/-! ### The aperture -/

/-- The sample of the element at `x` is held, as the statement of O13 puts it: time is that of the element's aperture,
the scan of converter `k` has become `y`, its angles are those of the element-0 aperture, and nothing else has changed. -/
def HeldElement (s t : State) (k : Fin 12) (x y : Scan) : Prop :=
  t.now = max s.now (edgeDown (x.aperture x.idx)) ∧ t = { s with now := t.now, cnv := t.cnv, free := t.free } ∧
  (∀ j : Fin 12, j ≠ k → t.cnv[j] = s.cnv[j]) ∧ t.cnv[k].scan = some y ∧
  y.idx = x.idx ∧ y.elems = x.elems ∧ y.apt = x.apt ∧ y.raw = x.raw ∧ y.angled = true ∧
  (x.angled = true → y.angles = x.angles ∧ y.aptTime = x.aptTime) ∧
  (x.angled = false → y.angles = t.anglesAt (k.val / 4) x.apt ∧ y.aptTime = t.marketAt x.apt)

/-- Angles are taken once (R223). -/
theorem withAngles_of_angled {k : Nat} {x : Scan} (h : x.angled = true) : s.withAngles k x = x := if_pos h

theorem withAngles_of_not_angled {k : Nat} {x : Scan} (h : x.angled = false) :
    s.withAngles k x = { x with angles := s.anglesAt (k / 4) x.apt, aptTime := s.marketAt x.apt, angled := true } :=
  if_neg (by simp [h])

/-- The state in which the sample `v` of the element at `x` is held, at a count `n` of free values. -/
def holding (s : State) (k : Fin 12) (x : Scan) (n : Nat) (y : Scan) : State :=
  State.modCnv { s.atTime (x.aperture x.idx) with free := n } k fun c => { c with scan := some y }

theorem heldElement_holding (k : Fin 12) (x : Scan) (n : Nat) (conv : Option (Nat × Nat)) (v : Sample) (d : Nat) :
    let y := { (s.atTime (x.aperture x.idx)).withAngles k x with conv := conv, sample := v, dac := d }
    HeldElement s (holding s k x n y) k x y := by
  intro y
  refine ⟨rfl, rfl, fun j hj => modCnv_cnv_other _ hj _, ?_, ?_⟩
  · rw [holding, modCnv_cnv_self]
  · cases h : x.angled with
    | false =>
      have hy : y = { (_ : Scan) with conv := conv, sample := v, dac := d } :=
        congrArg (fun z : Scan => { z with conv := conv, sample := v, dac := d }) (withAngles_of_not_angled _ h)
      rw [hy]
      exact ⟨rfl, rfl, rfl, rfl, rfl, nofun, fun _ => ⟨rfl, rfl⟩⟩
    | true =>
      have hy : y = { x with conv := conv, sample := v, dac := d } :=
        congrArg (fun z : Scan => { z with conv := conv, sample := v, dac := d }) (withAngles_of_angled _ h)
      rw [hy]
      exact ⟨rfl, rfl, rfl, rfl, h, fun _ => ⟨rfl, rfl⟩, nofun⟩

/-- What an element of input `i` reads beside its sample: for input 6 the code of the threshold converter (R103). -/
def apertureCode (s : State) (k i t : Nat) : Nat × State :=
  if i = 6 then s.loopCode k (s.getF (CNV.base k) CNV.CTRL.LOOP_SEL) t else (0, s)

theorem apertureCode_state (k i t : Nat) : ∃ n, (apertureCode s k i t).2 = { s with free := n } := by
  unfold apertureCode
  split
  · exact threshold_state s _ _ t
  · exact ⟨s.free, rfl⟩

section
variable {s} {k : Fin 12} {x : Scan} (hx : s.cnv[k].scan = some x)
include hx

theorem execAperture_element (v : Sample) {i : Nat} (hi : x.elems[x.idx]? = some i) (hc : x.conv = none) :
    let code := apertureCode (s.atTime (x.aperture x.idx)) k i (x.aperture x.idx)
    ∃ n, code.2 = { s.atTime (x.aperture x.idx) with free := n } ∧
      execAperture k v s = .next (holding s k x n
        { (s.atTime (x.aperture x.idx)).withAngles k x with
          conv := some (i, edgeUp (x.aperture x.idx)), sample := v, dac := code.1 }) := by
  intro code
  obtain ⟨n, hn⟩ := apertureCode_state (s.atTime (x.aperture x.idx)) k i (x.aperture x.idx)
  refine ⟨n, hn, ?_⟩
  unfold execAperture
  rw [hx]
  dsimp only
  rw [hi, hc, holding, ← hn]
  rfl

/-- A scan without elements takes its angles and nothing else (R80, R223). -/
theorem execAperture_idle (v : Sample) (he : x.elems = []) (hc : x.conv = none) :
    execAperture k v s = .next (holding s k x s.free ((s.atTime (x.aperture x.idx)).withAngles k x)) := by
  unfold execAperture
  rw [hx]
  dsimp only
  rw [he, hc]
  rfl

end

end Sys2Proof.Laws
end

section
/-! SUPPORT. The raw code and the corrected result of an element (R105, R107, R116, R133). -/

namespace Sys2Proof.Laws

open Sys2Proof Sys2Proof.Machine Sys2Proof.Safety

variable (s : State)

/-! ### The raw code -/

/-- The code of the element of input `i` that scan `x` converts (R103, R105). -/
def elementCode (s : State) (k i : Nat) (x : Scan) : Int :=
  if i = 6 then 16 * x.dac else rawCode x.sample (s.paired k i)

theorem rawCode_pair (v : Sample) :
    rawCode v true = clampInt (-32768) 32767 ((v.pos - v.neg) * 32768 / v.vref) := rfl

theorem rawCode_single (v : Sample) : rawCode v false = clampInt 0 65535 (v.pos * 65536 / v.vref) := rfl

theorem elementCode_loop {k i : Nat} (x : Scan) (h6 : i = 6) : elementCode s k i x = 16 * x.dac := if_pos h6

theorem elementCode_single {k i : Nat} (x : Scan) (h6 : i ≠ 6) (h : s.paired k i = false) :
    elementCode s k i x = clampInt 0 65535 (x.sample.pos * 65536 / x.sample.vref) := by
  rw [elementCode, if_neg h6, h, rawCode_single]

theorem elementCode_pair {k i : Nat} (x : Scan) (h6 : i ≠ 6) (h : s.paired k i = true) :
    elementCode s k i x = clampInt (-32768) 32767 ((x.sample.pos - x.sample.neg) * 32768 / x.sample.vref) := by
  rw [elementCode, if_neg h6, h, rawCode_pair]

theorem elementCode_nonneg {k i : Nat} (x : Scan) (h : s.paired k i = false) : 0 ≤ elementCode s k i x := by
  by_cases h6 : i = 6
  · rw [elementCode_loop s x h6]
    positivity
  · rw [elementCode_single s x h6 h]
    exact le_clampInt (by decide) _

/-- The word that RAW takes: a signed one for a pair (R105). -/
def rawWord (s : State) (k i : Nat) (x : Scan) : Nat :=
  if s.paired k i then ofSigned 32 (elementCode s k i x) else (elementCode s k i x).toNat

theorem rawWord_mod (k i : Nat) (x : Scan) :
    rawWord s k i x % 2 ^ 32 = (BitVec.ofInt 32 (elementCode s k i x)).toNat := by
  rw [← ofSigned_eq_ofInt]
  unfold rawWord
  split
  · exact Nat.mod_eq_of_lt (ofSigned_lt 32 _)
  next h =>
    have := elementCode_nonneg s x (Bool.eq_false_iff.2 h)
    unfold ofSigned
    omega

/-- CODE and SIGN of a RAW that holds the code of a single input. -/
theorem code_sign_of_raw {b d : Nat} {c : Int} (h0 : 0 ≤ c) (h1 : c ≤ 65535)
    (word : s.getF b (CNV.RAW.W.at d) = (BitVec.ofInt 32 c).toNat) :
    s.getF b (CNV.RAW.CODE.at d) = c.toNat ∧ s.getF b (CNV.RAW.SIGN.at d) = 0 := by
  rw [getF_word, BitVec.toNat_ofInt] at word
  show bitsOf (s.rd (b + (CNV.RAW.W.at d).off)).toNat 15 0 = _ ∧
    bitsOf (s.rd (b + (CNV.RAW.W.at d).off)).toNat 31 16 = 0
  rw [word]
  unfold bitsOf
  rw [Nat.shiftRight_zero, Nat.shiftRight_eq_div_pow]
  omega

/-- A RAW that holds the code of a pair reads as it. -/
theorem getS_of_raw {b d : Nat} {c : Int} (h0 : -2147483648 ≤ c) (h1 : c ≤ 2147483647)
    (word : s.getF b (CNV.RAW.W.at d) = (BitVec.ofInt 32 c).toNat) : s.getS b (CNV.RAW.W.at d) = c := by
  rw [State.getS, word, ← ofSigned_eq_ofInt]
  exact toSigned_ofSigned h0 h1

/-- The state in which RAW of input `i` and the record of converter `k` have the element's code. -/
def coded (s : State) (k : Fin 12) (i : Fin 8) (st : Nat) (x : Scan) : State :=
  ((s.atTime (st + 28 * ac)).setF (CNV.base k) (CNV.RAW.W.at (4 * i)) (rawWord s k i x)).modCnvS k fun c =>
    { c with
      acqFrom := st + 28 * ac
      scan := some { x with raw := some (elementCode s k i x)
                            codes := x.codes ++ [BitVec.ofInt 16 (elementCode s k i x)] } }

theorem execRawCode_eq {s : State} {k : Fin 12} {x : Scan} (hx : s.cnv[k].scan = some x) {i : Fin 8} {st : Nat}
    (hc : x.conv = some (i.val, st)) (hr : x.raw = none) : execRawCode k s = .next (coded s k i st x) := by
  unfold execRawCode
  rw [hx]
  dsimp only
  rw [hc, hr]
  dsimp only
  unfold coded
  rw [Nat.mod_eq_of_lt i.isLt, hc]
  rfl

theorem raw_off_lt (i : Fin 8) : (CNV.RAW.W.at (4 * i)).off < 0x100 := off_at (n := 32) (by omega) (by decide)

theorem raw_off_ne (i : Fin 8) : (CNV.RAW.W.at (4 * i)).off ≠ CNV.STATUS.W.off := by
  show 0x40 + 4 * i.val ≠ 4
  omega

theorem raw_coded (k : Fin 12) (i : Fin 8) (st : Nat) (x : Scan) :
    (coded s k i st x).getF (CNV.base k) (CNV.RAW.W.at (4 * i)) = (BitVec.ofInt 32 (elementCode s k i x)).toNat := by
  unfold coded
  rw [getF_modCnvS _ _ _ (raw_off_lt i) (Or.inl (raw_off_ne i)),
    getF_setF_same _ _ (CNV.RAW.W.at (4 * i)) _ (show 31 < 32 by decide)]
  exact rawWord_mod s k i x

theorem rd_raw_coded (k : Fin 12) {i j : Fin 8} (h : j ≠ i) (st : Nat) (x : Scan) :
    (coded s k i st x).rd (CNV.base k + (CNV.RAW.W.at (4 * j)).off) =
      s.rd (CNV.base k + (CNV.RAW.W.at (4 * j)).off) := by
  have hj : j.val ≠ i.val := fun e => h (Fin.ext e)
  have hne : CNV.base k + (CNV.RAW.W.at (4 * j)).off ≠ CNV.base k + (CNV.RAW.W.at (4 * i)).off := by
    show CNV.base k + (0x40 + 4 * j.val) ≠ CNV.base k + (0x40 + 4 * i.val)
    omega
  unfold coded
  rw [rd_modCnvS _ _ _ (blk_cnv _ _ (raw_off_lt j)) fun e => raw_off_ne j (Nat.add_left_cancel e), rd_setF_other _ hne]
  rfl

/-! ### The corrected result -/

/-- Nothing that an aisle's event brings about on the way to it touches the registers of the converters. -/
theorem sameRegs_aisleTime (t : Nat) : SameRegs .cnv s (s.aisleTime t) :=
  (keeps_aisleTime (L := [.eng, .engR, .legR, .leg, .attic, .happened, .now]) t (by decide) (Keeps.refl s)).same .cnvR
    (by decide)

@[simp] theorem aisleTime_now (t : Nat) : (s.aisleTime t).now = max s.now (edgeDown t) :=
  (keeps_settle (L := [.eng, .engR, .legR, .leg, .attic, .happened]) (by decide) (Keeps.refl (s.atTime t))).same .now
    (by decide)

/-- The corrected result of code `code` of input `i`, before it is saturated (R116). -/
def exactResult (s : State) (k : Fin 12) (i : Fin 8) (code : Int) : Int :=
  roundAway ((code * 256 - s.getS (CNV.base k) (CNV.OFFSET.OFFSET.at (8 * i))) *
    s.getS (CNV.base k) (CNV.GAIN.GAIN.at (8 * i))) 65536

/-- The registers that a corrected result `r`, not yet saturated, writes (R116, R133). -/
def withResult (s : State) (k : Fin 12) (i : Fin 8) (r : Int) : State :=
  ((s.setF (CNV.base k) (CNV.RESULT.VALUE.at (4 * i)) (ofSigned 32 (clampInt (-2147483648) 2147483647 r))).setBit
    (CNV.base k) CNV.STATUS.SAT i (clampInt (-2147483648) 2147483647 r != r)).countWrap (CNV.base k) CNV.SMP_CNT.COUNT

theorem clampInt_bne (r : Int) :
    (clampInt (-2147483648) 2147483647 r != r) = decide (r < -2147483648 ∨ 2147483647 < r) := by
  rw [clampInt_eq_min_max (by decide), Bool.eq_iff_iff]
  simp only [bne_iff_ne, decide_eq_true_eq]
  omega

@[simp] theorem withResult_now (k : Fin 12) (i : Fin 8) (r : Int) : (withResult s k i r).now = s.now := by
  rw [withResult, countWrap_now, setBit_now, setF_now]

theorem rd_withResult (k : Fin 12) (i : Fin 8) (r : Int) {a : Nat}
    (h : a ∉ [CNV.base k + (CNV.RESULT.W.at (4 * i)).off, CNV.base k + CNV.STATUS.W.off,
      CNV.base k + CNV.SMP_CNT.W.off]) :
    (withResult s k i r).rd a = s.rd a := by
  simp only [List.mem_cons, List.not_mem_nil, or_false, not_or] at h
  obtain ⟨hresult, hstatus, hcount⟩ := h
  exact (rd_countWrap_other _ (f := CNV.SMP_CNT.COUNT) hcount 1).trans
    ((rd_setBit_other _ (f := CNV.STATUS.SAT) hstatus i _).trans
      (rd_setF_other _ (f := CNV.RESULT.VALUE.at (4 * i)) hresult _))

theorem getF_countWrap_reg {b b' : Nat} {f g : Fld} (h : b' + g.off ≠ b + f.off) (n : Nat) :
    (s.countWrap b f n).getF b' g = s.getF b' g := getF_setF_reg (s.mark b f) h _

theorem result_off_lt (i : Fin 8) : (CNV.RESULT.VALUE.at (4 * i)).off < 0x100 := off_at (n := 32) (by omega) (by decide)

/-- RESULT stands above the registers of control, status and counts. -/
theorem result_addr_ne (k : Nat) (i : Fin 8) {o : Nat} (ho : o < 0x60) :
    CNV.base k + (CNV.RESULT.VALUE.at (4 * i)).off ≠ CNV.base k + o := by
  show CNV.base k + (0x60 + 4 * i.val) ≠ CNV.base k + o
  omega

theorem result_withResult (k : Fin 12) (i : Fin 8) (r : Int) :
    (withResult s k i r).getS (CNV.base k) (CNV.RESULT.VALUE.at (4 * i)) = min (max r (-2147483648)) 2147483647 := by
  have hrange : (-2147483648 : Int) ≤ 2147483647 := by decide
  have hcount := result_addr_ne k i (show CNV.SMP_CNT.COUNT.off < 0x60 by decide)
  have hsat := result_addr_ne k i (show CNV.STATUS.SAT.off < 0x60 by decide)
  unfold withResult
  rw [getS_congr (getF_countWrap_reg _ hcount 1), getS_congr (getF_setBit_other _ (Or.inl hsat) i _),
    getS_setF_ofSigned _ _ _ (le_clampInt hrange r) (clampInt_le hrange r), clampInt_eq_min_max hrange]

theorem sat_withResult (k : Fin 12) (i j : Fin 8) (r : Int) :
    (withResult s k i r).bit (CNV.base k) CNV.STATUS.SAT j =
      if j = i then decide (r < -2147483648 ∨ 2147483647 < r) else s.bit (CNV.base k) CNV.STATUS.SAT j := by
  have hcount : CNV.base k + CNV.STATUS.SAT.off ≠ CNV.base k + CNV.SMP_CNT.COUNT.off :=
    fun e => absurd (Nat.add_left_cancel e) (by decide)
  have hresult := (result_addr_ne k i (show CNV.STATUS.SAT.off < 0x60 by decide)).symm
  unfold withResult
  rw [State.bit, getF_countWrap_reg _ hcount 1, ← State.bit, bit_setBit _ _ CNV.STATUS.SAT _ _ _ i.isLt, State.bit,
    getF_setF_reg _ hresult, ← State.bit, clampInt_bne]
  simp only [Fin.ext_iff]

theorem count_withResult (k : Fin 12) (i : Fin 8) (r : Int) :
    (withResult s k i r).getF (CNV.base k) CNV.SMP_CNT.COUNT =
      (s.getF (CNV.base k) CNV.SMP_CNT.COUNT + 1) % 2 ^ 32 := by
  have hsat : CNV.base k + CNV.SMP_CNT.COUNT.off ≠ CNV.base k + CNV.STATUS.SAT.off :=
    fun e => absurd (Nat.add_left_cancel e) (by decide)
  have hresult := (result_addr_ne k i (show CNV.SMP_CNT.COUNT.off < 0x60 by decide)).symm
  unfold withResult
  rw [getF_countWrap_same _ _ CNV.SMP_CNT.COUNT, getF_setBit_other _ (Or.inl hsat), getF_setF_reg _ hresult]
  rfl

/-- The scan once the element in conversion has its result. -/
def scanNext (x : Scan) : Scan := { x with idx := x.idx + 1, conv := none, raw := none }

theorem execCorrectedResult_eq {s : State} {k : Fin 12} {x : Scan} (hx : s.cnv[k].scan = some x) {i : Fin 8} {st : Nat}
    {code : Int} (hc : x.conv = some (i.val, st)) (hr : x.raw = some code) :
    ∃ sums : Converter → Vector Int 8, execCorrectedResult k s =
      .next ((withResult (s.aisleTime (st + 30 * ac)) k i (exactResult s k i code)).modCnvS k fun c =>
        { c with avgSum := sums c, scan := some (scanNext x) }) := by
  have same {f : Fld} (hf : f.off < 0x100) :
      (s.aisleTime (st + 30 * ac)).getS (CNV.base k) f = s.getS (CNV.base k) f :=
    getS_congr (getF_of_sameRegs (sameRegs_aisleTime s _) k hf)
  refine ⟨fun c => c.avgSum.set (Fin.ofNat 8 i) (c.avgSum[Fin.ofNat 8 i] +
    clampInt (-2147483648) 2147483647 (exactResult s k i code)), ?_⟩
  unfold execCorrectedResult
  rw [hx]
  dsimp only
  rw [hc, hr]
  dsimp only
  rw [Nat.mod_eq_of_lt i.isLt, same (off_at (n := 60) (by omega) (by decide)),
    same (off_at (n := 60) (by omega) (by decide))]
  rfl

end Sys2Proof.Laws
end

section
/-! ELEMENTS OF A SCAN (O13). -/

namespace Sys2Proof.Converters

open Sys2Proof Sys2Proof.Machine Sys2Proof.Safety Sys2Proof.Laws

section
variable {s : State} {k : Fin 12} {x : Scan} (hx : s.cnv[k].scan = some x)
include hx

/-- The sample of an element is held at its aperture (R79, R103). -/
theorem aperture_of_element (v : Sample) {i : Nat} (hi : x.elems[x.idx]? = some i) (hc : x.conv = none) :
    let sel := s.getF (CNV.base k) CNV.CTRL.LOOP_SEL
    Answers (.aperture k v) s fun t =>
      ∃ y, HeldElement s t k x y ∧ y.sample = v ∧ y.conv = some (i, edgeUp (x.aperture x.idx)) ∧
        (i ≠ 6 → t.free = s.free) ∧
        (i = 6 → y.dac < 4096 ∧
          ((s.cmpAt (2 * k + sel / 2)).thrAt = 0 ∨ (s.cmpAt (2 * k + sel / 2)).thrAt + 40 * ac ≤ x.aperture x.idx →
            y.dac = loopThreshold s k sel ∧ t.free = s.free)) := by
  intro sel
  obtain ⟨n, hn, he⟩ := execAperture_element hx v hi hc
  refine ⟨_, he, _, heldElement_holding s k x n _ v _, rfl, rfl, fun h6 => ?_, ?_⟩
  · rw [apertureCode, if_neg h6] at hn
    exact (congrArg State.free hn).symm
  · rintro rfl
    rw [apertureCode, if_pos rfl] at hn ⊢
    refine ⟨threshold_lt _ _ _ _, fun hs => ?_⟩
    have settled : (s.atTime (x.aperture x.idx)).loopCode k sel (x.aperture x.idx) =
      (loopThreshold s k sel, s.atTime (x.aperture x.idx)) := loopCode_settled (s.atTime (x.aperture x.idx)) hs
    exact ⟨congrArg Prod.fst settled, (congrArg State.free ((congrArg Prod.snd settled).symm.trans hn)).symm⟩

/-- A scan without elements takes its angles all the same (R80, R223). -/
theorem aperture_of_no_elements (v : Sample) (he : x.elems = []) (hc : x.conv = none) :
    Answers (.aperture k v) s fun t => ∃ y, HeldElement s t k x y ∧ y.conv = none ∧ t.free = s.free := by
  let w := (s.atTime (x.aperture x.idx)).withAngles k x
  have hconv : w.conv = x.conv := by
    show (State.withAngles _ _ _).conv = _
    unfold State.withAngles
    split <;> rfl
  exact ⟨_, execAperture_idle hx v he hc, w, heldElement_holding s k x s.free w.conv w.sample w.dac, hconv.trans hc,
    rfl⟩

/-- The code of an element is written 28 ac after the edge on which its conversion started (R105, R107). -/
theorem rawCode_of_element (i : Fin 8) (st : Nat) (hc : x.conv = some (i.val, st)) (hr : x.raw = none) :
    let b := CNV.base k
    Answers (.rawCode k) s fun t =>
      t.now = max s.now (edgeDown (st + 28 * ac)) ∧ t.cnv[k].acqFrom = st + 28 * ac ∧
      (∃ y c, t.cnv[k].scan = some y ∧ y.conv = x.conv ∧ y.raw = some c ∧ y.codes = x.codes ++ [BitVec.ofInt 16 c] ∧
        t.getF b (CNV.RAW.W.at (4 * i)) = (BitVec.ofInt 32 c).toNat) ∧
      (∀ j : Fin 8, j ≠ i → t.rd (b + (CNV.RAW.W.at (4 * j)).off) = s.rd (b + (CNV.RAW.W.at (4 * j)).off)) ∧
      (i.val ≠ 6 → s.paired k i = false →
        t.getF b (CNV.RAW.CODE.at (4 * i)) = (clampInt 0 65535 (x.sample.pos * 65536 / x.sample.vref)).toNat ∧
        t.getF b (CNV.RAW.SIGN.at (4 * i)) = 0) ∧
      (i.val ≠ 6 → s.paired k i = true →
        t.getS b (CNV.RAW.W.at (4 * i)) =
          clampInt (-32768) 32767 ((x.sample.pos - x.sample.neg) * 32768 / x.sample.vref)) ∧
      (i.val = 6 → x.dac < 4096 → t.getF b (CNV.RAW.W.at (4 * i)) = 16 * x.dac) := by
  intro b
  have word := raw_coded s k i st x
  refine ⟨_, execRawCode_eq hx hc hr, modCnvS_now _ _ _, modCnvS_acqFrom _ _ _,
    ⟨_, elementCode s k i x, modCnvS_scan _ _ _, rfl, rfl, rfl, word⟩, fun j hj => rd_raw_coded s k hj st x, ?_, ?_, ?_⟩
  · intro h6 hp
    have hcode := elementCode_single s x h6 hp
    rw [hcode] at word
    exact code_sign_of_raw _ (le_clampInt (by decide) _) (clampInt_le (by decide) _) word
  · intro h6 hp
    have hcode := elementCode_pair s x h6 hp
    rw [hcode] at word
    exact getS_of_raw _ (le_trans (by decide) (le_clampInt (by decide) _))
      (le_trans (clampInt_le (by decide) _) (by decide)) word
  · intro h6 hd
    rw [word, elementCode_loop s x h6, BitVec.toNat_ofInt]
    omega

/-- The corrected result is written 30 ac after the edge on which the conversion started (R107, R116, R133). -/
theorem correctedResult_of_element (i : Fin 8) (st : Nat) (code : Int) (hc : x.conv = some (i.val, st))
    (hr : x.raw = some code) :
    let b := CNV.base k
    let exact := (code * 256 - s.getS b (CNV.OFFSET.OFFSET.at (8 * i))) * s.getS b (CNV.GAIN.GAIN.at (8 * i))
    Answers (.correctedResult k) s fun t => ∃ r : Int,
      2 * (exact - r * 65536).natAbs ≤ 65536 ∧
      (2 * (exact - r * 65536).natAbs = 65536 → exact.natAbs < r.natAbs * 65536) ∧
      t.getS b (CNV.RESULT.VALUE.at (4 * i)) = min (max r (-2147483648)) 2147483647 ∧
      t.bit b CNV.STATUS.SAT i = decide (r < -2147483648 ∨ 2147483647 < r) ∧
      (∀ j : Fin 8, j ≠ i → t.bit b CNV.STATUS.SAT j = s.bit b CNV.STATUS.SAT j ∧
        t.getF b (CNV.RESULT.VALUE.at (4 * j)) = s.getF b (CNV.RESULT.VALUE.at (4 * j))) ∧
      t.getF b CNV.SMP_CNT.COUNT = (s.getF b CNV.SMP_CNT.COUNT + 1) % 2 ^ 32 ∧
      t.now = max s.now (edgeDown (st + 30 * ac)) ∧
      (∃ y, t.cnv[k].scan = some y ∧ y.idx = x.idx + 1 ∧ y.conv = none ∧ y.raw = none) ∧
      BlkBut .cnv s t fun a =>
        a ∈ [b + (CNV.RESULT.W.at (4 * i)).off, b + CNV.STATUS.W.off, b + CNV.SMP_CNT.W.off] := by
  intro b exact
  obtain ⟨sums, he⟩ := execCorrectedResult_eq hx hc hr
  have hregs := sameRegs_aisleTime s (st + 30 * ac)
  have hround : RoundsTo exact 65536 (exactResult s k i code) := roundsTo_roundAway exact (d := 65536) (by decide)
  obtain ⟨hnear, htie⟩ := hround
  have hframe {a : Nat} (hb : (place a).map Place.blk = some .cnv)
      (ha : a ∉ [b + (CNV.RESULT.W.at (4 * i)).off, b + CNV.STATUS.W.off, b + CNV.SMP_CNT.W.off])
      {f : Converter → Converter} :
      ((withResult (s.aisleTime (st + 30 * ac)) k i (exactResult s k i code)).modCnvS k f).rd a = s.rd a := by
    rw [rd_modCnvS _ _ _ hb (by simp_all [b]), rd_withResult _ k i _ ha, hregs a hb]
  have result_ne : (CNV.RESULT.VALUE.at (4 * i)).off ≠ CNV.STATUS.W.off := fun e =>
    result_addr_ne k i (show CNV.STATUS.W.off < 0x60 by decide) (congrArg (CNV.base k + ·) e)
  refine ⟨_, he, exactResult s k i code, hnear, ?_, ?_, ?_, ?_, ?_, ?_, ?_, ?_⟩
  · exact fun h => (htie h).trans_eq (Int.natAbs_mul _ _)
  · rw [getS_congr (getF_modCnvS _ _ _ (result_off_lt i) (Or.inl result_ne)), result_withResult]
  · rw [State.bit, getF_modCnvS _ _ _ (by decide) (Or.inr (by decide)), ← State.bit, sat_withResult, if_pos rfl]
  · intro j hj
    constructor
    · rw [State.bit, getF_modCnvS _ _ _ (by decide) (Or.inr (by decide)), ← State.bit, sat_withResult, if_neg hj,
        State.bit, getF_of_sameRegs hregs k (by decide), ← State.bit]
    · have hj' : j.val ≠ i.val := fun e => hj (Fin.ext e)
      rw [State.getF, hframe (blk_cnv _ _ (result_off_lt j)), State.getF]
      show b + (0x60 + 4 * j.val) ∉ [b + (0x60 + 4 * i.val), b + 0x4, b + 0x30]
      simp only [List.mem_cons, List.not_mem_nil, or_false]
      omega
  · rw [getF_modCnvS _ _ _ (by decide) (Or.inl (by decide)), count_withResult, getF_of_sameRegs hregs k (by decide)]
  · rw [modCnvS_now, withResult_now, aisleTime_now]
  · exact ⟨_, modCnvS_scan _ _ _, rfl, rfl, rfl⟩
  · exact fun a hb ha => hframe hb ha

end

/-- Settles O13: the four commands of an element, each from its equation and the laws of the registers it writes. -/
theorem converterElements : Obligations.ConverterElements := by
  intro s k x hx
  exact ⟨fun v i hi hc => aperture_of_element hx v hi hc, fun v he hc => aperture_of_no_elements hx v he hc,
    fun i st hc hr => rawCode_of_element hx i st hc hr,
    fun i st code hc hr => correctedResult_of_element hx i st code hc hr⟩

end Sys2Proof.Converters
end

section
/-! SUPPORT. Calibration: its refusals and start, the codes of the loopback that it sums, the registers that its end
writes (R118–R122). -/

namespace Sys2Proof.Laws

open Sys2Proof Sys2Proof.Machine Sys2Proof.Safety

variable (s : State)

/-! ### The command -/

/-- What keeps a calibration from starting: another one, a diagnostic scan or a check that runs or waits (R118,
R121). -/
def Occupied (c : Converter) : Prop :=
  c.cal.isSome = true ∨ c.diag.isSome = true ∨ c.check.isSome = true ∨ c.waiting ≠ []

theorem occupied_iff (c : Converter) :
    Occupied c ↔ (c.cal.isSome || c.diag.isSome || c.check.isSome || !c.waiting.isEmpty) = true := by
  simp [Occupied, or_assoc]

theorem calibrate_enabled (k : Fin 12) (full : Bool) (i : Nat) (hon : s.cnvOn k = true) :
    s.calibrate k full i = s.setF (CNV.base k) CNV.STATUS.CAL_RESULT 2 := if_pos hon

theorem calibrate_occupied (k : Fin 12) (full : Bool) (i : Nat) (hon : s.cnvOn k = false) (hb : Occupied s.cnv[k]) :
    s.calibrate k full i = s.setF (CNV.base k) CNV.STATUS.CAL_RESULT 3 := by
  rw [← cnvAt_val] at hb
  unfold State.calibrate
  dsimp only
  rw [if_neg (by simp [hon]), if_pos ((occupied_iff _).1 hb)]

theorem calibrate_odd (k : Fin 12) (full : Bool) (i : Nat) (hon : s.cnvOn k = false) (hb : ¬ Occupied s.cnv[k])
    (ho : s.oddOfPair k i = true) : s.calibrate k full i = s.setF (CNV.base k) CNV.STATUS.CAL_RESULT 4 := by
  rw [← cnvAt_val] at hb
  unfold State.calibrate
  dsimp only
  rw [if_neg (by simp [hon]), if_neg (mt (occupied_iff _).2 hb), if_pos ho]

/-- The calibration that starts on the present edge, with what the command takes on it (R118, R121). -/
def calStarting (k : Nat) (full : Bool) (i : Nat) : CalRun :=
  ⟨full, i, s.paired k i, s.getS (CNV.base k) CNV.FS_VALUE.FS, s.now + 256 * (s.ownAcq k + 28) * ac, s.now, s.ownAcq k,
    s.getF (CNV.base k) CNV.CTRL.LOOP_SEL, 0, 0⟩

theorem calibrate_starts (k : Fin 12) (full : Bool) (i : Nat) (hon : s.cnvOn k = false) (hb : ¬ Occupied s.cnv[k])
    (ho : s.oddOfPair k i = false) :
    s.calibrate k full i = s.modCnvS k fun c => { c with cal := some (calStarting s k full i) } := by
  rw [← cnvAt_val] at hb
  unfold State.calibrate
  dsimp only
  rw [if_neg (by simp [hon]), if_neg (mt (occupied_iff _).2 hb), if_neg (by simp [ho])]
  rfl

/-- A refusal shows its code in CAL_RESULT and does nothing else (R118, R121). -/
theorem refusal_calResult (k v : Nat) (hv : v < 8) :
    (s.setF (CNV.base k) CNV.STATUS.CAL_RESULT v).getF (CNV.base k) CNV.STATUS.CAL_RESULT = v ∧
      OnlyFields s (s.setF (CNV.base k) CNV.STATUS.CAL_RESULT v) (CNV.base k) [CNV.STATUS.CAL_RESULT] :=
  ⟨(getF_setF_same s _ _ v).trans (Nat.mod_eq_of_lt hv), (OnlyFields.refl s _ _).setF v (List.mem_singleton.2 rfl)⟩

/-! ### The codes of the loopback -/

/-- One conversion of a calibration of input 6, where its aperture has passed by instant `t`. -/
def calStep (k t : Nat) (x : CalRun) (p : CalRun × State) (n : Nat) : CalRun × State :=
  if p.1.counted = n ∧ x.aperture n < t then
    let code := p.2.loopCode k x.loop (x.aperture n)
    ({ p.1 with counted := n + 1, sum := p.1.sum + 16 * code.1 }, code.2)
  else p

theorem calSample_input {k t : Nat} {x : CalRun} (hx : (s.cnvAt k).cal = some x) (h6 : x.input ≠ 6) :
    s.calSample k t = s := by
  unfold State.calSample
  rw [hx]
  exact if_pos h6

theorem calSample_loop {k t : Nat} {x : CalRun} (hx : (s.cnvAt k).cal = some x) (h6 : x.input = 6) :
    s.calSample k t = ((List.range 256).foldl (calStep k t x) (x, s)).2.modCnv k fun c =>
      { c with cal := some ((List.range 256).foldl (calStep k t x) (x, s)).1 } := by
  unfold State.calSample
  rw [hx]
  dsimp only
  rw [if_neg (not_not.2 h6)]
  rfl

/-- From state `s` conversions have been summed whose codes have 12 bits, and at most free values have been taken. -/
def Summed (s : State) (p : CalRun × State) : Prop :=
  p.1.counted ≤ 256 ∧ p.1.sum ≤ 65520 * p.1.counted ∧ ∃ n, p.2 = { s with free := n }

theorem Summed.step {s : State} {p : CalRun × State} (h : Summed s p) {k t n : Nat} {x : CalRun} (hn : n < 256) :
    Summed s (calStep k t x p n) := by
  obtain ⟨hc, hs, m, hm⟩ := h
  unfold calStep
  split
  next hcond =>
    have hcode : (p.2.loopCode k x.loop (x.aperture n)).1 < 4096 := threshold_lt _ _ _ _
    obtain ⟨m', hm'⟩ : ∃ m', (p.2.loopCode k x.loop (x.aperture n)).2 = { p.2 with free := m' } :=
      threshold_state _ _ _ _
    refine ⟨hn, ?_, m', ?_⟩
    · dsimp only
      omega
    · rw [hm] at hm' ⊢
      exact hm'
  · exact ⟨hc, hs, m, hm⟩

theorem summed_conversions (k t : Nat) {x : CalRun} (hc : x.counted ≤ 256) (hs : x.sum ≤ 65520 * x.counted) :
    Summed s ((List.range 256).foldl (calStep k t x) (x, s)) :=
  List.foldlRecOn (motive := Summed s) _ _ ⟨hc, hs, s.free, rfl⟩ fun _ hp _ hn => hp.step (List.mem_range.1 hn)

/-- While the threshold stands still, the conversions whose apertures have passed all read its code. -/
theorem conversions_settled (k t : Nat) {x : CalRun} (hc : x.counted = 0) (hs : x.sum = 0)
    (hthr : (s.cmpAt (2 * k + x.loop / 2)).thrAt = 0 ∨ (s.cmpAt (2 * k + x.loop / 2)).thrAt + 40 * ac ≤ x.startAt)
    (m : Nat) (ht : ∀ n < m, x.aperture n < t) :
    (List.range m).foldl (calStep k t x) (x, s) =
      ({ x with counted := m, sum := m * (16 * loopThreshold s k x.loop) }, s) := by
  induction m with
  | zero =>
    exact Prod.ext (by cases x; simp_all) rfl
  | succ m ih =>
    have hle : x.startAt ≤ x.aperture m := Nat.le_add_right _ _
    have hcode : s.loopCode k x.loop (x.aperture m) = (loopThreshold s k x.loop, s) :=
      loopCode_settled s (hthr.imp_right fun h => h.trans hle)
    rw [List.range_succ, List.foldl_append, ih fun n hn => ht n (by omega), List.foldl_cons, List.foldl_nil, calStep,
      if_pos ⟨rfl, ht m (by omega)⟩]
    dsimp only
    rw [hcode, Nat.succ_mul m]

/-- The sum of the codes that the loopback of converter `k` has read. -/
def loopSum (s : State) (k : Nat) : Int :=
  match (s.cnvAt k).cal with
  | some y => y.sum
  | none => 0

theorem loopSum_modCnv (k : Fin 12) (y : CalRun) :
    loopSum (s.modCnv k fun c => { c with cal := some y }) k = y.sum := by
  unfold loopSum
  rw [cnvAt_val, modCnv_cnv_self]

/-! ### The end -/

/-- The registers that the end of a calibration writes, of zero or of full scale `fs`, with the sum of its codes (R119,
R120). -/
def withCalibration (s : State) (k : Fin 12) (full : Bool) (fs : Int) (i : Fin 8) (sum : Int) : State :=
  let b := CNV.base k
  let d := sum - s.getS b (CNV.OFFSET.OFFSET.at (8 * i))
  let gain := roundQuot (fs * 65536) d
  if !full then (s.setF b (CNV.OFFSET.OFFSET.at (8 * i)) (ofSigned 32 sum)).setF b CNV.STATUS.CAL_RESULT 1
  else if d = 0 || gain < -2147483648 || 2147483647 < gain then s.setF b CNV.STATUS.CAL_RESULT 6
  else (s.setF b (CNV.GAIN.GAIN.at (8 * i)) (ofSigned 32 gain)).setF b CNV.STATUS.CAL_RESULT 1

/-- The sum that the end of calibration `x` takes: that of the loopback for input 6, else that of the codes, within the
range of 256 codes (R105, R118). -/
def calSum (x : CalRun) (codes : CalCodes) (loop : Int) : Int :=
  if x.input = 6 then loop
  else if x.paired then clampInt (-32768 * 256) (32767 * 256) codes.sum else clampInt 0 (65535 * 256) codes.sum

theorem execCalibrationEnd_eq {s : State} {k : Fin 12} {x : CalRun} (hx : s.cnv[k].cal = some x) {i : Fin 8}
    (hi : x.input = i.val) (codes : CalCodes)
    {u : State} (hu : (s.atTime x.endAt).calSample k x.endAt = u) :
    ∃ changed, execCalibrationEnd k codes s =
      .next (((withCalibration u k x.full x.fs i (calSum x codes (loopSum u k))).calOffer k changed).modCnvS k fun c =>
        { c with cal := none, acqFrom := x.endAt }) := by
  unfold execCalibrationEnd
  rw [hx]
  dsimp only
  rw [hu]
  unfold withCalibration calSum
  rw [hi, Nat.mod_eq_of_lt i.isLt]
  exact ⟨_, rfl⟩

/-- An item set out for the recorder changes the recorder alone. -/
theorem calOffer_regs (k : Nat) (changed : Bool) : (s.calOffer k changed).regs = s.regs := by
  unfold State.calOffer State.offer
  split
  · split <;> rfl
  · rfl

@[simp] theorem calOffer_now (k : Nat) (changed : Bool) : (s.calOffer k changed).now = s.now :=
  (keeps_calOffer (L := [.attic]) k changed (by decide) (Keeps.refl s)).same .now (by decide)

theorem withCalibration_zero {full : Bool} (h : full = false) (k : Fin 12) (fs : Int) (i : Fin 8) (sum : Int) :
    withCalibration s k full fs i sum =
      (s.setF (CNV.base k) (CNV.OFFSET.OFFSET.at (8 * i)) (ofSigned 32 sum)).setF (CNV.base k)
        CNV.STATUS.CAL_RESULT 1 := by
  unfold withCalibration
  dsimp only
  rw [h, if_pos (by decide)]

/-- A full-scale calibration whose quotient there is not, or does not fit (R120). -/
theorem withCalibration_failed {full : Bool} (h : full = true) (k : Fin 12) {fs : Int} {i : Fin 8} {sum d : Int}
    (hd : sum - s.getS (CNV.base k) (CNV.OFFSET.OFFSET.at (8 * i)) = d)
    (hf : d = 0 ∨ roundQuot (fs * 65536) d < -2147483648 ∨ 2147483647 < roundQuot (fs * 65536) d) :
    withCalibration s k full fs i sum = s.setF (CNV.base k) CNV.STATUS.CAL_RESULT 6 := by
  unfold withCalibration
  dsimp only
  rw [hd, h, if_neg (by decide), if_pos (by simpa [or_assoc] using hf)]

theorem withCalibration_full {full : Bool} (h : full = true) (k : Fin 12) {fs : Int} {i : Fin 8} {sum d : Int}
    (hd : sum - s.getS (CNV.base k) (CNV.OFFSET.OFFSET.at (8 * i)) = d)
    (hf : ¬ (d = 0 ∨ roundQuot (fs * 65536) d < -2147483648 ∨ 2147483647 < roundQuot (fs * 65536) d)) :
    withCalibration s k full fs i sum =
      (s.setF (CNV.base k) (CNV.GAIN.GAIN.at (8 * i)) (ofSigned 32 (roundQuot (fs * 65536) d))).setF (CNV.base k)
        CNV.STATUS.CAL_RESULT 1 := by
  unfold withCalibration
  dsimp only
  rw [hd, h, if_neg (by decide), if_neg (by simpa [or_assoc] using hf)]

@[simp] theorem withCalibration_now (k : Fin 12) (full : Bool) (fs : Int) (i : Fin 8) (sum : Int) :
    (withCalibration s k full fs i sum).now = s.now := by
  unfold withCalibration
  dsimp only
  split
  · rw [setF_now, setF_now]
  · split
    · rw [setF_now]
    · rw [setF_now, setF_now]

end Sys2Proof.Laws
end

section
/-! CALIBRATION (O14). -/

namespace Sys2Proof.Converters

open Sys2Proof Sys2Proof.Machine Sys2Proof.Safety Sys2Proof.Laws

/-- What CAL_ZERO and CAL_FULL of input `i` do at converter `k`, as the statement of O14 puts it: the refusals in their
order, or a calibration that starts. -/
def CalOutcome (s : State) (k : Fin 12) (i : Fin 8) (full : Bool) (t : State) : Prop :=
  let b := CNV.base k
  (s.cnvOn k = true → t.getF b CNV.STATUS.CAL_RESULT = 2 ∧ OnlyFields s t b [CNV.STATUS.CAL_RESULT]) ∧
  (s.cnvOn k = false → Occupied s.cnv[k] →
    t.getF b CNV.STATUS.CAL_RESULT = 3 ∧ OnlyFields s t b [CNV.STATUS.CAL_RESULT]) ∧
  (s.cnvOn k = false → ¬ Occupied s.cnv[k] → s.oddOfPair k i = true →
    t.getF b CNV.STATUS.CAL_RESULT = 4 ∧ OnlyFields s t b [CNV.STATUS.CAL_RESULT]) ∧
  (s.cnvOn k = false → ¬ Occupied s.cnv[k] → s.oddOfPair k i = false →
    t.getB b CNV.STATUS.CAL_BUSY = true ∧ t.getF b CNV.STATUS.CAL_RESULT = s.getF b CNV.STATUS.CAL_RESULT ∧
    t.cnv[k].cal = some (calStarting s k full i))

theorem calOutcome_calibrate (s : State) (k : Fin 12) (i : Fin 8) (full : Bool) :
    CalOutcome s k i full (s.calibrate k full i) := by
  refine ⟨fun hon => ?_, fun hon hb => ?_, fun hon hb ho => ?_, fun hon hb ho => ?_⟩
  · rw [calibrate_enabled s k full i hon]
    exact refusal_calResult s k 2 (by decide)
  · rw [calibrate_occupied s k full i hon hb]
    exact refusal_calResult s k 3 (by decide)
  · rw [calibrate_odd s k full i hon hb ho]
    exact refusal_calResult s k 4 (by decide)
  · rw [calibrate_starts s k full i hon hb ho]
    exact ⟨calBusy_modCnvS _ _ _, getF_modCnvS _ _ _ (by decide) (Or.inr (by decide)), modCnvS_cal _ _ _⟩

/-- The end of calibration `x` of input `i` with the sum of its codes, as the statement of O14 puts it. -/
def CalEnds (s : State) (k : Fin 12) (i : Fin 8) (x : CalRun) (sum : Int) (t : State) : Prop :=
  let b := CNV.base k
  let d := sum - s.getS b (CNV.OFFSET.OFFSET.at (8 * i))
  t.getB b CNV.STATUS.CAL_BUSY = false ∧ t.cnv[k].cal = none ∧ t.cnv[k].acqFrom = x.endAt ∧
  t.now = max s.now (edgeDown x.endAt) ∧
  (x.full = false → t.getS b (CNV.OFFSET.OFFSET.at (8 * i)) = sum ∧ t.getF b CNV.STATUS.CAL_RESULT = 1) ∧
  (x.full = true → t.getF b (CNV.OFFSET.OFFSET.at (8 * i)) = s.getF b (CNV.OFFSET.OFFSET.at (8 * i)) ∧
    ((t.getF b CNV.STATUS.CAL_RESULT = 1 ∧ d ≠ 0 ∧
      let g := t.getS b (CNV.GAIN.GAIN.at (8 * i))
      2 * (x.fs * 65536 - g * d).natAbs ≤ d.natAbs ∧
      (2 * (x.fs * 65536 - g * d).natAbs = d.natAbs → (x.fs * 65536).natAbs < (g * d).natAbs)) ∨
    (t.getF b CNV.STATUS.CAL_RESULT = 6 ∧
      t.getF b (CNV.GAIN.GAIN.at (8 * i)) = s.getF b (CNV.GAIN.GAIN.at (8 * i)) ∧
      (d = 0 ∨ ∀ g : Int, -2147483648 ≤ g → g ≤ 2147483647 → d.natAbs ≤ 2 * (x.fs * 65536 - g * d).natAbs))))

theorem offset_off_lt (i : Fin 8) : (CNV.OFFSET.OFFSET.at (8 * i)).off < 0x100 := off_at (n := 60) (by omega) (by decide)

theorem gain_off_lt (i : Fin 8) : (CNV.GAIN.GAIN.at (8 * i)).off < 0x100 := off_at (n := 60) (by omega) (by decide)

theorem offset_off_ne (i : Fin 8) : (CNV.OFFSET.OFFSET.at (8 * i)).off ≠ CNV.STATUS.W.off := by
  show 0xA0 + 8 * i.val ≠ 4
  omega

theorem gain_off_ne (i : Fin 8) : (CNV.GAIN.GAIN.at (8 * i)).off ≠ CNV.STATUS.W.off := by
  show 0xA4 + 8 * i.val ≠ 4
  omega

/-- The quotient of a full-scale calibration that fails is no nearer to any gain that fits (R120). -/
theorem no_gain_fits {n d : Int} (hf : d = 0 ∨ roundQuot n d < -2147483648 ∨ 2147483647 < roundQuot n d) :
    d = 0 ∨ ∀ g : Int, -2147483648 ≤ g → g ≤ 2147483647 → d.natAbs ≤ 2 * (n - g * d).natAbs := by
  by_cases hd : d = 0
  · exact Or.inl hd
  · exact Or.inr fun g hg hg' => (roundsTo_roundQuot n hd).le_of_ne (by rcases hf.resolve_left hd with h | h <;> omega)

/-- On the last edge of a calibration its registers show what its end has written. -/
theorem calEnds_of_written {s u : State} (k : Fin 12) (i : Fin 8) (x : CalRun) {sum : Int} (hregs : u.regs = s.regs)
    (hnow : u.now = max s.now (edgeDown x.endAt)) (h0 : -8388608 ≤ sum) (h1 : sum ≤ 16776960) (changed : Bool) :
    CalEnds s k i x sum (((withCalibration u k x.full x.fs i sum).calOffer k changed).modCnvS k fun c =>
      { c with cal := none, acqFrom := x.endAt }) := by
  have field {f : Converter → Converter} {g : Fld} (ho : g.off < 0x100) (hg : g.off ≠ CNV.STATUS.W.off ∨ 7 < g.lo) :
      (((withCalibration u k x.full x.fs i sum).calOffer k changed).modCnvS k f).getF (CNV.base k) g =
        (withCalibration u k x.full x.fs i sum).getF (CNV.base k) g :=
    (getF_modCnvS _ _ _ ho hg).trans (getF_congr (calOffer_regs _ _ _) _ _)
  have result {f : Converter → Converter} := field (f := f) (g := CNV.STATUS.CAL_RESULT) (by decide) (Or.inr (by decide))
  have offset {f : Converter → Converter} := field (f := f) (offset_off_lt i) (Or.inl (offset_off_ne i))
  have gain {f : Converter → Converter} := field (f := f) (gain_off_lt i) (Or.inl (gain_off_ne i))
  have offset_ne : CNV.base k + (CNV.OFFSET.OFFSET.at (8 * i)).off ≠ CNV.base k + CNV.STATUS.CAL_RESULT.off :=
    fun e => offset_off_ne i (Nat.add_left_cancel e)
  have gain_ne : CNV.base k + (CNV.GAIN.GAIN.at (8 * i)).off ≠ CNV.base k + CNV.STATUS.CAL_RESULT.off :=
    fun e => gain_off_ne i (Nat.add_left_cancel e)
  refine ⟨calBusy_modCnvS _ _ _, modCnvS_cal _ _ _, modCnvS_acqFrom _ _ _, ?_, fun hz => ?_, fun hf => ?_⟩
  · rw [modCnvS_now, calOffer_now, withCalibration_now, hnow]
  · rw [getS_congr offset, result, withCalibration_zero u hz]
    exact ⟨(getS_congr (getF_setF_reg _ offset_ne _)).trans (getS_setF_ofSigned _ _ _ (by omega) (by omega)),
      getF_setF_same _ _ CNV.STATUS.CAL_RESULT 1⟩
  · have hd : sum - u.getS (CNV.base k) (CNV.OFFSET.OFFSET.at (8 * i)) =
        sum - s.getS (CNV.base k) (CNV.OFFSET.OFFSET.at (8 * i)) := by
      rw [getS_congr (getF_congr hregs _ _)]
    rw [offset, result, gain, getS_congr gain]
    generalize sum - s.getS (CNV.base k) (CNV.OFFSET.OFFSET.at (8 * i)) = d at hd ⊢
    by_cases hfail : d = 0 ∨ roundQuot (x.fs * 65536) d < -2147483648 ∨ 2147483647 < roundQuot (x.fs * 65536) d
    · rw [withCalibration_failed u hf k hd hfail]
      exact ⟨(getF_setF_reg _ offset_ne _).trans (getF_congr hregs _ _),
        Or.inr ⟨getF_setF_same _ _ CNV.STATUS.CAL_RESULT 6, (getF_setF_reg _ gain_ne _).trans (getF_congr hregs _ _),
          no_gain_fits hfail⟩⟩
    · rw [withCalibration_full u hf k hd hfail]
      obtain ⟨hd0, hlo, hhi⟩ :
          d ≠ 0 ∧ -2147483648 ≤ roundQuot (x.fs * 65536) d ∧ roundQuot (x.fs * 65536) d ≤ 2147483647 := by
        omega
      have offset_ne_gain :
          CNV.base k + (CNV.OFFSET.OFFSET.at (8 * i)).off ≠ CNV.base k + (CNV.GAIN.GAIN.at (8 * i)).off := by
        show CNV.base k + (0xA0 + 8 * i.val) ≠ CNV.base k + (0xA4 + 8 * i.val)
        omega
      rw [getS_congr (getF_setF_reg _ gain_ne _), getS_setF_ofSigned _ _ _ hlo hhi]
      exact ⟨(getF_setF_reg _ offset_ne _).trans ((getF_setF_reg _ offset_ne_gain _).trans (getF_congr hregs _ _)),
        Or.inl ⟨getF_setF_same _ _ CNV.STATUS.CAL_RESULT 1, hd0, roundsTo_roundQuot _ hd0⟩⟩

section
variable {s : State} {k : Fin 12} {i : Fin 8} {x : CalRun} (hx : s.cnv[k].cal = some x) (hi : x.input = i.val)
include hx hi

theorem calibrationEnd_ends (codes : CalCodes) {u : State} (hu : (s.atTime x.endAt).calSample k x.endAt = u)
    (hregs : u.regs = s.regs) (hnow : u.now = max s.now (edgeDown x.endAt)) {sum : Int}
    (hsum : calSum x codes (loopSum u k) = sum) (h0 : -8388608 ≤ sum) (h1 : sum ≤ 16776960) :
    Answers (.calibrationEnd k codes) s (CalEnds s k i x sum) := by
  obtain ⟨changed, he⟩ := execCalibrationEnd_eq hx hi codes hu
  rw [hsum] at he
  exact ⟨_, he, calEnds_of_written k i x hregs hnow h0 h1 changed⟩

/-- The calibration of an input other than 6 takes the sum of the codes converted, within their range (R105, R118). -/
theorem calibrationEnd_input (codes : CalCodes) (h6 : i.val ≠ 6) :
    Answers (.calibrationEnd k codes) s (CalEnds s k i x
      (if x.paired then clampInt (-8388608) 8388352 codes.sum else clampInt 0 16776960 codes.sum)) := by
  have hx' : ((s.atTime x.endAt).cnvAt k).cal = some x := (congrArg Converter.cal (cnvAt_val _ k)).trans hx
  refine calibrationEnd_ends hx hi codes (calSample_input _ hx' (hi ▸ h6)) rfl rfl (if_neg (hi ▸ h6)) ?_ ?_
  · split
    · exact le_clampInt (by decide) _
    · exact le_trans (by decide) (le_clampInt (by decide) codes.sum)
  · split
    · exact le_trans (clampInt_le (by decide) codes.sum) (by decide)
    · exact clampInt_le (by decide) _

/-- The end of a calibration of input 6 takes the sum of the conversions of the loopback. -/
theorem calibrationEnd_loop (codes : CalCodes) (h6 : i.val = 6) {p : CalRun × State}
    (hp : (List.range 256).foldl (calStep k x.endAt x) (x, s.atTime x.endAt) = p) {n : Nat}
    (hn : p.2 = { s.atTime x.endAt with free := n }) (h1 : p.1.sum ≤ 16773120) :
    Answers (.calibrationEnd k codes) s (CalEnds s k i x p.1.sum) := by
  have hx' : ((s.atTime x.endAt).cnvAt k).cal = some x := (congrArg Converter.cal (cnvAt_val _ k)).trans hx
  have hu := calSample_loop _ (t := x.endAt) hx' (hi.trans h6)
  rw [hp, hn] at hu
  exact calibrationEnd_ends hx hi codes hu rfl rfl ((if_pos (hi.trans h6)).trans (loopSum_modCnv _ k p.1)) (by omega)
    (by omega)

theorem calibrationEnd_loop_bounded (codes : CalCodes) (h6 : i.val = 6) (hc : x.counted ≤ 256)
    (hs : x.sum ≤ 65520 * x.counted) :
    Answers (.calibrationEnd k codes) s fun t => ∃ sum : Nat, sum ≤ 16773120 ∧ CalEnds s k i x sum t := by
  obtain ⟨hcounted, hsum, n, hn⟩ := summed_conversions (s.atTime x.endAt) k x.endAt hc hs
  have h1 := show _ ≤ 16773120 from hsum.trans (Nat.mul_le_mul_left 65520 hcounted)
  obtain ⟨t, ht, hends⟩ := calibrationEnd_loop hx hi codes h6 rfl hn h1
  exact ⟨t, ht, _, h1, hends⟩

/-- Every conversion of a calibration has had its aperture before the calibration ends (R118). -/
theorem calibrationEnd_loop_settled (codes : CalCodes) (h6 : i.val = 6) (hc : x.counted = 0) (hs : x.sum = 0)
    (he : x.endAt = x.startAt + 256 * (x.acq + 28) * ac)
    (hthr : (s.cmpAt (2 * k + x.loop / 2)).thrAt = 0 ∨ (s.cmpAt (2 * k + x.loop / 2)).thrAt + 40 * ac ≤ x.startAt) :
    Answers (.calibrationEnd k codes) s (CalEnds s k i x (256 * (16 * (loopThreshold s k x.loop : Int)))) := by
  have apertures : ∀ n < 256, x.aperture n < x.endAt := by
    intro n hn
    have : (n + 1) * x.acq + 28 * n < 256 * (x.acq + 28) := by
      have := Nat.mul_le_mul_right x.acq (show n + 1 ≤ 256 by omega)
      omega
    rw [he]
    exact Nat.add_lt_add_left (Nat.mul_lt_mul_of_pos_right this (by decide)) _
  have hcode : loopThreshold s k x.loop < 4096 := by
    unfold loopThreshold
    split
    · exact getF_lt s _ CMP.THR.THR_HI
    · exact getF_lt s _ CMP.THR.THR_LO
  have hp := conversions_settled (s.atTime x.endAt) k x.endAt hc hs hthr 256 apertures
  have h1 : 256 * (16 * loopThreshold s k x.loop) ≤ 16773120 := by omega
  exact_mod_cast calibrationEnd_loop hx hi codes h6 hp (n := s.free) rfl h1

end

/-- Settles O14: the two commands by the order of their refusals, the end of a calibration by the sum that it takes. -/
theorem converterCalibration : Obligations.ConverterCalibration := by
  intro s init k i
  refine ⟨fun hr => ⟨⟨_, congrArg Host.Outcome.next (onCommand_of hr _), calOutcome_calibrate s k i false⟩,
    ⟨_, congrArg Host.Outcome.next (onCommand_of hr _), calOutcome_calibrate s k i true⟩⟩, fun x codes hx hi => ?_⟩
  exact ⟨fun h6 => calibrationEnd_input hx hi codes h6,
    fun h6 hc hs => calibrationEnd_loop_bounded hx hi codes h6 hc hs,
    fun h6 hc hs he hthr => calibrationEnd_loop_settled hx hi codes h6 hc hs he hthr⟩

end Sys2Proof.Converters
end

section
/-! SUPPORT. The record of a stall engine (R213). -/

namespace Sys2Proof.Laws

open Sys2Proof Sys2Proof.Machine Sys2Proof.Safety

variable (s : State)

theorem engAt_val (e : Fin 12) : s.engAt e = s.eng[e] := by
  simp [State.engAt, Fin.ofNat, Nat.mod_eq_of_lt e.isLt]

@[simp] theorem modEng_eng_self (e : Fin 12) (f : Engine → Engine) : (s.modEng e f).eng[e] = f s.eng[e] := by
  rw [← engAt_val, ← engAt_val]
  simp [State.modEng, State.engAt]

theorem modEng_eng_other {j e : Fin 12} (h : j ≠ e) (f : Engine → Engine) : (s.modEng e f).eng[j] = s.eng[j] := by
  have : e.val ≠ j.val := fun he => h (Fin.ext he.symm)
  simp [State.modEng, Fin.ofNat, Nat.mod_eq_of_lt e.isLt, Vector.getElem_set_ne, this]

/-- Without a trigger that waits none is lost (R213). -/
theorem engLose_alone {s : State} {e : Fin 12} (h : s.eng[e].trig = none) : s.engLose e = s := by
  unfold State.engLose
  rw [engAt_val, h]

end Sys2Proof.Laws
end

section
/-! SUPPORT. The edge on which an operation executes in two lanes that stand alike (R213, R215, R229, R232). -/

namespace Sys2Proof.Safety

open Sys2Proof Sys2Proof.Machine Sys2Proof.Laws

section
variable {s u : State} {e : Fin 12} {r : EngRun} {o : OpWord} (h : Issues s u e r o)
include h

theorem Issues.progWord : u.progWord e r.l0.pc = o := h.word

/-- Two lanes that stand alike have one word next. -/
theorem Issues.nextWords : u.nextWords e r = [(r.l0.pc, o), (r.l0.pc, o)] := by
  have hpc : u.lanePc e r r.l0 = r.l0.pc := if_pos h.captured
  simp [State.nextWords, h.lanes, h.going, hpc, h.progWord]

theorem Issues.nextOp : u.nextOp e r = o := by
  rw [State.nextOp, h.nextWords]
  rfl

theorem Issues.nextIllegal : u.nextIllegal e r = false := by
  rw [State.nextIllegal, h.nextWords]
  simp [h.legal]

theorem Issues.not_ended : r.ended = false := by
  rw [EngRun.ended, h.going, Bool.false_and]

/-- An operation other than LDR does not wait (R229). -/
theorem Issues.not_waits (hop : o.op ≠ 0x02) : u.ldrWaits e r = false := by
  have hports : u.ldrPorts e r = [] := by
    unfold State.ldrPorts
    rw [h.nextWords]
    simp [hop]
  rw [State.ldrWaits, hports]
  rfl

/-- Both lanes execute the word, the run's next edge is the operation's cycles further on, and the engine keeps account
of the words and the ports that it has read (R215, R229, R232). -/
theorem Issues.engOp (hw : u.ldrWaits e r = false) :
    let l := laneOp e r.frame (u.ncoFreq e) (!u.getB (ENG.base e) ENG.NCO_CFG.SRC) (u.engWords e r r.l0.pc o) o r.l0
    ∃ kept, ∃ ldr : Engine → Option (Nat × List Nat × Bool), s.engOp e o.op none = u.modEng e fun x => { x with
      run := some { r with
        l0 := l, l1 := l, waited := false, kept := kept, next := r.next + o.cycles * ac
        len := if r.first.isNone then r.len + o.cycles else r.len }
      ldr := ldr x } := by
  intro l
  obtain ⟨⟨q, hq, hu⟩, hr⟩ := h.comes
  have hcycles : (u.nextWords e r).foldl (fun n w => max n w.2.cycles) 0 = o.cycles := by
    rw [h.nextWords]
    simp
  unfold State.engOp
  rw [engAt_val, hq]
  dsimp only
  rw [← hu, engAt_val, hr]
  dsimp only
  rw [if_neg (by simp [h.not_ended, h.nextOp, h.nextIllegal]), EngRun.upset, if_neg (by simp [hw]), hcycles, h.lanes,
    if_neg (by simp [h.going]), h.progWord]
  refine ⟨_, fun x => _, engLose_alone ?_⟩
  rw [modEng_eng_self]
  exact h.alone

theorem Issues.executed (hw : u.ldrWaits e r = false) :
    Executed u (s.engOp e o.op none) e r
      (laneOp e r.frame (u.ncoFreq e) (!u.getB (ENG.base e) ENG.NCO_CFG.SRC) (u.engWords e r r.l0.pc o) o r.l0)
      o.cycles := by
  obtain ⟨kept, ldr, heq⟩ := h.engOp hw
  rw [heq]
  refine ⟨⟨_, congrArg Engine.run (modEng_eng_self u e _), rfl, rfl⟩,
    ⟨_, congrArg Engine.run (modEng_eng_self u e _), rfl, fun hf => ?_, rfl, rfl, rfl, rfl, rfl, rfl⟩, rfl,
    fun f hf => modEng_eng_other u hf _⟩
  exact if_pos (by simp [hf])

end

end Sys2Proof.Safety
end

section
/-! SUPPORT. What an operation leaves in a lane: values that fit, values rounded and saturated to Q16.16, and the move to
the next entry (R215, R220–R224). -/

namespace Sys2Proof.Laws

open Sys2Proof Sys2Proof.Machine Sys2Proof.Safety

/-! ### Rounding and saturation -/

/-- An exact quotient is not changed (R116, R220). -/
theorem roundAway_mul (n : Int) {d : Nat} (hd : 0 < d) : roundAway (n * d) d = n := by
  by_contra hne
  have hstep := (roundsTo_roundAway (n * d) hd).le_of_ne (Ne.symm hne)
  rw [sub_self] at hstep
  omega

theorem roundAway_one (n : Int) : roundAway n 1 = n := by
  simpa using roundAway_mul n Nat.one_pos

/-- A number's low 32 bits, in a register. -/
def putInt (l : Lane) (n : Nat) (v : Int) : Lane := l.put n (BitVec.ofInt 32 v)

/-- A number saturated to Q16.16, in a register, with its note in the run's record (R220). -/
def putFit (l : Lane) (n : Nat) (v : Int) : Lane :=
  let fit := clampInt (-2147483648) 2147483647 v
  { putInt l n fit with sat := l.sat || decide (fit ≠ v) }

/-- The note of a saturation says that the value has changed. -/
theorem bne_eq_decide_ne (c v : Int) : (c != v) = decide (c ≠ v) := by
  rw [Bool.eq_iff_iff, bne_iff_ne, decide_eq_true_eq]

theorem putSat_sat32 (l : Lane) (n : Nat) (v : Int) (d : Nat) :
    l.putSat n (sat32 v d) = putFit l n (roundAway v d) :=
  congrArg (fun b => ({ putInt l n _ with sat := l.sat || b } : Lane)) (bne_eq_decide_ne _ _)

theorem put_toInt (l : Lane) (n : Nat) (v : Word) : l.put n v = putInt l n v.toInt := by
  rw [putInt, BitVec.ofInt_toInt]

/-- The low 32 bits of imm21, times 2¹¹, are those of its value as a signed number (R218). -/
theorem ofInt_imm21 (n : Nat) : BitVec.ofInt 32 (toSigned 21 n * 2 ^ 11) = BitVec.ofNat 32 (n * 2 ^ 11) := by
  apply BitVec.eq_of_toNat_eq
  rw [BitVec.toNat_ofInt, BitVec.toNat_ofNat]
  unfold toSigned
  dsimp only
  split <;> omega

/-! ### The next entry -/

/-- An operation that takes no notice of where its lane stands, and leaves it there. -/
def Straight (g : Lane → Lane) : Prop :=
  ∀ l pc d, g { l with pc := pc, done := d } = { g l with pc := pc, done := d }

/-- The lane at the next entry, before its operation. -/
def advanced (l : Lane) : Lane := { l with pc := l.pc + 1 }

/-- Past entry 127 a lane is done (R215). -/
def pastEnd (l : Lane) : Lane := if 127 < l.pc then { l with done := true } else l

theorem pastEnd_straight {g : Lane → Lane} (hg : Straight g) {l : Lane} (hl : l.done = false) :
    pastEnd (g (advanced l)) = g (moved l) := by
  have hadv : g (advanced l) = { g l with pc := l.pc + 1, done := false } := hl ▸ hg l (l.pc + 1) l.done
  have hmov : g (moved l) = { g l with pc := l.pc + 1, done := decide (127 ≤ l.pc) } := hg l _ _
  rw [hadv, hmov, pastEnd]
  by_cases hp : 127 ≤ l.pc
  · rw [if_pos (Nat.lt_succ_of_le hp), decide_eq_true hp]
  · rw [if_neg (by simpa using hp), decide_eq_false hp]

/-! ### Straight operations -/

theorem straight_id : Straight id := fun _ _ _ => rfl

theorem Straight.putInt {g : Lane → Lane} (hg : Straight g) (n : Nat) {v : Lane → Int}
    (hv : ∀ l pc d, v { l with pc := pc, done := d } = v l) : Straight fun l => putInt (g l) n (v l) := by
  intro l pc d
  dsimp only
  rw [hg, hv]
  rfl

theorem straight_opTwo (f : Int → Int → Word × Bool) (k : Nat) (o : OpWord) : Straight (opTwo f k o) := by
  intro l pc d
  unfold opTwo
  dsimp only
  split <;> rfl

theorem straight_opMov (o : OpWord) : Straight (opMov o) := fun _ _ _ => rfl
theorem straight_opLdi (o : OpWord) : Straight (opLdi o) := fun _ _ _ => rfl
theorem straight_opMac (o : OpWord) : Straight (opMac o) := fun _ _ _ => rfl
theorem straight_opSat (o : OpWord) : Straight (opSat o) := fun _ _ _ => rfl
theorem straight_opClamp (o : OpWord) : Straight (opClamp o) := fun _ _ _ => rfl
theorem straight_opAbs (o : OpWord) : Straight (opAbs o) := fun _ _ _ => rfl
theorem straight_opPi (f : Frame) (o : OpWord) : Straight (opPi f o) := fun _ _ _ => rfl
theorem straight_opClarke (o : OpWord) : Straight (opClarke o) := fun _ _ _ => rfl
theorem straight_opPark (o : OpWord) : Straight (opPark o) := fun _ _ _ => rfl
theorem straight_opIpark (o : OpWord) : Straight (opIpark o) := fun _ _ _ => rfl
theorem straight_opSincos (o : OpWord) : Straight (opSincos o) := fun _ _ _ => rfl
theorem straight_opNco (f : Frame) (q : Int) (m : Bool) (o : OpWord) : Straight (opNco f q m o) := fun _ _ _ => rfl

/-! ### Their values -/

/-- Two results, the second only in the paired form (R218, R220). -/
def putPair (o : OpWord) (v v' : Int) (l : Lane) : Lane :=
  if o.x.testBit 10 then putFit (putFit l o.d v) (o.d + 1) v' else putFit l o.d v

theorem opTwo_sat32 (f : Int → Int → Int) (d k : Nat) (o : OpWord) (l : Lane) :
    opTwo (fun a b => sat32 (f a b) d) k o l =
      putPair o (roundAway (f (l.i o.a) (l.i o.b)) d) (roundAway (f (l.i (o.a + 1)) (l.i (o.b + k))) d) l := by
  unfold opTwo putPair
  simp only [putSat_sat32]

theorem opAdd_eq (o : OpWord) (l : Lane) :
    opAdd o l = putPair o (l.i o.a + l.i o.b) (l.i (o.a + 1) + l.i (o.b + 1)) l := by
  rw [opAdd, opTwo_sat32, roundAway_one, roundAway_one]

theorem opSub_eq (o : OpWord) (l : Lane) :
    opSub o l = putPair o (l.i o.a - l.i o.b) (l.i (o.a + 1) - l.i (o.b + 1)) l := by
  rw [opSub, opTwo_sat32, roundAway_one, roundAway_one]

theorem opMul_eq (o : OpWord) (l : Lane) :
    opMul o l = putPair o (roundAway (l.i o.a * l.i o.b) 65536) (roundAway (l.i (o.a + 1) * l.i o.b) 65536) l :=
  opTwo_sat32 (· * ·) 65536 0 o l

theorem opMac_eq (o : OpWord) (l : Lane) :
    let sum := (if o.x.testBit 0 then 0 else l.acc[Fin.ofNat 4 o.d]) + l.i o.a * l.i o.b
    let kept := clampInt (-(2 ^ 63)) (2 ^ 63 - 1) sum
    opMac o l = { l with acc := l.acc.set (Fin.ofNat 4 o.d) kept, sat := l.sat || decide (kept ≠ sum) } :=
  congrArg (fun b => ({ l with acc := l.acc.set (Fin.ofNat 4 o.d) _, sat := l.sat || b } : Lane)) (bne_eq_decide_ne _ _)

theorem opSat_eq (o : OpWord) (l : Lane) :
    opSat o l = putFit l o.d (roundAway l.acc[Fin.ofNat 4 o.a] 65536) := putSat_sat32 l o.d _ 65536

theorem opClamp_eq (o : OpWord) (l : Lane) :
    opClamp o l = putInt l o.d (min (max (l.i o.a) (l.i o.b)) (l.i (o.b + 1))) := rfl

theorem opAbs_eq (o : OpWord) (l : Lane) : opAbs o l = putFit l o.d (l.i o.a).natAbs := by
  rw [opAbs, putSat_sat32, roundAway_one]

theorem opMov_eq (o : OpWord) (l : Lane) : opMov o l = putInt l o.d (l.i o.a) := put_toInt l o.d (l.r o.a)

theorem opLdi_eq (o : OpWord) (l : Lane) :
    opLdi o l = putInt l o.d (toSigned 21 (o.a * 2 ^ 16 + o.b * 2 ^ 11 + o.x) * 2 ^ 11) := by
  rw [putInt, ofInt_imm21]
  rfl

/-- The PI term (R221). -/
theorem opPi_eq (f : Frame) (o : OpWord) (l : Lane) :
    let p := Fin.ofNat 16 o.x
    let err := l.i o.a - l.i o.b
    let hi := f.hi[p].toInt * 65536
    let lo := f.lo[p].toInt * 65536
    let term := f.kp[p].toInt * err
    let sum := l.int[p] + f.ki[p].toInt * err
    let int := min (max (if (hi < term + sum ∧ 0 < err) ∨ (term + sum < lo ∧ err < 0) then l.int[p] else sum) lo) hi
    opPi f o l = { putInt l o.d (roundAway (min (max (term + int) lo) hi) 65536) with int := l.int.set p int } := by
  simp only [opPi, putInt, Bool.or_eq_true, Bool.and_eq_true, decide_eq_true_eq]

theorem opClarke_eq (o : OpWord) (l : Lane) :
    opClarke o l =
      putFit (putInt l o.d (l.i o.a)) (o.d + 1) (roundAway (l.i o.a * 0x93CD + l.i o.b * 0x1279A) 65536) := by
  rw [opClarke, putSat_sat32, put_toInt]
  rfl

theorem opPark_eq (o : OpWord) (l : Lane) :
    let x := l.i o.a
    let y := l.i (o.a + 1)
    let c := l.i o.b
    let s := l.i (o.b + 1)
    opPark o l = putFit (putFit l o.d (roundAway (x * c + y * s) 65536)) (o.d + 1) (roundAway (y * c - x * s) 65536) := by
  simp only [opPark, putSat_sat32]

theorem opIpark_eq (o : OpWord) (l : Lane) :
    let x := l.i o.a
    let y := l.i (o.a + 1)
    let c := l.i o.b
    let s := l.i (o.b + 1)
    opIpark o l = putFit (putFit l o.d (roundAway (x * c - y * s) 65536)) (o.d + 1) (roundAway (x * s + y * c) 65536) := by
  simp only [opIpark, putSat_sat32]

theorem opNco_eq (f : Frame) (freq : Int) (src : Bool) (o : OpWord) (l : Lane) :
    opNco f freq (!src) o l = putInt l o.d (f.angle.toNat +
      if o.x.testBit 0 = true ∧ src = false then roundAway (freq * l.i o.a * 1000) (2 ^ 32) else 0) := by
  simp only [opNco, putInt, Bool.and_eq_true, Bool.not_eq_true']

/-- A compare of SVM, in unsigned 16.16: with `v` the voltage and `mid` the sum of the highest and the lowest (R224). -/
def svmCompare (prd gain v mid : Int) : Int :=
  clampInt 0 (prd * 65536) (roundAway (prd * (2 ^ 57 + gain * (2 * v - mid))) (2 ^ 42))

/-- The three compares of SVM (R224). -/
def svmCompares (f : Frame) (o : OpWord) (l : Lane) : Int × Int × Int :=
  let va := 2 * l.i o.a * 2 ^ 16
  let vb := -(l.i o.a * 2 ^ 16) + 2 * (l.i (o.a + 1) * 0xDDB4)
  let vc := -(l.i o.a * 2 ^ 16) - 2 * (l.i (o.a + 1) * 0xDDB4)
  let mid := max va (max vb vc) + min va (min vb vc)
  let c := svmCompare f.prd (l.r o.b).toNat
  (c va mid, c vb mid, c vc mid)

theorem opSvm_eq (f : Frame) (o : OpWord) (l : Lane) :
    opSvm f o l = putInt (putInt (putInt l o.d (svmCompares f o l).1) (o.d + 1) (svmCompares f o l).2.1) (o.d + 2)
      (svmCompares f o l).2.2 := by
  simp only [opSvm, svmCompares, svmCompare, putInt]

theorem straight_opSvm (f : Frame) (o : OpWord) : Straight (opSvm f o) := by
  have hc (l : Lane) (pc : Nat) (d : Bool) : svmCompares f o { l with pc := pc, done := d } = svmCompares f o l := rfl
  have h := (straight_id.putInt o.d (v := fun l => (svmCompares f o l).1) fun l pc d => by rw [hc]).putInt (o.d + 1)
    (v := fun l => (svmCompares f o l).2.1) fun l pc d => by rw [hc]
  intro l pc d
  rw [opSvm_eq, opSvm_eq]
  exact (h.putInt (o.d + 2) (v := fun l => (svmCompares f o l).2.2) fun l pc d => by rw [hc]) l pc d

end Sys2Proof.Laws
end

section
/-! THE PROGRAMS OF AN ENGINE (O21, O22). -/

namespace Sys2Proof.Engines

open Sys2Proof Sys2Proof.Machine Sys2Proof.Safety Sys2Proof.Laws

section
variable {s u : State} {e : Fin 12} {r : EngRun} {o : OpWord} (h : Issues s u e r o)
include h

/-- Both lanes stand at the next entry with what a straight operation leaves, if it is no LDR (R215, R232). -/
theorem answers_straight {i : Instr} (hexec : exec i s = .next (s.engOp e o.op none)) {g : Lane → Lane}
    {l : Lane} {k : Nat}
    (hop : ∀ ws, laneOp e r.frame (u.ncoFreq e) (!u.getB (ENG.base e) ENG.NCO_CFG.SRC) ws o r.l0 =
      pastEnd (g (advanced r.l0)))
    (hg : Straight g) (hl : g (moved r.l0) = l) (hk : o.cycles = k := by rfl) (hne : o.op ≠ 0x02 := by simp) :
    Answers i s fun t => Executed u t e r l k := by
  have hexecuted := h.executed (h.not_waits hne)
  rw [hop, pastEnd_straight hg h.going, hl, hk] at hexecuted
  exact ⟨_, hexec, hexecuted⟩

end

/-- Settles O21: each operation is straight, and leaves what its equation says. -/
theorem engineArithmetic : Obligations.EngineArithmetic := by
  refine ⟨fun n d hd => ?_, fun s u e r ⟨op, d, a, b, x⟩ h => ⟨?_, ?_, ?_, ?_, ?_, ?_, ?_, ?_, ?_⟩⟩
  · obtain ⟨hnear, htie⟩ := roundsTo_roundAway n hd
    exact ⟨hnear, htie, roundAway_mul n hd⟩
  · rintro (rfl : op = 0x08)
    exact answers_straight h rfl (fun _ => rfl) (straight_opTwo _ _ _) (opAdd_eq _ _)
  · rintro (rfl : op = 0x09)
    exact answers_straight h rfl (fun _ => rfl) (straight_opTwo _ _ _) (opSub_eq _ _)
  · rintro (rfl : op = 0x0A)
    exact answers_straight h rfl (fun _ => rfl) (straight_opTwo _ _ _) (opMul_eq _ _)
  · rintro (rfl : op = 0x0B)
    exact answers_straight h rfl (fun _ => rfl) (straight_opMac _) (opMac_eq _ _)
  · rintro (rfl : op = 0x0C)
    exact answers_straight h rfl (fun _ => rfl) (straight_opSat _) (opSat_eq _ _)
  · rintro (rfl : op = 0x0D)
    exact answers_straight h rfl (fun _ => rfl) (straight_opClamp _) (opClamp_eq _ _)
  · rintro (rfl : op = 0x0E)
    exact answers_straight h rfl (fun _ => rfl) (straight_opAbs _) (opAbs_eq _ _)
  · rintro (rfl : op = 0x04)
    exact answers_straight h rfl (fun _ => rfl) (straight_opMov _) (opMov_eq _ _)
  · rintro (rfl : op = 0x05)
    exact answers_straight h rfl (fun _ => rfl) (straight_opLdi _) (opLdi_eq _ _)

/-- Settles O22: each operation is straight, and leaves what its equation says. -/
theorem engineControl : Obligations.EngineControl := by
  refine fun s u e r ⟨op, d, a, b, x⟩ h => ⟨?_, ?_, ?_, ?_, ?_, ?_, ?_⟩
  · rintro (rfl : op = 0x10)
    exact answers_straight h rfl (fun _ => rfl) (straight_opPi _ _) (opPi_eq _ _ _)
  · rintro (rfl : op = 0x11)
    exact answers_straight h rfl (fun _ => rfl) (straight_opClarke _) (opClarke_eq _ _)
  · rintro (rfl : op = 0x12)
    exact answers_straight h rfl (fun _ => rfl) (straight_opPark _) (opPark_eq _ _)
  · rintro (rfl : op = 0x13)
    exact answers_straight h rfl (fun _ => rfl) (straight_opIpark _) (opIpark_eq _ _)
  · rintro (rfl : op = 0x14)
    exact answers_straight h rfl (fun _ => rfl) (straight_opSincos _) rfl
  · rintro (rfl : op = 0x15)
    exact answers_straight h rfl (fun _ => rfl) (straight_opNco _ _ _ _) (opNco_eq _ _ _ _ _)
  · rintro (rfl : op = 0x16)
    exact answers_straight h rfl (fun _ => rfl) (straight_opSvm _ _) (opSvm_eq _ _ _)

end Sys2Proof.Engines
end

section
/-! SUPPORT. The record of a core: what an update of it gives (R255, R261, R299, R307). -/

namespace Sys2Proof.Laws

open Sys2Proof Sys2Proof.Machine Sys2Proof.Safety

/-! ### The record -/

theorem coreAt_val (s : State) (c : Fin 4) : s.coreAt c = s.core[c] := by
  simp [State.coreAt, Fin.ofNat, Nat.mod_eq_of_lt c.isLt]

@[simp] theorem coreAt_modCore (s : State) (c : Nat) (f : Core → Core) : (s.modCore c f).coreAt c = f (s.coreAt c) := by
  simp [State.modCore, State.coreAt]

@[simp] theorem modCore_modCore (s : State) (c : Nat) (f g : Core → Core) :
    (s.modCore c f).modCore c g = s.modCore c fun x => g (f x) := by
  simp [State.modCore, State.coreAt]

/-! ### The status register -/

/-- The field of ST that has been set reads back. -/
theorem stF_setSt_same (x : Core) {hi : Nat} (lo v : Nat) (h : hi < 32) : (x.setSt hi lo v).stF hi lo = v % 2 ^ (hi + 1 - lo) := by
  show bitsOf (BitVec.ofNat 32 _).toNat hi lo = _
  rw [BitVec.toNat_ofNat, Nat.mod_eq_of_lt (setBitsOf_lt x.st.isLt h), bitsOf_setBitsOf_same]

/-- Any other field reads as before. -/
theorem stF_setSt_other (x : Core) (v : Nat) {hi lo hi' lo' : Nat} (h : hi < 32) (ho : hi' < lo ∨ hi < lo') :
    (x.setSt hi lo v).stF hi' lo' = x.stF hi' lo' := by
  show bitsOf (BitVec.ofNat 32 _).toNat hi' lo' = _
  rw [BitVec.toNat_ofNat, Nat.mod_eq_of_lt (setBitsOf_lt x.st.isLt h), bitsOf_setBitsOf_other _ _ ho]
  rfl

/-- The number of active loop levels that ST has been given (R261). -/
theorem la_setSt (x : Core) {v : Nat} (h : v < 4) : (x.setSt 7 6 v).la = v :=
  (stF_setSt_same x 6 v (by decide)).trans (Nat.mod_eq_of_lt h)

/-- ST.LK is not part of it. -/
theorem la_setLk (x : Core) (v : Nat) : (x.setSt 8 8 v).la = x.la := stF_setSt_other x v (by decide) (.inl (by decide))

/-! ### The accesses under way -/

/-- An acknowledge loads registers and ends the oldest access; it leaves the rest of the core as it is (R26). -/
theorem acknowledge_eq (x : Core) : ∃ v, x.acknowledge = { x with x := v, out := x.out.tail } := by
  unfold Core.acknowledge
  split
  next h => exact ⟨x.x, by rw [h, List.tail_nil, ← h]⟩
  next o rest h => exact ⟨_, by rw [h, List.tail_cons]⟩

theorem foldl_acknowledge_eq (l : List Outstanding) (x : Core) :
    ∃ v, l.foldl (fun y _ => y.acknowledge) x = { x with x := v, out := x.out.drop l.length } := by
  induction l generalizing x with
  | nil => exact ⟨x.x, rfl⟩
  | cons o l ih =>
    obtain ⟨v, hv⟩ := acknowledge_eq x
    obtain ⟨w, hw⟩ := ih x.acknowledge
    refine ⟨w, hw.trans ?_⟩
    rw [hv]
    simp

/-- Where none of the accesses under way is lost, all of them return. -/
theorem acknowledgeAll_eq {x : Core} (h : (x.out.find? fun o => o.lost) = none) :
    ∃ v, x.acknowledgeAll = { x with x := v, out := [] } := by
  have hall : (x.out.takeWhile fun o => !o.lost) = x.out :=
    List.takeWhile_eq_self_iff.2 fun o ho => by simpa using List.find?_eq_none.1 h o ho
  obtain ⟨v, hv⟩ := foldl_acknowledge_eq x.out x
  refine ⟨v, ?_⟩
  rw [Core.acknowledgeAll, hall, hv, List.drop_length]

theorem acknowledgeAll_of_none {x : Core} (h : x.out = []) : x.acknowledgeAll = x := by
  rw [Core.acknowledgeAll, h]
  rfl

/-! ### The line buffers -/

/-- The buffers `l` once the line that holds the program address `a` has been used (R299). -/
def usedLines (l : List Line) (a : Nat) : List Line :=
  match l.find? fun y => y.addr == a / 16 with
  | some y => l.erase y ++ [y]
  | none => l

theorem useLine_eq (x : Core) (a : Nat) : x.useLine a = { x with lines := usedLines x.lines a } := by
  unfold Core.useLine usedLines
  cases x.lines.find? fun y => y.addr == a / 16 with
  | none => rfl
  | some y => rfl

/-- What retirement in sequence leaves of a core. -/
theorem retired_eq (x y : Core) (len : Nat) :
    retired x y len = { y with
      lines := usedLines y.lines x.pc.toNat, pc := x.pc + BitVec.ofNat 24 len, last := some x.pc, shadow := [],
      hold := false, mid := false, skipBp := false
      replayed := if y.replayed = some x.pc then none else y.replayed } := by
  unfold retired
  rw [useLine_eq]

/-! ### The loop registers -/

theorem set_zero_two {α : Type} (v : Vector α 2) (a : α) : v.set (0 : Fin 2) a = #v[a, v[(1 : Fin 2)]] := by
  ext i hi
  obtain rfl | rfl : i = 0 ∨ i = 1 := by omega
  · simp
  · simp

theorem set_one_two {α : Type} (v : Vector α 2) (a : α) : v.set (1 : Fin 2) a = #v[v[(0 : Fin 2)], a] := by
  ext i hi
  obtain rfl | rfl : i = 0 ∨ i = 1 := by omega
  · simp
  · simp

/-- The level whose end is tested is one of the active ones, so none ends at PC where no active one did (R262). -/
theorem atLe_of_atAnyLe {x y : Core} (h : x.atAnyLe = false) (hla : y.la ≤ x.la) (hle : y.le = x.le := by rfl)
    (hpc : y.pc = x.pc := by rfl) : y.atLe = false := by
  by_contra hat
  obtain ⟨hpos, hend⟩ : y.la ≠ 0 ∧ y.leOf (y.la - 1) = y.pc := by simpa [Core.atLe] using hat
  rw [Core.leOf, hle, hpc] at hend
  have hany : x.atAnyLe = true :=
    List.any_eq_true.2 ⟨y.la - 1, List.mem_range.2 (by omega), decide_eq_true hend⟩
  rw [h] at hany
  cases hany

end Sys2Proof.Laws
end

section
/-! SUPPORT. The course of an instruction that no memory makes wait: from the place it is found at to what its retirement
or its exception leaves (R258, R262, R265, R284, R311, R324, R325). -/

namespace Sys2Proof.Laws

open Sys2Proof Sys2Proof.Machine Sys2Proof.Safety

/-! ### The hall about one core -/

/-- The hall `s` with core `c` at `x` and with `p` to go back to in a parity replay (R311): what an instruction finds, and
what one that changes nothing but its core leaves. -/
def standing (s : State) (c : Fin 4) (p : Vector Replay 4) (x : Core) : State :=
  State.modCore { s with replay := p } c fun _ => x

section
variable (s : State) (c : Fin 4) (p : Vector Replay 4) (x : Core)

@[simp] theorem coreAt_standing : (standing s c p x).coreAt c = x := coreAt_modCore _ _ _

@[simp] theorem modCore_standing (f : Core → Core) : (standing s c p x).modCore c f = standing s c p (f x) :=
  modCore_modCore _ _ _ _

theorem modCore_eq_standing (f : Core → Core) : s.modCore c f = standing s c s.replay (f (s.coreAt c)) := rfl

theorem modReplay_standing (f : Replay → Replay) :
    (standing s c p x).modReplay c f = standing s c (p.set (Fin.ofNat 4 c) (f p[Fin.ofNat 4 c])) x := rfl

/-- The instruction that begins a step notes where a replay goes back to, and does nothing else (R311). -/
theorem stepBegins_standing {x : Core} (h : x.rerun = false) (starts : Bool) :
    ∃ q, (standing s c p x).stepBegins c x starts = standing s c q x := by
  cases starts with
  | false => exact ⟨p, by simp [State.stepBegins, h]⟩
  | true =>
    refine ⟨p.set (Fin.ofNat 4 c) { start := x }, ?_⟩
    simp only [State.stepBegins, h, Bool.false_eq_true, if_false, if_true, modReplay_standing]

/-- An empty store buffer has drained (R309). -/
theorem drainStores_empty {s : State} {c : Nat} (h : (s.coreAt c).store = []) (n : Nat) :
    s.drainStores c n = (true, s) := by
  have hone : s.drainStore c {} = (true, s) := by
    unfold State.drainStore
    rw [h]
  induction n with
  | zero => rfl
  | succ n ih => rw [State.drainStores, hone]; exact ih

theorem lockDrains_standing {x y : Core} (h : x.lockLeft = 1 → y.store = []) :
    (standing s c p y).lockDrains c x = (true, standing s c p y) := by
  unfold State.lockDrains
  split
  next hone => exact drainStores_empty (by simpa using h hone) 4
  next => rfl

/-- No step ends where none is under way (R508). -/
theorem stepDone_standing {y : Core} (h : y.stepAt = none) : (standing s c p y).stepDone c = standing s c p y := by
  simp [State.stepDone, h]

end

/-! ### Locked sequences -/

/-- The core once one of the `was` instructions left of a locked sequence has completed (R265). -/
def lockCounted (was : Nat) (y : Core) : Core :=
  if was = 0 then y
  else if was = 1 then { y.setSt 8 8 0 with lockLeft := 0, lockWord := none, lockUses := 0 }
  else { y with lockLeft := was - 1 }

@[simp] theorem lockCounted_zero (y : Core) : lockCounted 0 y = y := rfl

theorem lockCounted_stepAt (was : Nat) (y : Core) : (lockCounted was y).stepAt = y.stepAt := by
  unfold lockCounted
  split
  · rfl
  · split <;> rfl

theorem lockStep_standing (s : State) (c : Fin 4) (p : Vector Replay 4) (y : Core) (was : Nat) :
    (standing s c p y).lockStep c was = standing s c p (lockCounted was y) := by
  unfold State.lockStep lockCounted
  split
  · rfl
  · split
    · exact modCore_standing _ _ _ _ _
    · exact modCore_standing _ _ _ _ _

/-- The count of a locked sequence and the rest of retirement are apart. -/
theorem lockCounted_retired (was : Nat) (x y : Core) (len : Nat) (next : BitVec 24) :
    lockCounted was { retired x y len with pc := next } = { retired x (lockCounted was y) len with pc := next } := by
  unfold lockCounted
  split
  · rfl
  · split
    · rw [retired_eq, retired_eq]; rfl
    · rw [retired_eq, retired_eq]

/-! ### Retirement in sequence, by the loop test or by a jump -/

/-- Outside a delay slot an instruction retires to where the loop test or its own jump says (R262). -/
theorem retire_standing (s : State) (c : Fin 4) (p : Vector Replay 4) {x y z : Core} {i : Insn} {next : BitVec 24}
    (j : Option (BitVec 24)) (hslot : x.slot = none) (hstep : z.stepAt = none)
    (htest : y.loopTest (x.pc + BitVec.ofNat 24 i.len) = (next, z)) :
    (standing s c p y).retire c x i { jump := j } =
      standing s c p { retired x (lockCounted x.lockLeft z) i.len with pc := j.getD next } := by
  have hz : (lockCounted x.lockLeft { retired x z i.len with pc := j.getD next }).stepAt = none := by
    rw [lockCounted_stepAt, retired_eq]
    exact hstep
  unfold State.retire
  simp only [hslot, coreAt_standing, htest, modCore_standing, List.foldl_nil]
  rw [← lockCounted_retired, ← stepDone_standing s c p hz, ← lockStep_standing]
  rfl

/-! ### Instructions -/

/-- The instruction `i` of core `c`, of `len` words (`e`: with an EXT in front), executes as `body` says, and is no load or
store. -/
structure Framed (i : Instr) (c : Fin 4) (len : Nat) (e : Bool) (body : State → Ran × State) : Prop where
  exec_eq : ∀ s, exec i s = .next (s.coreStep c (bare i) body)
  len_eq : (insnOf (bare i)).len = len
  ext_eq : (insnOf (bare i)).ext = e
  access_eq : (insnOf (bare i)).access = false

section
variable {s : State} {c : Fin 4} {x : Core} {len : Nat} {e : Bool} {i : Instr} {body : State → Ran × State}

/-- Once the accesses under way have returned, only registers of the core have changed. -/
theorem core_of_reaches (h : Reaches1 s c x len e) : ∃ v, x = { s.core[c] with x := v, out := [], waiting := false } := by
  obtain ⟨v, hv⟩ := acknowledgeAll_eq h.sure
  exact ⟨v, by rw [h.now, hv]⟩

theorem lines_of_reaches (h : Reaches1 s c x len e) : x.lines = s.core[c].lines := by
  obtain ⟨v, rfl⟩ := core_of_reaches h
  rfl

theorem out_of_reaches (h : Reaches1 s c x len e) : x.out = [] := by
  obtain ⟨v, rfl⟩ := core_of_reaches h
  rfl

/-- An instruction whose words are at PC is judged there (R302, R307). -/
theorem coreStep_judged (h : Reaches1 s c x len e) (hi : Framed i c len e body) (hf : Fetched i s c) :
    s.coreStep c (bare i) body = (standing s c s.replay x).judged c (insnOf (bare i)) body := by
  have hawake : ((s.coreAt c).waiting && !s.wakes c) = false := by
    rw [coreAt_val, Bool.and_eq_false_iff, Bool.not_eq_false', or_iff_not_imp_left, Bool.not_eq_false]
    exact h.awake
  have hsure : ((s.coreAt c).out.find? fun o => o.lost) = none := by
    rw [coreAt_val]
    exact h.sure
  unfold State.coreStep
  simp only [h.up, hawake, hsure, hi.access_eq, Bool.not_true, Bool.false_or, Bool.false_and, Bool.false_eq_true, if_false]
  rw [show s.fetch c (bare i) = (.named, s) from hf]
  simp only [modCore_eq_standing, coreAt_val, ← h.now]

/-- No breakpoint matches once the accesses have returned where none matched before (R507). -/
theorem breakpoint_standing (h : Reaches1 s c x len e) (hi : Framed i c len e body) :
    (standing s c s.replay x).breakpoint c (insnOf (bare i)) = none := by
  rw [← h.breaks]
  obtain ⟨v, rfl⟩ := core_of_reaches h
  unfold State.breakpoint
  rw [coreAt_standing, coreAt_val, hi.ext_eq]
  rfl

/-- Where the place forbids the instruction, it raises the cause before it executes (R258, R263, R265). -/
theorem coreStep_misused (h : Reaches1 s c x len e) (hi : Framed i c len e body) (hf : Fetched i s c) {code : Nat}
    (hm : x.misuse (insnOf (bare i)) = some code) :
    s.coreStep c (bare i) body = (standing s c s.replay x).raise c (insnOf (bare i)) { code := code } := by
  rw [coreStep_judged h hi hf, State.judged]
  simp only [breakpoint_standing h hi, coreAt_standing, hm, Option.isSome_none, Bool.false_and, Bool.false_eq_true, if_false]

/-- Where the place allows it, it executes. -/
theorem coreStep_executes (h : Reaches1 s c x len e) (hi : Framed i c len e body) (hf : Fetched i s c)
    (hm : x.misuse (insnOf (bare i)) = none) :
    s.coreStep c (bare i) body = (standing s c s.replay x).execute c (insnOf (bare i)) x body := by
  rw [coreStep_judged h hi hf, State.judged]
  simp only [breakpoint_standing h hi, coreAt_standing, hm, Option.isSome_none, Bool.false_and, Bool.false_eq_true, if_false]

/-! ### Exceptions -/

/-- An exception that an instruction raises outside a delay slot is taken at its position (R324, R325). -/
theorem raise_standing (s : State) (c : Fin 4) (p : Vector Replay 4) {x : Core} (hslot : x.slot = none) (i : Insn)
    (y : Syndrome) :
    (standing s c p x).raise c i y =
      (standing s c p { x with replayed := none }).takeException c
        ⟨x.pc, x.pc + BitVec.ofNat 24 i.len, decide (y.code < 0x20), false, 0⟩ { y with lkbrk := x.lockLeft ≠ 0 } := by
  unfold State.raise Core.position
  simp only [coreAt_standing, modCore_standing, hslot]

/-- Taking an exception leaves what a parity replay goes back to. -/
theorem takeException_replay (s : State) (c : Nat) (p : Position) (y : Syndrome) :
    (s.takeException c p y).replay = s.replay :=
  (keeps_takeException c p y (fun _ h => h) (Keeps.refl s)).same .replay (by decide)

theorem raisesAt_of_raise (hslot : x.slot = none) (hi : Framed i c len e body) (y : Syndrome)
    (hraise : Fetched i s c → ∃ p, s.coreStep c (bare i) body = (standing s c p x).raise c (insnOf (bare i)) y) :
    RaisesAt i s c x len { y with lkbrk := x.lockLeft ≠ 0 } := by
  intro hf
  obtain ⟨p, hp⟩ := hraise hf
  refine ⟨_, hi.exec_eq s, ?_⟩
  rw [hp, raise_standing s c p hslot, hi.len_eq]
  beta_reduce
  rw [takeException_replay]
  rfl

/-- An instruction raises the cause of a place that forbids it (R258, R263, R265). -/
theorem raisesAt_of_misuse (h : Reaches1 s c x len e) (hslot : x.slot = none) (hi : Framed i c len e body) {code : Nat}
    (hm : x.misuse (insnOf (bare i)) = some code) : RaisesAt i s c x len { code := code, lkbrk := x.lockLeft ≠ 0 } :=
  raisesAt_of_raise hslot hi { code := code } fun hf => ⟨s.replay, coreStep_misused h hi hf hm⟩

/-- An instruction raises the cause that it finds as it executes, and changes nothing itself (R284). -/
theorem raisesAt_of_fault (h : Reaches1 s c x len e) (hslot : x.slot = none) (hi : Framed i c len e body) {y : Syndrome}
    (hm : x.misuse (insnOf (bare i)) = none)
    (hbody : ∀ p, body (standing s c p x) = ({ fault := some y }, standing s c p x)) :
    RaisesAt i s c x len { y with lkbrk := x.lockLeft ≠ 0 } := by
  refine raisesAt_of_raise hslot hi y fun hf => ?_
  obtain ⟨q, hq⟩ := stepBegins_standing s c s.replay h.first (x.stepStarts (x.shadowRead (insnOf (bare i))))
  refine ⟨q, (coreStep_executes h hi hf hm).trans ?_⟩
  simp only [State.execute, hq, hbody, Bool.false_eq_true, if_false]

/-! ### Execution -/

/-- An instruction that makes of its core `x` the core `y` retires (R262, R265). -/
theorem executes_of_body (h : Reaches1 s c x len e) (hslot : x.slot = none) (hi : Framed i c len e body)
    (hm : x.misuse (insnOf (bare i)) = none) {y z : Core} {next : BitVec 24} {j : Option (BitVec 24)}
    (hbody : ∀ p, body (standing s c p x) = ({ jump := j }, standing s c p y))
    (htest : y.loopTest (x.pc + BitVec.ofNat 24 len) = (next, z))
    (hdrain : x.lockLeft = 1 → y.store = []) (hout : y.out = x.out) (hstep : z.stepAt = x.stepAt) :
    Executes i s c fun t => t = State.modCore { s with replay := t.replay } c fun _ =>
      { retired x (lockCounted x.lockLeft z) len with pc := j.getD next } := by
  intro hf
  obtain ⟨q, hq⟩ := stepBegins_standing s c s.replay h.first (x.stepStarts (x.shadowRead (insnOf (bare i))))
  have hack : y.acknowledgeAll = y := acknowledgeAll_of_none (hout.trans (out_of_reaches h))
  refine ⟨standing s c q { retired x (lockCounted x.lockLeft z) len with pc := j.getD next }, ?_, rfl⟩
  rw [hi.exec_eq, coreStep_executes h hi hf hm]
  simp only [State.execute, hq, hbody, Bool.false_eq_true, if_false, lockDrains_standing s c q hdrain, hi.access_eq,
    Bool.false_and, modCore_standing, hack]
  rw [retire_standing s c q j hslot (hstep.trans h.step) (by rw [hi.len_eq]; exact htest), hi.len_eq]

/-! ### Bodies on one core -/

/-- The body of an instruction that changes only registers and flags, or raises a cause. -/
def opBody (c : Nat) (f : Core → Except Nat Core) (t : State) : Ran × State :=
  match f (t.coreAt c) with
  | .ok x => ({}, t.modCore c fun _ => x)
  | .error code => ({ fault := some { code := code } }, t)

theorem coreOp_eq (s : State) (c : Nat) (i : Instr) (f : Core → Except Nat Core) :
    s.coreOp c i f = s.coreStep c i (opBody c f) := rfl

theorem opBody_ok {f : Core → Except Nat Core} (s : State) (c : Fin 4) (p : Vector Replay 4) {x y : Core}
    (h : f x = .ok y) : opBody c f (standing s c p x) = ({}, standing s c p y) := by
  simp only [opBody, coreAt_standing, modCore_standing, h]

theorem opBody_error {f : Core → Except Nat Core} (s : State) (c : Fin 4) (p : Vector Replay 4) {x : Core} {code : Nat}
    (h : f x = .error code) :
    opBody c f (standing s c p x) = ({ fault := some { code := code } }, standing s c p x) := by
  simp only [opBody, coreAt_standing, h]

end

end Sys2Proof.Laws
end

section
/-! SUPPORT. Hardware loops: the test at the end of the innermost level, what LOOP comes to, and the instructions that no
loop end and no locked sequence may hold (R261–R263, R265, R294). -/

namespace Sys2Proof.Laws

open Sys2Proof Sys2Proof.Machine Sys2Proof.Safety

/-! ### The test at the end of a level (R262) -/

theorem loopTest_of_not_atLe {x : Core} (h : x.atLe = false) (seq : BitVec 24) : x.loopTest seq = (seq, x) := by
  unfold Core.loopTest
  rw [h]
  rfl

theorem loopTest_at {x : Core} {v : Fin 2} (hle : x.atLe = true) (hla : x.la = v.val + 1) (seq : BitVec 24) :
    x.loopTest seq =
      if 1 < x.lc[v].toNat then (x.ls[v].setWidth 24, { x with lc := x.lc.set v (x.lc[v] - 1) })
      else (seq, { x.setSt 7 6 v with lc := x.lc.set v 0 }) := by
  simp only [Core.loopTest, hle, if_true, hla, Nat.add_sub_cancel, Fin.ofNat_val_eq_self]

theorem atLe_at {x : Core} {v : Fin 2} (hla : x.la = v.val + 1) (hpc : x.le[v].setWidth 24 = x.pc) : x.atLe = true := by
  simp only [Core.atLe, Core.leOf, hla, Nat.add_sub_cancel, Fin.ofNat_val_eq_self, hpc]
  simp

/-! ### Places that allow an instruction, and places that do not -/

section
variable {x : Core} {i : Insn} (hslot : x.slot = none)
include hslot

/-- An instruction that no place excludes executes in sequence, but not at LE within a locked sequence (R265). -/
theorem misuse_plain (hi : i.special = false) (h : x.lockLeft = 0 ∨ x.atAnyLe = false) : x.misuse i = none := by
  obtain h | h := h
  · simp [Core.misuse, hslot, hi, h]
  · simp [Core.misuse, hslot, hi, h]

/-- No instruction is excluded that stands neither at LE nor in a locked sequence. -/
theorem misuse_none (hle : x.atLe = false) (hlock : x.lockLeft = 0) : x.misuse i = none := by
  simp [Core.misuse, hslot, hle, hlock]

theorem misuse_at_le (hi : i.special = true) (hle : x.atLe = true) : x.misuse i = some 0x0D := by
  simp [Core.misuse, hslot, hi, hle]

theorem misuse_in_lock (hi : i.special = true) (hle : x.atLe = false) (hlock : x.lockLeft ≠ 0) :
    x.misuse i = some 0x0E := by
  simp [Core.misuse, hslot, hi, hle, hlock]

end

/-! ### Instructions with nothing but themselves to say what follows -/

section
variable {s : State} {c : Fin 4} {x : Core} {len : Nat} {e : Bool} {i : Instr} {body : State → Ran × State}
  (h : Stands s c x len e) (hi : Framed i c len e body)
include h hi

theorem executes_of_stands {y : Core} {j : Option (BitVec 24)}
    (hbody : ∀ p, body (standing s c p x) = ({ jump := j }, standing s c p y)) (hle : y.atLe = false)
    (hout : y.out = x.out) (hstep : y.stepAt = x.stepAt) :
    Executes i s c fun t => t = State.modCore { s with replay := t.replay } c fun _ =>
      { retired x y len with pc := j.getD (x.pc + BitVec.ofNat 24 len) } := by
  have hm := misuse_none (i := insnOf (bare i)) h.slot (atLe_of_atAnyLe h.le le_rfl) h.lock
  have hrun := executes_of_body h.toReaches1 h.slot hi hm hbody (loopTest_of_not_atLe hle _)
    (fun hone => absurd (h.lock.symm.trans hone) (by decide)) hout hstep
  rw [h.lock, lockCounted_zero] at hrun
  exact hrun

theorem runs1_of_stands {y : Core} (hbody : ∀ p, body (standing s c p x) = ({}, standing s c p y))
    (hle : y.atLe = false) (hout : y.out = x.out := by rfl) (hstep : y.stepAt = x.stepAt := by rfl) :
    Runs1 i s c x len y :=
  executes_of_stands h hi (j := none) hbody hle hout hstep

theorem raises_of_stands {code : Nat}
    (hbody : ∀ p, body (standing s c p x) = ({ fault := some { code := code } }, standing s c p x)) :
    Raises i s c x len code := by
  have hm := misuse_none (i := insnOf (bare i)) h.slot (atLe_of_atAnyLe h.le le_rfl) h.lock
  have hraise := raisesAt_of_fault h.toReaches1 h.slot hi hm hbody
  rw [h.lock] at hraise
  exact hraise

end

/-! ### LOOP (R261, R263) -/

/-- The core with one more level, from `ls` to `le` and `n` times. -/
def opened (x : Core) (ls le : BitVec 24) (n : Word) : Core :=
  { x.setSt 7 6 (x.la + 1) with
    ls := x.ls.set (Fin.ofNat 2 x.la) (ls.setWidth 32), le := x.le.set (Fin.ofNat 2 x.la) (le.setWidth 32)
    lc := x.lc.set (Fin.ofNat 2 x.la) n }

/-- The body from `ls` to `le` lies strictly inside that of level 0 (R263). -/
abbrev Inside (x : Core) (ls le : BitVec 24) : Prop :=
  x.ls[(0 : Fin 2)].toNat < ls.toNat ∧ le.toNat < x.le[(0 : Fin 2)].toNat % 2 ^ 24

theorem inside_iff (x : Core) (ls le : BitVec 24) :
    (x.ls[(0 : Fin 2)].toNat < ls.toNat ∧ le.toNat < (x.leOf 0).toNat) ↔ Inside x ls le := by
  rw [Inside, Core.leOf, BitVec.toNat_setWidth]
  rfl

theorem opened_la {x : Core} (h : x.la < 2) (ls le : BitVec 24) (n : Word) : (opened x ls le n).la = x.la + 1 :=
  la_setSt x (by omega)

/-- A level has no end at the LOOP that opens it. -/
theorem opened_atLe {x : Core} {le : BitVec 24} (h : x.la < 2) (hle : le ≠ x.pc) (ls : BitVec 24) (n : Word) :
    (opened x ls le n).atLe = false := by
  have hend : (opened x ls le n).leOf x.la = le := by
    show ((x.le.set (Fin.ofNat 2 x.la) (le.setWidth 32))[Fin.ofNat 2 x.la]).setWidth 24 = le
    simp
  have hne : le ≠ (opened x ls le n).pc := hle
  simp [Core.atLe, opened_la h, hend, hne]

section
variable {s : State} {c : Fin 4} {p : Vector Replay 4} {x : Core} (len : Nat) {le : BitVec 24} {n : Word}

theorem bytes_standing (a k : Nat) : (standing s c p x).bytes a k = s.bytes a k := by
  induction k generalizing a with
  | zero => rfl
  | succ k ih =>
    rw [State.bytes, State.bytes, ih]
    rfl

/-- The length of an instruction is a matter of memory and of the core's buffers (R277, R299). -/
theorem insnLength_standing (h : x.lines = s.core[c].lines) (a : BitVec 24) :
    (standing s c p x).insnLength c a = s.insnLength c a := by
  have hbuf : ((standing s c p x).coreAt c).buffered a.toNat = (s.coreAt c).buffered a.toNat := by
    rw [coreAt_standing, coreAt_val, Core.buffered, Core.buffered, h]
  have hword : (standing s c p x).programWord c a.toNat = s.programWord c a.toNat := by
    simp only [State.programWord, hbuf, bytes_standing]
  rw [State.insnLength, State.insnLength, hword]

theorem loop_full (h : x.la = 2) :
    (standing s c p x).loop c len le n = ({ fault := some { code := 0x0D } }, standing s c p x) := by
  simp only [State.loop, coreAt_standing, if_pos h]

theorem loop_skips (h : x.la < 2) (hlines : x.lines = s.core[c].lines) :
    (standing s c p x).loop c len le 0 =
      ({ jump := some (le + BitVec.ofNat 24 (s.insnLength c le)) }, standing s c p x) := by
  simp only [State.loop, coreAt_standing, if_neg (show x.la ≠ 2 by omega), if_true, insnLength_standing hlines]

theorem loop_crosses (h : x.la = 1) (hn : n ≠ 0) (hout : ¬ Inside x (x.pc + BitVec.ofNat 24 len) le) :
    (standing s c p x).loop c len le n = ({ fault := some { code := 0x0D } }, standing s c p x) := by
  simp only [State.loop, coreAt_standing, if_neg (show x.la ≠ 2 by omega), if_neg hn, inside_iff,
    if_pos (show x.la = 1 ∧ ¬ Inside x (x.pc + BitVec.ofNat 24 len) le from ⟨h, hout⟩)]

theorem loop_opens (h : x.la < 2) (hn : n ≠ 0) (hin : x.la = 1 → Inside x (x.pc + BitVec.ofNat 24 len) le) :
    (standing s c p x).loop c len le n = ({}, standing s c p (opened x (x.pc + BitVec.ofNat 24 len) le n)) := by
  have hin' : ¬ (x.la = 1 ∧ ¬ Inside x (x.pc + BitVec.ofNat 24 len) le) := fun ⟨hone, hout⟩ => hout (hin hone)
  simp only [State.loop, coreAt_standing, if_neg (show x.la ≠ 2 by omega), if_neg hn, inside_iff, if_neg hin',
    modCore_standing]
  rfl

end

end Sys2Proof.Laws
end

section
/-! HARDWARE LOOPS AND LOCKED SEQUENCES (O31). -/

namespace Sys2Proof.Cores

open Sys2Proof Sys2Proof.Machine Sys2Proof.Safety Sys2Proof.Laws

section
variable {s : State} {c : Fin 4} {x : Core}

/-! ### LOOP -/

/-- What a LOOP comes to, whichever of its two forms it has (R261, R263). -/
theorem loop_answers {len : Nat} {e : Bool} {i : Instr} {body : State → Ran × State} {le : BitVec 24} {n : Word}
    (h : Stands s c x len e) (hi : Framed i c len e body) (hle : le ≠ x.pc)
    (hbody : ∀ p, body (standing s c p x) = (standing s c p x).loop c len le n) :
    let ls := x.pc + BitVec.ofNat 24 len
    (x.la = 2 → Raises i s c x len 0x0D) ∧
    (x.la < 2 → n = 0 → Executes i s c fun t => t = State.modCore { s with replay := t.replay } c fun _ =>
      { retired x x len with pc := le + BitVec.ofNat 24 (s.insnLength c le) }) ∧
    (x.la = 0 → n ≠ 0 → Runs1 i s c x len { x.setSt 7 6 1 with
      ls := #v[ls.setWidth 32, x.ls[(1 : Fin 2)]], le := #v[le.setWidth 32, x.le[(1 : Fin 2)]], lc := #v[n, x.lc[(1 : Fin 2)]] }) ∧
    (x.la = 1 → n ≠ 0 →
      (Inside x ls le → Runs1 i s c x len { x.setSt 7 6 2 with
        ls := #v[x.ls[(0 : Fin 2)], ls.setWidth 32], le := #v[x.le[(0 : Fin 2)], le.setWidth 32], lc := #v[x.lc[(0 : Fin 2)], n] }) ∧
      (¬ Inside x ls le → Raises i s c x len 0x0D)) := by
  have hlines := lines_of_reaches h.toReaches1
  have hopens (hla : x.la < 2) (hn : n ≠ 0) (hin : x.la = 1 → Inside x (x.pc + BitVec.ofNat 24 len) le) :
      Runs1 i s c x len (opened x (x.pc + BitVec.ofNat 24 len) le n) :=
    runs1_of_stands h hi (fun p => (hbody p).trans (loop_opens len hla hn hin)) (opened_atLe hla hle _ n)
  refine ⟨fun hla => ?_, fun hla hn => ?_, fun hla hn => ?_, fun hla hn => ⟨fun hin => ?_, fun hout => ?_⟩⟩
  · exact raises_of_stands h hi fun p => (hbody p).trans (loop_full len hla)
  · subst hn
    exact executes_of_stands h hi (fun p => (hbody p).trans (loop_skips len hla hlines)) (atLe_of_atAnyLe h.le le_rfl) rfl rfl
  · have hrun := hopens (by omega) hn (by omega)
    simp only [opened, hla] at hrun
    rw [← set_zero_two x.ls, ← set_zero_two x.le, ← set_zero_two x.lc]
    exact hrun
  · have hrun := hopens (by omega) hn fun _ => hin
    simp only [opened, hla] at hrun
    rw [← set_one_two x.ls, ← set_one_two x.le, ← set_one_two x.lc]
    exact hrun
  · exact raises_of_stands h hi fun p => (hbody p).trans (loop_crosses len hla hn hout)

/-- The end of a loop that a displacement can name is not the LOOP itself (R294). -/
theorem loop_end_ne {pc : BitVec 24} (e : Bool) {k : Nat} (hk : k < 4096) :
    pc + BitVec.ofNat 24 (1 + e.toNat + k) ≠ pc := by
  intro h
  have he := e.toNat_le
  have hpc := congrArg BitVec.toNat h
  simp only [BitVec.toNat_add, BitVec.toNat_ofNat] at hpc
  omega

/-- The end of a loop, as LOOP computes it and from the address of the LOOP. -/
theorem loop_end_eq (x : Core) (ext : Option (BitVec 12)) (k : Nat) :
    x.ownWord ext + 1 + BitVec.ofNat 24 k = x.pc + BitVec.ofNat 24 (1 + ext.isSome.toNat + k) := by
  rw [Core.ownWord, BitVec.ofNat_add, BitVec.ofNat_add]
  ac_rfl

theorem loopDisp_eq {ext : Option (BitVec 12)} (h : (ext.getD 0).toNat < 256) (disp : BitVec 4) :
    loopDisp ext disp = some (16 * (ext.getD 0).toNat + disp.toNat) := by
  cases ext with
  | none => simp [loopDisp]
  | some p => rw [loopDisp, if_pos (show p.toNat < 256 from h), Nat.mul_comm]; rfl

theorem loopDisp_none {ext : Option (BitVec 12)} (h : 256 ≤ (ext.getD 0).toNat) (disp : BitVec 4) :
    loopDisp ext disp = none := by
  cases ext with
  | none => cases h
  | some p => rw [loopDisp, if_neg (show ¬ p.toNat < 256 from Nat.not_lt.2 h)]

theorem loopImmDisp_eq (ext : Option (BitVec 12)) (disp : BitVec 4) :
    loopImmDisp ext disp = 16 * ((ext.getD 0).toNat % 256) + disp.toNat := by
  rw [loopImmDisp, Nat.mul_comm]
  rfl

theorem loopImmCount_eq (ext : Option (BitVec 12)) (count : BitVec 4) :
    loopImmCount ext count = 16 * ((ext.getD 0).toNat / 256) + count.toNat := by
  have h := (ext.getD 0).isLt
  simp only [loopImmCount, bitsOf, Nat.shiftRight_eq_div_pow]
  omega

section
variable (c) (n : Fin 16) (count disp : BitVec 4) (ext : Option (BitVec 12))

/-- What LOOP with its count in a register does. -/
def loopBody (t : State) : Ran × State :=
  let x := t.coreAt c
  match loopDisp ext disp with
  | some k => t.loop c (extLen ext) (x.ownWord ext + 1 + BitVec.ofNat 24 k) (x.get n)
  | none => ({ fault := some { code := 0x01 } }, t)

/-- What LOOP with its count in the instruction does. -/
def loopImmBody (t : State) : Ran × State :=
  t.loop c (extLen ext) ((t.coreAt c).ownWord ext + 1 + BitVec.ofNat 24 (loopImmDisp ext disp))
    (BitVec.ofNat 32 (loopImmCount ext count))

theorem framed_loop : Framed (.xLoop c n disp ext) c (1 + ext.isSome.toNat) ext.isSome (loopBody c n disp ext) :=
  ⟨fun _ => rfl, rfl, rfl, rfl⟩

theorem framed_loopImm :
    Framed (.xLoopImm c count disp ext) c (1 + ext.isSome.toNat) ext.isSome (loopImmBody c count disp ext) :=
  ⟨fun _ => rfl, rfl, rfl, rfl⟩

variable {ext} (p : Vector Replay 4)

theorem loopBody_eq (h : (ext.getD 0).toNat < 256) :
    loopBody c n disp ext (standing s c p x) = (standing s c p x).loop c (1 + ext.isSome.toNat)
      (x.pc + BitVec.ofNat 24 (1 + ext.isSome.toNat + (16 * (ext.getD 0).toNat + disp.toNat))) (x.get n) := by
  simp only [loopBody, loopDisp_eq h, coreAt_standing, loop_end_eq, extLen]

theorem loopBody_illegal (h : 256 ≤ (ext.getD 0).toNat) :
    loopBody c n disp ext (standing s c p x) = ({ fault := some { code := 0x01 } }, standing s c p x) := by
  simp only [loopBody, loopDisp_none h]

theorem loopImmBody_eq :
    loopImmBody c count disp ext (standing s c p x) = (standing s c p x).loop c (1 + ext.isSome.toNat)
      (x.pc + BitVec.ofNat 24 (1 + ext.isSome.toNat + (16 * ((ext.getD 0).toNat % 256) + disp.toNat)))
      (BitVec.ofNat 32 (16 * ((ext.getD 0).toNat / 256) + count.toNat)) := by
  simp only [loopImmBody, coreAt_standing, loop_end_eq, loopImmDisp_eq, loopImmCount_eq, extLen]

end

/-! ### LPOP and LOCK -/

theorem framed_lpop : Framed (.xLpop c) c 1 false
    (opBody c fun x => if x.la = 0 then .error 0x0D else .ok (x.setSt 7 6 (x.la - 1))) :=
  ⟨fun _ => rfl, rfl, rfl, rfl⟩

theorem framed_lock (k : Fin 8) : Framed (.xLock c k) c 1 false
    (opBody c fun x =>
      if k.val = 0 ∨ 4 < k.val then .error 0x01 else .ok { x.setSt 8 8 1 with lockLeft := k.val, lockUses := 0 }) :=
  ⟨fun _ => rfl, rfl, rfl, rfl⟩

/-- LPOP closes the innermost level; without one it is misuse (R262, R263). -/
theorem lpop_answers (h : Stands s c x 1 false) :
    (x.la = 0 → Raises (.xLpop c) s c x 1 0x0D) ∧
    (x.la = 1 ∨ x.la = 2 → Runs1 (.xLpop c) s c x 1 (x.setSt 7 6 (x.la - 1))) := by
  refine ⟨fun hla => ?_, fun hla => ?_⟩
  · exact raises_of_stands h framed_lpop fun p => opBody_error s c p (if_pos hla)
  · have hfew : (x.setSt 7 6 (x.la - 1)).la ≤ x.la := by
      rw [la_setSt x (by omega)]
      omega
    exact runs1_of_stands h framed_lpop (fun p => opBody_ok s c p (if_neg (by omega))) (atLe_of_atAnyLe h.le hfew)

/-- LOCK sets ST.LK and the count of its sequence, which is 1 to 4 (R265). -/
theorem lock_answers (h : Stands s c x 1 false) (k : Fin 8) :
    (1 ≤ k.val ∧ k.val ≤ 4 → Runs1 (.xLock c k) s c x 1 { x.setSt 8 8 1 with lockLeft := k.val, lockUses := 0 }) ∧
    (k.val = 0 ∨ 4 < k.val → Raises (.xLock c k) s c x 1 0x01) := by
  refine ⟨fun hk => ?_, fun hk => ?_⟩
  · exact runs1_of_stands h (framed_lock k) (fun p => opBody_ok s c p (if_neg (by omega)))
      (atLe_of_atAnyLe h.le (la_setLk x 1).le)
  · exact raises_of_stands h (framed_lock k) fun p => opBody_error s c p (if_pos hk)

/-! ### At the end of a level and in a locked sequence -/

theorem framed_mov (d n : Fin 16) : Framed (.xMov c d n) c 1 false (opBody c fun x => .ok (x.put d (x.get n))) :=
  ⟨fun _ => rfl, rfl, rfl, rfl⟩

/-- Instructions of one word that neither the end of a level nor a locked sequence may hold (R263, R265). -/
theorem framed_excluded (c : Fin 4) (n : Fin 16) :
    ∀ i ∈ [Instr.xJmp c n, .xRet c, .xTrap c 5, .xLpop c, .xLock c 2, .xSyncp c, .xBmov c n {} {}, .xLoopImm c 2 3 none],
      (insnOf (bare i)).special = true ∧ ∃ body, Framed i c 1 false body := by
  intro i hi
  simp only [List.mem_cons, List.not_mem_nil, or_false] at hi
  obtain rfl | rfl | rfl | rfl | rfl | rfl | rfl | rfl := hi
  all_goals exact ⟨rfl, _, fun _ => rfl, rfl, rfl, rfl⟩

section
variable (h : Reaches1 s c x 1 false) (hslot : x.slot = none) (d n : Fin 16)
include h hslot

/-- A MOV at the end of the innermost level (R262). -/
theorem mov_at_le (v : Fin 2) (hlock : x.lockLeft = 0) (hla : x.la = v.val + 1) (hpc : x.le[v].setWidth 24 = x.pc) :
    let y := x.put d (x.get n)
    (1 < x.lc[v].toNat → Executes (.xMov c d n) s c fun t => t = State.modCore { s with replay := t.replay } c fun _ =>
      { retired x { y with lc := x.lc.set v (x.lc[v] - 1) } 1 with pc := x.ls[v].setWidth 24 }) ∧
    (x.lc[v].toNat ≤ 1 → Runs1 (.xMov c d n) s c x 1 { y.setSt 7 6 v with lc := x.lc.set v 0 }) := by
  intro y
  have hm := misuse_plain (i := insnOf (.xMov c d n)) hslot rfl (.inl hlock)
  have hbody (p : Vector Replay 4) := opBody_ok (f := fun x => .ok (x.put d (x.get n))) s c p (x := x) rfl
  have htest := loopTest_at (x := y) (atLe_at hla hpc) hla (x.pc + BitVec.ofNat 24 1)
  have hdrain (hone : x.lockLeft = 1) : y.store = [] := absurd (hlock.symm.trans hone) (by decide)
  refine ⟨fun hlc => ?_, fun hlc => ?_⟩
  · rw [if_pos (show 1 < y.lc[v].toNat from hlc)] at htest
    have hrun := executes_of_body h hslot (framed_mov d n) hm hbody htest hdrain rfl rfl
    rw [hlock] at hrun
    exact hrun
  · rw [if_neg (show ¬ 1 < y.lc[v].toNat from Nat.not_lt.2 hlc)] at htest
    have hrun := executes_of_body h hslot (framed_mov d n) hm hbody htest hdrain rfl rfl
    rw [hlock] at hrun
    exact hrun

/-- A MOV of a locked sequence away from the end of a level (R265, R309). -/
theorem mov_in_lock (hle : x.atAnyLe = false) (hstore : x.store = []) :
    Runs1 (.xMov c d n) s c x 1 (lockCounted x.lockLeft (x.put d (x.get n))) := by
  have hm := misuse_plain (i := insnOf (.xMov c d n)) hslot rfl (.inr hle)
  exact executes_of_body h hslot (framed_mov d n) hm (j := none) (fun p => opBody_ok s c p rfl)
    (loopTest_of_not_atLe (atLe_of_atAnyLe (y := x.put d (x.get n)) hle le_rfl) _) (fun _ => hstore) rfl rfl

end

end

/-- Settles O31: each instruction by its body, the two forms of LOOP by the one lemma about both. -/
theorem coreLoops : Obligations.CoreLoops := by
  refine fun s c x d n count disp ext => ⟨fun h => ⟨fun hp => ?_, fun hp => ?_, ?_⟩, fun h => ?_, fun h hslot => ⟨?_, ?_⟩⟩
  · exact loop_answers h (framed_loop c n disp ext) (loop_end_ne _ (by omega))
      fun p => loopBody_eq c n disp p hp
  · exact raises_of_stands h (framed_loop c n disp ext) fun p => loopBody_illegal c n disp p hp
  · exact loop_answers h (framed_loopImm c count disp ext)
      (loop_end_ne _ (by omega)) fun p => loopImmBody_eq c count disp p
  · obtain ⟨hnone, hsome⟩ := lpop_answers h
    exact ⟨hnone, hsome, lock_answers h⟩
  · intro v hlock hla hpc
    obtain ⟨hback, hon⟩ := mov_at_le h hslot d n v hlock hla hpc
    refine ⟨hback, hon, fun i hi => ?_⟩
    obtain ⟨hspecial, body, hframed⟩ := framed_excluded c n i hi
    have hraise := raisesAt_of_misuse h hslot hframed (misuse_at_le hslot hspecial (atLe_at hla hpc))
    rw [hlock] at hraise
    exact hraise
  · intro hle hlock hstore
    have hrun := mov_in_lock h hslot d n hle hstore
    refine ⟨fun hmore => ?_, fun hone => ?_, fun i hi => ?_⟩
    · rwa [lockCounted, if_neg hlock, if_neg (by omega)] at hrun
    · rwa [lockCounted, if_neg hlock, if_pos hone] at hrun
    · obtain ⟨hspecial, body, hframed⟩ := framed_excluded c n i hi
      have hraise := raisesAt_of_misuse h hslot hframed
        (misuse_in_lock hslot hspecial (atLe_of_atAnyLe hle le_rfl) hlock)
      rwa [show decide (x.lockLeft ≠ 0) = true from decide_eq_true hlock] at hraise

end Sys2Proof.Cores
end

section
/-! SUPPORT. The flags of a core as one masked write to ST (R255, R285). -/

namespace Sys2Proof.Laws

open Sys2Proof Sys2Proof.Machine Sys2Proof.Safety

theorem flagged_zero (x : Core) (f : Word) : flagged x 0 f = x := by
  have hst : (x.st &&& ~~~(0 : Word)) ||| (f &&& 0) = x.st := by
    rw [show ~~~(0 : Word) = BitVec.allOnes 32 from rfl, BitVec.and_allOnes]
    exact (congrArg (x.st ||| ·) BitVec.and_zero).trans BitVec.or_zero
  rw [flagged, hst]

/-- A masked write, and then one bit more of the same word. -/
theorem setSt_flagged (x : Core) {m f m' : Word} {i : Nat} {b : Bool} (h : i < 32) (hb : f.getLsbD i = b)
    (hm : m ||| BitVec.twoPow 32 i = m') : (flagged x m f).setSt i i b.toNat = flagged x m' f := by
  have hst : BitVec.ofNat 32 (setBitsOf ((x.st &&& ~~~m) ||| (f &&& m)).toNat i i b.toNat) =
      (x.st &&& ~~~m') ||| (f &&& m') := by
    subst hm hb
    apply BitVec.eq_of_getLsbD_eq
    intro j hj
    rw [BitVec.getLsbD_ofNat, testBit_setBitsOf, BitVec.testBit_toNat]
    simp only [BitVec.getLsbD_or, BitVec.getLsbD_and, BitVec.getLsbD_not, BitVec.getLsbD_twoPow]
    by_cases hij : i = j
    · subst hij
      rw [if_pos (by omega), Nat.sub_self]
      cases f.getLsbD i
      · simp [h]
      · simp [h]
    · rw [if_neg (by omega)]
      simp [h, hj, hij]
  exact congrArg (fun st => { x with st := st }) hst

/-- The flags stand in ST at bits 0 to 3 (R255). -/
theorem nzcv_bits (r : Word) (c v : Bool) :
    (nzcv r c v).getLsbD 0 = v ∧ (nzcv r c v).getLsbD 1 = c ∧ (nzcv r c v).getLsbD 2 = (r == 0) ∧
      (nzcv r c v).getLsbD 3 = r.msb := by
  have hbits : ∀ n z c v : Bool, let w := BitVec.ofNat 32 (8 * n.toNat + 4 * z.toNat + 2 * c.toNat + v.toNat)
      w.getLsbD 0 = v ∧ w.getLsbD 1 = c ∧ w.getLsbD 2 = z ∧ w.getLsbD 3 = n := by decide
  exact hbits r.msb (decide (r = 0)) c v

section
variable (x : Core) (r : Word) (c v : Bool)

/-- N and Z of a result. -/
theorem setNZ_eq : x.setNZ r = flagged x 0xC (nzcv r c v) := by
  obtain ⟨-, -, hz, hn⟩ := nzcv_bits r c v
  have hN := setSt_flagged x (m := 0) (by decide) hn rfl
  rw [flagged_zero] at hN
  rw [Core.setNZ, Core.setN, hN]
  exact setSt_flagged x (by decide) hz (by decide)

/-- N and Z of a result, with C. -/
theorem setC_setNZ : (x.setNZ r).setC c = flagged x 0xE (nzcv r c v) := by
  obtain ⟨-, hc, -, -⟩ := nzcv_bits r c v
  rw [setNZ_eq x r c v]
  exact setSt_flagged x (by decide) hc (by decide)

/-- N and Z of a result, with V. -/
theorem setV_setNZ : (x.setNZ r).setV v = flagged x 0xD (nzcv r c v) := by
  obtain ⟨hv, -, -, -⟩ := nzcv_bits r c v
  rw [setNZ_eq x r c v]
  exact setSt_flagged x (by decide) hv (by decide)

/-- V, where it is only ever set. -/
theorem setV_true : x.setV true = flagged x 1 1 := by
  have hV := setSt_flagged x (m := 0) (f := 1) (i := 0) (b := true) (by decide) (by decide) rfl
  rw [flagged_zero] at hV
  exact hV

end

/-- A masked write outside ST.LA leaves the number of active levels. -/
theorem la_flagged (x : Core) {m : Word} (h : m &&& 0xC0 = 0) (f : Word) : (flagged x m f).la = x.la := by
  apply Nat.eq_of_testBit_eq
  intro i
  show (bitsOf ((x.st &&& ~~~m) ||| (f &&& m)).toNat 7 6).testBit i = (bitsOf x.st.toNat 7 6).testBit i
  rw [testBit_bitsOf, testBit_bitsOf]
  by_cases hi : i < 2
  · have hm : m.getLsbD (6 + i) = false := by
      have hbit := congrArg (BitVec.getLsbD · (6 + i)) h
      obtain rfl | rfl : i = 0 ∨ i = 1 := by omega
      · simpa using hbit
      · simpa using hbit
    simp only [BitVec.testBit_toNat, BitVec.getLsbD_or, BitVec.getLsbD_and, BitVec.getLsbD_not, hm]
    simp [show 6 + i < 32 by omega]
  · simp [hi]

section
variable {s : State} {c : Fin 4} {x : Core} {len : Nat} {e : Bool} {i : Instr} {f : Core → Except Nat Core}
  (h : Stands s c x len e) (hi : Framed i c len e (opBody c f))
include h hi

/-- An instruction that writes nothing but general registers and flags outside ST.LA retires in sequence. -/
theorem runs1_of_flagged {m v : Word} {regs : Vector Word 260} (hm : m &&& 0xC0 = 0)
    (hf : f x = .ok { flagged x m v with x := regs }) : Runs1 i s c x len { flagged x m v with x := regs } :=
  runs1_of_stands h hi (fun p => opBody_ok s c p hf) (atLe_of_atAnyLe h.le (la_flagged x hm v).le)

theorem raises_of_error {code : Nat} (hf : f x = .error code) : Raises i s c x len code :=
  raises_of_stands h hi fun p => opBody_error s c p hf

end

end Sys2Proof.Laws
end

section
/-! SHIFTS, MULTIPLY-ACCUMULATE AND DIVISION (O28). -/

namespace Sys2Proof.Cores

open Sys2Proof Sys2Proof.Machine Sys2Proof.Safety Sys2Proof.Laws

/-! ### Shifts (R290) -/

/-- The result of a shift in numbers: multiplication and division by a power of 2, rounded down. -/
def shiftValue : Shift → Word → Nat → Word
  | .left, a, k => BitVec.ofNat 32 (a.toNat * 2 ^ k)
  | .right, a, k => BitVec.ofNat 32 (a.toNat / 2 ^ k)
  | .arith, a, k => BitVec.ofInt 32 (a.toInt / 2 ^ k)

theorem result_eq_shiftValue (sh : Shift) (a : Word) (k : Nat) : sh.result a k = shiftValue sh a k := by
  cases sh with
  | left =>
    apply BitVec.eq_of_toNat_eq
    rw [Shift.result, shiftValue, BitVec.toNat_shiftLeft, Nat.shiftLeft_eq, BitVec.toNat_ofNat]
  | right => rw [Shift.result, shiftValue, ← Nat.shiftRight_eq_div_pow, ← BitVec.toNat_ushiftRight, BitVec.ofNat_toNat,
      BitVec.setWidth_eq]
  | arith => rw [Shift.result, shiftValue, BitVec.sshiftRight, Int.shiftRight_eq_div_pow, Nat.cast_pow, Nat.cast_ofNat]

/-- The core that the shift of `a` by `k` has made of `x`: for 0, C stays. -/
def shifted (x : Core) (sh : Shift) (d : Nat) (a : Word) (k : Nat) : Core :=
  (flagged x (if k = 0 then 0xC else 0xE) (nzcv (shiftValue sh a k) (sh.out a k) false)).put d (shiftValue sh a k)

theorem shift_eq_shifted (x : Core) (sh : Shift) (d : Fin 16) (a : Word) (k : Nat) :
    x.shift sh d a k = shifted x sh d a k := by
  simp only [Core.shift, shifted, result_eq_shiftValue]
  by_cases hk : k = 0
  · rw [if_pos hk, if_pos hk, setNZ_eq x _ (sh.out a k) false]
  · rw [if_neg hk, if_neg hk, setC_setNZ x _ _ false]

theorem shift_mask (k : Nat) : (if k = 0 then 0xC else 0xE : Word) &&& 0xC0 = 0 := by
  split
  · decide
  · decide

/-- What a shift by an immediate amount does. -/
def immShift (sh : Shift) (d : Fin 16) (f : BitVec 4) (ext : Option (BitVec 12)) (x : Core) : Except Nat Core :=
  match shiftAmount ext f with
  | some k => .ok (x.shift sh d (x.get d) k)
  | none => .error 0x01

theorem shiftAmount_eq {ext : Option (BitVec 12)} {f : BitVec 4} (h : 16 * (ext.getD 0).toNat + f.toNat < 32) :
    shiftAmount ext f = some (16 * (ext.getD 0).toNat + f.toNat) := by
  cases ext with
  | none => simp [shiftAmount]
  | some p => exact if_pos (by simp only [Option.getD_some] at h; omega)

theorem shiftAmount_none {ext : Option (BitVec 12)} {f : BitVec 4} (h : 32 ≤ 16 * (ext.getD 0).toNat + f.toNat) :
    shiftAmount ext f = none := by
  have hf := f.isLt
  cases ext with
  | none => change 32 ≤ 16 * 0 + f.toNat at h; omega
  | some p => exact if_neg (by simp only [Option.getD_some] at h; omega)

/-- The instructions that shift by a register. -/
def byRegister (c : Fin 4) (d n : Fin 16) : Shift → Instr
  | .left => .xShl c d n
  | .right => .xShr c d n
  | .arith => .xAsr c d n

/-- The instructions that shift by an immediate amount. -/
def byAmount (c : Fin 4) (d : Fin 16) (f : BitVec 4) (ext : Option (BitVec 12)) : Shift → Instr
  | .left => .xShli c d f ext
  | .right => .xShri c d f ext
  | .arith => .xAsri c d f ext

theorem framed_byRegister (c : Fin 4) (d n : Fin 16) (sh : Shift) : Framed (byRegister c d n sh) c 1 false
    (opBody c fun x => .ok (x.shift sh d (x.get d) (bitsOf (x.get n).toNat 7 0))) := by
  cases sh with
  | left | right | arith => exact ⟨fun _ => rfl, rfl, rfl, rfl⟩

theorem framed_byAmount (c : Fin 4) (d : Fin 16) (f : BitVec 4) (ext : Option (BitVec 12)) (sh : Shift) :
    Framed (byAmount c d f ext sh) c (1 + ext.isSome.toNat) ext.isSome (opBody c (immShift sh d f ext)) := by
  cases sh with
  | left | right | arith => exact ⟨fun _ => rfl, rfl, rfl, rfl⟩

section
variable {s : State} {c : Fin 4} {x : Core} {d n : Fin 16}

/-- A shift by a register is by the low byte of it. -/
theorem byRegister_runs (h : Stands s c x 1 false) (sh : Shift) :
    Runs1 (byRegister c d n sh) s c x 1 (shifted x sh d (x.get d) ((x.get n).toNat % 256)) :=
  runs1_of_flagged h (framed_byRegister c d n sh) (shift_mask _) (congrArg Except.ok (shift_eq_shifted x sh d _ _))

section
variable {f : BitVec 4} {ext : Option (BitVec 12)} (h : Stands s c x (1 + ext.isSome.toNat) ext.isSome) (sh : Shift)
include h

theorem byAmount_runs (hk : 16 * (ext.getD 0).toNat + f.toNat < 32) :
    Runs1 (byAmount c d f ext sh) s c x (1 + ext.isSome.toNat)
      (shifted x sh d (x.get d) (16 * (ext.getD 0).toNat + f.toNat)) := by
  have hop : immShift sh d f ext x = .ok (shifted x sh d (x.get d) (16 * (ext.getD 0).toNat + f.toNat)) := by
    simp only [immShift, shiftAmount_eq hk, shift_eq_shifted]
  exact runs1_of_flagged h (framed_byAmount c d f ext sh) (shift_mask _) hop

/-- An amount above 31 in the instruction is illegal (R281, R282). -/
theorem byAmount_illegal (hk : 32 ≤ 16 * (ext.getD 0).toNat + f.toNat) :
    Raises (byAmount c d f ext sh) s c x (1 + ext.isSome.toNat) 0x01 :=
  raises_of_error h (framed_byAmount c d f ext sh) (by rw [immShift, shiftAmount_none hk])

end

/-! ### Multiply-accumulate (R286, R291) -/

/-- The two groups of QMAC are the pairs at `d` and at `n`; that one does not exist or that they overlap is illegal. -/
theorem qmac_illegal_iff (d n : Fin 16) :
    (d.val % 2 = 1 ∨ n.val = 15 ∨ overlap d 2 n 2 = true) ↔
      d.val % 2 = 1 ∨ n.val = 15 ∨ (n.val ≤ d.val + 1 ∧ d.val ≤ n.val + 1) := by
  simp only [overlap, Bool.and_eq_true, decide_eq_true_eq]
  omega

/-- A number in a pair: its low word, and the rest as another word. -/
theorem putPair_ofSigned (x : Core) (d : Nat) (v : Int) :
    x.putPair d (ofSigned 64 v) = (x.put d (BitVec.ofInt 32 v)).put (d + 1) (BitVec.ofInt 32 (v / 2 ^ 32)) := by
  have hlow : BitVec.ofNat 32 (ofSigned 64 v) = BitVec.ofInt 32 v := by
    apply BitVec.eq_of_toNat_eq
    simp only [ofSigned, BitVec.toNat_ofNat, BitVec.toNat_ofInt]
    omega
  have hhigh : BitVec.ofNat 32 (ofSigned 64 v / 2 ^ 32) = BitVec.ofInt 32 (v / 2 ^ 32) := by
    apply BitVec.eq_of_toNat_eq
    simp only [ofSigned, BitVec.toNat_ofNat, BitVec.toNat_ofInt]
    omega
  rw [Core.putPair, hlow, hhigh]

/-- What QMAC does. -/
def qmac (d n : Fin 16) (x : Core) : Except Nat Core :=
  if d.val % 2 = 1 ∨ n.val = 15 ∨ overlap d 2 n 2 then .error 0x01
  else
    let (r, sat) := macStep (x.pair d) (x.get n) (x.get (n + 1))
    .ok ((if sat then x.setV true else x).putPair d (ofSigned 64 r))

theorem framed_qmac (c : Fin 4) (d n : Fin 16) : Framed (.xQmac c d n) c 1 false (opBody c (qmac d n)) :=
  ⟨fun _ => rfl, rfl, rfl, rfl⟩

/-- Only V is flagged, and only where the sum has been saturated. -/
theorem qmac_runs (h : Stands s c x 1 false) (hd : d.val % 2 = 0) (hn : n.val ≠ 15)
    (hapart : n.val + 1 < d.val ∨ d.val + 1 < n.val) :
    let sum := toSigned 64 (x.pair d) + (x.get n).toInt * (x.get (n + 1)).toInt
    let sat := clampInt (-(2 ^ 63)) (2 ^ 63 - 1) sum
    Runs1 (.xQmac c d n) s c x 1 (((if sat ≠ sum then flagged x 1 1 else x).put d (BitVec.ofInt 32 sat)).put (d + 1)
      (BitVec.ofInt 32 (sat / 2 ^ 32))) := by
  intro sum sat
  have hlegal : ¬ (d.val % 2 = 1 ∨ n.val = 15 ∨ overlap d 2 n 2 = true) := by
    rw [qmac_illegal_iff]
    omega
  have hrun : qmac d n x = .ok ((if (sat != sum) = true then x.setV true else x).putPair d (ofSigned 64 sat)) :=
    if_neg hlegal
  clear_value sat sum
  simp only [bne_iff_ne, putPair_ofSigned, setV_true] at hrun
  by_cases hsat : sat ≠ sum
  · rw [if_pos hsat] at hrun ⊢
    exact runs1_of_flagged h (framed_qmac c d n) (m := 1) (by decide) hrun
  · rw [if_neg hsat] at hrun ⊢
    exact runs1_of_stands h (framed_qmac c d n) (fun p => opBody_ok s c p hrun) (atLe_of_atAnyLe h.le le_rfl)

theorem qmac_raises (h : Stands s c x 1 false)
    (hbad : d.val % 2 = 1 ∨ n.val = 15 ∨ (n.val ≤ d.val + 1 ∧ d.val ≤ n.val + 1)) : Raises (.xQmac c d n) s c x 1 0x01 :=
  raises_of_error h (framed_qmac c d n) (by rw [qmac, if_pos ((qmac_illegal_iff d n).2 hbad)])

/-! ### Division (R291) -/

/-- What a division does that has the quotient `q`, the remainder `r` and the overflow `v` of its operands. -/
def divide (q r : Word → Word → Word) (v : Word → Word → Bool) (d n : Fin 16) (x : Core) : Except Nat Core :=
  let a := x.get d
  let b := x.get n
  if d.val = 15 then .error 0x01
  else if b = 0 then .error 0x0B
  else .ok ((((x.setNZ (q a b)).setV (v a b)).put d (q a b)).put (d.val + 1) (r a b))

theorem framed_divs (c : Fin 4) (d n : Fin 16) : Framed (.xDivs c d n) c 1 false
    (opBody c (divide (fun a b => BitVec.ofInt 32 (a.toInt.tdiv b.toInt)) (fun a b => BitVec.ofInt 32 (a.toInt.tmod b.toInt))
      (fun a b => a == 0x80000000 && b == 0xFFFFFFFF) d n)) :=
  ⟨fun _ => rfl, rfl, rfl, rfl⟩

theorem framed_divu (c : Fin 4) (d n : Fin 16) : Framed (.xDivu c d n) c 1 false
    (opBody c (divide (· / ·) (· % ·) (fun _ _ => false) d n)) :=
  ⟨fun _ => rfl, rfl, rfl, rfl⟩

section
variable {i : Instr} {q r : Word → Word → Word} {v : Word → Word → Bool} (h : Stands s c x 1 false)
  (hi : Framed i c 1 false (opBody c (divide q r v d n)))
include h hi

/-- Quotient and remainder come from the old values, also where the divisor is in one of the two registers. -/
theorem divide_runs (hd : d.val ≠ 15) (hb : x.get n ≠ 0) :
    let a := x.get d
    let b := x.get n
    Runs1 i s c x 1 (((flagged x 0xD (nzcv (q a b) false (v a b))).put d (q a b)).put (d + 1) (r a b)) :=
  runs1_of_flagged h hi (by decide) (by simp only [divide, if_neg hd, if_neg hb, setV_setNZ x _ false]; rfl)

theorem divide_raises : (d.val = 15 → Raises i s c x 1 0x01) ∧ (d.val ≠ 15 → x.get n = 0 → Raises i s c x 1 0x0B) :=
  ⟨fun hd => raises_of_error h hi (if_pos hd),
    fun hd hb => raises_of_error h hi (by simp only [divide, if_neg hd, if_pos hb])⟩

end

end

/-- Settles O28: the shifts by the lemma about each of their two forms, QMAC by its own, the divisions by the
one about both. -/
theorem coreShiftsAndDivision : Obligations.CoreShiftsAndDivision := by
  refine fun s c x d n f ext => ⟨fun h => ⟨?_, fun hd hn ho => ?_, fun hbad => ?_, fun hd hb => ⟨?_, ?_⟩, ?_⟩,
    fun h => ⟨fun hk => ?_, fun hk => ?_⟩⟩
  · exact List.forall_mem_cons.2 ⟨byRegister_runs h .left, List.forall_mem_cons.2 ⟨byRegister_runs h .right,
      List.forall_mem_singleton.2 (byRegister_runs h .arith)⟩⟩
  · exact qmac_runs h hd hn ho
  · exact qmac_raises h hbad
  · have hs := divide_runs h (framed_divs c d n) hd hb
    exact hs
  · have hu := divide_runs h (framed_divu c d n) hd hb
    simp only [BitVec.udiv_def, BitVec.umod_def] at hu
    exact hu
  · exact List.forall_mem_cons.2 ⟨divide_raises h (framed_divs c d n),
      List.forall_mem_singleton.2 (divide_raises h (framed_divu c d n))⟩
  · exact List.forall_mem_cons.2 ⟨byAmount_runs h .left hk, List.forall_mem_cons.2 ⟨byAmount_runs h .right hk,
      List.forall_mem_singleton.2 (byAmount_runs h .arith hk)⟩⟩
  · exact List.forall_mem_cons.2 ⟨byAmount_illegal h .left hk, List.forall_mem_cons.2 ⟨byAmount_illegal h .right hk,
      List.forall_mem_singleton.2 (byAmount_illegal h .arith hk)⟩⟩

end Sys2Proof.Cores
end

section
/-! SUPPORT. What an update of registers leaves as it is, and the line and the pending bit of one source of the crier
(R336, R337, R342–R344). -/

namespace Sys2Proof.Safety

open Sys2Proof Sys2Proof.Machine Sys2Proof.Laws

section
variable {s t : State} {w : Nat → Prop} (h : OnlyRegs s t w)
include h

theorem OnlyRegs.core : t.core = s.core := by rw [h.rest]

theorem OnlyRegs.crier : t.crier = s.crier := by rw [h.rest]

theorem OnlyRegs.mem : t.mem = s.mem := by rw [h.rest]

end

/-- The frame of a command that sets the crier's own record and then changes registers only. -/
theorem OnlyRegs.of_crier {s t : State} {c : Crier} {w : Nat → Prop} (h : OnlyRegs { s with crier := c } t w) :
    OnlyRegs { s with crier := t.crier } t w := by
  rw [h.crier]
  exact h

end Sys2Proof.Safety

namespace Sys2Proof.Laws

open Sys2Proof Sys2Proof.Machine Sys2Proof.Safety

/-! ### The mask commands -/

/-- PEND_CLR changes no core after its look at those that wait: the rest of it writes mask registers. -/
theorem criPendClr_core (s : State) (w mask : Nat) : (s.criPendClr w mask).core = s.wakeAll.core := by
  have frame : OnlyRegs s.wakeAll (s.criPendClr w mask) fun _ => True :=
    overMask_only w mask fun _ n _ _ h => levelPend_only n (h.setSrcBit n false trivial) trivial
  exact frame.core

/-! ### One source -/

/-- The LINE and PEND bits of source `n` have become `line` and `pend`, and no other source's PEND bit has changed. -/
structure SourceBecomes (s t : State) (n : Nat) (line pend : Bool) : Prop where
  line : t.srcBit CRI.LINE.BITS n = line
  pend : t.srcBit CRI.PEND.BITS n = pend
  others : ∀ m < 256, m ≠ n → t.srcBit CRI.PEND.BITS m = s.srcBit CRI.PEND.BITS m

/-- The register of source `n` in LINE or in PEND. -/
def LineOrPend (n a : Nat) : Prop :=
  At CRI.base (CRI.LINE.BITS.at (4 * (n / 32))) a ∨ At CRI.base (CRI.PEND.BITS.at (4 * (n / 32))) a

/-- A line that falls on the edge of the COMPLETE that made its source pend again, while no handler holds it (R344). -/
def fallsOnComplete (s : State) (n : Nat) (line : Bool) : Bool :=
  !line && s.crier.heldAt == s.now && s.crier.repended.contains n && !s.srcActive n

theorem setLine_eq {n : Nat} (hn : sourceExists n = true) (s : State) (v : Bool) :
    s.setLine n v = ((if fallsOnComplete s n v = true then s.setSrcBit CRI.PEND.BITS n false else s).setSrcBit
      CRI.LINE.BITS n v).levelPend n := if_pos hn

theorem sourceBecomes_refl (s : State) (n : Nat) :
    SourceBecomes s s n (s.srcBit CRI.LINE.BITS n) (s.srcBit CRI.PEND.BITS n) := ⟨rfl, rfl, fun _ _ _ => rfl⟩

section
variable {s t : State} {n : Nat} (hn : sourceExists n = true)
include hn

/-- A source pends where `b` says so. -/
theorem SourceBecomes.pendIf {line pend : Bool} (h : SourceBecomes s t n line pend) (b : Bool) :
    SourceBecomes s (if b then t.pend n else t) n line (pend || b) := by
  have hlt := sourceExists_lt hn
  cases b with
  | false => simpa using h
  | true =>
    refine ⟨?_, ?_, fun m hm hne => ?_⟩
    · exact (pend_srcBit_line t n n hlt hlt).trans h.line
    · simp [pend_srcBit, hn]
    · simp [pend_srcBit, hne, h.others m hm hne]

/-- A level source pends while its line is asserted and no handler holds it (R336). -/
theorem SourceBecomes.levelPend {line pend : Bool} (h : SourceBecomes s t n line pend) :
    SourceBecomes s (t.levelPend n) n line (pend || (line && !t.srcActive n)) := by
  unfold State.levelPend
  rw [h.line]
  exact h.pendIf hn _

theorem SourceBecomes.setLine {line pend : Bool} (h : SourceBecomes s t n line pend) (v : Bool) :
    SourceBecomes s (t.setLine n v) n v ((pend && !fallsOnComplete t n v) || (v && !t.srcActive n)) := by
  have hlt := sourceExists_lt hn
  have cleared : ∃ u, (if fallsOnComplete t n v = true then t.setSrcBit CRI.PEND.BITS n false else t) = u ∧
      u.srcActive n = t.srcActive n ∧ SourceBecomes s u n line (pend && !fallsOnComplete t n v) := by
    refine ⟨_, rfl, ?_⟩
    cases fallsOnComplete t n v with
    | false => exact ⟨rfl, by simpa using h⟩
    | true =>
      refine ⟨setSrcBit_pend_active t n n false hlt hlt, ?_, ?_, fun m hm hne => ?_⟩
      · exact (setSrcBit_pend_line t n n false hlt hlt).trans h.line
      · simp [setSrcBit_pend_pend]
      · simp [setSrcBit_pend_pend, hne, h.others m hm hne]
  obtain ⟨u, hu, active, clear⟩ := cleared
  rw [setLine_eq hn, hu, ← active]
  have lined : SourceBecomes s (u.setSrcBit CRI.LINE.BITS n v) n v (pend && !fallsOnComplete t n v) := by
    refine ⟨?_, ?_, fun m hm hne => ?_⟩
    · simp [setSrcBit_line_line]
    · exact (setSrcBit_line_pend u n n v hlt hlt).trans clear.pend
    · exact (setSrcBit_line_pend u n m v hlt hm).trans (clear.others m hm hne)
  have := lined.levelPend hn
  rwa [setSrcBit_line_active u n n v hlt hlt] at this

end

end Sys2Proof.Laws

namespace Sys2Proof.Safety

open Sys2Proof Sys2Proof.Machine Sys2Proof.Laws

theorem OnlyRegs.setLine {s t : State} {w : Nat → Prop} (h : OnlyRegs s t w) (n : Nat) (v : Bool)
    (hw : ∀ a, LineOrPend n a → w a) : OnlyRegs s (t.setLine n v) w := by
  have hline := hw _ (.inl rfl)
  have hpend := hw _ (.inr rfl)
  unfold State.setLine
  split
  · exact levelPend_only n (((h.setSrcBit n false hpend).ite h).setSrcBit n v hline) hpend
  · exact h

end Sys2Proof.Safety
end

section
/-! THE REGISTERS OF THE CRIER (O7). -/

namespace Sys2Proof.Interrupts

open Sys2Proof Sys2Proof.Machine Sys2Proof.Safety Sys2Proof.Laws

/-- The hall is up, source 1 is enabled, pending and routed to core 0 at level 1, and core 0, at level 0, has not yet left
the WAIT that this request ends (R295). -/
def requestedInWait : State :=
  (((({ State.reset with cellar := { State.reset.cellar with phase := .up } }.setB CRI.base CRI.CTRL.ENABLE true).setF
    CRI.base (CRI.ROUTE.LVL.at 4) 1).setSrcBit CRI.EN.EN 1 true).setSrcBit CRI.PEND.BITS 1 true).modCore 0
    fun x => { x with waiting := true }

theorem reaches_pendClr : Reaches requestedInWait (CRI.base + (CRI.PEND_CLR.W.at 0).off) := by
  unfold Reaches
  decide

theorem requestedInWait_waits : requestedInWait.core[0].waiting = true := by decide

/-- Source 1 is offered at a level above the core's, so that the look at the waiting cores ends the WAIT. -/
theorem wakeAll_ends_wait : requestedInWait.wakeAll.core[0].waiting = false := by decide

/-- Refutes O7: its frame lets PEND_CLR (and EN_CLR) change mask registers only, but before the command withdraws a request
the model takes every core out of WAIT whose WAIT that request has ended (R295). Core 0 of `requestedInWait` waits before
the PEND_CLR of source 1, and no longer after it. -/
theorem not_crierRegisters : ¬ Obligations.CrierRegisters := by
  unfold Obligations.CrierRegisters
  rintro ⟨masks, -, -⟩
  obtain ⟨-, pendClr, -, -⟩ := masks requestedInWait 0 0 2
  obtain ⟨t, ht, frame, -⟩ := pendClr reaches_pendClr
  have ht' : exec (.pendClr 0 0 2) requestedInWait = .next (requestedInWait.criPendClr 0 2) :=
    congrArg Host.Outcome.next (onCommand_of reaches_pendClr _)
  obtain rfl : requestedInWait.criPendClr 0 2 = t := Host.Outcome.next.inj (ht'.symm.trans ht)
  have same : requestedInWait.wakeAll.core = requestedInWait.core := (criPendClr_core _ _ _).symm.trans frame.core
  have waits := requestedInWait_waits
  rw [← same, wakeAll_ends_wait] at waits
  cases waits

end Sys2Proof.Interrupts
end

section
/-! HOW SOURCES PEND (O8). -/

namespace Sys2Proof.Interrupts

open Sys2Proof Sys2Proof.Machine Sys2Proof.Safety Sys2Proof.Laws

/-! ### Pulses and levels (R336) -/

/-- The hall once the pulse of source `n` has arrived at the crier, before it acts. -/
def arrived (s : State) (n : Nat) : State :=
  { s with crier := { s.crier with launched := s.crier.launched.erase n } }

theorem execPulseSource_launched {s : State} {n : Fin 256} (h : n.val ∈ s.crier.launched) :
    execPulseSource n s = .next (if s.cellar.phase == .up then (arrived s n).pend n else arrived s n) := by
  unfold execPulseSource
  rw [if_pos (List.contains_iff_mem.2 h)]
  rfl

theorem pulseSource_pends (s : State) (n : Fin 256) (h : n.val ∈ s.crier.launched) (hn : sourceExists n = true) :
    Answers (.pulseSource n) s fun t =>
      t.srcBit CRI.PEND.BITS n = (s.srcBit CRI.PEND.BITS n || s.cellar.phase == .up) ∧
      t.crier.launched = s.crier.launched.erase n.val ∧
      (∀ m < 256, m ≠ n.val → t.srcBit CRI.PEND.BITS m = s.srcBit CRI.PEND.BITS m) ∧
      OnlyRegs { s with crier := t.crier } t (At CRI.base (CRI.PEND.BITS.at (4 * (n / 32)))) := by
  refine ⟨_, execPulseSource_launched h, ?_⟩
  have source := (sourceBecomes_refl (arrived s n) n).pendIf hn (s.cellar.phase == .up)
  have frame := ((OnlyRegs.refl (arrived s n) (At CRI.base (CRI.PEND.BITS.at (4 * (n / 32))))).pend n rfl).ite
    (c := (s.cellar.phase == .up) = true) (OnlyRegs.refl (arrived s n) _)
  exact ⟨source.pend, congrArg Crier.launched frame.crier, source.others, frame.of_crier⟩

theorem arrive_cellar (s : State) : s.arrive.cellar = s.cellar :=
  (keeps_arrive (fun _ h => h) (Keeps.refl s)).same .cellar (by decide)

theorem levelSource_in_reset (s : State) (n : Fin 256) (h : s.cellar.phase ≠ .up) :
    Answers (.levelSource n) s (· = s.arrive) := by
  have down : s.arrive.islandUp .fabric = false := by
    show (s.arrive.cellar.phase == .up) = false
    simpa [arrive_cellar] using h
  refine ⟨_, rfl, ?_⟩
  simp [down]

theorem levelSource_pends (s : State) (n : Fin 256) (h : s.cellar.phase = .up) (hn : sourceExists n = true) :
    let u := s.arrive
    let line := if blockLevel n then u.lineOf n else u.srcBit CRI.LINE.BITS n
    Answers (.levelSource n) s fun t =>
      SourceBecomes u t n line ((u.srcBit CRI.PEND.BITS n && !(blockLevel n && fallsOnComplete u n line)) ||
        (line && !u.srcActive n)) ∧
      OnlyRegs u t (LineOrPend n) := by
  intro u line
  have up : u.islandUp .fabric = true := by
    show (u.cellar.phase == .up) = true
    simp [u, arrive_cellar, h]
  have start := sourceBecomes_refl u n
  have runs : exec (.levelSource n) s = .next (if blockLevel n then u.setLine n (u.lineOf n) else u.levelPend n) := by
    show Host.Outcome.next _ = _
    simp [u, up]
  refine ⟨_, runs, ?_⟩
  cases hb : blockLevel n with
  | false =>
    have hline : line = u.srcBit CRI.LINE.BITS n := by simp [line, hb]
    rw [hline]
    exact ⟨by simpa using start.levelPend hn, levelPend_only n (OnlyRegs.refl u _) (.inr rfl)⟩
  | true =>
    have hline : line = u.lineOf n := by simp [line, hb]
    rw [hline]
    exact ⟨by simpa using start.setLine hn _, OnlyRegs.setLine (OnlyRegs.refl u _) n _ fun _ h => h⟩

theorem comparator_line (s : State) (c : Fin 24) : blockLevel (49 + c) = true ∧ s.lineOf (49 + c) = s.cmpLine c := by
  have hc := c.isLt
  refine ⟨?_, ?_⟩
  · simp [blockLevel]; omega
  · rw [State.lineOf, if_neg (by omega), if_pos (by omega), Nat.add_sub_cancel_left]

theorem trip_group_line (s : State) (q : Fin 16) : blockLevel (73 + q) = true ∧
    s.lineOf (73 + q) = (s.bit TRP.base TRP.GRP_STATUS.ACTIVE q && s.bit TRP.base TRP.IRQ_EN.GRP q) := by
  have hq := q.isLt
  refine ⟨?_, ?_⟩
  · simp [blockLevel]; omega
  · rw [State.lineOf, if_neg (by omega), if_neg (by omega), if_pos (by omega), Nat.add_sub_cancel_left]

/-! ### Doorbells (R343) -/

/-- The first `k` doorbells that `value` names are rung. -/
def rung (value : Nat) (s : State) (k : Nat) : State :=
  (List.range k).foldl (fun t d => if value.testBit d then t.pend (179 + d) else t) s

theorem rung_succ (value : Nat) (s : State) (k : Nat) :
    rung value s (k + 1) = if value.testBit k then (rung value s k).pend (179 + k) else rung value s k := by
  simp [rung, List.range_succ]

theorem criDoorbell_eq (s : State) {value : Nat} (h : value < 256) : s.criDoorbell value = rung value s 8 :=
  if_neg (by omega)

theorem rung_pends (value : Nat) (s : State) (n : Nat) {k : Nat} (hk : k ≤ 8) :
    (rung value s k).srcBit CRI.PEND.BITS n =
      if 179 ≤ n ∧ n < 179 + k ∧ value.testBit (n - 179) = true then true else s.srcBit CRI.PEND.BITS n := by
  induction k with
  | zero => rw [if_neg (by omega)]; rfl
  | succ k ih =>
    have hex : sourceExists (179 + k) = true := by simp [sourceExists]; omega
    rw [rung_succ]
    by_cases e : n = 179 + k
    · have old : (rung value s k).srcBit CRI.PEND.BITS n = s.srcBit CRI.PEND.BITS n :=
        (ih (by omega)).trans (if_neg (by omega))
      have hsub : n - 179 = k := by omega
      cases hv : value.testBit k with
      | true => simp [pend_srcBit, hex, e, hv]
      | false => simp [old, hsub, hv]
    · have same : (179 ≤ n ∧ n < 179 + (k + 1) ∧ value.testBit (n - 179) = true) ↔
          (179 ≤ n ∧ n < 179 + k ∧ value.testBit (n - 179) = true) :=
        and_congr_right fun _ => and_congr_left fun _ => by omega
      simp only [same, ← ih (by omega)]
      split
      · simp [pend_srcBit, e]
      · rfl

theorem rung_only (value : Nat) (s : State) {k : Nat} (hk : k ≤ 8) :
    OnlyRegs s (rung value s k) (At CRI.base (CRI.PEND.BITS.at 20)) := by
  refine (OnlyRegs.refl s _).foldl _ fun u d hd hu => ?_
  have := List.mem_range.1 hd
  have hw : At CRI.base (CRI.PEND.BITS.at 20) (CRI.base + (CRI.PEND.BITS.off + 4 * ((179 + d) / 32))) := by
    rw [show (179 + d) / 32 = 5 by omega]; rfl
  exact (hu.pend _ hw).ite hu

/-! ### External lines (R342) -/

theorem lineOrPend_ext (i : Fin 8) : LineOrPend (101 + i) =
    fun a => At CRI.base (CRI.LINE.BITS.at 12) a ∨ At CRI.base (CRI.PEND.BITS.at 12) a := by
  unfold LineOrPend
  rw [show (101 + i.val) / 32 = 3 by omega]

theorem sourceExists_ext (i : Fin 8) : sourceExists (101 + i) = true := by
  simp [sourceExists]; omega

/-- The hall once EXT_CFG[i] holds `value` and its filter has been restarted. -/
def configured (s : State) (warranted : Bool) (i : Fin 8) (value : Nat) : State :=
  { State.setF { s with warranted := warranted } CRI.base (CRI.EXT_CFG.W.at (4 * i)) value with
    crier := { s.crier with
      extFresh := s.crier.extFresh ||| BitVec.ofNat 8 (2 ^ i.val), extFrom := s.crier.extFrom.set i s.now } }

/-- The line that MODE `m` makes of the level last passed. -/
def cfgLine (m : Nat) (level : Bool) : Bool := (m == 3 && level) || (m == 4 && !level)

/-- The line of source `n` as the write of MODE `m` leaves it, at the level last passed. -/
def cfgAction (m n : Nat) (level : Bool) (t : State) : State :=
  if m = 3 then t.setLine n level else if m = 4 then t.setLine n (!level) else t.setSrcBit CRI.LINE.BITS n false

theorem must_eq (s : State) (ok : Bool) : ∃ w, s.must ok = { s with warranted := w } := by
  cases ok
  · exact ⟨false, rfl⟩
  · exact ⟨s.warranted, rfl⟩

theorem criExtCfg_eq (s : State) (i : Fin 8) (value : Nat) : ∃ w, s.criExtCfg i value =
    cfgAction (bitsOf value 18 16) (101 + i) (s.crier.extLevel.getLsbD i) (configured s w i value) := by
  have hi : i.val % 8 = i.val := Nat.mod_eq_of_lt i.isLt
  have hfin : Fin.ofNat 8 i.val = i := Fin.ext hi
  unfold State.criExtCfg
  dsimp only
  generalize hu : s.must _ = u
  obtain ⟨w, rfl⟩ : ∃ w, u = { s with warranted := w } := hu ▸ must_eq s _
  simp only [hi, hfin]
  exact ⟨w, rfl⟩

theorem configured_srcBit (s : State) (w : Bool) (i : Fin 8) (value : Nat) {o : Nat} (ho : 0x60 ≤ o) (m : Nat) :
    (configured s w i value).srcBit ⟨o, 31, 0⟩ m = s.srcBit ⟨o, 31, 0⟩ m := by
  have := i.isLt
  unfold State.srcBit State.bit
  exact congrArg (Nat.testBit · (m % 32)) (getF_setF_reg { s with warranted := w } (by simp [Fld.at, CRI.EXT_CFG.W]; omega) value)

theorem cfgAction_source {t : State} {n : Nat} (hn : sourceExists n = true) (m : Nat) (level : Bool) :
    SourceBecomes t (cfgAction m n level t) n (cfgLine m level)
      ((t.srcBit CRI.PEND.BITS n && !((m == 3 || m == 4) && fallsOnComplete t n (cfgLine m level))) ||
        (cfgLine m level && !t.srcActive n)) := by
  have start := sourceBecomes_refl t n
  unfold cfgAction
  by_cases h3 : m = 3
  · subst h3
    simpa [cfgLine] using start.setLine hn level
  · by_cases h4 : m = 4
    · subst h4
      simpa [cfgLine] using start.setLine hn (!level)
    · have hlt := sourceExists_lt hn
      have none : cfgLine m level = false := by
        simp [cfgLine, beq_eq_false_iff_ne.2 h3, beq_eq_false_iff_ne.2 h4]
      rw [if_neg h3, if_neg h4]
      refine ⟨?_, ?_, fun k hk _ => setSrcBit_line_pend t n k false hlt hk⟩
      · simp [setSrcBit_line_line, none]
      · simp [setSrcBit_line_pend t n n false hlt hlt, none, beq_eq_false_iff_ne.2 h3, beq_eq_false_iff_ne.2 h4]

theorem cfgAction_only (t : State) (m n : Nat) (level : Bool) : OnlyRegs t (cfgAction m n level t) (LineOrPend n) := by
  have start := OnlyRegs.refl t (LineOrPend n)
  exact .ite (start.setLine n level fun _ h => h)
    (.ite (start.setLine n (!level) fun _ h => h) (start.setSrcBit n false (.inl rfl)))

theorem configured_rd_same (s : State) (w : Bool) (i : Fin 8) (value : Word) :
    (configured s w i value.toNat).rd (CRI.base + (CRI.EXT_CFG.W.at (4 * i)).off) = value := by
  have h := getF_setF_same { s with warranted := w } CRI.base (CRI.EXT_CFG.W.at (4 * i)) value.toNat (by decide : 31 < 32)
  rw [getF_word] at h
  exact BitVec.eq_of_toNat_eq (h.trans (Nat.mod_eq_of_lt value.isLt))

theorem configured_rd_other (s : State) (w : Bool) (i : Fin 8) (value : Nat) {a : Nat}
    (h : ¬ At CRI.base (CRI.EXT_CFG.W.at (4 * i)) a) : (configured s w i value).rd a = s.rd a :=
  rd_setF_other { s with warranted := w } h value

theorem configured_extFresh (s : State) (w : Bool) (i : Fin 8) (value : Nat) :
    (configured s w i value).crier.extFresh.getLsbD i = true := by
  show (s.crier.extFresh ||| BitVec.ofNat 8 (2 ^ i.val)).getLsbD i = true
  rw [BitVec.getLsbD_or, BitVec.getLsbD_ofNat, Nat.testBit_two_pow_self]
  simp

theorem configured_extFrom (s : State) (w : Bool) (i : Fin 8) (value : Nat) :
    (configured s w i value).crier.extFrom[i] = s.now := by
  simp [configured]

theorem extCfg_restarts (s : State) (init : Fin 16) (i : Fin 8) (value : Word)
    (h : Reaches s (CRI.base + (CRI.EXT_CFG.W.at (4 * i)).off)) :
    Answers (.extCfg init i value) s fun t =>
      let m := bitsOf value.toNat 18 16
      let line := cfgLine m (s.crier.extLevel.getLsbD i)
      let n := 101 + i.val
      t.rd (CRI.base + (CRI.EXT_CFG.W.at (4 * i)).off) = value ∧ t.crier.extFresh.getLsbD i = true ∧
      t.crier.extLevel = s.crier.extLevel ∧ t.crier.extFrom[i] = s.now ∧
      SourceBecomes s t n line ((s.srcBit CRI.PEND.BITS n && !((m == 3 || m == 4) && fallsOnComplete s n line)) ||
        (line && !s.srcActive n)) ∧
      RegsBut s t (fun a => At CRI.base (CRI.EXT_CFG.W.at (4 * i)) a ∨ LineOrPend n a) ∧ SameMem s t := by
  obtain ⟨w, hw⟩ := criExtCfg_eq s i value.toNat
  have runs : exec (.extCfg init i value) s = .next (s.criExtCfg i value.toNat) :=
    congrArg Host.Outcome.next (onCommand_of h _)
  refine ⟨_, runs.trans (congrArg _ hw), ?_⟩
  beta_reduce
  intro m line n
  have bits (o : Nat) (ho : 0x60 ≤ o) := configured_srcBit s w i value.toNat ho
  have frame := cfgAction_only (configured s w i value.toNat) m n (s.crier.extLevel.getLsbD i)
  have source := cfgAction_source (t := configured s w i value.toNat) (sourceExists_ext i) m (s.crier.extLevel.getLsbD i)
  have pend : (configured s w i value.toNat).srcBit CRI.PEND.BITS n = s.srcBit CRI.PEND.BITS n := bits _ (by decide) n
  have active : (configured s w i value.toNat).srcActive n = s.srcActive n := bits _ (by decide) n
  have falls (v : Bool) : fallsOnComplete (configured s w i value.toNat) n v = fallsOnComplete s n v :=
    congrArg (fun a => !v && s.crier.heldAt == s.now && s.crier.repended.contains n && !a) active
  have hext : ¬ LineOrPend n (CRI.base + (CRI.EXT_CFG.W.at (4 * i)).off) := by
    have := i.isLt
    rw [lineOrPend_ext]
    simp only [At, Fld.at, CRI.EXT_CFG.W, CRI.LINE.BITS, CRI.PEND.BITS]
    omega
  refine ⟨(frame.regs _ hext).trans (configured_rd_same s w i value), ?_, ?_, ?_, ⟨source.line, ?_, fun k hk hne => ?_⟩,
    fun a ha => ?_, fun a => ?_⟩
  · rw [frame.crier, configured_extFresh]
  · rw [frame.crier]; rfl
  · rw [frame.crier, configured_extFrom]
  · rw [source.pend, falls, active, pend]
  · exact (source.others k hk hne).trans (bits _ (by decide) k)
  · obtain ⟨hcfg, hsrc⟩ := not_or.1 ha
    exact (frame.regs a hsrc).trans (configured_rd_other s w i value.toNat hcfg)
  · exact byte_congr frame.mem a

/-- The crier once the filter of EXTINTi has passed `level`. -/
def passed (s : State) (i : Fin 8) (level : Bool) : State :=
  { s with crier := { s.crier with
    extLevel := BitVec.ofNat 8 (withBit s.crier.extLevel.toNat i level)
    extFresh := BitVec.ofNat 8 (withBit s.crier.extFresh.toNat i false) } }

/-- What a level that the filter passes, at an edge or not, does to source `n` in MODE `m`. -/
def passAction (m n : Nat) (edge level : Bool) (t : State) : State :=
  if m = 3 then t.setLine n level
  else if m = 4 then t.setLine n (!level)
  else if m = 0 then (if edge && level then t.pend n else t)
  else if m = 1 then (if edge && !level then t.pend n else t)
  else if m = 2 then (if edge then t.pend n else t)
  else t

/-- Does a level that the filter passes pend its source in MODE `m`? -/
def passPends (m : Nat) (edge level active : Bool) : Bool :=
  match m with
  | 0 => edge && level
  | 1 => edge && !level
  | 2 => edge
  | 3 => level && !active
  | 4 => !level && !active
  | _ => false

theorem criExtPass_eq (s : State) (i : Fin 8) (level : Bool) : s.criExtPass i level =
    passAction (s.getF CRI.base (CRI.EXT_CFG.MODE.at (4 * i))) (101 + i)
      (!s.crier.extFresh.getLsbD i && s.crier.extLevel.getLsbD i != level) level (passed s i level) := rfl

theorem passAction_source {t : State} {n : Nat} (hn : sourceExists n = true) (edge level : Bool) (m : Nat) :
    SourceBecomes t (passAction m n edge level t) n
      (if m = 3 then level else if m = 4 then !level else t.srcBit CRI.LINE.BITS n)
      ((t.srcBit CRI.PEND.BITS n &&
          !((m == 3 && fallsOnComplete t n level) || (m == 4 && fallsOnComplete t n (!level)))) ||
        passPends m edge level (t.srcActive n)) := by
  have start := sourceBecomes_refl t n
  match m with
  | 0 => simpa [passAction, passPends] using start.pendIf hn (edge && level)
  | 1 => simpa [passAction, passPends] using start.pendIf hn (edge && !level)
  | 2 => simpa [passAction, passPends] using start.pendIf hn edge
  | 3 => simpa [passAction, passPends] using start.setLine hn level
  | 4 => simpa [passAction, passPends] using start.setLine hn (!level)
  | m + 5 => simpa [passAction, passPends] using start

theorem passAction_only (t : State) (m n : Nat) (edge level : Bool) :
    OnlyRegs t (passAction m n edge level t) (LineOrPend n) := by
  have start := OnlyRegs.refl t (LineOrPend n)
  have pend := start.pend n (.inr rfl)
  exact .ite (start.setLine n level fun _ h => h) (.ite (start.setLine n (!level) fun _ h => h)
    (.ite (pend.ite start) (.ite (pend.ite start) (.ite (pend.ite start) start))))

theorem getLsbD_withBit (b : BitVec 8) (i : Fin 8) (v : Bool) : (BitVec.ofNat 8 (withBit b.toNat i v)).getLsbD i = v := by
  rw [BitVec.getLsbD_ofNat, withBit_testBit, if_pos rfl, decide_eq_true i.isLt, Bool.true_and]

theorem extintEdge_passes (s : State) (i : Fin 8) (x : BallLevel)
    (hpass : s.passes x (ac * 2 ^ s.getF CRI.base (CRI.EXT_CFG.PRE.at (4 * i)))
      (s.getF CRI.base (CRI.EXT_CFG.FILT.at (4 * i))) s.crier.extFrom[i] = true) (hup : s.cellar.phase = .up) :
    Answers (.extintEdge i x) s fun t =>
      let m := s.getF CRI.base (CRI.EXT_CFG.MODE.at (4 * i))
      let n := 101 + i.val
      t.crier.extLevel.getLsbD i = x.level ∧ t.crier.extFresh.getLsbD i = false ∧
      SourceBecomes s t n (if m = 3 then x.level else if m = 4 then !x.level else s.srcBit CRI.LINE.BITS n)
        ((s.srcBit CRI.PEND.BITS n &&
            !((m == 3 && fallsOnComplete s n x.level) || (m == 4 && fallsOnComplete s n (!x.level)))) ||
          passPends m (!s.crier.extFresh.getLsbD i && s.crier.extLevel.getLsbD i != x.level) x.level (s.srcActive n)) ∧
      OnlyRegs { s with crier := t.crier } t (LineOrPend n) := by
  have runs : exec (.extintEdge i x) s = .next (s.criExtPass i x.level) := by
    show Host.Outcome.next _ = _
    have up : s.islandUp .fabric = true := beq_iff_eq.2 hup
    exact congrArg _ (if_pos ((Bool.and_eq_true _ _).symm ▸ ⟨up, hpass⟩))
  refine ⟨_, runs, ?_⟩
  beta_reduce
  intro m n
  rw [criExtPass_eq]
  have source := passAction_source (t := passed s i x.level) (sourceExists_ext i)
    (!s.crier.extFresh.getLsbD i && s.crier.extLevel.getLsbD i != x.level) x.level m
  have frame := passAction_only (passed s i x.level) m n
    (!s.crier.extFresh.getLsbD i && s.crier.extLevel.getLsbD i != x.level) x.level
  refine ⟨?_, ?_, ⟨source.line, source.pend, source.others⟩, frame.of_crier⟩
  · rw [frame.crier]; exact getLsbD_withBit _ i _
  · rw [frame.crier]; exact getLsbD_withBit _ i _

theorem extintEdge_idle (s : State) (i : Fin 8) (x : BallLevel)
    (h : s.cellar.phase ≠ .up ∨ s.passes x (ac * 2 ^ s.getF CRI.base (CRI.EXT_CFG.PRE.at (4 * i)))
      (s.getF CRI.base (CRI.EXT_CFG.FILT.at (4 * i))) s.crier.extFrom[i] = false) :
    Answers (.extintEdge i x) s (· = s) := by
  have runs : exec (.extintEdge i x) s = .next s := by
    show Host.Outcome.next _ = _
    refine congrArg _ (if_neg fun hc => ?_)
    obtain ⟨up, hpass⟩ := (Bool.and_eq_true _ _).mp hc
    exact h.elim (fun down => down (beq_iff_eq.1 up)) fun fails => Bool.false_ne_true (fails.symm.trans hpass)
  exact ⟨_, runs, rfl⟩

/-- Settles O8: pulses and levels, doorbells and external lines each by the lemma about their command; the last three
speak of what LINE and PEND become for one source, by the lemmas about a line's change and a pending bit's setting. -/
theorem crierSources : Obligations.CrierSources := by
  unfold Obligations.CrierSources
  intro falls
  refine ⟨pulseSource_pends, levelSource_in_reset, fun s n hup hn => ?_, comparator_line, trip_group_line,
    fun s init value h hv => ?_, fun s init i value h => ?_, fun s i x => ⟨extintEdge_idle s i x, fun hup hpass => ?_⟩⟩
  · obtain ⟨t, ht, source, frame⟩ := levelSource_pends s n hup hn
    exact ⟨t, ht, source.line, source.pend, source.others, frame⟩
  · have runs : exec (.doorbell init value) s = .next (rung value.toNat s 8) :=
      congrArg Host.Outcome.next ((onCommand_of h _).trans (criDoorbell_eq s hv))
    exact ⟨_, runs, fun n => rung_pends value.toNat s n (le_refl 8), rung_only value.toNat s (le_refl 8)⟩
  · obtain ⟨t, ht, hrd, hfresh, hlevel, hfrom, source, regs, mem⟩ := extCfg_restarts s init i value h
    rw [lineOrPend_ext] at regs
    exact ⟨t, ht, hrd, hfresh, hlevel, hfrom, source.line, source.pend, source.others, regs, mem⟩
  · obtain ⟨t, ht, hlevel, hfresh, source, frame⟩ := extintEdge_passes s i x hpass hup
    rw [lineOrPend_ext] at frame
    exact ⟨t, ht, hlevel, hfresh, source.line, source.pend, source.others, frame⟩

end Sys2Proof.Interrupts
end

section
/-! SUPPORT. The records of an I²C controller and of a decoder, the fields of one block beside the one written, and two
facts about words (R525, R532, R533). -/

namespace Sys2Proof.Laws

open Sys2Proof Sys2Proof.Machine Sys2Proof.Safety

variable (s : State)

/-! ### The records -/

@[simp] theorem modIic_iic_self (i : Fin 2) (f : Iic → Iic) : (s.modIic i f).iic[i] = f s.iic[i] := by
  simp [State.modIic]

theorem modIic_iic_other {i j : Fin 2} (h : j ≠ i) (f : Iic → Iic) : (s.modIic i f).iic[j] = s.iic[j] := by
  have hval : i.val ≠ j.val := fun e => h (Fin.ext e.symm)
  simp [State.modIic, Vector.getElem_set_ne, hval]

@[simp] theorem modQep_qep_self (d : Fin 4) (f : Qep → Qep) : (s.modQep d f).qep[d] = f s.qep[d] := by
  simp [State.modQep]

theorem modQep_qep_other {d j : Fin 4} (h : j ≠ d) (f : Qep → Qep) : (s.modQep d f).qep[j] = s.qep[j] := by
  have hval : d.val ≠ j.val := fun e => h (Fin.ext e.symm)
  simp [State.modQep, Vector.getElem_set_ne, hval]

/-! ### Fields of one block -/

section
variable {b : Nat} {f g : Fld} (h : g.off ≠ f.off ∨ g.hi < f.lo ∨ f.hi < g.lo) (hf : f.hi < 32)
include h hf

theorem getF_setF_base (v : Nat) : (s.setF b f v).getF b g = s.getF b g :=
  getF_setF_other s (h.imp_left fun ne e => ne (Nat.add_left_cancel e)) v hf

theorem getB_setF_base (v : Nat) : (s.setF b f v).getB b g = s.getB b g := by
  unfold State.getB; rw [getF_setF_base s h hf]

theorem getF_setB_base (v : Bool) : (s.setB b f v).getF b g = s.getF b g := getF_setF_base s h hf _

theorem getB_setB_base (v : Bool) : (s.setB b f v).getB b g = s.getB b g := getB_setF_base s h hf _

end

theorem getB_congr {s t : State} (h : t.regs = s.regs) (b : Nat) (f : Fld) : t.getB b f = s.getB b f := by
  unfold State.getB; rw [getF_congr h]

/-- A register that one field fills holds the number put there. -/
theorem rd_setF_word (b : Nat) (f : Fld) (v : Word) (hf : f.hi = 31 ∧ f.lo = 0 := by exact ⟨rfl, rfl⟩) :
    (s.setF b f v.toNat).rd (b + f.off) = v := by
  obtain ⟨hi, lo⟩ := hf
  have h := getF_setF_same s b f v.toNat (by omega)
  rw [getF_word _ ⟨hi, lo⟩, hi, lo] at h
  exact BitVec.eq_of_toNat_eq (h.trans (Nat.mod_eq_of_lt v.isLt))

/-! ### Words -/

theorem ofInt_toNat_add (p : Word) (n : Int) : BitVec.ofInt 32 (p.toNat + n) = BitVec.ofInt 32 (p.toInt + n) := by
  rw [BitVec.ofInt_add, BitVec.ofInt_add, BitVec.ofInt_toInt, BitVec.ofInt_natCast, BitVec.ofNat_toNat,
    BitVec.setWidth_eq]

/-- Taking off the bits that two words share clears them. -/
theorem sub_and_eq (x w : Word) : BitVec.ofNat 32 (x.toNat - (x.toNat &&& w.toNat)) = x &&& ~~~w := by
  have le : x.toNat &&& w.toNat ≤ x.toNat := Nat.and_le_left
  have parts : (x &&& w) + (x &&& ~~~w) = x := by
    have apart : (x &&& w) &&& (x &&& ~~~w) = 0#32 := by
      ext i hi
      cases hx : x[i] <;> cases hw : w[i] <;> simp [hx, hw]
    rw [BitVec.add_eq_or_of_and_eq_zero _ _ apart]
    ext i hi
    cases hx : x[i] <;> cases hw : w[i] <;> simp [hx, hw]
  have sum := congrArg BitVec.toNat parts
  have lt := x.isLt
  apply BitVec.eq_of_toNat_eq
  rw [BitVec.toNat_ofNat]
  rw [BitVec.toNat_add, BitVec.toNat_and] at sum
  have small : (x &&& ~~~w).toNat ≤ x.toNat := by rw [BitVec.toNat_and]; exact Nat.and_le_left
  omega

end Sys2Proof.Laws

namespace Sys2Proof.Safety

open Sys2Proof Sys2Proof.Machine

theorem OnlyRegs.trans {s t u : State} {w : Nat → Prop} (h : OnlyRegs s t w) (k : OnlyRegs t u w) : OnlyRegs s u w := by
  refine ⟨?_, fun a ha => (k.regs a ha).trans (h.regs a ha)⟩
  rw [k.rest, h.rest]

end Sys2Proof.Safety
end

section
/-! I²C CONTROLLERS, DECODERS AND GPIO LINES (O59). -/

namespace Sys2Proof.Peripherals

open Sys2Proof Sys2Proof.Machine Sys2Proof.Safety Sys2Proof.Laws

/-! ### I²C: the queue and the received bytes (R532, R539) -/

theorem xfer_queued (s : State) (init : Fin 16) (i : Fin 2) (w : Word)
    (h : Reaches s (IIC.base i + IIC.XFER.DATA.off)) (hroom : s.iic[i].queue.length < 16) :
    Answers (.xfer init i w) s fun t =>
      t.iic[i] = { s.iic[i] with queue := s.iic[i].queue ++ [w &&& 0xFFF] } ∧
      t.getF (IIC.base i) IIC.STATUS.XFER_LVL = s.iic[i].queue.length + 1 ∧
      ∀ j : Fin 2, j ≠ i → t.iic[j] = s.iic[j] := by
  let u := s.modIic i fun x => { x with queue := x.queue ++ [w &&& 0xFFF] }
  have runs : exec (.xfer init i w) s = .next (u.iicStatus i) :=
    congrArg Host.Outcome.next ((onCommand_of h _).trans (if_pos hroom))
  have queued : u.iic[i] = { s.iic[i] with queue := s.iic[i].queue ++ [w &&& 0xFFF] } := modIic_iic_self s i _
  have others : ∀ j : Fin 2, j ≠ i → u.iic[j] = s.iic[j] := fun j hj => modIic_iic_other s hj _
  refine ⟨_, runs, queued, ?_, others⟩
  have level := getF_setF_same u (IIC.base i) IIC.STATUS.XFER_LVL u.iic[i].queue.length
  refine level.trans ?_
  rw [queued, List.length_append]
  exact Nat.mod_eq_of_lt (show s.iic[i].queue.length + 1 < 2 ^ 5 by omega)

theorem xfer_dropped (s : State) (init : Fin 16) (i : Fin 2) (w : Word)
    (h : Reaches s (IIC.base i + IIC.XFER.DATA.off)) (hfull : 16 ≤ s.iic[i].queue.length) :
    Answers (.xfer init i w) s (· = s) :=
  ⟨_, congrArg Host.Outcome.next ((onCommand_of h _).trans (if_neg (Nat.not_lt.2 hfull))), rfl⟩

theorem iicOperation_idle (s : State) (i : Fin 2) (r : IicResult)
    (h : s.iic[i].queue = [] ∨ s.getB (IIC.base i) IIC.CTRL.ENABLE = false ∨
      s.getB (IIC.base i) IIC.STATUS.HALTED = true) :
    Answers (.iicOperation i r) s (· = s) := by
  have idle : exec (.iicOperation i r) s = .next s := by
    show execIicOperation i r s = _
    unfold execIicOperation
    refine congrArg Host.Outcome.next ?_
    split
    next => rfl
    next v rest hq =>
      refine if_neg ?_
      rcases h with empty | off | halted
      · rw [hq] at empty; cases empty
      · simp [off]
      · simp [halted]
  exact ⟨_, idle, rfl⟩

/-- The hall once the operation `v`, the oldest of the queue of controller `i`, has completed and `rest` remains. -/
def dequeued (s : State) (i : Fin 2) (v : Word) (rest : List Word) : State :=
  (s.modIic i fun x => { x with queue := rest, last := some v }).iicStatus i

theorem dequeued_iic (s : State) (i : Fin 2) (v : Word) (rest : List Word) :
    (dequeued s i v rest).iic[i] = { s.iic[i] with queue := rest, last := some v } :=
  modIic_iic_self s i fun x => { x with queue := rest, last := some v }

theorem dequeued_iic_other (s : State) {i j : Fin 2} (h : j ≠ i) (v : Word) (rest : List Word) :
    (dequeued s i v rest).iic[j] = s.iic[j] :=
  modIic_iic_other s h fun x => { x with queue := rest, last := some v }

theorem dequeued_halted (s : State) (i : Fin 2) (v : Word) (rest : List Word) :
    (dequeued s i v rest).getB (IIC.base i) IIC.STATUS.HALTED = s.getB (IIC.base i) IIC.STATUS.HALTED :=
  getB_setF_base _ (by decide) (by decide) _

theorem dequeued_nacks (s : State) (i : Fin 2) (v : Word) (rest : List Word) :
    (dequeued s i v rest).getF (IIC.base i) IIC.CNT.NACKS = s.getF (IIC.base i) IIC.CNT.NACKS :=
  getF_setF_base _ (by decide) (by decide) _

/-- What an operation's end makes of the hall `u` that it has left the queue in. -/
def concluded (u : State) (i : Fin 2) (v : Word) (r : IicResult) : State :=
  let b := IIC.base i
  if r.arbLost then (u.setB b IIC.STATUS.ARB_LOST true).setB b IIC.STATUS.HALTED true
  else if v.getLsbD 9 then u.modIic i fun x => { x with rx := x.rx ++ [r.byte] }
  else if r.nack then
    ((u.countSat b IIC.CNT.NACKS).setB b IIC.STATUS.NACKED true).setB b IIC.STATUS.HALTED true
  else u

theorem execIicOperation_eq {s : State} {i : Fin 2} {v : Word} {rest : List Word} (r : IicResult)
    (hq : s.iic[i].queue = v :: rest) (hen : s.getB (IIC.base i) IIC.CTRL.ENABLE = true)
    (hrun : s.getB (IIC.base i) IIC.STATUS.HALTED = false) :
    exec (.iicOperation i r) s = .next (concluded (dequeued s i v rest) i v r) := by
  show execIicOperation i r s = _
  unfold execIicOperation
  rw [hq]
  exact congrArg Host.Outcome.next (if_pos (by rw [hen, hrun]; rfl))

section
variable {u : State} {i : Fin 2} {v : Word} {r : IicResult}

theorem concluded_queue : (concluded u i v r).iic[i].queue = u.iic[i].queue ∧
    (concluded u i v r).iic[i].last = u.iic[i].last := by
  unfold concluded
  dsimp only
  split
  · exact ⟨rfl, rfl⟩
  split
  · rw [modIic_iic_self]; exact ⟨rfl, rfl⟩
  split <;> exact ⟨rfl, rfl⟩

theorem concluded_iic_other {j : Fin 2} (h : j ≠ i) : (concluded u i v r).iic[j] = u.iic[j] := by
  unfold concluded
  dsimp only
  split
  · rfl
  split
  · exact modIic_iic_other u h _
  split <;> rfl

/-- A lost arbitration halts the queue. -/
theorem concluded_lost (h : r.arbLost = true) :
    (concluded u i v r).getB (IIC.base i) IIC.STATUS.HALTED = true ∧
    (concluded u i v r).getB (IIC.base i) IIC.STATUS.ARB_LOST = true ∧ (concluded u i v r).iic = u.iic := by
  have eq : concluded u i v r =
      (u.setB (IIC.base i) IIC.STATUS.ARB_LOST true).setB (IIC.base i) IIC.STATUS.HALTED true := if_pos h
  rw [eq]
  exact ⟨getB_setB_same _ _ _ _, (getB_setB_base _ (by decide) (by decide) _).trans (getB_setB_same _ _ _ _), rfl⟩

/-- An operation that reads holds its byte and leaves HALTED as it is. -/
theorem concluded_read (h : r.arbLost = false) (hv : v.getLsbD 9 = true) :
    (concluded u i v r).getB (IIC.base i) IIC.STATUS.HALTED = u.getB (IIC.base i) IIC.STATUS.HALTED ∧
    (concluded u i v r).iic[i].rx = u.iic[i].rx ++ [r.byte] := by
  have eq : concluded u i v r = u.modIic i fun x => { x with rx := x.rx ++ [r.byte] } :=
    (if_neg (ne_true_of_eq_false h)).trans (if_pos hv)
  rw [eq]
  exact ⟨getB_congr (modIic_regs u i _) _ _, by rw [modIic_iic_self]⟩

/-- A written byte halts the queue where a NACK answers it, which counts. -/
theorem concluded_written (h : r.arbLost = false) (hv : v.getLsbD 9 = false)
    (hrun : u.getB (IIC.base i) IIC.STATUS.HALTED = false) :
    (concluded u i v r).iic = u.iic ∧ (concluded u i v r).getB (IIC.base i) IIC.STATUS.HALTED = r.nack ∧
    (r.nack = true → (concluded u i v r).getB (IIC.base i) IIC.STATUS.NACKED = true ∧
      (concluded u i v r).getF (IIC.base i) IIC.CNT.NACKS = min (u.getF (IIC.base i) IIC.CNT.NACKS + 1) 0xFFFF) := by
  have eq : concluded u i v r = if r.nack then ((u.countSat (IIC.base i) IIC.CNT.NACKS).setB (IIC.base i)
      IIC.STATUS.NACKED true).setB (IIC.base i) IIC.STATUS.HALTED true else u :=
    (if_neg (ne_true_of_eq_false h)).trans (if_neg (ne_true_of_eq_false hv))
  rw [eq]
  cases r.nack with
  | false => exact ⟨rfl, hrun, fun h => nomatch h⟩
  | true =>
    rw [if_pos rfl]
    refine ⟨rfl, getB_setB_same _ _ _ _, fun _ => ⟨?_, ?_⟩⟩
    · exact (getB_setB_base _ (by decide) (by decide) _).trans (getB_setB_same _ _ _ _)
    · exact ((getF_setB_base _ (by decide) (by decide) _).trans (getF_setB_base _ (by decide) (by decide) _)).trans
        (getF_countSat_same u _ IIC.CNT.NACKS 1)

end

theorem iicOperation_completes (s : State) (i : Fin 2) (r : IicResult) (v : Word) (rest : List Word)
    (hq : s.iic[i].queue = v :: rest) (hen : s.getB (IIC.base i) IIC.CTRL.ENABLE = true)
    (hrun : s.getB (IIC.base i) IIC.STATUS.HALTED = false) :
    let b := IIC.base i
    Answers (.iicOperation i r) s fun t =>
      t.iic[i].queue = rest ∧ t.iic[i].last = some v ∧ (∀ j : Fin 2, j ≠ i → t.iic[j] = s.iic[j]) ∧
      (r.arbLost = true → t.getB b IIC.STATUS.HALTED = true ∧ t.getB b IIC.STATUS.ARB_LOST = true ∧
        t.iic[i].rx = s.iic[i].rx) ∧
      (r.arbLost = false → v.getLsbD 9 = true →
        t.getB b IIC.STATUS.HALTED = false ∧ t.iic[i].rx = s.iic[i].rx ++ [r.byte]) ∧
      (r.arbLost = false → v.getLsbD 9 = false →
        t.iic[i].rx = s.iic[i].rx ∧ t.getB b IIC.STATUS.HALTED = r.nack ∧
        (r.nack = true → t.getB b IIC.STATUS.NACKED = true ∧
          t.getF b IIC.CNT.NACKS = min (s.getF b IIC.CNT.NACKS + 1) 0xFFFF)) := by
  intro b
  have record := dequeued_iic s i v rest
  have rx : (dequeued s i v rest).iic[i].rx = s.iic[i].rx := by rw [record]
  have running := (dequeued_halted s i v rest).trans hrun
  obtain ⟨queue, last⟩ := concluded_queue (u := dequeued s i v rest) (i := i) (v := v) (r := r)
  refine ⟨_, execIicOperation_eq r hq hen hrun, queue.trans (by rw [record]), last.trans (by rw [record]),
    fun j hj => (concluded_iic_other hj).trans (dequeued_iic_other s hj v rest), fun lost => ?_, fun won reads => ?_,
    fun won writes => ?_⟩
  · obtain ⟨halted, arb, iic⟩ := concluded_lost (u := dequeued s i v rest) (i := i) (v := v) lost
    exact ⟨halted, arb, by rw [iic, rx]⟩
  · obtain ⟨halted, byte⟩ := concluded_read (u := dequeued s i v rest) (i := i) won reads
    exact ⟨halted.trans running, by rw [byte, rx]⟩
  · obtain ⟨iic, halted, nacked⟩ := concluded_written won writes running
    rw [dequeued_nacks] at nacked
    exact ⟨by rw [iic, rx], halted, nacked⟩

theorem iicResume_restarts (s : State) (init : Fin 16) (i : Fin 2) (h : Reaches s (IIC.base i + IIC.CMD.W.off)) :
    let b := IIC.base i
    Answers (.iicResume init i) s fun t =>
      t.getB b IIC.STATUS.HALTED = false ∧ t.getB b IIC.STATUS.NACKED = false ∧ t.getB b IIC.STATUS.ARB_LOST = false ∧
      OnlyFields s t b [IIC.STATUS.HALTED, IIC.STATUS.NACKED, IIC.STATUS.ARB_LOST] := by
  intro b
  refine ⟨_, congrArg Host.Outcome.next (onCommand_of h _), ?_, ?_, getB_setB_same _ _ _ _, ?_⟩
  · exact ((getB_setB_base _ (by decide) (by decide) _).trans (getB_setB_base _ (by decide) (by decide) _)).trans
      (getB_setB_same _ _ _ _)
  · exact (getB_setB_base _ (by decide) (by decide) _).trans (getB_setB_same _ _ _ _)
  · exact (((OnlyFields.refl s b _).setB false (by decide)).setB false (by decide)).setB false (by decide)

theorem iicRxdata_empty (s : State) (init : Fin 16) (i : Fin 2) (peek : Bool)
    (h : Reaches s (IIC.base i + IIC.RXDATA.DATA.off)) (hrx : s.iic[i].rx = []) :
    Answers (.iicRxdata init i peek) s fun t => t = { s with readData := s.readData.set init 0 } := by
  have pop : s.iicPop i peek = (0, s) := by unfold State.iicPop; rw [hrx]
  refine ⟨_, congrArg Host.Outcome.next (onRead_of h _ _), ?_⟩
  rw [pop]

theorem iicRxdata_head (s : State) (init : Fin 16) (i : Fin 2) (v : BitVec 8) (rest : List (BitVec 8))
    (h : Reaches s (IIC.base i + IIC.RXDATA.DATA.off)) (hrx : s.iic[i].rx = v :: rest) :
    (Answers (.iicRxdata init i true) s fun t => t = { s with readData := s.readData.set init (v.setWidth 32) }) ∧
    (Answers (.iicRxdata init i false) s fun t =>
      t.iic[i] = { s.iic[i] with rx := rest } ∧ (∀ j : Fin 2, j ≠ i → t.iic[j] = s.iic[j]) ∧
      t = { s with readData := s.readData.set init (v.setWidth 32), iic := t.iic }) := by
  have pop (peek : Bool) : s.iicPop i peek =
      (v.setWidth 32, if peek then s else s.modIic i fun x => { x with rx := rest }) := by
    unfold State.iicPop; rw [hrx]
  refine ⟨⟨_, congrArg Host.Outcome.next (onRead_of h _ _), ?_⟩, ⟨_, congrArg Host.Outcome.next (onRead_of h _ _), ?_⟩⟩
  · rw [pop]; rfl
  · rw [pop]
    exact ⟨modIic_iic_self s i fun x => { x with rx := rest },
      fun j hj => modIic_iic_other s hj fun x => { x with rx := rest }, rfl⟩

/-! ### Decoders: the filters and the count (R342, R533, R538) -/

section
variable (s : State) (d : Fin 4) (v : Word)

/-- A new value of POS keeps the one before it, for the engines (R223). -/
theorem setPos_eq : ∃ edge before, s.setPos d v =
    (s.modQep d fun q => { q with changedAt := edge, before := before }).wr (QEP.base d + QEP.POS.POS.off) v := by
  unfold State.setPos
  dsimp only
  split
  · refine ⟨s.qep[d].changedAt, s.qep[d].before, congrArg (State.wr · _ v) ?_⟩
    have same : s.qep.set d s.qep[d] = s.qep := Vector.set_getElem_self _
    exact congrArg (fun q => { s with qep := q }) same.symm
  · exact ⟨s.now, _, rfl⟩

theorem setPos_rd_same : (s.setPos d v).rd (QEP.base d + QEP.POS.POS.off) = v := rd_wr_same _ _ _

theorem setPos_rd_other {a : Nat} (h : a ≠ QEP.base d + QEP.POS.POS.off) : (s.setPos d v).rd a = s.rd a := by
  obtain ⟨_, _, eq⟩ := setPos_eq s d v
  rw [eq, rd_wr_other _ h]
  exact rd_congr (modQep_regs s d _) a

theorem setPos_getB {f : Fld} (h : f.off ≠ QEP.POS.POS.off) :
    (s.setPos d v).getB (QEP.base d) f = s.getB (QEP.base d) f := by
  unfold State.getB State.getF
  rw [setPos_rd_other s d v fun e => h (Nat.add_left_cancel e)]

theorem setPos_a : (s.setPos d v).qep[d].a = s.qep[d].a := by
  obtain ⟨_, _, eq⟩ := setPos_eq s d v
  simp only [eq, wr_qep, modQep_qep_self]

theorem setPos_b : (s.setPos d v).qep[d].b = s.qep[d].b := by
  obtain ⟨_, _, eq⟩ := setPos_eq s d v
  simp only [eq, wr_qep, modQep_qep_self]

theorem setPos_qep_other {j : Fin 4} (h : j ≠ d) : (s.setPos d v).qep[j] = s.qep[j] := by
  obtain ⟨_, _, eq⟩ := setPos_eq s d v
  simp only [eq, wr_qep, modQep_qep_other s h]

theorem setPos_crier : (s.setPos d v).crier = s.crier := by
  obtain ⟨_, _, eq⟩ := setPos_eq s d v
  rw [eq, wr_crier, modQep_crier]

/-- The filter of a decoder's input clocks its ball's level every fabric cycle. -/
theorem qepPasses_eq (x : BallLevel) : s.qepPasses d x = (decide (2 * ac ≤ x.since) &&
    min ((x.since - 2 * ac) / ac) ((s.now + (ac - 1)) / ac) == s.getF (QEP.base d) QEP.CTRL.FILT) := by
  unfold State.qepPasses State.passes shownFor
  by_cases h : 2 * ac ≤ x.since <;> simp [h]

/-- The level of an input after its filter, `old` while the filter passes none. -/
def filtered (x : BallLevel) (old : Bool) : Bool := if s.qepPasses d x then x.level else old

end

/-- The count of a change from the levels of `q` to `a` and `b`, by MODE (R533). -/
def countStep (mode : Nat) (q : Qep) (a b : Bool) : Int :=
  match mode with
  | 0 => quadStep q.a q.b a b
  | 1 => if a && !q.a then (if b then -1 else 1) else 0
  | 2 => (if a && !q.a then 1 else 0) - (if b && !q.b then 1 else 0)
  | _ => 0

theorem countStep_eq (mode : Nat) (q : Qep) (a b : Bool) :
    countStep mode q a b =
      let up : Int := if a = true ∧ q.a = false then 1 else 0
      if mode = 0 then (if a ≠ q.a ∧ b ≠ q.b then 0 else if a ≠ q.a then (if a ≠ q.b then 1 else -1)
        else if b ≠ q.b then (if b = a then 1 else -1) else 0)
      else if mode = 1 then (if b then -up else up)
      else if mode = 2 then up - (if b = true ∧ q.b = false then 1 else 0) else 0 := by
  have cases : ∀ qa qb a b : Bool,
      quadStep qa qb a b = (if a ≠ qa ∧ b ≠ qb then 0 else if a ≠ qa then (if a ≠ qb then 1 else -1)
        else if b ≠ qb then (if b = a then 1 else -1) else 0) ∧
      (if a && !qa then (if b then -1 else 1) else 0 : Int) =
        (if b then -(if a = true ∧ qa = false then 1 else 0) else (if a = true ∧ qa = false then 1 else 0)) ∧
      ((if a && !qa then 1 else 0) - (if b && !qb then 1 else 0) : Int) =
        (if a = true ∧ qa = false then 1 else 0) - (if b = true ∧ qb = false then 1 else 0) := by decide
  obtain ⟨quadrature, direction, twoInputs⟩ := cases q.a q.b a b
  match mode with
  | 0 => exact quadrature
  | 1 => exact direction
  | 2 => exact twoInputs
  | _ + 3 => rfl

/-- The same with the direction that INV_DIR gives it. -/
def countDelta (s : State) (d : Fin 4) (a b : Bool) : Int :=
  if s.getB (QEP.base d) QEP.CTRL.INV_DIR then -countStep (s.getF (QEP.base d) QEP.CTRL.MODE) s.qep[d] a b
  else countStep (s.getF (QEP.base d) QEP.CTRL.MODE) s.qep[d] a b

/-- A and B have both changed in quadrature mode, which counts nothing but an error. -/
abbrev PhaseError (s : State) (d : Fin 4) (a b : Bool) : Prop :=
  s.getF (QEP.base d) QEP.CTRL.MODE = 0 ∧ a ≠ s.qep[d].a ∧ b ≠ s.qep[d].b

theorem countDelta_of_phaseError {s : State} {d : Fin 4} {a b : Bool} (h : PhaseError s d a b) :
    countDelta s d a b = 0 := by
  obtain ⟨mode, changedA, changedB⟩ := h
  have step : countStep (s.getF (QEP.base d) QEP.CTRL.MODE) s.qep[d] a b = 0 := by
    rw [countStep_eq, mode]
    exact (if_pos rfl).trans (if_pos ⟨changedA, changedB⟩)
  unfold countDelta
  rw [step, neg_zero, ite_self]

/-- Decoder `d` shows the levels `a` and `b`. -/
def levelled (s : State) (d : Fin 4) (a b : Bool) : State := s.modQep d fun x => { x with a := a, b := b }

/-- POS of decoder `d` counts on by `delta`, unless a Z edge has cleared it on this edge (R538). -/
def countedOn (u : State) (d : Fin 4) (zAt : Option Nat) (delta : Int) : State :=
  let p := u.rd (QEP.base d + QEP.POS.POS.off)
  if delta = 0 ∨ zAt = some u.now then u
  else ((u.modQep d fun x => { x with counted := some (u.now, p) }).setB (QEP.base d) QEP.STATUS.DIR
    (decide (delta < 0))).setPos d (BitVec.ofInt 32 (p.toNat + delta))

section
variable {s : State} {d : Fin 4} {a b : Bool}

theorem levelled_qep : (levelled s d a b).qep[d] = { s.qep[d] with a := a, b := b } :=
  modQep_qep_self s d fun x => { x with a := a, b := b }

theorem levelled_qep_other {j : Fin 4} (h : j ≠ d) : (levelled s d a b).qep[j] = s.qep[j] :=
  modQep_qep_other s h fun x => { x with a := a, b := b }

end

section
variable {u : State} {d : Fin 4} {zAt : Option Nat} {delta : Int}

theorem countedOn_of_zero : countedOn u d zAt 0 = u := by
  unfold countedOn
  exact if_pos (.inl rfl)

/-- The count does not change the levels, nor another decoder. -/
theorem countedOn_qep : (countedOn u d zAt delta).qep[d].a = u.qep[d].a ∧
    (countedOn u d zAt delta).qep[d].b = u.qep[d].b := by
  unfold countedOn
  dsimp only
  split
  · exact ⟨rfl, rfl⟩
  · simp only [setPos_a, setPos_b, setB_qep, modQep_qep_self, and_self]

theorem countedOn_qep_other {j : Fin 4} (h : j ≠ d) : (countedOn u d zAt delta).qep[j] = u.qep[j] := by
  unfold countedOn
  dsimp only
  split
  · rfl
  · simp only [setPos_qep_other _ d _ h, setB_qep, modQep_qep_other u h]

/-- POS is a signed count that wraps, and DIR shows the direction of the last step. -/
theorem countedOn_counts (h : zAt ≠ some u.now) :
    (countedOn u d zAt delta).rd (QEP.base d + QEP.POS.POS.off) =
      BitVec.ofInt 32 ((u.rd (QEP.base d + QEP.POS.POS.off)).toInt + delta) ∧
    (delta ≠ 0 → ((countedOn u d zAt delta).getB (QEP.base d) QEP.STATUS.DIR = true ↔ delta < 0)) := by
  by_cases still : delta = 0
  · subst still
    rw [countedOn_of_zero]
    exact ⟨by rw [add_zero, BitVec.ofInt_toInt], fun h => absurd rfl h⟩
  · unfold countedOn
    rw [if_neg (not_or.2 ⟨still, h⟩)]
    refine ⟨(setPos_rd_same _ _ _).trans (ofInt_toNat_add _ _), fun _ => ?_⟩
    rw [setPos_getB _ _ _ (by decide), getB_setB_same _ _ QEP.STATUS.DIR, decide_eq_true_iff]

theorem countedOn_cleared (h : zAt = some u.now) : countedOn u d zAt delta = u := by
  unfold countedOn
  exact if_pos (.inr h)

end

section
variable (s : State) (d : Fin 4) (xa xb : BallLevel)

/-- The decoder at the levels `a` and `b`, with the error of a change of both counted. -/
def phaseChecked (a b : Bool) : State :=
  if PhaseError s d a b then
    (levelled s d a b).countSat (QEP.base d) QEP.CNT.PHASE_ERR
  else levelled s d a b

variable {s d} in
theorem phaseChecked_same {α : Type} (g : State → α) (h : ∀ u : State, ∀ b f, g (u.countSat b f) = g u) (a b : Bool) :
    g (phaseChecked s d a b) = g (levelled s d a b) := by
  unfold phaseChecked
  split
  · exact h _ _ _
  · rfl

theorem phaseChecked_rd_pos (a b : Bool) :
    (phaseChecked s d a b).rd (QEP.base d + QEP.POS.POS.off) = s.rd (QEP.base d + QEP.POS.POS.off) := by
  have level := rd_congr (modQep_regs s d fun x => { x with a := a, b := b }) (QEP.base d + QEP.POS.POS.off)
  unfold phaseChecked
  split
  · refine (rd_countSat_other _ (fun e => ?_) 1).trans level
    exact absurd (Nat.add_left_cancel e) (by decide)
  · exact level

theorem phaseChecked_error {a b : Bool} (h : PhaseError s d a b) :
    (phaseChecked s d a b).getF (QEP.base d) QEP.CNT.PHASE_ERR =
      min (s.getF (QEP.base d) QEP.CNT.PHASE_ERR + 1) 0xFFFF := by
  unfold phaseChecked
  rw [if_pos h, getF_countSat_same _ _ QEP.CNT.PHASE_ERR, levelled, getF_congr (modQep_regs s d _)]
  rfl

theorem execQepCountEdge_eq :
    let a := filtered s d xa s.qep[d].a
    let b := filtered s d xb s.qep[d].b
    exec (.qepCountEdge d xa xb) s = .next (if s.getB (QEP.base d) QEP.CTRL.ENABLE then
      countedOn (phaseChecked s d a b) d s.qep[d].zAt (countDelta s d a b) else levelled s d a b) := rfl

theorem qepCountEdge_counts :
    let q := s.qep[d]
    let a := filtered s d xa q.a
    let b' := filtered s d xb q.b
    let b := QEP.base d
    let p := b + QEP.POS.POS.off
    Answers (.qepCountEdge d xa xb) s fun t =>
      t.qep[d].a = a ∧ t.qep[d].b = b' ∧ (∀ j : Fin 4, j ≠ d → t.qep[j] = s.qep[j]) ∧
      (s.getB b QEP.CTRL.ENABLE = false → t.regs = s.regs) ∧
      (s.getB b QEP.CTRL.ENABLE = true →
        (q.zAt ≠ some s.now → t.rd p = BitVec.ofInt 32 ((s.rd p).toInt + countDelta s d a b') ∧
          (countDelta s d a b' ≠ 0 → (t.getB b QEP.STATUS.DIR = true ↔ countDelta s d a b' < 0))) ∧
        (q.zAt = some s.now → t.rd p = s.rd p) ∧
        (PhaseError s d a b' →
          t.getF b QEP.CNT.PHASE_ERR = min (s.getF b QEP.CNT.PHASE_ERR + 1) 0xFFFF ∧ t.rd p = s.rd p)) := by
  intro q a b' b p
  refine ⟨_, execQepCountEdge_eq s d xa xb, ?_⟩
  have levels : (levelled s d a b').qep[d] = { q with a := a, b := b' } := levelled_qep
  have others : ∀ j : Fin 4, j ≠ d → (levelled s d a b').qep[j] = s.qep[j] := fun j hj => levelled_qep_other hj
  cases hen : s.getB (QEP.base d) QEP.CTRL.ENABLE with
  | false =>
    rw [if_neg Bool.false_ne_true]
    exact ⟨by rw [levels], by rw [levels], others, fun _ => modQep_regs s d _, fun on => nomatch on⟩
  | true =>
    let u := phaseChecked s d a b'
    have now : u.now = s.now := phaseChecked_same State.now (fun _ _ _ => rfl) a b'
    have qep : u.qep = (levelled s d a b').qep := phaseChecked_same State.qep (fun _ _ _ => rfl) a b'
    have pos : u.rd p = s.rd p := phaseChecked_rd_pos s d a b'
    obtain ⟨sameA, sameB⟩ := countedOn_qep (u := u) (d := d) (zAt := q.zAt) (delta := countDelta s d a b')
    rw [if_pos rfl]
    refine ⟨sameA.trans (by rw [qep, levels]), sameB.trans (by rw [qep, levels]),
      fun j hj => (countedOn_qep_other hj).trans (by rw [qep, others j hj]),
      fun off => absurd off.symm Bool.false_ne_true, fun _ => ⟨fun h => ?_, fun h => ?_, fun h => ?_⟩⟩
    · rw [← pos]
      exact countedOn_counts (by rwa [now])
    · exact (congrArg (State.rd · p) (countedOn_cleared (h.trans (congrArg some now.symm)))).trans pos
    · have still : countedOn u d q.zAt (countDelta s d a b') = u := by
        rw [countDelta_of_phaseError h, countedOn_of_zero]
      exact ⟨(congrArg (State.getF · b QEP.CNT.PHASE_ERR) still).trans (phaseChecked_error s d h),
        (congrArg (State.rd · p) still).trans pos⟩

end

/-! ### Decoders: Z edges, ARM_Z and POS (R534, R538) -/

section
variable (s : State) (d : Fin 4)

/-- POS as it stood on this edge before a count, which the Z edge undoes (R538). -/
def posBefore : Word :=
  match s.qep[d].counted with
  | some (t, p) => if t = s.now then p else s.rd (QEP.base d + QEP.POS.POS.off)
  | none => s.rd (QEP.base d + QEP.POS.POS.off)

variable {s d} in
theorem posBefore_counted {v : Word} (h : s.qep[d].counted = some (s.now, v)) : posBefore s d = v := by
  unfold posBefore
  rw [h]
  exact if_pos rfl

variable {s d} in
theorem posBefore_still (h : ∀ v, s.qep[d].counted ≠ some (s.now, v)) :
    posBefore s d = s.rd (QEP.base d + QEP.POS.POS.off) := by
  unfold posBefore
  split
  next t p hc => exact if_neg fun e => h p (by rw [hc, e])
  next => rfl

/-- The Z edge acts: its rising level passes the filter, and ZMODE lets it. -/
abbrev ZActs (z : BallLevel) : Prop :=
  z.level = true ∧ s.qepPasses d z = true ∧ s.getB (QEP.base d) QEP.CTRL.ENABLE = true ∧
    (s.getF (QEP.base d) QEP.CTRL.ZMODE = 1 ∨
      (s.getF (QEP.base d) QEP.CTRL.ZMODE = 2 ∧ s.getB (QEP.base d) QEP.STATUS.Z_ARMED = true))

/-- ZPOS has taken `v` and POS is clear; the arming of ZMODE 2 is over. -/
def zCleared (v : Word) : State :=
  let u := (s.wr (QEP.base d + QEP.ZPOS.POS.off) v).setPos d 0
  if s.getF (QEP.base d) QEP.CTRL.ZMODE = 2 then u.setB (QEP.base d) QEP.STATUS.Z_ARMED false else u

/-- The edge is noted, and source 153 + d pulses. -/
def zTaken (v : Word) : State :=
  let u := zCleared s d v
  (u.modQep d fun x => { x with zAt := some u.now }).pulse (153 + d)

theorem execZEdge_eq (z : BallLevel) :
    exec (.zEdge ⟨d, z⟩) s = .next (if ZActs s d z then zTaken s d (posBefore s d) else s) := by
  show execZEdge ⟨d, z⟩ s = _
  unfold execZEdge
  refine congrArg Host.Outcome.next (ite_congr (propext ?_) (fun _ => rfl) fun _ => rfl)
  simp [ZActs, and_assoc]

theorem zTaken_regs (v : Word) : (zTaken s d v).regs = (zCleared s d v).regs := rfl

theorem zTaken_rd_pos (v : Word) : (zTaken s d v).rd (QEP.base d + QEP.POS.POS.off) = 0 := by
  have cleared : (zCleared s d v).rd (QEP.base d + QEP.POS.POS.off) = 0 := by
    unfold zCleared
    dsimp only
    split
    · refine (rd_setB_other _ (fun e => ?_) _).trans (setPos_rd_same _ _ _)
      exact absurd (Nat.add_left_cancel e) (by decide)
    · exact setPos_rd_same _ _ _
  exact (rd_congr (zTaken_regs s d v) _).trans cleared

theorem zTaken_rd_zpos (v : Word) : (zTaken s d v).rd (QEP.base d + QEP.ZPOS.POS.off) = v := by
  have loaded : ((s.wr (QEP.base d + QEP.ZPOS.POS.off) v).setPos d 0).rd (QEP.base d + QEP.ZPOS.POS.off) = v :=
    (setPos_rd_other _ _ _ fun e => absurd (Nat.add_left_cancel e) (by decide)).trans (rd_wr_same _ _ _)
  have cleared : (zCleared s d v).rd (QEP.base d + QEP.ZPOS.POS.off) = v := by
    unfold zCleared
    dsimp only
    split
    · refine (rd_setB_other _ (fun e => ?_) _).trans loaded
      exact absurd (Nat.add_left_cancel e) (by decide)
    · exact loaded
  exact (rd_congr (zTaken_regs s d v) _).trans cleared

theorem zTaken_armed (v : Word) (h : s.getF (QEP.base d) QEP.CTRL.ZMODE = 2) :
    (zTaken s d v).getB (QEP.base d) QEP.STATUS.Z_ARMED = false := by
  have disarmed : (zCleared s d v).getB (QEP.base d) QEP.STATUS.Z_ARMED = false := by
    unfold zCleared
    rw [if_pos h]
    exact getB_setB_same _ _ _ _
  exact (getB_congr (zTaken_regs s d v) _ _).trans disarmed

theorem zCleared_same {α : Type} (g : State → α) (h : ∀ u : State, ∀ b f w, g (u.setB b f w) = g u) (v : Word) :
    g (zCleared s d v) = g ((s.wr (QEP.base d + QEP.ZPOS.POS.off) v).setPos d 0) := by
  unfold zCleared
  dsimp only
  split
  · exact h _ _ _ _
  · rfl

theorem zTaken_launched (v : Word) : (zTaken s d v).crier.launched = s.crier.launched ++ [153 + d.val] := by
  have crier : (zCleared s d v).crier = s.crier :=
    (zCleared_same s d State.crier (fun _ _ _ _ => rfl) v).trans (setPos_crier _ d 0)
  show (zCleared s d v).crier.launched ++ [153 + d.val] = _
  rw [crier]

theorem zTaken_qep_other (v : Word) {j : Fin 4} (h : j ≠ d) : (zTaken s d v).qep[j] = s.qep[j] :=
  calc
    (zTaken s d v).qep[j] = (zCleared s d v).qep[j] := by
      simp only [zTaken, pulse_qep, modQep_qep_other _ h]
    _ = ((s.wr (QEP.base d + QEP.ZPOS.POS.off) v).setPos d 0).qep[j] :=
      zCleared_same s d (·.qep[j]) (fun _ _ _ _ => rfl) v
    _ = s.qep[j] := setPos_qep_other _ d 0 h

theorem zEdge_idle (z : BallLevel) (h : ¬ ZActs s d z) : Answers (.zEdge ⟨d, z⟩) s (· = s) :=
  ⟨_, execZEdge_eq s d z, if_neg h⟩

theorem zEdge_acts (z : BallLevel) (h : ZActs s d z) :
    let b := QEP.base d
    let p := b + QEP.POS.POS.off
    Answers (.zEdge ⟨d, z⟩) s fun t =>
      t.rd p = 0 ∧ t.crier.launched = s.crier.launched ++ [153 + d.val] ∧ (∀ j : Fin 4, j ≠ d → t.qep[j] = s.qep[j]) ∧
      (∀ v, s.qep[d].counted = some (s.now, v) → t.rd (b + QEP.ZPOS.POS.off) = v) ∧
      ((∀ v, s.qep[d].counted ≠ some (s.now, v)) → t.rd (b + QEP.ZPOS.POS.off) = s.rd p) ∧
      (s.getF b QEP.CTRL.ZMODE = 2 → t.getB b QEP.STATUS.Z_ARMED = false) := by
  intro b p
  have runs := (execZEdge_eq s d z).trans (congrArg Host.Outcome.next (if_pos h))
  have zpos := zTaken_rd_zpos s d (posBefore s d)
  exact ⟨_, runs, zTaken_rd_pos s d _, zTaken_launched s d _, fun j hj => zTaken_qep_other s d _ hj,
    fun v hv => zpos.trans (posBefore_counted hv), fun hv => zpos.trans (posBefore_still hv), zTaken_armed s d _⟩

theorem armZ_arms (init : Fin 16) (h : Reaches s (QEP.base d + QEP.CMD.W.off)) :
    let b := QEP.base d
    Answers (.armZ init d) s fun t =>
      t.getB b QEP.STATUS.Z_ARMED = true ∧ OnlyFields s t b [QEP.STATUS.Z_ARMED] :=
  ⟨_, congrArg Host.Outcome.next (onCommand_of h _), getB_setB_same _ _ _ _,
    (OnlyFields.refl s _ _).setB true (by decide)⟩

theorem pos_written (init : Fin 16) (w : Word) (h : Reaches s (QEP.base d + QEP.POS.POS.off)) :
    let p := QEP.base d + QEP.POS.POS.off
    Answers (.pos init d w) s fun t =>
      t.rd p = w ∧ (∀ j : Fin 4, j ≠ d → t.qep[j] = s.qep[j]) ∧ ∀ c, c ≠ p → t.rd c = s.rd c := by
  intro p
  refine ⟨_, congrArg Host.Outcome.next (onCommand_of h _), setPos_rd_same _ d w,
    fun j hj => (setPos_qep_other _ d w hj).trans (modQep_qep_other s hj _),
    fun c hc => (setPos_rd_other _ d w hc).trans (rd_congr (modQep_regs s d _) c)⟩

end

/-! ### GPIO: outputs (R525) -/

/-- The register that OUT_SET and OUT_CLR of one half of the lines change. -/
def outF (hi : Bool) : Fld := if hi then GPIO.OUT_HI.OUT else GPIO.OUT_LO.OUT

theorem outF_word (hi : Bool) : (outF hi).hi = 31 ∧ (outF hi).lo = 0 := by cases hi <;> exact ⟨rfl, rfl⟩

section
variable (s : State) (hi : Bool) (w : Word)

theorem gpioOut_set : s.gpioOut hi true w.toNat =
    s.setF GPIO.base (outF hi) (s.rd (GPIO.base + (outF hi).off) ||| w).toNat := by
  rw [BitVec.toNat_or, ← getF_word s (outF_word hi)]
  rfl

theorem gpioOut_clr : s.gpioOut hi false w.toNat =
    s.setF GPIO.base (outF hi) (s.rd (GPIO.base + (outF hi).off) &&& ~~~w).toNat := by
  have word : s.getF GPIO.base (outF hi) = (s.rd (GPIO.base + (outF hi).off)).toNat := getF_word s (outF_word hi)
  rw [← sub_and_eq, BitVec.toNat_ofNat, ← word, Nat.mod_eq_of_lt]
  · rfl
  · have := (s.rd (GPIO.base + (outF hi).off)).isLt
    omega

theorem outSet_sets (init : Fin 16)
    (h : Reaches s (GPIO.base + if hi then GPIO.OUT_SET_HI.MASK.off else GPIO.OUT_SET_LO.MASK.off)) :
    Answers (.outSet init hi w) s fun t =>
      t.rd (GPIO.base + (outF hi).off) = s.rd (GPIO.base + (outF hi).off) ||| w ∧
      OnlyRegs s t (· = GPIO.base + (outF hi).off) :=
  ⟨_, congrArg Host.Outcome.next ((onCommand_of h _).trans (gpioOut_set s hi w)),
    rd_setF_word s _ _ _ (outF_word hi), (OnlyRegs.refl s _).setF _ rfl⟩

theorem outClr_clears (init : Fin 16)
    (h : Reaches s (GPIO.base + if hi then GPIO.OUT_CLR_HI.MASK.off else GPIO.OUT_CLR_LO.MASK.off)) :
    Answers (.outClr init hi w) s fun t =>
      t.rd (GPIO.base + (outF hi).off) = s.rd (GPIO.base + (outF hi).off) &&& ~~~w ∧
      OnlyRegs s t (· = GPIO.base + (outF hi).off) :=
  ⟨_, congrArg Host.Outcome.next ((onCommand_of h _).trans (gpioOut_clr s hi w)),
    rd_setF_word s _ _ _ (outF_word hi), (OnlyRegs.refl s _).setF _ rfl⟩

end

/-! ### GPIO: watched lines (R342, R526) -/

/-- IN shows `level` on a line. -/
def shownOn (s : State) (line : Nat) (level : Bool) : State :=
  if line < 32 then s.setBit GPIO.base GPIO.IN_LO.IN line level
  else s.setBit GPIO.base GPIO.IN_HI.IN (line - 32) level

theorem gpioIn_shownOn (s : State) {line : Nat} (hl : line < 64) (level : Bool) (k : Nat) :
    (shownOn s line level).gpioIn k = if k = line then level else s.gpioIn k := by
  have lo (i : Nat) (hi : i < 32) (j : Nat) : (s.setBit GPIO.base GPIO.IN_LO.IN i level).bit GPIO.base GPIO.IN_LO.IN j =
      if j = i then level else s.bit GPIO.base GPIO.IN_LO.IN j := bit_setBit s _ GPIO.IN_LO.IN i j level hi
  have up (i : Nat) (hi : i < 32) (j : Nat) : (s.setBit GPIO.base GPIO.IN_HI.IN i level).bit GPIO.base GPIO.IN_HI.IN j =
      if j = i then level else s.bit GPIO.base GPIO.IN_HI.IN j := bit_setBit s _ GPIO.IN_HI.IN i j level hi
  have loKeepsHi (i j : Nat) : (s.setBit GPIO.base GPIO.IN_LO.IN i level).bit GPIO.base GPIO.IN_HI.IN j =
      s.bit GPIO.base GPIO.IN_HI.IN j := congrArg (Nat.testBit · j) (getF_setF_base s (by decide) (by decide) _)
  have hiKeepsLo (i j : Nat) : (s.setBit GPIO.base GPIO.IN_HI.IN i level).bit GPIO.base GPIO.IN_LO.IN j =
      s.bit GPIO.base GPIO.IN_LO.IN j := congrArg (Nat.testBit · j) (getF_setF_base s (by decide) (by decide) _)
  unfold shownOn State.gpioIn
  by_cases hline : line < 32 <;> by_cases hk : k < 32
  · rw [if_pos hline, if_pos hk, if_pos hk, lo line hline]
  · rw [if_pos hline, if_neg hk, if_neg hk, loKeepsHi, if_neg (by omega)]
  · rw [if_neg hline, if_pos hk, if_pos hk, hiKeepsLo, if_neg (by omega)]
  · rw [if_neg hline, if_neg hk, if_neg hk, up _ (by omega)]
    exact if_congr (by omega) rfl rfl

theorem gpioIn_congr {s t : State} (h : ∀ f, t.getF GPIO.base f = s.getF GPIO.base f) (k : Nat) :
    t.gpioIn k = s.gpioIn k := by
  simp only [State.gpioIn, State.bit, h]

/-- Which line a source watches, and how, does not change with IN. -/
theorem getF_irqCfg_shownOn (s : State) (line : Nat) (level : Bool) {f : Fld} (h : 0x40 ≤ f.off) :
    (shownOn s line level).getF GPIO.base f = s.getF GPIO.base f := by
  have hlo : f.off ≠ GPIO.IN_LO.IN.off := fun e => absurd (e ▸ h) (by decide)
  have hhi : f.off ≠ GPIO.IN_HI.IN.off := fun e => absurd (e ▸ h) (by decide)
  unfold shownOn
  split
  · exact getF_setF_base s (.inl hlo) (by decide) _
  · exact getF_setF_base s (.inl hhi) (by decide) _

theorem sourceExists_gpio {k : Nat} (hk : k < 8) : sourceExists (157 + k) = true := by
  simp [sourceExists]; omega

/-- A register of the crier's masks. -/
def InMasks (a : Nat) : Prop := a < CRI.base + 0x400

theorem not_inMasks_gpio (o : Nat) : ¬ InMasks (GPIO.base + o) := by
  unfold InMasks
  rw [show GPIO.base = CRI.base + 0x40E0000 from rfl]
  omega

theorem inMasks_lineOrPend {n a : Nat} (hn : n < 256) (h : LineOrPend n a) : InMasks a := by
  unfold InMasks
  rcases h with rfl | rfl
  · show CRI.base + (0x180 + 4 * (n / 32)) < _
    omega
  · show CRI.base + (0x100 + 4 * (n / 32)) < _
    omega

/-- The line of a source is its own. -/
theorem setLine_srcBit_line_other (s : State) {n m : Nat} (hn : n < 256) (hm : m < 256) (hne : m ≠ n) (v : Bool) :
    (s.setLine n v).srcBit CRI.LINE.BITS m = s.srcBit CRI.LINE.BITS m := by
  have pended (u : State) : (u.levelPend n).srcBit CRI.LINE.BITS m = u.srcBit CRI.LINE.BITS m := by
    unfold State.levelPend
    split
    · exact pend_srcBit_line u n m hm hn
    · rfl
  cases hs : sourceExists n with
  | false => rw [State.setLine, hs]; rfl
  | true =>
    rw [setLine_eq hs, pended, setSrcBit_line_line, if_neg hne]
    split
    · exact setSrcBit_pend_line s n m false hn hm
    · rfl

/-- A mode that pends its source on this change of a line. -/
def EdgePends (mode : Nat) (level was : Bool) : Prop :=
  (mode = 0 ∧ level = true ∧ was = false) ∨ (mode = 1 ∧ level = false ∧ was = true) ∨ (mode = 2 ∧ level ≠ was)

section
variable (u : State) (line : Nat) (was level : Bool) (k : Nat)

/-- A watch comes to the setting of a pending bit, to that of a line, or to nothing. -/
theorem gpioWatch_cases : u.gpioWatch line was level k = u ∨ u.gpioWatch line was level k = u.pend (157 + k) ∨
    ∃ v, u.gpioWatch line was level k = u.setLine (157 + k) v := by
  unfold State.gpioWatch
  split
  · split
    · split <;> simp
    · split <;> simp
    · split <;> simp
    · exact .inr (.inr ⟨_, rfl⟩)
    · exact .inr (.inr ⟨_, rfl⟩)
    · exact .inl rfl
  · exact .inl rfl

variable {line was level k}

theorem gpioWatch_only (hk : k < 8) : OnlyRegs u (u.gpioWatch line was level k) InMasks := by
  have start := OnlyRegs.refl u InMasks
  have masks : ∀ a, LineOrPend (157 + k) a → InMasks a := fun a => inMasks_lineOrPend (by omega)
  rcases gpioWatch_cases u line was level k with eq | eq | ⟨v, eq⟩ <;> rw [eq]
  · exact start
  · exact start.pend _ (masks _ (.inr rfl))
  · exact start.setLine _ v masks

/-- A watch leaves every other source's line and pending bit. -/
theorem gpioWatch_other {j : Nat} (hj : j < 8) (hk : k < 8) (hne : j ≠ k) :
    (u.gpioWatch line was level k).srcBit CRI.PEND.BITS (157 + j) = u.srcBit CRI.PEND.BITS (157 + j) ∧
    (u.gpioWatch line was level k).srcBit CRI.LINE.BITS (157 + j) = u.srcBit CRI.LINE.BITS (157 + j) := by
  have ne : 157 + j ≠ 157 + k := by omega
  have ltj : 157 + j < 256 := by omega
  have ltk : 157 + k < 256 := by omega
  have start := sourceBecomes_refl u (157 + k)
  have hn := sourceExists_gpio hk
  rcases gpioWatch_cases u line was level k with eq | eq | ⟨v, eq⟩ <;> rw [eq]
  · exact ⟨rfl, rfl⟩
  · exact ⟨(start.pendIf hn true).others _ ltj ne, pend_srcBit_line u _ _ ltj ltk⟩
  · exact ⟨(start.setLine hn v).others _ ltj ne, setLine_srcBit_line_other u ltk ltj ne v⟩

theorem gpioWatch_pends (hk : k < 8) (hline : u.getF GPIO.base (GPIO.IRQ_CFG.LINE.at (4 * k)) = line)
    (h : EdgePends (u.getF GPIO.base (GPIO.IRQ_CFG.MODE.at (4 * k))) level was) :
    (u.gpioWatch line was level k).srcBit CRI.PEND.BITS (157 + k) = true := by
  have eq : u.gpioWatch line was level k = u.pend (157 + k) := by
    unfold State.gpioWatch
    rw [if_pos hline]
    rcases h with ⟨mode, rfl, rfl⟩ | ⟨mode, rfl, rfl⟩ | ⟨mode, change⟩ <;> rw [mode]
    · rfl
    · rfl
    · exact if_pos (bne_iff_ne.2 change)
  rw [eq, pend_srcBit]
  exact if_pos ⟨rfl, sourceExists_gpio hk⟩

theorem gpioWatch_line (hk : k < 8) (hline : u.getF GPIO.base (GPIO.IRQ_CFG.LINE.at (4 * k)) = line)
    (h : u.getF GPIO.base (GPIO.IRQ_CFG.MODE.at (4 * k)) = 3 ∨ u.getF GPIO.base (GPIO.IRQ_CFG.MODE.at (4 * k)) = 4) :
    (u.gpioWatch line was level k).srcBit CRI.LINE.BITS (157 + k) =
      (level != (u.getF GPIO.base (GPIO.IRQ_CFG.MODE.at (4 * k)) == 4)) := by
  have eq : u.gpioWatch line was level k =
      u.setLine (157 + k) (level != (u.getF GPIO.base (GPIO.IRQ_CFG.MODE.at (4 * k)) == 4)) := by
    unfold State.gpioWatch
    rw [if_pos hline]
    rcases h with mode | mode <;> rw [mode] <;> cases level <;> rfl
  rw [eq]
  exact ((sourceBecomes_refl u (157 + k)).setLine (sourceExists_gpio hk) _).line

end

/-- The hall `t` shows what source 157 + k makes of a change of `line`, with IRQ_CFG as `s` has it. -/
structure Watched (s t : State) (line : Nat) (was level : Bool) (k : Nat) : Prop where
  pends : EdgePends (s.getF GPIO.base (GPIO.IRQ_CFG.MODE.at (4 * k))) level was →
    t.srcBit CRI.PEND.BITS (157 + k) = true
  line : s.getF GPIO.base (GPIO.IRQ_CFG.MODE.at (4 * k)) = 3 ∨ s.getF GPIO.base (GPIO.IRQ_CFG.MODE.at (4 * k)) = 4 →
    t.srcBit CRI.LINE.BITS (157 + k) = (level != (s.getF GPIO.base (GPIO.IRQ_CFG.MODE.at (4 * k)) == 4))

/-- The watches of the first `n` sources change mask registers only, and none undoes an earlier one. -/
theorem watches_first (s : State) (line : Nat) (was level : Bool) (n : Nat) (hn : n ≤ 8) :
    OnlyRegs s (s.forAll n fun t k => t.gpioWatch line was level k) InMasks ∧
    ∀ k < n, s.getF GPIO.base (GPIO.IRQ_CFG.LINE.at (4 * k)) = line →
      Watched s (s.forAll n fun t k => t.gpioWatch line was level k) line was level k := by
  induction n with
  | zero => exact ⟨OnlyRegs.refl s _, fun k hk => absurd hk (Nat.not_lt_zero k)⟩
  | succ n ih =>
    obtain ⟨frame, watched⟩ := ih (by omega)
    have next : s.forAll (n + 1) (fun t k => t.gpioWatch line was level k) =
        (s.forAll n fun t k => t.gpioWatch line was level k).gpioWatch line was level n := by
      simp only [State.forAll, List.range_succ, List.foldl_append, List.foldl_cons, List.foldl_nil]
    rw [next]
    generalize (s.forAll n fun t k => t.gpioWatch line was level k) = u at frame watched
    have step := gpioWatch_only u (line := line) (was := was) (level := level) (k := n) (by omega)
    have cfg (f : Fld) : u.getF GPIO.base f = s.getF GPIO.base f := frame.getF (not_inMasks_gpio _)
    refine ⟨frame.trans step, fun k hk hline => ?_⟩
    rcases Nat.lt_succ_iff_lt_or_eq.1 hk with earlier | rfl
    · obtain ⟨pend, lines⟩ := gpioWatch_other u (line := line) (was := was) (level := level) (j := k) (k := n)
        (by omega) (by omega) (by omega)
      have before := watched k earlier hline
      exact ⟨fun h => pend.trans (before.pends h), fun h => lines.trans (before.line h)⟩
    · refine ⟨fun h => ?_, fun h => ?_⟩
      · exact gpioWatch_pends u (by omega) ((cfg _).trans hline) (by rwa [cfg])
      · rw [← cfg] at h ⊢
        exact gpioWatch_line u (by omega) ((cfg _).trans hline) h

section
variable (s : State) (line : Fin 64) (level : Bool) (since : Nat)

theorem gpioIrqEdge_early (h : since < 2 * ac) : Answers (.gpioIrqEdge line ⟨level, since⟩) s (· = s) := by
  have hidden : shownFor since ac = none := if_neg (Nat.not_le.2 h)
  exact ⟨_, congrArg Host.Outcome.next (if_pos (by rw [hidden]; rfl)), rfl⟩

theorem gpioIrqEdge_shows (h : 2 * ac ≤ since) :
    Answers (.gpioIrqEdge line ⟨level, since⟩) s fun t =>
      t.gpioIn line = level ∧ (∀ k : Fin 64, k ≠ line → t.gpioIn k = s.gpioIn k) ∧
      ∀ k < 8, s.getF GPIO.base (GPIO.IRQ_CFG.LINE.at (4 * k)) = line.val →
        Watched s t line (s.gpioIn line) level k := by
  let u := shownOn s line level
  have seen : shownFor since ac = some ((since - 2 * ac) / ac) := if_pos h
  have runs : exec (.gpioIrqEdge line ⟨level, since⟩) s =
      .next (u.forAll 8 fun t k => t.gpioWatch line (s.gpioIn line) level k) :=
    congrArg Host.Outcome.next (if_neg (by rw [seen]; exact Bool.false_ne_true))
  obtain ⟨frame, watched⟩ := watches_first u line (s.gpioIn line) level 8 (le_refl 8)
  have shows (k : Nat) : (u.forAll 8 fun t k => t.gpioWatch line (s.gpioIn line) level k).gpioIn k =
      if k = line.val then level else s.gpioIn k := by
    rw [← gpioIn_shownOn s line.isLt level k]
    exact gpioIn_congr (fun f => frame.getF (not_inMasks_gpio f.off)) k
  have cfg (k : Nat) {f : Fld} (hf : 0x40 ≤ f.off) :
      u.getF GPIO.base (f.at (4 * k)) = s.getF GPIO.base (f.at (4 * k)) :=
    getF_irqCfg_shownOn s line level (Nat.le_add_right_of_le hf)
  refine ⟨_, runs, (shows line).trans (if_pos rfl), fun k hk => (shows k).trans (if_neg fun e => hk (Fin.ext e)),
    fun k hk hline => ?_⟩
  obtain ⟨pends, lines⟩ := watched k hk ((cfg k (by decide)).trans hline)
  rw [cfg k (by decide)] at pends lines
  exact ⟨pends, lines⟩

end

/-! ### The obligation -/

/-- Settles O59: I²C, decoders and GPIO each by the lemmas about their commands; the filters and the modes of a decoder
are those of the statement by `qepPasses_eq` and `countStep_eq`. -/
theorem slowPeripherals : Obligations.SlowPeripherals := by
  unfold Obligations.SlowPeripherals
  intro s init w
  refine ⟨fun i r peek => ?iic, fun d xa xb z => ?qep, fun hi => ⟨outSet_sets s hi w init, outClr_clears s hi w init⟩,
    fun line level since => gpioIrqEdge_early s line level since, fun line level since h => ?gpio⟩
  case iic =>
    exact ⟨xfer_queued s init i w, xfer_dropped s init i w, iicOperation_idle s i r, iicOperation_completes s i r,
      iicResume_restarts s init i,
      fun h => ⟨iicRxdata_empty s init i peek h, fun v rest => iicRxdata_head s init i v rest h⟩⟩
  case qep =>
    have counts := qepCountEdge_counts s d xa xb
    have idle := zEdge_idle s d z
    have acts := zEdge_acts s d z
    simp only [filtered, countDelta, countStep_eq, PhaseError, ZActs, qepPasses_eq] at counts idle acts
    obtain ⟨t, runs, ha, hb, others, off, on⟩ := counts
    refine ⟨⟨t, runs, ha, hb, others, off, fun hen => ?_⟩, idle, acts, armZ_arms s d init, pos_written s d init w⟩
    obtain ⟨moves, cleared, error⟩ := on hen
    exact ⟨moves, cleared, fun mode both => error ⟨mode, both⟩⟩
  case gpio =>
    obtain ⟨t, runs, shows, others, watched⟩ := gpioIrqEdge_shows s line level since h
    refine ⟨t, runs, shows, others, fun k hk => ?_⟩
    obtain ⟨pends, lines⟩ := watched k k.isLt hk
    exact ⟨pends, lines⟩

end Sys2Proof.Peripherals
end
